-- ==== Sys2Proof/Word.lean ====
section
/-!
DEFINITION. Words of the machine: the widths of R1 (bit 0 is the least significant bit) and their plainest arithmetic.
-/

namespace Sys2Proof

/-- A byte of memory. -/
abbrev Byte := BitVec 8
/-- A 32-bit lane, element or memory word. -/
abbrev W32 := BitVec 32
/-- A 64-bit scalar, address or instruction word. -/
abbrev W64 := BitVec 64
/-- A set of lanes: bit `l` stands for lane `l` (bits from the width up are zero). -/
abbrev Mask := BitVec 64

/-- A bit as a number. -/
def bit (b : Bool) : Nat := if b then 1 else 0

/-- `[hi:lo]` of a number, as R1 writes it. -/
def field (n hi lo : Nat) : Nat := (n / 2 ^ lo) % 2 ^ (hi + 1 - lo)

/-- Whether bit `i` of a number is set. -/
def bitAt (n i : Nat) : Bool := n / 2 ^ i % 2 == 1

/-- The least `k` with `k * b` at least `a`. -/
def ceilDiv (a b : Nat) : Nat := (a + b - 1) / b

/-- A number of `n` bits read as two's complement. -/
def toSigned (n x : Nat) : Int :=
  let y := x % 2 ^ n
  if 2 * y < 2 ^ n then (y : Int) else (y : Int) - (2 ^ n : Nat)

/-- An integer modulo `2 ^ n`, as a number. -/
def wrapNat (n : Nat) (x : Int) : Nat := (x % ((2 ^ n : Nat) : Int)).toNat

/-- The nearest integer of `[lo, hi]`. -/
def clampInt (lo hi x : Int) : Int := if x < lo then lo else if hi < x then hi else x

/-- The low `k` bytes of a number, the least significant first (R1). -/
def bytesOf : Nat → Nat → List Byte
  | 0, _ => []
  | k + 1, n => BitVec.ofNat 8 n :: bytesOf k (n / 256)

/-- The number whose bytes are listed, the least significant first (R1). -/
def ofBytes : List Byte → Nat
  | [] => 0
  | b :: bs => b.toNat + 256 * ofBytes bs

/-- Replace element `i` of a list (no change beyond the end). -/
def setAt {α : Type} : List α → Nat → α → List α
  | [], _, _ => []
  | _ :: xs, 0, a => a :: xs
  | x :: xs, i + 1, a => x :: setAt xs i a

/-- Apply a function to element `i` of a list. -/
def modAt {α : Type} : List α → Nat → (α → α) → List α
  | [], _, _ => []
  | x :: xs, 0, f => f x :: xs
  | x :: xs, i + 1, f => x :: modAt xs i f

/-- The first index whose element satisfies the test. -/
def indexOf? {α : Type} (p : α → Bool) : List α → Option Nat
  | [] => none
  | x :: xs => if p x then some 0 else (indexOf? p xs).map (· + 1)

/-- Whether bit `l` of a mask is set. -/
def hasLane (m : Mask) (l : Nat) : Bool := bitAt m.toNat l

/-- The lanes of a mask below `n`, ascending: `active(EM)` of Table 0.1. -/
def lanesBelow (n : Nat) (m : Mask) : List Nat := (List.range n).filter (hasLane m)

/-- The mask of the lanes below `n` that satisfy a test. -/
def maskNat (n : Nat) (p : Nat → Bool) : Nat :=
  (List.range n).foldl (fun a l => a + bit (p l) * 2 ^ l) 0

/-- The mask of the lanes below `n` that satisfy a test. -/
def maskOf (n : Nat) (p : Nat → Bool) : Mask := BitVec.ofNat 64 (maskNat n p)

/-- The number of lanes below `n` in a mask. -/
def popMask (n : Nat) (m : Mask) : Nat := (lanesBelow n m).length

/-- The mask with all lanes below `n`. -/
def fullMask (n : Nat) : Mask := BitVec.ofNat 64 (2 ^ n - 1)

end Sys2Proof
end

