-- ==== Sys2Proof/Syntax.lean ====
section
/-!
DEFINITION. The syntax: operand forms and the inductive Instr, one constructor per row of the opcode table.
The instructions of the stream come first; the steps of the device and of the host follow (95_what_each_step_holds.md).
-/

namespace Sys2Proof

/-- Format tags of vector registers (Table 2.1, R22). -/
inductive Tag where
  | raw | i32 | u32 | f32 | f16x2 | bf16x2 | e4m3x4 | e5m2x4 | e2m1x8 | i8x4 | u8x4 | i4x8 | t2x16 | i16x2 | u16x2
  | e8m0x4 | w64 | poison
  deriving DecidableEq, Repr

/-- A vector register of the window or a global one (R67). -/
inductive VReg where
  | v (i : Fin 256)
  | g (i : Fin 64)
  deriving DecidableEq, Repr

abbrev SReg := Fin 64
abbrev PReg := Fin 16
abbrev KReg := Fin 16
abbrev TReg := Fin 256

/-- A guard: predicate and negate bit (R66). -/
structure Guard where
  p   : PReg
  neg : Bool
  deriving DecidableEq, Repr

/-- The completion flag field (R60): none, the clause's flag A, its flag B. -/
inductive Cf where
  | none | a | b
  deriving DecidableEq, Repr

/-- Rounding modes (R38, Table 2.9). -/
inductive Rm where
  | rne | rtz | rup | rdn
  deriving DecidableEq, Repr

/-- A rounding override (R39): none means the mode of ACR. -/
abbrev Rnd := Option Rm

/-- The second operand of format S (Table 3.5): a scalar, or an immediate extended as isel states. -/
inductive Src where
  | reg (s : SReg)
  | sext (i : BitVec 32)
  | zext (i : BitVec 32)
  | high (i : BitVec 32)
  deriving DecidableEq, Repr

/-- Control fields of SBFE and SBFI (R229): a scalar, or fourteen bits. -/
inductive BfSrc where
  | reg (s : SReg)
  | imm (f : BitVec 14)
  deriving DecidableEq, Repr

/-- Widths of memory accesses, fn 0 to 6 (Table 14.2). -/
inductive MWidth where
  | u8 | i8 | u16 | i16 | b32 | b64 | b128
  deriving DecidableEq, Repr

/-- Widths of KLD, fn 0 to 3 (Table 19.7). -/
inductive KWidth where
  | b8 | b16 | b32 | b64
  deriving DecidableEq, Repr

/-- Element formats of ALD and AST (R336). -/
inductive AFmt where
  | f32 | i32 | f16 | bf16
  deriving DecidableEq, Repr

structure SAluOps where
  sd : SReg
  sa : SReg
  x  : Src
  deriving DecidableEq, Repr

structure SselOps where
  sd : SReg
  sa : SReg
  sb : SReg
  sc : SReg
  deriving DecidableEq, Repr

structure SUnOps where
  sd : SReg
  sa : SReg
  deriving DecidableEq, Repr

structure SbfOps where
  sd : SReg
  sa : SReg
  f  : BfSrc
  deriving DecidableEq, Repr

/-- SLD and SST (R268). -/
structure SMemOps where
  w    : MWidth
  r    : SReg
  base : SReg
  off  : BitVec 12
  cf   : Cf
  hint : BitVec 3
  deriving DecidableEq, Repr

/-- Two vector sources and a type. -/
structure VOps where
  vd : VReg
  va : VReg
  vb : VReg
  t  : Tag
  g  : Guard
  deriving DecidableEq, Repr

/-- The immediate form of VALU (R232). -/
structure VIOps where
  vd  : VReg
  va  : VReg
  imm : BitVec 16
  t   : Tag
  g   : Guard
  deriving DecidableEq, Repr

/-- VADDC and VSUBB (R233); a carry-in of p0 means none. -/
structure VCarryOps where
  vd : VReg
  va : VReg
  vb : VReg
  co : PReg
  ci : PReg
  t  : Tag
  g  : Guard
  deriving DecidableEq, Repr

structure VMadOps where
  vd : VReg
  va : VReg
  vb : VReg
  vc : VReg
  ci : PReg
  g  : Guard
  deriving DecidableEq, Repr

structure VCmpOps where
  pd : PReg
  va : VReg
  vb : VReg
  t  : Tag
  g  : Guard
  deriving DecidableEq, Repr

structure VselOps where
  vd : VReg
  ps : PReg
  va : VReg
  vb : VReg
  g  : Guard
  deriving DecidableEq, Repr

/-- One vector source, no type. -/
structure VMoveOps where
  vd : VReg
  va : VReg
  g  : Guard
  deriving DecidableEq, Repr

structure VliOps where
  vd  : VReg
  imm : BitVec 16
  t   : Tag
  g   : Guard
  deriving DecidableEq, Repr

/-- One vector source and a type. -/
structure VUnOps where
  vd : VReg
  va : VReg
  t  : Tag
  g  : Guard
  deriving DecidableEq, Repr

/-- Three vector sources and a type. -/
structure V3Ops where
  vd : VReg
  va : VReg
  vb : VReg
  vc : VReg
  t  : Tag
  g  : Guard
  deriving DecidableEq, Repr

structure VdotOps where
  vd  : VReg
  va  : VReg
  vb  : VReg
  vc  : VReg
  sat : Bool
  g   : Guard
  deriving DecidableEq, Repr

/-- FALU arithmetic and FSCALE (R247). -/
structure FOps where
  vd  : VReg
  va  : VReg
  vb  : VReg
  t   : Tag
  rnd : Rnd
  g   : Guard
  deriving DecidableEq, Repr

structure FfmaOps where
  vd  : VReg
  va  : VReg
  vb  : VReg
  vc  : VReg
  t   : Tag
  rnd : Rnd
  g   : Guard
  deriving DecidableEq, Repr

structure FcmpOps where
  pd : PReg
  va : VReg
  vb : VReg
  t  : Tag
  e  : Bool
  g  : Guard
  deriving DecidableEq, Repr

structure FclassOps where
  vd : VReg
  va : VReg
  t  : Tag
  e  : Fin 8
  g  : Guard
  deriving DecidableEq, Repr

structure FsfOps where
  vd  : VReg
  va  : VReg
  t   : Tag
  rnd : Rnd
  g   : Guard
  cf  : Cf
  deriving DecidableEq, Repr

structure CvtOps where
  vd   : VReg
  va   : VReg
  part : Fin 8
  src  : Tag
  dst  : Tag
  sat  : Bool
  rnd  : Rnd
  g    : Guard
  deriving DecidableEq, Repr

structure CvtmxOps where
  vd   : VReg
  va   : VReg
  vc   : VReg
  part : Fin 8
  b    : Fin 4
  wide : Tag
  mx   : Tag
  rnd  : Rnd
  g    : Guard
  cf   : Cf
  deriving DecidableEq, Repr

structure ShflIdxOps where
  vd : VReg
  va : VReg
  vb : VReg
  g  : Guard
  deriving DecidableEq, Repr

structure ShflOps where
  vd : VReg
  va : VReg
  d  : Fin 64
  g  : Guard
  deriving DecidableEq, Repr

structure BcastSOps where
  vd : VReg
  sa : SReg
  t  : Tag
  g  : Guard
  deriving DecidableEq, Repr

structure VtosOps where
  sd : SReg
  va : VReg
  n  : Fin 64
  deriving DecidableEq, Repr

structure VscanOps where
  vd : VReg
  va : VReg
  t  : Tag
  ex : Bool
  g  : Guard
  deriving DecidableEq, Repr

structure BallotOps where
  sd : SReg
  ps : PReg
  g  : Guard
  deriving DecidableEq, Repr

structure VoteOps where
  pd : PReg
  ps : PReg
  g  : Guard
  deriving DecidableEq, Repr

structure PfromsOps where
  pd : PReg
  sa : SReg
  g  : Guard
  deriving DecidableEq, Repr

structure QxchBOps where
  vd : VReg
  va : VReg
  c  : Fin 4
  g  : Guard
  deriving DecidableEq, Repr

/-- LD, ST, LDCW and STCW (R268). -/
structure MemOps where
  w    : MWidth
  d    : VReg
  va   : Option VReg
  base : SReg
  off  : BitVec 12
  t    : Tag
  g    : Guard
  cf   : Cf
  hint : BitVec 3
  deriving DecidableEq, Repr

/-- PREF and DISCARD: the count of words less 1 (R268). -/
structure SpanOps where
  n1   : Fin 32
  va   : Option VReg
  base : SReg
  off  : BitVec 12
  g    : Guard
  hint : BitVec 3
  deriving DecidableEq, Repr

structure AmoOps where
  sd  : SReg
  sa  : SReg
  sb  : SReg
  w64 : Bool
  deriving DecidableEq, Repr

structure AmovOps where
  d    : VReg
  va   : Option VReg
  base : SReg
  off  : BitVec 12
  t    : Tag
  g    : Guard
  cf   : Cf
  deriving DecidableEq, Repr

structure QueueOps where
  sd : SReg
  sa : SReg
  q  : BitVec 8
  p  : PReg
  deriving DecidableEq, Repr

structure EngqOps where
  sd : SReg
  sa : SReg
  q  : Fin 3
  p  : PReg
  deriving DecidableEq, Repr

structure SabOps where
  sd : SReg
  sa : SReg
  sb : SReg
  deriving DecidableEq, Repr

structure WcOps where
  sd  : SReg
  sb  : SReg
  win : BitVec 8
  p   : PReg
  deriving DecidableEq, Repr

/-- Matrix instructions; no scale register is 0x1FF (Table 3.8). -/
structure MmaOps where
  tile : TReg
  a    : VReg
  b    : VReg
  bnd  : SReg
  scl  : Option VReg
  cf   : Cf
  deriving DecidableEq, Repr

structure TileMemOps where
  f    : AFmt
  tile : TReg
  base : SReg
  off  : BitVec 12
  cf   : Cf
  hint : BitVec 3
  deriving DecidableEq, Repr

structure KinitOps where
  kd : KReg
  s  : SReg
  cf : Cf
  deriving DecidableEq, Repr

structure KnextOps where
  kd : KReg
  vc : VReg
  vp : VReg
  s  : SReg
  pd : PReg
  cf : Cf
  deriving DecidableEq, Repr

structure KldOps where
  w  : KWidth
  vd : VReg
  ka : KReg
  vp : VReg
  pd : PReg
  cf : Cf
  deriving DecidableEq, Repr

structure KqryOps where
  sd : SReg
  ka : KReg
  f  : Fin 8
  deriving DecidableEq, Repr

structure KmemOps where
  k    : KReg
  sb   : SReg
  crew : Bool
  cf   : Cf
  deriving DecidableEq, Repr

structure KcoOps where
  ka : KReg
  kb : KReg
  vc : VReg
  vp : VReg
  s  : SReg
  pa : PReg
  pb : PReg
  cf : Cf
  deriving DecidableEq, Repr

structure KappOps where
  kd : KReg
  vc : VReg
  vv : VReg
  ps : PReg
  s  : SReg
  pa : PReg
  cf : Cf
  deriving DecidableEq, Repr

structure SieveOps where
  kd : KReg
  vx : VReg
  s  : SReg
  pk : PReg
  t  : Tag
  cf : Cf
  deriving DecidableEq, Repr

structure DeltaOps where
  kd : KReg
  vx : VReg
  vk : VReg
  s  : SReg
  pk : PReg
  t  : Tag
  cf : Cf
  deriving DecidableEq, Repr

structure XdecOps where
  vd : VReg
  s  : SReg
  pd : PReg
  t  : Tag
  cf : Cf
  deriving DecidableEq, Repr

/-- The sixteen VALU functions (Table 12.5). -/
inductive ValuFn where
  | add | sub | and | or | xor | shl | shr | sra | min | max | mul | mulh | absd | andn | adds | subs
  deriving DecidableEq, Repr

/-- FALU fn 0 to 2. -/
inductive FaluFn where
  | add | sub | mul
  deriving DecidableEq, Repr

/-- The FFMA family, fn 0 to 2. -/
inductive FfmaFn where
  | ffma | ffms | ffnma
  deriving DecidableEq, Repr

/-- The instructions that may stand in a pair (R64). -/
inductive PairOp where
  | valu (f : ValuFn) (o : VOps)
  | valui (f : ValuFn) (o : VIOps)
  | falu (f : FaluFn) (o : FOps)
  | ffma (f : FfmaFn) (o : FfmaOps)
  | vsel (o : VselOps)
  | vmov (o : VMoveOps)
  deriving DecidableEq, Repr

/-- A crew: context, voyage number, crew index. -/
structure CrewRef where
  ctx  : Nat
  voy  : Nat
  crew : Nat
  deriving DecidableEq, Repr

/-- A warp of a crew, named by its WARP identifier (R173). -/
structure WarpRef where
  crew : CrewRef
  warp : Nat
  deriving DecidableEq, Repr

/-- A strand of a warp, named by its strand-table index. -/
structure StrandRef where
  w      : WarpRef
  strand : Nat
  deriving DecidableEq, Repr

/-- A chunk of a strand that has no place in G yet, counted from the oldest (R187). -/
structure ChunkRef where
  strand : StrandRef
  n      : Nat
  deriving DecidableEq, Repr

/-- A saved crew, with the registers whose image holds a reserved tag (warp index, register; R35). -/
structure SavedCrew where
  crew : CrewRef
  bad  : List (Nat × VReg)
  deriving DecidableEq, Repr

/-- Where an uncorrectable error in committed state lies (R109). -/
inductive ErrSite where
  | vreg (w : WarpRef) (r : VReg)
  | strandReg (r : StrandRef)
  | tile (w : WarpRef) (t : Nat)
  | crewMem (c : CrewRef) (off : Nat)
  | phys (pa : Nat)
  | imageRegs (c : CrewRef)
  | imageState (c : CrewRef)
  | unowned (core : Nat)
  deriving DecidableEq, Repr

/-- How the host makes an access (R132): a posted write, a Deferrable Memory Write, a read. -/
inductive HostKind where
  | posted | deferrable | read
  deriving DecidableEq, Repr

/-- A management command's issuer, its TAG, and whether every MBZ byte of it is zero (R425, R427). -/
structure CmdHdr where
  func  : Nat
  tag   : BitVec 32
  clean : Bool
  deriving DecidableEq, Repr

structure CtxCreateArgs where
  ctx    : BitVec 16
  sector : W64
  root   : W64
  ovf    : W64
  ovfn   : BitVec 32
  wqn    : BitVec 8
  qrec   : W64
  wrec   : W64
  deriving DecidableEq, Repr

/-- A word of a PUT or GET of a peer package here: the peer's number for its command, the command's offset in the window and
its length in bytes, and which word (R419). -/
structure PeerUnit where
  id   : Nat
  roff : Nat
  len  : Nat
  k    : Nat
  deriving DecidableEq, Repr

structure PreemptArgs where
  ctx  : BitVec 16
  voy  : BitVec 32
  crew : BitVec 32
  b    : BitVec 32
  deriving DecidableEq, Repr

structure WinOpenArgs where
  ctx    : BitVec 16
  id     : BitVec 8
  rights : BitVec 8
  links  : BitVec 16
  peer   : BitVec 32
  base   : W64
  size   : W64
  deriving DecidableEq, Repr

inductive Instr where
  -- 08 The group: control and masks
  | nop
  | bra (t : BitVec 32)
  | braNz (s : SReg) (t : BitVec 32)
  | braZ (s : SReg) (t : BitVec 32)
  | brz (p : PReg) (t : BitVec 32)
  | brnz (p : PReg) (t : BitVec 32)
  | dbr (p : PReg) (t : BitVec 32) (j : BitVec 16)
  | join
  | call (t : BitVec 32) (f8 : BitVec 5)
  | callI (s : SReg) (f8 : BitVec 5)
  | ret
  | exit
  | exitS
  -- 05 The context: trap and system instructions
  | trap (n : BitVec 5) (s : SReg)
  | rft
  | yield
  | srd (sd : SReg) (n : BitVec 32)
  | swr (n : BitVec 32) (sa : SReg)
  | csrr (sd : SReg) (n : BitVec 32)
  | csrw (n : BitVec 32) (sa : SReg)
  | idrd (sd : SReg) (n : BitVec 32)
  -- 10 The chunk, 09 width and window
  | chend
  | chcfg (sd : SReg) (x : Src)
  | wsplit (sd : SReg) (p : PReg)
  | wfuse (sd : SReg)
  | wqry (sd : SReg)
  | tagset (vd : VReg) (code : BitVec 5)
  | tagget (o : VMoveOps)
  -- 12 scalar instructions
  | sadd (o : SAluOps)
  | ssub (o : SAluOps)
  | sand (o : SAluOps)
  | sor (o : SAluOps)
  | sxor (o : SAluOps)
  | sshl (o : SAluOps)
  | sshr (o : SAluOps)
  | ssra (o : SAluOps)
  | smin (o : SAluOps)
  | smax (o : SAluOps)
  | sminu (o : SAluOps)
  | smaxu (o : SAluOps)
  | smul (o : SAluOps)
  | smulh (o : SAluOps)
  | smulhu (o : SAluOps)
  | sandn (o : SAluOps)
  | scmpEq (o : SAluOps)
  | scmpNe (o : SAluOps)
  | scmpLt (o : SAluOps)
  | scmpLe (o : SAluOps)
  | scmpGt (o : SAluOps)
  | scmpGe (o : SAluOps)
  | scmpLtu (o : SAluOps)
  | scmpLeu (o : SAluOps)
  | scmpGtu (o : SAluOps)
  | scmpGeu (o : SAluOps)
  | ssel (o : SselOps)
  | spopc (o : SUnOps)
  | sclz (o : SUnOps)
  | sctz (o : SUnOps)
  | sbfe (o : SbfOps)
  | sbfi (o : SbfOps)
  | srev (o : SUnOps)
  | sld (o : SMemOps)
  | sst (o : SMemOps)
  -- 12 vector integer and bit instructions
  | vadd (o : VOps)
  | vsub (o : VOps)
  | vand (o : VOps)
  | vor (o : VOps)
  | vxor (o : VOps)
  | vshl (o : VOps)
  | vshr (o : VOps)
  | vsra (o : VOps)
  | vmin (o : VOps)
  | vmax (o : VOps)
  | vmul (o : VOps)
  | vmulh (o : VOps)
  | vabsd (o : VOps)
  | vandn (o : VOps)
  | vadds (o : VOps)
  | vsubs (o : VOps)
  | vaddImm (o : VIOps)
  | vsubImm (o : VIOps)
  | vandImm (o : VIOps)
  | vorImm (o : VIOps)
  | vxorImm (o : VIOps)
  | vshlImm (o : VIOps)
  | vshrImm (o : VIOps)
  | vsraImm (o : VIOps)
  | vminImm (o : VIOps)
  | vmaxImm (o : VIOps)
  | vmulImm (o : VIOps)
  | vmulhImm (o : VIOps)
  | vabsdImm (o : VIOps)
  | vandnImm (o : VIOps)
  | vaddsImm (o : VIOps)
  | vsubsImm (o : VIOps)
  | vaddc (o : VCarryOps)
  | vsubb (o : VCarryOps)
  | vmad64U (o : VMadOps)
  | vmad64S (o : VMadOps)
  | vcmpEq (o : VCmpOps)
  | vcmpNe (o : VCmpOps)
  | vcmpLt (o : VCmpOps)
  | vcmpLe (o : VCmpOps)
  | vcmpGt (o : VCmpOps)
  | vcmpGe (o : VCmpOps)
  | vcmpLtu (o : VCmpOps)
  | vcmpLeu (o : VCmpOps)
  | vcmpGtu (o : VCmpOps)
  | vcmpGeu (o : VCmpOps)
  | vsel (o : VselOps)
  | vmov (o : VMoveOps)
  | vli (o : VliOps)
  | vliHi (o : VliOps)
  | vliDup (o : VliOps)
  | vpopc (o : VUnOps)
  | vclz (o : VUnOps)
  | vctz (o : VUnOps)
  | vbfe (o : VOps)
  | vbfi (o : V3Ops)
  | vrev (o : VUnOps)
  | vbperm (o : V3Ops)
  | vdot4II (o : VdotOps)
  | vdot4UU (o : VdotOps)
  | vdot4IU (o : VdotOps)
  -- 13 floating point and conversion
  | fadd (o : FOps)
  | fsub (o : FOps)
  | fmul (o : FOps)
  | fmin (o : VOps)
  | fmax (o : VOps)
  | ffma (o : FfmaOps)
  | ffms (o : FfmaOps)
  | ffnma (o : FfmaOps)
  | fscale (o : FOps)
  | fcmpEq (o : FcmpOps)
  | fcmpNe (o : FcmpOps)
  | fcmpLt (o : FcmpOps)
  | fcmpLe (o : FcmpOps)
  | fcmpGt (o : FcmpOps)
  | fcmpGe (o : FcmpOps)
  | fcmpUnord (o : FcmpOps)
  | fcmpOrd (o : FcmpOps)
  | fclass (o : FclassOps)
  | frcp (o : FsfOps)
  | frsq (o : FsfOps)
  | fsqrt (o : FsfOps)
  | fexp2 (o : FsfOps)
  | flog2 (o : FsfOps)
  | fsin (o : FsfOps)
  | fcos (o : FsfOps)
  | ftanh (o : FsfOps)
  | cvt (o : CvtOps)
  | cvtmxQ (o : CvtmxOps)
  | cvtmxD (o : CvtmxOps)
  -- 12 cross-lane
  | shflIdx (o : ShflIdxOps)
  | shflUp (o : ShflOps)
  | shflDown (o : ShflOps)
  | shflXor (o : ShflOps)
  | bcast (o : ShflOps)
  | bcastS (o : BcastSOps)
  | vtos (o : VtosOps)
  | vredAdd (o : VUnOps)
  | vredMin (o : VUnOps)
  | vredMax (o : VUnOps)
  | vredAnd (o : VUnOps)
  | vredOr (o : VUnOps)
  | vredXor (o : VUnOps)
  | vredFadd (o : VUnOps)
  | vredFmin (o : VUnOps)
  | vredFmax (o : VUnOps)
  | vscanAdd (o : VscanOps)
  | vscanMin (o : VscanOps)
  | vscanMax (o : VscanOps)
  | vscanAnd (o : VscanOps)
  | vscanOr (o : VscanOps)
  | vscanXor (o : VscanOps)
  | vscanFadd (o : VscanOps)
  | vscanFmin (o : VscanOps)
  | vscanFmax (o : VscanOps)
  | voteBallot (o : BallotOps)
  | voteAny (o : VoteOps)
  | voteAll (o : VoteOps)
  | votePfroms (o : PfromsOps)
  | qxchH (o : VMoveOps)
  | qxchV (o : VMoveOps)
  | qxchD (o : VMoveOps)
  | qxchB (o : QxchBOps)
  -- 08 masks
  | emset (x : Src)
  | emld (sa : SReg)
  | emst (sd : SReg)
  | emand (x : Src)
  | hmset (x : Src)
  -- 14 access
  | ld (o : MemOps)
  | st (o : MemOps)
  | ldcw (o : MemOps)
  | stcw (o : MemOps)
  | pref (o : SpanOps)
  | discard (o : SpanOps)
  -- 21 far atomics, waits and barriers
  | amoAdd (o : AmoOps)
  | amoSub (o : AmoOps)
  | amoMin (o : AmoOps)
  | amoMax (o : AmoOps)
  | amoMinu (o : AmoOps)
  | amoMaxu (o : AmoOps)
  | amoAnd (o : AmoOps)
  | amoOr (o : AmoOps)
  | amoXor (o : AmoOps)
  | amoXchg (o : AmoOps)
  | amoCas (o : AmoOps)
  | amoFadd (o : AmoOps)
  | amoIncw (o : AmoOps)
  | amoDecw (o : AmoOps)
  | amovAdd (o : AmovOps)
  | amovSub (o : AmovOps)
  | amovMin (o : AmovOps)
  | amovMax (o : AmovOps)
  | amovMinu (o : AmovOps)
  | amovMaxu (o : AmovOps)
  | amovAnd (o : AmovOps)
  | amovOr (o : AmovOps)
  | amovXor (o : AmovOps)
  | amovXchg (o : AmovOps)
  | amovCas (o : AmovOps)
  | amovFadd (o : AmovOps)
  | amovIncw (o : AmovOps)
  | amovDecw (o : AmovOps)
  | svwaitEq (o : AmoOps)
  | svwaitGeu (o : AmoOps)
  | binit (sa sb : SReg)
  | barv (sd sa : SReg)
  | bwt (o : SabOps)
  | barw (sd sa : SReg)
  -- 07 queues, 16 engines and batches, 11 fence, 22 windows
  | enq (o : QueueOps)
  | deq (o : QueueOps)
  | deqt (o : QueueOps)
  | engq (o : EngqOps)
  | bclose (sd : SReg)
  | bwait (o : SabOps)
  | btest (o : SabOps)
  | xfence (tc fc : BitVec 5)
  | wcwaitS (o : WcOps)
  | wcwaitD (o : WcOps)
  -- 18 matrix, 17 tiles
  | mmaF16 (o : MmaOps)
  | mmaBf16 (o : MmaOps)
  | mmaE4m3 (o : MmaOps)
  | mmaE5m2 (o : MmaOps)
  | mmaMxe4m3 (o : MmaOps)
  | mmaMxe5m2 (o : MmaOps)
  | mmaMxe2m1 (o : MmaOps)
  | mmaiI8i8 (o : MmaOps)
  | mmaiU8i8 (o : MmaOps)
  | mmaiI4i4 (o : MmaOps)
  | mmatI8t2 (o : MmaOps)
  | mmatU8t2 (o : MmaOps)
  | azero (t : TReg)
  | ald (o : TileMemOps)
  | ast (o : TileMemOps)
  | amovv (t : TReg) (v : VReg)
  | amova (t : TReg) (v : VReg)
  | acvtRelu (t : TReg)
  | acvtScale (t : TReg) (sp : SReg)
  | acvtClamp (t : TReg) (sp : SReg)
  | atag (t : TReg) (sd : SReg) (code : BitVec 5)
  -- 19 cursors, 20 co-iteration and compaction, 16 stream decoding
  | kinitR (o : KinitOps)
  | kinitA (o : KinitOps)
  | knext (o : KnextOps)
  | knextS (o : KinitOps)
  | kseek (o : KinitOps)
  | kdesc (kd ka : KReg) (cf : Cf)
  | kld (o : KldOps)
  | kqry (o : KqryOps)
  | ksave (o : KmemOps)
  | krest (o : KmemOps)
  | kcoI (o : KcoOps)
  | kcoU (o : KcoOps)
  | kapp (o : KappOps)
  | kfin (o : KinitOps)
  | sieveNz (o : SieveOps)
  | sieveDelta (o : DeltaOps)
  | xdec (o : XdecOps)
  -- 03 words that name no instruction
  | reservedOpcodeWord (w : W64)
  -- steps of the strand and of the chunk
  | clauseStart
  | pairIssue (a b : PairOp)
  | dbrSplit (r : StrandRef)
  | joinArrive (r : StrandRef)
  | warpSplit (r : StrandRef)
  | warpFusion (lo hi : WarpRef)
  | wfuseTimeout (r : StrandRef)
  | singletonEvent (r : StrandRef)
  | svwaitWake (r : StrandRef)
  | deqWake (ctx q : Nat)
  | engineAccess (id k : Nat)
  | bwaitWake (r : StrandRef)
  | batchComplete (w : WarpRef)
  | xfenceResume (r : StrandRef)
  | wcwaitWake (r : StrandRef)
  | chlimReached (r : StrandRef)
  | flaggedCompletion (r : StrandRef) (f : Fin 12)
  | chunkOffer (r : ChunkRef)
  | chunkCommit (r : ChunkRef)
  | pinGrant (die : Nat)
  | trapEntry (r : StrandRef)
  | faultPark (r : StrandRef)
  | watchdog (r : StrandRef)
  | uncorrectableErrorOpen (r : ChunkRef) (residue : Option TReg) (site : ErrSite)
  | uncorrectableErrorCommitted (e : ErrSite)
  | correctedError
  -- steps of lodestar and of the queues
  | launchTake (ctx : Nat)
  | convoyPlace (ctx voy : Nat) (places : List (Nat × Nat))
  | crewRetire (c : CrewRef)
  | quadrantHaltDone (c : CrewRef)
  | crewSaveDone (c : CrewRef)
  | crewRestore (c : SavedCrew) (core quad : Nat)
  | eventStorePost (ctx : Nat)
  | faultRecordPost (ctx : Nat)
  -- steps of the host
  | hostEnqueue (func q : Nat) (k : HostKind) (off : Nat) (data : List Byte)
  | hostHeadWrite (func q : Nat) (k : HostKind) (head : W64)
  | apertureOtherAccess (func q : Nat) (k : HostKind) (off : Nat)
  | hostWindowRead (func : Nat) (off : W64) (len : Nat)
  | hostWindowWrite (func : Nat) (k : HostKind) (off : W64) (data : List Byte)
  | mailboxOtherWrite (func : Nat) (k : HostKind) (off : Nat)
  -- management commands (Table 23.3)
  | ctxCreate (h : CmdHdr) (a : CtxCreateArgs)
  | ctxSuspend (h : CmdHdr) (ctx : BitVec 16)
  | ctxResume (h : CmdHdr) (ctx : BitVec 16)
  | ctxDestroy (h : CmdHdr) (ctx : BitVec 16)
  | ctxScrubDone (ctx : Nat)
  | lossAck (h : CmdHdr) (ctx : BitVec 16) (readmit : W64)
  | coreReset (h : CmdHdr) (core : BitVec 16)
  | crewPreempt (h : CmdHdr) (a : PreemptArgs)
  | watchdogSet (h : CmdHdr) (ctx : BitVec 16) (us : BitVec 32)
  | queueConfig (h : CmdHdr) (ctx : BitVec 16) (q : BitVec 8) (rec : W64)
  | queueOpen (h : CmdHdr) (ctx : BitVec 16) (q : BitVec 8)
  | queueClose (h : CmdHdr) (ctx : BitVec 16) (q : BitVec 8)
  | queueFree (h : CmdHdr) (ctx : BitVec 16) (q : BitVec 8)
  | queueReset (h : CmdHdr) (ctx : BitVec 16) (q : BitVec 8)
  | queueQuery (h : CmdHdr) (ctx : BitVec 16) (q : BitVec 8)
  | tlbInval (h : CmdHdr) (ctx : BitVec 16) (base len : W64)
  | tlbInvalDone (k : Nat)
  | replay (h : CmdHdr) (ctx : BitVec 16) (id : BitVec 32) (action : BitVec 8)
  | frameAttr (h : CmdHdr) (first len : W64) (value : Byte)
  | hwinSet (h : CmdHdr) (ctx : BitVec 16) (hwb : W64)
  | linkEnable (h : CmdHdr) (link : BitVec 8)
  | linkQuiesce (h : CmdHdr) (link : BitVec 8)
  | linkQuiesceDone (link : Nat)
  | linkDisable (h : CmdHdr) (link : BitVec 8)
  | linkQuery (h : CmdHdr) (link : BitVec 8)
  | winOpen (h : CmdHdr) (a : WinOpenArgs)
  | winReset (h : CmdHdr) (ctx : BitVec 16) (id : BitVec 8)
  | winClose (h : CmdHdr) (ctx : BitVec 16) (id : BitVec 8)
  | winCloseDone (ctx win : Nat)
  | powerCap (h : CmdHdr) (cap : BitVec 32)
  | powerOverCap (mhz : Nat)
  | linkTrainingDone (link lanes : Nat)
  | linkLaneLoss (link lanes : Nat)
  | linkFailure (link : Nat)
  | linkRemotePut (ctx win : Nat) (off : PeerUnit) (w : Option W32)
  | linkPutAck (cmd : Nat)
  | linkRemoteGet (ctx win : Nat) (off : PeerUnit)
  | linkGetData (cmd k : Nat) (w : W32)
  | cxlPortDown (port : Nat)
  | cxlPoisonReport (pa : Nat)
  | unlistedCommand (h : CmdHdr) (code : BitVec 16)
  | linkPeerFault (cmd : Nat)
  | linkLevelError (link flits : Nat)
  | moduleReset
  deriving DecidableEq, Repr

end Sys2Proof
end

