-- ==== Sys2Proof/WellFormed.lean ====
section
/-!
DEFINITION. Which instructions the encoding admits: `Instr.wfForm` holds what R70 rejects as ILLEGAL_INSTR, `Instr.wfRegs`
what R67 and R68 reject as ILLEGAL_REG from the word alone (frames, globals and tile counts are checked when it issues).
-/

namespace Sys2Proof

/-- The tag code of Table 2.1. -/
def Tag.code : Tag → Nat
  | .raw => 0 | .i32 => 1 | .u32 => 2 | .f32 => 3 | .f16x2 => 4 | .bf16x2 => 5 | .e4m3x4 => 6 | .e5m2x4 => 7
  | .e2m1x8 => 8 | .i8x4 => 9 | .u8x4 => 10 | .i4x8 => 11 | .t2x16 => 12 | .i16x2 => 13 | .u16x2 => 14
  | .e8m0x4 => 15 | .w64 => 16 | .poison => 31

/-- The tag of a code; a reserved code (R31) gives `poison`, which no type field accepts. -/
def Tag.ofCode : Nat → Tag
  | 0 => .raw | 1 => .i32 | 2 => .u32 | 3 => .f32 | 4 => .f16x2 | 5 => .bf16x2 | 6 => .e4m3x4 | 7 => .e5m2x4
  | 8 => .e2m1x8 | 9 => .i8x4 | 10 => .u8x4 | 11 => .i4x8 | 12 => .t2x16 | 13 => .i16x2 | 14 => .u16x2
  | 15 => .e8m0x4 | 16 => .w64 | _ => .poison

/-- The code of a vector register (R67). -/
def VReg.code : VReg → Nat
  | .v i => i.val
  | .g i => 256 + i.val

/-- Elements a lane of a tag (Table 2.1); 1 where a lane is not divided. -/
def Tag.elems : Tag → Nat
  | .f16x2 | .bf16x2 | .i16x2 | .u16x2 => 2
  | .e4m3x4 | .e5m2x4 | .i8x4 | .u8x4 | .e8m0x4 => 4
  | .e2m1x8 | .i4x8 => 8
  | .t2x16 => 16
  | _ => 1

/-- Bits of an element (Table 2.1). -/
def Tag.bits (t : Tag) : Nat := 32 / t.elems

/-- The integer types of VALU (Table 12.4), CVT (R257). -/
def Tag.isInt : Tag → Bool
  | .i32 | .u32 | .i8x4 | .u8x4 | .i4x8 | .i16x2 | .u16x2 => true
  | _ => false

def Tag.isSigned : Tag → Bool
  | .i32 | .i8x4 | .i4x8 | .i16x2 => true
  | _ => false

/-- The six formats of Table 2.2. -/
def Tag.isFloat : Tag → Bool
  | .f32 | .f16x2 | .bf16x2 | .e4m3x4 | .e5m2x4 | .e2m1x8 => true
  | _ => false

/-- Codes 0x03 to 0x05. -/
def Tag.isWide : Tag → Bool
  | .f32 | .f16x2 | .bf16x2 => true
  | _ => false

/-- Codes 0x06 to 0x08 (R259). -/
def Tag.isMx : Tag → Bool
  | .e4m3x4 | .e5m2x4 | .e2m1x8 => true
  | _ => false

def Tag.codeLe (t : Tag) (n : Nat) : Bool := t.code ≤ n

def Tag.is32 : Tag → Bool
  | .i32 | .u32 => true
  | _ => false

/-- Gp 15 with negate 1 is reserved (R66). -/
def Guard.wf (g : Guard) : Bool := !(g.p == 15 && g.neg)

/-- The guard that leaves every EM lane enabled. -/
def Guard.all : Guard := { p := 15, neg := false }

/-- Type codes of a bitwise VALU function (Table 12.4). -/
def bitTypeOk (t : Tag) : Bool := t.codeLe 15

/-- Type codes of every other VALU function. -/
def intTypeOk (t : Tag) : Bool := t.isInt

def ValuFn.isBitwise : ValuFn → Bool
  | .and | .or | .xor | .andn => true
  | _ => false

def ValuFn.typeOk (f : ValuFn) (t : Tag) : Bool := if f.isBitwise then bitTypeOk t else intTypeOk t

/-- imm16[15:n] is MBZ for a packed type (R232). -/
def immFits (t : Tag) (imm : BitVec 16) : Bool := t.elems == 1 || imm.toNat < 2 ^ t.bits

def VOps.wfWith (o : VOps) (p : Tag → Bool) : Bool := o.g.wf && p o.t
def VIOps.wfWith (o : VIOps) (f : ValuFn) : Bool := o.g.wf && f.typeOk o.t && immFits o.t o.imm
def VUnOps.wfWith (o : VUnOps) (p : Tag → Bool) : Bool := o.g.wf && p o.t
def FOps.wf (o : FOps) : Bool := o.g.wf && o.t.isWide
def FfmaOps.wf (o : FfmaOps) : Bool := o.g.wf && o.t.isWide
def FsfOps.wf (o : FsfOps) : Bool := o.g.wf && o.t.isWide

/-- The conversion ratio of R257 between elements a lane. -/
def cvtRatio (s d : Tag) : Nat := Nat.max s.elems d.elems / Nat.min s.elems d.elems

def CvtOps.wf (o : CvtOps) : Bool :=
  o.g.wf && (o.src.isInt || o.src.isFloat) && (o.dst.isInt || o.dst.isFloat) &&
    (!o.sat || (o.src.isInt && o.dst.isInt)) && o.part.val < cvtRatio o.src o.dst

def CvtmxOps.wf (o : CvtmxOps) : Bool :=
  o.g.wf && o.wide.isWide && o.mx.isMx && o.part.val < o.mx.elems / o.wide.elems

/-- Table 14.2, type codes accepted by a width. -/
def MWidth.typeOk : MWidth → Tag → Bool
  | .u8, t | .i8, t | .u16, t | .i16, t => t.codeLe 2
  | .b32, t => t.codeLe 15
  | .b64, t | .b128, t => t.codeLe 16

/-- The width of an access in bytes (Table 14.2). -/
def MWidth.bytes : MWidth → Nat
  | .u8 | .i8 => 1
  | .u16 | .i16 => 2
  | .b32 => 4
  | .b64 => 8
  | .b128 => 16

/-- Registers a lane access uses (Table 14.2). -/
def MWidth.regs : MWidth → Nat
  | .b64 => 2
  | .b128 => 4
  | _ => 1

def MemOps.wf (o : MemOps) : Bool := o.g.wf && o.w.typeOk o.t
def MemOps.regsOk (o : MemOps) : Bool := o.d.code % o.w.regs == 0

/-- The scalar widths are fn 0 to 5 (R268). -/
def SMemOps.wf (o : SMemOps) : Bool := o.w != .b128

/-- Types of AMOV: RAW never, F32 for FADD alone (R397). -/
def AmovOps.wf (o : AmovOps) (fadd : Bool) : Bool :=
  o.g.wf && (if fadd then o.t == .f32 else (o.t.is32 || o.t == .w64))

/-- Registers that lane operands of AMOV take (Table 21.3). -/
def AmovOps.run (o : AmovOps) (cas : Bool) : Nat := (if o.t == .w64 then 2 else 1) * (if cas then 2 else 1)
def AmovOps.regsOk (o : AmovOps) (cas : Bool) : Bool := o.d.code % o.run cas == 0

def KldOps.regsOk (o : KldOps) : Bool := o.w != .b64 || o.vd.code % 2 == 0
def MmaOps.wfPlain (o : MmaOps) : Bool := o.scl.isNone
def SRun (s : SReg) (n : Nat) : Bool := s.val + n ≤ 64

/-- What R31, R39, R60, R66 and R70 require of the fields; a false answer is ILLEGAL_INSTR. -/
def Instr.wfForm : Instr → Bool
  | .tagget o | .vmov o | .qxchH o | .qxchV o | .qxchD o => o.g.wf
  | .vadd o | .vsub o | .vshl o | .vshr o | .vsra o | .vmin o | .vmax o | .vmul o | .vmulh o | .vabsd o
  | .vadds o | .vsubs o => o.wfWith intTypeOk
  | .vand o | .vor o | .vxor o | .vandn o => o.wfWith bitTypeOk
  | .vaddImm o => o.wfWith .add
  | .vsubImm o => o.wfWith .sub
  | .vandImm o => o.wfWith .and
  | .vorImm o => o.wfWith .or
  | .vxorImm o => o.wfWith .xor
  | .vshlImm o => o.wfWith .shl
  | .vshrImm o => o.wfWith .shr
  | .vsraImm o => o.wfWith .sra
  | .vminImm o => o.wfWith .min
  | .vmaxImm o => o.wfWith .max
  | .vmulImm o => o.wfWith .mul
  | .vmulhImm o => o.wfWith .mulh
  | .vabsdImm o => o.wfWith .absd
  | .vandnImm o => o.wfWith .andn
  | .vaddsImm o => o.wfWith .adds
  | .vsubsImm o => o.wfWith .subs
  | .vaddc o | .vsubb o => o.g.wf && o.t.is32
  | .vmad64U o | .vmad64S o => o.g.wf
  | .vcmpEq o | .vcmpNe o | .vcmpLt o | .vcmpLe o | .vcmpGt o | .vcmpGe o | .vcmpLtu o | .vcmpLeu o | .vcmpGtu o
  | .vcmpGeu o => o.g.wf && o.t.is32
  | .vsel o => o.g.wf
  | .vli o | .vliHi o | .vliDup o => o.g.wf && o.t.codeLe 15
  | .vpopc o | .vclz o | .vctz o | .vrev o => o.wfWith (·.codeLe 2)
  | .vbfe o => o.wfWith (·.codeLe 2)
  | .vbfi o | .vbperm o => o.g.wf && o.t.codeLe 2
  | .vdot4II o | .vdot4UU o | .vdot4IU o => o.g.wf
  | .fadd o | .fsub o | .fmul o | .fscale o => o.wf
  | .fmin o | .fmax o => o.wfWith (·.isWide)
  | .ffma o | .ffms o | .ffnma o => o.wf
  | .fcmpEq o | .fcmpNe o | .fcmpLt o | .fcmpLe o | .fcmpGt o | .fcmpGe o | .fcmpUnord o | .fcmpOrd o =>
    o.g.wf && o.t.isWide && !(o.e && o.t == .f32)
  | .fclass o => o.g.wf && o.t.isFloat && o.e.val < o.t.elems
  | .frcp o | .frsq o | .fsqrt o | .fexp2 o | .flog2 o | .fsin o | .fcos o | .ftanh o => o.wf
  | .cvt o => o.wf
  | .cvtmxQ o | .cvtmxD o => o.wf
  | .shflIdx o => o.g.wf
  | .shflUp o | .shflDown o | .shflXor o | .bcast o => o.g.wf
  | .bcastS o => o.g.wf && o.t.codeLe 15
  | .vredAdd o | .vredMin o | .vredMax o => o.wfWith (·.is32)
  | .vredAnd o | .vredOr o | .vredXor o => o.wfWith (·.codeLe 2)
  | .vredFadd o | .vredFmin o | .vredFmax o => o.wfWith (· == .f32)
  | .vscanAdd o | .vscanMin o | .vscanMax o => o.g.wf && o.t.is32
  | .vscanAnd o | .vscanOr o | .vscanXor o => o.g.wf && o.t.codeLe 2
  | .vscanFadd o | .vscanFmin o | .vscanFmax o => o.g.wf && o.t == .f32
  | .voteBallot o => o.g.wf
  | .voteAny o | .voteAll o => o.g.wf
  | .votePfroms o => o.g.wf
  | .qxchB o => o.g.wf
  | .emset (.reg _) => false
  | .sld o | .sst o => o.wf
  | .ld o | .st o => o.wf
  | .ldcw o | .stcw o => o.wf && o.hint == 0
  | .pref o => o.g.wf
  | .discard o => o.g.wf && o.hint == 0
  | .amoFadd o => !o.w64
  | .amovFadd o => o.wf true
  | .amovAdd o | .amovSub o | .amovMin o | .amovMax o | .amovMinu o | .amovMaxu o | .amovAnd o | .amovOr o
  | .amovXor o | .amovXchg o | .amovCas o | .amovIncw o | .amovDecw o => o.wf false
  | .mmaF16 o | .mmaBf16 o | .mmaE4m3 o | .mmaE5m2 o | .mmaiI8i8 o | .mmaiU8i8 o | .mmaiI4i4 o | .mmatI8t2 o
  | .mmatU8t2 o => o.wfPlain
  | .ald o => o.f != .bf16
  | .sieveNz o => o.t.isWide || o.t.is32
  | .sieveDelta o => o.t.isWide
  | .xdec o => o.t == .raw || o.t == .u8x4
  | _ => true

/-- What R24, R67 and R68 require of the fields of a word; a false answer is ILLEGAL_REG. -/
def Instr.wfRegs : Instr → Bool
  | .vmad64U o | .vmad64S o => o.vd.code % 2 == 0
  | .ld o | .st o | .ldcw o | .stcw o => o.regsOk
  | .amovCas o => o.regsOk true
  | .amovAdd o | .amovSub o | .amovMin o | .amovMax o | .amovMinu o | .amovMaxu o | .amovAnd o | .amovOr o
  | .amovXor o | .amovXchg o | .amovFadd o | .amovIncw o | .amovDecw o => o.regsOk false
  | .amoCas o => SRun o.sb 2
  | .engq o => SRun o.sa 8
  | .ald o | .ast o => SRun o.base 2
  | .kinitR o | .kinitA o => o.s != 0 && SRun o.s 2
  | .kld o => o.regsOk
  | .sieveNz o => SRun o.s 2
  | .sieveDelta o => SRun o.s 2
  | .xdec o => SRun o.s 5
  | _ => true

/-- A well-formed instruction: one that some word encodes. -/
def Instr.wf (i : Instr) : Bool := i.wfForm && i.wfRegs

/-- The pair set of R64 as an instruction of its own. -/
def PairOp.instr : PairOp → Instr
  | .valu .add o => .vadd o | .valu .sub o => .vsub o | .valu .and o => .vand o | .valu .or o => .vor o
  | .valu .xor o => .vxor o | .valu .shl o => .vshl o | .valu .shr o => .vshr o | .valu .sra o => .vsra o
  | .valu .min o => .vmin o | .valu .max o => .vmax o | .valu .mul o => .vmul o | .valu .mulh o => .vmulh o
  | .valu .absd o => .vabsd o | .valu .andn o => .vandn o | .valu .adds o => .vadds o | .valu .subs o => .vsubs o
  | .valui .add o => .vaddImm o | .valui .sub o => .vsubImm o | .valui .and o => .vandImm o
  | .valui .or o => .vorImm o | .valui .xor o => .vxorImm o | .valui .shl o => .vshlImm o
  | .valui .shr o => .vshrImm o | .valui .sra o => .vsraImm o | .valui .min o => .vminImm o
  | .valui .max o => .vmaxImm o | .valui .mul o => .vmulImm o | .valui .mulh o => .vmulhImm o
  | .valui .absd o => .vabsdImm o | .valui .andn o => .vandnImm o | .valui .adds o => .vaddsImm o
  | .valui .subs o => .vsubsImm o
  | .falu .add o => .fadd o | .falu .sub o => .fsub o | .falu .mul o => .fmul o
  | .ffma .ffma o => .ffma o | .ffma .ffms o => .ffms o | .ffma .ffnma o => .ffnma o
  | .vsel o => .vsel o
  | .vmov o => .vmov o

/-- The member of the pair set that an instruction is, if any (R64). -/
def PairOp.of? : Instr → Option PairOp
  | .vadd o => some (.valu .add o) | .vsub o => some (.valu .sub o) | .vand o => some (.valu .and o)
  | .vor o => some (.valu .or o) | .vxor o => some (.valu .xor o) | .vshl o => some (.valu .shl o)
  | .vshr o => some (.valu .shr o) | .vsra o => some (.valu .sra o) | .vmin o => some (.valu .min o)
  | .vmax o => some (.valu .max o) | .vmul o => some (.valu .mul o) | .vmulh o => some (.valu .mulh o)
  | .vabsd o => some (.valu .absd o) | .vandn o => some (.valu .andn o) | .vadds o => some (.valu .adds o)
  | .vsubs o => some (.valu .subs o)
  | .vaddImm o => some (.valui .add o) | .vsubImm o => some (.valui .sub o) | .vandImm o => some (.valui .and o)
  | .vorImm o => some (.valui .or o) | .vxorImm o => some (.valui .xor o) | .vshlImm o => some (.valui .shl o)
  | .vshrImm o => some (.valui .shr o) | .vsraImm o => some (.valui .sra o) | .vminImm o => some (.valui .min o)
  | .vmaxImm o => some (.valui .max o) | .vmulImm o => some (.valui .mul o) | .vmulhImm o => some (.valui .mulh o)
  | .vabsdImm o => some (.valui .absd o) | .vandnImm o => some (.valui .andn o)
  | .vaddsImm o => some (.valui .adds o) | .vsubsImm o => some (.valui .subs o)
  | .fadd o => some (.falu .add o) | .fsub o => some (.falu .sub o) | .fmul o => some (.falu .mul o)
  | .ffma o => some (.ffma .ffma o) | .ffms o => some (.ffma .ffms o) | .ffnma o => some (.ffma .ffnma o)
  | .vsel o => some (.vsel o)
  | .vmov o => some (.vmov o)
  | _ => none

/-- Vector registers that a member of the pair set reads. -/
def PairOp.reads : PairOp → List VReg
  | .valu _ o => [o.va, o.vb]
  | .valui _ o => [o.va]
  | .falu _ o => [o.va, o.vb]
  | .ffma _ o => [o.va, o.vb, o.vc]
  | .vsel o => [o.va, o.vb]
  | .vmov o => [o.va]

/-- The vector register that a member of the pair set writes. -/
def PairOp.dest : PairOp → VReg
  | .valu _ o => o.vd
  | .valui _ o => o.vd
  | .falu _ o => o.vd
  | .ffma _ o => o.vd
  | .vsel o => o.vd
  | .vmov o => o.vd

def PairOp.isFfma : PairOp → Bool
  | .ffma _ _ => true
  | _ => false

/-- The rules of R64 for a pair. -/
def pairOk (a b : PairOp) : Bool :=
  let rs := (a.reads ++ b.reads).eraseDups
  rs.length ≤ 4 && (List.range 4).all (fun k => (rs.filter (fun r => r.code % 4 == k)).length ≤ 2) &&
    a.dest.code % 4 != b.dest.code % 4 && !(b.reads.contains a.dest) && !(a.isFfma && b.isFfma)

end Sys2Proof
end

