-- ==== Sys2Proof/Decode.lean ====
section
/-!
DEFINITION. The decoder and the encoder: the eight formats (Tables 3.3 to 3.10), the opcode map (Table 3.11), and the
64-byte management commands (Tables 23.3, 23.4).
-/

namespace Sys2Proof

/-- Why a word is no instruction (R70). -/
inductive DecodeErr where
  /-- ILLEGAL_INSTR. -/
  | illegalInstr
  /-- ILLEGAL_REG. -/
  | illegalReg
  deriving DecidableEq, Repr

/-- Format V (Table 3.3). -/
structure FmtV where
  op : BitVec 8
  fn : BitVec 4
  vd : BitVec 9
  va : BitVec 9
  vb : BitVec 9
  vc : BitVec 9
  ty : BitVec 5
  gp : BitVec 4
  gn : BitVec 1
  cf : BitVec 2
  md : BitVec 4
  deriving DecidableEq, Repr

/-- Format VI (Table 3.4). -/
structure FmtVI where
  op : BitVec 8
  fn : BitVec 4
  vd : BitVec 9
  va : BitVec 9
  imm : BitVec 16
  z  : BitVec 2
  ty : BitVec 5
  gp : BitVec 4
  gn : BitVec 1
  cf : BitVec 2
  md : BitVec 4
  deriving DecidableEq, Repr

/-- Format S (Table 3.5). -/
structure FmtS where
  op : BitVec 8
  fn : BitVec 4
  sd : BitVec 6
  sa : BitVec 6
  sb : BitVec 6
  isel : BitVec 2
  imm : BitVec 32
  deriving DecidableEq, Repr

/-- Format M (Table 3.6). -/
structure FmtM where
  op : BitVec 8
  fn : BitVec 4
  data : BitVec 9
  va : BitVec 9
  base : BitVec 6
  off : BitVec 12
  ty : BitVec 5
  gp : BitVec 4
  gn : BitVec 1
  cf : BitVec 2
  hint : BitVec 4
  deriving DecidableEq, Repr

/-- Format B (Table 3.7); p and the top of aux are one field, so that [51:46] can name a scalar. -/
structure FmtB where
  op : BitVec 8
  fn : BitVec 4
  top : BitVec 6
  mid : BitVec 9
  low : BitVec 5
  tgt : BitVec 32
  deriving DecidableEq, Repr

/-- Format B with its predicate and aux fields (DBR, BRZ, BRNZ). -/
structure FmtBP where
  op : BitVec 8
  fn : BitVec 4
  p  : BitVec 4
  aux : BitVec 16
  tgt : BitVec 32
  deriving DecidableEq, Repr

/-- Format X (Table 3.8). -/
structure FmtX where
  op : BitVec 8
  fn : BitVec 4
  tile : BitVec 8
  ab : BitVec 9
  bb : BitVec 9
  bnd : BitVec 6
  scl : BitVec 9
  z  : BitVec 5
  cf : BitVec 2
  md : BitVec 4
  deriving DecidableEq, Repr

/-- Format K (Table 3.9). -/
structure FmtK where
  op : BitVec 8
  fn : BitVec 4
  kd : BitVec 4
  ka : BitVec 4
  kb : BitVec 4
  vd : BitVec 9
  ve : BitVec 9
  s  : BitVec 6
  ty : BitVec 5
  pd : BitVec 4
  ge : BitVec 1
  cf : BitVec 2
  md : BitVec 4
  deriving DecidableEq, Repr

/-- Format E (Table 3.10). -/
structure FmtE where
  op : BitVec 8
  fn : BitVec 4
  sd : BitVec 6
  sa : BitVec 6
  sb : BitVec 6
  q  : BitVec 6
  imm : BitVec 28
  deriving DecidableEq, Repr

/-- A field of a word: `n` bits from bit `lo`. -/
def fld (w : W64) (lo n : Nat) : BitVec n := w.extractLsb' lo n

def FmtV.pack (f : FmtV) : W64 :=
  f.op ++ f.fn ++ f.vd ++ f.va ++ f.vb ++ f.vc ++ f.ty ++ f.gp ++ f.gn ++ f.cf ++ f.md
def FmtVI.pack (f : FmtVI) : W64 :=
  f.op ++ f.fn ++ f.vd ++ f.va ++ f.imm ++ f.z ++ f.ty ++ f.gp ++ f.gn ++ f.cf ++ f.md
def FmtS.pack (f : FmtS) : W64 := f.op ++ f.fn ++ f.sd ++ f.sa ++ f.sb ++ f.isel ++ f.imm
def FmtM.pack (f : FmtM) : W64 :=
  f.op ++ f.fn ++ f.data ++ f.va ++ f.base ++ f.off ++ f.ty ++ f.gp ++ f.gn ++ f.cf ++ f.hint
def FmtB.pack (f : FmtB) : W64 := f.op ++ f.fn ++ f.top ++ f.mid ++ f.low ++ f.tgt
def FmtBP.pack (f : FmtBP) : W64 := f.op ++ f.fn ++ f.p ++ f.aux ++ f.tgt
def FmtX.pack (f : FmtX) : W64 :=
  f.op ++ f.fn ++ f.tile ++ f.ab ++ f.bb ++ f.bnd ++ f.scl ++ f.z ++ f.cf ++ f.md
def FmtK.pack (f : FmtK) : W64 :=
  f.op ++ f.fn ++ f.kd ++ f.ka ++ f.kb ++ f.vd ++ f.ve ++ f.s ++ f.ty ++ f.pd ++ f.ge ++ f.cf ++ f.md
def FmtE.pack (f : FmtE) : W64 := f.op ++ f.fn ++ f.sd ++ f.sa ++ f.sb ++ f.q ++ f.imm

def FmtV.of (w : W64) : FmtV :=
  { op := fld w 56 8, fn := fld w 52 4, vd := fld w 43 9, va := fld w 34 9, vb := fld w 25 9, vc := fld w 16 9,
    ty := fld w 11 5, gp := fld w 7 4, gn := fld w 6 1, cf := fld w 4 2, md := fld w 0 4 }
def FmtVI.of (w : W64) : FmtVI :=
  { op := fld w 56 8, fn := fld w 52 4, vd := fld w 43 9, va := fld w 34 9, imm := fld w 18 16, z := fld w 16 2,
    ty := fld w 11 5, gp := fld w 7 4, gn := fld w 6 1, cf := fld w 4 2, md := fld w 0 4 }
def FmtS.of (w : W64) : FmtS :=
  { op := fld w 56 8, fn := fld w 52 4, sd := fld w 46 6, sa := fld w 40 6, sb := fld w 34 6, isel := fld w 32 2,
    imm := fld w 0 32 }
def FmtM.of (w : W64) : FmtM :=
  { op := fld w 56 8, fn := fld w 52 4, data := fld w 43 9, va := fld w 34 9, base := fld w 28 6, off := fld w 16 12,
    ty := fld w 11 5, gp := fld w 7 4, gn := fld w 6 1, cf := fld w 4 2, hint := fld w 0 4 }
def FmtB.of (w : W64) : FmtB :=
  { op := fld w 56 8, fn := fld w 52 4, top := fld w 46 6, mid := fld w 37 9, low := fld w 32 5, tgt := fld w 0 32 }
def FmtBP.of (w : W64) : FmtBP :=
  { op := fld w 56 8, fn := fld w 52 4, p := fld w 48 4, aux := fld w 32 16, tgt := fld w 0 32 }
def FmtX.of (w : W64) : FmtX :=
  { op := fld w 56 8, fn := fld w 52 4, tile := fld w 44 8, ab := fld w 35 9, bb := fld w 26 9, bnd := fld w 20 6,
    scl := fld w 11 9, z := fld w 6 5, cf := fld w 4 2, md := fld w 0 4 }
def FmtK.of (w : W64) : FmtK :=
  { op := fld w 56 8, fn := fld w 52 4, kd := fld w 48 4, ka := fld w 44 4, kb := fld w 40 4, vd := fld w 31 9,
    ve := fld w 22 9, s := fld w 16 6, ty := fld w 11 5, pd := fld w 7 4, ge := fld w 6 1, cf := fld w 4 2,
    md := fld w 0 4 }
def FmtE.of (w : W64) : FmtE :=
  { op := fld w 56 8, fn := fld w 52 4, sd := fld w 46 6, sa := fld w 40 6, sb := fld w 34 6, q := fld w 28 6,
    imm := fld w 0 28 }

/-! Operand fields. -/

def sreg (b : BitVec 6) : SReg := b.toFin
def preg (b : BitVec 4) : PReg := b.toFin
def kreg (b : BitVec 4) : KReg := b.toFin
def treg (b : BitVec 8) : TReg := b.toFin
def flag1 (b : BitVec 1) : Bool := b == 1#1

/-- The codes 0 to 319 name registers (R67). -/
def vregOk (c : BitVec 9) : Bool := c.toNat < 320

/-- The register of a code (R67); codes from 320 up are rejected by `vregOk`. -/
def vreg (c : BitVec 9) : VReg :=
  if h : c.toNat < 256 then .v ⟨c.toNat, h⟩
  else if h : c.toNat - 256 < 64 then .g ⟨c.toNat - 256, h⟩ else .v 0

/-- An optional register: 0x1FF is none (M vaddr and X scl). -/
def vregOptOk (c : BitVec 9) : Bool := c == 511#9 || vregOk c
def vregOpt (c : BitVec 9) : Option VReg := if c == 511#9 then none else some (vreg c)

def tagOf (b : BitVec 5) : Tag := Tag.ofCode b.toNat

def guardOf (gp : BitVec 4) (gn : BitVec 1) : Guard := { p := preg gp, neg := flag1 gn }

/-- The completion flag field; code 3 is rejected by `cfOk`. -/
def cfOf (b : BitVec 2) : Cf := if b == 1#2 then .a else if b == 2#2 then .b else .none
def cfOk (b : BitVec 2) : Bool := b != 3#2

/-- Rounding override (R39): codes 5 to 15 are rejected by `rndOk`. -/
def rndOf (b : BitVec 4) : Rnd :=
  if b == 1#4 then some .rne else if b == 2#4 then some .rtz else if b == 3#4 then some .rup
  else if b == 4#4 then some .rdn else none
def rndOk (b : BitVec 4) : Bool := b.toNat ≤ 4

/-- A field that the instruction does not use (R66). -/
def mbz {n : Nat} (b : BitVec n) : Bool := b == 0#n

/-- A 9-bit field that holds a 6-bit scalar number, or a 4-bit predicate number; the bits above are MBZ (R224). -/
def sIn9 (c : BitVec 9) : SReg := sreg (c.setWidth 6)
def sIn9Ok (c : BitVec 9) : Bool := c.toNat < 64
def pIn9 (c : BitVec 9) : PReg := preg (c.setWidth 4)
def pIn9Ok (c : BitVec 9) : Bool := c.toNat < 16

/-- The ordered answer of R71: ILLEGAL_INSTR before ILLEGAL_REG. -/
def finish (form regs : Bool) (i : Instr) : Except DecodeErr Instr :=
  if !(form && i.wfForm) then .error .illegalInstr
  else if !(regs && i.wfRegs) then .error .illegalReg
  else .ok i

noncomputable section

/-- A word whose major or fn is reserved. -/
def reserved (w : W64) : Except DecodeErr Instr := .ok (.reservedOpcodeWord w)

/-! Format V. -/

def FmtV.guard (f : FmtV) : Guard := guardOf f.gp f.gn
def FmtV.vops (f : FmtV) : VOps := { vd := vreg f.vd, va := vreg f.va, vb := vreg f.vb, t := tagOf f.ty, g := f.guard }
def FmtV.un (f : FmtV) : VUnOps := { vd := vreg f.vd, va := vreg f.va, t := tagOf f.ty, g := f.guard }
def FmtV.move (f : FmtV) : VMoveOps := { vd := vreg f.vd, va := vreg f.va, g := f.guard }
def FmtV.v3 (f : FmtV) : V3Ops :=
  { vd := vreg f.vd, va := vreg f.va, vb := vreg f.vb, vc := vreg f.vc, t := tagOf f.ty, g := f.guard }
def FmtV.fops (f : FmtV) : FOps :=
  { vd := vreg f.vd, va := vreg f.va, vb := vreg f.vb, t := tagOf f.ty, rnd := rndOf f.md, g := f.guard }
def FmtV.ffma (f : FmtV) : FfmaOps :=
  { vd := vreg f.vd, va := vreg f.va, vb := vreg f.vb, vc := vreg f.vc, t := tagOf f.ty, rnd := rndOf f.md, g := f.guard }
def FmtV.carry (f : FmtV) : VCarryOps :=
  { vd := vreg f.vd, va := vreg f.va, vb := vreg f.vb, co := pIn9 f.vc, ci := preg f.md, t := tagOf f.ty, g := f.guard }
def FmtV.mad (f : FmtV) : VMadOps :=
  { vd := vreg f.vd, va := vreg f.va, vb := vreg f.vb, vc := vreg f.vc, ci := preg f.md, g := f.guard }
def FmtV.cmp (f : FmtV) : VCmpOps :=
  { pd := pIn9 f.vd, va := vreg f.va, vb := vreg f.vb, t := tagOf f.ty, g := f.guard }
def FmtV.sel (f : FmtV) : VselOps :=
  { vd := vreg f.vd, ps := pIn9 f.vc, va := vreg f.va, vb := vreg f.vb, g := f.guard }
def FmtV.dot (f : FmtV) : VdotOps :=
  { vd := vreg f.vd, va := vreg f.va, vb := vreg f.vb, vc := vreg f.vc, sat := f.md == 1#4, g := f.guard }
def FmtV.fcmp (f : FmtV) : FcmpOps :=
  { pd := pIn9 f.vd, va := vreg f.va, vb := vreg f.vb, t := tagOf f.ty, e := f.md == 1#4, g := f.guard }
def FmtV.fclass (f : FmtV) : FclassOps :=
  { vd := vreg f.vd, va := vreg f.va, t := tagOf f.ty, e := (f.md.setWidth 3).toFin, g := f.guard }
def FmtV.fsf (f : FmtV) : FsfOps :=
  { vd := vreg f.vd, va := vreg f.va, t := tagOf f.ty, rnd := rndOf f.md, g := f.guard, cf := cfOf f.cf }
def FmtV.cvt (f : FmtV) : CvtOps :=
  { vd := vreg f.vd, va := vreg f.va, part := (f.vb.setWidth 3).toFin, src := tagOf (f.vc.setWidth 5), dst := tagOf f.ty,
    sat := f.vc.getLsbD 5, rnd := rndOf f.md, g := f.guard }
def FmtV.cvtmx (f : FmtV) : CvtmxOps :=
  { vd := vreg f.vd, va := vreg f.va, vc := vreg f.vc, part := (f.vb.setWidth 3).toFin,
    b := (f.vb.extractLsb' 3 2).toFin, wide := Tag.ofCode (f.vb.extractLsb' 5 4).toNat, mx := tagOf f.ty,
    rnd := rndOf f.md, g := f.guard, cf := cfOf f.cf }
def FmtV.shfl (f : FmtV) : ShflOps :=
  { vd := vreg f.vd, va := vreg f.va, d := (f.vc.setWidth 6).toFin, g := f.guard }
def FmtV.scan (f : FmtV) : VscanOps :=
  { vd := vreg f.vd, va := vreg f.va, t := tagOf f.ty, ex := f.md == 1#4, g := f.guard }
def FmtV.vote (f : FmtV) : VoteOps := { pd := pIn9 f.vd, ps := pIn9 f.va, g := f.guard }

def FmtV.noCf (f : FmtV) : Bool := mbz f.cf
def FmtV.plain (f : FmtV) : Bool := mbz f.cf && mbz f.md
def FmtV.r2 (f : FmtV) : Bool := vregOk f.vd && vregOk f.va
def FmtV.r3 (f : FmtV) : Bool := f.r2 && vregOk f.vb
def FmtV.r4 (f : FmtV) : Bool := f.r3 && vregOk f.vc
def FmtV.typed (f : FmtV) : Bool := mbz f.ty
/-- mod 0 or 1. -/
def FmtV.m01 (f : FmtV) : Bool := f.md.toNat ≤ 1

/-- VALU (Table 12.3). -/
def decodeValu (w : W64) : Except DecodeErr Instr :=
  let f := FmtV.of w
  finish (f.plain && mbz f.vc) f.r3 <| match f.fn.toNat with
    | 0 => .vadd f.vops | 1 => .vsub f.vops | 2 => .vand f.vops | 3 => .vor f.vops | 4 => .vxor f.vops
    | 5 => .vshl f.vops | 6 => .vshr f.vops | 7 => .vsra f.vops | 8 => .vmin f.vops | 9 => .vmax f.vops
    | 10 => .vmul f.vops | 11 => .vmulh f.vops | 12 => .vabsd f.vops | 13 => .vandn f.vops | 14 => .vadds f.vops
    | _ => .vsubs f.vops

/-- VALUI (Table 12.3). -/
def decodeValui (w : W64) : Except DecodeErr Instr :=
  let f := FmtVI.of w
  let o : VIOps := { vd := vreg f.vd, va := vreg f.va, imm := f.imm, t := tagOf f.ty, g := guardOf f.gp f.gn }
  finish (mbz f.z && mbz f.cf && mbz f.md) (vregOk f.vd && vregOk f.va) <| match f.fn.toNat with
    | 0 => .vaddImm o | 1 => .vsubImm o | 2 => .vandImm o | 3 => .vorImm o | 4 => .vxorImm o | 5 => .vshlImm o
    | 6 => .vshrImm o | 7 => .vsraImm o | 8 => .vminImm o | 9 => .vmaxImm o | 10 => .vmulImm o | 11 => .vmulhImm o
    | 12 => .vabsdImm o | 13 => .vandnImm o | 14 => .vaddsImm o | _ => .vsubsImm o

/-- VADDC, VSUBB, VMAD64. -/
def decodeCarry (w : W64) : Except DecodeErr Instr :=
  let f := FmtV.of w
  match f.op.toNat, f.fn.toNat with
  | 0x21, 0 => finish (f.noCf && pIn9Ok f.vc) f.r3 (.vaddc f.carry)
  | 0x21, 1 => finish (f.noCf && pIn9Ok f.vc) f.r3 (.vsubb f.carry)
  | 0x22, 0 => finish (f.noCf && f.ty == 16#5) f.r4 (.vmad64U f.mad)
  | 0x22, 1 => finish (f.noCf && f.ty == 16#5) f.r4 (.vmad64S f.mad)
  | _, _ => reserved w

/-- VCMP. -/
def decodeVcmp (w : W64) : Except DecodeErr Instr :=
  let f := FmtV.of w
  let go := finish (f.plain && mbz f.vc && pIn9Ok f.vd) (vregOk f.va && vregOk f.vb)
  match f.fn.toNat with
  | 0 => go (.vcmpEq f.cmp) | 1 => go (.vcmpNe f.cmp) | 2 => go (.vcmpLt f.cmp) | 3 => go (.vcmpLe f.cmp)
  | 4 => go (.vcmpGt f.cmp) | 5 => go (.vcmpGe f.cmp) | 6 => go (.vcmpLtu f.cmp) | 7 => go (.vcmpLeu f.cmp)
  | 8 => go (.vcmpGtu f.cmp) | 9 => go (.vcmpGeu f.cmp)
  | _ => reserved w

/-- VBIT. -/
def decodeVbit (w : W64) : Except DecodeErr Instr :=
  let f := FmtV.of w
  let one := finish (f.plain && mbz f.vb && mbz f.vc) f.r2
  match f.fn.toNat with
  | 0 => one (.vpopc f.un) | 1 => one (.vclz f.un) | 2 => one (.vctz f.un)
  | 3 => finish (f.plain && mbz f.vc) f.r3 (.vbfe f.vops)
  | 4 => finish f.plain f.r4 (.vbfi f.v3)
  | 5 => one (.vrev f.un)
  | 6 => finish f.plain f.r4 (.vbperm f.v3)
  | _ => reserved w

/-- VSEL, VMOV and VLI. -/
def decodeVmove (w : W64) : Except DecodeErr Instr :=
  let f := FmtV.of w
  let i := FmtVI.of w
  let o : VliOps := { vd := vreg i.vd, imm := i.imm, t := tagOf i.ty, g := guardOf i.gp i.gn }
  match f.op.toNat, f.fn.toNat with
  | 0x24, 0 => finish (f.plain && f.typed && pIn9Ok f.vc) f.r3 (.vsel f.sel)
  | 0x26, 0 => finish (f.plain && f.typed && mbz f.vb && mbz f.vc) f.r2 (.vmov f.move)
  | 0x26, 1 => finish (mbz i.va && mbz i.z && mbz i.cf && i.md.toNat ≤ 2) (vregOk i.vd)
      (match i.md.toNat with | 0 => .vli o | 1 => .vliHi o | _ => .vliDup o)
  | _, _ => reserved w

/-- VDOT4. -/
def decodeVdot (w : W64) : Except DecodeErr Instr :=
  let f := FmtV.of w
  match f.fn.toNat with
  | 0 => finish (f.noCf && f.m01 && f.ty == 1#5) f.r4 (.vdot4II f.dot)
  | 1 => finish (f.noCf && f.m01 && f.ty == 2#5) f.r4 (.vdot4UU f.dot)
  | 2 => finish (f.noCf && f.m01 && f.ty == 1#5) f.r4 (.vdot4IU f.dot)
  | _ => reserved w

/-- FALU, FFMA and FSCALE (Table 13.1). -/
def decodeFarith (w : W64) : Except DecodeErr Instr :=
  let f := FmtV.of w
  let two := finish (f.noCf && rndOk f.md && mbz f.vc) f.r3
  let three := finish (f.noCf && rndOk f.md) f.r4
  match f.op.toNat, f.fn.toNat with
  | 0x30, 0 => two (.fadd f.fops) | 0x30, 1 => two (.fsub f.fops) | 0x30, 2 => two (.fmul f.fops)
  | 0x30, 3 => finish (f.plain && mbz f.vc) f.r3 (.fmin f.vops)
  | 0x30, 4 => finish (f.plain && mbz f.vc) f.r3 (.fmax f.vops)
  | 0x31, 0 => three (.ffma f.ffma) | 0x31, 1 => three (.ffms f.ffma) | 0x31, 2 => three (.ffnma f.ffma)
  | 0x37, 0 => two (.fscale f.fops)
  | _, _ => reserved w

/-- FCMP and FCLASS (Table 13.2). -/
def decodeFcmp (w : W64) : Except DecodeErr Instr :=
  let f := FmtV.of w
  let go := finish (f.noCf && f.m01 && mbz f.vc && pIn9Ok f.vd) (vregOk f.va && vregOk f.vb)
  match f.op.toNat, f.fn.toNat with
  | 0x32, 0 => go (.fcmpEq f.fcmp) | 0x32, 1 => go (.fcmpNe f.fcmp) | 0x32, 2 => go (.fcmpLt f.fcmp)
  | 0x32, 3 => go (.fcmpLe f.fcmp) | 0x32, 4 => go (.fcmpGt f.fcmp) | 0x32, 5 => go (.fcmpGe f.fcmp)
  | 0x32, 6 => go (.fcmpUnord f.fcmp) | 0x32, 7 => go (.fcmpOrd f.fcmp)
  | 0x33, 0 => finish (f.noCf && mbz f.vb && mbz f.vc && f.md.toNat < 8) f.r2 (.fclass f.fclass)
  | _, _ => reserved w

/-- FSF (R254). -/
def decodeFsf (w : W64) : Except DecodeErr Instr :=
  let f := FmtV.of w
  let go := finish (cfOk f.cf && rndOk f.md && mbz f.vb && mbz f.vc) f.r2
  match f.fn.toNat with
  | 0 => go (.frcp f.fsf) | 1 => go (.frsq f.fsf) | 2 => go (.fsqrt f.fsf) | 3 => go (.fexp2 f.fsf)
  | 4 => go (.flog2 f.fsf) | 5 => go (.fsin f.fsf) | 6 => go (.fcos f.fsf) | 7 => go (.ftanh f.fsf)
  | _ => reserved w

/-- CVT and CVTMX (R256, R259). -/
def decodeCvt (w : W64) : Except DecodeErr Instr :=
  let f := FmtV.of w
  let mx := finish (cfOk f.cf && rndOk f.md) (f.r2 && vregOk f.vc)
  match f.op.toNat, f.fn.toNat with
  | 0x35, 0 => finish (f.noCf && rndOk f.md && f.vb.toNat < 8 && f.vc.toNat < 64) f.r2 (.cvt f.cvt)
  | 0x36, 0 => mx (.cvtmxQ f.cvtmx)
  | 0x36, 1 => mx (.cvtmxD f.cvtmx)
  | _, _ => reserved w

/-- SHFL, BCAST, VTOS and QXCH (Table 12.6). -/
def decodeShuffle (w : W64) : Except DecodeErr Instr :=
  let f := FmtV.of w
  let sh := finish (f.plain && f.typed && mbz f.vb && f.vc.toNat < 64) f.r2
  let qx := finish (f.plain && f.typed && mbz f.vb && mbz f.vc) f.r2
  match f.op.toNat, f.fn.toNat with
  | 0x50, 0 => finish (f.plain && f.typed && mbz f.vc) f.r3
      (.shflIdx { vd := vreg f.vd, va := vreg f.va, vb := vreg f.vb, g := f.guard })
  | 0x50, 1 => sh (.shflUp f.shfl) | 0x50, 2 => sh (.shflDown f.shfl) | 0x50, 3 => sh (.shflXor f.shfl)
  | 0x51, 0 => if f.md == 0#4 then sh (.bcast f.shfl)
      else finish (f.noCf && f.m01 && sIn9Ok f.va && mbz f.vb && mbz f.vc) (vregOk f.vd)
        (.bcastS { vd := vreg f.vd, sa := sIn9 f.va, t := tagOf f.ty, g := f.guard })
  | 0x51, 1 => finish (f.plain && f.typed && sIn9Ok f.vd && mbz f.vb && f.vc.toNat < 64 && f.gp == 15#4 && mbz f.gn)
      (vregOk f.va) (.vtos { sd := sIn9 f.vd, va := vreg f.va, n := (f.vc.setWidth 6).toFin })
  | 0x55, 0 => qx (.qxchH f.move) | 0x55, 1 => qx (.qxchV f.move) | 0x55, 2 => qx (.qxchD f.move)
  | 0x55, 3 => finish (f.plain && f.typed && mbz f.vb && f.vc.toNat < 4) f.r2
      (.qxchB { vd := vreg f.vd, va := vreg f.va, c := (f.vc.setWidth 2).toFin, g := f.guard })
  | _, _ => reserved w

/-- VRED and VSCAN. -/
def decodeReduce (w : W64) : Except DecodeErr Instr :=
  let f := FmtV.of w
  let red := finish (f.plain && mbz f.vb && mbz f.vc) f.r2
  let scan := finish (f.noCf && f.m01 && mbz f.vb && mbz f.vc) f.r2
  match f.op.toNat, f.fn.toNat with
  | 0x52, 0 => red (.vredAdd f.un) | 0x52, 1 => red (.vredMin f.un) | 0x52, 2 => red (.vredMax f.un)
  | 0x52, 3 => red (.vredAnd f.un) | 0x52, 4 => red (.vredOr f.un) | 0x52, 5 => red (.vredXor f.un)
  | 0x52, 6 => red (.vredFadd f.un) | 0x52, 7 => red (.vredFmin f.un) | 0x52, 8 => red (.vredFmax f.un)
  | 0x53, 0 => scan (.vscanAdd f.scan) | 0x53, 1 => scan (.vscanMin f.scan) | 0x53, 2 => scan (.vscanMax f.scan)
  | 0x53, 3 => scan (.vscanAnd f.scan) | 0x53, 4 => scan (.vscanOr f.scan) | 0x53, 5 => scan (.vscanXor f.scan)
  | 0x53, 6 => scan (.vscanFadd f.scan) | 0x53, 7 => scan (.vscanFmin f.scan) | 0x53, 8 => scan (.vscanFmax f.scan)
  | _, _ => reserved w

/-- VOTE. -/
def decodeVote (w : W64) : Except DecodeErr Instr :=
  let f := FmtV.of w
  let z := f.plain && f.typed && mbz f.vb && mbz f.vc
  match f.fn.toNat with
  | 0 => finish (z && sIn9Ok f.vd && pIn9Ok f.va) true (.voteBallot { sd := sIn9 f.vd, ps := pIn9 f.va, g := f.guard })
  | 1 => finish (z && pIn9Ok f.vd && pIn9Ok f.va) true (.voteAny f.vote)
  | 2 => finish (z && pIn9Ok f.vd && pIn9Ok f.va) true (.voteAll f.vote)
  | 3 => finish (z && pIn9Ok f.vd && sIn9Ok f.va) true (.votePfroms { pd := pIn9 f.vd, sa := sIn9 f.va, g := f.guard })
  | _ => reserved w

/-- TAGSET and TAGGET (R185). -/
def decodeTag (w : W64) : Except DecodeErr Instr :=
  let f := FmtV.of w
  match f.fn.toNat with
  | 0 => finish (f.plain && f.typed && mbz f.va && mbz f.vb && f.vc.toNat < 32 && f.gp == 15#4 && mbz f.gn)
      (vregOk f.vd) (.tagset (vreg f.vd) (f.vc.setWidth 5))
  | 1 => finish (f.plain && f.typed && mbz f.vb && mbz f.vc) f.r2 (.tagget f.move)
  | _ => reserved w

/-! Format S. -/

/-- The second operand of format S. -/
def FmtS.src (f : FmtS) : Src :=
  match f.isel.toNat with
  | 0 => .reg (sreg f.sb) | 1 => .sext f.imm | 2 => .zext f.imm | _ => .high f.imm

/-- imm32 is MBZ with isel 00, sb is MBZ with any other isel (Table 3.5). -/
def FmtS.srcOk (f : FmtS) : Bool := if f.isel == 0#2 then mbz f.imm else mbz f.sb

def FmtS.alu (f : FmtS) : SAluOps := { sd := sreg f.sd, sa := sreg f.sa, x := f.src }

/-- SALU. -/
def decodeSalu (w : W64) : Except DecodeErr Instr :=
  let f := FmtS.of w
  finish f.srcOk true <| match f.fn.toNat with
    | 0 => .sadd f.alu | 1 => .ssub f.alu | 2 => .sand f.alu | 3 => .sor f.alu | 4 => .sxor f.alu | 5 => .sshl f.alu
    | 6 => .sshr f.alu | 7 => .ssra f.alu | 8 => .smin f.alu | 9 => .smax f.alu | 10 => .sminu f.alu
    | 11 => .smaxu f.alu | 12 => .smul f.alu | 13 => .smulh f.alu | 14 => .smulhu f.alu | _ => .sandn f.alu

/-- SCMP. -/
def decodeScmp (w : W64) : Except DecodeErr Instr :=
  let f := FmtS.of w
  let go := finish f.srcOk true
  match f.fn.toNat with
  | 0 => go (.scmpEq f.alu) | 1 => go (.scmpNe f.alu) | 2 => go (.scmpLt f.alu) | 3 => go (.scmpLe f.alu)
  | 4 => go (.scmpGt f.alu) | 5 => go (.scmpGe f.alu) | 6 => go (.scmpLtu f.alu) | 7 => go (.scmpLeu f.alu)
  | 8 => go (.scmpGtu f.alu) | 9 => go (.scmpGeu f.alu)
  | _ => reserved w

/-- SSEL and SBIT (Table 12.1). -/
def decodeSbit (w : W64) : Except DecodeErr Instr :=
  let f := FmtS.of w
  let un := finish (mbz f.sb && mbz f.isel && mbz f.imm) true
  let u : SUnOps := { sd := sreg f.sd, sa := sreg f.sa }
  let bf : SbfOps := { sd := sreg f.sd, sa := sreg f.sa,
                       f := if f.isel == 0#2 then .reg (sreg f.sb) else .imm (f.imm.setWidth 14) }
  let bfOk := if f.isel == 0#2 then mbz f.imm else f.isel == 2#2 && mbz f.sb && f.imm.toNat < 2 ^ 14
  match f.op.toNat, f.fn.toNat with
  | 0x12, 0 => finish (mbz f.isel && f.imm.toNat < 64) true
      (.ssel { sd := sreg f.sd, sa := sreg f.sa, sb := sreg f.sb, sc := sreg (f.imm.setWidth 6) })
  | 0x13, 0 => un (.spopc u) | 0x13, 1 => un (.sclz u) | 0x13, 2 => un (.sctz u)
  | 0x13, 3 => finish bfOk true (.sbfe bf) | 0x13, 4 => finish bfOk true (.sbfi bf)
  | 0x13, 5 => un (.srev u)
  | _, _ => reserved w

/-- The instructions of Tables 5.5, 8.4, 9.1 and 10.5. -/
def decodeSystem (w : W64) : Except DecodeErr Instr :=
  let f := FmtS.of w
  let zd := mbz f.sd
  let za := mbz f.sa
  let none0 := mbz f.sb && mbz f.isel && mbz f.imm
  let num := mbz f.sb && f.isel == 2#2
  let d := sreg f.sd
  let a := sreg f.sa
  match f.op.toNat, f.fn.toNat with
  | 0x07, 0 => finish (zd && num && f.imm.toNat < 32) true (.trap (f.imm.setWidth 5) a)
  | 0x07, 1 => finish (zd && za && none0) true .rft
  | 0x08, 0 => finish (zd && za && none0) true .yield
  | 0x09, 0 => finish (za && num) true (.srd d f.imm)
  | 0x09, 1 => finish (zd && num) true (.swr f.imm a)
  | 0x0A, 0 => finish (za && num) true (.csrr d f.imm)
  | 0x0A, 1 => finish (zd && num) true (.csrw f.imm a)
  | 0x0B, 0 => finish (zd && za && none0) true .chend
  | 0x0B, 1 => finish (mbz f.sb && (if f.isel == 0#2 then mbz f.imm else za)) true
      (.chcfg d (match f.isel.toNat with | 0 => .reg a | 1 => .sext f.imm | 2 => .zext f.imm | _ => .high f.imm))
  | 0x0C, 0 => finish (za && num && f.imm.toNat < 16) true (.wsplit d (preg (f.imm.setWidth 4)))
  | 0x0C, 1 => finish (za && none0) true (.wfuse d)
  | 0x0C, 2 => finish (za && none0) true (.wqry d)
  | 0x0E, 0 => finish (za && num) true (.idrd d f.imm)
  | 0x56, 0 => finish (zd && za && f.srcOk) true (.emset f.src)
  | 0x56, 1 => finish (zd && none0) true (.emld a)
  | 0x56, 2 => finish (za && none0) true (.emst d)
  | 0x56, 3 => finish (zd && za && f.srcOk) true (.emand f.src)
  | 0x56, 4 => finish (zd && za && f.srcOk) true (.hmset f.src)
  | _, _ => reserved w

/-! Format M. -/

/-- Widths, fn 0 to 6. -/
def mwidthOf : Nat → MWidth
  | 0 => .u8 | 1 => .i8 | 2 => .u16 | 3 => .i16 | 4 => .b32 | 5 => .b64 | _ => .b128

def FmtM.hintOk (f : FmtM) : Bool := f.hint.toNat < 8
def FmtM.noGuard (f : FmtM) : Bool := f.gp == 15#4 && mbz f.gn
def FmtM.mem (f : FmtM) : MemOps :=
  { w := mwidthOf f.fn.toNat, d := vreg f.data, va := vregOpt f.va, base := sreg f.base, off := f.off, t := tagOf f.ty,
    g := guardOf f.gp f.gn, cf := cfOf f.cf, hint := f.hint.setWidth 3 }
def FmtM.smem (f : FmtM) : SMemOps :=
  { w := mwidthOf f.fn.toNat, r := sIn9 f.data, base := sreg f.base, off := f.off, cf := cfOf f.cf,
    hint := f.hint.setWidth 3 }
def FmtM.span (f : FmtM) : SpanOps :=
  { n1 := (f.data.setWidth 5).toFin, va := vregOpt f.va, base := sreg f.base, off := f.off, g := guardOf f.gp f.gn,
    hint := f.hint.setWidth 3 }
def FmtM.amov (f : FmtM) : AmovOps :=
  { d := vreg f.data, va := vregOpt f.va, base := sreg f.base, off := f.off, t := tagOf f.ty, g := guardOf f.gp f.gn,
    cf := cfOf f.cf }

/-- LD, ST, LDCW, STCW, SLD, SST, PREF, DISCARD (Table 14.1). -/
def decodeMem (w : W64) : Except DecodeErr Instr :=
  let f := FmtM.of w
  let v := finish (cfOk f.cf && f.hintOk) (vregOk f.data && vregOptOk f.va)
  let s := finish (cfOk f.cf && f.hintOk && sIn9Ok f.data && f.va == 511#9 && mbz f.ty && f.noGuard) true
  let span := finish (mbz f.cf && f.hintOk && f.data.toNat < 32 && mbz f.ty) (vregOptOk f.va)
  match f.op.toNat, f.fn.toNat with
  | 0x64, 0 => span (.pref f.span)
  | 0x64, 1 => span (.discard f.span)
  | 0x64, _ => reserved w
  | op, fn => if 7 ≤ fn then reserved w else
    match op with
    | 0x60 => v (.ld f.mem) | 0x61 => v (.st f.mem) | 0x62 => v (.ldcw f.mem) | 0x63 => v (.stcw f.mem)
    | 0x14 => s (.sld f.smem) | 0x15 => s (.sst f.smem)
    | _ => reserved w

/-- AMOV (R397). -/
def decodeAmov (w : W64) : Except DecodeErr Instr :=
  let f := FmtM.of w
  let go := finish (cfOk f.cf && mbz f.hint) (vregOk f.data && vregOptOk f.va)
  match f.fn.toNat with
  | 0 => go (.amovAdd f.amov) | 1 => go (.amovSub f.amov) | 2 => go (.amovMin f.amov) | 3 => go (.amovMax f.amov)
  | 4 => go (.amovMinu f.amov) | 5 => go (.amovMaxu f.amov) | 6 => go (.amovAnd f.amov) | 7 => go (.amovOr f.amov)
  | 8 => go (.amovXor f.amov) | 9 => go (.amovXchg f.amov) | 10 => go (.amovCas f.amov) | 11 => go (.amovFadd f.amov)
  | 12 => go (.amovIncw f.amov) | 13 => go (.amovDecw f.amov)
  | _ => reserved w

/-- Formats of ALD and AST, fn 0 to 3 (R336). -/
def afmtOf : Nat → AFmt
  | 0 => .f32 | 1 => .i32 | 2 => .f16 | _ => .bf16

/-- ALD and AST. -/
def decodeTileMem (w : W64) : Except DecodeErr Instr :=
  let f := FmtM.of w
  let o : TileMemOps := { f := afmtOf f.fn.toNat, tile := treg (f.data.setWidth 8), base := sreg f.base, off := f.off,
                          cf := cfOf f.cf, hint := f.hint.setWidth 3 }
  let ok := cfOk f.cf && f.hintOk && f.data.toNat < 256 && f.va == 511#9 && mbz f.ty && f.noGuard
  match f.op.toNat with
  | 0x84 => if 3 ≤ f.fn.toNat then reserved w else finish ok true (.ald o)
  | _ => if 4 ≤ f.fn.toNat then reserved w else finish ok true (.ast o)

/-! Format B. -/

/-- The control instructions (Table 8.3). -/
def decodeControl (w : W64) : Except DecodeErr Instr :=
  let f := FmtB.of w
  let p := FmtBP.of w
  let bare := finish (mbz p.p && mbz p.aux && mbz p.tgt) true
  match f.op.toNat, f.fn.toNat with
  | 0x00, 0 => bare .nop
  | 0x01, 0 => finish (mbz p.p && mbz p.aux) true (.bra f.tgt)
  | 0x01, 1 => finish (mbz f.mid && mbz f.low) true (.braNz (sreg f.top) f.tgt)
  | 0x01, 2 => finish (mbz f.mid && mbz f.low) true (.braZ (sreg f.top) f.tgt)
  | 0x02, 0 => finish (mbz p.aux) true (.brz (preg p.p) p.tgt)
  | 0x02, 1 => finish (mbz p.aux) true (.brnz (preg p.p) p.tgt)
  | 0x03, 0 => finish true true (.dbr (preg p.p) p.tgt p.aux)
  | 0x04, 0 => bare .join
  | 0x05, 0 => finish (mbz f.top && mbz f.mid) true (.call f.tgt f.low)
  | 0x05, 1 => finish (mbz f.mid && mbz f.tgt) true (.callI (sreg f.top) f.low)
  | 0x05, 2 => bare .ret
  | 0x06, 0 => bare .exit
  | 0x06, 1 => bare .exitS
  | _, _ => reserved w

/-! Format X. -/

def FmtX.mma (f : FmtX) : MmaOps :=
  { tile := treg f.tile, a := vreg f.ab, b := vreg f.bb, bnd := sreg f.bnd, scl := vregOpt f.scl, cf := cfOf f.cf }

/-- MMA, MMAI and MMAT (Table 18.1). -/
def decodeMatrix (w : W64) : Except DecodeErr Instr :=
  let f := FmtX.of w
  let form := mbz f.z && mbz f.md && cfOk f.cf
  let ab := vregOk f.ab && vregOk f.bb
  -- a scale field other than 0x1FF is ILLEGAL_INSTR even where it is no register code (Table 3.8)
  let plain := finish (form && f.scl == 511#9) ab
  let mx := finish form (ab && vregOptOk f.scl)
  match f.op.toNat, f.fn.toNat with
  | 0x80, 0 => plain (.mmaF16 f.mma) | 0x80, 1 => plain (.mmaBf16 f.mma) | 0x80, 2 => plain (.mmaE4m3 f.mma)
  | 0x80, 3 => plain (.mmaE5m2 f.mma) | 0x80, 4 => mx (.mmaMxe4m3 f.mma) | 0x80, 5 => mx (.mmaMxe5m2 f.mma)
  | 0x80, 6 => mx (.mmaMxe2m1 f.mma)
  | 0x81, 0 => plain (.mmaiI8i8 f.mma) | 0x81, 1 => plain (.mmaiU8i8 f.mma) | 0x81, 2 => plain (.mmaiI4i4 f.mma)
  | 0x82, 0 => plain (.mmatI8t2 f.mma) | 0x82, 1 => plain (.mmatU8t2 f.mma)
  | _, _ => reserved w

/-- AZERO, AMOVV, AMOVA, ACVT and ATAG (Table 17.3). -/
def decodeTile (w : W64) : Except DecodeErr Instr :=
  let f := FmtX.of w
  let form := mbz f.z && mbz f.md && mbz f.cf && f.scl == 511#9 && mbz f.bb
  let t := treg f.tile
  match f.op.toNat, f.fn.toNat with
  | 0x83, 0 => finish (form && mbz f.ab && mbz f.bnd) true (.azero t)
  | 0x86, 0 => finish (form && mbz f.bnd) (vregOk f.ab) (.amovv t (vreg f.ab))
  | 0x86, 1 => finish (form && mbz f.bnd) (vregOk f.ab) (.amova t (vreg f.ab))
  | 0x87, 0 => finish (form && mbz f.ab && mbz f.bnd) true (.acvtRelu t)
  | 0x87, 1 => finish (form && mbz f.ab) true (.acvtScale t (sreg f.bnd))
  | 0x87, 2 => finish (form && mbz f.ab) true (.acvtClamp t (sreg f.bnd))
  | 0x88, 0 => finish (form && f.ab.toNat < 32) true (.atag t (sreg f.bnd) (f.ab.setWidth 5))
  | _, _ => reserved w

/-! Format K. -/

def FmtK.kinit (f : FmtK) : KinitOps := { kd := kreg f.kd, s := sreg f.s, cf := cfOf f.cf }

def kwidthOf : Nat → KWidth
  | 0 => .b8 | 1 => .b16 | 2 => .b32 | _ => .b64

/-- The cursor instructions (Tables 19.7, 20.1) and XDEC (R326). -/
def decodeCursor (w : W64) : Except DecodeErr Instr :=
  let f := FmtK.of w
  let cf := cfOk f.cf
  let zk := mbz f.ka && mbz f.kb
  let zv := mbz f.vd && mbz f.ve
  let ztp := mbz f.ty && mbz f.pd
  let form0 := mbz f.ge
  let form1 := f.ge == 1#1
  let z0 := mbz f.md
  let strand := cf && zk && zv && ztp && form0 && z0
  match f.op.toNat, f.fn.toNat with
  | 0x90, 0 => finish strand true (.kinitR f.kinit)
  | 0x90, 1 => finish strand true (.kinitA f.kinit)
  | 0x91, 0 =>
    if f.ge == 1#1 then finish (cf && zk && mbz f.ty && z0) (vregOk f.vd && vregOk f.ve)
      (.knext { kd := kreg f.kd, vc := vreg f.vd, vp := vreg f.ve, s := sreg f.s, pd := preg f.pd, cf := cfOf f.cf })
    else finish strand true (.knextS f.kinit)
  | 0x92, 0 => finish strand true (.kseek f.kinit)
  | 0x93, 0 => finish (cf && mbz f.kb && zv && mbz f.s && ztp && form0 && z0) true
      (.kdesc (kreg f.kd) (kreg f.ka) (cfOf f.cf))
  | 0x95, 0 => finish (cf && mbz f.kd && mbz f.ty && form1) (vregOk f.vd && vregOk f.ve)
      (.kcoI { ka := kreg f.ka, kb := kreg f.kb, vc := vreg f.vd, vp := vreg f.ve, s := sreg f.s, pa := preg f.pd,
               pb := preg f.md, cf := cfOf f.cf })
  | 0x95, 1 => finish (cf && mbz f.kd && mbz f.ty && form1) (vregOk f.vd && vregOk f.ve)
      (.kcoU { ka := kreg f.ka, kb := kreg f.kb, vc := vreg f.vd, vp := vreg f.ve, s := sreg f.s, pa := preg f.pd,
               pb := preg f.md, cf := cfOf f.cf })
  | 0x96, 0 => finish (cf && zk && mbz f.ty && form1) (vregOk f.vd && vregOk f.ve)
      (.kapp { kd := kreg f.kd, vc := vreg f.vd, vv := vreg f.ve, ps := preg f.md, s := sreg f.s, pa := preg f.pd,
               cf := cfOf f.cf })
  | 0x97, 0 => finish strand true (.kfin f.kinit)
  | 0x98, 0 => finish (mbz f.cf && mbz f.kd && mbz f.kb && zv && ztp && form0 && f.md.toNat < 8) true
      (.kqry { sd := sreg f.s, ka := kreg f.ka, f := (f.md.setWidth 3).toFin })
  | 0x99, 0 => finish (cf && mbz f.kd && mbz f.kb && zv && ztp && form0 && f.md.toNat < 2) true
      (.ksave { k := kreg f.ka, sb := sreg f.s, crew := f.md == 1#4, cf := cfOf f.cf })
  | 0x99, 1 => finish (cf && zk && zv && ztp && form0 && f.md.toNat < 2) true
      (.krest { k := kreg f.kd, sb := sreg f.s, crew := f.md == 1#4, cf := cfOf f.cf })
  | 0x9A, 0 => finish (cf && zk && mbz f.ve && form1 && z0) (vregOk f.vd)
      (.sieveNz { kd := kreg f.kd, vx := vreg f.vd, s := sreg f.s, pk := preg f.pd, t := tagOf f.ty, cf := cfOf f.cf })
  | 0x9A, 1 => finish (cf && zk && form1 && z0) (vregOk f.vd && vregOk f.ve)
      (.sieveDelta { kd := kreg f.kd, vx := vreg f.vd, vk := vreg f.ve, s := sreg f.s, pk := preg f.pd, t := tagOf f.ty,
                     cf := cfOf f.cf })
  | 0x9B, 0 => finish (cf && mbz f.kd && zk && mbz f.ve && form0 && z0) (vregOk f.vd)
      (.xdec { vd := vreg f.vd, s := sreg f.s, pd := preg f.pd, t := tagOf f.ty, cf := cfOf f.cf })
  | 0x94, fn => if 4 ≤ fn then reserved w else
      finish (cf && mbz f.kd && mbz f.kb && mbz f.s && mbz f.ty && form1 && z0) (vregOk f.vd && vregOk f.ve)
        (.kld { w := kwidthOf fn, vd := vreg f.vd, ka := kreg f.ka, vp := vreg f.ve, pd := preg f.pd, cf := cfOf f.cf })
  | _, _ => reserved w

/-! Format E. -/

def FmtE.amo (f : FmtE) : AmoOps :=
  { sd := sreg f.sd, sa := sreg f.sa, sb := sreg f.sb, w64 := f.imm.getLsbD 0 }
def FmtE.queue (f : FmtE) : QueueOps :=
  { sd := sreg f.sd, sa := sreg f.sa, q := f.imm.setWidth 8, p := preg (f.imm.extractLsb' 8 4) }
def FmtE.wc (f : FmtE) : WcOps :=
  { sd := sreg f.sd, sb := sreg f.sb, win := f.imm.extractLsb' 8 8, p := preg (f.imm.extractLsb' 16 4) }

/-- AMO (Table 21.1). -/
def decodeAmo (w : W64) : Except DecodeErr Instr :=
  let f := FmtE.of w
  let go := finish (mbz f.q && f.imm.toNat < 2) true
  match f.fn.toNat with
  | 0 => go (.amoAdd f.amo) | 1 => go (.amoSub f.amo) | 2 => go (.amoMin f.amo) | 3 => go (.amoMax f.amo)
  | 4 => go (.amoMinu f.amo) | 5 => go (.amoMaxu f.amo) | 6 => go (.amoAnd f.amo) | 7 => go (.amoOr f.amo)
  | 8 => go (.amoXor f.amo) | 9 => go (.amoXchg f.amo) | 10 => go (.amoCas f.amo) | 11 => go (.amoFadd f.amo)
  | 12 => go (.amoIncw f.amo) | 13 => go (.amoDecw f.amo)
  | _ => reserved w

/-- The other instructions of format E. -/
def decodeEngine (w : W64) : Except DecodeErr Instr :=
  let f := FmtE.of w
  let d := sreg f.sd
  let a := sreg f.sa
  let b := sreg f.sb
  let zq := mbz f.q
  let zi := mbz f.imm
  let qOk := zq && mbz f.sb && f.imm.toNat < 2 ^ 12
  match f.op.toNat, f.fn.toNat with
  | 0x72, 0 => finish (mbz f.sd && zq && zi) true (.binit a b)
  | 0x73, 0 => finish (mbz f.sb && zq && zi) true (.barv d a)
  | 0x73, 1 => finish (zq && zi) true (.bwt { sd := d, sa := a, sb := b })
  | 0x73, 2 => finish (mbz f.sb && zq && zi) true (.barw d a)
  | 0x74, 0 => finish (zq && f.imm.toNat < 2) true (.svwaitEq f.amo)
  | 0x74, 1 => finish (zq && f.imm.toNat < 2) true (.svwaitGeu f.amo)
  | 0x78, 0 => finish qOk true (.enq f.queue)
  | 0x79, 0 => finish qOk true (.deq f.queue)
  | 0x79, 1 => finish qOk true (.deqt f.queue)
  | 0x7A, 0 => finish (mbz f.sb && f.q.toNat < 3 && f.imm.toNat < 16) true
      (.engq { sd := d, sa := a, q := ⟨f.q.toNat % 3, Nat.mod_lt _ (by decide)⟩, p := preg (f.imm.setWidth 4) })
  | 0x7B, 0 => finish (mbz f.sa && mbz f.sb && zq && zi) true (.bclose d)
  | 0x7B, 1 => finish (zq && zi) true (.bwait { sd := d, sa := a, sb := b })
  | 0x7B, 2 => finish (zq && zi) true (.btest { sd := d, sa := a, sb := b })
  | 0x7C, 0 => finish (mbz f.sd && mbz f.sa && mbz f.sb && zq && mbz (f.imm.extractLsb' 13 15) && mbz (f.imm.extractLsb' 5 3))
      true (.xfence (f.imm.extractLsb' 8 5) (f.imm.setWidth 5))
  | 0x7D, 0 =>
    let ok := mbz f.sa && zq && mbz (f.imm.extractLsb' 1 7) && mbz (f.imm.extractLsb' 20 8)
    if f.imm.getLsbD 0 then finish ok true (.wcwaitD f.wc) else finish ok true (.wcwaitS f.wc)
  | _, _ => reserved w

/-- One instruction word (R69, R70): the instruction, or why it is none. -/
def decodeWord (w : W64) : Except DecodeErr Instr :=
  match (fld w 56 8).toNat with
  | 0x00 | 0x01 | 0x02 | 0x03 | 0x04 | 0x05 | 0x06 => decodeControl w
  | 0x07 | 0x08 | 0x09 | 0x0A | 0x0B | 0x0C | 0x0E | 0x56 => decodeSystem w
  | 0x0D => decodeTag w
  | 0x10 => decodeSalu w
  | 0x11 => decodeScmp w
  | 0x12 | 0x13 => decodeSbit w
  | 0x14 | 0x15 | 0x60 | 0x61 | 0x62 | 0x63 | 0x64 => decodeMem w
  | 0x20 => decodeValu w
  | 0x21 | 0x22 => decodeCarry w
  | 0x23 => decodeVcmp w
  | 0x24 | 0x26 => decodeVmove w
  | 0x25 => decodeVbit w
  | 0x27 => decodeVdot w
  | 0x28 => decodeValui w
  | 0x30 | 0x31 | 0x37 => decodeFarith w
  | 0x32 | 0x33 => decodeFcmp w
  | 0x34 => decodeFsf w
  | 0x35 | 0x36 => decodeCvt w
  | 0x50 | 0x51 | 0x55 => decodeShuffle w
  | 0x52 | 0x53 => decodeReduce w
  | 0x54 => decodeVote w
  | 0x70 => decodeAmo w
  | 0x71 => decodeAmov w
  | 0x72 | 0x73 | 0x74 | 0x78 | 0x79 | 0x7A | 0x7B | 0x7C | 0x7D => decodeEngine w
  | 0x80 | 0x81 | 0x82 => decodeMatrix w
  | 0x83 | 0x86 | 0x87 | 0x88 => decodeTile w
  | 0x84 | 0x85 => decodeTileMem w
  | 0x90 | 0x91 | 0x92 | 0x93 | 0x94 | 0x95 | 0x96 | 0x97 | 0x98 | 0x99 | 0x9A | 0x9B => decodeCursor w
  | _ => reserved w

end

/-- Bits [63:60] mark a clause header (R52). -/
def isHeader (w : W64) : Bool := (fld w 60 4).toNat == 15

/-- A word whose major transfers control (R54). -/
def isControlWord (w : W64) : Bool :=
  match (fld w 56 8).toNat with
  | 0x01 | 0x02 | 0x03 | 0x04 | 0x05 | 0x06 | 0x07 => true
  | _ => false

/-- The majors of Table 3.2, whose cf field may name a flag. -/
def mayFlag (w : W64) : Bool :=
  match (fld w 56 8).toNat with
  | 0x14 | 0x15 | 0x34 | 0x36 | 0x60 | 0x61 | 0x62 | 0x63 | 0x71 | 0x80 | 0x81 | 0x82 | 0x84 | 0x85 | 0x90 | 0x91 | 0x92
  | 0x93 | 0x94 | 0x95 | 0x96 | 0x97 | 0x99 | 0x9A | 0x9B => true
  | _ => false

/-- The completion flag that a word names. -/
def wordCf (w : W64) : Cf := if mayFlag w then cfOf (fld w 4 2) else .none


/-! The encoder, from the same tables. -/

def sbits (s : SReg) : BitVec 6 := BitVec.ofFin s
def pbits (p : PReg) : BitVec 4 := BitVec.ofFin p
def kbits (k : KReg) : BitVec 4 := BitVec.ofFin k
def tbits (t : TReg) : BitVec 8 := BitVec.ofFin t
def vbits (r : VReg) : BitVec 9 := BitVec.ofNat 9 r.code
def vbitsOpt : Option VReg → BitVec 9
  | none => 511#9
  | some r => vbits r
def tagBits (t : Tag) : BitVec 5 := BitVec.ofNat 5 t.code
def sbits9 (s : SReg) : BitVec 9 := (sbits s).setWidth 9
def pbits9 (p : PReg) : BitVec 9 := (pbits p).setWidth 9
def bit1 (b : Bool) : BitVec 1 := BitVec.ofBool b
def cfBits : Cf → BitVec 2
  | .none => 0#2 | .a => 1#2 | .b => 2#2
def rndBits : Rnd → BitVec 4
  | none => 0#4 | some .rne => 1#4 | some .rtz => 2#4 | some .rup => 3#4 | some .rdn => 4#4
def finBits {m : Nat} (n : Nat) (x : Fin m) : BitVec n := BitVec.ofNat n x.val

/-- Format V from its operands. -/
def encV (op fn : Nat) (vd va vb vc : BitVec 9) (t : BitVec 5) (g : Guard) (cf : BitVec 2) (md : BitVec 4) : W64 :=
  FmtV.pack { op := BitVec.ofNat 8 op, fn := BitVec.ofNat 4 fn, vd, va, vb, vc, ty := t, gp := pbits g.p,
              gn := bit1 g.neg, cf, md }
def encVI (op fn : Nat) (vd va : BitVec 9) (imm : BitVec 16) (t : Tag) (g : Guard) (md : BitVec 4) : W64 :=
  FmtVI.pack { op := BitVec.ofNat 8 op, fn := BitVec.ofNat 4 fn, vd, va, imm, z := 0#2, ty := tagBits t,
               gp := pbits g.p, gn := bit1 g.neg, cf := 0#2, md }
def encS (op fn : Nat) (sd sa sb : BitVec 6) (isel : BitVec 2) (imm : BitVec 32) : W64 :=
  FmtS.pack { op := BitVec.ofNat 8 op, fn := BitVec.ofNat 4 fn, sd, sa, sb, isel, imm }
def encE (op fn : Nat) (sd sa sb q : BitVec 6) (imm : BitVec 28) : W64 :=
  FmtE.pack { op := BitVec.ofNat 8 op, fn := BitVec.ofNat 4 fn, sd, sa, sb, q, imm }
def encM (op fn : Nat) (data va : BitVec 9) (base : SReg) (off : BitVec 12) (t : BitVec 5) (g : Guard) (cf : Cf)
    (hint : BitVec 3) : W64 :=
  FmtM.pack { op := BitVec.ofNat 8 op, fn := BitVec.ofNat 4 fn, data, va, base := sbits base, off, ty := t,
              gp := pbits g.p, gn := bit1 g.neg, cf := cfBits cf, hint := hint.setWidth 4 }
def encBP (op fn : Nat) (p : BitVec 4) (aux : BitVec 16) (tgt : BitVec 32) : W64 :=
  FmtBP.pack { op := BitVec.ofNat 8 op, fn := BitVec.ofNat 4 fn, p, aux, tgt }
def encB (op fn : Nat) (top : BitVec 6) (low : BitVec 5) (tgt : BitVec 32) : W64 :=
  FmtB.pack { op := BitVec.ofNat 8 op, fn := BitVec.ofNat 4 fn, top, mid := 0#9, low, tgt }
def encX (op fn : Nat) (tile : TReg) (ab bb : BitVec 9) (bnd : BitVec 6) (scl : BitVec 9) (cf : Cf) : W64 :=
  FmtX.pack { op := BitVec.ofNat 8 op, fn := BitVec.ofNat 4 fn, tile := tbits tile, ab, bb, bnd, scl, z := 0#5,
              cf := cfBits cf, md := 0#4 }
def encK (op fn : Nat) (kd ka kb : BitVec 4) (vd ve : BitVec 9) (s : BitVec 6) (t : BitVec 5) (pd : BitVec 4)
    (ge : BitVec 1) (cf : Cf) (md : BitVec 4) : W64 :=
  FmtK.pack { op := BitVec.ofNat 8 op, fn := BitVec.ofNat 4 fn, kd, ka, kb, vd, ve, s, ty := t, pd, ge,
              cf := cfBits cf, md }

def VOps.enc (o : VOps) (op fn : Nat) : W64 :=
  encV op fn (vbits o.vd) (vbits o.va) (vbits o.vb) 0#9 (tagBits o.t) o.g 0#2 0#4
def VIOps.enc (o : VIOps) (fn : Nat) : W64 := encVI 0x28 fn (vbits o.vd) (vbits o.va) o.imm o.t o.g 0#4
def VUnOps.enc (o : VUnOps) (op fn : Nat) : W64 :=
  encV op fn (vbits o.vd) (vbits o.va) 0#9 0#9 (tagBits o.t) o.g 0#2 0#4
def VMoveOps.enc (o : VMoveOps) (op fn : Nat) : W64 :=
  encV op fn (vbits o.vd) (vbits o.va) 0#9 0#9 0#5 o.g 0#2 0#4
def V3Ops.enc (o : V3Ops) (op fn : Nat) : W64 :=
  encV op fn (vbits o.vd) (vbits o.va) (vbits o.vb) (vbits o.vc) (tagBits o.t) o.g 0#2 0#4
def VCarryOps.enc (o : VCarryOps) (fn : Nat) : W64 :=
  encV 0x21 fn (vbits o.vd) (vbits o.va) (vbits o.vb) (pbits9 o.co) (tagBits o.t) o.g 0#2 (pbits o.ci)
def VMadOps.enc (o : VMadOps) (fn : Nat) : W64 :=
  encV 0x22 fn (vbits o.vd) (vbits o.va) (vbits o.vb) (vbits o.vc) 16#5 o.g 0#2 (pbits o.ci)
def VCmpOps.enc (o : VCmpOps) (fn : Nat) : W64 :=
  encV 0x23 fn (pbits9 o.pd) (vbits o.va) (vbits o.vb) 0#9 (tagBits o.t) o.g 0#2 0#4
def VliOps.enc (o : VliOps) (md : BitVec 4) : W64 := encVI 0x26 1 (vbits o.vd) 0#9 o.imm o.t o.g md
def VdotOps.enc (o : VdotOps) (fn : Nat) (t : BitVec 5) : W64 :=
  encV 0x27 fn (vbits o.vd) (vbits o.va) (vbits o.vb) (vbits o.vc) t o.g 0#2 ((bit1 o.sat).setWidth 4)
def FOps.enc (o : FOps) (op fn : Nat) : W64 :=
  encV op fn (vbits o.vd) (vbits o.va) (vbits o.vb) 0#9 (tagBits o.t) o.g 0#2 (rndBits o.rnd)
def FfmaOps.enc (o : FfmaOps) (fn : Nat) : W64 :=
  encV 0x31 fn (vbits o.vd) (vbits o.va) (vbits o.vb) (vbits o.vc) (tagBits o.t) o.g 0#2 (rndBits o.rnd)
def FcmpOps.enc (o : FcmpOps) (fn : Nat) : W64 :=
  encV 0x32 fn (pbits9 o.pd) (vbits o.va) (vbits o.vb) 0#9 (tagBits o.t) o.g 0#2 ((bit1 o.e).setWidth 4)
def FsfOps.enc (o : FsfOps) (fn : Nat) : W64 :=
  encV 0x34 fn (vbits o.vd) (vbits o.va) 0#9 0#9 (tagBits o.t) o.g (cfBits o.cf) (rndBits o.rnd)
def CvtOps.enc (o : CvtOps) : W64 :=
  encV 0x35 0 (vbits o.vd) (vbits o.va) (finBits 9 o.part)
    (BitVec.ofNat 9 (o.src.code + 32 * bit o.sat)) (tagBits o.dst) o.g 0#2 (rndBits o.rnd)
def CvtmxOps.enc (o : CvtmxOps) (fn : Nat) : W64 :=
  encV 0x36 fn (vbits o.vd) (vbits o.va) (BitVec.ofNat 9 (o.part.val + 8 * o.b.val + 32 * o.wide.code)) (vbits o.vc)
    (tagBits o.mx) o.g (cfBits o.cf) (rndBits o.rnd)
def ShflOps.enc (o : ShflOps) (op fn : Nat) : W64 :=
  encV op fn (vbits o.vd) (vbits o.va) 0#9 (finBits 9 o.d) 0#5 o.g 0#2 0#4
def VscanOps.enc (o : VscanOps) (fn : Nat) : W64 :=
  encV 0x53 fn (vbits o.vd) (vbits o.va) 0#9 0#9 (tagBits o.t) o.g 0#2 ((bit1 o.ex).setWidth 4)
def VoteOps.enc (o : VoteOps) (fn : Nat) : W64 :=
  encV 0x54 fn (pbits9 o.pd) (pbits9 o.ps) 0#9 0#9 0#5 o.g 0#2 0#4

/-- The isel and imm32 of a second operand, and its sb field (Table 3.5). -/
def Src.isel : Src → BitVec 2
  | .reg _ => 0#2 | .sext _ => 1#2 | .zext _ => 2#2 | .high _ => 3#2
def Src.imm : Src → BitVec 32
  | .reg _ => 0#32 | .sext i => i | .zext i => i | .high i => i
def Src.sb : Src → BitVec 6
  | .reg s => sbits s | _ => 0#6

def SAluOps.enc (o : SAluOps) (op fn : Nat) : W64 := encS op fn (sbits o.sd) (sbits o.sa) o.x.sb o.x.isel o.x.imm
def SUnOps.enc (o : SUnOps) (fn : Nat) : W64 := encS 0x13 fn (sbits o.sd) (sbits o.sa) 0#6 0#2 0#32
def SbfOps.enc (o : SbfOps) (fn : Nat) : W64 :=
  match o.f with
  | .reg s => encS 0x13 fn (sbits o.sd) (sbits o.sa) (sbits s) 0#2 0#32
  | .imm f => encS 0x13 fn (sbits o.sd) (sbits o.sa) 0#6 2#2 (f.setWidth 32)
/-- The forms of Table 5.5 that take a number. -/
def encNum (op fn : Nat) (sd sa : BitVec 6) (imm : BitVec 32) : W64 := encS op fn sd sa 0#6 2#2 imm
def encEm (fn : Nat) (x : Src) : W64 := encS 0x56 fn 0#6 0#6 x.sb x.isel x.imm

def MWidth.fn : MWidth → Nat
  | .u8 => 0 | .i8 => 1 | .u16 => 2 | .i16 => 3 | .b32 => 4 | .b64 => 5 | .b128 => 6
def KWidth.fn : KWidth → Nat
  | .b8 => 0 | .b16 => 1 | .b32 => 2 | .b64 => 3
def AFmt.fn : AFmt → Nat
  | .f32 => 0 | .i32 => 1 | .f16 => 2 | .bf16 => 3

def MemOps.enc (o : MemOps) (op : Nat) : W64 :=
  encM op o.w.fn (vbits o.d) (vbitsOpt o.va) o.base o.off (tagBits o.t) o.g o.cf o.hint
def SMemOps.enc (o : SMemOps) (op : Nat) : W64 :=
  encM op o.w.fn (sbits9 o.r) 511#9 o.base o.off 0#5 Guard.all o.cf o.hint
def SpanOps.enc (o : SpanOps) (fn : Nat) : W64 :=
  encM 0x64 fn (finBits 9 o.n1) (vbitsOpt o.va) o.base o.off 0#5 o.g .none o.hint
def AmovOps.enc (o : AmovOps) (fn : Nat) : W64 :=
  encM 0x71 fn (vbits o.d) (vbitsOpt o.va) o.base o.off (tagBits o.t) o.g o.cf 0#3
def TileMemOps.enc (o : TileMemOps) (op : Nat) : W64 :=
  encM op o.f.fn ((tbits o.tile).setWidth 9) 511#9 o.base o.off 0#5 Guard.all o.cf o.hint
def AmoOps.enc (o : AmoOps) (op fn : Nat) : W64 :=
  encE op fn (sbits o.sd) (sbits o.sa) (sbits o.sb) 0#6 ((bit1 o.w64).setWidth 28)
def QueueOps.enc (o : QueueOps) (op fn : Nat) : W64 :=
  encE op fn (sbits o.sd) (sbits o.sa) 0#6 0#6 (BitVec.ofNat 28 (o.q.toNat + 256 * o.p.val))
def SabOps.enc (o : SabOps) (op fn : Nat) : W64 := encE op fn (sbits o.sd) (sbits o.sa) (sbits o.sb) 0#6 0#28
def WcOps.enc (o : WcOps) (d : Nat) : W64 :=
  encE 0x7D 0 (sbits o.sd) 0#6 (sbits o.sb) 0#6 (BitVec.ofNat 28 (d + 256 * o.win.toNat + 65536 * o.p.val))
def MmaOps.enc (o : MmaOps) (op fn : Nat) : W64 :=
  encX op fn o.tile (vbits o.a) (vbits o.b) (sbits o.bnd) (vbitsOpt o.scl) o.cf
/-- A tile instruction of Table 17.3. -/
def encTile (op fn : Nat) (t : TReg) (ab : BitVec 9) (bnd : BitVec 6) : W64 := encX op fn t ab 0#9 bnd 511#9 .none
def KinitOps.enc (o : KinitOps) (op fn : Nat) : W64 :=
  encK op fn (kbits o.kd) 0#4 0#4 0#9 0#9 (sbits o.s) 0#5 0#4 0#1 o.cf 0#4
def KcoOps.enc (o : KcoOps) (fn : Nat) : W64 :=
  encK 0x95 fn 0#4 (kbits o.ka) (kbits o.kb) (vbits o.vc) (vbits o.vp) (sbits o.s) 0#5 (pbits o.pa) 1#1 o.cf (pbits o.pb)

/-- The word of an instruction; none for a step that is no instruction of the stream. -/
def encode : Instr → Option W64
  | .nop => some (encBP 0x00 0 0#4 0#16 0#32)
  | .bra t => some (encBP 0x01 0 0#4 0#16 t)
  | .braNz s t => some (encB 0x01 1 (sbits s) 0#5 t)
  | .braZ s t => some (encB 0x01 2 (sbits s) 0#5 t)
  | .brz p t => some (encBP 0x02 0 (pbits p) 0#16 t)
  | .brnz p t => some (encBP 0x02 1 (pbits p) 0#16 t)
  | .dbr p t j => some (encBP 0x03 0 (pbits p) j t)
  | .join => some (encBP 0x04 0 0#4 0#16 0#32)
  | .call t f => some (encB 0x05 0 0#6 f t)
  | .callI s f => some (encB 0x05 1 (sbits s) f 0#32)
  | .ret => some (encBP 0x05 2 0#4 0#16 0#32)
  | .exit => some (encBP 0x06 0 0#4 0#16 0#32)
  | .exitS => some (encBP 0x06 1 0#4 0#16 0#32)
  | .trap n s => some (encNum 0x07 0 0#6 (sbits s) (n.setWidth 32))
  | .rft => some (encS 0x07 1 0#6 0#6 0#6 0#2 0#32)
  | .yield => some (encS 0x08 0 0#6 0#6 0#6 0#2 0#32)
  | .srd d n => some (encNum 0x09 0 (sbits d) 0#6 n)
  | .swr n a => some (encNum 0x09 1 0#6 (sbits a) n)
  | .csrr d n => some (encNum 0x0A 0 (sbits d) 0#6 n)
  | .csrw n a => some (encNum 0x0A 1 0#6 (sbits a) n)
  | .idrd d n => some (encNum 0x0E 0 (sbits d) 0#6 n)
  | .chend => some (encS 0x0B 0 0#6 0#6 0#6 0#2 0#32)
  | .chcfg d (.reg a) => some (encS 0x0B 1 (sbits d) (sbits a) 0#6 0#2 0#32)
  | .chcfg d x => some (encS 0x0B 1 (sbits d) 0#6 0#6 x.isel x.imm)
  | .wsplit d p => some (encNum 0x0C 0 (sbits d) 0#6 ((pbits p).setWidth 32))
  | .wfuse d => some (encS 0x0C 1 (sbits d) 0#6 0#6 0#2 0#32)
  | .wqry d => some (encS 0x0C 2 (sbits d) 0#6 0#6 0#2 0#32)
  | .tagset v c => some (encV 0x0D 0 (vbits v) 0#9 0#9 (c.setWidth 9) 0#5 Guard.all 0#2 0#4)
  | .tagget o => some (o.enc 0x0D 1)
  | .sadd o => some (o.enc 0x10 0)
  | .ssub o => some (o.enc 0x10 1)
  | .sand o => some (o.enc 0x10 2)
  | .sor o => some (o.enc 0x10 3)
  | .sxor o => some (o.enc 0x10 4)
  | .sshl o => some (o.enc 0x10 5)
  | .sshr o => some (o.enc 0x10 6)
  | .ssra o => some (o.enc 0x10 7)
  | .smin o => some (o.enc 0x10 8)
  | .smax o => some (o.enc 0x10 9)
  | .sminu o => some (o.enc 0x10 10)
  | .smaxu o => some (o.enc 0x10 11)
  | .smul o => some (o.enc 0x10 12)
  | .smulh o => some (o.enc 0x10 13)
  | .smulhu o => some (o.enc 0x10 14)
  | .sandn o => some (o.enc 0x10 15)
  | .scmpEq o => some (o.enc 0x11 0)
  | .scmpNe o => some (o.enc 0x11 1)
  | .scmpLt o => some (o.enc 0x11 2)
  | .scmpLe o => some (o.enc 0x11 3)
  | .scmpGt o => some (o.enc 0x11 4)
  | .scmpGe o => some (o.enc 0x11 5)
  | .scmpLtu o => some (o.enc 0x11 6)
  | .scmpLeu o => some (o.enc 0x11 7)
  | .scmpGtu o => some (o.enc 0x11 8)
  | .scmpGeu o => some (o.enc 0x11 9)
  | .ssel o => some (encS 0x12 0 (sbits o.sd) (sbits o.sa) (sbits o.sb) 0#2 ((sbits o.sc).setWidth 32))
  | .spopc o => some (o.enc 0)
  | .sclz o => some (o.enc 1)
  | .sctz o => some (o.enc 2)
  | .sbfe o => some (o.enc 3)
  | .sbfi o => some (o.enc 4)
  | .srev o => some (o.enc 5)
  | .sld o => some (o.enc 0x14)
  | .sst o => some (o.enc 0x15)
  | .vadd o => some (o.enc 0x20 0)
  | .vsub o => some (o.enc 0x20 1)
  | .vand o => some (o.enc 0x20 2)
  | .vor o => some (o.enc 0x20 3)
  | .vxor o => some (o.enc 0x20 4)
  | .vshl o => some (o.enc 0x20 5)
  | .vshr o => some (o.enc 0x20 6)
  | .vsra o => some (o.enc 0x20 7)
  | .vmin o => some (o.enc 0x20 8)
  | .vmax o => some (o.enc 0x20 9)
  | .vmul o => some (o.enc 0x20 10)
  | .vmulh o => some (o.enc 0x20 11)
  | .vabsd o => some (o.enc 0x20 12)
  | .vandn o => some (o.enc 0x20 13)
  | .vadds o => some (o.enc 0x20 14)
  | .vsubs o => some (o.enc 0x20 15)
  | .vaddImm o => some (o.enc 0)
  | .vsubImm o => some (o.enc 1)
  | .vandImm o => some (o.enc 2)
  | .vorImm o => some (o.enc 3)
  | .vxorImm o => some (o.enc 4)
  | .vshlImm o => some (o.enc 5)
  | .vshrImm o => some (o.enc 6)
  | .vsraImm o => some (o.enc 7)
  | .vminImm o => some (o.enc 8)
  | .vmaxImm o => some (o.enc 9)
  | .vmulImm o => some (o.enc 10)
  | .vmulhImm o => some (o.enc 11)
  | .vabsdImm o => some (o.enc 12)
  | .vandnImm o => some (o.enc 13)
  | .vaddsImm o => some (o.enc 14)
  | .vsubsImm o => some (o.enc 15)
  | .vaddc o => some (o.enc 0)
  | .vsubb o => some (o.enc 1)
  | .vmad64U o => some (o.enc 0)
  | .vmad64S o => some (o.enc 1)
  | .vcmpEq o => some (o.enc 0)
  | .vcmpNe o => some (o.enc 1)
  | .vcmpLt o => some (o.enc 2)
  | .vcmpLe o => some (o.enc 3)
  | .vcmpGt o => some (o.enc 4)
  | .vcmpGe o => some (o.enc 5)
  | .vcmpLtu o => some (o.enc 6)
  | .vcmpLeu o => some (o.enc 7)
  | .vcmpGtu o => some (o.enc 8)
  | .vcmpGeu o => some (o.enc 9)
  | .vsel o => some (encV 0x24 0 (vbits o.vd) (vbits o.va) (vbits o.vb) (pbits9 o.ps) 0#5 o.g 0#2 0#4)
  | .vmov o => some (o.enc 0x26 0)
  | .vli o => some (o.enc 0#4)
  | .vliHi o => some (o.enc 1#4)
  | .vliDup o => some (o.enc 2#4)
  | .vpopc o => some (o.enc 0x25 0)
  | .vclz o => some (o.enc 0x25 1)
  | .vctz o => some (o.enc 0x25 2)
  | .vbfe o => some (o.enc 0x25 3)
  | .vbfi o => some (o.enc 0x25 4)
  | .vrev o => some (o.enc 0x25 5)
  | .vbperm o => some (o.enc 0x25 6)
  | .vdot4II o => some (o.enc 0 1#5)
  | .vdot4UU o => some (o.enc 1 2#5)
  | .vdot4IU o => some (o.enc 2 1#5)
  | .fadd o => some (o.enc 0x30 0)
  | .fsub o => some (o.enc 0x30 1)
  | .fmul o => some (o.enc 0x30 2)
  | .fmin o => some (o.enc 0x30 3)
  | .fmax o => some (o.enc 0x30 4)
  | .ffma o => some (o.enc 0)
  | .ffms o => some (o.enc 1)
  | .ffnma o => some (o.enc 2)
  | .fscale o => some (o.enc 0x37 0)
  | .fcmpEq o => some (o.enc 0)
  | .fcmpNe o => some (o.enc 1)
  | .fcmpLt o => some (o.enc 2)
  | .fcmpLe o => some (o.enc 3)
  | .fcmpGt o => some (o.enc 4)
  | .fcmpGe o => some (o.enc 5)
  | .fcmpUnord o => some (o.enc 6)
  | .fcmpOrd o => some (o.enc 7)
  | .fclass o => some (encV 0x33 0 (vbits o.vd) (vbits o.va) 0#9 0#9 (tagBits o.t) o.g 0#2 (finBits 4 o.e))
  | .frcp o => some (o.enc 0)
  | .frsq o => some (o.enc 1)
  | .fsqrt o => some (o.enc 2)
  | .fexp2 o => some (o.enc 3)
  | .flog2 o => some (o.enc 4)
  | .fsin o => some (o.enc 5)
  | .fcos o => some (o.enc 6)
  | .ftanh o => some (o.enc 7)
  | .cvt o => some o.enc
  | .cvtmxQ o => some (o.enc 0)
  | .cvtmxD o => some (o.enc 1)
  | .shflIdx o => some (encV 0x50 0 (vbits o.vd) (vbits o.va) (vbits o.vb) 0#9 0#5 o.g 0#2 0#4)
  | .shflUp o => some (o.enc 0x50 1)
  | .shflDown o => some (o.enc 0x50 2)
  | .shflXor o => some (o.enc 0x50 3)
  | .bcast o => some (o.enc 0x51 0)
  | .bcastS o => some (encV 0x51 0 (vbits o.vd) (sbits9 o.sa) 0#9 0#9 (tagBits o.t) o.g 0#2 1#4)
  | .vtos o => some (encV 0x51 1 (sbits9 o.sd) (vbits o.va) 0#9 (finBits 9 o.n) 0#5 Guard.all 0#2 0#4)
  | .vredAdd o => some (o.enc 0x52 0)
  | .vredMin o => some (o.enc 0x52 1)
  | .vredMax o => some (o.enc 0x52 2)
  | .vredAnd o => some (o.enc 0x52 3)
  | .vredOr o => some (o.enc 0x52 4)
  | .vredXor o => some (o.enc 0x52 5)
  | .vredFadd o => some (o.enc 0x52 6)
  | .vredFmin o => some (o.enc 0x52 7)
  | .vredFmax o => some (o.enc 0x52 8)
  | .vscanAdd o => some (o.enc 0)
  | .vscanMin o => some (o.enc 1)
  | .vscanMax o => some (o.enc 2)
  | .vscanAnd o => some (o.enc 3)
  | .vscanOr o => some (o.enc 4)
  | .vscanXor o => some (o.enc 5)
  | .vscanFadd o => some (o.enc 6)
  | .vscanFmin o => some (o.enc 7)
  | .vscanFmax o => some (o.enc 8)
  | .voteBallot o => some (encV 0x54 0 (sbits9 o.sd) (pbits9 o.ps) 0#9 0#9 0#5 o.g 0#2 0#4)
  | .voteAny o => some (o.enc 1)
  | .voteAll o => some (o.enc 2)
  | .votePfroms o => some (encV 0x54 3 (pbits9 o.pd) (sbits9 o.sa) 0#9 0#9 0#5 o.g 0#2 0#4)
  | .qxchH o => some (o.enc 0x55 0)
  | .qxchV o => some (o.enc 0x55 1)
  | .qxchD o => some (o.enc 0x55 2)
  | .qxchB o => some (encV 0x55 3 (vbits o.vd) (vbits o.va) 0#9 (finBits 9 o.c) 0#5 o.g 0#2 0#4)
  | .emset x => some (encEm 0 x)
  | .emld a => some (encS 0x56 1 0#6 (sbits a) 0#6 0#2 0#32)
  | .emst d => some (encS 0x56 2 (sbits d) 0#6 0#6 0#2 0#32)
  | .emand x => some (encEm 3 x)
  | .hmset x => some (encEm 4 x)
  | .ld o => some (o.enc 0x60)
  | .st o => some (o.enc 0x61)
  | .ldcw o => some (o.enc 0x62)
  | .stcw o => some (o.enc 0x63)
  | .pref o => some (o.enc 0)
  | .discard o => some (o.enc 1)
  | .amoAdd o => some (o.enc 0x70 0)
  | .amoSub o => some (o.enc 0x70 1)
  | .amoMin o => some (o.enc 0x70 2)
  | .amoMax o => some (o.enc 0x70 3)
  | .amoMinu o => some (o.enc 0x70 4)
  | .amoMaxu o => some (o.enc 0x70 5)
  | .amoAnd o => some (o.enc 0x70 6)
  | .amoOr o => some (o.enc 0x70 7)
  | .amoXor o => some (o.enc 0x70 8)
  | .amoXchg o => some (o.enc 0x70 9)
  | .amoCas o => some (o.enc 0x70 10)
  | .amoFadd o => some (o.enc 0x70 11)
  | .amoIncw o => some (o.enc 0x70 12)
  | .amoDecw o => some (o.enc 0x70 13)
  | .amovAdd o => some (o.enc 0)
  | .amovSub o => some (o.enc 1)
  | .amovMin o => some (o.enc 2)
  | .amovMax o => some (o.enc 3)
  | .amovMinu o => some (o.enc 4)
  | .amovMaxu o => some (o.enc 5)
  | .amovAnd o => some (o.enc 6)
  | .amovOr o => some (o.enc 7)
  | .amovXor o => some (o.enc 8)
  | .amovXchg o => some (o.enc 9)
  | .amovCas o => some (o.enc 10)
  | .amovFadd o => some (o.enc 11)
  | .amovIncw o => some (o.enc 12)
  | .amovDecw o => some (o.enc 13)
  | .svwaitEq o => some (o.enc 0x74 0)
  | .svwaitGeu o => some (o.enc 0x74 1)
  | .binit a b => some (encE 0x72 0 0#6 (sbits a) (sbits b) 0#6 0#28)
  | .barv d a => some (encE 0x73 0 (sbits d) (sbits a) 0#6 0#6 0#28)
  | .bwt o => some (o.enc 0x73 1)
  | .barw d a => some (encE 0x73 2 (sbits d) (sbits a) 0#6 0#6 0#28)
  | .enq o => some (o.enc 0x78 0)
  | .deq o => some (o.enc 0x79 0)
  | .deqt o => some (o.enc 0x79 1)
  | .engq o => some (encE 0x7A 0 (sbits o.sd) (sbits o.sa) 0#6 (finBits 6 o.q) ((pbits o.p).setWidth 28))
  | .bclose d => some (encE 0x7B 0 (sbits d) 0#6 0#6 0#6 0#28)
  | .bwait o => some (o.enc 0x7B 1)
  | .btest o => some (o.enc 0x7B 2)
  | .xfence t f => some (encE 0x7C 0 0#6 0#6 0#6 0#6 (BitVec.ofNat 28 (f.toNat + 256 * t.toNat)))
  | .wcwaitS o => some (o.enc 0)
  | .wcwaitD o => some (o.enc 1)
  | .mmaF16 o => some (o.enc 0x80 0)
  | .mmaBf16 o => some (o.enc 0x80 1)
  | .mmaE4m3 o => some (o.enc 0x80 2)
  | .mmaE5m2 o => some (o.enc 0x80 3)
  | .mmaMxe4m3 o => some (o.enc 0x80 4)
  | .mmaMxe5m2 o => some (o.enc 0x80 5)
  | .mmaMxe2m1 o => some (o.enc 0x80 6)
  | .mmaiI8i8 o => some (o.enc 0x81 0)
  | .mmaiU8i8 o => some (o.enc 0x81 1)
  | .mmaiI4i4 o => some (o.enc 0x81 2)
  | .mmatI8t2 o => some (o.enc 0x82 0)
  | .mmatU8t2 o => some (o.enc 0x82 1)
  | .azero t => some (encTile 0x83 0 t 0#9 0#6)
  | .ald o => some (o.enc 0x84)
  | .ast o => some (o.enc 0x85)
  | .amovv t v => some (encTile 0x86 0 t (vbits v) 0#6)
  | .amova t v => some (encTile 0x86 1 t (vbits v) 0#6)
  | .acvtRelu t => some (encTile 0x87 0 t 0#9 0#6)
  | .acvtScale t s => some (encTile 0x87 1 t 0#9 (sbits s))
  | .acvtClamp t s => some (encTile 0x87 2 t 0#9 (sbits s))
  | .atag t d c => some (encTile 0x88 0 t (c.setWidth 9) (sbits d))
  | .kinitR o => some (o.enc 0x90 0)
  | .kinitA o => some (o.enc 0x90 1)
  | .knext o => some (encK 0x91 0 (kbits o.kd) 0#4 0#4 (vbits o.vc) (vbits o.vp) (sbits o.s) 0#5 (pbits o.pd) 1#1 o.cf 0#4)
  | .knextS o => some (o.enc 0x91 0)
  | .kseek o => some (o.enc 0x92 0)
  | .kdesc d a cf => some (encK 0x93 0 (kbits d) (kbits a) 0#4 0#9 0#9 0#6 0#5 0#4 0#1 cf 0#4)
  | .kld o => some (encK 0x94 o.w.fn 0#4 (kbits o.ka) 0#4 (vbits o.vd) (vbits o.vp) 0#6 0#5 (pbits o.pd) 1#1 o.cf 0#4)
  | .kqry o => some (encK 0x98 0 0#4 (kbits o.ka) 0#4 0#9 0#9 (sbits o.sd) 0#5 0#4 0#1 .none (finBits 4 o.f))
  | .ksave o => some (encK 0x99 0 0#4 (kbits o.k) 0#4 0#9 0#9 (sbits o.sb) 0#5 0#4 0#1 o.cf ((bit1 o.crew).setWidth 4))
  | .krest o => some (encK 0x99 1 (kbits o.k) 0#4 0#4 0#9 0#9 (sbits o.sb) 0#5 0#4 0#1 o.cf ((bit1 o.crew).setWidth 4))
  | .kcoI o => some (o.enc 0)
  | .kcoU o => some (o.enc 1)
  | .kapp o => some (encK 0x96 0 (kbits o.kd) 0#4 0#4 (vbits o.vc) (vbits o.vv) (sbits o.s) 0#5 (pbits o.pa) 1#1 o.cf (pbits o.ps))
  | .kfin o => some (o.enc 0x97 0)
  | .sieveNz o => some (encK 0x9A 0 (kbits o.kd) 0#4 0#4 (vbits o.vx) 0#9 (sbits o.s) (tagBits o.t) (pbits o.pk) 1#1 o.cf 0#4)
  | .sieveDelta o => some (encK 0x9A 1 (kbits o.kd) 0#4 0#4 (vbits o.vx) (vbits o.vk) (sbits o.s) (tagBits o.t) (pbits o.pk) 1#1 o.cf 0#4)
  | .xdec o => some (encK 0x9B 0 0#4 0#4 0#4 (vbits o.vd) 0#9 (sbits o.s) (tagBits o.t) (pbits o.pd) 0#1 o.cf 0#4)
  | .reservedOpcodeWord w => some w
  | _ => none

/-! Management commands (Tables 23.3, 23.4). -/

/-- `n` little-endian bytes of a command at an offset. -/
def cmdField (bs : List Byte) (off n : Nat) : Nat := ofBytes ((bs.drop off).take n)
def cmdBits (k : Nat) (bs : List Byte) (off : Nat) : BitVec (8 * k) := BitVec.ofNat (8 * k) (cmdField bs off k)

/-- The operand bytes that a command names: offset and length. -/
def cmdOperands (code : Nat) : List (Nat × Nat) :=
  match code with
  | 0x01 => [(8, 2), (16, 8), (24, 8), (32, 8), (40, 4), (44, 1), (48, 8), (56, 8)]
  | 0x02 | 0x03 | 0x04 | 0x06 => [(8, 2)]
  | 0x05 | 0x23 => [(8, 2), (16, 8)]
  | 0x07 => [(8, 2), (16, 4), (20, 4), (24, 4)]
  | 0x08 => [(8, 2), (16, 4)]
  | 0x10 => [(8, 2), (16, 1), (24, 8)]
  | 0x11 | 0x12 | 0x13 | 0x14 | 0x15 | 0x35 | 0x36 => [(8, 2), (16, 1)]
  | 0x20 => [(8, 2), (16, 8), (24, 8)]
  | 0x21 => [(8, 2), (16, 4), (20, 1)]
  | 0x22 => [(16, 8), (24, 8), (32, 1)]
  | 0x30 | 0x31 | 0x32 | 0x33 => [(16, 1)]
  | 0x34 => [(8, 2), (16, 1), (17, 1), (18, 2), (20, 4), (24, 8), (32, 8)]
  | 0x40 => [(16, 4)]
  | _ => []

/-- Every byte that a command does not name is zero (R427). -/
def cmdClean (bs : List Byte) : Bool :=
  cmdField bs 2 2 == 0 &&
    (List.range 56).all (fun i =>
      (cmdOperands (cmdField bs 0 2)).any (fun o => decide (o.1 ≤ i + 8 ∧ i + 8 < o.1 + o.2)) || bs.getD (i + 8) 0 == 0)

/-- The issuer, the TAG, and whether the command is free of stray bytes. -/
def cmdHdr (func : Nat) (bs : List Byte) : CmdHdr := { func := func, tag := cmdBits 4 bs 4, clean := cmdClean bs }

noncomputable section

/-- The command that 64 bytes written by a function hold. -/
def decodeCommand (func : Nat) (bs : List Byte) : Instr :=
  let h := cmdHdr func bs
  let ctx : BitVec 16 := cmdBits 2 bs 8
  let q : BitVec 8 := cmdBits 1 bs 16
  match cmdField bs 0 2 with
  | 0x01 => .ctxCreate h { ctx := ctx, sector := cmdBits 8 bs 16, root := cmdBits 8 bs 24, ovf := cmdBits 8 bs 32,
                           ovfn := cmdBits 4 bs 40, wqn := cmdBits 1 bs 44, qrec := cmdBits 8 bs 48, wrec := cmdBits 8 bs 56 }
  | 0x02 => .ctxSuspend h ctx
  | 0x03 => .ctxResume h ctx
  | 0x04 => .ctxDestroy h ctx
  | 0x05 => .lossAck h ctx (cmdBits 8 bs 16)
  | 0x06 => .coreReset h ctx
  | 0x07 => .crewPreempt h { ctx := ctx, voy := cmdBits 4 bs 16, crew := cmdBits 4 bs 20, b := cmdBits 4 bs 24 }
  | 0x08 => .watchdogSet h ctx (cmdBits 4 bs 16)
  | 0x10 => .queueConfig h ctx q (cmdBits 8 bs 24)
  | 0x11 => .queueOpen h ctx q
  | 0x12 => .queueClose h ctx q
  | 0x13 => .queueFree h ctx q
  | 0x14 => .queueReset h ctx q
  | 0x15 => .queueQuery h ctx q
  | 0x20 => .tlbInval h ctx (cmdBits 8 bs 16) (cmdBits 8 bs 24)
  | 0x21 => .replay h ctx (cmdBits 4 bs 16) (cmdBits 1 bs 20)
  | 0x22 => .frameAttr h (cmdBits 8 bs 16) (cmdBits 8 bs 24) (cmdBits 1 bs 32)
  | 0x23 => .hwinSet h ctx (cmdBits 8 bs 16)
  | 0x30 => .linkEnable h q
  | 0x31 => .linkQuiesce h q
  | 0x32 => .linkDisable h q
  | 0x33 => .linkQuery h q
  | 0x34 => .winOpen h { ctx := ctx, id := q, rights := cmdBits 1 bs 17, links := cmdBits 2 bs 18, peer := cmdBits 4 bs 20,
                         base := cmdBits 8 bs 24, size := cmdBits 8 bs 32 }
  | 0x35 => .winReset h ctx q
  | 0x36 => .winClose h ctx q
  | 0x40 => .powerCap h (cmdBits 4 bs 16)
  | code => .unlistedCommand h (BitVec.ofNat 16 code)

/-- What the decoder reads from the bits of an instruction word, of a clause header, or of a command; the bits above `nbits`
are zero. -/
def decodeTableWord (nbits w : Nat) : Option Instr :=
  if 64 < nbits then some (decodeCommand 0 (bytesOf 64 (w % 2 ^ nbits)))
  else
    let x : W64 := BitVec.ofNat 64 (w % 2 ^ nbits)
    if isHeader x then some .clauseStart
    else match decodeWord x with
      | .ok i => some i
      | .error _ => none

end

/-- The 64 bytes of a command from its code, its TAG and its operands: offset, length and value. -/
def cmdBytes (code : Nat) (h : CmdHdr) (fs : List (Nat × Nat × Nat)) : List Byte :=
  bytesOf 64 (((0, 2, code) :: (4, 4, h.tag.toNat) :: fs).foldl (fun a f => a + f.2.2 % 256 ^ f.2.1 * 256 ^ f.1) 0)

/-- The bytes of a command; none for anything else. -/
def encodeCommand : Instr → Option (List Byte)
  | .ctxCreate h a => some (cmdBytes 0x01 h [(8, 2, a.ctx.toNat), (16, 8, a.sector.toNat), (24, 8, a.root.toNat),
      (32, 8, a.ovf.toNat), (40, 4, a.ovfn.toNat), (44, 1, a.wqn.toNat), (48, 8, a.qrec.toNat), (56, 8, a.wrec.toNat)])
  | .ctxSuspend h c => some (cmdBytes 0x02 h [(8, 2, c.toNat)])
  | .ctxResume h c => some (cmdBytes 0x03 h [(8, 2, c.toNat)])
  | .ctxDestroy h c => some (cmdBytes 0x04 h [(8, 2, c.toNat)])
  | .lossAck h c r => some (cmdBytes 0x05 h [(8, 2, c.toNat), (16, 8, r.toNat)])
  | .coreReset h c => some (cmdBytes 0x06 h [(8, 2, c.toNat)])
  | .crewPreempt h a => some (cmdBytes 0x07 h [(8, 2, a.ctx.toNat), (16, 4, a.voy.toNat), (20, 4, a.crew.toNat), (24, 4, a.b.toNat)])
  | .watchdogSet h c us => some (cmdBytes 0x08 h [(8, 2, c.toNat), (16, 4, us.toNat)])
  | .queueConfig h c q r => some (cmdBytes 0x10 h [(8, 2, c.toNat), (16, 1, q.toNat), (24, 8, r.toNat)])
  | .queueOpen h c q => some (cmdBytes 0x11 h [(8, 2, c.toNat), (16, 1, q.toNat)])
  | .queueClose h c q => some (cmdBytes 0x12 h [(8, 2, c.toNat), (16, 1, q.toNat)])
  | .queueFree h c q => some (cmdBytes 0x13 h [(8, 2, c.toNat), (16, 1, q.toNat)])
  | .queueReset h c q => some (cmdBytes 0x14 h [(8, 2, c.toNat), (16, 1, q.toNat)])
  | .queueQuery h c q => some (cmdBytes 0x15 h [(8, 2, c.toNat), (16, 1, q.toNat)])
  | .tlbInval h c b n => some (cmdBytes 0x20 h [(8, 2, c.toNat), (16, 8, b.toNat), (24, 8, n.toNat)])
  | .replay h c i a => some (cmdBytes 0x21 h [(8, 2, c.toNat), (16, 4, i.toNat), (20, 1, a.toNat)])
  | .frameAttr h f n v => some (cmdBytes 0x22 h [(16, 8, f.toNat), (24, 8, n.toNat), (32, 1, v.toNat)])
  | .hwinSet h c b => some (cmdBytes 0x23 h [(8, 2, c.toNat), (16, 8, b.toNat)])
  | .linkEnable h l => some (cmdBytes 0x30 h [(16, 1, l.toNat)])
  | .linkQuiesce h l => some (cmdBytes 0x31 h [(16, 1, l.toNat)])
  | .linkDisable h l => some (cmdBytes 0x32 h [(16, 1, l.toNat)])
  | .linkQuery h l => some (cmdBytes 0x33 h [(16, 1, l.toNat)])
  | .winOpen h a => some (cmdBytes 0x34 h [(8, 2, a.ctx.toNat), (16, 1, a.id.toNat), (17, 1, a.rights.toNat),
      (18, 2, a.links.toNat), (20, 4, a.peer.toNat), (24, 8, a.base.toNat), (32, 8, a.size.toNat)])
  | .winReset h c i => some (cmdBytes 0x35 h [(8, 2, c.toNat), (16, 1, i.toNat)])
  | .winClose h c i => some (cmdBytes 0x36 h [(8, 2, c.toNat), (16, 1, i.toNat)])
  | .powerCap h c => some (cmdBytes 0x40 h [(16, 4, c.toNat)])
  | .unlistedCommand h code => some (cmdBytes code.toNat h [])
  | _ => none

end Sys2Proof
end

