-- ==== Sys2Proof/Config.lean ====
section
/-!
DEFINITION. What the spec leaves open (R6), as constants with no body: nothing is known of their values (log entry 5).
The first argument of most of them is the counter `free` of State, which a step advances, so that each use is fresh.
-/

namespace Sys2Proof.Config

/-- R195: a signature may report a conflict that no true overlap caused. -/
opaque falseConflict : Nat → Nat → Bool
/-- R191: beyond the guarantee, whether an instruction exceeds the capacity of the open chunk. -/
opaque capacityEnd : Nat → Bool
/-- R221: whether a read of a discarded word returns zero and not the value before the DISCARD (use, word). -/
opaque discardZero : Nat → Nat → Bool
/-- R62: whether a lane of a register with a flagged write pending still reads its old value (use, register, lane). -/
opaque staleLane : Nat → Nat → Nat → Bool
/-- R62: whether such a register still shows its old tag. -/
opaque staleTag : Nat → Nat → Bool
/-- R179: a lane of a register that enters the window, zero or a value held earlier by a register of the warp. -/
opaque enteringLane : Nat → Nat → Nat → Nat
/-- R298: which of the translations that the table and the caches hold an access uses (use, page). -/
opaque cachedPick : Nat → Nat → Nat
/-- R298: the same of the entries that a walk reads above the leaf (use, level, range). -/
opaque walkPick : Nat → Nat → Nat → Nat
/-- R432: whether an access to a range that has become unbacked still has its translation (use, page). -/
opaque stillTranslated : Nat → Nat → Bool
/-- The time in nanoseconds, and the core cycles, that one step takes (Table 1.4 bounds are claims about time). -/
opaque elapsedNs : Nat → Nat
opaque elapsedCycles : Nat → Nat
/-- The cycles that a step takes of one core's counter (use, core). -/
opaque coreCycles : Nat → Nat → Nat
/-- R157: whether a strand's issue bound (Table 1.4) comes before the preference for the first-priority strand (use). -/
opaque issueDue : Nat → Bool
/-- R254: an implementation's result of a special function (function, mode, F32 argument). -/
opaque sfValue : Nat → Nat → Nat → Nat
/-- R181: the delta code a spill uses where several fit. -/
opaque deltaCode : Nat → Nat → Nat

/-- R316: the fault address that is reported for a link command that faulted at the peer or with its link (use, command). -/
opaque linkFaultVa : Nat → Nat → Nat

/-- R325: the bit position that a packed stream's state holds after an error. -/
opaque streamErrPos : Nat → Nat

/-- Flits that an access of a link command sends (0) or receives (1) on a link (use, link, direction): Table 23.6. -/
opaque linkFlits : Nat → Nat → Nat → Nat

/-- R104: whether the image in a core's locker is the one next due on the quadrant that has halted (use). -/
opaque swapDue : Nat → Bool

end Sys2Proof.Config
end

