-- ==== Sys2Proof/Machine/State.lean ====
section
/-!
DEFINITION. The state of the package, as plain data: every register, memory and record the spec names, the model's own
fields (`focus`, `agenda`, `free`, `resp`; log entries 3, 5, 15), and the state after module reset.
-/

namespace Sys2Proof.Machine

/-- Trap causes (Table 5.2). -/
inductive Cause where
  | illegalInstr | illegalReg | illegalPair | illegalOperand | format | regPoison | memPoison | pageFatal | perm | addr
  | misalign | attrConflict | matrixPartialOctet | matrixResidue | cursorDesc | cursorKind | appendHeap | batchBad
  | barrierBad | queueBad | syncOverflow | spillFormat | widthBad | priv | watchdog
  | software (n : Nat)
  deriving DecidableEq, Repr

/-- What a trap records (R91): cause, TADDR, TEXTRA, TLANES. -/
structure TrapInfo where
  cause : Cause
  addr  : Nat
  extra : Nat
  lanes : Mask
  deriving DecidableEq, Repr

/-- Access kinds of a fault record (R141). -/
inductive Access where
  | read | write | atomic | engine | walker
  deriving DecidableEq, Repr

/-- Fault reasons (Table 15.5). -/
inductive Reason where
  | notPresent | readDenied | writeDenied | atomicDenied | engineDenied | reservedBits | policy | size | unbacked
  | tablePoison
  deriving DecidableEq, Repr

/-- A replayable fault that an access met: address, reason, kind, and the lanes that met it (zero where no lane did). -/
structure PageFault where
  va     : Nat
  reason : Reason
  access : Access
  lanes  : Mask
  deriving DecidableEq, Repr

/-- A vector register: its tag and its lanes (R22, R30). -/
structure VecReg where
  tag   : Tag
  lanes : List W32
  deriving DecidableEq, Repr

/-- Tile states (R330). -/
inductive TileSt where
  | undef | zero | live | poison
  deriving DecidableEq, Repr

/-- An accumulator tile (R329). -/
structure Tile where
  st  : TileSt
  tag : Tag
  sat : Bool
  e   : List W32
  deriving DecidableEq, Repr

/-- A cursor register (R364): bytes 0-7 and the six words behind them. -/
structure Cursor where
  head  : W64
  lo    : W32
  hi    : W32
  idx   : W32
  sub   : W32
  coord : W32
  pos   : W32
  deriving DecidableEq, Repr

/-- A call record (R179): return address and fsize. -/
structure CallRec where
  ret : W64
  f   : Nat
  deriving DecidableEq, Repr

/-- The trap control registers (Table 5.3) and the address recorded at entry (R98). -/
structure TrapRegs where
  cause : Byte
  tpc   : W64
  addr  : W64
  lanes : Mask
  extra : W64
  h     : Bool
  skip  : Bool
  recorded : W64
  /-- The cause recorded there; a write to TCAUSE does not change it (R96). -/
  recCause : Byte
  recHdr   : W64
  deriving DecidableEq, Repr

/-- The strand state that a squash restores (Tables 8.1 and 10.4). -/
structure StrandCore where
  pc       : W64
  /-- Address of the clause header that governs pc; equal to pc when the strand is about to enter that clause. -/
  hdr      : W64
  /-- The header in force, once applied. -/
  hword    : W64
  /-- Whether the header has been applied to the strand's position (R53, R61). -/
  inClause : Bool
  l  : Mask
  em : Mask
  hm : Mask
  s  : List W64
  k  : List Cursor
  acr    : BitVec 10
  chlim  : Nat
  batchn : W32
  winb   : Nat
  /-- Tags of the slots whose register a CALL of this strand made while its warp was divided: the other strands' registers
  in those slots keep the warp's tags (R179, R183, log 8). -/
  wtags  : List (Nat × Tag)
  calls  : List CallRec
  trap   : TrapRegs
  deriving DecidableEq, Repr

/-- A register of the warp with the value it had before a write: shadows (Table 10.4) and pending old values (R62). -/
inductive OldVal where
  /-- A slot of the file, what it held, and the tag that the strand saw there. -/
  | vec (slot : Nat) (v : VecReg) (seen : Tag)
  | glob (i : Nat) (v : VecReg)
  | pred (i : Nat) (m : Mask)
  | scal (i : Nat) (x : W64)
  | tile (i : Nat) (t : Tile)
  deriving DecidableEq, Repr

/-- A flagged instruction whose completion flag is still set (R61, R62). -/
structure Pend where
  flag : Nat
  old  : List OldVal
  deriving DecidableEq, Repr

/-- A crew barrier entry (R405): participants and arrivals are WARP identifiers. -/
structure Barrier where
  off     : Nat
  parts   : List Nat
  arrived : List Nat
  phase   : Bool
  deriving DecidableEq, Repr

/-- A barrier-table change that a chunk holds until it commits (R407). -/
inductive BarOp where
  | free (off : Nat)
  | init (off : Nat) (mask : Nat)
  deriving DecidableEq, Repr

/-- Chunk states (Table 10.1); `idle` is a strand with no open chunk, PINNED is the flag `pinned`. -/
inductive ChunkSt where
  | idle | opened | ended | ordering | pinWait
  deriving DecidableEq, Repr

/-- A chunk that has not been placed in G. -/
structure Chunk where
  st     : ChunkSt
  pinned : Bool
  /-- It starts where the last squash that counts in the pin count left the strand (R198). -/
  again  : Bool
  /-- An uncorrectable error has been seen with this chunk start (R201). -/
  errSeen : Bool
  /-- Instruction count (R190). -/
  count  : Nat
  /-- CHLIM sampled when the chunk opened. -/
  chlim  : Nat
  /-- A replay that must end before the trapping instruction (R202): the count it has there, and its address. -/
  limit  : Option (Nat × W64)
  /-- The strand state at the chunk's start. -/
  snap   : Option StrandCore
  /-- Register shadows, first write first. -/
  shadow : List OldVal
  /-- Words read and written, global (address / 4) and crew memory (offset / 4): Table 10.3. -/
  grs : List Nat
  gws : List Nat
  crs : List Nat
  cws : List Nat
  /-- Bytes held until commit, newest first. -/
  gw  : List Host.Cell
  cw  : List Host.Cell
  /-- Words discarded (R277), address / 4. -/
  disc : List Nat
  bars : List BarOp
  /-- BCLOSE executed in the chunk: the numbers to close (R318). -/
  closes : List W32
  /-- Pages whose cached translation the chunk used (R299). -/
  pages : List Nat
  /-- The strand-table entry that its DBR took. -/
  childIdx : Option Nat
  /-- Words whose last use the chunk's hints announce (Table 14.3), address / 4. -/
  lastUse : List Nat
  /-- Granules that the chunk holds in error, global and crew memory: poisoned at its commit (R201). -/
  badG : List Nat
  badC : List Nat
  /-- Grants of the pinned chunks that have squashed this one (R200). -/
  lostTo : List Nat
  /-- The strand-table entry whose arrival chunk it is, where a merge has handed it to the survivor (R153). -/
  owner : Option Nat
  deriving DecidableEq, Repr

/-- Far atomic operations (Table 21.2). -/
inductive AmoFn where
  | add | sub | min | max | minu | maxu | and | or | xor | xchg | cas | fadd | incw | decw
  deriving DecidableEq, Repr

/-- A lane of an AMOV that is still to be performed: its lane number, address, physical address and policy, and its operands
(R400). -/
structure AmovLane where
  lane : Nat
  va   : Nat
  pa   : Nat
  pol  : Nat
  x    : Nat
  y    : Nat
  deriving DecidableEq, Repr

/-- Instructions whose event is a singleton in G (R192). -/
inductive SingOp where
  | amo (f : AmoFn) (o : AmoOps)
  | amov (f : AmoFn) (o : AmovOps)
  | svwait (geu : Bool) (o : AmoOps)
  | enq (o : QueueOps)
  | deq (o : QueueOps)
  | deqt (o : QueueOps)
  | engq (o : EngqOps)
  | bwait (o : SabOps)
  | barv (sd sa : SReg)
  | bwt (o : SabOps)
  | barw (sd sa : SReg)
  | xfence (tc fc : BitVec 5)
  | wcwait (d : Bool) (o : WcOps)
  /-- KINIT fn 1, with EXT and VTAG of the template where it was read before its chunk ended (R388). -/
  | kinitA (o : KinitOps) (t : Option (Nat × Nat))
  | sld (o : SMemOps)
  | sst (o : SMemOps)
  | ld (o : MemOps)
  | st (o : MemOps)
  | ald (o : TileMemOps)
  | ast (o : TileMemOps)
  | discard (o : SpanOps)
  | pref (o : SpanOps)
  /-- CALL and RET whose spills or refills reach a UC page: the target and the frame size (R289). -/
  | call (dest : W64) (f : Nat)
  | ret
  deriving DecidableEq, Repr

/-- Why a strand is off the ready set (Table 8.2, R21). -/
inductive Wait where
  | none
  /-- Waits for completion flags or for a register with a flagged write pending (R61, R62). -/
  | flags
  /-- Waits for another strand's chunk that wrote the tile (R197). -/
  | tile (t : Nat)
  /-- A DBR that is to split: its predicate, the taken lanes, T and J (R146, R147). -/
  | split (p : PReg) (tk : Mask) (t j : W64)
  /-- An arriving JOIN, before its chunk has ended (false) and after (true) (R151). -/
  | arriving (ended : Bool)
  /-- Arrived at the JOIN of its innermost frame, when it had so many frames. -/
  | joining (frames : Nat)
  /-- EXIT waits for the commit of the chunk it ends (R161). -/
  | exiting
  /-- WSPLIT waits for its chunk's commit (R170). -/
  | wsplit (sd : SReg) (p : PReg) (st : Nat)
  /-- WFUSE waits for its chunk's commit with a code, or none to arrive (R174). -/
  | wfuseEnd (sd : SReg) (addr : W64) (st : Option Nat)
  /-- Parked at WFUSE: address, cycles limit and when it parked. -/
  | wfuse (sd : SReg) (addr : W64) (limit since : Nat)
  /-- pair_check returned 0 and the fusion is to be made (R175). -/
  | fusing (sd : SReg)
  /-- A singleton instruction whose chunk has ended (R192). -/
  | sing (op : SingOp)
  /-- An AMOV some of whose lanes have been performed: the lanes to come, and the old values of the others (R400). -/
  | amov (f : AmoFn) (o : AmovOps) (todo : List AmovLane) (olds : List (Nat × Nat))
  /-- Parked at DEQ since a cycle of the package (R136). -/
  | deq (o : QueueOps) (since : Nat)
  /-- Parked at a barrier, BARW or BWT: destination, offset, the phase that must pass (R408). -/
  | bar (sd : SReg) (off : Nat) (phase : Bool) (barw : Bool)
  /-- Parked at SVWAIT: physical word, since; the value latched by the satisfying write. -/
  | sv (geu : Bool) (o : AmoOps) (pa since : Nat) (value : Option W64)
  /-- Parked at WCWAIT: since; the value latched, and whether the window was frozen. -/
  | wc (d : Bool) (o : WcOps) (since : Nat) (value : Option (W64 × Bool))
  /-- Parked at BWAIT. -/
  | bw (o : SabOps) (since : Nat)
  /-- Waits for earlier classes at an XFENCE (R218): the fence. -/
  | xf (id : Nat)
  /-- Met a replayable fault; its record is to be posted (R203). -/
  | faulting (pf : PageFault)
  /-- Parked for the outstanding fault record `id`: its own fault. -/
  | fault (id : Nat) (pf : PageFault)
  /-- Parked when its crew was saved, and still PARKED until it issues that instruction again (R105, R159): the scalar and
  address of a WFUSE. -/
  | restored (fuse : Option (SReg × W64))
  /-- A trap raised at an event or at a merge, to be entered (R202). -/
  | trap (ti : TrapInfo)
  deriving DecidableEq, Repr

/-- A strand (Table 8.1). -/
structure Strand where
  core  : StrandCore
  chunk : Chunk
  /-- Chunks that ended before `chunk` opened and are not yet placed, the oldest first (R188). -/
  earlier : List Chunk
  wait  : Wait
  pends : List Pend
  /-- SQCNT (R198). -/
  sqcnt : W64
  /-- Consecutive squashes of this chunk start (R198). -/
  pinCount : Nat
  /-- A replay for a trap is under way, so its squash is already counted (R202). -/
  trapReplay : Bool
  /-- A second residue mismatch, at an address, whose trap the replay leads to: the tile (R354). -/
  residue : Option (Nat × W64)
  /-- Its scalar, predicate, cursor or special state is poisoned (R109). -/
  poisoned : Bool
  /-- FAIL was answered to its fault: the fatal form to take when it issues (R296). -/
  failed : Option PageFault
  deriving DecidableEq, Repr

/-- A join frame (R150): its address and member entries. -/
structure Frame where
  addr    : W64
  members : List Nat
  deriving DecidableEq, Repr

/-- A merge that some arrival chunk can still undo (R153): the survivor, the frame, the addresses of the frames around it, and
the members as they had arrived. -/
structure Merge where
  sv      : Nat
  frame   : Frame
  outer   : List W64
  members : List (Nat × Strand)
  deriving DecidableEq, Repr

/-- The spill layout of a width (R180, R184). -/
structure SpillLay where
  start : Nat
  stop  : Nat
  base  : Nat
  deriving DecidableEq, Repr

/-- A split in effect (R171, R184): the parent's layout and its number of call records. -/
structure SplitRec where
  lay   : SpillLay
  depth : Nat
  winb  : Nat
  tiles : Nat
  deriving DecidableEq, Repr

/-- An item that a warp holds (R129): queue and position. -/
structure Held where
  q   : Nat
  pos : Nat
  deriving DecidableEq, Repr

/-- A closed batch that is not yet complete (R315): its number, its commands, and the first fatal condition met (kind and
address). -/
structure Batch where
  n     : W32
  cmds  : List Nat
  fault : Option (Nat × Nat)
  deriving DecidableEq, Repr

/-- The fault report of a warp (R316). -/
structure Report where
  n    : W32
  kind : Nat
  va   : Nat
  ovf  : Bool
  deriving DecidableEq, Repr

structure Warp where
  /-- The WARP identifier (R173). -/
  id     : Nat
  width  : Nat
  /-- Launch width. -/
  lw     : Nat
  /-- WSLOT. -/
  slot   : Nat
  splits : List SplitRec
  lay    : SpillLay
  vregs  : List VecReg
  gregs  : List VecReg
  preds  : List Mask
  tiles  : List Tile
  strands : List (Option Strand)
  frames : List Frame
  merges : List Merge
  held   : List Held
  /-- Closed batches not yet complete, the earliest first. -/
  batches : List Batch
  /-- The mark FAULT of the open copies: kind and first address (R312). -/
  openFault : Option (Nat × Nat)
  report : Option Report
  exited : Bool
  deriving DecidableEq, Repr

/-- The launch record (Table 6.1), as read at the take (R116). -/
structure LaunchRec where
  code    : W64
  handler : W64
  data    : W64
  width   : Nat
  regs8   : Nat
  globals : Nat
  persistent : Bool
  restartable : Bool
  drainValid : Bool
  tiles   : Nat
  warps   : Nat
  crewmem : Nat
  chunk   : Nat
  convoy  : Nat
  crews   : Nat
  drain   : Nat
  heapx   : Nat
  spill   : W64
  spillb  : Nat
  heap    : W64
  deriving DecidableEq, Repr

/-- Where a crew is (R102, R103, R124). -/
inductive CrewRun where
  /-- Placed and running. -/
  | placed
  /-- Placed, under a pre-emption that drains it. -/
  | draining
  /-- Halted for a save, a suspension or a flush. -/
  | halting (flush : Bool)
  /-- Halted for a save, its image not yet written. -/
  | saving
  /-- Flushed, or discarded by a context fault (Table 6.3): its crew memory stays until the engine commands that it accepted
  are complete (R323). -/
  | flushed
  /-- Image in the chart locker of a core. -/
  | locker (core : Nat)
  /-- Image in the context's memory. -/
  | memory
  deriving DecidableEq, Repr

/-- A pre-emption in progress (R102): option, estimate in ns, bound, missed. -/
structure Preempt where
  option   : Nat
  estimate : Nat
  bound    : Nat
  missed   : Bool
  deriving DecidableEq, Repr

structure Crew where
  ref    : CrewRef
  launch : LaunchRec
  arg    : W64
  core   : Nat
  quad   : Nat
  run    : CrewRun
  /-- Crew memory: canonical cells, an unlisted byte is 0 (R118). -/
  mem    : List Host.Cell
  /-- Poisoned 32-byte granules of crew memory (R109). -/
  poison : List Nat
  bars   : List Barrier
  /-- The last 16 distinct SY words counted on (R412), newest first. -/
  syList : List Nat
  warps  : List Warp
  /-- Running time before this placement, and when it was placed, in ns (R102). -/
  ran    : Nat
  since  : Nat
  /-- Whether the crew has committed a chunk (Table 5.8). -/
  committed : Bool
  preempt : Option Preempt
  /-- The save was ordered by CTX_SUSPEND (R87). -/
  suspended : Bool
  deriving DecidableEq, Repr

/-- Queue states (Table 7.2). -/
inductive QSt where
  | free | configured | opened | closing | closed | error
  deriving DecidableEq, Repr

/-- A write of a queue record that waits for REPLAY (R128), a PINNED chunk (R199) or a fence (R218): the queue, its
configuration, the address and the bytes, and the fences that it follows. -/
structure RecWrite where
  q    : Nat
  conf : Nat
  va   : Nat
  data : List Byte
  after : List Nat
  deriving DecidableEq, Repr

structure Queue where
  st     : QSt
  /-- Address of the queue record (R127). -/
  recAddr : Nat
  ring   : Nat
  isz    : Nat
  logcap : Nat
  err    : Nat
  tail   : Nat
  head   : Nat
  drops  : Nat
  defers : Nat
  fulls  : Nat
  waiters : List StrandRef
  /-- The number of this configuration of the queue, which its record's writes carry. -/
  conf   : Nat
  /-- Record writes have ended until QUEUE_RESET (R128). -/
  recDead : Bool
  /-- Positions held by discarded crews or lost ones until LOSS_ACK (R129). -/
  lost   : List Nat
  deriving DecidableEq, Repr

/-- What is attached to a fault record (R295). -/
inductive Attached where
  | strand (r : StrandRef)
  | cmd (id : Nat)
  | take
  /-- The record writes of a queue as it was configured (R128). -/
  | queueRec (q conf : Nat)
  /-- A host enqueue on a queue (R471). -/
  | enq (q : Nat)
  /-- A command of a peer package (R419). -/
  | peer (id : Nat)
  deriving DecidableEq, Repr

/-- An outstanding fault record (R141, R295). -/
structure FaultRec where
  id      : Nat
  pf      : PageFault
  core    : Nat
  quad    : Nat
  slot    : Nat
  strand  : Nat
  isOpen  : Bool
  voy     : Nat
  crew    : Nat
  batch   : Nat
  attached : List Attached
  /-- Whether the record has been posted to the FAULT queue (R141). -/
  posted  : Bool
  deriving DecidableEq, Repr

/-- Window states (Table 22.3). -/
inductive WinSt where
  | opened | frozen
  deriving DecidableEq, Repr

/-- A registered window (Table 22.2). -/
structure Window where
  id     : Nat
  base   : Nat
  size   : Nat
  rights : Nat
  peer   : Nat
  links  : Nat
  scnt   : W64
  dcnt   : W64
  st     : WinSt
  /-- A close has been accepted (Table 22.3); the function and TAG of a WIN_CLOSE. -/
  closing : Bool
  closer  : Option (Nat × BitVec 32)
  deriving DecidableEq, Repr

/-- Voyage states (Table 6.3); a RETIRED voyage is removed. -/
inductive VoySt where
  | placing | running
  deriving DecidableEq, Repr

structure Voyage where
  num     : Nat
  recAddr : W64
  launch  : LaunchRec
  arg     : W64
  st      : VoySt
  /-- Convoys placed so far. -/
  placed  : Nat
  /-- Crews flushed or due to be placed again (R103). -/
  again   : List Nat
  /-- Crews that have retired by exiting, and crews that count as retired. -/
  exited  : Nat
  retired : Nat
  isPartial : Bool
  /-- Append-heap extents taken on each die (R385). -/
  heap    : List Nat
  deriving DecidableEq, Repr

/-- Context states (Table 5.1). -/
inductive CtxSt where
  | empty | created | active | suspended | faulted | lost | destroyed
  deriving DecidableEq, Repr

/-- A LAUNCH item that has been taken and whose record read waits for REPLAY (R116). -/
structure Take where
  item  : List Byte
  /-- The ring read itself faulted; the item is still to be read. -/
  ring  : Bool
  fault : Nat
  deriving DecidableEq, Repr

structure Ctx where
  num    : Nat
  st     : CtxSt
  /-- The sector: bit c for core c (R427). -/
  sector : Nat
  root   : Nat
  ovf    : Nat
  ovfn   : Nat
  /-- Watchdog interval in microseconds; 0 disables (R92). -/
  watchdog : Nat
  hwb    : Nat
  queues : List (Nat × Queue)
  /-- Configurations of queues so far, and the record writes that wait for REPLAY, in order (R128). -/
  nextConf : Nat
  recPend : List RecWrite
  /-- EVENT records whose ring write waits for a PINNED chunk, in order (R199). -/
  blocked : List (List Byte)
  /-- EVENT sequence number of the next event (R138). -/
  evSeq  : W32
  /-- Events were dropped since the last one posted (R139). -/
  evOvf  : Bool
  /-- Events were dropped while the store held records (R140). -/
  evOvfNext : Bool
  /-- The event store of R140: records in posting order. -/
  store  : List (List Byte)
  faults : List FaultRec
  nextFault : Nat
  nextVoy : Nat
  voyages : List Voyage
  windows : List Window
  take   : Option Take
  /-- Reset cores not yet acknowledged (R112). -/
  resets : List Nat
  /-- CTX_SUSPEND is accepted and saves are outstanding (R87): its function and TAG. -/
  suspending : Option (Nat × BitVec 32)
  /-- CTX_DESTROY is accepted and scrubbing is due: its function and TAG (R87). -/
  destroy : Option (Nat × BitVec 32)
  deriving DecidableEq, Repr

/-- Kinds of engine commands (16, 21, 22). -/
inductive CmdKind where
  | copy (src dst : List Byte)
  | syFill (addr count : Nat) (value : W32)
  | sySave (addr count dest : Nat)
  | put (win laddr roff len : Nat)
  | get (win laddr roff len : Nat)
  deriving DecidableEq, Repr

/-- An engine command in flight: its accesses are performed word by word in any order (R215). -/
structure Cmd where
  id     : Nat
  kind   : CmdKind
  /-- Owner, or none when its batch belongs to no warp (R323). -/
  warp   : Option WarpRef
  /-- When its batch belongs to no warp: the commands of that batch (R312, R323). -/
  mates  : List Nat
  ctx    : Nat
  voy    : Nat
  crew   : CrewRef
  core   : Nat
  /-- Its batch once closed; none while open. -/
  batch  : Option W32
  /-- BATCHN of the accepting strand (R141). -/
  openN  : W32
  /-- Data read and not yet written: access index and bytes. -/
  buf    : List (Nat × List Byte)
  /-- Indices of the accesses performed. -/
  done   : List Nat
  /-- An outstanding fault record stalls it: the record and its own fault address. -/
  stall  : Option (Nat × Nat)
  /-- Its unperformed accesses are abandoned (R312). -/
  abandoned : Bool
  /-- The fences that it follows (R218). -/
  after  : List Nat
  /-- A link command: waits for the peer's acknowledgement or data. -/
  linkSent : Bool
  /-- The core of its engine has been reset: it makes no further access, and never completes (R111). -/
  lost : Bool
  deriving DecidableEq, Repr

/-- A fence waiting for its FROM class (R218). -/
structure Fence where
  id     : Nat
  ctx    : Nat
  warp   : WarpRef
  tc     : BitVec 5
  fc     : BitVec 5
  /-- Commands and host writes that must be performed first. -/
  before : List Nat
  deriving DecidableEq, Repr

/-- The state of a word in a core (R282); a word that no list names is I. -/
inductive CSt where
  | m | o | e | s
  deriving DecidableEq, Repr

/-- What a core holds of a 128-byte line: words 0 to 31 of the line, rising, with their states (Table 14.4). -/
structure L1Line where
  core  : Nat
  line  : Nat
  words : List (Nat × CSt)
  deriving DecidableEq, Repr

/-- An exact pointer of a directory entry: a core, and the words it holds with their states (R282). -/
structure DirPtr where
  core  : Nat
  words : List (Nat × CSt)
  deriving DecidableEq, Repr

/-- A directory entry: at most four exact pointers, and the marked groups of eight cores (R282). -/
structure DirLine where
  line   : Nat
  ptrs   : List DirPtr
  coarse : List Nat
  deriving DecidableEq, Repr

/-- The caches of the package: L1 contents of the cores, directory entries, and the lines in L2 (R278). -/
structure Caches where
  l1  : List L1Line
  dir : List DirLine
  l2  : List Nat
  deriving DecidableEq, Repr

def Caches.empty : Caches := { l1 := [], dir := [], l2 := [] }

/-- Link states (Table 22.1). -/
inductive LinkSt where
  | down | training | active | degraded | quiesced | failed
  deriving DecidableEq, Repr

structure Link where
  st    : LinkSt
  /-- Lanes active, and lanes that trained at the last training (Table 23.6). -/
  lanes   : Nat
  trained : Nat
  /-- Flits transmitted and received since the last LINK_ENABLE, flits replayed, lane-loss events since then. -/
  flitsOut : W64
  flitsIn  : W64
  replays  : W32
  losses   : W32
  /-- LINK_QUIESCE commands accepted and not complete: function and TAG of each. -/
  quiesce : List (Nat × BitVec 32)
  deriving DecidableEq, Repr

/-- A second-tier port (R432): capacity in bytes, up. -/
structure Port where
  cap : Nat
  up  : Bool
  deriving DecidableEq, Repr

/-- A cached translation (R297): context, virtual page, leaf, frame. -/
structure TlbEntry where
  ctx  : Nat
  page : Nat
  pte  : W64
  lvl  : Nat
  deriving DecidableEq, Repr

/-- A cached entry of a table above the leaf (R297): context, level, the address range it maps, and the entry. -/
structure WalkEntry where
  ctx : Nat
  lvl : Nat
  ix  : Nat
  pte : Nat
  deriving DecidableEq, Repr

/-- A range invalidation in progress (R299). -/
structure Inval where
  func : Nat
  tag  : BitVec 32
  ctx  : Nat
  base : Nat
  len  : Nat
  deriving DecidableEq, Repr

/-- The pin slot of a die (R199). -/
structure Pin where
  holder : Option StrandRef
  /-- The number of the holder's grant: the lower was granted earlier (R200). -/
  grant  : Nat
  queue  : List StrandRef
  deriving DecidableEq, Repr

/-- A function's BAR0 (R424, R429). -/
structure Func where
  /-- A command written and not yet accepted. -/
  slot   : Option (List Byte)
  drops  : W32
  logseq : W64
  /-- The logbook: newest entries first, at most 65,536 kept. -/
  log    : List (List Byte)
  deriving DecidableEq, Repr

/-- A PUT or GET of a peer package that is under way here (R419): its window, its number, its offset and length in bytes, the
words performed, a refusal or a fatal fault, the fault record that stalls it, and the fences that it follows. -/
structure PeerCmd where
  ctx   : Nat
  win   : Nat
  id    : Nat
  put   : Bool
  roff  : Nat
  len   : Nat
  done  : List Nat
  bad   : Bool
  stall : Option Nat
  after : List Nat
  deriving DecidableEq, Repr

/-- The lines of a host write that are still to enter G, the lowest address first (R219): address and bytes of each;
`func` is the function that made the write, `kind` how; `id` numbers it among the engine commands (R218). -/
structure HostLines where
  id     : Nat
  func   : Nat
  kind   : HostKind
  lines  : List (Nat × List Byte)
  deriving DecidableEq, Repr

/-- How the last request from outside (host or peer package) completed. -/
inductive HostResp where
  | successful
  | data (bytes : List Byte)
  | deferred
  | unsupported
  /-- Poisoned: the bytes of poisoned granules are not defined. -/
  | poisoned (bytes : List (Option Byte))
  | dropped
  deriving DecidableEq, Repr

/-- What happens next (log 3): the schedule is data. -/
inductive Move where
  /-- A strand issues. -/
  | issue (r : StrandRef)
  /-- A step of the device or of the host. -/
  | event (i : Instr)
  /-- A 64-byte command is written to the mailbox of a function (R424, R425). -/
  | post (func : Nat) (k : HostKind) (bytes : List Byte)
  /-- Lodestar takes the command in a function's mailbox (R425). -/
  | accept (func : Nat)
  /-- The next line of a host write enters G (R219). -/
  | hostLine (func : Nat)
  /-- Record writes and events of a context that had to wait for a PINNED chunk are made (R199). -/
  | unblock (ctx : Nat)
  /-- A core gives up words of a line: its replacement is the implementation's (R278). -/
  | evict (core line : Nat) (words : List Nat)
  deriving DecidableEq, Repr

structure State where
  /-- Package time in ns since module reset. -/
  ns     : Nat
  /-- Cycles since module reset, by which events of one cycle are told (R136, R174). -/
  cycle  : W64
  /-- The cycle counter of each core, which CLK shows (Table 5.6). -/
  clks   : List W64
  /-- L1 contents, the directory and L2 contents (R278 to R282). -/
  caches : Caches
  /-- Physical memory: canonical cells (R284). -/
  mem    : List Host.Cell
  poison : List Nat
  dead   : List Nat
  /-- The frame attribute table: entries other than 0. -/
  frat   : List (Nat × Byte)
  tlb    : List TlbEntry
  /-- Table entries cached for walks (R297). -/
  walks  : List WalkEntry
  invals : List Inval
  ports  : List Port
  links  : List Link
  pins   : List Pin
  /-- Grants of pin slots so far (R200). -/
  grants : Nat
  cmds   : List Cmd
  nextCmd : Nat
  fences : List Fence
  nextFence : Nat
  funcs  : List Func
  /-- Host writes whose lines are still to enter G, and commands of peers under way. -/
  hostw  : List HostLines
  peers  : List PeerCmd
  /-- Power cap in W and core clock in MHz (R433). -/
  cap    : Nat
  mhz    : Nat
  ctxs   : List Ctx
  crews  : List Crew
  -- the model's own fields
  focus  : Option StrandRef
  agenda : List Move
  free   : Nat
  resp   : Option HostResp
  deriving DecidableEq, Repr

/-- The faults of the model; none is a fault of the hardware. Each stops a step that the machine would not make. -/
inductive Fault where
  /-- An instruction is executed with no strand in focus, or none of that name: raised by every meaning of an instruction
  of the stream. Safe: no step of the machine issues an instruction outside a strand. -/
  | noStrand
  /-- An instruction is executed for a strand that may not issue (parked, chunk ended, no header applied): raised by
  every meaning of an instruction of the stream. Safe: the machine does not issue there (R157, R187). -/
  | notReady
  deriving DecidableEq, Repr

/-- The refusals of the model. -/
inductive Refusal where
  /-- The instruction has no meaning in the model yet: raised by its arm. Safe: nothing can be proved of its effect. -/
  | notModelled (mnemonic : String)
  deriving DecidableEq, Repr

/-- A context number that is not in use. -/
def Ctx.empty (n : Nat) : Ctx :=
  { num := n, st := .empty, sector := 0, root := 0, ovf := 0, ovfn := 0, watchdog := 0, hwb := 0, queues := [],
    nextConf := 0, recPend := [], blocked := [], evSeq := 0, evOvf := false, evOvfNext := false, store := [], faults := [], nextFault := 1, nextVoy := 1, voyages := [], windows := [],
    take := none, resets := [], suspending := none, destroy := none }

/-- The package right after module reset (R429); the values that the spec does not give are those of log entries
1, 2, 3, 5, 14, 15, 17, 18 and 20. -/
def State.reset : State :=
  { ns := 0, cycle := 0, clks := List.replicate 768 0, caches := Caches.empty, mem := [], poison := [], dead := [], frat := [],
    tlb := [], walks := [], invals := [],
    ports := List.replicate 8 { cap := 0, up := true },
    links := List.replicate 12 { st := .down, lanes := 0, trained := 0, flitsOut := 0, flitsIn := 0, replays := 0,
                                 losses := 0, quiesce := [] },
    pins := List.replicate 8 { holder := none, grant := 0, queue := [] }, grants := 0,
    cmds := [], nextCmd := 0, fences := [], nextFence := 0,
    funcs := List.replicate 64 { slot := none, drops := 0, logseq := 0, log := [] }, hostw := [], peers := [],
    cap := 3600, mhz := 1200,
    ctxs := (List.range 64).map Ctx.empty, crews := [],
    focus := none, agenda := [], free := 0, resp := none }

end Sys2Proof.Machine
end

