-- ==== Sys2Proof/Machine/Base.lean ====
section
/-!
DEFINITION. Lists of records, sparse memory in canonical form, and the lookups of strands, warps, crews and contexts.
-/

namespace Sys2Proof.Machine

open Sys2Proof

/-- Apply `f` to the elements that satisfy `p`. -/
def updIf {α : Type} (p : α → Bool) (f : α → α) (l : List α) : List α := l.map (fun x => if p x then f x else x)

/-- Add an element that is not yet in a list, at its end. -/
def addNew {α : Type} [BEq α] (l : List α) (x : α) : List α := if l.contains x then l else l ++ [x]

/-- Union of two lists without repeats. -/
def addAll {α : Type} [BEq α] (l xs : List α) : List α := xs.foldl addNew l

/-! Memory in canonical form: addresses strictly rising, no byte 0 listed (log 1). -/

/-- The byte at an address; an unlisted byte is 0. -/
def cellGet : List Host.Cell → Nat → Byte
  | [], _ => 0
  | (a, b) :: m, x => if x == a then b else cellGet m x

/-- Write one byte. -/
def cellSet : List Host.Cell → Nat → Byte → List Host.Cell
  | [], x, v => if v == 0 then [] else [(x, v)]
  | (a, b) :: m, x, v =>
    if x < a then (if v == 0 then (a, b) :: m else (x, v) :: (a, b) :: m)
    else if x == a then (if v == 0 then m else (a, v) :: m)
    else (a, b) :: cellSet m x v

/-- The canonical form: addresses above `lo` and strictly rising, no zero listed. -/
def cellsFrom : Option Nat → List Host.Cell → Bool
  | _, [] => true
  | lo, (a, b) :: m => (match lo with | none => true | some x => decide (x < a)) && b != 0 && cellsFrom (some a) m

/-- The canonical form of a memory. -/
def Memory.wf (m : List Host.Cell) : Bool := cellsFrom none m

/-- Write bytes at consecutive addresses. -/
def cellsPut : List Host.Cell → Nat → List Byte → List Host.Cell
  | m, _, [] => m
  | m, a, b :: bs => cellsPut (cellSet m a b) (a + 1) bs

/-- Write a list of cells in order. -/
def cellsPutAll (m : List Host.Cell) (cs : List Host.Cell) : List Host.Cell := cs.foldl (fun m c => cellSet m c.1 c.2) m

/-- `n` bytes at consecutive addresses. -/
def cellsRead (m : List Host.Cell) (a n : Nat) : List Byte := (List.range n).map (fun i => cellGet m (a + i))

/-- The byte a chunk sees: its own last write, else memory (R209). -/
def overlayGet : List Host.Cell → List Host.Cell → Nat → Byte
  | [], m, x => cellGet m x
  | (a, b) :: w, m, x => if x == a then b else overlayGet w m x

/-- Words of 4 bytes that a span of bytes touches. -/
def wordsOf (a n : Nat) : List Nat :=
  if n = 0 then [] else (List.range ((a + n - 1) / 4 - a / 4 + 1)).map (a / 4 + ·)

/-! Strands, warps and crews. -/

def Crew.warp? (c : Crew) (id : Nat) : Option Warp := c.warps.find? (fun w => w.id == id)

def Warp.strand? (w : Warp) (t : Nat) : Option Strand := (w.strands.getD t none)

def Warp.setStrand (w : Warp) (t : Nat) (x : Option Strand) : Warp := { w with strands := setAt w.strands t x }

/-- The number of strands of a warp (Table 8.2: entries that are not FREE). -/
def Warp.live (w : Warp) : Nat := (w.strands.filter Option.isSome).length

def State.crew? (s : State) (r : CrewRef) : Option Crew := s.crews.find? (fun c => c.ref == r)

def State.warp? (s : State) (r : WarpRef) : Option Warp := (s.crew? r.crew).bind (fun c => c.warp? r.warp)

def State.strand? (s : State) (r : StrandRef) : Option Strand := (s.warp? r.w).bind (fun w => w.strand? r.strand)

/-- Why a strand is off the ready set. -/
def State.waitOf (s : State) (r : StrandRef) : Wait :=
  match s.strand? r with
  | some t => t.wait
  | none => .none

def State.modCrew (s : State) (r : CrewRef) (f : Crew → Crew) : State :=
  { s with crews := updIf (fun c => c.ref == r) f s.crews }

def State.modWarp (s : State) (r : WarpRef) (f : Warp → Warp) : State :=
  s.modCrew r.crew (fun c => { c with warps := updIf (fun w => w.id == r.warp) f c.warps })

def State.modStrand (s : State) (r : StrandRef) (f : Strand → Strand) : State :=
  s.modWarp r.w (fun w => { w with strands := modAt w.strands r.strand (Option.map f) })

/-- Every strand of the package, in the order of the tables. -/
def State.refs (s : State) : List StrandRef :=
  s.crews.flatMap (fun c => c.warps.flatMap (fun w =>
    (List.range 4).filterMap (fun t =>
      (w.strand? t).map (fun _ => { w := { crew := c.ref, warp := w.id }, strand := t }))))

def State.ctx? (s : State) (n : Nat) : Option Ctx := s.ctxs.find? (fun c => c.num == n)

def State.ctx (s : State) (n : Nat) : Ctx := (s.ctx? n).getD (Ctx.empty n)

def State.modCtx (s : State) (n : Nat) (f : Ctx → Ctx) : State :=
  { s with ctxs := updIf (fun c => c.num == n) f s.ctxs }

def Ctx.queue? (c : Ctx) (q : Nat) : Option Queue := (c.queues.find? (fun x => x.1 == q)).map (·.2)

def Ctx.modQueue (c : Ctx) (q : Nat) (f : Queue → Queue) : Ctx :=
  { c with queues := updIf (fun x => x.1 == q) (fun x => (x.1, f x.2)) c.queues }

def Ctx.setQueue (c : Ctx) (q : Nat) (x : Queue) : Ctx :=
  { c with queues := (c.queues.filter (fun y => y.1 != q)) ++ [(q, x)] }

def State.modQueue (s : State) (n q : Nat) (f : Queue → Queue) : State := s.modCtx n (fun c => c.modQueue q f)

def State.queue? (s : State) (n q : Nat) : Option Queue := (s.ctx n).queue? q

def Ctx.voyage? (c : Ctx) (v : Nat) : Option Voyage := c.voyages.find? (fun x => x.num == v)

def Ctx.modVoyage (c : Ctx) (v : Nat) (f : Voyage → Voyage) : Ctx :=
  { c with voyages := updIf (fun x => x.num == v) f c.voyages }

def Ctx.window? (c : Ctx) (i : Nat) : Option Window := c.windows.find? (fun x => x.id == i)

def Ctx.modWindow (c : Ctx) (i : Nat) (f : Window → Window) : Ctx :=
  { c with windows := updIf (fun x => x.id == i) f c.windows }

/-- A crew that is on a quadrant. -/
def Crew.onQuad (c : Crew) : Bool :=
  match c.run with
  | .placed | .draining | .halting _ | .saving | .flushed => true
  | .locker _ | .memory => false

/-- A crew whose strands may issue. -/
def Crew.running (c : Crew) : Bool :=
  match c.run with
  | .placed | .draining => true
  | _ => false

/-- The die of a core number (R11). -/
def dieOf (core : Nat) : Nat := core / 96

/-! The strand that an instruction belongs to. -/

/-- One global access of an instruction in its chunk: whether it writes, its words, and the hint (R274). -/
structure Acc where
  write : Bool
  words : List Nat
  hint  : Nat
  deriving DecidableEq, Repr

/-- An instruction's view of its strand, and the old values of the registers it has written so far. -/
structure Cur where
  ref  : StrandRef
  crew : Crew
  warp : Warp
  t    : Strand
  /-- The free-value counter at issue. -/
  free : Nat
  log  : List OldVal
  /-- Its accesses to global memory so far (R280). -/
  acc  : List Acc
  deriving DecidableEq, Repr

def State.curOf (s : State) (r : StrandRef) : Option Cur :=
  match s.crew? r.w.crew with
  | none => none
  | some c => match c.warp? r.w.warp with
    | none => none
    | some w => match w.strand? r.strand with
      | none => none
      | some t => some { ref := r, crew := c, warp := w, t := t, free := s.free, log := [], acc := [] }

/-- The strand in focus. -/
def State.cur? (s : State) : Option Cur := s.focus.bind s.curOf

/-- The warp with the strand written back into it. -/
def Cur.warpOut (c : Cur) : Warp := c.warp.setStrand c.ref.strand (some c.t)

/-- Write the strand, its warp and its crew back. -/
def State.putCur (s : State) (c : Cur) : State :=
  s.modCrew c.ref.w.crew (fun _ =>
    { c.crew with warps := updIf (fun w => w.id == c.ref.w.warp) (fun _ => c.warpOut) c.crew.warps })

/-- The strand as it stands after a change of the state. -/
def State.fresh (s : State) (c : Cur) : Cur := (s.curOf c.ref).getD c

/-- The width of the warp. -/
def Cur.width (c : Cur) : Nat := c.warp.width
def Cur.ctx (c : Cur) : Nat := c.ref.w.crew.ctx

def Cur.mapT (c : Cur) (f : Strand → Strand) : Cur := { c with t := f c.t }
def Cur.mapCore (c : Cur) (f : StrandCore → StrandCore) : Cur := { c with t := { c.t with core := f c.t.core } }
def Cur.mapChunk (c : Cur) (f : Chunk → Chunk) : Cur := { c with t := { c.t with chunk := f c.t.chunk } }

/-- No open chunk. -/
def Chunk.none : Chunk :=
  { st := .idle, pinned := false, again := false, errSeen := false, count := 0, chlim := 0, limit := .none, snap := .none, shadow := [], grs := [], gws := [],
    crs := [], cws := [], gw := [], cw := [], disc := [], bars := [], closes := [], pages := [],
    childIdx := .none, lastUse := [], badG := [], badC := [], lostTo := [], owner := .none }

/-- An unbound cursor (R364, Table 6.2). -/
def Cursor.unbound : Cursor := { head := 0, lo := 0, hi := 0, idx := 0, sub := 0, coord := 0, pos := 0 }

def TrapRegs.zero : TrapRegs :=
  { cause := 0, tpc := 0, addr := 0, lanes := 0, extra := 0, h := false, skip := false, recorded := 0, recCause := 0,
    recHdr := 0 }

def Tile.undef : Tile := { st := .undef, tag := .f32, sat := false, e := List.replicate 256 0 }

def VecReg.zero (w : Nat) : VecReg := { tag := .raw, lanes := List.replicate w 0 }

end Sys2Proof.Machine
end

