-- ==== Sys2Proof/Machine/Coherence.lean ====
section
/-!
DEFINITION. Coherence (R278 to R283): the requests between the L1s and the home slices, the directory's transitions (Table
14.6), and what loads, stores, commits and accesses made at the home slice do to them. No value passes through here: what a
read returns is G's (R209), and nothing outside this file and the fields `caches` reads them (R283, log 61).
-/

namespace Sys2Proof.Machine

open Sys2Proof

/-- The kinds of requests of Table 14.5; Data and Ack answer them and carry nothing that the model keeps. -/
inductive CohKind where
  | rdS | rdX | upg | wbD | evC | inv | fwdS | fwdX | rcl
  deriving DecidableEq, Repr

/-- A request: the core that sends or receives it, the line, and its span of words (R281). -/
structure CohMsg where
  kind  : CohKind
  core  : Nat
  line  : Nat
  first : Nat
  count : Nat
  deriving DecidableEq, Repr

/-! Spans (R281). -/

/-- The words of a line as maximal spans of consecutive words, the lowest first. -/
def spansOf (ws : List Nat) : List (Nat × Nat) :=
  (List.range 32).foldl (fun l w =>
    if !ws.contains w then l
    else match l.getLast? with
      | some (a, n) => if a + n == w then l.dropLast ++ [(a, n + 1)] else l ++ [(w, 1)]
      | none => [(w, 1)]) []

/-- The words of a span. -/
def spanList (first count : Nat) : List Nat := (List.range count).map (first + ·)

/-! Words of a holder. -/

/-- The list with the state of one word changed, in rising order; `none` is I. -/
def setWord : List (Nat × CSt) → Nat → Option CSt → List (Nat × CSt)
  | [], w, st => (st.map (fun x => (w, x))).toList
  | (v, x) :: l, w, st =>
    if w < v then (st.map (fun y => (w, y))).toList ++ (v, x) :: l
    else if v == w then (st.map (fun y => (w, y))).toList ++ l
    else (v, x) :: setWord l w st

def stateOf (ws : List (Nat × CSt)) (w : Nat) : Option CSt := (ws.find? (fun x => x.1 == w)).map (·.2)

/-- The owning states: their holder is the one whose copy the home must ask for. -/
def CSt.owns : CSt → Bool
  | .m | .o | .e => true
  | .s => false

/-! L1 and directory entries. -/

/-- What a core's L1 holds of a word. -/
def Caches.held (c : Caches) (core line w : Nat) : Option CSt :=
  ((c.l1.find? (fun x => x.core == core && x.line == line)).map (·.words)).bind (fun ws => stateOf ws w)

/-- The L1s with one word of one core changed; a line with no word left goes. -/
def l1Set (l : List L1Line) (core line w : Nat) (st : Option CSt) : List L1Line :=
  let at' := fun (x : L1Line) => x.core == core && x.line == line
  let l := if l.any at' then l else l ++ [{ core := core, line := line, words := [] }]
  (updIf at' (fun x => { x with words := setWord x.words w st }) l).filter (fun x => !x.words.isEmpty)

/-- The directory entry of a line. -/
def Caches.entry (c : Caches) (line : Nat) : DirLine :=
  (c.dir.find? (fun d => d.line == line)).getD { line := line, ptrs := [], coarse := [] }

def Caches.putEntry (c : Caches) (d : DirLine) : Caches :=
  let rest := c.dir.filter (fun x => x.line != d.line)
  { c with dir := if d.ptrs.isEmpty && d.coarse.isEmpty then rest else rest ++ [d] }

/-- The owner of a word. -/
def DirLine.owner? (d : DirLine) (w : Nat) : Option (Nat × CSt) :=
  d.ptrs.findSome? (fun p => match stateOf p.words w with
    | some st => if st.owns then some (p.core, st) else none
    | none => none)

/-- The cores that an exact pointer records as sharers of a word. -/
def DirLine.sharers (d : DirLine) (w : Nat) : List Nat :=
  (d.ptrs.filter (fun p => stateOf p.words w == some .s)).map (·.core)

/-- The pointers with one word of one core changed. -/
def ptrSet (l : List DirPtr) (core w : Nat) (st : Option CSt) : List DirPtr :=
  let l := if l.any (fun p => p.core == core) then l else l ++ [{ core := core, words := [] }]
  (updIf (fun p => p.core == core) (fun p => { p with words := setWord p.words w st }) l).filter (fun p => !p.words.isEmpty)

/-- A word of a core changes state, in its L1 and in the entry. -/
def Caches.set (c : Caches) (core line w : Nat) (st : Option CSt) : Caches :=
  let d := c.entry line
  { (c.putEntry { d with ptrs := ptrSet d.ptrs core w st }) with l1 := l1Set c.l1 core line w st }

/-- The cores of the marked groups (R282). -/
def DirLine.groupCores (d : DirLine) : List Nat := d.coarse.flatMap (fun g => (List.range 8).map (8 * g + ·))

/-- A word of a request: what it changes, and the messages to other cores, as (kind, core, word). -/
abbrev CohStep := Caches × List (CohKind × Nat × Nat)

/-- Every other copy of a word is dropped: Inv to the sharers and to every core of each marked group, FwdX to an owner. -/
def Caches.dropOthers (core line w : Nat) (x : CohStep) : CohStep :=
  let d := x.1.entry line
  let sh := (d.sharers w ++ d.groupCores).eraseDups.filter (· != core)
  let own := match d.owner? w with
    | some (k, _) => if k == core then [] else [k]
    | none => []
  ((sh ++ own).foldl (fun c k => c.set k line w none) x.1,
   x.2 ++ sh.map (fun k => (.inv, k, w)) ++ own.map (fun k => (.fwdX, k, w)))

/-- The transitions of Table 14.6 for one word of the span. -/
def Caches.word (kind : CohKind) (core line w : Nat) (x : CohStep) : CohStep :=
  let d := x.1.entry line
  match kind with
  | .rdS =>
    match d.owner? w with
    | some (k, st) =>
      if k == core then x
      else if st == .e then ((x.1.set k line w (some .s)).set core line w (some .s), x.2)
      else ((x.1.set k line w (some .o)).set core line w (some .s), x.2 ++ [(.fwdS, k, w)])
    | none =>
      let shared := !(d.sharers w).isEmpty || !d.coarse.isEmpty
      (x.1.set core line w (some (if shared then .s else .e)), x.2)
  | .rdX | .upg =>
    let y := if x.1.held core line w == some .e then x else Caches.dropOthers core line w x
    (y.1.set core line w (some .m), y.2)
  | .wbD =>
    match x.1.held core line w with
    | some .m | some .o => (x.1.set core line w none, x.2)
    | _ => x
  | .evC =>
    match x.1.held core line w with
    | some .e | some .s => (x.1.set core line w none, x.2)
    | _ => x
  | .rcl =>
    let y := Caches.dropOthers 768 line w (x.1, [])
    (y.1, x.2 ++ y.2.map (fun m => (.rcl, m.2.1, m.2.2)))
  | .inv | .fwdX => (x.1.set core line w none, x.2)
  | .fwdS => (x.1.set core line w (some .o), x.2)

/-- An entry with more holders than it has pointers (R282): shared holders go to the coarse vector; of five owners one, not
the requester, writes back. -/
def Caches.fit (core line : Nat) (x : CohStep) : CohStep :=
  let d := x.1.entry line
  if d.ptrs.length ≤ 4 then x
  else
    let groups := (d.ptrs.filter (fun p => p.words.any (fun v => v.2 == .s))).map (fun p => p.core / 8)
    let d := { d with
      ptrs := (d.ptrs.map (fun p => { p with words := p.words.filter (fun v => v.2.owns) })).filter (fun p => !p.words.isEmpty),
      coarse := addAll d.coarse groups }
    let x : CohStep := (x.1.putEntry d, x.2)
    if d.ptrs.length ≤ 4 then x
    else match d.ptrs.find? (fun p => p.core != core) with
      | none => x
      | some p => (p.words.foldl (fun c v => c.set p.core line v.1 none) x.1, x.2 ++ p.words.map (fun v => (.fwdX, p.core, v.1)))

/-- The messages of a step, gathered into spans. -/
def gather (line : Nat) (ms : List (CohKind × Nat × Nat)) : List CohMsg :=
  (ms.map (fun m => (m.1, m.2.1))).eraseDups.flatMap (fun k =>
    (spansOf ((ms.filter (fun m => m.1 == k.1 && m.2.1 == k.2)).map (fun m => m.2.2))).map (fun s =>
      { kind := k.1, core := k.2, line := line, first := s.1, count := s.2 }))

/-- A request of a span (Tables 14.5 and 14.6): the caches behind it, and the messages that the home sends to other cores. -/
def Caches.request (c : Caches) (kind : CohKind) (core line first count : Nat) : Caches × List CohMsg :=
  let x := (spanList first count).foldl (fun x w => Caches.fit core line (Caches.word kind core line w x)) (c, [])
  (x.1, gather line x.2)

/-! What accesses ask for. -/

/-- Words of memory (address / 4) by line: each line with its words. -/
def byLine (ws : List Nat) : List (Nat × List Nat) :=
  (ws.map (· / 32)).eraseDups.map (fun l => (l, (ws.filter (fun w => w / 32 == l)).map (· % 32)))

/-- The requests of one kind for the words of a line. -/
def Caches.ask (c : Caches) (kind : CohKind) (core line : Nat) (ws : List Nat) : Caches :=
  (spansOf ws).foldl (fun c s => (c.request kind core line s.1 s.2).1) c

def Caches.fillL2 (c : Caches) (line : Nat) : Caches := { c with l2 := addNew c.l2 line }

/-- A load: RdS for exactly the words that the L1 lacks (R280), and their allocation as the hint asks (Table 14.3). -/
def Caches.load (c : Caches) (core hint : Nat) (ws : List Nat) : Caches :=
  (byLine ws).foldl (fun c x =>
    let lacks := x.2.filter (fun w => (c.held core x.1 w).isNone)
    let c := if hint == 6 || lacks.isEmpty then c else c.fillL2 x.1
    if hint == 3 || hint == 6 then (c.ask .rdS core x.1 lacks).ask .evC core x.1 lacks else c.ask .rdS core x.1 lacks) c

/-- A store or a commit: RdX for the words that the L1 lacks, Upg for those it shares; a store of an exclusive word sends no
message. -/
def Caches.own (c : Caches) (core : Nat) (ws : List Nat) : Caches :=
  (byLine ws).foldl (fun c x =>
    let lacks := x.2.filter (fun w => (c.held core x.1 w).isNone)
    let shares := x.2.filter (fun w => c.held core x.1 w == some .s || c.held core x.1 w == some .o)
    let excl := x.2.filter (fun w => c.held core x.1 w == some .e)
    ((c.ask .rdX core x.1 lacks).ask .upg core x.1 shares).ask .upg core x.1 excl) c

/-- The core drops its clean copy of words (hint 0x7), or gives up words by its own choice. -/
def Caches.release (c : Caches) (core : Nat) (ws : List Nat) : Caches :=
  (byLine ws).foldl (fun c x => c.ask .evC core x.1 x.2) c

/-- The core gives words up, dirty ones by WbD. -/
def Caches.evict (c : Caches) (core line : Nat) (ws : List Nat) : Caches :=
  let dirty := ws.filter (fun w => c.held core line w == some .m || c.held core line w == some .o)
  let c := if dirty.isEmpty then c else c.fillL2 line
  (c.ask .wbD core line dirty).ask .evC core line ws

/-- An access that is made at the home slice and not through an L1: every copy of the lines it touches is recalled (R220). -/
def Caches.recall (c : Caches) (ws : List Nat) : Caches :=
  ((ws.map (· / 32)).eraseDups).foldl (fun c l =>
    let c := (c.request .rcl 768 l 0 32).1
    c.putEntry { line := l, ptrs := [], coarse := [] }) c

/-- A core returns from reset clean: what it holds is written back and dropped (R111). -/
def Caches.resetCore (c : Caches) (core : Nat) : Caches :=
  let ls := (c.l1.filter (fun x => x.core == core)).map (fun x => (x.line, x.words.map (·.1)))
  ls.foldl (fun c x => c.evict core x.1 x.2) c

/-- The span of a PREF in a line (R276, Table 14.3). -/
def Caches.prefetch (c : Caches) (core hint : Nat) (ws : List Nat) : Caches :=
  match hint with
  | 0 | 1 | 2 => c.load core hint ws
  | 3 | 4 | 5 => ((ws.map (· / 32)).eraseDups).foldl Caches.fillL2 c
  | 7 => c.release core ws
  | _ => c

/-- What the accesses of an instruction ask of the caches, in order. -/
def Caches.note (c : Caches) (core : Nat) (as : List Acc) : Caches :=
  as.foldl (fun c a => if a.write then c.own core a.words else c.load core a.hint a.words) c

end Sys2Proof.Machine
end

