-- ==== Sys2Proof/Machine/Mem.lean ====
section
/-!
DEFINITION. Physical memory, poison and discarded words (R109, R110, R221), squashes and conflicts (R194 to R200), and the
translation of virtual addresses (R284 to R298).
-/

namespace Sys2Proof.Machine

open Sys2Proof

/-! Physical addresses (R284, R432). -/

/-- HBM capacity in bytes (Table 1.3). -/
def hbmBytes : Nat := 768 * 10 ^ 9

/-- The second-tier port of a physical address, if it lies in a port's range. -/
def cxlPort? (s : State) (pa : Nat) : Option Nat :=
  if pa < 2 ^ 48 then none
  else
    let p := (pa - 2 ^ 48) / 2 ^ 42
    match s.ports[p]? with
    | some x => if (pa - 2 ^ 48) % 2 ^ 42 < x.cap then some p else none
    | none => none

/-- Backed addresses: HBM, and the range of a port that is up (R284, R432). -/
def State.backed (s : State) (pa : Nat) : Bool :=
  decide (pa < hbmBytes) ||
    (match cxlPort? s pa with
     | some p => (s.ports.getD p { cap := 0, up := false }).up
     | none => false)

/-- A read of a byte of a granule that is poisoned, or of a port that is down (R109, R432). -/
def State.isPoison (s : State) (pa : Nat) : Bool := s.poison.contains (pa / 32) || !s.backed pa

/-- A committed byte; a discarded word reads as it was or as zero (R221). -/
def State.rdByte (s : State) (pa : Nat) : Byte :=
  if s.dead.contains (pa / 4) && Config.discardZero s.free (pa / 4) then 0 else cellGet s.mem pa

def State.rdBytes (s : State) (pa n : Nat) : List Byte := (List.range n).map (fun i => s.rdByte (pa + i))

def State.rdNat (s : State) (pa n : Nat) : Nat := ofBytes (s.rdBytes pa n)

/-- A discarded word that is written in part first takes the value that reads of it return (log 9). -/
def State.settle (s : State) (w : Nat) : State :=
  if s.dead.contains w then
    { s with mem := cellsPut s.mem (4 * w) (s.rdBytes (4 * w) 4), dead := s.dead.filter (· != w) }
  else s

/-- The granules all of whose bytes are among the bytes written (R110). -/
def fullGranules (as : List Nat) : List Nat :=
  (as.map (· / 32)).eraseDups.filter (fun g => (List.range 32).all (fun i => as.contains (32 * g + i)))

/-- Write cells to physical memory: discarded words are settled, and poison that is written over whole is cleared. -/
def State.store (s : State) (cs : List Host.Cell) : State :=
  let ws := (cs.map (·.1 / 4)).eraseDups
  let s := ws.foldl State.settle s
  let full := if s.poison.isEmpty then [] else fullGranules (cs.map (·.1))
  { s with mem := cellsPutAll s.mem cs, poison := s.poison.filter (fun g => !full.contains g) }

/-! Squash (R196). -/

/-- Why a chunk is squashed; it decides what happens to the pin count (R198) and to the replay. -/
inductive SquashKind where
  /-- A conflict, or the squash of an earlier chunk. -/
  | conflict
  /-- A PINNED chunk loses to an earlier pin (R200). -/
  | pinClash
  /-- A first uncorrectable error (R201). -/
  | error
  /-- A trap or a replayable fault after `n` instructions, at an address (R202, R203). -/
  | trap (n : Nat) (pc : W64)
  /-- A halt (R204). -/
  | halt
  deriving DecidableEq, Repr

/-- The strand's lanes take their shadowed values, and the register its shadowed tag (Table 10.4). -/
def restoreVec (l : Mask) (old now : VecReg) : VecReg :=
  { tag := old.tag,
    lanes := (List.range now.lanes.length).map (fun i =>
      if hasLane l i then old.lanes.getD i 0 else now.lanes.getD i 0) }

def applyShadow (l : Mask) (w : Warp) : OldVal → Warp
  | .vec i v _ => { w with vregs := modAt w.vregs i (restoreVec l v) }
  | .glob i v => { w with gregs := modAt w.gregs i (restoreVec l v) }
  | .pred i m => { w with preds := modAt w.preds i (fun now => (m &&& l) ||| (now &&& ~~~l)) }
  | .scal _ _ => w
  | .tile i t => { w with tiles := setAt w.tiles i t }

/-- A strand-table entry becomes FREE: it leaves its frames, and a frame left with one member is removed (R150). -/
def Warp.leave (w : Warp) (k : Nat) : Warp :=
  { w with
    strands := setAt w.strands k none,
    frames := (w.frames.map (fun f => { f with members := f.members.filter (· != k) })).filter
      (fun f => decide (2 ≤ f.members.length)) }

/-- The pin count behind a squash of a chunk (R198): squashes in a row of one chunk start by conflicts, the squash of an
earlier chunk among them. -/
def Strand.pinsAfter (t : Strand) (ch : Chunk) : SquashKind → Nat
  | .conflict => (if ch.again then t.pinCount else 0) + 1
  | .pinClash | .error => if ch.again then t.pinCount else 0
  | .trap _ _ | .halt => 0

/-- The chunk that a strand re-executes in after a squash. -/
def Chunk.after (ch : Chunk) (k : SquashKind) (pins : Nat) : Chunk :=
  match k with
  | .conflict => { Chunk.none with st := if 4 ≤ pins then .pinWait else .idle, again := true, errSeen := ch.errSeen,
                                   limit := ch.limit }
  | .pinClash => { Chunk.none with pinned := true, again := ch.again, errSeen := ch.errSeen, limit := ch.limit,
                                   lostTo := ch.lostTo }
  | .error => { Chunk.none with pinned := ch.pinned, again := ch.again, errSeen := true, limit := ch.limit,
                                lostTo := ch.lostTo }
  | .trap n a => { Chunk.none with pinned := ch.pinned, errSeen := ch.errSeen, limit := some (n, a), lostTo := ch.lostTo }
  | .halt => Chunk.none

/-- A chunk that has begun and is not placed: a write can conflict with it. -/
def Chunk.active (ch : Chunk) : Bool :=
  match ch.st with
  | .opened | .ended | .ordering => true
  | .idle | .pinWait => false

/-- Chunks of the strand that are not placed, the oldest first; the open one last. -/
def Strand.unplaced (t : Strand) : List Chunk := t.earlier ++ [t.chunk]

/-- The strand after a squash of its chunk `ch` and of those behind it, each of which SQCNT counts (R198): Table 10.4 restored,
its header to be applied again (R53). -/
def Strand.squashed (t : Strand) (ch : Chunk) (older : List Chunk) (k : SquashKind) : Strand :=
  let n := ((t.unplaced.drop older.length).filter Chunk.active).length
  let pins := t.pinsAfter ch k
  { t with
    core := { (ch.snap.getD t.core) with inClause := false },
    chunk := ch.after k pins, earlier := older.map (fun x => { x with again := false }),
    wait := .none, pends := [], sqcnt := t.sqcnt + BitVec.ofNat 64 (Nat.max 1 n), pinCount := pins,
    trapReplay := (match k with | .trap _ _ => true | .halt => false | _ => t.trapReplay) }

/-- What one squashed chunk had changed of its warp is restored (Table 10.4), and the entry that its DBR took is freed
(R148). -/
def Warp.undo (core : StrandCore) (w : Warp) (ch : Chunk) : Warp :=
  let w := ch.shadow.foldl (applyShadow (ch.snap.getD core).l) w
  match ch.childIdx with
  | some c => w.leave c
  | none => w

/-- Squash chunk `n` of the unplaced chunks of strand-table entry `i`, and those behind it, the last first (R187, R196). A
pinned chunk that has not begun counts where its crew halts (R198, R204). -/
def Warp.squashOwn (w : Warp) (i n : Nat) (k : SquashKind) : Warp :=
  match w.strand? i with
  | none => w
  | some t =>
    match t.unplaced[n]? with
    | none => w
    | some ch =>
      if ch.st == .idle && !(ch.pinned && k == .halt) then w
      else
        let w := (t.unplaced.drop n).reverse.foldl (Warp.undo t.core) w
        w.setStrand i (some (t.squashed ch (t.earlier.take n) k))

/-! The undo of a merge (R153). -/

/-- The frames with the members of an undone merge back in those around its own, which stands again as the innermost. -/
def Merge.frames (m : Merge) (fs : List Frame) : List Frame :=
  let back := (m.members.map (·.1)).filter (· != m.sv)
  let outer := fs.map (fun f => if f.members.contains m.sv then { f with members := f.members ++ back } else f)
  let lost := m.outer.filter (fun a => !(fs.any (fun f => f.addr == a && f.members.contains m.sv)))
  outer ++ lost.map (fun a => { addr := a, members := m.sv :: back }) ++ [m.frame]

/-- A member as it arrived, with those of its chunks that are not placed; the survivor keeps its count of squashes. -/
def Merge.back (m : Merge) (t : Strand) (k : Nat) (x : Strand) : Strand :=
  let cs := (t.earlier.filter (fun ch => ch.owner == some k)).map (fun ch => { ch with owner := .none })
  { x with earlier := cs.dropLast, chunk := cs.getLast?.getD Chunk.none, sqcnt := if k == m.sv then t.sqcnt else x.sqcnt, poisoned := x.poisoned || (k == m.sv && t.poisoned) }

/-- The merged strand's own chunks are squashed, and the members regain their entries and their state. -/
def Warp.unmerge (w : Warp) (m : Merge) : Warp :=
  match w.strand? m.sv with
  | none => w
  | some t =>
    let w := match indexOf? (fun ch => ch.owner.isNone && ch.active) t.unplaced with
      | some n => w.squashOwn m.sv n .conflict
      | none => w
    match w.strand? m.sv with
    | none => w
    | some t' =>
      let w := { w with frames := m.frames w.frames, merges := w.merges.filter (fun x => x.sv != m.sv) }
      m.members.foldl (fun w x => w.setStrand x.1 (some (m.back { t with sqcnt := t'.sqcnt } x.1 x.2))) w

/-- Squash chunk `n` of the unplaced chunks of an entry and those behind it. Where it is an arrival chunk that a merge handed
on, the merge is undone, and the member whose chunk it is executes again; at a halt every member does (R153, R204). -/
def Warp.squash (w : Warp) (i n : Nat) (k : SquashKind) : Warp :=
  match (w.strand? i).bind (fun t => (t.unplaced[n]?).map (fun ch => (t, ch))), w.merges.find? (fun m => m.sv == i) with
  | some (t, ch), some m =>
    match ch.owner with
    | none => w.squashOwn i n k
    | some o =>
      let w := w.unmerge m
      if k == .halt then m.members.foldl (fun w x => w.squashOwn x.1 0 k) w
      else w.squashOwn o ((t.unplaced.take n).filter (fun x => x.owner == some o)).length k
  | _, _ => w.squashOwn i n k

/-- The die whose pin slot a strand uses. -/
def State.dieOfRef (s : State) (r : StrandRef) : Nat := dieOf (((s.crew? r.w.crew).map (·.core)).getD 0)

/-- Ask for the die's pin slot (R199). -/
def State.askPin (s : State) (r : StrandRef) : State :=
  { s with pins := modAt s.pins (s.dieOfRef r) (fun p => { p with queue := addNew p.queue r }) }

/-- Give up the pin slot and any place in the queue for it. -/
def State.dropPin (s : State) (r : StrandRef) : State :=
  { s with pins := s.pins.map (fun p =>
      { p with holder := if p.holder == some r then none else p.holder, queue := p.queue.filter (· != r) }) }

/-- Squash chunk `n` of a strand's unplaced chunks and those behind it (R196), with what follows for its pin slot (R198,
R199). -/
def State.squashAt (s : State) (r : StrandRef) (n : Nat) (k : SquashKind) : State :=
  let owner := ((s.strand? r).bind (fun t => t.unplaced[n]?)).bind (·.owner)
  let s := s.modWarp r.w (fun w => w.squash r.strand n k)
  let s := if k == .halt || owner.isSome then s.dropPin r else s
  let x : StrandRef := { r with strand := owner.getD r.strand }
  if k == .conflict && ((s.strand? x).map (·.chunk.st)) == some .pinWait then s.askPin x else s

/-- Squash a strand's open chunk. -/
def State.squash (s : State) (r : StrandRef) (k : SquashKind) : State :=
  s.squashAt r ((s.strand? r).map (·.earlier.length) |>.getD 0) k

/-- Squash every unplaced chunk of a strand. -/
def State.squashAll (s : State) (r : StrandRef) (k : SquashKind) : State := s.squashAt r 0 k

/-! Conflicts (R194). -/

/-- Whether a chunk's signatures cover a word of a write: global words, and words of one crew's crew memory. -/
def Chunk.hits (ch : Chunk) (gs cs : List Nat) : Bool :=
  gs.any (fun w => ch.grs.contains w || ch.gws.contains w) || cs.any (fun w => ch.crs.contains w || ch.cws.contains w)

/-- A write of words that enters G: global words, and words of a crew's memory. -/
structure Wr where
  src  : Option StrandRef
  gs   : List Nat
  crew : Option CrewRef
  cs   : List Nat
  /-- The entry whose arrival chunk it is, where a merge has handed the chunk on (R153). -/
  owner : Option Nat := none
  deriving DecidableEq, Repr

/-- The chunk belongs to the source of the write; arrival chunks of other members of a merge do not. -/
def Wr.own (w : Wr) (r : StrandRef) (ch : Chunk) : Bool := w.src == some r && (ch.owner.isNone || ch.owner == w.owner)

/-- Whether the write meets the chunk of strand `r`. -/
def Wr.meets (w : Wr) (r : StrandRef) (ch : Chunk) : Bool :=
  !(w.own r ch) && ch.hits w.gs (if w.crew == some r.w.crew then w.cs else [])

/-- A PINNED chunk that the write would conflict with (R199). -/
def State.pinBlocks (s : State) (w : Wr) : Bool :=
  s.refs.any (fun r => match s.strand? r with
    | some t => t.chunk.pinned && t.chunk.active && w.meets r t.chunk
    | none => false)

/-- The first unpinned chunk of a strand that a write touches, or seems to touch. -/
def State.touched (s : State) (w : Wr) (r : StrandRef) (t : Strand) : Option Nat :=
  indexOf? (fun ch => ch.active && !ch.pinned && !(w.own r ch) &&
    (w.meets r ch || Config.falseConflict s.free (t.sqcnt.toNat))) t.unplaced

/-- The first chunks of strands that a write touches are squashed. -/
def State.conflictOnce (s : State) (w : Wr) : State :=
  s.refs.foldl (fun s r => match s.strand? r with
    | some t => match s.touched w r t with
      | some n => s.squashAt r n .conflict
      | none => s
    | none => s) s

/-- The write enters G: every unpinned chunk that it touches is squashed (R194), or one it seems to touch (R195), those of the
members of a merge that this undoes among them (R153). -/
def State.conflict (s : State) (w : Wr) : State := (s.conflictOnce w).conflictOnce w

/-! Parked SVWAITs (R402, R403). -/

/-- Width of an SVWAIT's word in bytes. -/
def AmoOps.bytes (o : AmoOps) : Nat := if o.w64 then 8 else 4

/-- cond(m) of R402. -/
def svCond (geu : Bool) (o : AmoOps) (v : W64) (m : Nat) : Bool :=
  let x := v.toNat % 2 ^ (8 * AmoOps.bytes o)
  if geu then decide (x ≤ m) else m == x

/-- The engine checks a parked SVWAIT after a write to its word: the first value that satisfies it is kept. -/
def Strand.latch (s : State) (ws : List Nat) (t : Strand) : Strand :=
  match t.wait with
  | .sv geu o pa since none =>
    if (wordsOf pa (AmoOps.bytes o)).any ws.contains then
      let m := s.rdNat pa (AmoOps.bytes o)
      let v := if o.sb.val == 0 then 0 else t.core.s.getD o.sb.val 0
      if svCond geu o v m then { t with wait := .sv geu o pa since (some (BitVec.ofNat 64 m)) } else t
    else t
  | _ => t

/-- Every parked SVWAIT is checked after a write of words. -/
def State.latchAll (s : State) (ws : List Nat) : State :=
  { s with crews := s.crews.map (fun c => { c with warps := c.warps.map (fun w =>
      { w with strands := w.strands.map (Option.map (Strand.latch s ws)) }) }) }

/-- A singleton write of cells of physical memory: stored, seen by the engines, and in conflict with open chunks. -/
def State.writeCells (s : State) (src : Option StrandRef) (cs : List Host.Cell) : State :=
  let ws := (cs.map (·.1 / 4)).eraseDups
  let s := { s with caches := s.caches.recall ws }
  ((s.store cs).latchAll ws).conflict { src := src, gs := ws, crew := none, cs := [] }

/-- Bytes at consecutive addresses as cells. -/
def cellsAt (a : Nat) (bs : List Byte) : List Host.Cell := (List.range bs.length).map (fun i => (a + i, bs.getD i 0))

/-- A singleton write of bytes at a physical address. -/
def State.writeG (s : State) (src : Option StrandRef) (pa : Nat) (bs : List Byte) : State := s.writeCells src (cellsAt pa bs)

/-- Whether a singleton write must wait for a PINNED chunk. -/
def State.blockedG (s : State) (src : Option StrandRef) (pa n : Nat) : Bool :=
  s.pinBlocks { src := src, gs := wordsOf pa n, crew := none, cs := [] }

/-! Translation (R284 to R298). -/

/-- What an access asks of a leaf (Table 15.3, R289). -/
structure XReq where
  kind   : Access
  r      : Bool
  w      : Bool
  e      : Bool
  noSy   : Bool
  noUc   : Bool
  deriving DecidableEq, Repr

def XReq.load : XReq := { kind := .read, r := true, w := false, e := false, noSy := false, noUc := false }
def XReq.store : XReq := { kind := .write, r := false, w := true, e := false, noSy := false, noUc := false }
def XReq.atomic : XReq := { kind := .atomic, r := true, w := true, e := false, noSy := false, noUc := false }
/-- Walker reads: R, and a UC or SY page is fatal (R267, R289). -/
def XReq.walker : XReq := { kind := .walker, r := true, w := false, e := false, noSy := true, noUc := true }
/-- Loads and stores that take no UC or SY page (KLD, KSAVE, KREST, KAPP, KFIN, SIEVE). -/
def XReq.loadWb : XReq := { XReq.load with noSy := true, noUc := true }
def XReq.storeWb : XReq := { XReq.store with noSy := true, noUc := true }
def XReq.engineRead : XReq := { kind := .engine, r := true, w := false, e := true, noSy := true, noUc := false }
def XReq.engineWrite : XReq := { kind := .engine, r := false, w := true, e := true, noSy := true, noUc := false }

/-- How a translation fails: a reason of Table 15.5 with its form, ATTR_CONFLICT (R292), or an access already translated whose
range has become unbacked (R432). -/
inductive XErr where
  | fault (reason : Reason) (fatal : Bool)
  | attr (entry : Byte)
  | gone
  deriving DecidableEq, Repr

/-- A leaf reached: the physical address, its policy (0 WB, 1 UC, 2 SY), the entry and its level. -/
structure Leaf where
  pa  : Nat
  pol : Nat
  pte : W64
  lvl : Nat
  deriving DecidableEq, Repr

/-- The index of a level (Table 15.1). -/
def pageIx (va lvl : Nat) : Nat := va / 2 ^ (12 + 9 * (lvl - 1)) % 512

/-- Bytes that a leaf of a level maps. -/
def leafBytes (lvl : Nat) : Nat := 2 ^ (12 + 9 * (lvl - 1))

/-- Always-fatal faults (Table 15.5). -/
def fatalFault (x : Reason) : XErr := .fault x true

/-- The MBZ and LEAF checks of an entry (Table 15.2, R293). -/
def entryReserved (pte lvl : Nat) : Bool :=
  let leaf := bitAt pte 1
  field pte 57 52 != 0 || (lvl ≥ 4 && leaf) || (lvl == 1 && !leaf) ||
    (if leaf then field pte 11 10 == 3 || (lvl != 1 && bitAt pte 8)
     else field pte 4 2 != 0 || field pte 11 6 != 0)

/-- The alignment of a leaf (R287). -/
def leafMisaligned (pte lvl ix : Nat) : Bool :=
  match lvl with
  | 3 => field pte 29 12 != 0
  | 2 => field pte 20 12 != 0
  | _ => bitAt pte 8 && field pte 15 12 != ix % 16

/-- The bits in which the sixteen entries of a 64 KiB page must agree. -/
def groupKey (pte : Nat) : Nat × Nat := (field pte 11 2, field pte 51 16)

/-- SIZE: the sixteen entries of the group disagree (R287). -/
def State.groupBad (s : State) (base ix pte : Nat) : Bool :=
  (List.range 16).any (fun i =>
    let e := s.rdNat (base + 8 * (16 * (ix / 16) + i)) 8
    !(bitAt e 0) || !(bitAt e 8) || groupKey e != groupKey pte || field e 15 12 != i)

/-- A read of the group meets poison (R287, R293): the sixteen entries are read before they are compared (log 37). -/
def State.groupPoison (s : State) (base ix : Nat) : Bool :=
  (List.range 16).any (fun i => s.isPoison (base + 8 * (16 * (ix / 16) + i)))

/-- The entries cached for a level of a walk, that are not what the table holds (R297, R298). -/
def State.staleWalks (s : State) (ctx va lvl pte : Nat) : List Nat :=
  ((s.walks.filter (fun e => e.ctx == ctx && e.lvl == lvl && e.ix == va / leafBytes lvl && e.pte != pte)).map (·.pte)).eraseDups

/-- One choice among what the table holds and what caches hold; what there is no choice of is not asked for. -/
def pickOf {α : Type} (now : α) (old : List α) (k : Nat) : α :=
  match old with
  | [] => now
  | _ => ((now :: old)[k % (old.length + 1)]?).getD now

/-- The walk of a context from a table of level `lvl` (fuel is the level): the first leaf, or the first fault of R470's first
two items, with the entries of tables that it read. -/
def State.walk (s : State) (ctx va : Nat) : Nat → Nat → Except XErr (Nat × Nat × List WalkEntry)
  | 0, _ => .error (fatalFault .reservedBits)
  | lvl + 1, base =>
    let l := lvl + 1
    let ix := pageIx va l
    let at' := base + 8 * ix
    let now := s.rdNat at' 8
    let old := s.staleWalks ctx va l now
    let pte := pickOf now old (Config.walkPick s.free l (va / leafBytes l))
    if s.isPoison at' && pte == now then .error (fatalFault .tablePoison)
    else if !(bitAt pte 0) then .error (.fault .notPresent (bitAt pte 5))
    else if entryReserved pte l then .error (fatalFault .reservedBits)
    else if bitAt pte 1 then
      if leafMisaligned pte l ix then .error (fatalFault .reservedBits)
      else if l == 1 && bitAt pte 8 && s.groupPoison base ix then .error (fatalFault .tablePoison)
      else if l == 1 && bitAt pte 8 && s.groupBad base ix pte then .error (fatalFault .size)
      else .ok (pte, l, [])
    else
      let nxt := 4096 * field pte 51 12
      if s.backed nxt then
        match s.walk ctx va lvl nxt with
        | .ok (p, k, ws) => .ok (p, k, { ctx := ctx, lvl := l, ix := va / leafBytes l, pte := pte } :: ws)
        | .error e => .error e
      else .error (fatalFault .unbacked)

/-- The physical address that a leaf gives. -/
def leafPa (pte lvl va : Nat) : Nat :=
  4096 * field pte 51 12 / leafBytes lvl * leafBytes lvl + va % leafBytes lvl

/-- The frame attribute table entry of a frame (R291). -/
def State.frame (s : State) (f : Nat) : Byte := ((s.frat.find? (fun x => x.1 == f)).map (·.2)).getD 0

/-- The checks of a leaf behind the walk: UNBACKED, POLICY, permissions, frame attributes (R470). -/
def State.leafCheck (s : State) (va : Nat) (q : XReq) (pte lvl : Nat) : Except XErr Leaf :=
  let pa := leafPa pte lvl va
  let pol := field pte 7 6
  let fatal := bitAt pte 5
  let entry := s.frame (pa / 4096)
  if !(s.backed (pa / 4096 * 4096)) then .error (fatalFault .unbacked)
  else if pol == 3 || (pol == 2 && q.noSy) || (pol == 1 && q.noUc) then .error (fatalFault .policy)
  else if q.e && !(bitAt pte 4) then .error (.fault .engineDenied fatal)
  else if q.kind == .atomic && !(bitAt pte 2 && bitAt pte 3) then .error (.fault .atomicDenied fatal)
  else if q.r && !(bitAt pte 2) then .error (.fault .readDenied fatal)
  else if q.w && !(bitAt pte 3) then .error (.fault .writeDenied fatal)
  else if field pte 9 9 != field entry.toNat 0 0 || field pte 11 10 != field entry.toNat 2 1 ||
      (pol == 2) != bitAt entry.toNat 3 then .error (.attr entry)
  else .ok { pa := pa, pol := pol, pte := BitVec.ofNat 64 pte, lvl := lvl }

/-- A cached leaf maps an address. -/
def TlbEntry.maps (e : TlbEntry) (ctx va : Nat) : Bool :=
  e.ctx == ctx && decide (e.page * 4096 / leafBytes e.lvl = va / leafBytes e.lvl)

/-- The cached leaves of an address (R297), each with its level. -/
def State.cached (s : State) (ctx va : Nat) : List (Nat × Nat) :=
  ((s.tlb.filter (fun e => e.maps ctx va)).map (fun e => (e.pte.toNat, e.lvl))).eraseDups

/-- The walk of an address from its context's root (R285). -/
def State.walkOf (s : State) (ctx va : Nat) : Except XErr (Nat × Nat × List WalkEntry) :=
  let root := (s.ctx ctx).root
  if s.backed root then s.walk ctx va 5 root else .error (fatalFault .unbacked)

/-- The leaf of an access and its level (R285). Cached leaves that the table no longer holds may be used until a range
invalidation covers them (R298). -/
def State.leafOf (s : State) (ctx va : Nat) : Except XErr (Nat × Nat) :=
  let fresh := match s.walkOf ctx va with
    | .ok x => .ok (x.1, x.2.1)
    | .error e => .error e
  pickOf fresh ((s.cached ctx va).map .ok |>.filter (fun x => x.toOption != fresh.toOption)) (Config.cachedPick s.free (va / 4096))

/-- The access has its translation, and the range behind it has become unbacked since (R432). -/
def State.goneBehind (s : State) (ctx va pte lvl : Nat) : Bool :=
  !(s.backed (leafPa pte lvl va / 4096 * 4096)) && (s.cached ctx va).contains (pte, lvl) &&
    Config.stillTranslated s.free (va / 4096)

/-- The translation of an access (R285 to R293). -/
def State.translate (s : State) (ctx va : Nat) (q : XReq) : Except XErr Leaf :=
  match s.leafOf ctx va with
  | .ok (pte, lvl) => if s.goneBehind ctx va pte lvl then .error .gone else s.leafCheck va q pte lvl
  | .error x => .error x

/-- The policy field of the leaf of an address. -/
def State.pagePol (s : State) (ctx va : Nat) : Option Nat := ((s.leafOf ctx va).toOption).map (fun x => field x.1 7 6)

/-- A translation that was used is cached, and the entries of tables that its walk read (R297). -/
def State.fill (s : State) (ctx va : Nat) (l : Leaf) : State :=
  let ws := match s.walkOf ctx va with
    | .ok x => x.2.2
    | .error _ => []
  { s with
    tlb := if (s.cached ctx va).contains (l.pte.toNat, l.lvl) then s.tlb
           else s.tlb ++ [{ ctx := ctx, page := va / 4096, pte := l.pte, lvl := l.lvl }],
    walks := addAll s.walks ws }

/-- What an access needs of the caches of translations after it has met a fault or a REPLAY: no entry that led to the fault
stays, and the next access walks again (R296, R297). -/
def State.forget (s : State) (ctx va : Nat) : State :=
  { s with tlb := s.tlb.filter (fun e => !e.maps ctx va),
           walks := s.walks.filter (fun e => !(e.ctx == ctx && e.ix == va / leafBytes e.lvl)) }

end Sys2Proof.Machine
end

