-- ==== Sys2Proof/Machine/Operands.lean ====
section
/-!
DEFINITION. Operand forms: reads and writes of scalars, vector registers, predicates, cursors and tiles, with the checks
of frames and tags (R24, R30 to R34, R66 to R68), and the reads of registers whose flagged write is pending (R62).
-/

namespace Sys2Proof.Machine

open Sys2Proof

/-- Why an instruction does not take its effect where it stands. -/
inductive Stop where
  /-- A trap condition: cause, TADDR, TEXTRA, and the lanes when they are not the enabled ones. -/
  | trap (cause : Cause) (addr extra : Nat) (lanes : Option Mask)
  /-- A trap whose TEXTRA is the instruction word (Table 5.2). -/
  | word (cause : Cause) (addr : Nat)
  /-- A replayable fault (R203). -/
  | park (pf : PageFault)
  /-- The chunk ends before the instruction (R189, R191). -/
  | endBefore
  /-- A flagged write of a register that the instruction writes is pending (R62). -/
  | flags
  /-- Another strand's chunk wrote the tile (R197). -/
  | tileWait (t : Nat)
  /-- The access reaches a page that is not WB: the instruction is a singleton (R267). -/
  | uncached
  deriving DecidableEq, Repr

/-- Stop unless a condition holds. -/
def ensure (b : Bool) (st : Stop) : Except Stop Unit := if b then .ok () else .error st

def illegalReg : Stop := .word .illegalReg 0
def illegalOperand : Stop := .word .illegalOperand 0

/-! Scalars (R68). -/

def Cur.pendScal? (c : Cur) (i : Nat) : Option W64 :=
  c.t.pends.findSome? (fun p => p.old.findSome? (fun o => match o with
    | .scal j x => if j == i then some x else none
    | _ => none))

/-- s(i); s0 reads zero, and a register with a flagged write pending reads its old or its new value (R62). -/
def Cur.sr (c : Cur) (i : SReg) : W64 :=
  if i.val == 0 then 0
  else
    let now := c.t.core.s.getD i.val 0
    match c.pendScal? i.val with
    | some old => if Config.staleTag c.free (1024 + i.val) then old else now
    | none => now

/-- s(i) := x; a write of s0 is discarded. -/
def Cur.setS (c : Cur) (i : SReg) (x : W64) : Cur :=
  if i.val == 0 then c
  else { c with t := { c.t with core := { c.t.core with s := setAt c.t.core.s i.val x } },
                log := .scal i.val (c.t.core.s.getD i.val 0) :: c.log }

/-- Scalar number `n` of a run, which the checks keep at or below 63. -/
def sregAt (n : Nat) : SReg := ⟨n % 64, Nat.mod_lt _ (by decide)⟩

/-- The second operand of format S (Table 3.5). -/
def Cur.src (c : Cur) : Src → W64
  | .reg s => c.sr s
  | .sext i => i.signExtend 64
  | .zext i => i.setWidth 64
  | .high i => i.setWidth 64 <<< 32

/-! Masks and predicates (R66, R68, R144). -/

def Cur.l (c : Cur) : Mask := c.t.core.l
def Cur.em (c : Cur) : Mask := c.t.core.em

def Cur.pendPred? (c : Cur) (i : Nat) : Option Mask :=
  c.t.pends.findSome? (fun p => p.old.findSome? (fun o => match o with
    | .pred j x => if j == i then some x else none
    | _ => none))

/-- p(i) over the lanes of the warp; p15 reads all ones. -/
def Cur.pr (c : Cur) (i : PReg) : Mask :=
  if i.val == 15 then fullMask c.width
  else
    let now := c.warp.preds.getD i.val 0
    match c.pendPred? i.val with
    | some old => maskOf c.width (fun l => if Config.staleLane c.free (512 + i.val) l then hasLane old l else hasLane now l)
    | none => now

/-- p(i) takes `value` in the given lanes; p15 discards. -/
def Cur.setP (c : Cur) (i : PReg) (lanes value : Mask) : Cur :=
  if i.val == 15 then c
  else
    let old := c.warp.preds.getD i.val 0
    { c with warp := { c.warp with preds := setAt c.warp.preds i.val ((value &&& lanes) ||| (old &&& ~~~lanes)) },
             log := .pred i.val old :: c.log }

/-- The lanes that a guard leaves of a set (R66). -/
def Cur.guarded (c : Cur) (g : Guard) (lanes : Mask) : Mask :=
  if g.neg then lanes &&& ~~~(c.pr g.p) else lanes &&& c.pr g.p

/-- The lanes enabled under R66. -/
def Cur.enabled (c : Cur) (g : Guard) : Mask := c.guarded g c.em

/-- The lanes enabled for the instructions of R156, helper lanes included. -/
def Cur.enabledH (c : Cur) (g : Guard) : Mask := c.guarded g (c.em ||| c.t.core.hm)

/-- The lanes of a mask, ascending. -/
def Cur.lanes (c : Cur) (m : Mask) : List Nat := lanesBelow c.width m

/-! Vector registers (R67, R167, R179). -/

def Cur.r (c : Cur) : Nat := c.crew.launch.regs8 * 8
def Cur.g (c : Cur) : Nat := c.crew.launch.globals

/-- The frame holds v(i) for i < R, and the globals g(i) for i < GLOBALS. -/
def Cur.regOk (c : Cur) : VReg → Bool
  | .v i => decide (i.val < c.r)
  | .g i => decide (i.val < c.g)

/-- The storage of v(i): absolute register WINB + i, in a file of R registers (log 8). -/
def Cur.slot (c : Cur) (i : Nat) : Nat := (c.t.core.winb + i) % Nat.max c.r 1

/-- Register i of a run; none when the run leaves the fields 0 to 255 or 256 to 319 (R67). -/
def vplus (r : VReg) (k : Nat) : Option VReg :=
  match r with
  | .v i => if h : i.val + k < 256 then some (.v ⟨i.val + k, h⟩) else none
  | .g i => if h : i.val + k < 64 then some (.g ⟨i.val + k, h⟩) else none

/-- Every register of a list lies in the frame or the globals. -/
def Cur.needRegs (c : Cur) (rs : List VReg) : Except Stop Unit := ensure (rs.all c.regOk) illegalReg

/-- A run of `n` registers from `r`. -/
def Cur.run (c : Cur) (r : VReg) (n : Nat) : Except Stop (List VReg) :=
  let rs := (List.range n).map (vplus r)
  if rs.all (fun x => match x with | some y => c.regOk y | none => false) then .ok (rs.filterMap id) else .error illegalReg

/-- The tag that the strand's own CALL gave a slot while the warp was divided (R179, R183). -/
def Cur.ownTag (c : Cur) (slot : Nat) : Option Tag := (c.t.core.wtags.find? (fun x => x.1 == slot)).map (·.2)

/-- A slot of the file, as stored. -/
def Cur.stored (c : Cur) (slot : Nat) : VecReg := c.warp.vregs.getD slot (VecReg.zero c.width)

/-- A slot as the strand sees it. -/
def Cur.seen (c : Cur) (slot : Nat) : VecReg := { c.stored slot with tag := (c.ownTag slot).getD (c.stored slot).tag }

/-- The register as it stands. -/
def Cur.vnow (c : Cur) : VReg → VecReg
  | .v i => c.seen (c.slot i.val)
  | .g i => c.warp.gregs.getD i.val (VecReg.zero c.width)

/-- The old value of a register whose flagged write is pending. -/
def Cur.pendVec? (c : Cur) (r : VReg) : Option VecReg :=
  c.t.pends.findSome? (fun p => p.old.findSome? (fun o => match o, r with
    | .vec j x t, .v i => if j == c.slot i.val then some { x with tag := t } else none
    | .glob j x, .g i => if j == i.val then some x else none
    | _, _ => none))

/-- The register as an instruction reads it (R62). -/
def Cur.vr (c : Cur) (r : VReg) : VecReg :=
  let now := c.vnow r
  match c.pendVec? r with
  | some old =>
    { tag := if Config.staleTag c.free r.code then old.tag else now.tag,
      lanes := (List.range c.width).map (fun l =>
        if Config.staleLane c.free r.code l then old.lanes.getD l 0 else now.lanes.getD l 0) }
  | none => now

/-- FORMAT's TEXTRA (Table 5.2): tag found, tag required, field code. -/
def formatExtra (found req code : Nat) : Nat := found + 256 * req + 65536 * code

/-- A source register with its tag checked: POISON, then FORMAT (R32, R34). `req` is the tag code required, 0x1F for several. -/
def Cur.need (c : Cur) (r : VReg) (accept : Tag → Bool) (req : Nat) : Except Stop VecReg :=
  let x := c.vr r
  if x.tag == .poison then .error (.trap .regPoison 0 r.code none)
  else if accept x.tag then .ok x
  else .error (.trap .format 0 (formatExtra x.tag.code req r.code) none)

/-- Any tag but POISON. -/
def Cur.needAny (c : Cur) (r : VReg) : Except Stop VecReg := c.need r (fun _ => true) 31

/-- Exactly one tag. -/
def Cur.needTag (c : Cur) (r : VReg) (t : Tag) : Except Stop VecReg := c.need r (· == t) t.code

/-- Lane `l` of a register. -/
def VecReg.lane (x : VecReg) (l : Nat) : W32 := x.lanes.getD l 0

/-- The register with new lanes: enabled lanes take `f`, the others keep their bits, or zero where it was POISON (R34). -/
def VecReg.write (old : VecReg) (w : Nat) (m : Mask) (f : Nat → W32) (t : Tag) : VecReg :=
  { tag := t,
    lanes := (List.range w).map (fun l =>
      if hasLane m l then f l else if old.tag == .poison then 0 else old.lane l) }

/-- Write a slot: its lanes, and its tag where the strand's own tag of it stands, or the warp's. -/
def Cur.putSlot (c : Cur) (slot : Nat) (x : VecReg) : Cur :=
  let log := .vec slot (c.stored slot) (c.seen slot).tag :: c.log
  match c.ownTag slot with
  | none => { c with warp := { c.warp with vregs := setAt c.warp.vregs slot x }, log := log }
  | some _ =>
    { c with
      warp := { c.warp with vregs := setAt c.warp.vregs slot { x with tag := (c.stored slot).tag } },
      t := { c.t with core := { c.t.core with wtags := updIf (fun y => y.1 == slot) (fun y => (y.1, x.tag)) c.t.core.wtags } },
      log := log }

/-- Write a register whole. -/
def Cur.putV (c : Cur) (r : VReg) (x : VecReg) : Cur :=
  match r with
  | .v i => c.putSlot (c.slot i.val) x
  | .g i =>
    { c with warp := { c.warp with gregs := setAt c.warp.gregs i.val x }, log := .glob i.val (c.vnow r) :: c.log }

/-- vd[l] := f l in the enabled lanes, and vd.tag := t (R30). -/
def Cur.setV (c : Cur) (r : VReg) (m : Mask) (f : Nat → W32) (t : Tag) : Cur :=
  c.putV r ((c.vnow r).write c.width m f t)

/-! Elements of a lane (R22). -/

/-- Element `i` of a lane of a format with `n` bits an element. -/
def elemAt (n : Nat) (x : W32) (i : Nat) : Nat := x.toNat / 2 ^ (n * i) % 2 ^ n

/-- The lane whose elements are listed, element 0 first. -/
def packElems (n : Nat) (xs : List Nat) : W32 :=
  BitVec.ofNat 32 (xs.foldr (fun x acc => x % 2 ^ n + 2 ^ n * acc) 0)

/-- Build a lane from a function of the element number. -/
def mapElems (t : Tag) (f : Nat → Nat) : W32 := packElems t.bits ((List.range t.elems).map f)

/-! Cursors (R364) and tiles (R329). -/

/-- A bound append cursor (R364). -/
def Cursor.isAppend (k : Cursor) : Bool := k.head.getLsbD 4

def Cur.kr (c : Cur) (k : KReg) : Cursor := c.t.core.k.getD k.val Cursor.unbound

def Cur.setK (c : Cur) (k : KReg) (x : Cursor) : Cur :=
  c.mapCore (fun s => { s with k := setAt s.k k.val x })

/-- The tiles of the warp (R68). -/
def Cur.tileOk (c : Cur) (t : TReg) : Bool := decide (t.val < c.warp.tiles.length)

def Cur.tile (c : Cur) (t : TReg) : Tile := c.warp.tiles.getD t.val Tile.undef

/-- Another strand of the warp has written the tile in a chunk not yet committed (R197). -/
def Cur.tileHeld (c : Cur) (t : TReg) : Bool :=
  (List.range 4).any (fun i => i != c.ref.strand && (match c.warp.strand? i with
    | some x => x.unplaced.any (fun ch => ch.shadow.any (fun o => match o with | .tile j _ => j == t.val | _ => false))
    | none => false))

/-- The tile may be accessed now (R197). -/
def Cur.needTile (c : Cur) (t : TReg) : Except Stop Tile :=
  if !(c.tileOk t) then .error illegalReg
  else if c.tileHeld t then .error (.tileWait t.val)
  else .ok (c.tile t)

def Cur.setTile (c : Cur) (t : TReg) (x : Tile) : Cur :=
  { c with warp := { c.warp with tiles := setAt c.warp.tiles t.val x }, log := .tile t.val (c.tile t) :: c.log }

/-! Pending writes (R62). -/

/-- Whether two entries name the same register. -/
def OldVal.same : OldVal → OldVal → Bool
  | .vec i _ _, .vec j _ _ => i == j
  | .glob i _, .glob j _ => i == j
  | .pred i _, .pred j _ => i == j
  | .scal i _, .scal j _ => i == j
  | .tile i _, .tile j _ => i == j
  | _, _ => false

/-- A register written by this instruction has a flagged write pending: the instruction waits. -/
def Cur.writesPending (c : Cur) : Bool :=
  c.log.any (fun o => c.t.pends.any (fun p => p.old.any (fun q => q.same o)))

/-- The first old value of each register, the oldest kept. -/
def mergeShadow (old new : List OldVal) : List OldVal :=
  new.foldr (fun o acc => if acc.any (fun q => q.same o) then acc else acc ++ [o]) old

end Sys2Proof.Machine
end

