-- ==== Sys2Proof/Machine/Flags.lean ====
section
/-!
DEFINITION. Flags: the conditions of compares (R228, R235), carries and borrows (R233), clause headers (Table 3.1) and
completion flags (R60 to R63).
-/

namespace Sys2Proof.Machine

open Sys2Proof

/-- The condition codes of SCMP and VCMP. -/
inductive Cc where
  | eq | ne | lt | le | gt | ge | ltu | leu | gtu | geu
  deriving DecidableEq, Repr

/-- Whether a condition holds between two words (R228). -/
def Cc.holds (k : Cc) {n : Nat} (a b : BitVec n) : Bool :=
  match k with
  | .eq => a == b
  | .ne => a != b
  | .lt => decide (a.toInt < b.toInt)
  | .le => decide (a.toInt ≤ b.toInt)
  | .gt => decide (b.toInt < a.toInt)
  | .ge => decide (b.toInt ≤ a.toInt)
  | .ltu => decide (a.toNat < b.toNat)
  | .leu => decide (a.toNat ≤ b.toNat)
  | .gtu => decide (b.toNat < a.toNat)
  | .geu => decide (b.toNat ≤ a.toNat)

/-- LT, LE, GT and GE of VCMP compare as the type's signedness (R235). -/
def Cc.forType (k : Cc) (t : Tag) : Cc :=
  if t == .u32 then
    match k with
    | .lt => .ltu | .le => .leu | .gt => .gtu | .ge => .geu | x => x
  else k

/-- Sum and carry of VADDC: exact, unsigned (R233). -/
def addCarry (a b : W32) (cin : Bool) : W32 × Bool :=
  let t := a.toNat + b.toNat + bit cin
  (BitVec.ofNat 32 t, decide (2 ^ 32 ≤ t))

/-- Difference and borrow of VSUBB: exact (R233). -/
def subBorrow (a b : W32) (cin : Bool) : W32 × Bool :=
  let t : Int := (a.toNat : Int) - b.toNat - (bit cin : Nat)
  (BitVec.ofInt 32 t, decide (t < 0))

/-! Clause headers (Table 3.1). -/

def hdrN (h : W64) : Nat := field h.toNat 59 56
def hdrWait (h : W64) (i : Nat) : Bool := bitAt h.toNat (44 + i)
def hdrSetA (h : W64) : Nat := field h.toNat 43 40
def hdrSetB (h : W64) : Nat := field h.toNat 39 36
def hdrPair (h : W64) (i : Nat) : Bool := i < 14 && bitAt h.toNat (22 + i)
def hdrCb (h : W64) : Bool := bitAt h.toNat 21

/-- The flag that a cf field names, if the header names one (R60): 12 to 15 mean none. -/
def hdrFlag (h : W64) : Cf → Option Nat
  | .none => none
  | .a => if hdrSetA h < 12 then some (hdrSetA h) else none
  | .b => if hdrSetB h < 12 then some (hdrSetB h) else none

/-- A header that passes R58. -/
def headerOk (h : W64) : Bool :=
  isHeader h && hdrN h != 0 && !(hdrSetA h == hdrSetB h && decide (hdrSetA h < 12)) &&
    (List.range 14).all (fun i => !(hdrPair h i) || decide (i + 1 < hdrN h)) &&
    (List.range 13).all (fun i => !(hdrPair h i && hdrPair h (i + 1))) && field h.toNat 19 0 == 0

/-- The base of R55: the address of the header behind a clause. -/
def clauseEnd (hdr hword : W64) : W64 := hdr + BitVec.ofNat 64 (8 * (hdrN hword + 1))

/-! Completion flags. -/

/-- Whether flag `f` of the strand is set (R61). -/
def Strand.flagSet (t : Strand) (f : Nat) : Bool := t.pends.any (fun p => p.flag == f)

/-- The flags that a clause waits for before it starts (R61): WAIT, SETA and SETB. -/
def headerWaits (h : W64) (t : Strand) : Bool :=
  (List.range 12).any (fun i => t.flagSet i && (hdrWait h i || hdrSetA h == i || hdrSetB h == i))

/-- The index in its clause of the instruction at the strand's pc. -/
def StrandCore.index (x : StrandCore) : Nat := ((x.pc - x.hdr).toNat / 8) - 1

/-- Whether the instruction at pc is the last of its clause (R54). -/
def StrandCore.isLast (x : StrandCore) : Bool := x.index + 1 == hdrN x.hword

/-- Whether the instruction at pc begins a pair (R64). -/
def StrandCore.beginsPair (x : StrandCore) : Bool := hdrPair x.hword x.index

end Sys2Proof.Machine
end

