-- ==== Sys2Proof/Machine/Event.lean ====
section
/-!
DEFINITION. Records that the device writes: queue records (R127, R128), EVENT records (R138 to R140), FAULT records (R141,
R295), and logbook entries (R429).
-/

namespace Sys2Proof.Machine

open Sys2Proof

/-- A record of `n` bytes from fields (offset, bytes, value); every other byte is zero. -/
def recBytes (n : Nat) (fs : List (Nat × Nat × Nat)) : List Byte :=
  bytesOf n (fs.foldl (fun a f => a + f.2.2 % 256 ^ f.2.1 * 256 ^ f.1) 0)

/-- Field of a record: `n` bytes at `off`. -/
def recField (bs : List Byte) (off n : Nat) : Nat := ofBytes ((bs.drop off).take n)

/-! Queue records. -/

def QSt.code : QSt → Nat
  | .free => 0 | .configured => 1 | .opened => 2 | .closing => 3 | .closed => 4 | .error => 5

/-- Item size in bytes (Table 7.1). -/
def Queue.itemBytes (q : Queue) : Nat := 16 * 2 ^ q.isz
def Queue.capacity (q : Queue) : Nat := 2 ^ q.logcap

/-- Address of the slot of a position. -/
def Queue.slotVa (q : Queue) (pos : Nat) : Nat := q.ring + pos % q.capacity * q.itemBytes

/-- Positions that warps of the context hold on a queue (R129), those of lost crews included. -/
def State.heldOn (s : State) (ctx q : Nat) : List Nat :=
  (s.crews.filter (fun c => c.ref.ctx == ctx)).flatMap (fun c => c.warps.flatMap (fun w =>
    (w.held.filter (fun h => h.q == q)).map (·.pos)))

/-- FLOOR: the lowest held position, or HEAD (R129). -/
def State.floorOf (s : State) (ctx q : Nat) (x : Queue) : Nat :=
  (s.heldOn ctx q ++ x.lost).foldl Nat.min x.head

/-- A queue is full when TAIL - FLOOR equals its capacity (R129). -/
def State.isFull (s : State) (ctx q : Nat) (x : Queue) : Bool := decide (x.capacity ≤ x.tail - s.floorOf ctx q x)

/-- The device's write of its own records: W permission, kind 3 (log 10). -/
def XReq.devWrite : XReq := { kind := .engine, r := false, w := true, e := false, noSy := false, noUc := false }
def XReq.devRead : XReq := { kind := .read, r := true, w := false, e := false, noSy := false, noUc := false }
/-- Ring accesses: an SY ring is fatal (R289). -/
def XReq.ringWrite (k : Access) : XReq := { kind := k, r := false, w := true, e := false, noSy := true, noUc := false }
def XReq.ringRead : XReq := { kind := .read, r := true, w := false, e := false, noSy := true, noUc := false }

/-! FAULT records (R141, R295). -/

/-- The first identifier of 32 bits from `n` on that no outstanding record has (R295). -/
def freshFault (used : List Nat) (n : Nat) : Nat :=
  (((List.range (used.length + 1)).map (fun k => (n + k) % 2 ^ 32)).find? (fun i => !used.contains i)).getD (n % 2 ^ 32)

/-- Attach to the outstanding record of the page and access kind, or make one (R295); the identifier. Nothing cached that led
to the fault stays (R297). A record has 0 in the fields that `mk` does not fill (R141, log 52). -/
def State.attachFault (s : State) (ctx : Nat) (pf : PageFault) (a : Attached) (mk : FaultRec → FaultRec) : State × Nat :=
  let s := s.forget ctx pf.va
  let c := s.ctx ctx
  match c.faults.find? (fun f => f.pf.va / 4096 == pf.va / 4096 && f.pf.access == pf.access) with
  | some f =>
    let add := fun (x : FaultRec) => { x with attached := addNew x.attached a }
    (s.modCtx ctx (fun c => { c with faults := updIf (fun x => x.id == f.id) add c.faults }), f.id)
  | none =>
    let id := freshFault (c.faults.map (·.id)) c.nextFault
    let f := mk { id := id, pf := pf, core := 0, quad := 0, slot := 0, strand := 255, isOpen := false, voy := 0,
                  crew := 0, batch := 0, attached := [a], posted := false }
    (s.modCtx ctx (fun c => { c with faults := c.faults ++ [f], nextFault := (id + 1) % 2 ^ 32 }), id)

def Access.code : Access → Nat
  | .read => 0 | .write => 1 | .atomic => 2 | .engine => 3 | .walker => 4

def Reason.code : Reason → Nat
  | .notPresent => 1 | .readDenied => 2 | .writeDenied => 3 | .atomicDenied => 4 | .engineDenied => 5
  | .reservedBits => 6 | .policy => 7 | .size => 8 | .unbacked => 9 | .tablePoison => 10

/-- The FAULT record of R141. -/
def FaultRec.bytes (f : FaultRec) : List Byte :=
  recBytes 64 [(0, 8, f.pf.va), (8, 1, f.pf.reason.code), (9, 1, f.pf.access.code), (12, 4, f.id), (16, 2, f.core),
    (18, 1, f.quad), (19, 1, f.slot), (20, 1, f.strand), (21, 1, bit f.isOpen), (24, 4, f.voy), (28, 4, f.crew),
    (32, 4, f.batch)]

/-! Writes of a queue record (R128). -/

/-- How a device write ended. -/
inductive DevRes where
  | done
  | replayable (pf : PageFault)
  | dead (err : Nat)
  deriving DecidableEq, Repr

/-- A device write of bytes inside one page (records and slots never cross one). Poison met by it is reported (R128, R471). -/
def State.devWrite (s : State) (ctx va : Nat) (bs : List Byte) (q : XReq) : State × DevRes :=
  match s.translate ctx va q with
  | .error (.fault x false) => (s, .replayable { va := va, reason := x, access := q.kind, lanes := 0 })
  | .error _ => (s, .dead 1)
  | .ok l =>
    if (List.range bs.length).any (fun i => s.isPoison (l.pa + i)) then (s, .dead 2)
    else ((s.fill ctx va l).writeG none l.pa bs, .done)

/-- A device access that reaches memory must wait for a PINNED chunk (R199). -/
def State.ringBlocked (s : State) (ctx va n : Nat) (q : XReq) : Bool :=
  match s.translate ctx va q with
  | .ok l => s.blockedG none l.pa n
  | .error _ => false

/-- The writes that wait for the record of a configuration of a queue. -/
def RecWrite.of (q conf : Nat) (w : RecWrite) : Bool := w.q == q && w.conf == conf

def State.recWaits (s : State) (ctx q conf : Nat) : List RecWrite := (s.ctx ctx).recPend.filter (RecWrite.of q conf)

/-- Every write to the record of a configuration has ended (R128). Where the queue still has it and is CONFIGURED, OPEN or
CLOSING, it goes to ERROR with ERR 3; the answer says whether it did. -/
def State.recFail (s : State) (ctx q conf : Nat) : State × Bool :=
  let s := s.modCtx ctx (fun c => { c with recPend := c.recPend.filter (fun w => !w.of q conf) })
  match s.queue? ctx q with
  | none => (s, false)
  | some x =>
    if x.conf != conf then (s, false)
    else
      let live := x.st == .configured || x.st == .opened || x.st == .closing
      (s.modQueue ctx q (fun x => { x with recDead := true, st := if live then .error else x.st,
                                           err := if live then 3 else x.err }), live)

/-- A write joins those that wait. -/
def State.recWait (s : State) (ctx : Nat) (w : RecWrite) : State :=
  s.modCtx ctx (fun c => { c with recPend := c.recPend ++ [w] })

/-- The fences of a context in force that what is of a class and begins now must follow (R218, log 41). -/
def State.fencesOn (s : State) (ctx cls : Nat) : List Nat :=
  (s.fences.filter (fun f => f.ctx == ctx && bitAt f.tc.toNat cls && !f.before.isEmpty)).map (·.id)

/-- One of those fences still holds. -/
def State.fenced (s : State) (ids : List Nat) : Bool := s.fences.any (fun f => ids.contains f.id && !f.before.isEmpty)

/-- A write of a record: made, put off behind a PINNED chunk or a fence, or ended; whether the queue went to ERROR by it. -/
def State.recDo (s : State) (ctx : Nat) (w : RecWrite) : State × Bool :=
  if s.fenced w.after || s.ringBlocked ctx w.va w.data.length XReq.devWrite then (s.recWait ctx w, false)
  else match s.devWrite ctx w.va w.data XReq.devWrite with
    | (s, .done) => (s, false)
    | (s, .replayable pf) => (((s.attachFault ctx pf (.queueRec w.q w.conf) id).1).recWait ctx w, false)
    | (s, .dead _) => s.recFail ctx w.q w.conf

/-- One write of the record, in order behind earlier ones that wait (R128, R199); whether the queue went to ERROR by it. -/
def State.recPut (s : State) (ctx q off : Nat) (bs : List Byte) : State × Bool :=
  match s.queue? ctx q with
  | none => (s, false)
  | some x =>
    let w : RecWrite := { q := q, conf := x.conf, va := x.recAddr + off, data := bs, after := s.fencesOn ctx 2 }
    if x.recDead then (s, false)
    else if (s.recWaits ctx q x.conf).isEmpty then s.recDo ctx w
    else (s.recWait ctx w, false)

/-- The writes that wait for a record are made, in order, as far as they can be (R128, R199). -/
def State.flushRec (s : State) (ctx q conf : Nat) : State × Bool :=
  let ws := s.recWaits ctx q conf
  let s := s.modCtx ctx (fun c => { c with recPend := c.recPend.filter (fun w => !w.of q conf) })
  ws.foldl (fun x w =>
    if x.2.2 then x
    else if !(x.1.recWaits ctx q conf).isEmpty then (x.1.recWait ctx w, x.2)
    else match x.1.recDo ctx w with
      | (s, failed) =>
        let dead := match s.queue? ctx q with | some y => y.conf == conf && y.recDead | none => false
        (s, x.2.1 || failed, dead)) (s, false, false) |> (fun x => (x.1, x.2.1))

/-- STATE, ERR, TAIL and HEAD are written at every state change (R128). -/
def State.recState (s : State) (ctx q : Nat) : State × Bool :=
  match s.queue? ctx q with
  | none => (s, false)
  | some x => s.recPut ctx q 11 (bytesOf 1 x.st.code ++ bytesOf 4 x.err ++ bytesOf 8 x.tail ++ bytesOf 8 x.head)

/-- A counter of the record (R128): DROPS at 32, DEFERS at 36, FULLS at 40. A FREE queue has no record. -/
def State.recCount (s : State) (ctx q off v : Nat) : State × Bool :=
  if ((s.queue? ctx q).map (·.st)) == some .free then (s, false) else s.recPut ctx q off (bytesOf 4 v)

/-! EVENT records. -/

/-- A record of type `ty` with its body fields; sequence number, time and OVF are put in later (R138). -/
def eventRec (ty : Nat) (fs : List (Nat × Nat × Nat)) : List Byte := recBytes 64 ((0, 2, ty) :: fs)

/-- The record with its sequence number and time (R138). -/
def stampEvent (b : List Byte) (seq : W32) (ns : Nat) : List Byte :=
  b.take 2 ++ [0, 0] ++ bytesOf 4 seq.toNat ++ bytesOf 8 ns ++ b.drop 16

/-- The record with its OVF bit. -/
def markEvent (b : List Byte) (ovf : Bool) : List Byte := b.take 2 ++ bytesOf 1 (bit ovf) ++ b.drop 3

/-- An event takes the next sequence number and the time when it arises (R138, log 38). -/
def State.numberEvent (s : State) (ctx : Nat) (b : List Byte) : State × List Byte :=
  (s.modCtx ctx (fun c => { c with evSeq := c.evSeq + 1 }), stampEvent b (s.ctx ctx).evSeq s.ns)

/-- Events were dropped: the next one posted carries OVF (R139), or the next one posted once the store has emptied
(R140). -/
def Ctx.noteDrop (c : Ctx) : Ctx := if c.store.isEmpty then { c with evOvf := true } else { c with evOvfNext := true }

/-- DROPS of the EVENT queue counts an event that is dropped (R139). -/
def State.noteDropped (s : State) (ctx : Nat) : State :=
  s.modCtx ctx (fun c => c.noteDrop.modQueue 1 (fun x =>
    if x.st == .free then x else { x with drops := (x.drops + 1) % 2 ^ 32 }))

/-- A numbered event is dropped; DROPS counts it and is written (R139). Where that write sends the EVENT queue to ERROR, its
QUEUE_ERROR event (Table 7.2) is dropped in turn, and its record takes no further write. -/
def State.dropEvent (s : State) (ctx : Nat) : State :=
  let s := s.noteDropped ctx
  match s.recCount ctx 1 32 (((s.queue? ctx 1).map (·.drops)).getD 0) with
  | (s, false) => s
  | (s, true) => ((s.numberEvent ctx []).1).noteDropped ctx

/-- A queue goes to ERROR on a ring access (R471); waiters are served by DEQ_WAKE. -/
def State.ringError (s : State) (ctx q err : Nat) : State :=
  (s.modQueue ctx q (fun x => { x with st := .error, err := err })).recState ctx q |>.1

/-- Post one record to the EVENT or FAULT queue, which is OPEN and has room; false when the queue went to ERROR. -/
def State.postTo (s : State) (ctx q : Nat) (b : List Byte) : State × Bool :=
  match s.queue? ctx q with
  | none => (s, false)
  | some x =>
    match s.devWrite ctx (x.slotVa x.tail) b (XReq.ringWrite .engine) with
    | (s, .done) => (s.modQueue ctx q (fun x => { x with tail := x.tail + 1 }), true)
    | (s, .replayable _) => (s.ringError ctx q 1, false)
    | (s, .dead e) => (s.ringError ctx q e, false)

/-- Whether a record can be posted to a queue now; EVENT records that wait for a PINNED chunk have their places. -/
def State.roomIn (s : State) (ctx q : Nat) : Bool :=
  match s.queue? ctx q with
  | some x => x.st == .opened && decide (x.tail + (if q == 1 then (s.ctx ctx).blocked.length else 0) - x.head < x.capacity)
  | none => false

/-- The next record of a queue would have to wait for a PINNED chunk (R199). -/
def State.postBlocked (s : State) (ctx q : Nat) : Bool :=
  match s.queue? ctx q with
  | some x => s.ringBlocked ctx (x.slotVa x.tail) 64 (XReq.ringWrite .engine)
  | none => false

/-- A record can be posted to a queue now, and no PINNED chunk stands in its way (R199). -/
def State.canPost (s : State) (ctx q : Nat) : Bool := s.roomIn ctx q && !(s.postBlocked ctx q)

/-- Post one numbered EVENT record at once; false when it could not be. An EVENT queue that goes to ERROR by it drops its
own QUEUE_ERROR event (R139, R471). -/
def State.emit (s : State) (ctx : Nat) (b : List Byte) : State × Bool :=
  let b := markEvent b (s.ctx ctx).evOvf
  if !(s.roomIn ctx 1) then (s, false)
  else if !(s.ctx ctx).blocked.isEmpty || s.postBlocked ctx 1 then
    (s.modCtx ctx (fun c => { c with evOvf := false, blocked := c.blocked ++ [b] }), true)
  else match s.postTo ctx 1 b with
    | (s, true) => (s.modCtx ctx (fun c => { c with evOvf := false }), true)
    | (s, false) => (((s.numberEvent ctx []).1).dropEvent ctx, false)

/-- Post an EVENT record that may be dropped (R139, R140). -/
def State.event (s : State) (ctx ty : Nat) (fs : List (Nat × Nat × Nat)) : State :=
  let (s, b) := s.numberEvent ctx (eventRec ty fs)
  if !(s.ctx ctx).store.isEmpty then s.dropEvent ctx
  else match s.emit ctx b with
    | (s, true) => s
    | (s, false) => s.dropEvent ctx

/-- A numbered record that is never dropped: into the queue while there is room and the store is empty, else into the store
(R140). -/
def State.keepEvent (s : State) (ctx : Nat) (b : List Byte) : State :=
  let (s, b) := s.numberEvent ctx b
  let keep := fun (s : State) => s.modCtx ctx (fun c => { c with store := c.store ++ [b] })
  if (s.ctx ctx).store.isEmpty then
    match s.emit ctx b with
    | (s, true) => s
    | (s, false) => keep s
  else keep s

/-- Post records that are never dropped, in order. -/
def State.eventKeep (s : State) (ctx : Nat) (bs : List (List Byte)) : State := bs.foldl (fun s b => s.keepEvent ctx b) s

/-- The oldest kept record has been posted; once the store is empty, what was dropped meanwhile is due to show (R140). -/
def Ctx.storePosted (c : Ctx) : Ctx :=
  let rest := c.store.drop 1
  if rest.isEmpty then { c with store := rest, evOvf := c.evOvf || c.evOvfNext, evOvfNext := false } else { c with store := rest }

/-- QUEUE_ERROR (type 7). -/
def State.queueErrorEvent (s : State) (ctx q : Nat) : State :=
  s.event ctx 7 [(16, 1, q), (17, 1, ((s.queue? ctx q).map (·.err)).getD 0)]

/-- A queue goes to ERROR by a ring access, with its event (Table 7.2). -/
def State.queueError (s : State) (ctx q err : Nat) : State := (s.ringError ctx q err).queueErrorEvent ctx q

/-- The event that follows a record write that failed. -/
def recThen (ctx q : Nat) (r : State × Bool) : State :=
  if r.2 then r.1.queueErrorEvent ctx q else r.1

/-- A queue changes state and its record is written. -/
def State.setQueueSt (s : State) (ctx q : Nat) (f : Queue → Queue) : State :=
  let s := s.modQueue ctx q f
  recThen ctx q (s.recState ctx q)

/-- A counter of a queue goes up by one and is written (R128). -/
def State.countQueue (s : State) (ctx q off : Nat) (get : Queue → Nat) (put : Queue → Nat → Queue) : State :=
  let s := s.modQueue ctx q (fun x => put x ((get x + 1) % 2 ^ 32))
  recThen ctx q (s.recCount ctx q off (((s.queue? ctx q).map get).getD 0))

def State.countDrop (s : State) (ctx q : Nat) : State := s.countQueue ctx q 32 (·.drops) (fun x n => { x with drops := n })
def State.countDefer (s : State) (ctx q : Nat) : State := s.countQueue ctx q 36 (·.defers) (fun x n => { x with defers := n })
def State.countFull (s : State) (ctx q : Nat) : State := s.countQueue ctx q 40 (·.fulls) (fun x n => { x with fulls := n })

/-- The first record that waited for a PINNED chunk is posted; where its ring write fails, the queue goes to ERROR, and what
waits with it is dropped (R139, R471). -/
def State.postWaiting (s : State) (ctx : Nat) : State :=
  match (s.ctx ctx).blocked with
  | [] => s
  | b :: rest =>
    let isOpen := ((s.queue? ctx 1).map (·.st)) == some .opened
    if isOpen && s.postBlocked ctx 1 then s
    else if !isOpen then (b :: rest).foldl (fun s _ => s.dropEvent ctx) (s.modCtx ctx (fun c => { c with blocked := [] }))
    else match s.postTo ctx 1 b with
      | (s, true) => s.modCtx ctx (fun c => { c with blocked := rest })
      | (s, false) =>
        let s := s.modCtx ctx (fun c => { c with blocked := [] })
        (b :: rest).foldl (fun s _ => s.dropEvent ctx) (((s.numberEvent ctx []).1).dropEvent ctx)

/-- Record writes that wait, but for those that an outstanding fault record holds. -/
def State.recDue (s : State) (ctx : Nat) : List RecWrite :=
  (s.ctx ctx).recPend.filter (fun w => !((s.ctx ctx).faults.any (fun f => f.attached.contains (.queueRec w.q w.conf))))

/-- What a context's queues had to leave to a PINNED chunk or a fence is made as far as it can be: record writes, and the
first record that waits (R199, R218). -/
def State.unblock (s : State) (ctx : Nat) : State :=
  let ws := ((s.recDue ctx).map (fun w => (w.q, w.conf))).eraseDups
  (ws.foldl (fun s k => recThen ctx k.1 (s.flushRec ctx k.1 k.2)) s).postWaiting ctx

/-- The first write that waits for each record. -/
def State.recHeads (s : State) (ctx : Nat) : List RecWrite :=
  (((s.recDue ctx).map (fun w => (w.q, w.conf))).eraseDups).filterMap (fun k => (s.recWaits ctx k.1 k.2).head?)

/-- Something of a context that waited can be made now. -/
def State.unblockDue (s : State) (ctx : Nat) : Bool :=
  (s.recHeads ctx).any (fun w => !(s.fenced w.after) && !(s.ringBlocked ctx w.va w.data.length XReq.devWrite)) ||
    (!(s.ctx ctx).blocked.isEmpty && !(s.postBlocked ctx 1))

/-! The logbook (R429). -/

/-- The sequence number in front of an entry's other bytes. -/
def logEntry (seq code kind status tag func : Nat) (result : List (Nat × Nat × Nat)) : List Byte :=
  recBytes 64 ([(0, 8, seq), (8, 2, code), (10, 1, kind), (11, 1, status), (12, 4, tag), (16, 2, func)] ++ result)

/-- An entry in the logbook of a function: kind 0 accepted, 1 rejected, 2 completed, 3 device action. -/
def State.logTo (s : State) (func code kind status tag : Nat) (result : List (Nat × Nat × Nat)) : State :=
  { s with funcs := modAt s.funcs func (fun f =>
      { f with logseq := f.logseq + 1,
               log := (logEntry f.logseq.toNat code kind status tag func result :: f.log).take 65536 }) }

end Sys2Proof.Machine
end

