-- ==== Sys2Proof/Machine/Ops.lean ====
section
/-!
DEFINITION. The named operations over a strand: fetching a word, opening and ending its chunk, issuing an instruction,
retiring it, taking a trap (R89 to R93, R202) and returning from one (R97, R98).
-/

namespace Sys2Proof.Machine

open Sys2Proof

abbrev Out := Host.Outcome State Fault Refusal

/-! Table 5.2: the codes of the causes. -/

def Cause.code : Cause → Nat
  | .illegalInstr => 0x01 | .illegalReg => 0x02 | .illegalPair => 0x03 | .illegalOperand => 0x04 | .format => 0x05
  | .regPoison => 0x06 | .memPoison => 0x07 | .pageFatal => 0x08 | .perm => 0x09 | .addr => 0x0A | .misalign => 0x0B
  | .attrConflict => 0x0C | .matrixPartialOctet => 0x0D | .matrixResidue => 0x0E | .cursorDesc => 0x0F
  | .cursorKind => 0x10 | .appendHeap => 0x11 | .batchBad => 0x12 | .barrierBad => 0x13 | .queueBad => 0x14
  | .syncOverflow => 0x15 | .spillFormat => 0x16 | .widthBad => 0x17 | .priv => 0x18 | .watchdog => 0x19
  | .software n => 0x20 + n % 32

def Cause.isSoftware : Cause → Bool
  | .software _ => true
  | _ => false

/-- The fatal form of a fault reason (Table 15.5): cause and TEXTRA. -/
def Reason.fatalForm : Reason → Cause × Nat
  | .readDenied => (.perm, 0)
  | .writeDenied => (.perm, 1)
  | .atomicDenied => (.perm, 2)
  | .engineDenied => (.perm, 3)
  | r => (.pageFatal, r.code)

/-- What a core access does whose translation fails (R292 to R294). -/
def XErr.stop (e : XErr) (va : Nat) (k : Access) : Stop :=
  match e with
  | .fault r true => .trap r.fatalForm.1 va r.fatalForm.2 none
  | .fault r false => .park { va := va, reason := r, access := k, lanes := 0 }
  | .attr entry => .trap .attrConflict va entry.toNat none
  | .gone => .trap .memPoison va 0 none

/-! Instruction fetch (R56, R294). -/

/-- The instruction word or header at an address; every fault is fatal. Of the values that R56 lets a fetched word hold, this is
the one that memory holds now: the model's choice (log 61). -/
def State.fetchWord (s : State) (ctx : Nat) (a : W64) : Except Stop W64 :=
  let va := a.toNat
  if field va 63 57 != 0 then .error (.trap .addr va 0 none)
  else match s.translate ctx va XReq.load with
    | .error (.fault r _) => .error (.trap r.fatalForm.1 va r.fatalForm.2 none)
    | .error (.attr entry) => .error (.trap .attrConflict va entry.toNat none)
    | .error .gone => .error (.trap .memPoison va 0 none)
    | .ok l =>
      if s.isPoison l.pa then .error (.trap .memPoison va 0 none)
      else .ok (BitVec.ofNat 64 (s.rdNat l.pa 8))

/-- The word at an address, or zero where it cannot be fetched (for TEXTRA). -/
def State.peekWord (s : State) (ctx : Nat) (a : W64) : W64 := ((s.fetchWord ctx a).toOption).getD 0

/-- The address holds a clause header (R55). -/
def State.headerAt (s : State) (ctx : Nat) (a : W64) : Bool :=
  a.toNat % 8 == 0 && (match s.fetchWord ctx a with | .ok w => isHeader w | .error _ => false)

/-! The open chunk. -/

/-- The chunk used the translation of a page (R299). -/
def Cur.usePage (c : Cur) (va : Nat) : Cur := c.mapChunk (fun ch => { ch with pages := addNew ch.pages (va / 4096) })

/-- A chunk as it opens: CHLIM is sampled (R190) and the strand state is kept (R196). -/
def Chunk.opening (ch : Chunk) (k : StrandCore) : Chunk := { ch with st := .opened, count := 0, chlim := k.chlim, snap := some k }

/-- The chunk that the strand's next word belongs to, with the pages of that word and of its clause header (R187, R299): the
open one, or a new one, behind those that have ended and are not yet placed (R188). -/
def Cur.openChunk (c : Cur) : Cur :=
  (match c.t.chunk.st with
    | .idle => c.mapChunk (fun ch => ch.opening c.t.core)
    | .ended | .ordering =>
      c.mapT (fun t => { t with earlier := t.earlier ++ [t.chunk], chunk := Chunk.none.opening t.core })
    | _ => c).usePage c.t.core.pc.toNat |>.usePage c.t.core.hdr.toNat

/-- The chunk ends (R189). -/
def Cur.endChunk (c : Cur) : Cur := c.mapChunk (fun ch => { ch with st := .ended })

/-- The chunk takes no further word: CHLIM (R190), or the replay for a trap has reached its end (R202). -/
def Strand.atLimit (t : Strand) : Bool :=
  t.chunk.st == .opened &&
    (decide (t.chunk.chlim ≤ t.chunk.count) || t.chunk.limit == some (t.chunk.count, t.core.pc))

/-- The strand was made by a DBR whose chunk has not committed (R155). -/
def Warp.unborn (w : Warp) (k : Nat) : Bool :=
  w.strands.any (fun x => match x with | some t => t.unplaced.any (fun ch => ch.childIdx == some k) | none => false)

/-- The strand has no chunk that is not placed. -/
def Strand.clear (t : Strand) : Bool := t.chunk.st == .idle && t.earlier.isEmpty

/-- The strand's next word has a chunk to belong to: the open one, or a new one. Chunks that have ended may wait to be placed
meanwhile (R188), but for a PINNED one (R199). -/
def Strand.hasChunk (t : Strand) : Bool :=
  match t.chunk.st with
  | .idle | .opened => !t.chunk.pinned || t.earlier.isEmpty
  | .ended | .ordering => t.pends.isEmpty && !t.chunk.pinned
  | .pinWait => false

/-- A context whose crews may run. -/
def CtxSt.runs : CtxSt → Bool
  | .active | .lost => true
  | _ => false

/-- A crew that has not halted. -/
def Crew.live (c : Crew) : Bool :=
  match c.run with
  | .placed | .draining | .halting _ => true
  | _ => false

/-- A PINNED chunk that has lost to one that still holds its slot waits for it, so that it loses to each at most once (R200,
log 63). -/
def State.outPinned (s : State) (ch : Chunk) : Bool :=
  ch.pinned && ch.lostTo.any (fun g => s.pins.any (fun p => p.holder.isSome && p.grant == g))

/-- The strand may issue a word: its clause header when it is to enter or re-enter a clause, else an instruction. -/
def State.mayIssue (s : State) (c : Cur) (header : Bool) : Bool :=
  (s.ctx c.ctx).st.runs && c.crew.live && !(s.outPinned c.t.chunk) &&
    (match c.t.wait with | .none | .tile _ | .restored _ => true | _ => false) &&
    c.t.hasChunk && !(c.t.atLimit) && (c.t.core.inClause != header) &&
    !(c.warp.unborn c.ref.strand)

/-! Program counter. -/

/-- Go on at a clause header. -/
def Cur.goto (c : Cur) (a : W64) : Cur := c.mapCore (fun x => { x with pc := a, hdr := a, inClause := false })

/-- The base of R55: the header behind the clause. -/
def Cur.base (c : Cur) : W64 := clauseEnd c.t.core.hdr c.t.core.hword

/-- Go on behind `n` instruction words (R53). -/
def Cur.advance (c : Cur) (n : Nat) : Cur :=
  let a := c.t.core.pc + BitVec.ofNat 64 (8 * n)
  if a == c.base then c.goto a else c.mapCore (fun x => { x with pc := a })

/-! Traps. -/

/-- A context fault (Table 5.1): the context is FAULTED and its voyages are over (Table 6.3), its crews are to halt and their
chunks are squashed. -/
def State.faultContext (s : State) (r : StrandRef) (c1 c2 : Nat) (t1 t2 : W64) : State :=
  let ctx := r.w.crew.ctx
  let mine := s.refs.filter (fun x => x.w.crew.ctx == ctx)
  let s := mine.foldl (fun s x => s.squashAll x .halt) s
  let s := { s with crews := updIf (fun c => c.ref.ctx == ctx && c.onQuad) (fun c => { c with run := .halting false }) s.crews }
  let s := s.modCtx ctx (fun c => { c with st := .faulted, voyages := [] })
  s.eventKeep ctx [eventRec 4 [(16, 4, r.w.crew.voy), (20, 4, r.w.crew.crew), (24, 1, r.w.warp), (25, 1, r.strand),
    (26, 1, c1), (27, 1, c2), (32, 8, t1.toNat), (40, 8, t2.toNat)]]

/-- The handler can run: its address holds a clause header that passes R58 (R99). -/
def State.handlerOk (s : State) (ctx : Nat) (a : W64) : Bool :=
  a.toNat % 8 == 0 && (match s.fetchWord ctx a with | .ok w => headerOk w | .error _ => false)

/-- The trap registers after an entry (R91). -/
def TrapInfo.regs (ti : TrapInfo) (tpc hdr : W64) : TrapRegs :=
  { cause := BitVec.ofNat 8 ti.cause.code, recCause := BitVec.ofNat 8 ti.cause.code, tpc := tpc, addr := BitVec.ofNat 64 ti.addr,
    lanes := ti.lanes, extra := BitVec.ofNat 64 ti.extra, h := true, skip := ti.cause.isSoftware, recorded := tpc, recHdr := hdr }

/-- The trap that poisoned scalar, predicate, cursor or special state leads to (R109). -/
def TrapInfo.ofPoison (ti : TrapInfo) : Bool := ti.cause == .regPoison && ti.extra == 0x3FF

/-- Taking a trap (R91): the trap registers are saved and the strand goes on at the launch record's handler. A nested trap,
or one whose handler cannot run, makes the context FAULTED (R93, R99). `tpc` is the address of the trapping word. -/
def State.enterTrap (s : State) (r : StrandRef) (ti : TrapInfo) (tpc : W64) : State :=
  match s.curOf r with
  | none => s
  | some c =>
    let h := c.crew.launch.handler
    if c.t.core.trap.h then
      s.faultContext r c.t.core.trap.recCause.toNat ti.cause.code c.t.core.trap.recorded tpc
    else if !(s.handlerOk c.ctx h) then s.faultContext r ti.cause.code 0x01 tpc h
    else
      (s.modStrand r (fun t =>
        { t with core := { t.core with trap := ti.regs tpc t.core.hdr, pc := h, hdr := h, inClause := false },
                 chunk := Chunk.none, wait := .none, pinCount := 0, trapReplay := false, residue := none,
                 poisoned := t.poisoned && !ti.ofPoison, failed := none })).dropPin r

/-- The squash that a trap or a fault makes of a chunk with no instruction in it counts in SQCNT, unless the replay for it
has been counted (R198, R202). -/
def State.countTrapSquash (s : State) (r : StrandRef) : State :=
  s.modStrand r (fun t => if t.trapReplay then t else { t with sqcnt := t.sqcnt + 1 })

/-- Chunks of the strand that ended before the word are still to be placed: what it meets there waits for them (R202). -/
def Strand.behindOthers (t : Strand) : Bool := !t.earlier.isEmpty || t.chunk.st == .ended || t.chunk.st == .ordering

/-- A trap condition met at the strand's next word (R202): what precedes it in the chunk is replayed and committed first. -/
def State.trapAt (s : State) (c : Cur) (ti : TrapInfo) (tpc : W64) : State :=
  if c.t.chunk.st == .opened && decide (0 < c.t.chunk.count) then s.squash c.ref (.trap c.t.chunk.count c.t.core.pc)
  else if !c.t.pends.isEmpty then s.modStrand c.ref (fun t => { t with wait := .flags })
  else if c.t.behindOthers then s
  else (s.countTrapSquash c.ref).enterTrap c.ref ti tpc

/-- A replayable fault met there (R203). -/
def State.parkAt (s : State) (c : Cur) (pf : PageFault) : State :=
  if c.t.chunk.st == .opened && decide (0 < c.t.chunk.count) then s.squash c.ref (.trap c.t.chunk.count c.t.core.pc)
  else if c.t.behindOthers then s
  else (s.countTrapSquash c.ref).modStrand c.ref (fun t => { t with wait := .faulting pf, pinCount := 0 })

/-- The open chunk ends before the next word (R189). -/
def State.endBefore (s : State) (c : Cur) : State :=
  s.modStrand c.ref (fun t => if t.chunk.st == .opened then { t with chunk := { t.chunk with st := .ended } } else t)

/-- Causes of a translation that failed: nothing cached that led there stays (R297). -/
def Cause.ofPage : Cause → Bool
  | .pageFatal | .perm | .attrConflict => true
  | _ => false

/-- What a stop does to the strand; `lanes` are its enabled lanes, `tpc` the address of the word. -/
def State.stop (s : State) (c : Cur) (lanes : Mask) (tpc : W64) : Stop → State
  | .trap cause addr extra l =>
    (if cause.ofPage then s.forget c.ctx addr else s).trapAt c
      { cause := cause, addr := addr, extra := extra, lanes := l.getD lanes } tpc
  | .word cause addr =>
    s.trapAt c { cause := cause, addr := addr, extra := (s.peekWord c.ctx tpc).toNat, lanes := lanes } tpc
  | .park pf => s.parkAt c (if pf.lanes == 0 then { pf with lanes := lanes } else pf)
  | .endBefore => s.endBefore c
  | .flags => s.modStrand c.ref (fun t => { t with wait := .flags })
  | .uncached => s
  | .tileWait n => (s.endBefore c).modStrand c.ref (fun t => { t with wait := .tile n })

/-! Issue. -/

/-- An instruction of the stream: how it advances, its flag field, the lanes it is enabled in, and its effect. -/
structure Form where
  /-- Words it takes; 0 for a control transfer, which sets the program counter itself. -/
  words : Nat
  cf    : Cf
  lanes : Cur → Mask

/-- The fatal form of a fault that was answered FAIL (R296). -/
def Cur.failStop (c : Cur) : Stop :=
  match c.t.failed with
  | some pf => .trap pf.reason.fatalForm.1 pf.va pf.reason.fatalForm.2 (some pf.lanes)
  | none => .endBefore

/-- The tile of a second residue mismatch whose trap is due here (R354). -/
def Strand.residueDue (t : Strand) : Option Nat :=
  match t.residue with
  | some (tile, a) =>
    if a == t.core.pc && (t.chunk.limit.isNone || t.chunk.st == .ended || t.chunk.st == .ordering) then some tile else none
  | none => none

/-- The checks of R54 and R60 that depend on the clause: ILLEGAL_INSTR. -/
def Cur.slotOk (c : Cur) (fm : Form) : Except Stop Unit :=
  if fm.words == 0 && !(c.t.core.isLast) then .error (.word .illegalInstr 0)
  else if fm.cf != .none && hdrFlag c.t.core.hword fm.cf == none then .error (.word .illegalInstr 0)
  else .ok ()

/-- What the strand meets whatever the instruction (R109, R296, R354), after every check of the word and of the pair that it
begins (R64, R71). -/
def Cur.strandOk (c : Cur) (fm : Form) : Except Stop Unit :=
  if c.t.core.beginsPair && fm.words != 2 then .error (.word .illegalPair 0)
  else if c.t.poisoned then .error (.trap .regPoison 0 0x3FF none)
  else if c.t.residueDue.isSome then .error (.trap .matrixResidue 0 (c.t.residueDue.getD 0) none)
  else if c.t.failed.isSome then .error c.failStop
  else .ok ()

/-- ILLEGAL_INSTR or ILLEGAL_REG, which come before every other cause (R71). -/
def Stop.ofWord : Stop → Bool
  | .word .illegalInstr _ | .word .illegalReg _ => true
  | _ => false

/-- The first cause of R71 that an instruction meets whose own outcome is `y`: the clause's, its own ILLEGAL_INSTR or
ILLEGAL_REG, the strand's; its further checks follow. -/
def Cur.firstCause {α : Type} (c : Cur) (fm : Form) (y : Except Stop α) : Except Stop Unit :=
  match c.slotOk fm with
  | .error e => .error e
  | .ok _ =>
    match y with
    | .error e => if e.ofWord then .error e else c.strandOk fm
    | .ok _ => c.strandOk fm

/-- The flag that the instruction sets, with the values of the registers it writes from before (R61, R62). -/
def Cur.pend (c : Cur) (cf : Cf) (log : List OldVal) : Cur :=
  match hdrFlag c.t.core.hword cf with
  | some f => c.mapT (fun t => { t with pends := t.pends ++ [{ flag := f, old := log }] })
  | none => c

/-- The strand stays at an instruction whose outcome follows its chunk's commit (R170, R174). -/
def Wait.stays : Wait → Bool
  | .wsplit _ _ _ | .wfuseEnd _ _ _ => true
  | _ => false

/-- The words whose last use the instruction's hint announces (Table 14.3). -/
def Cur.lastWords (c : Cur) : List Nat := (c.acc.filter (fun a => a.hint == 7)).flatMap (·.words)

/-- The instruction has taken effect: the chunk counts it and keeps the shadows (R190, R196). -/
def Cur.retire (c : Cur) (fm : Form) : Cur :=
  let c := c.pend fm.cf c.log
  let c := c.mapChunk (fun ch => { ch with count := ch.count + Nat.max 1 fm.words, shadow := mergeShadow ch.shadow c.log,
                                           lastUse := addAll ch.lastUse c.lastWords })
  let c := c.mapT (fun t => { t with trapReplay := t.trapReplay && t.chunk.limit.isSome, failed := none,
                                     wait := (match t.wait with | .tile _ | .restored _ => .none | x => x) })
  if fm.words == 0 || c.t.wait.stays then c else c.advance fm.words

/-- What the chunk holds with the instruction in it, beyond the guarantee of R191. -/
def Cur.beyond (c : Cur) : Bool :=
  let ch := c.t.chunk
  decide (32 < ch.count + 1) || decide (16 < ((ch.gws.map (· / 32)).eraseDups ++ (ch.cws.map (· / 32)).eraseDups).length)

/-- Distinct tiles that the chunk has written (R197). -/
def Cur.tilesWritten (c : Cur) : Nat :=
  ((mergeShadow c.t.chunk.shadow c.log).filter (fun o => match o with | .tile _ _ => true | _ => false)).length

/-- The open chunk cannot take the instruction as well (R191): the ninth tile, or what the implementation cannot hold. -/
def Cur.exceeds (c c' : Cur) : Bool :=
  c.t.chunk.st == .opened && (decide (8 < c'.tilesWritten) || (c'.beyond && Config.capacityEnd c.free))

/-- The instruction's effect with the checks of its slot (R54, R60, R64), or why it does not take effect. -/
def State.attempt (s : State) (c : Cur) (fm : Form) (f : State → Cur → Except Stop (State × Cur)) :
    Except Stop (State × Cur) := do
  c.firstCause fm (f s c.openChunk)
  let (s', c') ← f s c.openChunk
  if c'.writesPending then .error .flags
  else if c.exceeds c' then .error .endBefore
  else .ok (s', c')

/-- The package behind an instruction that took effect in its chunk: `s'` with the strand written back, and what its accesses
asked of the caches (R280, R281). -/
def State.after (s s' : State) (c' : Cur) (fm : Form) : State :=
  { s'.putCur (c'.retire fm) with free := s.free + 1, caches := s'.caches.note c'.crew.core c'.acc }

/-- Perform an instruction for a strand that may issue it. -/
def State.perform (s : State) (c : Cur) (fm : Form) (f : State → Cur → Except Stop (State × Cur)) : State :=
  match s.attempt c fm f with
  | .error st => s.stop c (fm.lanes c) c.t.core.pc st
  | .ok (s', c') => s.after s' c' fm

/-- Issue an instruction for the strand in focus. -/
def State.issue (s : State) (fm : Form) (f : State → Cur → Except Stop (State × Cur)) : Out :=
  match s.cur? with
  | none => .fault .noStrand
  | some c => if s.mayIssue c false then .next (s.perform c fm f) else .fault .notReady

/-- An instruction that acts once for the strand. -/
def Form.strand : Form := { words := 1, cf := .none, lanes := Cur.em }
def Form.strandCf (cf : Cf) : Form := { words := 1, cf := cf, lanes := Cur.em }
/-- An instruction of the lanes enabled under R66. Where a trap concerns the strand, TLANES holds those lanes: helper lanes are
not among them (Table 5.2, log 62). -/
def Form.lanesOf (g : Guard) (cf : Cf) : Form := { words := 1, cf := cf, lanes := fun c => c.enabled g }
/-- A control transfer (R54). -/
def Form.control : Form := { words := 0, cf := .none, lanes := Cur.em }

/-- An effect on the strand alone. -/
def State.issueC (s : State) (fm : Form) (f : Cur → Except Stop Cur) : Out :=
  s.issue fm (fun s c => (f c).map (fun c => (s, c)))

/-! Singletons (R192). -/

/-- How a singleton instruction's event went. -/
inductive SRes where
  /-- It was performed: the state, and the strand with what it wrote. -/
  | done (s : State) (c : Cur)
  /-- The strand parks. -/
  | park (s : State) (w : Wait)
  /-- A part of it was performed, and the rest is due (R400). -/
  | more (s : State) (w : Wait)
  /-- A trap condition or a replayable fault. -/
  | stop (st : Stop)
  /-- It must wait for a PINNED chunk (R199). -/
  | blocked
  deriving DecidableEq, Repr

/-- The event of a singleton instruction for a strand outside any chunk; the strand goes on behind the instruction. -/
def State.event1 (s : State) (c : Cur) (fm : Form) (f : State → Cur → SRes) : State :=
  match f s c with
  | .blocked => s
  | .stop st => s.stop c (fm.lanes c) c.t.core.pc st
  | .more s' w => { s'.modStrand c.ref (fun t => { t with wait := w, chunk := Chunk.none }) with free := s.free + 1 }
  | .park s' w =>
    if c.t.pends.isEmpty then (s'.modStrand c.ref (fun t => { t with wait := w, chunk := Chunk.none })).dropPin c.ref
    else s.stop c (fm.lanes c) c.t.core.pc .flags
  | .done s' c' =>
    if c'.writesPending then s.stop c (fm.lanes c) c.t.core.pc .flags
    else
      let c' := c'.pend fm.cf c'.log
      let c' := if fm.words == 0 then c' else c'.advance fm.words
      let c' := c'.mapT (fun t => { t with trapReplay := false, failed := none, wait := .none, chunk := Chunk.none, pinCount := 0 })
      { (s'.putCur c').dropPin c.ref with free := s.free + 1 }

/-- Perform a singleton instruction: its checks; then the open chunk ends and the event waits for its commit, or the event. -/
def State.performSing (s : State) (c : Cur) (fm : Form) (chk : State → Cur → Except Stop Unit) (op : SingOp)
    (f : State → Cur → SRes) : State :=
  let lanes := fm.lanes c
  match c.firstCause fm (chk s c) with
  | .error st => s.stop c lanes c.t.core.pc st
  | .ok _ =>
    match chk s c with
    | .error st => s.stop c lanes c.t.core.pc st
    | .ok _ =>
      if c.t.clear then s.event1 c fm f
      else (s.endBefore c).modStrand c.ref (fun t => { t with wait := .sing op })

/-- Perform a memory access: in the chunk, or as a singleton where it reaches a page that is not WB (R267). -/
def State.performMem (s : State) (c : Cur) (fm : Form) (f : State → Cur → Except Stop (State × Cur)) (op : SingOp)
    (ev : State → Cur → SRes) : State :=
  match s.attempt c fm f with
  | .error .uncached => s.performSing c fm (fun _ _ => .ok ()) op ev
  | .error st => s.stop c (fm.lanes c) c.t.core.pc st
  | .ok (s', c') => s.after s' c' fm

/-- Issue a memory access for the strand in focus. -/
def State.issueMem (s : State) (fm : Form) (f : State → Cur → Except Stop (State × Cur)) (op : SingOp)
    (ev : State → Cur → SRes) : Out :=
  match s.cur? with
  | none => .fault .noStrand
  | some c => if s.mayIssue c false then .next (s.performMem c fm f op ev) else .fault .notReady

/-- Issue a singleton instruction for the strand in focus. -/
def State.issueSing (s : State) (fm : Form) (chk : State → Cur → Except Stop Unit) (op : SingOp)
    (f : State → Cur → SRes) : Out :=
  match s.cur? with
  | none => .fault .noStrand
  | some c => if s.mayIssue c false then .next (s.performSing c fm chk op f) else .fault .notReady

/-! Return from a trap. -/

/-- next(TPC): the word behind an instruction or behind the pair it begins (R97). -/
def nextTpc (tpc hdr hword : W64) : W64 :=
  let i := ((tpc - hdr).toNat / 8) - 1
  if tpc != hdr && hdrPair hword i then tpc + 16 else tpc + 8

/-- Where RFT resumes, with the header address that governs it (R98); none is ILLEGAL_INSTR. -/
def State.resumeAt (s : State) (ctx : Nat) (x : TrapRegs) : Option (W64 × W64) :=
  if x.tpc == x.recorded then
    if x.skip then
      let hw := s.peekWord ctx x.recHdr
      let a := nextTpc x.tpc x.recHdr hw
      some (a, if a == clauseEnd x.recHdr hw then a else x.recHdr)
    else some (x.tpc, x.recHdr)
  else if !(x.skip) && s.headerAt ctx x.tpc then some (x.tpc, x.tpc)
  else none

/-- RFT (R97): TSTATUS.H and SKIP are cleared and the strand resumes; the clause header is applied again. -/
def returnTrap (s : State) (c : Cur) : Except Stop Cur :=
  let x := c.t.core.trap
  if !x.h then .error (.word .priv 0)
  else match s.resumeAt c.ctx x with
    | none => .error (.word .illegalInstr 0)
    | some (a, h) =>
      .ok (c.mapCore (fun k =>
        { k with trap := { x with h := false, skip := false }, pc := a, hdr := h, inClause := false })).endChunk

end Sys2Proof.Machine
end

