-- ==== Sys2Proof/Machine/Access.lean ====
section
/-!
DEFINITION. Access (14): addresses and their checks (R263 to R267), reads and writes of the open chunk (R209, R271), loads,
stores, PREF and DISCARD.
-/

namespace Sys2Proof.Machine

open Sys2Proof

/-! What a chunk sees of memory. -/

/-- Bytes written by the chunk that make up a whole granule lift its poison for the chunk (R110). -/
def wholeGranule (w : List Host.Cell) (pa : Nat) : Bool :=
  (List.range 32).all (fun i => w.any (fun x => x.1 == pa / 32 * 32 + i))

/-- The strand's chunks that are not placed, the newest first. -/
def Cur.newest (c : Cur) : List Chunk := c.t.chunk :: c.t.earlier.reverse

/-- A global byte as a chunk reads it behind older ones, the newest first (R209, R221). -/
def State.chunkByte (s : State) (pa : Nat) : List Chunk → Byte
  | [] => s.rdByte pa
  | ch :: older =>
    match ch.gw.find? (fun x => x.1 == pa) with
    | some x => x.2
    | none =>
      if ch.disc.contains (pa / 4) && Config.discardZero s.free (pa / 4) then 0 else s.chunkByte pa older

/-- A global byte as the strand reads it. -/
def Cur.gByte (s : State) (c : Cur) (pa : Nat) : Byte := s.chunkByte pa c.newest

/-- A byte of crew memory as the strand reads it. -/
def Cur.cByte (c : Cur) (off : Nat) : Byte := overlayGet (c.newest.flatMap (·.cw)) c.crew.mem off

def Cur.gBytes (s : State) (c : Cur) (pa n : Nat) : List Byte := (List.range n).map (fun i => c.gByte s (pa + i))
def Cur.cBytes (c : Cur) (off n : Nat) : List Byte := (List.range n).map (fun i => c.cByte (off + i))
def Cur.gNat (s : State) (c : Cur) (pa n : Nat) : Nat := ofBytes (c.gBytes s pa n)
def Cur.cNat (c : Cur) (off n : Nat) : Nat := ofBytes (c.cBytes off n)

/-- Poison that a read of a global byte meets (R109), that of a granule held in error among it (R201). -/
def Cur.gPoison (s : State) (c : Cur) (pa : Nat) : Bool :=
  (s.isPoison pa && !(s.backed pa && c.newest.any (fun ch => wholeGranule ch.gw pa))) ||
    c.newest.any (fun ch => ch.badG.contains (pa / 32))

/-- Poison that a read of a byte of crew memory meets. -/
def Cur.cPoison (c : Cur) (off : Nat) : Bool :=
  (c.crew.poison.contains (off / 32) && !(c.newest.any (fun ch => wholeGranule ch.cw off))) ||
    c.newest.any (fun ch => ch.badC.contains (off / 32))

/-- The instruction accesses words, with no hint so far. -/
def Cur.noteAcc (c : Cur) (write : Bool) (ws : List Nat) : Cur := { c with acc := c.acc ++ [{ write := write, words := ws, hint := 0 }] }

/-- The hint of the instruction goes with its accesses (R274). -/
def Cur.hinted (c : Cur) (h : Nat) : Cur := { c with acc := c.acc.map (fun a => { a with hint := h }) }

/-- Words read enter the read signature (Table 10.3). -/
def Cur.readG (c : Cur) (pa n : Nat) : Cur :=
  (c.mapChunk (fun ch => { ch with grs := addAll ch.grs (wordsOf pa n) })).noteAcc false (wordsOf pa n)
def Cur.readC (c : Cur) (off n : Nat) : Cur := c.mapChunk (fun ch => { ch with crs := addAll ch.crs (wordsOf off n) })

/-- A word that the chunk has discarded and now writes takes the value that reads of it return first (log 9). -/
def Cur.settleG (s : State) (c : Cur) (w : Nat) : Cur :=
  if c.t.chunk.disc.contains w then
    let bs := c.gBytes s (4 * w) 4
    c.mapChunk (fun ch => { ch with gw := cellsAt (4 * w) bs ++ ch.gw, disc := ch.disc.filter (· != w) })
  else c

/-- A store to global memory, held until the commit (Table 10.4), with its words in the write signature. -/
def Cur.writeG (s : State) (c : Cur) (pa : Nat) (bs : List Byte) : Cur :=
  let ws := wordsOf pa bs.length
  let c := ws.foldl (fun c w => c.settleG s w) c
  (c.mapChunk (fun ch => { ch with gw := cellsAt pa bs ++ ch.gw, gws := addAll ch.gws ws })).noteAcc true ws

/-- A store to crew memory. -/
def Cur.writeC (c : Cur) (off : Nat) (bs : List Byte) : Cur :=
  c.mapChunk (fun ch => { ch with cw := cellsAt off bs ++ ch.cw, cws := addAll ch.cws (wordsOf off bs.length) })


/-! Addresses (R263 to R266). -/

/-- The registers of a lane load or store (R67): its data registers, and its vaddr. -/
def Cur.memRegs (c : Cur) (o : MemOps) : Except Stop (List VReg) := do
  let ds ← c.run o.d o.w.regs
  c.needRegs o.va.toList
  .ok ds

/-- X(l): the vaddr register read as its tag says. -/
def Cur.xoff (c : Cur) (va : Option VReg) : Except Stop (Nat → Int) :=
  match va with
  | none => .ok (fun _ => 0)
  | some r => do
    let x ← c.need r (fun t => t == .i32 || t == .u32 || t == .raw) 31
    .ok (fun l => if x.tag == .i32 then (x.lane l).toInt else ((x.lane l).toNat : Int))

/-- EA: base + X + off * esize modulo 2^64. -/
def Cur.ea (c : Cur) (base : SReg) (x : Int) (off : BitVec 12) (esize : Nat) : Nat :=
  wrapNat 64 ((c.sr base).toNat + x + off.toInt * esize)

/-- The SY frames of a context (R394). -/
def Ctx.inOvf (x : Ctx) (pa : Nat) : Bool := decide (x.ovf ≤ pa ∧ pa < x.ovf + 4096 * x.ovfn)

/-- ADDR and MISALIGN of a global address (R264, R266). -/
def gAddrOk (ea esize : Nat) : Except Stop Unit :=
  if field ea 63 57 != 0 then .error (.trap .addr ea 0 none)
  else if ea % esize != 0 then .error (.trap .misalign ea esize none)
  else .ok ()

/-- The translation of a core access, with SYNC_OVERFLOW (R394) for an SY page. -/
def State.coreXlate (s : State) (ctx va : Nat) (q : XReq) : Except Stop Leaf :=
  match s.translate ctx va q with
  | .error e => .error (e.stop va q.kind)
  | .ok l => if l.pol == 2 && !((s.ctx ctx).inOvf l.pa) then .error (.trap .syncOverflow va 0 none) else .ok l

/-- MEM_POISON names the first poisoned word that is read. -/
def poisonStop (p : Nat → Bool) (ea pa n : Nat) : Except Stop Unit :=
  match (List.range n).find? (fun i => p (pa + i)) with
  | some i => .error (.trap .memPoison ((ea + i) / 4 * 4) 0 none)
  | none => .ok ()

/-- One global access of `n` bytes at `ea`: its checks in the order of R269, and the leaf. -/
def State.gAccess (s : State) (c : Cur) (q : XReq) (rd : Bool) (ea n esize : Nat) : Except Stop Leaf := do
  gAddrOk ea esize
  let l ← s.coreXlate c.ctx ea q
  if rd then poisonStop (c.gPoison s) ea l.pa n
  .ok l

/-- One access to crew memory. -/
def Cur.cAccess (c : Cur) (rd : Bool) (off esize : Nat) : Except Stop Unit :=
  if c.crew.launch.crewmem < off + esize then .error (.trap .addr off 0 none)
  else if off % esize != 0 then .error (.trap .misalign off esize none)
  else if rd then poisonStop c.cPoison off off esize
  else .ok ()

/-- The lanes that meet the condition of the lowest lane that meets one (R90): a trap with TLANES, or a fault. -/
def firstStop {α : Type} (rs : List (Nat × Except Stop α)) : Except Stop Unit :=
  match rs.findSome? (fun x => match x.2 with | .error e => some e | .ok _ => none) with
  | none => .ok ()
  | some e =>
    let same : Stop → Bool := fun x => match e, x with
      | .trap a _ _ _, .trap b _ _ _ => a == b
      | .park a, .park b => a.reason == b.reason && a.access == b.access
      | _, _ => false
    let lanes := maskOf 64 (fun l => rs.any (fun x => x.1 == l && (match x.2 with
      | .error y => same y
      | .ok _ => false)))
    match e with
    | .trap a ad ex _ => .error (.trap a ad ex (some lanes))
    | .park pf => .error (.park { pf with lanes := lanes })
    | st => .error st

/-- A leaf that keeps the access in the chunk. -/
def Leaf.wb (l : Leaf) : Bool := l.pol == 0

/-! Accesses that an instruction makes one after another in its chunk. -/

/-- The page keeps the access in the open chunk, or the instruction is made outside any chunk, as a singleton (R267). -/
def Cur.mayUse (c : Cur) (l : Leaf) : Except Stop Unit := ensure (l.wb || c.t.chunk.st == .idle) .uncached

/-- A store of bytes within one page, held in the chunk. -/
def storeIn (q : XReq) (x : State × Cur) (va : Nat) (bs : List Byte) (esize : Nat) : Except Stop (State × Cur) := do
  let l ← x.1.gAccess x.2 q false va bs.length esize
  x.2.mayUse l
  .ok (x.1.fill x.2.ctx va l, (x.2.writeG x.1 l.pa bs).usePage va)

/-- A load of `n` bytes within one page, seen by the chunk. -/
def loadIn (q : XReq) (x : State × Cur) (va n esize : Nat) : Except Stop (List Byte × State × Cur) := do
  let l ← x.1.gAccess x.2 q true va n esize
  x.2.mayUse l
  .ok (x.2.gBytes x.1 l.pa n, x.1.fill x.2.ctx va l, (x.2.readG l.pa n).usePage va)

/-- Stores in order. -/
def storesIn (q : XReq) (esize : Nat) : List (Nat × List Byte) → State × Cur → Except Stop (State × Cur)
  | [], x => .ok x
  | (va, bs) :: ws, x =>
    match storeIn q x va bs esize with
    | .ok x => storesIn q esize ws x
    | .error e => .error e

/-- Loads in order. -/
def loadsIn (q : XReq) (n : Nat) : List Nat → State × Cur → Except Stop (List Byte × State × Cur)
  | [], x => .ok ([], x)
  | va :: vs, x =>
    match loadIn q x va n n with
    | .ok (bs, x) =>
      match loadsIn q n vs x with
      | .ok (cs, x) => .ok (bs ++ cs, x)
      | .error e => .error e
    | .error e => .error e

/-- Bytes at an aligned address as accesses of `n` bytes. -/
def piecesAt (n : Nat) (va : Nat) (bs : List Byte) : List (Nat × List Byte) :=
  (List.range (ceilDiv bs.length n)).map (fun i => (va + n * i, (bs.drop (n * i)).take n))

/-! Values of a width (Table 14.2, R33). -/

def MWidth.signed : MWidth → Bool
  | .i8 | .i16 => true
  | _ => false

/-- The register word `i` of a lane that loads the value `w`. -/
def loadWord (w : MWidth) (x : Nat) (i : Nat) : W32 :=
  let n := 8 * w.bytes
  if MWidth.signed w then BitVec.ofInt 32 (toSigned n x) else BitVec.ofNat 32 (x / 2 ^ (32 * i))

/-- The bytes that a lane stores: data word `i` from `d i`. -/
def storeBytes (w : MWidth) (d : Nat → W32) : List Byte :=
  (bytesOf 4 (d 0).toNat ++ bytesOf 4 (d 1).toNat ++ bytesOf 4 (d 2).toNat ++ bytesOf 4 (d 3).toNat).take w.bytes

/-- The tag that a load gives its registers, that a store checks. -/
def Cur.writeRun (c : Cur) (rs : List VReg) (m : Mask) (t : Tag) (f : Nat → Nat → W32) : Cur :=
  (List.range rs.length).foldl (fun c i => match rs[i]? with
    | some r => c.setV r m (fun l => f l i) t
    | none => c) c

/-! LD and LDCW (R269). -/

/-- A lane of a load: its address and its leaf, or the condition it meets. -/
abbrev LaneLoad := Nat × Nat × Except Stop Leaf

/-- The lanes of a global load in ascending order, checked. -/
def State.ldLanes (s : State) (c : Cur) (o : MemOps) : Except Stop (List LaneLoad) := do
  let x ← c.xoff o.va
  let n := o.w.bytes
  let rs := (c.lanes (c.enabledH o.g)).map (fun l =>
    let ea := c.ea o.base (x l) o.off n
    (l, ea, s.gAccess c XReq.load true ea n n))
  firstStop ((rs.filter (fun r => hasLane c.em r.1)).map (fun r => (r.1, r.2.2)))
  .ok rs

/-- The lanes' values become the destination registers; a helper lane that met a condition takes zero. -/
def Cur.ldWrite (c : Cur) (o : MemOps) (ds : List VReg) (vals : List (Nat × Nat)) : Cur :=
  let m := c.enabledH o.g
  c.writeRun ds m o.t (fun l i => loadWord o.w (((vals.find? (fun v => v.1 == l)).map (·.2)).getD 0) i)

/-- Leaves used are cached, and the chunk notes their pages. -/
def State.useLeaves (s : State) (ctx : Nat) (ls : List (Nat × Leaf)) : State :=
  ls.foldl (fun s x => s.fill ctx x.1 x.2) s


/-- The lanes that reached a leaf. -/
def okLanes (rs : List LaneLoad) : List (Nat × Nat × Leaf) :=
  rs.filterMap (fun r => match r.2.2 with | .ok l => some (r.1, r.2.1, l) | .error _ => none)

/-- LD in the open chunk. -/
def ldChunk (o : MemOps) (s : State) (c : Cur) : Except Stop (State × Cur) := do
  let ds ← c.memRegs o
  let rs ← s.ldLanes c o
  let ok := okLanes rs
  ensure (ok.all (fun x => x.2.2.wb)) .uncached
  let n := o.w.bytes
  let vals := ok.map (fun x => (x.1, c.gNat s x.2.2.pa n))
  let c' := ok.foldl (fun c x => (c.readG x.2.2.pa n).usePage x.2.1) c
  .ok (s.useLeaves c.ctx (ok.map (fun x => (x.2.1, x.2.2))), (c'.hinted o.hint.toNat).ldWrite o ds vals)

/-- The words of lanes' accesses of `n` bytes. -/
def laneWords (n : Nat) (ls : List (Nat × Nat × Leaf)) : List Nat := ls.flatMap (fun x => wordsOf x.2.2.pa n)

/-- Words are read at their home slices: every cached copy of their lines is recalled (R220). -/
def State.recall (s : State) (ws : List Nat) : State := { s with caches := s.caches.recall ws }

/-- LD as a singleton: the lanes read one state (R269). -/
def ldEvent (o : MemOps) (s : State) (c : Cur) : SRes :=
  match c.memRegs o, s.ldLanes c o with
  | .ok ds, .ok rs =>
    let ok := okLanes rs
    let vals := ok.map (fun x => (x.1, s.rdNat x.2.2.pa o.w.bytes))
    .done ((s.useLeaves c.ctx (ok.map (fun x => (x.2.1, x.2.2)))).recall (laneWords o.w.bytes ok)) (c.ldWrite o ds vals)
  | .error e, _ => .stop e
  | _, .error e => .stop e

def execLd (o : MemOps) (s : State) : Out :=
  s.issueMem (Form.lanesOf o.g o.cf) (ldChunk o) (.ld o) (ldEvent o)

/-- LDCW. -/
def ldcwChunk (o : MemOps) (c : Cur) : Except Stop Cur := do
  let ds ← c.memRegs o
  let x ← c.xoff o.va
  let n := o.w.bytes
  let rs := (c.lanes (c.enabledH o.g)).map (fun l =>
    let ea := c.ea o.base (x l) o.off n
    (l, ea, c.cAccess true ea n))
  firstStop ((rs.filter (fun r => hasLane c.em r.1)).map (fun r => (r.1, r.2.2)))
  let ok := rs.filter (fun r => r.2.2.isOk)
  let c' := ok.foldl (fun c r => c.readC r.2.1 n) c
  .ok (c'.ldWrite o ds (ok.map (fun r => (r.1, c.cNat r.2.1 n))))

def execLdcw (o : MemOps) (s : State) : Out := s.issueC (Form.lanesOf o.g o.cf) (ldcwChunk o)

/-! ST and STCW (R271). -/

/-- The data registers, checked: POISON of any, then the type (R271). -/
def Cur.storeData (c : Cur) (o : MemOps) : Except Stop (List VecReg) := do
  let ds ← c.memRegs o
  let xs ← ds.mapM c.needAny
  if o.t == .raw then .ok xs else ds.mapM (fun r => c.needTag r o.t)

/-- The bytes that lane `l` stores. -/
def storeLane (w : MWidth) (ds : List VecReg) (l : Nat) : List Byte :=
  storeBytes w (fun i => ((ds[i]?).map (fun d => d.lane l)).getD 0)

/-- The lanes of a global store, checked. -/
def State.stLanes (s : State) (c : Cur) (o : MemOps) : Except Stop (List (Nat × Nat × Leaf)) := do
  let x ← c.xoff o.va
  let n := o.w.bytes
  let rs : List LaneLoad := (c.lanes (c.enabled o.g)).map (fun l =>
    let ea := c.ea o.base (x l) o.off n
    (l, ea, s.gAccess c XReq.store false ea n n))
  firstStop (rs.map (fun r => (r.1, r.2.2)))
  .ok (okLanes rs)

/-- ST in the open chunk; of lanes that write one word the highest stands (R213). -/
def stChunk (o : MemOps) (s : State) (c : Cur) : Except Stop (State × Cur) := do
  let ds ← c.storeData o
  let ok ← s.stLanes c o
  ensure (ok.all (fun x => x.2.2.wb)) .uncached
  .ok (s.useLeaves c.ctx (ok.map (fun x => (x.2.1, x.2.2))),
    (ok.foldl (fun c x => (c.writeG s x.2.2.pa (storeLane o.w ds x.1)).usePage x.2.1) c).hinted o.hint.toNat)

/-- A singleton write of cells, or the wait for a PINNED chunk (R199). -/
def State.writeSing (s : State) (c : Cur) (cs : List Host.Cell) : Option State :=
  let ws := (cs.map (·.1 / 4)).eraseDups
  if s.pinBlocks { src := some c.ref, gs := ws, crew := none, cs := [] } then none
  else some (s.writeCells (some c.ref) cs)

/-- ST as a singleton. -/
def stEvent (o : MemOps) (s : State) (c : Cur) : SRes :=
  match c.storeData o, s.stLanes c o with
  | .ok ds, .ok ok =>
    match s.writeSing c (ok.flatMap (fun x => cellsAt x.2.2.pa (storeLane o.w ds x.1))) with
    | none => .blocked
    | some s' => .done (s'.useLeaves c.ctx (ok.map (fun x => (x.2.1, x.2.2)))) (s'.fresh c)
  | .error e, _ => .stop e
  | _, .error e => .stop e

def execSt (o : MemOps) (s : State) : Out :=
  s.issueMem (Form.lanesOf o.g o.cf) (stChunk o) (.st o) (stEvent o)

/-- The changes of the barrier table that the strand's chunks hold, the oldest first. -/
def Cur.barOps (c : Cur) : List BarOp := c.t.unplaced.flatMap (·.bars)

/-- The barriers of the crew as the chunk sees them: registered offsets. -/
def Cur.barOffs (c : Cur) : List Nat :=
  c.barOps.foldl (fun l b => match b with
    | .free o => l.filter (· != o)
    | .init o _ => addNew l o) (c.crew.bars.map (·.off))

/-- The registered barrier word that a span of crew memory touches (R405). -/
def Cur.barTouched (c : Cur) (off n : Nat) : Option Nat :=
  c.barOffs.find? (fun b => decide (b < off + n ∧ off < b + 8))

/-- STCW. -/
def stcwChunk (o : MemOps) (c : Cur) : Except Stop Cur := do
  let ds ← c.storeData o
  let x ← c.xoff o.va
  let n := o.w.bytes
  let rs := (c.lanes (c.enabled o.g)).map (fun l =>
    let ea := c.ea o.base (x l) o.off n
    (l, ea, (do
      c.cAccess false ea n
      match c.barTouched ea n with
      | some b => .error (.trap .barrierBad b 0 none)
      | none => .ok () : Except Stop Unit)))
  firstStop (rs.map (fun r => (r.1, r.2.2)))
  .ok (rs.foldl (fun c r => c.writeC r.2.1 (storeLane o.w ds r.1)) c)

def execStcw (o : MemOps) (s : State) : Out := s.issueC (Form.lanesOf o.g o.cf) (stcwChunk o)

/-! SLD and SST (R270, R272). -/

def Cur.sea (c : Cur) (o : SMemOps) : Nat := c.ea o.base 0 o.off o.w.bytes

/-- The scalar that SLD writes. -/
def sldValue (w : MWidth) (x : Nat) : W64 :=
  if MWidth.signed w then BitVec.ofInt 64 (toSigned (8 * w.bytes) x) else BitVec.ofNat 64 x

def sldChunk (o : SMemOps) (s : State) (c : Cur) : Except Stop (State × Cur) := do
  let n := o.w.bytes
  let l ← s.gAccess c XReq.load true (c.sea o) n n
  ensure l.wb .uncached
  .ok (s.fill c.ctx (c.sea o) l,
    (((c.readG l.pa n).hinted o.hint.toNat).usePage (c.sea o)).setS o.r (sldValue o.w (c.gNat s l.pa n)))

def sldEvent (o : SMemOps) (s : State) (c : Cur) : SRes :=
  match s.gAccess c XReq.load true (c.sea o) o.w.bytes o.w.bytes with
  | .error e => .stop e
  | .ok l =>
    .done ((s.fill c.ctx (c.sea o) l).recall (wordsOf l.pa o.w.bytes)) (c.setS o.r (sldValue o.w (s.rdNat l.pa o.w.bytes)))

def execSld (o : SMemOps) (s : State) : Out := s.issueMem (Form.strandCf o.cf) (sldChunk o) (.sld o) (sldEvent o)

def sstChunk (o : SMemOps) (s : State) (c : Cur) : Except Stop (State × Cur) := do
  let n := o.w.bytes
  let l ← s.gAccess c XReq.store false (c.sea o) n n
  ensure l.wb .uncached
  .ok (s.fill c.ctx (c.sea o) l, ((c.writeG s l.pa (bytesOf n (c.sr o.r).toNat)).hinted o.hint.toNat).usePage (c.sea o))

def sstEvent (o : SMemOps) (s : State) (c : Cur) : SRes :=
  match s.gAccess c XReq.store false (c.sea o) o.w.bytes o.w.bytes with
  | .error e => .stop e
  | .ok l =>
    match s.writeSing c (cellsAt l.pa (bytesOf o.w.bytes (c.sr o.r).toNat)) with
    | none => .blocked
    | some s' => .done (s'.fill c.ctx (c.sea o) l) (s'.fresh c)

def execSst (o : SMemOps) (s : State) : Out := s.issueMem (Form.strandCf o.cf) (sstChunk o) (.sst o) (sstEvent o)

/-! PREF and DISCARD (R275 to R277). -/

/-- The span of `n` words lies in one 128-byte line. -/
def spanInLine (ea n : Nat) : Bool := decide (ea % 128 / 4 + n ≤ 32)

/-- The lanes of PREF that reach a page; every other lane does nothing (R276). -/
def State.prefLanes (s : State) (c : Cur) (o : SpanOps) : Except Stop (List (Nat × Nat × Leaf)) := do
  c.needRegs o.va.toList
  let x ← c.xoff o.va
  let n := o.n1.val + 1
  .ok (okLanes ((c.lanes (c.enabled o.g)).map (fun l =>
    let ea := c.ea o.base (x l) o.off 4
    (l, ea, (do
      gAddrOk ea 4
      ensure (spanInLine ea n) .uncached
      match s.translate c.ctx ea XReq.load with
      | .error e => .error (e.stop ea .read)
      | .ok lf => .ok lf)))))

/-- PREF in the chunk: it moves copies between caches as its hint says (Table 14.3), and changes nothing else. -/
def prefChunk (o : SpanOps) (s : State) (c : Cur) : Except Stop (State × Cur) := do
  let ok ← s.prefLanes c o
  ensure (ok.all (fun x => x.2.2.wb)) .uncached
  .ok ({ s with caches := s.caches.prefetch c.crew.core o.hint.toNat (laneWords (4 * (o.n1.val + 1)) ok) }, c)

/-- PREF that reaches a UC or SY page is a singleton that does nothing. -/
def prefEvent (o : SpanOps) (s : State) (c : Cur) : SRes :=
  match s.prefLanes c o with
  | .error e => .stop e
  | .ok _ => .done s c

def execPref (o : SpanOps) (s : State) : Out :=
  s.issueMem (Form.lanesOf o.g .none) (prefChunk o) (.pref o) (prefEvent o)

/-- The lanes of DISCARD, checked. -/
def State.discLanes (s : State) (c : Cur) (o : SpanOps) : Except Stop (List (Nat × Nat × Leaf)) := do
  c.needRegs o.va.toList
  let x ← c.xoff o.va
  let n := o.n1.val + 1
  let rs : List LaneLoad := (c.lanes (c.enabled o.g)).map (fun l =>
    let ea := c.ea o.base (x l) o.off 4
    (l, ea, (do
      gAddrOk ea 4
      ensure (spanInLine ea n) (.trap .misalign ea (4 * n) none)
      match s.translate c.ctx ea XReq.store with
      | .error e => .error (e.stop ea .write)
      | .ok lf => if lf.pol == 2 then .error (.trap .perm ea 1 none) else .ok lf)))
  firstStop (rs.map (fun r => (r.1, r.2.2)))
  .ok (okLanes rs)

/-- The words of the spans. -/
def spanWords (n : Nat) (ls : List (Nat × Nat × Leaf)) : List Nat := ls.flatMap (fun x => wordsOf x.2.2.pa (4 * n))

/-- DISCARD in the open chunk: stores of the chunk to the spans are removed (R277). -/
def discChunk (o : SpanOps) (s : State) (c : Cur) : Except Stop (State × Cur) := do
  let ok ← s.discLanes c o
  ensure (ok.all (fun x => x.2.2.wb)) .uncached
  let ws := spanWords (o.n1.val + 1) ok
  let c := c.mapChunk (fun ch => { ch with gw := ch.gw.filter (fun x => !ws.contains (x.1 / 4)),
                                           gws := addAll ch.gws ws, disc := addAll ch.disc ws })
  .ok (s.useLeaves c.ctx (ok.map (fun x => (x.2.1, x.2.2))), ok.foldl (fun c x => c.usePage x.2.1) c)

/-- Words become dead (R221). -/
def State.kill (s : State) (ws : List Nat) : State := { s with dead := addAll s.dead ws }

/-- DISCARD as a singleton. -/
def discEvent (o : SpanOps) (s : State) (c : Cur) : SRes :=
  match s.discLanes c o with
  | .error e => .stop e
  | .ok ok =>
    let w : Wr := { src := some c.ref, gs := spanWords (o.n1.val + 1) ok, crew := none, cs := [] }
    if s.pinBlocks w then .blocked
    else
      let s' := ((s.recall w.gs).kill w.gs).conflict w
      .done (s'.useLeaves c.ctx (ok.map (fun x => (x.2.1, x.2.2)))) (s'.fresh c)

def execDiscard (o : SpanOps) (s : State) : Out :=
  s.issueMem (Form.lanesOf o.g .none) (discChunk o) (.discard o) (discEvent o)

end Sys2Proof.Machine
end

