-- ==== Sys2Proof/Machine/System.lean ====
section
/-!
DEFINITION. Trap and system instructions (R97 to R101), CHEND and CHCFG (R206, R207), the mask instructions (R162, R163) and
the tag instructions (R185, R186).
-/

namespace Sys2Proof.Machine

open Sys2Proof

/-! TRAP and RFT. -/

/-- TRAP raises cause 0x20 + n with TEXTRA := sa, under R89 and R91 (log 24). -/
def execTrap (n : BitVec 5) (x : SReg) (s : State) : Out :=
  s.issueC Form.control (fun c => .error (.trap (.software n.toNat) 0 (c.sr x).toNat none))

def execRft (s : State) : Out := s.issue Form.control (fun s c => (returnTrap s c).map (fun c => (s, c)))

/-- YIELD changes no visible state. -/
def execYield (s : State) : Out := s.issueC Form.strand (fun c => .ok c)

/-! Special registers (Table 5.6). -/

/-- Some command of the warp is accepted and its batch is not complete: a command leaves its warp as its batch completes
(R315). -/
def State.batchPending (s : State) (r : WarpRef) : Bool := s.cmds.any (fun x => x.warp == some r)

/-- The value that SRD reads; none for a reserved number. -/
def Cur.special (s : State) (c : Cur) (n : Nat) : Option W64 :=
  let k := c.t.core
  match n with
  | 0 => some k.em
  | 1 => some k.hm
  | 2 => some (k.acr.setWidth 64)
  | 3 => some (s.clks.getD c.crew.core 0)
  | 4 => some (BitVec.ofNat 64 c.width)
  | 5 => some (BitVec.ofNat 64 k.chlim)
  | 6 => some c.t.sqcnt
  | 7 => some (k.batchn.setWidth 64)
  | 8 => some (BitVec.ofNat 64 k.winb)
  | _ => none

def execSrd (sd : SReg) (n : BitVec 32) (s : State) : Out :=
  s.issue Form.strand (fun s c => match c.special s n.toNat with
    | some x => .ok (s, c.setS sd x)
    | none => .error illegalOperand)

/-- A legal CHLIM. -/
def chlimOk (x : W64) : Bool := decide (32 ≤ x.toNat ∧ x.toNat ≤ 4096)

/-- SWR (Table 5.6). -/
def swr (s : State) (c : Cur) (n : Nat) (x : W64) : Except Stop Cur :=
  match n with
  | 0 => .ok (c.mapCore (fun k => { k with em := x &&& k.l }))
  | 1 => .ok (c.mapCore (fun k => { k with hm := x &&& k.l }))
  | 2 => if x.toNat < 2 ^ 10 then .ok (c.mapCore (fun k => { k with acr := x.setWidth 10 })) else .error illegalOperand
  | 5 => if chlimOk x then .ok (c.mapCore (fun k => { k with chlim := x.toNat })) else .error illegalOperand
  | 7 =>
    if s.batchPending c.ref.w then .error (.trap .batchBad 0 c.t.core.batchn.toNat none)
    else .ok (c.mapCore (fun k => { k with batchn := x.setWidth 32 }))
  | _ => .error illegalOperand

def execSwr (n : BitVec 32) (sa : SReg) (s : State) : Out :=
  s.issue Form.strand (fun s c => (swr s c n.toNat (c.sr sa)).map (fun c => (s, c)))

/-! Trap control registers (Tables 5.3, 5.4). -/

/-- TSTATUS. -/
def tstatus (x : TrapRegs) (strand : Nat) : W64 := BitVec.ofNat 64 (bit x.h + 2 * bit x.skip + 256 * (strand % 4))

def execCsrr (sd : SReg) (n : BitVec 32) (s : State) : Out :=
  s.issueC Form.strand (fun c =>
    let x := c.t.core.trap
    if !x.h then .error (.word .priv 0)
    else match n.toNat with
      | 0 => .ok (c.setS sd (x.cause.setWidth 64))
      | 1 => .ok (c.setS sd x.tpc)
      | 2 => .ok (c.setS sd x.addr)
      | 3 => .ok (c.setS sd (x.lanes &&& fullMask c.width))
      | 4 => .ok (c.setS sd x.extra)
      | 5 => .ok (c.setS sd (tstatus x c.ref.strand))
      | _ => .error illegalOperand)

def Cur.setTrap (c : Cur) (f : TrapRegs → TrapRegs) : Cur := c.mapCore (fun k => { k with trap := f k.trap })

def execCsrw (n : BitVec 32) (sa : SReg) (s : State) : Out :=
  s.issueC Form.strand (fun c =>
    let v := c.sr sa
    if !c.t.core.trap.h then .error (.word .priv 0)
    else match n.toNat with
      | 0 => .ok (c.setTrap (fun x => { x with cause := v.setWidth 8 }))
      | 1 => .ok (c.setTrap (fun x => { x with tpc := v }))
      | 2 => .ok (c.setTrap (fun x => { x with addr := v }))
      | 3 => .ok (c.setTrap (fun x => { x with lanes := v &&& fullMask c.width }))
      | 4 => .ok (c.setTrap (fun x => { x with extra := v }))
      | 5 => .ok (c.setTrap (fun x => { x with skip := v.getLsbD 1 }))
      | _ => .error illegalOperand)

/-- IDRD (Table 5.7). -/
def Cur.ident (c : Cur) (n : Nat) : Option Nat :=
  match n with
  | 0 => some c.crew.core
  | 1 => some (dieOf c.crew.core)
  | 2 => some c.crew.quad
  | 3 => some c.warp.slot
  | 4 => some c.ref.w.warp
  | 5 => some c.ref.w.crew.crew
  | 6 => some (c.ref.w.crew.crew / Nat.max 1 c.crew.launch.convoy)
  | 7 => some c.ref.w.crew.voy
  | 8 => some c.ref.w.crew.ctx
  | 9 => some c.ref.strand
  | _ => none

def execIdrd (sd : SReg) (n : BitVec 32) (s : State) : Out :=
  s.issueC Form.strand (fun c => match c.ident n.toNat with
    | some x => .ok (c.setS sd (BitVec.ofNat 64 x))
    | none => .error illegalOperand)

/-! The chunk (R206, R207). -/

def execChend (s : State) : Out := s.issueC Form.strand (fun c => .ok c.endChunk)

def execChcfg (sd : SReg) (x : Src) (s : State) : Out :=
  s.issueC Form.strand (fun c =>
    let v := c.src x
    let old := BitVec.ofNat 64 c.t.core.chlim
    if v == 0 then .ok (c.setS sd old)
    else if !(chlimOk v) then .error illegalOperand
    else .ok ((c.mapCore (fun k => { k with chlim := v.toNat })).setS sd old))

/-! Masks (R162, R163): every write is masked by L (R144). -/

def execEmset (x : Src) (s : State) : Out :=
  s.issueC Form.strand (fun c => .ok (c.mapCore (fun k => { k with em := c.src x &&& k.l })))
def execEmld (sa : SReg) (s : State) : Out :=
  s.issueC Form.strand (fun c => .ok (c.mapCore (fun k => { k with em := c.sr sa &&& k.l })))
def execEmst (sd : SReg) (s : State) : Out := s.issueC Form.strand (fun c => .ok (c.setS sd c.em))
def execEmand (x : Src) (s : State) : Out :=
  s.issueC Form.strand (fun c => .ok (c.mapCore (fun k => { k with em := k.em &&& c.src x })))
def execHmset (x : Src) (s : State) : Out :=
  s.issueC Form.strand (fun c => .ok (c.mapCore (fun k => { k with hm := c.src x &&& k.l })))

/-! Tags (R185, R186). -/

/-- TAGSET changes no lane's bits, but clears the lanes of a POISON register. -/
def execTagset (vd : VReg) (code : BitVec 5) (s : State) : Out :=
  s.issueC Form.strand (fun c => do
    c.needRegs [vd]
    ensure (code.toNat ≤ 16 || code.toNat == 31) illegalOperand
    let old := c.vnow vd
    let t := Tag.ofCode code.toNat
    .ok (c.putV vd { tag := t, lanes := if old.tag == .poison then List.replicate c.width 0 else old.lanes }))

def execTagget (o : VMoveOps) (s : State) : Out :=
  s.issueC (Form.lanesOf o.g .none) (fun c => do
    c.needRegs [o.vd, o.va]
    let a ← c.needAny o.va
    .ok (c.setV o.vd (c.enabled o.g) (fun _ => BitVec.ofNat 32 a.tag.code) .u32))

end Sys2Proof.Machine
end

