-- ==== Sys2Proof/Machine/Barrier.lean ====
section
/-!
DEFINITION. Crew barriers (R404 to R411).
-/

namespace Sys2Proof.Machine

open Sys2Proof

/-! The barrier word (Table 21.4). -/

def Barrier.expected (b : Barrier) : Nat := b.parts.length
def Barrier.count (b : Barrier) : Nat := b.arrived.length

/-- The eight bytes of the word in crew memory. -/
def Barrier.word (b : Barrier) : W64 := BitVec.ofNat 64 (b.expected + 2 ^ 16 * b.count + 2 ^ 32 * bit b.phase)

/-- A write of crew memory by a barrier event, as it enters G. -/
def barWr (src : Option StrandRef) (r : CrewRef) (off : Nat) : Wr :=
  { src := src, gs := [], crew := some r, cs := wordsOf off 8 }

/-- A barrier of a crew. -/
def Crew.bar? (c : Crew) (off : Nat) : Option Barrier := c.bars.find? (fun b => b.off == off)

/-- The entry and its word change in one step, and the write enters G (R405). -/
def State.putBar (s : State) (src : Option StrandRef) (r : CrewRef) (b : Barrier) : State :=
  let s := s.modCrew r (fun c =>
    { c with bars := updIf (fun x => x.off == b.off) (fun _ => b) c.bars,
             mem := cellsPut c.mem b.off (bytesOf 8 b.word.toNat) })
  s.conflict (barWr src r b.off)

/-- A strand that parked goes on behind its instruction, with the scalar that the instruction writes. -/
def State.resume (s : State) (r : StrandRef) (sd : SReg) (x : W64) : State :=
  match s.curOf r with
  | none => s
  | some c =>
    let c := ((c.setS sd x).advance 1).mapT (fun t => { t with wait := .none, pinCount := 0, trapReplay := false, failed := none })
    s.putCur c

/-- The warps parked at a barrier of a crew: their strands, with the scalar and the phase that a BWT writes. -/
def State.barWaiters (s : State) (r : CrewRef) (off : Nat) : List StrandRef :=
  s.refs.filter (fun x => x.w.crew == r && (match s.waitOf x with
    | .bar _ o _ _ => o == off
    | _ => false))

/-- A flip (R409): ARRIVED is 0, PHASE is toggled, and every waiter is woken. -/
def State.flip (s : State) (src : Option StrandRef) (r : CrewRef) (b : Barrier) : State :=
  let b := { b with arrived := [], phase := !b.phase }
  let s := s.putBar src r b
  (s.barWaiters r b.off).foldl (fun s x => match s.waitOf x with
    | .bar sd _ ph barw => s.resume x sd (BitVec.ofNat 64 (bit (if barw then ph else b.phase)))
    | _ => s) s

/-- A change of an entry, with the flip that it makes (R409, R410). -/
def State.updateBar (s : State) (src : Option StrandRef) (r : CrewRef) (b : Barrier) : State :=
  if b.count == b.expected && decide (1 ≤ b.expected) then s.flip src r b else s.putBar src r b

/-- Whether the write of a barrier word must wait for a PINNED chunk (R199). -/
def State.barBlocked (s : State) (src : Option StrandRef) (r : CrewRef) (off : Nat) : Bool :=
  s.pinBlocks (barWr src r off)

/-! What a chunk sees of the barrier table (R407). -/

/-- The warps of a crew that are live and whose launch index is in a mask. -/
def Crew.chosen (c : Crew) (mask : Nat) : List Nat :=
  (c.warps.filter (fun w => !w.exited && bitAt mask (w.id % 16))).map (·.id)

/-- The entry that BINIT makes. -/
def Crew.newBar (c : Crew) (off mask : Nat) : Barrier := { off := off, parts := c.chosen mask, arrived := [], phase := false }

/-- A table change. -/
def BarOp.apply (c : Crew) (l : List Barrier) : BarOp → List Barrier
  | .free o => l.filter (fun b => b.off != o)
  | .init o m => l.filter (fun b => b.off != o) ++ [c.newBar o m]

/-- The table with the changes of the strand's chunk. -/
def Cur.bars (c : Cur) : List Barrier := c.barOps.foldl (BarOp.apply c.crew) c.crew.bars

def Cur.bar? (c : Cur) (off : Nat) : Option Barrier := c.bars.find? (fun b => b.off == off)

/-- A warp is parked at the barrier. -/
def Cur.barHasWaiters (s : State) (c : Cur) (off : Nat) : Bool := !(s.barWaiters c.ref.w.crew off).isEmpty

/-- The checks that every barrier instruction makes (R406). -/
def Cur.barOffset (c : Cur) (sa : SReg) : Except Stop Nat := do
  let off := (c.sr sa).toNat
  c.cAccess false off 8
  ensure (decide (c.warp.live ≤ 1)) (.trap .barrierBad off 0 none)
  .ok off

def barBad (off : Nat) : Stop := .trap .barrierBad off 0 none

/-! BINIT (R407): part of its chunk. -/

def binit (sa sb : SReg) (s : State) (c : Cur) : Except Stop (State × Cur) := do
  let mask := (c.sr sb).toNat
  ensure (decide (mask < 2 ^ 16)) illegalOperand
  let off ← c.barOffset sa
  ensure (!(c.barHasWaiters s off)) (barBad off)
  if mask == 0 then
    ensure (c.bar? off).isSome (barBad off)
    .ok (s, c.mapChunk (fun ch => { ch with bars := ch.bars ++ [.free off] }))
  else
    ensure ((c.bar? off).isSome || decide (c.bars.length < 8)) (barBad off)
    let c := c.mapChunk (fun ch => { ch with bars := ch.bars ++ [.init off mask] })
    .ok (s, c.writeC off (bytesOf 8 (c.crew.newBar off mask).word.toNat))

def execBinit (sa sb : SReg) (s : State) : Out := s.issue Form.strand (binit sa sb)

/-! BARV, BARW and BWT (R408). -/

/-- The entry of an arrival: registered, a participant, not yet arrived. -/
def Cur.arrival (c : Cur) (sa : SReg) : Except Stop Barrier := do
  let off ← c.barOffset sa
  match c.bar? off with
  | none => .error (barBad off)
  | some b =>
    ensure (b.parts.contains c.ref.w.warp && !(b.arrived.contains c.ref.w.warp)) (barBad off)
    .ok b

/-- The event of BARV and BARW. -/
def arriveEvent (barw : Bool) (sd sa : SReg) (s : State) (c : Cur) : SRes :=
  match c.arrival sa with
  | .error e => .stop e
  | .ok b =>
    let r := c.ref.w.crew
    if s.barBlocked (some c.ref) r b.off then .blocked
    else
      let b' := { b with arrived := b.arrived ++ [c.ref.w.warp] }
      let flips := b'.count == b'.expected
      let s' := s.updateBar (some c.ref) r b'
      let c' := (s'.fresh c).setS sd (BitVec.ofNat 64 (bit b.phase))
      if barw && !flips then .park (s'.putCur c') (.bar sd b.off b.phase true)
      else .done s' c'

def barvEvent (sd sa : SReg) (s : State) (c : Cur) : SRes := arriveEvent false sd sa s c
def barwEvent (sd sa : SReg) (s : State) (c : Cur) : SRes := arriveEvent true sd sa s c

def execBarv (sd sa : SReg) (s : State) : Out :=
  s.issueSing Form.strand (fun _ c => (c.arrival sa).map (fun _ => ())) (.barv sd sa) (barvEvent sd sa)

def execBarw (sd sa : SReg) (s : State) : Out :=
  s.issueSing Form.strand (fun _ c => (c.arrival sa).map (fun _ => ())) (.barw sd sa) (barwEvent sd sa)

/-- The entry of a wait: registered and a participant. -/
def Cur.waitBar (c : Cur) (sa : SReg) : Except Stop Barrier := do
  let off ← c.barOffset sa
  match c.bar? off with
  | none => .error (barBad off)
  | some b =>
    ensure (b.parts.contains c.ref.w.warp) (barBad off)
    .ok b

/-- The event of BWT. -/
def bwtEvent (o : SabOps) (s : State) (c : Cur) : SRes :=
  match c.waitBar o.sa with
  | .error e => .stop e
  | .ok b =>
    if b.phase != (c.sr o.sb).getLsbD 0 then .done s (c.setS o.sd (BitVec.ofNat 64 (bit b.phase)))
    else .park s (.bar o.sd b.off b.phase false)

def execBwt (o : SabOps) (s : State) : Out :=
  s.issueSing Form.strand (fun _ c => (c.waitBar o.sa).map (fun _ => ())) (.bwt o) (bwtEvent o)

/-! Changes made by commits, exits, splits and fusions. -/

/-- The offset of a table change. -/
def BarOp.off : BarOp → Nat
  | .free o => o
  | .init o _ => o

/-- The table with changes made. -/
def Crew.barsAfter (c : Crew) (ops : List BarOp) : List Barrier := ops.foldl (BarOp.apply c) c.bars

/-- Changes that a chunk holds can no longer be made: a warp has parked at one of the barriers, one that it frees is gone, or
the table has not the room (R405, R407). The chunk executes again, and BINIT meets its check (log 67). -/
def State.barsStale (s : State) (r : CrewRef) (ops : List BarOp) : Bool :=
  match s.crew? r with
  | none => false
  | some c =>
    ops.any (fun op => !(s.barWaiters r op.off).isEmpty) ||
      (ops.zipIdx.any (fun x => match x.1 with
        | .free o => !((c.barsAfter (ops.take x.2)).any (fun b => b.off == o))
        | .init _ _ => decide (8 < (c.barsAfter (ops.take (x.2 + 1))).length)))

/-- The table changes of a chunk at its commit (R407): an entry that stands behind them shows its fields in its word, with the
participants that are live now. -/
def State.commitBars (s : State) (r : CrewRef) (ops : List BarOp) : State :=
  s.modCrew r (fun c =>
    let made := (c.barsAfter ops).filter (fun b => ops.any (fun op => op.off == b.off))
    { c with bars := c.barsAfter ops,
             mem := made.foldl (fun m b => cellsPut m b.off (bytesOf 8 b.word.toNat)) c.mem })

/-- The entries in which a warp takes part. -/
def State.barsOf (s : State) (w : WarpRef) : List Barrier :=
  match s.crew? w.crew with
  | some c => c.bars.filter (fun b => b.parts.contains w.warp)
  | none => []

/-- An update of the entries of a warp must wait for a PINNED chunk (R199). -/
def State.barsBlocked (s : State) (src : StrandRef) (w : WarpRef) : Bool :=
  (s.barsOf w).any (fun b => s.barBlocked (some src) w.crew b.off)

/-- A participant warp exits (R410). -/
def State.exitBars (s : State) (src : StrandRef) (w : WarpRef) : State :=
  (s.barsOf w).foldl (fun s b =>
    s.updateBar (some src) w.crew { b with parts := b.parts.filter (· != w.warp), arrived := b.arrived.filter (· != w.warp) }) s

/-- A warp splits (R172): both children take part, and both have arrived where the parent had. -/
def State.splitBars (s : State) (src : StrandRef) (w : WarpRef) (high : Nat) : State :=
  (s.barsOf w).foldl (fun s b =>
    s.putBar (some src) w.crew
      { b with parts := b.parts ++ [high],
               arrived := if b.arrived.contains w.warp then b.arrived ++ [high] else b.arrived }) s

/-- Two warps fuse (R175): one participant, arrived where both had. -/
def State.fuseBars (s : State) (src : StrandRef) (lo : WarpRef) (high : Nat) : State :=
  (s.barsOf lo).foldl (fun s b =>
    let both := b.arrived.contains lo.warp && b.arrived.contains high
    let rest := b.arrived.filter (fun x => x != lo.warp && x != high)
    s.updateBar (some src) lo.crew
      { b with parts := b.parts.filter (· != high), arrived := if both then rest ++ [lo.warp] else rest }) s

end Sys2Proof.Machine
end

