-- ==== Sys2Proof/Machine/Format.lean ====
section
/-!
DEFINITION. Number formats (02): reading and rounding floating-point values (R25 to R28, R38 to R42), flushing (R43 to R45),
exact sums and products (R41, R46), and integer elements (R23).
-/

namespace Sys2Proof.Machine

open Sys2Proof

/-- Which codes of a format are special (Table 2.2). -/
inductive FKind where
  /-- Infinities and NaNs at the greatest exponent field. -/
  | ieee
  /-- One NaN code of each sign, no infinity (E4M3). -/
  | oneNan
  /-- Neither (E2M1). -/
  | plain
  deriving DecidableEq, Repr

/-- A floating-point format (Table 2.2) with its flush class (Table 2.1). -/
structure FFmt where
  ebits : Nat
  mbits : Nat
  bias  : Nat
  kind  : FKind
  cls   : Nat
  deriving DecidableEq, Repr

def fF32 : FFmt := { ebits := 8, mbits := 23, bias := 127, kind := .ieee, cls := 0 }
def fF16 : FFmt := { ebits := 5, mbits := 10, bias := 15, kind := .ieee, cls := 1 }
def fBF16 : FFmt := { ebits := 8, mbits := 7, bias := 127, kind := .ieee, cls := 1 }
def fE4M3 : FFmt := { ebits := 4, mbits := 3, bias := 7, kind := .oneNan, cls := 2 }
def fE5M2 : FFmt := { ebits := 5, mbits := 2, bias := 15, kind := .ieee, cls := 2 }
def fE2M1 : FFmt := { ebits := 2, mbits := 1, bias := 1, kind := .plain, cls := 3 }

/-- The format of a tag; F32 where the tag is no float. -/
def ffmtOf : Tag → FFmt
  | .f16x2 => fF16 | .bf16x2 => fBF16 | .e4m3x4 => fE4M3 | .e5m2x4 => fE5M2 | .e2m1x8 => fE2M1 | _ => fF32

/-- A value: NaN, infinity, zero, or `m * 2 ^ e` with `m` positive, each with its sign. -/
inductive FNum where
  | nan
  | inf (neg : Bool)
  | zero (neg : Bool)
  | fin (neg : Bool) (m : Nat) (e : Int)
  deriving DecidableEq, Repr

def FFmt.width (f : FFmt) : Nat := 1 + f.ebits + f.mbits

/-- The bits of a sign. -/
def FFmt.signBit (f : FFmt) (neg : Bool) : Nat := if neg then 2 ^ (f.ebits + f.mbits) else 0

/-- The value of an encoding (R25). -/
def FFmt.read (f : FFmt) (x : Nat) : FNum :=
  let neg := bitAt x (f.ebits + f.mbits)
  let e := field x (f.ebits + f.mbits - 1) f.mbits
  let m := x % 2 ^ f.mbits
  let top := 2 ^ f.ebits - 1
  if f.kind == .ieee && e == top then (if m == 0 then .inf neg else .nan)
  else if f.kind == .oneNan && e == top && m == 2 ^ f.mbits - 1 then .nan
  else if e == 0 then
    if m == 0 then .zero neg else .fin neg m (1 - (f.bias : Int) - f.mbits)
  else .fin neg (2 ^ f.mbits + m) ((e : Int) - f.bias - f.mbits)

/-- An encoding of a non-zero subnormal value. -/
def FFmt.subnormal (f : FFmt) (x : Nat) : Bool :=
  field x (f.ebits + f.mbits - 1) f.mbits == 0 && x % 2 ^ f.mbits != 0

/-- The canonical NaN (R28); E2M1 has none and takes +0 (Table 2.10). -/
def FFmt.nanBits (f : FFmt) : Nat :=
  match f.kind with
  | .ieee => (2 ^ f.ebits - 1) * 2 ^ f.mbits + 2 ^ (f.mbits - 1)
  | .oneNan => 2 ^ (f.ebits + f.mbits) - 1
  | .plain => 0

/-- The encoding of the largest finite magnitude. -/
def FFmt.maxBits (f : FFmt) : Nat :=
  match f.kind with
  | .ieee => (2 ^ f.ebits - 1) * 2 ^ f.mbits - 1
  | .oneNan => 2 ^ (f.ebits + f.mbits) - 2
  | .plain => 2 ^ (f.ebits + f.mbits) - 1

/-- ±Inf, or ±largest finite where the format has no infinity (Table 2.10). -/
def FFmt.infBits (f : FFmt) (neg : Bool) : Nat :=
  f.signBit neg + (match f.kind with | .ieee => (2 ^ f.ebits - 1) * 2 ^ f.mbits | _ => f.maxBits)

/-- R40: the result of an overflow. -/
def FFmt.overflow (f : FFmt) (mode : Rm) (neg : Bool) : Nat :=
  match f.kind with
  | .ieee =>
    let toInf := match mode with
      | .rne => true
      | .rtz => false
      | .rup => !neg
      | .rdn => neg
    if toInf then f.infBits neg else f.signBit neg + f.maxBits
  | _ => f.signBit neg + f.maxBits

/-- Whether a magnitude `k` with a remainder (half: less, equal, more; or none) is rounded up (R38). -/
def roundsUp (mode : Rm) (neg : Bool) (k rem half : Nat) (sticky : Bool) : Bool :=
  let inexact := rem != 0 || sticky
  match mode with
  | .rne => decide (half < rem) || (rem == half && half != 0 && (sticky || k % 2 == 1))
  | .rtz => false
  | .rup => inexact && !neg
  | .rdn => inexact && neg

/-- `m * 2 ^ e` (a little more, with `sticky`) on the grid of multiples of `2 ^ q`: the multiplier (R38). -/
def roundTo (mode : Rm) (neg : Bool) (m : Nat) (e q : Int) (sticky : Bool) : Nat :=
  if q ≤ e then
    let k := m * 2 ^ (e - q).toNat
    if roundsUp mode neg k 0 0 sticky then k + 1 else k
  else
    let s := (q - e).toNat
    let k := m / 2 ^ s
    if roundsUp mode neg k (m % 2 ^ s) (2 ^ (s - 1)) sticky then k + 1 else k

/-- A positive magnitude rounded in a format, as bits with the sign (R38, R40). -/
def FFmt.round (f : FFmt) (mode : Rm) (neg : Bool) (m : Nat) (e : Int) (sticky : Bool) : Nat :=
  let emin : Int := 1 - (f.bias : Int) - f.mbits
  let q0 : Int := (Nat.log2 m : Int) + e - f.mbits
  let q := if q0 < emin then emin else q0
  let k := roundTo mode neg m e q sticky
  if k < 2 ^ f.mbits then f.signBit neg + k
  else
    -- a carry out of the significand leaves a power of two
    let q := if k == 2 ^ (f.mbits + 1) then q + 1 else q
    let k := if k == 2 ^ (f.mbits + 1) then 2 ^ f.mbits else k
    let mag := (q - emin + 1).toNat * 2 ^ f.mbits + (k - 2 ^ f.mbits)
    if f.maxBits < mag then f.overflow mode neg else f.signBit neg + mag

/-- A value in a format (R42). -/
def FFmt.write (f : FFmt) (mode : Rm) (x : FNum) : Nat :=
  match x with
  | .nan => f.nanBits
  | .inf neg => f.infBits neg
  | .zero neg => f.signBit neg
  | .fin neg m e => f.round mode neg m e false

/-! ACR (Table 2.9). -/

def rmOf : Nat → Rm
  | 0 => .rne | 1 => .rtz | 2 => .rup | _ => .rdn

/-- RM. -/
def acrMode (acr : BitVec 10) : Rm := rmOf (acr.toNat % 4)
/-- FI of a flush class. -/
def acrFi (acr : BitVec 10) (cls : Nat) : Bool := bitAt acr.toNat (2 + 2 * cls)
/-- FO of a flush class. -/
def acrFo (acr : BitVec 10) (cls : Nat) : Bool := bitAt acr.toNat (3 + 2 * cls)
/-- The mode that an override leaves (R39). -/
def modeOf (acr : BitVec 10) (r : Rnd) : Rm := r.getD (acrMode acr)

/-- flush_in (R43). -/
def FFmt.input (f : FFmt) (acr : BitVec 10) (x : Nat) : FNum :=
  if acrFi acr f.cls && f.subnormal x then .zero (bitAt x (f.ebits + f.mbits)) else f.read x

/-- flush_out (R44). -/
def FFmt.flushOut (f : FFmt) (acr : BitVec 10) (x : Nat) : Nat :=
  if acrFo acr f.cls && f.subnormal x then x / 2 ^ (f.ebits + f.mbits) * 2 ^ (f.ebits + f.mbits) else x

/-- A result: rounded, then flushed. -/
def FFmt.result (f : FFmt) (acr : BitVec 10) (mode : Rm) (x : FNum) : Nat := f.flushOut acr (f.write mode x)

/-! Exact arithmetic. -/

def FNum.neg : FNum → FNum
  | .nan => .nan
  | .inf s => .inf (!s)
  | .zero s => .zero (!s)
  | .fin s m e => .fin (!s) m e

def FNum.isNeg : FNum → Bool
  | .nan => false
  | .inf s | .zero s | .fin s _ _ => s

def FNum.isNan : FNum → Bool
  | .nan => true
  | _ => false

/-- The value as a signed multiple of `2 ^ e`. -/
def sgn (neg : Bool) (m : Nat) : Int := if neg then -(m : Int) else m

/-- A signed multiple of `2 ^ e`; zero takes the sign that the mode gives an exact zero sum (R41). -/
def FNum.ofInt (mode : Rm) (x : Int) (e : Int) : FNum :=
  if x == 0 then .zero (mode == .rdn) else .fin (decide (x < 0)) x.natAbs e

/-- The exact product (R41). -/
def FNum.mul : FNum → FNum → FNum
  | .nan, _ | _, .nan => .nan
  | .inf _, .zero _ | .zero _, .inf _ => .nan
  | .inf a, x => .inf (a != x.isNeg)
  | x, .inf b => .inf (x.isNeg != b)
  | .zero a, x => .zero (a != x.isNeg)
  | x, .zero b => .zero (x.isNeg != b)
  | .fin a m e, .fin b n d => .fin (a != b) (m * n) (e + d)

/-- The exact sum (R41). -/
def FNum.add (mode : Rm) : FNum → FNum → FNum
  | .nan, _ | _, .nan => .nan
  | .inf a, .inf b => if a == b then .inf a else .nan
  | .inf a, _ => .inf a
  | _, .inf b => .inf b
  | .zero a, .zero b => if a == b then .zero a else .zero (mode == .rdn)
  | .zero _, x => x
  | x, .zero _ => x
  | .fin a m e, .fin b n d =>
    let q := if e < d then e else d
    .ofInt mode (sgn a m * 2 ^ (e - q).toNat + sgn b n * 2 ^ (d - q).toNat) q

/-- The exact sum of terms in any order (R46): NaN, then infinities, else one exact sum rounded in RNE. -/
def FNum.sum (xs : List FNum) : FNum :=
  if xs.any FNum.isNan then .nan
  else
    let pos := xs.any (fun x => x == .inf false)
    let neg := xs.any (fun x => x == .inf true)
    if pos && neg then .nan
    else if pos then .inf false
    else if neg then .inf true
    else
      let q := xs.foldl (fun (q : Option Int) x => match x, q with
        | .fin _ _ e, some q => some (if e < q then e else q)
        | .fin _ _ e, none => some e
        | _, q => q) none
      match q with
      | none => .zero (!xs.isEmpty && xs.all (fun x => x == .zero true))
      | some q =>
        .ofInt .rne (xs.foldl (fun (a : Int) x => match x with
          | .fin s m e => a + sgn s m * 2 ^ (e - q).toNat
          | _ => a) 0) q

/-- Comparison of two values that are no NaN: `a - b` as a sign. -/
def FNum.cmp (a b : FNum) : Ordering :=
  let key : FNum → Int := fun x => match x with
    | .inf s => if s then -2 else 2
    | .fin s _ _ => if s then -1 else 1
    | _ => 0
  match a, b with
  | .fin s m e, .fin t n d =>
    let q := if e < d then e else d
    let x := sgn s m * 2 ^ (e - q).toNat
    let y := sgn t n * 2 ^ (d - q).toNat
    if x < y then .lt else if y < x then .gt else .eq
  | x, y => if key x < key y then .lt else if key y < key x then .gt else .eq

/-- A value rounded to an integer (R38); none for NaN and infinities. -/
def FNum.toInt? (mode : Rm) : FNum → Option Int
  | .nan | .inf _ => none
  | .zero _ => some 0
  | .fin s m e => some (sgn s (roundTo mode s m e 0 false))

/-- An integer as a value. -/
def FNum.ofInteger (x : Int) : FNum := FNum.ofInt .rne x 0

/-! Integer elements (R23). -/

/-- The range of an integer type. -/
def intLo (t : Tag) : Int := if t.isSigned then -((2 ^ (t.bits - 1) : Nat) : Int) else 0
def intHi (t : Tag) : Int := if t.isSigned then ((2 ^ (t.bits - 1) : Nat) : Int) - 1 else ((2 ^ t.bits : Nat) : Int) - 1

/-- An element as the type's integer. -/
def intOf (t : Tag) (x : Nat) : Int := if t.isSigned then toSigned t.bits x else ((x % 2 ^ t.bits : Nat) : Int)

/-- A value saturated to the type's range. -/
def satTo (t : Tag) (x : Int) : Int := clampInt (intLo t) (intHi t) x

/-- Conversion of a value to an integer type (Table 2.10). -/
def FNum.toElem (t : Tag) (mode : Rm) (x : FNum) : Int :=
  match x with
  | .nan => 0
  | .inf s => if s then intLo t else intHi t
  | x => satTo t ((x.toInt? mode).getD 0)

/-- The value of a scale code (Table 2.3): none is the zero-block code. -/
def scaleOf (code : Nat) : Option FNum :=
  if code == 0 then none else if code == 255 then some .nan else some (.fin false 1 ((code : Int) - 127))

end Sys2Proof.Machine
end

