-- ==== Sys2Proof/Machine/Atomic.lean ====
section
/-!
DEFINITION. Far atomics (R396 to R401, R412) and SVWAIT (R402, R403).
-/

namespace Sys2Proof.Machine

open Sys2Proof

/-! The operations (Table 21.2), on words of `n` bits. -/

/-- m + X in F32, rounded RNE, without flushing. -/
def amoFadd (m x : Nat) : Nat := fF32.write .rne ((fF32.read m).add .rne (fF32.read x))

/-- The new value of the word; `y` is the new value of CAS. -/
def amoNew (f : AmoFn) (n m x y : Nat) : Nat :=
  match f with
  | .add => (m + x) % 2 ^ n
  | .sub => wrapNat n ((m : Int) - x)
  | .min => if toSigned n x < toSigned n m then x else m
  | .max => if toSigned n m < toSigned n x then x else m
  | .minu => Nat.min m x
  | .maxu => Nat.max m x
  | .and => m &&& x
  | .or => m ||| x
  | .xor => m ^^^ x
  | .xchg => x
  | .cas => if m = x then y else m
  | .fadd => amoFadd m x
  | .incw => if x ≤ m then 0 else m + 1
  | .decw => if m = 0 ∨ x < m then x else m - 1

/-- The operations that the crew's list counts (R412). -/
def AmoFn.counts : AmoFn → Bool
  | .add | .incw | .decw => true
  | _ => false

/-- The list of the last 16 distinct SY words (R412). -/
def noteSy (l : List Nat) (va : Nat) : List Nat := (va :: l.filter (· != va)).take 16

def State.noteSy (s : State) (r : CrewRef) (f : AmoFn) (pol va : Nat) : State :=
  if f.counts && pol == 2 then s.modCrew r (fun c => { c with syList := Machine.noteSy c.syList va }) else s

/-! AMO (R399). -/

/-- The address checks of AMO. -/
def amoCheck (o : AmoOps) (s : State) (c : Cur) : Except Stop Leaf :=
  s.gAccess c XReq.atomic true (c.sr o.sa).toNat (AmoOps.bytes o) (AmoOps.bytes o)

/-- One far atomic as a singleton: the state behind it and the old value; none while a PINNED chunk holds it back. -/
def State.farAtomic (s : State) (r : StrandRef) (f : AmoFn) (pa pol va bytes x y : Nat) : Option (State × Nat) :=
  if s.blockedG (some r) pa bytes then none
  else
    let m := s.rdNat pa bytes
    let s := s.writeG (some r) pa (bytesOf bytes (amoNew f (8 * bytes) m x y))
    some (s.noteSy r.w.crew f pol va, m)

/-- The event of AMO. -/
def amoEvent (f : AmoFn) (o : AmoOps) (s : State) (c : Cur) : SRes :=
  match amoCheck o s c with
  | .error e => .stop e
  | .ok l =>
    let n := AmoOps.bytes o
    let va := (c.sr o.sa).toNat
    let x := (c.sr o.sb).toNat % 2 ^ (8 * n)
    let y := (c.sr (sregAt (o.sb.val + 1))).toNat % 2 ^ (8 * n)
    match s.farAtomic c.ref f l.pa l.pol va n x y with
    | none => .blocked
    | some (s, m) => .done (s.fill c.ctx va l) ((s.fresh c).setS o.sd (BitVec.ofNat 64 m))

def amo (f : AmoFn) (o : AmoOps) (s : State) : Out :=
  s.issueSing Form.strand (fun s c => (amoCheck o s c).map (fun _ => ())) (.amo f o) (amoEvent f o)

def execAmoAdd (o : AmoOps) (s : State) : Out := amo .add o s
def execAmoSub (o : AmoOps) (s : State) : Out := amo .sub o s
def execAmoMin (o : AmoOps) (s : State) : Out := amo .min o s
def execAmoMax (o : AmoOps) (s : State) : Out := amo .max o s
def execAmoMinu (o : AmoOps) (s : State) : Out := amo .minu o s
def execAmoMaxu (o : AmoOps) (s : State) : Out := amo .maxu o s
def execAmoAnd (o : AmoOps) (s : State) : Out := amo .and o s
def execAmoOr (o : AmoOps) (s : State) : Out := amo .or o s
def execAmoXor (o : AmoOps) (s : State) : Out := amo .xor o s
def execAmoXchg (o : AmoOps) (s : State) : Out := amo .xchg o s
def execAmoCas (o : AmoOps) (s : State) : Out := amo .cas o s
def execAmoFadd (o : AmoOps) (s : State) : Out := amo .fadd o s
def execAmoIncw (o : AmoOps) (s : State) : Out := amo .incw o s
def execAmoDecw (o : AmoOps) (s : State) : Out := amo .decw o s

/-! AMOV (R400). -/

/-- The bytes of a lane's word. -/
def AmovOps.bytes (o : AmovOps) : Nat := if o.t == .w64 then 8 else 4

/-- The tags that the data registers may carry (Table 21.3). -/
def amovTag (f : AmoFn) (o : AmovOps) (t : Tag) : Bool :=
  if o.t == .w64 then t == .w64
  else if f == .fadd then t == .f32
  else t == .i32 || t == .u32 || t == .raw

/-- The data registers with their values, checked. -/
def Cur.amovData (c : Cur) (f : AmoFn) (o : AmovOps) : Except Stop (List VReg × List VecReg) := do
  let rs ← c.run o.d (o.run (f == .cas))
  c.needRegs o.va.toList
  let req := if o.t == .w64 then Tag.w64.code else if f == .fadd then Tag.f32.code else 31
  let xs ← rs.mapM (fun r => c.need r (amovTag f o) req)
  .ok (rs, xs)

/-- The value of `k` registers at lane `l`. -/
def laneNat (xs : List VecReg) (l : Nat) : Nat := xs.foldr (fun x a => (x.lane l).toNat + 2 ^ 32 * a) 0

/-- The lanes of AMOV, checked as LD's are. -/
def State.amovLanes (s : State) (c : Cur) (o : AmovOps) : Except Stop (List (Nat × Nat × Leaf)) := do
  let x ← c.xoff o.va
  let n := AmovOps.bytes o
  let rs : List LaneLoad := (c.lanes (c.enabled o.g)).map (fun l =>
    let ea := c.ea o.base (x l) o.off n
    (l, ea, s.gAccess c XReq.atomic true ea n n))
  firstStop (rs.map (fun r => (r.1, r.2.2)))
  .ok (okLanes rs)

/-- Registers that hold one value of a lane. -/
def AmovOps.span (o : AmovOps) : Nat := if o.t == .w64 then 2 else 1

/-- AMOV's results: the old values, in the enabled lanes of the registers that held the operand. -/
def Cur.amovWrite (c : Cur) (f : AmoFn) (o : AmovOps) (olds : List (Nat × Nat)) : Cur :=
  match c.run o.d (o.run (f == .cas)) with
  | .error _ => c
  | .ok rs =>
    c.writeRun (rs.take (AmovOps.span o)) (c.enabled o.g) o.t (fun l i =>
      BitVec.ofNat 32 ((((olds.find? (fun v => v.1 == l)).map (·.2)).getD 0) / 2 ^ (32 * i)))

/-- The next lane of AMOV, the lowest first: one singleton (R400); the results are written behind the last. -/
def amovNext (f : AmoFn) (o : AmovOps) (olds : List (Nat × Nat)) (s : State) (c : Cur) : List AmovLane → SRes
  | [] => .done s ((s.fresh c).amovWrite f o olds)
  | x :: rest =>
    match s.farAtomic c.ref f x.pa x.pol x.va (AmovOps.bytes o) x.x x.y with
    | none => .blocked
    | some (s', m) =>
      let olds := (x.lane, m) :: olds
      if rest.isEmpty then .done s' ((s'.fresh c).amovWrite f o olds) else .more s' (.amov f o rest olds)

/-- The lanes of AMOV with their operands, once every check has been passed. -/
def amovPlan (o : AmovOps) (xs : List VecReg) (ls : List (Nat × Nat × Leaf)) : List AmovLane :=
  let k := AmovOps.span o
  ls.map (fun x => { lane := x.1, va := x.2.1, pa := x.2.2.pa, pol := x.2.2.pol, x := laneNat (xs.take k) x.1,
                     y := laneNat (xs.drop k) x.1 })

/-- The first event of AMOV: every check, and the first lane. A register whose flagged write is pending is waited for before
any lane is performed (R62). -/
def amovEvent (f : AmoFn) (o : AmovOps) (s : State) (c : Cur) : SRes :=
  match c.amovData f o, s.amovLanes c o with
  | .ok (_, xs), .ok ls =>
    if (c.amovWrite f o []).writesPending then .stop .flags
    else amovNext f o [] (s.useLeaves c.ctx (ls.map (fun x => (x.2.1, x.2.2)))) c (amovPlan o xs ls)
  | .error e, _ => .stop e
  | _, .error e => .stop e

def amov (f : AmoFn) (o : AmovOps) (s : State) : Out :=
  s.issueSing (Form.lanesOf o.g o.cf) (fun s c => do
    let _ ← c.amovData f o
    let _ ← s.amovLanes c o
    .ok ()) (.amov f o) (amovEvent f o)

def execAmovAdd (o : AmovOps) (s : State) : Out := amov .add o s
def execAmovSub (o : AmovOps) (s : State) : Out := amov .sub o s
def execAmovMin (o : AmovOps) (s : State) : Out := amov .min o s
def execAmovMax (o : AmovOps) (s : State) : Out := amov .max o s
def execAmovMinu (o : AmovOps) (s : State) : Out := amov .minu o s
def execAmovMaxu (o : AmovOps) (s : State) : Out := amov .maxu o s
def execAmovAnd (o : AmovOps) (s : State) : Out := amov .and o s
def execAmovOr (o : AmovOps) (s : State) : Out := amov .or o s
def execAmovXor (o : AmovOps) (s : State) : Out := amov .xor o s
def execAmovXchg (o : AmovOps) (s : State) : Out := amov .xchg o s
def execAmovCas (o : AmovOps) (s : State) : Out := amov .cas o s
def execAmovFadd (o : AmovOps) (s : State) : Out := amov .fadd o s
def execAmovIncw (o : AmovOps) (s : State) : Out := amov .incw o s
def execAmovDecw (o : AmovOps) (s : State) : Out := amov .decw o s

/-! SVWAIT (R402, R403). -/

/-- The checks of SVWAIT: those of AMO with R permission, then that the page is SY (R402). -/
def svCheck (o : AmoOps) (s : State) (c : Cur) : Except Stop Leaf := do
  let va := (c.sr o.sa).toNat
  let l ← s.gAccess c XReq.load true va (AmoOps.bytes o) (AmoOps.bytes o)
  ensure (l.pol == 2) (.trap .perm va 2 none)
  .ok l

/-- The event of SVWAIT, or the wait for it. -/
def svEvent (geu : Bool) (o : AmoOps) (s : State) (c : Cur) : SRes :=
  match svCheck o s c with
  | .error e => .stop e
  | .ok l =>
    let m := s.rdNat l.pa (AmoOps.bytes o)
    let s := s.fill c.ctx (c.sr o.sa).toNat l
    if svCond geu o (c.sr o.sb) m then .done s (c.setS o.sd (BitVec.ofNat 64 m))
    else .park s (.sv geu o l.pa s.ns none)

def svwait (geu : Bool) (o : AmoOps) (s : State) : Out :=
  s.issueSing Form.strand (fun s c => (svCheck o s c).map (fun _ => ())) (.svwait geu o) (svEvent geu o)

def execSvwaitEq (o : AmoOps) (s : State) : Out := svwait false o s
def execSvwaitGeu (o : AmoOps) (s : State) : Out := svwait true o s

/-- A trap of a parked strand at its instruction. -/
def State.trapParked (s : State) (r : StrandRef) (cause : Cause) (addr extra : Nat) : State :=
  match s.curOf r with
  | none => s
  | some c =>
    (s.countTrapSquash r).enterTrap r { cause := cause, addr := addr, extra := extra, lanes := c.em } c.t.core.pc

/-- SVWAIT_WAKE (R403): the strand goes on with the value of the write that satisfied it; a word that became poisoned while
it was parked traps MEM_POISON. -/
def execSvwaitWake (r : StrandRef) (s : State) : Out :=
  match s.curOf r with
  | none => .next s
  | some c =>
    match c.t.wait with
    | .sv _ o _ _ (some m) => .next (s.resume r o.sd m)
    | .sv _ o pa _ none =>
      if (List.range (AmoOps.bytes o)).any (fun i => s.isPoison (pa + i)) then
        .next (s.trapParked r .memPoison ((c.sr o.sa).toNat / 4 * 4) 0)
      else .next s
    | _ => .next s

end Sys2Proof.Machine
end

