-- ==== Sys2Proof/Machine/Queue.lean ====
section
/-!
DEFINITION. ENQ, DEQ, DEQT and the wake of a parked DEQ (R126 to R137, R471).
-/

namespace Sys2Proof.Machine

open Sys2Proof

/-- The kind of a queue number (R126): 0 WORK, 1 LAUNCH, 2 FAULT, 3 EVENT, as Table 7.1 codes them. -/
def queueKind (q : Nat) : Nat :=
  match q with
  | 0 => 1
  | 1 => 3
  | 2 => 2
  | _ => 0

/-- A queue that is not FREE. -/
def State.liveQueue? (s : State) (ctx q : Nat) : Option Queue :=
  match s.queue? ctx q with
  | some x => if x.st == .free then none else some x
  | none => none

/-- The operand checks of R135: the scalar run, then the queue. -/
def queueCheck (enq : Bool) (o : QueueOps) (s : State) (c : Cur) : Except Stop Queue :=
  let q := o.q.toNat
  match s.liveQueue? c.ctx q with
  | none => .error (.trap .queueBad 0 q none)
  | some x =>
    if 64 < o.sa.val + x.itemBytes / 8 then .error illegalReg
    else if queueKind q == 0 || (enq && queueKind q == 1) then .ok x
    else .error (.trap .queueBad 0 q none)

/-- The items of a run of scalars, s(sa) first, little-endian. -/
def Cur.itemOf (c : Cur) (sa : SReg) (n : Nat) : List Byte :=
  (List.range n).flatMap (fun i => bytesOf 8 (c.sr (sregAt (sa.val + i))).toNat)

/-- The scalars of an item. -/
def Cur.setItem (c : Cur) (sa : SReg) (bs : List Byte) (n : Nat) : Cur :=
  (List.range n).foldl (fun c i => c.setS (sregAt (sa.val + i)) (BitVec.ofNat 64 (recField bs (8 * i) 8))) c

/-- Status and predicate of ENQ, DEQ and DEQT: the predicate of every lane of the strand. -/
def Cur.setStatus (c : Cur) (o : QueueOps) (st : Nat) (p : Bool) : Cur :=
  (c.setS o.sd (BitVec.ofNat 64 st)).setP o.p c.l (if p then c.l else 0)

/-! ENQ. -/

/-- The status of an ENQ that the queue does not take, after its count (R135). -/
def State.enqRefuse (s : State) (ctx q : Nat) (x : Queue) : State × Nat :=
  match x.st with
  | .opened => (s.countFull ctx q, 1)
  | .closing | .closed => (s, 2)
  | .configured => (s, 3)
  | _ => (s, 4)

/-- The event of ENQ. -/
def enqEvent (o : QueueOps) (s : State) (c : Cur) : SRes :=
  match queueCheck true o s c with
  | .error e => .stop e
  | .ok x =>
    let q := o.q.toNat
    let done := fun (s' : State) (st : Nat) => SRes.done s' ((s'.fresh c).setStatus o st (st != 0))
    if x.st == .opened && !(s.isFull c.ctx q x) then
      let va := x.slotVa x.tail
      let bs := c.itemOf o.sa (x.itemBytes / 8)
      if s.ringBlocked c.ctx va x.itemBytes (XReq.ringWrite .write) then .blocked
      else match s.devWrite c.ctx va bs (XReq.ringWrite .write) with
        | (s', .done) => done (s'.modQueue c.ctx q (fun x => { x with tail := x.tail + 1 })) 0
        | (_, .replayable pf) => .stop (.park pf)
        | (s', .dead e) => done (s'.queueError c.ctx q e) 4
    else
      let r := s.enqRefuse c.ctx q x
      done r.1 r.2

def execEnq (o : QueueOps) (s : State) : Out :=
  s.issueSing Form.strand (fun s c => (queueCheck true o s c).map (fun _ => ())) (.enq o) (enqEvent o)

/-! DEQ and DEQT. -/

/-- The warp consumes the items that it holds on a queue (R129). -/
def Cur.consume (c : Cur) (q : Nat) : Cur :=
  { c with warp := { c.warp with held := c.warp.held.filter (fun h => h.q != q) } }

/-- A read of an item by the device: its bytes, a replayable fault, or a fatal fault or poison (R471). -/
def State.devRead (s : State) (ctx va n : Nat) (q : XReq) : State × Except DevRes (List Byte) :=
  match s.translate ctx va q with
  | .error (.fault x false) => (s, .error (.replayable { va := va, reason := x, access := q.kind, lanes := 0 }))
  | .error _ => (s, .error (.dead 1))
  | .ok l =>
    if (List.range n).any (fun i => s.isPoison (l.pa + i)) then (s, .error (.dead 2))
    else (s.fill ctx va l, .ok (s.rdBytes l.pa n))

/-- The item at HEAD is dequeued: HEAD rises, and a CLOSING queue that is empty closes (Table 7.2). -/
def State.takeHead (s : State) (ctx q : Nat) (x : Queue) : State :=
  if x.st == .closing && x.head + 1 == x.tail then
    s.setQueueSt ctx q (fun x => { x with head := x.head + 1, st := .closed })
  else s.modQueue ctx q (fun x => { x with head := x.head + 1 })

/-! Waiters (R136). -/

/-- The order among strands that park in one cycle: core, quadrant, warp slot (R136), then strand. -/
def State.parkKey (s : State) (r : StrandRef) : Nat :=
  match s.curOf r with
  | some c => ((c.crew.core * 4 + c.crew.quad) * 32 + c.warp.slot) * 4 + r.strand
  | none => 0

/-- A waiter that parked in this cycle and is served behind `r`. -/
def State.parksBehind (s : State) (r x : StrandRef) : Bool :=
  match s.waitOf x with
  | .deq _ since => since == s.cycle.toNat && decide (s.parkKey r < s.parkKey x)
  | _ => false

/-- A strand joins the waiters, which are in the order in which they are served. -/
def State.joinWaiters (s : State) (r : StrandRef) (ws : List StrandRef) : List StrandRef :=
  let ws := ws.filter (· != r)
  ws.takeWhile (fun x => !s.parksBehind r x) ++ r :: ws.dropWhile (fun x => !s.parksBehind r x)

/-- The event of DEQ (`t` false) and DEQT (`t` true). -/
def deqTry (t : Bool) (o : QueueOps) (s : State) (c : Cur) : SRes :=
  match queueCheck false o s c with
  | .error e => .stop e
  | .ok x =>
    let q := o.q.toNat
    let answer := fun (s' : State) (st : Nat) => SRes.done s' (((s'.fresh c).consume q).setStatus o st (st == 0))
    if (x.st == .opened || x.st == .closing) && decide (x.head < x.tail) then
      match s.devRead c.ctx (x.slotVa x.head) x.itemBytes XReq.ringRead with
      | (_, .error (.replayable pf)) => .stop (.park pf)
      | (s', .error (.dead e)) => answer (s'.queueError c.ctx q e) 4
      | (s', .error .done) => answer s' 4
      | (s', .ok bs) =>
        let s' := s'.takeHead c.ctx q x
        let c' := (s'.fresh c).consume q
        let c' := { c' with warp := { c'.warp with held := c'.warp.held ++ [(⟨q, x.head⟩ : Held)] } }
        .done s' ((c'.setItem o.sa bs (x.itemBytes / 8)).setStatus o 0 true)
    else if x.st == .closed then answer s 2
    else if x.st == .error then answer s 4
    else if t && x.st == .configured then answer s 3
    else if t then answer s 1
    else .park (s.modQueue c.ctx q (fun x => { x with waiters := s.joinWaiters c.ref x.waiters })) (.deq o s.cycle.toNat)

/-- An item waits for a parked DEQ, which is served first (R136). -/
def State.waiterDue (s : State) (ctx q : Nat) : Bool :=
  match s.queue? ctx q with
  | some x => !x.waiters.isEmpty && (x.st == .closed || x.st == .error || decide (x.head < x.tail))
  | none => false

def deqEvent (o : QueueOps) (s : State) (c : Cur) : SRes :=
  if s.waiterDue c.ctx o.q.toNat then .blocked else deqTry false o s c
def deqtEvent (o : QueueOps) (s : State) (c : Cur) : SRes :=
  if s.waiterDue c.ctx o.q.toNat then .blocked else deqTry true o s c

def execDeq (o : QueueOps) (s : State) : Out :=
  s.issueSing Form.strand (fun s c => (queueCheck false o s c).map (fun _ => ())) (.deq o) (deqEvent o)
def execDeqt (o : QueueOps) (s : State) : Out :=
  s.issueSing Form.strand (fun s c => (queueCheck false o s c).map (fun _ => ())) (.deqt o) (deqtEvent o)

/-- A strand leaves the waiters of a queue. -/
def State.unwait (s : State) (ctx q : Nat) (r : StrandRef) : State :=
  s.modQueue ctx q (fun x => { x with waiters := x.waiters.filter (· != r) })

/-- A parked strand goes on behind its instruction with what it received. -/
def State.resumeCur (s : State) (c : Cur) : State :=
  s.putCur ((c.advance 1).mapT (fun t =>
    { t with wait := .none, pinCount := 0, trapReplay := false, failed := none }))

/-- The first waiter of a queue is served, if it can be (R135, R136). -/
def State.serveWaiter (s : State) (ctx q : Nat) : State :=
  match s.queue? ctx q with
  | none => s
  | some x =>
    match x.waiters with
    | [] => s
    | r :: _ =>
      match s.curOf r, s.waitOf r with
      | some c, .deq o _ =>
        match deqTry false o s c with
        | .done s' c' => (s'.resumeCur c').unwait ctx q r
        | .stop st => (s.stop c c.em c.t.core.pc st).unwait ctx q r
        | _ => s
      | _, _ => s.unwait ctx q r

/-- DEQ_WAKE. -/
def execDeqWake (ctx q : Nat) (s : State) : Out := .next (if s.waiterDue ctx q then s.serveWaiter ctx q else s)

/-- Every parked waiter receives a status (Table 7.2). -/
def State.statusAll (s : State) (ctx q st : Nat) : State :=
  match s.queue? ctx q with
  | none => s
  | some x =>
    (x.waiters.foldl (fun s r =>
      match s.curOf r, s.waitOf r with
      | some c, .deq o _ => s.resumeCur ((c.consume q).setStatus o st (st == 0))
      | _, _ => s) s).modQueue ctx q (fun x => { x with waiters := [] })

end Sys2Proof.Machine
end

