-- ==== Sys2Proof/Machine/Batch.lean ====
section
/-!
DEFINITION. Engine commands (R302 to R312, R413, R418), batches (R314 to R322) and XFENCE (R217, R218).
-/

namespace Sys2Proof.Machine

open Sys2Proof

/-! Tensor shape records (R307). -/

/-- A tensor shape record of 128 bytes. -/
structure Tsr where
  base  : Nat
  esz   : Nat
  rank  : Nat
  space : Nat
  pad   : Nat
  perm  : Nat
  ext   : List Nat
  str   : List Int
  rest  : Nat
  deriving DecidableEq, Repr

def tsrOf (bs : List Byte) : Tsr :=
  { base := recField bs 0 8, esz := recField bs 8 1, rank := recField bs 9 1, space := recField bs 10 1,
    pad := recField bs 11 1, perm := recField bs 12 4, ext := (List.range 7).map (fun d => recField bs (16 + 4 * d) 4),
    str := (List.range 7).map (fun d => toSigned 64 (recField bs (48 + 8 * d) 8)),
    rest := recField bs 44 4 + recField bs 104 24 }

/-- Element size in bytes. -/
def Tsr.size (t : Tsr) : Nat := 2 ^ (t.esz % 8)
def Tsr.rankOk (t : Tsr) : Bool := decide (1 ≤ t.rank ∧ t.rank ≤ 7)
/-- The extents of the dimensions below RANK. -/
def Tsr.exts (t : Tsr) : List Nat := t.ext.take t.rank
/-- perm[i]. -/
def Tsr.permAt (t : Tsr) (i : Nat) : Nat := field t.perm (3 * i + 2) (3 * i)
/-- The used dimensions (R307): extent and stride. -/
def Tsr.used (t : Tsr) : List (Nat × Int) := ((t.ext.zip t.str).take t.rank).filter (fun x => decide (1 < x.1))
def Tsr.crew (t : Tsr) : Bool := bitAt t.space 0
def Tsr.empty (t : Tsr) : Bool := t.exts.any (· == 0)

/-- MBZ fields and reserved values (BAD_FIELD); PERM is read in a destination record alone. -/
def Tsr.fieldsOk (t : Tsr) (dest : Bool) : Bool :=
  t.rest == 0 && t.pad == 0 && decide (t.space ≤ 1) && decide (t.esz ≤ 4) &&
    (!t.rankOk || ((t.ext.drop t.rank).all (· == 0) && (t.str.drop t.rank).all (· == 0) &&
      (!dest || t.perm / 8 ^ t.rank == 0)))

/-- The shape check: equal ranks, a permutation, matching extents. -/
def shapeOk (src dst : Tsr) : Bool :=
  src.rank == dst.rank &&
    (List.range dst.rank).all (fun i => (List.range dst.rank).any (fun j => dst.permAt j == i)) &&
    (List.range dst.rank).all (fun i => dst.ext.getD i 0 == src.ext.getD (dst.permAt i) 0)

def Tsr.aligned (t : Tsr) : Bool := t.base % t.size == 0 && t.used.all (fun x => x.2 % t.size == 0)

/-- The lowest and the highest byte addressed (R311). -/
def Tsr.span (t : Tsr) : Int × Int :=
  t.used.foldl (fun a x =>
    let v := x.2 * ((x.1 : Int) - 1)
    (a.1 + min 0 v, a.2 + max 0 v)) ((t.base : Int), (t.base : Int) + t.size - 1)

def Tsr.inRange (t : Tsr) (crewmem : Nat) : Bool :=
  let s := t.span
  if t.crew then decide (0 ≤ s.1 ∧ s.2 < crewmem)
  else decide (0 ≤ s.1 ∧ s.1 < 2 ^ 57 ∧ 0 ≤ s.2 ∧ s.2 < 2 ^ 57)

/-- Insert a dimension in order of |STR|, behind those that tie. -/
def insertDim (x : Nat × Nat) : List (Nat × Nat) → List (Nat × Nat)
  | [] => [x]
  | y :: ys => if x.2 < y.2 then x :: y :: ys else y :: insertDim x ys

/-- The overlap test of R310. -/
def Tsr.noOverlap (t : Tsr) : Bool :=
  let ds := t.used.foldl (fun l x => insertDim (x.1, x.2.natAbs) l) []
  (ds.foldl (fun (a : Bool × Nat) x => (a.1 && decide (a.2 ≤ x.2), a.2 + x.2 * (x.1 - 1))) (true, t.size)).1

/-- The first failing code of Table 16.1 over the two records, 0 for none (R309). -/
def copyStatus (src dst : Tsr) (crewmem : Nat) : Nat :=
  if !(src.fieldsOk false && dst.fieldsOk true) then 3
  else if !(src.rankOk && dst.rankOk) then 4
  else if src.esz != dst.esz then 5
  else if !(shapeOk src dst) then 6
  else if !(src.aligned && dst.aligned) then 7
  else if src.empty || dst.empty then 0
  else if !(src.inRange crewmem && dst.inRange crewmem) then 8
  else if !dst.noOverlap then 9
  else 0

/-! Accesses of a command (R215, R308). -/

/-- Where one access of an engine lies. -/
inductive Loc where
  | glob (va n : Nat)
  | crew (off n : Nat)
  deriving DecidableEq, Repr

/-- The index tuple of element `e`, dimension 0 first. -/
def tupleOf : List Nat → Nat → List Nat
  | [], _ => []
  | n :: ns, e => e % n :: tupleOf ns (e / n)

/-- Words of an element. -/
def Tsr.words (t : Tsr) : Nat := Nat.max 1 (t.size / 4)

def Tsr.loc (t : Tsr) (a : Int) (w : Nat) : Loc :=
  let at' := a.toNat + 4 * w
  if t.crew then .crew at' (Nat.min 4 t.size) else .glob at' (Nat.min 4 t.size)

/-- The place of word `u` of a destination. -/
def copyDst (dst : Tsr) (u : Nat) : Loc :=
  let j := tupleOf dst.exts (u / dst.words)
  dst.loc ((dst.base : Int) + ((j.zip dst.str).map (fun x => (x.1 : Int) * x.2)).sum) (u % dst.words)

/-- The place of its source (R308): destination dimension i takes source dimension perm[i]. -/
def copySrc (src dst : Tsr) (u : Nat) : Loc :=
  let j := tupleOf dst.exts (u / dst.words)
  src.loc ((src.base : Int) + ((List.range dst.rank).map (fun i =>
    (j.getD i 0 : Int) * src.str.getD (dst.permAt i) 0)).sum) (u % dst.words)

/-- The number of accesses, counted by word moved. -/
def CmdKind.units : CmdKind → Nat
  | .copy _ d => ((tsrOf d).exts.foldl (· * ·) 1) * (tsrOf d).words
  | .syFill _ n _ | .sySave _ n _ => n
  | .put _ _ _ n | .get _ _ _ n => n / 4

/-- Where word `u` is read, if the engine reads it. -/
def CmdKind.from? (k : CmdKind) (u : Nat) : Option Loc :=
  match k with
  | .copy a b => some (copySrc (tsrOf a) (tsrOf b) u)
  | .syFill _ _ _ => none
  | .sySave a _ _ => some (.glob (a + 4 * u) 4)
  | .put _ a _ _ => some (.glob (a + 4 * u) 4)
  | .get _ _ _ _ => none

/-- Where word `u` is written, if the engine writes it here. -/
def CmdKind.to? (k : CmdKind) (u : Nat) : Option Loc :=
  match k with
  | .copy _ b => some (copyDst (tsrOf b) u)
  | .syFill a _ _ => some (.glob (a + 4 * u) 4)
  | .sySave _ _ d => some (.glob (d + 4 * u) 4)
  | .put _ _ _ _ => none
  | .get _ a _ _ => some (.glob (a + 4 * u) 4)

/-- The class of Table 11.2, as its bit in XFENCE: 1 copy engine, 2 synchronisation engine, 3 link engine. -/
def CmdKind.cls : CmdKind → Nat
  | .copy _ _ => 1
  | .syFill _ _ _ | .sySave _ _ _ => 2
  | .put _ _ _ _ | .get _ _ _ _ => 3

def CmdKind.isPut : CmdKind → Bool
  | .put _ _ _ _ => true
  | _ => false

/-- The window of a link command. -/
def CmdKind.win? : CmdKind → Option Nat
  | .put w _ _ _ | .get w _ _ _ => some w
  | _ => none

/-- Every access has been performed or abandoned, or ended with its core (R111). -/
def Cmd.accessed (c : Cmd) : Bool := c.lost || c.abandoned || c.done.length == c.kind.units

/-- The command no longer holds its batch back: a PUT ends with its acknowledgement (R419), and one whose core was reset never
does (R111). -/
def Cmd.finished (c : Cmd) : Bool := !c.lost && c.accessed && (c.abandoned || !c.linkSent)

def State.cmd? (s : State) (id : Nat) : Option Cmd := s.cmds.find? (fun c => c.id == id)
def State.modCmd (s : State) (id : Nat) (f : Cmd → Cmd) : State := { s with cmds := updIf (fun c => c.id == id) f s.cmds }

/-- A command or a host write of the list still has accesses to perform. -/
def State.anyPending (s : State) (ids : List Nat) : Bool :=
  s.cmds.any (fun c => ids.contains c.id && !c.accessed) || s.hostw.any (fun h => ids.contains h.id)

/-! Validation (R304, R309, R413, R418). -/

/-- Bytes that must be zero. -/
def zeroAt (bs : List Byte) (lo hi : Nat) : Bool := recField bs lo (hi + 1 - lo) == 0

/-- An address field that is aligned and has bits [63:57] clear. -/
def fieldAddr (a align : Nat) : Bool := a % align == 0 && decide (a < 2 ^ 57)

/-- A read of a tensor shape record at ENGQ's event. -/
def State.readTsr (s : State) (c : Cur) (va : Nat) : Except Stop (List Byte) := do
  let l ← s.gAccess c XReq.load true va 128 128
  .ok (s.rdBytes l.pa 128)

/-- A verdict: a status, and the command where it is 0. -/
abbrev Verdict := Nat × Option CmdKind

def reject (n : Nat) : Verdict := (n, none)

def validateCopy (s : State) (c : Cur) (bs : List Byte) : Except Stop Verdict := do
  let a := recField bs 8 8
  let b := recField bs 16 8
  if recField bs 0 1 != 1 then .ok (reject 2)
  else if !(zeroAt bs 1 7 && zeroAt bs 24 63 && fieldAddr a 128 && fieldAddr b 128) then .ok (reject 3)
  else
    let src ← s.readTsr c a
    let dst ← s.readTsr c b
    match copyStatus (tsrOf src) (tsrOf dst) c.crew.launch.crewmem with
    | 0 => .ok (0, some (.copy src dst))
    | n => .ok (reject n)

def validateSync (bs : List Byte) : Verdict :=
  let opc := recField bs 0 1
  let a := recField bs 8 8
  let n := recField bs 16 8
  let v := recField bs 24 8
  if opc != 1 && opc != 2 then reject 2
  else if !(zeroAt bs 1 7 && zeroAt bs 32 63 && fieldAddr a 4 && (if opc == 1 then decide (v < 2 ^ 32) else fieldAddr v 4)) then
    reject 3
  else if n == 0 || decide (2 ^ 20 < n) then reject 16
  else if 2 ^ 57 < a + 4 * n || (opc == 2 && decide (2 ^ 57 < v + 4 * n)) then reject 17
  else (0, some (if opc == 1 then .syFill a n (BitVec.ofNat 32 v) else .sySave a n v))

/-- A link is up: ACTIVE or DEGRADED. -/
def LinkSt.up : LinkSt → Bool
  | .active | .degraded => true
  | _ => false

/-- Some link of a mask is up. -/
def State.anyLink (s : State) (mask : Nat) : Bool :=
  (List.range 12).any (fun i => bitAt mask i && (match s.links[i]? with | some l => l.st.up | none => false))

/-- A window that is registered; one whose close has been accepted is not (Table 22.3). -/
def State.window? (s : State) (ctx i : Nat) : Option Window :=
  match (s.ctx ctx).window? i with
  | some w => if w.closing then none else some w
  | none => none

def validateLink (s : State) (ctx : Nat) (bs : List Byte) : Verdict :=
  let opc := recField bs 0 1
  let win := recField bs 1 1
  let a := recField bs 8 8
  let r := recField bs 16 8
  let n := recField bs 24 4
  if opc != 1 && opc != 2 then reject 2
  else if !(zeroAt bs 2 7 && zeroAt bs 28 63 && fieldAddr a 4 && r % 4 == 0) then reject 3
  else match s.window? ctx win with
    | none => reject 16
    | some w =>
      if !(bitAt w.rights (opc - 1)) then reject 17
      else if n == 0 || n % 4 != 0 || decide (2 ^ 24 < n) then reject 18
      else if w.size < r + n || 2 ^ 57 < a + n then reject 19
      else if w.st == .frozen || !(s.anyLink w.links) then reject 20
      else (0, some (if opc == 1 then .put win a r n else .get win a r n))

/-- The engine cannot take a command now (R305, R413, R418): a core's copy engine, the package's link engine, or the
synchronisation engine of the core's die (R11, R16). -/
def State.engineFull (s : State) (c : Cur) (q : Nat) : Bool :=
  let held := fun (p : Cmd → Bool) => (s.cmds.filter (fun x => p x && !x.finished && !x.lost)).length
  decide (32 ≤ (s.cmds.filter (fun x => x.warp == some c.ref.w)).length) ||
    (match q with
     | 0 => decide (64 ≤ held (fun x => x.kind.cls == 1 && x.core == c.crew.core))
     | 1 => decide (1024 ≤ held (fun x => x.kind.cls == 3))
     | _ => decide (256 ≤ held (fun x => x.kind.cls == 2 && dieOf x.core == dieOf c.crew.core)))

def validate (s : State) (c : Cur) (q : Nat) (bs : List Byte) : Except Stop Verdict :=
  match q with
  | 0 => validateCopy s c bs
  | 1 => .ok (validateLink s c.ctx bs)
  | _ => .ok (validateSync bs)

/-! ENGQ (R303). -/


/-- The command is accepted: it joins the warp's open batch, and is abandoned at once where that is marked FAULT (R312). -/
def State.accept (s : State) (c : Cur) (k : CmdKind) : State :=
  let x : Cmd :=
    { id := s.nextCmd, kind := k, warp := some c.ref.w, mates := [], ctx := c.ctx, voy := c.ref.w.crew.voy, crew := c.ref.w.crew,
      core := c.crew.core, batch := none, openN := c.t.core.batchn, buf := [], done := [], stall := none,
      abandoned := c.warp.openFault.isSome, after := s.fencesOn c.ctx k.cls, linkSent := false, lost := false }
  { s with cmds := s.cmds ++ [x], nextCmd := s.nextCmd + 1 }

/-- Status and predicate of ENGQ. -/
def Cur.engqStatus (c : Cur) (o : EngqOps) (st : Nat) : Cur :=
  (c.setS o.sd (BitVec.ofNat 64 st)).setP o.p c.l (if st == 1 then c.l else 0)

def engqEvent (o : EngqOps) (s : State) (c : Cur) : SRes :=
  if s.engineFull c o.q.val then .done s (c.engqStatus o 1)
  else match validate s c o.q.val (c.itemOf o.sa 8) with
    | .error e => .stop e
    | .ok (st, none) => .done s (c.engqStatus o st)
    | .ok (st, some k) => .done (s.accept c k) (c.engqStatus o st)

def execEngq (o : EngqOps) (s : State) : Out := s.issueSing Form.strand (fun _ _ => .ok ()) (.engq o) (engqEvent o)

/-! BCLOSE, BWAIT and BTEST (R317 to R322). -/

def bclose (sd : SReg) (c : Cur) : Except Stop Cur :=
  let n := c.t.core.batchn
  let c := (c.mapCore (fun k => { k with batchn := n + 1 })).setS sd (n.setWidth 64)
  .ok (c.mapChunk (fun ch => { ch with closes := ch.closes ++ [n] })).endChunk

def execBclose (sd : SReg) (s : State) : Out := s.issueC Form.strand (bclose sd)

/-- Batch `m` is closed, and is `n` or an earlier one, as the strand's BATCHN orders them (R319). -/
def upTo (batchn n m : W32) : Bool :=
  decide ((batchn - n).toNat ≤ (batchn - m).toNat ∧ (batchn - m).toNat ≤ 2 ^ 31)

/-- The number named, which must be closed (R319). -/
def Cur.batchArg (c : Cur) (sa : SReg) : Except Stop W32 :=
  let n : W32 := (c.sr sa).setWidth 32
  let d := (c.t.core.batchn - n).toNat
  if 1 ≤ d ∧ d ≤ 2 ^ 31 then .ok n else .error (.trap .batchBad 0 n.toNat none)

/-- A batch up to `n` is not complete. -/
def Cur.incomplete (c : Cur) (n : W32) : Bool := c.warp.batches.any (fun b => upTo c.t.core.batchn n b.n)

/-- The report, where it names a batch up to `n`. -/
def Cur.reportFor (c : Cur) (n : W32) : Option Report :=
  match c.warp.report with
  | some r => if upTo c.t.core.batchn n r.n then some r else none
  | none => none

/-- The status word (Table 16.5). -/
def Cur.batchWord (c : Cur) (n : W32) (test : Bool) : W64 :=
  let ovf := 4 * bit (match c.warp.report with | some r => r.ovf | none => false)
  let inc := 2 * bit (test && c.incomplete n)
  match c.reportFor n with
  | some r => BitVec.ofNat 64 (2 ^ 32 * r.n.toNat + 256 * r.kind + ovf + inc + 1)
  | none => BitVec.ofNat 64 (ovf + inc)

/-- The status word and the fault address are written. -/
def Cur.setReport (c : Cur) (o : SabOps) (n : W32) (test : Bool) : Cur :=
  (c.setS o.sd (c.batchWord n test)).setS o.sb (BitVec.ofNat 64 (((c.reportFor n).map (·.va)).getD 0))

/-- BWAIT's event: the report is acknowledged (R320). -/
def Cur.bwaitDone (c : Cur) (o : SabOps) (n : W32) : Cur :=
  let c' := c.setReport o n false
  if (c.reportFor n).isSome then { c' with warp := { c'.warp with report := none } } else c'

def bwaitEvent (o : SabOps) (s : State) (c : Cur) : SRes :=
  match c.batchArg o.sa with
  | .error e => .stop e
  | .ok n => if c.incomplete n then .park s (.bw o s.ns) else .done s (c.bwaitDone o n)

def execBwait (o : SabOps) (s : State) : Out :=
  s.issueSing Form.strand (fun _ c => (c.batchArg o.sa).map (fun _ => ())) (.bwait o) (bwaitEvent o)

def execBtest (o : SabOps) (s : State) : Out :=
  s.issueC Form.strand (fun c => do
    let n ← c.batchArg o.sa
    .ok (c.setReport o n true))

/-- BWAIT_WAKE. -/
def execBwaitWake (r : StrandRef) (s : State) : Out :=
  match s.curOf r, s.waitOf r with
  | some c, .bw o _ =>
    match c.batchArg o.sa with
    | .ok n => .next (if c.incomplete n then s else s.resumeCur (c.bwaitDone o n))
    | .error _ => .next s
  | _, _ => .next s

/-! Fatal conditions and completion (R312, R315, R316). -/

/-- Abandon the unperformed accesses of the commands that satisfy a test. -/
def State.abandon (s : State) (p : Cmd → Bool) : State :=
  { s with cmds := updIf (fun c => p c && !c.accessed) (fun c => { c with abandoned := true, stall := none, buf := [] }) s.cmds }

/-- The first fault is kept. -/
def firstFault (now : Option (Nat × Nat)) (kind va : Nat) : Option (Nat × Nat) :=
  match now with
  | some x => some x
  | none => some (kind, va)

/-- A fatal condition of a command: its batch, or the warp's open copies, are marked FAULT and abandoned. -/
def State.cmdFault (s : State) (c : Cmd) (kind va : Nat) : State :=
  match c.warp with
  | none => s.abandon (fun x => x.id == c.id || c.mates.contains x.id)
  | some r =>
    match c.batch with
    | none =>
      (s.abandon (fun x => x.warp == some r && x.batch.isNone)).modWarp r (fun w =>
        { w with openFault := firstFault w.openFault kind va })
    | some _ =>
      let ids := match s.warp? r with
        | some w => (w.batches.filter (fun (b : Batch) => b.cmds.contains c.id)).flatMap Batch.cmds
        | none => []
      (s.abandon (fun x => ids.contains x.id)).modWarp r (fun w =>
        { w with batches := updIf (fun b => b.cmds.contains c.id)
                   (fun b => { b with fault := firstFault b.fault kind va }) w.batches })

/-- What fences no longer wait for leaves them, and a fence that waits for nothing is over, unless a strand is still to go on
from it. -/
def State.pruneFences (s : State) : State :=
  let waiting := fun (f : Fence) => s.refs.any (fun r => s.waitOf r == .xf f.id)
  let fs := s.fences.map (fun f => { f with before := f.before.filter (fun i => s.anyPending [i]) })
  { s with fences := fs.filter (fun f => !f.before.isEmpty || waiting f) }

/-- Commands that belong to no warp go when they are finished, or ended with their core (R323). -/
def State.dropOrphans (s : State) : State :=
  { s with cmds := s.cmds.filter (fun c => !(c.warp.isNone && (c.finished || c.lost))) }

/-- Commands that satisfy a test belong to no warp from now on; each keeps the commands of its batch (R312, R323). -/
def State.orphan (s : State) (p : Cmd → Bool) : State :=
  let mates := fun (c : Cmd) => (s.cmds.filter (fun x => x.warp == c.warp && x.batch == c.batch)).map (·.id)
  { s with cmds := updIf (fun c => p c && c.warp.isSome) (fun c => { c with warp := none, mates := mates c }) s.cmds }

/-- The fault report behind a batch that completed (R316). -/
def reportAfter (r : Option Report) (b : Batch) : Option Report :=
  match b.fault, r with
  | some (k, va), none => some { n := b.n, kind := k, va := va, ovf := false }
  | some _, some x => some { x with ovf := true }
  | none, x => x

/-- The earliest batch can complete (Table 16.4). -/
def State.batchDone (s : State) (b : Batch) : Bool :=
  b.fault.isSome || s.cmds.all (fun c => !(b.cmds.contains c.id) || c.finished)

/-- The commands of a batch leave it; a PUT whose acknowledgement is still to come belongs to no warp from then on. -/
def State.releaseCmds (s : State) (b : Batch) : State :=
  { s with cmds := (s.cmds.filter (fun c => !(b.cmds.contains c.id && c.finished))).map (fun c =>
      if b.cmds.contains c.id then { c with warp := none, mates := b.cmds } else c) }

/-- BATCH_COMPLETE: batches complete in the order in which they were closed. -/
def execBatchComplete (r : WarpRef) (s : State) : Out :=
  match s.warp? r with
  | none => .next s
  | some w =>
    match w.batches with
    | [] => .next s
    | b :: bs =>
      if s.batchDone b then
        .next ((s.releaseCmds b).modWarp r (fun w =>
          { w with batches := bs, report := reportAfter w.report b })).pruneFences
      else .next s

/-! XFENCE (R218). -/

/-- The accesses pending at a fence: the warp's commands of the classes in FROM, and host writes of the context (Table 11.5). -/
def State.pendingFor (s : State) (r : WarpRef) (fc : BitVec 5) : List Nat :=
  (s.cmds.filter (fun c => c.warp == some r && !c.accessed && bitAt fc.toNat c.kind.cls)).map (·.id) ++
    (s.hostw.filter (fun h => h.func == r.crew.ctx && bitAt fc.toNat 4)).map (·.id)

def xfenceEvent (tc fc : BitVec 5) (s : State) (c : Cur) : SRes :=
  if fc == 0 || tc == 0 then .stop illegalOperand
  else
    match s.pendingFor c.ref.w fc with
    | [] => .done s c
    | p =>
      let f : Fence := { id := s.nextFence, ctx := c.ctx, warp := c.ref.w, tc := tc, fc := fc, before := p }
      let s' := { s with fences := s.fences ++ [f], nextFence := s.nextFence + 1 }
      if bitAt tc.toNat 0 then .park s' (.xf f.id) else .done s' c

def execXfence (tc fc : BitVec 5) (s : State) : Out :=
  s.issueSing Form.strand (fun _ _ => ensure (fc != 0 && tc != 0) illegalOperand) (.xfence tc fc) (xfenceEvent tc fc)

/-- The fence's accesses have been performed. -/
def State.fenceOpen (s : State) (id : Nat) : Bool := !(s.fenced [id])

/-- XFENCE_RESUME. -/
def execXfenceResume (r : StrandRef) (s : State) : Out :=
  match s.curOf r, s.waitOf r with
  | some c, .xf id => .next (if s.fenceOpen id then (s.resumeCur c).pruneFences else s)
  | _, _ => .next s

/-- Host requests of a context's function wait for a fence with H in TO (R218). -/
def State.hostHeld (s : State) (ctx : Nat) : Bool := !(s.fencesOn ctx 4).isEmpty

end Sys2Proof.Machine
end

