-- ==== Sys2Proof/Machine/Cursor.lean ====
section
/-!
DEFINITION. The cursor (19): level descriptors (R357 to R359), fibres and elements (R360 to R363, R365), walker reads
(R368), and the instructions that make, move, read and store cursors (R370 to R377).
-/

namespace Sys2Proof.Machine

open Sys2Proof

/-! The record of a cursor (Tables 19.5 and 20.4). -/

/-- The value that is never a position (R363). -/
def noPos : Nat := 0xFFFFFFFF

def Cursor.kind (k : Cursor) : Nat := field k.head.toNat 2 0
def Cursor.isDone (k : Cursor) : Bool := bitAt k.head.toNat 3
def Cursor.ord (k : Cursor) : Bool := bitAt k.head.toNat 5
/-- The address of the level descriptor. -/
def Cursor.desc (k : Cursor) : Nat := k.head.toNat / 64 * 64
def Cursor.bound (k : Cursor) : Bool := k != Cursor.unbound

/-- Bytes 0-7. -/
def cursorHead (desc kind : Nat) (ord app done : Bool) : W64 :=
  BitVec.ofNat 64 (desc / 64 * 64 + kind % 8 + 8 * bit done + 16 * bit app + 32 * bit ord)

/-- The 32 bytes of a record. -/
def Cursor.bytes (k : Cursor) : List Byte :=
  recBytes 32 [(0, 8, k.head.toNat), (8, 4, k.lo.toNat), (12, 4, k.hi.toNat), (16, 4, k.idx.toNat), (20, 4, k.sub.toNat),
    (24, 4, k.coord.toNat), (28, 4, k.pos.toNat)]

/-- The record of 32 bytes. -/
def cursorOf (bs : List Byte) : Cursor :=
  let w := fun (off : Nat) => BitVec.ofNat 32 (recField bs off 4)
  { head := BitVec.ofNat 64 (recField bs 0 8), lo := w 8, hi := w 12, idx := w 16, sub := w 20, coord := w 24, pos := w 28 }

/-! Walker reads (R368). -/

/-- A cursor instruction: what it does to the machine and to its strand, or why it stops. -/
abbrev Walk (α : Type) := StateT (State × Cur) (Except Stop) α

def Walk.stop {α : Type} (st : Stop) : Walk α := fun _ => .error st

def Walk.need (b : Bool) (st : Stop) : Walk Unit := fun x => if b then .ok ((), x) else .error st

def Walk.ofExcept {α : Type} (f : Cur → Except Stop α) : Walk α := fun x => (f x.2).map (fun a => (a, x))

def Walk.mapCur (f : Cur → Cur) : Walk Unit := fun x => .ok ((), (x.1, f x.2))

def Walk.cur : Walk Cur := fun x => .ok (x.2, x)

/-- A read of `n` bytes by the walker. -/
def walkRead (va n : Nat) : Walk Nat := fun x =>
  match loadIn XReq.walker x va n n with
  | .ok (bs, x) => .ok (ofBytes bs, x)
  | .error e => .error e

/-- What an instruction that walks does in the chunk. -/
def Walk.inChunk (w : Walk Unit) (s : State) (c : Cur) : Except Stop (State × Cur) := (w (s, c)).map (·.2)

/-! Level descriptors (R358, R359). -/

/-- A level descriptor with the address it stands at. -/
structure LDesc where
  addr  : Nat
  flags : Nat
  blksz : Nat
  ext   : Nat
  posa  : Nat
  crda  : Nat
  auxa  : Nat
  vbase : Nat
  vtag  : Nat
  hpar  : Nat
  rest  : Nat
  deriving DecidableEq, Repr

def ldescOf (addr : Nat) (x : Nat) : LDesc :=
  let f := fun (off n : Nat) => x / 256 ^ off % 256 ^ n
  { addr := addr, flags := f 0 2, blksz := f 2 2, ext := f 4 4, posa := f 8 8, crda := f 16 8, auxa := f 24 8, vbase := f 32 8,
    vtag := f 40 1, hpar := f 41 1, rest := f 42 22 }

def LDesc.kind (d : LDesc) : Nat := field d.flags 2 0
/-- Bytes of a coordinate. -/
def LDesc.cw (d : LDesc) : Nat := if bitAt d.flags 3 then 4 else 2
/-- Bytes of a positions or rank entry. -/
def LDesc.pw (d : LDesc) : Nat := if bitAt d.flags 4 then 8 else 4
def LDesc.leaf (d : LDesc) : Bool := bitAt d.flags 5
def LDesc.ord (d : LDesc) : Bool := bitAt d.flags 6
def LDesc.level (d : LDesc) : Nat := field d.flags 10 8
/-- T of a hashed level. -/
def LDesc.t (d : LDesc) : Nat := field d.hpar 4 0

/-- The value size s(VTAG) of R361. -/
def valueSize (vtag : Nat) : Nat :=
  if vtag == 0x06 || vtag == 0x07 || vtag == 0x09 || vtag == 0x0A || vtag == 0x0F then 1
  else if vtag == 0x04 || vtag == 0x05 || vtag == 0x0D || vtag == 0x0E then 2
  else if vtag == 0x10 then 8 else 4

/-- The columns of Table 19.3 that a kind uses: CRDA, POSA, AUXA, BLKSZ, HPAR. -/
def kindUses (kind : Nat) : Bool × Bool × Bool × Bool × Bool :=
  match kind with
  | 1 => (true, true, false, false, false)
  | 2 => (false, true, true, false, false)
  | 3 => (false, false, true, false, true)
  | 4 => (false, true, true, false, false)
  | 5 => (true, true, false, true, false)
  | _ => (false, false, false, false, false)

/-- The ORD that a kind requires (Table 19.3). -/
def ordOk (kind : Nat) (ord : Bool) : Bool :=
  match kind with
  | 0 | 2 | 4 => ord
  | 3 => !ord
  | _ => true

/-- An array address that a kind uses, or the zero of one it does not use. -/
def arrayOk (used : Bool) (a align : Nat) : Bool := if used then a % align == 0 && field a 63 57 == 0 else a == 0

/-- Number of block coordinates, or of coordinates where there are no blocks. -/
def LDesc.crdMax (d : LDesc) : Nat := if d.kind == 5 then ceilDiv d.ext (Nat.max d.blksz 1) else d.ext

/-- The checks of R359. -/
def LDesc.ok (d : LDesc) : Bool :=
  let u := kindUses d.kind
  field d.flags 15 11 == 0 && !(bitAt d.flags 7) && d.rest == 0 && field d.hpar 7 5 == 0 &&
  decide (d.kind ≤ 5) && decide (d.level ≤ 6) && ordOk d.kind d.ord &&
  (u.1 || !(bitAt d.flags 3)) && arrayOk u.1 d.crda d.cw && !(u.1 && !(bitAt d.flags 3) && decide (65536 < d.crdMax)) &&
  (u.2.1 || !(bitAt d.flags 4)) && arrayOk u.2.1 d.posa d.pw &&
  arrayOk u.2.2.1 d.auxa (if d.kind == 4 then 4 else 8) &&
  (if u.2.2.2.1 then d.blksz != 0 else d.blksz == 0) &&
  (if u.2.2.2.2 then decide (1 ≤ d.t ∧ d.t ≤ 24) else d.hpar == 0) &&
  (if d.leaf then decide (d.vtag ≤ 0x10) && d.vbase % valueSize d.vtag == 0 && field d.vbase 63 57 == 0
   else d.vtag == 0 && d.vbase == 0)

/-- CURSOR_DESC that names a cursor (R370). -/
def descBad (addr k : Nat) : Stop := .trap .cursorDesc addr k none

/-- CURSOR_KIND of one cursor (R370). -/
def kindBad (k : Nat) : Stop := .trap .cursorKind 0 (k + 16 * k) none

/-- A descriptor, read and checked for cursor `k`. -/
def readDesc (a k : Nat) : Walk LDesc := do
  let d := ldescOf a (← walkRead a 64)
  Walk.need d.ok (descBad a k)
  return d

/-- A read cursor of an instruction: bound and no APPEND cursor (R370). -/
def readCursor (k : KReg) : Walk Cursor := do
  let x := (← Walk.cur).kr k
  Walk.need x.bound (descBad 0 k.val)
  Walk.need (!x.isAppend) (kindBad k.val)
  return x

/-- The checks of a cursor's descriptor, read again (R367). -/
def LDesc.fits (d : LDesc) (x : Cursor) (k : KReg) : Walk Unit :=
  Walk.need (d.ok && d.kind == x.kind && d.ord == x.ord) (descBad x.desc k.val)

/-- The descriptor of a cursor, read again (R367). -/
def descOf (x : Cursor) (k : KReg) : Walk LDesc := do
  let d := ldescOf x.desc (← walkRead x.desc 64)
  d.fits x k
  return d

/-! Fibres and elements (R360, R363, R365). -/

/-- An element found, or the index at which the search goes on, with the coordinate of the entry's last element where the entry
was read for the element that the cursor stands on (R367). -/
inductive Spot where
  | elem (idx sub coord pos : Nat)
  | skip (idx : Nat) (last : Option Nat)
  deriving DecidableEq, Repr

/-- The word of a bitmap that holds an index, with no bit at or above HI in the fibre's last word (R363). -/
def LDesc.bitWord (d : LDesc) (k idx hi : Nat) : Walk Nat := do
  let wi := idx / 64
  let w ← walkRead (d.auxa + 8 * wi) 8
  Walk.need (!(wi == (hi - 1) / 64 && w / 2 ^ (hi - 64 * wi) != 0)) (descBad d.addr k)
  return w

/-- The position of a set bit: the rank entry of its word and the bits below it. -/
def LDesc.bitPos (d : LDesc) (w idx : Nat) : Walk Nat := do
  let r ← walkRead (d.posa + d.pw * (idx / 64)) d.pw
  return r + ((List.range (idx % 64)).filter (bitAt w)).length

/-- What a single element at an index gives: itself, or, past it, its coordinate. -/
def LDesc.single (d : LDesc) (k idx sub coord pos : Nat) : Walk Spot := do
  if sub == 0 then return .elem idx 0 coord pos
  else
    Walk.need (decide (pos < noPos ∧ coord < d.ext)) (descBad d.addr k)
    return .skip (idx + 1) (some coord)

/-- The element at an index and offset of a fibre, or the next element of its bitmap word (Table 19.4). -/
def LDesc.spot (d : LDesc) (k lo hi idx sub : Nat) : Walk Spot := do
  let bad := descBad d.addr k
  match d.kind with
  | 0 => d.single k idx sub (idx - lo) idx
  | 1 => d.single k idx sub (← walkRead (d.crda + d.cw * idx) d.cw) idx
  | 2 =>
    let w ← d.bitWord k idx hi
    match (List.range (64 - idx % 64)).find? (fun i => decide (sub ≤ i) && bitAt w (idx % 64 + i)) with
    | none => return .skip (64 * (idx / 64 + 1)) none
    | some i => return .elem (idx + i) 0 (idx + i - lo) (← d.bitPos w (idx + i))
  | 3 =>
    let x ← walkRead (d.auxa + 8 * idx) 8
    if x % 2 ^ 32 == noPos then return .skip (idx + 1) none
    else d.single k idx sub (x % 2 ^ 32) (x / 2 ^ 32)
  | 4 =>
    let start ← walkRead (d.auxa + 12 * idx) 4
    let len ← walkRead (d.auxa + 12 * idx + 4) 4
    Walk.need (len != 0 && decide (start + len ≤ d.ext)) bad
    if len ≤ sub then return .skip (idx + 1) (some (start + len - 1))
    else return .elem idx sub (start + sub) (← walkRead (d.auxa + 12 * idx + 8) 4)
  | _ =>
    let b ← walkRead (d.crda + d.cw * idx) d.cw
    Walk.need (decide (b < d.crdMax)) bad
    if d.blksz ≤ sub || d.ext ≤ b * d.blksz + sub then
      return .skip (idx + 1) (some (Nat.min (b * d.blksz + d.blksz) d.ext - 1))
    else return .elem idx sub (b * d.blksz + sub) (idx * d.blksz + sub)

/-- The checks of R363 on an element, `prev` the coordinate of the element before it. -/
def LDesc.elemOk (d : LDesc) (prev : Option Nat) (coord pos : Nat) : Bool :=
  decide (pos < noPos) && decide (coord < d.ext) &&
    !(d.ord && (match prev with | some p => decide (coord ≤ p) | none => false))

/-- A read cursor that stands on an element. -/
def LDesc.at (d : LDesc) (lo hi idx sub coord pos : Nat) : Cursor :=
  { head := cursorHead d.addr d.kind d.ord false false, lo := BitVec.ofNat 32 lo, hi := BitVec.ofNat 32 hi,
    idx := BitVec.ofNat 32 idx, sub := BitVec.ofNat 32 sub, coord := BitVec.ofNat 32 coord, pos := BitVec.ofNat 32 pos }

/-- A read cursor that is DONE (R365). -/
def LDesc.done (d : LDesc) (lo hi : Nat) : Cursor :=
  { LDesc.at d lo hi hi 0 noPos noPos with head := cursorHead d.addr d.kind d.ord false true }

/-- The first element at or after an index and offset; the first argument bounds the indices looked at. The element before it in
the fibre is the one read last, else the one the cursor stood on. -/
def LDesc.find (d : LDesc) (k lo hi : Nat) : Nat → Nat → Nat → Option Nat → Walk Cursor
  | 0, _, _, _ => return d.done lo hi
  | n + 1, idx, sub, prev =>
    if hi ≤ idx then return d.done lo hi
    else do
      match ← d.spot k lo hi idx sub with
      | .skip i last => d.find k lo hi n i 0 (last <|> prev)
      | .elem i j coord pos =>
        Walk.need (d.elemOk (if j == 0 then prev else none) coord pos) (descBad d.addr k)
        return LDesc.at d lo hi i j coord pos

/-- The bounds LO and HI of the fibre of a parent position (Table 19.4). -/
def LDesc.bounds (d : LDesc) (p : Nat) : Walk (Nat × Nat) := do
  match d.kind with
  | 0 => return (p * d.ext, p * d.ext + d.ext)
  | 2 => return (64 * ceilDiv d.ext 64 * p, 64 * ceilDiv d.ext 64 * p + d.ext)
  | 3 => return (2 ^ d.t * p, 2 ^ d.t * p + 2 ^ d.t)
  | _ =>
    let lo ← walkRead (d.posa + d.pw * p) d.pw
    let hi ← walkRead (d.posa + d.pw * (p + 1)) d.pw
    return (lo, hi)

/-- A read cursor positioned on the fibre [LO, HI). -/
def LDesc.position (d : LDesc) (k lo hi : Nat) : Walk Cursor := d.find k lo hi (hi - lo + 1) lo 0 none

/-- A read cursor positioned on the fibre of a parent position (R363, R365). -/
def LDesc.bind (d : LDesc) (k p : Nat) : Walk Cursor := do
  let (lo, hi) ← d.bounds p
  Walk.need (decide (lo ≤ noPos ∧ hi ≤ noPos ∧ lo ≤ hi)) (descBad d.addr k)
  d.position k lo hi

/-- Advance (R365): the entry at the cursor's IDX is read again, as it stands (R367, log 44), and the next element is sought
behind the current one; a cursor that is DONE stays so. -/
def LDesc.advance (d : LDesc) (k : Nat) (x : Cursor) : Walk Cursor :=
  if x.isDone then return x
  else
    let lo := x.lo.toNat
    let hi := x.hi.toNat
    let i := x.idx.toNat
    d.find k lo hi (hi - i + 1) i (x.sub.toNat + 1) (some x.coord.toNat)

/-! KINIT fn 0 (R371). -/

/-- The descriptor address of KINIT. -/
def kinitAddr (a : W64) (kd : KReg) : Walk Unit := do
  Walk.need (field a.toNat 63 57 == 0) (.trap .addr a.toNat 0 none)
  Walk.need (a != 0 && a.toNat % 64 == 0) (descBad a.toNat kd.val)

def kinitR (o : KinitOps) : Walk Unit := do
  let c ← Walk.cur
  let a := c.sr o.s
  let p := c.sr (sregAt (o.s.val + 1))
  Walk.need (p.toNat < 2 ^ 32) illegalOperand
  kinitAddr a o.kd
  let d ← readDesc a.toNat o.kd.val
  let x ← d.bind o.kd.val p.toNat
  Walk.mapCur (fun c => c.setK o.kd x)

def execKinitR (o : KinitOps) (s : State) : Out := s.issue (Form.strandCf o.cf) (kinitR o).inChunk

/-! KNEXT (R372). -/

/-- An element delivered to a lane: coordinate and position. -/
abbrev Delivered := List (Nat × Nat × Nat)

/-- The elements for lanes, and the cursor behind them. -/
def LDesc.deliver (d : LDesc) (k : Nat) : List Nat → Cursor → Walk (Delivered × Cursor)
  | [], x => return ([], x)
  | l :: ls, x =>
    if x.isDone then return ([], x)
    else do
      let y ← d.advance k x
      let (rs, z) ← d.deliver k ls y
      return ((l, x.coord.toNat, x.pos.toNat) :: rs, z)

/-- What a lane receives: a field of its element, or 0xFFFFFFFF. -/
def laneOr (rs : Delivered) (f : Nat × Nat → Nat) (l : Nat) : W32 :=
  match rs.find? (fun r => r.1 == l) with
  | some r => BitVec.ofNat 32 (f r.2)
  | none => BitVec.ofNat 32 noPos

/-- The lanes that received an element. -/
def gotLanes (rs : Delivered) : Mask := maskOf 64 (fun l => rs.any (fun r => r.1 == l))

def knext (o : KnextOps) : Walk Unit := do
  let c ← Walk.cur
  Walk.ofExcept (fun c => c.needRegs [o.vc, o.vp])
  Walk.need (o.vc != o.vp) illegalOperand
  let x ← readCursor o.kd
  let d ← descOf x o.kd
  let (rs, y) ← d.deliver o.kd.val (c.lanes c.em) x
  Walk.mapCur (fun c =>
    ((((c.setK o.kd y).setV o.vc c.em (laneOr rs (·.1)) .u32).setV o.vp c.em (laneOr rs (·.2)) .u32).setP o.pd c.em
      (gotLanes rs)).setS o.s (BitVec.ofNat 64 rs.length))

def execKnext (o : KnextOps) (s : State) : Out := s.issue (Form.strandCf o.cf) (knext o).inChunk

def knextS (o : KinitOps) : Walk Unit := do
  let x ← readCursor o.kd
  let d ← descOf x o.kd
  if x.isDone then Walk.mapCur (fun c => c.setS o.s (BitVec.allOnes 64))
  else
    let y ← d.advance o.kd.val x
    Walk.mapCur (fun c => (c.setK o.kd y).setS o.s (BitVec.ofNat 64 (x.coord.toNat + 2 ^ 32 * x.pos.toNat)))

def execKnextS (o : KinitOps) (s : State) : Out := s.issue (Form.strandCf o.cf) (knextS o).inChunk

/-! KSEEK (R373). -/

/-- Advance to the first element with a coordinate of at least `v`; each advance raises the coordinate under ORD. -/
def LDesc.seek (d : LDesc) (k v : Nat) : Nat → Cursor → Walk Cursor
  | 0, x => return x
  | n + 1, x => if x.isDone || v ≤ x.coord.toNat then return x else do d.seek k v n (← d.advance k x)

def kseek (o : KinitOps) : Walk Unit := do
  let c ← Walk.cur
  let x ← readCursor o.kd
  Walk.need (x.kind != 3 && x.ord) (kindBad o.kd.val)
  let v := (c.sr o.s).toNat
  Walk.need (v < 2 ^ 32) illegalOperand
  let d ← descOf x o.kd
  let y ← d.seek o.kd.val v (v + 1) x
  Walk.mapCur (fun c => c.setK o.kd y)

def execKseek (o : KinitOps) (s : State) : Out := s.issue (Form.strandCf o.cf) (kseek o).inChunk

/-! KDESC (R374). -/

def kdesc (kd ka : KReg) : Walk Unit := do
  let x ← readCursor ka
  let up ← descOf x ka
  Walk.need (!up.leaf) (kindBad ka.val)
  let a := x.desc + 64
  let d ← readDesc a kd.val
  Walk.need (d.level == up.level + 1) (descBad a kd.val)
  if x.isDone then Walk.mapCur (fun c => c.setK kd (d.done 0 0))
  else
    let y ← d.bind kd.val x.pos.toNat
    Walk.mapCur (fun c => c.setK kd y)

def execKdesc (kd ka : KReg) (cf : Cf) (s : State) : Out := s.issue (Form.strandCf cf) (kdesc kd ka).inChunk

/-! KLD (R375). -/

def KWidth.bytes : KWidth → Nat
  | .b8 => 1 | .b16 => 2 | .b32 => 4 | .b64 => 8

/-- FORMAT's TEXTRA for a value tag held by a cursor (Table 5.2). -/
def vtagExtra (found req : Nat) (k : KReg) : Nat := found + 256 * req + 65536 * k.val + 2 ^ 26

/-- The lanes that hold a position, with their addresses and leaves. -/
def State.kldLanes (s : State) (c : Cur) (d : LDesc) (vp : VecReg) (n : Nat) : Except Stop (List (Nat × Nat × Leaf)) := do
  let ls := (c.lanes c.em).filter (fun l => (vp.lane l).toNat != noPos)
  let rs : List LaneLoad := ls.map (fun l =>
    let ea := d.vbase + (vp.lane l).toNat * n
    (l, ea, s.gAccess c XReq.loadWb true ea n n))
  firstStop (rs.map (fun r => (r.1, r.2.2)))
  .ok (okLanes rs)

def kldChunk (o : KldOps) (s : State) (c : Cur) : Except Stop (State × Cur) := do
  let n := KWidth.bytes o.w
  let ds ← c.run o.vd (if o.w == .b64 then 2 else 1)
  c.needRegs [o.vp]
  let (d, s, c) ← (do
    let x ← readCursor o.ka
    let d := ldescOf x.desc (← walkRead x.desc 64)
    Walk.need d.leaf (kindBad o.ka.val)
    d.fits x o.ka
    return d : Walk LDesc) (s, c)
  ensure (n == valueSize d.vtag) (.trap .format 0 (vtagExtra d.vtag 31 o.ka) none)
  let vp ← c.need o.vp (fun t => t == .u32 || t == .i32 || t == .raw) 31
  let ok ← s.kldLanes c d vp n
  let vals := ok.map (fun x => (x.1, c.gNat s x.2.2.pa n))
  let c := ok.foldl (fun c x => (c.readG x.2.2.pa n).usePage x.2.1) c
  let got := maskOf 64 (fun l => vals.any (fun v => v.1 == l))
  .ok (s.useLeaves c.ctx (ok.map (fun x => (x.2.1, x.2.2))),
    (c.writeRun ds c.em (Tag.ofCode d.vtag) (fun l i =>
      BitVec.ofNat 32 ((((vals.find? (fun v => v.1 == l)).map (·.2)).getD 0) / 2 ^ (32 * i)))).setP o.pd c.em got)

def execKld (o : KldOps) (s : State) : Out := s.issue (Form.strandCf o.cf) (kldChunk o)

/-! KQRY (R376). -/

/-- Table 19.8. -/
def Cursor.query (k : Cursor) (f : Nat) : Nat :=
  match f with
  | 0 => bit k.isDone
  | 1 => 16 * k.kind + 8 * bit k.bound + 4 * bit k.ord + 2 * bit k.isAppend + bit k.isDone
  | 2 => k.coord.toNat
  | 3 => k.pos.toNat
  | 4 => k.lo.toNat
  | 5 => k.hi.toNat
  | 6 => k.idx.toNat + 2 ^ 32 * k.sub.toNat
  | _ => k.desc

def execKqry (o : KqryOps) (s : State) : Out :=
  s.issueC Form.strand (fun c => .ok (c.setS o.sd (BitVec.ofNat 64 ((c.kr o.ka).query o.f.val))))

/-! KSAVE and KREST (R377). -/

def ksave (o : KmemOps) (s : State) (c : Cur) : Except Stop (State × Cur) := do
  let a := (c.sr o.sb).toNat
  let bs := (c.kr o.k).bytes
  if o.crew then
    c.cAccess false a 32
    match c.barTouched a 32 with
    | some b => .error (.trap .barrierBad b 0 none)
    | none => .ok (s, c.writeC a bs)
  else storeIn XReq.storeWb (s, c) a bs 32

def execKsave (o : KmemOps) (s : State) : Out := s.issue (Form.strandCf o.cf) (ksave o)

/-- The 32 bytes of a record in memory. -/
def krestRead (o : KmemOps) (s : State) (c : Cur) : Except Stop (List Byte × State × Cur) := do
  let a := (c.sr o.sb).toNat
  if o.crew then
    c.cAccess true a 32
    .ok (c.cBytes a 32, s, c.readC a 32)
  else loadIn XReq.loadWb (s, c) a 32 32

/-- The checks of a record that names an element or is DONE. -/
def LDesc.recOk (d : LDesc) (k : Nat) (x : Cursor) : Walk Unit := do
  let bad := descBad d.addr k
  let lo := x.lo.toNat
  let hi := x.hi.toNat
  let i := x.idx.toNat
  Walk.need (d.kind == x.kind && d.ord == x.ord) bad
  Walk.need (decide (lo ≤ i ∧ i ≤ hi) && x.isDone == (i == hi)) bad
  if x.isDone then Walk.need (x.sub == 0 && x.coord.toNat == noPos && x.pos.toNat == noPos) bad
  else
    match ← d.spot k lo hi i x.sub.toNat with
    | .skip _ _ => Walk.stop bad
    | .elem j sub coord pos =>
      Walk.need (j == i && sub == x.sub.toNat && coord == x.coord.toNat && pos == x.pos.toNat && d.elemOk none coord pos) bad

def krest (o : KmemOps) (s : State) (c : Cur) : Except Stop (State × Cur) := do
  let (bs, s, c) ← krestRead o s c
  let x := cursorOf bs
  if !x.bound then .ok (s, c.setK o.k Cursor.unbound)
  else
    ensure (!x.isAppend) (kindBad o.k.val)
    let (_, s, c) ← (do
      let d ← readDesc x.desc o.k.val
      d.recOk o.k.val x : Walk Unit) (s, c)
    .ok (s, c.setK o.k x)

def execKrest (o : KmemOps) (s : State) : Out := s.issue (Form.strandCf o.cf) (krest o)

end Sys2Proof.Machine
end

