-- ==== Sys2Proof/Machine/Coiter.lean ====
section
/-!
DEFINITION. Co-iteration (R380 to R384), append cursors (R385 to R392) and compaction (R393).
-/

namespace Sys2Proof.Machine

open Sys2Proof

/-! Classes and modes (R380, Table 20.2). -/

inductive CoClass where
  | ordered | hashed | unordered
  deriving DecidableEq, Repr

def Cursor.cls (x : Cursor) : CoClass :=
  if x.kind == 3 then .hashed
  else if (x.kind == 1 || x.kind == 5) && !x.ord then .unordered
  else .ordered

/-- How a pair is walked: merged, or driven by ka or by kb. -/
inductive CoMode where
  | merge | aDrives | bDrives
  deriving DecidableEq, Repr

def coMode (union : Bool) (a b : CoClass) : Option CoMode :=
  match a, b with
  | .ordered, .ordered => some .merge
  | .unordered, .unordered => none
  | .hashed, .ordered | .ordered, .unordered | .hashed, .unordered => if union then none else some .bDrives
  | _, _ => if union then none else some .aDrives

/-! Probes (R362, R383). -/

/-- The slot at which a coordinate's probe starts (R362). -/
def hashSlot (t c : Nat) : Nat := c * 0x9E3779B1 % 2 ^ 32 / 2 ^ (32 - t)

/-- The probe of a hashed fibre; the first argument counts the slots left. -/
def LDesc.probeHash (d : LDesc) (k lo hi c : Nat) : Nat → Nat → Walk (Option Nat)
  | 0, _ => return none
  | n + 1, i =>
    let at' := lo + i % 2 ^ d.t
    if hi ≤ at' then return none
    else do
      let x ← walkRead (d.auxa + 8 * at') 8
      let crd := x % 2 ^ 32
      if crd == noPos then return none
      else do
        Walk.need (decide (crd < d.ext)) (descBad d.addr k)
        if crd == c then do
          Walk.need (decide (x / 2 ^ 32 < noPos)) (descBad d.addr k)
          return some (x / 2 ^ 32)
        else d.probeHash k lo hi c n (i + 1)

/-- probe(P, c): the position of the element with a coordinate, over the whole fibre (R383). -/
def LDesc.probe (d : LDesc) (k : Nat) (p : Cursor) (c : Nat) : Walk (Option Nat) := do
  let lo := p.lo.toNat
  let hi := p.hi.toNat
  if d.ext ≤ c then return none
  else match d.kind with
    | 0 => return if lo + c < hi then some (lo + c) else none
    | 2 =>
      if hi ≤ lo + c then return none
      else do
        let w ← d.bitWord k (lo + c) hi
        if bitAt w ((lo + c) % 64) then do
          let pos ← d.bitPos w (lo + c)
          Walk.need (decide (pos < noPos)) (descBad d.addr k)
          return some pos
        else return none
    | 3 => d.probeHash k lo hi c (2 ^ d.t) (hashSlot d.t c)
    | _ => do
      let x ← d.position k lo hi
      let y ← d.seek k c (c + 1) x
      return if !y.isDone && y.coord.toNat == c then some y.pos.toNat else none

/-! next() (R382). -/

/-- The two sides of a co-iteration. -/
structure CoSt where
  da : LDesc
  db : LDesc
  ka : Nat
  kb : Nat
  a  : Cursor
  b  : Cursor
  deriving DecidableEq, Repr

/-- A result element. -/
structure CoElem where
  coord : Nat
  posA  : Nat
  posB  : Nat
  inA   : Bool
  inB   : Bool
  deriving DecidableEq, Repr

def CoSt.stepA (x : CoSt) : Walk CoSt := do return { x with a := ← x.da.advance x.ka x.a }
def CoSt.stepB (x : CoSt) : Walk CoSt := do return { x with b := ← x.db.advance x.kb x.b }

/-- An element that both sides hold. -/
def CoSt.both (x : CoSt) : CoElem :=
  { coord := x.a.coord.toNat, posA := x.a.pos.toNat, posB := x.b.pos.toNat, inA := true, inB := true }

/-- merge, KCO.I; each round advances a side. -/
def CoSt.mergeI : Nat → CoSt → Walk (Option CoElem × CoSt)
  | 0, x => return (none, x)
  | n + 1, x =>
    if x.a.isDone || x.b.isDone then return (none, x)
    else if x.a.coord == x.b.coord then do return (some x.both, ← (← x.stepA).stepB)
    else if x.a.coord.toNat < x.b.coord.toNat then do CoSt.mergeI n (← x.stepA)
    else do CoSt.mergeI n (← x.stepB)

/-- merge, KCO.U. -/
def CoSt.mergeU (x : CoSt) : Walk (Option CoElem × CoSt) :=
  if x.a.isDone && x.b.isDone then return (none, x)
  else if !x.a.isDone && (x.b.isDone || decide (x.a.coord.toNat < x.b.coord.toNat)) then do
    return (some { x.both with posB := noPos, inB := false }, ← x.stepA)
  else if !x.b.isDone && (x.a.isDone || decide (x.b.coord.toNat < x.a.coord.toNat)) then do
    return (some { x.both with coord := x.b.coord.toNat, posA := noPos, inA := false }, ← x.stepB)
  else do return (some x.both, ← (← x.stepA).stepB)

/-- probe: the driver is iterated and the other side is probed. -/
def CoSt.probing (aDrives : Bool) : Nat → CoSt → Walk (Option CoElem × CoSt)
  | 0, x => return (none, x)
  | n + 1, x =>
    if x.a.isDone || x.b.isDone then return (none, x)
    else if aDrives then do
      let q ← x.db.probe x.kb x.b x.a.coord.toNat
      let y ← x.stepA
      match q with
      | some p => return (some { x.both with posB := p }, y)
      | none => CoSt.probing aDrives n y
    else do
      let q ← x.da.probe x.ka x.a x.b.coord.toNat
      let y ← x.stepB
      match q with
      | some p => return (some { x.both with coord := x.b.coord.toNat, posA := p }, y)
      | none => CoSt.probing aDrives n y

/-- A bound on the elements of a cursor's fibre. -/
def LDesc.most (d : LDesc) (x : Cursor) : Nat := (x.hi.toNat - x.lo.toNat + 1) * (d.blksz + 1) + d.ext + 2

def CoSt.next (m : CoMode) (union : Bool) (x : CoSt) : Walk (Option CoElem × CoSt) :=
  match m with
  | .merge => if union then x.mergeU else CoSt.mergeI (x.da.ext + x.db.ext + 2) x
  | .aDrives => CoSt.probing true (x.da.most x.a) x
  | .bDrives => CoSt.probing false (x.db.most x.b) x

/-- The elements for lanes, and the sides behind them. -/
def CoSt.deliver (m : CoMode) (union : Bool) : List Nat → CoSt → Walk (List (Nat × CoElem) × CoSt)
  | [], x => return ([], x)
  | l :: ls, x => do
    match ← x.next m union with
    | (none, y) => return ([], y)
    | (some e, y) =>
      let (rs, z) ← CoSt.deliver m union ls y
      return ((l, e) :: rs, z)

/-- What a lane receives. -/
def coLane (rs : List (Nat × CoElem)) (f : CoElem → Nat) (l : Nat) : W32 :=
  match rs.find? (fun r => r.1 == l) with
  | some r => BitVec.ofNat 32 (f r.2)
  | none => BitVec.ofNat 32 noPos

/-- The lanes whose element satisfies a test. -/
def coMask (rs : List (Nat × CoElem)) (f : CoElem → Bool) : Mask := maskOf 64 (fun l => rs.any (fun r => r.1 == l && f r.2))

/-- KCO (R381). -/
def kco (union : Bool) (o : KcoOps) : Walk Unit := do
  let c ← Walk.cur
  Walk.ofExcept (fun c => c.needRegs [o.vc])
  let vps ← Walk.ofExcept (fun c => c.run o.vp 2)
  Walk.need (o.ka != o.kb && !(vps.contains o.vc)) illegalOperand
  let a ← readCursor o.ka
  let b ← readCursor o.kb
  match coMode union a.cls b.cls with
  | none => Walk.stop (.trap .cursorKind 0 (o.ka.val + 16 * o.kb.val) none)
  | some m =>
    let da ← descOf a o.ka
    let db ← descOf b o.kb
    let (rs, x) ← CoSt.deliver m union (c.lanes c.em) { da := da, db := db, ka := o.ka.val, kb := o.kb.val, a := a, b := b }
    let done := if union then x.a.isDone && x.b.isDone else x.a.isDone || x.b.isDone
    Walk.mapCur (fun c =>
      let c := (c.setK o.ka x.a).setK o.kb x.b
      let c := (c.setV o.vc c.em (coLane rs (·.coord)) .u32).writeRun vps c.em .u32 (fun l i =>
        coLane rs (fun e => if i == 0 then e.posA else e.posB) l)
      ((c.setP o.pa c.em (coMask rs (·.inA))).setP o.pb c.em (coMask rs (·.inB))).setS o.s
        (BitVec.ofNat 64 (rs.length + 2 ^ 32 * bit done)))

def execKcoI (o : KcoOps) (s : State) : Out := s.issue (Form.strandCf o.cf) (kco false o).inChunk
def execKcoU (o : KcoOps) (s : State) : Out := s.issue (Form.strandCf o.cf) (kco true o).inChunk

/-! Append runs (R385, R386) and KINIT fn 1 (R388). -/

/-- VOFF of a run with capacity `m`. -/
def runVoff (m : Nat) : Nat := 128 + 64 * ceilDiv (4 * m) 64

/-- The extents of a run with capacity `m` and value size `sz`. -/
def runExtents (m sz : Nat) : Nat := ceilDiv (runVoff m + 64 * ceilDiv (m * sz) 64) 4096

/-- A template descriptor (R388). -/
def LDesc.template (d : LDesc) : Bool :=
  d.flags == 0x0069 && decide (1 ≤ d.ext) && d.posa == 0 && d.crda == 0 && d.auxa == 0 && d.vbase == 0 && d.blksz == 0 &&
    d.hpar == 0

/-- The checks of KINIT fn 1: the template. -/
def kinitATemplate (o : KinitOps) : Walk LDesc := do
  let c ← Walk.cur
  let a := c.sr o.s
  let m := (c.sr (sregAt (o.s.val + 1))).toNat
  Walk.need (decide (c.warp.live ≤ 1) && m != 0 && decide (m < 2 ^ 32)) illegalOperand
  kinitAddr a o.kd
  let d ← readDesc a.toNat o.kd.val
  Walk.need d.template (descBad a.toNat o.kd.val)
  Walk.need (decide (m ≤ d.ext)) illegalOperand
  return d

/-- The APPEND cursor of a run at `b`, with EXT and VTAG of its template. -/
def appendCursor (ext vtag b m : Nat) : Cursor :=
  { head := cursorHead b 1 true true false, lo := 0, hi := BitVec.ofNat 32 m, idx := BitVec.ofNat 32 noPos,
    sub := BitVec.ofNat 32 ext, coord := BitVec.ofNat 32 vtag, pos := BitVec.ofNat 32 (runVoff m) }

/-- EXT and VTAG of the template: as they were read before the chunk ended, else read now. -/
def kinitARead (o : KinitOps) (t : Option (Nat × Nat)) (s : State) (c : Cur) : Except Stop ((Nat × Nat) × State × Cur) :=
  match t with
  | some t => .ok (t, s, c)
  | none => (kinitATemplate o (s, c)).map (fun x => ((x.1.ext, x.1.vtag), x.2))

/-- The event of KINIT fn 1: the run is taken from the heap of the core's die (R385). -/
def kinitAEvent (o : KinitOps) (t : Option (Nat × Nat)) (s : State) (c : Cur) : SRes :=
  match kinitARead o t s c with
  | .error e => .stop e
  | .ok ((ext, vtag), s', c') =>
    let m := (c.sr (sregAt (o.s.val + 1))).toNat
    let die := dieOf c.crew.core
    let voy := c.ref.w.crew.voy
    let n := runExtents m (valueSize vtag)
    let heapx := c.crew.launch.heapx
    let taken := ((((s.ctx c.ctx).voyage? voy).map (·.heap)).getD []).getD die 0
    if heapx < taken + n then .stop (.trap .appendHeap 0 die none)
    else
      let b := c.crew.launch.heap.toNat + (die * heapx + taken) * 4096
      .done (s'.modCtx c.ctx (fun x => x.modVoyage voy (fun v => { v with heap := setAt v.heap die (taken + n) })))
        (c'.setK o.kd (appendCursor ext vtag b m))

/-- KINIT fn 1: the template is read in the open chunk, whose read signature it joins, before that chunk ends (R368, R388). -/
def State.performKinitA (s : State) (c : Cur) (o : KinitOps) : State :=
  let fm := Form.strandCf o.cf
  let chk := fun (s : State) (c : Cur) => (kinitATemplate o (s, c)).map (fun _ => ())
  match c.firstCause fm (chk s c), kinitATemplate o (s, c) with
  | .ok _, .ok (d, s', c') =>
    if c.t.chunk.st == .opened then
      (({ s'.putCur c' with caches := s'.caches.note c'.crew.core c'.acc }).endBefore c').modStrand c.ref
        (fun t => { t with wait := .sing (.kinitA o (some (d.ext, d.vtag))) })
    else s.performSing c fm chk (.kinitA o none) (kinitAEvent o none)
  | _, _ => s.performSing c fm chk (.kinitA o none) (kinitAEvent o none)

def execKinitA (o : KinitOps) (s : State) : Out :=
  match s.cur? with
  | none => .fault .noStrand
  | some c => if s.mayIssue c false then .next (s.performKinitA c o) else .fault .notReady

/-! Appending (R391). -/

/-- The APPEND cursor of an instruction. -/
def Cur.appendCursor (c : Cur) (k : KReg) : Except Stop Cursor := do
  let x := c.kr k
  ensure x.bound (descBad 0 k.val)
  ensure x.isAppend (kindBad k.val)
  .ok x

/-- A candidate: its lane and element number, its coordinate and its value. -/
structure Item where
  lane  : Nat
  elem  : Nat
  coord : Nat
  val   : Nat
  deriving DecidableEq, Repr

/-- The candidates that are appended and the status: 1 APPEND_ORDER, 2 COORD_RANGE, 3 APPEND_FULL. -/
def appendPlan (ext cap : Nat) : Nat → Nat → List Item → List Item × Nat
  | _, _, [] => ([], 0)
  | count, last, i :: is =>
    if ext ≤ i.coord then ([], 2)
    else if last != noPos && decide (i.coord ≤ last) then ([], 1)
    else if count == cap then ([], 3)
    else
      let (rs, st) := appendPlan ext cap (count + 1) i.coord is
      (i :: rs, st)

/-- VTAG of an APPEND cursor. -/
def Cursor.vtag (x : Cursor) : Nat := x.coord.toNat % 256

/-- The stores of the appended items, each checked before any is made. -/
def appendStores (x : Cursor) (items : List Item) (s : State) (c : Cur) : Except Stop (State × Cur) := do
  let n := x.lo.toNat
  let sz := valueSize x.vtag
  let at' := fun (i : Nat) => (x.desc + 128 + 4 * (n + i), x.desc + x.pos.toNat + sz * (n + i))
  let one := fun (i : Nat) => (do
    let a ← s.gAccess c XReq.storeWb false (at' i).1 4 4
    let b ← s.gAccess c XReq.storeWb false (at' i).2 sz sz
    .ok (a, b) : Except Stop (Leaf × Leaf))
  firstStop ((List.range items.length).map (fun i => ((items[i]?.map (·.lane)).getD 0, one i)))
  (List.range items.length).foldlM (fun y i => do
    let it := (items[i]?).getD { lane := 0, elem := 0, coord := 0, val := 0 }
    let y ← storeIn XReq.storeWb y (at' i).1 (bytesOf 4 it.coord) 4
    storeIn XReq.storeWb y (at' i).2 (bytesOf sz it.val) sz) (s, c)

/-- The cursor behind the items. -/
def Cursor.appended (x : Cursor) (items : List Item) : Cursor :=
  match items.getLast? with
  | none => x
  | some i => { x with lo := BitVec.ofNat 32 (x.lo.toNat + items.length), idx := BitVec.ofNat 32 i.coord }

/-- Append candidates: their stores, the cursor, the lanes and the status (R391). -/
def appendItems (k : KReg) (x : Cursor) (cands : List Item) (s : State) (c : Cur) :
    Except Stop (List Item × Nat × State × Cur) := do
  let (items, st) := appendPlan x.sub.toNat x.hi.toNat x.lo.toNat x.idx.toNat cands
  let (s, c) ← appendStores x items s c
  .ok (items, st, s, c.setK k (x.appended items))

/-- The lanes of items. -/
def itemLanes (items : List Item) : Mask := maskOf 64 (fun l => items.any (fun i => i.lane == l))

/-- The status word: count and code. -/
def appendStatus (items : List Item) (st : Nat) : W64 := BitVec.ofNat 64 (st + 2 ^ 32 * items.length)

/-- KAPP's value registers, checked. -/
def kappValues (o : KappOps) (x : Cursor) (c : Cur) : Except Stop (List VReg) :=
  if valueSize x.vtag == 8 then
    if o.vv.code % 2 == 1 then .error illegalReg else c.run o.vv 2
  else .ok [o.vv]

def kapp (o : KappOps) (s : State) (c : Cur) : Except Stop (State × Cur) := do
  c.needRegs [o.vc, o.vv]
  let x ← c.appendCursor o.kd
  let vs ← kappValues o x c
  let cs ← c.need o.vc (fun t => t == .u32 || t == .i32 || t == .raw) 31
  let tag := Tag.ofCode x.vtag
  let vals ← vs.mapM (fun r => c.need r (fun t => t == tag || t == .raw) (if tag == .raw then 0 else 31))
  let cands := (c.lanes (c.em &&& c.pr o.ps)).map (fun l =>
    ({ lane := l, elem := 0, coord := (cs.lane l).toNat,
       val := vals.foldr (fun v a => (v.lane l).toNat + 2 ^ 32 * a) 0 } : Item))
  let (items, st, s, c) ← appendItems o.kd x cands s c
  .ok (s, (c.setP o.pa c.em (itemLanes items)).setS o.s (appendStatus items st))

def execKapp (o : KappOps) (s : State) : Out := s.issue (Form.strandCf o.cf) (kapp o)

/-! KFIN (R392). -/

/-- The descriptor of a closed run. -/
def Cursor.runDesc (x : Cursor) : LDesc :=
  { addr := x.desc, flags := 0x0069, blksz := 0, ext := x.sub.toNat, posa := x.desc + 64, crda := x.desc + 128, auxa := 0,
    vbase := x.desc + x.pos.toNat, vtag := x.vtag, hpar := 0, rest := 0 }

def LDesc.bytes (d : LDesc) : List Byte :=
  recBytes 64 [(0, 2, d.flags), (2, 2, d.blksz), (4, 4, d.ext), (8, 8, d.posa), (16, 8, d.crda), (24, 8, d.auxa),
    (32, 8, d.vbase), (40, 1, d.vtag), (41, 1, d.hpar)]

def kfin (o : KinitOps) (s : State) (c : Cur) : Except Stop (State × Cur) := do
  let x ← c.appendCursor o.kd
  let b := x.desc
  let d := x.runDesc
  let y ← storesIn XReq.storeWb 8 (piecesAt 8 b (d.bytes ++ bytesOf 4 0 ++ bytesOf 4 x.lo.toNat)) (s, c)
  let (k, s, c) ← d.position o.kd.val 0 x.lo.toNat y
  .ok (s, (c.setK o.kd k).setS o.s (BitVec.ofNat 64 b))

def execKfin (o : KinitOps) (s : State) : Out := s.issue (Form.strandCf o.cf) (kfin o)

/-! SIEVE (R393). -/

/-- The cursor and the dense register of SIEVE, checked. -/
def sieveRegs (c : Cur) (k : KReg) (vx : VReg) (t : Tag) : Except Stop (Cursor × VecReg) := do
  let x ← c.appendCursor k
  ensure (x.vtag == t.code) (.trap .format 0 (vtagExtra x.vtag t.code k) none)
  let v ← if t == .i32 || t == .u32 then c.need vx (fun g => g == t || g == .raw) 31 else c.needTag vx t
  .ok (x, v)

/-- The candidates: the elements of the lanes of EM that are kept, in order. -/
def sieveItems (c : Cur) (t : Tag) (base : Nat) (x : VecReg) (keep : Nat → Nat → Nat → Bool) : List Item :=
  (c.lanes c.em).flatMap (fun l => (List.range t.elems).filterMap (fun e =>
    let v := elemAt t.bits (x.lane l) e
    if keep l e v then some { lane := l, elem := e, coord := base + l * t.elems + e, val := v } else none))

/-- NZ: not +0, -0 or integer 0. -/
def notZero (t : Tag) (v : Nat) : Bool := (if t.isFloat then v % 2 ^ (t.bits - 1) else v) != 0

def FNum.abs : FNum → FNum
  | .nan => .nan
  | .inf _ => .inf false
  | .zero _ => .zero false
  | .fin _ m e => .fin false m e

/-- DELTA: the value has changed by more than the threshold. -/
def changed (t : Tag) (th : FNum) (x k : Nat) : Bool :=
  let f := ffmtOf t
  let a := f.read x
  let b := f.read k
  if a.isNan || b.isNan then true
  else match a.add .rne b.neg with
    | .nan => false
    | d => d.abs.cmp th == .gt

def sieveNz (o : SieveOps) (s : State) (c : Cur) : Except Stop (State × Cur) := do
  c.needRegs [o.vx]
  let (x, v) ← sieveRegs c o.kd o.vx o.t
  let b := (c.sr o.s).toNat
  ensure (decide (b < 2 ^ 32)) illegalOperand
  let (items, st, s, c) ← appendItems o.kd x (sieveItems c o.t b v (fun _ _ e => notZero o.t e)) s c
  .ok (s, (c.setP o.pk c.em (itemLanes items)).setS (sregAt (o.s.val + 1)) (appendStatus items st))

def execSieveNz (o : SieveOps) (s : State) : Out := s.issue (Form.strandCf o.cf) (sieveNz o)

/-- A lane of the kept state with the appended elements replaced. -/
def deltaLane (t : Tag) (items : List Item) (k : VecReg) (l : Nat) : W32 :=
  mapElems t (fun e => match items.find? (fun i => i.lane == l && i.elem == e) with
    | some i => i.val
    | none => elemAt t.bits (k.lane l) e)

def sieveDelta (o : DeltaOps) (s : State) (c : Cur) : Except Stop (State × Cur) := do
  c.needRegs [o.vx, o.vk]
  ensure (o.vx != o.vk) illegalOperand
  let (x, v) ← sieveRegs c o.kd o.vx o.t
  let k ← c.needTag o.vk o.t
  let w := (c.sr o.s).toNat
  let th := fF32.read (w / 2 ^ 32)
  ensure (!th.isNan && !(th.isNeg && th != .zero true)) illegalOperand
  let cands := sieveItems c o.t (w % 2 ^ 32) v (fun l e y => changed o.t th y (elemAt o.t.bits (k.lane l) e))
  let (items, st, s, c) ← appendItems o.kd x cands s c
  let m := itemLanes items
  .ok (s, (((c.setV o.vk m (deltaLane o.t items k) o.t).setP o.pk c.em m).setS (sregAt (o.s.val + 1))
    (appendStatus items st)))

def execSieveDelta (o : DeltaOps) (s : State) : Out := s.issue (Form.strandCf o.cf) (sieveDelta o)

end Sys2Proof.Machine
end

