-- ==== Sys2Proof/Machine/Engine.lean ====
section
/-!
DEFINITION. The accesses of engines (R215, R308, R312, R413, R419): ENGINE_ACCESS performs one access of one command.
-/

namespace Sys2Proof.Machine

open Sys2Proof

/-- How an access of an engine went. -/
inductive EngRes where
  | ok (s : State) (bs : List Byte)
  /-- A fatal condition: kind of Table 16.8 and address. -/
  | fatal (kind va : Nat)
  | stall (pf : PageFault)
  /-- It must wait for a PINNED chunk (R199). -/
  | blocked
  deriving DecidableEq, Repr

/-- Reads and writes of bulk commands (R413): no E permission (Table 15.3 asks it of copy and link engines). -/
def XReq.bulk (w noSy : Bool) : XReq := { kind := .engine, r := !w, w := w, e := false, noSy := noSy, noUc := false }

/-- The kind that a fatal fault reports (R312, Table 16.8). -/
def State.faultKind (s : State) (ctx va cls : Nat) (r : Reason) : Nat :=
  if r == .policy && cls == 1 && s.pagePol ctx va == some 2 then 0x42 else r.code

/-- The place of a SYFILL or of the words that a SYSAVE reads must be an SY page of the overflow area (R394, R413). -/
def CmdKind.needsSy (k : CmdKind) (w : Bool) : Bool :=
  match k with
  | .syFill _ _ _ => w
  | .sySave _ _ _ => !w
  | _ => false

/-- What an access asks of its page. -/
def CmdKind.req (k : CmdKind) (w : Bool) : XReq :=
  if k.cls == 2 then XReq.bulk w (!(k.needsSy w)) else if w then XReq.engineWrite else XReq.engineRead

/-- The leaf of a global access, or how it ends. What must be an SY page and is not is POLICY, whatever its permissions
(R413), but for a leaf whose range is unbacked (R470). -/
def State.engineXlate (s : State) (c : Cmd) (w : Bool) (va : Nat) : Except EngRes Leaf :=
  let wrong := c.kind.needsSy w && (match s.pagePol c.ctx va with | some p => p != 2 | none => false)
  match s.translate c.ctx va (c.kind.req w) with
  | .error (.fault .unbacked _) => .error (.fatal Reason.unbacked.code va)
  | .error .gone => .error (.fatal 0x40 va)
  | .error (.fault r fatal) =>
    if wrong then .error (.fatal Reason.policy.code va)
    else if fatal then .error (.fatal (s.faultKind c.ctx va c.kind.cls r) va)
    else .error (.stall { va := va, reason := r, access := .engine, lanes := 0 })
  | .error (.attr _) => .error (.fatal (if wrong then Reason.policy.code else 0x41) va)
  | .ok l =>
    if wrong || (c.kind.needsSy w && !((s.ctx c.ctx).inOvf l.pa)) then .error (.fatal Reason.policy.code va) else .ok l

/-- A read of an engine. -/
def State.engineRead (s : State) (c : Cmd) : Loc → EngRes
  | .glob va n =>
    match s.engineXlate c false va with
    | .error e => e
    | .ok l =>
      if (List.range n).any (fun i => s.isPoison (l.pa + i)) then .fatal 0x40 va
      else .ok ((s.fill c.ctx va l).recall (wordsOf l.pa n)) (s.rdBytes l.pa n)
  | .crew off n =>
    match s.crew? c.crew with
    | none => .blocked
    | some x =>
      if (List.range n).any (fun i => x.poison.contains ((off + i) / 32)) then .fatal 0x40 off
      else .ok s (cellsRead x.mem off n)

/-- A write of an engine to crew memory, as one singleton. -/
def State.writeCrew (s : State) (r : CrewRef) (off : Nat) (bs : List Byte) : State :=
  (s.modCrew r (fun c => { c with mem := cellsPut c.mem off bs })).conflict
    { src := none, gs := [], crew := some r, cs := wordsOf off bs.length }

/-- A write of an engine. -/
def State.engineWrite (s : State) (c : Cmd) (bs : List Byte) : Loc → EngRes
  | .glob va n =>
    match s.engineXlate c true va with
    | .error e => e
    | .ok l => if s.blockedG none l.pa n then .blocked else .ok ((s.fill c.ctx va l).writeG none l.pa bs) bs
  | .crew off n =>
    match s.crew? c.crew with
    | none => .blocked
    | some x =>
      if x.bars.any (fun b => decide (b.off < off + n ∧ off < b.off + 8)) then .fatal 0x43 off
      else if s.pinBlocks { src := none, gs := [], crew := some c.crew, cs := wordsOf off n } then .blocked
      else .ok (s.writeCrew c.crew off bs) bs

/-- The FAULT record of an engine's replayable fault (R141). -/
def State.engineRecord (s : State) (c : Cmd) (f : FaultRec) : FaultRec :=
  let x := (s.crew? c.crew).map (fun x => (x.quad, ((c.warp.bind (fun r => x.warp? r.warp)).map (·.slot)).getD 0))
  { f with core := c.core, quad := (x.getD (0, 0)).1, slot := (x.getD (0, 0)).2, strand := 255, isOpen := c.batch.isNone,
           voy := c.voy, crew := c.crew.crew, batch := (c.batch.getD c.openN).toNat }

/-- The command stalls until REPLAY (R312). In a context that is DESTROYED none can be accepted (R87), so what it has not
performed is abandoned there (log 51). -/
def State.engineStall (s : State) (c : Cmd) (pf : PageFault) : State :=
  if (s.ctx c.ctx).st == .destroyed then s.abandon (fun x => x.id == c.id)
  else
  let (s, id) := s.attachFault c.ctx pf (.cmd c.id) (s.engineRecord c)
  s.modCmd c.id (fun x => { x with stall := some (id, pf.va) })

/-- What a condition does to the command; an access that was performed is handled by `f`. Nothing cached that led to a fault
stays (R297). -/
def State.engineDo (s : State) (c : Cmd) (r : EngRes) (f : State → List Byte → State) : State :=
  match r with
  | .ok s bs => { f s bs with free := s.free + 1 }
  | .fatal k va => (s.forget c.ctx va).cmdFault c k va
  | .stall pf => s.engineStall c pf
  | .blocked => s

/-! Counters of windows (R416, R421). -/

/-- A counter of a window: DCNT or SCNT. -/
def Window.counter (w : Window) (d : Bool) : W64 := if d then w.dcnt else w.scnt

/-- The parked WCWAITs of a window that its counter or its freeze satisfies keep the value of that moment (R421). -/
def Strand.latchWin (ctx win : Nat) (w : Window) (r : Nat) (t : Strand) : Strand :=
  match t.wait with
  | .wc d o since none =>
    if r == ctx && o.win.toNat == win &&
        (w.st == .frozen || decide ((if o.sb.val == 0 then 0 else (t.core.s.getD o.sb.val 0).toNat) ≤ (w.counter d).toNat)) then
      { t with wait := .wc d o since (some (w.counter d, w.st == .frozen)) }
    else t
  | _ => t

def State.latchWindow (s : State) (ctx win : Nat) : State :=
  match (s.ctx ctx).window? win with
  | none => s
  | some w =>
    { s with crews := s.crews.map (fun c => { c with warps := c.warps.map (fun x =>
        { x with strands := x.strands.map (Option.map (Strand.latchWin ctx win w c.ref.ctx)) }) }) }

/-- A window changes and its waiters are checked. -/
def State.modWindow (s : State) (ctx win : Nat) (f : Window → Window) : State :=
  (s.modCtx ctx (fun c => c.modWindow win f)).latchWindow ctx win

def State.countSrc (s : State) (ctx win : Nat) : State := s.modWindow ctx win (fun w => { w with scnt := w.scnt + 1 })
def State.countDst (s : State) (ctx win : Nat) : State := s.modWindow ctx win (fun w => { w with dcnt := w.dcnt + 1 })

/-- Flits pass on the links of a mask that are up (Table 23.6). -/
def State.flits (s : State) (mask : Nat) : State :=
  { s with links := (List.range s.links.length).filterMap (fun i => (s.links[i]?).map (fun l =>
      if bitAt mask i && l.st.up then
        { l with flitsOut := l.flitsOut + BitVec.ofNat 64 (Config.linkFlits s.free i 0),
                 flitsIn := l.flitsIn + BitVec.ofNat 64 (Config.linkFlits s.free i 1) }
      else l)) }

/-- A link command's access uses the links of its window. -/
def State.flitsOf (s : State) (c : Cmd) : State :=
  match c.kind.win? with
  | some w => s.flits (((s.window? c.ctx w).map (·.links)).getD 0)
  | none => s

/-! One access (R215). -/

/-- A word has been moved; a GET that is complete counts in DCNT, and a PUT whose words have all been sent waits for its
acknowledgement (R419). -/
def State.unitDone (s : State) (c : Cmd) (k : Nat) : State :=
  let c' := { c with done := c.done ++ [k], buf := c.buf.filter (fun b => b.1 != k) }
  let full := c'.done.length == c'.kind.units
  let s := (s.flitsOf c).modCmd c.id (fun _ => { c' with linkSent := c'.kind.isPut && full })
  match c'.kind with
  | .get win _ _ _ => if full then s.countDst c.ctx win else s
  | _ => s

/-- The next access of word `k`: its read, or its write. -/
def State.engineUnit (s : State) (c : Cmd) (k : Nat) : State :=
  match (c.buf.find? (fun b => b.1 == k)).map (·.2), c.kind.from? k, c.kind.to? k with
  | none, some src, dst =>
    s.engineDo c (s.engineRead c src) (fun s bs =>
      if dst.isNone then s.unitDone c k else s.modCmd c.id (fun x => { x with buf := x.buf ++ [(k, bs)] }))
  | some bs, _, some dst => s.engineDo c (s.engineWrite c bs dst) (fun s _ => s.unitDone c k)
  | none, none, some dst =>
    match c.kind with
    | .syFill _ _ v => s.engineDo c (s.engineWrite c (bytesOf 4 v.toNat) dst) (fun s _ => s.unitDone c k)
    | _ => s
  | _, _, _ => s

/-- The command may make an access of word `k` now. -/
def State.unitReady (s : State) (c : Cmd) (k : Nat) : Bool :=
  !c.accessed && c.stall.isNone && decide (k < c.kind.units) && !(c.done.contains k) && !(s.fenced c.after)

/-- ENGINE_ACCESS. -/
def execEngineAccess (id k : Nat) (s : State) : Out :=
  match s.cmd? id with
  | none => .next s
  | some c => if s.unitReady c k then .next ((s.engineUnit c k).dropOrphans).pruneFences else .next s

end Sys2Proof.Machine
end

