-- ==== Sys2Proof/Machine/Link.lean ====
section
/-!
DEFINITION. The link (22): WCWAIT (R421), the states of links (R414), failures (R420), and what arrives from a peer (R419,
R222, R223).
-/

namespace Sys2Proof.Machine

open Sys2Proof

/-! WCWAIT (R421). -/

def wcWindow (o : WcOps) (s : State) (c : Cur) : Except Stop Window :=
  match s.window? c.ctx o.win.toNat with
  | some w => .ok w
  | none => .error illegalOperand

/-- What WCWAIT writes at its event. -/
def Cur.wcDone (c : Cur) (o : WcOps) (v : W64) (frozen : Bool) : Cur :=
  (c.setS o.sd v).setP o.p c.l (if frozen then c.l else 0)

def wcEvent (d : Bool) (o : WcOps) (s : State) (c : Cur) : SRes :=
  match wcWindow o s c with
  | .error e => .stop e
  | .ok w =>
    if w.st == .frozen || decide ((c.sr o.sb).toNat ≤ (w.counter d).toNat) then
      .done s (c.wcDone o (w.counter d) (w.st == .frozen))
    else .park s (.wc d o s.ns none)

def wcwait (d : Bool) (o : WcOps) (s : State) : Out :=
  s.issueSing Form.strand (fun s c => (wcWindow o s c).map (fun _ => ())) (.wcwait d o) (wcEvent d o)

def execWcwaitS (o : WcOps) (s : State) : Out := wcwait false o s
def execWcwaitD (o : WcOps) (s : State) : Out := wcwait true o s

/-- WCWAIT_WAKE. -/
def execWcwaitWake (r : StrandRef) (s : State) : Out :=
  match s.curOf r, s.waitOf r with
  | some c, .wc _ o _ (some (v, frozen)) => .next (s.resumeCur (c.wcDone o v frozen))
  | _, _ => .next s

/-! Link states (R414, R420). -/

def LinkSt.code : LinkSt → Nat
  | .down => 0 | .training => 1 | .active => 2 | .degraded => 3 | .quiesced => 4 | .failed => 5

def State.link? (s : State) (i : Nat) : Option Link := s.links[i]?
def State.modLink (s : State) (i : Nat) (f : Link → Link) : State := { s with links := modAt s.links i f }

/-- The windows of a context that may use a link. -/
def Ctx.linkWindows (c : Ctx) (i : Nat) : List Window := c.windows.filter (fun w => bitAt w.links i)

/-- The LINK event of a context (R420). -/
def State.linkEvent (s : State) (ctx i new old lanes : Nat) (frozen : List Nat) : State :=
  s.event ctx 8 [(16, 1, i), (17, 1, new), (18, 1, old), (19, 1, lanes), (32, 32, (frozen.map (2 ^ ·)).sum)]

/-- The commands in flight on a window end (R420). -/
def State.endWindowCmds (s : State) (ctx win : Nat) : State :=
  (s.cmds.filter (fun c => c.ctx == ctx && c.kind.win? == some win && !c.finished)).foldl (fun s c =>
    ((s.modCmd c.id (fun x => { x with linkSent := false, abandoned := true, stall := none, buf := [] })).cmdFault c 0x45
      (Config.linkFaultVa s.free c.id)).dropOrphans) s

/-- A window is frozen: its commands, and those of the peer on it, end, and its waiters wake. -/
def State.freezeWindow (s : State) (ctx win : Nat) : State :=
  let s := (s.endWindowCmds ctx win).pruneFences
  let ended := fun (p : PeerCmd) => { p with bad := true, stall := none }
  { s with peers := updIf (fun p => p.ctx == ctx && p.win == win) ended s.peers }.modWindow ctx win
    (fun w => { w with st := .frozen })

/-- A link goes to FAILED or DOWN: windows that include it are frozen, in one step (R420). -/
def State.linkLost (s : State) (i : Nat) (st : LinkSt) : State :=
  match s.link? i with
  | none => s
  | some l =>
    let s := s.modLink i (fun l => { l with st := st, lanes := 0 })
    (s.ctxs.map (·.num)).foldl (fun s n =>
      match (s.ctx n).linkWindows i with
      | [] => s
      | ws =>
        let open' := (ws.filter (fun w => w.st == .opened)).map (·.id)
        (ws.foldl (fun s w => s.freezeWindow n w.id) s).linkEvent n i st.code l.st.code 0 open') s

/-- A link becomes ACTIVE or DEGRADED: its event is posted (R420). -/
def State.linkUp (s : State) (i lanes : Nat) (st : LinkSt) : State :=
  match s.link? i with
  | none => s
  | some l =>
    let s := s.modLink i (fun l => { l with st := st, lanes := lanes })
    (s.ctxs.map (·.num)).foldl (fun s n =>
      match (s.ctx n).linkWindows i with
      | [] => s
      | _ => s.linkEvent n i st.code l.st.code lanes []) s

/-- LINK_TRAINING_DONE. -/
def execLinkTrainingDone (link lanes : Nat) (s : State) : Out :=
  match s.link? link with
  | none => .next s
  | some l =>
    if l.st == .training && decide (lanes ≤ 16) then
      let s := s.modLink link (fun l => { l with trained := lanes })
      .next (if lanes == 16 then s.linkUp link lanes .active
        else if 8 ≤ lanes then s.linkUp link lanes .degraded
        else s.linkLost link .failed)
    else .next s

/-- LINK_LANE_LOSS: `lanes` remain. -/
def execLinkLaneLoss (link lanes : Nat) (s : State) : Out :=
  match s.link? link with
  | none => .next s
  | some l =>
    if l.st.up && decide (lanes < l.lanes) then
      let s := s.modLink link (fun l => { l with losses := l.losses + 1 })
      .next (if lanes < 8 then s.linkLost link .failed
        else if l.st == .active then s.linkUp link lanes .degraded
        else s.modLink link (fun l => { l with lanes := lanes }))
    else .next s

/-- LINK_FAILURE: an unrecoverable error. -/
def execLinkFailure (link : Nat) (s : State) : Out :=
  match s.link? link with
  | none => .next s
  | some l => .next (if l.st.up then s.linkLost link .failed else s)

/-- LINK_LEVEL_ERROR: flits are replayed (Table 23.6). -/
def execLinkLevelError (link flits : Nat) (s : State) : Out :=
  .next (s.modLink link (fun l => { l with replays := l.replays + BitVec.ofNat 32 flits }))

/-! Commands of peers here (R419, R222). -/

/-- A word of a peer's command, with the context and the window it names. -/
structure PeerOps extends PeerUnit where
  ctx : Nat
  win : Nat

/-- The word that a peer's command names. -/
def peerOps (ctx win : Nat) (o : PeerUnit) : PeerOps := { toPeerUnit := o, ctx := ctx, win := win }

/-- A peer's command that is under way here. -/
def State.peer? (s : State) (ctx id : Nat) : Option PeerCmd := s.peers.find? (fun p => p.ctx == ctx && p.id == id)

/-- A peer's command as it arrives: it follows the fences of the context in force (R218). -/
def State.newPeer (s : State) (o : PeerOps) (put : Bool) : PeerCmd :=
  { ctx := o.ctx, win := o.win, id := o.id, put := put, roff := o.roff, len := o.len, done := [], bad := false, stall := none,
    after := s.fencesOn o.ctx 3 }

def State.peerOf (s : State) (o : PeerOps) (put : Bool) : PeerCmd := (s.peer? o.ctx o.id).getD (s.newPeer o put)

/-- The command with what has become of it. -/
def State.putPeer (s : State) (p : PeerCmd) : State :=
  { s with peers := s.peers.filter (fun x => !(x.ctx == p.ctx && x.id == p.id)) ++ [p] }

def State.dropPeer (s : State) (p : PeerCmd) : State :=
  { s with peers := s.peers.filter (fun x => !(x.ctx == p.ctx && x.id == p.id)) }

/-- A window that a peer may use at an offset. -/
def State.peerWindow (s : State) (ctx win off right : Nat) : Option Window :=
  match s.window? ctx win with
  | some w => if w.st == .opened && bitAt w.rights right && decide (off + 4 ≤ w.size) && off % 4 == 0 then some w else none
  | none => none

/-- The command is refused: nothing more of it is made, and a PUT never counts. -/
def State.peerRefuse (s : State) (p : PeerCmd) : State :=
  { (if p.put then s.putPeer { p with bad := true, stall := none } else s.dropPeer p) with resp := some .unsupported }

/-- How a peer's access that cannot be made ends: it stalls until REPLAY (access 3, strand 0xFF, batch 0), or the command is
refused. -/
def State.peerFault (s : State) (p : PeerCmd) (va : Nat) : XErr → State
  | .fault r false =>
    let (s, id) := s.attachFault p.ctx { va := va, reason := r, access := .engine, lanes := 0 } (.peer p.id) (fun f => f)
    { s.putPeer { p with stall := some id } with resp := some .deferred }
  | _ => s.peerRefuse p

/-- The command can make its word `k` now. -/
def State.peerReady (s : State) (p : PeerCmd) (k : Nat) : Bool :=
  p.stall.isNone && !(s.fenced p.after) && !(p.done.contains k)

/-- The place of a word of a peer's command, and its leaf; none where the command is refused. -/
def State.peerWord (s : State) (p : PeerCmd) (o : PeerOps) (right : Nat) (q : XReq) : Option (Window × Nat × Except XErr Leaf) :=
  if p.bad || p.put != (right == 0) || p.win != o.win || decide (p.len ≤ 4 * o.k) then none
  else match s.peerWindow o.ctx o.win (p.roff + 4 * o.k) right with
    | none => none
    | some x =>
      let va := x.base + p.roff + 4 * o.k
      if field va 63 57 != 0 then none else some (x, va, s.translate o.ctx va q)

/-- A word of a peer's PUT is written. -/
def State.putWord (s : State) (p : PeerCmd) (o : PeerOps) (v : W32) : State :=
  match s.peerWord p o 0 XReq.engineWrite with
  | none => s.peerRefuse p
  | some (_, va, .error e) => (s.forget o.ctx va).peerFault p va e
  | some (x, va, .ok l) =>
    if s.blockedG none l.pa 4 then s
    else { ((s.putPeer { p with done := p.done ++ [o.k] }).fill o.ctx va l |>.flits x.links).writeG none l.pa (bytesOf 4 v.toNat)
           with resp := some .successful, free := s.free + 1 }

/-- Every word of a PUT has been written here. -/
def PeerCmd.complete (p : PeerCmd) : Bool := p.put && !p.bad && decide (0 < p.len) && p.done.length == p.len / 4

/-- The end of a peer's PUT: the destination counter counts it, once every word of it is in G (R222). -/
def State.putEnd (s : State) (p : PeerCmd) : State :=
  if p.bad then { s.dropPeer p with resp := some .unsupported }
  else if !p.complete then s
  else match s.window? p.ctx p.win with
    | some x =>
      if x.st == .opened then { (s.dropPeer p).countDst p.ctx p.win with resp := some .successful }
      else { s.dropPeer p with resp := some .unsupported }
    | none => { s.dropPeer p with resp := some .unsupported }

/-- LINK_REMOTE_PUT: one word of a peer's PUT, or the end of one. -/
def execLinkRemotePut (ctx win : Nat) (off : PeerUnit) (w : Option W32) (s : State) : Out :=
  let o := peerOps ctx win off
  let p := s.peerOf o true
  .next (match w with
    | none => s.putEnd p
    | some v => if s.peerReady p o.k then s.putWord p o v else s)

/-- A word of a peer's GET is read; the command ends with its last word. -/
def State.getWord (s : State) (p : PeerCmd) (o : PeerOps) : State :=
  match s.peerWord p o 1 XReq.engineRead with
  | none => s.peerRefuse p
  | some (_, va, .error e) => (s.forget o.ctx va).peerFault p va e
  | some (x, va, .ok l) =>
    if (List.range 4).any (fun i => s.isPoison (l.pa + i)) then s.peerRefuse p
    else
      let p := { p with done := p.done ++ [o.k] }
      let s' := if p.done.length == p.len / 4 then s.dropPeer p else s.putPeer p
      { ((s'.fill o.ctx va l).flits x.links).recall (wordsOf l.pa 4) with
          resp := some (.data (s.rdBytes l.pa 4)), free := s.free + 1 }

/-- LINK_REMOTE_GET: one word read for a peer's GET. -/
def execLinkRemoteGet (ctx win : Nat) (off : PeerUnit) (s : State) : Out :=
  let o := peerOps ctx win off
  let p := s.peerOf o false
  .next (if s.peerReady p o.k then s.getWord p o else s)

/-- What stalls a peer's command is answered (R296, R419). -/
def State.answerPeer (s : State) (ctx id fault : Nat) (fail : Bool) : State :=
  match s.peer? ctx id with
  | none => s
  | some p => if p.stall == some fault then s.putPeer { p with stall := none, bad := p.bad || fail } else s

/-! What a peer answers to our commands. -/

/-- LINK_PUT_ACK: the source counter counts, and the command is finished (R223). -/
def execLinkPutAck (cmd : Nat) (s : State) : Out :=
  match s.cmd? cmd with
  | none => .next s
  | some c =>
    match c.kind with
    | .put win _ _ _ =>
      .next (if c.linkSent then
          (((s.modCmd cmd (fun x => { x with linkSent := false })).flitsOf c).countSrc c.ctx win).dropOrphans
        else s)
    | _ => .next s

/-- LINK_GET_DATA: a word of a GET arrives; ENGINE_ACCESS writes it. -/
def execLinkGetData (cmd k : Nat) (w : W32) (s : State) : Out :=
  match s.cmd? cmd with
  | none => .next s
  | some c =>
    match c.kind with
    | .get _ _ _ _ =>
      .next (if s.unitReady c k && !(c.buf.any (fun b => b.1 == k)) then
          (s.flitsOf c).modCmd cmd (fun x => { x with buf := x.buf ++ [(k, bytesOf 4 w.toNat)] })
        else s)
    | _ => .next s

/-- LINK_PEER_FAULT: the peer refused or faulted the command. -/
def execLinkPeerFault (cmd : Nat) (s : State) : Out :=
  match s.cmd? cmd with
  | none => .next s
  | some c =>
    .next (if c.kind.cls == 3 && !c.finished then
        (((s.cmdFault c 0x44 (Config.linkFaultVa s.free cmd)).modCmd cmd (fun x =>
          { x with linkSent := false, abandoned := true, stall := none, buf := [] })).dropOrphans).pruneFences
      else s)

end Sys2Proof.Machine
end

