-- ==== Sys2Proof/Machine/Special.lean ====
section
/-!
DEFINITION. The special functions of FSF (R254, R255): exact special inputs, a rational approximation of the exact result far
below the bounds of Table 13.3, and the implementation's own value (log 5) wherever it lies within its bound.
-/

namespace Sys2Proof.Machine

open Sys2Proof

/-- The eight functions of FSF. -/
inductive SfFn where
  | rcp | rsq | sqrt | exp2 | log2 | sin | cos | tanh
  deriving DecidableEq, Repr

def SfFn.code : SfFn → Nat
  | .rcp => 0 | .rsq => 1 | .sqrt => 2 | .exp2 => 3 | .log2 => 4 | .sin => 5 | .cos => 6 | .tanh => 7

/-! Fixed-point numbers: a Nat or Int `x` stands for `x / 2 ^ 160`. -/

/-- The unit, 2^160. -/
def fxOne : Nat := 2 ^ 160

/-- The largest r with r * r at most m, for m below 4 ^ (k + 1). -/
def isqrt (m : Nat) : Nat → Nat → Nat
  | 0, r => if (r + 1) * (r + 1) ≤ m then r + 1 else r
  | k + 1, r => isqrt m k (if (r + 2 ^ (k + 1)) * (r + 2 ^ (k + 1)) ≤ m then r + 2 ^ (k + 1) else r)

/-- ln 2 as a sum of 1 / (k * 2^k). -/
def fxLn2 : Nat := (List.range 170).foldl (fun a k => a + fxOne / ((k + 1) * 2 ^ (k + 1))) 0

/-- arctan (1 / n). -/
def fxArctanInv (n : Nat) : Int :=
  (List.range 80).foldl (fun (a : Int) k =>
    let t : Nat := fxOne / (n ^ (2 * k + 1) * (2 * k + 1))
    if k % 2 == 0 then a + t else a - t) 0

/-- pi / 2, by Machin's formula. -/
def fxHalfPi : Nat := (8 * fxArctanInv 5 - 2 * fxArctanInv 239).toNat

/-- A product of fixed-point numbers. -/
def fxMul (a b : Int) : Int := a * b / (fxOne : Int)

/-- Taylor sum with terms t0, t0 * y / (d 1), ...: `d k` divides term k. -/
def fxSeries (n : Nat) (t0 y : Int) (d : Nat → Nat) : Int :=
  ((List.range n).foldl (fun (p : Int × Int) k =>
    let t := fxMul p.2 y / (d (k + 1) : Int)
    (p.1 + t, t)) (t0, t0)).1

/-- e^y for |y| at most 1. -/
def fxExp (y : Int) : Int := fxSeries 48 fxOne y id

/-- sin y and cos y for |y| at most 1. -/
def fxSin (y : Int) : Int := fxSeries 24 y (-(fxMul y y)) (fun k => (2 * k) * (2 * k + 1))
def fxCos (y : Int) : Int := fxSeries 24 fxOne (-(fxMul y y)) (fun k => (2 * k - 1) * (2 * k))

/-- A dyadic number as fixed point, truncated. -/
def fxOf (neg : Bool) (m : Nat) (e : Int) : Int :=
  sgn neg (if 0 ≤ e + 160 then m * 2 ^ (e + 160).toNat else m / 2 ^ (-(e + 160)).toNat)

/-- Squaring `k` times. -/
def fxSquare : Nat → Int → Int
  | 0, x => x
  | k + 1, x => fxSquare k (fxMul x x)

/-- The bits of log2 m behind the point, for m in [1, 2). -/
def fxLog2 : Nat → Nat → Nat → Nat
  | 0, _, a => a
  | k + 1, m, a =>
    let q := m * m / fxOne
    if 2 * fxOne ≤ q then fxLog2 k (q / 2) (2 * a + 1) else fxLog2 k q (2 * a)

/-- An approximation of a result: a signed multiple of a power of two, and whether it is exact. -/
structure Approx where
  v : Int
  e : Int
  exact : Bool
  deriving DecidableEq, Repr

def Approx.ofFx (x : Int) : Approx := { v := x, e := -160, exact := false }

/-- Whether a positive multiple is a power of two. -/
def isPow2 (m : Nat) : Bool := m == 2 ^ Nat.log2 m

/-- The function of a finite, non-zero argument. -/
def SfFn.approx (f : SfFn) (neg : Bool) (m : Nat) (e : Int) : Approx :=
  match f with
  | .rcp => { v := sgn neg (2 ^ 160 / m), e := -160 - e, exact := isPow2 m }
  | .sqrt | .rsq =>
    -- the radicand as an even power of two times an integer of at least 160 bits
    let odd := (e % 2).toNat
    let x := m * 2 ^ (200 + odd)
    let h : Int := (e - odd - 200) / 2
    let r := isqrt x 120 0
    if f == .sqrt then { v := r, e := h, exact := r * r == x }
    else { v := 2 ^ 300 / r, e := -300 - h, exact := isPow2 m && odd == Nat.log2 m % 2 }
  | .exp2 =>
    let x := fxOf neg m e
    let n := x / (fxOne : Int)
    let r := fxExp (fxMul (x - n * fxOne) fxLn2)
    let whole := decide (0 ≤ e) || m % 2 ^ (-e).toNat == 0
    if whole then { v := 1, e := n, exact := true } else { v := r, e := n - 160, exact := false }
  | .log2 =>
    let k : Int := (Nat.log2 m : Int) + e
    let one := m * 2 ^ 160 / 2 ^ Nat.log2 m
    if isPow2 m then { v := k, e := 0, exact := true }
    else { v := k * 2 ^ 90 + (fxLog2 90 one 0 : Nat), e := -90, exact := false }
  | .sin | .cos =>
    let x := fxOf neg m e
    let q := (2 * x + fxHalfPi) / (2 * (fxHalfPi : Int))
    let y := x - q * fxHalfPi
    let turn := (if f == .sin then q else q + 1) % 4
    .ofFx (if turn == 0 then fxSin y else if turn == 1 then fxCos y else if turn == 2 then -(fxSin y) else -(fxCos y))
  | .tanh =>
    let a := fxOf false m e
    let t : Int :=
      if (40 * fxOne : Int) ≤ a then fxOne
      else
        -- t = (1 - u) / (1 + u) with u = e^(-2a)
        let u := fxSquare 7 (fxExp (-(a / 64)))
        (fxOne - u) * fxOne / (fxOne + u)
    .ofFx (if neg then -t else t)

/-! Bounds (Table 13.3). -/

/-- Exponent of the ULP of an approximated result in F32. -/
def Approx.ulp (a : Approx) : Int :=
  let q : Int := (Nat.log2 a.v.natAbs : Int) + a.e - 23
  if q < -149 then -149 else q

/-- An F32 encoding as a signed multiple of 2^-149; infinity stands for 2^128. -/
def f32Units (x : Nat) : Option Int :=
  match fF32.read x with
  | .nan => none
  | .inf s => some (sgn s (2 ^ 277))
  | .zero _ => some 0
  | .fin s m e => some (sgn s (m * 2 ^ (e + 149).toNat))

/-- The distance of an F32 value from the exact result is at most `k * 2 ^ b`: its distance from the approximation keeps below
that by more than the approximation's own error, one part in 2^60. -/
def Approx.within (a : Approx) (x : Nat) (k : Nat) (b : Int) : Bool :=
  match f32Units x with
  | none => false
  | some u =>
    -- on the grid of 2^-400, or the grid of the approximation where that is finer
    let g : Int := if a.e < -400 then a.e else -400
    let d := (u * 2 ^ (-149 - g).toNat - a.v * 2 ^ (a.e - g).toNat).natAbs
    let lim := k * 2 ^ (b - g).toNat
    decide (d + lim / 2 ^ 60 ≤ lim)

/-- The argument lies in [0.5, 2]. -/
def midRange (m : Nat) (e : Int) : Bool :=
  let q : Int := (Nat.log2 m : Int) + e
  q == -1 || q == 0 || (q == 1 && isPow2 m)

/-- The argument is at most 65,536 in magnitude. -/
def smallAngle (m : Nat) (e : Int) : Bool :=
  let q : Int := (Nat.log2 m : Int) + e
  decide (q < 16) || (q == 16 && isPow2 m)

/-- An F32 value in [-1, 1]. -/
def atMostOne (x : Nat) : Bool :=
  match f32Units x with
  | some u => decide (-(2 ^ 149) ≤ u ∧ u ≤ 2 ^ 149)
  | none => false

/-- Whether an implementation may return `x` for the function of `m * 2 ^ e`. -/
def SfFn.allows (f : SfFn) (a : Approx) (m : Nat) (e : Int) (x : Nat) : Bool :=
  match f with
  | .sqrt => false
  | .rcp | .rsq => a.within x 1 a.ulp
  | .exp2 => a.within x 2 a.ulp
  | .log2 => if midRange m e then a.within x 1 (-22) else a.within x 2 a.ulp
  | .sin | .cos => if smallAngle m e then a.within x 1 (-21) else atMostOne x
  | .tanh => a.within x 1 (-21) && atMostOne x

/-- The exact cases: the result has no freedom. -/
def SfFn.fixed (f : SfFn) (a : Approx) : Bool :=
  match f with
  | .rcp => a.exact && decide (-126 ≤ (Nat.log2 a.v.natAbs : Int) + a.e)
  | .exp2 => a.exact && decide (-149 ≤ (Nat.log2 a.v.natAbs : Int) + a.e)
  | .rsq | .log2 => a.exact
  | _ => false

/-- A magnitude too large for exp2 to be approximated: its result overflows or vanishes. -/
def expBeyond (m : Nat) (e : Int) : Bool := decide (10 ≤ (Nat.log2 m : Int) + e)

/-- Round an approximation in F32. -/
def Approx.round (a : Approx) (mode : Rm) : Nat :=
  if a.v == 0 then 0 else fF32.round mode (decide (a.v < 0)) a.v.natAbs a.e (!a.exact)

/-- What is computed of the function: an approximation, with the magnitudes that exp2 cannot reach and the angles of which only
the range is given (Table 13.3). -/
def SfFn.value (f : SfFn) (neg : Bool) (m : Nat) (e : Int) : Approx :=
  if f == .exp2 && expBeyond m e then { v := 1, e := if neg then -1000 else 1000, exact := false }
  else if (f == .sin || f == .cos) && !(smallAngle m e) then { v := 0, e := 0, exact := false }
  else f.approx neg m e

/-- The approximation rounded in F32; FTANH never leaves [-1, 1]. -/
def SfFn.own (f : SfFn) (a : Approx) (mode : Rm) : Nat :=
  let x := a.round mode
  if f == .tanh && !(atMostOne x) then fF32.write mode (.fin (decide (a.v < 0)) 1 0) else x

/-- An F32 result of a function of a finite, non-zero F32 argument `x`, before flushing: the implementation's value where the
bound allows it, else the correctly rounded one (log 5). -/
def SfFn.finite (f : SfFn) (mode : Rm) (x : Nat) (neg : Bool) (m : Nat) (e : Int) : Nat :=
  let a := f.value neg m e
  let c := Config.sfValue f.code (match mode with | .rne => 0 | .rtz => 1 | .rup => 2 | .rdn => 3) x % 2 ^ 32
  if !(f.fixed a) && f.allows a m e c then c else f.own a mode

/-- The special inputs of Table 13.4; none where the function is to be computed. -/
def SfFn.special (f : SfFn) : FNum → Option FNum
  | .nan => some .nan
  | .inf neg => some (match f with
    | .rcp => .zero neg
    | .rsq => if neg then .nan else .zero false
    | .sqrt | .log2 => if neg then .nan else .inf false
    | .exp2 => if neg then .zero false else .inf false
    | .sin | .cos => .nan
    | .tanh => .fin neg 1 0)
  | .zero neg => some (match f with
    | .rcp | .rsq => .inf neg
    | .sqrt | .sin | .tanh => .zero neg
    | .exp2 | .cos => .fin false 1 0
    | .log2 => .inf true)
  | .fin neg _ _ =>
    match f with
    | .rsq | .sqrt | .log2 => if neg then some .nan else none
    | _ => none

/-- The function's value of an F32 argument that is no special input, before flushing. -/
def SfFn.single (f : SfFn) (mode : Rm) (x : Nat) : Nat :=
  match fF32.read x with
  | .fin neg m e => f.finite mode x neg m e
  | _ => fF32.nanBits

/-- FSQRT of a positive value in a format, correctly rounded. -/
def sqrtIn (ft : FFmt) (mode : Rm) : FNum → Nat
  | .fin _ m e =>
    let a := SfFn.sqrt.approx false m e
    ft.round mode false a.v.natAbs a.e (!a.exact)
  | _ => ft.nanBits

/-- One element of FSF: the type's format, ACR and the selected mode. An F16 or BF16 element is widened exactly to F32, and the
F32 function's value under RNE is rounded once to its format. -/
def SfFn.elem (f : SfFn) (t : Tag) (acr : BitVec 10) (mode : Rm) (x : Nat) : Nat :=
  let ft := ffmtOf t
  let v := ft.input acr x
  match f.special v with
  | some r => ft.write mode r
  | none =>
    if f == .sqrt then ft.flushOut acr (sqrtIn ft mode v)
    else if t == .f32 then ft.flushOut acr (f.single mode x)
    else ft.result acr mode (fF32.read (f.single .rne (fF32.write .rne v)))

end Sys2Proof.Machine
end

