-- ==== Sys2Proof/Machine/Scalar.lean ====
section
/-!
DEFINITION. Scalar instructions (R226 to R229).
-/

namespace Sys2Proof.Machine

open Sys2Proof

/-! Functions of 64-bit values (Table 12.2). -/

/-- A shift amount: X[5:0]. -/
def shamt (x : W64) : Nat := x.toNat % 64

def sMin (a b : W64) : W64 := if Cc.lt.holds b a then b else a
def sMax (a b : W64) : W64 := if Cc.lt.holds a b then b else a
def sMinU (a b : W64) : W64 := if Cc.ltu.holds b a then b else a
def sMaxU (a b : W64) : W64 := if Cc.ltu.holds a b then b else a
/-- Bits [127:64] of the signed product. -/
def sMulH (a b : W64) : W64 := BitVec.ofNat 64 (wrapNat 128 (a.toInt * b.toInt) / 2 ^ 64)
/-- Bits [127:64] of the unsigned product. -/
def sMulHU (a b : W64) : W64 := BitVec.ofNat 64 (a.toNat * b.toNat / 2 ^ 64)

/-- SALU (R227): s(sd) := f(s(sa), X). -/
def salu (f : W64 → W64 → W64) (o : SAluOps) (s : State) : Out :=
  s.issueC Form.strand (fun c => .ok (c.setS o.sd (f (c.sr o.sa) (c.src o.x))))

/-- SCMP (R228). -/
def scmp (k : Cc) (o : SAluOps) (s : State) : Out := salu (fun a x => BitVec.ofNat 64 (bit (k.holds a x))) o s

def execSadd (o : SAluOps) (s : State) : Out := salu (fun a x => a + x) o s
def execSsub (o : SAluOps) (s : State) : Out := salu (fun a x => a - x) o s
def execSand (o : SAluOps) (s : State) : Out := salu (fun a x => a &&& x) o s
def execSor (o : SAluOps) (s : State) : Out := salu (fun a x => a ||| x) o s
def execSxor (o : SAluOps) (s : State) : Out := salu (fun a x => a ^^^ x) o s
def execSshl (o : SAluOps) (s : State) : Out := salu (fun a x => a <<< shamt x) o s
def execSshr (o : SAluOps) (s : State) : Out := salu (fun a x => a >>> shamt x) o s
def execSsra (o : SAluOps) (s : State) : Out := salu (fun a x => a.sshiftRight (shamt x)) o s
def execSmin (o : SAluOps) (s : State) : Out := salu sMin o s
def execSmax (o : SAluOps) (s : State) : Out := salu sMax o s
def execSminu (o : SAluOps) (s : State) : Out := salu sMinU o s
def execSmaxu (o : SAluOps) (s : State) : Out := salu sMaxU o s
def execSmul (o : SAluOps) (s : State) : Out := salu (fun a x => a * x) o s
def execSmulh (o : SAluOps) (s : State) : Out := salu sMulH o s
def execSmulhu (o : SAluOps) (s : State) : Out := salu sMulHU o s
def execSandn (o : SAluOps) (s : State) : Out := salu (fun a x => a &&& ~~~x) o s

def execScmpEq (o : SAluOps) (s : State) : Out := scmp .eq o s
def execScmpNe (o : SAluOps) (s : State) : Out := scmp .ne o s
def execScmpLt (o : SAluOps) (s : State) : Out := scmp .lt o s
def execScmpLe (o : SAluOps) (s : State) : Out := scmp .le o s
def execScmpGt (o : SAluOps) (s : State) : Out := scmp .gt o s
def execScmpGe (o : SAluOps) (s : State) : Out := scmp .ge o s
def execScmpLtu (o : SAluOps) (s : State) : Out := scmp .ltu o s
def execScmpLeu (o : SAluOps) (s : State) : Out := scmp .leu o s
def execScmpGtu (o : SAluOps) (s : State) : Out := scmp .gtu o s
def execScmpGeu (o : SAluOps) (s : State) : Out := scmp .geu o s

/-- SSEL (R228): sc is the scalar that imm32[5:0] names. -/
def execSsel (o : SselOps) (s : State) : Out :=
  s.issueC Form.strand (fun c => .ok (c.setS o.sd (if c.sr o.sc != 0 then c.sr o.sa else c.sr o.sb)))

/-! Bit instructions (R229), for words of `n` bits. -/

/-- Set bits of the low `n` bits. -/
def popBits (n x : Nat) : Nat := ((List.range n).filter (bitAt x)).length
/-- Trailing zero bits; `n` for zero. -/
def ctzBits (n x : Nat) : Nat := ((List.range n).find? (bitAt x)).getD n
/-- Leading zero bits; `n` for zero. -/
def clzBits (n x : Nat) : Nat := ((List.range n).find? (fun i => bitAt x (n - 1 - i))).getD n
/-- Bit i of the result is bit n - 1 - i. -/
def revBits (n x : Nat) : Nat := maskNat n (fun i => bitAt x (n - 1 - i))
/-- `x` with bits [pos+len-1 : pos] replaced by the low bits of `y`. -/
def insertBits (x y pos len : Nat) : Nat :=
  x - x / 2 ^ pos % 2 ^ len * 2 ^ pos + y % 2 ^ len * 2 ^ pos

/-- One source, one result. -/
def sbit (f : Nat → Nat) (o : SUnOps) (s : State) : Out :=
  s.issueC Form.strand (fun c => .ok (c.setS o.sd (BitVec.ofNat 64 (f (c.sr o.sa).toNat))))

def execSpopc (o : SUnOps) (s : State) : Out := sbit (popBits 64) o s
def execSclz (o : SUnOps) (s : State) : Out := sbit (clzBits 64) o s
def execSctz (o : SUnOps) (s : State) : Out := sbit (ctzBits 64) o s
def execSrev (o : SUnOps) (s : State) : Out := sbit (revBits 64) o s

/-- The control fields F: pos, len, S. -/
def Cur.bf (c : Cur) (x : BfSrc) : Nat × Nat × Bool :=
  let f := match x with
    | .reg s => (c.sr s).toNat % 2 ^ 14
    | .imm f => f.toNat
  (f % 64, field f 12 6, bitAt f 13)

def execSbfe (o : SbfOps) (s : State) : Out :=
  s.issueC Form.strand (fun c =>
    let (pos, len, sg) := c.bf o.f
    if len == 0 || 64 < len || 64 < pos + len then .error illegalOperand
    else
      let x := (c.sr o.sa).toNat / 2 ^ pos % 2 ^ len
      .ok (c.setS o.sd (if sg then BitVec.ofInt 64 (toSigned len x) else BitVec.ofNat 64 x)))

def execSbfi (o : SbfOps) (s : State) : Out :=
  s.issueC Form.strand (fun c =>
    let (pos, len, sg) := c.bf o.f
    if len == 0 || 64 < len || 64 < pos + len || sg then .error illegalOperand
    else .ok (c.setS o.sd (BitVec.ofNat 64 (insertBits (c.sr o.sd).toNat (c.sr o.sa).toNat pos len))))

end Sys2Proof.Machine
end

