-- ==== Sys2Proof/Machine/Vector.lean ====
section
/-!
DEFINITION. Vector integer and bit instructions (R230 to R238).
-/

namespace Sys2Proof.Machine

open Sys2Proof

/-! VALU and VALUI (R231, R232). -/

/-- The source tags that an integer type accepts (Table 2.8). -/
def accepts (t x : Tag) : Bool :=
  if t.is32 then x == .i32 || x == .u32 || x == .raw else x == t || x == .raw

/-- The tag required, as FORMAT reports it: 0x1F, since several are accepted. -/
def Cur.needInt (c : Cur) (t : Tag) (r : VReg) : Except Stop VecReg := c.need r (accepts t) 31

/-- One element of a shift right with copies of the top bit. -/
def sraElem (n a k : Nat) : Nat := wrapNat n (toSigned n a / (2 ^ k : Nat))

/-- Table 12.5: one element of `n` bits; the bitwise functions act on all 32 bits whatever the type. -/
def valuElem (f : ValuFn) (t : Tag) (a b : Nat) : Nat :=
  let n := t.bits
  let x := intOf t a
  let y := intOf t b
  match f with
  | .add => wrapNat n (x + y)
  | .sub => wrapNat n (x - y)
  | .shl => a * 2 ^ (b % n) % 2 ^ n
  | .shr => a / 2 ^ (b % n)
  | .sra => sraElem n a (b % n)
  | .min => if y < x then b else a
  | .max => if x < y then b else a
  | .mul => wrapNat n (x * y)
  | .mulh => wrapNat (2 * n) (x * y) / 2 ^ n
  | .absd => (x - y).natAbs % 2 ^ n
  | .adds => wrapNat n (satTo t (x + y))
  | .subs => wrapNat n (satTo t (x - y))
  | .and | .or | .xor | .andn => a

/-- A VALU function on a lane. -/
def valuLane (f : ValuFn) (t : Tag) (a b : W32) : W32 :=
  match f with
  | .and => a &&& b
  | .or => a ||| b
  | .xor => a ^^^ b
  | .andn => a &&& ~~~b
  | f => mapElems t (fun i => valuElem f t (elemAt t.bits a i) (elemAt t.bits b i))

/-- A source of VALU (Table 12.4). -/
def Cur.valuSrc (c : Cur) (f : ValuFn) (t : Tag) (r : VReg) : Except Stop VecReg :=
  if f.isBitwise then c.needAny r else c.needInt t r

/-- VALU. -/
def Cur.valu (c : Cur) (f : ValuFn) (o : VOps) : Except Stop Cur := do
  c.needRegs [o.vd, o.va, o.vb]
  let a ← c.valuSrc f o.t o.va
  let b ← c.valuSrc f o.t o.vb
  .ok (c.setV o.vd (c.enabledH o.g) (fun l => valuLane f o.t (a.lane l) (b.lane l)) o.t)

/-- The second operand of VALUI (R232). -/
def immLane (t : Tag) (imm : BitVec 16) : W32 :=
  if t.elems == 1 then imm.signExtend 32 else mapElems t (fun _ => imm.toNat)

/-- VALUI. -/
def Cur.valui (c : Cur) (f : ValuFn) (o : VIOps) : Except Stop Cur := do
  c.needRegs [o.vd, o.va]
  let a ← c.valuSrc f o.t o.va
  .ok (c.setV o.vd (c.enabledH o.g) (fun l => valuLane f o.t (a.lane l) (immLane o.t o.imm)) o.t)

def valu (f : ValuFn) (o : VOps) (s : State) : Out := s.issueC (Form.lanesOf o.g .none) (fun c => c.valu f o)
def valui (f : ValuFn) (o : VIOps) (s : State) : Out := s.issueC (Form.lanesOf o.g .none) (fun c => c.valui f o)

def execVadd (o : VOps) (s : State) : Out := valu .add o s
def execVsub (o : VOps) (s : State) : Out := valu .sub o s
def execVand (o : VOps) (s : State) : Out := valu .and o s
def execVor (o : VOps) (s : State) : Out := valu .or o s
def execVxor (o : VOps) (s : State) : Out := valu .xor o s
def execVshl (o : VOps) (s : State) : Out := valu .shl o s
def execVshr (o : VOps) (s : State) : Out := valu .shr o s
def execVsra (o : VOps) (s : State) : Out := valu .sra o s
def execVmin (o : VOps) (s : State) : Out := valu .min o s
def execVmax (o : VOps) (s : State) : Out := valu .max o s
def execVmul (o : VOps) (s : State) : Out := valu .mul o s
def execVmulh (o : VOps) (s : State) : Out := valu .mulh o s
def execVabsd (o : VOps) (s : State) : Out := valu .absd o s
def execVandn (o : VOps) (s : State) : Out := valu .andn o s
def execVadds (o : VOps) (s : State) : Out := valu .adds o s
def execVsubs (o : VOps) (s : State) : Out := valu .subs o s

def execVaddImm (o : VIOps) (s : State) : Out := valui .add o s
def execVsubImm (o : VIOps) (s : State) : Out := valui .sub o s
def execVandImm (o : VIOps) (s : State) : Out := valui .and o s
def execVorImm (o : VIOps) (s : State) : Out := valui .or o s
def execVxorImm (o : VIOps) (s : State) : Out := valui .xor o s
def execVshlImm (o : VIOps) (s : State) : Out := valui .shl o s
def execVshrImm (o : VIOps) (s : State) : Out := valui .shr o s
def execVsraImm (o : VIOps) (s : State) : Out := valui .sra o s
def execVminImm (o : VIOps) (s : State) : Out := valui .min o s
def execVmaxImm (o : VIOps) (s : State) : Out := valui .max o s
def execVmulImm (o : VIOps) (s : State) : Out := valui .mul o s
def execVmulhImm (o : VIOps) (s : State) : Out := valui .mulh o s
def execVabsdImm (o : VIOps) (s : State) : Out := valui .absd o s
def execVandnImm (o : VIOps) (s : State) : Out := valui .andn o s
def execVaddsImm (o : VIOps) (s : State) : Out := valui .adds o s
def execVsubsImm (o : VIOps) (s : State) : Out := valui .subs o s

/-! Carry chains (R233, R234). -/

/-- The tags that VADDC, VSUBB and VMAD64 accept. -/
def carryTag (t : Tag) : Bool := t == .i32 || t == .u32 || t == .raw || t == .w64

/-- The carry-in of a lane; p0 in the field means none. -/
def Cur.carryIn (c : Cur) (ci : PReg) (l : Nat) : Bool := ci.val != 0 && hasLane (c.pr ci) l

/-- VADDC and VSUBB: `f` gives a lane and its carry-out. -/
def carryOp (f : W32 → W32 → Bool → W32 × Bool) (o : VCarryOps) (s : State) : Out :=
  s.issueC (Form.lanesOf o.g .none) (fun c => do
    c.needRegs [o.vd, o.va, o.vb]
    let a ← c.need o.va carryTag 31
    let b ← c.need o.vb carryTag 31
    let r := fun l => f (a.lane l) (b.lane l) (c.carryIn o.ci l)
    let e := c.enabledH o.g
    .ok ((c.setV o.vd e (fun l => (r l).1) o.t).setP o.co e (maskOf c.width (fun l => (r l).2))))

def execVaddc (o : VCarryOps) (s : State) : Out := carryOp addCarry o s
def execVsubb (o : VCarryOps) (s : State) : Out := carryOp subBorrow o s

/-- VMAD64: `num` reads a lane as the fn does. -/
def vmad (num : W32 → Int) (o : VMadOps) (s : State) : Out :=
  s.issueC (Form.lanesOf o.g .none) (fun c => do
    let ds ← c.run o.vd 2
    c.needRegs [o.va, o.vb, o.vc]
    let a ← c.need o.va carryTag 31
    let b ← c.need o.vb carryTag 31
    let d ← c.need o.vc carryTag 31
    let r := fun l => wrapNat 64 (num (a.lane l) * num (b.lane l) + num (d.lane l) + (bit (c.carryIn o.ci l) : Nat))
    let e := c.enabledH o.g
    match ds with
    | [lo, hi] =>
      .ok ((c.setV lo e (fun l => BitVec.ofNat 32 (r l)) .w64).setV hi e (fun l => BitVec.ofNat 32 (r l / 2 ^ 32)) .w64)
    | _ => .error illegalReg)

def execVmad64U (o : VMadOps) (s : State) : Out := vmad (fun x => (x.toNat : Int)) o s
def execVmad64S (o : VMadOps) (s : State) : Out := vmad (fun x => x.toInt) o s

/-! Compare, select, move (R235, R236). -/

/-- VCMP. -/
def vcmp (k : Cc) (o : VCmpOps) (s : State) : Out :=
  s.issueC (Form.lanesOf o.g .none) (fun c => do
    c.needRegs [o.va, o.vb]
    let a ← c.needInt o.t o.va
    let b ← c.needInt o.t o.vb
    .ok (c.setP o.pd (c.enabledH o.g) (maskOf c.width (fun l => (k.forType o.t).holds (a.lane l) (b.lane l)))))

def execVcmpEq (o : VCmpOps) (s : State) : Out := vcmp .eq o s
def execVcmpNe (o : VCmpOps) (s : State) : Out := vcmp .ne o s
def execVcmpLt (o : VCmpOps) (s : State) : Out := vcmp .lt o s
def execVcmpLe (o : VCmpOps) (s : State) : Out := vcmp .le o s
def execVcmpGt (o : VCmpOps) (s : State) : Out := vcmp .gt o s
def execVcmpGe (o : VCmpOps) (s : State) : Out := vcmp .ge o s
def execVcmpLtu (o : VCmpOps) (s : State) : Out := vcmp .ltu o s
def execVcmpLeu (o : VCmpOps) (s : State) : Out := vcmp .leu o s
def execVcmpGtu (o : VCmpOps) (s : State) : Out := vcmp .gtu o s
def execVcmpGeu (o : VCmpOps) (s : State) : Out := vcmp .geu o s

def Cur.vsel (c : Cur) (o : VselOps) : Except Stop Cur := do
  c.needRegs [o.vd, o.va, o.vb]
  let a ← c.needAny o.va
  let b ← c.needAny o.vb
  let p := c.pr o.ps
  .ok (c.setV o.vd (c.enabledH o.g) (fun l => if hasLane p l then a.lane l else b.lane l)
    (if a.tag == b.tag then a.tag else .raw))

def Cur.vmov (c : Cur) (o : VMoveOps) : Except Stop Cur := do
  c.needRegs [o.vd, o.va]
  let a ← c.needAny o.va
  .ok (c.setV o.vd (c.enabledH o.g) a.lane a.tag)

def execVsel (o : VselOps) (s : State) : Out := s.issueC (Form.lanesOf o.g .none) (fun c => c.vsel o)
def execVmov (o : VMoveOps) (s : State) : Out := s.issueC (Form.lanesOf o.g .none) (fun c => c.vmov o)

/-- VLI with mod 0. -/
def execVli (o : VliOps) (s : State) : Out :=
  s.issueC (Form.lanesOf o.g .none) (fun c => do
    c.needRegs [o.vd]
    .ok (c.setV o.vd (c.enabledH o.g) (fun _ => if o.t == .i32 then o.imm.signExtend 32 else o.imm.setWidth 32) o.t))

/-- VLI with mod 1 reads vd. -/
def execVliHi (o : VliOps) (s : State) : Out :=
  s.issueC (Form.lanesOf o.g .none) (fun c => do
    c.needRegs [o.vd]
    let d ← c.needAny o.vd
    .ok (c.setV o.vd (c.enabledH o.g)
      (fun l => BitVec.ofNat 32 ((d.lane l).toNat % 2 ^ 16 + o.imm.toNat * 2 ^ 16)) o.t))

/-- VLI with mod 2. -/
def execVliDup (o : VliOps) (s : State) : Out :=
  s.issueC (Form.lanesOf o.g .none) (fun c => do
    c.needRegs [o.vd]
    .ok (c.setV o.vd (c.enabledH o.g) (fun _ => BitVec.ofNat 32 (o.imm.toNat * (2 ^ 16 + 1))) o.t))

/-! VBIT (R237). -/

/-- I32, U32 or RAW. -/
def wordTag (t : Tag) : Bool := t == .i32 || t == .u32 || t == .raw

def Cur.needWord (c : Cur) (r : VReg) : Except Stop VecReg := c.need r wordTag 31

def vbit1 (f : Nat → Nat) (o : VUnOps) (s : State) : Out :=
  s.issueC (Form.lanesOf o.g .none) (fun c => do
    c.needRegs [o.vd, o.va]
    let a ← c.needWord o.va
    .ok (c.setV o.vd (c.enabledH o.g) (fun l => BitVec.ofNat 32 (f (a.lane l).toNat)) o.t))

def execVpopc (o : VUnOps) (s : State) : Out := vbit1 (popBits 32) o s
def execVclz (o : VUnOps) (s : State) : Out := vbit1 (clzBits 32) o s
def execVctz (o : VUnOps) (s : State) : Out := vbit1 (ctzBits 32) o s
def execVrev (o : VUnOps) (s : State) : Out := vbit1 (revBits 32) o s

/-- pos and len of a field word. -/
def vfield (b : W32) : Nat × Nat :=
  let pos := b.toNat % 32
  (pos, Nat.min (field b.toNat 10 5) (32 - pos))

def vbfeLane (t : Tag) (a b : W32) : W32 :=
  let (pos, len) := vfield b
  let x := a.toNat / 2 ^ pos % 2 ^ len
  if t == .i32 && 0 < len then BitVec.ofInt 32 (toSigned len x) else BitVec.ofNat 32 x

def execVbfe (o : VOps) (s : State) : Out :=
  s.issueC (Form.lanesOf o.g .none) (fun c => do
    c.needRegs [o.vd, o.va, o.vb]
    let a ← c.needWord o.va
    let b ← c.needWord o.vb
    .ok (c.setV o.vd (c.enabledH o.g) (fun l => vbfeLane o.t (a.lane l) (b.lane l)) o.t))

/-- Three sources of VBIT. -/
def vbit3 (f : W32 → W32 → W32 → W32) (o : V3Ops) (s : State) : Out :=
  s.issueC (Form.lanesOf o.g .none) (fun c => do
    c.needRegs [o.vd, o.va, o.vb, o.vc]
    let a ← c.needWord o.va
    let b ← c.needWord o.vb
    let d ← c.needWord o.vc
    .ok (c.setV o.vd (c.enabledH o.g) (fun l => f (a.lane l) (b.lane l) (d.lane l)) o.t))

def vbfiLane (a b d : W32) : W32 :=
  let (pos, len) := vfield b
  BitVec.ofNat 32 (insertBits a.toNat d.toNat pos len)

def vbpermLane (a b d : W32) : W32 :=
  packElems 8 ((List.range 4).map (fun i =>
    let k := elemAt 4 d i
    if 8 ≤ k then 0 else if k < 4 then elemAt 8 a k else elemAt 8 b (k - 4)))

def execVbfi (o : V3Ops) (s : State) : Out := vbit3 vbfiLane o s
def execVbperm (o : V3Ops) (s : State) : Out := vbit3 vbpermLane o s

/-! VDOT4 (R238). -/

/-- VDOT4 with element types `ta`, `tb` and accumulator type `tc`. -/
def vdot4 (ta tb tc : Tag) (o : VdotOps) (s : State) : Out :=
  s.issueC (Form.lanesOf o.g .none) (fun c => do
    c.needRegs [o.vd, o.va, o.vb, o.vc]
    let a ← c.need o.va (fun t => t == ta || t == .raw) 31
    let b ← c.need o.vb (fun t => t == tb || t == .raw) 31
    let d ← c.need o.vc (fun t => t == tc || t == .raw) 31
    let r := fun l =>
      let t := (List.range 4).foldl (fun (x : Int) i =>
        x + intOf ta (elemAt 8 (a.lane l) i) * intOf tb (elemAt 8 (b.lane l) i)) (intOf tc (d.lane l).toNat)
      BitVec.ofInt 32 (if o.sat then satTo tc t else t)
    .ok (c.setV o.vd (c.enabledH o.g) r tc))

def execVdot4II (o : VdotOps) (s : State) : Out := vdot4 .i8x4 .i8x4 .i32 o s
def execVdot4UU (o : VdotOps) (s : State) : Out := vdot4 .u8x4 .u8x4 .u32 o s
def execVdot4IU (o : VdotOps) (s : State) : Out := vdot4 .i8x4 .u8x4 .i32 o s

end Sys2Proof.Machine
end

