-- ==== Sys2Proof/Machine/FloatOps.lean ====
section
/-!
DEFINITION. Floating-point and conversion instructions (R246 to R262).
-/

namespace Sys2Proof.Machine

open Sys2Proof

def Cur.acr (c : Cur) : BitVec 10 := c.t.core.acr

/-! Arithmetic (R247 to R250). -/

/-- The exact value of FADD, FSUB and FMUL (R248). -/
def faluExact (f : FaluFn) (mode : Rm) (a b : FNum) : FNum :=
  match f with
  | .add => a.add mode b
  | .sub => a.add mode b.neg
  | .mul => a.mul b

/-- The exact value of the FFMA family. -/
def ffmaExact (f : FfmaFn) (mode : Rm) (a b d : FNum) : FNum :=
  match f with
  | .ffma => (a.mul b).add mode d
  | .ffms => (a.mul b).add mode d.neg
  | .ffnma => d.add mode (a.mul b).neg

/-- FALU fn 0 to 2 on a lane. -/
def faluLane (f : FaluFn) (t : Tag) (acr : BitVec 10) (mode : Rm) (a b : W32) : W32 :=
  let ft := ffmtOf t
  mapElems t (fun i => ft.result acr mode
    (faluExact f mode (ft.input acr (elemAt t.bits a i)) (ft.input acr (elemAt t.bits b i))))

def ffmaLane (f : FfmaFn) (t : Tag) (acr : BitVec 10) (mode : Rm) (a b d : W32) : W32 :=
  let ft := ffmtOf t
  mapElems t (fun i => ft.result acr mode (ffmaExact f mode (ft.input acr (elemAt t.bits a i))
    (ft.input acr (elemAt t.bits b i)) (ft.input acr (elemAt t.bits d i))))

def Cur.falu (c : Cur) (f : FaluFn) (o : FOps) : Except Stop Cur := do
  c.needRegs [o.vd, o.va, o.vb]
  let a ← c.needTag o.va o.t
  let b ← c.needTag o.vb o.t
  .ok (c.setV o.vd (c.enabledH o.g) (fun l => faluLane f o.t c.acr (modeOf c.acr o.rnd) (a.lane l) (b.lane l)) o.t)

def Cur.ffma (c : Cur) (f : FfmaFn) (o : FfmaOps) : Except Stop Cur := do
  c.needRegs [o.vd, o.va, o.vb, o.vc]
  let a ← c.needTag o.va o.t
  let b ← c.needTag o.vb o.t
  let d ← c.needTag o.vc o.t
  .ok (c.setV o.vd (c.enabledH o.g)
    (fun l => ffmaLane f o.t c.acr (modeOf c.acr o.rnd) (a.lane l) (b.lane l) (d.lane l)) o.t)

def execFadd (o : FOps) (s : State) : Out := s.issueC (Form.lanesOf o.g .none) (fun c => c.falu .add o)
def execFsub (o : FOps) (s : State) : Out := s.issueC (Form.lanesOf o.g .none) (fun c => c.falu .sub o)
def execFmul (o : FOps) (s : State) : Out := s.issueC (Form.lanesOf o.g .none) (fun c => c.falu .mul o)
def execFfma (o : FfmaOps) (s : State) : Out := s.issueC (Form.lanesOf o.g .none) (fun c => c.ffma .ffma o)
def execFfms (o : FfmaOps) (s : State) : Out := s.issueC (Form.lanesOf o.g .none) (fun c => c.ffma .ffms o)
def execFfnma (o : FfmaOps) (s : State) : Out := s.issueC (Form.lanesOf o.g .none) (fun c => c.ffma .ffnma o)

/-- An encoding after flush_in (R43): the bits that FMIN and FMAX return. -/
def FFmt.flushIn (f : FFmt) (acr : BitVec 10) (x : Nat) : Nat :=
  if acrFi acr f.cls && f.subnormal x then x / 2 ^ (f.ebits + f.mbits) * 2 ^ (f.ebits + f.mbits) else x

/-- a orders below b, with -0 below +0 (R249). -/
def fLess (a b : FNum) : Bool :=
  match a, b with
  | .zero x, .zero y => x && !y
  | _, _ => a.cmp b == .lt

/-- FMIN (`mx` false) or FMAX of two flushed encodings (R249). -/
def FFmt.minMax (f : FFmt) (mx : Bool) (a b : Nat) : Nat :=
  let x := f.read a
  let y := f.read b
  if x.isNan then (if y.isNan then f.nanBits else b)
  else if y.isNan then a
  else if mx then (if fLess x y then b else a)
  else (if fLess y x then b else a)

def fminmax (mx : Bool) (o : VOps) (s : State) : Out :=
  s.issueC (Form.lanesOf o.g .none) (fun c => do
    c.needRegs [o.vd, o.va, o.vb]
    let a ← c.needTag o.va o.t
    let b ← c.needTag o.vb o.t
    let ft := ffmtOf o.t
    .ok (c.setV o.vd (c.enabledH o.g) (fun l => mapElems o.t (fun i =>
      ft.minMax mx (ft.flushIn c.acr (elemAt o.t.bits (a.lane l) i)) (ft.flushIn c.acr (elemAt o.t.bits (b.lane l) i)))) o.t))

def execFmin (o : VOps) (s : State) : Out := fminmax false o s
def execFmax (o : VOps) (s : State) : Out := fminmax true o s

/-- a * 2 ^ n (R250). -/
def FNum.scale (n : Int) : FNum → FNum
  | .fin s m e => .fin s m (e + n)
  | x => x

/-- One element of FSCALE; beyond every format's range the power may be bounded without changing the rounded result. -/
def FFmt.scaleElem (f : FFmt) (acr : BitVec 10) (mode : Rm) (n : Int) (x : Nat) : Nat :=
  f.result acr mode ((f.input acr x).scale (clampInt (-1000) 1000 n))

def execFscale (o : FOps) (s : State) : Out :=
  s.issueC (Form.lanesOf o.g .none) (fun c => do
    c.needRegs [o.vd, o.va, o.vb]
    let a ← c.needTag o.va o.t
    let b ← c.need o.vb (fun t => t == .i32 || t == .raw) 31
    .ok (c.setV o.vd (c.enabledH o.g) (fun l => mapElems o.t (fun i =>
      (ffmtOf o.t).scaleElem c.acr (modeOf c.acr o.rnd) (b.lane l).toInt (elemAt o.t.bits (a.lane l) i))) o.t))

/-! Compare and classify (R251 to R253). -/

/-- The conditions of FCMP. -/
inductive FCc where
  | eq | ne | lt | le | gt | ge | unord | ord
  deriving DecidableEq, Repr

/-- A condition between two values (R252). -/
def FCc.holds (k : FCc) (a b : FNum) : Bool :=
  let un := a.isNan || b.isNan
  let r := a.cmp b
  match k with
  | .eq => !un && r == .eq
  | .ne => un || r != .eq
  | .lt => !un && r == .lt
  | .le => !un && r != .gt
  | .gt => !un && r == .gt
  | .ge => !un && r != .lt
  | .unord => un
  | .ord => !un

def fcmp (k : FCc) (o : FcmpOps) (s : State) : Out :=
  s.issueC (Form.lanesOf o.g .none) (fun c => do
    c.needRegs [o.va, o.vb]
    let a ← c.needTag o.va o.t
    let b ← c.needTag o.vb o.t
    let ft := ffmtOf o.t
    .ok (c.setP o.pd (c.enabledH o.g) (maskOf c.width (fun l =>
      k.holds (ft.input c.acr (elemAt o.t.bits (a.lane l) (bit o.e)))
        (ft.input c.acr (elemAt o.t.bits (b.lane l) (bit o.e)))))))

def execFcmpEq (o : FcmpOps) (s : State) : Out := fcmp .eq o s
def execFcmpNe (o : FcmpOps) (s : State) : Out := fcmp .ne o s
def execFcmpLt (o : FcmpOps) (s : State) : Out := fcmp .lt o s
def execFcmpLe (o : FcmpOps) (s : State) : Out := fcmp .le o s
def execFcmpGt (o : FcmpOps) (s : State) : Out := fcmp .gt o s
def execFcmpGe (o : FcmpOps) (s : State) : Out := fcmp .ge o s
def execFcmpUnord (o : FcmpOps) (s : State) : Out := fcmp .unord o s
def execFcmpOrd (o : FcmpOps) (s : State) : Out := fcmp .ord o s

/-- The class bit of an encoding (R253). -/
def FFmt.classBit (f : FFmt) (x : Nat) : Nat :=
  match f.read x with
  | .nan => 8
  | .inf s => if s then 0 else 7
  | .zero s => if s then 3 else 4
  | .fin s _ _ => if f.subnormal x then (if s then 2 else 5) else (if s then 1 else 6)

def execFclass (o : FclassOps) (s : State) : Out :=
  s.issueC (Form.lanesOf o.g .none) (fun c => do
    c.needRegs [o.vd, o.va]
    let a ← c.needTag o.va o.t
    .ok (c.setV o.vd (c.enabledH o.g)
      (fun l => BitVec.ofNat 32 (2 ^ (ffmtOf o.t).classBit (elemAt o.t.bits (a.lane l) o.e.val))) .u32))

/-! Special functions (R254, R255). -/

def fsf (f : SfFn) (o : FsfOps) (s : State) : Out :=
  s.issueC (Form.lanesOf o.g o.cf) (fun c => do
    c.needRegs [o.vd, o.va]
    let a ← c.needTag o.va o.t
    .ok (c.setV o.vd (c.enabledH o.g)
      (fun l => mapElems o.t (fun i => f.elem o.t c.acr (modeOf c.acr o.rnd) (elemAt o.t.bits (a.lane l) i))) o.t))

def execFrcp (o : FsfOps) (s : State) : Out := fsf .rcp o s
def execFrsq (o : FsfOps) (s : State) : Out := fsf .rsq o s
def execFsqrt (o : FsfOps) (s : State) : Out := fsf .sqrt o s
def execFexp2 (o : FsfOps) (s : State) : Out := fsf .exp2 o s
def execFlog2 (o : FsfOps) (s : State) : Out := fsf .log2 o s
def execFsin (o : FsfOps) (s : State) : Out := fsf .sin o s
def execFcos (o : FsfOps) (s : State) : Out := fsf .cos o s
def execFtanh (o : FsfOps) (s : State) : Out := fsf .tanh o s

/-! CVT (R256 to R258). -/

/-- conv of one element (R258). -/
def convElem (src dst : Tag) (sat : Bool) (acr : BitVec 10) (mode : Rm) (x : Nat) : Nat :=
  if src.isFloat then
    let v := (ffmtOf src).input acr x
    if dst.isFloat then (ffmtOf dst).result acr mode v else wrapNat dst.bits (v.toElem dst mode)
  else
    let v := intOf src x
    if dst.isFloat then (ffmtOf dst).result acr mode (if v == 0 then .zero false else FNum.ofInteger v)
    else wrapNat dst.bits (if sat then satTo dst v else v)

/-- A lane of a register whose unwritten elements are kept only under the result tag (R257, R260). -/
def keptLane (keep : Bool) (old : W32) : W32 := if keep then old else 0

/-- The lane with elements `first` to `first + n - 1` replaced. -/
def replaceElems (t : Tag) (old : W32) (first n : Nat) (f : Nat → Nat) : W32 :=
  mapElems t (fun i => if first ≤ i && i < first + n then f (i - first) else elemAt t.bits old i)

def cvtLane (o : CvtOps) (acr : BitVec 10) (keep : Bool) (old a : W32) : W32 :=
  let es := o.src.elems
  let ed := o.dst.elems
  let conv := fun e => convElem o.src o.dst o.sat acr (modeOf acr o.rnd) (elemAt o.src.bits a e)
  if es < ed then replaceElems o.dst (keptLane keep old) (o.part.val * es) es conv
  else if ed < es then mapElems o.dst (fun e => conv (o.part.val * ed + e))
  else mapElems o.dst conv

def execCvt (o : CvtOps) (s : State) : Out :=
  s.issueC (Form.lanesOf o.g .none) (fun c => do
    c.needRegs [o.vd, o.va]
    let a ← c.needTag o.va o.src
    let d := c.vnow o.vd
    .ok (c.setV o.vd (c.enabledH o.g) (fun l => cvtLane o c.acr (d.tag == o.dst) (d.lane l) (a.lane l)) o.dst))

/-! CVTMX (R259 to R262). -/

/-- A write of a quantised element: out of range saturates in all three formats (R261). -/
def FFmt.quantise (f : FFmt) (acr : BitVec 10) (mode : Rm) (x : FNum) : Nat :=
  let y := f.write mode x
  let y := if f.read y == .inf false then f.maxBits
    else if f.read y == .inf true then f.signBit true + f.maxBits else y
  f.flushOut acr y

/-- emax of R261. -/
def mxEmax (t : Tag) : Int :=
  match t with
  | .e4m3x4 => 8 | .e5m2x4 => 15 | _ => 2

/-- The wide elements of a block: (lane, element), lanes enabled. -/
def mxBlock (ew : Nat) (lanes : List Nat) (k : Nat) : List (Nat × Nat) :=
  (lanes.flatMap (fun l => (List.range ew).map (fun e => (l, e)))).filter (fun x => (x.1 * ew + x.2) / 32 == k)

/-- The scale code of a block of values (R261). -/
def mxCode (mx : Tag) (xs : List FNum) : Nat :=
  if xs.any (fun x => x.isNan || x == .inf false || x == .inf true) then 255
  else
    let tops := xs.filterMap (fun x => match x with
      | .fin _ m e => some ((Nat.log2 m : Int) + e)
      | _ => none)
    match tops with
    | [] => 0
    | q :: qs => (clampInt 1 254 (qs.foldl (fun a b => if a < b then b else a) q - mxEmax mx + 127)).toNat

/-- One quantised element under a scale code. -/
def mxQuant (mx : Tag) (acr : BitVec 10) (mode : Rm) (code : Nat) (x : FNum) : Nat :=
  if code == 0 || code == 255 then 0 else (ffmtOf mx).quantise acr mode (x.scale (127 - (code : Int)))

/-- The checks of R259 and the tag of va. -/
def Cur.mxOk (c : Cur) (o : CvtmxOps) (src : Tag) : Except Stop VecReg := do
  c.needRegs [o.vd, o.va, o.vc]
  ensure (o.vc != o.vd && o.vc != o.va && decide (32 ≤ c.width * o.wide.elems)) illegalOperand
  c.needTag o.va src

def execCvtmxQ (o : CvtmxOps) (s : State) : Out :=
  s.issueC (Form.lanesOf o.g o.cf) (fun c => do
    let a ← c.mxOk o o.wide
    let ew := o.wide.elems
    let en := c.enabled o.g
    let lanes := c.lanes en
    let mode := modeOf c.acr o.rnd
    let val := fun l e => (ffmtOf o.wide).input c.acr (elemAt o.wide.bits (a.lane l) e)
    let n := c.width * ew / 32
    let codes := (List.range n).map (fun k =>
      match mxBlock ew lanes k with
      | [] => none
      | xs => some (mxCode o.mx (xs.map (fun x => val x.1 x.2))))
    let codeOf := fun l e => ((codes.getD ((l * ew + e) / 32) none).getD 0)
    let d := c.vnow o.vd
    let c1 := c.setV o.vd en (fun l => replaceElems o.mx (keptLane (d.tag == o.mx) (d.lane l)) (o.part.val * ew) ew
      (fun e => mxQuant o.mx c.acr mode (codeOf l e) (val l e))) o.mx
    let v := c1.vnow o.vc
    let scl := maskOf c.width (fun l => (codes.getD l none).isSome)
    let keep := v.tag == .e8m0x4
    .ok (c1.putV o.vc { tag := .e8m0x4, lanes := (List.range c.width).map (fun l =>
      if hasLane scl l then
        replaceElems .e8m0x4 (keptLane keep (v.lane l)) o.b.val 1 (fun _ => (codes.getD l none).getD 0)
      else keptLane keep (v.lane l)) }))

def execCvtmxD (o : CvtmxOps) (s : State) : Out :=
  s.issueC (Form.lanesOf o.g o.cf) (fun c => do
    let a ← c.mxOk o o.mx
    let v ← c.needTag o.vc .e8m0x4
    let ew := o.wide.elems
    let fm := ffmtOf o.mx
    .ok (c.setV o.vd (c.enabled o.g) (fun l => mapElems o.wide (fun e =>
      let code := elemAt 8 (v.lane ((l * ew + e) / 32)) o.b.val
      let q := fm.input c.acr (elemAt o.mx.bits (a.lane l) (o.part.val * ew + e))
      match scaleOf code with
      | none => 0
      | some .nan => (ffmtOf o.wide).nanBits
      | some _ => (ffmtOf o.wide).result c.acr (modeOf c.acr o.rnd) (q.scale ((code : Int) - 127)))) o.wide))

end Sys2Proof.Machine
end

