-- ==== Sys2Proof/Machine/Tile.lean ====
section
/-!
DEFINITION. The accumulator tile (R329 to R343): ALD, AST, AZERO, AMOVV, AMOVA, ACVT and ATAG.
-/

namespace Sys2Proof.Machine

open Sys2Proof

/-! Tile states (Table 17.1). -/

def TileSt.code : TileSt → Nat
  | .undef => 0 | .zero => 1 | .live => 2 | .poison => 3

/-- The tag that a tile shows: 0 when it is not LIVE. -/
def Tile.shown (t : Tile) : Nat := if t.st == .live then t.tag.code else 0

/-- FORMAT at a tile operand (Table 5.2). -/
def tileFormat (t : Tile) (req n : Nat) : Stop := .trap .format 0 (t.shown + 256 * req + 65536 * n + 2 ^ 25) none

def tilePoison (n : Nat) : Stop := .trap .regPoison 0 (0x200 + n) none

/-- A tile that an instruction reads: UNDEF and POISON trap, and a LIVE tile must carry an accepted tag. -/
def Cur.readTile (c : Cur) (t : TReg) (accept : Tag → Bool) (req : Nat) : Except Stop Tile := do
  let x ← c.needTile t
  match x.st with
  | .undef => .error (tileFormat x req t.val)
  | .poison => .error (tilePoison t.val)
  | .zero => .ok x
  | .live => if accept x.tag then .ok x else .error (tileFormat x req t.val)

/-- A readable tile of either tag. -/
def Cur.readAnyTile (c : Cur) (t : TReg) : Except Stop Tile := c.readTile t (fun _ => true) 31

def zeroElems : List W32 := List.replicate 256 0

/-- Element x of a tile as a reader sees it (R331). -/
def Tile.elem (t : Tile) (x : Nat) : W32 := if t.st == .zero then 0 else t.e.getD x 0

/-- A LIVE tile. -/
def Tile.live (t : Tile) (tag : Tag) (f : Nat → W32) : Tile := { t with st := .live, tag := tag, e := (List.range 256).map f }

/-! ALD and AST (R336 to R338). -/

def AFmt.bytes : AFmt → Nat
  | .f32 | .i32 => 4
  | .f16 | .bf16 => 2

def AFmt.tag : AFmt → Tag
  | .i32 => .i32
  | _ => .f32

/-- The tile descriptor (R337): PITCH, COLS, ROWS. -/
def Cur.tileDesc (c : Cur) (o : TileMemOps) : Except Stop (Nat × Nat × Nat) := do
  let d := (c.sr (sregAt (o.base.val + 1))).toNat
  let rows := field d 4 0
  let cols := field d 9 5
  ensure (field d 31 10 == 0 && decide (rows ≤ 16) && decide (cols ≤ 16)) illegalOperand
  .ok (field d 63 32, cols, rows)

/-- The in-bounds elements in row-major order with their addresses: element number, address. -/
def Cur.tileAddrs (c : Cur) (o : TileMemOps) (d : Nat × Nat × Nat) : List (Nat × Nat) :=
  (List.range d.2.2).flatMap (fun i => (List.range d.2.1).map (fun j =>
    (16 * i + j, wrapNat 64 ((c.sr o.base).toNat + o.off.toInt * AFmt.bytes o.f + i * d.1 + j * AFmt.bytes o.f))))

/-- TADDR holds the address of the element, also where its word is POISON (R338). -/
def Stop.atElem (va : Nat) : Stop → Stop
  | .trap .memPoison _ x l => .trap .memPoison va x l
  | e => e

/-- The elements' accesses, checked in order (R338): element number, address, leaf. -/
def State.tileAccess (s : State) (c : Cur) (q : XReq) (rd : Bool) (n : Nat) :
    List (Nat × Nat) → Except Stop (List (Nat × Nat × Leaf))
  | [] => .ok []
  | (x, va) :: es =>
    match s.gAccess c q rd va n n with
    | .error e => .error (e.atElem va)
    | .ok l =>
      match s.tileAccess c q rd n es with
      | .error e => .error e
      | .ok ls => .ok ((x, va, l) :: ls)

/-- The element that ALD makes of a memory word. -/
def aldElem (f : AFmt) (acr : BitVec 10) (w : Nat) : W32 :=
  match f with
  | .f16 => BitVec.ofNat 32 (fF32.write .rne (fF16.input acr w))
  | _ => BitVec.ofNat 32 w

/-- The tile that ALD loads. -/
def aldTile (o : TileMemOps) (acr : BitVec 10) (vals : List (Nat × Nat)) (t : Tile) : Tile :=
  { t.live (AFmt.tag o.f) (fun x => match vals.find? (fun v => v.1 == x) with
      | some v => aldElem o.f acr v.2
      | none => 0) with sat := false }

/-- The checks of ALD and its accesses. -/
def aldCheck (o : TileMemOps) (s : State) (c : Cur) : Except Stop (Tile × List (Nat × Nat × Leaf)) := do
  ensure (c.tileOk o.tile) illegalReg
  let d ← c.tileDesc o
  let t ← c.needTile o.tile
  let ls ← s.tileAccess c XReq.load true (AFmt.bytes o.f) (c.tileAddrs o d)
  .ok (t, ls)

def aldChunk (o : TileMemOps) (s : State) (c : Cur) : Except Stop (State × Cur) := do
  let (t, ls) ← aldCheck o s c
  ensure (ls.all (fun x => x.2.2.wb)) .uncached
  let n := AFmt.bytes o.f
  let vals := ls.map (fun x => (x.1, c.gNat s x.2.2.pa n))
  let c' := ls.foldl (fun c x => (c.readG x.2.2.pa n).usePage x.2.1) c
  .ok (s.useLeaves c.ctx (ls.map (fun x => (x.2.1, x.2.2))), c'.setTile o.tile (aldTile o c.acr vals t))

/-- ALD as a singleton. -/
def aldEvent (o : TileMemOps) (s : State) (c : Cur) : SRes :=
  match aldCheck o s c with
  | .error e => .stop e
  | .ok (t, ls) =>
    .done ((s.useLeaves c.ctx (ls.map (fun x => (x.2.1, x.2.2)))).recall (laneWords (AFmt.bytes o.f) ls))
      (c.setTile o.tile (aldTile o c.acr (ls.map (fun x => (x.1, s.rdNat x.2.2.pa (AFmt.bytes o.f)))) t))

def execAld (o : TileMemOps) (s : State) : Out :=
  s.issueMem (Form.strandCf o.cf) (aldChunk o) (.ald o) (aldEvent o)

/-- The bytes that AST stores of an element (R338, R40). -/
def astBytes (f : AFmt) (acr : BitVec 10) (x : W32) : List Byte :=
  match f with
  | .f16 => bytesOf 2 (fF16.result acr (acrMode acr) (fF32.input acr x.toNat))
  | .bf16 => bytesOf 2 (fBF16.result acr (acrMode acr) (fF32.input acr x.toNat))
  | _ => bytesOf 4 x.toNat

def astCheck (o : TileMemOps) (s : State) (c : Cur) : Except Stop (Tile × List (Nat × Nat × Leaf)) := do
  ensure (c.tileOk o.tile) illegalReg
  let d ← c.tileDesc o
  let t ← c.readTile o.tile (· == AFmt.tag o.f) (AFmt.tag o.f).code
  let ls ← s.tileAccess c XReq.store false (AFmt.bytes o.f) (c.tileAddrs o d)
  .ok (t, ls)

def astChunk (o : TileMemOps) (s : State) (c : Cur) : Except Stop (State × Cur) := do
  let (t, ls) ← astCheck o s c
  ensure (ls.all (fun x => x.2.2.wb)) .uncached
  .ok (s.useLeaves c.ctx (ls.map (fun x => (x.2.1, x.2.2))),
    ls.foldl (fun c x => (c.writeG s x.2.2.pa (astBytes o.f c.acr (t.elem x.1))).usePage x.2.1) c)

/-- AST as a singleton. -/
def astEvent (o : TileMemOps) (s : State) (c : Cur) : SRes :=
  match astCheck o s c with
  | .error e => .stop e
  | .ok (t, ls) =>
    match s.writeSing c (ls.flatMap (fun x => cellsAt x.2.2.pa (astBytes o.f c.acr (t.elem x.1)))) with
    | none => .blocked
    | some s' => .done (s'.useLeaves c.ctx (ls.map (fun x => (x.2.1, x.2.2)))) (s'.fresh c)

def execAst (o : TileMemOps) (s : State) : Out :=
  s.issueMem (Form.strandCf o.cf) (astChunk o) (.ast o) (astEvent o)

/-! AZERO, AMOVV, AMOVA, ACVT and ATAG (R339 to R343). -/

def execAzero (t : TReg) (s : State) : Out :=
  s.issueC Form.strand (fun c => do
    let x ← c.needTile t
    .ok (c.setTile t { x with st := .zero, sat := false, e := zeroElems }))

/-- Registers that hold a tile. -/
def Cur.tileRegs (c : Cur) : Nat := 256 / c.width

def execAmovv (t : TReg) (v : VReg) (s : State) : Out :=
  s.issueC Form.strand (fun c => do
    ensure (c.tileOk t) illegalReg
    let rs ← c.run v c.tileRegs
    let x ← c.readAnyTile t
    .ok (c.writeRun rs c.em (if x.st == .zero then .f32 else x.tag) (fun l r => x.elem (r * c.width + l))))

def execAmova (t : TReg) (v : VReg) (s : State) : Out :=
  s.issueC Form.strand (fun c => do
    ensure (c.tileOk t) illegalReg
    let rs ← c.run v c.tileRegs
    let first := (c.vr (rs.headD v)).tag
    let xs ← rs.mapM (fun r => c.need r (fun g => (g == .f32 || g == .i32) && g == first) 31)
    let x ← c.needTile t
    .ok (c.setTile t (x.live first (fun k =>
      if hasLane c.em (k % c.width) then (((xs[k / c.width]?).map (fun r => r.lane (k % c.width))).getD 0)
      else if x.st == .live then x.e.getD k 0 else 0))))

/-- ACVT: what becomes of the elements of an I32 tile and of an F32 tile. -/
def acvt (t : TReg) (tag : Tag → Tag) (f : Cur → Tag → Except Stop (W32 → W32)) (s : State) : Out :=
  s.issueC Form.strand (fun c => do
    let x ← c.readAnyTile t
    let g := if x.st == .zero then .f32 else x.tag
    let fn ← f c g
    .ok (c.setTile t (x.live (tag g) (fun k => fn (x.elem k)))))

/-- max(x, 0), or FMAX(x, +0). -/
def reluElem (acr : BitVec 10) (g : Tag) (x : W32) : W32 :=
  if g == .i32 then (if x.toInt < 0 then 0 else x) else BitVec.ofNat 32 (fF32.minMax true (fF32.flushIn acr x.toNat) 0)

def execAcvtRelu (t : TReg) (s : State) : Out := acvt t id (fun c g => .ok (reluElem c.acr g)) s

/-- x * f, rounded once to F32. -/
def scaleTileElem (acr : BitVec 10) (g : Tag) (f : FNum) (x : W32) : W32 :=
  let v := if g == .i32 then FNum.ofInteger x.toInt else fF32.input acr x.toNat
  BitVec.ofNat 32 (fF32.result acr (acrMode acr) (v.mul f))

def execAcvtScale (t : TReg) (sp : SReg) (s : State) : Out :=
  acvt t (fun _ => .f32) (fun c g => .ok (scaleTileElem c.acr g (fF32.input c.acr ((c.sr sp).toNat % 2 ^ 32)))) s

/-- min(max(x, lo), hi), or FMIN(FMAX(x, lo), hi). -/
def clampElem (acr : BitVec 10) (g : Tag) (lo hi : W32) (x : W32) : W32 :=
  if g == .i32 then BitVec.ofInt 32 (clampInt lo.toInt hi.toInt x.toInt)
  else
    let fl := fun (y : W32) => fF32.flushIn acr y.toNat
    BitVec.ofNat 32 (fF32.minMax false (fF32.minMax true (fl x) (fl lo)) (fl hi))

/-- CLAMP's limits are legal (R342). -/
def clampOk (g : Tag) (lo hi : W32) : Bool :=
  if g == .i32 then decide (lo.toInt ≤ hi.toInt)
  else
    let a := fF32.read lo.toNat
    let b := fF32.read hi.toNat
    !a.isNan && !b.isNan && a.cmp b != .gt

def execAcvtClamp (t : TReg) (sp : SReg) (s : State) : Out :=
  acvt t id (fun c g =>
    let x := (c.sr sp).toNat
    let lo := BitVec.ofNat 32 x
    let hi := BitVec.ofNat 32 (x / 2 ^ 32)
    if clampOk g lo hi then .ok (clampElem c.acr g lo hi) else .error illegalOperand) s

/-- The query word of ATAG. -/
def Tile.query (t : Tile) : W64 := BitVec.ofNat 64 (t.shown + 32 * t.st.code + 256 * bit t.sat)

def execAtag (t : TReg) (sd : SReg) (code : BitVec 5) (s : State) : Out :=
  s.issueC Form.strand (fun c => do
    ensure (c.tileOk t) illegalReg
    ensure (code == 0 || code == 1 || code == 3) illegalOperand
    let x ← c.needTile t
    if code == 0 then .ok (c.setS sd x.query)
    else
      let x ← c.readAnyTile t
      .ok ((c.setTile t (x.live (if code == 1 then .i32 else .f32) x.elem)).setS sd x.query))

end Sys2Proof.Machine
end

