-- ==== Sys2Proof/Machine/Control.lean ====
section
/-!
DEFINITION. The control instructions (R145 to R152, R160, R161), clause headers (R57 to R61), pairs (R64, R65), the register
window (R179 to R184), and words that name no instruction (R70).
-/

namespace Sys2Proof.Machine

open Sys2Proof

/-! Targets (R55). -/

/-- target(T): the base of R55 and a signed count of words. -/
def Cur.target {n : Nat} (c : Cur) (t : BitVec n) : W64 := c.base + BitVec.ofInt 64 (8 * t.toInt)

/-- A branch target is a clause header; a word that cannot be fetched traps when the strand fetches it (R55, R294; the model's
choice, log 33). -/
def targetOk (s : State) (c : Cur) (a : W64) : Except Stop Unit :=
  match s.fetchWord c.ctx a with
  | .ok w => ensure (isHeader w) (.word .illegalInstr a.toNat)
  | .error _ => .ok ()

/-- The strand goes to a target, after its check. -/
def jump (s : State) (c : Cur) (a : W64) : Except Stop (State × Cur) := (targetOk s c a).map (fun _ => (s, c.goto a))

/-- A branch to T where a condition holds, else to the next clause (R161). -/
def branch (cond : Cur → Bool) (t : BitVec 32) (s : State) : Out :=
  s.issue Form.control (fun s c => if cond c then jump s c (c.target t) else .ok (s, c.goto c.base))

def execNop (s : State) : Out := s.issueC Form.strand (fun c => .ok c)
def execBra (t : BitVec 32) (s : State) : Out := branch (fun _ => true) t s
def execBraNz (x : SReg) (t : BitVec 32) (s : State) : Out := branch (fun c => c.sr x != 0) t s
def execBraZ (x : SReg) (t : BitVec 32) (s : State) : Out := branch (fun c => c.sr x == 0) t s

/-- EM and p over L. -/
def Cur.taken (c : Cur) (p : PReg) : Mask := c.em &&& c.pr p &&& c.l
def Cur.notTaken (c : Cur) (p : PReg) : Mask := c.em &&& ~~~(c.pr p) &&& c.l

def execBrz (p : PReg) (t : BitVec 32) (s : State) : Out := branch (fun c => c.taken p == 0) t s
def execBrnz (p : PReg) (t : BitVec 32) (s : State) : Out := branch (fun c => c.taken p != 0) t s

/-! DBR (R146, R147). -/

/-- A call record that a RET of the strand would pop (R183, R184). -/
def Cur.depth0 (c : Cur) : Nat := match c.warp.splits.getLast? with | some x => x.depth | none => 0
def Warp.depth0 (w : Warp) : Nat := match w.splits.getLast? with | some x => x.depth | none => 0
def Cur.holdsCall (c : Cur) : Bool := decide (c.depth0 < c.t.core.calls.length)

def Cur.holdsAppend (c : Cur) : Bool := c.t.core.k.any Cursor.isAppend

/-- The lowest FREE entry of the strand table. -/
def Warp.freeEntry (w : Warp) : Option Nat := indexOf? (fun x => x.isNone) w.strands

/-- The uniform cases of DBR. -/
def dbrUniform (p : PReg) (t : BitVec 32) (s : State) (c : Cur) : Except Stop (State × Cur) :=
  if c.taken p == 0 then .ok (s, (c.setP p c.l c.l).goto c.base)
  else jump s (c.setP p c.l c.l) (c.target t)

/-- DBR: the first two cases of R146 at once; else Tk is taken and DBR_SPLIT decides. -/
def execDbr (p : PReg) (t : BitVec 32) (j : BitVec 16) (s : State) : Out :=
  match s.cur? with
  | none => .fault .noStrand
  | some c =>
    if !(s.mayIssue c false) then .fault .notReady
    else if c.taken p == 0 || c.notTaken p == 0 then .next (s.perform c Form.control (dbrUniform p t))
    else match c.slotOk Form.control with
      | .error st => .next (s.stop c c.em c.t.core.pc st)
      | .ok _ =>
        let d := c.openChunk.mapT (fun x => { x with wait := .split p (c.taken p) (c.target t) (c.target j) })
        .next { s.putCur d with free := s.free + 1 }

/-- The new strand of a split (R147): copies of Table 8.1 other than the lanes, and clear flags. -/
def Strand.child (t : Strand) (tk : Mask) (a : W64) : Strand :=
  { t with
    core := { t.core with pc := a, hdr := a, inClause := false, l := tk, em := tk, hm := t.core.hm &&& tk },
    chunk := Chunk.none, earlier := [], wait := .none, pends := [], pinCount := 0, trapReplay := false, failed := none }

/-- The join frames of a warp when strand `k` gives up lanes to a new strand `n`. -/
def splitFrames (fs : List Frame) (k n : Nat) (j : W64) : List Frame :=
  fs.map (fun f => if f.members.contains k then { f with members := f.members ++ [n] } else f) ++
    [{ addr := j, members := [k, n] }]

/-- The third case of R146, and the split of R147. A join address whose word cannot be fetched traps here as one that holds no
header does: the model's choice (log 33). -/
def dbrDecide (p : PReg) (tk : Mask) (ta ja : W64) (s : State) (c : Cur) : Except Stop (State × Cur) :=
  let back : Except Stop (State × Cur) := .ok (s, (c.setP p c.l 0).goto c.base)
  match c.warp.freeEntry with
  | none => back
  | some n =>
    if c.holdsAppend || c.holdsCall then back
    else do
      targetOk s c ta
      ensure (s.headerAt c.ctx ja) (.word .illegalInstr ja.toNat)
      let k := c.ref.strand
      let c := c.setP p c.l c.l
      let child := c.t.child tk ta
      let w := c.warp.setStrand n (some child)
      let c := { c with warp := { w with frames := splitFrames w.frames k n ja } }
      let c := c.mapCore (fun x => { x with l := x.l &&& ~~~tk, em := x.em &&& ~~~tk, hm := x.hm &&& ~~~tk })
      let c := (c.goto c.base).endChunk
      .ok (s, c.mapChunk (fun ch => { ch with childIdx := some n }))

/-- DBR_SPLIT: once the strand's flags are clear. -/
def execDbrSplit (r : StrandRef) (s : State) : Out :=
  match s.curOf r with
  | none => .next s
  | some c =>
    match c.t.wait with
    | .split p tk ta ja =>
      if !c.t.pends.isEmpty then .next s
      else
        let c := c.mapT (fun t => { t with wait := .none })
        .next ((s.putCur c).perform c Form.control (dbrDecide p tk ta ja))
    | _ => .next s

/-! JOIN (R150 to R154). -/

/-- The frames of a strand, the innermost last. -/
def Warp.framesOf (w : Warp) (k : Nat) : List Frame := w.frames.filter (fun f => f.members.contains k)

/-- JOIN: passes, traps, or arrives; an arriving strand stays at the JOIN. -/
def execJoin (s : State) : Out :=
  s.issue Form.control (fun s c =>
    let a := c.t.core.hdr
    let fs := c.warp.framesOf c.ref.strand
    if !(fs.any (fun f => f.addr == a)) then .ok (s, c.goto c.base)
    else match fs.getLast? with
      | some f =>
        if f.addr == a then .ok (s, c.mapT (fun t => { t with wait := .arriving false }))
        else .error illegalOperand
      | none => .error illegalOperand)

/-- The strand's merge is not yet settled: some arrival chunk that it was handed can still undo it (R153). -/
def Warp.mergePending (w : Warp) (k : Nat) : Bool := w.merges.any (fun m => m.sv == k)

/-- Strand `k` has arrived at a frame: it is parked there, and the frame is its innermost. -/
def Warp.arrivedAt (w : Warp) (f : Frame) (k : Nat) : Bool :=
  match w.strand? k with
  | some t => t.wait == .joining (w.framesOf k).length && (w.framesOf k).getLast? == some f
  | none => false

/-- The frame at which a strand has arrived is gone: it was left as the only member (R150). -/
def Warp.leftAlone (w : Warp) (k : Nat) (t : Strand) : Bool :=
  match t.wait with
  | .joining n => decide ((w.framesOf k).length < n)
  | _ => false

/-- The strand goes on at the clause header after its JOIN. -/
def Strand.passJoin (t : Strand) : Strand :=
  let a := clauseEnd t.core.hdr t.core.hword
  { t with core := { t.core with pc := a, hdr := a, inClause := false }, wait := .none, pinCount := 0 }

/-- The survivor of a merge: most lanes in EM, then the lower index (R152). -/
def Warp.survivor (w : Warp) (ms : List Nat) : Nat :=
  let lanes := fun k => match w.strand? k with | some t => popMask w.width t.core.em | none => 0
  ms.foldl (fun best k => if lanes best < lanes k || (lanes best == lanes k && decide (k < best)) then k else best) (ms.headD 0)

/-- The merge is refused: window bases differ, or a member holds a call record (R152). -/
def Warp.mergeBad (w : Warp) (ms : List Nat) : Bool :=
  let ts := ms.filterMap w.strand?
  ts.any (fun t => decide (w.depth0 < t.core.calls.length) ||
    (match ts.head? with | some u => t.core.winb != u.core.winb | none => false))

/-- A frame leaves the warp, the innermost of equal ones. -/
def Warp.dropFrame (w : Warp) (f : Frame) : Warp := { w with frames := (w.frames.reverse.erase f).reverse }

/-- The members of a frame with their strands. -/
def Warp.membersOf (w : Warp) (f : Frame) : List (Nat × Strand) := f.members.filterMap (fun k => (w.strand? k).map (fun t => (k, t)))

/-- The chunks of members that are not placed, each marked with its member: the merged strand's next chunk follows them all
(R155). -/
def arrivalChunks (ms : List (Nat × Strand)) : List Chunk :=
  ms.flatMap (fun x => (x.2.unplaced.filter Chunk.active).map (fun ch => { ch with owner := some x.1 }))

/-- The merge of a complete frame (R152). While an arrival chunk is not placed, what undoes the merge is kept (R153). -/
def Warp.merge (w : Warp) (f : Frame) : Warp :=
  let ms := w.membersOf f
  let sv := w.survivor f.members
  let l := ms.foldl (fun m t => m ||| t.2.core.l) 0
  let em := ms.foldl (fun m t => m ||| t.2.core.em) 0
  let hm := ms.foldl (fun m t => m ||| t.2.core.hm) 0
  let cs := arrivalChunks ms
  let outer := ((w.framesOf sv).filter (fun x => x != f)).map (·.addr)
  let kept : List Merge := if cs.isEmpty then [] else [{ sv := sv, frame := f, outer := outer, members := ms }]
  let w := w.dropFrame f
  let w := (f.members.filter (· != sv)).foldl Warp.leave w
  { w with merges := w.merges ++ kept,
           strands := modAt w.strands sv (Option.map (fun t =>
      ({ t with core := { t.core with l := l, em := em, hm := hm }, earlier := cs, chunk := Chunk.none } : Strand).passJoin)) }

/-- The members of a frame that must not merge trap at their JOIN, the frame removed (R152). -/
def Warp.refuseMerge (w : Warp) (f : Frame) (extra : StrandCore → Nat) : Warp :=
  let w := w.dropFrame f
  f.members.foldl (fun w k => { w with strands := modAt w.strands k (Option.map (fun t =>
    ({ t with wait := .trap { cause := .illegalOperand, addr := 0, extra := extra t.core, lanes := t.core.em } } : Strand))) }) w

/-- No chunk of the members of a frame can still be squashed. -/
def Warp.settled (w : Warp) (f : Frame) : Bool := (w.membersOf f).all (fun x => x.2.clear)

/-- Frames that are complete merge, the innermost first; those whose members must not merge trap, once every arrival chunk is
placed (R152). -/
def Warp.complete (w : Warp) (f : Frame) (extra : StrandCore → Nat) : Warp :=
  if w.frames.contains f && f.members.all (w.arrivedAt f) then
    if !(w.mergeBad f.members) then w.merge f
    else if w.settled f then w.refuseMerge f extra
    else w
  else w

/-- Frames are settled, the innermost first; a strand left alone at a JOIN goes on behind it (R150, R152). -/
def Warp.settle (w : Warp) (extra : StrandCore → Nat) : Warp :=
  let w := w.frames.reverse.foldl (fun w f => w.complete f extra) w
  { w with strands := (List.range w.strands.length).map (fun k => match w.strand? k with
      | some t => some (if w.leftAlone k t then t.passJoin else t)
      | none => none) }

/-- The frames of a warp are settled after an arrival or an exit. -/
def State.settleFrames (s : State) (r : WarpRef) : State :=
  s.modWarp r (fun w => w.settle (fun k => (s.peekWord r.crew.ctx k.pc).toNat))

/-- The strand's chunk has ended and it can arrive: a PINNED chunk is placed first (R199), and so is what an earlier merge of
the strand waits for (R153, log 7). -/
def Warp.mayArrive (w : Warp) (k : Nat) (t : Strand) : Bool := !t.chunk.pinned && !(w.mergePending k)

/-- JOIN_ARRIVE: with the flags clear the chunk ends, and the strand has arrived (R151). -/
def execJoinArrive (r : StrandRef) (s : State) : Out :=
  match s.strand? r, s.warp? r.w with
  | some t, some w =>
    match t.wait with
    | .arriving false =>
      if !t.pends.isEmpty then .next s
      else .next (s.modStrand r (fun t => { t with wait := .arriving true, chunk := { t.chunk with st := .ended } }))
    | .arriving true =>
      if w.mayArrive r.strand t then
        .next ((s.modStrand r (fun t => { t with wait := .joining (w.framesOf r.strand).length })).settleFrames r.w)
      else .next s
    | _ => .next s
  | _, _ => .next s

/-! CALL and RET (R179 to R184). -/

/-- Stores of a spill and loads of a refill: on UC pages the instruction is a singleton (R289); R267 gives the SY treatment to
other instructions alone (log 34). -/
def XReq.spill : XReq := { XReq.store with noSy := true }
def XReq.refill : XReq := { XReq.load with noSy := true }

/-- The slot size S of the warp's width (R180). -/
def Cur.slotSize (c : Cur) : Nat := 4 * c.width + 8

/-- The slot of absolute register `a` (R180). -/
def Cur.slotVa (c : Cur) (a : Nat) : Int := (c.warp.lay.start : Int) + ((a : Int) - c.warp.lay.base) * c.slotSize

/-- The index of the place of the strand's record `d` (R180, R183). -/
def Cur.recordAt (c : Cur) (d : Nat) : Nat := if 1 < c.warp.live then 4 * d + c.ref.strand else d

/-- The address of the strand's call record `d`. -/
def Cur.recordVa (c : Cur) (d : Nat) : Int := (c.warp.lay.stop : Int) - 16 * (c.recordAt d + 1)

/-- A 64-bit address. -/
def va64 (x : Int) : Nat := wrapNat 64 x

/-- The delta codes that fit the lanes of a register (R181): 0, 1, 2, 3 and 7. -/
def fitCodes (ls : List W32) : List Nat :=
  let b := ls.headD 0
  let fits := fun n => ls.all (fun x => (toSigned 32 (x - b).toNat : Int) == toSigned n (x - b).toNat)
  (if ls.all (· == b) then [0] else []) ++ (if fits 4 then [1] else []) ++ (if fits 8 then [2] else []) ++
    (if fits 16 then [3] else []) ++ [7]

/-- Bits of a delta of a code. -/
def deltaBits (code : Nat) : Nat := match code with | 1 => 4 | 2 => 8 | 3 => 16 | _ => 32

/-- The DATA bytes of a code (Table 9.4). -/
def spillData (code : Nat) (ls : List W32) : List Byte :=
  match code with
  | 0 => []
  | 7 => ls.flatMap (fun x => bytesOf 4 x.toNat)
  | _ =>
    let n := deltaBits code
    let b := ls.headD 0
    bytesOf (ceilDiv (n * (ls.length - 1)) 8) (((ls.drop 1).foldr (fun x a => (x - b).toNat % 2 ^ n + 2 ^ n * a) 0))

/-- The writes that spill a register from its slot's address (R181); a strand of a divided warp writes its lanes (R183). -/
def Cur.spillWrites (c : Cur) (va : Nat) (x : VecReg) : List (Nat × List Byte) :=
  let code := if 1 < c.warp.live || x.tag == .poison then 7
    else (let cs := fitCodes x.lanes; cs.getD (Config.deltaCode c.free x.tag.code % cs.length) 7)
  let fmt := (va, bytesOf 4 (x.tag.code + 32 * code))
  let base := (va + 4, bytesOf 4 (x.lane 0).toNat)
  if 1 < c.warp.live then
    [fmt] ++ (if hasLane c.l 0 then [base] else []) ++
      (c.lanes c.l).map (fun l => (va + 8 + 4 * l, bytesOf 4 (x.lane l).toNat))
  else [fmt, base] ++ piecesAt 4 (va + 8) (spillData code x.lanes)

/-- The value that a register entering the frame holds in a lane (R179): zero, or one that a register of the warp holds. -/
def Cur.entering (c : Cur) (slot l : Nat) : W32 :=
  let vs := 0 :: (c.warp.vregs ++ c.warp.gregs).flatMap (·.lanes)
  vs.getD (Config.enteringLane c.free slot l % vs.length) 0

/-- The lanes that a slide of the window moves: the strand's own in a divided warp (R183). -/
def Cur.slideLanes (c : Cur) : Mask := if 1 < c.warp.live then c.l else fullMask c.width

/-- The slots that a frame of `f` registers takes, which its CALL spills and its RET refills (log 8). -/
def Cur.frameSlots (c : Cur) (f : Nat) : List Nat := (List.range f).map c.slot

/-- In a divided warp the strand alone sees the new tags of the slots that its CALL takes (R183). -/
def Cur.ownTags (c : Cur) (slots : List Nat) : Cur :=
  if 1 < c.warp.live then
    c.mapCore (fun k => { k with wtags := k.wtags.filter (fun x => !slots.contains x.1) ++
                                          slots.map (fun i => (i, (c.seen i).tag)) })
  else c

/-- What CALL stores, with the size that it is aligned to: the spill slots of old v0 to v(f - 1), and the call record. -/
def Cur.callWrites (c : Cur) (f : Nat) : List (Nat × List Byte) × List (Nat × List Byte) :=
  let b := c.t.core.winb
  let rec_ := c.recordVa (c.t.core.calls.length - c.depth0)
  ((List.range f).flatMap (fun i => c.spillWrites (va64 (c.slotVa (b + i))) (c.seen (c.slot i))),
   [(va64 rec_, bytesOf 8 c.base.toNat), (va64 (rec_ + 8), bytesOf 8 (f / 8))])

/-- The strand behind CALL: the window slides, and its top f registers enter (R179). -/
def Cur.called (c : Cur) (dest : W64) (f : Nat) : Cur :=
  let d := (c.ownTags (c.frameSlots f)).mapCore (fun k =>
    { k with winb := k.winb + f, calls := k.calls ++ [{ ret := c.base, f := f }] })
  ((List.range f).foldl (fun d i =>
    d.setV (.v (Fin.ofNat 256 (c.r - f + i))) c.slideLanes (fun l => c.entering (c.slot i) l) .raw) d).goto dest

/-- CALL with its target checked (R179, R180). -/
def callTo (dest : W64) (f : Nat) (s : State) (c : Cur) : Except Stop (State × Cur) := do
  let rec_ := c.recordVa (c.t.core.calls.length - c.depth0)
  ensure (decide (c.slotVa (c.t.core.winb + f) ≤ rec_)) (.trap .addr (va64 rec_) 0 none)
  let ws := c.callWrites f
  let x ← storesIn XReq.spill 4 ws.1 (s, c)
  let (s, c) ← storesIn XReq.spill 8 ws.2 x
  .ok (s, c.called dest f)

/-- CALL as a singleton (R289): all that it stores enters G together. -/
def callEvent (dest : W64) (f : Nat) (s : State) (c : Cur) : SRes :=
  match callTo dest f s c with
  | .error e => .stop e
  | .ok (s', c') =>
    match s'.writeSing c c'.t.chunk.gw.reverse with
    | none => .blocked
    | some s'' => .done s'' ((s''.fresh c).called dest f)

/-- The frame size is at most R. -/
def Cur.frameOk (c : Cur) (f : Nat) : Except Stop Unit := ensure (decide (f ≤ c.r)) illegalOperand

/-- CALL and CALL.I to a target that has its check. -/
def State.issueCall (s : State) (dest : Cur → W64) (check : State → Cur → Except Stop Unit) (f : Nat) : Out :=
  match s.cur? with
  | none => .fault .noStrand
  | some c =>
    s.issueMem Form.control (fun s c => do
      c.frameOk f
      check s c
      callTo (dest c) f s c) (.call (dest c) f) (callEvent (dest c) f)

def execCall (t : BitVec 32) (f8 : BitVec 5) (s : State) : Out :=
  s.issueCall (fun c => c.target t) (fun s c => targetOk s c (c.target t)) (8 * f8.toNat)

/-- An indirect target (R55): alignment, then bits [63:57], then the header. -/
def indirectOk (s : State) (c : Cur) (a : W64) : Except Stop Unit := do
  ensure (a.toNat % 8 == 0) (.trap .misalign a.toNat 8 none)
  ensure (field a.toNat 63 57 == 0) (.trap .addr a.toNat 0 none)
  targetOk s c a

def execCallI (x : SReg) (f8 : BitVec 5) (s : State) : Out :=
  s.issueCall (fun c => c.sr x) (fun s c => indirectOk s c (c.sr x)) (8 * f8.toNat)

/-- The lane value that a slot holds (Table 9.4), from its BASE and DATA bytes. -/
def refillLane (code : Nat) (base : Nat) (data : Nat → Nat → Nat) (l : Nat) : W32 :=
  match code with
  | 7 => BitVec.ofNat 32 (data (4 * l) 4)
  | 0 => BitVec.ofNat 32 base
  | _ =>
    if l == 0 then BitVec.ofNat 32 base
    else
      let n := deltaBits code
      let at' := n * (l - 1)
      let x := data (at' / 8) 2 / 2 ^ (at' % 8)
      BitVec.ofNat 32 base + BitVec.ofInt 32 (toSigned n x)

/-- The DATA words that hold the lanes (offsets in DATA). -/
def refillWords (code : Nat) (ls : List Nat) : List Nat :=
  match code with
  | 0 => []
  | 7 => ls.map (4 * ·)
  | _ => ((ls.filter (0 < ·)).map (fun l => deltaBits code * (l - 1) / 8 / 4 * 4)).eraseDups

/-- Whether the format byte and the bytes behind it are legal (R182). -/
def fmtOk (w : Nat) : Bool := !(4 ≤ field w 7 5 && field w 7 5 ≤ 6) && w / 256 == 0

/-- The register that a slot restores, for the given lanes: the loads of the strand, then the value (R182). -/
def refillReg (va : Nat) (ls : List Nat) (x : State × Cur) : Except Stop (VecReg × State × Cur) := do
  let (fmt, x) ← loadsIn XReq.refill 4 [va] x
  let w := ofBytes fmt
  ensure (fmtOk w) (.trap .spillFormat va (w % 256) none)
  let code := field w 7 5
  let offs := refillWords code ls
  let (base, x) ← if code == 7 then (.ok ([], x) : Except Stop _) else loadsIn XReq.refill 4 [va + 4] x
  let (bs, x) ← loadsIn XReq.refill 4 (offs.map (va + 8 + ·)) x
  let byte := fun (o : Nat) => match indexOf? (· == o / 4 * 4) offs with
    | some i => (bs.getD (4 * i + o % 4) 0).toNat
    | none => 0
  let data := fun (o n : Nat) => (List.range n).foldr (fun i a => byte (o + i) + 256 * a) 0
  let width := x.2.width
  .ok ({ tag := Tag.ofCode (field w 4 0),
         lanes := (List.range width).map (fun l => if ls.contains l then refillLane code (ofBytes base) data l else 0) }, x)

/-- The refills of a RET, one register after another. -/
def refillRegs (ls : List Nat) : List Nat → State × Cur → Except Stop (List VecReg × State × Cur)
  | [], x => .ok ([], x)
  | va :: vs, x =>
    match refillReg va ls x with
    | .error e => .error e
    | .ok (v, x) =>
      match refillRegs ls vs x with
      | .error e => .error e
      | .ok (rs, x) => .ok (v :: rs, x)

/-- The strand sees the warp's tags of slots again (R183). -/
def Cur.dropTags (c : Cur) (slots : List Nat) : Cur :=
  c.mapCore (fun k => { k with wtags := k.wtags.filter (fun x => !slots.contains x.1) })

/-- The strand behind RET: the window slides back, and its first f registers are the refilled ones (R179). -/
def Cur.returned (c : Cur) (k : CallRec) (rs : List VecReg) : Cur :=
  let m := c.slideLanes
  let d := c.mapCore (fun x => { x with winb := x.winb - k.f, calls := x.calls.dropLast })
  let d := d.dropTags (d.frameSlots k.f)
  ((List.range k.f).foldl (fun d i => match rs[i]? with
    | some v => d.setV (.v (Fin.ofNat 256 i)) m (fun l => v.lane l) v.tag
    | none => d) d).goto k.ret

/-- RET (R179, R182, R184). -/
def retTo (s : State) (c : Cur) : Except Stop (State × Cur) := do
  ensure c.holdsCall illegalOperand
  match c.t.core.calls.getLast? with
  | none => .error illegalOperand
  | some k =>
    let vas := (List.range k.f).map (fun i => va64 (c.slotVa (c.t.core.winb - k.f + i)))
    let (rs, s, c) ← refillRegs (c.lanes c.slideLanes) vas (s, c)
    .ok (s, c.returned k rs)

/-- RET as a singleton (R289). -/
def retEvent (s : State) (c : Cur) : SRes :=
  match retTo s c with
  | .error e => .stop e
  | .ok (s', c') => .done (s'.recall c'.t.chunk.grs) c'

def execRet (s : State) : Out := s.issueMem Form.control retTo .ret retEvent

/-! EXIT (R161): the lanes leave; a strand with none left ends once its chunk has committed. -/

def exitLanes (exiting : Cur → Mask) (s : State) : Out :=
  s.issueC Form.control (fun c =>
    if !c.t.pends.isEmpty then .error .flags
    else
      let x := exiting c
      let c := c.mapCore (fun k => { k with l := k.l &&& ~~~x, em := k.em &&& ~~~x, hm := k.hm &&& ~~~x })
      let c := c.endChunk
      if c.l == 0 then .ok (c.mapT (fun t => { t with wait := .exiting })) else .ok (c.goto c.base))

def execExit (s : State) : Out := exitLanes Cur.em s
def execExitS (s : State) : Out := exitLanes Cur.l s

/-! Clause headers (R57 to R61) and pairs (R64, R65). -/

/-- The header is applied. -/
def Cur.enterClause (c : Cur) (w : W64) (fresh : Bool) : Cur :=
  let k := fun (x : StrandCore) => { x with hword := w, inClause := true, pc := if fresh then x.hdr + 8 else x.pc }
  if fresh && !(hdrCb w) then
    (c.openChunk.mapChunk (fun ch => { ch with count := ch.count + 1 })).mapCore k
  else c.mapCore k

/-- What the strand does at a clause header that passes R58. -/
def State.startClause (s : State) (c : Cur) (w : W64) : State :=
  let fresh := c.t.core.pc == c.t.core.hdr
  if headerWaits w c.t then s.modStrand c.ref (fun t => { t with wait := .flags })
  else if fresh && hdrCb w && c.t.chunk.st == .opened then s.endBefore c
  else s.putCur (c.enterClause w fresh)

/-- CLAUSE_START: the strand in focus applies the header that governs its program counter. -/
def execClauseStart (s : State) : Out :=
  match s.cur? with
  | none => .fault .noStrand
  | some c =>
    if !(s.mayIssue c true) then .fault .notReady
    else match s.fetchWord c.ctx c.t.core.hdr with
      | .error st => .next (s.stop c c.em c.t.core.hdr st)
      | .ok w =>
        if headerOk w then .next (s.startClause c w)
        else .next (s.stop c c.em c.t.core.hdr (.trap .illegalInstr 0 w.toNat none))

/-- The guard of a pair's member. -/
def pairGuard : PairOp → Guard
  | .valu _ o => o.g
  | .valui _ o => o.g
  | .falu _ o => o.g
  | .ffma _ o => o.g
  | .vsel o => o.g
  | .vmov o => o.g

/-- The effect of a pair's member. -/
def Cur.pairOp (c : Cur) : PairOp → Except Stop Cur
  | .valu f o => c.valu f o
  | .valui f o => c.valui f o
  | .falu f o => c.falu f o
  | .ffma f o => c.ffma f o
  | .vsel o => c.vsel o
  | .vmov o => c.vmov o

/-- A stop of the second word: its own word and its own lanes. -/
def Stop.ofSecond (s : State) (c : Cur) (lanes : Mask) : Stop → Stop
  | .word cause a => .trap cause a (s.peekWord c.ctx (c.t.core.pc + 8)).toNat (some lanes)
  | .trap cause a x none => .trap cause a x (some lanes)
  | st => st

/-- PAIR_ISSUE: encoding checks of both words, the rules of R64, then both effects or neither. -/
def execPairIssue (a b : PairOp) (s : State) : Out :=
  s.issue { words := 2, cf := .none, lanes := fun c => c.enabled (pairGuard a) } (fun s c => do
    ensure (c.t.core.beginsPair) (.word .illegalPair 0)
    let second := fun (e : Stop) => e.ofSecond s c (c.enabled (pairGuard b))
    c.needRegs (a.dest :: a.reads)
    (c.needRegs (b.dest :: b.reads)).mapError second
    ensure (pairOk a b) (.word .illegalPair 0)
    ensure (!(decide (c.t.chunk.chlim ≤ c.t.chunk.count + 1))) .endBefore
    let c1 ← c.pairOp a
    let c2 ← (c1.pairOp b).mapError second
    .ok (s, c2.usePage (c.t.core.pc + 8).toNat))

/-- A word that names no instruction traps ILLEGAL_INSTR (R70). -/
def execReservedOpcodeWord (w : W64) (s : State) : Out :=
  match s.cur? with
  | none => .fault .noStrand
  | some c =>
    if s.mayIssue c false then .next (s.stop c c.em c.t.core.pc (.trap .illegalInstr 0 w.toNat none))
    else .fault .notReady

end Sys2Proof.Machine
end

