-- ==== Sys2Proof/Machine/Width.lean ====
section
/-!
DEFINITION. The end of strands and warps (R124, R129, R154, R314, R410), WSPLIT, WFUSE and WQRY (R167 to R178, R184).
-/

namespace Sys2Proof.Machine

open Sys2Proof

/-! Siblings (R173, R174). -/

/-- Splits in effect. -/
def Warp.gen (w : Warp) : Nat := w.splits.length

/-- The bit of WARP that the latest split set (R173). -/
def Warp.genBit (w : Warp) : Nat := 2 ^ (3 + w.gen)

/-- The warp is the high warp of its latest split. -/
def Warp.isHigh (w : Warp) : Bool := decide (0 < w.gen) && w.id / w.genBit % 2 == 1

/-- The sibling's WARP identifier. -/
def Warp.sibId (w : Warp) : Nat := if w.isHigh then w.id - w.genBit else w.id + w.genBit

/-- The warps that the sibling consists of: itself, or what it has split into. -/
def Crew.family (c : Crew) (w : Warp) : List Warp :=
  c.warps.filter (fun x => x.id % (2 * w.genBit) == w.sibId % (2 * w.genBit))

/-- Every warp of the sibling has exited. -/
def Crew.sibExited (c : Crew) (w : Warp) : Bool := decide (0 < w.gen) && (c.family w).all (·.exited)

/-- A strand that is parked at a WFUSE: its scalar, its address, and when it parked, where that was since the last save. -/
def Wait.atFuse : Wait → Option (SReg × W64 × Option Nat)
  | .wfuse sd a _ since => .some (sd, a, .some since)
  | .restored (some (sd, a)) => Option.some (sd, a, Option.none)
  | _ => Option.none

/-- The sibling's strand that is parked at WFUSE, with what it is parked with. -/
def Crew.sibParked (c : Crew) (w : Warp) : Option (StrandRef × SReg × W64 × Option Nat) :=
  if w.gen == 0 then none
  else match c.warp? w.sibId with
    | none => none
    | some x =>
      if x.gen != w.gen then none
      else (List.range 4).findSome? (fun k =>
        ((x.strand? k).bind (·.wait.atFuse)).map (fun p => ({ w := { crew := c.ref, warp := x.id }, strand := k }, p)))

/-! The end of a strand and of a warp. -/

/-- The warp's open commands are closed into batch `n` (R314). -/
def State.closeBatch (s : State) (r : WarpRef) (n : W32) : State :=
  let mine := fun (x : Cmd) => x.warp == some r && x.batch.isNone
  let ids := (s.cmds.filter mine).map (·.id)
  let s := { s with cmds := updIf mine (fun x => { x with batch := some n }) s.cmds }
  s.modWarp r (fun w =>
    { w with batches := w.batches ++ [{ n := n, cmds := ids, fault := w.openFault }], openFault := none })

/-- The warp has open commands. -/
def State.hasOpen (s : State) (r : WarpRef) : Bool := s.cmds.any (fun x => x.warp == some r && x.batch.isNone)

/-- Parked warps whose sibling has exited receive SIBLING_EXITED (R174). -/
def State.tellSiblings (s : State) (r : CrewRef) : State :=
  match s.crew? r with
  | none => s
  | some c =>
    c.warps.foldl (fun s w =>
      if c.sibExited w then
        (List.range 4).foldl (fun s k =>
          let x : StrandRef := { w := { crew := r, warp := w.id }, strand := k }
          match (s.waitOf x).atFuse with
          | some (sd, _) => s.resume x sd 7
          | none => s) s
      else s) s

/-- A warp with no strand left exits: open copies are closed, held items consumed, barriers updated (R124, R129, R314,
R410), and a parked sibling is told. `n` is the BATCHN of the last strand. -/
def State.exitWarp (s : State) (src : StrandRef) (r : WarpRef) (n : W32) : State :=
  let s := if s.hasOpen r then s.closeBatch r n else s
  let s := s.modWarp r (fun w => { w with held := [], exited := true })
  (s.exitBars src r).tellSiblings r.crew

/-- The one strand left of a warp has its own tags (R183) as the warp's. -/
def Warp.settleTags (w : Warp) : Warp :=
  match w.strands.filterMap (fun x => x) with
  | [t] =>
    { w with vregs := t.core.wtags.foldl (fun vs x => modAt vs x.1 (fun v => { v with tag := x.2 })) w.vregs,
             strands := w.strands.map (Option.map (fun t => { t with core := { t.core with wtags := [] } })) }
  | _ => w

/-- A strand with no lanes ends (R154); none while a barrier update of its warp's exit must wait (R199). -/
def State.endStrand (s : State) (r : StrandRef) : Option State :=
  match s.warp? r.w, s.strand? r with
  | some w, some t =>
    let last := decide (w.live ≤ 1)
    if last && s.barsBlocked r r.w then none
    else
      let s := ((s.modWarp r.w (fun w => (w.leave r.strand).settleTags)).dropPin r).settleFrames r.w
      some (if last then s.exitWarp r r.w t.core.batchn else s)
  | _, _ => some s

/-! WSPLIT (R169 to R173, R184). -/

/-- WSPLIT's status at issue (R170). -/
def wsplitStatus (s : State) (c : Cur) : Nat :=
  if 1 < c.warp.live then 3
  else if s.batchPending c.ref.w then 5
  else if !c.t.pends.isEmpty then 6
  else 0

def execWsplit (sd : SReg) (p : PReg) (s : State) : Out :=
  s.issue Form.strand (fun s c =>
    if c.width == 16 then .error (.trap .widthBad 0 8 none)
    else .ok (s, (c.mapT (fun t => { t with wait := .wsplit sd p (wsplitStatus s c) })).endChunk))

/-- Lanes `a` to `a + h - 1` of a mask, shifted down. -/
def maskPart (m : Mask) (a h : Nat) : Mask := BitVec.ofNat 64 (m.toNat / 2 ^ a % 2 ^ h)

def VecReg.part (v : VecReg) (a h : Nat) : VecReg := { v with lanes := (v.lanes.drop a).take h }

/-- An append cursor stays with the low warp (R172). -/
def Cursor.noAppend (k : Cursor) : Cursor := if k.isAppend then Cursor.unbound else k

/-- The strand of a child (Table 9.2): its lanes, and the rest copied. -/
def Strand.part (t : Strand) (a h : Nat) (high : Bool) : Strand :=
  { t with
    core := { t.core with
      l := maskPart t.core.l a h, em := maskPart t.core.em a h, hm := maskPart t.core.hm a h,
      k := if high then t.core.k.map Cursor.noAppend else t.core.k,
      trap := { t.core.trap with lanes := t.core.trap.lanes &&& fullMask h } },
    wait := .none, pends := [], pinCount := 0, trapReplay := false, failed := none }

/-- The spill areas of the children (R184): the low one and the high one. -/
def Warp.childLays (w : Warp) (winb d : Nat) : SpillLay × SpillLay :=
  let start := w.lay.start + (winb - w.lay.base) * (4 * w.width + 8)
  let z := (w.lay.stop - 16 * d - start) / 2 / 8 * 8
  ({ start := start, stop := start + z, base := winb }, { start := start + z, stop := start + 2 * z, base := winb })

/-- A child of a split; `v` is what the predicate of WSPLIT becomes in its lanes. -/
def Warp.part (w : Warp) (t : Strand) (lay : SpillLay) (p : PReg) (high : Bool) : Warp :=
  let h := w.width / 2
  let a := if high then h else 0
  let nt := (w.tiles.length + 1) / 2
  let x := t.part a h high
  let preds := w.preds.map (fun m => maskPart m a h)
  { w with
    id := if high then w.id + 2 * w.genBit else w.id,
    width := h,
    slot := if high then w.slot + h / 16 else w.slot,
    splits := w.splits ++ [{ lay := w.lay, depth := t.core.calls.length, winb := t.core.winb, tiles := w.tiles.length }],
    lay := lay,
    vregs := w.vregs.map (fun v => v.part a h), gregs := w.gregs.map (fun v => v.part a h),
    preds := if p.val == 15 then preds
             else modAt preds p.val (fun m => if high then m &&& ~~~x.core.l else m ||| x.core.l),
    tiles := if high then w.tiles.drop nt else w.tiles.take nt,
    strands := [some x, none, none, none], frames := [],
    held := if high then [] else w.held, batches := [], openFault := none,
    report := if high then none else w.report }

/-- A child whose lanes have all exited exits at once (R171). -/
def State.exitEmpty (s : State) (r : WarpRef) : State :=
  match s.warp? r with
  | none => s
  | some w => match w.strand? 0 with
    | none => s
    | some t =>
      if t.core.l == 0 then
        (s.modWarp r (fun w => { w with strands := [none, none, none, none] })).exitWarp { w := r, strand := 0 } r t.core.batchn
      else s

/-- The split, in one step (R171, R172). -/
def State.splitWarp (s : State) (c : Cur) (sd : SReg) (p : PReg) : State :=
  let c := (c.setS sd 0).advance 1
  let t := c.t
  let lays := c.warp.childLays t.core.winb (t.core.calls.length - c.depth0)
  let lo := c.warp.part t lays.1 p false
  let hi := c.warp.part t lays.2 p true
  let r := c.ref.w
  let s := s.modCrew r.crew (fun k =>
    { k with warps := k.warps.flatMap (fun w => if w.id == r.warp then [lo, hi] else [w]) })
  ((s.splitBars c.ref r hi.id).exitEmpty r).exitEmpty { r with warp := hi.id }

/-- WARP_SPLIT: once the chunk that ends at WSPLIT has committed (R170). -/
def execWarpSplit (r : StrandRef) (s : State) : Out :=
  match s.curOf r with
  | none => .next s
  | some c =>
    match c.t.wait with
    | .wsplit sd p st =>
      if !c.t.clear then .next s
      else if st != 0 then .next (s.resumeCur ((c.setS sd (BitVec.ofNat 64 st)).setP p c.l 0))
      else if s.barsBlocked r r.w then .next s
      else .next (s.splitWarp c sd p)
    | _ => .next s

/-! WFUSE (R174, R175). -/

/-- WFUSE's status as far as the warp itself decides it; none where the sibling decides. -/
def wfuseStatus (s : State) (c : Cur) : Option Nat :=
  if c.warp.gen == 0 then some 1
  else if c.crew.sibExited c.warp then some 7
  else if 1 < c.warp.live then some 3
  else if s.batchPending c.ref.w then some 5
  else if !c.t.pends.isEmpty then some 6
  else none

def execWfuse (sd : SReg) (s : State) : Out :=
  s.issue Form.strand (fun s c =>
    .ok (s, (c.mapT (fun t => { t with wait := .wfuseEnd sd t.core.pc (wfuseStatus s c) })).endChunk))

/-- pair_check(): 4 WINDOW_MISMATCH, or 0 (R174, R184). -/
def pairCheck (a b : Warp) : Nat :=
  let winb := fun (w : Warp) => (w.strands.filterMap id).map (fun t => t.core.winb)
  if winb a == winb b && winb a == [a.lay.base] then 0 else 4

/-- Parked at WFUSE from this cycle on. -/
def Strand.parkFuse (cycle : W64) (sd : SReg) (a : W64) (t : Strand) : Strand :=
  { t with wait := .wfuse sd a (64 * t.core.chlim) cycle.toNat }

/-- The arrival of a warp at WFUSE, once its chunk has committed (R174). Of two siblings that arrive in one cycle the low one is
decided first, whichever of them commits first (R465). -/
def State.fuseArrive (s : State) (r : StrandRef) : State :=
  match s.curOf r with
  | none => s
  | some c =>
    match c.t.wait with
    | .wfuseEnd sd _ (some st) => s.resume r sd (BitVec.ofNat 64 st)
    | .wfuseEnd sd a none =>
      if c.crew.sibExited c.warp then s.resume r sd 7
      else match c.crew.sibParked c.warp with
        | none => s.modStrand r (Strand.parkFuse s.cycle sd a)
        | some (x, xd, xa, since) =>
          if xa != a then
            if since == some s.cycle.toNat && !c.warp.isHigh then (s.resume x xd 2).modStrand r (Strand.parkFuse s.cycle sd a)
            else s.resume r sd 2
          else match s.warp? x.w with
            | none => s
            | some w =>
              let st := pairCheck c.warp w
              if st != 0 then (s.resume r sd (BitVec.ofNat 64 st)).resume x xd (BitVec.ofNat 64 st)
              else (s.modStrand r (fun t => { t with wait := .fusing sd })).modStrand x (fun t => { t with wait := .fusing xd })
    | _ => s

/-- WFUSE_TIMEOUT (R174). -/
def execWfuseTimeout (r : StrandRef) (s : State) : Out :=
  match s.waitOf r with
  | .wfuse sd _ limit since => .next (if limit ≤ s.cycle.toNat - since then s.resume r sd 8 else s)
  | _ => .next s

/-- A register of the fused warp (R175): the two warps' lanes, RAW where the tags differ. -/
def VecReg.join (a b : VecReg) : VecReg := { tag := if a.tag == b.tag then a.tag else .raw, lanes := a.lanes ++ b.lanes }

/-- Masks of two halves of `h` lanes. -/
def maskJoin (h : Nat) (a b : Mask) : Mask := BitVec.ofNat 64 (a.toNat % 2 ^ h + b.toNat * 2 ^ h)

/-- The fault report of the fused warp. -/
def joinReport (a b : Option Report) : Option Report :=
  match a, b with
  | some x, some _ => some { x with ovf := true }
  | some x, none => some x
  | none, y => y

/-- The strand of the fused warp: the low warp's, with the lanes of both. -/
def Strand.join (h : Nat) (a b : Strand) : Strand :=
  { a with core := { a.core with l := maskJoin h a.core.l b.core.l, em := maskJoin h a.core.em b.core.em,
                                 hm := maskJoin h a.core.hm b.core.hm } }

/-- The fused warp (R175). -/
def Warp.join (lo hi : Warp) (lt ht : Strand) (k : Nat) : Warp :=
  { lo with
    width := 2 * lo.width, splits := lo.splits.dropLast,
    lay := (match lo.splits.getLast? with | some x => x.lay | none => lo.lay),
    vregs := List.zipWith VecReg.join lo.vregs hi.vregs, gregs := List.zipWith VecReg.join lo.gregs hi.gregs,
    preds := List.zipWith (maskJoin lo.width) lo.preds hi.preds, tiles := lo.tiles ++ hi.tiles,
    strands := setAt lo.strands k (some (Strand.join lo.width lt ht)), held := lo.held ++ hi.held,
    batches := lo.batches ++ hi.batches, report := joinReport lo.report hi.report }

/-- The strand of a warp that waits to be fused. -/
def Warp.fusing? (w : Warp) : Option (Nat × Strand × SReg) :=
  (List.range 4).findSome? (fun k => match w.strand? k with
    | some t => match t.wait with | .fusing sd => some (k, t, sd) | _ => none
    | none => none)

/-- WARP_FUSION: two siblings whose WFUSE chunks have committed become one warp (R175). -/
def execWarpFusion (lo hi : WarpRef) (s : State) : Out :=
  match s.warp? lo, s.warp? hi with
  | some a, some b =>
    match a.fusing?, b.fusing? with
    | some (k, lt, sd), some (_, ht, _) =>
      let r : StrandRef := { w := lo, strand := k }
      if lo.crew != hi.crew || a.isHigh || a.sibId != b.id || a.gen != b.gen || s.barsBlocked r lo then .next s
      else
        let s := s.modCrew lo.crew (fun c =>
          { c with warps := updIf (fun w => w.id == lo.warp) (fun _ => a.join b lt ht k)
                              (c.warps.filter (fun w => w.id != hi.warp)) })
        .next ((s.fuseBars r lo hi.warp).resume r sd 0)
    | _, _ => .next s
  | _, _ => .next s

/-! WQRY (R176). -/

/-- SIB of Table 9.3. -/
def sibState (c : Crew) (w : Warp) : Nat :=
  if w.gen == 0 then 0 else if c.sibExited w then 3 else if (c.sibParked w).isSome then 2 else 1

def execWqry (sd : SReg) (s : State) : Out :=
  s.issueC Form.strand (fun c =>
    let w := c.warp
    .ok (c.setS sd (BitVec.ofNat 64 (w.width + 2 ^ 8 * w.gen + 2 ^ 10 * bit w.isHigh + 2 ^ 12 * sibState c.crew w +
      2 ^ 16 * w.lw))))

end Sys2Proof.Machine
end

