-- ==== Sys2Proof/Machine/Chunk.lean ====
section
/-!
DEFINITION. The life of a chunk outside the strand's own instructions (R187 to R204): its end at CHLIM, the completion of
flagged instructions, the offer to the helm, its commit, the grant of a pin slot, and what follows a commit: singleton
events, traps, parked faults and the watchdog.
-/

namespace Sys2Proof.Machine

open Sys2Proof

/-! Ends and flags (R61 to R63, R190). -/

/-- CHLIM_REACHED: the open chunk takes no further word (R190), or the replay for a trap has reached its end (R202). -/
def execChlimReached (r : StrandRef) (s : State) : Out :=
  .next (s.modStrand r (fun t => if t.atLimit then { t with chunk := { t.chunk with st := .ended } } else t))

/-- The flagged instructions of flag `f` have written their results; a strand that waits for flags checks again. -/
def Strand.complete (t : Strand) (f : Nat) : Strand :=
  { t with pends := t.pends.filter (fun p => p.flag != f), wait := (match t.wait with | .flags => .none | w => w) }

/-- FLAGGED_COMPLETION (R61). -/
def execFlaggedCompletion (r : StrandRef) (f : Fin 12) (s : State) : Out :=
  .next (s.modStrand r (fun t => t.complete f.val))

/-- A change of one of the unplaced chunks. -/
def Strand.modUnplaced (t : Strand) (n : Nat) (f : Chunk → Chunk) : Strand :=
  if n < t.earlier.length then { t with earlier := modAt t.earlier n f }
  else if n = t.earlier.length then { t with chunk := f t.chunk }
  else t

/-- No unplaced chunk has to be placed before chunk `n` (R187): each older one is an arrival chunk of another member of the
strand's merge (R155). -/
def Strand.front (t : Strand) (n : Nat) (ch : Chunk) : Bool :=
  (t.unplaced.take n).all (fun x => x.owner.isSome && ch.owner.isSome && x.owner != ch.owner)

/-- The flags that chunk `n` has set are clear (R63): the strand opened the chunk behind it with none pending (R188). -/
def Strand.flagsClear (t : Strand) (n : Nat) : Bool := decide (n < t.earlier.length) || t.pends.isEmpty

/-- Chunk `n` has ended and can be offered to the helm (R187). -/
def Strand.offerable (t : Strand) (n : Nat) : Bool :=
  match t.unplaced[n]? with
  | some ch => ch.st == .ended && t.flagsClear n && t.front n ch
  | none => false

/-- CHUNK_OFFER: an ended chunk with every flag clear goes to the helm, once every earlier one of its strand is placed
(R187). -/
def execChunkOffer (r : ChunkRef) (s : State) : Out :=
  .next (s.modStrand r.strand (fun t =>
    if t.offerable r.n then t.modUnplaced r.n (fun ch => { ch with st := .ordering }) else t))

/-! Commit (R193, R194, R199, R200). -/

/-- The write that a chunk makes at its place in G. -/
def Chunk.wr (ch : Chunk) (r : StrandRef) : Wr :=
  { src := some r, gs := ch.gws, crew := some r.w.crew, cs := ch.cws, owner := ch.owner }

/-- The other PINNED chunks that a write touches. -/
def State.pinnedMet (s : State) (w : Wr) : List StrandRef :=
  s.refs.filter (fun r => match s.strand? r with
    | some t => t.chunk.pinned && t.chunk.active && w.meets r t.chunk
    | none => false)

/-- The number of the grant that a strand's die slot holds (R200). -/
def State.grantOf (s : State) (r : StrandRef) : Nat := (s.pins.getD (s.dieOfRef r) { holder := none, grant := 0, queue := [] }).grant

/-- Crew memory with a chunk's bytes in place; poison that is written over whole is cleared (R110), and granules that the chunk
held in error are poisoned (R201). -/
def Crew.commitMem (c : Crew) (cw : List Host.Cell) (bad : List Nat) : Crew :=
  let full := if c.poison.isEmpty then [] else fullGranules (cw.map (·.1))
  { c with mem := cellsPutAll c.mem cw, poison := addAll (c.poison.filter (fun g => !full.contains g)) bad, committed := true }

/-- The strand with chunk `n` committed. What a replay for a trap was for is kept only where the replay was the strand's last
chunk and reached that trap (R198, R202, R354). -/
def Strand.committed (t : Strand) (n : Nat) (ch : Chunk) : Strand :=
  if n < t.earlier.length then
    { t with earlier := t.earlier.eraseIdx n, pinCount := if ch.again then 0 else t.pinCount,
             residue := if ch.limit.isSome then none else t.residue }
  else
    let reached := ch.limit == some (ch.count, t.core.pc)
    { t with chunk := Chunk.none, pinCount := 0, trapReplay := t.trapReplay && reached,
             residue := if reached then t.residue else none }

/-- What undoes a merge goes when the last arrival chunk that the survivor was handed is placed (R153). -/
def Warp.mergeKept (w : Warp) (k : Nat) : Warp :=
  match w.strand? k with
  | some t => if t.earlier.any (fun ch => ch.owner.isSome) then w else { w with merges := w.merges.filter (fun m => m.sv != k) }
  | none => w

/-- What the commit of a chunk asks of the caches: its write spans are released to the directory (R193), and words whose last
use it has announced are dropped (Table 14.3). -/
def Caches.commit (c : Caches) (core : Nat) (ch : Chunk) : Caches := (c.own core ch.gws).release core ch.lastUse

/-- The chunk takes its place in G (R193): its writes, its barrier-table changes and its closed batches, in one step. -/
def State.place (s : State) (r : StrandRef) (n : Nat) (ch : Chunk) : State :=
  let s := (s.modStrand r (fun t => t.committed n ch)).modWarp r.w (fun w => w.mergeKept r.strand)
  let s := s.store ch.gw.reverse
  let s := { s with dead := addAll s.dead ch.disc, poison := addAll s.poison ch.badG,
                    caches := s.caches.commit (((s.crew? r.w.crew).map Crew.core).getD 0) ch }
  let s := (s.latchAll ch.gws).modCrew r.w.crew (fun c => c.commitMem ch.cw.reverse ch.badC)
  let s := s.commitBars r.w.crew ch.bars
  let s := ch.closes.foldl (fun s n => s.closeBatch r.w n) s
  let s := s.conflict (ch.wr r)
  if ch.pinned then s.dropPin r else s

/-- What a strand does once everything that it ended has committed: its last lanes have exited, it is at WFUSE, or it has
arrived at a JOIN whose merge waits for that (R152). -/
def State.afterCommit (s : State) (r : StrandRef) : State :=
  match s.strand? r with
  | none => s
  | some t =>
    match t.wait with
    | .exiting => if t.clear then (s.endStrand r).getD s else s
    | .wfuseEnd _ _ _ => if t.clear then s.fuseArrive r else s
    | .joining _ => s.settleFrames r.w
    | _ => s

/-- The chunk is placed, and what waited for that follows. -/
def State.placed (s : State) (r : StrandRef) (n : Nat) (ch : Chunk) : State :=
  { (s.place r n ch).afterCommit r with free := s.free + 1 }

/-- A PINNED chunk is squashed by one with grant `g`; it keeps its slot (R200). -/
def State.losePin (s : State) (r : StrandRef) (g : Nat) : State :=
  (s.modStrand r (fun t => { t with chunk := { t.chunk with lostTo := addNew t.chunk.lostTo g } })).squash r .pinClash

/-- The helm places chunk `n`, unless it touches a PINNED one (R199, R200), or its barrier changes can no longer be made
(R405, R407). -/
def State.commitChunk (s : State) (r : StrandRef) (n : Nat) (ch : Chunk) : State :=
  let met := s.pinnedMet (ch.wr r)
  if s.barsStale r.w.crew ch.bars then s.squashAt r n (if ch.pinned then .pinClash else .conflict)
  else if met.isEmpty then s.placed r n ch
  else if !ch.pinned then s.squashAt r n .conflict
  else match met.find? (fun x => decide (s.grantOf x < s.grantOf r)) with
    | some x => s.losePin r (s.grantOf x)
    | none => (met.foldl (fun s x => s.losePin x (s.grantOf r)) s).placed r n ch

/-- The strand's PINNED chunk has ended with its flags clear: it is placed at once (R187, R199). -/
def Strand.pinnedEnded (t : Strand) : Bool :=
  t.chunk.pinned && t.chunk.st == .ended && t.pends.isEmpty && t.front t.earlier.length t.chunk

/-- Chunk `n` can be placed: it has been offered, or it is PINNED and has ended. -/
def Strand.placeable (t : Strand) (n : Nat) : Bool :=
  match t.unplaced[n]? with
  | some ch => (ch.st == .ordering && t.front n ch) || (n == t.earlier.length && t.pinnedEnded)
  | none => false

/-- CHUNK_COMMIT. -/
def execChunkCommit (r : ChunkRef) (s : State) : Out :=
  match s.strand? r.strand with
  | none => .next s
  | some t =>
    match t.unplaced[r.n]? with
    | some ch => .next (if t.placeable r.n then s.commitChunk r.strand r.n ch else s)
    | none => .next s

/-- PINNED chunks that have ended are placed at once, ahead of every other chunk (R187, R199). -/
def State.commitPinned (s : State) : State :=
  s.refs.foldl (fun s r => match s.strand? r with
    | some t => if t.pinnedEnded then s.commitChunk r t.earlier.length t.chunk else s
    | none => s) s

/-- PIN_GRANT: the strand that has waited longest for its die's slot re-executes PINNED (R199). -/
def execPinGrant (die : Nat) (s : State) : Out :=
  match s.pins[die]? with
  | none => .next s
  | some p =>
    match p.holder, p.queue with
    | none, r :: rest =>
      let s := { s with pins := setAt s.pins die { holder := some r, grant := s.grants, queue := rest }, grants := s.grants + 1 }
      .next (s.modStrand r (fun t =>
        if t.chunk.st == .pinWait then
          { t with chunk := { Chunk.none with pinned := true, again := t.chunk.again, errSeen := t.chunk.errSeen,
                                              limit := t.chunk.limit } }
        else t))
    | _, _ => .next s

/-! What waits for a commit. -/

/-- A step of a strand whose chunk has committed. -/
def State.whenIdle (s : State) (r : StrandRef) (f : Cur → State) : Out :=
  match s.curOf r with
  | none => .next s
  | some c => .next (if c.t.clear && (s.ctx c.ctx).st.runs && c.crew.live then f c else s)

/-- The form of a singleton instruction, and its event (R192). -/
def SingOp.event : SingOp → Form × (State → Cur → SRes)
  | .amo f o => (Form.strand, amoEvent f o)
  | .amov f o => (Form.lanesOf o.g o.cf, amovEvent f o)
  | .svwait geu o => (Form.strand, svEvent geu o)
  | .enq o => (Form.strand, enqEvent o)
  | .deq o => (Form.strand, deqEvent o)
  | .deqt o => (Form.strand, deqtEvent o)
  | .engq o => (Form.strand, engqEvent o)
  | .bwait o => (Form.strand, bwaitEvent o)
  | .barv sd sa => (Form.strand, barvEvent sd sa)
  | .bwt o => (Form.strand, bwtEvent o)
  | .barw sd sa => (Form.strand, barwEvent sd sa)
  | .xfence tc fc => (Form.strand, xfenceEvent tc fc)
  | .wcwait d o => (Form.strand, wcEvent d o)
  | .kinitA o t => (Form.strandCf o.cf, kinitAEvent o t)
  | .sld o => (Form.strandCf o.cf, sldEvent o)
  | .sst o => (Form.strandCf o.cf, sstEvent o)
  | .ld o => (Form.lanesOf o.g o.cf, ldEvent o)
  | .st o => (Form.lanesOf o.g o.cf, stEvent o)
  | .ald o => (Form.strandCf o.cf, aldEvent o)
  | .ast o => (Form.strandCf o.cf, astEvent o)
  | .discard o => (Form.lanesOf o.g .none, discEvent o)
  | .pref o => (Form.lanesOf o.g .none, prefEvent o)
  | .call dest f => (Form.control, callEvent dest f)
  | .ret => (Form.control, retEvent)

/-- A strand's event can be performed: its preceding chunks have committed, and its crew has not halted. A crew that is to halt,
for a save, a flush or a context fault, still performs the events that are due (R106, R459). -/
def State.eventOpen (s : State) (c : Cur) : Bool :=
  c.t.clear && c.crew.live && ((s.ctx c.ctx).st.runs || (match c.crew.run with | .halting _ => true | _ => false))

/-- The event that a strand waits for: a singleton instruction's (R192), the next lane of an AMOV (R400), or an exit that a
PINNED chunk held back (R199). -/
def State.dueEvent (s : State) (c : Cur) : State :=
  match c.t.wait with
  | .sing op => s.event1 (c.mapT (fun t => { t with wait := .none })) op.event.1 op.event.2
  | .amov f o todo olds => s.event1 c (Form.lanesOf o.g o.cf) (fun s c => amovNext f o olds s c todo)
  | .exiting => (s.endStrand c.ref).getD s
  | _ => s

/-- SINGLETON_EVENT. -/
def execSingletonEvent (r : StrandRef) (s : State) : Out :=
  match s.curOf r with
  | none => .next s
  | some c => .next (if s.eventOpen c then s.dueEvent c else s)

/-- TRAP_ENTRY: a trap raised at a merge is entered once the flags are clear (R152, R202). -/
def execTrapEntry (r : StrandRef) (s : State) : Out :=
  s.whenIdle r (fun c => match c.t.wait with
    | .trap ti => if c.t.pends.isEmpty then (s.countTrapSquash r).enterTrap r ti c.t.core.pc else s
    | _ => s)

/-- The fields of a strand's FAULT record (R141). -/
def Cur.faultRecord (c : Cur) (f : FaultRec) : FaultRec :=
  { f with core := c.crew.core, quad := c.crew.quad, slot := c.warp.slot, strand := c.ref.strand, voy := c.ref.w.crew.voy,
           crew := c.ref.w.crew.crew }

/-- FAULT_PARK: the strand parks for a fault record (R203, R295). -/
def execFaultPark (r : StrandRef) (s : State) : Out :=
  s.whenIdle r (fun c => match c.t.wait with
    | .faulting pf =>
      let (s, id) := s.attachFault c.ctx pf (.strand r) c.faultRecord
      (s.modStrand r (fun t => { t with wait := .fault id pf, chunk := Chunk.none, pinCount := 0 })).dropPin r
    | _ => s)

/-- When the strand parked at an SVWAIT, WCWAIT or BWAIT that nothing has satisfied (R92). -/
def Cur.parkedSince (c : Cur) : Option Nat :=
  match c.t.wait with
  | .sv _ _ _ since none => some since
  | .wc _ _ since none => some since
  | .bw o since =>
    match c.batchArg o.sa with
    | .ok n => if c.incomplete n then some since else none
    | .error _ => some since
  | _ => none

/-- WATCHDOG: the strand has been parked for longer than the context's interval (R92). -/
def execWatchdog (r : StrandRef) (s : State) : Out :=
  s.whenIdle r (fun c => match c.parkedSince with
    | some since =>
      let us := (s.ctx c.ctx).watchdog
      if us != 0 && decide (1000 * us < s.ns - since) then s.trapParked r .watchdog 0 ((s.ns - since) / 1000) else s
    | none => s)

end Sys2Proof.Machine
end

