-- ==== Sys2Proof/Machine/Cross.lean ====
section
/-!
DEFINITION. Cross-lane instructions (R239 to R245).
-/

namespace Sys2Proof.Machine

open Sys2Proof

/-- A lane that a cross-lane instruction reads: zero outside the strand's lane set (R225). -/
def Cur.xlane (c : Cur) (x : VecReg) (l : Nat) : W32 := if hasLane c.l l then x.lane l else 0

/-! SHFL (R240). -/

/-- The source lane; none keeps the lane's own value. -/
def srcLane (w : Nat) (x : Int) : Option Nat := if 0 ≤ x ∧ x < w then some x.toNat else none

/-- SHFL: `src` gives the source lane of lane `l`. -/
def Cur.shuffle (c : Cur) (vd : VReg) (a : VecReg) (en : Mask) (src : Nat → Option Nat) : Cur :=
  c.setV vd en (fun l => match src l with | some k => c.xlane a k | none => a.lane l) a.tag

def execShflIdx (o : ShflIdxOps) (s : State) : Out :=
  s.issueC (Form.lanesOf o.g .none) (fun c => do
    c.needRegs [o.vd, o.va, o.vb]
    let a ← c.needAny o.va
    let b ← c.needAny o.vb
    .ok (c.shuffle o.vd a (c.enabled o.g) (fun l => srcLane c.width (((b.lane l).toNat % 64 : Nat) : Int))))

/-- SHFL by a distance. -/
def shflBy (f : Nat → Nat → Int) (o : ShflOps) (s : State) : Out :=
  s.issueC (Form.lanesOf o.g .none) (fun c => do
    c.needRegs [o.vd, o.va]
    let a ← c.needAny o.va
    .ok (c.shuffle o.vd a (c.enabled o.g) (fun l => srcLane c.width (f l o.d.val))))

def execShflUp (o : ShflOps) (s : State) : Out := shflBy (fun l d => (l : Int) - d) o s
def execShflDown (o : ShflOps) (s : State) : Out := shflBy (fun l d => (l : Int) + d) o s
def execShflXor (o : ShflOps) (s : State) : Out := shflBy (fun l d => ((l ^^^ d : Nat) : Int)) o s

/-! BCAST and VTOS (R241). -/

def execBcast (o : ShflOps) (s : State) : Out :=
  s.issueC (Form.lanesOf o.g .none) (fun c => do
    c.needRegs [o.vd, o.va]
    ensure (decide (o.d.val < c.width)) illegalOperand
    let a ← c.needAny o.va
    .ok (c.setV o.vd (c.enabled o.g) (fun _ => c.xlane a o.d.val) a.tag))

def execBcastS (o : BcastSOps) (s : State) : Out :=
  s.issueC (Form.lanesOf o.g .none) (fun c => do
    c.needRegs [o.vd]
    .ok (c.setV o.vd (c.enabled o.g) (fun _ => (c.sr o.sa).setWidth 32) o.t))

def execVtos (o : VtosOps) (s : State) : Out :=
  s.issueC Form.strand (fun c => do
    c.needRegs [o.va]
    ensure (decide (o.n.val < c.width)) illegalOperand
    let a ← c.needAny o.va
    .ok (c.setS o.sd ((c.xlane a o.n.val).setWidth 64)))

/-! VRED and VSCAN (R242, R243, R49). -/

/-- A combination of Table 12.7 with its identity; lanes are numbers of 32 bits. -/
structure Combine where
  f  : Nat → Nat → Nat
  id : Nat
  /-- What is done to each lane first: flush_in for the floating-point operations. -/
  pre : Nat → Nat
  accept : Tag → Bool
  /-- Grouping matters: the pairwise tree of R49. -/
  tree : Bool

/-- The operations of Table 12.7. -/
inductive RedFn where
  | add | min | max | and | or | xor | fadd | fmin | fmax
  deriving DecidableEq, Repr

/-- The operation for a type and an ACR. -/
def RedFn.combine (f : RedFn) (t : Tag) (acr : BitVec 10) : Combine :=
  let int := fun g id => { f := g, id := id, pre := fun x => x, accept := accepts t, tree := false : Combine }
  let bits := fun g id => { f := g, id := id, pre := fun x => x, accept := fun _ => true, tree := false : Combine }
  let flt := fun g id => { f := g, id := id, pre := fF32.flushIn acr, accept := fun x => x == .f32, tree := true : Combine }
  match f with
  | .add => int (fun a b => (a + b) % 2 ^ 32) 0
  | .min => int (fun a b => if intOf t b < intOf t a then b else a) (intHi t).toNat
  | .max => int (fun a b => if intOf t a < intOf t b then b else a) (wrapNat 32 (intLo t))
  | .and => bits (fun a b => a &&& b) (2 ^ 32 - 1)
  | .or => bits (fun a b => a ||| b) 0
  | .xor => bits (fun a b => a ^^^ b) 0
  | .fadd => flt (fun a b => fF32.result acr (acrMode acr) ((fF32.read a).add (acrMode acr) (fF32.read b))) 0
  | .fmin => flt (fF32.minMax false) (fF32.infBits false)
  | .fmax => flt (fF32.minMax true) (fF32.infBits true)

/-- One combination of values that may be absent (R49). -/
def Combine.two (k : Combine) (a b : Option Nat) : Option Nat :=
  match a, b with
  | some x, some y => some (k.f x y)
  | some x, none => some x
  | none, y => y

/-- One level of the tree: adjacent pairs in index order. -/
def Combine.level (k : Combine) : List (Option Nat) → List (Option Nat)
  | a :: b :: xs => k.two a b :: k.level xs
  | xs => xs

/-- The tree over `2 ^ n` lanes. -/
def Combine.treeOf (k : Combine) : Nat → List (Option Nat) → List (Option Nat)
  | 0, xs => xs
  | n + 1, xs => k.treeOf n (k.level xs)

/-- The combination of the contributing lanes (R242). -/
def Combine.reduce (k : Combine) (xs : List (Option Nat)) : Nat :=
  if k.tree then (((k.treeOf 6 xs).headD none).getD k.id)
  else (xs.foldl k.two none).getD k.id

/-- The source tag required, as FORMAT reports it. -/
def RedFn.req (f : RedFn) : Nat :=
  match f with
  | .fadd | .fmin | .fmax => Tag.f32.code
  | _ => 31

/-- The lanes' values, none where a lane does not contribute. -/
def Cur.contrib (c : Cur) (k : Combine) (a : VecReg) (en : Mask) : List (Option Nat) :=
  (List.range c.width).map (fun l => if hasLane en l then some (k.pre (c.xlane a l).toNat) else none)

/-- VRED. -/
def vred (f : RedFn) (o : VUnOps) (s : State) : Out :=
  s.issueC (Form.lanesOf o.g .none) (fun c => do
    c.needRegs [o.vd, o.va]
    let k := f.combine o.t c.acr
    let a ← c.need o.va k.accept f.req
    let r := k.reduce (c.contrib k a (c.enabled o.g))
    .ok (c.setV o.vd c.em (fun _ => BitVec.ofNat 32 r) o.t))

def execVredAdd (o : VUnOps) (s : State) : Out := vred .add o s
def execVredMin (o : VUnOps) (s : State) : Out := vred .min o s
def execVredMax (o : VUnOps) (s : State) : Out := vred .max o s
def execVredAnd (o : VUnOps) (s : State) : Out := vred .and o s
def execVredOr (o : VUnOps) (s : State) : Out := vred .or o s
def execVredXor (o : VUnOps) (s : State) : Out := vred .xor o s
def execVredFadd (o : VUnOps) (s : State) : Out := vred .fadd o s
def execVredFmin (o : VUnOps) (s : State) : Out := vred .fmin o s
def execVredFmax (o : VUnOps) (s : State) : Out := vred .fmax o s

/-- The combination of the values before position `l`, or up to it. -/
def Combine.scan (k : Combine) (xs : List (Option Nat)) (ex : Bool) (l : Nat) : Nat :=
  ((xs.take (if ex then l else l + 1)).foldl k.two none).getD k.id

/-- VSCAN. -/
def vscan (f : RedFn) (o : VscanOps) (s : State) : Out :=
  s.issueC (Form.lanesOf o.g .none) (fun c => do
    c.needRegs [o.vd, o.va]
    let k := f.combine o.t c.acr
    let a ← c.need o.va k.accept f.req
    let en := c.enabled o.g
    let xs := c.contrib k a en
    .ok (c.setV o.vd en (fun l => BitVec.ofNat 32 (k.scan xs o.ex l)) o.t))

def execVscanAdd (o : VscanOps) (s : State) : Out := vscan .add o s
def execVscanMin (o : VscanOps) (s : State) : Out := vscan .min o s
def execVscanMax (o : VscanOps) (s : State) : Out := vscan .max o s
def execVscanAnd (o : VscanOps) (s : State) : Out := vscan .and o s
def execVscanOr (o : VscanOps) (s : State) : Out := vscan .or o s
def execVscanXor (o : VscanOps) (s : State) : Out := vscan .xor o s
def execVscanFadd (o : VscanOps) (s : State) : Out := vscan .fadd o s
def execVscanFmin (o : VscanOps) (s : State) : Out := vscan .fmin o s
def execVscanFmax (o : VscanOps) (s : State) : Out := vscan .fmax o s

/-! VOTE (R244). -/

def execVoteBallot (o : BallotOps) (s : State) : Out :=
  s.issueC (Form.lanesOf o.g .none) (fun c => .ok (c.setS o.sd (c.enabled o.g &&& c.pr o.ps)))

/-- ANY and ALL set p(pD) in every lane of EM. -/
def vote (all : Bool) (o : VoteOps) (s : State) : Out :=
  s.issueC (Form.lanesOf o.g .none) (fun c =>
    let en := c.enabled o.g
    let r := if all then en &&& ~~~(c.pr o.ps) == 0 else en &&& c.pr o.ps != 0
    .ok (c.setP o.pd c.em (if r then fullMask c.width else 0)))

def execVoteAny (o : VoteOps) (s : State) : Out := vote false o s
def execVoteAll (o : VoteOps) (s : State) : Out := vote true o s

def execVotePfroms (o : PfromsOps) (s : State) : Out :=
  s.issueC (Form.lanesOf o.g .none) (fun c => .ok (c.setP o.pd (c.enabled o.g) (c.sr o.sa)))

/-! QXCH (R245). -/

/-- QXCH: `f` gives the source within the quad. -/
def Cur.qxch (c : Cur) (f : Nat → Nat) (vd va : VReg) (g : Guard) : Except Stop Cur := do
  c.needRegs [vd, va]
  let a ← c.needAny va
  .ok (c.setV vd (c.enabledH g) (fun l => c.xlane a (l / 4 * 4 + f (l % 4))) a.tag)

def execQxchH (o : VMoveOps) (s : State) : Out :=
  s.issueC (Form.lanesOf o.g .none) (fun c => c.qxch (fun j => j ^^^ 1) o.vd o.va o.g)
def execQxchV (o : VMoveOps) (s : State) : Out :=
  s.issueC (Form.lanesOf o.g .none) (fun c => c.qxch (fun j => j ^^^ 2) o.vd o.va o.g)
def execQxchD (o : VMoveOps) (s : State) : Out :=
  s.issueC (Form.lanesOf o.g .none) (fun c => c.qxch (fun j => j ^^^ 3) o.vd o.va o.g)
def execQxchB (o : QxchBOps) (s : State) : Out :=
  s.issueC (Form.lanesOf o.g .none) (fun c => c.qxch (fun _ => o.c.val) o.vd o.va o.g)

end Sys2Proof.Machine
end

