-- ==== Sys2Proof/Machine/Matrix.lean ====
section
/-!
DEFINITION. MMA, MMAI and MMAT (R333 to R335, R344 to R356).
-/

namespace Sys2Proof.Machine

open Sys2Proof

/-- A row of Table 18.1. -/
structure MmaFn where
  a   : Tag
  b   : Tag
  k   : Nat
  res : Tag
  mx  : Bool
  deriving DecidableEq, Repr

/-! The rows of Table 18.1. -/

def fnMmaF16 : MmaFn := ⟨.f16x2, .f16x2, 16, .f32, false⟩
def fnMmaBf16 : MmaFn := ⟨.bf16x2, .bf16x2, 16, .f32, false⟩
def fnMmaE4m3 : MmaFn := ⟨.e4m3x4, .e4m3x4, 32, .f32, false⟩
def fnMmaE5m2 : MmaFn := ⟨.e5m2x4, .e5m2x4, 32, .f32, false⟩
def fnMmaMxe4m3 : MmaFn := ⟨.e4m3x4, .e4m3x4, 32, .f32, true⟩
def fnMmaMxe5m2 : MmaFn := ⟨.e5m2x4, .e5m2x4, 32, .f32, true⟩
def fnMmaMxe2m1 : MmaFn := ⟨.e2m1x8, .e2m1x8, 64, .f32, true⟩
def fnMmaiI8i8 : MmaFn := ⟨.i8x4, .i8x4, 32, .i32, false⟩
def fnMmaiU8i8 : MmaFn := ⟨.u8x4, .i8x4, 32, .i32, false⟩
def fnMmaiI4i4 : MmaFn := ⟨.i4x8, .i4x8, 64, .i32, false⟩
def fnMmatI8t2 : MmaFn := ⟨.i8x4, .t2x16, 64, .i32, false⟩
def fnMmatU8t2 : MmaFn := ⟨.u8x4, .t2x16, 64, .i32, false⟩

/-! Fragment layouts (R333). -/

/-- Depth parts: D. -/
def partsOf (w : Nat) : Nat := w / 16

/-- Rows an octet: RO. -/
def rowsOf (w : Nat) : Nat := 128 / w

/-- Registers of a fragment. -/
def fragRegs (w k : Nat) (t : Tag) : Nat := k * t.bits / (32 * partsOf w)

/-- The part of depth `k` of `kk`, and its element in that part's run. -/
def depthPart (w kk k : Nat) : Nat × Nat :=
  let n := kk / partsOf w
  (k / n, k % n)

/-- Lane, register and element of A[i][k]. -/
def aPlace (w kk : Nat) (t : Tag) (i k : Nat) : Nat × Nat × Nat :=
  let p := depthPart w kk k
  (8 * (i / rowsOf w) + (i % rowsOf w + rowsOf w * p.1), p.2 / t.elems, p.2 % t.elems)

/-- Lane, register and element of B[k][j]. -/
def bPlace (w kk : Nat) (t : Tag) (k j : Nat) : Nat × Nat × Nat :=
  let p := depthPart w kk k
  (j + 16 * p.1, p.2 / t.elems, p.2 % t.elems)

/-- An element of a fragment. -/
def fragElem (t : Tag) (rs : List VecReg) (p : Nat × Nat × Nat) : Nat :=
  match rs[p.2.1]? with
  | some r => elemAt t.bits (r.lane p.1) p.2.2
  | none => 0

/-- A register as the instruction reads it: lanes outside L read zero (R349). -/
def VecReg.inL (x : VecReg) (l : Mask) : VecReg :=
  { x with lanes := (List.range x.lanes.length).map (fun i => if hasLane l i then x.lane i else 0) }

/-! The bounds (R346). -/

/-- The bounds operand: rows, columns, depth, and the depth mask. -/
structure Bounds where
  rows  : Nat
  cols  : Nat
  depth : Nat
  mask  : Option W64
  deriving DecidableEq, Repr

def Cur.bounds (c : Cur) (bnd : SReg) (k : Nat) : Except Stop Bounds := do
  let x := (c.sr bnd).toNat
  let dm := bitAt x 17
  ensure (field x 63 18 == 0 && decide (field x 4 0 ≤ 16) && decide (field x 9 5 ≤ 16) && decide (field x 16 10 ≤ k) &&
    !(dm && bnd.val == 63)) illegalOperand
  .ok { rows := field x 4 0, cols := field x 9 5, depth := field x 16 10,
        mask := if dm then some (c.sr (sregAt (bnd.val + 1))) else none }

/-- Depth `k` contributes, MX scales apart (R348). -/
def Bounds.depthIn (b : Bounds) (k : Nat) : Bool :=
  decide (k < b.depth) && (match b.mask with | some m => m.getLsbD k | none => true)

/-! Octets (R347). -/

/-- The lanes of octet `o` in EM. -/
def octet (em : Mask) (o : Nat) : Nat := em.toNat / 2 ^ (8 * o) % 256

/-- No octet is partial. -/
def Cur.octetsOk (c : Cur) : Except Stop Unit :=
  let bad := (List.range (c.width / 8)).filter (fun o => octet c.em o != 0 && octet c.em o != 255)
  ensure bad.isEmpty (.trap .matrixPartialOctet 0 (bad.foldl (fun a o => a + 2 ^ o) 0)
    (some (maskOf c.width (fun l => bad.contains (l / 8) && hasLane c.em l))))

/-- Row `i` lies in an active octet. -/
def Cur.rowActive (c : Cur) (i : Nat) : Bool := octet c.em (i / rowsOf c.width) == 255

/-- The computed elements (R348). -/
def Cur.computed (c : Cur) (b : Bounds) (i j : Nat) : Bool := decide (i < b.rows) && decide (j < b.cols) && c.rowActive i

/-- Some element is computed. -/
def Cur.someComputed (c : Cur) (b : Bounds) : Bool :=
  decide (0 < b.cols) && (List.range b.rows).any (fun i => c.computed b i 0)

/-! The operands of one instruction, checked (R350). -/

structure MmaIn where
  tile : Tile
  bnd  : Bounds
  a    : List VecReg
  b    : List VecReg
  scl  : Option VecReg
  deriving DecidableEq, Repr

def Cur.mmaIn (c : Cur) (f : MmaFn) (o : MmaOps) : Except Stop MmaIn := do
  ensure (c.tileOk o.tile) illegalReg
  let ra ← c.run o.a (fragRegs c.width f.k f.a)
  let rb ← c.run o.b (fragRegs c.width f.k f.b)
  c.needRegs o.scl.toList
  let bnd ← c.bounds o.bnd f.k
  ensure (!(f.mx && o.scl.isNone)) illegalOperand
  let t ← c.readTile o.tile (· == f.res) f.res.code
  let a ← ra.mapM (fun r => c.needTag r f.a)
  let b ← rb.mapM (fun r => c.needTag r f.b)
  let scl ← match o.scl with
    | some r => (c.needTag r .e8m0x4).map some
    | none => .ok none
  c.octetsOk
  .ok { tile := t, bnd := bnd, a := a, b := b.map (fun x => x.inL c.l), scl := scl.map (fun x => x.inL c.l) }

/-- The tile with its computed elements; unchanged when there is none (R351, R353). -/
def Cur.mmaWrite (c : Cur) (o : MmaOps) (f : MmaFn) (x : MmaIn) (g : Nat → Nat → W32) (sat : Bool) : Cur :=
  if c.someComputed x.bnd then
    c.setTile o.tile
      { x.tile.live f.res (fun k => if c.computed x.bnd (k / 16) (k % 16) then g (k / 16) (k % 16) else x.tile.elem k)
        with sat := x.tile.sat || sat }
  else c

/-! Floating point (R351, R352). -/

/-- The scale codes of a depth's block for row `i` and column `j` (R335). -/
def MmaIn.scales (x : MmaIn) (i j k : Nat) : Nat × Nat :=
  match x.scl with
  | some r => (elemAt 8 (r.lane i) (k / 32), elemAt 8 (r.lane j) (2 + k / 32))
  | none => (127, 127)

/-- The term of a contributing depth (R46, R351): in MMA.MXE2M1 an element scaled by 2^127 counts as an infinity against a
zero (log 36). -/
def mmaTerm (t : Tag) (a b : FNum) (sa sb : Nat) : FNum :=
  match scaleOf sa, scaleOf sb with
  | some x, some y =>
    let zero := fun (v : FNum) => v == .zero false || v == .zero true
    if x.isNan || y.isNan then .nan
    else if t == .e2m1x8 && ((zero a && !(zero b) && sb == 254) || (zero b && !(zero a) && sa == 254)) then .nan
    else (a.mul b).mul (x.mul y)
  | _, _ => .zero false

/-- The terms of one computed element, the accumulator's first. -/
def Cur.mmaTerms (c : Cur) (f : MmaFn) (x : MmaIn) (i j : Nat) : List FNum :=
  let fa := ffmtOf f.a
  let fb := ffmtOf f.b
  fF32.read (x.tile.elem (16 * i + j)).toNat :: ((List.range x.bnd.depth).filter (fun k =>
      x.bnd.depthIn k && (x.scales i j k).1 != 0 && (x.scales i j k).2 != 0)).map (fun k =>
    mmaTerm f.a (fa.input c.acr (fragElem f.a x.a (aPlace c.width f.k f.a i k)))
      (fb.input c.acr (fragElem f.b x.b (bPlace c.width f.k f.b k j))) (x.scales i j k).1 (x.scales i j k).2)

/-- One computed element of MMA. -/
def Cur.mmaElem (c : Cur) (f : MmaFn) (x : MmaIn) (i j : Nat) : W32 :=
  BitVec.ofNat 32 (fF32.result c.acr .rne (FNum.sum (c.mmaTerms f x i j)))

def mma (f : MmaFn) (o : MmaOps) (s : State) : Out :=
  s.issueC (Form.strandCf o.cf) (fun c => do
    let x ← c.mmaIn f o
    .ok (c.mmaWrite o f x (c.mmaElem f x) false))

def execMmaF16 (o : MmaOps) (s : State) : Out := mma fnMmaF16 o s
def execMmaBf16 (o : MmaOps) (s : State) : Out := mma fnMmaBf16 o s
def execMmaE4m3 (o : MmaOps) (s : State) : Out := mma fnMmaE4m3 o s
def execMmaE5m2 (o : MmaOps) (s : State) : Out := mma fnMmaE5m2 o s
def execMmaMxe4m3 (o : MmaOps) (s : State) : Out := mma fnMmaMxe4m3 o s
def execMmaMxe5m2 (o : MmaOps) (s : State) : Out := mma fnMmaMxe5m2 o s
def execMmaMxe2m1 (o : MmaOps) (s : State) : Out := mma fnMmaMxe2m1 o s

/-! Integer and ternary (R353). -/

/-- The integer of an element; a T2 code 0b10 counts as nothing where it is ignored. -/
def mmaInt (t : Tag) (x : Nat) : Int :=
  if t == .t2x16 then (if x == 1 then 1 else if x == 3 then -1 else 0) else intOf t x

/-- The exact value of one computed element. -/
def Cur.mmaiSum (c : Cur) (f : MmaFn) (x : MmaIn) (i j : Nat) : Int :=
  ((List.range x.bnd.depth).filter x.bnd.depthIn).foldl (fun t k =>
    t + mmaInt f.a (fragElem f.a x.a (aPlace c.width f.k f.a i k)) *
        mmaInt f.b (fragElem f.b x.b (bPlace c.width f.k f.b k j))) (x.tile.elem (16 * i + j)).toInt

/-- The first T2 code 0b10 that the instruction consumes: its register (R353). -/
def Cur.badT2 (c : Cur) (f : MmaFn) (x : MmaIn) : Option Nat :=
  if f.b == .t2x16 && c.someComputed x.bnd then
    (List.range x.b.length).find? (fun r => (List.range c.width).any (fun l =>
      decide (l % 16 < x.bnd.cols) && (List.range 16).any (fun e =>
        x.bnd.depthIn (l / 16 * (f.k / partsOf c.width) + 16 * r + e) && fragElem f.b x.b (l, r, e) == 2)))
  else none

def mmai (f : MmaFn) (o : MmaOps) (s : State) : Out :=
  s.issueC (Form.strandCf o.cf) (fun c => do
    let x ← c.mmaIn f o
    match c.badT2 f x with
    | some r => .error (.trap .format 0 (formatExtra 12 12 (o.b.code + r)) none)
    | none =>
      let sat := (List.range x.bnd.rows).any (fun i => (List.range x.bnd.cols).any (fun j =>
        c.computed x.bnd i j && (let t := c.mmaiSum f x i j; satTo .i32 t != t)))
      .ok (c.mmaWrite o f x (fun i j => BitVec.ofInt 32 (satTo .i32 (c.mmaiSum f x i j))) sat))

def execMmaiI8i8 (o : MmaOps) (s : State) : Out := mmai fnMmaiI8i8 o s
def execMmaiU8i8 (o : MmaOps) (s : State) : Out := mmai fnMmaiU8i8 o s
def execMmaiI4i4 (o : MmaOps) (s : State) : Out := mmai fnMmaiI4i4 o s
def execMmatI8t2 (o : MmaOps) (s : State) : Out := mmai fnMmatI8t2 o s
def execMmatU8t2 (o : MmaOps) (s : State) : Out := mmai fnMmatU8t2 o s

/-! The residue check (R354). -/

/-- Some computed element satisfies a test. -/
def Cur.anyComputed (c : Cur) (b : Bounds) (p : Nat → Nat → Bool) : Bool :=
  (List.range b.rows).any (fun i => (List.range b.cols).any (fun j => c.computed b i j && p i j))

/-- MMA checks a residue: it has passed R350, and computes an element with no NaN and no infinity among its terms. -/
def Cur.mmaChecked (c : Cur) (f : MmaFn) (o : MmaOps) : Bool :=
  match c.mmaIn f o with
  | .error _ => false
  | .ok x => c.anyComputed x.bnd (fun i j => (c.mmaTerms f x i j).all (fun t => match t with | .zero _ | .fin _ _ _ => true | _ => false))

/-- MMAI and MMAT check a residue: they have passed R350, and compute an element that does not saturate. -/
def Cur.mmaiChecked (c : Cur) (f : MmaFn) (o : MmaOps) : Bool :=
  match c.mmaIn f o with
  | .error _ => false
  | .ok x => (c.badT2 f x).isNone && c.anyComputed x.bnd (fun i j => let t := c.mmaiSum f x i j; satTo .i32 t == t)

end Sys2Proof.Machine
end

