-- ==== Sys2Proof/Machine/Place.lean ====
section
/-!
DEFINITION. Launch items and voyages (R113 to R117), the placing of crews (R118 to R123), their retirement (R124, R125),
their halt, save, flush and restore (R102 to R106, R323), and the posting of kept records (R140, R141).
-/

namespace Sys2Proof.Machine

open Sys2Proof

/-! Resources (R121, R123). -/

/-- What a crew needs of a quadrant, or what a quadrant holds. -/
structure Need where
  slots : Nat
  regs  : Nat
  tiles : Nat
  mem   : Nat
  deriving DecidableEq, Repr

def LaunchRec.need (l : LaunchRec) : Need :=
  { slots := l.warps * (l.width / 16), regs := l.warps * (l.regs8 * 8 + l.globals) * l.width * 4, tiles := l.warps * l.tiles,
    mem := l.crewmem }

/-- A quadrant's totals (R123). -/
def Need.quadrant : Need := { slots := 32, regs := 262144, tiles := 512, mem := 131072 }

def Need.add (a b : Need) : Need :=
  { slots := a.slots + b.slots, regs := a.regs + b.regs, tiles := a.tiles + b.tiles, mem := a.mem + b.mem }

def Need.le (a b : Need) : Bool :=
  decide (a.slots ≤ b.slots) && decide (a.regs ≤ b.regs) && decide (a.tiles ≤ b.tiles) && decide (a.mem ≤ b.mem)

/-- How many of a crew an empty quadrant holds. -/
def LaunchRec.perQuad (l : LaunchRec) : Nat :=
  ((List.range 33).filter (fun n =>
    Need.le { slots := n * l.need.slots, regs := n * l.need.regs, tiles := n * l.need.tiles, mem := n * l.need.mem }
      Need.quadrant)).length - 1

/-- A core belongs to a sector. -/
def inSector (sector core : Nat) : Bool := decide (core < 768) && bitAt sector core

/-- Cores of a sector on a die. -/
def sectorOn (sector die : Nat) : Nat := ((List.range 96).filter (fun i => bitAt sector (96 * die + i))).length

/-- FIT (R116): one crew fits an empty quadrant, some die can hold a whole convoy, and the sector holds a persistent voyage. -/
def LaunchRec.fits (l : LaunchRec) (sector : Nat) : Bool :=
  let k := 4 * l.perQuad
  decide (1 ≤ l.perQuad) &&
    (List.range 8).any (fun d => decide (Nat.min l.convoy l.crews ≤ k * sectorOn sector d)) &&
    (!l.persistent || decide (l.crews ≤ k * ((List.range 8).map (sectorOn sector)).sum))

/-- The place of a warp within its launch allocation of slots (R120, R171). -/
def Warp.offset (w : Warp) : Nat :=
  ((List.range w.gen).map (fun g => if w.id / 2 ^ (4 + g) % 2 == 1 then w.lw / 2 ^ (g + 1) / 16 else 0)).sum

/-- The slots of a crew on its quadrant. -/
def Crew.slots (c : Crew) : List Nat := c.warps.flatMap (fun w => (List.range (w.width / 16)).map (w.slot + ·))

/-- The crews on a quadrant. -/
def State.crewsOn (s : State) (core quad : Nat) : List Crew :=
  s.crews.filter (fun c => c.onQuad && c.core == core && c.quad == quad)

/-- The first slot for each of `n` warps of `a` slots, aligned (R120), none if they do not all fit. -/
def allocSlots (a : Nat) : Nat → List Nat → Option (List Nat)
  | 0, _ => some []
  | n + 1, used =>
    match (List.range (32 / Nat.max a 1)).find? (fun b => (List.range a).all (fun i => !used.contains (a * b + i))) with
    | none => none
    | some b => (allocSlots a n (used ++ (List.range a).map (a * b + ·))).map (a * b :: ·)

/-- The slots that a crew of a context gets on a quadrant of its sector, none where it does not fit (R121, R123). A quadrant
that covers the four needs of R123 but has no aligned groups of free slots (R120) takes no crew: the model's choice
(log 64). -/
def State.roomOn (s : State) (ctx core quad : Nat) (l : LaunchRec) : Option (List Nat) :=
  let cs := s.crewsOn core quad
  if !(inSector (s.ctx ctx).sector core) || 4 ≤ quad || cs.any (fun c => c.ref.ctx != ctx) then none
  else if Need.le (cs.foldl (fun a c => a.add c.launch.need) l.need) Need.quadrant then
    allocSlots (l.width / 16) l.warps (cs.flatMap Crew.slots)
  else none

/-! Flushed crews (R323). -/

/-- The engine commands of a crew are complete. -/
def State.quiet (s : State) (r : CrewRef) : Bool := s.cmds.all (fun c => c.crew != r || c.finished)

/-- Flushed crews whose commands are complete leave the package. -/
def State.pruneFlushed (s : State) : State :=
  { s with crews := s.crews.filter (fun c => !(c.run == .flushed && s.quiet c.ref)) }

/-! The launch record (Table 6.1). -/

def launchOf (bs : List Byte) : LaunchRec :=
  let f := recField bs
  { code := BitVec.ofNat 64 (f 0 8), handler := BitVec.ofNat 64 (f 8 8), data := BitVec.ofNat 64 (f 16 8),
    width := f 24 1, regs8 := f 25 1, globals := f 26 1, persistent := bitAt (f 27 1) 0, restartable := bitAt (f 27 1) 1,
    drainValid := bitAt (f 27 1) 2, tiles := f 28 2, warps := f 30 1, crewmem := f 32 4, chunk := f 36 2, convoy := f 40 4,
    crews := f 44 4, drain := f 48 4, heapx := f 52 4, spill := BitVec.ofNat 64 (f 56 8), spillb := f 64 8,
    heap := BitVec.ofNat 64 (f 72 8) }

/-- The limits of Table 6.1, in ascending byte order: the first byte of each field, and whether it holds. -/
def launchLimits (bs : List Byte) : List (Nat × Bool) :=
  let l := launchOf bs
  [(24, l.width == 16 || l.width == 32 || l.width == 64), (25, decide (1 ≤ l.regs8 ∧ l.regs8 ≤ 32)),
   (26, decide (l.globals ≤ 64)), (27, decide (recField bs 27 1 < 8)), (28, decide (l.tiles ≤ 256)),
   (30, decide (1 ≤ l.warps ∧ l.warps ≤ 16 ∧ l.warps * l.width ≤ 512)), (31, zeroAt bs 31 31),
   (32, decide (l.crewmem ≤ 131072) && l.crewmem % 64 == 0), (36, decide (32 ≤ l.chunk ∧ l.chunk ≤ 4096)),
   (38, zeroAt bs 38 39), (40, decide (1 ≤ l.convoy ∧ l.convoy ≤ 65535)), (44, decide (1 ≤ l.crews)),
   (48, decide (l.drain ≤ 1000000)), (52, decide (l.heapx ≤ 2 ^ 20)),
   (64, l.spillb % 8 == 0 && decide (l.spillb ≤ 2 ^ 32 - 8)), (80, zeroAt bs 80 127)]

/-- The addresses of the record with their alignments. -/
def launchAddrs (l : LaunchRec) : List (Nat × Bool) :=
  [(0, fieldAddr l.code.toNat 8), (8, fieldAddr l.handler.toNat 1), (16, fieldAddr l.data.toNat 1),
   (56, fieldAddr l.spill.toNat 8), (72, fieldAddr l.heap.toNat 4096)]

/-- The offset of the first entry that fails. -/
def firstBad (l : List (Nat × Bool)) : Option Nat := (l.find? (fun x => !x.2)).map (·.1)

/-- The checks of R116 on an item and its record: the code and offset of the first that fails. -/
def launchCheck (item bs : List Byte) (sector : Nat) : Option (Nat × Nat) :=
  match firstBad (launchLimits bs) with
  | some o => some (1, o)
  | none =>
    if !((item.drop 16).all (· == 0)) then some (1, 0xFF)
    else match firstBad (launchAddrs (launchOf bs)) with
      | some o => some (2, o)
      | none => if (launchOf bs).fits sector then none else some (3, 0xFF)

/-! LAUNCH_TAKE (R115 to R117). -/

/-- LAUNCH_REJECT. -/
def State.launchReject (s : State) (ctx : Nat) (item : List Byte) (code off : Nat) : State :=
  s.event ctx 2 [(16, 1, code), (17, 1, off), (32, 16, ofBytes (item.take 16))]

/-- The voyage number behind `n`, skipping 0 (R117). -/
def nextVoyage (n : Nat) : Nat := if n + 1 == 2 ^ 32 then 1 else n + 1

/-- The launch is accepted: a voyage in PLACING, and the context is ACTIVE (Tables 5.1, 6.3). -/
def State.launchAccept (s : State) (ctx : Nat) (item bs : List Byte) : State :=
  s.modCtx ctx (fun c =>
    { c with
      st := .active, nextVoy := nextVoyage c.nextVoy,
      voyages := c.voyages ++ [{ num := c.nextVoy, recAddr := BitVec.ofNat 64 (recField item 0 8), launch := launchOf bs,
                                 arg := BitVec.ofNat 64 (recField item 8 8), st := .placing, placed := 0, again := [],
                                 exited := 0, retired := 0, isPartial := false, heap := List.replicate 8 0 }] })

/-- The read of the launch record and its checks; a replayable fault makes the take wait (R116). -/
def State.takeRecord (s : State) (ctx : Nat) (item : List Byte) : State :=
  let s := s.modCtx ctx (fun c => { c with take := none })
  let a := recField item 0 8
  if !(fieldAddr a 128) then s.launchReject ctx item 2 0xFF
  else match s.devRead ctx a 128 XReq.devRead with
    | (s, .error (.replayable pf)) =>
      let (s, id) := s.attachFault ctx pf .take (fun f => f)
      s.modCtx ctx (fun c => { c with take := some { item := item, ring := false, fault := id } })
    | (s, .error _) => s.launchReject ctx item 2 0xFF
    | (s, .ok bs) =>
      match launchCheck item bs (s.ctx ctx).sector with
      | some (code, off) => s.launchReject ctx item code off
      | none => s.launchAccept ctx item bs

/-- The read of the item at HEAD (R471). -/
def State.takeItem (s : State) (ctx : Nat) (x : Queue) : State :=
  match s.devRead ctx (x.slotVa x.head) x.itemBytes XReq.ringRead with
  | (s, .error (.replayable pf)) =>
    let (s, id) := s.attachFault ctx pf .take (fun f => f)
    s.modCtx ctx (fun c => { c with take := some { item := [], ring := true, fault := id } })
  | (s, .error (.dead e)) => s.queueError ctx 0 e
  | (s, .error .done) => s
  | (s, .ok bs) => (s.takeHead ctx 0 x).takeRecord ctx bs

/-- The next item can be taken: every crew of the voyages so far has been placed (R116), and the context is CREATED or
ACTIVE (Table 5.1). -/
def Ctx.mayTake (c : Ctx) : Bool :=
  (c.st == .created || c.st == .active) && c.suspending.isNone && !(c.voyages.any (fun v => v.st == .placing))

/-- The queue holds an item that the device may dequeue. -/
def Queue.hasItem (x : Queue) : Bool := (x.st == .opened || x.st == .closing) && decide (x.head < x.tail)

/-- LAUNCH_TAKE. -/
def execLaunchTake (ctx : Nat) (s : State) : Out :=
  let c := s.ctx ctx
  .next (if !c.mayTake then s
    else match c.take, c.queue? 0 with
      | some t, _ => if t.fault == 0 && !t.ring then s.takeRecord ctx t.item else s
      | none, some x => if x.hasItem then s.takeItem ctx x else s
      | none, none => s)

/-! CONVOY_PLACE (R118 to R122). -/

/-- The core of a strand as a warp begins (Table 6.2). -/
def startCore (l : LaunchRec) (arg : W64) : StrandCore :=
  { pc := l.code, hdr := l.code, hword := 0, inClause := false, l := fullMask l.width, em := fullMask l.width, hm := 0,
    s := setAt (setAt (List.replicate 64 0) 1 arg) 2 l.data, k := List.replicate 16 Cursor.unbound, acr := 0,
    chlim := l.chunk, batchn := 0, winb := 0, wtags := [], calls := [], trap := TrapRegs.zero }

def startStrand (l : LaunchRec) (arg : W64) : Strand :=
  { core := startCore l arg, chunk := Chunk.none, earlier := [], wait := .none, pends := [], sqcnt := 0, pinCount := 0,
    trapReplay := false, residue := none, poisoned := false, failed := none }

/-- v0 as a warp begins: each lane's index, tag U32. -/
def laneIndex (w : Nat) : VecReg := { tag := .u32, lanes := (List.range w).map (BitVec.ofNat 32) }

/-- Warp `i` of crew `crew` as it begins (R114, R118). -/
def startWarp (l : LaunchRec) (arg : W64) (crew i slot : Nat) : Warp :=
  let base := l.spill.toNat + (crew * l.warps + i) * l.spillb
  { id := i, width := l.width, lw := l.width, slot := slot, splits := [],
    lay := { start := base, stop := base + l.spillb, base := 0 },
    vregs := setAt (List.replicate (l.regs8 * 8) (VecReg.zero l.width)) 0 (laneIndex l.width),
    gregs := List.replicate l.globals (VecReg.zero l.width), preds := List.replicate 15 0,
    tiles := List.replicate l.tiles Tile.undef, strands := [some (startStrand l arg), none, none, none], frames := [],
    merges := [], held := [], batches := [], openFault := none, report := none, exited := false }

/-- A crew in its launch state. -/
def startCrew (ref : CrewRef) (l : LaunchRec) (arg : W64) (core quad now : Nat) (slots : List Nat) : Crew :=
  { ref := ref, launch := l, arg := arg, core := core, quad := quad, run := .placed, mem := [], poison := [], bars := [],
    syList := [], warps := (List.range l.warps).map (fun i => startWarp l arg ref.crew i (slots.getD i 0)), ran := 0,
    since := now, committed := false, preempt := none, suspended := false }

/-- Place one crew in its launch state, none where it does not fit. -/
def State.placeCrew (s : State) (ctx : Nat) (v : Voyage) (crew core quad : Nat) : Option State :=
  (s.roomOn ctx core quad v.launch).map (fun slots =>
    { s with crews := s.crews ++ [startCrew { ctx := ctx, voy := v.num, crew := crew } v.launch v.arg core quad s.ns slots] })

/-- Place crews `first`, `first + 1`, ... all together, or none. -/
def State.placeAll (ctx : Nat) (v : Voyage) : List (Nat × Nat × Nat) → State → Option State
  | [], s => some s
  | (crew, core, quad) :: ps, s => (s.placeCrew ctx v crew core quad).bind (State.placeAll ctx v ps)

/-- Convoys of a voyage; a persistent voyage is placed as one. -/
def Voyage.convoys (v : Voyage) : Nat := if v.launch.persistent then 1 else ceilDiv v.launch.crews v.launch.convoy

/-- The crews that are due to be placed together next: a flushed one whose commands are complete, else the next convoy. That a
flushed crew is placed alone, on any die, and before a further convoy is the model's choice (log 64). -/
def State.dueCrews (s : State) (ctx : Nat) (v : Voyage) : List Nat :=
  match v.again.find? (fun c => !(s.crews.any (fun x => x.ref == { ctx := ctx, voy := v.num, crew := c }))) with
  | some c => [c]
  | none =>
    if v.st != .placing then []
    else if v.launch.persistent then List.range v.launch.crews
    else
      let first := v.placed * v.launch.convoy
      (List.range (Nat.min v.launch.convoy (v.launch.crews - first))).map (first + ·)

/-- The voyage with those crews placed (Table 6.3). -/
def Voyage.notePlaced (v : Voyage) (cs : List Nat) : Voyage :=
  if cs.any v.again.contains then { v with again := v.again.filter (fun c => !cs.contains c) }
  else { v with placed := v.placed + 1, st := if v.placed + 1 == v.convoys then .running else .placing }

/-- CONVOY_PLACE: the crews due are placed on the given quadrants, in one step; one convoy stays on one die (R122). None is
placed while the context is LOST: the model's choice (log 64). -/
def execConvoyPlace (ctx voy : Nat) (places : List (Nat × Nat)) (s : State) : Out :=
  let s' := s.pruneFlushed
  .next (match (s'.ctx ctx).voyage? voy with
    | none => s
    | some v =>
      let cs := s'.dueCrews ctx v
      let oneDie := places.all (fun p => dieOf p.1 == dieOf (places.headD (0, 0)).1)
      if (s'.ctx ctx).st != .active || (s'.ctx ctx).suspending.isSome || cs.isEmpty || cs.length != places.length ||
          !(v.launch.persistent || oneDie) then s
      else match State.placeAll ctx v (List.zipWith (fun c p => (c, p.1, p.2)) cs places) s' with
        | none => s
        | some s' => s'.modCtx ctx (fun c => c.modVoyage voy (fun v => v.notePlaced cs)))

/-! Retirement (R124, R125). -/

/-- The voyage retires once every crew has: VOYAGE_DONE; with the last voyage and an empty LAUNCH queue the context goes to
CREATED (R125). -/
def State.voyageDone (s : State) (ctx voy : Nat) : State :=
  match (s.ctx ctx).voyage? voy with
  | none => s
  | some v =>
    if v.st != .running || v.retired != v.launch.crews then s
    else
      let s := s.event ctx 1 [(16, 4, v.num), (20, 4, v.exited), (24, 1, bit v.isPartial), (32, 8, v.recAddr.toNat),
        (40, 8, v.arg.toNat)]
      s.modCtx ctx (fun c =>
        let c := { c with voyages := c.voyages.filter (fun x => x.num != voy) }
        let empty := match c.queue? 0 with | some x => x.head == x.tail | none => true
        if c.st == .active && c.voyages.isEmpty && empty then { c with st := .created } else c)

/-- Every warp of the crew has exited. -/
def Crew.allExited (c : Crew) : Bool := c.warps.all (·.exited)

/-- The crew's batches are complete. -/
def Crew.allComplete (c : Crew) : Bool := c.warps.all (fun w => w.batches.isEmpty)

/-- A PREEMPT record (Table 7.3) with `n` LOST_DETAIL records behind it. -/
def Crew.preemptRec (c : Crew) (p : Preempt) (n : Nat) : List (Nat × Nat × Nat) :=
  [(16, 4, c.ref.voy), (20, 4, c.ref.crew), (24, 1, p.option), (25, 1, bit p.missed), (28, 4, p.estimate), (32, 4, p.bound),
   (36, 2, n)]

/-- The PREEMPT record of a drain, once every warp has exited (R103). -/
def State.drainDone (s : State) (c : Crew) : State :=
  match c.preempt with
  | some p => (s.event c.ref.ctx 3 (c.preemptRec p 0)).modCrew c.ref (fun c => { c with run := .placed, preempt := none })
  | none => s.modCrew c.ref (fun c => { c with run := .placed })

/-- CREW_RETIRE: a crew whose warps have exited ends its drain, and once its batches are complete it retires (R124). -/
def execCrewRetire (r : CrewRef) (s : State) : Out :=
  match s.crew? r with
  | none => .next s
  | some c =>
    if !c.running || !c.allExited then .next s
    else
      let s := if c.run == .draining then s.drainDone c else s
      if !c.allComplete then .next s
      else
        let s := { s with crews := s.crews.filter (fun x => x.ref != r) }
        let s := s.modCtx r.ctx (fun x => x.modVoyage r.voy (fun v =>
          { v with exited := v.exited + 1, retired := v.retired + 1 }))
        .next (s.voyageDone r.ctx r.voy)

/-! Halts (R103, R105, R204, R459). -/

/-- How a strand stands in an image: a parked one stays PARKED at its instruction, which it issues again; a barrier wait goes
on (R105, R159). -/
def Wait.atHalt : Wait → Wait
  | .flags | .tile _ | .faulting _ | .sing _ => .none
  | .deq _ _ | .sv _ _ _ _ _ | .wc _ _ _ _ | .bw _ _ | .xf _ => .restored Option.none
  | .wfuse sd a _ _ => .restored (some (sd, a))
  | w => w

/-- The strand of an image (R63, R103): no chunk, no flag, its header to be applied again. -/
def Strand.image (t : Strand) : Strand :=
  { t with wait := t.wait.atHalt, pends := [], chunk := Chunk.none, earlier := [], pinCount := 0,
           core := { t.core with inClause := false } }

/-- A wake that has arrived is applied before the halt (R106). -/
def State.wakeBefore (s : State) (r : StrandRef) : State :=
  match s.curOf r with
  | none => s
  | some c =>
    match c.t.wait with
    | .sv _ o _ _ (some m) => s.resume r o.sd m
    | .wc _ o _ (some (v, frozen)) => s.resumeCur (c.wcDone o v frozen)
    | .bw o _ =>
      match c.batchArg o.sa with
      | .ok n => if c.incomplete n then s else s.resumeCur (c.bwaitDone o n)
      | .error _ => s
    | .deq o _ =>
      let q := o.q.toNat
      let first := match s.queue? c.ctx q with | some x => x.waiters.head? == some r | none => false
      if first && s.waiterDue c.ctx q then s.serveWaiter c.ctx q else s
    | _ => s

/-- The singleton does not park (R459). -/
def SingOp.parks : SingOp → Bool
  | .svwait _ _ | .deq _ | .bwait _ | .bwt _ | .barw _ _ | .wcwait _ _ => true
  | _ => false

/-- The strand stands between a commit and an event that the halt waits for (R459): a singleton, the lanes of an AMOV that are
still to be performed, an exit, a split, or a fusion that has been decided (R175). -/
def Strand.eventDue (t : Strand) : Bool :=
  t.clear && (match t.wait with
    | .sing op => !op.parks
    | .amov _ _ _ _ | .wsplit _ _ _ | .exiting | .fusing _ => true
    | _ => false)

/-- What an outcome goes on to; a fault or refusal changes nothing. -/
def Out.orElse (o : Out) (s : State) : State :=
  match o with
  | .next s => s
  | _ => s

/-- A fusion of a strand's warp with its sibling. -/
def State.fuseBefore (s : State) (r : StrandRef) : State :=
  match s.warp? r.w with
  | none => s
  | some w =>
    let x : WarpRef := { r.w with warp := w.sibId }
    (if w.isHigh then execWarpFusion x r.w s else execWarpFusion r.w x s).orElse s

/-- An event that a halt waits for is performed. -/
def State.eventBefore (s : State) (r : StrandRef) : State :=
  match s.strand? r with
  | none => s
  | some t =>
    if !t.eventDue then s
    else match t.wait with
      | .wsplit _ _ _ => (execWarpSplit r s).orElse s
      | .fusing _ => s.fuseBefore r
      | _ => (execSingletonEvent r s).orElse s

/-- The strands of a crew. -/
def State.strandsOf (s : State) (r : CrewRef) : List StrandRef := s.refs.filter (fun x => x.w.crew == r)

/-- A crew's strands leave every queue and pin slot that they wait in. -/
def State.leaveQueues (s : State) (r : CrewRef) : State :=
  let s := s.modCtx r.ctx (fun c => { c with queues := c.queues.map (fun q =>
    (q.1, { q.2 with waiters := q.2.waiters.filter (fun x => x.w.crew != r) })) })
  { s with pins := s.pins.map (fun p =>
      { p with holder := (match p.holder with | some x => if x.w.crew == r then none else some x | none => none),
               queue := p.queue.filter (fun x => x.w.crew != r) }) }

/-- The crew halts: its chunks are squashed and its strands stand as in an image (R204). -/
def State.haltCrew (s : State) (r : CrewRef) : State :=
  let s := (s.strandsOf r).foldl (fun s x => s.squashAll x .halt) s
  let s := s.modCrew r (fun c => { c with warps := c.warps.map (fun w =>
    { w with strands := w.strands.map (Option.map Strand.image) }), ran := c.ran + (s.ns - c.since) })
  s.leaveQueues r

/-- LOST_DETAIL records of kind 1 for the items that a crew's warps hold. -/
def Crew.heldDetails (c : Crew) : List (List Byte) :=
  c.warps.flatMap (fun w => w.held.map (fun h =>
    eventRec 6 [(16, 1, 1), (20, 4, c.ref.crew), (24, 1, h.q), (32, 8, h.pos), (40, 4, c.ref.voy)]))

/-- The records of a pre-emption that has taken effect (R103, R139). -/
def State.preemptDone (s : State) (c : Crew) (opt : Nat) (details : List (List Byte)) : State :=
  match c.preempt with
  | none => s
  | some p =>
    let fs := c.preemptRec { p with option := opt } details.length
    if details.isEmpty then s.event c.ref.ctx 3 fs else s.eventKeep c.ref.ctx (eventRec 3 fs :: details)

/-- A crew is gone with every item, barrier and batch of its warps; its commands run on, of no warp, and its crew memory stays
for them (R323, Table 21.6). -/
def State.vacate (s : State) (r : CrewRef) : State :=
  let s := s.modCrew r (fun x => { x with run := if x.onQuad then .flushed else x.run, bars := [], warps := x.warps.map (fun w =>
    { w with strands := [none, none, none, none], frames := [], merges := [], held := [], batches := [], exited := true }) })
  ((s.orphan (fun x => x.crew == r)).dropOrphans).pruneFences

/-- A flush: the crew is discarded, its items are consumed, and it is due to be placed again (R103, R323). -/
def State.flushCrew (s : State) (c : Crew) : State :=
  let s := (s.vacate c.ref).modCtx c.ref.ctx (fun x =>
    x.modVoyage c.ref.voy (fun v => { v with again := addNew v.again c.ref.crew }))
  s.preemptDone c 3 c.heldDetails

/-- Items that a discarded crew's warps hold stay held (R129). -/
def State.keepHeld (s : State) (c : Crew) : State :=
  let hs := c.warps.flatMap (·.held)
  s.modCtx c.ref.ctx (fun x => { x with queues := x.queues.map (fun (q : Nat × Queue) =>
    (q.1, { q.2 with lost := q.2.lost ++ (hs.filter (fun h => h.q == q.1)).map (·.pos) })) })

/-- A context fault discards the crew once it has halted (Table 6.3). -/
def State.discardHalted (s : State) (c : Crew) : State := ((s.keepHeld c).vacate c.ref).pruneFlushed

/-- A context whose last save has completed is SUSPENDED (Table 5.1). -/
def State.suspendDone (s : State) (ctx : Nat) : State :=
  match (s.ctx ctx).suspending with
  | none => s
  | some (func, tag) =>
    if s.crews.all (fun x => x.ref.ctx != ctx || x.run == .flushed || !x.onQuad) then
      let active := (s.ctx ctx).st == .active
      let s := s.modCtx ctx (fun c => { c with suspending := none, st := if active then .suspended else c.st })
      if active then s.logTo func 2 2 0 tag.toNat [] else s
    else s

/-- QUADRANT_HALT_DONE: the crew has halted for a save, a flush or a context fault. -/
def execQuadrantHaltDone (r : CrewRef) (s : State) : Out :=
  match s.crew? r with
  | none => .next s
  | some c =>
    match c.run with
    | .halting flush =>
      let faulted := !((s.ctx r.ctx).st.runs)
      let s := if faulted then s else ((s.strandsOf r).foldl State.wakeBefore s)
      let s := (s.strandsOf r).foldl State.eventBefore s
      if (s.strandsOf r).any (fun x => ((s.strand? x).map Strand.eventDue).getD false) then .next s
      else
        let s := s.haltCrew r
        match s.crew? r with
        | none => .next s
        | some c =>
          if faulted then .next (s.discardHalted c)
          else if flush then .next ((s.flushCrew c).suspendDone r.ctx)
          else .next (s.modCrew r (fun c => { c with run := .saving }))
    | _ => .next s

/-! Saves and restores (R102 to R105). -/

/-- The chart locker of a core is free. -/
def State.lockerFree (s : State) (core : Nat) : Bool := !(s.crews.any (fun c => c.run == .locker core))

/-- The slots of a crew that is placed again: the warps' launch slots with their places in them (R101, R171). -/
def Crew.reslot (c : Crew) (core quad now : Nat) (slots : List Nat) : Crew :=
  { c with core := core, quad := quad, run := .placed, since := now, suspended := false, preempt := none,
           warps := c.warps.map (fun w =>
             { w with slot := slots.getD (w.id % 16) 0 + w.offset,
                      strands := w.strands.map (Option.map (fun t =>
                        { t with wait := (match t.wait with | .fault _ _ => .restored none | x => x) })) }) }

/-- A register of the file whose image holds a reserved tag is POISON (R35, log 68). -/
def Warp.poisonReg (w : Warp) : VReg → Warp
  | .v i => { w with vregs := modAt w.vregs i.val (fun v => { v with tag := .poison }) }
  | .g i => { w with gregs := modAt w.gregs i.val (fun v => { v with tag := .poison }) }

/-- The registers named, each with its warp, are POISON. -/
def Crew.poisonRegs (c : Crew) (bad : List (Nat × VReg)) : Crew :=
  { c with warps := c.warps.map (fun w => (bad.filter (fun x => x.1 == w.id)).foldl (fun w x => w.poisonReg x.2) w) }

/-- Restore a saved crew on a quadrant, none where it does not fit. -/
def State.restoreOn (s : State) (c : Crew) (core quad : Nat) : Option State :=
  (s.roomOn c.ref.ctx core quad c.launch).map (fun slots => s.modCrew c.ref (fun c => c.reslot core quad s.ns slots))

/-- The exchange of R104: the image goes to the locker and the crew whose image it held is restored on the quadrant. -/
def State.swap (s : State) (c : Crew) : Option State :=
  match s.crews.find? (fun x => x.run == .locker c.core) with
  | none => none
  | some y =>
    if Config.swapDue s.free && (s.ctx y.ref.ctx).st == .active && (s.ctx y.ref.ctx).suspending.isNone then
      (s.modCrew c.ref (fun x => { x with run := .locker c.core })).restoreOn y c.core c.quad
    else none

/-- CREW_SAVE_DONE: the image is written to the locker where it is free, else to memory, or exchanged (R103, R104). -/
def execCrewSaveDone (r : CrewRef) (s : State) : Out :=
  match s.crew? r with
  | none => .next s
  | some c =>
    if c.run != .saving then .next s
    else
      let free := s.lockerFree c.core
      let sw := if free then none else s.swap c
      let s' := match sw with
        | some s' => s'
        | none => s.modCrew r (fun x => { x with run := if free then .locker c.core else .memory })
      let s' := (s'.preemptDone c (if free || sw.isSome then 1 else 2) []).modCrew r (fun x => { x with preempt := none })
      .next { s'.suspendDone r.ctx with free := s.free + 1 }

/-- CREW_RESTORE: a saved crew resumes on a quadrant with room; an image in a locker is first written to memory when it is
to resume on another core (R104). The registers whose image holds
a reserved tag become POISON (R35): the row names them (log 68). -/
def execCrewRestore (i : SavedCrew) (core quad : Nat) (s : State) : Out :=
  let r := i.crew
  let back := fun (s' : State) (c : Crew) =>
    match s'.restoreOn c core quad with
    | some x => x.modCrew r (fun c => c.poisonRegs i.bad)
    | none => s
  let s' := s.pruneFlushed
  match s'.crew? r with
  | none => .next s
  | some c =>
    if (s'.ctx r.ctx).st != .active || (s'.ctx r.ctx).suspending.isSome then .next s
    else match c.run with
      | .memory => .next (back s' c)
      | .locker k =>
        if k == core then .next (back s' c)
        else .next (s'.modCrew r (fun x => { x with run := .memory }))
      | _ => .next s

/-! The choice of a pre-emption (R102). -/

/-- S, the resident size in bytes. -/
def LaunchRec.resident (l : LaunchRec) : Nat :=
  l.warps * (l.regs8 * 8 + l.globals) * l.width * 4 + l.warps * l.tiles * 1024 + l.crewmem + l.warps * 8192

/-- An estimate in ns of Table 5.8, rounded up (R460): 0.5 µs and `us` µs a MiB of S. -/
def saveEstimate (us size : Nat) : Nat := 500 + ceilDiv (1000 * us / 2 * size) (2 ^ 20)

/-- The estimate is no greater than B. -/
def saveWithin (us size b : Nat) : Bool := decide (500 * 2 ^ 20 + 1000 * us / 2 * size ≤ b * 2 ^ 20)

/-- The crew's running time in ns. -/
def Crew.running_ns (c : Crew) (now : Nat) : Nat := c.ran + (now - c.since)

/-- The option chosen against bound `b`: 0 drain, 1 save, 3 flush, with its estimate, and whether the bound is missed. -/
def State.choosePreempt (s : State) (c : Crew) (b : Nat) : Preempt :=
  let drain := 1000 * c.launch.drain - c.running_ns s.ns
  let halves := if s.lockerFree c.core then 3 else 24
  let save := saveEstimate halves c.launch.resident
  if c.launch.drainValid && decide (drain ≤ b) then { option := 0, estimate := drain, bound := b, missed := false }
  else if saveWithin halves c.launch.resident b then { option := 1, estimate := save, bound := b, missed := false }
  else if (c.launch.restartable || !c.committed) && decide (500 ≤ b) then
    { option := 3, estimate := 500, bound := b, missed := false }
  else { option := 1, estimate := save, bound := b, missed := true }

/-! Kept records (R140, R141). -/

/-- EVENT_STORE_POST: the oldest kept record is posted. -/
def execEventStorePost (ctx : Nat) (s : State) : Out :=
  match (s.ctx ctx).store with
  | [] => .next s
  | b :: _ =>
    if s.roomIn ctx 1 then
      match s.emit ctx b with
      | (s, true) => .next (s.modCtx ctx Ctx.storePosted)
      | (s, false) => .next s
    else .next s

/-- FAULT_RECORD_POST: the oldest record that is not yet posted, unless a PINNED chunk holds it back (R199). -/
def execFaultRecordPost (ctx : Nat) (s : State) : Out :=
  match (s.ctx ctx).faults.find? (fun f => !f.posted) with
  | none => .next s
  | some f =>
    if s.canPost ctx 2 then
      match s.postTo ctx 2 f.bytes with
      | (s, true) => .next (s.modCtx ctx (fun c =>
          { c with faults := updIf (fun x => x.id == f.id) (fun x => { x with posted := true }) c.faults }))
      | (s, false) => .next (s.queueErrorEvent ctx 2)
    else .next s

end Sys2Proof.Machine
end

