-- ==== Sys2Proof/Machine/Loss.lean ====
section
/-!
DEFINITION. Core resets and lost crews (R111, R112), and errors (R107 to R110, R201, R354).
-/

namespace Sys2Proof.Machine

open Sys2Proof

/-! Lost crews (R111, R112). -/

/-- LOST_DETAIL records of the crews that a context lost: each crew, each item that it held, each SY word of its list. -/
def lostDetails (cs : List Crew) : List (List Byte) :=
  cs.map (fun c => eventRec 6 [(16, 1, 0), (20, 4, c.ref.crew), (40, 4, c.ref.voy)]) ++
  cs.flatMap Crew.heldDetails ++
  cs.flatMap (fun c => c.syList.map (fun va =>
    eventRec 6 [(16, 1, 2), (20, 4, c.ref.crew), (32, 8, va), (40, 4, c.ref.voy)]))

/-- The voyage that a LOST record names. -/
def lostVoyage (cs : List Crew) : Nat :=
  match (cs.map (fun c => c.ref.voy)).eraseDups with
  | [v] => v
  | _ => 2 ^ 32 - 1

/-- The LOST record with its details. -/
def lostRecords (core : Nat) (cs : List Crew) : List (List Byte) :=
  let ds := lostDetails cs
  eventRec 5 [(16, 2, core), (18, 2, ds.length), (20, 4, lostVoyage cs)] :: ds

/-- The context goes to LOST, with its event (Table 5.1). -/
def State.loseIn (s : State) (core ctx : Nat) (cs : List Crew) : State :=
  match (s.ctx ctx).st with
  | .active | .suspended | .lost =>
    (s.modCtx ctx (fun c => { c with st := .lost, suspending := none, resets := addNew c.resets core })).eventKeep ctx
      (lostRecords core cs)
  | _ => s

/-- A lost crew's items stay held until LOSS_ACK (R129), and it counts as retired (Table 6.3). -/
def State.loseCrew (s : State) (c : Crew) : State :=
  let s := (s.leaveQueues c.ref).keepHeld c
  let s := s.modCtx c.ref.ctx (fun x =>
    x.modVoyage c.ref.voy (fun v => { v with retired := v.retired + 1, isPartial := true }))
  { s with crews := s.crews.filter (fun x => x.ref != c.ref), cmds := s.cmds.filter (fun x => x.crew != c.ref) }

/-- Crews are discarded: their contexts are told, and their voyages may retire. -/
def State.discardCrews (s : State) (core : Nat) (cs : List Crew) : State :=
  let ctxs := (cs.map (fun c => c.ref.ctx)).eraseDups
  let s := ctxs.foldl (fun s n => s.loseIn core n (cs.filter (fun c => c.ref.ctx == n))) s
  let s := (cs.foldl State.loseCrew s).pruneFences
  (cs.map (fun c => (c.ref.ctx, c.ref.voy))).eraseDups.foldl (fun s v => s.voyageDone v.1 v.2) s

/-- The copies on the engine of a core end where they are, and their batches never complete (R111). -/
def State.endEngine (s : State) (core : Nat) : State :=
  ({ s with cmds := updIf (fun x => x.kind.cls == 1 && x.core == core) (fun x => { x with lost := true, stall := none, buf := [] })
                      s.cmds }.dropOrphans).pruneFences

/-- A core reset (R111): its crews, live or in its locker, with their chunks and batches; what flushed crews left there goes
too, and the copies that its engine still holds for crews that are elsewhere end. The core returns clean; translations that
other cores may hold as well stay cached (log 60). -/
def State.resetCore (s : State) (core : Nat) : State :=
  let gone := s.crews.filter (fun c => c.run == .flushed && c.core == core)
  let s := { s with crews := s.crews.filter (fun c => !(gone.any (fun x => x.ref == c.ref))),
                    cmds := s.cmds.filter (fun x => !(gone.any (fun c => c.ref == x.crew))),
                    caches := s.caches.resetCore core }
  (s.discardCrews core (s.crews.filter (fun c => (c.onQuad && c.core == core) || c.run == .locker core))).endEngine core

/-! Errors (R107 to R110). -/

def VecReg.poisoned (v : VecReg) : VecReg := { v with tag := .poison }

/-- The effect of an uncorrectable error in committed state (R109). -/
def State.errorAt (s : State) : ErrSite → State
  | .vreg w (.v i) => s.modWarp w (fun x => { x with vregs := modAt x.vregs i.val VecReg.poisoned })
  | .vreg w (.g i) => s.modWarp w (fun x => { x with gregs := modAt x.gregs i.val VecReg.poisoned })
  | .strandReg r => s.modStrand r (fun t => { t with poisoned := true })
  | .tile w t => s.modWarp w (fun x => { x with tiles := modAt x.tiles t (fun y => { y with st := .poison }) })
  | .crewMem r off => s.modCrew r (fun c => if off < c.launch.crewmem then { c with poison := addNew c.poison (off / 32) } else c)
  | .phys pa => if s.backed pa then { s with poison := addNew s.poison (pa / 32) } else s
  | .imageRegs r => s.modCrew r (fun c => match c.run with
      | .locker _ => { c with warps := c.warps.map (fun w =>
          { w with vregs := w.vregs.map VecReg.poisoned, gregs := w.gregs.map VecReg.poisoned }) }
      | _ => c)
  | .imageState r =>
    match s.crew? r with
    | some c => match c.run with
      | .locker k => s.discardCrews k [c]
      | _ => s
    | none => s
  | .unowned core => if core < 768 then (s.resetCore core).logTo 0 6 3 0 0 [] else s

/-- UNCORRECTABLE_ERROR_COMMITTED. -/
def execUncorrectableErrorCommitted (e : ErrSite) (s : State) : Out := .next (s.errorAt e)

/-- CORRECTED_ERROR has no architectural effect (R107). -/
def execCorrectedError (s : State) : Out := .next s

/-- The rows of Table 18.1: op, fn, and what they compute. -/
def mmaRows : List (Nat × Nat × MmaFn) :=
  [(0x80, 0, fnMmaF16), (0x80, 1, fnMmaBf16), (0x80, 2, fnMmaE4m3), (0x80, 3, fnMmaE5m2), (0x80, 4, fnMmaMxe4m3),
   (0x80, 5, fnMmaMxe5m2), (0x80, 6, fnMmaMxe2m1), (0x81, 0, fnMmaiI8i8), (0x81, 1, fnMmaiU8i8), (0x81, 2, fnMmaiI4i4),
   (0x82, 0, fnMmatI8t2), (0x82, 1, fnMmatU8t2)]

/-- The word is a matrix instruction that writes a tile, and whose residue check can find a mismatch. -/
def Cur.matrixOn (c : Cur) (t : TReg) (w : W64) : Bool :=
  let f := FmtX.of w
  mbz f.z && mbz f.md && cfOk f.cf && vregOk f.ab && vregOk f.bb && treg f.tile == t &&
    mmaRows.any (fun r => r.1 == f.op.toNat && r.2.1 == f.fn.toNat &&
      (if r.2.2.mx then vregOptOk f.scl else f.scl == 511#9) &&
      (if r.2.2.res == .i32 then c.mmaiChecked r.2.2 f.mma else c.mmaChecked r.2.2 f.mma))

/-- An error has been seen with the start of the chunk that the strand's next word belongs to. -/
def Strand.errSeen (t : Strand) : Bool :=
  match t.chunk.st with
  | .ended | .ordering => false
  | _ => t.chunk.errSeen

/-- The strand's next chunk is one in which an error has been seen. -/
def Strand.noteError (t : Strand) : Strand :=
  let t := match t.chunk.st with
    | .ended | .ordering => { t with earlier := t.earlier ++ [t.chunk], chunk := Chunk.none }
    | _ => t
  { t with chunk := { t.chunk with errSeen := true }, sqcnt := t.sqcnt + 1 }

/-- A residue mismatch of the matrix instruction that the strand issues next (R354): the first squashes the chunk, the
second traps MATRIX_RESIDUE. -/
def State.residueError (s : State) (c : Cur) (t : TReg) : State :=
  if !(s.mayIssue c false) || !(c.matrixOn t (s.peekWord c.ctx c.t.core.pc)) then s
  else if !c.t.errSeen then
    if c.t.chunk.st == .opened then s.squash c.ref .error else s.modStrand c.ref Strand.noteError
  else
    let s := s.modStrand c.ref (fun x => { x with residue := some (t.val, c.t.core.pc) })
    s.trapAt c { cause := .matrixResidue, addr := 0, extra := t.val, lanes := c.em } c.t.core.pc

/-- A second error in what a chunk holds: speculative memory is poisoned with the chunk's commit (R201); registers and tiles at
once (R109). -/
def State.errorIn (s : State) (r : StrandRef) (n : Nat) : ErrSite → State
  | .phys pa => s.modStrand r (fun t => t.modUnplaced n (fun ch => { ch with badG := addNew ch.badG (pa / 32) }))
  | .crewMem c off =>
    if c == r.w.crew then s.modStrand r (fun t => t.modUnplaced n (fun ch => { ch with badC := addNew ch.badC (off / 32) }))
    else s.errorAt (.crewMem c off)
  | e => s.errorAt e

/-- UNCORRECTABLE_ERROR_OPEN: an error in what an unplaced chunk of a strand holds (R108, R201); a second one with the same chunk
start is handled as one in committed state. -/
def execUncorrectableErrorOpen (r : ChunkRef) (residue : Option TReg) (site : ErrSite) (s : State) : Out :=
  match s.curOf r.strand with
  | none => .next s
  | some c =>
    match residue with
    | some t => .next (s.residueError c t)
    | none =>
      match c.t.unplaced[r.n]? with
      | none => .next s
      | some ch =>
        .next (if !ch.active then s
          else if ch.errSeen then s.errorIn r.strand r.n site
          else s.squashAt r.strand r.n .error)

end Sys2Proof.Machine
end

