-- ==== Sys2Proof/Machine/Mgmt.lean ====
section
/-!
DEFINITION. The management commands of contexts, cores and queues (R87, R92, R102, R112, R126 to R130, R296 to R299, R291,
R423 to R431), and the events that complete them.
-/

namespace Sys2Proof.Machine

open Sys2Proof

/-! Acceptance (R425 to R427, R429). -/

/-- BAD_CMD, DENIED and BAD_OPERAND, in this order (R426): `pf` marks a command of the physical function, `ctx` is the CTX
operand, `ok` the ranges of the operands. -/
def cmdCheck (h : CmdHdr) (pf : Bool) (ctx : Option Nat) (ok : Bool) : Nat :=
  if !h.clean then 6
  else if h.func != 0 && (pf || (match ctx with | some c => c != h.func | none => false)) then 5
  else if !ok || (match ctx with | some c => decide (63 < c) | none => false) then 7
  else 0

/-- An entry of the issuing function's logbook. -/
def State.logCmd (s : State) (h : CmdHdr) (code kind status : Nat) (result : List (Nat × Nat × Nat)) : State :=
  s.logTo h.func code kind status h.tag.toNat result

/-- A command: rejected with the first status that applies, or accepted, logged and carried out; `f` is its own check and
effect, and `fin` the result of its completed entry, none where it completes later. -/
def State.command (s : State) (h : CmdHdr) (code : Nat) (pf : Bool) (ctx : Option Nat) (ok : Bool)
    (f : State → Except Nat State) (fin : Option (State → List (Nat × Nat × Nat))) : State :=
  match cmdCheck h pf ctx ok with
  | 0 =>
    match f s with
    | .error st => s.logCmd h code 1 st []
    | .ok _ =>
      match f (s.logCmd h code 0 0 []) with
      | .error _ => s
      | .ok s' => match fin with
        | some g => s'.logCmd h code 2 0 (g s)
        | none => s'
  | st => s.logCmd h code 1 st []

/-- Complete at acceptance, with no result. -/
def atOnce : Option (State → List (Nat × Nat × Nat)) := some (fun _ => [])

/-- A status is answered unless the condition holds. -/
def require (b : Bool) (st : Nat) : Except Nat Unit := if b then .ok () else .error st

/-- The context exists: neither EMPTY nor DESTROYED. -/
def State.exists? (s : State) (n : Nat) : Bool :=
  match (s.ctx n).st with
  | .empty | .destroyed => false
  | _ => true

/-- A bitmap of 96 bytes at a physical address, none where it cannot be read. -/
def State.bitmap? (s : State) (pa : Nat) : Option Nat :=
  if (List.range 3).any (fun i => s.isPoison (pa + 32 * i)) then none else some (s.rdNat pa 96)

/-! Queue records (R127). -/

/-- A record of a queue as the device reads it: replayable faults do not make the command wait. All 64 bytes are read at
acceptance, bytes 44 to 63 are checked for zero, and STATE and ERR are not: the model's choice (log 65). -/
def State.readRecord (s : State) (ctx va : Nat) : Option (List Byte) :=
  match s.devRead ctx va 64 XReq.devRead with
  | (_, .ok bs) => some bs
  | _ => none

/-- KIND of a queue number, ISZ and LOGCAP in range, MBZ fields zero, RING aligned. -/
def recordFields (q : Nat) (bs : List Byte) : Bool :=
  fieldAddr (recField bs 0 8) 4096 && recField bs 8 1 == queueKind q && decide (recField bs 9 1 < 3) &&
    (q == 0 || decide (2 < q) || recField bs 9 1 == 2) && decide (1 ≤ recField bs 10 1 ∧ recField bs 10 1 ≤ 20) &&
    zeroAt bs 44 63

/-- The queue that a record configures; `conf` numbers the configuration. -/
def queueOf (conf recAddr : Nat) (bs : List Byte) : Queue :=
  { st := .configured, recAddr := recAddr, ring := recField bs 0 8, isz := recField bs 9 1, logcap := recField bs 10 1,
    err := 0, tail := 0, head := 0, drops := 0, defers := 0, fulls := 0, waiters := [], conf := conf, recDead := false,
    lost := [] }

/-- The ring has no page of policy SY. -/
def State.ringOk (s : State) (ctx : Nat) (x : Queue) : Bool :=
  (List.range (ceilDiv (x.capacity * x.itemBytes) 4096)).all (fun i => s.pagePol ctx (x.ring + 4096 * i) != some 2)

/-- The queue that the record at an address configures, none for BAD_RECORD. -/
def State.configOf (s : State) (ctx q conf va : Nat) : Option Queue :=
  match s.readRecord ctx va with
  | none => none
  | some bs =>
    let x := queueOf conf va bs
    if fieldAddr va 64 && recordFields q bs && s.ringOk ctx x then some x else none

/-! Contexts (Table 5.1). -/

/-- The operands of CTX_CREATE in their ranges (Table 23.4). -/
def ctxCreateOk (s : State) (a : CtxCreateArgs) : Bool :=
  a.sector.toNat % 64 == 0 && a.root.toNat % 4096 == 0 && a.ovf.toNat % 4096 == 0 &&
    decide (1 ≤ a.ovfn.toNat ∧ a.ovfn.toNat ≤ 2 ^ 20) && decide (a.wqn.toNat ≤ 253) && a.qrec.toNat % 64 == 0 &&
    a.wrec.toNat % 64 == 0 && (a.wqn != 0 || a.wrec == 0) &&
    (match s.bitmap? a.sector.toNat with | some b => b != 0 | none => false)

/-- The queue numbers that CTX_CREATE configures with their records' addresses. -/
def createRecords (a : CtxCreateArgs) : List (Nat × Nat) :=
  (List.range (3 + a.wqn.toNat)).map (fun q =>
    (q, if q < 3 then a.qrec.toNat + 64 * q else a.wrec.toNat + 64 * (q - 3)))

/-- LAUNCH, EVENT and FAULT are OPEN as soon as the context exists (R126). -/
def Queue.created (x : Queue) (q : Nat) : Queue := if q < 3 then { x with st := .opened } else x

def ctxCreate (a : CtxCreateArgs) (s : State) : Except Nat State := do
  let n := a.ctx.toNat
  require ((s.ctx n).st == .empty) 1
  let s := s.modCtx n (fun _ =>
    { Ctx.empty n with sector := (s.bitmap? a.sector.toNat).getD 0, root := a.root.toNat, ovf := a.ovf.toNat,
                       ovfn := a.ovfn.toNat })
  let qs := (createRecords a).map (fun x => (x.1, s.configOf n x.1 x.1 x.2))
  require (qs.all (fun x => x.2.isSome)) 2
  let qs := qs.filterMap (fun x => x.2.map (fun y => (x.1, y.created x.1)))
  let s := s.modCtx n (fun c => { c with st := .created, queues := qs, nextConf := 256 })
  .ok (qs.foldl (fun s x => recThen n x.1 (s.recState n x.1)) s)

/-- CTX_CREATE. -/
def execCtxCreate (h : CmdHdr) (a : CtxCreateArgs) (s : State) : Out :=
  .next (s.command h 1 true (some a.ctx.toNat) (ctxCreateOk s a) (ctxCreate a) atOnce)

/-- A crew on a quadrant is to halt and be saved. -/
def Crew.suspend (c : Crew) : Crew :=
  if c.running then { c with run := .halting false, preempt := none, suspended := true } else c

/-- CTX_SUSPEND: every crew is halted and saved; it completes with the last save (Table 5.1). A second one before that is
rejected WRONG_STATE: the model's choice (log 50). -/
def execCtxSuspend (h : CmdHdr) (ctx : BitVec 16) (s : State) : Out :=
  let n := ctx.toNat
  .next ((s.command h 2 false (some n) true (fun s => do
    require ((s.ctx n).st == .active && (s.ctx n).suspending.isNone) 1
    let s := { s with crews := updIf (fun c => c.ref.ctx == n) Crew.suspend s.crews }
    .ok (s.modCtx n (fun c => { c with suspending := some (h.func, h.tag) }))) none).suspendDone n)

/-- CTX_RESUME. -/
def execCtxResume (h : CmdHdr) (ctx : BitVec 16) (s : State) : Out :=
  let n := ctx.toNat
  .next (s.command h 3 false (some n) true (fun s => do
    require ((s.ctx n).st == .suspended) 1
    .ok (s.modCtx n (fun c => { c with st := .active }))) atOnce)

/-- Every crew of a context is discarded without saving; its engine commands run on, of no warp, and crew memory stays for
them until they are complete (R323). One that is stalled can no longer be answered (R87). -/
def State.dropCrews (s : State) (n : Nat) : State :=
  let rs := (s.crews.filter (fun c => c.ref.ctx == n)).map (·.ref)
  let s := s.abandon (fun x => x.ctx == n && x.stall.isSome)
  let s := rs.foldl (fun s r => (s.leaveQueues r).vacate r) s
  { s with crews := s.crews.filter (fun c => c.ref.ctx != n || !s.quiet c.ref) }

/-- Every queue but a FREE one goes to CLOSED (Table 7.2). -/
def State.closeQueues (s : State) (n : Nat) : State :=
  ((s.ctx n).queues.map (·.1)).foldl (fun s q =>
    if (s.liveQueue? n q).isSome then s.setQueueSt n q (fun x => { x with st := .closed }) else s) s

/-- CTX_DESTROY: completes when the context has been scrubbed. -/
def execCtxDestroy (h : CmdHdr) (ctx : BitVec 16) (s : State) : Out :=
  let n := ctx.toNat
  .next (s.command h 4 false (some n) true (fun s => do
    require (s.exists? n) 1
    let s := ((s.dropCrews n).dropOrphans).pruneFences.closeQueues n
    .ok (s.modCtx n (fun c =>
      { c with st := .destroyed, voyages := [], store := [], blocked := [], take := none, suspending := none, resets := [],
               windows := c.windows.map (fun w => { w with closing := true }),
               destroy := some (h.func, h.tag) }))) none)

/-- Scrubbing can complete: no TLB_INVAL of the context is pending (R431), every command of it is complete (R323), and every
WIN_CLOSE on its windows has completed (Table 22.3). -/
def State.scrubbed (s : State) (n : Nat) : Bool :=
  s.invals.all (fun i => i.ctx != n) && s.cmds.all (fun c => c.ctx != n || c.finished || c.lost) &&
    (s.ctx n).windows.all (fun w => w.closer.isNone)

/-- What the package still holds of a context goes. -/
def State.scrub (s : State) (n : Nat) : State :=
  { s with cmds := s.cmds.filter (fun c => c.ctx != n), fences := s.fences.filter (fun f => f.ctx != n),
           crews := s.crews.filter (fun c => c.ref.ctx != n), tlb := s.tlb.filter (fun e => e.ctx != n),
           walks := s.walks.filter (fun e => e.ctx != n), peers := s.peers.filter (fun p => p.ctx != n),
           hostw := s.hostw.filter (fun h => h.func != n) }.modCtx n (fun c => Ctx.empty c.num)

/-- CTX_SCRUB_DONE. -/
def execCtxScrubDone (ctx : Nat) (s : State) : Out :=
  match (s.ctx ctx).st, (s.ctx ctx).destroy with
  | .destroyed, some (func, tag) =>
    .next (if s.scrubbed ctx then (s.scrub ctx).logTo func 4 2 0 tag.toNat [] else s)
  | _, _ => .next s

/-- LOSS_ACK: the reset cores leave the sector unless re-admitted, and items of lost crews are released (Table 5.1, R129). -/
def execLossAck (h : CmdHdr) (ctx : BitVec 16) (readmit : W64) (s : State) : Out :=
  let n := ctx.toNat
  let keep := if readmit == 0 then some 0 else s.bitmap? readmit.toNat
  .next (s.command h 5 false (some n) (readmit.toNat % 64 == 0 && keep.isSome) (fun s => do
    require ((s.ctx n).st == .lost) 1
    .ok (s.modCtx n (fun c =>
      let out := c.resets.filter (fun i => !(bitAt (keep.getD 0) i))
      { c with st := if c.voyages.isEmpty then .created else .active, resets := [],
               sector := out.foldl (fun m i => if bitAt m i then m - 2 ^ i else m) c.sector,
               queues := c.queues.map (fun (q : Nat × Queue) => (q.1, { q.2 with lost := [] })) }))) atOnce)

/-- CORE_RESET. -/
def execCoreReset (h : CmdHdr) (core : BitVec 16) (s : State) : Out :=
  .next (s.command h 6 true none (decide (core.toNat < 768)) (fun s => .ok (s.resetCore core.toNat)) atOnce)

/-- The crew starts the option chosen (R103). -/
def Crew.start (c : Crew) (p : Preempt) : Crew :=
  { c with preempt := some p, run := match p.option with
      | 0 => .draining
      | 3 => .halting true
      | _ => .halting false }

/-- CREW_PREEMPT (R102). -/
def execCrewPreempt (h : CmdHdr) (a : PreemptArgs) (s : State) : Out :=
  let n := a.ctx.toNat
  let r : CrewRef := { ctx := n, voy := a.voy.toNat, crew := a.crew.toNat }
  let named := match (s.ctx n).voyage? r.voy with | some v => decide (r.crew < v.launch.crews) | none => false
  .next (s.command h 7 false (some n) named (fun s =>
    match s.crew? r with
    | some c => if c.run == .placed && (s.ctx n).st.runs then .ok (s.modCrew r (fun c => c.start (s.choosePreempt c a.b.toNat)))
                else .error 1
    | none => .error 1) atOnce)

/-- WATCHDOG_SET (R92). -/
def execWatchdogSet (h : CmdHdr) (ctx : BitVec 16) (us : BitVec 32) (s : State) : Out :=
  let n := ctx.toNat
  .next (s.command h 8 false (some n) true (fun s => do
    require (s.exists? n) 1
    .ok (s.modCtx n (fun c => { c with watchdog := us.toNat }))) atOnce)

/-! Queues (Table 7.2). -/

/-- A queue's state; a number that is not configured is FREE. -/
def State.queueSt (s : State) (n q : Nat) : QSt := ((s.queue? n q).map (·.st)).getD .free

/-- QUEUE_CONFIG. -/
def execQueueConfig (h : CmdHdr) (ctx : BitVec 16) (q : BitVec 8) (rec : W64) (s : State) : Out :=
  let n := ctx.toNat
  .next (s.command h 0x10 false (some n) (rec.toNat % 64 == 0) (fun s => do
    require (s.exists? n && s.queueSt n q.toNat == .free) 1
    match s.configOf n q.toNat (s.ctx n).nextConf rec.toNat with
    | none => .error 2
    | some x =>
      let s := s.modCtx n (fun c => { c.setQueue q.toNat x with nextConf := c.nextConf + 1 })
      .ok (recThen n q.toNat (s.recState n q.toNat))) atOnce)

/-- A command that takes a queue from one of some states by `f`. -/
def State.queueCommand (s : State) (h : CmdHdr) (code : Nat) (ctx : BitVec 16) (q : BitVec 8) (from_ : Queue → Bool)
    (f : State → Nat → Nat → State) : State :=
  let n := ctx.toNat
  s.command h code false (some n) true (fun s => do
    require (s.exists? n && (match s.queue? n q.toNat with | some x => from_ x | none => false)) 1
    .ok (f s n q.toNat)) atOnce

/-- QUEUE_OPEN. -/
def execQueueOpen (h : CmdHdr) (ctx : BitVec 16) (q : BitVec 8) (s : State) : Out :=
  .next (s.queueCommand h 0x11 ctx q (fun x => x.st == .configured)
    (fun s n q => s.setQueueSt n q (fun x => { x with st := .opened })))

/-- QUEUE_CLOSE: CLOSING while items remain, else CLOSED. -/
def execQueueClose (h : CmdHdr) (ctx : BitVec 16) (q : BitVec 8) (s : State) : Out :=
  .next (s.queueCommand h 0x12 ctx q (fun x => x.st == .opened || (x.st == .closing && x.head == x.tail))
    (fun s n q => s.setQueueSt n q (fun x => { x with st := if x.head < x.tail then .closing else .closed })))

/-- QUEUE_FREE: parked waiters receive NOT_OPEN. -/
def execQueueFree (h : CmdHdr) (ctx : BitVec 16) (q : BitVec 8) (s : State) : Out :=
  .next (s.queueCommand h 0x13 ctx q (fun x => x.st == .configured)
    (fun s n q => (s.statusAll n q 3).setQueueSt n q (fun x => { x with st := .free })))

/-- Held items of a queue are dropped. -/
def State.dropHeld (s : State) (n q : Nat) : State :=
  { s with crews := updIf (fun c => c.ref.ctx == n) (fun c => { c with warps := c.warps.map (fun w =>
      { w with held := w.held.filter (fun h => h.q != q) }) }) s.crews }

/-- QUEUE_RESET; waiters still parked receive the status of the state that it leaves. -/
def execQueueReset (h : CmdHdr) (ctx : BitVec 16) (q : BitVec 8) (s : State) : Out :=
  .next (s.queueCommand h 0x14 ctx q (fun x => x.st == .closed || x.st == .error)
    (fun s n q =>
      let st := if s.queueSt n q == .closed then 2 else 4
      ((s.statusAll n q st).dropHeld n q).setQueueSt n q (fun x =>
        { x with st := .configured, err := 0, tail := 0, head := 0, drops := 0, defers := 0, fulls := 0, recDead := false,
                 lost := [] })))

/-- Bytes 11 to 43 of the queue record. -/
def Queue.recordBytes (x : Queue) : List Byte :=
  bytesOf 1 x.st.code ++ bytesOf 4 x.err ++ bytesOf 8 x.tail ++ bytesOf 8 x.head ++ bytesOf 4 x.drops ++
    bytesOf 4 x.defers ++ bytesOf 4 x.fulls

/-- The result of QUEUE_QUERY (Table 23.5); a FREE queue has no record. -/
def State.queueResult (s : State) (n q : Nat) : List (Nat × Nat × Nat) :=
  (18, 1, q) :: (match s.liveQueue? n q with
    | none => []
    | some x => [(20, 1, queueKind q), (21, 1, x.isz), (22, 1, x.logcap), (23, 33, ofBytes x.recordBytes)])

/-- QUEUE_QUERY (R430). -/
def execQueueQuery (h : CmdHdr) (ctx : BitVec 16) (q : BitVec 8) (s : State) : Out :=
  let n := ctx.toNat
  .next (s.command h 0x15 false (some n) true (fun s => do
    require (s.exists? n) 1
    match s.liveQueue? n q.toNat with
    | none => .ok s
    | some x => .ok (recThen n q.toNat (s.recPut n q.toNat 11 x.recordBytes))) (some (fun s => s.queueResult n q.toNat)))

/-! Translations (R296 to R299, R291). -/

/-- The page ranges overlap. -/
def Inval.covers (i : Inval) (page bytes : Nat) : Bool := decide (page < i.base + i.len ∧ i.base < page + bytes)

/-- TLB_INVAL. -/
def execTlbInval (h : CmdHdr) (ctx : BitVec 16) (base len : W64) (s : State) : Out :=
  let n := ctx.toNat
  let ok := base.toNat % 4096 == 0 && len.toNat % 4096 == 0 && decide (4096 ≤ len.toNat ∧ base.toNat + len.toNat ≤ 2 ^ 57)
  .next (s.command h 0x20 false (some n) ok (fun s => do
    require (s.exists? n) 1
    .ok { s with invals := s.invals ++ [{ func := h.func, tag := h.tag, ctx := n, base := base.toNat, len := len.toNat }] }) none)

/-- Addresses whose translation the strand has used and not finished with: the pages of its unplaced chunks, instruction fetches
among them, and the lanes of an AMOV that are still to be performed. -/
def Strand.uses (t : Strand) : List Nat :=
  (t.unplaced.filter Chunk.active).flatMap (fun ch => ch.pages.map (4096 * ·)) ++
    (match t.wait with | .amov _ _ todo _ => todo.map (·.va) | _ => [])

/-- No unplaced chunk and no unfinished access of the context uses a translation of the range (R299). -/
def State.invalReady (s : State) (i : Inval) : Bool :=
  s.refs.all (fun r => r.w.crew.ctx != i.ctx || (match s.strand? r with
    | some t => t.uses.all (fun va => !(i.covers (va / 4096 * 4096) 4096))
    | none => true))

/-- An invalidation covers a part of what a cached entry of a level maps. -/
def Inval.hits (i : Inval) (ctx page lvl : Nat) : Bool :=
  ctx == i.ctx && i.covers (page * 4096 / leafBytes lvl * leafBytes lvl) (leafBytes lvl)

/-- TLB_INVAL_DONE: the cached translations and table entries of the range go, and the command is completed. -/
def execTlbInvalDone (k : Nat) (s : State) : Out :=
  match s.invals[k]? with
  | none => .next s
  | some i =>
    .next (if s.invalReady i then
        ({ s with invals := s.invals.eraseIdx k,
                  tlb := s.tlb.filter (fun e => !(i.hits e.ctx e.page e.lvl)),
                  walks := s.walks.filter (fun e => !(i.hits e.ctx (e.ix * leafBytes e.lvl / 4096) e.lvl)) }).logTo i.func
          0x20 2 0 i.tag.toNat []
      else s)

/-- The operands of an ENQ (true), DEQ or DEQT word (R134). -/
def queueWord (w : W64) : Option (Bool × QueueOps) :=
  if field w.toNat 63 56 == 0x78 then some (true, (FmtE.of w).queue)
  else if field w.toNat 63 56 == 0x79 then some (false, (FmtE.of w).queue)
  else none

/-- A fatal fault on a ring access, where the queue can still meet it (Table 7.2). -/
def State.ringFail (s : State) (ctx q : Nat) : State :=
  match s.queueSt ctx q with
  | .opened | .closing => s.queueError ctx q 1
  | _ => s

/-- FAIL to a ring access of a strand: the queue's error, and the instruction receives status 4 and is not issued again (R296,
R471). -/
def State.failRing (s : State) (r : StrandRef) (enq : Bool) (o : QueueOps) : State :=
  match s.curOf r with
  | none => s
  | some c =>
    let s := s.ringFail c.ctx o.q.toNat
    let c := s.fresh c
    s.resumeCur ((if enq then c else c.consume o.q.toNat).setStatus o 4 enq)

/-- A strand is told the answer to its fault: RETRY issues the instruction again; FAIL takes the fatal form of the record's
reason, which for a ring access is the queue's error (R296, R471). In an image the strand stays parked until it resumes. -/
def State.answerStrand (s : State) (r : StrandRef) (id : Nat) (reason : Reason) (fail : Bool) : State :=
  match s.curOf r with
  | none => s
  | some c =>
    match c.t.wait with
    | .fault k pf =>
      let back := if c.crew.live then Wait.none else .restored none
      if k != id then s
      else if !fail then s.modStrand r (fun t => { t with wait := back })
      else match queueWord (s.peekWord c.ctx c.t.core.pc) with
        | some (enq, o) => s.failRing r enq o
        | none => s.modStrand r (fun t => { t with wait := back, failed := some { pf with reason := reason } })
    | _ => s

/-- An engine command is told. -/
def State.answerCmd (s : State) (cmd id : Nat) (reason : Reason) (fail : Bool) : State :=
  match s.cmd? cmd with
  | none => s
  | some c =>
    match c.stall with
    | some (k, va) =>
      if k != id then s
      else
        let s := s.modCmd cmd (fun x => { x with stall := none })
        if fail then ((s.cmdFault c reason.code va).dropOrphans).pruneFences else s
    | none => s

/-- The take of a launch item is told (R116, R471). -/
def State.answerTake (s : State) (ctx id : Nat) (fail : Bool) : State :=
  match (s.ctx ctx).take with
  | some t =>
    if t.fault != id then s
    else if !fail then s.modCtx ctx (fun c => { c with take := if t.ring then none else some { t with fault := 0 } })
    else
      let s := s.modCtx ctx (fun c => { c with take := none })
      if t.ring then s.ringFail ctx 0 else s.launchReject ctx t.item 2 0xFF
  | none => s

/-- The writes to the record of a configuration of a queue are told: they end, or are made in order as far as they can be
(R128). -/
def State.answerRec (s : State) (ctx q conf : Nat) (fail : Bool) : State :=
  recThen ctx q (if fail then s.recFail ctx q conf else s.flushRec ctx q conf)

/-- What is attached to a record is told the action. -/
def State.answer (s : State) (ctx : Nat) (f : FaultRec) (fail : Bool) : Attached → State
  | .strand r => s.answerStrand r f.id f.pf.reason fail
  | .cmd c => s.answerCmd c f.id f.pf.reason fail
  | .take => s.answerTake ctx f.id fail
  | .queueRec q conf => s.answerRec ctx q conf fail
  | .enq q => if fail then s.ringFail ctx q else s
  | .peer p => s.answerPeer ctx p f.id fail

/-- REPLAY (R296). -/
def execReplay (h : CmdHdr) (ctx : BitVec 16) (id : BitVec 32) (action : BitVec 8) (s : State) : Out :=
  let n := ctx.toNat
  .next (s.command h 0x21 false (some n) (decide (action.toNat ≤ 1)) (fun s => do
    require (s.exists? n) 1
    match (s.ctx n).faults.find? (fun f => f.id == id.toNat) with
    | none => .error 4
    | some f =>
      let s := (s.modCtx n (fun c => { c with faults := c.faults.filter (fun x => x.id != f.id) })).forget n f.pf.va
      .ok (f.attached.foldl (fun s a => s.answer n f (action == 1) a) s)) atOnce)

/-- The entries of the frame attribute table with a range set; entries of 0 are not listed. -/
def setFrames (l : List (Nat × Byte)) (first n : Nat) (v : Byte) : List (Nat × Byte) :=
  l.filter (fun x => !(decide (first ≤ x.1 ∧ x.1 < first + n))) ++
    (if v == 0 then [] else (List.range n).map (fun i => (first + i, v)))

/-- FRAME_ATTR (R291): every TLB is flushed. -/
def execFrameAttr (h : CmdHdr) (first len : W64) (value : Byte) (s : State) : Out :=
  let a := first.toNat
  let n := len.toNat
  .next (s.command h 0x22 true none (a % 4096 == 0 && n % 4096 == 0 && decide (4096 ≤ n)) (fun s => do
    require (decide (value.toNat < 16) && field value.toNat 2 1 != 3 && !(bitAt value.toNat 0 && decide (2 ^ 48 < a + n))) 3
    .ok { s with frat := setFrames s.frat (a / 4096) (n / 4096) value, tlb := [] }) atOnce)

/-- HWIN_SET (R423). -/
def execHwinSet (h : CmdHdr) (ctx : BitVec 16) (hwb : W64) (s : State) : Out :=
  let n := ctx.toNat
  .next (s.command h 0x23 false (some n) (fieldAddr hwb.toNat (2 ^ 36)) (fun s => do
    require (s.exists? n) 1
    .ok (s.modCtx n (fun c => { c with hwb := hwb.toNat }))) atOnce)

/-- UNLISTED_COMMAND (R426): BAD_CMD. -/
def execUnlistedCommand (h : CmdHdr) (code : BitVec 16) (s : State) : Out := .next (s.logCmd h code.toNat 1 6 [])

end Sys2Proof.Machine
end

