-- ==== Sys2Proof/Machine/Fabric.lean ====
section
/-!
DEFINITION. The management commands of links, windows and power (R414 to R420, R430, R433), the second tier (R432), and
module reset (R429).
-/

namespace Sys2Proof.Machine

open Sys2Proof

/-! Links (Table 22.1). -/

/-- A command on a link: it is one of the twelve, and `f` decides from its state. -/
def State.linkCommand (s : State) (h : CmdHdr) (code : Nat) (link : BitVec 8) (from_ : LinkSt → Bool) (f : State → Nat → State)
    (fin : Option (State → List (Nat × Nat × Nat))) : State :=
  s.command h code true none (decide (link.toNat < 12)) (fun s => do
    require (match s.link? link.toNat with | some l => from_ l.st | none => false) 1
    .ok (f s link.toNat)) fin

/-- LINK_ENABLE: training starts, and the counters of Table 23.6 count from here. -/
def execLinkEnable (h : CmdHdr) (link : BitVec 8) (s : State) : Out :=
  .next (s.linkCommand h 0x30 link
    (fun st => match st with | .down | .quiesced | .failed => true | _ => false)
    (fun s i => s.modLink i (fun l => { l with st := .training, flitsOut := 0, flitsIn := 0, losses := 0 })) atOnce)

/-- LINK_QUIESCE: new commands are refused at once; it completes when none is in flight, whatever becomes of the link
meanwhile. -/
def execLinkQuiesce (h : CmdHdr) (link : BitVec 8) (s : State) : Out :=
  .next (s.linkCommand h 0x31 link LinkSt.up
    (fun s i => s.modLink i (fun l => { l with st := .quiesced, quiesce := l.quiesce ++ [(h.func, h.tag)] })) none)

/-- A command is in flight on a link: its window may use it and no other link of the window is up. -/
def State.inFlight (s : State) (i : Nat) : Bool :=
  s.cmds.any (fun c => !c.finished && (match c.kind.win? with
    | some w => (match (s.ctx c.ctx).window? w with
      | some x => bitAt x.links i && !(s.anyLink x.links)
      | none => false)
    | none => false))

/-- LINK_QUIESCE_DONE: the one accepted first completes. -/
def execLinkQuiesceDone (link : Nat) (s : State) : Out :=
  match (s.link? link).map (·.quiesce) with
  | some ((func, tag) :: rest) =>
    .next (if s.inFlight link then s
      else (s.modLink link (fun l => { l with quiesce := rest })).logTo func 0x31 2 0 tag.toNat [])
  | _ => .next s

/-- LINK_DISABLE: DOWN from any state, with the effects of R420. -/
def execLinkDisable (h : CmdHdr) (link : BitVec 8) (s : State) : Out :=
  .next (s.linkCommand h 0x32 link (fun _ => true) (fun s i => (s.linkLost i .down).pruneFences) atOnce)

/-- The result of LINK_QUERY (Table 23.6). -/
def State.linkResult (s : State) (i : Nat) : List (Nat × Nat × Nat) :=
  match s.link? i with
  | none => []
  | some l =>
    [(18, 1, i), (19, 1, l.st.code), (20, 1, l.lanes), (21, 1, l.trained), (32, 8, l.flitsOut.toNat), (40, 8, l.flitsIn.toNat),
     (48, 4, l.replays.toNat), (52, 4, l.losses.toNat)]

/-- LINK_QUERY (R430). -/
def execLinkQuery (h : CmdHdr) (link : BitVec 8) (s : State) : Out :=
  .next (s.linkCommand h 0x33 link (fun _ => true) (fun s _ => s) (some (fun s => s.linkResult link.toNat)))

/-! Windows (Tables 22.2, 22.3). -/

/-- The window that WIN_OPEN registers. -/
def windowOf (a : WinOpenArgs) : Window :=
  { id := a.id.toNat, base := a.base.toNat, size := a.size.toNat, rights := a.rights.toNat, peer := a.peer.toNat,
    links := a.links.toNat, scnt := 0, dcnt := 0, st := .opened, closing := false, closer := none }

/-- WIN_OPEN. -/
def execWinOpen (h : CmdHdr) (a : WinOpenArgs) (s : State) : Out :=
  let n := a.ctx.toNat
  let ok := decide (a.rights.toNat < 4) && decide (a.links.toNat < 2 ^ 12) && fieldAddr a.base.toNat 4096 &&
    a.size.toNat % 4096 == 0 && decide (a.size.toNat ≤ 2 ^ 40)
  .next (s.command h 0x34 false (some n) ok (fun s => do
    require (s.exists? n && ((s.ctx n).window? a.id.toNat).isNone) 1
    .ok (s.modCtx n (fun c => { c with windows := c.windows ++ [windowOf a] }))) atOnce)

/-- WIN_RESET: a FROZEN window with a link that is up is OPEN again. -/
def execWinReset (h : CmdHdr) (ctx : BitVec 16) (id : BitVec 8) (s : State) : Out :=
  let n := ctx.toNat
  .next (s.command h 0x35 false (some n) true (fun s => do
    require (s.exists? n && (match s.window? n id.toNat with
      | some w => w.st == .frozen && s.anyLink w.links
      | none => false)) 1
    .ok (s.modWindow n id.toNat (fun w => { w with st := .opened, scnt := 0, dcnt := 0 }))) atOnce)

/-- WIN_CLOSE: completes once no command on the window is in flight. -/
def execWinClose (h : CmdHdr) (ctx : BitVec 16) (id : BitVec 8) (s : State) : Out :=
  let n := ctx.toNat
  .next (s.command h 0x36 false (some n) true (fun s => do
    require (s.exists? n && (s.window? n id.toNat).isSome) 1
    .ok (s.modCtx n (fun c => c.modWindow id.toNat (fun w => { w with closing := true, closer := some (h.func, h.tag) }))))
    none)

/-- WIN_CLOSE_DONE. -/
def execWinCloseDone (ctx win : Nat) (s : State) : Out :=
  match (s.ctx ctx).window? win with
  | none => .next s
  | some w =>
    if !w.closing || s.cmds.any (fun c => c.ctx == ctx && c.kind.win? == some win && !c.finished) then .next s
    else
      let s := s.modCtx ctx (fun c => { c with windows := c.windows.filter (fun x => x.id != win) })
      .next (match w.closer with
        | some (func, tag) => s.logTo func 0x36 2 0 tag.toNat []
        | none => s)

/-! Power (R433, R19). -/

/-- POWER_CAP. -/
def execPowerCap (h : CmdHdr) (cap : BitVec 32) (s : State) : Out :=
  .next (s.command h 0x40 true none (decide (600 ≤ cap.toNat ∧ cap.toNat ≤ 3600)) (fun s => .ok { s with cap := cap.toNat }) atOnce)

/-- POWER_OVER_CAP: the firmware lowers the clock, never below 600 MHz. -/
def execPowerOverCap (mhz : Nat) (s : State) : Out :=
  .next (if 600 ≤ mhz ∧ mhz ≤ s.mhz then { s with mhz := mhz } else s)

/-! The second tier (R432). -/

/-- CXL_PORT_DOWN. -/
def execCxlPortDown (port : Nat) (s : State) : Out :=
  .next { s with ports := modAt s.ports port (fun p => { p with up := false }) }

/-- CXL_POISON_REPORT. -/
def execCxlPoisonReport (pa : Nat) (s : State) : Out :=
  .next (if (cxlPort? s pa).isSome then { s with poison := addNew s.poison (pa / 32) } else s)

/-- MODULE_RESET: every register and record at its reset value; memory keeps what it holds. -/
def execModuleReset (s : State) : Out :=
  .next { State.reset with mem := s.mem, poison := s.poison, dead := s.dead, ports := s.ports, agenda := s.agenda,
                           free := s.free }

end Sys2Proof.Machine
end

