-- ==== Sys2Proof/Machine/HostPort.lean ====
section
/-!
DEFINITION. Accesses of the host: enqueue apertures (R132, R133, R471), the host window (R423), and the mailbox (R424,
R425, R429).
-/

namespace Sys2Proof.Machine

open Sys2Proof

/-- The completion of a request. -/
def State.respond (s : State) (r : HostResp) : State := { s with resp := some r }

/-- A deferrable write completes with `r`; a posted one is dropped. -/
def State.refuse (s : State) (k : HostKind) (r : HostResp) : State :=
  s.respond (match k with | .deferrable => r | _ => .dropped)

/-- A request of a function's host waits: for a fence with H in TO (R218), or for a posted write that the function issued
before it (R132, R219). -/
def State.hostBusy (s : State) (func : Nat) : Bool := s.hostHeld func || s.hostw.any (fun h => h.func == func)

/-! Enqueue apertures (R132, R133). -/

/-- An access that the aperture ignores (R133). -/
def State.ignored (s : State) (k : HostKind) : State :=
  match k with
  | .read => s.respond (.data (bytesOf 8 0))
  | _ => s.refuse k .unsupported

/-- An enqueue that is not made: a deferrable write completes with `r`, counted in DEFERS where that is Deferred; a posted
one is dropped and counted. -/
def State.enqRefused (s : State) (ctx q : Nat) (k : HostKind) (r : HostResp) : State :=
  let s := match k with
    | .deferrable => if r == HostResp.deferred then s.countDefer ctx q else s
    | _ => s.countDrop ctx q
  s.refuse k r

/-- The enqueue of an item by the host, on a queue that is OPEN and not full (R132, R471). -/
def State.hostPut (s : State) (ctx q : Nat) (x : Queue) (k : HostKind) (item : List Byte) : State :=
  let va := x.slotVa x.tail
  if s.ringBlocked ctx va x.itemBytes (XReq.ringWrite .engine) then s
  else match s.devWrite ctx va item (XReq.ringWrite .engine) with
    | (s, .done) => (s.modQueue ctx q (fun x => { x with tail := x.tail + 1 })).respond .successful
    | (s, .replayable pf) =>
      let (s, _) := s.attachFault ctx pf (.enq q) (fun f => f)
      s.enqRefused ctx q k .deferred
    | (s, .dead e) => (s.queueError ctx q e).enqRefused ctx q k .unsupported

/-- HOST_ENQUEUE: a write to the enqueue slot of a WORK queue or of the LAUNCH queue; one behind the slot is ignored (R133). -/
def execHostEnqueue (func q : Nat) (k : HostKind) (off : Nat) (data : List Byte) (s : State) : Out :=
  if s.hostBusy func then .next s
  else if k == .read || queueKind q == 2 || queueKind q == 3 || 256 ≤ q || 64 ≤ off then .next (s.ignored k)
  else match if s.exists? func then s.liveQueue? func q else none with
    | none => .next (s.refuse k .unsupported)
    | some x =>
      if off != 0 || data.length != 64 then .next (s.enqRefused func q k .unsupported)
      else match x.st with
        | .opened =>
          .next (if s.isFull func q x then s.enqRefused func q k .deferred
            else s.hostPut func q x k (data.take x.itemBytes))
        | .closing => .next (s.enqRefused func q k .deferred)
        | _ => .next (s.enqRefused func q k .unsupported)

/-- The EVENT or FAULT queue of an aperture. -/
def State.recordQueue? (s : State) (func q : Nat) : Option Queue :=
  if s.exists? func && (q == 1 || q == 2) then s.liveQueue? func q else none

/-- HOST_HEAD_WRITE: HEAD frees positions; a queue that is CLOSING and empty is CLOSED (R133, Table 7.2). A write of HEAD where
the queue is FREE is ignored as an access to no register: the model's choice (log 66). -/
def execHostHeadWrite (func q : Nat) (k : HostKind) (head : W64) (s : State) : Out :=
  if s.hostBusy func then .next s
  else match s.recordQueue? func q with
    | none => .next (s.ignored k)
    | some x =>
      if k == .read then .next (s.respond (.data (bytesOf 8 x.head)))
      else
        let n := head.toNat
        let s := s.respond .successful
        if n < x.head || x.tail < n then .next s
        else if x.st == .closing && n == x.tail then
          .next (s.setQueueSt func q (fun x => { x with head := n, st := .closed }))
        else .next (s.modQueue func q (fun x => { x with head := n }))

/-- APERTURE_OTHER_ACCESS: ignored, but for reads of HEAD and TAIL (R133). -/
def execApertureOtherAccess (func q : Nat) (k : HostKind) (off : Nat) (s : State) : Out :=
  if s.hostBusy func then .next s
  else match s.recordQueue? func q, k with
    | some x, .read =>
      .next (s.respond (.data (bytesOf 8 (if off == 0x40 then x.head else if off == 0x48 then x.tail else 0))))
    | _, _ => .next (s.ignored k)

/-! The host window (R423). -/

/-- Accesses of the host: R or W, and E. -/
def XReq.hostRead : XReq := { kind := .engine, r := true, w := false, e := true, noSy := false, noUc := false }
def XReq.hostWrite : XReq := { kind := .engine, r := false, w := true, e := true, noSy := false, noUc := false }

/-- The pieces of a request, one a line of 128 bytes, in ascending order: offset in the request, and bytes. -/
def linePieces (va len : Nat) : List (Nat × Nat) :=
  if len = 0 then []
  else (List.range ((va + len - 1) / 128 - va / 128 + 1)).map (fun i =>
    let a := Nat.max va (128 * (va / 128 + i))
    (a - va, Nat.min (va + len) (128 * (va / 128 + i + 1)) - a))

/-- The virtual address of a window offset. -/
def State.windowVa (s : State) (func : Nat) (off : W64) : Nat := (s.ctx func).hwb + off.toNat

/-- The request lies in BAR4, and the function's context exists. -/
def State.inWindow (s : State) (func : Nat) (off : W64) (len : Nat) : Bool :=
  s.exists? func && decide (off.toNat + len ≤ 2 ^ 36)

/-- The translations of the lines of a request, up to the first that faults. -/
def State.lines (s : State) (func va : Nat) (q : XReq) : List (Nat × Nat) → List (Nat × Nat × Leaf)
  | [] => []
  | (o, n) :: ps =>
    if field (va + o) 63 57 != 0 then []
    else match s.translate func (va + o) q with
      | .ok l => (o, n, l) :: s.lines func va q ps
      | .error _ => []

/-- A byte of a completion: none where its granule is poisoned. -/
def State.hostByte (s : State) (pa : Nat) : Option Byte := if s.isPoison pa then none else some (s.rdByte pa)

/-- The lines used are cached translations. -/
def State.fillLines (s : State) (func va : Nat) (ls : List (Nat × Nat × Leaf)) : State :=
  ls.foldl (fun s x => s.fill func (va + x.1) x.2.2) s

/-- HOST_WINDOW_READ. -/
def execHostWindowRead (func : Nat) (off : W64) (len : Nat) (s : State) : Out :=
  if s.hostBusy func then .next s
  else if !(s.inWindow func off len) then .next (s.respond .unsupported)
  else
    let va := s.windowVa func off
    let ps := linePieces va len
    let ls := s.lines func va XReq.hostRead ps
    if ls.length != ps.length then .next (s.respond .unsupported)
    else
      let bs := ls.flatMap (fun x => (List.range x.2.1).map (fun i => s.hostByte (x.2.2.pa + i)))
      let r := if bs.all Option.isSome then .data (bs.filterMap id) else .poisoned bs
      let s' := (s.fillLines func va ls).recall (ls.flatMap (fun x => wordsOf x.2.2.pa x.2.1))
      .next { s'.respond r with free := s.free + 1 }

/-- A host write is over: its lines have entered G, or the rest of them is dropped. -/
def State.endHost (s : State) (h : HostLines) (r : HostResp) : State :=
  ({ s with hostw := s.hostw.filter (fun x => x.id != h.id) }.respond r).pruneFences

/-- The first line of a host write is performed: one singleton (R219). At a line whose translation faults, it and every later
line are dropped. -/
def State.performLine (s : State) (h : HostLines) : State :=
  match h.lines with
  | [] => s.endHost h .successful
  | (va, bs) :: rest =>
    if !(s.exists? h.func) || field va 63 57 != 0 then s.endHost h .dropped
    else match s.translate h.func va XReq.hostWrite with
      | .error _ => (s.forget h.func va).endHost h .dropped
      | .ok l =>
        if s.blockedG none l.pa bs.length then s
        else
          let s' := (s.fill h.func va l).writeG none l.pa bs
          let s' := { s' with hostw := updIf (fun x => x.id == h.id) (fun x => { x with lines := rest }) s'.hostw,
                              free := s.free + 1 }
          if rest.isEmpty then s'.endHost h .successful else s'

/-- The next line of the function's oldest host write. -/
def State.hostLine (s : State) (func : Nat) : State :=
  match s.hostw.find? (fun h => h.func == func) with
  | some h => s.performLine h
  | none => s

/-- The next line of a host write must wait for a PINNED chunk (R199). -/
def State.lineBlocked (s : State) (h : HostLines) : Bool :=
  match h.lines with
  | (va, bs) :: _ => (match s.translate h.func va XReq.hostWrite with
      | .ok l => s.blockedG none l.pa bs.length
      | .error _ => false)
  | [] => false

/-- HOST_WINDOW_WRITE: the write enters G line by line, behind those that the function issued before it; its first line at
once where none stands before it. -/
def execHostWindowWrite (func : Nat) (k : HostKind) (off : W64) (data : List Byte) (s : State) : Out :=
  if s.hostHeld func then .next s
  else if k == .read || !(s.inWindow func off data.length) then .next (s.refuse k .unsupported)
  else
    let va := s.windowVa func off
    let h : HostLines := { id := s.nextCmd, func := func, kind := k,
                           lines := (linePieces va data.length).map (fun p => (va + p.1, (data.drop p.1).take p.2)) }
    let s' := { s with hostw := s.hostw ++ [h], nextCmd := s.nextCmd + 1 }
    .next (if s.hostw.any (fun x => x.func == func) then s' else s'.performLine h)

/-! The mailbox (R424, R425, R429). -/

def State.func? (s : State) (n : Nat) : Option Func := s.funcs[n]?

/-- A posted write to CMD is dropped and counted. -/
def State.dropCmd (s : State) (func : Nat) (k : HostKind) (r : HostResp) : State :=
  match k with
  | .deferrable => s.respond r
  | _ => { s with funcs := modAt s.funcs func (fun f => { f with drops := f.drops + 1 }) }.respond .dropped

/-- A 64-byte write to CMD: the slot takes it where it is free. -/
def State.postCmd (s : State) (func : Nat) (k : HostKind) (bs : List Byte) : State :=
  match s.func? func with
  | none => s
  | some f =>
    if f.slot.isSome || bs.length != 64 then s.dropCmd func k (if bs.length == 64 then .deferred else .unsupported)
    else { s with funcs := modAt s.funcs func (fun f => { f with slot := some bs }) }.respond .successful

/-- A byte of BAR0 as the host reads it: LOGSEQ, DROPS, the logbook; else zero (Table 23.2). -/
def Func.byte (f : Func) (a : Nat) : Byte :=
  if 0x40 ≤ a ∧ a < 0x48 then (bytesOf 8 f.logseq.toNat).getD (a - 0x40) 0
  else if 0x48 ≤ a ∧ a < 0x4C then (bytesOf 4 f.drops.toNat).getD (a - 0x48) 0
  else if 0x400000 ≤ a ∧ a < 0x800000 then
    let at' := (a - 0x400000) / 64
    let back := (f.logseq.toNat + 65536 * 65536 - 1 - at') % 65536
    (f.log.getD back []).getD (a % 64) 0
  else 0

/-- The eight bytes that a read of BAR0 returns at an offset. -/
def Func.read (f : Func) (off : Nat) : List Byte := (List.range 8).map (fun i => f.byte (off + i))

/-- MAILBOX_OTHER_WRITE: a write that is not one aligned 64-byte write to CMD, a write elsewhere, which is ignored, or a
read. -/
def execMailboxOtherWrite (func : Nat) (k : HostKind) (off : Nat) (s : State) : Out :=
  match s.func? func with
  | none => .next s
  | some f =>
    match k with
    | .read => .next (s.respond (.data (f.read off)))
    | _ => .next (if off < 64 then s.dropCmd func k .unsupported else s.respond .successful)

end Sys2Proof.Machine
end

