-- ==== Sys2Proof/Machine/Stream.lean ====
section
/-!
DEFINITION. The packed stream (R324, R325) and XDEC (R326 to R328).
-/

namespace Sys2Proof.Machine

open Sys2Proof

/-! Bits and codes (R324). -/

/-- What decoding sees: bit `i` of the stream, its length in bits, and byte `x` of the output before this XDEC. -/
structure Packed where
  bitAt : Nat → Bool
  bits  : Nat
  ring  : Nat → Byte

/-- `n` bits as a number, the least significant first. -/
def Packed.num (p : Packed) (pos n : Nat) : Nat := (List.range n).foldl (fun a i => a + bit (p.bitAt (pos + i)) * 2 ^ i) 0

/-- The code lengths of the 272 symbols. -/
def Packed.lengths (p : Packed) : List Nat := (List.range 272).map (fun i => p.num (32 + 4 * i) 4)

/-- The number of symbols with a length. -/
def lenCount (ls : List Nat) (n : Nat) : Nat := (ls.filter (· == n)).length

/-- The lengths oversubscribe (R325). -/
def oversubscribed (ls : List Nat) : Bool :=
  decide (2 ^ 15 < (List.range 15).foldl (fun a i => a + lenCount ls (i + 1) * 2 ^ (14 - i)) 0)

/-- The symbols of a length in order. -/
def symbolsOf (ls : List Nat) (n : Nat) : List Nat := (List.range ls.length).filter (fun s => ls.getD s 0 == n)

/-- Read one symbol: lengths still possible, the length reached, the code so far, the first code of that length, and the
position. The symbol with the position behind it, or the status (R325). -/
def readSymbol (p : Packed) (ls : List Nat) : Nat → Nat → Nat → Nat → Nat → Except Nat (Nat × Nat)
  | 0, _, _, _, _ => .error 2
  | f + 1, n, code, first, pos =>
    if p.bits ≤ pos then .error 4
    else
      let code := 2 * code + bit (p.bitAt pos)
      let first := 2 * first
      let cnt := lenCount ls n
      if first ≤ code ∧ code < first + cnt then .ok ((symbolsOf ls n).getD (code - first) 0, pos + 1)
      else readSymbol p ls f (n + 1) code (first + cnt) (pos + 1)

/-- The greatest length in use. -/
def maxLen (ls : List Nat) : Nat := ls.foldl Nat.max 0

/-- Table 16.6: extra bits and the least length of a length code. -/
def lenCode (j : Nat) : Nat × Nat :=
  match j with
  | 8 => (1, 11) | 9 => (2, 13) | 10 => (3, 17) | 11 => (4, 25) | 12 => (5, 41) | 13 => (6, 73) | 14 => (7, 137)
  | 15 => (8, 265) | j => (0, 3 + j)

/-! Decoding (R328). -/

/-- The decoder: bit position, pending match (distance - 1, bytes remaining), bytes of this XDEC, an error; and what it has
read: the bits below `top`, the header, positions of the ring. -/
structure Dec where
  pos  : Nat
  dist : Nat
  left : Nat
  out  : List Byte
  err  : Option Nat
  top  : Nat
  hdr  : Bool
  back : List Nat
  deriving DecidableEq, Repr

/-- A byte of a pending match, at distance `dist + 1`: of this XDEC's own bytes where it lies among them, else of the ring. -/
def decMatch (p : Packed) (produced : Nat) (d : Dec) : Dec :=
  let n := d.out.length
  let d' := { d with left := d.left - 1 }
  if d.dist + 1 ≤ n then { d' with out := d.out ++ [d.out.getD (n - (d.dist + 1)) 0] }
  else
    let i := (produced + n + 4096 - (d.dist + 1)) % 4096
    { d' with out := d.out ++ [p.ring i], back := d.back ++ [i] }

/-- A length code at `pos`: its extra bits and its distance; it opens a match, or is an error. -/
def decLength (p : Packed) (produced outlen j pos : Nat) (d : Dec) : Dec :=
  let (e, l) := lenCode j
  let q := produced + d.out.length
  if p.bits < pos + e + 12 then { d with err := some 4, top := p.bits }
  else
    let len := l + p.num pos e
    let dist := p.num (pos + e) 12
    let d := { d with top := pos + e + 12 }
    if outlen < q + len then { d with err := some 4 }
    else if q < dist + 1 then { d with err := some 3 }
    else { d with pos := pos + e + 12, dist := dist, left := len }

/-- One round: a byte of a pending match, or one symbol. -/
def decRound (p : Packed) (ls : List Nat) (produced outlen : Nat) (d : Dec) : Dec :=
  if 0 < d.left then decMatch p produced d
  else if p.bits < 1120 then { d with err := some 4 }
  else
    let d := { d with hdr := true }
    match readSymbol p ls (maxLen ls) 1 0 0 d.pos with
    | .error e => { d with err := some e, top := Nat.min p.bits (d.pos + maxLen ls) }
    | .ok (sym, pos) =>
      if sym < 256 then { d with pos := pos, top := pos, out := d.out ++ [BitVec.ofNat 8 sym] }
      else decLength p produced outlen (sym - 256) pos { d with top := pos }

/-- Decode up to the cap, the end or an error; the first argument bounds the rounds. -/
def decRun (p : Packed) (ls : List Nat) (produced outlen cap : Nat) : Nat → Dec → Dec
  | 0, d => d
  | n + 1, d =>
    if d.err.isSome || decide (outlen ≤ produced + d.out.length) || decide (cap ≤ d.out.length) then d
    else decRun p ls produced outlen cap n (decRound p ls produced outlen d)

/-! The state scalars (Table 16.7). -/

structure XState where
  src    : Nat
  slen   : Nat
  obuf   : Nat
  outlen : Nat
  pos    : Nat
  p      : Nat
  left   : Nat
  dist   : Nat
  st     : Nat
  err    : Nat
  mbz    : Bool
  deriving DecidableEq, Repr

def xstateOf (a b c d : Nat) : XState :=
  { src := field a 31 0, slen := field a 63 32, obuf := field b 31 0, outlen := field b 63 32, pos := field c 31 0,
    p := field c 63 32, left := field d 15 0, dist := field d 27 16, st := field d 33 32, err := field d 39 36,
    mbz := field d 63 40 == 0 && field d 35 34 == 0 && field d 31 28 == 0 }

/-- The decoder at the start of an XDEC. -/
def XState.dec (x : XState) : Dec :=
  { pos := x.pos, dist := x.dist, left := x.left, out := [], err := none, top := 0, hdr := false, back := [] }

/-- A stream in state NEW: its header is read (R324, R325). -/
def openStream (p : Packed) (x : XState) : XState × Dec :=
  if p.bits < 1120 then ({ x with st := 1 }, { x.dec with err := some 4 })
  else
    let y := { x with outlen := p.num 0 32, pos := 1120, st := 1 }
    (y, { y.dec with hdr := true, err := if oversubscribed p.lengths then some 2 else none })

/-- The state behind the decoder's run. -/
def XState.after (y : XState) (d : Dec) (errPos : Nat) : XState :=
  let z := { y with left := d.left, dist := if d.left == 0 then 0 else d.dist, p := y.p + d.out.length }
  match d.err with
  | some e => { z with pos := errPos % 2 ^ 32, st := 3, err := e }
  | none => { z with pos := d.pos, st := if z.p == z.outlen then 2 else 1, err := 0 }

/-- The status that XDEC returns. -/
def XState.status (x : XState) : Nat := if x.st == 2 then 1 else if x.st == 3 then x.err else 0

/-- One XDEC: the state behind it, and what the decoder delivered and read. -/
def xdecode (p : Packed) (x : XState) (cap errPos : Nat) : XState × Dec :=
  if x.st == 2 then ({ x with err := 0 }, x.dec)
  else if x.st == 3 then (x, x.dec)
  else
    let (y, d₀) := if x.st == 0 then openStream p x else (x, x.dec)
    let d := decRun p p.lengths y.p y.outlen cap (2 * cap + 1) d₀
    (y.after d (if d₀.err == some 2 then d₀.pos else errPos), d)

/-! XDEC. -/

/-- What the decoder sees of the chunk's crew memory. -/
def Cur.packed (c : Cur) (x : XState) : Packed :=
  { bitAt := fun i => Sys2Proof.bitAt (c.cByte (x.src + i / 8)).toNat (i % 8), bits := 8 * x.slen,
    ring := fun n => c.cByte (x.obuf + n % 4096) }

/-- The spans of crew memory that it read. -/
def Dec.spans (d : Dec) (x : XState) : List (Nat × Nat) :=
  let start := (if x.st == 0 then 1120 else x.pos) / 8
  (if d.hdr then [(x.src, 140)] else []) ++ (if 8 * start < d.top then [(x.src + start, ceilDiv d.top 8 - start)] else []) ++
    d.back.map (fun n => (x.obuf + n % 4096, 1))

def xdec (o : XdecOps) (c : Cur) : Except Stop Cur := do
  c.needRegs [o.vd]
  let sr := fun (i : Nat) => c.sr (sregAt (o.s.val + i))
  let x := xstateOf (sr 0).toNat (sr 1).toNat (sr 2).toNat (sr 3).toNat
  ensure x.mbz illegalOperand
  ensure (decide (x.src + x.slen ≤ c.crew.launch.crewmem)) (.trap .addr x.src 0 none)
  ensure (decide (x.obuf + 4096 ≤ c.crew.launch.crewmem)) (.trap .addr x.obuf 0 none)
  let ls := c.lanes c.em
  let (y, d) := xdecode (c.packed x) x (4 * ls.length) (Config.streamErrPos c.free)
  let spans := d.spans x
  spans.forM (fun r => poisonStop c.cPoison r.1 r.1 r.2)
  let c := spans.foldl (fun c r => c.readC r.1 r.2) c
  let byteAt := fun (l i : Nat) => match indexOf? (· == l) ls with
    | some k => (d.out.getD (4 * k + i) 0).toNat
    | none => 0
  let got := maskOf 64 (fun l => match indexOf? (· == l) ls with | some k => decide (4 * k < d.out.length) | none => false)
  let c := (c.setV o.vd c.em (fun l => packElems 8 ((List.range 4).map (byteAt l))) o.t).setP o.pd c.em got
  let put := fun (c : Cur) (i v : Nat) => c.setS (sregAt (o.s.val + i)) (BitVec.ofNat 64 v)
  let c := put c 1 (y.obuf + 2 ^ 32 * y.outlen)
  let c := put c 2 (y.pos + 2 ^ 32 * y.p)
  let c := put c 3 (y.left + 2 ^ 16 * y.dist + 2 ^ 32 * y.st + 2 ^ 36 * (if y.st == 3 then y.err else 0))
  .ok (put c 4 (y.status + 2 ^ 32 * d.out.length))

def execXdec (o : XdecOps) (s : State) : Out := s.issueC (Form.strandCf o.cf) (xdec o)

end Sys2Proof.Machine
end

