-- ==== Sys2Proof/Machine/Dispatch.lean ====
section
/-!
DEFINITION. The dispatch: one arm per constructor of Instr, each a direct call of its meaning.
-/

namespace Sys2Proof.Machine

/-- The meaning of an instruction. -/
def exec (i : Instr) (s : State) : Host.Outcome State Fault Refusal :=
  match i with
  | .nop => Sys2Proof.Machine.execNop s
  | .bra t => Sys2Proof.Machine.execBra t s
  | .braNz s' t => Sys2Proof.Machine.execBraNz s' t s
  | .braZ s' t => Sys2Proof.Machine.execBraZ s' t s
  | .brz p t => Sys2Proof.Machine.execBrz p t s
  | .brnz p t => Sys2Proof.Machine.execBrnz p t s
  | .dbr p t j => Sys2Proof.Machine.execDbr p t j s
  | .join => Sys2Proof.Machine.execJoin s
  | .call t f8 => Sys2Proof.Machine.execCall t f8 s
  | .callI s' f8 => Sys2Proof.Machine.execCallI s' f8 s
  | .ret => Sys2Proof.Machine.execRet s
  | .exit => Sys2Proof.Machine.execExit s
  | .exitS => Sys2Proof.Machine.execExitS s
  | .trap n s' => Sys2Proof.Machine.execTrap n s' s
  | .rft => Sys2Proof.Machine.execRft s
  | .yield => Sys2Proof.Machine.execYield s
  | .srd sd n => Sys2Proof.Machine.execSrd sd n s
  | .swr n sa => Sys2Proof.Machine.execSwr n sa s
  | .csrr sd n => Sys2Proof.Machine.execCsrr sd n s
  | .csrw n sa => Sys2Proof.Machine.execCsrw n sa s
  | .idrd sd n => Sys2Proof.Machine.execIdrd sd n s
  | .chend => Sys2Proof.Machine.execChend s
  | .chcfg sd x => Sys2Proof.Machine.execChcfg sd x s
  | .wsplit sd p => Sys2Proof.Machine.execWsplit sd p s
  | .wfuse sd => Sys2Proof.Machine.execWfuse sd s
  | .wqry sd => Sys2Proof.Machine.execWqry sd s
  | .tagset vd code => Sys2Proof.Machine.execTagset vd code s
  | .tagget o => Sys2Proof.Machine.execTagget o s
  | .sadd o => Sys2Proof.Machine.execSadd o s
  | .ssub o => Sys2Proof.Machine.execSsub o s
  | .sand o => Sys2Proof.Machine.execSand o s
  | .sor o => Sys2Proof.Machine.execSor o s
  | .sxor o => Sys2Proof.Machine.execSxor o s
  | .sshl o => Sys2Proof.Machine.execSshl o s
  | .sshr o => Sys2Proof.Machine.execSshr o s
  | .ssra o => Sys2Proof.Machine.execSsra o s
  | .smin o => Sys2Proof.Machine.execSmin o s
  | .smax o => Sys2Proof.Machine.execSmax o s
  | .sminu o => Sys2Proof.Machine.execSminu o s
  | .smaxu o => Sys2Proof.Machine.execSmaxu o s
  | .smul o => Sys2Proof.Machine.execSmul o s
  | .smulh o => Sys2Proof.Machine.execSmulh o s
  | .smulhu o => Sys2Proof.Machine.execSmulhu o s
  | .sandn o => Sys2Proof.Machine.execSandn o s
  | .scmpEq o => Sys2Proof.Machine.execScmpEq o s
  | .scmpNe o => Sys2Proof.Machine.execScmpNe o s
  | .scmpLt o => Sys2Proof.Machine.execScmpLt o s
  | .scmpLe o => Sys2Proof.Machine.execScmpLe o s
  | .scmpGt o => Sys2Proof.Machine.execScmpGt o s
  | .scmpGe o => Sys2Proof.Machine.execScmpGe o s
  | .scmpLtu o => Sys2Proof.Machine.execScmpLtu o s
  | .scmpLeu o => Sys2Proof.Machine.execScmpLeu o s
  | .scmpGtu o => Sys2Proof.Machine.execScmpGtu o s
  | .scmpGeu o => Sys2Proof.Machine.execScmpGeu o s
  | .ssel o => Sys2Proof.Machine.execSsel o s
  | .spopc o => Sys2Proof.Machine.execSpopc o s
  | .sclz o => Sys2Proof.Machine.execSclz o s
  | .sctz o => Sys2Proof.Machine.execSctz o s
  | .sbfe o => Sys2Proof.Machine.execSbfe o s
  | .sbfi o => Sys2Proof.Machine.execSbfi o s
  | .srev o => Sys2Proof.Machine.execSrev o s
  | .sld o => Sys2Proof.Machine.execSld o s
  | .sst o => Sys2Proof.Machine.execSst o s
  | .vadd o => Sys2Proof.Machine.execVadd o s
  | .vsub o => Sys2Proof.Machine.execVsub o s
  | .vand o => Sys2Proof.Machine.execVand o s
  | .vor o => Sys2Proof.Machine.execVor o s
  | .vxor o => Sys2Proof.Machine.execVxor o s
  | .vshl o => Sys2Proof.Machine.execVshl o s
  | .vshr o => Sys2Proof.Machine.execVshr o s
  | .vsra o => Sys2Proof.Machine.execVsra o s
  | .vmin o => Sys2Proof.Machine.execVmin o s
  | .vmax o => Sys2Proof.Machine.execVmax o s
  | .vmul o => Sys2Proof.Machine.execVmul o s
  | .vmulh o => Sys2Proof.Machine.execVmulh o s
  | .vabsd o => Sys2Proof.Machine.execVabsd o s
  | .vandn o => Sys2Proof.Machine.execVandn o s
  | .vadds o => Sys2Proof.Machine.execVadds o s
  | .vsubs o => Sys2Proof.Machine.execVsubs o s
  | .vaddImm o => Sys2Proof.Machine.execVaddImm o s
  | .vsubImm o => Sys2Proof.Machine.execVsubImm o s
  | .vandImm o => Sys2Proof.Machine.execVandImm o s
  | .vorImm o => Sys2Proof.Machine.execVorImm o s
  | .vxorImm o => Sys2Proof.Machine.execVxorImm o s
  | .vshlImm o => Sys2Proof.Machine.execVshlImm o s
  | .vshrImm o => Sys2Proof.Machine.execVshrImm o s
  | .vsraImm o => Sys2Proof.Machine.execVsraImm o s
  | .vminImm o => Sys2Proof.Machine.execVminImm o s
  | .vmaxImm o => Sys2Proof.Machine.execVmaxImm o s
  | .vmulImm o => Sys2Proof.Machine.execVmulImm o s
  | .vmulhImm o => Sys2Proof.Machine.execVmulhImm o s
  | .vabsdImm o => Sys2Proof.Machine.execVabsdImm o s
  | .vandnImm o => Sys2Proof.Machine.execVandnImm o s
  | .vaddsImm o => Sys2Proof.Machine.execVaddsImm o s
  | .vsubsImm o => Sys2Proof.Machine.execVsubsImm o s
  | .vaddc o => Sys2Proof.Machine.execVaddc o s
  | .vsubb o => Sys2Proof.Machine.execVsubb o s
  | .vmad64U o => Sys2Proof.Machine.execVmad64U o s
  | .vmad64S o => Sys2Proof.Machine.execVmad64S o s
  | .vcmpEq o => Sys2Proof.Machine.execVcmpEq o s
  | .vcmpNe o => Sys2Proof.Machine.execVcmpNe o s
  | .vcmpLt o => Sys2Proof.Machine.execVcmpLt o s
  | .vcmpLe o => Sys2Proof.Machine.execVcmpLe o s
  | .vcmpGt o => Sys2Proof.Machine.execVcmpGt o s
  | .vcmpGe o => Sys2Proof.Machine.execVcmpGe o s
  | .vcmpLtu o => Sys2Proof.Machine.execVcmpLtu o s
  | .vcmpLeu o => Sys2Proof.Machine.execVcmpLeu o s
  | .vcmpGtu o => Sys2Proof.Machine.execVcmpGtu o s
  | .vcmpGeu o => Sys2Proof.Machine.execVcmpGeu o s
  | .vsel o => Sys2Proof.Machine.execVsel o s
  | .vmov o => Sys2Proof.Machine.execVmov o s
  | .vli o => Sys2Proof.Machine.execVli o s
  | .vliHi o => Sys2Proof.Machine.execVliHi o s
  | .vliDup o => Sys2Proof.Machine.execVliDup o s
  | .vpopc o => Sys2Proof.Machine.execVpopc o s
  | .vclz o => Sys2Proof.Machine.execVclz o s
  | .vctz o => Sys2Proof.Machine.execVctz o s
  | .vbfe o => Sys2Proof.Machine.execVbfe o s
  | .vbfi o => Sys2Proof.Machine.execVbfi o s
  | .vrev o => Sys2Proof.Machine.execVrev o s
  | .vbperm o => Sys2Proof.Machine.execVbperm o s
  | .vdot4II o => Sys2Proof.Machine.execVdot4II o s
  | .vdot4UU o => Sys2Proof.Machine.execVdot4UU o s
  | .vdot4IU o => Sys2Proof.Machine.execVdot4IU o s
  | .fadd o => Sys2Proof.Machine.execFadd o s
  | .fsub o => Sys2Proof.Machine.execFsub o s
  | .fmul o => Sys2Proof.Machine.execFmul o s
  | .fmin o => Sys2Proof.Machine.execFmin o s
  | .fmax o => Sys2Proof.Machine.execFmax o s
  | .ffma o => Sys2Proof.Machine.execFfma o s
  | .ffms o => Sys2Proof.Machine.execFfms o s
  | .ffnma o => Sys2Proof.Machine.execFfnma o s
  | .fscale o => Sys2Proof.Machine.execFscale o s
  | .fcmpEq o => Sys2Proof.Machine.execFcmpEq o s
  | .fcmpNe o => Sys2Proof.Machine.execFcmpNe o s
  | .fcmpLt o => Sys2Proof.Machine.execFcmpLt o s
  | .fcmpLe o => Sys2Proof.Machine.execFcmpLe o s
  | .fcmpGt o => Sys2Proof.Machine.execFcmpGt o s
  | .fcmpGe o => Sys2Proof.Machine.execFcmpGe o s
  | .fcmpUnord o => Sys2Proof.Machine.execFcmpUnord o s
  | .fcmpOrd o => Sys2Proof.Machine.execFcmpOrd o s
  | .fclass o => Sys2Proof.Machine.execFclass o s
  | .frcp o => Sys2Proof.Machine.execFrcp o s
  | .frsq o => Sys2Proof.Machine.execFrsq o s
  | .fsqrt o => Sys2Proof.Machine.execFsqrt o s
  | .fexp2 o => Sys2Proof.Machine.execFexp2 o s
  | .flog2 o => Sys2Proof.Machine.execFlog2 o s
  | .fsin o => Sys2Proof.Machine.execFsin o s
  | .fcos o => Sys2Proof.Machine.execFcos o s
  | .ftanh o => Sys2Proof.Machine.execFtanh o s
  | .cvt o => Sys2Proof.Machine.execCvt o s
  | .cvtmxQ o => Sys2Proof.Machine.execCvtmxQ o s
  | .cvtmxD o => Sys2Proof.Machine.execCvtmxD o s
  | .shflIdx o => Sys2Proof.Machine.execShflIdx o s
  | .shflUp o => Sys2Proof.Machine.execShflUp o s
  | .shflDown o => Sys2Proof.Machine.execShflDown o s
  | .shflXor o => Sys2Proof.Machine.execShflXor o s
  | .bcast o => Sys2Proof.Machine.execBcast o s
  | .bcastS o => Sys2Proof.Machine.execBcastS o s
  | .vtos o => Sys2Proof.Machine.execVtos o s
  | .vredAdd o => Sys2Proof.Machine.execVredAdd o s
  | .vredMin o => Sys2Proof.Machine.execVredMin o s
  | .vredMax o => Sys2Proof.Machine.execVredMax o s
  | .vredAnd o => Sys2Proof.Machine.execVredAnd o s
  | .vredOr o => Sys2Proof.Machine.execVredOr o s
  | .vredXor o => Sys2Proof.Machine.execVredXor o s
  | .vredFadd o => Sys2Proof.Machine.execVredFadd o s
  | .vredFmin o => Sys2Proof.Machine.execVredFmin o s
  | .vredFmax o => Sys2Proof.Machine.execVredFmax o s
  | .vscanAdd o => Sys2Proof.Machine.execVscanAdd o s
  | .vscanMin o => Sys2Proof.Machine.execVscanMin o s
  | .vscanMax o => Sys2Proof.Machine.execVscanMax o s
  | .vscanAnd o => Sys2Proof.Machine.execVscanAnd o s
  | .vscanOr o => Sys2Proof.Machine.execVscanOr o s
  | .vscanXor o => Sys2Proof.Machine.execVscanXor o s
  | .vscanFadd o => Sys2Proof.Machine.execVscanFadd o s
  | .vscanFmin o => Sys2Proof.Machine.execVscanFmin o s
  | .vscanFmax o => Sys2Proof.Machine.execVscanFmax o s
  | .voteBallot o => Sys2Proof.Machine.execVoteBallot o s
  | .voteAny o => Sys2Proof.Machine.execVoteAny o s
  | .voteAll o => Sys2Proof.Machine.execVoteAll o s
  | .votePfroms o => Sys2Proof.Machine.execVotePfroms o s
  | .qxchH o => Sys2Proof.Machine.execQxchH o s
  | .qxchV o => Sys2Proof.Machine.execQxchV o s
  | .qxchD o => Sys2Proof.Machine.execQxchD o s
  | .qxchB o => Sys2Proof.Machine.execQxchB o s
  | .emset x => Sys2Proof.Machine.execEmset x s
  | .emld sa => Sys2Proof.Machine.execEmld sa s
  | .emst sd => Sys2Proof.Machine.execEmst sd s
  | .emand x => Sys2Proof.Machine.execEmand x s
  | .hmset x => Sys2Proof.Machine.execHmset x s
  | .ld o => Sys2Proof.Machine.execLd o s
  | .st o => Sys2Proof.Machine.execSt o s
  | .ldcw o => Sys2Proof.Machine.execLdcw o s
  | .stcw o => Sys2Proof.Machine.execStcw o s
  | .pref o => Sys2Proof.Machine.execPref o s
  | .discard o => Sys2Proof.Machine.execDiscard o s
  | .amoAdd o => Sys2Proof.Machine.execAmoAdd o s
  | .amoSub o => Sys2Proof.Machine.execAmoSub o s
  | .amoMin o => Sys2Proof.Machine.execAmoMin o s
  | .amoMax o => Sys2Proof.Machine.execAmoMax o s
  | .amoMinu o => Sys2Proof.Machine.execAmoMinu o s
  | .amoMaxu o => Sys2Proof.Machine.execAmoMaxu o s
  | .amoAnd o => Sys2Proof.Machine.execAmoAnd o s
  | .amoOr o => Sys2Proof.Machine.execAmoOr o s
  | .amoXor o => Sys2Proof.Machine.execAmoXor o s
  | .amoXchg o => Sys2Proof.Machine.execAmoXchg o s
  | .amoCas o => Sys2Proof.Machine.execAmoCas o s
  | .amoFadd o => Sys2Proof.Machine.execAmoFadd o s
  | .amoIncw o => Sys2Proof.Machine.execAmoIncw o s
  | .amoDecw o => Sys2Proof.Machine.execAmoDecw o s
  | .amovAdd o => Sys2Proof.Machine.execAmovAdd o s
  | .amovSub o => Sys2Proof.Machine.execAmovSub o s
  | .amovMin o => Sys2Proof.Machine.execAmovMin o s
  | .amovMax o => Sys2Proof.Machine.execAmovMax o s
  | .amovMinu o => Sys2Proof.Machine.execAmovMinu o s
  | .amovMaxu o => Sys2Proof.Machine.execAmovMaxu o s
  | .amovAnd o => Sys2Proof.Machine.execAmovAnd o s
  | .amovOr o => Sys2Proof.Machine.execAmovOr o s
  | .amovXor o => Sys2Proof.Machine.execAmovXor o s
  | .amovXchg o => Sys2Proof.Machine.execAmovXchg o s
  | .amovCas o => Sys2Proof.Machine.execAmovCas o s
  | .amovFadd o => Sys2Proof.Machine.execAmovFadd o s
  | .amovIncw o => Sys2Proof.Machine.execAmovIncw o s
  | .amovDecw o => Sys2Proof.Machine.execAmovDecw o s
  | .svwaitEq o => Sys2Proof.Machine.execSvwaitEq o s
  | .svwaitGeu o => Sys2Proof.Machine.execSvwaitGeu o s
  | .binit sa sb => Sys2Proof.Machine.execBinit sa sb s
  | .barv sd sa => Sys2Proof.Machine.execBarv sd sa s
  | .bwt o => Sys2Proof.Machine.execBwt o s
  | .barw sd sa => Sys2Proof.Machine.execBarw sd sa s
  | .enq o => Sys2Proof.Machine.execEnq o s
  | .deq o => Sys2Proof.Machine.execDeq o s
  | .deqt o => Sys2Proof.Machine.execDeqt o s
  | .engq o => Sys2Proof.Machine.execEngq o s
  | .bclose sd => Sys2Proof.Machine.execBclose sd s
  | .bwait o => Sys2Proof.Machine.execBwait o s
  | .btest o => Sys2Proof.Machine.execBtest o s
  | .xfence tc fc => Sys2Proof.Machine.execXfence tc fc s
  | .wcwaitS o => Sys2Proof.Machine.execWcwaitS o s
  | .wcwaitD o => Sys2Proof.Machine.execWcwaitD o s
  | .mmaF16 o => Sys2Proof.Machine.execMmaF16 o s
  | .mmaBf16 o => Sys2Proof.Machine.execMmaBf16 o s
  | .mmaE4m3 o => Sys2Proof.Machine.execMmaE4m3 o s
  | .mmaE5m2 o => Sys2Proof.Machine.execMmaE5m2 o s
  | .mmaMxe4m3 o => Sys2Proof.Machine.execMmaMxe4m3 o s
  | .mmaMxe5m2 o => Sys2Proof.Machine.execMmaMxe5m2 o s
  | .mmaMxe2m1 o => Sys2Proof.Machine.execMmaMxe2m1 o s
  | .mmaiI8i8 o => Sys2Proof.Machine.execMmaiI8i8 o s
  | .mmaiU8i8 o => Sys2Proof.Machine.execMmaiU8i8 o s
  | .mmaiI4i4 o => Sys2Proof.Machine.execMmaiI4i4 o s
  | .mmatI8t2 o => Sys2Proof.Machine.execMmatI8t2 o s
  | .mmatU8t2 o => Sys2Proof.Machine.execMmatU8t2 o s
  | .azero t => Sys2Proof.Machine.execAzero t s
  | .ald o => Sys2Proof.Machine.execAld o s
  | .ast o => Sys2Proof.Machine.execAst o s
  | .amovv t v => Sys2Proof.Machine.execAmovv t v s
  | .amova t v => Sys2Proof.Machine.execAmova t v s
  | .acvtRelu t => Sys2Proof.Machine.execAcvtRelu t s
  | .acvtScale t sp => Sys2Proof.Machine.execAcvtScale t sp s
  | .acvtClamp t sp => Sys2Proof.Machine.execAcvtClamp t sp s
  | .atag t sd code => Sys2Proof.Machine.execAtag t sd code s
  | .kinitR o => Sys2Proof.Machine.execKinitR o s
  | .kinitA o => Sys2Proof.Machine.execKinitA o s
  | .knext o => Sys2Proof.Machine.execKnext o s
  | .knextS o => Sys2Proof.Machine.execKnextS o s
  | .kseek o => Sys2Proof.Machine.execKseek o s
  | .kdesc kd ka cf => Sys2Proof.Machine.execKdesc kd ka cf s
  | .kld o => Sys2Proof.Machine.execKld o s
  | .kqry o => Sys2Proof.Machine.execKqry o s
  | .ksave o => Sys2Proof.Machine.execKsave o s
  | .krest o => Sys2Proof.Machine.execKrest o s
  | .kcoI o => Sys2Proof.Machine.execKcoI o s
  | .kcoU o => Sys2Proof.Machine.execKcoU o s
  | .kapp o => Sys2Proof.Machine.execKapp o s
  | .kfin o => Sys2Proof.Machine.execKfin o s
  | .sieveNz o => Sys2Proof.Machine.execSieveNz o s
  | .sieveDelta o => Sys2Proof.Machine.execSieveDelta o s
  | .xdec o => Sys2Proof.Machine.execXdec o s
  | .reservedOpcodeWord w => Sys2Proof.Machine.execReservedOpcodeWord w s
  | .clauseStart => Sys2Proof.Machine.execClauseStart s
  | .pairIssue a b => Sys2Proof.Machine.execPairIssue a b s
  | .dbrSplit r => Sys2Proof.Machine.execDbrSplit r s
  | .joinArrive r => Sys2Proof.Machine.execJoinArrive r s
  | .warpSplit r => Sys2Proof.Machine.execWarpSplit r s
  | .warpFusion lo hi => Sys2Proof.Machine.execWarpFusion lo hi s
  | .wfuseTimeout r => Sys2Proof.Machine.execWfuseTimeout r s
  | .singletonEvent r => Sys2Proof.Machine.execSingletonEvent r s
  | .svwaitWake r => Sys2Proof.Machine.execSvwaitWake r s
  | .deqWake ctx q => Sys2Proof.Machine.execDeqWake ctx q s
  | .engineAccess id k => Sys2Proof.Machine.execEngineAccess id k s
  | .bwaitWake r => Sys2Proof.Machine.execBwaitWake r s
  | .batchComplete w => Sys2Proof.Machine.execBatchComplete w s
  | .xfenceResume r => Sys2Proof.Machine.execXfenceResume r s
  | .wcwaitWake r => Sys2Proof.Machine.execWcwaitWake r s
  | .chlimReached r => Sys2Proof.Machine.execChlimReached r s
  | .flaggedCompletion r f => Sys2Proof.Machine.execFlaggedCompletion r f s
  | .chunkOffer r => Sys2Proof.Machine.execChunkOffer r s
  | .chunkCommit r => Sys2Proof.Machine.execChunkCommit r s
  | .pinGrant die => Sys2Proof.Machine.execPinGrant die s
  | .trapEntry r => Sys2Proof.Machine.execTrapEntry r s
  | .faultPark r => Sys2Proof.Machine.execFaultPark r s
  | .watchdog r => Sys2Proof.Machine.execWatchdog r s
  | .uncorrectableErrorOpen r residue site => Sys2Proof.Machine.execUncorrectableErrorOpen r residue site s
  | .uncorrectableErrorCommitted e => Sys2Proof.Machine.execUncorrectableErrorCommitted e s
  | .correctedError => Sys2Proof.Machine.execCorrectedError s
  | .launchTake ctx => Sys2Proof.Machine.execLaunchTake ctx s
  | .convoyPlace ctx voy places => Sys2Proof.Machine.execConvoyPlace ctx voy places s
  | .crewRetire c => Sys2Proof.Machine.execCrewRetire c s
  | .quadrantHaltDone c => Sys2Proof.Machine.execQuadrantHaltDone c s
  | .crewSaveDone c => Sys2Proof.Machine.execCrewSaveDone c s
  | .crewRestore c core quad => Sys2Proof.Machine.execCrewRestore c core quad s
  | .eventStorePost ctx => Sys2Proof.Machine.execEventStorePost ctx s
  | .faultRecordPost ctx => Sys2Proof.Machine.execFaultRecordPost ctx s
  | .hostEnqueue func q k off data => Sys2Proof.Machine.execHostEnqueue func q k off data s
  | .hostHeadWrite func q k head => Sys2Proof.Machine.execHostHeadWrite func q k head s
  | .apertureOtherAccess func q k off => Sys2Proof.Machine.execApertureOtherAccess func q k off s
  | .hostWindowRead func off len => Sys2Proof.Machine.execHostWindowRead func off len s
  | .hostWindowWrite func k off data => Sys2Proof.Machine.execHostWindowWrite func k off data s
  | .mailboxOtherWrite func k off => Sys2Proof.Machine.execMailboxOtherWrite func k off s
  | .ctxCreate h a => Sys2Proof.Machine.execCtxCreate h a s
  | .ctxSuspend h ctx => Sys2Proof.Machine.execCtxSuspend h ctx s
  | .ctxResume h ctx => Sys2Proof.Machine.execCtxResume h ctx s
  | .ctxDestroy h ctx => Sys2Proof.Machine.execCtxDestroy h ctx s
  | .ctxScrubDone ctx => Sys2Proof.Machine.execCtxScrubDone ctx s
  | .lossAck h ctx readmit => Sys2Proof.Machine.execLossAck h ctx readmit s
  | .coreReset h core => Sys2Proof.Machine.execCoreReset h core s
  | .crewPreempt h a => Sys2Proof.Machine.execCrewPreempt h a s
  | .watchdogSet h ctx us => Sys2Proof.Machine.execWatchdogSet h ctx us s
  | .queueConfig h ctx q rec => Sys2Proof.Machine.execQueueConfig h ctx q rec s
  | .queueOpen h ctx q => Sys2Proof.Machine.execQueueOpen h ctx q s
  | .queueClose h ctx q => Sys2Proof.Machine.execQueueClose h ctx q s
  | .queueFree h ctx q => Sys2Proof.Machine.execQueueFree h ctx q s
  | .queueReset h ctx q => Sys2Proof.Machine.execQueueReset h ctx q s
  | .queueQuery h ctx q => Sys2Proof.Machine.execQueueQuery h ctx q s
  | .tlbInval h ctx base len => Sys2Proof.Machine.execTlbInval h ctx base len s
  | .tlbInvalDone k => Sys2Proof.Machine.execTlbInvalDone k s
  | .replay h ctx id action => Sys2Proof.Machine.execReplay h ctx id action s
  | .frameAttr h first len value => Sys2Proof.Machine.execFrameAttr h first len value s
  | .hwinSet h ctx hwb => Sys2Proof.Machine.execHwinSet h ctx hwb s
  | .linkEnable h link => Sys2Proof.Machine.execLinkEnable h link s
  | .linkQuiesce h link => Sys2Proof.Machine.execLinkQuiesce h link s
  | .linkQuiesceDone link => Sys2Proof.Machine.execLinkQuiesceDone link s
  | .linkDisable h link => Sys2Proof.Machine.execLinkDisable h link s
  | .linkQuery h link => Sys2Proof.Machine.execLinkQuery h link s
  | .winOpen h a => Sys2Proof.Machine.execWinOpen h a s
  | .winReset h ctx id => Sys2Proof.Machine.execWinReset h ctx id s
  | .winClose h ctx id => Sys2Proof.Machine.execWinClose h ctx id s
  | .winCloseDone ctx win => Sys2Proof.Machine.execWinCloseDone ctx win s
  | .powerCap h cap => Sys2Proof.Machine.execPowerCap h cap s
  | .powerOverCap mhz => Sys2Proof.Machine.execPowerOverCap mhz s
  | .linkTrainingDone link lanes => Sys2Proof.Machine.execLinkTrainingDone link lanes s
  | .linkLaneLoss link lanes => Sys2Proof.Machine.execLinkLaneLoss link lanes s
  | .linkFailure link => Sys2Proof.Machine.execLinkFailure link s
  | .linkRemotePut ctx win off w => Sys2Proof.Machine.execLinkRemotePut ctx win off w s
  | .linkPutAck cmd => Sys2Proof.Machine.execLinkPutAck cmd s
  | .linkRemoteGet ctx win off => Sys2Proof.Machine.execLinkRemoteGet ctx win off s
  | .linkGetData cmd k w => Sys2Proof.Machine.execLinkGetData cmd k w s
  | .cxlPortDown port => Sys2Proof.Machine.execCxlPortDown port s
  | .cxlPoisonReport pa => Sys2Proof.Machine.execCxlPoisonReport pa s
  | .unlistedCommand h code => Sys2Proof.Machine.execUnlistedCommand h code s
  | .linkPeerFault cmd => Sys2Proof.Machine.execLinkPeerFault cmd s
  | .linkLevelError link flits => Sys2Proof.Machine.execLinkLevelError link flits s
  | .moduleReset => Sys2Proof.Machine.execModuleReset s

end Sys2Proof.Machine
end

