-- ==== Sys2Proof/Machine/Fetch.lean ====
section
/-!
DEFINITION. What a step does: the instruction that a strand issues, read from its memory (R52 to R56, R64, R70), and the
move that comes next when none is scheduled (log 3).
-/

namespace Sys2Proof.Machine

open Sys2Proof

/-! The word at the program counter. -/

/-- The enabled lanes of a word of formats V, VI and M, read from its guard field (R66); for other words the strand's. -/
def Cur.wordLanes (c : Cur) (w : W64) : Mask :=
  let op := field w.toNat 63 56
  if (0x20 ≤ op ∧ op ≤ 0x37) ∨ (0x50 ≤ op ∧ op ≤ 0x55) ∨ (0x60 ≤ op ∧ op ≤ 0x63) ∨ op = 0x71 then
    c.enabled (guardOf (fld w 7 4) (fld w 6 1))
  else c.em

/-- What a word that is no instruction does at its slot (R70, R71): ILLEGAL_INSTR, or ILLEGAL_REG where its register fields
alone are wrong. -/
def Cur.badWord (c : Cur) (e : DecodeErr) (w : W64) : Stop :=
  let slot := (isControlWord w && !(c.t.core.isLast)) || (wordCf w != .none && hdrFlag c.t.core.hword (wordCf w) == none)
  match e with
  | .illegalInstr => .trap .illegalInstr 0 w.toNat none
  | .illegalReg =>
    if slot then .trap .illegalInstr 0 w.toNat none else .trap .illegalReg 0 w.toNat (some (c.wordLanes w))

/-- What a strand does at its program counter. -/
inductive Act where
  /-- An instruction, a pair or a clause header. -/
  | run (i : Instr)
  /-- A word that cannot be fetched, or that names no instruction. -/
  | stop (st : Stop)
  /-- Nothing: the strand may not issue. -/
  | idle

noncomputable section

/-- The strand with nothing but the word `n` words on before it, which stands alone in its clause. -/
def Strand.alone (n : Nat) (t : Strand) : Strand :=
  { t with core := { t.core with pc := t.core.pc + BitVec.ofNat 64 (8 * n), hword := t.core.hword &&& 0xFFFFFFF0003FFFFF,
                                 trap := TrapRegs.zero },
           chunk := Chunk.none, earlier := [], wait := .none, pends := [], poisoned := false, residue := none,
           failed := none }

/-- ILLEGAL_INSTR or ILLEGAL_REG, which a word meets whatever its pair (R71): what the instruction traps with when it stands
alone, with a handler that runs. -/
def State.wordCause (s : State) (c : Cur) (n : Nat) (i : Instr) : Option Stop :=
  let s := { s with focus := some c.ref }.modCrew c.ref.w.crew (fun k =>
    { k with launch := { k.launch with handler := c.t.core.hdr } })
  match exec i (s.modStrand c.ref (Strand.alone n)) with
  | .next s' =>
    match (s'.strand? c.ref).map (·.core.trap) with
    | some k =>
      if k.h && k.cause == 0x01 then some (.trap .illegalInstr k.addr.toNat k.extra.toNat (some k.lanes))
      else if k.h && k.cause == 0x02 then some (.trap .illegalReg k.addr.toNat k.extra.toNat (some k.lanes))
      else none
    | none => none
  | _ => none

/-- What a strand does at a pair (R64, R71): the encoding checks of the first word, then of the second, then the pair. -/
def State.pairAct (s : State) (c : Cur) (i : Instr) : Act :=
  match s.wordCause c 0 i with
  | some _ => .run i
  | none =>
    match s.fetchWord c.ctx (c.t.core.pc + 8) with
    | .error st => .stop st
    | .ok w =>
      match decodeWord w with
      | .error e => .stop ((c.mapT (Strand.alone 1)).badWord e w)
      | .ok j =>
        match s.wordCause c 1 j with
        | some st => .stop st
        | none =>
          match PairOp.of? i, PairOp.of? j with
          | some a, some b => .run (.pairIssue a b)
          | _, _ => .run i

/-- The instruction that a word at the program counter gives, with the second word of a pair. -/
def State.actOf (s : State) (c : Cur) (w : W64) : Act :=
  match decodeWord w with
  | .error e => .stop (c.badWord e w)
  | .ok i => if c.t.core.beginsPair then s.pairAct c i else .run i

/-- What the strand does next: it applies its clause header (R53) or issues the word at its program counter. -/
def State.act (s : State) (c : Cur) : Act :=
  if s.mayIssue c true then .run .clauseStart
  else if !(s.mayIssue c false) then .idle
  else match s.fetchWord c.ctx c.t.core.pc with
    | .error st => .stop st
    | .ok w => s.actOf c w

/-- The translation that a fetch used is cached (R297). -/
def State.fetched (s : State) (ctx : Nat) (a : W64) : State :=
  match s.translate ctx a.toNat XReq.load with
  | .ok l => s.fill ctx a.toNat l
  | .error _ => s

/-- The strand takes its step. -/
def State.runStrand (s : State) (r : StrandRef) : Out :=
  let s := { s with focus := some r }
  match s.curOf r with
  | none => .next s
  | some c =>
    match s.act c with
    | .run i => exec i (s.fetched c.ctx (if c.t.core.inClause then c.t.core.pc else c.t.core.hdr))
    | .stop st => .next (s.stop c c.em c.t.core.pc st)
    | .idle => .next s

/-! Moves. -/

/-- Instructions of the stream, which only a strand performs from its memory. -/
def Instr.ofStream (i : Instr) : Bool :=
  (encode i).isSome || (match i with
    | .clauseStart | .pairIssue _ _ => true
    | _ => false)

/-- The command in a function's slot is taken (R425). -/
def State.acceptCmd (s : State) (func : Nat) : Out :=
  match (s.func? func).bind (·.slot) with
  | none => .next s
  | some bs => exec (decodeCommand func bs) { s with funcs := modAt s.funcs func (fun f => { f with slot := none }) }

/-- Perform a move. -/
def State.doMove (s : State) : Move → Out
  | .issue r => s.runStrand r
  | .event i => if Instr.ofStream i then .next s else exec i s
  | .post func k bs => .next (s.postCmd func k bs)
  | .accept func => s.acceptCmd func
  | .hostLine func => .next (s.hostLine func)
  | .unblock ctx => .next (s.unblock ctx)
  | .evict core line ws => .next { s with caches := s.caches.evict core line ws }

/-! The moves that come by themselves. -/

/-- The step that an unplaced chunk of a strand is due to take: its commit, or its offer. -/
def Strand.chunkEvent (r : StrandRef) (t : Strand) : Option Instr :=
  let ns := List.range t.unplaced.length
  match ns.find? t.placeable with
  | some n => some (.chunkCommit ⟨r, n⟩)
  | none => (ns.find? t.offerable).map (fun n => .chunkOffer ⟨r, n⟩)

/-- The step that a strand's wait is due to take. -/
def State.waitEvent (s : State) (r : StrandRef) (c : Cur) : Option Instr :=
  let clear := fun (i : Instr) => if c.t.clear then some i else none
  match c.t.wait with
  | .split _ _ _ _ => some (.dbrSplit r)
  | .arriving false => some (.joinArrive r)
  | .arriving true => if c.warp.mayArrive r.strand c.t then some (.joinArrive r) else none
  | .sing _ | .amov _ _ _ _ | .exiting => clear (.singletonEvent r)
  | .wsplit _ _ _ => clear (.warpSplit r)
  | .fusing _ => if c.warp.isHigh then none else some (.warpFusion r.w { r.w with warp := c.warp.sibId })
  | .trap _ => clear (.trapEntry r)
  | .faulting _ => clear (.faultPark r)
  | .sv _ _ _ _ _ => some (.svwaitWake r)
  | .wc _ _ _ (some _) => some (.wcwaitWake r)
  | .bw o _ => (match c.batchArg o.sa with
      | .ok n => if c.incomplete n then none else some (.bwaitWake r)
      | .error _ => none)
  | .xf id => if s.fenceOpen id then some (.xfenceResume r) else none
  | _ => none

/-- The step that a strand's flags, chunks or wait are due to take. -/
def State.strandEvent (s : State) (r : StrandRef) (c : Cur) : Option Instr :=
  let t := c.t
  match t.pends with
  | p :: _ => some (.flaggedCompletion r (Fin.ofNat 12 p.flag))
  | [] =>
    if t.atLimit then some (.chlimReached r)
    else match t.chunkEvent r with
      | some i => some i
      | none => if t.chunk.st == .pinWait then some (.pinGrant (s.dieOfRef r)) else s.waitEvent r c

/-- The strand is ready to issue (R157). -/
def State.ready (s : State) (r : StrandRef) : Bool :=
  match s.curOf r with
  | none => false
  | some c => (s.strandEvent r c).isNone && (s.mayIssue c true || s.mayIssue c false)

/-- Strand `x` comes before strand `y` of its warp (R157): more lanes in EM, then the lower PC, then the lower index. -/
def Warp.before (w : Warp) (x y : Nat) : Bool :=
  match w.strand? x, w.strand? y with
  | some a, some b =>
    let n := popMask w.width a.core.em
    let m := popMask w.width b.core.em
    decide (m < n) || (n == m && (decide (a.core.pc.toNat < b.core.pc.toNat) || (a.core.pc == b.core.pc && decide (x < y))))
  | _, _ => false

/-- The strand lets a ready strand of its warp go first (R157), but for the issue bound. -/
def State.yields (s : State) (r : StrandRef) (w : Warp) : Bool :=
  !(Config.issueDue s.free) && (List.range 4).any (fun k => w.before k r.strand && s.ready { r with strand := k })

/-- The move of a strand: its own step, or an issue; none where it can only wait. -/
def State.strandMove (s : State) (r : StrandRef) : Option Move :=
  match s.curOf r with
  | none => none
  | some c =>
    if !((s.ctx c.ctx).st.runs && c.crew.live) then none
    else match s.strandEvent r c with
      | some i => some (.event i)
      | none => if s.ready r && !(s.yields r c.warp) then some (.issue r) else none

/-- Quadrants of a sector, in order of core. -/
def quadsOf (sector : Nat) (p : Nat → Bool) : List (Nat × Nat) :=
  ((List.range 768).filter (fun c => bitAt sector c && p c)).flatMap (fun c => (List.range 4).map (fun q => (c, q)))

/-- Quadrants for crews of a voyage, the first that has room for each in turn; none unless all find one. -/
def State.findPlaces (ctx : Nat) (v : Voyage) (qs : List (Nat × Nat)) : List Nat → State → Option (List (Nat × Nat))
  | [], _ => some []
  | c :: cs, s =>
    match qs.findSome? (fun q => (s.placeCrew ctx v c q.1 q.2).map (fun s' => (q, s'))) with
    | none => none
    | some (q, s') => (State.findPlaces ctx v qs cs s').map (q :: ·)

/-- The placing of what is due of a voyage. -/
def State.placeMove (s : State) (ctx : Nat) (v : Voyage) : Option Move :=
  let sector := (s.ctx ctx).sector
  match s.dueCrews ctx v with
  | [] => none
  | cs =>
    let sets := if v.launch.persistent then [quadsOf sector (fun _ => true)]
      else (List.range 8).map (fun d => quadsOf sector (fun c => dieOf c == d))
    (sets.findSome? (fun qs => s.findPlaces ctx v qs cs)).map (fun ps => .event (.convoyPlace ctx v.num ps))

/-- The restore of a saved crew. -/
def State.restoreMove (s : State) (c : Crew) : Option Move :=
  let sector := (s.ctx c.ref.ctx).sector
  let cores : Nat → Bool := match c.run with | .locker k => fun x => x == k | _ => fun _ => true
  match c.run with
  | .locker _ | .memory =>
    ((quadsOf sector cores).find? (fun q => (s.roomOn c.ref.ctx q.1 q.2 c.launch).isSome)).map
      (fun q => .event (.crewRestore ⟨c.ref, []⟩ q.1 q.2))
  | _ => none

/-- What lodestar does for a context. -/
def State.ctxMove (s : State) (c : Ctx) : Option Move :=
  let run := c.st == .active && c.suspending.isNone
  let takes := c.mayTake && (match c.take, c.queue? 0 with
    | some t, _ => t.fault == 0 && !t.ring
    | none, some x => x.hasItem
    | none, none => false)
  if takes then some (.event (.launchTake c.num))
  else match (if run then c.voyages.findSome? (s.placeMove c.num) else none) with
    | some m => some m
    | none =>
      match (if run then (s.crews.filter (fun x => x.ref.ctx == c.num)).findSome? s.restoreMove else none) with
      | some m => some m
      | none =>
        match c.queues.find? (fun q => s.waiterDue c.num q.1) with
        | some q => some (.event (.deqWake c.num q.1))
        | none =>
          if !c.store.isEmpty && s.roomIn c.num 1 then some (.event (.eventStorePost c.num))
          else if c.faults.any (fun f => !f.posted) && s.canPost c.num 2 then some (.event (.faultRecordPost c.num))
          else match c.windows.find? (fun w => w.closing && s.cmds.all (fun x =>
              !(x.ctx == c.num && x.kind.win? == some w.id && !x.finished))) with
            | some w => some (.event (.winCloseDone c.num w.id))
            | none => if c.st == .destroyed && s.scrubbed c.num then some (.event (.ctxScrubDone c.num)) else none

/-- What lodestar does for a crew. -/
def State.crewMove (s : State) (c : Crew) : Option Move :=
  match c.run with
  | .halting _ => some (.event (.quadrantHaltDone c.ref))
  | .saving => some (.event (.crewSaveDone c.ref))
  | .placed | .draining =>
    if c.allExited && (c.allComplete || c.run == .draining) then some (.event (.crewRetire c.ref))
    else (c.warps.find? (fun w => match w.batches with | b :: _ => s.batchDone b | [] => false)).map
      (fun w => .event (.batchComplete { crew := c.ref, warp := w.id }))
  | _ =>
    (c.warps.find? (fun w => match w.batches with | b :: _ => s.batchDone b | [] => false)).map
      (fun w => .event (.batchComplete { crew := c.ref, warp := w.id }))

/-- The next access of an engine. -/
def State.cmdMove (s : State) (c : Cmd) : Option Move :=
  let here := match c.kind with
    | .get _ _ _ _ => fun k => c.buf.any (fun b => b.1 == k)
    | .copy _ _ => fun _ => (s.crew? c.crew).isSome
    | _ => fun _ => true
  if c.accessed || c.stall.isSome || s.fenced c.after then none
  else ((List.range c.kind.units).find? (fun k => s.unitReady c k && here k)).map (fun k => .event (.engineAccess c.id k))

/-- The next step of the device. -/
def State.deviceMove (s : State) : Option Move :=
  let s' := s.pruneFlushed
  match s'.ctxs.findSome? s'.ctxMove with
  | some m => some m
  | none =>
    match s.crews.findSome? s.crewMove with
    | some m => some m
    | none =>
      match (List.range s.invals.length).find? (fun k => match s.invals[k]? with
          | some i => s.invalReady i
          | none => false) with
      | some k => some (.event (.tlbInvalDone k))
      | none =>
        match (List.range 12).find? (fun i => ((s.link? i).map (fun l => !l.quiesce.isEmpty)) == some true && !(s.inFlight i)) with
        | some i => some (.event (.linkQuiesceDone i))
        | none =>
          match s.cmds.findSome? s.cmdMove with
          | some m => some m
          | none =>
            match s.hostw.find? (fun h => !(s.lineBlocked h)) with
            | some h => some (.hostLine h.func)
            | none =>
              match s.ctxs.find? (fun c => s.unblockDue c.num) with
              | some c => some (.unblock c.num)
              | none => ((List.range s.funcs.length).find? (fun i => ((s.func? i).bind (·.slot)).isSome)).map (.accept ·)

/-- The first strand of a list with a move. -/
def State.firstMove (s : State) (rs : List StrandRef) : Option (StrandRef × Move) :=
  rs.findSome? (fun r => (s.strandMove r).map (fun m => (r, m)))

/-- The strands behind the one in focus. -/
def State.behind (s : State) : List StrandRef :=
  match s.focus with
  | none => s.refs
  | some r => match indexOf? (fun x => x == r) s.refs with
    | some i => s.refs.drop (i + 1)
    | none => s.refs

/-- The move that comes next by itself, with the focus it leaves: each strand in turn, then the device, and round again. -/
def State.autoMove (s : State) : Option (Option StrandRef × Move) :=
  match s.firstMove s.behind with
  | some (r, m) => some (some r, m)
  | none =>
    match s.deviceMove with
    | some m => some (none, m)
    | none => (s.firstMove s.refs).map (fun x => (some x.1, x.2))

/-- Time passes with each step, and the cycle counter of each core goes on (log 14). -/
def State.tick (s : State) : State :=
  { s with ns := s.ns + Config.elapsedNs s.free, cycle := s.cycle + BitVec.ofNat 64 (Config.elapsedCycles s.free),
           clks := s.clks.zipIdx.map (fun x => x.1 + BitVec.ofNat 64 (Config.coreCycles s.free x.2)), free := s.free + 1 }

/-- What a step goes on to, changed by `f`. -/
def Out.after (o : Out) (f : State → State) : Out :=
  match o with
  | .next s => .next (f s)
  | o => o

/-- A move is made; PINNED chunks that it has ended are placed at once (R187, R199). -/
def State.move (s : State) (m : Move) : Out := (s.doMove m).after State.commitPinned

/-- The scheduled move, else the one that comes by itself, else nothing but time. -/
def State.nextMove (s : State) : Out :=
  match s.agenda with
  | m :: rest => { s with agenda := rest }.move m
  | [] =>
    match s.autoMove with
    | some (f, m) => { s with focus := f }.move m
    | none => .next s

/-! A word placed where the next step takes it. -/

/-- The strand, its context, its code and its handler. -/
def probeRef : StrandRef := { w := { crew := { ctx := 0, voy := 1, crew := 0 }, warp := 0 }, strand := 0 }

/-- A launch record with every register, a tile file and all of crew memory. -/
def probeLaunch : LaunchRec :=
  { code := 0x10000, handler := 0x20000, data := 0, width := 32, regs8 := 32, globals := 64, persistent := false,
    restartable := false, drainValid := false, tiles := 256, warps := 1, crewmem := 131072, chunk := 256, convoy := 1,
    crews := 1, drain := 0, heapx := 16, spill := 0x100000, spillb := 65536, heap := 0x200000 }

/-- A header of one word that names both flags: N 1, SETA F0, SETB F1 (Table 3.1). -/
def probeHeader : W64 := 0xF100001000000000

/-- Tables that map the first GiB onto itself, the handler's clause, and the code. -/
def probeCells (m : List Host.Cell) (at' : Nat) (w : W64) : List Host.Cell :=
  let put := fun m a (x : Nat) => cellsPut m a (bytesOf 8 x)
  let m := put (put (put m 0x1000 0x2001) 0x2000 0x3001) 0x3000 0x1F
  let m := put (put m 0x20000 probeHeader.toNat) 0x20008 0
  put (put m 0x10000 probeHeader.toNat) at' w.toNat

/-- The strand in its clause, or about to enter it where the word is a header. -/
def probeCrew (now : Nat) (w : W64) : Crew :=
  let c := startCrew probeRef.w.crew probeLaunch 0 0 0 now [0]
  let enter := fun (t : Strand) => if isHeader w then t
    else { t with core := { t.core with pc := 0x10008, hword := probeHeader, inClause := true } }
  { c with warps := c.warps.map (fun x => { x with strands := x.strands.map (Option.map enter) }) }

/-- A context whose one voyage runs that crew. -/
def probeCtx : Ctx :=
  { Ctx.empty 0 with
    st := .active, sector := 1, root := 0x1000, nextVoy := 2,
    voyages := [{ num := 1, recAddr := 0, launch := probeLaunch, arg := 0, st := .running, placed := 1, again := [],
                  exited := 0, retired := 0, isPartial := false, heap := List.replicate 8 0 }] }

/-- A word of the stream in the memory of a fresh strand whose issue comes next. -/
def State.withWord (s : State) (w : W64) : State :=
  { (s.modCtx 0 (fun _ => probeCtx)) with
    mem := probeCells s.mem (if isHeader w then 0x10000 else 0x10008) w,
    tlb := s.tlb.filter (fun e => e.ctx != 0), walks := s.walks.filter (fun e => e.ctx != 0),
    crews := probeCrew s.ns w :: s.crews.filter (fun c => c.ref != probeRef.w.crew),
    agenda := [.issue probeRef] }

/-- A command in the mailbox of the physical function, to be taken next. -/
def State.withCommand (s : State) (bs : List Byte) : State :=
  { s with funcs := modAt s.funcs 0 (fun f => { f with slot := some bs }), agenda := [.accept 0] }

end

end Sys2Proof.Machine
end

