-- ==== Sys2Proof/Machine/Step.lean ====
section
/-!
DEFINITION. One step of the package.
-/

namespace Sys2Proof.Machine

open Sys2Proof

noncomputable section

/-- One step: time passes, and the scheduled move, or the one that comes next by itself, is made (log 3). -/
def step (s : State) : Host.Outcome State Fault Refusal := s.tick.nextMove

/-- The state whose next step runs the given word or command. -/
def State.withFetchWord (s : State) (nbits w : Nat) : State :=
  if 64 < nbits then s.withCommand (bytesOf 64 (w % 2 ^ nbits)) else s.withWord (BitVec.ofNat 64 (w % 2 ^ nbits))

end

end Sys2Proof.Machine
end

