-- ==== Sys2Proof/Safety.lean ====
section
/-!
DEFINITION. The terms in which claims are made: a safe step, when a strand's instruction can issue, what an issued instruction
may change, and the invariants of the package.
-/

namespace Sys2Proof.Machine

open Sys2Proof

/-- A step that goes on. -/
def Safe (s : State) : Prop := ∃ s', step s = .next s'

/-! The registers of a strand. -/

/-- Every register that an instruction of a strand can read or write (Tables 6.2 and 8.1), the program counter apart. -/
structure Regs where
  s      : List W64
  k      : List Cursor
  l      : Mask
  em     : Mask
  hm     : Mask
  acr    : BitVec 10
  chlim  : Nat
  batchn : W32
  winb   : Nat
  calls  : List CallRec
  trap   : TrapRegs
  wtags  : List (Nat × Tag)
  vregs  : List VecReg
  gregs  : List VecReg
  preds  : List Mask
  tiles  : List Tile
  deriving DecidableEq, Repr

/-- The registers as the strand sees them. -/
def Cur.regs (c : Cur) : Regs :=
  let x := c.t.core
  { s := x.s, k := x.k, l := x.l, em := x.em, hm := x.hm, acr := x.acr, chlim := x.chlim, batchn := x.batchn, winb := x.winb,
    calls := x.calls, trap := x.trap, wtags := x.wtags, vregs := c.warp.vregs, gregs := c.warp.gregs, preds := c.warp.preds,
    tiles := c.warp.tiles }

/-- Where a strand stands: its program counter, the clause header that governs it, and whether that header is applied. -/
structure Place where
  pc       : W64
  hdr      : W64
  inClause : Bool
  deriving DecidableEq, Repr

def Cur.place (c : Cur) : Place := { pc := c.t.core.pc, hdr := c.t.core.hdr, inClause := c.t.core.inClause }

/-- At a clause header that is still to be applied. -/
def Place.header (a : W64) : Place := { pc := a, hdr := a, inClause := false }

/-- Where a strand stands behind `n` words: in its clause, or at the header behind it (R53). -/
def Cur.behind (c : Cur) (n : Nat) : Place :=
  let a := c.t.core.pc + BitVec.ofNat 64 (8 * n)
  if a = c.base then .header a else { pc := a, hdr := c.t.core.hdr, inClause := c.t.core.inClause }

/-! When an instruction issues. -/

/-- The strand in focus can issue an instruction of `n` words (0 for a control transfer) with flag field `cf`: nothing that
the clause, an error or an answered fault asks for stands before it (R54, R60, R64, R109, R296, R354). -/
structure Issuable (s : State) (c : Cur) (n : Nat) (cf : Cf) : Prop where
  focus : s.cur? = some c
  may   : s.mayIssue c false = true
  sound : c.t.poisoned = false
  whole : c.t.residue = none
  going : c.t.failed = none
  last  : n = 0 → c.t.core.isLast = true
  flag  : cf ≠ .none → (hdrFlag c.t.core.hword cf).isSome = true
  pair  : c.t.core.beginsPair = (n == 2)

/-- So it can, and no flagged instruction of the strand is still to complete (R61, R62). -/
structure Ready (s : State) (c : Cur) (n : Nat) (cf : Cf) : Prop extends Issuable s c n cf where
  calm : c.t.pends = []

/-- The chunk has room for the instruction that leads from `c` to `d`: none is open, or what R191 guarantees holds it. -/
def Room (c d : Cur) : Prop := c.t.chunk.st ≠ .opened ∨ (d.beyond = false ∧ d.tilesWritten ≤ 8)

/-- The strand is outside any chunk, as a singleton's event finds it (R192). -/
def Alone (c : Cur) : Prop := c.t.chunk.st = .idle ∧ c.t.earlier = []

/-! What an issued instruction changes. -/

/-- `t` is `s` but for the strand, warp and crew of `c`, which `e` shows in `t`: every other strand, warp and crew, memory,
queues, contexts, engines, links and clocks are as before (cached translations, the contents of the caches and the free-value
counter apart). -/
structure Elsewhere (s t : State) (c e : Cur) : Prop where
  here    : t.curOf c.ref = some e
  package : t = { s with crews := t.crews, tlb := t.tlb, walks := t.walks, caches := t.caches, free := s.free + 1 }
  crews   : ∀ r, r ≠ c.ref.w.crew → t.crew? r = s.crew? r
  crew    : e.crew = { c.crew with warps := e.crew.warps }
  warps   : ∀ i, i ≠ c.ref.w.warp → e.crew.warp? i = c.crew.warp? i
  warp    : e.warp = { c.warp with vregs := e.warp.vregs, gregs := e.warp.gregs, preds := e.warp.preds,
                                   tiles := e.warp.tiles, strands := e.warp.strands }
  strands : ∀ k, k ≠ c.ref.strand → e.warp.strand? k = c.warp.strand? k

/-- The strand has issued one instruction in its chunk, which was open or opened with it (R187, R190): it is ready again, and
only the flag that the instruction names is set (R61). -/
structure Issued (c e : Cur) (n : Nat) (cf : Cf) : Prop where
  count  : e.t.chunk.count = (if c.t.chunk.st = .opened then c.t.chunk.count else 0) + Nat.max 1 n
  before : e.t.earlier = (if c.t.chunk.st = .ended ∨ c.t.chunk.st = .ordering then c.t.earlier ++ [c.t.chunk] else c.t.earlier)
  wait   : e.t.wait = .none
  flags  : e.t.pends.map (·.flag) = (hdrFlag c.t.core.hword cf).toList
  sqcnt  : e.t.sqcnt = c.t.sqcnt
  header : e.t.core.hword = c.t.core.hword

/-- The chunk that the instruction belongs to holds the bytes that it held as it was opened or stood open: the instruction
stores nothing. -/
structure StoresNothing (c e : Cur) : Prop where
  global : e.t.chunk.gw = c.openChunk.t.chunk.gw
  crew   : e.t.chunk.cw = c.openChunk.t.chunk.cw
  gone   : e.t.chunk.disc = c.openChunk.t.chunk.disc
  bars   : e.t.chunk.bars = c.openChunk.t.chunk.bars
  closes : e.t.chunk.closes = c.openChunk.t.chunk.closes

/-- Nothing has been fetched into a cache, of memory or of translations. -/
structure SameCaches (s t : State) : Prop where
  pages : t.tlb = s.tlb
  walks : t.walks = s.walks
  data  : t.caches = s.caches

/-- The instruction completes: its strand's registers become those of `d`, and nothing else of the package changes but the
strand's place in its code, its flags and its chunk's count and shadows. -/
def Computes (s : State) (c : Cur) (i : Instr) (n : Nat) (cf : Cf) (d : Cur) : Prop :=
  ∃ t e, exec i s = .next t ∧ Elsewhere s t c e ∧ SameCaches s t ∧ Issued c e n cf ∧ e.t.chunk.st = .opened ∧
    StoresNothing c e ∧ e.place = c.behind n ∧ e.regs = d.regs

/-- As `Computes`, for an instruction after which the strand stands at `p`, its chunk ended or still open. -/
def Transfers (s : State) (c : Cur) (i : Instr) (p : Place) (ended : Bool) (d : Cur) : Prop :=
  ∃ t e, exec i s = .next t ∧ Elsewhere s t c e ∧ SameCaches s t ∧ Issued c e 0 .none ∧
    e.t.chunk.st = (if ended then .ended else .opened) ∧ StoresNothing c e ∧ e.place = p ∧ e.regs = d.regs

/-- An instruction that reads memory completes: as `Computes`, but that translations and memory are cached. -/
def Loads (s : State) (c : Cur) (i : Instr) (cf : Cf) (d : Cur) : Prop :=
  ∃ t e, exec i s = .next t ∧ Elsewhere s t c e ∧ Issued c e 1 cf ∧ e.t.chunk.st = .opened ∧ StoresNothing c e ∧
    e.place = c.behind 1 ∧ e.regs = d.regs

/-- The bytes of physical memory and of crew memory that the strand sees, in two states: equal but at the addresses stored to
(`g` global, `w` crew memory) and in discarded words, whose values the spec leaves open (R221). -/
structure SeesBut (s t : State) (c e : Cur) (g w : Nat → Prop) : Prop where
  global : ∀ pa, ¬ g pa → (∀ ch ∈ c.newest, ch.disc.contains (pa / 4) = false) → s.dead.contains (pa / 4) = false →
    e.gByte t pa = c.gByte s pa
  crew   : ∀ off, ¬ w off → e.cByte off = c.cByte off

/-- An instruction that stores completes: the registers are those of `d`, the strand sees the bytes `gb` (physical address,
byte) and `cb` (offset in crew memory, byte) where it stored them, and every other byte as before. -/
def Stores (s : State) (c : Cur) (i : Instr) (cf : Cf) (d : Cur) (gb cb : List Host.Cell) : Prop :=
  ∃ t e, exec i s = .next t ∧ Elsewhere s t c e ∧ Issued c e 1 cf ∧ e.t.chunk.st = .opened ∧ e.place = c.behind 1 ∧
    e.regs = d.regs ∧ (∀ x ∈ gb, e.gByte t x.1 = x.2) ∧ (∀ x ∈ cb, e.cByte x.1 = x.2) ∧
    SeesBut s t c e (fun pa => pa ∈ gb.map (·.1)) (fun off => off ∈ cb.map (·.1))

/-- The instruction meets a condition that stops it (a trap, a replayable fault, the end of its chunk): what follows is that
of `State.stop`, in the lanes `lanes`, at its own address. -/
def Meets (s : State) (c : Cur) (i : Instr) (lanes : Mask) (st : Stop) : Prop :=
  exec i s = .next (s.stop c lanes c.t.core.pc st)

/-! Singletons (R192). -/

/-- A singleton's event has been performed by a strand outside any chunk: it stands behind the instruction, ready, with the
registers of `d`. -/
structure Performed (t : State) (c e : Cur) (d : Cur) : Prop where
  here  : t.curOf c.ref = some e
  chunk : e.t.chunk = Chunk.none
  wait  : e.t.wait = .none
  place : e.place = c.behind 1
  regs  : e.regs = d.regs

/-! Invariants. -/

/-- Physical memory and every crew's memory are in canonical form. -/
def State.memWf (s : State) : Bool := Memory.wf s.mem && s.crews.all (fun c => Memory.wf c.mem)

/-- EM and HM are subsets of L (R144). -/
def StrandCore.masksOk (x : StrandCore) : Bool := x.em &&& ~~~x.l == 0 && x.hm &&& ~~~x.l == 0

def Strand.masksOk (t : Strand) : Bool :=
  t.core.masksOk && (t.earlier ++ [t.chunk]).all (fun ch => match ch.snap with | some x => x.masksOk | none => true)

/-- So of every strand of a warp, and of every strand that the undoing of a merge brings back (R153). -/
def Warp.masksOk (w : Warp) : Bool :=
  w.strands.all (fun x => match x with | some t => t.masksOk | none => true) &&
    w.merges.all (fun m => m.members.all (fun x => x.2.masksOk))

def State.masksOk (s : State) : Bool := s.crews.all (fun c => c.warps.all Warp.masksOk)

end Sys2Proof.Machine
end

