-- ==== Sys2Proof/Certificates/Slice0/Obligations.lean ====
section
/-!
DEFINITION. The statements for the provers, and the rules of the specification written out as functions and tables that they
speak of.
-/

noncomputable section

namespace Sys2Proof.Rules

open Sys2Proof Sys2Proof.Machine

/-! ## Scalar instructions (R226 to R229) -/

/-- The scalar written and the value, for an instruction that reads `s(sa)` and X. -/
def Scalar2 (mk : SAluOps → Instr) (f : W64 → W64 → W64) : Prop :=
  ∀ (s : State) (c : Cur) (o : SAluOps), Ready s c 1 .none → Room c c →
    Computes s c (mk o) 1 .none (c.setS o.sd (f (c.sr o.sa) (c.src o.x)))

/-- The amount of a scalar shift: bits [5:0] of X. -/
def amount (x : W64) : Nat := (x.extractLsb' 0 6).toNat

/-- Table 12.2, in the arithmetic of the integers where it speaks of signed or exact values. -/
def saluTable : List ((SAluOps → Instr) × (W64 → W64 → W64)) :=
  [(.sadd, fun a x => BitVec.ofNat 64 (a.toNat + x.toNat)),
   (.ssub, fun a x => BitVec.ofInt 64 (a.toInt - x.toInt)),
   (.sand, fun a x => a &&& x), (.sor, fun a x => a ||| x), (.sxor, fun a x => a ^^^ x),
   (.sshl, fun a x => BitVec.ofNat 64 (a.toNat * 2 ^ amount x)),
   (.sshr, fun a x => BitVec.ofNat 64 (a.toNat / 2 ^ amount x)),
   (.ssra, fun a x => BitVec.ofInt 64 (a.toInt / 2 ^ amount x)),
   (.smin, fun a x => if a.toInt ≤ x.toInt then a else x), (.smax, fun a x => if x.toInt ≤ a.toInt then a else x),
   (.sminu, fun a x => if a.toNat ≤ x.toNat then a else x), (.smaxu, fun a x => if x.toNat ≤ a.toNat then a else x),
   (.smul, fun a x => BitVec.ofInt 64 (a.toInt * x.toInt)),
   (.smulh, fun a x => BitVec.ofInt 64 (a.toInt * x.toInt / 2 ^ 64)),
   (.smulhu, fun a x => BitVec.ofNat 64 (a.toNat * x.toNat / 2 ^ 64)),
   (.sandn, fun a x => a &&& ~~~x)]

/-- 1 where a condition holds. -/
def one (p : Prop) [Decidable p] : W64 := if p then 1 else 0

/-- The conditions of R228. -/
def scmpTable : List ((SAluOps → Instr) × (W64 → W64 → W64)) :=
  [(.scmpEq, fun a x => one (a = x)), (.scmpNe, fun a x => one (a ≠ x)),
   (.scmpLt, fun a x => one (a.toInt < x.toInt)), (.scmpLe, fun a x => one (a.toInt ≤ x.toInt)),
   (.scmpGt, fun a x => one (a.toInt > x.toInt)), (.scmpGe, fun a x => one (a.toInt ≥ x.toInt)),
   (.scmpLtu, fun a x => one (a.toNat < x.toNat)), (.scmpLeu, fun a x => one (a.toNat ≤ x.toNat)),
   (.scmpGtu, fun a x => one (a.toNat > x.toNat)), (.scmpGeu, fun a x => one (a.toNat ≥ x.toNat))]

/-- The bit counts and the reversal of R229. -/
def sbitTable : List ((SUnOps → Instr) × (W64 → W64)) :=
  [(.spopc, fun a => a.cpop), (.sclz, fun a => a.clz), (.sctz, fun a => a.ctz), (.srev, fun a => a.reverse)]

/-- The control word F of SBFE and SBFI: s(sb)[13:0] or imm32[13:0]. -/
def control (c : Cur) : BfSrc → BitVec 14
  | .reg b => (c.sr b).extractLsb' 0 14
  | .imm f => f

def posOf (f : BitVec 14) : Nat := (f.extractLsb' 0 6).toNat
def lenOf (f : BitVec 14) : Nat := (f.extractLsb' 6 7).toNat
def signOf (f : BitVec 14) : Bool := f.getLsbD 13

/-- A field that lies within 64 bits. -/
def FieldOk (f : BitVec 14) : Prop := 0 < lenOf f ∧ lenOf f ≤ 64 ∧ posOf f + lenOf f ≤ 64

/-- SBFE's result. -/
def extracted (a : W64) (f : BitVec 14) : W64 :=
  if signOf f then (a.extractLsb' (posOf f) (lenOf f)).signExtend 64 else (a.extractLsb' (posOf f) (lenOf f)).setWidth 64

/-- `r` is `x` with bits [pos+len-1 : pos] replaced by bits [len-1 : 0] of `y`. -/
def Inserted {n : Nat} (r x y : BitVec n) (pos len : Nat) : Prop :=
  ∀ k, k < n → r.getLsbD k = if pos ≤ k ∧ k < pos + len then y.getLsbD (k - pos) else x.getLsbD k

/-! ## Vector registers, elements and integer instructions (R230 to R238) -/

/-- A source register in its frame that an instruction may read: not POISON, and of a tag that it accepts (R32, R34, R67). -/
structure Source (c : Cur) (r : VReg) (ok : Tag → Bool) : Prop where
  inFrame : c.regOk r = true
  clean   : (c.vr r).tag ≠ .poison
  accepted : ok (c.vr r).tag = true

/-- Lane `l` of a source. -/
def lane (c : Cur) (r : VReg) (l : Nat) : W32 := (c.vr r).lane l

/-- Any tag but POISON. -/
def anyTag (_ : Tag) : Bool := true

/-- Element `k` of a lane of type `t` (R22). -/
def elem (t : Tag) (k : Nat) (x : W32) : BitVec t.bits := x.extractLsb' (t.bits * k) t.bits

/-- An element as the type's signedness reads it (R33, R231). -/
def num {n : Nat} (signed : Bool) (x : BitVec n) : Int := if signed then x.toInt else x.toNat

/-- Signed types (R231). -/
def signedType (t : Tag) : Bool := t ∈ [Tag.i32, .i8x4, .i4x8, .i16x2]

/-- The nearest integer of the range of `n` bits (R50). -/
def nearest (n : Nat) (signed : Bool) (x : Int) : Int :=
  if signed then max (-2 ^ (n - 1)) (min (2 ^ (n - 1) - 1) x) else max 0 (min (2 ^ n - 1) x)

/-- A function of two elements of `n` bits, which may depend on signedness. -/
abbrev ElemFn := (n : Nat) → Bool → BitVec n → BitVec n → BitVec n

/-- Table 12.5 without its bitwise functions, register and immediate forms. -/
def valuTable : List ((VOps → Instr) × (VIOps → Instr) × ElemFn) :=
  [(.vadd, .vaddImm, fun n g a b => BitVec.ofInt n (num g a + num g b)),
   (.vsub, .vsubImm, fun n g a b => BitVec.ofInt n (num g a - num g b)),
   (.vshl, .vshlImm, fun n _ a b => BitVec.ofNat n (a.toNat * 2 ^ (b.toNat % n))),
   (.vshr, .vshrImm, fun n _ a b => BitVec.ofNat n (a.toNat / 2 ^ (b.toNat % n))),
   (.vsra, .vsraImm, fun n _ a b => BitVec.ofInt n (a.toInt / 2 ^ (b.toNat % n))),
   (.vmin, .vminImm, fun _ g a b => if num g a ≤ num g b then a else b),
   (.vmax, .vmaxImm, fun _ g a b => if num g b ≤ num g a then a else b),
   (.vmul, .vmulImm, fun n g a b => BitVec.ofInt n (num g a * num g b)),
   (.vmulh, .vmulhImm, fun n g a b => BitVec.ofInt n (num g a * num g b / 2 ^ n)),
   (.vabsd, .vabsdImm, fun n g a b => BitVec.ofNat n (num g a - num g b).natAbs),
   (.vadds, .vaddsImm, fun n g a b => BitVec.ofInt n (nearest n g (num g a + num g b))),
   (.vsubs, .vsubsImm, fun n g a b => BitVec.ofInt n (nearest n g (num g a - num g b)))]

/-- The bitwise functions of Table 12.5. -/
def valuBitTable : List ((VOps → Instr) × (VIOps → Instr) × ElemFn) :=
  [(.vand, .vandImm, fun _ _ a b => a &&& b), (.vor, .vorImm, fun _ _ a b => a ||| b),
   (.vxor, .vxorImm, fun _ _ a b => a ^^^ b), (.vandn, .vandnImm, fun _ _ a b => a &&& ~~~b)]

/-- Types and source tags of the other functions (Table 12.4). -/
def arithType (t : Tag) : Bool := t ∈ [Tag.i32, .u32, .i8x4, .u8x4, .i4x8, .i16x2, .u16x2]
def arithSource (t x : Tag) : Bool :=
  x = .raw || (if t ∈ [Tag.i32, .u32] then x ∈ [Tag.i32, .u32] else x = t)
/-- Types of a bitwise function: codes 0x00 to 0x0F. -/
def bitType (t : Tag) : Bool := !(t ∈ [Tag.w64, .poison])

/-- An immediate as an element of type `t`: sign-extended for a 32-bit type, else its low bits (R232). -/
def immElem (t : Tag) (imm : BitVec 16) : BitVec t.bits :=
  if t.elems = 1 then imm.signExtend t.bits else imm.setWidth t.bits

/-- Every element of `r` is `f` of the elements of `a` and `b`. -/
def EachElem (t : Tag) (f : ElemFn) (r a : W32) (b : (k : Nat) → BitVec t.bits) : Prop :=
  ∀ k, k < t.elems → elem t k r = f t.bits (signedType t) (elem t k a) (b k)

/-- A VALU instruction: in every enabled lane, helper lanes included, each element is `f` of the source elements, and the
register takes the type (R231). -/
def ValuRule (mk : VOps → Instr) (types : Tag → Bool) (source : Tag → Tag → Bool) (f : ElemFn) : Prop :=
  ∀ (s : State) (c : Cur) (o : VOps), o.g.wf = true → types o.t = true → Ready s c 1 .none → Room c c →
    c.regOk o.vd = true → Source c o.va (source o.t) → Source c o.vb (source o.t) →
    ∃ r : Nat → W32, (∀ l, EachElem o.t f (r l) (lane c o.va l) (fun k => elem o.t k (lane c o.vb l))) ∧
      Computes s c (mk o) 1 .none (c.setV o.vd (c.enabledH o.g) r o.t)

/-- The immediate form (R232). -/
def ValuImmRule (mk : VIOps → Instr) (types : Tag → Bool) (source : Tag → Tag → Bool) (f : ElemFn) : Prop :=
  ∀ (s : State) (c : Cur) (o : VIOps), o.g.wf = true → types o.t = true → Ready s c 1 .none → Room c c →
    c.regOk o.vd = true → Source c o.va (source o.t) →
    ∃ r : Nat → W32, (∀ l, EachElem o.t f (r l) (lane c o.va l) (fun _ => immElem o.t o.imm)) ∧
      Computes s c (mk o) 1 .none (c.setV o.vd (c.enabledH o.g) r o.t)

/-- The tags of carry chains (R233, R234), and of VCMP and VBIT (R235, R237). -/
def limbTag (t : Tag) : Bool := t ∈ [Tag.i32, .u32, .raw, .w64]
def wordOnly (t : Tag) : Bool := t ∈ [Tag.i32, .u32, .raw]

/-- The carry into lane `l`: none with predicate field 0. -/
def cin (c : Cur) (p : PReg) (l : Nat) : Nat := if p = 0 then 0 else if hasLane (c.pr p) l then 1 else 0

/-- `m` has bit `l` set, for the lanes of the warp, exactly where `p l` holds. -/
def Marks (c : Cur) (m : Mask) (p : Nat → Prop) : Prop := ∀ l, l < c.width → (hasLane m l = true ↔ p l)

/-- VADDC and VSUBB: `t` gives the exact sum or difference, `out` the carry or borrow. -/
def CarryRule (mk : VCarryOps → Instr) (t : Nat → Nat → Nat → Int) (out : Int → Prop) : Prop :=
  ∀ (s : State) (c : Cur) (o : VCarryOps), o.g.wf = true → o.t ∈ [Tag.i32, .u32] → Ready s c 1 .none → Room c c →
    c.width ≤ 64 → c.regOk o.vd = true → Source c o.va limbTag → Source c o.vb limbTag →
    let x := fun l => t (lane c o.va l).toNat (lane c o.vb l).toNat (cin c o.ci l)
    ∃ m, Marks c m (fun l => out (x l)) ∧
      Computes s c (mk o) 1 .none
        ((c.setV o.vd (c.enabledH o.g) (fun l => BitVec.ofInt 32 (x l)) o.t).setP o.co (c.enabledH o.g) m)

/-- VMAD64: the pair takes the exact value. -/
def MadRule (mk : VMadOps → Instr) (signed : Bool) : Prop :=
  ∀ (s : State) (c : Cur) (o : VMadOps) (hi : VReg), o.g.wf = true → o.vd.code % 2 = 0 → hi.code = o.vd.code + 1 →
    Ready s c 1 .none → Room c c → c.regOk o.vd = true → c.regOk hi = true →
    Source c o.va limbTag → Source c o.vb limbTag → Source c o.vc limbTag →
    let x := fun l => num signed (lane c o.va l) * num signed (lane c o.vb l) + num signed (lane c o.vc l) + cin c o.ci l
    let w := fun l => BitVec.ofInt 64 (x l)
    (∀ l, if signed then -2 ^ 63 ≤ x l ∧ x l < 2 ^ 63 else 0 ≤ x l ∧ x l < 2 ^ 64) ∧
      Computes s c (mk o) 1 .none
        ((c.setV o.vd (c.enabledH o.g) (fun l => (w l).extractLsb' 0 32) .w64).setV hi (c.enabledH o.g)
          (fun l => (w l).extractLsb' 32 32) .w64)

/-- The conditions of VCMP (R235). -/
def vcmpTable : List ((VCmpOps → Instr) × (Bool → W32 → W32 → Prop)) :=
  [(.vcmpEq, fun _ a b => a = b), (.vcmpNe, fun _ a b => a ≠ b),
   (.vcmpLt, fun g a b => num g a < num g b), (.vcmpLe, fun g a b => num g a ≤ num g b),
   (.vcmpGt, fun g a b => num g a > num g b), (.vcmpGe, fun g a b => num g a ≥ num g b),
   (.vcmpLtu, fun _ a b => a.toNat < b.toNat), (.vcmpLeu, fun _ a b => a.toNat ≤ b.toNat),
   (.vcmpGtu, fun _ a b => a.toNat > b.toNat), (.vcmpGeu, fun _ a b => a.toNat ≥ b.toNat)]

def VcmpRule (mk : VCmpOps → Instr) (cond : Bool → W32 → W32 → Prop) : Prop :=
  ∀ (s : State) (c : Cur) (o : VCmpOps), o.g.wf = true → o.t ∈ [Tag.i32, .u32] → Ready s c 1 .none → Room c c →
    c.width ≤ 64 → Source c o.va (arithSource o.t) → Source c o.vb (arithSource o.t) →
    ∃ m, Marks c m (fun l => cond (o.t = .i32) (lane c o.va l) (lane c o.vb l)) ∧
      Computes s c (mk o) 1 .none (c.setP o.pd (c.enabledH o.g) m)

/-- VLI with mod 0 and 2 (R236). -/
def vliTable : List ((VliOps → Instr) × (VliOps → W32)) :=
  [(.vli, fun o => if o.t = .i32 then o.imm.signExtend 32 else o.imm.setWidth 32), (.vliDup, fun o => o.imm ++ o.imm)]

/-- VPOPC, VCLZ, VCTZ and VREV. -/
def vbitTable : List ((VUnOps → Instr) × (W32 → W32)) :=
  [(.vpopc, fun a => a.cpop), (.vclz, fun a => a.clz), (.vctz, fun a => a.ctz), (.vrev, fun a => a.reverse)]

/-- pos and len of VBFE and VBFI: len is cut at the top of the word. -/
def vpos (b : W32) : Nat := (b.extractLsb' 0 5).toNat
def vlen (b : W32) : Nat := min (b.extractLsb' 5 6).toNat (32 - vpos b)

/-- Byte `i` that VBPERM chooses. -/
def permByte (a b d : W32) (i : Nat) : Byte :=
  let sel : BitVec 4 := d.extractLsb' (4 * i) 4
  if sel.getLsbD 3 then 0 else ((b ++ a : W64).extractLsb' (8 * (sel.extractLsb' 0 3).toNat) 8)

/-- The dot product of VDOT4 with its accumulator, exact. -/
def dot4 (ga gb gc : Bool) (a b d : W32) : Int :=
  num gc d + ((List.range 4).map (fun i => num ga (a.extractLsb' (8 * i) 8) * num gb (b.extractLsb' (8 * i) 8))).sum

def orRaw (t x : Tag) : Bool := x = t || x = .raw

/-- VDOT4: signedness of va, vb and vc with their tags, for each fn (R238). -/
def vdotTable : List ((VdotOps → Instr) × (Bool × Bool × Bool) × (Tag × Tag × Tag)) :=
  [(.vdot4II, (true, true, true), (.i8x4, .i8x4, .i32)), (.vdot4UU, (false, false, false), (.u8x4, .u8x4, .u32)),
   (.vdot4IU, (true, false, true), (.i8x4, .u8x4, .i32))]

/-! ## Cross-lane instructions (R239 to R245), masks and tags (R162, R163, R185) -/

/-- A lane that a cross-lane instruction reads: as it stands in the strand's lane set, zero outside it (R225). -/
def crossLane (c : Cur) (r : VReg) (k : Nat) : W32 := if hasLane c.l k then lane c r k else 0

/-- The lane that SHFL takes: lane `src`, or its own where `src` is no lane of the warp (R240). -/
def shuffled (c : Cur) (r : VReg) (l : Nat) (src : Int) : W32 :=
  if 0 ≤ src ∧ src < c.width then crossLane c r src.toNat else lane c r l

/-- Source lanes of SHFL by a distance. -/
def shflTable : List ((ShflOps → Instr) × (Nat → Nat → Int)) :=
  [(.shflUp, fun l d => l - d), (.shflDown, fun l d => l + d), (.shflXor, fun l d => (l ^^^ d : Nat))]

/-- Source lanes of QXCH within a quad. -/
def qxchTable : List ((VMoveOps → Instr) × Nat) := [(.qxchH, 1), (.qxchV, 2), (.qxchD, 3)]

/-- The lanes that contribute to VRED and VSCAN, ascending, of those below `n`. -/
def contributors (c : Cur) (g : Guard) (n : Nat) : List Nat := (List.range n).filter (hasLane (c.enabled g))

/-- The combination of the values of some lanes by an associative operation with identity `e`, in lane order. -/
def combined (c : Cur) (va : VReg) (f : W32 → W32 → W32) (e : W32) (ls : List Nat) : W32 :=
  ls.foldl (fun a l => f a (crossLane c va l)) e

/-- The integer operations of Table 12.7: function and identity, which may depend on signedness. -/
abbrev IntOp := Bool → (W32 → W32 → W32) × W32
def opAdd : IntOp := fun _ => (fun a b => a + b, 0)
def opMin : IntOp := fun g => (fun a b => if num g a ≤ num g b then a else b, if g then 0x7FFFFFFF else 0xFFFFFFFF)
def opMax : IntOp := fun g => (fun a b => if num g b ≤ num g a then a else b, if g then 0x80000000 else 0)
def opAnd : IntOp := fun _ => (fun a b => a &&& b, 0xFFFFFFFF)
def opOr : IntOp := fun _ => (fun a b => a ||| b, 0)
def opXor : IntOp := fun _ => (fun a b => a ^^^ b, 0)

/-- VRED and VSCAN of each integer operation, with the types and the source tags. -/
def reduceTable : List ((VUnOps → Instr) × (VscanOps → Instr) × IntOp × (Tag → Bool) × (Tag → Tag → Bool)) :=
  let w : Tag → Bool := fun t => t ∈ [Tag.i32, .u32]
  let b : Tag → Bool := fun t => t ∈ [Tag.raw, .i32, .u32]
  [(.vredAdd, .vscanAdd, opAdd, w, arithSource), (.vredMin, .vscanMin, opMin, w, arithSource),
   (.vredMax, .vscanMax, opMax, w, arithSource), (.vredAnd, .vscanAnd, opAnd, b, fun _ => anyTag),
   (.vredOr, .vscanOr, opOr, b, fun _ => anyTag), (.vredXor, .vscanXor, opXor, b, fun _ => anyTag)]

/-- The floating-point operations of Table 12.7 on F32 values, after flush_in of each lane. -/
def reduceFloat : List ((VUnOps → Instr) × (VscanOps → Instr) × (BitVec 10 → Nat → Nat → Nat) × Nat) :=
  [(.vredFadd, .vscanFadd, fun acr x y => fF32.result acr (acrMode acr) ((fF32.read x).add (acrMode acr) (fF32.read y)), 0),
   (.vredFmin, .vscanFmin, fun _ x y => fF32.minMax false x y, 0x7F800000),
   (.vredFmax, .vscanFmax, fun _ x y => fF32.minMax true x y, 0xFF800000)]

/-- A contributing lane's F32 value after flush_in; none where the lane is absent. -/
def floatLane (c : Cur) (g : Guard) (va : VReg) (l : Nat) : Option Nat :=
  if l < c.width ∧ hasLane (c.enabled g) l = true then some (fF32.flushIn c.t.core.acr (crossLane c va l).toNat) else none

/-- A combination of values that may be absent. -/
def pairUp (f : Nat → Nat → Nat) : Option Nat → Option Nat → Option Nat
  | some x, some y => some (f x y)
  | some x, none => some x
  | none, y => y

/-- The value of node `i` of level `n` of the pairwise tree of R49: its two children are nodes 2i and 2i + 1 below it. -/
def treeNode (f : Nat → Nat → Nat) (leaf : Nat → Option Nat) : Nat → Nat → Option Nat
  | 0, i => leaf i
  | n + 1, i => pairUp f (treeNode f leaf n (2 * i)) (treeNode f leaf n (2 * i + 1))

/-- The combination of the contributing lanes below `n`, in lane order. -/
def scanned (f : Nat → Nat → Nat) (leaf : Nat → Option Nat) : Nat → Option Nat
  | 0 => none
  | n + 1 => pairUp f (scanned f leaf n) (leaf n)

/-- A mask with no lane at or above the width. -/
def InWidth (c : Cur) (m : Mask) : Prop := ∀ l, c.width ≤ l → hasLane m l = false

/-! ## Floating-point values (R25, R28, R38 to R44) and instructions (R247 to R262) -/

/-- The six floating-point types. -/
def floatTypes : List Tag := [.f32, .f16x2, .bf16x2, .e4m3x4, .e5m2x4, .e2m1x8]

/-- The rational number that a finite value is; 0 for infinities and NaN. -/
def valueOf : FNum → ℚ
  | .fin neg m e => (if neg then -1 else 1) * m * (2 : ℚ) ^ e
  | _ => 0

def finite : FNum → Prop
  | .zero _ => True
  | .fin _ m _ => 0 < m
  | _ => False

/-- A positive magnitude below the smallest normal one of a format, as `FFmt.read` gives it. -/
def tiny (f : FFmt) : FNum → Prop
  | .fin _ m _ => m < 2 ^ f.mbits
  | _ => False

open Classical in
/-- flush_in: a subnormal value becomes zero of its sign when FI of its class is set (R43). -/
def flushIn (f : FFmt) (acr : BitVec 10) (x : Nat) : FNum :=
  if acr.getLsbD (2 + 2 * f.cls) = true ∧ tiny f (f.read x) then .zero (f.read x).isNeg else f.read x

open Classical in
/-- flush_out of an encoding: a subnormal one becomes zero of its sign when FO of its class is set (R44). -/
def flushOut (f : FFmt) (acr : BitVec 10) (y : Nat) : Nat :=
  if acr.getLsbD (3 + 2 * f.cls) = true ∧ tiny f (f.read y) then f.signBit (f.read y).isNeg else y

/-- A result: rounded, then flushed. -/
def rounded (f : FFmt) (acr : BitVec 10) (mode : Rm) (x : FNum) : Nat := flushOut f acr (f.write mode x)

/-- The rounding mode of R39: an override, or RM of ACR. -/
def modeFor (acr : BitVec 10) : Rnd → Rm
  | some m => m
  | none => if acr.getLsbD 1 then (if acr.getLsbD 0 then .rdn else .rup) else (if acr.getLsbD 0 then .rtz else .rne)

/-- Element `k` of lane `l` as a value, after flush_in. -/
def felem (c : Cur) (t : Tag) (r : VReg) (l k : Nat) : FNum := flushIn (ffmtOf t) c.t.core.acr (elem t k (lane c r l)).toNat

/-- FADD, FSUB and FMUL; FFMA, FFMS and FFNMA: the exact value (R248). -/
def faluTable : List ((FOps → Instr) × (Rm → FNum → FNum → FNum)) :=
  [(.fadd, fun m a b => a.add m b), (.fsub, fun m a b => a.add m b.neg), (.fmul, fun _ a b => a.mul b)]
def ffmaTable : List ((FfmaOps → Instr) × (Rm → FNum → FNum → FNum → FNum)) :=
  [(.ffma, fun m a b d => (a.mul b).add m d), (.ffms, fun m a b d => (a.mul b).add m d.neg),
   (.ffnma, fun m a b d => (a.mul b).neg.add m d)]

/-- Every element of every lane of `r` is the one given. -/
def Lanes (t : Tag) (r : Nat → W32) (f : Nat → Nat → Nat) : Prop :=
  ∀ l k, k < t.elems → (elem t k (r l)).toNat = f l k

/-- Wide float types: F32, F16X2 and BF16X2. -/
def wideType (t : Tag) : Bool := t ∈ [Tag.f32, .f16x2, .bf16x2]

/-- a orders below b, -0 below +0. -/
def ordersBelow (a b : FNum) : Prop :=
  match a, b with
  | .zero x, .zero y => x = true ∧ y = false
  | _, _ => a.cmp b = .lt

open Classical in
/-- FMIN (`mx` false) and FMAX on encodings that have been flushed (R249). -/
def minOrMax (f : FFmt) (mx : Bool) (a b : Nat) : Nat :=
  if f.read a = .nan ∧ f.read b = .nan then f.nanBits
  else if f.read a = .nan then b
  else if f.read b = .nan then a
  else if (if mx then ordersBelow (f.read a) (f.read b) else ordersBelow (f.read b) (f.read a)) then b else a

open Classical in
/-- An encoding after flush_in. -/
def flushedBits (f : FFmt) (acr : BitVec 10) (x : Nat) : Nat :=
  if acr.getLsbD (2 + 2 * f.cls) = true ∧ tiny f (f.read x) then f.signBit (f.read x).isNeg else x

/-- The conditions of FCMP: what they give for an unordered pair, and for an ordering (R252). -/
def fcmpTable : List ((FcmpOps → Instr) × Bool × (Ordering → Bool)) :=
  [(.fcmpEq, false, fun o => o == .eq), (.fcmpNe, true, fun o => o != .eq), (.fcmpLt, false, fun o => o == .lt),
   (.fcmpLe, false, fun o => o != .gt), (.fcmpGt, false, fun o => o == .gt), (.fcmpGe, false, fun o => o != .lt),
   (.fcmpUnord, true, fun _ => false), (.fcmpOrd, false, fun _ => true)]

/-- The class of a value (R253). -/
def classOf (f : FFmt) : FNum → Nat
  | .nan => 8
  | .inf neg => if neg then 0 else 7
  | .zero neg => if neg then 3 else 4
  | .fin neg m _ => if m < 2 ^ f.mbits then (if neg then 2 else 5) else (if neg then 1 else 6)

/-- The functions of FSF with their instructions. -/
def fsfTable : List ((FsfOps → Instr) × SfFn) :=
  [(.frcp, .rcp), (.frsq, .rsq), (.fsqrt, .sqrt), (.fexp2, .exp2), (.flog2, .log2), (.fsin, .sin), (.fcos, .cos),
   (.ftanh, .tanh)]

/-- One, with a sign. -/
def unit (neg : Bool) : FNum := .fin neg 1 0

/-- Table 13.4: the results at -Inf, a negative value, -0, +0 and +Inf; none where the function is computed. -/
def specialTable : List (SfFn × FNum × Option FNum × FNum × FNum × FNum) :=
  [(.rcp, .zero true, none, .inf true, .inf false, .zero false),
   (.rsq, .nan, some .nan, .inf true, .inf false, .zero false),
   (.sqrt, .nan, some .nan, .zero true, .zero false, .inf false),
   (.exp2, .zero false, none, unit false, unit false, .inf false),
   (.log2, .nan, some .nan, .inf true, .inf true, .inf false),
   (.sin, .nan, none, .zero true, .zero false, .nan),
   (.cos, .nan, none, unit false, unit false, .nan),
   (.tanh, unit true, none, .zero true, .zero false, unit false)]

/-- An encoding holds the representable value that a mode names for a real number, on the grid of the format (R38); on a tie
RNE takes the even significand. -/
def RoundsTo (f : FFmt) (mode : Rm) (q : ℝ) (b : Nat) : Prop :=
  let y : ℝ := valueOf (f.read b)
  finite (f.read b) ∧ ∀ k, finite (f.read k) →
    let z : ℝ := valueOf (f.read k)
    match mode with
    | .rne => |y - q| ≤ |z - q| ∧ (z ≠ y → |y - q| = |z - q| → b % 2 = 0)
    | .rtz => |y| ≤ |q| ∧ 0 ≤ y * q ∧ (|z| ≤ |q| → |z| ≤ |y|)
    | .rup => q ≤ y ∧ (q ≤ z → y ≤ z)
    | .rdn => y ≤ q ∧ (z ≤ q → z ≤ y)

/-- Significand bits and bias of the formats of Table 2.2. -/
def formatTable : List (Tag × Nat × Nat × Nat) :=
  [(.f32, 8, 23, 127), (.f16x2, 5, 10, 15), (.bf16x2, 8, 7, 127), (.e4m3x4, 4, 3, 7), (.e5m2x4, 5, 2, 15), (.e2m1x8, 2, 1, 1)]

/-- The formats with infinities (Table 2.2). -/
def hasInf (t : Tag) : Bool := t ∈ [Tag.f32, .f16x2, .bf16x2, .e5m2x4]

/-- The value of an encoding with sign `s`, exponent field `e` and mantissa field `m` (R25, Table 2.2). -/
def formatValue (t : Tag) (eb mb bias : Nat) (s : Bool) (e m : Nat) : FNum → Prop := fun v =>
  if hasInf t = true ∧ e = 2 ^ eb - 1 then v = if m = 0 then .inf s else .nan
  else if t = .e4m3x4 ∧ e = 15 ∧ m = 7 then v = .nan
  else finite v ∧ v.isNeg = s ∧
    valueOf v = (if s then -1 else 1) *
      (if e = 0 then (2 : ℚ) ^ (1 - (bias : Int)) * (m / 2 ^ mb) else (2 : ℚ) ^ ((e : Int) - bias) * (1 + m / 2 ^ mb))

/-- The largest finite value of a format, and the distance to the value that would follow it. -/
def largest (f : FFmt) : ℚ := valueOf (f.read f.maxBits)
def gap (f : FFmt) : ℚ :=
  match f.read f.maxBits with
  | .fin _ _ e => (2 : ℚ) ^ e
  | _ => 0

open Classical in
/-- The encoding of a finite value whose magnitude exceeds the largest finite one (R40). -/
def overflowed (t : Tag) (mode : Rm) (neg : Bool) (v : ℚ) : Nat :=
  let f := ffmtOf t
  let up := match mode with
    | .rne => decide (largest f + gap f / 2 ≤ |v|)
    | .rtz => false
    | .rup => !neg
    | .rdn => neg
  f.signBit neg + (if hasInf t ∧ up = true then f.maxBits + 1 else f.maxBits)

/-- The canonical NaNs of R28; E2M1 has none and takes +0 (Table 2.10). -/
def nanTable : List (Tag × Nat) :=
  [(.f32, 0x7FC00000), (.f16x2, 0x7E00), (.bf16x2, 0x7FC0), (.e4m3x4, 0x7F), (.e5m2x4, 0x7E), (.e2m1x8, 0)]

/-- The unit in the last place, in F32, of a real number (R254). -/
def ulp (q : ℝ) : ℝ := (2 : ℝ) ^ (max (Int.log 2 |q| - 23) (-149))

/-- An F32 encoding holds a finite value within a bound of a real number. -/
def Within (b : Nat) (q bound : ℝ) : Prop := finite (fF32.read b) ∧ |(valueOf (fF32.read b) : ℝ) - q| ≤ bound

/-- An F32 encoding holds a value exactly. -/
def Holds (b : Nat) (q : ℝ) : Prop := finite (fF32.read b) ∧ (valueOf (fF32.read b) : ℝ) = q

/-- Table 13.3 for FRCP and FRSQ of a finite, non-zero value. -/
def ReciprocalBound (fn : SfFn) (mode : Rm) (v : ℝ) (b : Nat) : Prop :=
  match fn with
  | .rcp =>
    (|v|⁻¹ < 2 ^ 128 → Within b v⁻¹ (ulp v⁻¹)) ∧ (2 ^ 128 ≤ |v|⁻¹ → b = overflowed .f32 mode (decide (v < 0)) (2 ^ 128)) ∧
      ∀ k : ℤ, -126 ≤ -k → -k ≤ 127 → |v| = (2 : ℝ) ^ k → Holds b v⁻¹
  | .rsq => Within b (Real.sqrt v)⁻¹ (ulp (Real.sqrt v)⁻¹) ∧ ∀ k : ℤ, v = (4 : ℝ) ^ k → Holds b ((2 : ℝ) ^ (-k))
  | _ => True

/-- Table 13.3 for the other functions of a finite, non-zero value. -/
def TranscendentalBound (fn : SfFn) (mode : Rm) (v : ℝ) (b : Nat) : Prop :=
  match fn with
  | .exp2 =>
    (v < 128 → Within b (2 ^ v) (2 * ulp (2 ^ v))) ∧ (128 ≤ v → b = overflowed .f32 mode false (2 ^ 128)) ∧
      ∀ k : ℤ, -149 ≤ k → k ≤ 127 → v = k → Holds b ((2 : ℝ) ^ k)
  | .log2 =>
    Within b (Real.logb 2 v) (if 1 / 2 ≤ v ∧ v ≤ 2 then 2 ^ (-22 : ℤ) else 2 * ulp (Real.logb 2 v)) ∧
      ∀ k : ℤ, v = (2 : ℝ) ^ k → Holds b k
  | .sin => if |v| ≤ 65536 then Within b (Real.sin v) (2 ^ (-21 : ℤ)) else Within b 0 1
  | .cos => if |v| ≤ 65536 then Within b (Real.cos v) (2 ^ (-21 : ℤ)) else Within b 0 1
  | .tanh => Within b (Real.tanh v) (2 ^ (-21 : ℤ)) ∧ Within b 0 1
  | _ => True

/-- Rounding of a rational number to an integer (R38). -/
def roundInt (mode : Rm) (q : ℚ) : Int :=
  match mode with
  | .rtz => if 0 ≤ q then ⌊q⌋ else ⌈q⌉
  | .rup => ⌈q⌉
  | .rdn => ⌊q⌋
  | .rne => if q - ⌊q⌋ < 1 / 2 then ⌊q⌋ else if 1 / 2 < q - ⌊q⌋ then ⌊q⌋ + 1 else if 2 ∣ ⌊q⌋ then ⌊q⌋ else ⌊q⌋ + 1

/-- The least and the greatest value of an integer type. -/
def leastOf (t : Tag) : Int := if signedType t then -2 ^ (t.bits - 1) else 0
def greatestOf (t : Tag) : Int := if signedType t then 2 ^ (t.bits - 1) - 1 else 2 ^ t.bits - 1

/-- A value converted to an integer type (Table 2.10). -/
def toInteger (t : Tag) (mode : Rm) : FNum → Int
  | .nan => 0
  | .inf neg => if neg then leastOf t else greatestOf t
  | x => nearest t.bits (signedType t) (roundInt mode (valueOf x))

/-- An integer as an exact value. -/
def fromInteger (x : Int) : FNum := if x = 0 then .zero false else .fin (decide (x < 0)) x.natAbs 0

/-- conv of one element (R258, Table 2.10). -/
def convert (src dst : Tag) (sat : Bool) (acr : BitVec 10) (mode : Rm) (x : BitVec src.bits) : Nat :=
  if src ∈ floatTypes then
    let v := flushIn (ffmtOf src) acr x.toNat
    if dst ∈ floatTypes then rounded (ffmtOf dst) acr mode v else (BitVec.ofInt dst.bits (toInteger dst mode v)).toNat
  else
    let v := num (signedType src) x
    if dst ∈ floatTypes then rounded (ffmtOf dst) acr mode (fromInteger v)
    else (BitVec.ofInt dst.bits (if sat then nearest dst.bits (signedType dst) v else v)).toNat

/-- Elements of CVT's destination: those of the part in a narrowing, else all; the others are kept only under the result tag. -/
def converted (c : Cur) (o : CvtOps) (l k : Nat) : Nat :=
  let es := o.src.elems
  let ed := o.dst.elems
  let conv := fun e => convert o.src o.dst o.sat c.t.core.acr (modeFor c.t.core.acr o.rnd) (elem o.src e (lane c o.va l))
  if es < ed then
    if o.part.val * es ≤ k ∧ k < o.part.val * es + es then conv (k - o.part.val * es)
    else if (c.vnow o.vd).tag = o.dst then (elem o.dst k ((c.vnow o.vd).lane l)).toNat else 0
  else if ed < es then conv (o.part.val * ed + k)
  else conv k

/-- The value times a power of two. -/
def scaled (n : Int) : FNum → FNum
  | .fin neg m e => .fin neg m (e + n)
  | x => x

/-! CVTMX (R259 to R262). -/

/-- Wide element `e` of lane `l` belongs to block `k` (R260). -/
def inBlock (o : CvtmxOps) (k l e : Nat) : Prop := e < o.wide.elems ∧ (l * o.wide.elems + e) / 32 = k

/-- The block has an enabled lane. -/
def BlockTaken (c : Cur) (o : CvtmxOps) (k : Nat) : Prop :=
  ∃ l e, l < c.width ∧ hasLane (c.enabled o.g) l = true ∧ inBlock o k l e

/-- emax of the element formats. -/
def emaxOf (t : Tag) : Int := if t = .e4m3x4 then 8 else if t = .e5m2x4 then 15 else 2

/-- The scale code of a block (R261). -/
def BlockCode (c : Cur) (o : CvtmxOps) (k code : Nat) : Prop :=
  let xs := fun (x : FNum) => ∃ l e, l < c.width ∧ hasLane (c.enabled o.g) l = true ∧ inBlock o k l e ∧
    x = felem c o.wide o.va l e
  ((∃ x, xs x ∧ ¬ finite x) → code = 0xFF) ∧
  ((∀ x, xs x → finite x ∧ valueOf x = 0) → code = 0) ∧
  ((∀ x, xs x → finite x) → ∀ x (n : Int), xs x → (∀ y, xs y → |valueOf y| ≤ |valueOf x|) →
    (2 : ℚ) ^ n ≤ |valueOf x| → |valueOf x| < (2 : ℚ) ^ (n + 1) →
    (code : Int) = max 1 (min 254 (n - emaxOf o.mx + 127)))

open Classical in
/-- An MX element of a value under a scale code: +0 under the codes 0 and 0xFF, else rounded, an overflow saturated (R261). -/
def quantised (f : FFmt) (acr : BitVec 10) (mode : Rm) (code : Nat) (x : FNum) : Nat :=
  if code = 0 ∨ code = 0xFF then 0
  else
    let y := f.write mode (scaled (127 - code) x)
    let y := if f.read y = .inf false then f.maxBits else if f.read y = .inf true then f.signBit true + f.maxBits else y
    if acr.getLsbD (3 + 2 * f.cls) = true ∧ tiny f (f.read y) then f.write mode (.zero (f.read y).isNeg) else y

/-- An element of a register behind a partial write: kept when it already carries the tag, else zero (R260). -/
def keptElem (c : Cur) (r : VReg) (t : Tag) (l k : Nat) : Nat :=
  if (c.vnow r).tag = t then (elem t k ((c.vnow r).lane l)).toNat else 0

/-! ## Trap and system instructions (R89 to R101), chunk control (R206, R207), WQRY (R176) -/

/-- Table 5.6, reads. -/
def specialRead (s : State) (c : Cur) : List (Nat × W64) :=
  let k := c.t.core
  [(0, k.em), (1, k.hm), (2, k.acr.setWidth 64), (3, s.clks.getD c.crew.core 0), (4, BitVec.ofNat 64 c.width), (5, BitVec.ofNat 64 k.chlim),
   (6, c.t.sqcnt), (7, k.batchn.setWidth 64), (8, BitVec.ofNat 64 k.winb)]

/-- Table 5.3: the trap control registers; TSTATUS holds H, SKIP and the strand's index. -/
def trapRead (c : Cur) : List (Nat × W64) :=
  let x := c.t.core.trap
  [(0, x.cause.setWidth 64), (1, x.tpc), (2, x.addr), (3, x.lanes &&& fullMask c.width), (4, x.extra),
   (5, BitVec.ofNat 64 (bit x.h + 2 * bit x.skip + 256 * (c.ref.strand % 4)))]

/-- Table 5.7. -/
def identity (c : Cur) : List (Nat × Nat) :=
  [(0, c.crew.core), (1, c.crew.core / 96), (2, c.crew.quad), (3, c.warp.slot), (4, c.ref.w.warp), (5, c.ref.w.crew.crew),
   (6, c.ref.w.crew.crew / Nat.max 1 c.crew.launch.convoy), (7, c.ref.w.crew.voy), (8, c.ref.w.crew.ctx), (9, c.ref.strand)]

/-- The strand has entered its trap handler: its trap registers are `x`, it stands at the handler's header with no chunk and
clear flags, and no other register of it has changed; one squash is counted unless the replay for the trap was. -/
structure Entered (s t : State) (c e : Cur) (x : TrapRegs) : Prop where
  here    : t.curOf c.ref = some e
  package : t = { s with crews := t.crews, pins := t.pins, tlb := t.tlb, walks := t.walks }
  crews   : ∀ r, r ≠ c.ref.w.crew → t.crew? r = s.crew? r
  warps   : ∀ i, i ≠ c.ref.w.warp → e.crew.warp? i = c.crew.warp? i
  strands : ∀ k, k ≠ c.ref.strand → e.warp.strand? k = c.warp.strand? k
  place   : e.place = .header c.crew.launch.handler
  chunk   : e.t.chunk = Chunk.none
  wait    : e.t.wait = .none
  regs    : e.regs = { c.regs with trap := x }
  sqcnt   : e.t.sqcnt = if c.t.trapReplay then c.t.sqcnt else c.t.sqcnt + 1

/-- What R91 saves: TCAUSE, TPC, TADDR, TLANES, TEXTRA and TSTATUS, with SKIP set for a software trap (R90). -/
def savedRegs (c : Cur) (cause : Nat) (ta te : W64) (lanes : Mask) (skip : Bool) : TrapRegs :=
  { cause := BitVec.ofNat 8 cause, tpc := c.t.core.pc, addr := ta, lanes := lanes, extra := te, h := true, skip := skip,
    recorded := c.t.core.pc, recCause := BitVec.ofNat 8 cause, recHdr := c.t.core.hdr }

/-- A strand whose next trap enters its handler at once: it has no chunk that is not placed, it is in no handler, and its
handler's address holds a header (R93, R99). -/
structure CanTrap (s : State) (c : Cur) : Prop where
  alone   : Alone c
  outside : c.t.core.trap.h = false
  handler : s.handlerOk c.ctx c.crew.launch.handler = true

/-- The registers behind RFT: H and SKIP are clear. -/
def afterRft (c : Cur) : Cur := c.mapCore (fun k => { k with trap := { k.trap with h := false, skip := false } })

/-- The word behind the instruction at the recorded address, or behind the pair that it begins (R97). -/
def nextOf (x : TrapRegs) (hw : W64) : W64 :=
  if x.tpc ≠ x.recHdr ∧ hdrPair hw ((x.tpc - x.recHdr).toNat / 8 - 1) = true then x.tpc + 16 else x.tpc + 8

/-! ## Control transfers (R54, R55, R145 to R161), the register window (R179 to R184), WSPLIT and WFUSE (R169 to R175) -/

/-- The address that a T or J field names: words from the header behind the clause (R55). -/
def targetOf {n : Nat} (c : Cur) (t : BitVec n) : W64 := c.base + BitVec.ofInt 64 (8 * t.toInt)

/-- The word at an address is a clause header. -/
def HeaderAt (s : State) (c : Cur) (a : W64) : Prop := ∃ w, s.fetchWord c.ctx a = .ok w ∧ isHeader w = true

/-- The word at an address is readable and is no clause header. -/
def NoHeaderAt (s : State) (c : Cur) (a : W64) : Prop := ∃ w, s.fetchWord c.ctx a = .ok w ∧ isHeader w = false

/-- A branch to T under a condition (R145): T's header, the next clause, or the trap of R55. -/
def BranchRule (i : BitVec 32 → Instr) (cond : Cur → Prop) : Prop :=
  ∀ (s : State) (c : Cur) (t : BitVec 32), Ready s c 0 .none → Room c c →
    (¬ cond c → Transfers s c (i t) (.header c.base) false c) ∧
    (cond c → HeaderAt s c (targetOf c t) → Transfers s c (i t) (.header (targetOf c t)) false c) ∧
    (cond c → NoHeaderAt s c (targetOf c t) → Meets s c (i t) c.em (.word .illegalInstr (targetOf c t).toNat))

/-- The frames of the strand, outermost first, as (address, members). -/
def myFrames (c : Cur) : List Frame := c.warp.frames.filter (fun f => f.members.contains c.ref.strand)

/-- Lanes leave the strand (R144, R161). -/
def without (c : Cur) (x : Mask) : Cur :=
  c.mapCore (fun k => { k with l := k.l &&& ~~~x, em := k.em &&& ~~~x, hm := k.hm &&& ~~~x })

/-- The chunk is outside what its storage may refuse (R191). -/
def Fits (c : Cur) : Prop := c.t.chunk.st ≠ .opened ∨ (Config.capacityEnd c.free = false ∧ c.tilesWritten ≤ 8)

/-- A 4-byte or 8-byte access of the strand reaches a WB page (R263 to R267). -/
def Reaches (s : State) (c : Cur) (q : XReq) (rd : Bool) (va n : Nat) : Prop :=
  ∃ l, s.gAccess c q rd va n n = .ok l ∧ l.pol = 0

/-- A byte at a virtual address as the strand's chunk reads it. -/
def byteAtVa (s : State) (c : Cur) (va : Nat) : Byte :=
  match s.translate c.ctx va XReq.load with
  | .ok l => c.gByte s l.pa
  | .error _ => 0

def numberAtVa (s : State) (c : Cur) (va n : Nat) : Nat := ofBytes ((List.range n).map (fun i => byteAtVa s c (va + i)))

/-- The slot of absolute register `a`, and the place of call record `d` (R180, R183). -/
def slotOf (c : Cur) (a : Nat) : Nat := c.warp.lay.start + (a - c.warp.lay.base) * (4 * c.width + 8)
def recordOf (c : Cur) (d : Nat) : Nat := c.warp.lay.stop - 16 * ((if 1 < c.warp.live then 4 * d + c.ref.strand else d) + 1)

/-- The lanes that a slide of the window moves (R183). -/
def slid (c : Cur) : Mask := if 1 < c.warp.live then c.l else fullMask c.width

/-- The index of the call record that a CALL pushes (R180, R184). -/
def nextRecord (c : Cur) : Nat := c.t.core.calls.length - c.depth0

/-- Every register of the strand but the window's registers, WINB and the call records. -/
def Regs.sameButWindow (a b : Regs) : Prop :=
  a = { b with vregs := a.vregs, winb := a.winb, calls := a.calls, wtags := a.wtags }

/-- A number of `n` bytes in a list of (address, byte) pairs. -/
def numIn (cells : List (Nat × Byte)) (a n : Nat) : Nat :=
  ofBytes ((List.range n).map (fun i => ((cells.find? (fun x => x.1 == a + i)).map (·.2)).getD 0))

/-- A format word that RET accepts: a delta code that is not reserved, and zero in bytes 1 to 3 (R181, R182). -/
def formatOk (w : Nat) : Prop := w < 256 ∧ w / 32 ∈ [0, 1, 2, 3, 7]

/-- The lane of Table 9.4 under a delta code, from BASE and the number that the DATA bytes make. -/
def slotLane (code base data l : Nat) : W32 :=
  let delta := fun (n : Nat) => (BitVec.ofNat n (data / 2 ^ (n * (l - 1)))).signExtend 32
  if code = 7 then BitVec.ofNat 32 (data / 2 ^ (32 * l))
  else if code = 0 ∨ l = 0 then BitVec.ofNat 32 base
  else BitVec.ofNat 32 base + (if code = 1 then delta 4 else if code = 2 then delta 8 else delta 16)

/-- What a CALL with frame size `f` stores (R180, R181, R183), as (virtual address, byte): in the slot of each register that it
spills its tag and a delta code under which the slot gives back the lanes, in a divided warp those of the strand alone; and the
call record. -/
structure SpillImage (c : Cur) (f : Nat) (cells : List (Nat × Byte)) : Prop where
  once   : (cells.map (·.1)).Nodup
  inside : ∀ x ∈ cells, (slotOf c c.t.core.winb ≤ x.1 ∧ x.1 < slotOf c (c.t.core.winb + f)) ∨
    (recordOf c (nextRecord c) ≤ x.1 ∧ x.1 < recordOf c (nextRecord c) + 16)
  format : ∀ j : Fin 256, j.val < f →
    let va := slotOf c (c.t.core.winb + j.val)
    let w := numIn cells va 4
    (∀ i, i < 4 → va + i ∈ cells.map (·.1)) ∧ formatOk w ∧ w % 32 = (c.vnow (.v j)).tag.code ∧
      (1 < c.warp.live ∨ (c.vnow (.v j)).tag = .poison → w / 32 = 7)
  lanes  : ∀ j : Fin 256, j.val < f → ∀ l, l < c.width → hasLane (slid c) l = true →
    let va := slotOf c (c.t.core.winb + j.val)
    slotLane (numIn cells va 4 / 32) (numIn cells (va + 4) 4) (numIn cells (va + 8) (4 * c.width)) l = (c.vnow (.v j)).lane l
  others : 1 < c.warp.live → ∀ j : Fin 256, j.val < f → ∀ l, l < c.width → hasLane c.l l = false → ∀ i, i < 4 →
    slotOf c (c.t.core.winb + j.val) + 8 + 4 * l + i ∉ cells.map (·.1)
  record : (∀ i, i < 16 → recordOf c (nextRecord c) + i ∈ cells.map (·.1)) ∧
    numIn cells (recordOf c (nextRecord c)) 8 = c.base.toNat ∧ numIn cells (recordOf c (nextRecord c) + 8) 8 = f / 8

/-- The physical address of a virtual one, for an access that reaches it. -/
def physical (s : State) (c : Cur) (q : XReq) (va : Nat) : Nat :=
  match s.translate c.ctx va q with
  | .ok l => l.pa
  | .error _ => 0

/-- Stored bytes at their physical addresses; of two at one address the later stays. -/
def landed (s : State) (c : Cur) (q : XReq) (cells : List (Nat × Byte)) : List Host.Cell :=
  let xs := cells.map (fun x => (physical s c q x.1, x.2))
  xs.zipIdx.filterMap (fun x => if (xs.drop (x.2 + 1)).any (fun y => y.1 == x.1.1) then none else some x.1)

/-- Every word of a range of addresses can be accessed, on WB pages. -/
def ReachesAll (s : State) (c : Cur) (q : XReq) (rd : Bool) (lo hi : Nat) : Prop :=
  ∀ va, lo ≤ va → va < hi → va % 4 = 0 → Reaches s c q rd va 4

/-- The value of the first case whose condition holds, or the last one. -/
def FirstCase {α : Type} : List (Prop × α) → α → α → Prop
  | [], d, x => x = d
  | y :: ys, d, x => (y.1 ∧ x = y.2) ∨ (¬ y.1 ∧ FirstCase ys d x)

/-- A copy of the warp is accepted and its batch is not complete: a command leaves its warp as its batch completes (R315). -/
def CopyPending (s : State) (c : Cur) : Prop := ∃ x ∈ s.cmds, x.warp = some c.ref.w

/-- The sibling's WARP identifier: its latest split set bit 3 + g of one of the two, where g splits are in effect (R173). -/
def siblingOf (c : Cur) : Nat :=
  let b := 2 ^ (3 + c.warp.splits.length)
  if c.ref.w.warp / b % 2 = 1 then c.ref.w.warp - b else c.ref.w.warp + b

/-- Every warp that the sibling consists of has exited (R174). -/
def SiblingExited (c : Cur) : Prop :=
  c.warp.splits ≠ [] ∧ ∀ w ∈ c.crew.warps,
    w.id % 2 ^ (4 + c.warp.splits.length) = siblingOf c % 2 ^ (4 + c.warp.splits.length) → w.exited = true

/-- No other strand has a chunk that a write of this one could meet, and memory is in its canonical form. -/
def Quiet (s : State) (c : Cur) : Prop :=
  s.memWf = true ∧ ∀ r t, r ≠ c.ref → s.strand? r = some t → ∀ ch ∈ t.unplaced, ch.active = false

/-- The strand's crew may run. -/
def Runs (s : State) (c : Cur) : Prop := (s.ctx c.ctx).st = .active ∧ c.crew.run = .placed

/-- The crew's barrier words lie apart, aligned (R406). -/
def SoundBars (c : Cur) : Prop := (c.crew.bars.map (·.off)).Nodup ∧ ∀ b ∈ c.crew.bars, b.off % 8 = 0

/-- A barrier behind a change, which flips where every participant has arrived (R409, R410). -/
def settled (b : Barrier) : Barrier :=
  if b.parts ≠ [] ∧ b.arrived.length = b.parts.length then { b with arrived := [], phase := !b.phase } else b

/-- A barrier that a warp leaves (R410). -/
def leftBy (w : Nat) (b : Barrier) : Barrier :=
  settled { b with parts := b.parts.filter (· != w), arrived := b.arrived.filter (· != w) }

/-- The number that a barrier's word holds (Table 21.4). -/
def barWord (b : Barrier) : Nat := (b.parts.length + 2 ^ 16 * b.arrived.length + 2 ^ 32 * bit b.phase) % 2 ^ 64

/-- The barriers of crew `k`, and their words in its crew memory, are those of `c` with `f` applied to each in which the warp
of `c` takes part (R405). -/
def BarsBecome (c : Cur) (k : Crew) (f : Barrier → Barrier) : Prop :=
  k.bars = c.crew.bars.map (fun b => if c.ref.w.warp ∈ b.parts then f b else b) ∧
    ∀ b ∈ c.crew.bars, c.ref.w.warp ∈ b.parts → ofBytes (cellsRead k.mem b.off 8) = barWord (f b)

/-- The open commands of the warp are closed into batch `n` of warp `w` (R314). -/
def ClosedInto (s t : State) (c : Cur) (w : Warp) (n : W32) : Prop :=
  let ids := (s.cmds.filter (fun x => x.warp == some c.ref.w && x.batch == none)).map (·.id)
  w.batches = c.warp.batches ++ [{ n := n, cmds := ids, fault := c.warp.openFault }] ∧ w.openFault = none ∧
  t.cmds = s.cmds.map (fun x => if x.warp = some c.ref.w ∧ x.batch = none then { x with batch := some n } else x)

/-- A strand whose last lanes have exited, at the end of its chunk (R161). -/
structure Exiting (s : State) (c : Cur) : Prop where
  here  : s.curOf c.ref = some c
  wait  : c.t.wait = .exiting
  alone : Alone c
  runs  : Runs s c

/-- A strand at a control transfer or WSPLIT, WFUSE whose chunk has ended, waiting. -/
def WaitsWith (s : State) (c : Cur) (i : Instr) (ended : Bool) (w : Wait) (d : Cur) : Prop :=
  ∃ t e, exec i s = .next t ∧ Elsewhere s t c e ∧ SameCaches s t ∧ e.t.wait = w ∧ e.place = c.place ∧ e.regs = d.regs ∧
    e.t.chunk.st = (if ended then .ended else .opened) ∧ StoresNothing c e

/-! ## Access (R263 to R277) -/

/-- X(l) of R263: zero, or the lane of the vaddr register, signed under I32. -/
def offsetOf (c : Cur) (va : Option VReg) (l : Nat) : Int :=
  match va with
  | none => 0
  | some r => if (c.vr r).tag = .i32 then (lane c r l).toInt else (lane c r l).toNat

/-- EA(l): base, plus X(l), plus the scaled offset, modulo 2^64. -/
def eaOf (c : Cur) (base : SReg) (va : Option VReg) (off : BitVec 12) (n l : Nat) : Nat :=
  (BitVec.ofInt 64 ((c.sr base).toNat + offsetOf c va l + off.toInt * n)).toNat

/-- The vaddr register can be read. -/
def VaddrOk (c : Cur) (va : Option VReg) : Prop :=
  ∀ r, va = some r → c.regOk r = true ∧ (c.vr r).tag ∈ [Tag.raw, .i32, .u32]

/-- Registers d to d + n - 1 lie in the frame or among the globals. -/
def RunOk (c : Cur) (d : VReg) (n : Nat) : Prop := ∀ k, k < n → ∃ r, vplus d k = some r ∧ c.regOk r = true

def runOf (d : VReg) (n : Nat) : List VReg := (List.range n).filterMap (vplus d)

/-- Register word `i` of a lane that loads the value `x` (Table 14.2). -/
def loadedWord (w : MWidth) (x i : Nat) : W32 :=
  match w with
  | .i8 => (BitVec.ofNat 8 x).signExtend 32
  | .i16 => (BitVec.ofNat 16 x).signExtend 32
  | _ => (BitVec.ofNat 128 x).extractLsb' (32 * i) 32

/-- The destination registers of a load written in the lanes enabled, helper lanes included. -/
def loadInto (c : Cur) (o : MemOps) (val : Nat → Nat) : Cur :=
  c.writeRun (runOf o.d o.w.regs) (c.enabledH o.g) o.t (fun l i => loadedWord o.w (val l) i)

/-- The data registers of a store can be read under the type. -/
def DataOk (c : Cur) (o : MemOps) : Prop :=
  ∀ r ∈ runOf o.d o.w.regs, (c.vr r).tag ≠ .poison ∧ (o.t ≠ .raw → (c.vr r).tag = o.t)

/-- The bytes that lane `l` stores. -/
def laneBytes (c : Cur) (o : MemOps) (l : Nat) : List Byte :=
  ((runOf o.d o.w.regs).flatMap (fun r => bytesOf 4 (lane c r l).toNat)).take o.w.bytes

/-- The cells that stand when cells are written in order. -/
def lastCells : List Host.Cell → List Host.Cell
  | [] => []
  | x :: xs => if xs.any (fun y => y.1 == x.1) then lastCells xs else x :: lastCells xs

/-- The lanes of a mask below the width. -/
def inLanes (c : Cur) (m : Mask) (l : Nat) : Prop := l < c.width ∧ hasLane m l = true

/-- The address of lane `l` of a load or store. -/
def laneEa (c : Cur) (o : MemOps) (l : Nat) : Nat := eaOf c o.base o.va o.off o.w.bytes l

/-- Lane `l` of a global access: its leaf, or what it meets. -/
def laneAcc (s : State) (c : Cur) (o : MemOps) (q : XReq) (rd : Bool) (l : Nat) : Except Stop Leaf :=
  s.gAccess c q rd (laneEa c o l) o.w.bytes o.w.bytes

/-- The value that a lane of LD reads: zero for a helper lane whose access meets a condition (R269). -/
def ldValue (s : State) (c : Cur) (o : MemOps) (l : Nat) : Nat :=
  match laneAcc s c o XReq.load true l with
  | .ok lf => c.gNat s lf.pa o.w.bytes
  | .error _ => 0

def ldcwValue (c : Cur) (o : MemOps) (l : Nat) : Nat :=
  match c.cAccess true (laneEa c o l) o.w.bytes with
  | .ok _ => c.cNat (laneEa c o l) o.w.bytes
  | .error _ => 0

/-- The cells that the lanes of ST write, lane after lane. -/
def stCells (s : State) (c : Cur) (o : MemOps) : List Host.Cell :=
  lastCells ((c.lanes (c.enabled o.g)).flatMap (fun l =>
    match laneAcc s c o XReq.store false l with
    | .ok lf => cellsAt lf.pa (laneBytes c o l)
    | .error _ => []))

def stcwCells (c : Cur) (o : MemOps) : List Host.Cell :=
  lastCells ((c.lanes (c.enabled o.g)).flatMap (fun l => cellsAt (laneEa c o l) (laneBytes c o l)))

/-- The span of a lane of PREF or DISCARD. -/
def spanEa (c : Cur) (o : SpanOps) (l : Nat) : Nat := eaOf c o.base o.va o.off 4 l

/-! ## Singletons (R192): far atomics, SVWAIT (R396 to R403), queues (R135 to R137), barriers (R404 to R411), engines -/

/-- A singleton's event: performed, every other strand's registers as before, and nothing of the package changed but memory,
the strands' waits, the caches of translations and of memory, and pin slots. -/
structure Single (s t : State) (c e : Cur) (d : Cur) : Prop where
  performed : Performed t c e d
  others    : ∀ r, r ≠ c.ref → (t.strand? r).map (·.core) = (s.strand? r).map (·.core)
  package   : t = { s with mem := t.mem, poison := t.poison, dead := t.dead, tlb := t.tlb, walks := t.walks, crews := t.crews,
                           caches := t.caches, pins := t.pins, free := s.free + 1 }

/-- Every byte outside a span is as before, but for discarded words (R221). -/
def SameOutside (s t : State) (p : Nat → Prop) : Prop :=
  ∀ pa, ¬ p pa → s.dead.contains (pa / 4) = false → t.rdByte pa = s.rdByte pa

/-- The strand parks at the instruction. -/
def Parks (s : State) (c : Cur) (i : Instr) (w : Wait) : Prop :=
  ∃ t e, exec i s = .next t ∧ t.curOf c.ref = some e ∧ e.t.wait = w ∧ e.t.chunk = Chunk.none ∧ e.place = c.place ∧
    e.regs = c.regs

/-- The open chunk ends, and the event waits for its commit. -/
def Defers (s : State) (c : Cur) (i : Instr) (op : SingOp) : Prop :=
  ∃ t e, exec i s = .next t ∧ t.curOf c.ref = some e ∧ e.t.wait = .sing op ∧ e.t.chunk.st = .ended ∧ e.place = c.place ∧
    e.regs = c.regs ∧ t.mem = s.mem

/-- A memory access that reaches a page that is not WB is a singleton (R192, R267): an open chunk ends before it and it waits,
and outside any chunk it is made at once, with the registers of `d` and the bytes `gb` behind it. -/
def AsSingleton (s : State) (c : Cur) (i : Instr) (op : SingOp) (d : Cur) (gb : List Host.Cell) : Prop :=
  (c.t.chunk.st = .opened → Defers s c i op) ∧
  (Alone c → Quiet s c → ∃ t e, exec i s = .next t ∧ Single s t c e d ∧ (∀ x ∈ gb, t.rdByte x.1 = x.2) ∧
    SameOutside s t (fun pa => pa ∈ gb.map (·.1)))

/-- A function of the old word, X and the new value of CAS. -/
abbrev AmoRule := ∀ n : Nat, BitVec n → BitVec n → BitVec n → BitVec n

/-- Table 21.2, with the scalar and the lane form of each operation. -/
def amoTable : List (AmoFn × (AmoOps → Instr) × (AmovOps → Instr) × AmoRule) :=
  [(.add, .amoAdd, .amovAdd, fun _ m x _ => m + x), (.sub, .amoSub, .amovSub, fun _ m x _ => m - x),
   (.min, .amoMin, .amovMin, fun _ m x _ => if x.toInt < m.toInt then x else m),
   (.max, .amoMax, .amovMax, fun _ m x _ => if m.toInt < x.toInt then x else m),
   (.minu, .amoMinu, .amovMinu, fun _ m x _ => if x < m then x else m),
   (.maxu, .amoMaxu, .amovMaxu, fun _ m x _ => if m < x then x else m),
   (.and, .amoAnd, .amovAnd, fun _ m x _ => m &&& x), (.or, .amoOr, .amovOr, fun _ m x _ => m ||| x),
   (.xor, .amoXor, .amovXor, fun _ m x _ => m ^^^ x), (.xchg, .amoXchg, .amovXchg, fun _ _ x _ => x),
   (.cas, .amoCas, .amovCas, fun _ m x y => if m = x then y else m),
   (.fadd, .amoFadd, .amovFadd, fun n m x _ => BitVec.ofNat n (fF32.write .rne ((fF32.read m.toNat).add .rne (fF32.read x.toNat)))),
   (.incw, .amoIncw, .amovIncw, fun _ m x _ => if x ≤ m then 0 else m + 1),
   (.decw, .amoDecw, .amovDecw, fun _ m x _ => if m = 0 ∨ x < m then x else m - 1)]

/-- Operations on words in order: the old values, and the words behind them. -/
def inOrder {n : Nat} (f : BitVec n → BitVec n → BitVec n → BitVec n) :
    List (Nat × BitVec n × BitVec n) → (Nat → BitVec n) → List (BitVec n) × (Nat → BitVec n)
  | [], m => ([], m)
  | (a, x, y) :: ls, m =>
    let r := inOrder f ls (fun b => if b = a then f (m a) x y else m b)
    (m a :: r.1, r.2)

/-- Bytes of a word of AMOV. -/
def amovBytes (o : AmovOps) : Nat := if o.t = .w64 then 8 else 4

/-- The number in registers at a lane, the first register lowest. -/
def wordsAt (c : Cur) (rs : List VReg) (l : Nat) : Nat := rs.foldr (fun r a => (lane c r l).toNat + 2 ^ 32 * a) 0

def amovAcc (s : State) (c : Cur) (o : AmovOps) (l : Nat) : Except Stop Leaf :=
  s.gAccess c XReq.atomic true (eaOf c o.base o.va o.off (amovBytes o) l) (amovBytes o) (amovBytes o)

/-- The lanes of AMOV, ascending, with the word of each. -/
def amovWords (s : State) (c : Cur) (o : AmovOps) : List (Nat × Nat) :=
  (c.lanes (c.enabled o.g)).filterMap (fun l => (amovAcc s c o l).toOption.map (fun lf => (l, lf.pa)))

/-- The data registers of AMOV. -/
def amovRegs (o : AmovOps) (cas : Bool) : List VReg := runOf o.d (o.run cas)

/-- Old values and final words of AMOV. -/
def amovResult (s : State) (c : Cur) (o : AmovOps) (f : AmoFn) (rule : AmoRule) :
    List (BitVec (8 * amovBytes o)) × (Nat → BitVec (8 * amovBytes o)) :=
  let k := if o.t = .w64 then 2 else 1
  let rs := amovRegs o (f = .cas)
  inOrder (rule (8 * amovBytes o))
    ((amovWords s c o).map (fun x => (x.2, BitVec.ofNat _ (wordsAt c (rs.take k) x.1), BitVec.ofNat _ (wordsAt c (rs.drop k) x.1))))
    (fun pa => BitVec.ofNat _ (s.rdNat pa (amovBytes o)))

/-- The lanes of AMOV as they are to be performed: address, word and operands of each. -/
def amovPlanned (s : State) (c : Cur) (o : AmovOps) (f : AmoFn) : List AmovLane :=
  let k := if o.t = .w64 then 2 else 1
  let rs := amovRegs o (f = .cas)
  (c.lanes (c.enabled o.g)).filterMap (fun l => (amovAcc s c o l).toOption.map (fun lf =>
    { lane := l, va := eaOf c o.base o.va o.off (amovBytes o) l, pa := lf.pa, pol := lf.pol,
      x := wordsAt c (rs.take k) l, y := wordsAt c (rs.drop k) l }))

/-- A singleton has been performed in part: the strand waits at the instruction for the rest. -/
structure Underway (s t : State) (c e : Cur) (w : Wait) : Prop where
  here    : t.curOf c.ref = some e
  wait    : e.t.wait = w
  chunk   : e.t.chunk = Chunk.none
  place   : e.place = c.place
  regs    : e.regs = c.regs
  others  : ∀ r, r ≠ c.ref → (t.strand? r).map (·.core) = (s.strand? r).map (·.core)
  package : t = { s with mem := t.mem, poison := t.poison, dead := t.dead, tlb := t.tlb, walks := t.walks, crews := t.crews,
                         caches := t.caches, free := s.free + 1 }

/-- The registers behind AMOV: in each enabled lane the old value of its word, by the lanes' old values. -/
def amovInto (c : Cur) (o : AmovOps) (olds : List (Nat × Nat)) : Cur :=
  c.writeRun (runOf o.d (if o.t = .w64 then 2 else 1)) (c.enabled o.g) o.t (fun l i =>
    BitVec.ofNat 32 ((((olds.find? (fun v => v.1 == l)).map (·.2)).getD 0) / 2 ^ (32 * i)))

/-- The event of the next lane of AMOV, behind which it goes on or waits for the others. -/
def LaneDone (s t : State) (c e : Cur) (f : AmoFn) (o : AmovOps) (rule : AmoRule) (olds : List (Nat × Nat)) :
    List AmovLane → Prop
  | [] => Single s t c e (amovInto c o olds) ∧ t.mem = s.mem
  | x :: rest =>
    let n := amovBytes o
    let m := s.rdNat x.pa n
    t.rdNat x.pa n = (rule (8 * n) (BitVec.ofNat _ m) (BitVec.ofNat _ x.x) (BitVec.ofNat _ x.y)).toNat ∧
    SameOutside s t (fun pa => x.pa ≤ pa ∧ pa < x.pa + n) ∧
    (rest = [] → Single s t c e (amovInto c o ((x.lane, m) :: olds))) ∧
    (rest ≠ [] → Underway s t c e (.amov f o rest ((x.lane, m) :: olds)))

/-- `n` events of a strand, one behind the other. -/
def eventsOf (r : StrandRef) : Nat → State → State
  | 0, s => s
  | n + 1, s => match exec (.singletonEvent r) s with
    | .next t => eventsOf r n t
    | _ => s

/-- The tag that a type asks of the data registers (Table 21.3). -/
def amovTagOk (o : AmovOps) (t : Tag) : Prop :=
  if o.t = .w64 then t = .w64 else if o.t = .f32 then t = .f32 else t ∈ [Tag.i32, .u32, .raw]

/-- The old value of a lane. -/
def oldOf {n : Nat} (ws : List (Nat × Nat)) (olds : List (BitVec n)) (l : Nat) : BitVec n :=
  (((ws.zip olds).find? (fun x => x.1.1 == l)).map (·.2)).getD 0

/-- A word of SVWAIT can be read: aligned, in a readable SY page of the context's overflow area, and not poisoned. -/
def SvOk (s : State) (c : Cur) (o : AmoOps) (l : Leaf) : Prop :=
  let va := (c.sr o.sa).toNat
  let n := if o.w64 then 8 else 4
  va % n = 0 ∧ va < 2 ^ 57 ∧ s.coreXlate c.ctx va XReq.load = .ok l ∧ l.pol = 2 ∧ ∀ i, i < n → c.gPoison s (l.pa + i) = false

/-- The scalars of an item as its bytes, and bytes as scalars. -/
def itemBytesOf (c : Cur) (sa : SReg) (n : Nat) : List Byte :=
  (List.range (n / 8)).flatMap (fun i => bytesOf 8 (c.sr (sregAt (sa.val + i))).toNat)
def withItem (c : Cur) (sa : SReg) (bs : List Byte) : Cur :=
  (List.range (bs.length / 8)).foldl (fun c i =>
    c.setS (sregAt (sa.val + i)) (BitVec.ofNat 64 (ofBytes ((bs.drop (8 * i)).take 8)))) c

/-- Status and predicate. -/
def answered (c : Cur) (sd : SReg) (p : PReg) (st : Nat) (set : Bool) : Cur :=
  (c.setS sd (BitVec.ofNat 64 st)).setP p c.l (if set then c.l else 0)

/-- A queue that an instruction names: it exists, and the scalar run of its item lies below s64. -/
def QueueAt (s : State) (c : Cur) (o : QueueOps) (x : Queue) : Prop :=
  s.queue? c.ctx o.q.toNat = some x ∧ x.st ≠ .free ∧ o.sa.val + 16 * 2 ^ x.isz / 8 ≤ 64

/-- An access of a whole slot by the device. -/
def SlotOk (s : State) (c : Cur) (x : Queue) (pos : Nat) (q : XReq) (l : Leaf) : Prop :=
  s.translate c.ctx (x.slotVa pos) q = .ok l ∧ ∀ i, i < 16 * 2 ^ x.isz → s.isPoison (l.pa + i) = false

/-- The device finds no translation of a slot, by a fault that no REPLAY can mend (R471). -/
def SlotFatal (s : State) (c : Cur) (x : Queue) (pos : Nat) (q : XReq) : Prop :=
  ∃ err, s.translate c.ctx (x.slotVa pos) q = .error err ∧ ∀ r, err ≠ .fault r false

/-- It meets poison in the slot. -/
def SlotPoison (s : State) (c : Cur) (x : Queue) (pos : Nat) (q : XReq) : Prop :=
  ∃ l i, s.translate c.ctx (x.slotVa pos) q = .ok l ∧ i < 16 * 2 ^ x.isz ∧ s.isPoison (l.pa + i) = true

/-- The bytes of a queue's record from `off` on, where the device writes them. -/
def InRecord (s : State) (c : Cur) (x : Queue) (off n pa : Nat) : Prop :=
  ∃ l, s.translate c.ctx (x.recAddr + off) XReq.devWrite = .ok l ∧ l.pa ≤ pa ∧ pa < l.pa + n

/-- The record of a queue can be written at once: it is live, nothing waits in front of it, and no fence holds it back. -/
def RecordReady (s : State) (c : Cur) (q : Nat) (x : Queue) (off n : Nat) : Prop :=
  x.recDead = false ∧ s.recWaits c.ctx q x.conf = [] ∧ s.fences = [] ∧
    ∃ l, s.translate c.ctx (x.recAddr + off) XReq.devWrite = .ok l ∧ ∀ i, i < n → s.isPoison (l.pa + i) = false

/-- A barrier word can be named: in crew memory, aligned, by a warp that is not divided (R406). -/
def BarOk (c : Cur) (sa : SReg) : Prop :=
  (c.sr sa).toNat + 8 ≤ c.crew.launch.crewmem ∧ (c.sr sa).toNat % 8 = 0 ∧ c.warp.live ≤ 1

/-- The crew's table holds the barrier, and its word shows it (R405). -/
def BarIs (t : State) (c : Cur) (b : Barrier) : Prop :=
  ∃ k, t.crew? c.ref.w.crew = some k ∧ k.bar? b.off = some b ∧ ofBytes (cellsRead k.mem b.off 8) = barWord b

/-- Every strand of the crew that is parked at a barrier goes on: behind a BARW with the phase in which it arrived, behind a BWT
with the phase that follows (R408, R409). -/
def WakesAll (s t : State) (c : Cur) (b : Barrier) : Prop :=
  ∀ r d sd ph barw, r ≠ c.ref → r.w.crew = c.ref.w.crew → r.strand < 4 → s.curOf r = some d →
    d.t.wait = .bar sd b.off ph barw →
    ∃ e, t.curOf r = some e ∧ e.t.wait = .none ∧ e.place = d.behind 1 ∧
      e.t.core.s = (d.setS sd (BitVec.ofNat 64 (bit (if barw then ph else !b.phase)))).t.core.s

/-- The participants of a new barrier: the live warps chosen by the mask (R407). -/
def chosenBy (c : Cur) (mask : Nat) : List Nat :=
  (c.crew.warps.filter (fun w => !w.exited && bitAt mask (w.id % 16))).map (·.id)

/-- The status word of Table 16.5. -/
def statusWord (c : Cur) (n : W32) (pending : Bool) : W64 :=
  let ovf := match c.warp.report with | some r => r.ovf | none => false
  match c.reportFor n with
  | some r => BitVec.ofNat 64 (2 ^ 32 * r.n.toNat + 256 * r.kind + 4 * bit ovf + 2 * bit pending + 1)
  | none => BitVec.ofNat 64 (4 * bit ovf + 2 * bit pending)

/-- The registers behind BWAIT and BTEST: the status word and the fault address. -/
def reported (c : Cur) (o : SabOps) (n : W32) (pending : Bool) : Cur :=
  (c.setS o.sd (statusWord c n pending)).setS o.sb (BitVec.ofNat 64 (((c.reportFor n).map (·.va)).getD 0))

/-- The batch number that s(sa) names is closed (R319). -/
def Closed (c : Cur) (sa : SReg) : Prop :=
  let d := c.t.core.batchn - (c.sr sa).setWidth 32
  1 ≤ d.toNat ∧ d.toNat ≤ 2 ^ 31

/-! ENGQ's verdicts (R304 to R311, R413, R418). -/

/-- A number of `n` bytes at a place of a command or a record. -/
def fieldOf (bs : List Byte) (off n : Nat) : Nat := ofBytes ((bs.drop off).take n)

/-- The fields of a tensor shape record (Table 16.3). -/
def tsrBase (r : List Byte) : Nat := fieldOf r 0 8
def tsrSize (r : List Byte) : Nat := 2 ^ fieldOf r 8 1
def tsrRank (r : List Byte) : Nat := fieldOf r 9 1
def tsrPerm (r : List Byte) (i : Nat) : Nat := fieldOf r 12 4 / 8 ^ i % 8
def tsrExt (r : List Byte) (d : Nat) : Nat := fieldOf r (16 + 4 * d) 4
def tsrStr (r : List Byte) (d : Nat) : Int := (BitVec.ofNat 64 (fieldOf r (48 + 8 * d) 8)).toInt
def rankGood (r : List Byte) : Prop := 1 ≤ tsrRank r ∧ tsrRank r ≤ 7

/-- The used dimensions (R307). -/
def usedDims (r : List Byte) : List Nat := (List.range (tsrRank r)).filter (fun d => 1 < tsrExt r d)

/-- BAD_FIELD in a record: an MBZ field that is not zero, or a reserved element size (R307, R309). -/
def RecordReserved (r : List Byte) (dest : Bool) : Prop :=
  fieldOf r 104 24 ≠ 0 ∨ fieldOf r 44 4 ≠ 0 ∨ fieldOf r 11 1 ≠ 0 ∨ 1 < fieldOf r 10 1 ∨ 4 < fieldOf r 8 1 ∨
    (rankGood r ∧ ((∃ d, tsrRank r ≤ d ∧ d < 7 ∧ (tsrExt r d ≠ 0 ∨ tsrStr r d ≠ 0)) ∨
      (dest = true ∧ fieldOf r 12 4 / 8 ^ tsrRank r ≠ 0)))

/-- TSR_SHAPE: the ranks differ, PERM is no permutation, or an extent does not match. -/
def ShapeFails (src dst : List Byte) : Prop :=
  tsrRank src ≠ tsrRank dst ∨ (∃ i, i < tsrRank dst ∧ ∀ j, j < tsrRank dst → tsrPerm dst j ≠ i) ∨
    ∃ i, i < tsrRank dst ∧ tsrExt dst i ≠ tsrExt src (tsrPerm dst i)

/-- TSR_ALIGN of a record. -/
def AlignFails (r : List Byte) : Prop :=
  tsrBase r % tsrSize r ≠ 0 ∨ ∃ d ∈ usedDims r, tsrStr r d % (tsrSize r : Int) ≠ 0

/-- The lowest and the highest byte that a record addresses (R311). -/
def lowest (r : List Byte) : Int := tsrBase r + ((usedDims r).map (fun d => min 0 (tsrStr r d * (tsrExt r d - 1)))).sum
def highest (r : List Byte) : Int :=
  tsrBase r + ((usedDims r).map (fun d => max 0 (tsrStr r d * (tsrExt r d - 1)))).sum + tsrSize r - 1

/-- TSR_RANGE of a record. -/
def RangeFails (r : List Byte) (crewmem : Nat) : Prop :=
  if fieldOf r 10 1 = 1 then lowest r < 0 ∨ (crewmem : Int) ≤ highest r
  else lowest r < 0 ∨ 2 ^ 57 ≤ lowest r ∨ highest r < 0 ∨ 2 ^ 57 ≤ highest r

/-- What the used dimensions before `d` reach, in ascending order of stride and, among equal ones, of dimension (R310). -/
def reachBefore (r : List Byte) (d : Nat) : Nat :=
  tsrSize r + (((usedDims r).filter (fun x => (tsrStr r x).natAbs < (tsrStr r d).natAbs ||
    ((tsrStr r x).natAbs == (tsrStr r d).natAbs && x < d))).map (fun x => (tsrStr r x).natAbs * (tsrExt r x - 1))).sum

/-- TSR_OVERLAP of a destination. -/
def OverlapFails (r : List Byte) : Prop := ∃ d ∈ usedDims r, (tsrStr r d).natAbs < reachBefore r d

/-- The copy moves nothing. -/
def MovesNothing (src dst : List Byte) : Prop := ∃ r ∈ [src, dst], ∃ d, d < tsrRank r ∧ tsrExt r d = 0

/-- The first code that fails of the two records of a copy, or 0 (R309). -/
def CopyCode (src dst : List Byte) (crewmem : Nat) : Nat → Prop :=
  FirstCase [(RecordReserved src false ∨ RecordReserved dst true, 3), (¬ rankGood src ∨ ¬ rankGood dst, 4),
    (fieldOf src 8 1 ≠ fieldOf dst 8 1, 5), (ShapeFails src dst, 6), (AlignFails src ∨ AlignFails dst, 7),
    (MovesNothing src dst, 0), (RangeFails src crewmem ∨ RangeFails dst crewmem, 8), (OverlapFails dst, 9)] 0

/-- An address field that is misaligned or has bits [63:57] set. -/
def BadAddr (a align : Nat) : Prop := a % align ≠ 0 ∨ 2 ^ 57 ≤ a

/-- The code of a bulk command (R413). -/
def BulkCode (bs : List Byte) : Nat → Prop :=
  let a := fieldOf bs 8 8
  let n := fieldOf bs 16 8
  let v := fieldOf bs 24 8
  FirstCase [(fieldOf bs 0 1 ≠ 1 ∧ fieldOf bs 0 1 ≠ 2, 2),
    (fieldOf bs 1 7 ≠ 0 ∨ fieldOf bs 32 32 ≠ 0 ∨ BadAddr a 4 ∨ (fieldOf bs 0 1 = 1 ∧ 2 ^ 32 ≤ v) ∨
      (fieldOf bs 0 1 = 2 ∧ BadAddr v 4), 3),
    (n = 0 ∨ 2 ^ 20 < n, 16), (2 ^ 57 < a + 4 * n ∨ (fieldOf bs 0 1 = 2 ∧ 2 ^ 57 < v + 4 * n), 17)] 0

/-- The command of Table 21.7. -/
def bulkKind (bs : List Byte) : CmdKind :=
  if fieldOf bs 0 1 = 1 then .syFill (fieldOf bs 8 8) (fieldOf bs 16 8) (BitVec.ofNat 32 (fieldOf bs 24 8))
  else .sySave (fieldOf bs 8 8) (fieldOf bs 16 8) (fieldOf bs 24 8)

/-- A link of a mask is ACTIVE or DEGRADED. -/
def SomeLink (s : State) (mask : Nat) : Prop :=
  ∃ i x, i < 12 ∧ bitAt mask i = true ∧ s.links[i]? = some x ∧ (x.st = .active ∨ x.st = .degraded)

/-- The code of a link command (R418). -/
def LinkCode (s : State) (c : Cur) (bs : List Byte) : Nat → Prop :=
  let opc := fieldOf bs 0 1
  let a := fieldOf bs 8 8
  let r := fieldOf bs 16 8
  let n := fieldOf bs 24 4
  let has := fun (p : Window → Prop) => ∃ w, s.window? c.ctx (fieldOf bs 1 1) = some w ∧ p w
  FirstCase [(opc ≠ 1 ∧ opc ≠ 2, 2), (fieldOf bs 2 6 ≠ 0 ∨ fieldOf bs 28 36 ≠ 0 ∨ BadAddr a 4 ∨ r % 4 ≠ 0, 3),
    (s.window? c.ctx (fieldOf bs 1 1) = none, 16), (has (fun w => bitAt w.rights (opc - 1) = false), 17),
    (n = 0 ∨ n % 4 ≠ 0 ∨ 2 ^ 24 < n, 18), (has (fun w => w.size < r + n) ∨ 2 ^ 57 < a + n, 19),
    (has (fun w => w.st = .frozen ∨ ¬ SomeLink s w.links), 20)] 0

/-- The command of Table 22.4. -/
def linkKind (bs : List Byte) : CmdKind :=
  if fieldOf bs 0 1 = 1 then .put (fieldOf bs 1 1) (fieldOf bs 8 8) (fieldOf bs 16 8) (fieldOf bs 24 4)
  else .get (fieldOf bs 1 1) (fieldOf bs 8 8) (fieldOf bs 16 8) (fieldOf bs 24 4)

/-- Commands that an engine holds. -/
def heldBy (s : State) (p : Cmd → Bool) : Nat := (s.cmds.filter (fun x => p x && !x.finished && !x.lost)).length

/-- ENGQ's engine is full (R305, R413, R418): the warp holds 32 commands of incomplete batches, or the copy engine of its core
64, the link engine 1,024, or the synchronisation engine of its die 256. -/
def EngineFull (s : State) (c : Cur) (q : Nat) : Prop :=
  32 ≤ (s.cmds.filter (fun x => x.warp == some c.ref.w)).length ∨
    (q = 0 ∧ 64 ≤ heldBy s (fun x => x.kind.cls == 1 && x.core == c.crew.core)) ∨
    (q = 1 ∧ 1024 ≤ heldBy s (fun x => x.kind.cls == 3)) ∨
    (q = 2 ∧ 256 ≤ heldBy s (fun x => x.kind.cls == 2 && x.core / 96 == c.crew.core / 96))

/-- ENGQ answers a status that accepts nothing. -/
def Rejects (s : State) (c : Cur) (o : EngqOps) (st : Nat) : Prop :=
  ∃ t e, exec (.engq o) s = .next t ∧ Single s t c e (answered c o.sd o.p st (st = 1)) ∧ t.mem = s.mem

/-- ENGQ accepts a command: it joins the warp's open commands, behind the fences in force, abandoned where the open batch is
marked FAULT (R312). -/
def Accepts (s : State) (c : Cur) (o : EngqOps) (k : CmdKind) : Prop :=
  ∃ t e x, exec (.engq o) s = .next t ∧ Performed t c e (answered c o.sd o.p 0 false) ∧ t.mem = s.mem ∧
    t.cmds = s.cmds ++ [x] ∧ t.nextCmd = s.nextCmd + 1 ∧
    x = { id := s.nextCmd, kind := k, warp := some c.ref.w, mates := [], ctx := c.ctx, voy := c.ref.w.crew.voy,
          crew := c.ref.w.crew, core := c.crew.core, batch := none, openN := c.t.core.batchn, buf := [], done := [],
          stall := none, abandoned := c.warp.openFault.isSome, after := s.fencesOn c.ctx k.cls, linkSent := false,
          lost := false }

/-- A status that rejects, or 0, which accepts. -/
def Verdicts (s : State) (c : Cur) (o : EngqOps) (code : Nat → Prop) (k : CmdKind) : Prop :=
  ∀ st, code st → (st ≠ 0 → Rejects s c o st) ∧ (st = 0 → Accepts s c o k)

/-- A tensor shape record can be read at ENGQ's event (R309). -/
def tsrAcc (s : State) (c : Cur) (va : Nat) : Except Stop Leaf := s.gAccess c XReq.load true va 128 128

/-! ## The tile (R329 to R343) and the matrix instructions (R344 to R353) -/

/-- The tile can be accessed, and the chunk has room for a write of it (R191, R197). -/
def TileOk (c : Cur) (t : TReg) : Prop :=
  c.tileOk t = true ∧ c.tileHeld t = false ∧ Room c c ∧ Room c (c.setTile t Tile.undef)

/-- A readable tile: ZERO, or LIVE under an accepted tag. -/
def Readable (x : Tile) (p : Tag → Bool) : Prop := x.st = .zero ∨ (x.st = .live ∧ p x.tag = true)

/-- Element `k` of a tile as it is read (R331). -/
def tileElem (x : Tile) (k : Nat) : W32 := if x.st = .zero then 0 else x.e.getD k 0

/-- The tag that a tile gives: F32 for a ZERO tile. -/
def tileTag (x : Tile) : Tag := if x.st = .zero then .f32 else x.tag

/-- A LIVE tile with the elements given; SAT is kept. -/
def liveTile (x : Tile) (g : Tag) (f : Nat → W32) : Tile := { st := .live, tag := g, sat := x.sat, e := (List.range 256).map f }

/-- Register `j` of a run. -/
def regAt (r : VReg) (j : Nat) : VReg := (vplus r j).getD r

/-- The lane that row `i` of A, at depth part `h`, lies in: octet ⌊i / RO⌋, place i mod RO + RO × h (R333). -/
def laneOfRow (w i h : Nat) : Nat := 8 * (i / (128 / w)) + i % (128 / w) + (128 / w) * h

/-- The depth part of depth `k` of `kk`, and its place in the part's run (R333). -/
def partOf (w kk k : Nat) : Nat := k / (kk / (w / 16))
def placeOf (w kk k : Nat) : Nat := k % (kk / (w / 16))

/-- A[i][k] and B[k][j]; a lane outside L reads as zero in B (R349). -/
def matA (c : Cur) (t : Tag) (kk : Nat) (r : VReg) (i k : Nat) : BitVec t.bits :=
  elem t (placeOf c.width kk k % t.elems) (lane c (regAt r (placeOf c.width kk k / t.elems)) (laneOfRow c.width i (partOf c.width kk k)))
def matB (c : Cur) (t : Tag) (kk : Nat) (r : VReg) (k j : Nat) : BitVec t.bits :=
  let l := j + 16 * partOf c.width kk k
  if hasLane c.l l then elem t (placeOf c.width kk k % t.elems) (lane c (regAt r (placeOf c.width kk k / t.elems)) l) else 0

/-- The bounds operand (Table 18.3). -/
def rowsB (c : Cur) (o : MmaOps) : Nat := ((c.sr o.bnd).extractLsb' 0 5).toNat
def colsB (c : Cur) (o : MmaOps) : Nat := ((c.sr o.bnd).extractLsb' 5 5).toNat
def depthB (c : Cur) (o : MmaOps) : Nat := ((c.sr o.bnd).extractLsb' 10 7).toNat
def maskedB (c : Cur) (o : MmaOps) : Bool := (c.sr o.bnd).getLsbD 17
def BoundsOk (c : Cur) (o : MmaOps) (kk : Nat) : Prop :=
  (c.sr o.bnd).toNat < 2 ^ 18 ∧ rowsB c o ≤ 16 ∧ colsB c o ≤ 16 ∧ depthB c o ≤ kk ∧ ¬ (maskedB c o = true ∧ o.bnd = 63)

/-- A depth within DEPTH and the mask. -/
def depthIn (c : Cur) (o : MmaOps) (k : Nat) : Bool :=
  decide (k < depthB c o) && (!(maskedB c o) || (c.sr (sregAt (o.bnd.val + 1))).getLsbD k)

/-- Every octet lies in EM whole or not at all (R347). -/
def OctetsOk (c : Cur) : Prop :=
  ∀ q, q < c.width / 8 → (∀ l, l < 8 → hasLane c.em (8 * q + l) = true) ∨ (∀ l, l < 8 → hasLane c.em (8 * q + l) = false)

/-- The element is computed (R348). -/
def isComputed (c : Cur) (o : MmaOps) (i j : Nat) : Bool :=
  decide (i < rowsB c o) && decide (j < colsB c o) &&
    (List.range 8).all (fun l => hasLane c.em (8 * (i / (128 / c.width)) + l))

/-- Registers and tile of a matrix instruction. -/
structure MmaOk (c : Cur) (o : MmaOps) (ta tb : Tag) (kk : Nat) (res : Tag) (mx : Bool) : Prop where
  tile   : TileOk c o.tile
  acc    : Readable (c.tile o.tile) (· == res)
  width  : c.width ∈ [16, 32, 64]
  runA   : ∀ j, j < kk * ta.bits / (32 * (c.width / 16)) → ∃ r, vplus o.a j = some r ∧ c.regOk r = true ∧ (c.vr r).tag = ta
  runB   : ∀ j, j < kk * tb.bits / (32 * (c.width / 16)) → ∃ r, vplus o.b j = some r ∧ c.regOk r = true ∧ (c.vr r).tag = tb
  scaled : mx = true → o.scl.isSome = true
  scale  : ∀ r, o.scl = some r → c.regOk r = true ∧ (c.vr r).tag = .e8m0x4
  bounds : BoundsOk c o kk
  octets : OctetsOk c

/-- The scale codes of the block of depth `k`, for row `i` and column `j` (R335, R349). -/
def sclA (c : Cur) (o : MmaOps) (i k : Nat) : Nat :=
  match o.scl with
  | some r => if hasLane c.l i then (elem .e8m0x4 (k / 32) (lane c r i)).toNat else 0
  | none => 127
def sclB (c : Cur) (o : MmaOps) (j k : Nat) : Nat :=
  match o.scl with
  | some r => if hasLane c.l j then (elem .e8m0x4 (2 + k / 32) (lane c r j)).toNat else 0
  | none => 127

/-- The exact product of a depth under its scales. -/
def mxTerm (a b : FNum) (x y : Nat) : FNum :=
  if x = 255 ∨ y = 255 then .nan else scaled ((x : Int) + y - 254) (a.mul b)

/-- The terms of a computed element: those of the contributing depths (R348, R351). -/
def mmaTerms (c : Cur) (o : MmaOps) (ta tb : Tag) (kk i j : Nat) : List FNum :=
  ((List.range kk).filter (fun k => depthIn c o k && sclA c o i k != 0 && sclB c o j k != 0)).map (fun k =>
    mxTerm (flushIn (ffmtOf ta) c.t.core.acr (matA c ta kk o.a i k).toNat)
      (flushIn (ffmtOf tb) c.t.core.acr (matB c tb kk o.b k j).toNat) (sclA c o i k) (sclB c o j k))

/-- The floating-point instructions: A and B types, depth, and whether scales are required. -/
def mmaTable : List ((MmaOps → Instr) × Tag × Nat × Bool) :=
  [(.mmaF16, .f16x2, 16, false), (.mmaBf16, .bf16x2, 16, false), (.mmaE4m3, .e4m3x4, 32, false),
   (.mmaE5m2, .e5m2x4, 32, false), (.mmaMxe4m3, .e4m3x4, 32, true), (.mmaMxe5m2, .e5m2x4, 32, true),
   (.mmaMxe2m1, .e2m1x8, 64, true)]

/-- The integer and ternary instructions. -/
def mmaiTable : List ((MmaOps → Instr) × Tag × Tag × Nat) :=
  [(.mmaiI8i8, .i8x4, .i8x4, 32), (.mmaiU8i8, .u8x4, .i8x4, 32), (.mmaiI4i4, .i4x8, .i4x8, 64),
   (.mmatI8t2, .i8x4, .t2x16, 64), (.mmatU8t2, .u8x4, .t2x16, 64)]

/-- The integer of an element; T2 codes 01 and 11 are 1 and -1. -/
def intElem (t : Tag) (x : BitVec t.bits) : Int :=
  if t = .t2x16 then (if x.toNat = 1 then 1 else if x.toNat = 3 then -1 else 0) else num (signedType t) x

/-- The exact value of a computed element (R353). -/
def mmaiExact (c : Cur) (o : MmaOps) (ta tb : Tag) (kk i j : Nat) : Int :=
  (tileElem (c.tile o.tile) (16 * i + j)).toInt +
    (((List.range kk).filter (depthIn c o)).map (fun k =>
      intElem ta (matA c ta kk o.a i k) * intElem tb (matB c tb kk o.b k j))).sum

/-- The tile behind a matrix instruction: computed elements replaced, and untouched where there is none. -/
def mmaInto (c : Cur) (o : MmaOps) (res : Tag) (g : Nat → Nat → W32) (sat : Bool) : Cur :=
  if (List.range 256).any (fun x => isComputed c o (x / 16) (x % 16)) then
    c.setTile o.tile
      { liveTile (c.tile o.tile) res (fun x =>
          if isComputed c o (x / 16) (x % 16) then g (x / 16) (x % 16) else tileElem (c.tile o.tile) x)
        with sat := (c.tile o.tile).sat || sat }
  else c

/-- The run of registers that AMOVV and AMOVA move. -/
def tileRun (c : Cur) (v : VReg) : List VReg := runOf v (256 / c.width)

/-- Bytes of an element of ALD and AST. -/
def tileBytes (o : TileMemOps) : Nat := if o.f = .f32 ∨ o.f = .i32 then 4 else 2

/-- The tile descriptor in s(base + 1) (R337). -/
def tileRows (c : Cur) (o : TileMemOps) : Nat := ((c.sr (sregAt (o.base.val + 1))).extractLsb' 0 5).toNat
def tileCols (c : Cur) (o : TileMemOps) : Nat := ((c.sr (sregAt (o.base.val + 1))).extractLsb' 5 5).toNat
def tilePitch (c : Cur) (o : TileMemOps) : Nat := ((c.sr (sregAt (o.base.val + 1))).extractLsb' 32 32).toNat
def TileDescOk (c : Cur) (o : TileMemOps) : Prop :=
  (c.sr (sregAt (o.base.val + 1))).extractLsb' 10 22 = 0 ∧ tileRows c o ≤ 16 ∧ tileCols c o ≤ 16

/-- The address of element (i, j). -/
def tileEa (c : Cur) (o : TileMemOps) (i j : Nat) : Nat :=
  (BitVec.ofInt 64 ((c.sr o.base).toNat + o.off.toInt * tileBytes o + i * tilePitch c o + j * tileBytes o)).toNat

/-- The access of element (i, j). -/
def tileAcc (s : State) (c : Cur) (o : TileMemOps) (q : XReq) (rd : Bool) (i j : Nat) : Except Stop Leaf :=
  s.gAccess c q rd (tileEa c o i j) (tileBytes o) (tileBytes o)

/-- The elements in bounds, row after row. -/
def tileSpots (c : Cur) (o : TileMemOps) : List (Nat × Nat) :=
  (List.range (tileRows c o)).flatMap (fun i => (List.range (tileCols c o)).map (fun j => (i, j)))

/-- The element that ALD makes of the number `w` (R338). -/
def elemFrom (c : Cur) (o : TileMemOps) (w : Nat) : W32 :=
  if o.f = .f16 then BitVec.ofNat 32 (fF32.write .rne (flushIn fF16 c.t.core.acr w)) else BitVec.ofNat 32 w

/-- The element that ALD makes of element (i, j) in memory, as `read` gives the number there. -/
def elemRead (s : State) (c : Cur) (o : TileMemOps) (read : Nat → Nat) (i j : Nat) : W32 :=
  match tileAcc s c o XReq.load true i j with
  | .ok lf => elemFrom c o (read lf.pa)
  | .error _ => 0

/-- The tile that ALD makes: the elements in bounds from memory, zeros elsewhere, SAT clear. -/
def tileRead (s : State) (c : Cur) (o : TileMemOps) (read : Nat → Nat) : Tile :=
  { st := .live, tag := if o.f = .i32 then .i32 else .f32, sat := false,
    e := (List.range 256).map (fun x => if x / 16 < tileRows c o ∧ x % 16 < tileCols c o
      then elemRead s c o read (x / 16) (x % 16) else 0) }

/-- The bytes that AST makes of an element (R338). -/
def storedElem (c : Cur) (o : TileMemOps) (x : W32) : List Byte :=
  let v := flushIn fF32 c.t.core.acr x.toNat
  match o.f with
  | .f16 => bytesOf 2 (rounded fF16 c.t.core.acr (modeFor c.t.core.acr none) v)
  | .bf16 => bytesOf 2 (rounded fBF16 c.t.core.acr (modeFor c.t.core.acr none) v)
  | _ => bytesOf 4 x.toNat

/-- The cells that AST stores, element after element. -/
def astCells (s : State) (c : Cur) (o : TileMemOps) : List Host.Cell :=
  lastCells ((tileSpots c o).flatMap (fun p =>
    match tileAcc s c o XReq.store false p.1 p.2 with
    | .ok lf => cellsAt lf.pa (storedElem c o (tileElem (c.tile o.tile) (16 * p.1 + p.2)))
    | .error _ => []))

/-- The code of a tile's state (Table 17.1). -/
def stateCode : TileSt → Nat
  | .undef => 0 | .zero => 1 | .live => 2 | .poison => 3

/-- The query word of ATAG: tag, state and SAT. -/
def tileQuery (x : Tile) : W64 :=
  BitVec.ofNat 64 ((if x.st = .live then x.tag.code else 0) + 32 * stateCode x.st + 256 * bit x.sat)

/-! ## Cursors (R357 to R393) -/

/-- A read of the walker within a WB page. -/
def Walkable (s : State) (c : Cur) (va n : Nat) : Prop := ∃ l, s.gAccess c XReq.walker true va n n = .ok l

/-- The level descriptor `d` stands in memory at its address and passes R359. -/
structure Level (s : State) (c : Cur) (d : LDesc) : Prop where
  reads : Walkable s c d.addr 64
  here  : d = ldescOf d.addr (numberAtVa s c d.addr 64)
  ok    : d.ok = true
  place : d.addr % 64 = 0 ∧ 0 < d.addr ∧ d.addr < 2 ^ 57

/-- An element of a fibre: index, offset in its run or block, coordinate and position. -/
structure Elem where
  idx   : Nat
  sub   : Nat
  coord : Nat
  pos   : Nat

/-- The bitmap word that holds an index. -/
def bitmapWord (s : State) (c : Cur) (d : LDesc) (i : Nat) : Nat := numberAtVa s c (d.auxa + 8 * (i / 64)) 8

/-- The elements at index `i` of a fibre from `lo`, in order (Table 19.4). -/
def entryOf (s : State) (c : Cur) (d : LDesc) (lo i : Nat) : List Elem :=
  let crd := numberAtVa s c (d.crda + d.cw * i) d.cw
  let slot := numberAtVa s c (d.auxa + 8 * i) 8
  let run := fun k => numberAtVa s c (d.auxa + 12 * i + k) 4
  match d.kind with
  | 0 => [⟨i, 0, i - lo, i⟩]
  | 1 => [⟨i, 0, crd, i⟩]
  | 2 =>
    let w := bitmapWord s c d i
    if w.testBit (i % 64) then
      [⟨i, 0, i - lo, numberAtVa s c (d.posa + d.pw * (i / 64)) d.pw + ((List.range (i % 64)).filter w.testBit).length⟩]
    else []
  | 3 => if slot % 2 ^ 32 = 0xFFFFFFFF then [] else [⟨i, 0, slot % 2 ^ 32, slot / 2 ^ 32⟩]
  | 4 => (List.range (run 4)).map (fun u => ⟨i, u, run 0 + u, run 8⟩)
  | _ => ((List.range d.blksz).filter (fun u => crd * d.blksz + u < d.ext)).map (fun u =>
      ⟨i, u, crd * d.blksz + u, i * d.blksz + u⟩)

/-- The elements of a fibre [lo, hi) from index `i` on, in fibre order (R360). -/
def fibreFrom (s : State) (c : Cur) (d : LDesc) (lo hi i : Nat) : List Elem :=
  (List.range (hi - i)).flatMap (fun j => entryOf s c d lo (i + j))

/-- What an index holds can be read and is sound (R363, R368). -/
def EntryOk (s : State) (c : Cur) (d : LDesc) (i : Nat) : Prop :=
  match d.kind with
  | 0 => True
  | 1 => Walkable s c (d.crda + d.cw * i) d.cw
  | 2 => Walkable s c (d.auxa + 8 * (i / 64)) 8 ∧ Walkable s c (d.posa + d.pw * (i / 64)) d.pw
  | 3 => Walkable s c (d.auxa + 8 * i) 8
  | 4 => (∀ k ∈ [0, 4, 8], Walkable s c (d.auxa + 12 * i + k) 4) ∧ numberAtVa s c (d.auxa + 12 * i + 4) 4 ≠ 0 ∧
      numberAtVa s c (d.auxa + 12 * i) 4 + numberAtVa s c (d.auxa + 12 * i + 4) 4 ≤ d.ext
  | _ => Walkable s c (d.crda + d.cw * i) d.cw ∧ numberAtVa s c (d.crda + d.cw * i) d.cw < (d.ext + d.blksz - 1) / d.blksz

/-- The elements of a fibre from index `i` on meet R363. -/
structure FibreOk (s : State) (c : Cur) (d : LDesc) (lo hi i : Nat) : Prop where
  bounds : lo ≤ i ∧ i ≤ hi ∧ hi ≤ 0xFFFFFFFF
  reads  : ∀ j, i ≤ j → j < hi → EntryOk s c d j
  last   : d.kind = 2 → i < hi → ∀ j, hi ≤ j → j / 64 = (hi - 1) / 64 → (bitmapWord s c d (hi - 1)).testBit (j % 64) = false
  inside : ∀ e ∈ fibreFrom s c d lo hi i, e.coord < d.ext ∧ e.pos < 0xFFFFFFFF
  rising : d.ord = true → (fibreFrom s c d lo hi i).Pairwise (fun x y => x.coord < y.coord)

/-- Bytes 0 to 7 of a read cursor: descriptor address, kind, DONE and ORD (Table 19.5). -/
def headOf (d : LDesc) (done : Bool) : W64 := BitVec.ofNat 64 (d.addr + d.kind + 8 * bit done + 32 * bit d.ord)

/-- The cursor of a fibre with the elements `es` to come: it stands on the first of them, DONE where there is none (R365). -/
def cursorAt (d : LDesc) (lo hi : Nat) (es : List Elem) : Cursor :=
  match es with
  | e :: _ =>
    { head := headOf d false, lo := BitVec.ofNat 32 lo, hi := BitVec.ofNat 32 hi, idx := BitVec.ofNat 32 e.idx,
      sub := BitVec.ofNat 32 e.sub, coord := BitVec.ofNat 32 e.coord, pos := BitVec.ofNat 32 e.pos }
  | [] =>
    { head := headOf d true, lo := BitVec.ofNat 32 lo, hi := BitVec.ofNat 32 hi, idx := BitVec.ofNat 32 hi, sub := 0,
      coord := 0xFFFFFFFF, pos := 0xFFFFFFFF }

/-- The bounds of the fibre of parent position `p` (Table 19.4), and what reading them takes. -/
def boundsOf (s : State) (c : Cur) (d : LDesc) (p : Nat) : Nat × Nat :=
  match d.kind with
  | 0 => (p * d.ext, p * d.ext + d.ext)
  | 2 => (64 * ((d.ext + 63) / 64) * p, 64 * ((d.ext + 63) / 64) * p + d.ext)
  | 3 => (2 ^ d.t * p, 2 ^ d.t * p + 2 ^ d.t)
  | _ => (numberAtVa s c (d.posa + d.pw * p) d.pw, numberAtVa s c (d.posa + d.pw * (p + 1)) d.pw)
def ParentOk (s : State) (c : Cur) (d : LDesc) (p : Nat) : Prop :=
  (d.kind ∈ [1, 4, 5] → Walkable s c (d.posa + d.pw * p) d.pw ∧ Walkable s c (d.posa + d.pw * (p + 1)) d.pw) ∧
    FibreOk s c d (boundsOf s c d p).1 (boundsOf s c d p).2 (boundsOf s c d p).1

/-- The fibre of parent position `p`, whole. -/
def wholeOf (s : State) (c : Cur) (d : LDesc) (p : Nat) : List Elem :=
  fibreFrom s c d (boundsOf s c d p).1 (boundsOf s c d p).2 (boundsOf s c d p).1

/-- The cursor positioned on that fibre. -/
def boundTo (s : State) (c : Cur) (d : LDesc) (p : Nat) : Cursor :=
  cursorAt d (boundsOf s c d p).1 (boundsOf s c d p).2 (wholeOf s c d p)

/-- `es` is what remains of a sound fibre [lo, hi) for a cursor that stands at its first element, or is DONE. -/
structure Remains (s : State) (c : Cur) (d : LDesc) (lo hi : Nat) (es : List Elem) : Prop where
  level : Level s c d
  fibre : FibreOk s c d lo hi (match es with | e :: _ => e.idx | [] => hi)
  tail  : ∀ e l, es = e :: l → ∃ pre, fibreFrom s c d lo hi e.idx = pre ++ es ∧ ∀ x ∈ pre, x.idx = e.idx

/-- The cursor register `k` stands so. -/
def Stands (s : State) (c : Cur) (k : KReg) (d : LDesc) (lo hi : Nat) (es : List Elem) : Prop :=
  Remains s c d lo hi es ∧ c.kr k = cursorAt d lo hi es

/-- The number of lanes of EM below `l`: which element lane `l` receives. -/
def rankIn (c : Cur) (l : Nat) : Nat := ((List.range l).filter (hasLane c.em)).length

/-- What lane `l` receives of a list of elements delivered to EM's lanes in order. -/
def delivered {α : Type} (c : Cur) (es : List α) (f : α → Nat) (l : Nat) : W32 :=
  match es[rankIn c l]? with
  | some e => BitVec.ofNat 32 (f e)
  | none => 0xFFFFFFFF

/-- The lanes that receive an element that satisfies a test. -/
def Receives {α : Type} (c : Cur) (es : List α) (p : α → Bool) (m : Mask) : Prop :=
  ∀ l, hasLane c.em l = true → l < c.width → (hasLane m l = true ↔ ∃ e, es[rankIn c l]? = some e ∧ p e = true)

/-- How many lanes EM has. -/
def lanesOfEm (c : Cur) : Nat := popMask c.width c.em

/-- Common elements of two fibres: coordinate and both positions. -/
def common (la lb : List Elem) : List (Nat × Nat × Nat) :=
  la.filterMap (fun x => (lb.find? (fun y => y.coord == x.coord)).map (fun y => (x.coord, x.pos, y.pos)))

/-- What is left of two ordered fibres when so many lanes have received their common elements, or one of the fibres has ended: at
equal coordinates both cursors advance, else the one with the smaller (R382). The first argument bounds the moves. -/
def afterMerge : Nat → Nat → List Elem → List Elem → List Elem × List Elem
  | f + 1, n + 1, x :: la, y :: lb =>
    if x.coord = y.coord then afterMerge f n la lb
    else if x.coord < y.coord then afterMerge f (n + 1) la (y :: lb)
    else afterMerge f (n + 1) (x :: la) lb
  | _, _, la, lb => (la, lb)

/-- The union of two fibres in order of coordinate; a side that lacks an element shows none. -/
def union : Nat → List Elem → List Elem → List (Nat × Option Nat × Option Nat)
  | 0, _, _ => []
  | _ + 1, [], lb => lb.map (fun y => (y.coord, none, some y.pos))
  | _ + 1, la, [] => la.map (fun x => (x.coord, some x.pos, none))
  | n + 1, x :: la, y :: lb =>
    if x.coord < y.coord then (x.coord, some x.pos, none) :: union n la (y :: lb)
    else if y.coord < x.coord then (y.coord, none, some y.pos) :: union n (x :: la) lb
    else (x.coord, some x.pos, some y.pos) :: union n la lb

/-- The classes of R380. -/
def Hashed (d : LDesc) : Prop := d.kind = 3
def Unordered (d : LDesc) : Prop := d.kind ≠ 3 ∧ d.ord = false
def Ordered (d : LDesc) : Prop := d.kind ≠ 3 ∧ d.ord = true

/-- Where ka drives a probe, and where kb does (Table 20.2). -/
def ADrives (a b : LDesc) : Prop := (Ordered a ∧ Hashed b) ∨ (Hashed a ∧ Hashed b) ∨ (Unordered a ∧ ¬ Unordered b)
def BDrives (a b : LDesc) : Prop := (Hashed a ∧ Ordered b) ∨ (¬ Unordered a ∧ Unordered b)

/-- The position of the element of the fibre [lo, hi) with a coordinate, over the whole fibre (R362, R383). -/
def probeOf (s : State) (c : Cur) (d : LDesc) (lo hi x : Nat) : Option Nat :=
  if d.ext ≤ x then none
  else if d.kind = 3 then
    let h := x * 0x9E3779B1 % 2 ^ 32 / 2 ^ (32 - d.t)
    let slot := fun i => numberAtVa s c (d.auxa + 8 * (lo + (h + i) % 2 ^ d.t)) 8
    ((List.range (2 ^ d.t)).find? (fun i => slot i % 2 ^ 32 == x || slot i % 2 ^ 32 == 0xFFFFFFFF)).bind (fun i =>
      if slot i % 2 ^ 32 = x then some (slot i / 2 ^ 32) else none)
  else ((fibreFrom s c d lo hi lo).find? (fun e => e.coord == x)).map (·.pos)

/-- A cursor that can be probed: its fibre is sound from its start. -/
def Probed (s : State) (c : Cur) (d : LDesc) (lo hi : Nat) : Prop := FibreOk s c d lo hi lo ∧ (d.kind = 3 → hi = lo + 2 ^ d.t)

/-- The driver's elements that the other side holds too, each with the position there. -/
def found (q : Nat → Option Nat) (es : List Elem) : List (Nat × Nat × Nat) :=
  es.filterMap (fun e => (q e.coord).map (fun p => (e.coord, e.pos, p)))

/-- What is left of the driver's fibre behind so many of them (R382). -/
def afterProbe (q : Nat → Option Nat) : Nat → List Elem → List Elem
  | n + 1, e :: es => if (q e.coord).isSome then afterProbe q n es else afterProbe q (n + 1) es
  | _, es => es

/-- The result registers of KCO: the coordinate, and the positions of both sides in two registers. -/
def coInto (c : Cur) (o : KcoOps) {α : Type} (es : List α) (crd pa pb : α → Nat) (ma mb : Mask) (x y : Cursor) (done : Bool) :
    Cur :=
  let c1 := (c.setK o.ka x).setK o.kb y
  let c2 := (c1.setV o.vc c.em (delivered c es crd) .u32).writeRun (runOf o.vp 2) c.em .u32
    (fun l i => delivered c es (if i = 0 then pa else pb) l)
  ((c2.setP o.pa c.em ma).setP o.pb c.em mb).setS o.s (BitVec.ofNat 64 (Nat.min es.length (lanesOfEm c) + 2 ^ 32 * bit done))

/-- An append cursor register (Table 20.4): run at `b`, `n` elements of at most `m`, the last coordinate, extent, value tag. -/
structure Appends (c : Cur) (k : KReg) (b n m last ext vtag voff : Nat) : Prop where
  now  : c.kr k = { head := BitVec.ofNat 64 (b + 1 + 16 + 32), lo := BitVec.ofNat 32 n, hi := BitVec.ofNat 32 m,
                    idx := BitVec.ofNat 32 last, sub := BitVec.ofNat 32 ext, coord := BitVec.ofNat 32 vtag, pos := BitVec.ofNat 32 voff }
  fits : b % 64 = 0 ∧ b < 2 ^ 57 ∧ n ≤ m ∧ m < 2 ^ 32 ∧ last < 2 ^ 32 ∧ ext < 2 ^ 32 ∧ vtag ≤ 16 ∧ voff < 2 ^ 32

/-- Candidates that are appended, and the status behind them (R391): each must lie below the extent, above the one before it,
and within the capacity. -/
def taken (ext m : Nat) : Nat → Option Nat → List Item → List Item × Nat
  | _, _, [] => ([], 0)
  | n, last, i :: is =>
    if ext ≤ i.coord then ([], 2)
    else if (match last with | some x => decide (i.coord ≤ x) | none => false) then ([], 1)
    else if n = m then ([], 3)
    else ((taken ext m (n + 1) (some i.coord) is).1.cons i, (taken ext m (n + 1) (some i.coord) is).2)

/-- The last coordinate of an append cursor; 0xFFFFFFFF means none. -/
def lastOf (x : Nat) : Option Nat := if x = 0xFFFFFFFF then none else some x

/-- The append cursor with items added. -/
def grown (x : Cursor) (items : List Item) : Cursor :=
  match items.getLast? with
  | none => x
  | some i => { x with lo := x.lo + BitVec.ofNat 32 items.length, idx := BitVec.ofNat 32 i.coord }

/-- The stores of items appended to a run of `n` elements: coordinates and values, all in WB pages. -/
def AppendOk (s : State) (c : Cur) (b n voff sz : Nat) (items : List Item) : Prop :=
  ∀ i, i < items.length → Reaches s c XReq.storeWb false (b + 128 + 4 * (n + i)) 4 ∧
    Reaches s c XReq.storeWb false (b + voff + sz * (n + i)) sz

/-- Cells of bytes at a virtual address. -/
def cellsVa (s : State) (c : Cur) (va : Nat) (bs : List Byte) : List Host.Cell :=
  match s.translate c.ctx va XReq.store with
  | .ok l => cellsAt l.pa bs
  | .error _ => []

def appendCells (s : State) (c : Cur) (b n voff sz : Nat) (items : List Item) : List Host.Cell :=
  lastCells ((List.range items.length).flatMap (fun i =>
    match items[i]? with
    | some x => cellsVa s c (b + 128 + 4 * (n + i)) (bytesOf 4 x.coord) ++ cellsVa s c (b + voff + sz * (n + i)) (bytesOf sz x.val)
    | none => []))

/-- The lanes that an item of them belongs to. -/
def ItemLanes (items : List Item) (m : Mask) : Prop := ∀ l, l < 64 → (hasLane m l = true ↔ ∃ i ∈ items, i.lane = l)

/-- The candidates of KAPP: the lanes of EM that the predicate selects. -/
def kappItems (c : Cur) (o : KappOps) (sz : Nat) : List Item :=
  (c.lanes (c.em &&& c.pr o.ps)).map (fun l =>
    { lane := l, elem := 0, coord := (lane c o.vc l).toNat,
      val := if sz = 8 then (lane c o.vv l).toNat + 2 ^ 32 * (lane c (regAt o.vv 1) l).toNat else (lane c o.vv l).toNat })

/-- The candidates of SIEVE: elements of the lanes of EM that are kept, in order of lane and element. -/
def sieved (c : Cur) (t : Tag) (base : Nat) (vx : VReg) (keep : Nat → Nat → Bool) : List Item :=
  (c.lanes c.em).flatMap (fun l => (List.range t.elems).filterMap (fun e =>
    if keep l e then some { lane := l, elem := e, coord := base + l * t.elems + e, val := (elem t e (lane c vx l)).toNat } else none))

/-- Zero, of either sign in a floating-point type. -/
def isZeroElem (t : Tag) (x : BitVec t.bits) : Bool := x.toNat % 2 ^ (if t ∈ floatTypes then t.bits - 1 else t.bits) = 0

/-- The change of an element is above the threshold (R393): NaN counts as changed, and infinities that agree do not. -/
def isChanged (t : Tag) (th : FNum) (x y : BitVec t.bits) : Bool :=
  let a := (ffmtOf t).read x.toNat
  let b := (ffmtOf t).read y.toNat
  if a = .nan ∨ b = .nan then true
  else match a.add .rne b.neg with
    | .nan => false
    | .inf _ => th != .inf false
    | .zero _ => false
    | .fin _ m e => (FNum.fin false m e).cmp th == .gt

/-! ## The packed stream and XDEC (R324 to R328), words that name no instruction (R70) -/

/-- Bit `i` of the stream at SRC. -/
def streamBit (c : Cur) (src i : Nat) : Bool := (c.cByte (src + i / 8)).getLsbD (i % 8)

/-- `n` bits of the stream, the least significant first. -/
def streamNum (c : Cur) (src pos n : Nat) : Nat := ((List.range n).map (fun i => bit (streamBit c src (pos + i)) * 2 ^ i)).sum

/-- The length of a symbol's code. -/
def codeLen (c : Cur) (src sym : Nat) : Nat := streamNum c src (32 + 4 * sym) 4

/-- The canonical code of a symbol: the codes before it, in order of length and then of symbol, each take a share of its
length's codes. -/
def codeOf (c : Cur) (src sym : Nat) : Nat :=
  let n := codeLen c src sym
  (((List.range 272).filter (fun x =>
    0 < codeLen c src x ∧ (codeLen c src x < n ∨ (codeLen c src x = n ∧ x < sym)))).map (fun x => 2 ^ (n - codeLen c src x))).sum

/-- The lengths form a code: every used symbol's share of the codes of length 15, together at most all of them. -/
def CodeFits (c : Cur) (src : Nat) : Prop :=
  (((List.range 272).filter (fun x => 0 < codeLen c src x)).map (fun x => 2 ^ (15 - codeLen c src x))).sum ≤ 2 ^ 15

/-- From bit `pos` the stream holds the code of this symbol, its most significant bit first. -/
def HoldsSymbol (c : Cur) (src pos sym : Nat) : Prop :=
  let n := codeLen c src sym
  0 < n ∧ ∀ i, i < n → streamBit c src (pos + i) = (codeOf c src sym).testBit (n - 1 - i)

/-- From bit `pos` the stream holds the codes of these bytes; `e` is behind them. -/
def HoldsCodes (c : Cur) (src : Nat) : Nat → List Byte → Nat → Prop
  | pos, [], e => pos = e
  | pos, b :: bs, e => HoldsSymbol c src pos b.toNat ∧ HoldsCodes c src (pos + codeLen c src b.toNat) bs e

/-- Table 16.6: the extra bits of length code `j`, and the bytes that it copies where they hold `x`. -/
def extraBits (j : Nat) : Nat := if j < 8 then 0 else j - 7
def copyLen (j x : Nat) : Nat := if j < 8 then 3 + j else 9 + 2 ^ (j - 7) + x

/-- The run of scalars of XDEC (Table 16.7), without MBZ bits, its stream and its ring in crew memory free of poison. -/
structure XRun (c : Cur) (o : XdecOps) (src slen obuf outlen pos p left dist st err : Nat) : Prop where
  run   : o.s.val + 5 ≤ 64
  word0 : c.sr o.s = BitVec.ofNat 64 (src + 2 ^ 32 * slen)
  word1 : c.sr (sregAt (o.s.val + 1)) = BitVec.ofNat 64 (obuf + 2 ^ 32 * outlen)
  word2 : c.sr (sregAt (o.s.val + 2)) = BitVec.ofNat 64 (pos + 2 ^ 32 * p)
  word3 : c.sr (sregAt (o.s.val + 3)) = BitVec.ofNat 64 (left + 2 ^ 16 * dist + 2 ^ 32 * st + 2 ^ 36 * err)
  small : src < 2 ^ 32 ∧ slen < 2 ^ 32 ∧ obuf < 2 ^ 32 ∧ outlen < 2 ^ 32 ∧ pos < 2 ^ 32 ∧ p < 2 ^ 32 ∧ left < 2 ^ 16 ∧
            dist < 2 ^ 12 ∧ st < 4 ∧ err < 16
  fits  : src + slen ≤ c.crew.launch.crewmem ∧ obuf + 4096 ≤ c.crew.launch.crewmem
  clean : (∀ i, i < slen → c.cPoison (src + i) = false) ∧ (∀ i, i < 4096 → c.cPoison (obuf + i) = false)

/-- XDEC has delivered `bs` to the lanes of EM, four bytes a lane, and left OUTLEN, position, P, pending match and state. -/
def xdecDone (c : Cur) (o : XdecOps) (bs : List Byte) (obuf outlen pos p left dist st err status : Nat) (m : Mask) : Cur :=
  let put := fun (c : Cur) (i v : Nat) => c.setS (sregAt (o.s.val + i)) (BitVec.ofNat 64 v)
  let c := (c.setV o.vd c.em (fun l => BitVec.ofNat 32 (ofBytes ((List.range 4).map (fun k => bs.getD (4 * rankIn c l + k) 0)))) o.t).setP
    o.pd c.em m
  let c := put c 1 (obuf + 2 ^ 32 * outlen)
  let c := put c 2 (pos + 2 ^ 32 * p)
  let c := put c 3 (left + 2 ^ 16 * dist + 2 ^ 32 * st + 2 ^ 36 * err)
  put c 4 (status + 2 ^ 32 * bs.length)

/-- The lanes of EM that were given a byte. -/
def GivenBytes (c : Cur) (bs : List Byte) (m : Mask) : Prop :=
  ∀ l, hasLane c.em l = true → l < c.width → (hasLane m l = true ↔ 4 * rankIn c l < bs.length)

/-! ## The life of clauses and chunks, and the events of strands (R53, R57 to R64, R151 to R154, R171 to R175, R187 to R204) -/

/-- Only the strand of `c` has changed, and `e` shows it. -/
structure Touches (s t : State) (c e : Cur) : Prop where
  here    : t.curOf c.ref = some e
  package : t = { s with crews := t.crews }
  others  : ∀ r, r ≠ c.ref → t.strand? r = s.strand? r
  warp    : e.warp = { c.warp with strands := e.warp.strands }
  crew    : e.crew = { c.crew with warps := e.crew.warps }

/-- The event changes the strand of `c`, which becomes `x`, and nothing else. -/
def Becomes (s : State) (c : Cur) (i : Instr) (x : Strand) : Prop :=
  ∃ t e, exec i s = .next t ∧ Touches s t c e ∧ e.t = x

/-- A parked strand goes on behind its instruction with the registers of `d`; every other strand stays as it was. -/
structure Resumes (s t : State) (c e d : Cur) : Prop where
  here   : t.curOf c.ref = some e
  others : ∀ r, r ≠ c.ref → t.strand? r = s.strand? r
  wait   : e.t.wait = .none
  place  : e.place = c.behind 1
  regs   : e.regs = d.regs
  chunk  : e.t.chunk = c.t.chunk
  mem    : t.mem = s.mem ∧ e.crew.mem = c.crew.mem

/-- A flag that the header waits for (R61). -/
def WaitsFor (w : W64) (t : Strand) : Prop :=
  ∃ f, f < 12 ∧ (∃ p ∈ t.pends, p.flag = f) ∧ (hdrWait w f = true ∨ hdrSetA w = f ∨ hdrSetB w = f)

/-- The strand with a chunk open: the open one, or a new one behind those that have ended (R187, R188). -/
def withChunk (t : Strand) : Strand :=
  match t.chunk.st with
  | .idle => { t with chunk := { t.chunk with st := .opened, count := 0, chlim := t.core.chlim, snap := some t.core } }
  | .ended | .ordering =>
    { t with earlier := t.earlier ++ [t.chunk],
             chunk := { Chunk.none with st := .opened, chlim := t.core.chlim, snap := some t.core } }
  | _ => t

/-- A header counts in the chunk, which uses its page. -/
def headerCounted (t : Strand) : Strand :=
  let x := withChunk t
  { x with chunk := { x.chunk with count := x.chunk.count + 1, pages := addNew x.chunk.pages (t.core.hdr.toNat / 4096) } }

/-- The open chunk takes no further word. -/
def AtEnd (t : Strand) : Prop :=
  t.chunk.st = .opened ∧ (t.chunk.chlim ≤ t.chunk.count ∨ t.chunk.limit = some (t.chunk.count, t.core.pc))

/-- The chunk of `c` has written a word that the chunk of strand `r` has read or written (R194). -/
def Overlaps (c : Cur) (r : StrandRef) (t : Strand) : Prop :=
  (∃ w ∈ c.t.chunk.gws, w ∈ t.chunk.grs ∨ w ∈ t.chunk.gws) ∨
    (r.w.crew = c.ref.w.crew ∧ ∃ w ∈ c.t.chunk.cws, w ∈ t.chunk.crs ∨ w ∈ t.chunk.cws)

/-- A chunk that the helm can place now: offered, or PINNED, ended and with its flags clear. -/
def Placeable (t : Strand) : Prop :=
  t.chunk.st = .ordering ∨ (t.chunk.pinned = true ∧ t.chunk.st = .ended ∧ t.pends = [])

/-- Every strand has at most one chunk that is not placed, which made no strand and was handed on by no merge; none is PINNED
where the chunk of `c` overlaps it. -/
def NoPinMet (s : State) (c : Cur) : Prop :=
  ∀ r t, s.strand? r = some t → t.earlier = [] ∧ t.chunk.childIdx = none ∧ t.chunk.owner = none ∧
    (r ≠ c.ref → t.chunk.pinned = true → t.chunk.active = true → ¬ Overlaps c r t)

/-- All members of the warp's one frame, the strand of `c` among them, have arrived at it or are arriving. -/
structure AllArrive (c : Cur) (f : Frame) : Prop where
  one     : c.warp.frames = [f]
  here    : c.ref.strand ∈ f.members ∧ f.addr = c.t.core.hdr ∧ c.ref.strand < c.warp.strands.length
  several : f.members.Nodup ∧ 2 ≤ f.members.length
  joined  : ∀ k ∈ f.members, k ≠ c.ref.strand → ∃ t, c.warp.strand? k = some t ∧ t.wait = .joining 1
  only    : ∀ k, k ∉ f.members → c.warp.strand? k = none
  windows : ∀ k t, c.warp.strand? k = some t → t.core.winb = c.t.core.winb ∧ t.core.calls.length ≤ c.depth0

/-- A mask that gathers those of several strands. -/
def Gathers (m : Mask) (w : Warp) (ks : List Nat) (f : StrandCore → Mask) : Prop :=
  ∀ i, i < 64 → (m.getLsbD i = true ↔ ∃ k ∈ ks, ∃ t, w.strand? k = some t ∧ (f t.core).getLsbD i = true)

/-- Lanes `a` to `a + h - 1` of a mask. -/
def LanesFrom (a h : Nat) (m part : Mask) : Prop := ∀ i, part.getLsbD i = (decide (i < h) && m.getLsbD (a + i))

/-- The predicates of a child of a WSPLIT (Table 9.2): the parent's, but that p(N) tells the children apart in the strand's
lanes (R170). -/
structure PredsOf (c : Cur) (p : PReg) (w : Warp) (a h : Nat) (high : Bool) : Prop where
  others : ∀ (i : Nat) (m : Mask), i ≠ p.val ∨ p.val = 15 → c.warp.preds[i]? = some m → ∃ x, w.preds[i]? = some x ∧ LanesFrom a h m x
  guard  : p.val ≠ 15 → ∀ m, c.warp.preds[p.val]? = some m → ∃ x, w.preds[p.val]? = some x ∧
    ∀ i, x.getLsbD i = (decide (i < h) && (if c.t.core.l.getLsbD (a + i) then !high else m.getLsbD (a + i)))

/-- The spill area of a child (R184). -/
def childLay (c : Cur) (high : Bool) : SpillLay :=
  let start := slotOf c c.t.core.winb
  let z := (c.warp.lay.stop - 16 * nextRecord c - start) / 2 / 8 * 8
  { start := if high then start + z else start, stop := if high then start + 2 * z else start + z, base := c.t.core.winb }

/-- A child of a WSPLIT at lanes `a` to `a + h - 1` (Table 9.2, R172, R184): its registers and its one strand. -/
structure ChildOf (c : Cur) (sd : SReg) (p : PReg) (w : Warp) (a h : Nat) (high : Bool) : Prop where
  width  : w.width = h ∧ w.lw = c.warp.lw
  vregs  : w.vregs = c.warp.vregs.map (fun v => { v with lanes := (v.lanes.drop a).take h })
  gregs  : w.gregs = c.warp.gregs.map (fun v => { v with lanes := (v.lanes.drop a).take h })
  preds  : PredsOf c p w a h high
  splits : w.splits.length = c.warp.splits.length + 1
  lay    : w.lay = childLay c high
  strand : ∃ x, w.strands = [some x, none, none, none] ∧ LanesFrom a h c.t.core.l x.core.l ∧
    LanesFrom a h c.t.core.em x.core.em ∧ LanesFrom a h c.t.core.hm x.core.hm ∧ x.core.s = (c.setS sd 0).t.core.s ∧
    x.core.k = (if high then c.t.core.k.map (fun k => if k.isAppend then Cursor.unbound else k) else c.t.core.k) ∧
    x.wait = .none ∧ x.pends = [] ∧ x.core.pc = (c.behind 1).pc ∧ x.core.acr = c.t.core.acr ∧ x.core.chlim = c.t.core.chlim ∧
    x.core.batchn = c.t.core.batchn ∧ x.core.winb = c.t.core.winb ∧ x.core.calls = c.t.core.calls ∧ x.sqcnt = c.t.sqcnt ∧
    x.core.trap = { c.t.core.trap with lanes := c.t.core.trap.lanes &&& fullMask h }

/-- A barrier of a warp that splits (R172). -/
def splitBy (lo hi : Nat) (b : Barrier) : Barrier :=
  { b with parts := b.parts ++ [hi], arrived := if lo ∈ b.arrived then b.arrived ++ [hi] else b.arrived }

/-- A barrier of two warps that fuse (R175): one participant, arrived where both had. -/
def fusedBy (lo hi : Nat) (b : Barrier) : Barrier :=
  let rest := b.arrived.filter (fun x => x != lo && x != hi)
  settled { b with parts := b.parts.filter (· != hi), arrived := if lo ∈ b.arrived ∧ hi ∈ b.arrived then rest ++ [lo] else rest }

/-- The strand's last chunk that is not placed can commit, with no other strand's chunk to meet it. -/
structure CanCommit (s : State) (c : Cur) : Prop where
  here  : s.curOf c.ref = some c
  chunk : Placeable c.t
  alone : c.t.earlier = []
  quiet : Quiet s c
  bars  : c.t.chunk.bars = []

/-- A strand behind its instruction, with the registers of `d`. -/
structure GoesOn (t : State) (c e d : Cur) : Prop where
  here  : t.curOf c.ref = some e
  wait  : e.t.wait = .none
  place : e.place = c.behind 1
  regs  : e.regs = d.regs

/-- The strand parked at a WFUSE from now on, for 64 × CHLIM cycles (R174). -/
def FuseParked (s t : State) (c : Cur) (sd : SReg) (a : W64) : Prop :=
  ∃ e, t.curOf c.ref = some e ∧ e.t.wait = .wfuse sd a (64 * c.t.core.chlim) s.cycle.toNat ∧ e.place = c.place ∧ e.regs = c.regs

/-- `d` is the sibling of `c`, of one strand, and parked at a WFUSE at address `a`, since the last save or restore. -/
structure SiblingAt (s : State) (c d : Cur) (sx : SReg) (a : W64) (since : Nat) : Prop where
  here   : s.curOf d.ref = some d
  ref    : d.ref.w = { c.ref.w with warp := siblingOf c }
  apart  : siblingOf c ≠ c.ref.w.warp
  gen    : d.warp.splits.length = c.warp.splits.length ∧ c.warp.splits ≠ []
  single : d.ref.strand < 4 ∧ ∀ k t, k ≠ d.ref.strand → d.warp.strand? k = some t → False
  parked : ∃ limit, d.t.wait = .wfuse sx a limit since
  live   : d.warp.exited = false

/-- The window bases of two siblings are the one at their split (R174, R184). -/
def SameWindow (c d : Cur) : Prop := c.t.core.winb = d.t.core.winb ∧ c.t.core.winb = c.warp.lay.base

/-- The strand waits, parked at SVWAIT, WCWAIT or BWAIT, for what has not come (R92). -/
def WaitsSince (c : Cur) (since : Nat) : Prop :=
  (∃ geu o pa, c.t.wait = .sv geu o pa since none) ∨ (∃ d o, c.t.wait = .wc d o since none) ∨
    (∃ o, c.t.wait = .bw o since ∧ (Closed c o.sa → c.incomplete ((c.sr o.sa).setWidth 32) = true))

/-- A flagged write of a scalar is pending (R62). -/
def PendingScalar (c : Cur) (r : SReg) : Prop := ∃ q ∈ c.t.pends, ∃ x, .scal r.val x ∈ q.old

/-- What a read of a scalar may return (R62). -/
def SeenScalar (c : Cur) (r : SReg) (x : W64) : Prop :=
  (r.val = 0 ∧ x = 0) ∨ (r.val ≠ 0 ∧ (x = c.t.core.s.getD r.val 0 ∨ ∃ q ∈ c.t.pends, .scal r.val x ∈ q.old))

def SeenSource (c : Cur) (b : Src) (y : W64) : Prop :=
  match b with
  | .reg r => SeenScalar c r y
  | _ => y = c.src b

/-- What a vector register held before a flagged write that is pending. -/
def OldVector (c : Cur) (r : VReg) (old : VecReg) : Prop :=
  match r with
  | .v i => ∃ q ∈ c.t.pends, ∃ x t, .vec (c.slot i.val) x t ∈ q.old ∧ old = { x with tag := t }
  | .g i => ∃ q ∈ c.t.pends, .glob i.val old ∈ q.old

def PendingVector (c : Cur) (r : VReg) : Prop := ∃ old, OldVector c r old

/-- What a read of a vector register may return, lane by lane, and its tag (R62). -/
def SeenVector (c : Cur) (r : VReg) (v : VecReg) : Prop :=
  (v.tag = (c.vnow r).tag ∨ ∃ old, OldVector c r old ∧ v.tag = old.tag) ∧
    ∀ l, l < c.width → v.lane l = (c.vnow r).lane l ∨ ∃ old, OldVector c r old ∧ v.lane l = old.lane l

/-- The instruction completes with the flags as they were. -/
def CompletesPending (s : State) (c : Cur) (i : Instr) (d : Cur) : Prop :=
  ∃ t e, exec i s = .next t ∧ Elsewhere s t c e ∧ SameCaches s t ∧ e.t.pends = c.t.pends ∧ e.t.wait = .none ∧
    e.t.chunk.st = .opened ∧ StoresNothing c e ∧ e.place = c.behind 1 ∧ e.regs = d.regs

/-! ## Errors, voyages and crews, management commands, queues and the host (5, 6, 7, 22, 23) -/

/-- An entry of a logbook (Table 23.2): sequence number, CODE, KIND, STATUS, TAG, FUNC and the result. -/
def entryBytes (seq : W64) (h : CmdHdr) (code : Nat) (x : Nat × Nat × List (Nat × Nat × Nat)) : List Byte :=
  recBytes 64 ([(0, 8, seq.toNat), (8, 2, code), (10, 1, x.1), (11, 1, x.2.1), (12, 4, h.tag.toNat), (16, 2, h.func)] ++ x.2.2)

/-- A function with one more entry, the newest first. -/
def withEntry (h : CmdHdr) (code : Nat) (f : Func) (x : Nat × Nat × List (Nat × Nat × Nat)) : Func :=
  { f with logseq := f.logseq + 1, log := (entryBytes f.logseq h code x :: f.log).take 65536 }

/-- The logbook of the command's function has these entries more, and every other function is as before. -/
def Logs (s t : State) (h : CmdHdr) (code : Nat) (es : List (Nat × Nat × List (Nat × Nat × Nat))) : Prop :=
  (∀ i, i ≠ h.func → t.funcs[i]? = s.funcs[i]?) ∧
    t.funcs[h.func]? = (s.funcs[h.func]?).map (fun f => es.foldl (withEntry h code) f)

/-- A command that its function may give on context `n` (R426, R427). -/
def Allowed (h : CmdHdr) (n : Nat) : Prop := h.clean = true ∧ (h.func = 0 ∨ h.func = n) ∧ n < 64

/-- A command of the physical function. -/
def AllowedPf (h : CmdHdr) : Prop := h.clean = true ∧ h.func = 0

/-- Accepted, and completed at once with a result. -/
def atOnceWith (r : List (Nat × Nat × Nat)) : List (Nat × Nat × List (Nat × Nat × Nat)) := [(0, 0, []), (2, 0, r)]

/-- The command is accepted, and completes at once where `es` says so; context `n` becomes `x` and nothing else changes but the
logbook. -/
def CtxBecomes (s : State) (i : Instr) (h : CmdHdr) (code n : Nat) (es : List (Nat × Nat × List (Nat × Nat × Nat))) (x : Ctx) :
    Prop :=
  ∃ t, exec i s = .next t ∧ t = { s with ctxs := t.ctxs, funcs := t.funcs } ∧ Logs s t h code es ∧ t.ctx n = x ∧
    ∀ m, m ≠ n → t.ctx m = s.ctx m

/-- The command is rejected with a status; nothing changes but the logbook. -/
def RejectsWith (s : State) (i : Instr) (h : CmdHdr) (code st : Nat) : Prop :=
  ∃ t, exec i s = .next t ∧ t = { s with funcs := t.funcs } ∧ Logs s t h code [(1, st, [])]

/-- A context that exists. -/
def Exists (s : State) (n : Nat) : Prop := (s.ctx n).st ≠ .empty ∧ (s.ctx n).st ≠ .destroyed

/-- A device write of a record's bytes succeeds at once. -/
def DevOk (s : State) (n va len : Nat) (q : XReq) (l : Leaf) : Prop :=
  s.translate n va q = .ok l ∧ ∀ i, i < len → s.isPoison (l.pa + i) = false

/-- No chunk is PINNED. -/
def NoPins (s : State) : Prop := ∀ r t, s.strand? r = some t → t.chunk.pinned = false

/-- The record of queue `q` takes a write of `len` bytes at `off`: nothing waits before it, and no fence or PINNED chunk stands
in its way (R128, R199, R218). -/
def RecordOk (s : State) (n q : Nat) (x : Queue) (off len : Nat) (l : Leaf) : Prop :=
  x.recDead = false ∧ s.recWaits n q x.conf = [] ∧ s.fences = [] ∧ NoPins s ∧ DevOk s n (x.recAddr + off) len XReq.devWrite l

/-- The EVENT queue `x` of context `n` takes a record at once, in the slot that `l` reaches. -/
structure EventReady (s : State) (n : Nat) (x : Queue) (l : Leaf) : Prop where
  mem   : s.memWf = true
  empty : (s.ctx n).store = [] ∧ (s.ctx n).blocked = []
  queue : s.queue? n 1 = some x
  room  : x.st = .opened ∧ x.tail - x.head < x.capacity
  free  : NoPins s
  slot  : DevOk s n (x.slotVa x.tail) 64 (XReq.ringWrite .engine) l

/-- The record of an event (R138): its type, OVF, sequence number, time, and 48 bytes of body. -/
def eventBytes (ty : Nat) (ovf : Bool) (seq : W32) (ns : Nat) (body : List Byte) : List Byte :=
  bytesOf 2 ty ++ bytesOf 1 (bit ovf) ++ bytesOf 1 0 ++ bytesOf 4 seq.toNat ++ bytesOf 8 ns ++ body

/-- An event has been posted to the EVENT queue `x`, in the slot that `l` reaches. -/
def EventPosted (s t : State) (n : Nat) (x : Queue) (l : Leaf) (ty : Nat) (body : List Byte) : Prop :=
  t.queue? n 1 = some { x with tail := x.tail + 1 } ∧ (t.ctx n).evSeq = (s.ctx n).evSeq + 1 ∧
    t.rdBytes l.pa 64 = eventBytes ty (s.ctx n).evOvf (s.ctx n).evSeq s.ns body

def zeroBytes (n : Nat) : List Byte := List.replicate n 0

/-- The bodies of Table 7.3. -/
def rejectBody (item : List Byte) (x : Nat × Nat) : List Byte :=
  bytesOf 1 x.1 ++ bytesOf 1 x.2 ++ zeroBytes 14 ++ item.take 16 ++ zeroBytes 16
def doneBody (v : Voyage) (exited : Nat) : List Byte :=
  bytesOf 4 v.num ++ bytesOf 4 exited ++ bytesOf 1 (bit v.isPartial) ++ zeroBytes 7 ++ bytesOf 8 v.recAddr.toNat ++
    bytesOf 8 v.arg.toNat ++ zeroBytes 16
def preemptBody (r : CrewRef) (p : Preempt) (option details : Nat) : List Byte :=
  bytesOf 4 r.voy ++ bytesOf 4 r.crew ++ bytesOf 1 option ++ bytesOf 1 (bit p.missed) ++ zeroBytes 2 ++ bytesOf 4 p.estimate ++
    bytesOf 4 p.bound ++ bytesOf 2 details ++ zeroBytes 26
def heldBody (r : CrewRef) (h : Held) : List Byte :=
  bytesOf 1 1 ++ zeroBytes 3 ++ bytesOf 4 r.crew ++ bytesOf 1 h.q ++ zeroBytes 7 ++ bytesOf 8 h.pos ++ bytesOf 4 r.voy ++
    zeroBytes 20

/-- The code and the offset of a launch that is rejected (Table 6.1, R116): the first limit that fails, in ascending byte order,
the item's zeros, the first address that fails, FIT. -/
def LaunchFails (item bs : List Byte) (sector : Nat) : Nat × Nat → Prop :=
  let l := launchOf bs
  FirstCase [(l.width ∉ [16, 32, 64], (1, 24)), (l.regs8 = 0 ∨ 32 < l.regs8, (1, 25)), (64 < l.globals, (1, 26)),
    (8 ≤ recField bs 27 1, (1, 27)), (256 < l.tiles, (1, 28)), (l.warps = 0 ∨ 16 < l.warps ∨ 512 < l.warps * l.width, (1, 30)),
    (recField bs 31 1 ≠ 0, (1, 31)), (131072 < l.crewmem ∨ l.crewmem % 64 ≠ 0, (1, 32)),
    (l.chunk < 32 ∨ 4096 < l.chunk, (1, 36)), (recField bs 38 2 ≠ 0, (1, 38)), (l.convoy = 0 ∨ 65535 < l.convoy, (1, 40)),
    (l.crews = 0, (1, 44)), (1000000 < l.drain, (1, 48)), (2 ^ 20 < l.heapx, (1, 52)),
    (l.spillb % 8 ≠ 0 ∨ 2 ^ 32 - 8 < l.spillb, (1, 64)), (recField bs 80 48 ≠ 0, (1, 80)),
    (∃ b ∈ item.drop 16, b ≠ 0, (1, 0xFF)),
    (l.code.toNat % 8 ≠ 0 ∨ 2 ^ 57 ≤ l.code.toNat, (2, 0)), (2 ^ 57 ≤ l.handler.toNat, (2, 8)),
    (2 ^ 57 ≤ l.data.toNat, (2, 16)), (l.spill.toNat % 8 ≠ 0 ∨ 2 ^ 57 ≤ l.spill.toNat, (2, 56)),
    (l.heap.toNat % 4096 ≠ 0 ∨ 2 ^ 57 ≤ l.heap.toNat, (2, 72)), (l.fits sector = false, (3, 0xFF))] (0, 0)

/-- Queue `q` becomes `y`, and its record shows STATE, ERR, TAIL and HEAD (R128). -/
def QueueBecomes (s : State) (i : Instr) (h : CmdHdr) (code n q : Nat) (y : Queue) (l : Leaf) : Prop :=
  ∃ t, exec i s = .next t ∧ Logs s t h code (atOnceWith []) ∧ t.queue? n q = some y ∧
    t.rdBytes l.pa 21 = bytesOf 1 y.st.code ++ bytesOf 4 y.err ++ bytesOf 8 y.tail ++ bytesOf 8 y.head ∧
    (∀ m, m ≠ n → t.ctx m = s.ctx m) ∧ (∀ p, p ≠ q → t.queue? n p = s.queue? n p) ∧
    SameOutside s t (fun pa => l.pa ≤ pa ∧ pa < l.pa + 21)

/-- Table 6.1 and R116: the limits of a launch record, its addresses and its item. -/
structure LaunchOk (item bs : List Byte) (sector : Nat) : Prop where
  width   : (launchOf bs).width ∈ [16, 32, 64]
  regs    : 1 ≤ (launchOf bs).regs8 ∧ (launchOf bs).regs8 ≤ 32 ∧ (launchOf bs).globals ≤ 64 ∧ (launchOf bs).tiles ≤ 256
  flags   : recField bs 27 1 < 8
  warps   : 1 ≤ (launchOf bs).warps ∧ (launchOf bs).warps ≤ 16 ∧ (launchOf bs).warps * (launchOf bs).width ≤ 512
  mem     : (launchOf bs).crewmem ≤ 131072 ∧ (launchOf bs).crewmem % 64 = 0
  chunk   : 32 ≤ (launchOf bs).chunk ∧ (launchOf bs).chunk ≤ 4096
  crews   : 1 ≤ (launchOf bs).convoy ∧ (launchOf bs).convoy ≤ 65535 ∧ 1 ≤ (launchOf bs).crews
  drain   : (launchOf bs).drain ≤ 1000000 ∧ (launchOf bs).heapx ≤ 2 ^ 20
  spill   : (launchOf bs).spillb % 8 = 0 ∧ (launchOf bs).spillb ≤ 2 ^ 32 - 8
  zeros   : recField bs 31 1 = 0 ∧ recField bs 38 2 = 0 ∧ recField bs 80 48 = 0 ∧ ∀ b ∈ item.drop 16, b = 0
  code    : (launchOf bs).code.toNat % 8 = 0 ∧ (launchOf bs).code.toNat < 2 ^ 57
  places  : (launchOf bs).handler.toNat < 2 ^ 57 ∧ (launchOf bs).data.toNat < 2 ^ 57 ∧
              (launchOf bs).spill.toNat % 8 = 0 ∧ (launchOf bs).spill.toNat < 2 ^ 57 ∧
              (launchOf bs).heap.toNat % 4096 = 0 ∧ (launchOf bs).heap.toNat < 2 ^ 57
  fits    : (launchOf bs).fits sector = true

/-- A strand as a warp begins (Table 6.2). -/
structure Begins (l : LaunchRec) (arg : W64) (t : Strand) : Prop where
  place : t.core.pc = l.code ∧ t.core.hdr = l.code ∧ t.core.inClause = false
  lanes : t.core.l = fullMask l.width ∧ t.core.em = fullMask l.width ∧ t.core.hm = 0
  s     : t.core.s = setAt (setAt (List.replicate 64 0) 1 arg) 2 l.data
  k     : t.core.k = List.replicate 16 Cursor.unbound
  spec  : t.core.acr = 0 ∧ t.core.chlim = l.chunk ∧ t.core.batchn = 0 ∧ t.core.winb = 0 ∧ t.core.calls = []
  trap  : t.core.trap = TrapRegs.zero
  fresh : t.chunk = Chunk.none ∧ t.wait = .none ∧ t.pends = [] ∧ t.sqcnt = 0

/-- A crew in its launch state: every warp with the registers of Table 6.2. -/
structure Fresh (l : LaunchRec) (arg : W64) (x : Crew) : Prop where
  run   : x.run = .placed ∧ x.launch = l ∧ x.mem = [] ∧ x.bars = []
  warps : x.warps.map (·.id) = List.range l.warps
  each  : ∀ w ∈ x.warps, w.width = l.width ∧ w.exited = false ∧ w.held = [] ∧ w.batches = [] ∧
            w.vregs = setAt (List.replicate (l.regs8 * 8) (VecReg.zero l.width)) 0
              { tag := .u32, lanes := (List.range l.width).map (BitVec.ofNat 32) } ∧
            w.gregs = List.replicate l.globals (VecReg.zero l.width) ∧ w.preds = List.replicate 15 0 ∧
            w.tiles = List.replicate l.tiles Tile.undef ∧ ∃ t, w.strands = [some t, none, none, none] ∧ Begins l arg t

/-- How a strand that waits so stands in an image: a parked one stays PARKED at its instruction, which it issues again, and a wait
at a barrier goes on (R105, R159). None where a wake or an event comes first (R106, R459). -/
def imageWait (s : State) (ctx : Nat) : Wait → Option Wait
  | .none | .flags | .tile _ | .faulting _ => some .none
  | .sv _ _ _ _ none | .wc _ _ _ none | .xf _ => some (.restored none)
  | .wfuse sd a _ _ => some (.restored (some (sd, a)))
  | .deq o _ => if s.waiterDue ctx o.q.toNat then none else some (.restored none)
  | .bar sd off ph barw => some (.bar sd off ph barw)
  | .fault id pf => some (.fault id pf)
  | _ => none

/-- The strands of a crew run or are parked outside any chunk, with no wake or event due, none has made a strand that is not
born, and no merge can be undone. -/
def Settled (s : State) (r : CrewRef) : Prop :=
  (∀ x t, x.w.crew = r → s.strand? x = some t →
    (∃ w, imageWait s r.ctx t.wait = some w) ∧ (∀ ch ∈ t.unplaced, ch.childIdx = none) ∧
      (imageWait s r.ctx t.wait ≠ some .none → t.earlier = [] ∧ t.chunk.st = .idle ∧ t.chunk.pinned = false)) ∧
  ∀ c, s.crew? r = some c → ∀ w ∈ c.warps, w.merges = []

/-- A strand's state in an image: that at the start of its oldest unplaced chunk (R204). -/
def imageCore (t : Strand) : StrandCore :=
  let ch := (t.earlier ++ [t.chunk]).headD t.chunk
  { (if ch.st = .idle ∧ ch.pinned = false then t.core else ch.snap.getD t.core) with inClause := false }

/-- The size of a crew's image (R102): registers, tiles, crew memory and 8 KiB a warp. -/
def imageBytes (l : LaunchRec) : Nat :=
  l.warps * (8 * l.regs8 + l.globals) * l.width * 4 + l.warps * l.tiles * 1024 + l.crewmem + l.warps * 8192

/-- A save within `b` ns: 0.5 microseconds and `halves` half microseconds a MiB (Table 5.8). -/
def SavesWithin (halves size b : Nat) : Prop := (500 : ℚ) + (500 * halves * size : ℚ) / 2 ^ 20 ≤ b

/-- A host request waits for nothing here: memory is canonical, no chunk is PINNED, no fence holds the host, and no write of it is
under way. -/
def HostFree (s : State) (n : Nat) : Prop := s.memWf = true ∧ s.hostBusy n = false ∧ NoPins s

/-- A FAULT record (R141). -/
def faultBytes (f : FaultRec) : List Byte :=
  bytesOf 8 f.pf.va ++ bytesOf 1 f.pf.reason.code ++ bytesOf 1 f.pf.access.code ++ zeroBytes 2 ++ bytesOf 4 f.id ++
    bytesOf 2 f.core ++ bytesOf 1 f.quad ++ bytesOf 1 f.slot ++ bytesOf 1 f.strand ++ bytesOf 1 (bit f.isOpen) ++ zeroBytes 2 ++
    bytesOf 4 f.voy ++ bytesOf 4 f.crew ++ bytesOf 4 f.batch ++ zeroBytes 28

/-- A queue with room: OPEN and not full. -/
def HasRoom (s : State) (n q : Nat) (x : Queue) : Prop :=
  s.queue? n q = some x ∧ x.st = .opened ∧ s.isFull n q x = false

/-- A request answered, and nothing else changed. -/
def Answers (s : State) (i : Instr) (r : HostResp) : Prop := exec i s = .next { s with resp := some r }


/-! ## The host window and the mailbox (23), invalidations and replays (15), links, windows and engines (22, 16) -/

/-- The first byte of a request at `va` that lies in a line of 128 bytes. -/
def lineStart (va line : Nat) : Nat := Nat.max va (128 * line)

/-- A line of a request of `len` bytes at `va`. -/
def InRequest (va len line : Nat) : Prop := 0 < len ∧ va / 128 ≤ line ∧ 128 * line < va + len

/-- A line translates to the leaf that `tr` gives it. -/
def LineOk (s : State) (n va : Nat) (q : XReq) (tr : Nat → Leaf) (line : Nat) : Prop :=
  lineStart va line < 2 ^ 57 ∧ s.translate n (lineStart va line) q = .ok (tr line)

/-- A line faults. -/
def LineFaults (s : State) (n va : Nat) (q : XReq) (line : Nat) : Prop :=
  2 ^ 57 ≤ lineStart va line ∨ ∃ e, s.translate n (lineStart va line) q = .error e

/-- The physical address of byte `j` of a request. -/
def lineByte (va : Nat) (tr : Nat → Leaf) (j : Nat) : Nat :=
  (tr ((va + j) / 128)).pa + (va + j - lineStart va ((va + j) / 128))

/-- What a read request of the host returns, byte by byte, none where a granule is poisoned. -/
def hostBytes (s : State) (va len : Nat) (tr : Nat → Leaf) : List (Option Byte) :=
  (List.range len).map (fun j => if s.isPoison (lineByte va tr j) then none else some (s.rdByte (lineByte va tr j)))

/-- The lines of a host write, in ascending order: each with its first address and its bytes (R219). -/
def SplitsInto (va : Nat) (data : List Byte) (ls : List (Nat × List Byte)) : Prop :=
  ls.map (·.1) = (List.range ((va + data.length - 1) / 128 - va / 128 + 1)).map (fun i => lineStart va (va / 128 + i)) ∧
    ls.flatMap (·.2) = data ∧ ∀ x ∈ ls, 0 < x.2.length ∧ x.1 / 128 = (x.1 + x.2.length - 1) / 128

/-- The next line of a host write under way, the oldest of its function. -/
structure NextLine (s : State) (h : HostLines) (va : Nat) (bs : List Byte) (rest : List (Nat × List Byte)) : Prop where
  calm  : s.memWf = true ∧ NoPins s
  first : s.hostw.find? (fun x => x.func == h.func) = some h
  one   : ∀ x ∈ s.hostw, x.id = h.id → x = h
  line  : h.lines = (va, bs) :: rest

/-- A line has entered G: its bytes stand in memory, every other byte is as before, and a poisoned granule that it fills is
poisoned no more (R110); the write goes on with the lines behind it, or has completed. -/
structure LineEntered (s t : State) (h : HostLines) (bs : List Byte) (rest : List (Nat × List Byte)) (l : Leaf) : Prop where
  bytes  : ∀ i, i < bs.length → t.rdByte (l.pa + i) = bs.getD i 0
  others : SameOutside s t (fun pa => l.pa ≤ pa ∧ pa < l.pa + bs.length)
  poison : ∀ g, g ∈ t.poison ↔ g ∈ s.poison ∧ ¬ (l.pa ≤ 32 * g ∧ 32 * g + 32 ≤ l.pa + bs.length)
  ctxs   : t.ctxs = s.ctxs
  more   : rest ≠ [] → t.resp = s.resp ∧ ∀ x, x ∈ t.hostw ↔ (x ∈ s.hostw ∧ x.id ≠ h.id) ∨ x = { h with lines := rest }
  last   : rest = [] → t.resp = some .successful ∧ ∀ x, x ∈ t.hostw ↔ x ∈ s.hostw ∧ x.id ≠ h.id

/-- A range of bytes meets the range of an invalidation. -/
def Covered (i : Inval) (page bytes : Nat) : Prop := page < i.base + i.len ∧ i.base < page + bytes

/-- A record of context `n` that the host answers: its number names it alone among the outstanding ones (R295). -/
structure Outstanding (s : State) (n : Nat) (f : FaultRec) : Prop where
  here : f ∈ (s.ctx n).faults
  one  : ∀ g ∈ (s.ctx n).faults, g.id = f.id → g = f

/-- A translation in use by a strand: of a page of a chunk that is not yet placed, or of a lane of an AMOV that is still to be
performed (R299). -/
def InUse (u : Strand) (i : Inval) : Prop :=
  (∃ ch ∈ u.earlier ++ [u.chunk], ch.active = true ∧ ∃ p ∈ ch.pages, Covered i (4096 * p) 4096) ∨
    ∃ f o todo olds, u.wait = .amov f o todo olds ∧ ∃ x ∈ todo, Covered i (x.va / 4096 * 4096) 4096

/-- The record is outstanding no more, and the command is completed at once. -/
structure Answered (s t : State) (h : CmdHdr) (n : Nat) (f : FaultRec) : Prop where
  logs   : Logs s t h 0x21 (atOnceWith [])
  record : (t.ctx n).faults = (s.ctx n).faults.filter (fun x => x.id != f.id)
  rest   : ∀ m, m ≠ n → t.ctx m = s.ctx m

/-- What waits for record `f` is told: a strand that waits for it becomes what `g` makes of it; every other strand stays. -/
def StrandsTold (s t : State) (f : FaultRec) (g : Strand → Wait → PageFault → Strand) : Prop :=
  ∀ r c, s.curOf r = some c →
    (∀ pf, Attached.strand r ∈ f.attached → c.t.wait = .fault f.id pf →
      t.strand? r = some (g c.t (if c.crew.live then .none else .restored none) pf)) ∧
    ((Attached.strand r ∉ f.attached ∨ ∀ pf, c.t.wait ≠ .fault f.id pf) → t.strand? r = some c.t)

/-- The state in which what is attached to a record is told: nothing cached that led to the fault stays (R297). -/
def forgotten (s : State) (n : Nat) (f : FaultRec) : State := s.forget n f.pf.va


/-- The window may use the link (Table 22.2). -/
def Uses (s : State) (n i : Nat) (w : Window) : Prop := w ∈ (s.ctx n).windows ∧ w.links.testBit i = true

/-- The windows of a context bear different numbers. -/
def WindowsDiffer (s : State) (n : Nat) : Prop := ((s.ctx n).windows.map (·.id)).Nodup

/-- Strands have one unplaced chunk at most, which made no strand, and no merge can be undone. -/
def Plain (s : State) : Prop :=
  (∀ r u, s.strand? r = some u → u.earlier = [] ∧ u.chunk.childIdx = none) ∧ ∀ c ∈ s.crews, ∀ w ∈ c.warps, w.merges = []

/-- R420: link `i` goes from `old` to `new`; with `lost`, every window that may use it is FROZEN, the commands in flight on
them end with FAULT 0x45, and the WCWAITs parked on them wake; the contexts of these windows have their LINK event. -/
structure LinkMoves (s t : State) (i : Nat) (old new : Link) (lost : Bool) : Prop where
  link    : t.links[i]? = some new
  others  : ∀ j, j ≠ i → t.links[j]? = s.links[j]?
  windows : ∀ n, WindowsDiffer s n → (t.ctx n).windows =
    (s.ctx n).windows.map (fun w => if lost && w.links.testBit i then { w with st := .frozen } else w)
  ends    : lost = true → (s.cmds.map (·.id)).Nodup → ∀ c ∈ s.cmds, ∀ w, Uses s c.ctx i w → c.kind.win? = some w.id →
    c.finished = false → c.lost = false →
    ∀ d, t.cmd? c.id = some d → d.finished = true
  faults  : lost = true → (s.cmds.map (·.id)).Nodup → ∀ c ∈ s.cmds, ∀ w, Uses s c.ctx i w → c.kind.win? = some w.id →
    c.finished = false → c.lost = false →
    (∀ d ∈ s.cmds, d ≠ c → d.finished = true) → ∀ r x b, c.warp = some r → s.warp? r = some x → c.batch = some b.n →
    b ∈ x.batches → c.id ∈ b.cmds → b.fault = none →
    ∃ u d va, t.warp? r = some u ∧ d ∈ u.batches ∧ d = { b with fault := some (0x45, va) }
  peers   : lost = true → ∀ p ∈ s.peers, ∀ w, Uses s p.ctx i w → w.id = p.win →
    ({ p with bad := true, stall := none } : PeerCmd) ∈ t.peers
  wakes   : lost = true → Plain s →
    ∀ r u d o since w, s.strand? r = some u → u.chunk.st = .idle → u.wait = .wc d o since none →
      WindowsDiffer s r.w.crew.ctx → Uses s r.w.crew.ctx i w → o.win.toNat = w.id →
      ∃ v, t.strand? r = some v ∧ v.wait = .wc d o since (some (if d then w.dcnt else w.scnt, true))
  event   : ∀ n x l, (∃ w, Uses s n i w) → (∀ m, m ≠ n → ∀ w, ¬ Uses s m i w) → (s.ctxs.map (·.num)).Nodup →
    EventReady s n x l → EventPosted s t n x l 8 ([BitVec.ofNat 8 i, BitVec.ofNat 8 new.st.code, BitVec.ofNat 8 old.st.code,
      BitVec.ofNat 8 new.lanes] ++ List.replicate 12 0 ++
      bytesOf 32 (if lost then (((s.ctx n).windows.filter (fun w => w.links.testBit i && w.st == .opened)).map
        (fun w => 2 ^ w.id)).sum else 0))

/-- A link command of the physical function on one of the twelve links. -/
def OnLink (s : State) (h : CmdHdr) (link : BitVec 8) (l : Link) : Prop :=
  AllowedPf h ∧ link.toNat < 12 ∧ s.links[link.toNat]? = some l

/-- The command changes the link alone. -/
def LinkBecomes (s : State) (j : Instr) (h : CmdHdr) (code i : Nat) (es : List (Nat × Nat × List (Nat × Nat × Nat))) (l : Link) :
    Prop :=
  ∃ t, exec j s = .next t ∧ t = { s with links := t.links, funcs := t.funcs } ∧ Logs s t h code es ∧ t.links[i]? = some l ∧
    ∀ k, k ≠ i → t.links[k]? = s.links[k]?

/-- No link of a mask is ACTIVE or DEGRADED. -/
def NoneUp (s : State) (mask : Nat) : Prop :=
  ∀ i l, i < 12 → mask.testBit i = true → s.links[i]? = some l → l.st ≠ .active ∧ l.st ≠ .degraded

/-- A command in flight whose window may use link `i`, and no link that is up. -/
def WaitsOn (s : State) (i : Nat) (c : Cmd) : Prop :=
  c ∈ s.cmds ∧ c.finished = false ∧ ∃ w x, c.kind.win? = some w ∧ (s.ctx c.ctx).window? w = some x ∧ x.links.testBit i = true ∧
    NoneUp s x.links

/-- A command in flight on a window. -/
def Flies (s : State) (n win : Nat) (c : Cmd) : Prop := c ∈ s.cmds ∧ c.ctx = n ∧ c.kind.win? = some win ∧ c.finished = false

/-- A window of the context that is OPEN to a peer at an offset, for PUT (0) or GET (1). -/
def OpenTo (s : State) (n win right off : Nat) (w : Window) : Prop :=
  (s.ctx n).window? win = some w ∧ w.closing = false ∧ w.st = .opened ∧ w.rights.testBit right = true ∧
    off + 4 ≤ w.size ∧ off % 4 = 0

/-- No chunk is PINNED, and memory is canonical. -/
def NoPinned (s : State) : Prop := s.memWf = true ∧ NoPins s

/-- What follows these fences is held by none (R218). -/
def FencesPast (s : State) (ids : List Nat) : Prop := ∀ f ∈ s.fences, f.id ∈ ids → f.before = []

/-- The command of a peer that a word belongs to: one under way, or one that begins with that word, behind the fences in force. -/
def PeerNow (s : State) (n win : Nat) (put : Bool) (o : PeerUnit) (p : PeerCmd) : Prop :=
  s.peer? n o.id = some p ∨ (s.peer? n o.id = none ∧
    p = { ctx := n, win := win, id := o.id, put := put, roff := o.roff, len := o.len, done := [], bad := false, stall := none,
          after := s.fencesOn n 3 })

/-- Nothing holds the word: it is still to make, no fault record stalls the command, and no fence holds it. -/
def PeerFree (s : State) (p : PeerCmd) (o : PeerUnit) : Prop := p.stall = none ∧ o.k ∉ p.done ∧ FencesPast s p.after

/-- The word lies in the command, in a window that is OPEN to it (R419): at the address `va`. -/
structure PeerAt (s : State) (n win : Nat) (put : Bool) (o : PeerUnit) (p : PeerCmd) (w : Window) (va : Nat) : Prop where
  sound : p.bad = false ∧ p.put = put ∧ p.win = win ∧ 4 * o.k < p.len
  opens : OpenTo s n win (if put then 0 else 1) (p.roff + 4 * o.k) w
  place : va = w.base + p.roff + 4 * o.k

/-- What a peer's word asks of its page: W or R, and E (Table 15.3). -/
def peerReq (put : Bool) : XReq := if put then XReq.engineWrite else XReq.engineRead

/-- The peer's command is refused: of a PUT nothing more is made, and it never counts. -/
structure Refused (s t : State) (n : Nat) (put : Bool) (o : PeerUnit) (p : PeerCmd) : Prop where
  resp : t.resp = some .unsupported
  rest : t = { s with tlb := t.tlb, walks := t.walks, peers := t.peers, resp := t.resp }
  peer : t.peer? n o.id = if p.put then some { p with bad := true, stall := none } else none

/-- Word `k` of command `c` may be accessed: it is still to do, nothing stalls the command and no fence holds it (R215). -/
def UnitDue (s : State) (c : Cmd) (k : Nat) : Prop :=
  s.cmd? c.id = some c ∧ c.abandoned = false ∧ c.lost = false ∧ c.done.length ≠ c.kind.units ∧ k < c.kind.units ∧ k ∉ c.done ∧
    c.stall = none ∧ FencesPast s c.after

/-- Where the command asks for an SY page of the overflow area, the leaf is one (R394, R413). -/
def PlaceOk (s : State) (c : Cmd) (w : Bool) (l : Leaf) : Prop :=
  c.kind.needsSy w = true → l.pol = 2 ∧ (s.ctx c.ctx).inOvf l.pa = true

/-- The word has been read and is still to be written. -/
def withWord (c : Cmd) (k : Nat) (bs : List Byte) : Cmd := { c with buf := c.buf ++ [(k, bs)] }

/-- The word is done; a PUT whose words have all been sent waits for its acknowledgement (R419). -/
def wordDone (c : Cmd) (k : Nat) : Cmd :=
  { c with done := c.done ++ [k], buf := c.buf.filter (fun b => b.1 != k),
           linkSent := c.kind.isPut && (c.done.length + 1 == c.kind.units) }

/-- The command is in the warp's first closed batch, which is not marked. -/
def InBatch (s : State) (c : Cmd) (r : WarpRef) (w : Warp) (b : Batch) : Prop :=
  c.warp = some r ∧ s.warp? r = some w ∧ c.batch = some b.n ∧ w.batches.head? = some b ∧ c.id ∈ b.cmds ∧
    b.fault = none ∧ c.lost = false

/-- The step faults the command: its batch is marked FAULT with a kind and an address, and its accesses are abandoned
(R312). -/
def FaultsBatch (s : State) (c : Cmd) (r : WarpRef) (b : Batch) (i : Instr) (p : Nat → Nat → Prop) : Prop :=
  ∃ t u d kind va, exec i s = .next t ∧ t.warp? r = some u ∧ u.batches.head? = some { b with fault := some (kind, va) } ∧
    p kind va ∧ t.cmd? c.id = some d ∧ d.finished = true ∧ t.mem = s.mem

/-! ### Coherence (14, R278 to R283) -/

/-- Pairs by rising word, words of a line. -/
def Rising (ws : List (Nat × CSt)) : Prop := ws.Pairwise (fun x y => x.1 < y.1) ∧ ∀ x ∈ ws, x.1 < 32

/-- Core `k` has an exact pointer for word `w`, in state `st` (R282). -/
def Points (d : DirLine) (k w : Nat) (st : CSt) : Prop := ∃ p ∈ d.ptrs, p.core = k ∧ (w, st) ∈ p.words

/-- Core `k` lies in a marked group of eight (R282). -/
def Marked (d : DirLine) (k : Nat) : Prop := k / 8 ∈ d.coarse

/-- L1s and directory agree: lists hold each line and core once, entries have four pointers at most, a pointer tells what its core
holds, whoever holds a word is pointed to, or shares it in a marked group, a word has one
owner, and one that is M or E is nowhere else. -/
structure Coherent (c : Caches) : Prop where
  once   : (c.l1.map (fun x => (x.core, x.line))).Nodup ∧ (c.dir.map (·.line)).Nodup ∧ ∀ d ∈ c.dir, (d.ptrs.map (·.core)).Nodup
  few    : ∀ d ∈ c.dir, d.ptrs.length ≤ 4
  cores  : (∀ x ∈ c.l1, x.core < 768) ∧ ∀ d ∈ c.dir, (∀ p ∈ d.ptrs, p.core < 768) ∧ ∀ g ∈ d.coarse, g < 96
  rising : (∀ x ∈ c.l1, Rising x.words) ∧ ∀ d ∈ c.dir, ∀ p ∈ d.ptrs, Rising p.words ∧ p.words ≠ []
  truth  : ∀ d ∈ c.dir, ∀ k w st, Points d k w st → c.held k d.line w = some st
  known  : ∀ k line w st, c.held k line w = some st → Points (c.entry line) k w st ∨ (st = .s ∧ Marked (c.entry line) k)
  one    : ∀ d ∈ c.dir, ∀ k j w a b, Points d k w a → Points d j w b → a.owns = true → b.owns = true → k = j
  sole   : ∀ k j line w, c.held k line w = some .m ∨ c.held k line w = some .e → c.held j line w ≠ none → j = k

/-- The request of one word of a line. -/
def asks (c : Caches) (kind : CohKind) (core line w : Nat) (c' : Caches) (ms : List CohMsg) : Prop :=
  c.request kind core line w 1 = (c', ms)

/-- A message of the home for one word. -/
def toCore (kind : CohKind) (k line w : Nat) : CohMsg := { kind := kind, core := k, line := line, first := w, count := 1 }

/-- A core shares a word, or may: an exact pointer or a marked group says so. -/
def MayShare (c : Caches) (k line w : Nat) : Prop := Points (c.entry line) k w .s ∨ Marked (c.entry line) k

/-- The entry has a pointer for the core, or room for one. -/
def RoomFor (c : Caches) (core line : Nat) : Prop :=
  (c.entry line).ptrs.length < 4 ∨ ∃ p ∈ (c.entry line).ptrs, p.core = core

/-- A word that a lane of a PREF names, on a page that the lane reaches (R275, R276). -/
def PrefWord (s : State) (c : Cur) (o : SpanOps) (v : Nat) : Prop :=
  let n := o.n1.val + 1
  ∃ l lf, inLanes c (c.enabled o.g) l ∧ spanEa c o l % 4 = 0 ∧ spanEa c o l < 2 ^ 57 ∧ spanEa c o l % 128 / 4 + n ≤ 32 ∧
    s.translate c.ctx (spanEa c o l) XReq.load = .ok lf ∧ lf.pa / 4 ≤ v ∧ v < lf.pa / 4 + n


/-! ## Reset, the step, and the encodings -/

/-- The word at an address of context `n`'s code: it is readable and not poisoned (R52, R285). -/
def WordAt (s : State) (n : Nat) (a w : W64) : Prop :=
  a.toNat < 2 ^ 57 ∧ ∃ l, s.translate n a.toNat XReq.load = .ok l ∧ s.isPoison l.pa = false ∧
    w = BitVec.ofNat 64 (s.rdNat l.pa 8)

/-- The state in which strand `r` takes the step that the agenda names first: time has passed and `r` is in focus. -/
def focused (s : State) (rest : List Move) (r : StrandRef) : State := { s.tick with agenda := rest, focus := some r }

/-- The state in which a strand executes: the translations that the fetch used are cached (R297). -/
def fetchedAt (u : State) (c : Cur) : State := u.fetched c.ctx (if c.t.core.inClause then c.t.core.pc else c.t.core.hdr)

/-- What a step makes of an outcome: PINNED chunks that have ended with it are placed at once (R187, R199). -/
def placing (o : Out) : Out := o.after State.commitPinned

/-- Strand `k` of the warp comes before the strand of `c` (R157): more lanes in EM, then the lower PC, then the lower index. -/
def Precedes (c : Cur) (k : Nat) (t : Strand) : Prop :=
  let n := popMask c.width t.core.em
  let m := popMask c.width c.em
  m < n ∨ (n = m ∧ (t.core.pc.toNat < c.t.core.pc.toNat ∨ (t.core.pc = c.t.core.pc ∧ k < c.ref.strand)))

/-- The guard that an instruction without one carries: p15, not negated (R66). -/
def always : Guard := { p := 15, neg := false }

/-- Words that the specification writes out (Tables 3.14, 24.5, 25.5, 26.4 and 28.4 and the examples of its chapters), with the
instructions that they encode. -/
def spelledScalar : List (W64 × Instr) :=
  [(0x1000820100000080, .sadd { sd := 2, sa := 2, x := .sext 128 }),
   (0x1450A7FC10000780, .sld { w := .b64, r := 20, base := 1, off := 0, cf := .none, hint := 0 }),
   (0x1540D7FD80010780, .sst { w := .b32, r := 26, base := 24, off := 1, cf := .none, hint := 0 }),
   (0x0E00C00200000005, .idrd 3 5), (0x01144000FFFFFFF3, .braNz 17 0xFFFFFFF3), (0x01234000FFFFFFF9, .braZ 13 0xFFFFFFF9),
   (0x01000000FFFFFFDF, .bra 0xFFFFFFDF), (0x021300000000000C, .brnz 3 12), (0x030300100000000B, .dbr 3 11 16),
   (0x56000001FFFFFFFF, .emset (.sext 0xFFFFFFFF)), (0x0700070200000005, .trap 5 7), (0x0C01400200000001, .wsplit 5 1),
   (0x0C11400000000000, .wfuse 5), (0x0D00180000030780, .tagset (.v 3) 3), (0x0B00000000000000, .chend),
   (0x0B11000100000200, .chcfg 4 (.sext 512)), (0x7C00000000000802, .xfence 8 2)]

def spelledVector : List (W64 × Instr) :=
  [(0x2000402414000F80, .vadd { vd := .v 8, va := .v 9, vb := .v 10, t := .i32, g := always }),
   (0x2100E05030011780, .vaddc { vd := .v 28, va := .v 20, vb := .v 24, co := 1, ci := 0, t := .u32, g := always }),
   (0x240050200A020780, .vsel { vd := .v 10, ps := 2, va := .v 8, vb := .v 5, g := always }),
   (0x2700A04022140F80, .vdot4II { vd := .v 20, va := .v 16, vb := .v 17, vc := .v 20, sat := false, g := always }),
   (0x302068381E001F80, .fmul { vd := .v 13, va := .v 14, vb := .v 15, t := .f32, rnd := none, g := always }),
   (0x3100300404031F80, .ffma { vd := .v 6, va := .v 1, vb := .v 2, vc := .v 3, t := .f32, rnd := none, g := always }),
   (0x3420481000001F92, .fsqrt { vd := .v 9, va := .v 4, t := .f32, rnd := some .rtz, g := always, cf := .a }),
   (0x3500501004033780, .cvt { vd := .v 10, va := .v 4, part := 2, src := .f32, dst := .e4m3x4, sat := false, rnd := none, g := always }),
   (0x5000602430000780, .shflIdx { vd := .v 12, va := .v 9, vb := .v 24, g := always }),
   (0x5100186800001781, .bcastS { vd := .v 3, sa := 26, t := .u32, g := always }),
   (0x5200A85000000F80, .vredAdd { vd := .v 21, va := .v 20, t := .i32, g := always }),
   (0x5400500800000080, .voteBallot { sd := 10, ps := 2, g := { always with p := 1 } })]

def spelledMemory : List (W64 × Instr) :=
  [(0x6040200420040F90, .ld { w := .b32, d := .v 4, va := some (.v 1), base := 2, off := 4, t := .i32, g := always, cf := .a, hint := 0 }),
   (0x6140400590001100,
    .st { w := .b32, d := .v 8, va := some (.v 1), base := 25, off := 0, t := .u32, g := { always with p := 2 }, cf := .none, hint := 0 }),
   (0x624027FCB0101780, .ldcw { w := .b32, d := .v 4, va := none, base := 11, off := 16, t := .u32, g := always, cf := .none, hint := 0 }),
   (0x70C1441800000000, .amoIncw { sd := 5, sa := 4, sb := 6, w64 := false }),
   (0x7100401020001780, .amovAdd { d := .v 8, va := some (.v 4), base := 2, off := 0, t := .u32, g := always, cf := .none }),
   (0x7411C32000000000, .svwaitGeu { sd := 7, sa := 3, sb := 8, w64 := false }), (0x7200004400000000, .binit 0 17),
   (0x73230A0000000000, .barw 12 10), (0x7802540000000205, .enq { sd := 9, sa := 20, q := 5, p := 2 }),
   (0x7901680000000F03, .deq { sd := 5, sa := 40, q := 3, p := 15 }), (0x7912540000000205, .deqt { sd := 9, sa := 20, q := 5, p := 2 }),
   (0x7A03280000000001, .engq { sd := 12, sa := 40, q := 0, p := 1 }), (0x7B11872000000000, .bwait { sd := 6, sa := 7, sb := 8 }),
   (0x7D01C02000010301, .wcwaitD { sd := 7, sb := 8, win := 3, p := 1 })]

def spelledEngines : List (W64 × Instr) :=
  [(0x80000040310FF800, .mmaF16 { tile := 0, a := .v 8, b := .v 12, bnd := 16, scl := none, cf := .none }),
   (0x8200004040EFF800, .mmatI8t2 { tile := 0, a := .v 8, b := .v 16, bnd := 14, scl := none, cf := .none }),
   (0x83003000000FF800, .azero 3), (0x88003018009FF800, .atag 3 9 3),
   (0x84002FFCA0100780, .ald { f := .f32, tile := 5, base := 10, off := 16, cf := .none, hint := 0 }),
   (0x850007FD20000780, .ast { f := .f32, tile := 0, base := 18, off := 0, cf := .none, hint := 0 }),
   (0x9000000000140000, .kinitR { kd := 0, s := 20, cf := .none }),
   (0x91010004024C0140, .knext { kd := 1, vc := .v 8, vp := .v 9, s := 12, pd := 2, cf := .none }),
   (0x9420100A024001C0, .kld { w := .b32, vd := .v 20, ka := 1, vp := .v 9, pd := 3, cf := .none }),
   (0x95001204028C0143, .kcoI { ka := 1, kb := 2, vc := .v 8, vp := .v 10, s := 12, pa := 2, pb := 3, cf := .none }),
   (0x96030004024A0141, .kapp { kd := 3, vc := .v 8, vv := .v 9, ps := 1, s := 10, pa := 2, cf := .none }),
   (0x97030000000B0000, .kfin { kd := 3, s := 11, cf := .none }),
   (0x9A030002001420C0, .sieveNz { kd := 3, vx := .v 4, s := 20, pk := 1, t := .f16x2, cf := .none }),
   (0x9B00000600285100, .xdec { vd := .v 12, s := 40, pd := 2, t := .u8x4, cf := .none })]

end Sys2Proof.Rules

open Sys2Proof Sys2Proof.Machine Sys2Proof.Rules

/-- R227: the sixteen functions of Table 12.2 write s(sd) and nothing else; arithmetic wraps modulo 2^64, and a shift uses
X[5:0] alone. -/
def Sys2Proof.Rules.ScalarArithmetic : Prop := ∀ p ∈ saluTable, Scalar2 p.1 p.2

/-- R228: the ten compares write 1 or 0, and SSEL selects by a third scalar. -/
def Sys2Proof.Rules.ScalarCompareAndSelect : Prop :=
  (∀ p ∈ scmpTable, Scalar2 p.1 p.2) ∧
  (∀ (s : State) (c : Cur) (o : SselOps), Ready s c 1 .none →
    Room c c → Computes s c (.ssel o) 1 .none (c.setS o.sd (if c.sr o.sc ≠ 0 then c.sr o.sa else c.sr o.sb)))

/-- R227 and R228: the sixteen SALU operations, the ten scalar compares and SSEL compute what Tables 12.1 to 12.3 state, and nothing else changes. -/
def Obligations.ScalarArithmetic : Prop := Rules.ScalarArithmetic ∧ Rules.ScalarCompareAndSelect

/-- R229: counts, reversal, extraction and insertion; a field that does not lie within 64 bits, and an insertion with S set,
trap ILLEGAL_OPERAND, for s0 as the destination too. -/
def Obligations.ScalarBits : Prop :=
  (∀ p ∈ sbitTable, ∀ (s : State) (c : Cur) (o : SUnOps), Ready s c 1 .none → Room c c →
    Computes s c (p.1 o) 1 .none (c.setS o.sd (p.2 (c.sr o.sa)))) ∧
  (∀ (s : State) (c : Cur) (o : SbfOps), Ready s c 1 .none → FieldOk (control c o.f) →
    Room c c →
      Computes s c (.sbfe o) 1 .none (c.setS o.sd (extracted (c.sr o.sa) (control c o.f)))) ∧
  (∀ (s : State) (c : Cur) (o : SbfOps), Ready s c 1 .none → FieldOk (control c o.f) → signOf (control c o.f) = false →
    Room c c →
      ∃ r, Inserted r (c.sr o.sd) (c.sr o.sa) (posOf (control c o.f)) (lenOf (control c o.f)) ∧
        Computes s c (.sbfi o) 1 .none (c.setS o.sd r)) ∧
  (∀ (s : State) (c : Cur) (o : SbfOps), Ready s c 1 .none → ¬ FieldOk (control c o.f) →
    Meets s c (.sbfe o) c.em (.word .illegalOperand 0)) ∧
  (∀ (s : State) (c : Cur) (o : SbfOps), Ready s c 1 .none →
    ¬ (FieldOk (control c o.f) ∧ signOf (control c o.f) = false) → Meets s c (.sbfi o) c.em (.word .illegalOperand 0))

/-- R231: VALU and its immediate form, element by element, for the arithmetic functions of Table 12.5. -/
def Sys2Proof.Rules.VectorArithmetic : Prop :=
  ∀ p ∈ valuTable, ValuRule p.1 arithType arithSource p.2.2 ∧ ValuImmRule p.2.1 arithType arithSource p.2.2

/-- The bitwise functions of Table 12.5, which accept every type code up to 0x0F and every source tag but POISON. -/
def Sys2Proof.Rules.VectorBitwise : Prop :=
  ∀ p ∈ valuBitTable, ValuRule p.1 bitType (fun _ => anyTag) p.2.2 ∧ ValuImmRule p.2.1 bitType (fun _ => anyTag) p.2.2

/-- R233 and R234: carry chains; the carry-in is read before the carry-out is written, and VMAD64 is exact in 64 bits. -/
def Sys2Proof.Rules.CarryChains : Prop :=
  CarryRule .vaddc (fun a b k => (a : Int) + b + k) (fun x => 2 ^ 32 ≤ x) ∧
  CarryRule .vsubb (fun a b k => (a : Int) - b - k) (fun x => x < 0) ∧
  MadRule .vmad64U false ∧ MadRule .vmad64S true

/-- R231 to R234: the vector integer operations of Table 12.5 in both forms and at every type, and the carry chains, in the enabled lanes; every other lane and register stays. -/
def Obligations.VectorArithmetic : Prop := Rules.VectorArithmetic ∧ Rules.VectorBitwise ∧ Rules.CarryChains

/-- R235: VCMP writes a predicate in the enabled lanes. -/
def Sys2Proof.Rules.VectorCompare : Prop := ∀ p ∈ vcmpTable, VcmpRule p.1 p.2

/-- R236: VSEL, VMOV and VLI; VLI.HI reads vd and traps where it is POISON (TLANES without helper lanes: log entry 62). -/
def Sys2Proof.Rules.VectorSelectMoveLoad : Prop :=
  (∀ (s : State) (c : Cur) (o : VselOps), o.g.wf = true → Ready s c 1 .none → Room c c → c.regOk o.vd = true →
    Source c o.va anyTag → Source c o.vb anyTag →
    Computes s c (.vsel o) 1 .none (c.setV o.vd (c.enabledH o.g)
      (fun l => if hasLane (c.pr o.ps) l then lane c o.va l else lane c o.vb l)
      (if (c.vr o.va).tag = (c.vr o.vb).tag then (c.vr o.va).tag else .raw))) ∧
  (∀ (s : State) (c : Cur) (o : VMoveOps), o.g.wf = true → Ready s c 1 .none → Room c c → c.regOk o.vd = true →
    Source c o.va anyTag →
    Computes s c (.vmov o) 1 .none (c.setV o.vd (c.enabledH o.g) (lane c o.va) (c.vr o.va).tag)) ∧
  (∀ p ∈ vliTable, ∀ (s : State) (c : Cur) (o : VliOps), o.g.wf = true → bitType o.t = true → Ready s c 1 .none →
    Room c c → c.regOk o.vd = true →
    Computes s c (p.1 o) 1 .none (c.setV o.vd (c.enabledH o.g) (fun _ => p.2 o) o.t)) ∧
  (∀ (s : State) (c : Cur) (o : VliOps), o.g.wf = true → bitType o.t = true → Ready s c 1 .none → Room c c →
    Source c o.vd anyTag →
    Computes s c (.vliHi o) 1 .none (c.setV o.vd (c.enabledH o.g)
      (fun l => o.imm ++ (lane c o.vd l).extractLsb' 0 16) o.t)) ∧
  (∀ (s : State) (c : Cur) (o : VliOps), Ready s c 1 .none → c.regOk o.vd = true → (c.vr o.vd).tag = .poison →
    Meets s c (.vliHi o) (c.enabled o.g) (.trap .regPoison 0 o.vd.code none))

/-- R235 and R236: vector compares, VSEL, VMOV, VMOVU and VLI, lane by lane. -/
def Obligations.VectorComparesAndMoves : Prop := Rules.VectorCompare ∧ Rules.VectorSelectMoveLoad

/-- R237: counts, reversal, fields and byte permutation; no field value traps. -/
def Sys2Proof.Rules.VectorBits : Prop :=
  (∀ p ∈ vbitTable, ∀ (s : State) (c : Cur) (o : VUnOps), o.g.wf = true → o.t ∈ [Tag.raw, .i32, .u32] →
    Ready s c 1 .none → Room c c → c.regOk o.vd = true → Source c o.va wordOnly →
    Computes s c (p.1 o) 1 .none (c.setV o.vd (c.enabledH o.g) (fun l => p.2 (lane c o.va l)) o.t)) ∧
  (∀ (s : State) (c : Cur) (o : VOps), o.g.wf = true → o.t ∈ [Tag.raw, .i32, .u32] → Ready s c 1 .none → Room c c →
    c.regOk o.vd = true → Source c o.va wordOnly → Source c o.vb wordOnly →
    Computes s c (.vbfe o) 1 .none (c.setV o.vd (c.enabledH o.g)
      (fun l =>
        let x := (lane c o.va l).extractLsb' (vpos (lane c o.vb l)) (vlen (lane c o.vb l))
        if o.t = .i32 then x.signExtend 32 else x.setWidth 32) o.t)) ∧
  (∀ (s : State) (c : Cur) (o : V3Ops), o.g.wf = true → o.t ∈ [Tag.raw, .i32, .u32] → Ready s c 1 .none → Room c c →
    c.regOk o.vd = true → Source c o.va wordOnly → Source c o.vb wordOnly → Source c o.vc wordOnly →
    (∃ r : Nat → W32, (∀ l, Inserted (r l) (lane c o.va l) (lane c o.vc l) (vpos (lane c o.vb l)) (vlen (lane c o.vb l))) ∧
      Computes s c (.vbfi o) 1 .none (c.setV o.vd (c.enabledH o.g) r o.t)) ∧
    (∃ r : Nat → W32, (∀ l i, i < 4 → (r l).extractLsb' (8 * i) 8 = permByte (lane c o.va l) (lane c o.vb l) (lane c o.vc l) i) ∧
      Computes s c (.vbperm o) 1 .none (c.setV o.vd (c.enabledH o.g) r o.t)))

/-- R238: VDOT4, saturated to the range of its type where it asks for that. -/
def Sys2Proof.Rules.VectorDotProduct : Prop :=
  ∀ p ∈ vdotTable, ∀ (s : State) (c : Cur) (o : VdotOps), o.g.wf = true → Ready s c 1 .none → Room c c →
    c.regOk o.vd = true → Source c o.va (orRaw p.2.2.1) → Source c o.vb (orRaw p.2.2.2.1) → Source c o.vc (orRaw p.2.2.2.2) →
    Computes s c (p.1 o) 1 .none (c.setV o.vd (c.enabledH o.g)
      (fun l =>
        let x := dot4 p.2.1.1 p.2.1.2.1 p.2.1.2.2 (lane c o.va l) (lane c o.vb l) (lane c o.vc l)
        BitVec.ofInt 32 (if o.sat then nearest 32 p.2.1.2.2 x else x)) p.2.2.2.2)

/-- R237 and R238: vector bit instructions and the dot products of four. -/
def Obligations.VectorBitsAndDots : Prop := Rules.VectorBits ∧ Rules.VectorDotProduct

/-- R240, R241 and R245: shuffles, broadcasts, VTOS and quad exchanges; a source lane of another strand reads zero, and a lane
number at or above the width traps ILLEGAL_OPERAND in BCAST and VTOS. -/
def Obligations.CrossLaneMoves : Prop :=
  (∀ (s : State) (c : Cur) (o : ShflIdxOps), o.g.wf = true → Ready s c 1 .none → Room c c → c.regOk o.vd = true →
    Source c o.va anyTag → Source c o.vb anyTag →
    Computes s c (.shflIdx o) 1 .none (c.setV o.vd (c.enabled o.g)
      (fun l => shuffled c o.va l ((lane c o.vb l).extractLsb' 0 6).toNat) (c.vr o.va).tag)) ∧
  (∀ p ∈ shflTable, ∀ (s : State) (c : Cur) (o : ShflOps), o.g.wf = true → Ready s c 1 .none → Room c c →
    c.regOk o.vd = true → Source c o.va anyTag →
    Computes s c (p.1 o) 1 .none (c.setV o.vd (c.enabled o.g) (fun l => shuffled c o.va l (p.2 l o.d.val)) (c.vr o.va).tag)) ∧
  (∀ (s : State) (c : Cur) (o : ShflOps), o.g.wf = true → Ready s c 1 .none → Room c c → c.regOk o.vd = true →
    Source c o.va anyTag →
    (o.d.val < c.width →
      Computes s c (.bcast o) 1 .none (c.setV o.vd (c.enabled o.g) (fun _ => crossLane c o.va o.d.val) (c.vr o.va).tag)) ∧
    (c.width ≤ o.d.val → Meets s c (.bcast o) (c.enabled o.g) (.word .illegalOperand 0))) ∧
  (∀ (s : State) (c : Cur) (o : BcastSOps), o.g.wf = true → bitType o.t = true → Ready s c 1 .none → Room c c →
    c.regOk o.vd = true →
    Computes s c (.bcastS o) 1 .none (c.setV o.vd (c.enabled o.g) (fun _ => (c.sr o.sa).extractLsb' 0 32) o.t)) ∧
  (∀ (s : State) (c : Cur) (o : VtosOps), Ready s c 1 .none → Room c c → Source c o.va anyTag →
    (o.n.val < c.width → Computes s c (.vtos o) 1 .none (c.setS o.sd ((crossLane c o.va o.n.val).setWidth 64))) ∧
    (c.width ≤ o.n.val → Meets s c (.vtos o) c.em (.word .illegalOperand 0))) ∧
  (∀ p ∈ qxchTable, ∀ (s : State) (c : Cur) (o : VMoveOps), o.g.wf = true → Ready s c 1 .none → Room c c →
    c.regOk o.vd = true → Source c o.va anyTag →
    Computes s c (p.1 o) 1 .none (c.setV o.vd (c.enabledH o.g)
      (fun l => crossLane c o.va (4 * (l / 4) + ((l % 4) ^^^ p.2))) (c.vr o.va).tag)) ∧
  (∀ (s : State) (c : Cur) (o : QxchBOps), o.g.wf = true → Ready s c 1 .none → Room c c → c.regOk o.vd = true →
    Source c o.va anyTag →
    Computes s c (.qxchB o) 1 .none (c.setV o.vd (c.enabledH o.g)
      (fun l => crossLane c o.va (4 * (l / 4) + o.c.val)) (c.vr o.va).tag))

/-- R242 and R243 for the integer operations: the guard selects the contributors; VRED writes every lane of EM, VSCAN the
contributors alone; with no contributor the result is the identity. -/
def Sys2Proof.Rules.IntegerReductions : Prop :=
  ∀ p ∈ reduceTable,
    (∀ (s : State) (c : Cur) (o : VUnOps), o.g.wf = true → p.2.2.2.1 o.t = true → Ready s c 1 .none → Room c c →
      c.regOk o.vd = true → Source c o.va (p.2.2.2.2 o.t) →
      let k := p.2.2.1 (o.t = .i32)
      Computes s c (p.1 o) 1 .none
        (c.setV o.vd c.em (fun _ => combined c o.va k.1 k.2 (contributors c o.g c.width)) o.t)) ∧
    (∀ (s : State) (c : Cur) (o : VscanOps), o.g.wf = true → p.2.2.2.1 o.t = true → Ready s c 1 .none → Room c c →
      c.regOk o.vd = true → Source c o.va (p.2.2.2.2 o.t) →
      let k := p.2.2.1 (o.t = .i32)
      Computes s c (p.2.1 o) 1 .none
        (c.setV o.vd (c.enabled o.g)
          (fun l => combined c o.va k.1 k.2 (contributors c o.g (min c.width (if o.ex then l else l + 1)))) o.t))

/-- R49, R242 and R243 for the floating-point operations: the pairwise tree over lane index, and lane order in VSCAN; a value
that meets an absent lane passes unrounded. -/
def Sys2Proof.Rules.FloatReductions : Prop :=
  ∀ p ∈ reduceFloat,
    (∀ (s : State) (c : Cur) (o : VUnOps), o.g.wf = true → o.t = .f32 → Ready s c 1 .none → Room c c →
      c.regOk o.vd = true → Source c o.va (· == .f32) → c.width ≤ 64 →
      Computes s c (p.1 o) 1 .none
        (c.setV o.vd c.em (fun _ => BitVec.ofNat 32
          ((treeNode (p.2.2.1 c.t.core.acr) (floatLane c o.g o.va) 6 0).getD p.2.2.2)) o.t)) ∧
    (∀ (s : State) (c : Cur) (o : VscanOps), o.g.wf = true → o.t = .f32 → Ready s c 1 .none → Room c c →
      c.regOk o.vd = true → Source c o.va (· == .f32) →
      Computes s c (p.2.1 o) 1 .none
        (c.setV o.vd (c.enabled o.g) (fun l => BitVec.ofNat 32
          ((scanned (p.2.2.1 c.t.core.acr) (floatLane c o.g o.va) (if o.ex then l else l + 1)).getD p.2.2.2)) o.t))

/-- R49, R242 and R243: reductions and scans over the enabled lanes, exact over integers and in the stated order over floating-point. -/
def Obligations.Reductions : Prop := Rules.IntegerReductions ∧ Rules.FloatReductions

/-- R244: the votes. -/
def Sys2Proof.Rules.Votes : Prop :=
  (∀ (s : State) (c : Cur) (o : BallotOps), o.g.wf = true → Ready s c 1 .none → Room c c → InWidth c c.em →
    ∃ m, (∀ l, hasLane m l = true ↔ l < c.width ∧ hasLane (c.enabled o.g) l = true ∧ hasLane (c.pr o.ps) l = true) ∧
      Computes s c (.voteBallot o) 1 .none (c.setS o.sd m)) ∧
  (∀ (s : State) (c : Cur) (o : VoteOps), o.g.wf = true → Ready s c 1 .none → Room c c → c.width ≤ 64 → InWidth c c.em →
    (∃ m, (∀ l, l < c.width → (hasLane m l = true ↔ ∃ k, k < c.width ∧ hasLane (c.enabled o.g) k = true ∧ hasLane (c.pr o.ps) k = true)) ∧
      Computes s c (.voteAny o) 1 .none (c.setP o.pd c.em m)) ∧
    (∃ m, (∀ l, l < c.width → (hasLane m l = true ↔ ∀ k, k < c.width → hasLane (c.enabled o.g) k = true → hasLane (c.pr o.ps) k = true)) ∧
      Computes s c (.voteAll o) 1 .none (c.setP o.pd c.em m))) ∧
  (∀ (s : State) (c : Cur) (o : PfromsOps), o.g.wf = true → Ready s c 1 .none → Room c c →
    Computes s c (.votePfroms o) 1 .none (c.setP o.pd (c.enabled o.g) (c.sr o.sa)))

/-- R162, R163 and R144: EM and HM take the written lanes that lie in L; EMST reads EM whole. -/
def Sys2Proof.Rules.MaskInstructions : Prop :=
  (∀ (s : State) (c : Cur) (x : Src), Ready s c 1 .none → Room c c →
    Computes s c (.emset x) 1 .none (c.mapCore (fun k => { k with em := c.src x &&& k.l })) ∧
    Computes s c (.emand x) 1 .none (c.mapCore (fun k => { k with em := k.em &&& c.src x })) ∧
    Computes s c (.hmset x) 1 .none (c.mapCore (fun k => { k with hm := c.src x &&& k.l }))) ∧
  (∀ (s : State) (c : Cur) (r : SReg), Ready s c 1 .none → Room c c →
    Computes s c (.emld r) 1 .none (c.mapCore (fun k => { k with em := c.sr r &&& k.l })) ∧
    Computes s c (.emst r) 1 .none (c.setS r c.t.core.em))

/-- R185: TAGSET changes the tag and no lane (a POISON register's lanes become zero, R34), and rejects reserved codes; TAGGET
writes the source's tag code as U32. -/
def Sys2Proof.Rules.TagInstructions : Prop :=
  (∀ (s : State) (c : Cur) (vd : VReg) (code : BitVec 5), Ready s c 1 .none → Room c c → c.regOk vd = true →
    ((code.toNat ≤ 16 ∨ code.toNat = 31) →
      Computes s c (.tagset vd code) 1 .none
        (c.putV vd { tag := Tag.ofCode code.toNat,
                     lanes := if (c.vnow vd).tag = .poison then List.replicate c.width 0 else (c.vnow vd).lanes })) ∧
    (16 < code.toNat → code.toNat < 31 → Meets s c (.tagset vd code) c.em (.word .illegalOperand 0))) ∧
  (∀ (s : State) (c : Cur) (o : VMoveOps), o.g.wf = true → Ready s c 1 .none → Room c c → c.regOk o.vd = true →
    Source c o.va anyTag →
    Computes s c (.tagget o) 1 .none
      (c.setV o.vd (c.enabled o.g) (fun _ => BitVec.ofNat 32 (c.vr o.va).tag.code) .u32))

/-- R144, R162, R163, R185 and R244: votes, predicate moves, EMOP and the tag instructions. -/
def Obligations.MasksAndTags : Prop := Rules.Votes ∧ Rules.MaskInstructions ∧ Rules.TagInstructions

/-- R248: one exact value from the flushed operands, rounded once and flushed. -/
def Sys2Proof.Rules.FloatArithmetic : Prop :=
  (∀ p ∈ faluTable, ∀ (s : State) (c : Cur) (o : FOps), o.g.wf = true → wideType o.t = true → Ready s c 1 .none →
    Room c c → c.regOk o.vd = true → Source c o.va (· == o.t) → Source c o.vb (· == o.t) →
    let mode := modeFor c.t.core.acr o.rnd
    ∃ r, Lanes o.t r (fun l k => rounded (ffmtOf o.t) c.t.core.acr mode (p.2 mode (felem c o.t o.va l k) (felem c o.t o.vb l k))) ∧
      Computes s c (p.1 o) 1 .none (c.setV o.vd (c.enabledH o.g) r o.t)) ∧
  (∀ p ∈ ffmaTable, ∀ (s : State) (c : Cur) (o : FfmaOps), o.g.wf = true → wideType o.t = true → Ready s c 1 .none →
    Room c c → c.regOk o.vd = true → Source c o.va (· == o.t) → Source c o.vb (· == o.t) → Source c o.vc (· == o.t) →
    let mode := modeFor c.t.core.acr o.rnd
    ∃ r, Lanes o.t r (fun l k => rounded (ffmtOf o.t) c.t.core.acr mode
        (p.2 mode (felem c o.t o.va l k) (felem c o.t o.vb l k) (felem c o.t o.vc l k))) ∧
      Computes s c (p.1 o) 1 .none (c.setV o.vd (c.enabledH o.g) r o.t))

/-- R249 and R250: FMIN and FMAX return a flushed operand; FSCALE scales by a power of two with one rounding. -/
def Sys2Proof.Rules.FloatMinMaxScale : Prop :=
  (∀ (s : State) (c : Cur) (o : VOps), o.g.wf = true → wideType o.t = true → Ready s c 1 .none → Room c c →
    c.regOk o.vd = true → Source c o.va (· == o.t) → Source c o.vb (· == o.t) →
    let f := ffmtOf o.t
    let arg := fun r l k => flushedBits f c.t.core.acr (elem o.t k (lane c r l)).toNat
    (∃ r, Lanes o.t r (fun l k => minOrMax f false (arg o.va l k) (arg o.vb l k)) ∧
      Computes s c (.fmin o) 1 .none (c.setV o.vd (c.enabledH o.g) r o.t)) ∧
    (∃ r, Lanes o.t r (fun l k => minOrMax f true (arg o.va l k) (arg o.vb l k)) ∧
      Computes s c (.fmax o) 1 .none (c.setV o.vd (c.enabledH o.g) r o.t))) ∧
  (∀ (s : State) (c : Cur) (o : FOps), o.g.wf = true → wideType o.t = true → Ready s c 1 .none → Room c c →
    c.regOk o.vd = true → Source c o.va (· == o.t) → Source c o.vb (orRaw .i32) →
    ∃ r, Lanes o.t r (fun l k => rounded (ffmtOf o.t) c.t.core.acr (modeFor c.t.core.acr o.rnd)
        (scaled (lane c o.vb l).toInt (felem c o.t o.va l k))) ∧
      Computes s c (.fscale o) 1 .none (c.setV o.vd (c.enabledH o.g) r o.t))

/-- R248 to R250: floating-point arithmetic, fused multiply-add, minima, maxima and scaling round the exact result once. -/
def Obligations.FloatArithmetic : Prop := Rules.FloatArithmetic ∧ Rules.FloatMinMaxScale

/-- R252 and R253: compares of one element of a lane, and its class as the encoding stands. -/
def Sys2Proof.Rules.FloatCompareClassify : Prop :=
  (∀ p ∈ fcmpTable, ∀ (s : State) (c : Cur) (o : FcmpOps), o.g.wf = true → wideType o.t = true →
    (o.e = true → o.t ≠ .f32) → Ready s c 1 .none → Room c c → c.width ≤ 64 → Source c o.va (· == o.t) →
    Source c o.vb (· == o.t) →
    let k := if o.e then 1 else 0
    ∃ m, Marks c m (fun l =>
        (if felem c o.t o.va l k = .nan ∨ felem c o.t o.vb l k = .nan then p.2.1
         else p.2.2 ((felem c o.t o.va l k).cmp (felem c o.t o.vb l k))) = true) ∧
      Computes s c (p.1 o) 1 .none (c.setP o.pd (c.enabledH o.g) m)) ∧
  (∀ (s : State) (c : Cur) (o : FclassOps), o.g.wf = true → o.t ∈ floatTypes → o.e.val < o.t.elems → Ready s c 1 .none →
    Room c c → c.regOk o.vd = true → Source c o.va (· == o.t) →
    let f := ffmtOf o.t
    Computes s c (.fclass o) 1 .none (c.setV o.vd (c.enabledH o.g)
      (fun l => BitVec.ofNat 32 (2 ^ classOf f (f.read (elem o.t o.e.val (lane c o.va l)).toNat))) .u32))

/-- R257 and R258: CVT between any two of the thirteen types. -/
def Sys2Proof.Rules.Conversions : Prop :=
  ∀ (s : State) (c : Cur) (o : CvtOps), o.wf = true → Ready s c 1 .none → Room c c → c.regOk o.vd = true →
    Source c o.va (· == o.src) →
    ∃ r, Lanes o.dst r (converted c o) ∧ Computes s c (.cvt o) 1 .none (c.setV o.vd (c.enabledH o.g) r o.dst)

/-- R252, R253, R257 and R258: compares, classes and conversions. -/
def Obligations.FloatComparesAndConversions : Prop := Rules.FloatCompareClassify ∧ Rules.Conversions

/-- R254: FSF completes, element by element, with the result that the function gives the element, for the type, ACR and the
mode; the flag that it names is set. -/
def Sys2Proof.Rules.SpecialFunctions : Prop :=
  ∀ p ∈ fsfTable, ∀ (s : State) (c : Cur) (o : FsfOps), o.g.wf = true → wideType o.t = true → Ready s c 1 o.cf → Room c c →
    c.regOk o.vd = true → Source c o.va (· == o.t) →
    ∃ r, (∀ l, l < c.width → ∀ k, k < o.t.elems → (elem o.t k (r l)).toNat =
        p.2.elem o.t c.t.core.acr (modeFor c.t.core.acr o.rnd) (elem o.t k (lane c o.va l)).toNat) ∧
      Computes s c (p.1 o) 1 o.cf (c.setV o.vd (c.enabledH o.g) r o.t)

/-- R255: the special inputs of Table 13.4 in all three formats and modes, the input taken after flush_in. -/
def Sys2Proof.Rules.SpecialInputs : Prop :=
  ∀ p ∈ specialTable, ∀ (t : Tag) (acr : BitVec 10) (mode : Rm) (x : Nat), wideType t = true → x < 2 ^ t.bits →
    let f := ffmtOf t
    match flushIn f acr x with
    | .nan => p.1.elem t acr mode x = f.nanBits
    | .inf true => p.1.elem t acr mode x = f.write mode p.2.1
    | .fin true _ _ => ∀ y, p.2.2.1 = some y → p.1.elem t acr mode x = f.write mode y
    | .zero true => p.1.elem t acr mode x = f.write mode p.2.2.2.1
    | .zero false => p.1.elem t acr mode x = f.write mode p.2.2.2.2.1
    | .inf false => p.1.elem t acr mode x = f.write mode p.2.2.2.2.2
    | .fin false _ _ => p.1 = .log2 → valueOf (flushIn f acr x) = 1 → p.1.elem t acr mode x = 0

/-- R254: FSQRT of a positive value is the exact root rounded once, then flushed. -/
def Sys2Proof.Rules.SquareRoot : Prop :=
  ∀ (t : Tag) (acr : BitVec 10) (mode : Rm) (x : Nat), wideType t = true → x < 2 ^ t.bits →
    let v := flushIn (ffmtOf t) acr x
    0 < valueOf v →
    ∃ b, RoundsTo (ffmtOf t) mode (Real.sqrt (valueOf v)) b ∧ SfFn.sqrt.elem t acr mode x = flushOut (ffmtOf t) acr b

/-- R254: an F16 or BF16 element takes the F32 function's value of the widened element, under RNE and not flushed, rounded once
in the selected mode. -/
def Sys2Proof.Rules.NarrowFunctions : Prop :=
  ∀ p ∈ fsfTable, p.2 ≠ .sqrt → ∀ (t : Tag) (acr : BitVec 10) (mode : Rm) (x : Nat), t = .f16x2 ∨ t = .bf16x2 → x < 2 ^ t.bits →
    let v := flushIn (ffmtOf t) acr x
    valueOf v ≠ 0 → p.2.special v = none →
    p.2.elem t acr mode x = rounded (ffmtOf t) acr mode (fF32.read (p.2.elem .f32 0 .rne (fF32.write .rne v)))

/-- R254 and log entry 5: FRCP and FRSQ of F32 elements, whose value is the implementation's, keep the bounds of Table 13.3; a
finite result outside the range overflows. -/
def Sys2Proof.Rules.ReciprocalBounds : Prop :=
  ∀ (fn : SfFn) (acr : BitVec 10) (mode : Rm) (x : Nat), x < 2 ^ 32 →
    let v := valueOf (flushIn fF32 acr x)
    v ≠ 0 → (fn = .rcp ∨ fn = .rsq ∧ 0 < v) →
    ∃ b, ReciprocalBound fn mode v b ∧ fn.elem .f32 acr mode x = flushOut fF32 acr b

/-- R254, R255 and log entry 5: every special function writes its value of each element; that value is the one of Table 13.4 at a special input, the root rounded once for FSQRT, within its bound for FRCP and FRSQ, and rounded from the F32 function's value in F16 and BF16. -/
def Obligations.SpecialFunctions : Prop := Rules.SpecialFunctions ∧ Rules.SpecialInputs ∧ Rules.SquareRoot ∧ Rules.NarrowFunctions ∧ Rules.ReciprocalBounds

/-- R259 to R262: CVTMX quantises blocks of 32 elements under a shared scale, and dequantises them. -/
def Obligations.Microscaling : Prop :=
  ∀ (s : State) (c : Cur) (o : CvtmxOps), o.wf = true → Ready s c 1 o.cf → Room c c → c.width ≤ 64 → c.regOk o.vd = true →
    c.regOk o.vc = true → o.vc ≠ o.vd → o.vc ≠ o.va → 32 ≤ c.width * o.wide.elems →
    let acr := c.t.core.acr
    let mode := modeFor acr o.rnd
    let ew := o.wide.elems
    (Source c o.va (· == o.wide) →
      ∃ (code : Nat → Nat) (r w : Nat → W32),
        (∀ k, k < c.width * ew / 32 → BlockTaken c o k → BlockCode c o k (code k)) ∧
        (∀ l k, k < o.mx.elems → (elem o.mx k (r l)).toNat =
          if o.part.val * ew ≤ k ∧ k < o.part.val * ew + ew then
            quantised (ffmtOf o.mx) acr mode (code ((l * ew + (k - o.part.val * ew)) / 32))
              (felem c o.wide o.va l (k - o.part.val * ew))
          else keptElem c o.vd o.mx l k) ∧
        (∀ l b, b < 4 → l < c.width →
          (BlockTaken c o l → l < c.width * ew / 32 → b = o.b.val → (elem .e8m0x4 b (w l)).toNat = code l) ∧
          (¬ (BlockTaken c o l ∧ l < c.width * ew / 32 ∧ b = o.b.val) →
            (elem .e8m0x4 b (w l)).toNat = keptElem c o.vc .e8m0x4 l b)) ∧
        Computes s c (.cvtmxQ o) 1 o.cf
          ((c.setV o.vd (c.enabled o.g) r o.mx).setV o.vc (fullMask c.width) w .e8m0x4)) ∧
    (Source c o.va (· == o.mx) → Source c o.vc (· == .e8m0x4) →
      ∃ r, Lanes o.wide r (fun l k =>
          let code := (elem .e8m0x4 o.b.val (lane c o.vc ((l * ew + k) / 32))).toNat
          if code = 0 then 0 else if code = 0xFF then (ffmtOf o.wide).nanBits
          else rounded (ffmtOf o.wide) acr mode (scaled ((code : Int) - 127) (felem c o.mx o.va l (o.part.val * ew + k)))) ∧
        Computes s c (.cvtmxD o) 1 o.cf (c.setV o.vd (c.enabled o.g) r o.wide))

/-- R38: a finite value within the range of a format is rounded to the representable value that the mode names, on the grid of
the format, subnormals included. -/
def Sys2Proof.Rules.Rounding : Prop :=
  ∀ t ∈ floatTypes, ∀ (mode : Rm) (x : FNum), finite x → |valueOf x| ≤ largest (ffmtOf t) →
    RoundsTo (ffmtOf t) mode (valueOf x) ((ffmtOf t).write mode x) ∧ ((ffmtOf t).read ((ffmtOf t).write mode x)).isNeg = x.isNeg

/-- R40 and Table 2.10: an overflow, and an infinity that the format does not have. -/
def Sys2Proof.Rules.Overflow : Prop :=
  ∀ t ∈ floatTypes, ∀ (mode : Rm),
    (∀ x : FNum, finite x → largest (ffmtOf t) < |valueOf x| →
      (ffmtOf t).write mode x = overflowed t mode x.isNeg (valueOf x)) ∧
    (∀ neg : Bool, (ffmtOf t).write mode (.inf neg) =
      (ffmtOf t).signBit neg + (if hasInf t then (ffmtOf t).maxBits + 1 else (ffmtOf t).maxBits))

/-- R25 and Table 2.2: the value of every encoding. -/
def Sys2Proof.Rules.FormatValues : Prop :=
  ∀ p ∈ formatTable, ∀ x : Nat, x < 2 ^ p.1.bits →
    let (eb, mb, bias) := p.2
    formatValue p.1 eb mb bias (x.testBit (eb + mb)) (x / 2 ^ mb % 2 ^ eb) (x % 2 ^ mb) ((ffmtOf p.1).read x)

/-- R25 and R28: every encoding that is no NaN is read and written back unchanged, in every mode. -/
def Sys2Proof.Rules.EncodingsRoundTrip : Prop :=
  ∀ t ∈ floatTypes, ∀ (mode : Rm) (x : Nat), x < 2 ^ t.bits → (ffmtOf t).read x ≠ .nan →
    (ffmtOf t).write mode ((ffmtOf t).read x) = x

/-- R28 and Table 2.10: a NaN is written as the canonical one, in every mode. -/
def Sys2Proof.Rules.CanonicalNan : Prop := ∀ p ∈ nanTable, ∀ mode : Rm, (ffmtOf p.1).write mode .nan = p.2

/-- R41: sums and products of finite values are exact, with the sign of an exact zero. -/
def Sys2Proof.Rules.ExactSumsAndProducts : Prop :=
  (∀ (mode : Rm) (a b : FNum), finite a → finite b →
    finite (a.add mode b) ∧ valueOf (a.add mode b) = valueOf a + valueOf b ∧
      (valueOf a + valueOf b = 0 → a.add mode b = .zero (if a = .zero true ∧ b = .zero true then true
        else if a = .zero false ∧ b = .zero false then false else mode = .rdn))) ∧
  (∀ a b : FNum, finite a → finite b →
    finite (a.mul b) ∧ valueOf (a.mul b) = valueOf a * valueOf b ∧ (a.mul b).isNeg = (a.isNeg != b.isNeg)) ∧
  (∀ a : FNum, finite a → finite a.neg ∧ valueOf a.neg = -valueOf a ∧ a.neg.isNeg = !a.isNeg)

/-- R248: NaN and infinite operands of sums, products and negations. -/
def Sys2Proof.Rules.SpecialOperands : Prop :=
  (∀ (mode : Rm) (a : FNum), FNum.nan.add mode a = .nan ∧ a.add mode .nan = .nan ∧ FNum.nan.mul a = .nan ∧ a.mul .nan = .nan) ∧
  (∀ (mode : Rm) (p q : Bool), (FNum.inf p).add mode (.inf q) = (if p = q then .inf p else .nan) ∧
    (FNum.inf p).mul (.inf q) = .inf (p != q)) ∧
  (∀ (mode : Rm) (p : Bool) (a : FNum), finite a → (FNum.inf p).add mode a = .inf p ∧ a.add mode (.inf p) = .inf p ∧
    (FNum.inf p).mul a = (if valueOf a = 0 then .nan else .inf (p != a.isNeg)) ∧
    a.mul (.inf p) = (if valueOf a = 0 then .nan else .inf (a.isNeg != p))) ∧
  FNum.nan.neg = .nan ∧ ∀ p : Bool, (FNum.inf p).neg = .inf (!p)

/-- R252: the order of two values that are no NaN. -/
def Sys2Proof.Rules.ValueOrder : Prop :=
  (∀ a b : FNum, finite a → finite b → (a.cmp b = .lt ↔ valueOf a < valueOf b) ∧ (a.cmp b = .eq ↔ valueOf a = valueOf b) ∧
    (a.cmp b = .gt ↔ valueOf b < valueOf a)) ∧
  (∀ (p : Bool) (a : FNum), finite a → (FNum.inf p).cmp a = (if p then .lt else .gt) ∧ a.cmp (.inf p) = (if p then .gt else .lt)) ∧
  (∀ p q : Bool, (FNum.inf p).cmp (.inf q) = if p = q then .eq else if p then .lt else .gt)

/-- R46: a sum of terms, in any number, is exact. -/
def Sys2Proof.Rules.ExactSums : Prop :=
  ∀ xs : List FNum,
    (.nan ∈ xs ∨ .inf false ∈ xs ∧ .inf true ∈ xs → FNum.sum xs = .nan) ∧
    (∀ p : Bool, .nan ∉ xs → .inf p ∈ xs → .inf (!p) ∉ xs → FNum.sum xs = .inf p) ∧
    ((∀ x ∈ xs, finite x) → finite (FNum.sum xs) ∧ valueOf (FNum.sum xs) = (xs.map valueOf).sum ∧
      ((xs.map valueOf).sum = 0 → FNum.sum xs = .zero (decide (xs ≠ [] ∧ ∀ x ∈ xs, x = .zero true))))

/-- R25, R28, R38, R40, R41, R46, R248 and R252: the values of the number formats, writing them back, rounding in the four modes, overflow, NaNs and infinities, the order of values, and exact sums and products. -/
def Obligations.RoundingAndFormats : Prop := Rules.Rounding ∧ Rules.Overflow ∧ Rules.FormatValues ∧ Rules.EncodingsRoundTrip ∧ Rules.CanonicalNan ∧ Rules.ExactSumsAndProducts ∧ Rules.SpecialOperands ∧ Rules.ValueOrder ∧ Rules.ExactSums

/-- R100: SRD and SWR on each special register; reserved numbers, read-only registers and illegal values trap. BATCHN is
written only when no batch of the warp with an accepted command is incomplete. -/
def Sys2Proof.Rules.SpecialRegisters : Prop :=
  (∀ (s : State) (c : Cur) (sd : SReg) (n : BitVec 32), Ready s c 1 .none → Room c c →
    (∀ x, (n.toNat, x) ∈ specialRead s c → Computes s c (.srd sd n) 1 .none (c.setS sd x)) ∧
    (8 < n.toNat → Meets s c (.srd sd n) c.em (.word .illegalOperand 0))) ∧
  (∀ (s : State) (c : Cur) (sa : SReg) (n : BitVec 32), Ready s c 1 .none → Room c c →
    let x := c.sr sa
    (n = 0 → Computes s c (.swr n sa) 1 .none (c.mapCore (fun k => { k with em := x &&& k.l }))) ∧
    (n = 1 → Computes s c (.swr n sa) 1 .none (c.mapCore (fun k => { k with hm := x &&& k.l }))) ∧
    (n = 2 → x.toNat < 1024 → Computes s c (.swr n sa) 1 .none (c.mapCore (fun k => { k with acr := x.setWidth 10 }))) ∧
    (n = 5 → 32 ≤ x.toNat → x.toNat ≤ 4096 →
      Computes s c (.swr n sa) 1 .none (c.mapCore (fun k => { k with chlim := x.toNat }))) ∧
    (n = 7 → s.batchPending c.ref.w = false →
      Computes s c (.swr n sa) 1 .none (c.mapCore (fun k => { k with batchn := x.setWidth 32 }))) ∧
    (n = 7 → s.batchPending c.ref.w = true →
      Meets s c (.swr n sa) c.em (.trap .batchBad 0 c.t.core.batchn.toNat none)) ∧
    (n.toNat ∉ [0, 1, 2, 5, 7] ∨ (n = 2 ∧ 1024 ≤ x.toNat) ∨ (n = 5 ∧ ¬ (32 ≤ x.toNat ∧ x.toNat ≤ 4096)) →
      Meets s c (.swr n sa) c.em (.word .illegalOperand 0)))

/-- R95 to R97: CSRR and CSRW on each trap control register inside a handler, and PRIV outside one. -/
def Sys2Proof.Rules.TrapRegisters : Prop :=
  (∀ (s : State) (c : Cur) (sd : SReg) (n : BitVec 32), Ready s c 1 .none → Room c c →
    (c.t.core.trap.h = true →
      (∀ x, (n.toNat, x) ∈ trapRead c → Computes s c (.csrr sd n) 1 .none (c.setS sd x)) ∧
      (5 < n.toNat → Meets s c (.csrr sd n) c.em (.word .illegalOperand 0))) ∧
    (c.t.core.trap.h = false → Meets s c (.csrr sd n) c.em (.word .priv 0))) ∧
  (∀ (s : State) (c : Cur) (sa : SReg) (n : BitVec 32), Ready s c 1 .none → Room c c →
    let v := c.sr sa
    let wr := fun (f : TrapRegs → TrapRegs) =>
      Computes s c (.csrw n sa) 1 .none (c.mapCore (fun k => { k with trap := f k.trap }))
    (c.t.core.trap.h = true →
      (n = 0 → wr (fun x => { x with cause := v.extractLsb' 0 8 })) ∧
      (n = 1 → wr (fun x => { x with tpc := v })) ∧
      (n = 2 → wr (fun x => { x with addr := v })) ∧
      (n = 3 → wr (fun x => { x with lanes := v &&& fullMask c.width })) ∧
      (n = 4 → wr (fun x => { x with extra := v })) ∧
      (n = 5 → wr (fun x => { x with skip := v.getLsbD 1 })) ∧
      (5 < n.toNat → Meets s c (.csrw n sa) c.em (.word .illegalOperand 0))) ∧
    (c.t.core.trap.h = false → Meets s c (.csrw n sa) c.em (.word .priv 0)))

/-- R95 to R97 and R100: reads and writes of special registers, control registers and identity registers, and of the trap registers. -/
def Obligations.SpecialRegisters : Prop := Rules.SpecialRegisters ∧ Rules.TrapRegisters

/-- R101, R206, R207, R176 and the hints: IDRD, CHEND, CHCFG, WQRY, NOP and YIELD. -/
def Obligations.SystemInstructions : Prop :=
  (∀ (s : State) (c : Cur), Ready s c 1 .none → Room c c →
    Computes s c .nop 1 .none c ∧ Computes s c .yield 1 .none c ∧ Transfers s c .chend (c.behind 1) true c) ∧
  (∀ (s : State) (c : Cur) (sd : SReg) (n : BitVec 32), Ready s c 1 .none → Room c c →
    (∀ x, (n.toNat, x) ∈ identity c → Computes s c (.idrd sd n) 1 .none (c.setS sd (BitVec.ofNat 64 x))) ∧
    (9 < n.toNat → Meets s c (.idrd sd n) c.em (.word .illegalOperand 0))) ∧
  (∀ (s : State) (c : Cur) (sd : SReg) (x : Src), Ready s c 1 .none → Room c c →
    let old := BitVec.ofNat 64 c.t.core.chlim
    (c.src x = 0 → Computes s c (.chcfg sd x) 1 .none (c.setS sd old)) ∧
    (32 ≤ (c.src x).toNat → (c.src x).toNat ≤ 4096 →
      Computes s c (.chcfg sd x) 1 .none ((c.mapCore (fun k => { k with chlim := (c.src x).toNat })).setS sd old)) ∧
    (c.src x ≠ 0 → ¬ (32 ≤ (c.src x).toNat ∧ (c.src x).toNat ≤ 4096) →
      Meets s c (.chcfg sd x) c.em (.word .illegalOperand 0))) ∧
  (∀ (s : State) (c : Cur) (sd : SReg), Ready s c 1 .none → Room c c → c.warp.width < 256 → c.warp.splits.length < 4 →
    ∃ r : W64, r.extractLsb' 0 8 = BitVec.ofNat 8 c.warp.width ∧ r.extractLsb' 8 2 = BitVec.ofNat 2 c.warp.splits.length ∧
      r.getLsbD 10 = c.warp.isHigh ∧ r.getLsbD 11 = false ∧ r.extractLsb' 14 2 = 0 ∧ r.extractLsb' 12 2 = BitVec.ofNat 2 (sibState c.crew c.warp) ∧
      r.toNat / 2 ^ 16 = c.warp.lw % 2 ^ 48 ∧ Computes s c (.wqry sd) 1 .none (c.setS sd r))

/-- R91, R92, with the squash counted as log entry 24 reads R198: TRAP raises cause 0x20 + n with TEXTRA the scalar and SKIP
set; the strand goes on at its handler, and every other register and strand is as it was. -/
def Sys2Proof.Rules.SoftwareTrap : Prop :=
  ∀ (s : State) (c : Cur) (n : BitVec 5) (x : SReg), Ready s c 0 .none → CanTrap s c →
    ∃ t e, exec (.trap n x) s = .next t ∧ Entered s t c e (savedRegs c (0x20 + n.toNat) 0 (c.sr x) c.em true)

/-- R89 to R91, with the squash counted as log entry 24 reads R198: a trap condition of an instruction of a strand that has no
chunk enters the handler with the registers of Table 5.3. -/
def Sys2Proof.Rules.TrapEntry : Prop :=
  ∀ (s : State) (c : Cur) (n : Nat) (i : Instr) (lanes : Mask) (cause : Cause) (ta te : Nat) (o : Option Mask),
    Ready s c n .none → CanTrap (if cause.ofPage then s.forget c.ctx ta else s) c → cause.isSoftware = false →
    Meets s c i lanes (.trap cause ta te o) →
    ∃ t e, exec i s = .next t ∧
      Entered s t c e (savedRegs c cause.code (BitVec.ofNat 64 ta) (BitVec.ofNat 64 te) (o.getD lanes) false)

/-- R70: a word that names no instruction traps ILLEGAL_INSTR with TEXTRA the word. -/
def Sys2Proof.Rules.ReservedWords : Prop :=
  ∀ (s : State) (c : Cur) (w : W64), s.cur? = some c → s.mayIssue c false = true → CanTrap s c → c.t.pends = [] →
    ∃ t e, exec (.reservedOpcodeWord w) s = .next t ∧ Entered s t c e (savedRegs c 0x01 0 w c.em false)

/-- R70 and R89 to R92: TRAP, a trap met by an instruction with no chunk open before it, and a word that is no instruction enter the handler with the trap registers written. Log entry 24: the squash that is counted. -/
def Obligations.TakingATrap : Prop := Rules.SoftwareTrap ∧ Rules.TrapEntry ∧ Rules.ReservedWords

/-- R202 and log entry 12: with an instruction in the open chunk, a trap condition squashes the chunk and counts the squash; the
strand is back at the chunk's start, and its re-execution stops before the instruction, which the replay finds by the chunk's
instruction count and the address (log 12). -/
def Sys2Proof.Rules.TrapReplay : Prop :=
  ∀ (s : State) (c : Cur) (n : Nat) (i : Instr) (lanes : Mask) (cause : Cause) (ta te : Nat) (o : Option Mask) (x : StrandCore),
    Ready s c n .none → c.t.chunk.st = .opened → 0 < c.t.chunk.count → c.t.chunk.snap = some x → c.t.chunk.childIdx = none →
    c.t.chunk.owner = none → Meets s c i lanes (.trap cause ta te o) →
    ∃ t e, exec i s = .next t ∧ t.curOf c.ref = some e ∧ e.t.core = { x with inClause := false } ∧
      e.t.sqcnt = c.t.sqcnt + 1 ∧
      e.t.chunk = { Chunk.none with pinned := c.t.chunk.pinned, errSeen := c.t.chunk.errSeen, lostTo := c.t.chunk.lostTo,
                                    limit := some (c.t.chunk.count, c.t.core.pc) } ∧
      e.t.earlier = c.t.earlier.map (fun ch => { ch with again := false }) ∧
      t.mem = s.mem ∧ e.crew.mem = c.crew.mem

/-- R93: a trap in a handler makes the context FAULTED. -/
def Sys2Proof.Rules.NestedTrap : Prop :=
  ∀ (s : State) (c : Cur) (n : Nat) (i : Instr) (lanes : Mask) (cause : Cause) (ta te : Nat) (o : Option Mask),
    Ready s c n .none → Alone c → c.t.core.trap.h = true → (s.ctx? c.ctx).isSome = true →
    Meets s c i lanes (.trap cause ta te o) →
    ∃ t, exec i s = .next t ∧ (t.ctx c.ctx).st = .faulted

/-- R93 and R202: a trap inside a chunk squashes and replays it up to the instruction; a trap in a handler is fatal to the context. Log entry 12: how the replay finds its end. -/
def Obligations.TrapReplay : Prop := Rules.TrapReplay ∧ Rules.NestedTrap

/-- R97 and R98: RFT clears H and SKIP and resumes at TPC, behind it after a software trap, or at another clause header that
the handler wrote; elsewhere it traps, and outside a handler it is PRIV. -/
def Obligations.ReturnFromTrap : Prop :=
  ∀ (s : State) (c : Cur), Ready s c 0 .none → Room c c →
    let x := c.t.core.trap
    (x.h = true →
      (x.tpc = x.recorded → x.skip = false →
        Transfers s c .rft { pc := x.tpc, hdr := x.recHdr, inClause := false } true (afterRft c)) ∧
      (∀ hw, x.tpc = x.recorded → x.skip = true → s.fetchWord c.ctx x.recHdr = .ok hw →
        let a := nextOf x hw
        Transfers s c .rft { pc := a, hdr := if a = clauseEnd x.recHdr hw then a else x.recHdr, inClause := false } true
          (afterRft c)) ∧
      (x.tpc ≠ x.recorded → x.skip = false → s.headerAt c.ctx x.tpc = true →
        Transfers s c .rft (.header x.tpc) true (afterRft c)) ∧
      (x.tpc ≠ x.recorded → x.skip = true ∨ s.headerAt c.ctx x.tpc = false →
        Meets s c .rft c.em (.word .illegalInstr 0))) ∧
    (x.h = false → Meets s c .rft c.em (.word .priv 0))

/-- R55, R145 and R160: the branches. -/
def Sys2Proof.Rules.Branches : Prop :=
  BranchRule .bra (fun _ => True) ∧
  (∀ x : SReg, BranchRule (.braNz x) (fun c => c.sr x ≠ 0)) ∧
  (∀ x : SReg, BranchRule (.braZ x) (fun c => c.sr x = 0)) ∧
  (∀ p : PReg, BranchRule (.brz p) (fun c => c.em &&& c.pr p &&& c.l = 0)) ∧
  (∀ p : PReg, BranchRule (.brnz p) (fun c => c.em &&& c.pr p &&& c.l ≠ 0))

/-- R146 and R147: a DBR whose lanes agree goes one way with p set in L; otherwise the taken lanes are kept, and the event
splits them off: the new strand stands at T with the taken lanes, the old one at the next clause with the rest, and a frame
for J names both; without a free entry, or with a call record or an append cursor held, the strand goes on whole with p clear. -/
def Sys2Proof.Rules.DivergentBranch : Prop :=
  (∀ (s : State) (c : Cur) (p : PReg) (t : BitVec 32) (j : BitVec 16), Ready s c 0 .none → Room c c →
    let tk := c.em &&& c.pr p &&& c.l
    let nt := c.em &&& ~~~(c.pr p) &&& c.l
    (tk = 0 → Transfers s c (.dbr p t j) (.header c.base) false (c.setP p c.l c.l)) ∧
    (tk ≠ 0 → nt = 0 → HeaderAt s c (targetOf c t) →
      Transfers s c (.dbr p t j) (.header (targetOf c t)) false (c.setP p c.l c.l)) ∧
    (tk ≠ 0 → nt ≠ 0 → WaitsWith s c (.dbr p t j) false (.split p tk (targetOf c t) (targetOf c j)) c)) ∧
  (∀ (s : State) (c : Cur) (p : PReg) (tk : Mask) (ta ja : W64), s.curOf c.ref = some c → c.log = [] →
    c.t.wait = .split p tk ta ja → c.t.pends = [] → c.t.chunk.st = .opened → c.t.poisoned = false → c.t.residue = none →
    c.t.failed = none → c.t.core.isLast = true → c.t.core.beginsPair = false → Room c c → c.ref.strand < c.warp.strands.length →
    (∀ n, c.warp.freeEntry = some n → c.holdsAppend = false → c.holdsCall = false → HeaderAt s c ta →
      s.headerAt c.ctx ja = true →
      ∃ t e x, exec (.dbrSplit c.ref) s = .next t ∧ t.curOf c.ref = some e ∧ e.warp.strand? n = some x ∧
        e.place = .header c.base ∧ e.l = c.l &&& ~~~tk ∧ e.em = c.em &&& ~~~tk ∧ e.t.chunk.st = .ended ∧
        x.core.pc = ta ∧ x.core.hdr = ta ∧ x.core.inClause = false ∧ x.core.l = tk ∧ x.core.em = tk ∧
        x.core.s = c.t.core.s ∧ x.core.k = c.t.core.k ∧ x.core.trap = c.t.core.trap ∧ x.chunk = Chunk.none ∧ x.pends = [] ∧
        e.warp.frames.getLast? = some { addr := ja, members := [c.ref.strand, n] } ∧ t.mem = s.mem) ∧
    (c.warp.freeEntry = none ∨ c.holdsAppend = true ∨ c.holdsCall = true →
      ∃ t e, exec (.dbrSplit c.ref) s = .next t ∧ Elsewhere s t c e ∧ e.place = .header c.base ∧
        e.regs = (c.setP p c.l 0).regs ∧ e.t.wait = .none ∧ e.t.chunk.st = .opened))

/-- R55, R145 to R147 and R160: uniform branches, and DBR, which splits the strand where its lanes differ. -/
def Obligations.Branches : Prop := Rules.Branches ∧ Rules.DivergentBranch

/-- R150, R151 and R161: JOIN passes where no frame of the strand names its address, arrives at its innermost frame and traps
at an outer one; EXIT and EXIT.S take lanes off the strand, which ends once it has none. -/
def Sys2Proof.Rules.JoinAndExit : Prop :=
  (∀ (s : State) (c : Cur), Ready s c 0 .none → Room c c →
    let a := c.t.core.hdr
    ((∀ f ∈ myFrames c, f.addr ≠ a) → Transfers s c .join (.header c.base) false c) ∧
    (∀ f, (myFrames c).getLast? = some f → f.addr = a → WaitsWith s c .join false (.arriving false) c) ∧
    (∀ f, (myFrames c).getLast? = some f → f.addr ≠ a → (∃ g ∈ myFrames c, g.addr = a) →
      Meets s c .join c.em (.word .illegalOperand 0))) ∧
  (∀ (s : State) (c : Cur), Ready s c 0 .none → Room c c →
    (c.l &&& ~~~c.em ≠ 0 → Transfers s c .exit (.header c.base) true (without c c.em)) ∧
    (c.l &&& ~~~c.em = 0 → WaitsWith s c .exit true .exiting (without c c.em)) ∧
    WaitsWith s c .exitS true .exiting (without c c.l))

/-- R150 and R154: a strand that has exited, of several, becomes FREE and leaves its frames, which go when one member is left;
that member, if it has arrived there, goes on behind its JOIN. -/
def Sys2Proof.Rules.StrandEnds : Prop :=
  (∀ (s : State) (c : Cur), Exiting s c → 1 < c.warp.live →
    (∀ k x n, k ≠ c.ref.strand → c.warp.strand? k = some x → x.wait ≠ .joining n) →
    ∃ t w, exec (.singletonEvent c.ref) s = .next t ∧ t = { s with crews := t.crews, pins := t.pins } ∧
      t.warp? c.ref.w = some w ∧ w.strand? c.ref.strand = none ∧ w.live + 1 = c.warp.live ∧
      w.frames = (c.warp.frames.map (fun f => { f with members := f.members.filter (· != c.ref.strand) })).filter
        (fun f => decide (2 ≤ f.members.length)) ∧
      (∀ k x, k ≠ c.ref.strand → c.warp.strand? k = some x → ∃ y, w.strand? k = some y ∧
        y = { x with core := { x.core with wtags := y.core.wtags } })) ∧
  (∀ (s : State) (c : Cur) (f : Frame) (k : Nat) (x : Strand), Exiting s c → c.warp.live = 2 → c.warp.frames = [f] →
    c.ref.strand ∈ f.members → f.members.filter (· != c.ref.strand) = [k] → c.warp.strand? k = some x → x.wait = .joining 1 →
    ∃ t y, exec (.singletonEvent c.ref) s = .next t ∧ t.strand? { c.ref with strand := k } = some y ∧ y.wait = .none ∧
      y.core = { x.core with pc := clauseEnd x.core.hdr x.core.hword, hdr := clauseEnd x.core.hdr x.core.hword,
                             inClause := false, wtags := y.core.wtags })

/-- R124, R129, R174, R314 and R410: with its last strand a warp exits: its held items are consumed, its open commands closed
into a batch whose number is that strand's BATCHN, it leaves its barriers, which may flip, and a sibling parked at WFUSE that
it leaves alone receives SIBLING_EXITED. -/
def Sys2Proof.Rules.WarpExits : Prop :=
  ∀ (s : State) (c : Cur), Exiting s c → c.warp.live = 1 → Quiet s c → SoundBars c →
    ∃ t k w, exec (.singletonEvent c.ref) s = .next t ∧ t.mem = s.mem ∧ t.ctxs = s.ctxs ∧ t.crew? c.ref.w.crew = some k ∧
      k.warp? c.ref.w.warp = some w ∧ w.exited = true ∧ w.held = [] ∧ w.live = 0 ∧
      BarsBecome c k (leftBy c.ref.w.warp) ∧
      ((∃ x ∈ s.cmds, x.warp = some c.ref.w ∧ x.batch = none) → ClosedInto s t c w c.t.core.batchn) ∧
      ((∀ x ∈ s.cmds, x.warp = some c.ref.w → x.batch ≠ none) → w.batches = c.warp.batches ∧ t.cmds = s.cmds) ∧
      (∀ (d : Cur) (sx : SReg) (a : W64) (limit since : Nat), s.curOf d.ref = some d → d.ref.w.crew = c.ref.w.crew →
        d.ref.w.warp ≠ c.ref.w.warp → d.ref.strand < 4 → d.t.wait = .wfuse sx a limit since → d.warp.splits ≠ [] →
        (∀ x ∈ d.crew.warps, x.id % 2 ^ (4 + d.warp.splits.length) = siblingOf d % 2 ^ (4 + d.warp.splits.length) →
          x.exited = true ∨ x.id = c.ref.w.warp) →
        ∃ e, t.curOf d.ref = some e ∧ e.t.wait = .none ∧ e.regs = (d.setS sx 7).regs ∧ e.place = d.behind 1)

/-- R124, R129, R150, R151, R154, R161, R314 and R410: JOIN, EXIT and EXIT.S, and the end of a strand and of a warp. -/
def Obligations.JoinAndExit : Prop := Rules.JoinAndExit ∧ Rules.StrandEnds ∧ Rules.WarpExits

/-- R179 to R181 and R183, with log entries 29 and 58: CALL slides the window by its frame size, stores the registers that leave
in their slots and a call record at the record's address, and no other byte, keeps that record with its return address in the
strand (log 29), and goes to its target; the registers that enter the window are RAW and hold zero or what a register of the warp
holds (a free choice, log 29). A frame above R traps ILLEGAL_OPERAND, one that would reach the record ADDR, and what the spill of
a register meets at its slot stops the instruction there, all before any effect (log 58). -/
def Sys2Proof.Rules.CallRule : Prop :=
  ∀ (s : State) (c : Cur) (f8 : BitVec 5) (i : Instr) (a : W64),
    ((∃ t, i = .call t f8 ∧ a = targetOf c t) ∨
      (∃ x, i = .callI x f8 ∧ a = c.sr x ∧ a.toNat % 8 = 0 ∧ field a.toNat 63 57 = 0)) →
    Ready s c 0 .none → Fits c → c.warp.vregs.length = c.r → 0 < c.r → c.r ≤ 256 →
    let f := 8 * f8.toNat
    let b := c.t.core.winb
    let rec_ := recordOf c (nextRecord c)
    (c.r < f → Meets s c i c.em (.word .illegalOperand 0)) ∧
    (f ≤ c.r → NoHeaderAt s c a → Meets s c i c.em (.word .illegalInstr a.toNat)) ∧
    (f ≤ c.r → HeaderAt s c a → c.warp.lay.base ≤ b → c.warp.lay.stop < 2 ^ 57 → c.warp.lay.start % 4 = 0 →
      c.warp.lay.stop % 8 = 0 → 16 * ((if 1 < c.warp.live then 4 * nextRecord c + c.ref.strand else nextRecord c) + 1) ≤ c.warp.lay.stop →
      (rec_ < slotOf c (b + f) → Meets s c i c.em (.trap .addr rec_ 0 none)) ∧
      (∀ (j : Nat) (st : Stop), j < f → slotOf c (b + f) ≤ rec_ →
        ReachesAll s c XReq.spill false (slotOf c b) (slotOf c (b + j)) →
        s.gAccess c XReq.spill false (slotOf c (b + j)) 4 4 = .error st → Meets s c i c.em st) ∧
      (slotOf c (b + f) ≤ rec_ → ReachesAll s c XReq.spill false (slotOf c b) (slotOf c (b + f)) →
        Reaches s c XReq.spill false rec_ 8 → Reaches s c XReq.spill false (rec_ + 8) 8 →
        ∃ t e cells, exec i s = .next t ∧ Elsewhere s t c e ∧ Issued c e 0 .none ∧ e.t.chunk.st = .opened ∧
          e.place = .header a ∧ e.t.core.winb = b + f ∧ e.t.core.calls = c.t.core.calls ++ [{ ret := c.base, f := f }] ∧
          Regs.sameButWindow e.regs c.regs ∧
          (∀ x y : Fin 256, y.val = x.val + f → y.val < c.r → e.vnow (.v x) = c.vnow (.v y)) ∧
          (∀ x : Fin 256, c.r - f ≤ x.val → x.val < c.r → (e.vnow (.v x)).tag = .raw ∧
            ∀ l, l < c.width → hasLane (slid c) l = true →
              (e.vnow (.v x)).lane l = 0 ∨ ∃ v ∈ c.warp.vregs ++ c.warp.gregs, (e.vnow (.v x)).lane l ∈ v.lanes) ∧
          SpillImage c f cells ∧ (∀ x ∈ landed s c XReq.spill cells, e.gByte t x.1 = x.2) ∧
          SeesBut s t c e (fun pa => pa ∈ cells.map (fun x => physical s c XReq.spill x.1)) (fun _ => False)))

/-- R55: an indirect target that is misaligned traps MISALIGN, and one with a bit of [63:57] set ADDR. -/
def Sys2Proof.Rules.IndirectTargets : Prop :=
  ∀ (s : State) (c : Cur) (f8 : BitVec 5) (x : SReg), Ready s c 0 .none → 8 * f8.toNat ≤ c.r →
    ((c.sr x).toNat % 8 ≠ 0 → Meets s c (.callI x f8) c.em (.trap .misalign (c.sr x).toNat 8 none)) ∧
    ((c.sr x).toNat % 8 = 0 → 2 ^ 57 ≤ (c.sr x).toNat → Meets s c (.callI x f8) c.em (.trap .addr (c.sr x).toNat 0 none))

/-- R182, with log entries 29 and 58: RET slides the window back, takes tag and lanes of the registers that enter from their
slots, a reserved tag giving POISON, and goes to the return address of the strand's last record (log 29). With no record it
traps; a slot with a reserved delta code or stray bits traps SPILL_FORMAT, and what the refill of a slot meets there (poison, a
fault) stops the instruction, before any effect (log 58). -/
def Sys2Proof.Rules.ReturnRule : Prop :=
  ∀ (s : State) (c : Cur), Ready s c 0 .none → Fits c → c.warp.vregs.length = c.r → 0 < c.r → c.r ≤ 256 →
    (c.holdsCall = false → Meets s c .ret c.em (.word .illegalOperand 0)) ∧
    (∀ k, c.holdsCall = true → c.t.core.calls.getLast? = some k → k.f ≤ c.r → c.warp.lay.base + k.f ≤ c.t.core.winb →
      slotOf c c.t.core.winb < 2 ^ 57 → c.warp.lay.start % 4 = 0 →
      let slot := fun j => slotOf c (c.t.core.winb - k.f + j)
      let word := fun j => numberAtVa s c (slot j) 4
      (∀ (j : Nat) (st : Stop), j < k.f → ReachesAll s c XReq.refill true (slot 0) (slot j) → (∀ i, i < j → formatOk (word i)) →
        s.gAccess c XReq.refill true (slot j) 4 4 = .error st → Meets s c .ret c.em st) ∧
      (∀ j, j < k.f → ReachesAll s c XReq.refill true (slot 0) (slot (j + 1)) → (∀ i, i < j → formatOk (word i)) →
        ¬ formatOk (word j) → Meets s c .ret c.em (.trap .spillFormat (slot j) (word j % 256) none)) ∧
      (ReachesAll s c XReq.refill true (slot 0) (slot k.f) → (∀ i, i < k.f → formatOk (word i)) →
        ∃ t e, exec .ret s = .next t ∧ Elsewhere s t c e ∧ Issued c e 0 .none ∧ e.t.chunk.st = .opened ∧ StoresNothing c e ∧
          e.place = .header k.ret ∧ e.t.core.winb = c.t.core.winb - k.f ∧ e.t.core.calls = c.t.core.calls.dropLast ∧
          Regs.sameButWindow e.regs c.regs ∧
          (∀ x y : Fin 256, x.val = y.val + k.f → x.val < c.r → e.vnow (.v x) = c.vnow (.v y)) ∧
          (∀ x : Fin 256, x.val < k.f →
            (e.vnow (.v x)).tag = (if 16 < word x.val % 32 then .poison else Tag.ofCode (word x.val % 32)) ∧
            ∀ l, l < c.width → hasLane (slid c) l = true → (e.vnow (.v x)).lane l =
              slotLane (word x.val / 32) (numberAtVa s c (slot x.val + 4) 4) (numberAtVa s c (slot x.val + 8) (4 * c.width)) l)))

/-- R55 and R179 to R182: CALL and RET move the register window, spill and refill, and keep the call records. Log entries 29 and 58: what the model chose or inferred. -/
def Obligations.CallsAndReturns : Prop := Rules.CallRule ∧ Rules.IndirectTargets ∧ Rules.ReturnRule

/-- R169, R170 and R174 at issue, flags pending or not: WSPLIT and WFUSE end the chunk and wait for its commit with the status
that the strand itself decides; a warp of 16 lanes traps WIDTH_BAD at WSPLIT. -/
def Obligations.WidthInstructions : Prop :=
  (∀ (s : State) (c : Cur) (sd : SReg) (p : PReg), Issuable s c 1 .none → Room c c →
    (c.width = 16 → Meets s c (.wsplit sd p) c.em (.trap .widthBad 0 8 none)) ∧
    (∀ st, c.width ≠ 16 → FirstCase [(1 < c.warp.live, 3), (CopyPending s c, 5), (c.t.pends ≠ [], 6)] 0 st →
      WaitsWith s c (.wsplit sd p) true (.wsplit sd p st) c)) ∧
  (∀ (s : State) (c : Cur) (sd : SReg) (st : Option Nat), Issuable s c 1 .none → Room c c →
    FirstCase [(c.warp.splits = [], some 1), (SiblingExited c, some 7), (1 < c.warp.live, some 3), (CopyPending s c, some 5),
      (c.t.pends ≠ [], some 6)] none st →
    WaitsWith s c (.wfuse sd) true (.wfuseEnd sd c.t.core.pc st) c)

/-- R263, R269, R33: LD and LDCW write every enabled lane, helper lanes included, with the value at its address, extended as
the width says; registers of a wide access follow one another. -/
def Obligations.LaneLoads : Prop :=
  (∀ (s : State) (c : Cur) (o : MemOps), o.wf = true → Ready s c 1 o.cf → Fits c → RunOk c o.d o.w.regs → VaddrOk c o.va →
    (∀ l, inLanes c (c.enabledH o.g) l → match laneAcc s c o XReq.load true l with
      | .ok lf => lf.pol = 0
      | .error _ => hasLane c.em l = false) →
    Loads s c (.ld o) o.cf (loadInto c o (ldValue s c o))) ∧
  (∀ (s : State) (c : Cur) (o : MemOps), o.wf = true → Ready s c 1 o.cf → Fits c → RunOk c o.d o.w.regs → VaddrOk c o.va →
    (∀ l, inLanes c (c.enabledH o.g) l → hasLane c.em l = true → (c.cAccess true (laneEa c o l) o.w.bytes).isOk = true) →
    Computes s c (.ldcw o) 1 o.cf (loadInto c o (ldcwValue c o)))

/-- R213, R271: ST and STCW store each enabled lane's bytes at its address, the highest of lanes that meet; no other byte that
the strand sees changes, and no register does. -/
def Obligations.LaneStores : Prop :=
  (∀ (s : State) (c : Cur) (o : MemOps), o.wf = true → Ready s c 1 o.cf → Fits c → RunOk c o.d o.w.regs → VaddrOk c o.va →
    DataOk c o →
    (∀ l, inLanes c (c.enabled o.g) l → ∃ lf, laneAcc s c o XReq.store false l = .ok lf ∧ lf.pol = 0) →
    Stores s c (.st o) o.cf c (stCells s c o) []) ∧
  (∀ (s : State) (c : Cur) (o : MemOps), o.wf = true → Ready s c 1 o.cf → Fits c → RunOk c o.d o.w.regs → VaddrOk c o.va →
    DataOk c o →
    (∀ l, inLanes c (c.enabled o.g) l → (c.cAccess false (laneEa c o l) o.w.bytes).isOk = true ∧
      c.barTouched (laneEa c o l) o.w.bytes = none) →
    Stores s c (.stcw o) o.cf c [] (stcwCells c o))

/-- R270, R272: SLD and SST, for s0 as the register too. -/
def Sys2Proof.Rules.ScalarMemory : Prop :=
  (∀ (s : State) (c : Cur) (o : SMemOps) (lf : Leaf), o.wf = true → Ready s c 1 o.cf → Fits c →
    let n := o.w.bytes
    s.gAccess c XReq.load true (eaOf c o.base none o.off n 0) n n = .ok lf → lf.pol = 0 →
    Loads s c (.sld o) o.cf (c.setS o.r
      (match o.w with
       | .i8 => (BitVec.ofNat 8 (c.gNat s lf.pa n)).signExtend 64
       | .i16 => (BitVec.ofNat 16 (c.gNat s lf.pa n)).signExtend 64
       | _ => BitVec.ofNat 64 (c.gNat s lf.pa n)))) ∧
  (∀ (s : State) (c : Cur) (o : SMemOps) (lf : Leaf), o.wf = true → Ready s c 1 o.cf → Fits c →
    let n := o.w.bytes
    s.gAccess c XReq.store false (eaOf c o.base none o.off n 0) n n = .ok lf → lf.pol = 0 →
    Stores s c (.sst o) o.cf c (cellsAt lf.pa (bytesOf n (c.sr o.r).toNat)) [])

/-- R274 to R277: PREF changes nothing but what the caches hold, whatever its lanes reach in WB pages; DISCARD leaves every byte outside its spans, and
its words are dead from then on. -/
def Sys2Proof.Rules.PrefetchAndDiscard : Prop :=
  (∀ (s : State) (c : Cur) (o : SpanOps), o.g.wf = true → Ready s c 1 .none → Fits c → VaddrOk c o.va →
    (∀ l lf, inLanes c (c.enabled o.g) l → s.translate c.ctx (spanEa c o l) XReq.load = .ok lf → lf.pol = 0) →
    Loads s c (.pref o) .none c) ∧
  (∀ (s : State) (c : Cur) (o : SpanOps), o.g.wf = true → Ready s c 1 .none → Fits c → VaddrOk c o.va →
    let n := o.n1.val + 1
    (∀ l, inLanes c (c.enabled o.g) l → spanEa c o l % 4 = 0 ∧ spanEa c o l < 2 ^ 57 ∧ spanEa c o l % 128 / 4 + n ≤ 32 ∧
      ∃ lf, s.translate c.ctx (spanEa c o l) XReq.store = .ok lf ∧ lf.pol = 0) →
    let inSpan := fun pa => ∃ l lf, inLanes c (c.enabled o.g) l ∧ s.translate c.ctx (spanEa c o l) XReq.store = .ok lf ∧
      lf.pa ≤ pa ∧ pa < lf.pa + 4 * n
    ∃ t e, exec (.discard o) s = .next t ∧ Elsewhere s t c e ∧ Issued c e 1 .none ∧ e.t.chunk.st = .opened ∧
      e.place = c.behind 1 ∧ e.regs = c.regs ∧ SeesBut s t c e inSpan (fun _ => False) ∧
      (∀ pa, inSpan pa → e.t.chunk.disc.contains (pa / 4) = true ∧ ∀ x ∈ e.t.chunk.gw, x.1 ≠ pa))

/-- R270, R272 and R275 to R277: scalar loads and stores, PREF and DISCARD. -/
def Obligations.ScalarMemory : Prop := Rules.ScalarMemory ∧ Rules.PrefetchAndDiscard

/-- R90, R264, R266: a global access whose address has a bit of [63:57] set traps ADDR, then a misaligned one MISALIGN; the
lowest lane that meets a condition decides, and TLANES names every lane that meets the same one. -/
def Sys2Proof.Rules.AccessTraps : Prop :=
  (∀ (s : State) (c : Cur) (q : XReq) (rd : Bool) (ea n esize : Nat), ea < 2 ^ 64 →
    (2 ^ 57 ≤ ea → s.gAccess c q rd ea n esize = .error (.trap .addr ea 0 none)) ∧
    (ea < 2 ^ 57 → ea % esize ≠ 0 → s.gAccess c q rd ea n esize = .error (.trap .misalign ea esize none))) ∧
  (∀ (s : State) (c : Cur) (o : MemOps) (l : Nat) (cause : Cause) (ta te : Nat) (x : Option Mask), o.wf = true →
    Ready s c 1 o.cf → RunOk c o.d o.w.regs → VaddrOk c o.va → c.width ≤ 64 → inLanes c (c.guarded o.g c.em) l →
    laneAcc s c o XReq.load true l = .error (.trap cause ta te x) →
    (∀ k, k < l → inLanes c (c.guarded o.g c.em) k → (laneAcc s c o XReq.load true k).isOk = true) →
    ∃ m, (∀ k, k < 64 → (hasLane m k = true ↔ inLanes c (c.guarded o.g c.em) k ∧
        ∃ a b y, laneAcc s c o XReq.load true k = .error (.trap cause a b y))) ∧
      Meets s c (.ld o) (c.enabled o.g) (.trap cause ta te (some m))) ∧
  (∀ (s : State) (c : Cur) (o : MemOps) (l : Nat) (pf : PageFault), o.wf = true → Ready s c 1 o.cf →
    RunOk c o.d o.w.regs → VaddrOk c o.va → DataOk c o → c.width ≤ 64 → inLanes c (c.enabled o.g) l →
    laneAcc s c o XReq.store false l = .error (.park pf) →
    (∀ k, k < l → inLanes c (c.enabled o.g) k → (laneAcc s c o XReq.store false k).isOk = true) →
    ∃ m, (∀ k, k < 64 → (hasLane m k = true ↔ inLanes c (c.enabled o.g) k ∧
        ∃ p, laneAcc s c o XReq.store false k = .error (.park p) ∧ p.reason = pf.reason ∧ p.access = pf.access)) ∧
      Meets s c (.st o) (c.enabled o.g) (.park { pf with lanes := m }))

/-- R192, R220 and R267: a load or a store one of whose accesses reaches a UC or SY page is a singleton: LD, SLD and ALD read
one state of memory, ST, SST and AST store their bytes in it, DISCARD makes its words dead in it, and PREF changes nothing. -/
def Sys2Proof.Rules.UncachedAccess : Prop :=
  (∀ (s : State) (c : Cur) (o : MemOps), o.wf = true → Ready s c 1 o.cf → RunOk c o.d o.w.regs → VaddrOk c o.va →
    (∀ l, inLanes c (c.enabledH o.g) l → hasLane c.em l = true → (laneAcc s c o XReq.load true l).isOk = true) →
    (∃ l lf, inLanes c (c.enabledH o.g) l ∧ laneAcc s c o XReq.load true l = .ok lf ∧ lf.pol ≠ 0) →
    AsSingleton s c (.ld o) (.ld o) (loadInto c o (fun l =>
      match laneAcc s c o XReq.load true l with
      | .ok lf => s.rdNat lf.pa o.w.bytes
      | .error _ => 0)) []) ∧
  (∀ (s : State) (c : Cur) (o : MemOps), o.wf = true → Ready s c 1 o.cf → RunOk c o.d o.w.regs → VaddrOk c o.va → DataOk c o →
    (∀ l, inLanes c (c.enabled o.g) l → (laneAcc s c o XReq.store false l).isOk = true) →
    (∃ l lf, inLanes c (c.enabled o.g) l ∧ laneAcc s c o XReq.store false l = .ok lf ∧ lf.pol ≠ 0) →
    AsSingleton s c (.st o) (.st o) c (stCells s c o)) ∧
  (∀ (s : State) (c : Cur) (o : SMemOps) (lf : Leaf), o.wf = true → Ready s c 1 o.cf → lf.pol ≠ 0 →
    let n := o.w.bytes
    (s.gAccess c XReq.load true (eaOf c o.base none o.off n 0) n n = .ok lf →
      AsSingleton s c (.sld o) (.sld o) (c.setS o.r
        (match o.w with
         | .i8 => (BitVec.ofNat 8 (s.rdNat lf.pa n)).signExtend 64
         | .i16 => (BitVec.ofNat 16 (s.rdNat lf.pa n)).signExtend 64
         | _ => BitVec.ofNat 64 (s.rdNat lf.pa n))) []) ∧
    (s.gAccess c XReq.store false (eaOf c o.base none o.off n 0) n n = .ok lf →
      AsSingleton s c (.sst o) (.sst o) c (cellsAt lf.pa (bytesOf n (c.sr o.r).toNat)))) ∧
  (∀ (s : State) (c : Cur) (o : TileMemOps), (Instr.ald o).wf = true → Ready s c 1 o.cf → TileOk c o.tile → TileDescOk c o →
    (∀ i j, i < tileRows c o → j < tileCols c o → (tileAcc s c o XReq.load true i j).isOk = true) →
    (∃ i j lf, i < tileRows c o ∧ j < tileCols c o ∧ tileAcc s c o XReq.load true i j = .ok lf ∧ lf.pol ≠ 0) →
    AsSingleton s c (.ald o) (.ald o) (c.setTile o.tile (tileRead s c o (fun pa => s.rdNat pa (tileBytes o)))) []) ∧
  (∀ (s : State) (c : Cur) (o : TileMemOps), (Instr.ast o).wf = true → Ready s c 1 o.cf → TileOk c o.tile → TileDescOk c o →
    Readable (c.tile o.tile) (fun g => g == if o.f = .i32 then Tag.i32 else .f32) →
    (∀ i j, i < tileRows c o → j < tileCols c o → (tileAcc s c o XReq.store false i j).isOk = true) →
    (∃ i j lf, i < tileRows c o ∧ j < tileCols c o ∧ tileAcc s c o XReq.store false i j = .ok lf ∧ lf.pol ≠ 0) →
    AsSingleton s c (.ast o) (.ast o) c (astCells s c o)) ∧
  (∀ (s : State) (c : Cur) (o : SpanOps), o.g.wf = true → Ready s c 1 .none → VaddrOk c o.va →
    let n := o.n1.val + 1
    let sound := fun l => spanEa c o l % 4 = 0 ∧ spanEa c o l < 2 ^ 57 ∧ spanEa c o l % 128 / 4 + n ≤ 32
    ((∃ l lf, inLanes c (c.enabled o.g) l ∧ sound l ∧ s.translate c.ctx (spanEa c o l) XReq.load = .ok lf ∧ lf.pol ≠ 0) →
      AsSingleton s c (.pref o) (.pref o) c []) ∧
    ((∀ l, inLanes c (c.enabled o.g) l → sound l ∧
        ∃ lf, s.translate c.ctx (spanEa c o l) XReq.store = .ok lf ∧ lf.pol ≠ 2) →
      (∃ l lf, inLanes c (c.enabled o.g) l ∧ s.translate c.ctx (spanEa c o l) XReq.store = .ok lf ∧ lf.pol = 1) →
      let inSpan := fun pa => ∃ l lf, inLanes c (c.enabled o.g) l ∧ s.translate c.ctx (spanEa c o l) XReq.store = .ok lf ∧
        lf.pa ≤ pa ∧ pa < lf.pa + 4 * n
      (c.t.chunk.st = .opened → Defers s c (.discard o) (.discard o)) ∧
      (Alone c → Quiet s c → ∃ t e, exec (.discard o) s = .next t ∧ Single s t c e c ∧ t.mem = s.mem ∧
        SameOutside s t inSpan ∧ ∀ pa, inSpan pa → t.dead.contains (pa / 4) = true)))

/-- R90, R192, R220, R264, R266 and R267: the traps of addresses and their lanes, and the accesses to UC and SY pages, which are singletons. -/
def Obligations.AccessTraps : Prop := Rules.AccessTraps ∧ Rules.UncachedAccess

/-- R192, R396 to R399: AMO writes the new value of Table 21.2 and sd takes the old one, in one step; with a chunk open, it
ends, and the event follows its commit. -/
def Sys2Proof.Rules.FarAtomics : Prop :=
  ∀ p ∈ amoTable, ∀ (s : State) (c : Cur) (o : AmoOps) (l : Leaf), (p.2.1 o).wf = true →
    let n := if o.w64 then 8 else 4
    let va := (c.sr o.sa).toNat
    let rule := p.2.2.2 (8 * n) (BitVec.ofNat _ (s.rdNat l.pa n)) (BitVec.ofNat _ (c.sr o.sb).toNat)
      (BitVec.ofNat _ (c.sr (sregAt (o.sb.val + 1))).toNat)
    Ready s c 1 .none → s.gAccess c XReq.atomic true va n n = .ok l →
    (Alone c → Quiet s c →
      ∃ t e, exec (p.2.1 o) s = .next t ∧ Single s t c e (c.setS o.sd (BitVec.ofNat 64 (s.rdNat l.pa n))) ∧
        t.rdNat l.pa n = rule.toNat ∧ SameOutside s t (fun pa => l.pa ≤ pa ∧ pa < l.pa + n)) ∧
    (c.t.chunk.st = .opened → Defers s c (p.2.1 o) (.amo p.1 o))

/-- R192: the event of an AMO that waited for its chunk's commit is that of one at issue. -/
def Sys2Proof.Rules.DeferredEvent : Prop :=
  ∀ p ∈ amoTable, ∀ (s : State) (c : Cur) (o : AmoOps) (l : Leaf), (p.2.1 o).wf = true →
    let n := if o.w64 then 8 else 4
    let rule := p.2.2.2 (8 * n) (BitVec.ofNat _ (s.rdNat l.pa n)) (BitVec.ofNat _ (c.sr o.sb).toNat)
      (BitVec.ofNat _ (c.sr (sregAt (o.sb.val + 1))).toNat)
    s.curOf c.ref = some c → c.t.wait = .sing (.amo p.1 o) → Alone c → c.t.pends = [] → (s.ctx c.ctx).st = .active →
    c.crew.run = .placed → s.gAccess c XReq.atomic true (c.sr o.sa).toNat n n = .ok l → Quiet s c →
    ∃ t e, exec (.singletonEvent c.ref) s = .next t ∧ Single s t c e (c.setS o.sd (BitVec.ofNat 64 (s.rdNat l.pa n))) ∧
      t.rdNat l.pa n = rule.toNat ∧ SameOutside s t (fun pa => l.pa ≤ pa ∧ pa < l.pa + n)

/-- R192 and R396 to R399: a far atomic reads and writes its word in one event, behind the chunk that it ends. -/
def Obligations.FarAtomics : Prop := Rules.FarAtomics ∧ Rules.DeferredEvent

/-- R400: AMOV makes its checks and performs the operation of its lowest lane; each further lane is an event of its own, the
lowest first, on the word as it then stands, and the last one writes the registers. With no event of another strand between
them, each lane meets its word as the lanes below it left it. -/
def Obligations.LaneAtomics : Prop :=
  (∀ p ∈ amoTable, ∀ (s : State) (c : Cur) (o : AmovOps), (p.2.2.1 o).wf = true → Ready s c 1 o.cf →
    RunOk c o.d (o.run (p.1 = .cas)) → VaddrOk c o.va → (∀ r ∈ amovRegs o (p.1 = .cas), amovTagOk o (c.vr r).tag) →
    (∀ l, inLanes c (c.enabled o.g) l → (amovAcc s c o l).isOk = true) →
    (c.t.chunk.st = .opened → Defers s c (p.2.2.1 o) (.amov p.1 o)) ∧
    (Alone c → Quiet s c →
      let plan := amovPlanned s c o p.1
      let ws := amovWords s c o
      let r := amovResult s c o p.1 p.2.2.2
      ∃ t e, exec (p.2.2.1 o) s = .next t ∧ LaneDone s t c e p.1 o p.2.2.2 [] plan ∧
        ((∀ x ∈ ws, ∀ i, i < amovBytes o → s.dead.contains ((x.2 + i) / 4) = false) → ∃ f, Performed (eventsOf c.ref (plan.length - 1) t) c f
            (amovInto c o (ws.map (fun x => (x.1, (oldOf ws r.1 x.1).toNat)))) ∧
          (∀ x ∈ ws, (eventsOf c.ref (plan.length - 1) t).rdNat x.2 (amovBytes o) = (r.2 x.2).toNat) ∧
          SameOutside s (eventsOf c.ref (plan.length - 1) t)
            (fun pa => ∃ x ∈ ws, x.2 ≤ pa ∧ pa < x.2 + amovBytes o)))) ∧
  (∀ p ∈ amoTable, ∀ (s : State) (c : Cur) (o : AmovOps) (x : AmovLane) (rest : List AmovLane) (olds : List (Nat × Nat)),
    (p.2.2.1 o).wf = true → s.curOf c.ref = some c → c.t.wait = .amov p.1 o (x :: rest) olds → Alone c → c.t.pends = [] →
    (s.ctx c.ctx).st = .active → c.crew.run = .placed → Quiet s c → RunOk c o.d (o.run (p.1 = .cas)) →
    x.pa % amovBytes o = 0 → x.x < 2 ^ (8 * amovBytes o) → x.y < 2 ^ (8 * amovBytes o) →
    ∃ t e, exec (.singletonEvent c.ref) s = .next t ∧ LaneDone s t c e p.1 o p.2.2.2 olds (x :: rest))

/-- R402 and R403: SVWAIT goes on with the word that satisfies its condition, or parks. -/
def Sys2Proof.Rules.SyncWait : Prop :=
  ∀ p ∈ [((.svwaitEq : AmoOps → Instr), false), (.svwaitGeu, true)], ∀ (s : State) (c : Cur) (o : AmoOps) (l : Leaf),
    let n := if o.w64 then 8 else 4
    let m := s.rdNat l.pa n
    let x := (c.sr o.sb).toNat % 2 ^ (8 * n)
    Ready s c 1 .none → Alone c → SvOk s c o l →
    ((if p.2 then x ≤ m else m = x) →
      ∃ t e, exec (p.1 o) s = .next t ∧ Single s t c e (c.setS o.sd (BitVec.ofNat 64 m)) ∧ t.mem = s.mem) ∧
    (¬ (if p.2 then x ≤ m else m = x) → Parks s c (p.1 o) (.sv p.2 o l.pa s.ns none))

/-- R218 and R421: XFENCE goes on where nothing of FROM is pending; otherwise it leaves a fence before the classes of TO, and
parks where its own class is one of them; WCWAIT goes on once
the counter has reached s(sb), or at once in a frozen window. -/
def Sys2Proof.Rules.FenceAndWindowWait : Prop :=
  (∀ (s : State) (c : Cur) (tc fc : BitVec 5), Ready s c 1 .none →
    (tc = 0 ∨ fc = 0 → Meets s c (.xfence tc fc) c.em (.word .illegalOperand 0)) ∧
    (tc ≠ 0 → fc ≠ 0 → Alone c → s.pendingFor c.ref.w fc = [] →
      ∃ t e, exec (.xfence tc fc) s = .next t ∧ Single s t c e c ∧ t.mem = s.mem) ∧
    (fc ≠ 0 → Alone c → s.pendingFor c.ref.w fc ≠ [] → tc.getLsbD 0 = true →
      Parks s c (.xfence tc fc) (.xf s.nextFence)) ∧
    (tc ≠ 0 → fc ≠ 0 → Alone c → s.pendingFor c.ref.w fc ≠ [] → tc.getLsbD 0 = false →
      ∃ t e, exec (.xfence tc fc) s = .next t ∧ Performed t c e c ∧ t.mem = s.mem ∧ t.cmds = s.cmds ∧
        t.fences = s.fences ++
          [{ id := s.nextFence, ctx := c.ctx, warp := c.ref.w, tc := tc, fc := fc, before := s.pendingFor c.ref.w fc }])) ∧
  (∀ p ∈ [((.wcwaitS : WcOps → Instr), false), (.wcwaitD, true)], ∀ (s : State) (c : Cur) (o : WcOps) (w : Window),
    Ready s c 1 .none → Alone c → s.window? c.ctx o.win.toNat = some w →
    let v := if p.2 then w.dcnt else w.scnt
    let frozen := decide (w.st = .frozen)
    (frozen = true ∨ (c.sr o.sb).toNat ≤ v.toNat →
      ∃ t e, exec (p.1 o) s = .next t ∧ Single s t c e ((c.setS o.sd v).setP o.p c.l (if frozen then c.l else 0)) ∧
        t.mem = s.mem) ∧
    (frozen = false → v.toNat < (c.sr o.sb).toNat → Parks s c (p.1 o) (.wc p.2 o s.ns none)))

/-- R218, R402, R403 and R421: SVWAIT, XFENCE and WCWAIT complete at once or park. -/
def Obligations.Waits : Prop := Rules.SyncWait ∧ Rules.FenceAndWindowWait

/-- R129, R135, R136 and R471: ENQ appends its item to an OPEN queue with room, counts FULLS where there is none, and gives the
status of the queue otherwise; DEQ and DEQT take the item at HEAD, which the warp then holds, and the last item of a CLOSING
queue closes it; a DEQ that finds no item parks. A fault or poison on the ring sends the queue to ERROR, or parks the strand. -/
def Obligations.QueueInstructions : Prop :=
  (∀ (s : State) (c : Cur) (o : QueueOps) (x : Queue), Ready s c 1 .none → Alone c → Quiet s c → QueueAt s c o x →
    (o.q.toNat = 0 ∨ 3 ≤ o.q.toNat) →
    let q := o.q.toNat
    let n := 16 * 2 ^ x.isz
    (x.st = .opened → s.isFull c.ctx q x = false →
      (∀ l, SlotOk s c x x.tail (XReq.ringWrite .write) l →
        ∃ t e, exec (.enq o) s = .next t ∧ Performed t c e (answered c o.sd o.p 0 false) ∧
          t.queue? c.ctx q = some { x with tail := x.tail + 1 } ∧ t.rdBytes l.pa n = itemBytesOf c o.sa n ∧
          SameOutside s t (fun pa => l.pa ≤ pa ∧ pa < l.pa + n)) ∧
      (∀ r, s.translate c.ctx (x.slotVa x.tail) (XReq.ringWrite .write) = .error (.fault r false) →
        Meets s c (.enq o) c.em (.park { va := x.slotVa x.tail, reason := r, access := .write, lanes := 0 })) ∧
      (∀ err, (err = 1 ∧ SlotFatal s c x x.tail (XReq.ringWrite .write)) ∨
          (err = 2 ∧ SlotPoison s c x x.tail (XReq.ringWrite .write)) →
        ∃ t e y, exec (.enq o) s = .next t ∧ Performed t c e (answered c o.sd o.p 4 true) ∧ t.queue? c.ctx q = some y ∧
          y.st = .error ∧ y.err = err ∧ y.tail = x.tail ∧ y.head = x.head)) ∧
    (x.st = .opened → s.isFull c.ctx q x = true →
      ∃ t e y, exec (.enq o) s = .next t ∧ Performed t c e (answered c o.sd o.p 1 true) ∧ t.queue? c.ctx q = some y ∧
        y.fulls = (x.fulls + 1) % 2 ^ 32 ∧ y.tail = x.tail ∧ y.head = x.head ∧
        (RecordReady s c q x 40 4 → y.st = .opened ∧ SameOutside s t (InRecord s c x 40 4) ∧
          ∀ l, s.translate c.ctx (x.recAddr + 40) XReq.devWrite = .ok l → t.rdNat l.pa 4 = y.fulls)) ∧
    (∀ st, (x.st, st) ∈ [(QSt.closing, 2), (.closed, 2), (.configured, 3), (.error, 4)] →
      ∃ t e, exec (.enq o) s = .next t ∧ Single s t c e (answered c o.sd o.p st true) ∧ t.mem = s.mem)) ∧
  (∀ p ∈ [((.deq : QueueOps → Instr), false), (.deqt, true)], ∀ (s : State) (c : Cur) (o : QueueOps) (x : Queue),
    Ready s c 1 .none → Alone c → Quiet s c → QueueAt s c o x → 3 ≤ o.q.toNat → s.waiterDue c.ctx o.q.toNat = false →
    let q := o.q.toNat
    let n := 16 * 2 ^ x.isz
    ((x.st = .opened ∨ x.st = .closing) → x.head < x.tail →
      (∀ l, SlotOk s c x x.head XReq.ringRead l →
        ∃ t e y, exec (p.1 o) s = .next t ∧ Performed t c e (answered (withItem c o.sa (s.rdBytes l.pa n)) o.sd o.p 0 true) ∧
          e.warp.held = c.warp.held.filter (fun h => h.q != q) ++ [⟨q, x.head⟩] ∧ t.queue? c.ctx q = some y ∧
          (x.st = .opened ∨ x.head + 1 ≠ x.tail → y = { x with head := x.head + 1 } ∧ t.mem = s.mem) ∧
          (x.st = .closing → x.head + 1 = x.tail →
            y.st = .closed ∧ y.head = x.tail ∧ y.tail = x.tail ∧ SameOutside s t (InRecord s c x 11 21))) ∧
      (∀ r, s.translate c.ctx (x.slotVa x.head) XReq.ringRead = .error (.fault r false) →
        Meets s c (p.1 o) c.em (.park { va := x.slotVa x.head, reason := r, access := .read, lanes := 0 })) ∧
      (∀ err, (err = 1 ∧ SlotFatal s c x x.head XReq.ringRead) ∨ (err = 2 ∧ SlotPoison s c x x.head XReq.ringRead) →
        ∃ t e y, exec (p.1 o) s = .next t ∧ Performed t c e (answered c o.sd o.p 4 false) ∧
          e.warp.held = c.warp.held.filter (fun h => h.q != q) ∧ t.queue? c.ctx q = some y ∧ y.st = .error ∧ y.err = err ∧
          y.tail = x.tail ∧ y.head = x.head)) ∧
    (∀ st, (x.st, st) ∈ [(QSt.closed, 2), (.error, 4)] →
      ∃ t e, exec (p.1 o) s = .next t ∧ Single s t c e (answered c o.sd o.p st false) ∧ t.mem = s.mem ∧
        e.warp.held = c.warp.held.filter (fun h => h.q != q)) ∧
    (∀ st, (x.st = .opened ∧ x.tail ≤ x.head ∧ st = 1) ∨ (x.st = .configured ∧ st = 3) →
      (p.2 = true → ∃ t e, exec (p.1 o) s = .next t ∧ Single s t c e (answered c o.sd o.p st false) ∧ t.mem = s.mem ∧
        e.warp.held = c.warp.held.filter (fun h => h.q != q)) ∧
      (p.2 = false → Parks s c (p.1 o) (.deq o s.cycle.toNat) ∧
        ∀ t, exec (p.1 o) s = .next t → ∃ y, t.queue? c.ctx q = some y ∧ c.ref ∈ y.waiters ∧
          y = { x with waiters := y.waiters }))) ∧
  (∀ p ∈ [((.enq : QueueOps → Instr), true), (.deq, false), (.deqt, false)], ∀ (s : State) (c : Cur) (o : QueueOps),
    Ready s c 1 .none →
    ((s.queue? c.ctx o.q.toNat = none ∨ ∃ x, s.queue? c.ctx o.q.toNat = some x ∧ x.st = .free) →
      Meets s c (p.1 o) c.em (.trap .queueBad 0 o.q.toNat none)) ∧
    (∀ x, s.queue? c.ctx o.q.toNat = some x → x.st ≠ .free →
      (64 < o.sa.val + 16 * 2 ^ x.isz / 8 → Meets s c (p.1 o) c.em (.word .illegalReg 0)) ∧
      (o.sa.val + 16 * 2 ^ x.isz / 8 ≤ 64 → (o.q.toNat = 1 ∨ o.q.toNat = 2 ∨ (p.2 = false ∧ o.q.toNat = 0)) →
        Meets s c (p.1 o) c.em (.trap .queueBad 0 o.q.toNat none))))

/-- R404 to R409: BINIT makes an entry with the chosen warps and its word, or removes one; BARV and BARW arrive, and the entry's
word in crew memory shows it; the last arrival flips the phase and wakes every warp parked there; BWT goes on once the phase
has passed; and what BARRIER_BAD refuses. -/
def Obligations.Barriers : Prop :=
  (∀ (s : State) (c : Cur) (sa sb : SReg), Ready s c 1 .none → Fits c → BarOk c sa → c.barHasWaiters s (c.sr sa).toNat = false →
    let off := (c.sr sa).toNat
    let mask := (c.sr sb).toNat
    (0 < mask → mask < 2 ^ 16 → (c.bar? off).isSome = true ∨ c.bars.length < 8 →
      ∃ t e, exec (.binit sa sb) s = .next t ∧ Elsewhere s t c e ∧ Issued c e 1 .none ∧ e.place = c.behind 1 ∧
        e.regs = c.regs ∧ e.bar? off = some { off := off, parts := chosenBy c mask, arrived := [], phase := false } ∧
        e.cNat off 8 = (chosenBy c mask).length % 2 ^ 64 ∧
        SeesBut s t c e (fun _ => False) (fun a => off ≤ a ∧ a < off + 8)) ∧
    (mask = 0 → (c.bar? off).isSome = true →
      ∃ t e, exec (.binit sa sb) s = .next t ∧ Elsewhere s t c e ∧ Issued c e 1 .none ∧ e.place = c.behind 1 ∧
        e.regs = c.regs ∧ e.bar? off = none ∧ SeesBut s t c e (fun _ => False) (fun _ => False))) ∧
  (∀ (s : State) (c : Cur) (sa sb : SReg), Ready s c 1 .none →
    let off := (c.sr sa).toNat
    let mask := (c.sr sb).toNat
    (2 ^ 16 ≤ mask → Meets s c (.binit sa sb) c.em (.word .illegalOperand 0)) ∧
    (mask < 2 ^ 16 → c.crew.launch.crewmem < off + 8 → Meets s c (.binit sa sb) c.em (.trap .addr off 0 none)) ∧
    (mask < 2 ^ 16 → off + 8 ≤ c.crew.launch.crewmem → off % 8 ≠ 0 →
      Meets s c (.binit sa sb) c.em (.trap .misalign off 8 none)) ∧
    (mask < 2 ^ 16 → off + 8 ≤ c.crew.launch.crewmem → off % 8 = 0 →
      (1 < c.warp.live ∨ c.barHasWaiters s off = true ∨ (c.bar? off = none ∧ (mask = 0 ∨ 8 ≤ c.bars.length))) →
      Meets s c (.binit sa sb) c.em (.trap .barrierBad off 0 none))) ∧
  (∀ (s : State) (c : Cur) (sd sa : SReg) (b : Barrier), Ready s c 1 .none → Alone c → Quiet s c → BarOk c sa →
    c.t.chunk.bars = [] → c.crew.bar? (c.sr sa).toNat = some b → c.ref.w.warp ∈ b.parts → c.ref.w.warp ∉ b.arrived →
    let d := c.setS sd (BitVec.ofNat 64 (bit b.phase))
    let here := { b with arrived := b.arrived ++ [c.ref.w.warp] }
    (b.arrived.length + 1 ≠ b.parts.length →
      (∃ t e, exec (.barv sd sa) s = .next t ∧ Performed t c e d ∧ BarIs t c here) ∧
      (∃ t e, exec (.barw sd sa) s = .next t ∧ t.curOf c.ref = some e ∧ e.t.wait = .bar sd b.off b.phase true ∧
        e.place = c.place ∧ e.regs = d.regs ∧ BarIs t c here)) ∧
    (b.arrived.length + 1 = b.parts.length →
      ∀ i ∈ [Instr.barv sd sa, .barw sd sa], ∃ t e, exec i s = .next t ∧ Performed t c e d ∧
        BarIs t c { b with arrived := [], phase := !b.phase } ∧ WakesAll s t c b)) ∧
  (∀ (s : State) (c : Cur) (o : SabOps) (b : Barrier), Ready s c 1 .none → Alone c → BarOk c o.sa → c.t.chunk.bars = [] →
    c.crew.bar? (c.sr o.sa).toNat = some b → c.ref.w.warp ∈ b.parts →
    (b.phase ≠ (c.sr o.sb).getLsbD 0 →
      ∃ t e, exec (.bwt o) s = .next t ∧ Single s t c e (c.setS o.sd (BitVec.ofNat 64 (bit b.phase))) ∧ t.mem = s.mem) ∧
    (b.phase = (c.sr o.sb).getLsbD 0 → Parks s c (.bwt o) (.bar o.sd b.off b.phase false))) ∧
  (∀ (s : State) (c : Cur) (sa : SReg), Ready s c 1 .none → BarOk c sa →
    let off := (c.sr sa).toNat
    (∀ sd, (c.bar? off = none ∨ ∃ b, c.bar? off = some b ∧ (c.ref.w.warp ∉ b.parts ∨ c.ref.w.warp ∈ b.arrived)) →
      ∀ i ∈ [Instr.barv sd sa, .barw sd sa], Meets s c i c.em (.trap .barrierBad off 0 none)) ∧
    (∀ sd sb, (c.bar? off = none ∨ ∃ b, c.bar? off = some b ∧ c.ref.w.warp ∉ b.parts) →
      Meets s c (.bwt { sd := sd, sa := sa, sb := sb }) c.em (.trap .barrierBad off 0 none)))

/-- R303 to R311, R317 to R322, R413 and R418: ENGQ gives FULL where the engine can take no command, the first code of Tables
16.1, 21.7 and 22.5 that its command fails, or accepts it; a copy's two records are read at that moment; BCLOSE ends the chunk and
counts BATCHN; BWAIT and BTEST report. -/
def Obligations.EngineInstructions : Prop :=
  (∀ (s : State) (c : Cur) (o : EngqOps), Ready s c 1 .none → Alone c →
    let bs := itemBytesOf c o.sa 64
    (EngineFull s c o.q.val → Rejects s c o 1) ∧
    (¬ EngineFull s c o.q.val →
      (o.q.val = 1 → Verdicts s c o (LinkCode s c bs) (linkKind bs)) ∧
      (o.q.val = 2 → Verdicts s c o (BulkCode bs) (bulkKind bs)) ∧
      (o.q.val = 0 →
        let a := fieldOf bs 8 8
        let b := fieldOf bs 16 8
        let bad := fieldOf bs 1 7 ≠ 0 ∨ fieldOf bs 24 40 ≠ 0 ∨ BadAddr a 128 ∨ BadAddr b 128
        (fieldOf bs 0 1 ≠ 1 → Rejects s c o 2) ∧
        (fieldOf bs 0 1 = 1 → bad → Rejects s c o 3) ∧
        (fieldOf bs 0 1 = 1 → ¬ bad →
          (∀ st, tsrAcc s c a = .error st → Meets s c (.engq o) c.em st) ∧
          (∀ l st, tsrAcc s c a = .ok l → tsrAcc s c b = .error st → Meets s c (.engq o) c.em st) ∧
          (∀ l m, tsrAcc s c a = .ok l → tsrAcc s c b = .ok m →
            let src := s.rdBytes l.pa 128
            let dst := s.rdBytes m.pa 128
            Verdicts s c o (CopyCode src dst c.crew.launch.crewmem) (.copy src dst)))))) ∧
  (∀ (s : State) (c : Cur) (sd : SReg), Ready s c 1 .none → Room c c →
    ∃ t e, exec (.bclose sd) s = .next t ∧ Elsewhere s t c e ∧ Issued c e 1 .none ∧ e.t.chunk.st = .ended ∧
      e.place = c.behind 1 ∧ e.t.chunk.closes = c.t.chunk.closes ++ [c.t.core.batchn] ∧
      e.regs = ((c.mapCore (fun k => { k with batchn := k.batchn + 1 })).setS sd (c.t.core.batchn.setWidth 64)).regs) ∧
  (∀ (s : State) (c : Cur) (o : SabOps), Ready s c 1 .none →
    let n := (c.sr o.sa).setWidth 32
    (Closed c o.sa → Room c c → Computes s c (.btest o) 1 .none (reported c o n (c.incomplete n))) ∧
    (Closed c o.sa → Alone c → c.incomplete n = false →
      ∃ t e, exec (.bwait o) s = .next t ∧ Single s t c e (reported c o n false) ∧ t.mem = s.mem ∧
        e.warp.report = if (c.reportFor n).isSome then none else c.warp.report) ∧
    (Closed c o.sa → Alone c → c.incomplete n = true → Parks s c (.bwait o) (.bw o s.ns)) ∧
    (¬ Closed c o.sa → Meets s c (.btest o) c.em (.trap .batchBad 0 n.toNat none)) ∧
    (¬ Closed c o.sa → Meets s c (.bwait o) c.em (.trap .batchBad 0 n.toNat none)))

/-- R333, R346 to R351: MMA replaces each computed element by one exact sum of the accumulator and the products of the
contributing depths, rounded once to F32; nothing else of the tile changes. (E2M1 elements under a scale of 2^127 are left
out: what they are against a zero is the model's choice, log 36.) -/
def Sys2Proof.Rules.MatrixFloat : Prop :=
  ∀ p ∈ mmaTable, ∀ (s : State) (c : Cur) (o : MmaOps), (p.1 o).wf = true → Ready s c 1 o.cf →
    MmaOk c o p.2.1 p.2.1 p.2.2.1 .f32 p.2.2.2 →
    (p.2.1 = .e2m1x8 → ∀ i j k, sclA c o i k ≠ 254 ∧ sclB c o j k ≠ 254) →
    Computes s c (p.1 o) 1 o.cf (mmaInto c o .f32 (fun i j =>
      BitVec.ofNat 32 (rounded fF32 c.t.core.acr .rne
        (FNum.sum (fF32.read (tileElem (c.tile o.tile) (16 * i + j)).toNat :: mmaTerms c o p.2.1 p.2.1 p.2.2.1 i j)))) false)

/-- R347: a partial octet traps before any effect; TEXTRA is the mask of partial octets and TLANES the lanes of EM in them. -/
def Sys2Proof.Rules.PartialOctets : Prop :=
  ∀ p ∈ mmaTable, ∀ (s : State) (c : Cur) (o : MmaOps), (p.1 o).wf = true → Ready s c 1 o.cf →
    MmaOk { c with t := { c.t with core := { c.t.core with em := 0 } } } o p.2.1 p.2.1 p.2.2.1 .f32 p.2.2.2 → ¬ OctetsOk c →
    ∃ (n : Nat) (m : Mask),
      (∀ q, q < c.width / 8 → (bitAt n q = true ↔ (∃ l, l < 8 ∧ hasLane c.em (8 * q + l) = true) ∧
        ∃ l, l < 8 ∧ hasLane c.em (8 * q + l) = false)) ∧
      (∀ l, l < c.width → (hasLane m l = true ↔ bitAt n (l / 8) = true ∧ hasLane c.em l = true)) ∧
      Meets s c (p.1 o) c.em (.trap .matrixPartialOctet 0 n (some m))

/-- R353: MMAI and MMAT, saturated to I32 with SAT set; a T2 code 10 that is consumed traps FORMAT. -/
def Sys2Proof.Rules.MatrixInteger : Prop :=
  ∀ p ∈ mmaiTable, ∀ (s : State) (c : Cur) (o : MmaOps), (p.1 o).wf = true → Ready s c 1 o.cf →
    MmaOk c o p.2.1 p.2.2.1 p.2.2.2 .i32 false →
    let exact := mmaiExact c o p.2.1 p.2.2.1 p.2.2.2
    (p.2.2.1 ≠ .t2x16 ∨
      (∀ k j, k < p.2.2.2 → depthIn c o k = true → j < colsB c o → (matB c p.2.2.1 p.2.2.2 o.b k j).toNat ≠ 2) →
      Computes s c (p.1 o) 1 o.cf (mmaInto c o .i32 (fun i j => BitVec.ofInt 32 (nearest 32 true (exact i j)))
        ((List.range 256).any (fun x => isComputed c o (x / 16) (x % 16) &&
          decide (nearest 32 true (exact (x / 16) (x % 16)) ≠ exact (x / 16) (x % 16)))))) ∧
    (∀ k i j, p.2.2.1 = .t2x16 → k < p.2.2.2 → depthIn c o k = true → isComputed c o i j = true →
      (matB c p.2.2.1 p.2.2.2 o.b k j).toNat = 2 →
      ∃ n, Meets s c (p.1 o) c.em (.trap .format 0 n none))

/-- R333, R346 to R351 and R353: the matrix instructions add products of rows and columns to the tile. -/
def Obligations.MatrixProducts : Prop := Rules.MatrixFloat ∧ Rules.PartialOctets ∧ Rules.MatrixInteger

/-- R339 to R343: AZERO, AMOVV, AMOVA, ACVT and ATAG. -/
def Sys2Proof.Rules.TileInstructions : Prop :=
  (∀ (s : State) (c : Cur) (t : TReg), Ready s c 1 .none → TileOk c t →
    Computes s c (.azero t) 1 .none (c.setTile t { st := .zero, tag := (c.tile t).tag, sat := false, e := List.replicate 256 0 })) ∧
  (∀ (s : State) (c : Cur) (t : TReg) (v : VReg), Ready s c 1 .none → TileOk c t → RunOk c v (256 / c.width) →
    let x := c.tile t
    (Readable x (fun _ => true) →
      Computes s c (.amovv t v) 1 .none
        (c.writeRun (tileRun c v) c.em (tileTag x) (fun l r => tileElem x (r * c.width + l)))) ∧
    (∀ g, g ∈ [Tag.f32, .i32] → (∀ r ∈ tileRun c v, (c.vr r).tag = g) → c.width ∈ [16, 32, 64] →
      Computes s c (.amova t v) 1 .none (c.setTile t (liveTile x g (fun k =>
        if hasLane c.em (k % c.width) then lane c (regAt v (k / c.width)) (k % c.width)
        else if x.st = .live then x.e.getD k 0 else 0))))) ∧
  (∀ (s : State) (c : Cur) (t : TReg) (sp : SReg), Ready s c 1 .none → TileOk c t → Readable (c.tile t) (fun _ => true) →
    let x := c.tile t
    let g := tileTag x
    let acr := c.t.core.acr
    let factor := flushIn fF32 acr ((c.sr sp).extractLsb' 0 32).toNat
    let lo := (c.sr sp).extractLsb' 0 32
    let hi := (c.sr sp).extractLsb' 32 32
    let fl := fun (y : W32) => flushedBits fF32 acr y.toNat
    (g = .i32 →
      Computes s c (.acvtRelu t) 1 .none (c.setTile t (liveTile x .i32 (fun k =>
        if (tileElem x k).toInt < 0 then 0 else tileElem x k))) ∧
      Computes s c (.acvtScale t sp) 1 .none (c.setTile t (liveTile x .f32 (fun k =>
        BitVec.ofNat 32 (rounded fF32 acr (modeFor acr none) ((fromInteger (tileElem x k).toInt).mul factor))))) ∧
      (lo.toInt ≤ hi.toInt → Computes s c (.acvtClamp t sp) 1 .none (c.setTile t (liveTile x .i32 (fun k =>
        if (tileElem x k).toInt < lo.toInt then lo else if hi.toInt < (tileElem x k).toInt then hi else tileElem x k)))) ∧
      (hi.toInt < lo.toInt → Meets s c (.acvtClamp t sp) c.em (.word .illegalOperand 0))) ∧
    (g = .f32 →
      Computes s c (.acvtRelu t) 1 .none (c.setTile t (liveTile x .f32 (fun k =>
        BitVec.ofNat 32 (minOrMax fF32 true (fl (tileElem x k)) 0)))) ∧
      Computes s c (.acvtScale t sp) 1 .none (c.setTile t (liveTile x .f32 (fun k =>
        BitVec.ofNat 32 (rounded fF32 acr (modeFor acr none) ((flushIn fF32 acr (tileElem x k).toNat).mul factor))))) ∧
      (fF32.read lo.toNat ≠ .nan → fF32.read hi.toNat ≠ .nan → (fF32.read lo.toNat).cmp (fF32.read hi.toNat) ≠ .gt →
        Computes s c (.acvtClamp t sp) 1 .none (c.setTile t (liveTile x .f32 (fun k =>
          BitVec.ofNat 32 (minOrMax fF32 false (minOrMax fF32 true (fl (tileElem x k)) (fl lo)) (fl hi)))))))) ∧
  (∀ (s : State) (c : Cur) (t : TReg) (sd : SReg) (code : BitVec 5), Ready s c 1 .none → TileOk c t →
    let x := c.tile t
    (code = 0 → Computes s c (.atag t sd code) 1 .none (c.setS sd (tileQuery x))) ∧
    (∀ g, (code, g) ∈ [((1 : BitVec 5), Tag.i32), (3, .f32)] → Readable x (fun _ => true) →
      Computes s c (.atag t sd code) 1 .none ((c.setTile t (liveTile x g (tileElem x))).setS sd (tileQuery x))) ∧
    (code ≠ 0 → code ≠ 1 → code ≠ 3 → Meets s c (.atag t sd code) c.em (.word .illegalOperand 0)))

/-- R336 to R338: ALD makes the tile LIVE with the elements in bounds from memory and zeros elsewhere, SAT clear; AST stores
the elements in bounds. -/
def Sys2Proof.Rules.TileMemory : Prop :=
  (∀ (s : State) (c : Cur) (o : TileMemOps), (Instr.ald o).wf = true → Ready s c 1 o.cf → TileOk c o.tile → Fits c →
    TileDescOk c o →
    (∀ i j, i < tileRows c o → j < tileCols c o → ∃ lf, tileAcc s c o XReq.load true i j = .ok lf ∧ lf.pol = 0) →
    Loads s c (.ald o) o.cf (c.setTile o.tile (tileRead s c o (fun pa => c.gNat s pa (tileBytes o))))) ∧
  (∀ (s : State) (c : Cur) (o : TileMemOps), (Instr.ast o).wf = true → Ready s c 1 o.cf → TileOk c o.tile → Fits c →
    TileDescOk c o → Readable (c.tile o.tile) (fun g => g == if o.f = .i32 then Tag.i32 else .f32) →
    (∀ i j, i < tileRows c o → j < tileCols c o → ∃ lf, tileAcc s c o XReq.store false i j = .ok lf ∧ lf.pol = 0) →
    Stores s c (.ast o) o.cf c (astCells s c o) [])

/-- R336 to R343: tile instructions, and loads and stores of tiles. -/
def Obligations.Tiles : Prop := Rules.TileInstructions ∧ Rules.TileMemory

/-- R360, R363, R365 and R371 to R374: KINIT, KNEXT, KNEXT.S, KSEEK and KDESC on levels of every kind. -/
def Obligations.CursorIteration : Prop :=
  (∀ (s : State) (c : Cur) (o : KinitOps) (d : LDesc), (Instr.kinitR o).wf = true → Ready s c 1 o.cf → Fits c → Level s c d →
    c.sr o.s = BitVec.ofNat 64 d.addr → (c.sr (sregAt (o.s.val + 1))).toNat < 2 ^ 32 →
    ParentOk s c d (c.sr (sregAt (o.s.val + 1))).toNat →
    Loads s c (.kinitR o) o.cf (c.setK o.kd (boundTo s c d (c.sr (sregAt (o.s.val + 1))).toNat))) ∧
  (∀ (s : State) (c : Cur) (o : KnextOps) (d : LDesc) (lo hi : Nat) (es : List Elem), Ready s c 1 o.cf → Fits c →
    c.regOk o.vc = true → c.regOk o.vp = true → o.vc ≠ o.vp → c.width ≤ 64 → Stands s c o.kd d lo hi es →
    let n := Nat.min es.length (lanesOfEm c)
    ∃ m, Receives c es (fun _ => true) m ∧
      Loads s c (.knext o) o.cf
        (((((c.setK o.kd (cursorAt d lo hi (es.drop n))).setV o.vc c.em (delivered c es (·.coord)) .u32).setV o.vp c.em
          (delivered c es (·.pos)) .u32).setP o.pd c.em m).setS o.s (BitVec.ofNat 64 n))) ∧
  (∀ (s : State) (c : Cur) (o : KinitOps) (d : LDesc) (lo hi : Nat) (es : List Elem), Ready s c 1 o.cf → Fits c →
    Stands s c o.kd d lo hi es →
    (es = [] → Loads s c (.knextS o) o.cf (c.setS o.s 0xFFFFFFFFFFFFFFFF)) ∧
    (∀ e l, es = e :: l → Loads s c (.knextS o) o.cf ((c.setK o.kd (cursorAt d lo hi l)).setS o.s
      (BitVec.ofNat 64 (e.coord + 2 ^ 32 * e.pos)))) ∧
    (d.ord = true → (c.sr o.s).toNat < 2 ^ 32 →
      Loads s c (.kseek o) o.cf (c.setK o.kd (cursorAt d lo hi (es.dropWhile (fun e => e.coord < (c.sr o.s).toNat))))) ∧
    (d.ord = false → Meets s c (.kseek o) c.em (.trap .cursorKind 0 (17 * o.kd.val) none))) ∧
  (∀ (s : State) (c : Cur) (kd ka : KReg) (cf : Cf) (up d : LDesc) (lo hi : Nat) (es : List Elem), Ready s c 1 cf → Fits c →
    Stands s c ka up lo hi es → up.leaf = false → Level s c d → d.addr = up.addr + 64 → d.level = up.level + 1 →
    (es = [] → Loads s c (.kdesc kd ka cf) cf (c.setK kd (cursorAt d 0 0 []))) ∧
    (∀ e l, es = e :: l → ParentOk s c d e.pos → Loads s c (.kdesc kd ka cf) cf (c.setK kd (boundTo s c d e.pos))))

/-- R375 to R377: KLD loads the values of the positions that lanes hold, KQRY reads a field of a cursor, and KSAVE and KREST
store a cursor record and bind it again. -/
def Obligations.CursorAccess : Prop :=
  (∀ (s : State) (c : Cur) (o : KldOps) (d : LDesc) (lo hi : Nat) (es : List Elem), (Instr.kld o).wf = true →
    Ready s c 1 o.cf → Fits c → c.width ≤ 64 → Stands s c o.ka d lo hi es → d.leaf = true →
    let n := match o.w with | .b8 => 1 | .b16 => 2 | .b32 => 4 | .b64 => 8
    n = valueSize d.vtag → RunOk c o.vd (if n = 8 then 2 else 1) → c.regOk o.vp = true → (c.vr o.vp).tag ∈ [Tag.u32, .i32, .raw] →
    let has := fun l => inLanes c c.em l ∧ lane c o.vp l ≠ 0xFFFFFFFF
    let va := fun l => d.vbase + (lane c o.vp l).toNat * n
    (∀ l, has l → Reaches s c XReq.loadWb true (va l) n) →
    ∃ (m : Mask) (v : Nat → Nat), (∀ l, l < c.width → (hasLane m l = true ↔ has l)) ∧
      (∀ l, has l → v l = numberAtVa s c (va l) n) ∧ (∀ l, ¬ has l → v l = 0) ∧
      Loads s c (.kld o) o.cf ((c.writeRun (runOf o.vd (if n = 8 then 2 else 1)) c.em (Tag.ofCode d.vtag)
        (fun l k => BitVec.ofNat 32 (v l / 2 ^ (32 * k)))).setP o.pd c.em m)) ∧
  (∀ (s : State) (c : Cur) (o : KqryOps), Ready s c 1 .none → Room c c →
    let k := c.kr o.ka
    let f := [bit (k.head.getLsbD 3),
      16 * (k.head.extractLsb' 0 3).toNat + 8 * bit (decide (k ≠ Cursor.unbound)) + 4 * bit (k.head.getLsbD 5) +
        2 * bit (k.head.getLsbD 4) + bit (k.head.getLsbD 3),
      k.coord.toNat, k.pos.toNat, k.lo.toNat, k.hi.toNat, k.idx.toNat + 2 ^ 32 * k.sub.toNat, (k.head &&& ~~~0x3F).toNat]
    Computes s c (.kqry o) 1 .none (c.setS o.sd (BitVec.ofNat 64 (f.getD o.f.val 0)))) ∧
  (∀ (s : State) (c : Cur) (o : KmemOps), Ready s c 1 o.cf → Fits c →
    let a := (c.sr o.sb).toNat
    let k := c.kr o.k
    let bs := bytesOf 8 k.head.toNat ++ bytesOf 4 k.lo.toNat ++ bytesOf 4 k.hi.toNat ++ bytesOf 4 k.idx.toNat ++
      bytesOf 4 k.sub.toNat ++ bytesOf 4 k.coord.toNat ++ bytesOf 4 k.pos.toNat
    (o.crew = false → Reaches s c XReq.storeWb false a 32 → Stores s c (.ksave o) o.cf c (cellsVa s c a bs) []) ∧
    (o.crew = true → a + 32 ≤ c.crew.launch.crewmem → a % 32 = 0 → c.barTouched a 32 = none →
      Stores s c (.ksave o) o.cf c [] (cellsAt a bs))) ∧
  (∀ (s : State) (c : Cur) (o : KmemOps) (x : Cursor), Ready s c 1 o.cf → Fits c →
    let a := (c.sr o.sb).toNat
    let bs := bytesOf 8 x.head.toNat ++ bytesOf 4 x.lo.toNat ++ bytesOf 4 x.hi.toNat ++ bytesOf 4 x.idx.toNat ++
      bytesOf 4 x.sub.toNat ++ bytesOf 4 x.coord.toNat ++ bytesOf 4 x.pos.toNat
    (x = Cursor.unbound ∨ ∃ d lo hi es, Remains s c d lo hi es ∧ x = cursorAt d lo hi es) →
    (o.crew = false → Reaches s c XReq.loadWb true a 32 → numberAtVa s c a 32 = ofBytes bs →
      Loads s c (.krest o) o.cf (c.setK o.k x)) ∧
    (o.crew = true → a + 32 ≤ c.crew.launch.crewmem → a % 32 = 0 → (∀ i, i < 32 → c.cPoison (a + i) = false) →
      c.cNat a 32 = ofBytes bs → Loads s c (.krest o) o.cf (c.setK o.k x)))

/-- R362 and R380 to R383: of two ordered fibres KCO.I delivers the common elements and KCO.U the union, in order of coordinate,
and both cursors stand behind what was delivered, or where the co-iteration ended; where one side is HASHED or unordered KCO.I
iterates one and probes the other, whose cursor stays, and KCO.U traps CURSOR_KIND, as both do for two unordered sides. -/
def Sys2Proof.Rules.CoIteration : Prop :=
  ∀ (s : State) (c : Cur) (o : KcoOps) (da db : LDesc) (la ha lb hb : Nat) (xa xb : List Elem), Ready s c 1 o.cf → Fits c →
    c.regOk o.vc = true → RunOk c o.vp 2 → o.vc ∉ runOf o.vp 2 → o.ka ≠ o.kb → c.width ≤ 64 →
    Stands s c o.ka da la ha xa → Stands s c o.kb db lb hb xb →
    let n := lanesOfEm c
    let none32 := 0xFFFFFFFF
    let kindTrap := Stop.trap .cursorKind 0 (o.ka.val + 16 * o.kb.val) none
    (Ordered da → Ordered db →
      let es := common xa xb
      let r := afterMerge (xa.length + xb.length) n xa xb
      ∃ m, Receives c es (fun _ => true) m ∧
        Loads s c (.kcoI o) o.cf (coInto c o es (·.1) (·.2.1) (·.2.2) m m (cursorAt da la ha r.1) (cursorAt db lb hb r.2)
          (decide (r.1 = [] ∨ r.2 = [])))) ∧
    (Ordered da → Ordered db →
      let es := union (xa.length + xb.length + 1) xa xb
      let ra := xa.drop ((es.take n).countP (fun e => e.2.1.isSome))
      let rb := xb.drop ((es.take n).countP (fun e => e.2.2.isSome))
      ∃ ma mb, Receives c es (fun e => e.2.1.isSome) ma ∧ Receives c es (fun e => e.2.2.isSome) mb ∧
        Loads s c (.kcoU o) o.cf (coInto c o es (·.1) (fun e => e.2.1.getD none32) (fun e => e.2.2.getD none32) ma mb
          (cursorAt da la ha ra) (cursorAt db lb hb rb) (decide (ra = [] ∧ rb = [])))) ∧
    (ADrives da db → Probed s c db lb hb →
      let q := if xb = [] then (fun _ => none) else probeOf s c db lb hb
      let es := found q xa
      let r := if xb = [] then xa else afterProbe q n xa
      ∃ m, Receives c es (fun _ => true) m ∧
        Loads s c (.kcoI o) o.cf (coInto c o es (·.1) (·.2.1) (·.2.2) m m (cursorAt da la ha r) (cursorAt db lb hb xb)
          (decide (r = [] ∨ xb = [])))) ∧
    (BDrives da db → Probed s c da la ha →
      let q := if xa = [] then (fun _ => none) else probeOf s c da la ha
      let es := found q xb
      let r := if xa = [] then xb else afterProbe q n xb
      ∃ m, Receives c es (fun _ => true) m ∧
        Loads s c (.kcoI o) o.cf (coInto c o es (·.1) (·.2.2) (·.2.1) m m (cursorAt da la ha xa) (cursorAt db lb hb r)
          (decide (xa = [] ∨ r = [])))) ∧
    (¬ (Ordered da ∧ Ordered db) → Meets s c (.kcoU o) c.em kindTrap) ∧
    (Unordered da → Unordered db → Meets s c (.kcoI o) c.em kindTrap)

/-- R385 to R393: KINIT.A reads its template, ends the chunk and takes extents of the heap, KAPP and the two forms of SIEVE append coordinates and values and report
count and status, and KFIN closes a run with its descriptor. -/
def Sys2Proof.Rules.AppendRuns : Prop :=
  (∀ (s : State) (c : Cur) (o : KinitOps) (d : LDesc) (v : Voyage), (Instr.kinitA o).wf = true → Ready s c 1 o.cf → Alone c →
    Level s c d → d.template = true → c.sr o.s = BitVec.ofNat 64 d.addr → c.warp.live ≤ 1 →
    (s.ctx c.ctx).voyage? c.ref.w.crew.voy = some v →
    let m := (c.sr (sregAt (o.s.val + 1))).toNat
    let sz := valueSize d.vtag
    let voff := 128 + 64 * ((4 * m + 63) / 64)
    let n := (voff + 64 * ((m * sz + 63) / 64) + 4095) / 4096
    let die := c.crew.core / 96
    let b := c.crew.launch.heap.toNat + (die * c.crew.launch.heapx + v.heap.getD die 0) * 4096
    let x : Cursor := { head := BitVec.ofNat 64 (b + 1 + 16 + 32), lo := 0, hi := BitVec.ofNat 32 m, idx := 0xFFFFFFFF,
                        sub := BitVec.ofNat 32 d.ext, coord := BitVec.ofNat 32 d.vtag, pos := BitVec.ofNat 32 voff }
    0 < m → m ≤ d.ext → die < v.heap.length →
    (v.heap.getD die 0 + n ≤ c.crew.launch.heapx → b % 64 = 0 → b < 2 ^ 57 →
      ∃ t e, exec (.kinitA o) s = .next t ∧ Performed t c e (c.setK o.kd x) ∧
        ((t.ctx c.ctx).voyage? c.ref.w.crew.voy).map (·.heap) = some (setAt v.heap die (v.heap.getD die 0 + n)) ∧ t.mem = s.mem) ∧
    (c.crew.launch.heapx < v.heap.getD die 0 + n → Meets s c (.kinitA o) c.em (.trap .appendHeap 0 die none))) ∧
  (∀ (s : State) (c : Cur) (o : KinitOps) (d : LDesc), (Instr.kinitA o).wf = true → Ready s c 1 o.cf → c.t.chunk.st = .opened →
    Level s c d → d.template = true → c.sr o.s = BitVec.ofNat 64 d.addr → c.warp.live ≤ 1 →
    0 < (c.sr (sregAt (o.s.val + 1))).toNat → (c.sr (sregAt (o.s.val + 1))).toNat ≤ d.ext →
    ∃ t e l, exec (.kinitA o) s = .next t ∧ t.curOf c.ref = some e ∧ e.t.wait = .sing (.kinitA o (some (d.ext, d.vtag))) ∧
      e.t.chunk.st = .ended ∧ e.place = c.place ∧ e.regs = c.regs ∧ t.mem = s.mem ∧
      s.gAccess c XReq.walker true d.addr 64 64 = .ok l ∧ ∀ i, i < 16 → l.pa / 4 + i ∈ e.t.chunk.grs) ∧
  (∀ (s : State) (c : Cur) (o : KappOps) (b n m last ext vtag voff : Nat), Ready s c 1 o.cf → Fits c → c.width ≤ 64 →
    Appends c o.kd b n m last ext vtag voff → c.regOk o.vc = true → c.regOk o.vv = true → (c.vr o.vc).tag ∈ [Tag.u32, .i32, .raw] →
    let sz := valueSize vtag
    (c.vr o.vv).tag ∈ [Tag.ofCode vtag, .raw] →
    (sz = 8 → o.vv.code % 2 = 0 ∧ RunOk c o.vv 2 ∧ (c.vr (regAt o.vv 1)).tag ∈ [Tag.ofCode vtag, .raw]) →
    let r := taken ext m n (lastOf last) (kappItems c o sz)
    AppendOk s c b n voff sz r.1 →
    ∃ k, ItemLanes r.1 k ∧
      Stores s c (.kapp o) o.cf (((c.setK o.kd (grown (c.kr o.kd) r.1)).setP o.pa c.em k).setS o.s
        (BitVec.ofNat 64 (r.2 + 2 ^ 32 * r.1.length))) (appendCells s c b n voff sz r.1) []) ∧
  (∀ (s : State) (c : Cur) (o : KinitOps) (b n m last ext vtag voff : Nat), Ready s c 1 o.cf → Fits c →
    Appends c o.kd b n m last ext vtag voff →
    let d : LDesc := { addr := b, flags := 0x0069, blksz := 0, ext := ext, posa := b + 64, crda := b + 128, auxa := 0,
                       vbase := b + voff, vtag := vtag, hpar := 0, rest := 0 }
    (∀ i, i < 9 → Reaches s c XReq.storeWb false (b + 8 * i) 8) → FibreOk s c d 0 n 0 →
    let bs := bytesOf 2 0x69 ++ bytesOf 2 0 ++ bytesOf 4 ext ++ bytesOf 8 (b + 64) ++ bytesOf 8 (b + 128) ++ bytesOf 8 0 ++
      bytesOf 8 (b + voff) ++ bytesOf 1 vtag ++ bytesOf 23 0 ++ bytesOf 4 0 ++ bytesOf 4 n
    Stores s c (.kfin o) o.cf ((c.setK o.kd (cursorAt d 0 n (fibreFrom s c d 0 n 0))).setS o.s (BitVec.ofNat 64 b))
      ((List.range 9).flatMap (fun i => cellsVa s c (b + 8 * i) ((bs.drop (8 * i)).take 8))) []) ∧
  (∀ (s : State) (c : Cur) (o : SieveOps) (b n m last ext voff : Nat), (Instr.sieveNz o).wf = true → Ready s c 1 o.cf →
    Fits c → c.width ≤ 64 → Appends c o.kd b n m last ext o.t.code voff → c.regOk o.vx = true →
    ((c.vr o.vx).tag = o.t ∨ (o.t ∈ [Tag.i32, .u32] ∧ (c.vr o.vx).tag = .raw)) → (c.sr o.s).toNat < 2 ^ 32 →
    let sz := valueSize o.t.code
    let r := taken ext m n (lastOf last) (sieved c o.t (c.sr o.s).toNat o.vx (fun l e => !(isZeroElem o.t (elem o.t e (lane c o.vx l)))))
    AppendOk s c b n voff sz r.1 →
    ∃ k, ItemLanes r.1 k ∧
      Stores s c (.sieveNz o) o.cf (((c.setK o.kd (grown (c.kr o.kd) r.1)).setP o.pk c.em k).setS (sregAt (o.s.val + 1))
        (BitVec.ofNat 64 (r.2 + 2 ^ 32 * r.1.length))) (appendCells s c b n voff sz r.1) []) ∧
  (∀ (s : State) (c : Cur) (o : DeltaOps) (b n m last ext voff : Nat), (Instr.sieveDelta o).wf = true → Ready s c 1 o.cf →
    Fits c → c.width ≤ 64 → Appends c o.kd b n m last ext o.t.code voff → c.regOk o.vx = true → c.regOk o.vk = true →
    o.vx ≠ o.vk → (c.vr o.vx).tag = o.t → (c.vr o.vk).tag = o.t →
    let th := fF32.read ((c.sr o.s).extractLsb' 32 32).toNat
    let base := ((c.sr o.s).extractLsb' 0 32).toNat
    th ≠ .nan → (th.isNeg = true → th = .zero true) →
    let sz := valueSize o.t.code
    let r := taken ext m n (lastOf last) (sieved c o.t base o.vx (fun l e =>
      isChanged o.t th (elem o.t e (lane c o.vx l)) (elem o.t e (lane c o.vk l))))
    AppendOk s c b n voff sz r.1 →
    ∃ k w, ItemLanes r.1 k ∧
      (∀ l e, e < o.t.elems → elem o.t e (w l) =
        if r.1.any (fun i => i.lane == l && i.elem == e) then elem o.t e (lane c o.vx l) else elem o.t e (lane c o.vk l)) ∧
      Stores s c (.sieveDelta o) o.cf ((((c.setK o.kd (grown (c.kr o.kd) r.1)).setV o.vk k w o.t).setP o.pk c.em k).setS
        (sregAt (o.s.val + 1)) (BitVec.ofNat 64 (r.2 + 2 ^ 32 * r.1.length))) (appendCells s c b n voff sz r.1) [])

/-- R380 to R382 and R385 to R393: co-iteration of two cursors, append runs and compaction. -/
def Obligations.CoIterationAndAppend : Prop := Rules.CoIteration ∧ Rules.AppendRuns

/-- R324 to R328 and log entry 45: XDEC decodes literals from the start of a stream or within it, opens a match at a length
code, copies a pending match from the ring and from its own output, and gives the status of a stream that ends early, has no
code or refers too far back, then and at every later XDEC; crew-memory bounds and MBZ bits trap. That the distance field is 0
when no match is pending, that a match past OUTLEN is found before one that refers too far back, and that the bit position
behind an error is open is the model's reading (log 45). -/
def Obligations.PackedStream : Prop :=
  ∀ (s : State) (c : Cur) (o : XdecOps), (Instr.xdec o).wf = true → Ready s c 1 o.cf → Room c c → c.width ≤ 64 →
    c.regOk o.vd = true →
    (∀ (src slen obuf outlen pos p left dist st err : Nat), XRun c o src slen obuf outlen pos p left dist st err →
      let cap := 4 * lanesOfEm c
      let gives := fun (bs : List Byte) (outlen pos p left dist st err status : Nat) =>
        ∃ m, GivenBytes c bs m ∧ Computes s c (.xdec o) 1 o.cf (xdecDone c o bs obuf outlen pos p left dist st err status m)
      let fails := fun (outlen status : Nat) => ∃ e, e < 2 ^ 32 ∧ gives [] outlen e p 0 0 3 status status
      (∀ (bs : List Byte) (e : Nat), st = 1 → left = 0 → dist = 0 → err = 0 → 1120 ≤ 8 * slen → CodeFits c src →
        bs.length = Nat.min cap (outlen - p) → 0 < bs.length → HoldsCodes c src pos bs e → e ≤ 8 * slen → e < 2 ^ 32 →
        gives bs outlen e (p + bs.length) 0 0 (if p + bs.length = outlen then 2 else 1) 0 (if p + bs.length = outlen then 1 else 0)) ∧
      (∀ (bs : List Byte) (e : Nat), st = 0 → outlen = 0 → pos = 0 → p = 0 → left = 0 → dist = 0 → err = 0 → 1120 ≤ 8 * slen →
        CodeFits c src → bs.length = Nat.min cap (streamNum c src 0 32) → HoldsCodes c src 1120 bs e → e ≤ 8 * slen →
        e < 2 ^ 32 →
        let out := streamNum c src 0 32
        gives bs out e bs.length 0 0 (if bs.length = out then 2 else 1) 0 (if bs.length = out then 1 else 0)) ∧
      (st = 0 → outlen = 0 → pos = 0 → p = 0 → left = 0 → dist = 0 → err = 0 →
        (8 * slen < 1120 → fails 0 4) ∧
        (1120 ≤ 8 * slen → ¬ CodeFits c src → gives [] (streamNum c src 0 32) 1120 0 0 0 3 2 2)) ∧
      (∀ j, st = 1 → left = 0 → dist = 0 → err = 0 → 0 < cap → p < outlen → 1120 ≤ 8 * slen → CodeFits c src → j < 16 →
        HoldsSymbol c src pos (256 + j) →
        let n := pos + codeLen c src (256 + j)
        let len := copyLen j (streamNum c src n (extraBits j))
        let d := streamNum c src (n + extraBits j) 12
        let e := n + extraBits j + 12
        let bs := (List.range cap).map (fun i => c.cByte (obuf + (p + i % (d + 1) - (d + 1)) % 4096))
        (n ≤ 8 * slen → 8 * slen < e → fails outlen 4) ∧
        (e ≤ 8 * slen → outlen < p + len → fails outlen 4) ∧
        (e ≤ 8 * slen → p + len ≤ outlen → p < d + 1 → fails outlen 3) ∧
        (e ≤ 8 * slen → e < 2 ^ 32 → p + len ≤ outlen → d + 1 ≤ p → cap ≤ len →
          gives bs outlen e (p + cap) (len - cap) (if len = cap then 0 else d) (if p + cap = outlen then 2 else 1) 0
            (if p + cap = outlen then 1 else 0))) ∧
      (st = 1 → left = 0 → dist = 0 → err = 0 → 0 < cap → p < outlen → 1120 ≤ 8 * slen → CodeFits c src →
        (∀ sym, sym < 272 → ¬ HoldsSymbol c src pos sym) → pos + 15 ≤ 8 * slen → fails outlen 2) ∧
      (st = 1 → err = 0 → 0 < cap → cap ≤ left → dist + 1 ≤ p → p + left ≤ outlen →
        let bs := (List.range cap).map (fun i => c.cByte (obuf + (p + i % (dist + 1) - (dist + 1)) % 4096))
        gives bs outlen pos (p + cap) (left - cap) (if left = cap then 0 else dist) (if p + cap = outlen then 2 else 1) 0
          (if p + cap = outlen then 1 else 0)) ∧
      (st = 2 → left = 0 → dist = 0 → err = 0 → gives [] outlen pos p 0 0 2 0 1) ∧
      (st = 3 → gives [] outlen pos p left dist 3 err err)) ∧
    (let f := fun (i hi lo : Nat) => field (c.sr (sregAt (o.s.val + i))).toNat hi lo
     let odd := ¬ (f 3 63 40 = 0 ∧ f 3 35 34 = 0 ∧ f 3 31 28 = 0)
     (odd → Meets s c (.xdec o) c.em (.word .illegalOperand 0)) ∧
     (¬ odd → c.crew.launch.crewmem < f 0 31 0 + f 0 63 32 → Meets s c (.xdec o) c.em (.trap .addr (f 0 31 0) 0 none)) ∧
     (¬ odd → f 0 31 0 + f 0 63 32 ≤ c.crew.launch.crewmem → c.crew.launch.crewmem < f 1 31 0 + 4096 →
       Meets s c (.xdec o) c.em (.trap .addr (f 1 31 0) 0 none)))

/-- R53, R57, R61 and R187: a strand at a clause header waits for the flags that the header names, ends an open chunk where CB
is set, and otherwise applies the header, which counts in the chunk unless CB is set. -/
def Sys2Proof.Rules.ClauseStart : Prop :=
  ∀ (s : State) (c : Cur) (w : W64), s.cur? = some c → s.mayIssue c true = true → s.fetchWord c.ctx c.t.core.hdr = .ok w →
    headerOk w = true →
    let k := c.t.core
    (WaitsFor w c.t → Becomes s c .clauseStart { c.t with wait := .flags }) ∧
    (¬ WaitsFor w c.t → k.pc = k.hdr → hdrCb w = false →
      Becomes s c .clauseStart { headerCounted c.t with core := { k with hword := w, inClause := true, pc := k.hdr + 8 } }) ∧
    (¬ WaitsFor w c.t → k.pc = k.hdr → hdrCb w = true → c.t.chunk.st = .opened →
      Becomes s c .clauseStart { c.t with chunk := { c.t.chunk with st := .ended } }) ∧
    (¬ WaitsFor w c.t → k.pc = k.hdr → hdrCb w = true → c.t.chunk.st ≠ .opened →
      Becomes s c .clauseStart { c.t with core := { k with hword := w, inClause := true, pc := k.hdr + 8 } }) ∧
    (¬ WaitsFor w c.t → k.pc ≠ k.hdr → Becomes s c .clauseStart { c.t with core := { k with hword := w, inClause := true } })

/-- R64 and R65: a legal pair has the effect of its first word and then of its second, as one instruction of two words; each
member's effect is that of the word alone. -/
def Sys2Proof.Rules.Pairs : Prop :=
  (∀ (s : State) (c d1 d2 : Cur) (a b : PairOp), Ready s c 2 .none → Room c d2 → pairOk a b = true →
    (∀ r ∈ (a.dest :: a.reads) ++ (b.dest :: b.reads), c.regOk r = true) → c.pairOp a = .ok d1 → d1.pairOp b = .ok d2 →
    (c.t.chunk.st ≠ .opened → 1 < c.t.core.chlim) → (c.t.chunk.st = .opened → c.t.chunk.count + 1 < c.t.chunk.chlim) →
    Computes s c (.pairIssue a b) 2 .none d2) ∧
  (∀ (s : State) (c d : Cur) (a : PairOp), Ready s c 1 .none → Room c d → c.pairOp a = .ok d → Computes s c a.instr 1 .none d)

/-- R61, R62: with flags pending, an instruction reads a register that a flagged one writes as it was or as it is, a scalar whole,
a vector register lane by lane and its tag apart, and waits where it would write one; a flagged instruction sets its flag and
records what it overwrites. -/
def Sys2Proof.Rules.PendingFlags : Prop :=
  (∀ p ∈ saluTable, ∀ (s : State) (c : Cur) (o : SAluOps), Issuable s c 1 .none → Room c c →
    (o.sd.val = 0 ∨ ¬ PendingScalar c o.sd → ∃ x y, SeenScalar c o.sa x ∧ SeenSource c o.x y ∧
      CompletesPending s c (p.1 o) (c.setS o.sd (p.2 x y))) ∧
    (o.sd.val ≠ 0 → PendingScalar c o.sd → Becomes s c (p.1 o) { c.t with wait := .flags })) ∧
  (∀ (s : State) (c : Cur) (o : VMoveOps), o.g.wf = true → Issuable s c 1 .none → Room c c → c.regOk o.vd = true →
    c.regOk o.va = true → (∀ v, SeenVector c o.va v → v.tag ≠ .poison) →
    (¬ PendingVector c o.vd → ∃ v, SeenVector c o.va v ∧
      CompletesPending s c (.vmov o) (c.setV o.vd (c.enabledH o.g) (fun l => v.lane l) v.tag)) ∧
    (PendingVector c o.vd → Becomes s c (.vmov o) { c.t with wait := .flags })) ∧
  (∀ (s : State) (c : Cur) (o : SMemOps) (lf : Leaf) (f : Nat), o.wf = true → Ready s c 1 o.cf → Fits c →
    hdrFlag c.t.core.hword o.cf = some f →
    s.gAccess c XReq.load true (eaOf c o.base none o.off o.w.bytes 0) o.w.bytes o.w.bytes = .ok lf → lf.pol = 0 →
    ∃ t e q, exec (.sld o) s = .next t ∧ t.curOf c.ref = some e ∧ e.t.pends = [q] ∧ q.flag = f ∧
      (o.r.val ≠ 0 → .scal o.r.val (c.t.core.s.getD o.r.val 0) ∈ q.old))

/-- R53, R57, R61, R62, R64, R65 and R187: a clause header is applied when its flags are clear, a pair issues its two instructions as one, and what issues while flags are pending. Log entry 13: a header counts. -/
def Obligations.ClausesAndPairs : Prop := Rules.ClauseStart ∧ Rules.Pairs ∧ Rules.PendingFlags

/-- R61, R187, R190 and R199: a flag clears when its instructions complete, a chunk at its limit ends, an ended chunk with
clear flags is offered, and the strand that waits longest for a free pin slot of its die re-executes PINNED. -/
def Sys2Proof.Rules.FlagsAndChunkEnds : Prop :=
  (∀ (s : State) (c : Cur) (f : Fin 12), s.curOf c.ref = some c →
    Becomes s c (.flaggedCompletion c.ref f)
      { c.t with pends := c.t.pends.filter (fun p => p.flag != f.val), wait := if c.t.wait = .flags then .none else c.t.wait }) ∧
  (∀ (s : State) (c : Cur), s.curOf c.ref = some c → AtEnd c.t →
    Becomes s c (.chlimReached c.ref) { c.t with chunk := { c.t.chunk with st := .ended } }) ∧
  (∀ (s : State) (c : Cur), s.curOf c.ref = some c →
    (c.t.earlier = [] → c.t.chunk.st = .ended → c.t.pends = [] →
      Becomes s c (.chunkOffer ⟨c.ref, 0⟩) { c.t with chunk := { c.t.chunk with st := .ordering } }) ∧
    (∀ ch rest, c.t.earlier = ch :: rest → ch.st = .ended →
      Becomes s c (.chunkOffer ⟨c.ref, 0⟩) { c.t with earlier := { ch with st := .ordering } :: rest })) ∧
  (∀ (s : State) (c : Cur) (die : Nat) (p : Pin) (rest : List StrandRef), s.curOf c.ref = some c → s.pins[die]? = some p →
    p.holder = none → p.queue = c.ref :: rest → c.t.chunk.st = .pinWait →
    ∃ t e, exec (.pinGrant die) s = .next t ∧ t.curOf c.ref = some e ∧
      e.t = { c.t with chunk := { Chunk.none with pinned := true, again := c.t.chunk.again, errSeen := c.t.chunk.errSeen,
                                                  limit := c.t.chunk.limit } } ∧
      t.pins[die]? = some { holder := some c.ref, grant := s.grants, queue := rest } ∧ t.grants = s.grants + 1 ∧
      (∀ d, d ≠ die → t.pins[d]? = s.pins[d]?) ∧ t = { s with pins := t.pins, grants := t.grants, crews := t.crews })

/-- R193, R194, R196 and R198: a chunk commits in one step: memory and crew memory hold what the strand saw, the strand keeps
its registers, and every unpinned chunk that has read or written a word which this one wrote goes back to its start. -/
def Sys2Proof.Rules.ChunkCommit : Prop :=
  ∀ (s : State) (c : Cur), s.memWf = true → s.curOf c.ref = some c → Placeable c.t → NoPinMet s c → c.t.chunk.bars = [] →
    c.t.chunk.closes = [] → (c.t.wait = .none ∨ ∃ op, c.t.wait = .sing op) →
    ∃ t e, exec (.chunkCommit ⟨c.ref, 0⟩) s = .next t ∧ t.curOf c.ref = some e ∧ e.t.core = c.t.core ∧ e.t.chunk = Chunk.none ∧
      e.t.wait = c.t.wait ∧ e.t.sqcnt = c.t.sqcnt ∧
      (∀ pa, c.t.chunk.disc.contains (pa / 4) = false → s.dead.contains (pa / 4) = false → t.rdByte pa = c.gByte s pa) ∧
      (∀ off, cellGet e.crew.mem off = c.cByte off) ∧ (∀ g ∈ c.t.chunk.badG, g ∈ t.poison) ∧
      (∀ r x, r ≠ c.ref → r.strand < 4 → s.strand? r = some x → x.chunk.active = true → x.chunk.pinned = false → Overlaps c r x →
        ∃ y, t.strand? r = some y ∧ y.core = { (x.chunk.snap.getD x.core) with inClause := false } ∧
          y.chunk.active = false ∧ y.sqcnt = x.sqcnt + 1) ∧
      (∀ r x, r ≠ c.ref → s.strand? r = some x → x.chunk.active = false →
        ∃ y, t.strand? r = some y ∧ y.core = x.core ∧ y.chunk = x.chunk ∧ y.sqcnt = x.sqcnt) ∧
      t = { s with mem := t.mem, poison := t.poison, dead := t.dead, crews := t.crews, pins := t.pins, caches := t.caches,
                   free := s.free + 1 }

/-- R188 and R193: of a strand's chunks that are not placed the oldest commits: memory holds what it wrote, the later ones stay
as they are, and what the strand sees stays the same. R314 and R318: the commit of a chunk that ended at a BCLOSE closes the
warp's open commands into its batch. -/
def Sys2Proof.Rules.CommitOrder : Prop :=
  (∀ (s : State) (c : Cur) (ch : Chunk) (rest : List Chunk), s.curOf c.ref = some c → Quiet s c → c.t.earlier = ch :: rest →
    ch.st = .ordering → ch.bars = [] → ch.closes = [] → ch.pinned = false → (∀ g ∈ c.t.unplaced, g.owner = none) →
    (c.t.wait = .none ∨ ∃ op, c.t.wait = .sing op) →
    ∃ t e, exec (.chunkCommit ⟨c.ref, 0⟩) s = .next t ∧ t.curOf c.ref = some e ∧ e.t.core = c.t.core ∧
      e.t.chunk = c.t.chunk ∧ e.t.earlier = rest ∧ e.t.wait = c.t.wait ∧
      (∀ pa, ch.disc.contains (pa / 4) = false → s.dead.contains (pa / 4) = false → t.rdByte pa = s.chunkByte pa [ch]) ∧
      (∀ pa, (∀ g ∈ c.newest, g.disc.contains (pa / 4) = false) → s.dead.contains (pa / 4) = false → e.gByte t pa = c.gByte s pa) ∧
      (∀ off, e.cByte off = c.cByte off)) ∧
  (∀ (s : State) (c : Cur) (n : W32), CanCommit s c → c.t.chunk.closes = [n] → (c.t.wait = .none ∨ ∃ op, c.t.wait = .sing op) →
    ∃ t e, exec (.chunkCommit ⟨c.ref, 0⟩) s = .next t ∧ t.curOf c.ref = some e ∧ e.t.core = c.t.core ∧
      e.t.chunk = Chunk.none ∧ ClosedInto s t c e.warp n)

/-- R61, R187, R188, R190, R193 to R199, R314 and R318: flags complete, chunks end, are offered and commit, the oldest of a strand first, with everything they held, the closing of a batch among it, at one point of the order. -/
def Obligations.ChunkEndsAndCommits : Prop := Rules.FlagsAndChunkEnds ∧ Rules.ChunkCommit ∧ Rules.CommitOrder

/-- R151 to R153 and R155: an arriving strand's chunk ends once its flags are clear; it then waits for the other members of its
frame, and with the last of them the frame merges into the strand with most lanes, the lower index on a tie, behind the JOIN;
the merged strand goes on behind what the members' chunks that are not placed yet hold. -/
def Obligations.JoinMerge : Prop :=
  (∀ (s : State) (c : Cur), s.curOf c.ref = some c → c.t.wait = .arriving false → c.t.pends = [] →
    Becomes s c (.joinArrive c.ref) { c.t with wait := .arriving true, chunk := { c.t.chunk with st := .ended } }) ∧
  (∀ (s : State) (c : Cur) (f : Frame), s.curOf c.ref = some c → c.t.wait = .arriving true → c.t.chunk.pinned = false →
    c.warp.merges = [] → c.warp.frames = [f] → c.ref.strand ∈ f.members → f.addr = c.t.core.hdr →
    c.ref.strand < c.warp.strands.length → (∃ k ∈ f.members, k ≠ c.ref.strand) →
    (∀ k t n, k ≠ c.ref.strand → c.warp.strand? k = some t → t.wait ≠ .joining n) →
    Becomes s c (.joinArrive c.ref) { c.t with wait := .joining 1 }) ∧
  (∀ (s : State) (c : Cur) (f : Frame), s.curOf c.ref = some c → c.t.wait = .arriving true → c.t.chunk.pinned = false →
    c.warp.merges = [] → AllArrive c f →
    ∃ t w k x, exec (.joinArrive c.ref) s = .next t ∧ t = { s with crews := t.crews } ∧ t.warp? c.ref.w = some w ∧
      w = { c.warp with strands := w.strands, frames := [], merges := w.merges } ∧ k ∈ f.members ∧
      x.chunk = Chunk.none ∧
      (∀ ch, ch ∈ x.earlier ↔ ∃ j ∈ f.members, ∃ u, c.warp.strand? j = some u ∧ ∃ g ∈ u.unplaced, g.active = true ∧
        ch = { g with owner := some j }) ∧
      (x.earlier = [] → w.merges = []) ∧
      (∀ j u v, j ∈ f.members → c.warp.strand? j = some u → c.warp.strand? k = some v →
        popMask c.width u.core.em < popMask c.width v.core.em ∨
          (popMask c.width u.core.em = popMask c.width v.core.em ∧ k ≤ j)) ∧
      w.strand? k = some x ∧ (∀ j, j ≠ k → w.strand? j = none) ∧ x.wait = .none ∧ x.core.inClause = false ∧
      Gathers x.core.l c.warp f.members (·.l) ∧ Gathers x.core.em c.warp f.members (·.em) ∧
      Gathers x.core.hm c.warp f.members (·.hm) ∧
      (∀ v, c.warp.strand? k = some v → x.core.s = v.core.s ∧ x.core.pc = clauseEnd v.core.hdr v.core.hword))

/-- R170 to R172 and R184: a WSPLIT whose chunk has committed writes its status and clears p(N), or makes two warps of half the
width, both at the next instruction with s(sd) zero, whose barriers count one participant more; a child with no lane exits. -/
def Sys2Proof.Rules.SplitEvent : Prop :=
  (∀ (s : State) (c : Cur) (sd : SReg) (p : PReg) (st : Nat), s.curOf c.ref = some c → c.t.wait = .wsplit sd p st → Alone c →
    st ≠ 0 →
    ∃ t e, exec (.warpSplit c.ref) s = .next t ∧ Resumes s t c e ((c.setS sd (BitVec.ofNat 64 st)).setP p c.l 0)) ∧
  (∀ (s : State) (c : Cur) (sd : SReg) (p : PReg), s.curOf c.ref = some c → c.t.wait = .wsplit sd p 0 → Alone c → Quiet s c →
    SoundBars c → ¬ CopyPending s c →
    let h := c.width / 2
    let hi := c.ref.w.warp + 2 ^ (4 + c.warp.splits.length)
    (∀ w ∈ c.crew.warps, w.id ≠ hi) → (∀ x ∈ s.cmds, x.warp ≠ some { c.ref.w with warp := hi }) →
    ∃ t k a b, exec (.warpSplit c.ref) s = .next t ∧ t = { s with crews := t.crews } ∧ t.crew? c.ref.w.crew = some k ∧
      k.warp? c.ref.w.warp = some a ∧ k.warp? hi = some b ∧
      (maskPart c.t.core.l 0 h ≠ 0 → ChildOf c sd p a 0 h false ∧ a.exited = c.warp.exited ∧ a.held = c.warp.held) ∧
      (maskPart c.t.core.l h h ≠ 0 → ChildOf c sd p b h h true ∧ b.exited = c.warp.exited ∧ b.held = []) ∧
      (maskPart c.t.core.l 0 h = 0 → a.exited = true ∧ a.live = 0 ∧ a.held = []) ∧
      (maskPart c.t.core.l h h = 0 → b.exited = true ∧ b.live = 0 ∧ b.held = []) ∧
      a.tiles = c.warp.tiles.take ((c.warp.tiles.length + 1) / 2) ∧ b.tiles = c.warp.tiles.drop ((c.warp.tiles.length + 1) / 2) ∧
      a.report = c.warp.report ∧ b.report = none ∧ a.slot = c.warp.slot ∧ b.slot = c.warp.slot + h / 16 ∧
      (maskPart c.t.core.l 0 h ≠ 0 → maskPart c.t.core.l h h ≠ 0 → BarsBecome c k (splitBy c.ref.w.warp hi)))

/-- R174 and R465: the commit of the chunk that ends at WFUSE decides it: the warp's own status, PC_MISMATCH where the sibling
is parked at another WFUSE, what pair_check gives to both at one address, SIBLING_EXITED, or the warp parks for 64 × CHLIM
cycles, after which it receives TIMEOUT; of two that arrive in one cycle at two addresses, the low warp is the one that parks. -/
def Sys2Proof.Rules.FuseArrivals : Prop :=
  (∀ (s : State) (c : Cur) (sd : SReg) (a : W64) (st : Nat), CanCommit s c → c.t.chunk.closes = [] →
    c.t.wait = .wfuseEnd sd a (some st) →
    ∃ t e, exec (.chunkCommit ⟨c.ref, 0⟩) s = .next t ∧ GoesOn t c e (c.setS sd (BitVec.ofNat 64 st))) ∧
  (∀ (s : State) (c : Cur) (sd : SReg) (a : W64), CanCommit s c → c.t.chunk.closes = [] → c.t.wait = .wfuseEnd sd a none →
    (SiblingExited c → ∃ t e, exec (.chunkCommit ⟨c.ref, 0⟩) s = .next t ∧ GoesOn t c e (c.setS sd 7)) ∧
    (¬ SiblingExited c →
      c.warp.splits = [] ∨ (∀ w, c.crew.warp? (siblingOf c) = some w → w.splits.length ≠ c.warp.splits.length) ∨
        (∀ r x, r.w = { c.ref.w with warp := siblingOf c } → s.strand? r = some x → x.wait.atFuse = none) →
      ∃ t, exec (.chunkCommit ⟨c.ref, 0⟩) s = .next t ∧ FuseParked s t c sd a) ∧
    (∀ (d : Cur) (sx : SReg) (x : W64) (since : Nat), SiblingAt s c d sx x since →
      let low := siblingOf c > c.ref.w.warp
      (x ≠ a → ¬ (since = s.cycle.toNat ∧ low) → ∃ t e f, exec (.chunkCommit ⟨c.ref, 0⟩) s = .next t ∧
        GoesOn t c e (c.setS sd 2) ∧ t.curOf d.ref = some f ∧ f.t.wait = d.t.wait ∧ f.place = d.place ∧ f.regs = d.regs) ∧
      (x ≠ a → since = s.cycle.toNat → low → ∃ t f, exec (.chunkCommit ⟨c.ref, 0⟩) s = .next t ∧ FuseParked s t c sd a ∧
        GoesOn t d f (d.setS sx 2)) ∧
      (x = a → ¬ SameWindow c d → (∀ k t, k ≠ c.ref.strand → c.warp.strand? k = some t → False) →
        ∃ t e f, exec (.chunkCommit ⟨c.ref, 0⟩) s = .next t ∧ GoesOn t c e (c.setS sd 4) ∧ GoesOn t d f (d.setS sx 4)) ∧
      (x = a → SameWindow c d → (∀ k t, k ≠ c.ref.strand → c.warp.strand? k = some t → False) →
        ∃ t e f, exec (.chunkCommit ⟨c.ref, 0⟩) s = .next t ∧ t.curOf c.ref = some e ∧ e.t.wait = .fusing sd ∧
          e.regs = c.regs ∧ t.curOf d.ref = some f ∧ f.t.wait = .fusing sx ∧ f.regs = d.regs))) ∧
  (∀ (s : State) (c : Cur) (sd : SReg) (a : W64) (limit since : Nat), s.curOf c.ref = some c →
    c.t.wait = .wfuse sd a limit since → limit ≤ s.cycle.toNat - since →
    ∃ t e, exec (.wfuseTimeout c.ref) s = .next t ∧ Resumes s t c e (c.setS sd 8))

/-- R175: two warps of one split that wait at WFUSE become one: lanes, masks and predicates side by side, a register RAW whose
tags differ, the low warp's scalars, cursors, special registers and window, the items, batches and report of both, one
participant less in each barrier, and s(sd) zero. -/
def Sys2Proof.Rules.FusionEvent : Prop :=
  ∀ (s : State) (c d : Cur) (sd sx : SReg), s.curOf c.ref = some c → s.curOf d.ref = some d → c.ref.w.crew = d.ref.w.crew →
    c.t.wait = .fusing sd → d.t.wait = .fusing sx → (∀ k t, k ≠ c.ref.strand → c.warp.strand? k = some t → False) →
    (∀ k t, k ≠ d.ref.strand → d.warp.strand? k = some t → False) → c.ref.strand < 4 → d.ref.strand < 4 →
    c.ref.w.warp < siblingOf c → siblingOf c = d.ref.w.warp → c.warp.splits ≠ [] →
    c.warp.splits.length = d.warp.splits.length → Alone c → Quiet s c → SoundBars c → c.warp.width ≤ 32 →
    ∃ t k e, exec (.warpFusion c.ref.w d.ref.w) s = .next t ∧ t = { s with crews := t.crews } ∧ t.curOf c.ref = some e ∧
      t.crew? c.ref.w.crew = some k ∧ t.warp? d.ref.w = none ∧ e.width = 2 * c.width ∧
      e.warp.splits = c.warp.splits.dropLast ∧ (∀ x, c.warp.splits.getLast? = some x → e.warp.lay = x.lay) ∧
      e.t.wait = .none ∧ e.place = c.behind 1 ∧
      e.t.core = { (c.setS sd 0).t.core with pc := e.t.core.pc, hdr := e.t.core.hdr, inClause := e.t.core.inClause,
                                             l := e.t.core.l, em := e.t.core.em, hm := e.t.core.hm } ∧
      (∀ m ∈ [StrandCore.l, StrandCore.em, StrandCore.hm], ∀ i,
        (m e.t.core).getLsbD i = if i < c.width then (m c.t.core).getLsbD i
          else (decide (i < 64) && (m d.t.core).getLsbD (i - c.width))) ∧
      (∀ (i : Nat) (m n : Mask), c.warp.preds[i]? = some m → d.warp.preds[i]? = some n → ∃ x, e.warp.preds[i]? = some x ∧
        ∀ j, x.getLsbD j = if j < c.width then m.getLsbD j else (decide (j < 64) && n.getLsbD (j - c.width))) ∧
      (∀ (i : Nat) (v u : VecReg), c.warp.vregs[i]? = some v → d.warp.vregs[i]? = some u →
        e.warp.vregs[i]? = some ({ tag := if v.tag = u.tag then v.tag else .raw, lanes := v.lanes ++ u.lanes } : VecReg)) ∧
      (∀ (i : Nat) (v u : VecReg), c.warp.gregs[i]? = some v → d.warp.gregs[i]? = some u →
        e.warp.gregs[i]? = some ({ tag := if v.tag = u.tag then v.tag else .raw, lanes := v.lanes ++ u.lanes } : VecReg)) ∧
      e.warp.tiles = c.warp.tiles ++ d.warp.tiles ∧ e.warp.held = c.warp.held ++ d.warp.held ∧
      e.warp.batches = c.warp.batches ++ d.warp.batches ∧
      e.warp.report = (match c.warp.report, d.warp.report with
        | some x, some _ => some { x with ovf := true }
        | some x, none => some x
        | none, y => y) ∧
      BarsBecome c k (fusedBy c.ref.w.warp d.ref.w.warp)

/-- R170 to R175, R184 and R465: what follows the commit of a chunk that ends at WSPLIT or WFUSE: the split with its children, the pairing of siblings with each status, the limit of 64 × CHLIM cycles, and the fusion, with their barriers. -/
def Obligations.WidthEvents : Prop := Rules.SplitEvent ∧ Rules.FuseArrivals ∧ Rules.FusionEvent

/-- R136, R218, R315, R316, R320, R403 and R421: what lets a parked strand go on, and the completion of a batch. -/
def Sys2Proof.Rules.Wakes : Prop :=
  (∀ (s : State) (c : Cur) (geu : Bool) (o : AmoOps) (pa since : Nat) (m : W64), s.curOf c.ref = some c →
    c.t.wait = .sv geu o pa since (some m) →
    ∃ t e, exec (.svwaitWake c.ref) s = .next t ∧ Resumes s t c e (c.setS o.sd m)) ∧
  (∀ (s : State) (c : Cur) (d : Bool) (o : WcOps) (since : Nat) (v : W64) (frozen : Bool), s.curOf c.ref = some c →
    c.t.wait = .wc d o since (some (v, frozen)) →
    ∃ t e, exec (.wcwaitWake c.ref) s = .next t ∧
      Resumes s t c e ((c.setS o.sd v).setP o.p c.l (if frozen then c.l else 0))) ∧
  (∀ (s : State) (c : Cur) (id : Nat), s.curOf c.ref = some c → c.t.wait = .xf id →
    (∀ f ∈ s.fences, f.id = id → f.before = []) →
    ∃ t e, exec (.xfenceResume c.ref) s = .next t ∧ Resumes s t c e c) ∧
  (∀ (s : State) (c : Cur) (o : SabOps) (since : Nat), s.curOf c.ref = some c → c.t.wait = .bw o since → Closed c o.sa →
    let n := (c.sr o.sa).setWidth 32
    c.incomplete n = false →
    ∃ t e, exec (.bwaitWake c.ref) s = .next t ∧ Resumes s t c e (reported c o n false) ∧
      e.warp.report = if (c.reportFor n).isSome then none else c.warp.report) ∧
  (∀ (s : State) (c : Cur) (o : QueueOps) (since : Nat) (x : Queue) (rest : List StrandRef) (l : Leaf), s.curOf c.ref = some c →
    c.t.wait = .deq o since → QueueAt s c o x → 3 ≤ o.q.toNat → x.waiters = c.ref :: rest → x.st = .opened → x.head < x.tail →
    SlotOk s c x x.head XReq.ringRead l →
    ∃ t e, exec (.deqWake c.ctx o.q.toNat) s = .next t ∧
      Resumes s t c e (answered (withItem c o.sa (s.rdBytes l.pa (16 * 2 ^ x.isz))) o.sd o.p 0 true) ∧
      t.queue? c.ctx o.q.toNat = some { x with head := x.head + 1, waiters := x.waiters.filter (· != c.ref) }) ∧
  (∀ (s : State) (r : WarpRef) (w : Warp) (b : Batch) (bs : List Batch), s.warp? r = some w → w.batches = b :: bs →
    b.fault.isSome = true ∨ (∀ x ∈ s.cmds, x.id ∈ b.cmds → x.finished = true) →
    ∃ t u, exec (.batchComplete r) s = .next t ∧ t.warp? r = some u ∧
      u = { w with batches := bs,
                   report := match b.fault, w.report with
                     | none, y => y
                     | some _, some y => some { y with ovf := true }
                     | some f, none => some { n := b.n, kind := f.1, va := f.2, ovf := false } } ∧
      (∀ x ∈ t.cmds, x.id ∈ b.cmds → x.warp = none) ∧ t.mem = s.mem ∧ t.ctxs = s.ctxs)

/-- R92, R152, R202, R203 and R295, with log entries 24, 39 and 56: a trap raised at a merge and a watchdog's trap, at an SVWAIT,
WCWAIT or BWAIT, enter the handler with one squash counted (log 24), and a strand that met a replayable fault parks at the
outstanding record of its page and access, or at a new one. -/
def Sys2Proof.Rules.ParkedTraps : Prop :=
  (∀ (s : State) (c : Cur) (ti : TrapInfo), s.curOf c.ref = some c → Runs s c → CanTrap s c → c.t.wait = .trap ti → c.t.pends = [] →
    ∃ t e, exec (.trapEntry c.ref) s = .next t ∧ Entered s t c e
      (savedRegs c ti.cause.code (BitVec.ofNat 64 ti.addr) (BitVec.ofNat 64 ti.extra) ti.lanes ti.cause.isSoftware)) ∧
  (∀ (s : State) (c : Cur) (since : Nat), s.curOf c.ref = some c → Runs s c → CanTrap s c → WaitsSince c since → 0 < (s.ctx c.ctx).watchdog → 1000 * (s.ctx c.ctx).watchdog < s.ns - since →
    ∃ t e, exec (.watchdog c.ref) s = .next t ∧
      Entered s t c e (savedRegs c 0x19 0 (BitVec.ofNat 64 ((s.ns - since) / 1000)) c.em false)) ∧
  (∀ (s : State) (c : Cur) (pf : PageFault), s.curOf c.ref = some c → Runs s c → Alone c → c.t.wait = .faulting pf →
    ((∀ f ∈ (s.ctx c.ctx).faults, ¬ (f.pf.va / 4096 = pf.va / 4096 ∧ f.pf.access = pf.access)) →
      (s.ctx c.ctx).nextFault < 2 ^ 32 → (∀ f ∈ (s.ctx c.ctx).faults, f.id ≠ (s.ctx c.ctx).nextFault) →
      ∃ t e, exec (.faultPark c.ref) s = .next t ∧ t.curOf c.ref = some e ∧
        e.t = { c.t with wait := .fault (s.ctx c.ctx).nextFault pf, chunk := Chunk.none, pinCount := 0 } ∧
        (t.ctx c.ctx).faults = (s.ctx c.ctx).faults ++
          [{ id := (s.ctx c.ctx).nextFault, pf := pf, core := c.crew.core, quad := c.crew.quad, slot := c.warp.slot,
             strand := c.ref.strand, isOpen := false, voy := c.ref.w.crew.voy, crew := c.ref.w.crew.crew, batch := 0,
             attached := [.strand c.ref], posted := false }]) ∧
    (∀ f, (s.ctx c.ctx).faults.find? (fun f => f.pf.va / 4096 == pf.va / 4096 && f.pf.access == pf.access) = some f →
      ∃ t e, exec (.faultPark c.ref) s = .next t ∧ t.curOf c.ref = some e ∧ e.t.wait = .fault f.id pf ∧
        (t.ctx c.ctx).faults.length = (s.ctx c.ctx).faults.length ∧
        ∃ g ∈ (t.ctx c.ctx).faults, g.id = f.id ∧ g.pf = f.pf ∧ .strand c.ref ∈ g.attached))

/-- R92, R136, R152, R202, R203, R218, R295, R315, R316, R320, R403 and R421: parked strands are woken with the value of their event, and a trap or a fault met off the ready set is taken. Log entries 24, 39 and 56: the squash that is counted, and how errors are met. -/
def Obligations.WakesAndParkedTraps : Prop := Rules.Wakes ∧ Rules.ParkedTraps

/-- R107 to R109, R201 and R354, with log entries 24, 39 and 56: a corrected error changes nothing; an error in a chunk that is not
placed squashes it once, and a second with the same start is one in committed state, which poisons, at the chunk's commit where
the chunk holds it in memory (log 56); a residue mismatch of the matrix instruction that issues next (log 39) squashes once and
then traps, with one squash counted (log 24). -/
def Obligations.Errors : Prop :=
  (∀ s : State, exec .correctedError s = .next s) ∧
  (∀ (s : State) (c : Cur) (n : Nat) (ch : Chunk) (site : ErrSite), s.curOf c.ref = some c → c.t.unplaced[n]? = some ch →
    ch.active = true → ch.owner = none →
    let i := Instr.uncorrectableErrorOpen { strand := c.ref, n := n } none site
    (ch.errSeen = false → (∀ x ∈ c.t.unplaced.drop n, x.childIdx = none) →
      ∃ t e, exec i s = .next t ∧ t.curOf c.ref = some e ∧ e.t.core = { (ch.snap.getD c.t.core) with inClause := false } ∧
        e.t.sqcnt = c.t.sqcnt + BitVec.ofNat 64 ((c.t.unplaced.drop n).filter Chunk.active).length ∧
        e.t.earlier.length = n ∧ e.t.chunk.errSeen = true ∧ e.t.chunk.active = false ∧ t.mem = s.mem ∧
        e.crew.mem = c.crew.mem) ∧
    (ch.errSeen = true →
      (∀ pa, site = .phys pa → ∃ t e x, exec i s = .next t ∧ Touches s t c e ∧
        e.t = { c.t with earlier := e.t.earlier, chunk := e.t.chunk } ∧ e.t.unplaced = setAt c.t.unplaced n x ∧
        x = { ch with badG := x.badG } ∧ ∀ g, g ∈ x.badG ↔ g ∈ ch.badG ∨ g = pa / 32) ∧
      (∀ off, site = .crewMem c.ref.w.crew off → ∃ t e x, exec i s = .next t ∧ Touches s t c e ∧
        e.t = { c.t with earlier := e.t.earlier, chunk := e.t.chunk } ∧ e.t.unplaced = setAt c.t.unplaced n x ∧
        x = { ch with badC := x.badC } ∧ ∀ g, g ∈ x.badC ↔ g ∈ ch.badC ∨ g = off / 32) ∧
      ((∀ pa, site ≠ .phys pa) → (∀ off, site ≠ .crewMem c.ref.w.crew off) →
        exec i s = exec (.uncorrectableErrorCommitted site) s))) ∧
  (∀ (s : State) (c : Cur) (site : ErrSite) (t : TReg) (w : W64) (n : Nat), s.curOf c.ref = some c →
    s.mayIssue c false = true → s.fetchWord c.ctx c.t.core.pc = .ok w → c.matrixOn t w = true →
    let i := Instr.uncorrectableErrorOpen { strand := c.ref, n := n } (some t) site
    (c.t.errSeen = false → c.t.chunk.st = .idle →
      Becomes s c i { c.t with chunk := { c.t.chunk with errSeen := true }, sqcnt := c.t.sqcnt + 1 }) ∧
    (c.t.errSeen = false → c.t.chunk.st = .opened → c.t.chunk.childIdx = none → c.t.chunk.owner = none →
      ∃ u e, exec i s = .next u ∧ u.curOf c.ref = some e ∧ e.t.core = { (c.t.chunk.snap.getD c.t.core) with inClause := false } ∧
        e.t.chunk.errSeen = true ∧ e.t.chunk.active = false ∧ e.t.sqcnt = c.t.sqcnt + 1 ∧ u.mem = s.mem) ∧
    (c.t.errSeen = true → CanTrap s c → c.t.pends = [] →
      ∃ u e, exec i s = .next u ∧ Entered s u c e (savedRegs c 0x0E 0 (BitVec.ofNat 64 t.val) c.em false))) ∧
  (∀ (s : State) (r : WarpRef) (w : Warp), s.warp? r = some w →
    (∀ (i : Fin 256) (v : VecReg), w.vregs[i.val]? = some v →
      ∃ t u, exec (.uncorrectableErrorCommitted (.vreg r (.v i))) s = .next t ∧ t = { s with crews := t.crews } ∧
        t.warp? r = some u ∧ u = { w with vregs := u.vregs } ∧ u.vregs[i.val]? = some { v with tag := .poison } ∧
        ∀ j, j ≠ i.val → u.vregs[j]? = w.vregs[j]?) ∧
    (∀ (k : Nat) (x : Tile), w.tiles[k]? = some x →
      ∃ t u, exec (.uncorrectableErrorCommitted (.tile r k)) s = .next t ∧ t = { s with crews := t.crews } ∧
        t.warp? r = some u ∧ u = { w with tiles := u.tiles } ∧ u.tiles[k]? = some { x with st := .poison })) ∧
  (∀ (s : State) (c : Cur), s.curOf c.ref = some c →
    Becomes s c (.uncorrectableErrorCommitted (.strandReg c.ref)) { c.t with poisoned := true }) ∧
  (∀ (s : State) (pa : Nat), s.backed pa = true →
    ∃ t, exec (.uncorrectableErrorCommitted (.phys pa)) s = .next t ∧ t = { s with poison := t.poison } ∧
      ∀ q, t.isPoison q = true ↔ s.isPoison q = true ∨ q / 32 = pa / 32)

/-- R115 to R122, with log entry 64: the item at HEAD of LAUNCH is taken once every crew of the voyages so far is placed; a record
that meets every limit becomes a voyage, and any other is rejected with the code and offset of the first that it fails, in a
LAUNCH_REJECT event; crews that are due (flushed ones first and alone, log 64) are placed together in their launch state. -/
def Sys2Proof.Rules.Launch : Prop :=
  (∀ (s : State) (n : Nat) (x : Queue) (l : Leaf),
    let c := s.ctx n
    let item := s.rdBytes l.pa (16 * 2 ^ x.isz)
    let a := recField item 0 8
    c.st = .created ∨ c.st = .active → c.suspending = none → (∀ v ∈ c.voyages, v.st ≠ .placing) → c.take = none →
    c.queue? 0 = some x → x.st = .opened → x.head < x.tail → DevOk s n (x.slotVa x.head) (16 * 2 ^ x.isz) XReq.ringRead l →
    let rejected := fun (why : Nat × Nat) =>
      ∃ t, exec (.launchTake n) s = .next t ∧ (t.ctx n).st = c.st ∧ (t.ctx n).voyages = c.voyages ∧
        t.queue? n 0 = some { x with head := x.head + 1 } ∧
        ∀ y k, EventReady s n y k → EventPosted s t n y k 2 (rejectBody item why)
    (a % 128 ≠ 0 ∨ 2 ^ 57 ≤ a → rejected (2, 0xFF)) ∧
    (∀ m, a % 128 = 0 → a < 2 ^ 57 → DevOk s n a 128 XReq.devRead m →
      let bs := s.rdBytes m.pa 128
      (LaunchOk item bs c.sector →
        ∃ t, exec (.launchTake n) s = .next t ∧ (t.ctx n).st = .active ∧ t.queue? n 0 = some { x with head := x.head + 1 } ∧
          (t.ctx n).nextVoy = (if c.nextVoy + 1 = 2 ^ 32 then 1 else c.nextVoy + 1) ∧
          (t.ctx n).voyages = c.voyages ++
            [{ num := c.nextVoy, recAddr := BitVec.ofNat 64 a, launch := launchOf bs, arg := BitVec.ofNat 64 (recField item 8 8),
               st := .placing, placed := 0, again := [], exited := 0, retired := 0, isPartial := false,
               heap := List.replicate 8 0 }] ∧ t.mem = s.mem ∧ t.crews = s.crews) ∧
      (∀ why, LaunchFails item bs c.sector why → why.1 ≠ 0 → rejected why))) ∧
  (∀ (s s2 : State) (n voy : Nat) (v : Voyage) (cs : List Nat) (places : List (Nat × Nat)),
    let s1 := s.pruneFlushed
    (s.ctx n).st = .active → (s.ctx n).suspending = none → (s.ctx n).voyage? voy = some v → s1.dueCrews n v = cs → cs ≠ [] →
    cs.length = places.length →
    (v.launch.persistent = true ∨ ∀ p ∈ places, p.1 / 96 = (places.headD (0, 0)).1 / 96) →
    State.placeAll n v (List.zipWith (fun c p => (c, p.1, p.2)) cs places) s1 = some s2 →
    (∀ k ∈ cs, s1.crew? { ctx := n, voy := voy, crew := k } = none) →
    ∃ t, exec (.convoyPlace n voy places) s = .next t ∧
      (∀ (i k : Nat) (p : Nat × Nat), cs[i]? = some k → places[i]? = some p →
        ∃ x, t.crew? { ctx := n, voy := voy, crew := k } = some x ∧ x.core = p.1 ∧ x.quad = p.2 ∧ Fresh v.launch v.arg x) ∧
      (v.again = [] → (t.ctx n).voyage? voy =
        some { v with placed := v.placed + 1, st := if v.placed + 1 = v.convoys then .running else .placing }))

/-- R103, R124, R125, R139 and Table 5.1: a crew whose warps have exited and whose batches are complete retires; with the last crew
of a voyage the voyage ends, with its VOYAGE_DONE event, and a context with no voyage and an empty LAUNCH queue is CREATED; a
drain ends with its PREEMPT event. -/
def Sys2Proof.Rules.Retirement : Prop :=
  (∀ (s : State) (r : CrewRef) (c : Crew) (v : Voyage), s.crew? r = some c → c.run = .placed →
    (∀ w ∈ c.warps, w.exited = true ∧ w.batches = []) → (s.ctx r.ctx).voyage? r.voy = some v →
    (v.retired + 1 ≠ v.launch.crews →
      ∃ t, exec (.crewRetire r) s = .next t ∧ t = { s with crews := t.crews, ctxs := t.ctxs } ∧ t.crew? r = none ∧
        (∀ q, q ≠ r → t.crew? q = s.crew? q) ∧
        (t.ctx r.ctx).voyage? r.voy = some { v with exited := v.exited + 1, retired := v.retired + 1 }) ∧
    (v.retired + 1 = v.launch.crews → v.st = .running →
      ∃ t, exec (.crewRetire r) s = .next t ∧ t.crew? r = none ∧ (t.ctx r.ctx).voyage? r.voy = none ∧
        (∀ y k, EventReady s r.ctx y k → EventPosted s t r.ctx y k 1 (doneBody v (v.exited + 1))) ∧
        (∀ x, (s.ctx r.ctx).st = .active → (∀ u ∈ (s.ctx r.ctx).voyages, u.num = r.voy) →
          s.queue? r.ctx 0 = some x → x.head = x.tail → (t.ctx r.ctx).st = .created))) ∧
  (∀ (s : State) (r : CrewRef) (c : Crew) (p : Preempt) (y : Queue) (k : Leaf), s.crew? r = some c → c.ref = r →
    c.run = .draining → c.preempt = some p → (∀ w ∈ c.warps, w.exited = true) → (∃ w ∈ c.warps, w.batches ≠ []) →
    EventReady s r.ctx y k →
    ∃ t, exec (.crewRetire r) s = .next t ∧ t.crew? r = some { c with run := .placed, preempt := none } ∧
      EventPosted s t r.ctx y k 3 (preemptBody r p p.option 0))

/-- R115 to R125: launch records are taken, crews are placed and retire, and voyages end. Log entry 64: which crews are due first. -/
def Obligations.VoyagesBeginAndEnd : Prop := Rules.Launch ∧ Rules.Retirement

/-- R35, R102 to R105, R129, R139, R140, R159 and R204: the pre-emption of a crew takes the first of drain, save and flush whose
estimate its bound allows; a crew that halts goes back to the starts of its chunks, its parked strands PARKED, and is saved,
flushed with a PREEMPT record and one LOST_DETAIL for each item that it held, none of which is dropped, or discarded; its image
goes to the locker or to memory with a PREEMPT record, and it is restored with the registers that it had, POISON where the image
holds a reserved tag. -/
def Obligations.Preemption : Prop :=
  (∀ (s : State) (h : CmdHdr) (a : PreemptArgs) (c : Crew) (v : Voyage),
    let r : CrewRef := { ctx := a.ctx.toNat, voy := a.voy.toNat, crew := a.crew.toNat }
    let b := a.b.toNat
    let left := 1000 * c.launch.drain - (c.ran + (s.ns - c.since))
    let half := if s.lockerFree c.core then 3 else 24
    let saves := SavesWithin half (imageBytes c.launch) b
    let drains := c.launch.drainValid = true ∧ left ≤ b
    let flushes := (c.launch.restartable = true ∨ c.committed = false) ∧ 500 ≤ b
    Allowed h r.ctx → (s.ctx r.ctx).voyage? r.voy = some v → r.crew < v.launch.crews → s.crew? r = some c → c.run = .placed →
    (s.ctx r.ctx).st = .active →
    ∃ t x p, exec (.crewPreempt h a) s = .next t ∧ t = { s with crews := t.crews, funcs := t.funcs } ∧
      Logs s t h 7 (atOnceWith []) ∧ t.crew? r = some x ∧ x = { c with run := x.run, preempt := some p } ∧
      (∀ q, q ≠ r → t.crew? q = s.crew? q) ∧ p.bound = b ∧
      (drains → x.run = .draining ∧ p.option = 0 ∧ p.missed = false ∧ p.estimate = left) ∧
      (¬ drains → saves → x.run = .halting false ∧ p.option = 1 ∧ p.missed = false) ∧
      (¬ drains → ¬ saves → flushes → x.run = .halting true ∧ p.option = 3 ∧ p.missed = false ∧ p.estimate = 500) ∧
      (¬ drains → ¬ saves → ¬ flushes → x.run = .halting false ∧ p.option = 1 ∧ p.missed = true) ∧
      (p.option = 1 → SavesWithin half (imageBytes c.launch) p.estimate ∧
        ∀ e, e < p.estimate → ¬ SavesWithin half (imageBytes c.launch) e)) ∧
  (∀ (s : State) (r : CrewRef) (c : Crew) (flush : Bool), s.crew? r = some c → c.ref = r → c.run = .halting flush → Settled s r →
    (s.ctx r.ctx).suspending = none →
    ((s.ctx r.ctx).st = .active → flush = false →
      ∃ t x, exec (.quadrantHaltDone r) s = .next t ∧ t.crew? r = some x ∧ x.run = .saving ∧ t.mem = s.mem ∧
        ∀ y u, y.w.crew = r → y.strand < 4 → s.strand? y = some u →
          ∃ w, t.strand? y = some w ∧ w.chunk = Chunk.none ∧ w.earlier = [] ∧ w.pends = [] ∧
            imageWait s r.ctx u.wait = some w.wait ∧ w.core = imageCore u) ∧
    (∀ v, (s.ctx r.ctx).st = .active → flush = true → (s.ctx r.ctx).voyage? r.voy = some v →
      let held := c.warps.flatMap (·.held)
      ∃ t x u, exec (.quadrantHaltDone r) s = .next t ∧ t.crew? r = some x ∧ x.run = .flushed ∧ x.bars = [] ∧
        (t.ctx r.ctx).voyage? r.voy = some u ∧ r.crew ∈ u.again ∧ (∀ w ∈ x.warps, w.held = [] ∧ w.batches = []) ∧
        (∀ p y k, c.preempt = some p → held = [] → EventReady s r.ctx y k →
          EventPosted s t r.ctx y k 3 (preemptBody r p 3 0)) ∧
        (∀ p, c.preempt = some p → held ≠ [] → s.roomIn r.ctx 1 = false →
          t.queue? r.ctx 1 = s.queue? r.ctx 1 ∧
          (t.ctx r.ctx).store = (s.ctx r.ctx).store ++
            eventBytes 3 false (s.ctx r.ctx).evSeq s.ns (preemptBody r p 3 held.length) ::
              held.zipIdx.map (fun h => eventBytes 6 false ((s.ctx r.ctx).evSeq + 1 + BitVec.ofNat 32 h.2) s.ns
                (heldBody r h.1)))) ∧
    ((s.ctx r.ctx).st = .faulted →
      ∃ t, exec (.quadrantHaltDone r) s = .next t ∧
        (∀ x, t.crew? r = some x → x.run = .flushed ∧ ∀ w ∈ x.warps, w.exited = true ∧ w.held = []) ∧
        ∀ q z, s.queue? r.ctx q = some z → ∃ y, t.queue? r.ctx q = some y ∧
          ∀ w ∈ c.warps, ∀ h ∈ w.held, h.q = q → h.pos ∈ y.lost)) ∧
  (∀ (s : State) (r : CrewRef) (c : Crew), s.crew? r = some c → c.ref = r → c.run = .saving → (s.ctx r.ctx).suspending = none →
    let told := fun (t : State) (option : Nat) => ∀ p y k, c.preempt = some p → EventReady s r.ctx y k →
      EventPosted s t r.ctx y k 3 (preemptBody r p option 0)
    (s.lockerFree c.core = true →
      ∃ t x, exec (.crewSaveDone r) s = .next t ∧ t.crew? r = some x ∧ x.run = .locker c.core ∧ x.preempt = none ∧ told t 1) ∧
    (s.lockerFree c.core = false →
      Config.swapDue s.free = false ∨ (∀ y ∈ s.crews, y.run = .locker c.core → (s.ctx y.ref.ctx).st ≠ .active) →
      ∃ t x, exec (.crewSaveDone r) s = .next t ∧ t.crew? r = some x ∧ x.run = .memory ∧ x.preempt = none ∧ told t 2)) ∧
  (∀ (s : State) (i : SavedCrew) (c : Crew) (core quad : Nat),
    let r := i.crew
    s.pruneFlushed.crew? r = some c → (s.ctx r.ctx).st = .active → (s.ctx r.ctx).suspending = none →
    (∀ slots, (c.run = .memory ∨ c.run = .locker core) → s.pruneFlushed.roomOn r.ctx core quad c.launch = some slots →
      ∃ t x, exec (.crewRestore i core quad) s = .next t ∧ t.crew? r = some x ∧ x.run = .placed ∧ x.core = core ∧
        x.quad = quad ∧ x.mem = c.mem ∧ x.bars = c.bars ∧
        ∀ (j : Nat) (w : Warp), c.warps[j]? = some w →
          ∃ u, x.warps[j]? = some u ∧
            u = { w with slot := u.slot, strands := u.strands, vregs := u.vregs, gregs := u.gregs } ∧
            (∀ k y, w.strand? k = some y → ∃ z, u.strand? k = some z ∧ z.core = y.core ∧
              z.wait = (match y.wait with | .fault _ _ => .restored none | x => x)) ∧
            (∀ k : Fin 256, u.vregs[k.val]? = (w.vregs[k.val]?).map (fun v =>
              if (w.id, VReg.v k) ∈ i.bad then { v with tag := .poison } else v)) ∧
            (∀ k : Fin 64, u.gregs[k.val]? = (w.gregs[k.val]?).map (fun v =>
              if (w.id, VReg.g k) ∈ i.bad then { v with tag := .poison } else v))) ∧
    (∀ k, c.run = .locker k → k ≠ core →
      ∃ t x, exec (.crewRestore i core quad) s = .next t ∧ t.crew? r = some x ∧ x = { c with run := .memory }))

/-- R87, R92, R111, R112 and Table 5.1, with log entries 49, 50, 51 and 53: the management commands of contexts and cores. A context
with no crew on a quadrant is SUSPENDED at once and writes no PREEMPT record (log 50); destruction leaves crew memory to the
commands that still use it, and completes once nothing of the context is under way (log 51); LOSS_ACK leads to CREATED where no
voyage is left (log 53); CORE_RESET ends the copies that its engine holds for crews that are elsewhere. -/
def Sys2Proof.Rules.Contexts : Prop :=
  (∀ (s : State) (h : CmdHdr) (a : CtxCreateArgs) (b : Nat),
    let n := a.ctx.toNat
    let s1 := s.modCtx n (fun _ =>
      { Ctx.empty n with sector := b, root := a.root.toNat, ovf := a.ovf.toNat, ovfn := a.ovfn.toNat })
    AllowedPf h → n < 64 → (s.ctx? n).isSome = true → (s.ctx n).st = .empty → s.bitmap? a.sector.toNat = some b → b ≠ 0 →
    a.sector.toNat % 64 = 0 → a.root.toNat % 4096 = 0 → a.ovf.toNat % 4096 = 0 → 1 ≤ a.ovfn.toNat → a.ovfn.toNat ≤ 2 ^ 20 →
    a.wqn.toNat ≤ 253 → a.qrec.toNat % 64 = 0 → a.wrec.toNat % 64 = 0 → (a.wqn = 0 → a.wrec = 0) →
    (∀ q va, (q, va) ∈ createRecords a → (s1.configOf n q q va).isSome = true) →
    ∃ t, exec (.ctxCreate h a) s = .next t ∧ Logs s t h 1 (atOnceWith []) ∧ (t.ctx n).st = .created ∧ (t.ctx n).sector = b ∧
      (t.ctx n).root = a.root.toNat ∧ (t.ctx n).ovf = a.ovf.toNat ∧ (t.ctx n).ovfn = a.ovfn.toNat ∧
      (t.ctx n).watchdog = 0 ∧ (t.ctx n).voyages = [] ∧ (∀ m, m ≠ n → t.ctx m = s.ctx m) ∧
      ∀ q va, (q, va) ∈ createRecords a → ∃ x, t.queue? n q = some x ∧ x.recAddr = va ∧
        (x.st = .error ∨ x.st = if q < 3 then .opened else .configured)) ∧
  (∀ (s : State) (h : CmdHdr) (ctx : BitVec 16),
    let n := ctx.toNat
    let x := s.ctx n
    Allowed h n →
    (x.st = .active → x.suspending = none → (∃ r c, r.ctx = n ∧ s.crew? r = some c ∧ c.run = .placed) →
      ∃ t, exec (.ctxSuspend h ctx) s = .next t ∧ Logs s t h 2 [(0, 0, [])] ∧
        t.ctx n = { x with suspending := some (h.func, h.tag) } ∧
        (∀ r c, s.crew? r = some c → r.ctx = n → c.run = .placed ∨ c.run = .draining →
          t.crew? r = some { c with run := .halting false, preempt := none, suspended := true }) ∧
        (∀ r, r.ctx ≠ n → t.crew? r = s.crew? r) ∧ t = { s with ctxs := t.ctxs, crews := t.crews, funcs := t.funcs }) ∧
    (x.st = .active → x.suspending = none → (∀ c ∈ s.crews, c.ref.ctx = n → c.onQuad = false) →
      ∃ t, exec (.ctxSuspend h ctx) s = .next t ∧ Logs s t h 2 (atOnceWith []) ∧ t.ctx n = { x with st := .suspended }) ∧
    (x.st = .suspended → CtxBecomes s (.ctxResume h ctx) h 3 n (atOnceWith []) { x with st := .active }) ∧
    (Exists s n →
      (∀ us, CtxBecomes s (.watchdogSet h ctx us) h 8 n (atOnceWith []) { x with watchdog := us.toNat }) ∧
      (∃ t, exec (.ctxDestroy h ctx) s = .next t ∧ Logs s t h 4 [(0, 0, [])] ∧ (t.ctx n).st = .destroyed ∧
        (t.ctx n).destroy = some (h.func, h.tag) ∧ (t.ctx n).voyages = [] ∧
        (∀ c ∈ t.crews, c.ref.ctx = n → c.running = false ∧ ∀ w ∈ c.warps, w.exited = true ∧ w.held = [] ∧ w.batches = []) ∧
        (∀ q z, x.queue? q = some z → z.st ≠ .free → ∃ y, t.queue? n q = some y ∧ y.st = .closed) ∧
        ∀ m, m ≠ n → t.ctx m = s.ctx m)) ∧
    (x.suspending.isSome = true → RejectsWith s (.ctxSuspend h ctx) h 2 1) ∧
    (∀ (readmit : W64) (keep : Nat), x.st = .lost → readmit.toNat % 64 = 0 →
      (if readmit = 0 then keep = 0 else s.bitmap? readmit.toNat = some keep) →
      ∃ y, CtxBecomes s (.lossAck h ctx readmit) h 5 n (atOnceWith []) y ∧
        y.st = (if x.voyages = [] then .created else .active) ∧ y.resets = [] ∧
        (∀ i, y.sector.testBit i = (x.sector.testBit i && !(decide (i ∈ x.resets) && !(keep.testBit i)))) ∧
        (∀ q z, x.queue? q = some z → y.queue? q = some { z with lost := [] }))) ∧
  (∀ (s : State) (n func : Nat) (tag : BitVec 32), (s.ctx n).st = .destroyed → (s.ctx n).destroy = some (func, tag) →
    s.scrubbed n = true →
    ∃ t, exec (.ctxScrubDone n) s = .next t ∧ t.ctx n = Ctx.empty n ∧ (∀ e ∈ t.tlb, e.ctx ≠ n) ∧ (∀ e ∈ t.walks, e.ctx ≠ n) ∧
      (∀ c ∈ t.cmds, c.ctx ≠ n) ∧ (∀ c ∈ t.crews, c.ref.ctx ≠ n) ∧ (∀ p ∈ t.peers, p.ctx ≠ n) ∧
      Logs s t { func := func, tag := tag, clean := true } 4 [(2, 0, [])] ∧ ∀ m, m ≠ n → t.ctx m = s.ctx m) ∧
  (∀ (s : State) (h : CmdHdr) (core : BitVec 16), AllowedPf h → core.toNat < 768 →
    let there := fun (c : Crew) => (c.onQuad = true ∧ c.core = core.toNat) ∨ c.run = .locker core.toNat
    ∃ t, exec (.coreReset h core) s = .next t ∧ Logs s t h 6 (atOnceWith []) ∧ (∀ c ∈ t.crews, ¬ there c) ∧
      (∀ x ∈ t.cmds, x.kind.cls = 1 → x.core = core.toNat → x.lost = true) ∧ (∀ x ∈ t.caches.l1, x.core ≠ core.toNat) ∧
      (∀ c ∈ s.crews, there c → (∀ d ∈ s.crews, d.ref = c.ref → d.run ≠ .flushed) → (s.ctx c.ref.ctx).st = .active →
        (t.ctx c.ref.ctx).st = .lost) ∧
      ∀ m, (∀ c ∈ s.crews, there c → c.ref.ctx ≠ m) → t.ctx m = s.ctx m)

/-- R425 to R427: a command with a bit set that must be zero is BAD_CMD, one on another function's context is DENIED, a context
number above 63 is BAD_OPERAND, and a context that does not exist is WRONG_STATE (for WATCHDOG_SET by log entry 49); a code that
Table 23.3 lacks is BAD_CMD. -/
def Sys2Proof.Rules.RejectedCommands : Prop :=
  (∀ (s : State) (h : CmdHdr) (ctx : BitVec 16) (us : BitVec 32),
    ∀ p ∈ [(Instr.ctxResume h ctx, 3), (.ctxDestroy h ctx, 4), (.watchdogSet h ctx us, 8)],
      (h.clean = false → RejectsWith s p.1 h p.2 6) ∧
      (h.clean = true → h.func ≠ 0 → ctx.toNat ≠ h.func → RejectsWith s p.1 h p.2 5) ∧
      (h.clean = true → h.func = 0 → 64 ≤ ctx.toNat → RejectsWith s p.1 h p.2 7) ∧
      (Allowed h ctx.toNat → ¬ Exists s ctx.toNat → RejectsWith s p.1 h p.2 1)) ∧
  (∀ (s : State) (h : CmdHdr) (code : BitVec 16), RejectsWith s (.unlistedCommand h code) h code.toNat 6)

/-- R87, R92, R112 and R425 to R427: the management commands of contexts and cores, and the commands that are rejected. Log entries 49, 50, 51 and 53: the readings of the model. -/
def Obligations.ContextCommands : Prop := Rules.Contexts ∧ Rules.RejectedCommands

/-- R126 to R130, R430 and Table 7.2, with log entries 52 and 65: the management commands of queues, with the record written at
each change of state; a query of a FREE queue returns its number and zeros (log 52); QUEUE_CONFIG reads the whole record (log
65). -/
def Sys2Proof.Rules.QueueCommands : Prop :=
  (∀ (s : State) (h : CmdHdr) (ctx : BitVec 16) (q : BitVec 8) (x : Queue) (l : Leaf),
    let n := ctx.toNat
    s.memWf = true → Allowed h n → Exists s n → s.queue? n q.toNat = some x → RecordOk s n q.toNat x 11 21 l →
    (x.st = .configured → QueueBecomes s (.queueOpen h ctx q) h 0x11 n q.toNat { x with st := .opened } l) ∧
    (x.st = .opened → x.head < x.tail → QueueBecomes s (.queueClose h ctx q) h 0x12 n q.toNat { x with st := .closing } l) ∧
    (x.st = .opened → x.tail ≤ x.head → QueueBecomes s (.queueClose h ctx q) h 0x12 n q.toNat { x with st := .closed } l) ∧
    (x.st = .configured → x.waiters = [] →
      QueueBecomes s (.queueFree h ctx q) h 0x13 n q.toNat { x with st := .free } l) ∧
    (x.st = .closed ∨ x.st = .error → x.waiters = [] → QueueBecomes s (.queueReset h ctx q) h 0x14 n q.toNat
      { x with st := .configured, err := 0, tail := 0, head := 0, drops := 0, defers := 0, fulls := 0, lost := [] } l)) ∧
  (∀ (s : State) (h : CmdHdr) (ctx : BitVec 16) (q : BitVec 8),
    let n := ctx.toNat
    Allowed h n →
    ∀ p ∈ [(Instr.queueOpen h ctx q, 0x11, [QSt.configured]), (.queueClose h ctx q, 0x12, [.opened]),
        (.queueFree h ctx q, 0x13, [.configured]), (.queueReset h ctx q, 0x14, [.closed, .error])],
      (¬ Exists s n ∨ (∀ x, s.queue? n q.toNat = some x → x.st ∉ p.2.2 ∧ (p.2.1 = 0x12 → x.st ≠ .closing))) →
      RejectsWith s p.1 h p.2.1 1) ∧
  (∀ (s : State) (h : CmdHdr) (ctx : BitVec 16) (q : BitVec 8) (rec : W64) (l : Leaf),
    let n := ctx.toNat
    Allowed h n → rec.toNat % 64 = 0 →
    (∀ x, s.memWf = true → Exists s n → s.queueSt n q.toNat = .free →
      s.configOf n q.toNat (s.ctx n).nextConf rec.toNat = some x → RecordOk s n q.toNat x 11 21 l →
      x.st = .configured ∧ x.tail = 0 ∧ x.head = 0 ∧ x.recAddr = rec.toNat ∧
        QueueBecomes s (.queueConfig h ctx q rec) h 0x10 n q.toNat x l) ∧
    (¬ Exists s n ∨ s.queueSt n q.toNat ≠ .free → RejectsWith s (.queueConfig h ctx q rec) h 0x10 1) ∧
    (Exists s n → s.queueSt n q.toNat = .free → s.configOf n q.toNat (s.ctx n).nextConf rec.toNat = none →
      RejectsWith s (.queueConfig h ctx q rec) h 0x10 2)) ∧
  (∀ (s : State) (h : CmdHdr) (ctx : BitVec 16) (q : BitVec 8),
    let n := ctx.toNat
    Allowed h n → Exists s n →
    (s.queueSt n q.toNat = .free →
      ∃ t, exec (.queueQuery h ctx q) s = .next t ∧ t = { s with funcs := t.funcs } ∧
        Logs s t h 0x15 (atOnceWith [(18, 1, q.toNat)])) ∧
    (∀ x, s.queue? n q.toNat = some x → x.st ≠ .free →
      let bs := bytesOf 1 x.st.code ++ bytesOf 4 x.err ++ bytesOf 8 x.tail ++ bytesOf 8 x.head ++
        bytesOf 4 x.drops ++ bytesOf 4 x.defers ++ bytesOf 4 x.fulls
      let res := [(18, 1, q.toNat), (20, 1, queueKind q.toNat), (21, 1, x.isz), (22, 1, x.logcap), (23, 33, ofBytes bs)]
      (x.recDead = true →
        ∃ t, exec (.queueQuery h ctx q) s = .next t ∧ t = { s with funcs := t.funcs } ∧ Logs s t h 0x15 (atOnceWith res)) ∧
      (∀ l, s.memWf = true → RecordOk s n q.toNat x 11 33 l →
        ∃ t, exec (.queueQuery h ctx q) s = .next t ∧ Logs s t h 0x15 (atOnceWith res) ∧ t.rdBytes l.pa 33 = bs ∧
          t.ctxs = s.ctxs)))

/-- R132, R133, R138, R140, R141 and R471, with log entry 48: host enqueues, with DROPS and DEFERS of those that are not made, the
apertures of the record queues, and the posting of kept EVENT records (whose OVF is that due when they are posted, log 48) and
of FAULT records. -/
def Sys2Proof.Rules.QueueTraffic : Prop :=
  (∀ (s : State) (n : Nat) (b : List Byte) (rest : List (List Byte)) (x : Queue) (l : Leaf), s.memWf = true → NoPins s →
    (s.ctx n).store = b :: rest → (s.ctx n).blocked = [] → s.queue? n 1 = some x → x.st = .opened →
    x.tail - x.head < x.capacity → b.length = 64 → DevOk s n (x.slotVa x.tail) 64 (XReq.ringWrite .engine) l →
    ∃ t, exec (.eventStorePost n) s = .next t ∧ (t.ctx n).store = rest ∧ t.queue? n 1 = some { x with tail := x.tail + 1 } ∧
      t.rdBytes l.pa 64 = b.take 2 ++ bytesOf 1 (bit (s.ctx n).evOvf) ++ b.drop 3) ∧
  (∀ (s : State) (n : Nat) (f : FaultRec) (x : Queue) (l : Leaf), s.memWf = true → NoPins s →
    (s.ctx n).faults.find? (fun f => !f.posted) = some f → s.queue? n 2 = some x → x.st = .opened →
    x.tail - x.head < x.capacity → DevOk s n (x.slotVa x.tail) 64 (XReq.ringWrite .engine) l →
    ∃ t, exec (.faultRecordPost n) s = .next t ∧ t.queue? n 2 = some { x with tail := x.tail + 1 } ∧
      (∃ g ∈ (t.ctx n).faults, g.id = f.id ∧ g.posted = true) ∧ t.rdBytes l.pa 64 = faultBytes f) ∧
  (∀ (s : State) (n : Nat) (x : Queue), s.queue? n 2 = some x → x.st ≠ .opened ∨ x.capacity ≤ x.tail - x.head →
    exec (.faultRecordPost n) s = .next s) ∧
  (∀ (s : State) (n q : Nat) (x : Queue) (k : HostKind) (data : List Byte), HostFree s n → Exists s n →
    q = 0 ∨ (3 ≤ q ∧ q < 256) → k ≠ .read → data.length = 64 → s.queue? n q = some x → x.isz ≤ 2 →
    let notMade := fun (off : Nat) (resp : HostResp) (defers : Nat) =>
      ∃ t y, exec (.hostEnqueue n q k off data) s = .next t ∧
        t.resp = some (if k = .deferrable then resp else .dropped) ∧ t.queue? n q = some y ∧ y.tail = x.tail ∧
        y.head = x.head ∧
        y.drops = (if k = .deferrable then x.drops else (x.drops + 1) % 2 ^ 32) ∧
        y.defers = (if k = .deferrable then (x.defers + defers) % 2 ^ 32 else x.defers) ∧
        ∀ l, RecordOk s n q x (if k = .deferrable then 36 else 32) 4 l → y.st = x.st ∧
          (defers = 1 ∨ k ≠ .deferrable → t.rdNat l.pa 4 = if k = .deferrable then y.defers else y.drops)
    x.defers < 2 ^ 32 →
    (x.st = .opened → s.isFull n q x = false →
      (∀ l, DevOk s n (x.slotVa x.tail) (16 * 2 ^ x.isz) (XReq.ringWrite .engine) l →
        ∃ t, exec (.hostEnqueue n q k 0 data) s = .next t ∧ t.resp = some .successful ∧
          t.queue? n q = some { x with tail := x.tail + 1 } ∧
          t.rdBytes l.pa (16 * 2 ^ x.isz) = data.take (16 * 2 ^ x.isz)) ∧
      (∀ r, s.translate n (x.slotVa x.tail) (XReq.ringWrite .engine) = .error (.fault r false) →
        notMade 0 .deferred 1)) ∧
    (x.st = .opened ∧ s.isFull n q x = true ∨ x.st = .closing → notMade 0 .deferred 1) ∧
    (x.st ∈ [QSt.configured, .closed, .error] → notMade 0 .unsupported 0) ∧
    (∀ off, 0 < off → off < 64 → x.st ≠ .free → notMade off .unsupported 0) ∧
    (∀ off, 64 ≤ off → Answers s (.hostEnqueue n q k off data) (if k = .deferrable then .unsupported else .dropped)) ∧
    (x.st = .free → Answers s (.hostEnqueue n q k 0 data) (if k = .deferrable then .unsupported else .dropped))) ∧
  (∀ (s : State) (n q : Nat) (x : Queue), s.hostBusy n = false → Exists s n → q = 1 ∨ q = 2 → s.queue? n q = some x → x.st ≠ .free →
    (∀ (k : HostKind) (head : W64), k ≠ .read → x.head ≤ head.toNat → head.toNat ≤ x.tail → x.st = .opened →
      ∃ t, exec (.hostHeadWrite n q k head) s = .next t ∧ t = { s with ctxs := t.ctxs, resp := some .successful } ∧
        t.queue? n q = some { x with head := head.toNat }) ∧
    (∀ (k : HostKind) (head : W64), k ≠ .read → head.toNat < x.head ∨ x.tail < head.toNat →
      Answers s (.hostHeadWrite n q k head) .successful) ∧
    (∀ head, Answers s (.hostHeadWrite n q .read head) (.data (bytesOf 8 x.head))) ∧
    Answers s (.apertureOtherAccess n q .read 0x40) (.data (bytesOf 8 x.head)) ∧
    Answers s (.apertureOtherAccess n q .read 0x48) (.data (bytesOf 8 x.tail)) ∧
    (∀ off, Answers s (.apertureOtherAccess n q .posted off) .dropped ∧
      Answers s (.apertureOtherAccess n q .deferrable off) .unsupported))

/-- R126 to R133, R138, R140, R141 and R430: the management commands of queues, host enqueues, and the posting of records. Log entries 48, 52 and 65: the readings of the model. -/
def Obligations.QueueCommandsAndTraffic : Prop := Rules.QueueCommands ∧ Rules.QueueTraffic

/-- R219, R423 and R110: the host's reads and writes through its window; a write enters G line by line, each line one event, up
to the first that faults. That the completion of a write is dropped with its lines is the model's reading (log 42). -/
def Sys2Proof.Rules.HostWindow : Prop :=
  (∀ (s : State) (f len : Nat) (off : W64) (tr : Nat → Leaf),
    let va := (s.ctx f).hwb + off.toNat
    s.hostBusy f = false → (s.ctx f).hwb < 2 ^ 57 →
    (Exists s f → off.toNat + len ≤ 2 ^ 36 → (∀ n, InRequest va len n → LineOk s f va XReq.hostRead tr n) →
      ∃ t, exec (.hostWindowRead f off len) s = .next t ∧
        t = { s with tlb := t.tlb, walks := t.walks, caches := t.caches, resp := t.resp, free := s.free + 1 } ∧
        ((∀ x ∈ hostBytes s va len tr, x.isSome = true) → t.resp = some (.data ((hostBytes s va len tr).filterMap id))) ∧
        (none ∈ hostBytes s va len tr → t.resp = some (.poisoned (hostBytes s va len tr)))) ∧
    ((∃ n, InRequest va len n ∧ LineFaults s f va XReq.hostRead n) ∨ ¬ Exists s f ∨ 2 ^ 36 < off.toNat + len →
      Answers s (.hostWindowRead f off len) .unsupported)) ∧
  (∀ (s : State) (f : Nat) (off : W64) (data : List Byte), s.hostHeld f = false →
    (Exists s f → off.toNat + data.length ≤ 2 ^ 36 → data ≠ [] → ∀ k, k ≠ .read →
      ∃ (t : State) (h : HostLines), exec (.hostWindowWrite f k off data) s = .next (if s.hostBusy f then t else t.hostLine f) ∧
        t = { s with hostw := s.hostw ++ [h], nextCmd := s.nextCmd + 1 } ∧ h.id = s.nextCmd ∧ h.func = f ∧ h.kind = k ∧
        SplitsInto ((s.ctx f).hwb + off.toNat) data h.lines) ∧
    (¬ Exists s f ∨ 2 ^ 36 < off.toNat + data.length →
      Answers s (.hostWindowWrite f .deferrable off data) .unsupported ∧ Answers s (.hostWindowWrite f .posted off data) .dropped)) ∧
  (∀ (s : State) (h : HostLines) (va : Nat) (bs : List Byte) (rest : List (Nat × List Byte)), NextLine s h va bs rest →
    (∀ l, Exists s h.func → va < 2 ^ 57 → s.translate h.func va XReq.hostWrite = .ok l →
      ∃ t, s.doMove (.hostLine h.func) = .next t ∧ LineEntered s t h bs rest l) ∧
    (¬ Exists s h.func ∨ (va < 2 ^ 64 ∧ 2 ^ 57 ≤ va) ∨ (∃ e, va < 2 ^ 57 ∧ s.translate h.func va XReq.hostWrite = .error e) →
      ∃ t, s.doMove (.hostLine h.func) = .next t ∧ t.resp = some .dropped ∧
        t = { s with tlb := t.tlb, walks := t.walks, fences := t.fences, resp := t.resp, hostw := t.hostw } ∧
        ∀ x, x ∈ t.hostw ↔ x ∈ s.hostw ∧ x.id ≠ h.id))

/-- R424, R425 and R429: the registers of the mailbox, the logbook, and writes that are no command. -/
def Sys2Proof.Rules.Mailbox : Prop :=
  ∀ (s : State) (n : Nat) (f : Func), s.funcs[n]? = some f →
    (∀ off, off < 64 →
      Answers s (.mailboxOtherWrite n .deferrable off) .unsupported ∧
      ∃ t, exec (.mailboxOtherWrite n .posted off) s = .next t ∧ t = { s with funcs := t.funcs, resp := some .dropped } ∧
        t.funcs[n]? = some { f with drops := f.drops + 1 } ∧ ∀ m, m ≠ n → t.funcs[m]? = s.funcs[m]?) ∧
    (∀ (off : Nat) (k : HostKind), 64 ≤ off → k ≠ .read → Answers s (.mailboxOtherWrite n k off) .successful) ∧
    Answers s (.mailboxOtherWrite n .read 0x40) (.data (bytesOf 8 f.logseq.toNat)) ∧
    Answers s (.mailboxOtherWrite n .read 0x44) (.data (bytesOf 4 (f.logseq.toNat / 2 ^ 32) ++ bytesOf 4 f.drops.toNat)) ∧
    Answers s (.mailboxOtherWrite n .read 0x48) (.data (bytesOf 4 f.drops.toNat ++ zeroBytes 4)) ∧
    (∀ off, off ≤ 0x38 ∨ (0x4C ≤ off ∧ off + 8 ≤ 0x400000) → Answers s (.mailboxOtherWrite n .read off) (.data (zeroBytes 8))) ∧
    (∀ (i j : Nat) (e : List Byte), i < 65536 → j < 8 → f.log[i]? = some e → e.length = 64 → i < f.logseq.toNat →
      Answers s (.mailboxOtherWrite n .read (0x400000 + (f.logseq.toNat - 1 - i) % 65536 * 64 + 8 * j))
        (.data ((e.drop (8 * j)).take 8)))

/-- R219, R423 to R425 and R429: the host window and the mailbox. Log entry 42: the completion of a write. -/
def Obligations.HostPort : Prop := Rules.HostWindow ∧ Rules.Mailbox

/-- R291, R297 to R299 and R423: HWIN_SET, FRAME_ATTR and range invalidation. -/
def Sys2Proof.Rules.Translations : Prop :=
  (∀ (s : State) (h : CmdHdr) (ctx : BitVec 16) (hwb : W64), Allowed h ctx.toNat → Exists s ctx.toNat →
    hwb.toNat % 2 ^ 36 = 0 → hwb.toNat < 2 ^ 57 →
    CtxBecomes s (.hwinSet h ctx hwb) h 0x23 ctx.toNat (atOnceWith []) { s.ctx ctx.toNat with hwb := hwb.toNat }) ∧
  (∀ (s : State) (h : CmdHdr) (first len : W64) (v : Byte),
    let a := first.toNat
    let n := len.toNat
    let good := v.toNat < 16 ∧ field v.toNat 2 1 ≠ 3 ∧ (v.getLsbD 0 = true → a + n ≤ 2 ^ 48)
    AllowedPf h → a % 4096 = 0 → n % 4096 = 0 → 4096 ≤ n →
    (good →
      ∃ t, exec (.frameAttr h first len v) s = .next t ∧ t = { s with frat := t.frat, tlb := [], funcs := t.funcs } ∧
        Logs s t h 0x22 (atOnceWith []) ∧
        ∀ f, t.frame f = if a ≤ 4096 * f ∧ 4096 * f < a + n then v else s.frame f) ∧
    (¬ good → RejectsWith s (.frameAttr h first len v) h 0x22 3)) ∧
  (∀ (s : State) (h : CmdHdr) (ctx : BitVec 16) (base len : W64), Allowed h ctx.toNat → Exists s ctx.toNat →
    base.toNat % 4096 = 0 → len.toNat % 4096 = 0 → 4096 ≤ len.toNat → base.toNat + len.toNat ≤ 2 ^ 57 →
    ∃ t, exec (.tlbInval h ctx base len) s = .next t ∧
      t = { s with invals := s.invals ++ [{ func := h.func, tag := h.tag, ctx := ctx.toNat, base := base.toNat,
                                            len := len.toNat }], funcs := t.funcs } ∧
      Logs s t h 0x20 [(0, 0, [])]) ∧
  (∀ (s : State) (k : Nat) (i : Inval), s.invals[k]? = some i →
    let uses := fun r => r.w.crew.ctx = i.ctx ∧
      ∃ u, s.strand? r = some u ∧ InUse u i
    ((∃ r, r.strand < 4 ∧ uses r) → exec (.tlbInvalDone k) s = .next s) ∧
    ((∀ r, ¬ uses r) →
      ∃ t, exec (.tlbInvalDone k) s = .next t ∧
        t = { s with tlb := t.tlb, walks := t.walks, invals := s.invals.eraseIdx k, funcs := t.funcs } ∧
        Logs s t { func := i.func, tag := i.tag, clean := true } 0x20 [(2, 0, [])] ∧
        (∀ e, e ∈ t.tlb ↔ e ∈ s.tlb ∧
          ¬ (e.ctx = i.ctx ∧ Covered i (e.page * 4096 / leafBytes e.lvl * leafBytes e.lvl) (leafBytes e.lvl))) ∧
        (∀ e, e ∈ t.walks ↔ e ∈ s.walks ∧ ¬ (e.ctx = i.ctx ∧ Covered i (e.ix * leafBytes e.lvl) (leafBytes e.lvl)))))

/-- R296: REPLAY answers RETRY or FAIL to everything that is attached to a fault record. -/
def Sys2Proof.Rules.Replays : Prop :=
  ∀ (s : State) (h : CmdHdr) (ctx : BitVec 16) (id : BitVec 32),
    let n := ctx.toNat
    Allowed h n → Exists s n →
    ((∀ f ∈ (s.ctx n).faults, f.id ≠ id.toNat) → ∀ a : BitVec 8, a.toNat ≤ 1 → RejectsWith s (.replay h ctx id a) h 0x21 4) ∧
    (∀ a : BitVec 8, 2 ≤ a.toNat → RejectsWith s (.replay h ctx id a) h 0x21 7) ∧
    ∀ f, Outstanding s n f → f.id = id.toNat →
      ((∀ x ∈ f.attached, ∃ r, x = .strand r) →
        (∃ t, exec (.replay h ctx id 0) s = .next t ∧
          t = { s with ctxs := t.ctxs, crews := t.crews, tlb := t.tlb, walks := t.walks, funcs := t.funcs } ∧
          Answered s t h n f ∧ StrandsTold s t f (fun u w _ => { u with wait := w })) ∧
        ((∀ r c, Attached.strand r ∈ f.attached → s.curOf r = some c →
            queueWord ((forgotten s n f).peekWord c.ctx c.t.core.pc) = none) →
          ∃ t, exec (.replay h ctx id 1) s = .next t ∧
            t = { s with ctxs := t.ctxs, crews := t.crews, tlb := t.tlb, walks := t.walks, funcs := t.funcs } ∧
            Answered s t h n f ∧
            StrandsTold s t f (fun u w pf => { u with wait := w, failed := some { pf with reason := f.pf.reason } }))) ∧
      (∀ (r : StrandRef) (c : Cur) (pf : PageFault) (x : Queue), f.attached = [.strand r] → s.curOf r = some c →
        c.t.wait = .fault f.id pf → r.w.crew.ctx = n → r.strand < 4 →
        ∀ (enq : Bool) (o : QueueOps), queueWord ((forgotten s n f).peekWord c.ctx c.t.core.pc) = some (enq, o) →
        s.queue? n o.q.toNat = some x → x.st = .opened ∨ x.st = .closing →
        ∃ t e y, exec (.replay h ctx id 1) s = .next t ∧ t.queue? n o.q.toNat = some y ∧ y.st = .error ∧ y.err = 1 ∧
          GoesOn t c e (answered c o.sd o.p 4 enq)) ∧
      (∀ (c : Cmd) (va : Nat), f.attached = [.cmd c.id] → s.cmd? c.id = some c → c.stall = some (f.id, va) →
        (∃ t, exec (.replay h ctx id 0) s = .next t ∧
          t = { s with ctxs := t.ctxs, cmds := t.cmds, tlb := t.tlb, walks := t.walks, funcs := t.funcs } ∧
          Answered s t h n f ∧ t.cmd? c.id = some { c with stall := none } ∧ ∀ j, j ≠ c.id → t.cmd? j = s.cmd? j) ∧
        (∀ (r : WarpRef) (w : Warp) (b : Batch) (bs : List Batch), c.warp = some r → s.warp? r = some w → c.batch = some b.n →
          w.batches = b :: bs → c.id ∈ b.cmds → b.fault = none → c.abandoned = false → c.lost = false →
          c.done.length ≠ c.kind.units →
          ∃ t u b', exec (.replay h ctx id 1) s = .next t ∧ Answered s t h n f ∧ t.warp? r = some u ∧
            u.batches.head? = some b' ∧ b' = { b with fault := some (f.pf.reason.code, va) } ∧
            ∃ d, t.cmd? c.id = some d ∧ d.abandoned = true ∧ d.stall = none)) ∧
      (∀ (p : PeerCmd), f.attached = [.peer p.id] → s.peer? n p.id = some p → p.ctx = n → p.stall = some f.id →
        ∀ a : BitVec 8, a.toNat ≤ 1 →
        ∃ t, exec (.replay h ctx id a) s = .next t ∧
          t = { s with ctxs := t.ctxs, peers := t.peers, tlb := t.tlb, walks := t.walks, funcs := t.funcs } ∧
          Answered s t h n f ∧ t.peer? n p.id = some { p with stall := none, bad := p.bad || decide (a = 1) }) ∧
      (∀ q x, f.attached = [.enq q] → s.queue? n q = some x → x.st = .opened ∨ x.st = .closing →
        ∃ t y, exec (.replay h ctx id 1) s = .next t ∧ Logs s t h 0x21 (atOnceWith []) ∧ t.queue? n q = some y ∧
          y.st = .error ∧ y.err = 1) ∧
      (∀ q x, f.attached = [.queueRec q x.conf] → s.queue? n q = some x → x.st = .opened ∨ x.st = .closing →
        ∃ t y, exec (.replay h ctx id 1) s = .next t ∧ Logs s t h 0x21 (atOnceWith []) ∧ t.queue? n q = some y ∧
          y.st = .error ∧ y.err = 3 ∧ y.recDead = true ∧ ∀ w ∈ (t.ctx n).recPend, ¬ (w.q = q ∧ w.conf = x.conf))

/-- R291, R296 to R299 and R423: HWIN_SET, FRAME_ATTR, range invalidation and REPLAY. -/
def Obligations.TranslationsAndReplays : Prop := Rules.Translations ∧ Rules.Replays

/-- R414, R415, R420 and R430, Tables 22.1 and 23.6: the states of links, their commands and their events. Which commands a
LINK_QUIESCE waits for, that its completion outlasts the link's other changes, and that LINK_DISABLE acts from every state are the
model's readings (log 54); which counters LINK_ENABLE clears is its reading of Table 23.6 (log 18). -/
def Sys2Proof.Rules.Links : Prop :=
  (∀ (s : State) (h : CmdHdr) (link : BitVec 8) (l : Link), OnLink s h link l →
    let i := link.toNat
    (l.st = .down ∨ l.st = .quiesced ∨ l.st = .failed → LinkBecomes s (.linkEnable h link) h 0x30 i (atOnceWith [])
      { l with st := .training, flitsOut := 0, flitsIn := 0, losses := 0 }) ∧
    (l.st = .active ∨ l.st = .degraded ∨ l.st = .training → RejectsWith s (.linkEnable h link) h 0x30 1) ∧
    (l.st = .active ∨ l.st = .degraded → LinkBecomes s (.linkQuiesce h link) h 0x31 i [(0, 0, [])]
      { l with st := .quiesced, quiesce := l.quiesce ++ [(h.func, h.tag)] }) ∧
    (l.st ≠ .active → l.st ≠ .degraded → RejectsWith s (.linkQuiesce h link) h 0x31 1) ∧
    (∃ t, exec (.linkDisable h link) s = .next t ∧ Logs s t h 0x32 (atOnceWith []) ∧
      LinkMoves s t i l { l with st := .down, lanes := 0 } true) ∧
    (∃ t, exec (.linkQuery h link) s = .next t ∧ t = { s with funcs := t.funcs } ∧
      Logs s t h 0x33 (atOnceWith [(18, 1, i), (19, 1, l.st.code), (20, 1, l.lanes), (21, 1, l.trained),
        (32, 8, l.flitsOut.toNat), (40, 8, l.flitsIn.toNat), (48, 4, l.replays.toNat), (52, 4, l.losses.toNat)]))) ∧
  (∀ (s : State) (h : CmdHdr) (link : BitVec 8), AllowedPf h → 12 ≤ link.toNat →
    RejectsWith s (.linkEnable h link) h 0x30 7 ∧ RejectsWith s (.linkQuiesce h link) h 0x31 7 ∧
      RejectsWith s (.linkDisable h link) h 0x32 7 ∧ RejectsWith s (.linkQuery h link) h 0x33 7) ∧
  (∀ (s : State) (i func : Nat) (tag : BitVec 32) (l : Link) (rest : List (Nat × BitVec 32)), s.links[i]? = some l →
    l.quiesce = (func, tag) :: rest →
    ((∃ c, WaitsOn s i c) → exec (.linkQuiesceDone i) s = .next s) ∧
    ((∀ c, ¬ WaitsOn s i c) → LinkBecomes s (.linkQuiesceDone i) { func := func, tag := tag, clean := true } 0x31 i
      [(2, 0, [])] { l with quiesce := rest })) ∧
  (∀ (s : State) (i lanes : Nat) (l : Link), s.links[i]? = some l →
    (l.st = .training →
      (∃ t, exec (.linkTrainingDone i 16) s = .next t ∧
        LinkMoves s t i l { l with trained := 16, lanes := 16, st := .active } false) ∧
      (8 ≤ lanes → lanes < 16 → ∃ t, exec (.linkTrainingDone i lanes) s = .next t ∧
        LinkMoves s t i l { l with trained := lanes, lanes := lanes, st := .degraded } false) ∧
      (lanes < 8 → ∃ t, exec (.linkTrainingDone i lanes) s = .next t ∧
        LinkMoves s t i l { l with trained := lanes, lanes := 0, st := .failed } true)) ∧
    (l.st = .active ∨ l.st = .degraded → lanes < l.lanes →
      (lanes < 8 → ∃ t, exec (.linkLaneLoss i lanes) s = .next t ∧
        LinkMoves s t i l { l with losses := l.losses + 1, lanes := 0, st := .failed } true) ∧
      (8 ≤ lanes → l.st = .active → ∃ t, exec (.linkLaneLoss i lanes) s = .next t ∧
        LinkMoves s t i l { l with losses := l.losses + 1, lanes := lanes, st := .degraded } false) ∧
      (8 ≤ lanes → l.st = .degraded → ∃ t, exec (.linkLaneLoss i lanes) s = .next t ∧ t = { s with links := t.links } ∧
        t.links[i]? = some { l with losses := l.losses + 1, lanes := lanes })) ∧
    (l.st = .active ∨ l.st = .degraded → ∃ t, exec (.linkFailure i) s = .next t ∧
      LinkMoves s t i l { l with lanes := 0, st := .failed } true) ∧
    (∀ flits, ∃ t, exec (.linkLevelError i flits) s = .next t ∧ t = { s with links := t.links } ∧
      t.links[i]? = some { l with replays := l.replays + BitVec.ofNat 32 flits } ∧ ∀ j, j ≠ i → t.links[j]? = s.links[j]?))

/-- R416, R417 and Tables 22.2 and 22.3: windows are opened, reset and closed. A window whose close is accepted counts as not
registered for a peer, and BASE lies below 2^57: the model's readings (log 43, log 54). -/
def Sys2Proof.Rules.Windows : Prop :=
  (∀ (s : State) (h : CmdHdr) (a : WinOpenArgs),
    let n := a.ctx.toNat
    Allowed h n → Exists s n → a.rights.toNat < 4 → a.links.toNat < 2 ^ 12 → a.base.toNat % 4096 = 0 → a.base.toNat < 2 ^ 57 →
    a.size.toNat % 4096 = 0 → a.size.toNat ≤ 2 ^ 40 →
    ((s.ctx n).window? a.id.toNat = none →
      CtxBecomes s (.winOpen h a) h 0x34 n (atOnceWith []) { s.ctx n with windows := (s.ctx n).windows ++
        [{ id := a.id.toNat, base := a.base.toNat, size := a.size.toNat, rights := a.rights.toNat, peer := a.peer.toNat,
           links := a.links.toNat, scnt := 0, dcnt := 0, st := .opened, closing := false, closer := none }] }) ∧
    ((s.ctx n).window? a.id.toNat ≠ none → RejectsWith s (.winOpen h a) h 0x34 1)) ∧
  (∀ (s : State) (h : CmdHdr) (ctx : BitVec 16) (id : BitVec 8) (w : Window),
    let n := ctx.toNat
    Allowed h n → Exists s n → WindowsDiffer s n → (s.ctx n).window? id.toNat = some w → w.closing = false →
    (w.st = .frozen → ¬ NoneUp s w.links →
      ∃ t, exec (.winReset h ctx id) s = .next t ∧ Logs s t h 0x35 (atOnceWith []) ∧ t.mem = s.mem ∧
        (t.ctx n).window? id.toNat = some { w with st := .opened, scnt := 0, dcnt := 0 } ∧
        ∀ i, i ≠ id.toNat → (t.ctx n).window? i = (s.ctx n).window? i) ∧
    (w.st = .opened ∨ NoneUp s w.links → RejectsWith s (.winReset h ctx id) h 0x35 1) ∧
    (∃ x, CtxBecomes s (.winClose h ctx id) h 0x36 n [(0, 0, [])] x ∧ x = { s.ctx n with windows := x.windows } ∧
      x.window? id.toNat = some { w with closing := true, closer := some (h.func, h.tag) } ∧
      ∀ i, i ≠ id.toNat → x.window? i = (s.ctx n).window? i)) ∧
  (∀ (s : State) (n win func : Nat) (tag : BitVec 32) (w : Window), (s.ctx n).window? win = some w → w.closing = true →
    w.closer = some (func, tag) →
    ((∃ c, Flies s n win c) → exec (.winCloseDone n win) s = .next s) ∧
    ((∀ c, ¬ Flies s n win c) →
      CtxBecomes s (.winCloseDone n win) { func := func, tag := tag, clean := true } 0x36 n [(2, 0, [])]
        { s.ctx n with windows := (s.ctx n).windows.filter (fun x => x.id != win) }))

/-- R414 to R417, R420 and R430: the states of links with their commands and events, and windows. Log entries 18, 43 and 54: the readings of the model. -/
def Obligations.LinksAndWindows : Prop := Rules.Links ∧ Rules.Windows

/-- R419, R222 and R223: the words of a peer's PUT and GET here, the end of a PUT, which counts once every word of it is made,
and what a peer's answers do to commands of ours. A window whose close is accepted counts as not registered (log 43), and a
peer's word waits behind fences whose TO has L (log 41): the model's readings. -/
def Sys2Proof.Rules.PeerTraffic : Prop :=
  (∀ (s : State) (n win va : Nat) (o : PeerUnit) (p : PeerCmd) (v : W32) (w : Window), NoPinned s → PeerNow s n win true o p →
    PeerFree s p o → PeerAt s n win true o p w va → va < 2 ^ 57 →
    (∀ l, s.translate n va (peerReq true) = .ok l →
      ∃ t, exec (.linkRemotePut n win o (some v)) s = .next t ∧ t.resp = some .successful ∧
        t.rdBytes l.pa 4 = bytesOf 4 v.toNat ∧ SameOutside s t (fun pa => l.pa ≤ pa ∧ pa < l.pa + 4) ∧ t.ctxs = s.ctxs ∧
        t.peer? n o.id = some { p with done := p.done ++ [o.k] })) ∧
  (∀ (s : State) (n win va : Nat) (o : PeerUnit) (p : PeerCmd) (w : Window) (l : Leaf), PeerNow s n win false o p →
    PeerFree s p o → PeerAt s n win false o p w va → va < 2 ^ 57 → s.translate n va (peerReq false) = .ok l →
    (∀ i, i < 4 → s.isPoison (l.pa + i) = false) →
    ∃ t, exec (.linkRemoteGet n win o) s = .next t ∧ t.resp = some (.data (s.rdBytes l.pa 4)) ∧
      t = { s with tlb := t.tlb, walks := t.walks, caches := t.caches, links := t.links, peers := t.peers, resp := t.resp,
                   free := s.free + 1 } ∧
      t.peer? n o.id = if p.done.length + 1 = p.len / 4 then none else some { p with done := p.done ++ [o.k] }) ∧
  (∀ (s : State) (n win va : Nat) (o : PeerUnit) (p : PeerCmd) (put : Bool) (v : W32) (w : Window),
    let i : Instr := if put then .linkRemotePut n win o (some v) else .linkRemoteGet n win o
    PeerNow s n win put o p →
    (p.stall ≠ none ∨ o.k ∈ p.done ∨ (∃ f ∈ s.fences, f.id ∈ p.after ∧ f.before ≠ []) → exec i s = .next s) ∧
    (PeerFree s p o → p.bad = true ∨ p.put ≠ put ∨ p.win ≠ win ∨ p.len ≤ 4 * o.k ∨
        (∀ w, ¬ OpenTo s n win (if put then 0 else 1) (p.roff + 4 * o.k) w) →
      ∃ t, exec i s = .next t ∧ Refused s t n put o p) ∧
    (PeerFree s p o → PeerAt s n win put o p w va →
      ((2 ^ 57 ≤ va ∧ va < 2 ^ 64) ∨ (va < 2 ^ 57 ∧ ∃ e, s.translate n va (peerReq put) = .error e ∧ ∀ r, e ≠ .fault r false) →
        ∃ t, exec i s = .next t ∧ Refused s t n put o p) ∧
      (∀ l, va < 2 ^ 57 → put = false → s.translate n va (peerReq put) = .ok l → (∃ j, j < 4 ∧ s.isPoison (l.pa + j) = true) →
        ∃ t, exec i s = .next t ∧ Refused s t n put o p) ∧
      (∀ r, va < 2 ^ 57 → s.translate n va (peerReq put) = .error (.fault r false) →
        (∀ g ∈ (s.ctx n).faults, ¬ (g.pf.va / 4096 = va / 4096 ∧ g.pf.access = .engine)) →
        ∃ t g, exec i s = .next t ∧ t.resp = some .deferred ∧ t.mem = s.mem ∧ (t.ctx n).faults = (s.ctx n).faults ++ [g] ∧
          g.pf = { va := va, reason := r, access := .engine, lanes := 0 } ∧ g.strand = 255 ∧ g.batch = 0 ∧
          g.attached = [.peer o.id] ∧ t.peer? n o.id = some { p with stall := some g.id }))) ∧
  (∀ (s : State) (n win : Nat) (o : PeerUnit) (p : PeerCmd), s.peer? n o.id = some p → p.put = true →
    (p.bad = true → ∃ t, exec (.linkRemotePut n win o none) s = .next t ∧ t.resp = some .unsupported ∧ t.ctxs = s.ctxs ∧
      t.peer? n o.id = none) ∧
    (p.bad = false → p.done.length ≠ p.len / 4 → exec (.linkRemotePut n win o none) s = .next s) ∧
    (∀ w, p.bad = false → 0 < p.len → p.done.length = p.len / 4 → WindowsDiffer s n → (s.ctx n).window? p.win = some w →
      w.closing = false → w.st = .opened →
      ∃ t, exec (.linkRemotePut n win o none) s = .next t ∧ t.resp = some .successful ∧ t.mem = s.mem ∧
        t.peer? n o.id = none ∧ (t.ctx n).window? p.win = some { w with dcnt := w.dcnt + 1 })) ∧
  (∀ (s : State) (c : Cmd) (win a r len : Nat) (w : Window), s.cmd? c.id = some c → c.kind = .put win a r len →
    c.linkSent = true → c.warp ≠ none → WindowsDiffer s c.ctx → (s.ctx c.ctx).window? win = some w →
    ∃ t, exec (.linkPutAck c.id) s = .next t ∧ t.cmd? c.id = some { c with linkSent := false } ∧ t.mem = s.mem ∧
      (t.ctx c.ctx).window? win = some { w with scnt := w.scnt + 1 } ∧
      ∀ (x : StrandRef) (u : Strand) (o : WcOps) (since : Nat), s.strand? x = some u → x.w.crew.ctx = c.ctx →
        u.wait = .wc false o since none → o.win.toNat = win → w.st = .opened →
        (if o.sb.val = 0 then 0 else (u.core.s.getD o.sb.val 0).toNat) ≤ (w.scnt + 1).toNat →
        ∃ v, t.strand? x = some v ∧ v.wait = .wc false o since (some (w.scnt + 1, false))) ∧
  (∀ (s : State) (c : Cmd) (k win a r len : Nat) (v : W32), UnitDue s c k → c.kind = .get win a r len →
    (∀ b ∈ c.buf, b.1 ≠ k) →
    ∃ t, exec (.linkGetData c.id k v) s = .next t ∧ t.cmd? c.id = some (withWord c k (bytesOf 4 v.toNat)) ∧
      t = { s with links := t.links, cmds := t.cmds }) ∧
  (∀ (s : State) (c : Cmd) (win : Nat) (r : WarpRef) (w : Warp) (b : Batch), s.cmd? c.id = some c →
    c.kind.win? = some win → c.finished = false → InBatch s c r w b →
    FaultsBatch s c r b (.linkPeerFault c.id) (fun kind _ => kind = 0x44))

/-- R215, R308, R312 and R413: an engine reads a word, writes it, stalls on a replayable fault, and faults its batch. -/
def Sys2Proof.Rules.EngineAccesses : Prop :=
  (∀ (s : State) (c : Cmd) (k va n : Nat) (l : Leaf), UnitDue s c k → c.warp ≠ none → c.buf.find? (fun b => b.1 == k) = none →
    c.kind.from? k = some (.glob va n) → s.translate c.ctx va (c.kind.req false) = .ok l → PlaceOk s c false l →
    ((∀ i, i < n → s.isPoison (l.pa + i) = false) →
      ∃ t, exec (.engineAccess c.id k) s = .next t ∧ t.mem = s.mem ∧
        t.cmd? c.id = some (if c.kind.isPut then wordDone c k else withWord c k (s.rdBytes l.pa n))) ∧
    ((∃ i, i < n ∧ s.isPoison (l.pa + i) = true) → ∀ r w b, InBatch s c r w b →
      FaultsBatch s c r b (.engineAccess c.id k) (fun kind a => kind = 0x40 ∧ a = va))) ∧
  (∀ (s : State) (c : Cmd) (k va n : Nat) (bs : List Byte) (l : Leaf), UnitDue s c k → c.warp ≠ none → NoPinned s →
    (c.buf.find? (fun b => b.1 == k) = some (k, bs) ∨
      c.buf.find? (fun b => b.1 == k) = none ∧ ∃ a m v, c.kind = .syFill a m v ∧ bs = bytesOf 4 v.toNat) →
    c.kind.to? k = some (.glob va n) → bs.length = n → s.translate c.ctx va (c.kind.req true) = .ok l → PlaceOk s c true l →
    ∃ t, exec (.engineAccess c.id k) s = .next t ∧ t.cmd? c.id = some (wordDone c k) ∧ t.rdBytes l.pa n = bs ∧
      SameOutside s t (fun pa => l.pa ≤ pa ∧ pa < l.pa + n) ∧
      ∀ win a r len w, c.kind = .get win a r len → WindowsDiffer s c.ctx → (s.ctx c.ctx).window? win = some w →
        (t.ctx c.ctx).window? win =
          some (if c.done.length + 1 = c.kind.units then { w with dcnt := w.dcnt + 1 } else w)) ∧
  (∀ (s : State) (c : Cmd) (k off n : Nat) (x : Crew), UnitDue s c k → c.warp ≠ none → s.crew? c.crew = some x →
    (c.buf.find? (fun b => b.1 == k) = none → c.kind.from? k = some (.crew off n) → c.kind.to? k ≠ none →
      (∀ i, i < n → (off + i) / 32 ∉ x.poison) →
      ∃ t, exec (.engineAccess c.id k) s = .next t ∧ t.mem = s.mem ∧ t.crews = s.crews ∧
        t.cmd? c.id = some (withWord c k (cellsRead x.mem off n))) ∧
    (∀ bs, NoPinned s → c.buf.find? (fun b => b.1 == k) = some (k, bs) → c.kind.to? k = some (.crew off n) → bs.length = n →
      (∀ b ∈ x.bars, ¬ (b.off < off + n ∧ off < b.off + 8)) →
      ∃ t y, exec (.engineAccess c.id k) s = .next t ∧ t.cmd? c.id = some (wordDone c k) ∧ t.mem = s.mem ∧
        t.crew? c.crew = some y ∧ ∀ o, cellGet y.mem o = if off ≤ o ∧ o < off + n then bs.getD (o - off) 0 else cellGet x.mem o) ∧
    (∀ bs b r w p, InBatch s c r w p → c.buf.find? (fun b => b.1 == k) = some (k, bs) → c.kind.to? k = some (.crew off n) →
      b ∈ x.bars → b.off < off + n → off < b.off + 8 →
      FaultsBatch s c r p (.engineAccess c.id k) (fun kind a => kind = 0x43 ∧ a = off))) ∧
  (∀ (s : State) (c : Cmd) (k va n : Nat), UnitDue s c k → c.warp ≠ none →
    c.buf.find? (fun b => b.1 == k) = none → c.kind.from? k = some (.glob va n) →
    let x := s.translate c.ctx va (c.kind.req false)
    (c.kind.needsSy false = false →
      (∀ v, x = .error (.fault v false) → (s.ctx? c.ctx).isSome = true → (s.ctx c.ctx).st ≠ .destroyed → v ≠ .unbacked →
        ∃ t id, exec (.engineAccess c.id k) s = .next t ∧ t.cmd? c.id = some { c with stall := some (id, va) } ∧ t.mem = s.mem ∧
          ∃ f ∈ (t.ctx c.ctx).faults, f.id = id ∧ .cmd c.id ∈ f.attached) ∧
      (∀ v, x = .error (.fault v true) → ∀ r w b, InBatch s c r w b → FaultsBatch s c r b (.engineAccess c.id k)
        (fun kind a => a = va ∧ kind = if v = .policy ∧ c.kind.cls = 1 ∧ s.pagePol c.ctx va = some 2 then 0x42 else v.code)) ∧
      (∀ e, x = .error (.attr e) → ∀ r w b, InBatch s c r w b →
        FaultsBatch s c r b (.engineAccess c.id k) (fun kind a => a = va ∧ kind = 0x41)) ∧
      (x = .error .gone → ∀ r w b, InBatch s c r w b →
        FaultsBatch s c r b (.engineAccess c.id k) (fun kind a => a = va ∧ kind = 0x40))) ∧
    (c.kind.needsSy false = true → (∀ f, x ≠ .error (.fault .unbacked f)) → x ≠ .error .gone →
      (∃ p, s.pagePol c.ctx va = some p ∧ p ≠ 2) ∨ (∃ l, x = .ok l ∧ (s.ctx c.ctx).inOvf l.pa = false) →
      ∀ r w b, InBatch s c r w b → FaultsBatch s c r b (.engineAccess c.id k) (fun kind a => a = va ∧ kind = 7)))

/-- R215, R222, R223, R308, R312, R413 and R419: the accesses of engines and what passes between this package and a peer. Log entries 41 and 43: the readings of the model. -/
def Obligations.EngineTraffic : Prop := Rules.PeerTraffic ∧ Rules.EngineAccesses

/-- R432, R433 and R429: the power cap and the clock, the second tier, and module reset, which leaves memory as it was (the
model's choice, log 19). -/
def Sys2Proof.Rules.Package : Prop :=
  (∀ (s : State) (h : CmdHdr) (cap : BitVec 32), AllowedPf h →
    (600 ≤ cap.toNat → cap.toNat ≤ 3600 → ∃ t, exec (.powerCap h cap) s = .next t ∧
      t = { s with cap := cap.toNat, funcs := t.funcs } ∧ Logs s t h 0x40 (atOnceWith [])) ∧
    (cap.toNat < 600 ∨ 3600 < cap.toNat → RejectsWith s (.powerCap h cap) h 0x40 7)) ∧
  (∀ (s : State) (mhz : Nat), 600 ≤ mhz → mhz ≤ s.mhz → exec (.powerOverCap mhz) s = .next { s with mhz := mhz }) ∧
  (∀ (s : State) (p : Nat) (x : Port), s.ports[p]? = some x →
    ∃ t, exec (.cxlPortDown p) s = .next t ∧ t = { s with ports := t.ports } ∧ t.ports[p]? = some { x with up := false } ∧
      ∀ pa, 2 ^ 48 + p * 2 ^ 42 ≤ pa → pa < 2 ^ 48 + (p + 1) * 2 ^ 42 → t.backed pa = false ∧ t.isPoison pa = true) ∧
  (∀ (s : State) (p pa : Nat) (x : Port), s.ports[p]? = some x → 2 ^ 48 + p * 2 ^ 42 ≤ pa →
    pa < 2 ^ 48 + p * 2 ^ 42 + x.cap → x.cap ≤ 2 ^ 42 →
    ∃ t, exec (.cxlPoisonReport pa) s = .next t ∧ t = { s with poison := t.poison } ∧
      ∀ q, t.isPoison q = true ↔ s.isPoison q = true ∨ q / 32 = pa / 32) ∧
  (∀ s : State, ∃ t, exec .moduleReset s = .next t ∧ t.mem = s.mem ∧ t.crews = [] ∧ t.cmds = [] ∧ t.tlb = [] ∧
    (∀ n, n < 64 → t.ctx n = Ctx.empty n) ∧ (∀ f ∈ t.funcs, f.slot = none ∧ f.logseq = 0))

/-- R281 and R282, Tables 14.5 and 14.6: what a request for a word does to the L1s and to the directory, and the messages that the
home sends; requests keep the two in agreement, and every message names a span of its line. -/
def Sys2Proof.Rules.CoherenceRequests : Prop :=
  Coherent Caches.empty ∧
  (∀ (c : Caches) (kind : CohKind) (core line first count : Nat), Coherent c → first + count ≤ 32 →
    core < 768 ∨ kind = .rcl →
    (kind ∈ [CohKind.rdS, .rdX, .upg, .wbD, .evC, .rcl] → Coherent (c.request kind core line first count).1) ∧
    ∀ m ∈ (c.request kind core line first count).2, m.line = line ∧ 1 ≤ m.count ∧ m.first + m.count ≤ 32) ∧
  (∀ (c c' : Caches) (ms : List CohMsg) (kind : CohKind) (core line w : Nat), Coherent c → w < 32 → core < 768 → RoomFor c core line →
    asks c kind core line w c' ms →
    let own := fun k st => Points (c.entry line) k w st
    let alone := ∀ k, c.held k line w = none
    let shared := (∀ k st, own k st → st = .s) ∧ ∃ k, MayShare c k line w
    (∀ k l v, l ≠ line ∨ v ≠ w → c'.held k l v = c.held k l v) ∧
    (kind = .rdS → alone → (c.entry line).coarse = [] → c'.held core line w = some .e ∧ ms = []) ∧
    (kind = .rdS → ∀ k, k ≠ core → own k .e → c'.held k line w = some .s ∧ c'.held core line w = some .s ∧ ms = []) ∧
    (kind = .rdS → shared → c'.held core line w = some .s ∧ ms = [] ∧ ∀ k, k ≠ core → c'.held k line w = c.held k line w) ∧
    (kind = .rdS → ∀ k, k ≠ core → own k .m ∨ own k .o →
      c'.held k line w = some .o ∧ c'.held core line w = some .s ∧ ms = [toCore .fwdS k line w]) ∧
    (kind = .rdX → alone → (c.entry line).coarse = [] → c'.held core line w = some .m ∧ ms = []) ∧
    (kind = .rdX ∨ kind = .upg → own core .e → c'.held core line w = some .m ∧ ms = []) ∧
    (kind = .rdX ∨ kind = .upg → shared →
      c'.held core line w = some .m ∧ (∀ k, k ≠ core → c'.held k line w = none) ∧
      ∀ m, m ∈ ms ↔ ∃ k, k ≠ core ∧ MayShare c k line w ∧ m = toCore .inv k line w) ∧
    (kind = .rdX ∨ kind = .upg → ∀ k, k ≠ core → own k .m ∨ own k .o →
      c'.held core line w = some .m ∧ (∀ j, j ≠ core → c'.held j line w = none) ∧
      ∀ m, m ∈ ms ↔ m = toCore .fwdX k line w ∨ ∃ j, j ≠ core ∧ MayShare c j line w ∧ m = toCore .inv j line w) ∧
    (kind = .wbD → own core .m ∨ own core .o →
      c'.held core line w = none ∧ ms = [] ∧ ∀ k, k ≠ core → c'.held k line w = c.held k line w) ∧
    (kind = .evC → own core .e ∨ own core .s →
      c'.held core line w = none ∧ ms = [] ∧ ∀ k, k ≠ core → c'.held k line w = c.held k line w) ∧
    (kind = .rcl → (∀ k, c'.held k line w = none) ∧ ∀ k, (MayShare c k line w ∨ ∃ st, own k st) → toCore .rcl k line w ∈ ms)) ∧
  (∀ (c : Caches) (core line w : Nat), Coherent c → w < 32 → ¬ RoomFor c core line →
    (∀ p ∈ (c.entry line).ptrs, ∀ x ∈ p.words, x.2 = .s) → (∃ k, MayShare c k line w) →
    let c' := (c.request .rdS core line w 1).1
    (c'.entry line).ptrs = [] ∧ Marked (c'.entry line) core ∧ c'.held core line w = some .s ∧
      ∀ p ∈ (c.entry line).ptrs, Marked (c'.entry line) p.core)

/-- R274, R276, R280 and Table 14.3: a load fills exactly the words that it touches into its core's L1, one with hint 6 or 3 none,
and a PREF with hint 0x7 drops the core's clean copy of its span; a write at the home slice recalls every copy of its lines. -/
def Sys2Proof.Rules.CacheContents : Prop :=
  (∀ (c : Caches) (core hint : Nat) (ws : List Nat), Coherent c → core < 768 →
    (hint ≠ 3 → hint ≠ 6 → ∀ v, ((c.load core hint ws).held core (v / 32) (v % 32)).isSome = true ↔
      v ∈ ws ∨ (c.held core (v / 32) (v % 32)).isSome = true) ∧
    (hint = 3 ∨ hint = 6 → ∀ v, ((c.load core hint ws).held core (v / 32) (v % 32)).isSome = true ↔
      (c.held core (v / 32) (v % 32)).isSome = true) ∧
    (∀ v ∈ ws, (c.own core ws).held core (v / 32) (v % 32) = some .m ∧
      ∀ k, k ≠ core → (c.own core ws).held k (v / 32) (v % 32) = none) ∧
    (∀ v ∈ ws, ∀ k, (c.recall ws).held k (v / 32) (v % 32) = none)) ∧
  (∀ (s : State) (c : Cur) (o : SpanOps), o.g.wf = true → Ready s c 1 .none → Fits c → VaddrOk c o.va →
    o.hint = 7 → Coherent s.caches →
    (∀ l lf, inLanes c (c.enabled o.g) l → s.translate c.ctx (spanEa c o l) XReq.load = .ok lf → lf.pol = 0) →
    ∃ t, exec (.pref o) s = .next t ∧ ∀ v st, PrefWord s c o v → s.caches.held c.crew.core (v / 32) (v % 32) = some st →
      t.caches.held c.crew.core (v / 32) (v % 32) = if st = .e ∨ st = .s then none else some st)

/-- R274, R276, R280 to R282, R429, R432 and R433: the power cap and the clock, the second tier and module reset, which leaves memory as it was (the model's choice, log 19); and the caches: the requests of Table 14.5 with the transitions of Table 14.6, and what loads, PREF and recalls do to L1 contents. -/
def Obligations.Package : Prop := Rules.Package ∧ Rules.CoherenceRequests ∧ Rules.CacheContents

/-- R429 and log entries 1, 2, 3, 14, 17, 18 and 20: module reset leaves every context EMPTY, every logbook at sequence number 0 and
no crew or engine command; the values that the specification does not give are the model's. It leaves both invariants. -/
def Obligations.ResetState : Prop :=
  (∀ n, n < 64 → State.reset.ctx n = Ctx.empty n) ∧
    (∀ f ∈ State.reset.funcs, f.slot = none ∧ f.drops = 0 ∧ f.logseq = 0 ∧ f.log = []) ∧ State.reset.funcs.length = 64 ∧
    State.reset.crews = [] ∧ State.reset.cmds = [] ∧ State.reset.mem = [] ∧ State.reset.tlb = [] ∧
    State.reset.walks = [] ∧ State.reset.caches = Caches.empty ∧ State.reset.hostw = [] ∧ State.reset.peers = [] ∧
    State.reset.clks = List.replicate 768 0 ∧
    (∀ l ∈ State.reset.links, l.st = .down) ∧ State.reset.links.length = 12 ∧
    State.reset.memWf = true ∧ State.reset.masksOk = true

/-- Every step keeps physical memory and every crew's memory in canonical form. -/
def Obligations.MemoryStaysCanonical : Prop := ∀ s t : State, s.memWf = true → step s = .next t → t.memWf = true

/-- R144: every step keeps EM and HM of every strand subsets of its lanes L, in its state and in what a squash or the undoing of a
merge restores. -/
def Obligations.MasksStayInside : Prop := ∀ s t : State, s.masksOk = true → step s = .next t → t.masksOk = true

/-- R52, R53, R64, R70, R71 and R425: a strand that takes its step applies its header, or executes the instruction or the pair
that the words at its program counter decode to, or traps where they are none; of a pair, what the first word meets alone comes
first, then what the second meets; an event and a command are executed as given; and a strand issues by itself only where no
ready strand of its warp precedes it, but for its issue bound (R157). -/
def Obligations.StepRunsInstruction : Prop :=
  (∀ (s : State) (r : StrandRef) (rest : List Move) (c : Cur), s.agenda = .issue r :: rest →
    let u := focused s rest r
    u.curOf r = some c →
    (u.mayIssue c true = true → step s = placing (exec .clauseStart (fetchedAt u c))) ∧
    (u.mayIssue c true = false → u.mayIssue c false = true → ∀ w, WordAt u c.ctx c.t.core.pc w →
      (∀ i, decodeWord w = .ok i →
        (c.t.core.beginsPair = false → step s = placing (exec i (fetchedAt u c))) ∧
        (c.t.core.beginsPair = true →
          (u.wordCause c 0 i ≠ none → step s = placing (exec i (fetchedAt u c))) ∧
          (u.wordCause c 0 i = none → ∀ w2, WordAt u c.ctx (c.t.core.pc + 8) w2 →
            (decodeWord w2 = .error .illegalInstr →
              step s = placing (.next (u.stop c c.em c.t.core.pc (.trap .illegalInstr 0 w2.toNat none)))) ∧
            (∀ j, decodeWord w2 = .ok j →
              (∀ st, u.wordCause c 1 j = some st → step s = placing (.next (u.stop c c.em c.t.core.pc st))) ∧
              (u.wordCause c 1 j = none →
                (∀ a b, PairOp.of? i = some a → PairOp.of? j = some b →
                  step s = placing (exec (.pairIssue a b) (fetchedAt u c))) ∧
                (PairOp.of? i = none ∨ PairOp.of? j = none → step s = placing (exec i (fetchedAt u c)))))))) ∧
      (decodeWord w = .error .illegalInstr →
        step s = placing (.next (u.stop c c.em c.t.core.pc (.trap .illegalInstr 0 w.toNat none))))) ∧
    (u.mayIssue c true = false → u.mayIssue c false = false → step s = placing (.next u))) ∧
  (∀ (s : State) (i : Instr) (rest : List Move), s.agenda = .event i :: rest → encode i = none → i ≠ .clauseStart →
    (∀ a b, i ≠ .pairIssue a b) → step s = placing (exec i { s.tick with agenda := rest })) ∧
  (∀ (s : State) (n : Nat) (f : Func) (bs : List Byte) (rest : List Move), s.funcs[n]? = some f →
    (s.agenda = .accept n :: rest → f.slot = some bs →
      ∃ u, step s = placing (exec (decodeCommand n bs) u) ∧ u = { s.tick with agenda := rest, funcs := u.funcs } ∧
        u.funcs[n]? = some { f with slot := none } ∧ ∀ m, m ≠ n → u.funcs[m]? = s.funcs[m]?) ∧
    (∀ k, s.agenda = .post n k bs :: rest → bs.length = 64 →
      (f.slot = none → ∃ u, step s = placing (.next u) ∧ u.resp = some .successful ∧ u.funcs[n]? = some { f with slot := some bs }) ∧
      (f.slot ≠ none → k = .deferrable → ∃ u, step s = placing (.next u) ∧ u.resp = some .deferred ∧ u.funcs = s.funcs) ∧
      (f.slot ≠ none → k ≠ .deferrable →
        ∃ u, step s = placing (.next u) ∧ u.resp = some .dropped ∧ u.funcs[n]? = some { f with drops := f.drops + 1 }))) ∧
  (∀ (s : State) (f : Option StrandRef) (r : StrandRef) (c : Cur), s.autoMove = some (f, .issue r) → Config.issueDue s.free = false →
    s.curOf r = some c → ∀ k t, k < 4 → c.warp.strand? k = some t → Precedes c k t → s.ready { r with strand := k } = false)

/-- The words that the specification writes out decode to the instructions that it names. -/
def Obligations.SpelledWords : Prop :=
  ∀ p ∈ spelledScalar ++ spelledVector ++ spelledMemory ++ spelledEngines, decodeWord p.1 = .ok p.2

/-- R56 to R71: decoding and encoding agree. Every well-formed instruction of the stream comes back from its word, with every
operand; a word that decodes to an instruction is the one that encodes it, and the instruction is well formed; and the bytes of
a command of Table 23.3 with no stray byte are those that encode it. -/
def Obligations.EncodingsAgree : Prop :=
  (∀ (i : Instr) (w : W64), i.wf = true → encode i = some w → (∀ x, i ≠ .reservedOpcodeWord x) → decodeWord w = .ok i) ∧
  (∀ (i : Instr) (w : W64), decodeWord w = .ok i → (∀ x, i ≠ .reservedOpcodeWord x) → encode i = some w ∧ i.wf = true) ∧
  (∀ (func : Nat) (bs : List Byte), bs.length = 64 → cmdClean bs = true →
    (∀ h code, decodeCommand func bs ≠ .unlistedCommand h code) → encodeCommand (decodeCommand func bs) = some bs)

/-- R254 and log entry 5: FEXP2, FLOG2, FSIN, FCOS and FTANH of F32 elements, whose value is the implementation's, keep the
bounds of Table 13.3; a finite result outside the range overflows. -/
def Obligations.SpecialFunctionBounds : Prop :=
  ∀ (fn : SfFn) (acr : BitVec 10) (mode : Rm) (x : Nat), x < 2 ^ 32 →
    let v := valueOf (flushIn fF32 acr x)
    v ≠ 0 → (fn = .log2 → 0 < v) →
    fn = .exp2 ∨ fn = .log2 ∨ fn = .sin ∨ fn = .cos ∨ fn = .tanh →
    ∃ b, TranscendentalBound fn mode v b ∧ fn.elem .f32 acr mode x = flushOut fF32 acr b

end
end

