-- ==== Sys2Proof/Laws/Encoding.lean ====
section
/-!
SUPPORT. Fields of packed words: each format reads back what it packs, and each operand field reads back what the encoder
writes into it.
-/

namespace Sys2Proof

theorem extract_low {m n : Nat} (a : BitVec m) (b : BitVec n) (lo k : Nat) (h : lo + k ≤ n) :
    (a ++ b).extractLsb' lo k = b.extractLsb' lo k := by
  ext i hi
  simp only [BitVec.getElem_extractLsb', BitVec.getLsbD_append]
  rw [if_pos (by omega)]

theorem extract_high {m n : Nat} (a : BitVec m) (b : BitVec n) (lo k : Nat) (h : n ≤ lo) :
    (a ++ b).extractLsb' lo k = a.extractLsb' (lo - n) k := by
  ext i hi
  simp only [BitVec.getElem_extractLsb', BitVec.getLsbD_append]
  rw [if_neg (by omega)]
  congr 1
  omega

theorem extract_whole {n : Nat} (b : BitVec n) : b.extractLsb' 0 n = b := by
  ext i hi
  simp

/-- The decoder's checks for an instruction that is well formed. -/
theorem finish_wf {i : Instr} (h : i.wf = true) (form regs : Bool) :
    finish form regs i = if form then (if regs then .ok i else .error .illegalReg) else .error .illegalInstr := by
  rw [Instr.wf, Bool.and_eq_true] at h
  cases form <;> cases regs <;> simp [finish, h.1, h.2]

/-! What a format packs it reads back. -/

@[simp] theorem FmtV.of_pack (f : FmtV) : FmtV.of f.pack = f := by
  cases f
  simp (discharger := decide) only [FmtV.of, FmtV.pack, fld, extract_low, extract_high, extract_whole, Nat.reduceSub]
@[simp] theorem FmtVI.of_pack (f : FmtVI) : FmtVI.of f.pack = f := by
  cases f
  simp (discharger := decide) only [FmtVI.of, FmtVI.pack, fld, extract_low, extract_high, extract_whole, Nat.reduceSub]
@[simp] theorem FmtS.of_pack (f : FmtS) : FmtS.of f.pack = f := by
  cases f
  simp (discharger := decide) only [FmtS.of, FmtS.pack, fld, extract_low, extract_high, extract_whole, Nat.reduceSub]
@[simp] theorem FmtM.of_pack (f : FmtM) : FmtM.of f.pack = f := by
  cases f
  simp (discharger := decide) only [FmtM.of, FmtM.pack, fld, extract_low, extract_high, extract_whole, Nat.reduceSub]
@[simp] theorem FmtB.of_pack (f : FmtB) : FmtB.of f.pack = f := by
  cases f
  simp (discharger := decide) only [FmtB.of, FmtB.pack, fld, extract_low, extract_high, extract_whole, Nat.reduceSub]
@[simp] theorem FmtBP.of_pack (f : FmtBP) : FmtBP.of f.pack = f := by
  cases f
  simp (discharger := decide) only [FmtBP.of, FmtBP.pack, fld, extract_low, extract_high, extract_whole, Nat.reduceSub]
@[simp] theorem FmtX.of_pack (f : FmtX) : FmtX.of f.pack = f := by
  cases f
  simp (discharger := decide) only [FmtX.of, FmtX.pack, fld, extract_low, extract_high, extract_whole, Nat.reduceSub]
@[simp] theorem FmtK.of_pack (f : FmtK) : FmtK.of f.pack = f := by
  cases f
  simp (discharger := decide) only [FmtK.of, FmtK.pack, fld, extract_low, extract_high, extract_whole, Nat.reduceSub]
@[simp] theorem FmtE.of_pack (f : FmtE) : FmtE.of f.pack = f := by
  cases f
  simp (discharger := decide) only [FmtE.of, FmtE.pack, fld, extract_low, extract_high, extract_whole, Nat.reduceSub]

/-! The opcode of a packed word. -/

@[simp] theorem FmtV.op_pack (f : FmtV) : fld f.pack 56 8 = f.op := congrArg FmtV.op (FmtV.of_pack f)
@[simp] theorem FmtVI.op_pack (f : FmtVI) : fld f.pack 56 8 = f.op := congrArg FmtVI.op (FmtVI.of_pack f)
@[simp] theorem FmtS.op_pack (f : FmtS) : fld f.pack 56 8 = f.op := congrArg FmtS.op (FmtS.of_pack f)
@[simp] theorem FmtM.op_pack (f : FmtM) : fld f.pack 56 8 = f.op := congrArg FmtM.op (FmtM.of_pack f)
@[simp] theorem FmtB.op_pack (f : FmtB) : fld f.pack 56 8 = f.op := congrArg FmtB.op (FmtB.of_pack f)
@[simp] theorem FmtBP.op_pack (f : FmtBP) : fld f.pack 56 8 = f.op := congrArg FmtBP.op (FmtBP.of_pack f)
@[simp] theorem FmtX.op_pack (f : FmtX) : fld f.pack 56 8 = f.op := congrArg FmtX.op (FmtX.of_pack f)
@[simp] theorem FmtK.op_pack (f : FmtK) : fld f.pack 56 8 = f.op := congrArg FmtK.op (FmtK.of_pack f)
@[simp] theorem FmtE.op_pack (f : FmtE) : fld f.pack 56 8 = f.op := congrArg FmtE.op (FmtE.of_pack f)

/-! The opcode and fn of a word packed in a neighbouring format. -/

@[simp] theorem FmtV.op_of_FmtVI (f : FmtVI) : (FmtV.of f.pack).op = f.op := by
  cases f
  simp (discharger := decide) only [FmtV.of, FmtVI.pack, fld, extract_low, extract_high, extract_whole, Nat.reduceSub]
@[simp] theorem FmtV.fn_of_FmtVI (f : FmtVI) : (FmtV.of f.pack).fn = f.fn := by
  cases f
  simp (discharger := decide) only [FmtV.of, FmtVI.pack, fld, extract_low, extract_high, extract_whole, Nat.reduceSub]
@[simp] theorem FmtB.op_of_FmtBP (f : FmtBP) : (FmtB.of f.pack).op = f.op := by
  cases f
  simp (discharger := decide) only [FmtB.of, FmtBP.pack, fld, extract_low, extract_high, extract_whole, Nat.reduceSub]
@[simp] theorem FmtB.fn_of_FmtBP (f : FmtBP) : (FmtB.of f.pack).fn = f.fn := by
  cases f
  simp (discharger := decide) only [FmtB.of, FmtBP.pack, fld, extract_low, extract_high, extract_whole, Nat.reduceSub]
@[simp] theorem FmtBP.op_of_FmtB (f : FmtB) : (FmtBP.of f.pack).op = f.op := by
  cases f
  simp (discharger := decide) only [FmtBP.of, FmtB.pack, fld, extract_low, extract_high, extract_whole, Nat.reduceSub]
@[simp] theorem FmtBP.fn_of_FmtB (f : FmtB) : (FmtBP.of f.pack).fn = f.fn := by
  cases f
  simp (discharger := decide) only [FmtBP.of, FmtB.pack, fld, extract_low, extract_high, extract_whole, Nat.reduceSub]

/-! Operand fields. -/

@[simp] theorem mbz_zero (n : Nat) : mbz (0#n) = true := by simp [mbz]
@[simp] theorem vregOk_vbits (r : VReg) : vregOk (vbits r) = true := by
  cases r with
  | v i => have := i.isLt; simp [vregOk, vbits, VReg.code]; omega
  | g i => have := i.isLt; simp [vregOk, vbits, VReg.code]; omega
@[simp] theorem vreg_vbits (r : VReg) : vreg (vbits r) = r := by
  cases r with
  | v i =>
    have := i.isLt
    have h : i.val % 512 = i.val := by omega
    simp [vreg, vbits, VReg.code, h]
  | g i =>
    have := i.isLt
    have h : (256 + i.val) % 512 = 256 + i.val := by omega
    simp [vreg, vbits, VReg.code, h]
theorem vbits_ne (r : VReg) : vbits r ≠ 511#9 := by
  intro h
  have := vregOk_vbits r
  rw [h] at this
  exact absurd this (by decide)
@[simp] theorem vregOptOk_vbits (r : Option VReg) : vregOptOk (vbitsOpt r) = true := by
  cases r <;> simp [vregOptOk, vbitsOpt]
@[simp] theorem vregOpt_vbits (r : Option VReg) : vregOpt (vbitsOpt r) = r := by
  cases r <;> simp [vregOpt, vbitsOpt, vbits_ne]
@[simp] theorem tagOf_tagBits (t : Tag) : tagOf (tagBits t) = t := by cases t <;> rfl
@[simp] theorem preg_pbits (p : PReg) : preg (pbits p) = p := rfl
@[simp] theorem sreg_sbits (s : SReg) : sreg (sbits s) = s := rfl
@[simp] theorem kreg_kbits (k : KReg) : kreg (kbits k) = k := rfl
@[simp] theorem treg_tbits (t : TReg) : treg (tbits t) = t := rfl
@[simp] theorem flag1_bit1 (b : Bool) : flag1 (bit1 b) = b := by cases b <;> rfl
@[simp] theorem cfOf_cfBits (c : Cf) : cfOf (cfBits c) = c := by cases c <;> rfl
@[simp] theorem cfOk_cfBits (c : Cf) : cfOk (cfBits c) = true := by cases c <;> rfl
@[simp] theorem rndOf_rndBits (r : Rnd) : rndOf (rndBits r) = r := by
  cases r with
  | none => rfl
  | some m => cases m <;> rfl
@[simp] theorem rndOk_rndBits (r : Rnd) : rndOk (rndBits r) = true := by
  cases r with
  | none => rfl
  | some m => cases m <;> rfl
@[simp] theorem pIn9_pbits9 (p : PReg) : pIn9 (pbits9 p) = p := by
  simp [pIn9, pbits9]
@[simp] theorem pIn9Ok_pbits9 (p : PReg) : pIn9Ok (pbits9 p) = true := by
  have := p.isLt
  simp [pIn9Ok, pbits9, pbits]
  omega
@[simp] theorem sIn9_sbits9 (s : SReg) : sIn9 (sbits9 s) = s := by
  simp [sIn9, sbits9]
@[simp] theorem sIn9Ok_sbits9 (s : SReg) : sIn9Ok (sbits9 s) = true := by
  have := s.isLt
  simp [sIn9Ok, sbits9, sbits]
  omega
@[simp] theorem guardOf_bits (g : Guard) : guardOf (pbits g.p) (bit1 g.neg) = g := by simp [guardOf]
@[simp] theorem mwidthOf_fn (w : MWidth) : mwidthOf w.fn = w := by cases w <;> rfl
@[simp] theorem kwidthOf_fn (w : KWidth) : kwidthOf w.fn = w := by cases w <;> rfl
@[simp] theorem afmtOf_fn (f : AFmt) : afmtOf f.fn = f := by cases f <;> rfl

end Sys2Proof
end

