-- ==== Sys2Proof/Laws/Lists.lean ====
section
/-!
SUPPORT. Lists of records and sparse memory: an element replaced is the element read, every other is as before, and every
write keeps the canonical form.
-/

set_option Elab.async false

namespace Sys2Proof

@[simp] theorem length_setAt {α : Type} (l : List α) (i : Nat) (a : α) : (setAt l i a).length = l.length := by
  induction l generalizing i with
  | nil => rfl
  | cons x xs ih => cases i <;> simp [setAt, ih]

theorem getElem?_setAt {α : Type} (l : List α) (i j : Nat) (a : α) :
    (setAt l i a)[j]? = if j = i ∧ i < l.length then some a else l[j]? := by
  induction l generalizing i j with
  | nil => simp [setAt]
  | cons x xs ih =>
    cases i with
    | zero => cases j <;> simp [setAt]
    | succ i =>
      cases j with
      | zero => simp [setAt]
      | succ j => simpa [setAt] using ih i j

theorem getD_setAt {α : Type} (l : List α) (i j : Nat) (a d : α) :
    (setAt l i a).getD j d = if j = i ∧ i < l.length then a else l.getD j d := by
  rw [List.getD_eq_getElem?_getD, getElem?_setAt, List.getD_eq_getElem?_getD]
  split <;> rfl

theorem getD_setAt_self {α : Type} (l : List α) (i : Nat) (a d : α) (h : i < l.length) : (setAt l i a).getD i d = a := by
  rw [getD_setAt, if_pos ⟨rfl, h⟩]

theorem getD_setAt_ne {α : Type} (l : List α) (i j : Nat) (a d : α) (h : j ≠ i) : (setAt l i a).getD j d = l.getD j d := by
  rw [getD_setAt, if_neg (fun x => h x.1)]

end Sys2Proof

namespace Sys2Proof.Machine

open Sys2Proof

/-! Records with a key. -/

theorem find?_updIf_same {α : Type} (p : α → Bool) (f : α → α) (l : List α) (hf : ∀ x, p x = true → p (f x) = true) :
    (updIf p f l).find? p = (l.find? p).map f := by
  induction l with
  | nil => rfl
  | cons x xs ih =>
    simp only [updIf, List.map_cons] at ih ⊢
    cases h : p x with
    | true => simp [h, hf x h]
    | false => simp [h, ih]

theorem find?_updIf_other {α : Type} (p q : α → Bool) (f : α → α) (l : List α) (hf : ∀ x, p x = true → q (f x) = false)
    (hq : ∀ x, p x = true → q x = false) : (updIf p f l).find? q = l.find? q := by
  induction l with
  | nil => rfl
  | cons x xs ih =>
    simp only [updIf, List.map_cons] at ih ⊢
    cases h : p x with
    | true => simp [hf x h, hq x h, ih]
    | false => simp [List.find?_cons, ih]

/-! Memory. -/

theorem cellsFrom_weaken {lo : Option Nat} {a : Nat} {m : List Host.Cell} (h : cellsFrom (some a) m = true)
    (hl : ∀ x, lo = some x → x ≤ a) : cellsFrom lo m = true := by
  cases m with
  | nil => cases lo <;> rfl
  | cons c m =>
    obtain ⟨b, v⟩ := c
    simp only [cellsFrom, Bool.and_eq_true, decide_eq_true_eq] at h ⊢
    refine ⟨⟨?_, h.1.2⟩, h.2⟩
    cases lo with
    | none => rfl
    | some x => have := hl x rfl; simp only [decide_eq_true_eq]; omega

theorem cellsFrom_set {lo : Option Nat} {m : List Host.Cell} (h : cellsFrom lo m = true) (x : Nat) (v : Byte)
    (hx : ∀ y, lo = some y → y < x) : cellsFrom lo (cellSet m x v) = true := by
  induction m generalizing lo with
  | nil =>
    simp only [cellSet]
    split
    · cases lo <;> rfl
    · rename_i hv
      simp only [cellsFrom, Bool.and_eq_true]
      refine ⟨⟨?_, by simpa using hv⟩, trivial⟩
      cases lo with
      | none => rfl
      | some y => simpa using hx y rfl
  | cons c m ih =>
    obtain ⟨a, b⟩ := c
    have hh := h
    simp only [cellsFrom, Bool.and_eq_true] at h
    simp only [cellSet]
    split
    · rename_i hlt
      split
      · exact hh
      · rename_i hv
        simp only [cellsFrom, Bool.and_eq_true]
        refine ⟨⟨?_, by simpa using hv⟩, ⟨by simpa using hlt, h.1.2⟩, h.2⟩
        cases lo with
        | none => rfl
        | some y => simpa using hx y rfl
    · split
      · rename_i heq
        split
        · refine cellsFrom_weaken h.2 ?_
          intro y hy
          have := hx y hy
          have : x = a := by simpa using heq
          omega
        · rename_i hv
          simp only [cellsFrom, Bool.and_eq_true]
          exact ⟨⟨h.1.1, by simpa using hv⟩, h.2⟩
      · rename_i h1 h2
        simp only [cellsFrom, Bool.and_eq_true]
        refine ⟨h.1, ih h.2 ?_⟩
        intro y hy
        have : y = a := by simpa using hy.symm
        have h3 : ¬ x = a := by simpa using h2
        omega

/-- Writing a byte keeps the canonical form. -/
theorem wf_cellSet {m : List Host.Cell} (h : Memory.wf m = true) (x : Nat) (v : Byte) : Memory.wf (cellSet m x v) = true :=
  cellsFrom_set h x v (by simp)

/-- Writing bytes at consecutive addresses keeps the canonical form. -/
theorem wf_cellsPut {m : List Host.Cell} (h : Memory.wf m = true) (a : Nat) (bs : List Byte) :
    Memory.wf (cellsPut m a bs) = true := by
  induction bs generalizing m a with
  | nil => exact h
  | cons b bs ih => exact ih (wf_cellSet h a b) (a + 1)

/-- Writing cells keeps the canonical form. -/
theorem wf_cellsPutAll {m : List Host.Cell} (h : Memory.wf m = true) (cs : List Host.Cell) :
    Memory.wf (cellsPutAll m cs) = true := by
  induction cs generalizing m with
  | nil => exact h
  | cons c cs ih => exact ih (wf_cellSet h c.1 c.2)

theorem cellGet_below {a : Nat} {m : List Host.Cell} (h : cellsFrom (some a) m = true) {x : Nat} (hx : x ≤ a) :
    cellGet m x = 0 := by
  induction m generalizing a with
  | nil => rfl
  | cons c m ih =>
    obtain ⟨b, v⟩ := c
    simp only [cellsFrom, Bool.and_eq_true, decide_eq_true_eq] at h
    have : ¬ x = b := by omega
    simp only [cellGet, beq_iff_eq, this, if_false]
    exact ih h.2 (by omega)

theorem cellGet_set_from {lo : Option Nat} {m : List Host.Cell} (h : cellsFrom lo m = true) (x y : Nat) (v : Byte) :
    cellGet (cellSet m x v) y = if y = x then v else cellGet m y := by
  induction m generalizing lo with
  | nil =>
    simp only [cellSet, beq_iff_eq]
    split
    · rename_i hv
      simp [cellGet, hv]
    · simp [cellGet]
  | cons c m ih =>
    obtain ⟨a, b⟩ := c
    simp only [cellsFrom, Bool.and_eq_true] at h
    simp only [cellSet, beq_iff_eq]
    split
    · rename_i hlt
      have hb : cellGet ((a, b) :: m) x = 0 := by
        have : ¬ x = a := by omega
        simp only [cellGet, beq_iff_eq, this, if_false]
        exact cellGet_below h.2 (by omega)
      split
      · rename_i hv
        split
        · rename_i hy
          rw [hy, hb, hv]
        · rfl
      · simp [cellGet]
    · split
      · rename_i heq
        subst heq
        split
        · rename_i hv
          split
          · rename_i hy
            rw [hy, hv]
            exact cellGet_below h.2 (Nat.le_refl x)
          · rename_i hy
            simp [cellGet, hy]
        · simp only [cellGet, beq_iff_eq]
          split <;> simp_all
      · rename_i hne
        simp only [cellGet, beq_iff_eq]
        split
        · rename_i hy
          have : ¬ y = x := by omega
          simp [this]
        · exact ih h.2

/-- A byte read after a write of one byte (R209). -/
theorem cellGet_cellSet {m : List Host.Cell} (h : Memory.wf m = true) (x y : Nat) (v : Byte) :
    cellGet (cellSet m x v) y = if y = x then v else cellGet m y :=
  cellGet_set_from h x y v

/-- A byte that is not among those written. -/
theorem cellGet_cellsPut_out {m : List Host.Cell} (h : Memory.wf m = true) (a : Nat) (bs : List Byte) (y : Nat)
    (hy : y < a ∨ a + bs.length ≤ y) : cellGet (cellsPut m a bs) y = cellGet m y := by
  induction bs generalizing m a with
  | nil => rfl
  | cons b bs ih =>
    simp only [List.length_cons] at hy
    rw [cellsPut, ih (wf_cellSet h a b) (a + 1) (by omega), cellGet_cellSet h]
    have : ¬ y = a := by omega
    simp [this]

/-- A byte that is among those written. -/
theorem cellGet_cellsPut_in {m : List Host.Cell} (h : Memory.wf m = true) (a : Nat) (bs : List Byte) (i : Nat)
    (hi : i < bs.length) : cellGet (cellsPut m a bs) (a + i) = bs.getD i 0 := by
  induction bs generalizing m a i with
  | nil => simp at hi
  | cons b bs ih =>
    cases i with
    | zero =>
      rw [Nat.add_zero, cellsPut, cellGet_cellsPut_out (wf_cellSet h a b) (a + 1) bs a (by omega), cellGet_cellSet h]
      simp
    | succ i =>
      have := ih (wf_cellSet h a b) (a + 1) i (by simpa using hi)
      rw [cellsPut]
      have e : a + (i + 1) = a + 1 + i := by omega
      rw [e, this]
      simp

end Sys2Proof.Machine
end

