-- ==== Sys2Proof/Laws/State.lean ====
section
/-!
SUPPORT. What each update of the state, and of a strand's view, leaves in each field; the strand written back is the strand
read again.
-/

set_option Elab.async false

namespace Sys2Proof.Machine

open Sys2Proof

/-! Updates of the state, field by field. -/

@[simp] theorem State.modCrew_ns (s : State) (r : CrewRef) (f : Crew → Crew) : (s.modCrew r f).ns = s.ns := rfl
@[simp] theorem State.modCrew_cycle (s : State) (r : CrewRef) (f : Crew → Crew) : (s.modCrew r f).cycle = s.cycle := rfl
@[simp] theorem State.modCrew_clks (s : State) (r : CrewRef) (f : Crew → Crew) : (s.modCrew r f).clks = s.clks := rfl
@[simp] theorem State.modCrew_caches (s : State) (r : CrewRef) (f : Crew → Crew) : (s.modCrew r f).caches = s.caches := rfl
@[simp] theorem State.modCrew_mem (s : State) (r : CrewRef) (f : Crew → Crew) : (s.modCrew r f).mem = s.mem := rfl
@[simp] theorem State.modCrew_poison (s : State) (r : CrewRef) (f : Crew → Crew) : (s.modCrew r f).poison = s.poison := rfl
@[simp] theorem State.modCrew_dead (s : State) (r : CrewRef) (f : Crew → Crew) : (s.modCrew r f).dead = s.dead := rfl
@[simp] theorem State.modCrew_frat (s : State) (r : CrewRef) (f : Crew → Crew) : (s.modCrew r f).frat = s.frat := rfl
@[simp] theorem State.modCrew_tlb (s : State) (r : CrewRef) (f : Crew → Crew) : (s.modCrew r f).tlb = s.tlb := rfl
@[simp] theorem State.modCrew_walks (s : State) (r : CrewRef) (f : Crew → Crew) : (s.modCrew r f).walks = s.walks := rfl
@[simp] theorem State.modCrew_invals (s : State) (r : CrewRef) (f : Crew → Crew) : (s.modCrew r f).invals = s.invals := rfl
@[simp] theorem State.modCrew_ports (s : State) (r : CrewRef) (f : Crew → Crew) : (s.modCrew r f).ports = s.ports := rfl
@[simp] theorem State.modCrew_links (s : State) (r : CrewRef) (f : Crew → Crew) : (s.modCrew r f).links = s.links := rfl
@[simp] theorem State.modCrew_pins (s : State) (r : CrewRef) (f : Crew → Crew) : (s.modCrew r f).pins = s.pins := rfl
@[simp] theorem State.modCrew_grants (s : State) (r : CrewRef) (f : Crew → Crew) : (s.modCrew r f).grants = s.grants := rfl
@[simp] theorem State.modCrew_cmds (s : State) (r : CrewRef) (f : Crew → Crew) : (s.modCrew r f).cmds = s.cmds := rfl
@[simp] theorem State.modCrew_nextCmd (s : State) (r : CrewRef) (f : Crew → Crew) : (s.modCrew r f).nextCmd = s.nextCmd := rfl
@[simp] theorem State.modCrew_fences (s : State) (r : CrewRef) (f : Crew → Crew) : (s.modCrew r f).fences = s.fences := rfl
@[simp] theorem State.modCrew_nextFence (s : State) (r : CrewRef) (f : Crew → Crew) : (s.modCrew r f).nextFence = s.nextFence := rfl
@[simp] theorem State.modCrew_funcs (s : State) (r : CrewRef) (f : Crew → Crew) : (s.modCrew r f).funcs = s.funcs := rfl
@[simp] theorem State.modCrew_hostw (s : State) (r : CrewRef) (f : Crew → Crew) : (s.modCrew r f).hostw = s.hostw := rfl
@[simp] theorem State.modCrew_peers (s : State) (r : CrewRef) (f : Crew → Crew) : (s.modCrew r f).peers = s.peers := rfl
@[simp] theorem State.modCrew_cap (s : State) (r : CrewRef) (f : Crew → Crew) : (s.modCrew r f).cap = s.cap := rfl
@[simp] theorem State.modCrew_mhz (s : State) (r : CrewRef) (f : Crew → Crew) : (s.modCrew r f).mhz = s.mhz := rfl
@[simp] theorem State.modCrew_ctxs (s : State) (r : CrewRef) (f : Crew → Crew) : (s.modCrew r f).ctxs = s.ctxs := rfl
@[simp] theorem State.modCrew_focus (s : State) (r : CrewRef) (f : Crew → Crew) : (s.modCrew r f).focus = s.focus := rfl
@[simp] theorem State.modCrew_agenda (s : State) (r : CrewRef) (f : Crew → Crew) : (s.modCrew r f).agenda = s.agenda := rfl
@[simp] theorem State.modCrew_free (s : State) (r : CrewRef) (f : Crew → Crew) : (s.modCrew r f).free = s.free := rfl
@[simp] theorem State.modCrew_resp (s : State) (r : CrewRef) (f : Crew → Crew) : (s.modCrew r f).resp = s.resp := rfl

@[simp] theorem State.modWarp_ns (s : State) (r : WarpRef) (f : Warp → Warp) : (s.modWarp r f).ns = s.ns := rfl
@[simp] theorem State.modWarp_cycle (s : State) (r : WarpRef) (f : Warp → Warp) : (s.modWarp r f).cycle = s.cycle := rfl
@[simp] theorem State.modWarp_clks (s : State) (r : WarpRef) (f : Warp → Warp) : (s.modWarp r f).clks = s.clks := rfl
@[simp] theorem State.modWarp_caches (s : State) (r : WarpRef) (f : Warp → Warp) : (s.modWarp r f).caches = s.caches := rfl
@[simp] theorem State.modWarp_mem (s : State) (r : WarpRef) (f : Warp → Warp) : (s.modWarp r f).mem = s.mem := rfl
@[simp] theorem State.modWarp_poison (s : State) (r : WarpRef) (f : Warp → Warp) : (s.modWarp r f).poison = s.poison := rfl
@[simp] theorem State.modWarp_dead (s : State) (r : WarpRef) (f : Warp → Warp) : (s.modWarp r f).dead = s.dead := rfl
@[simp] theorem State.modWarp_frat (s : State) (r : WarpRef) (f : Warp → Warp) : (s.modWarp r f).frat = s.frat := rfl
@[simp] theorem State.modWarp_tlb (s : State) (r : WarpRef) (f : Warp → Warp) : (s.modWarp r f).tlb = s.tlb := rfl
@[simp] theorem State.modWarp_walks (s : State) (r : WarpRef) (f : Warp → Warp) : (s.modWarp r f).walks = s.walks := rfl
@[simp] theorem State.modWarp_invals (s : State) (r : WarpRef) (f : Warp → Warp) : (s.modWarp r f).invals = s.invals := rfl
@[simp] theorem State.modWarp_ports (s : State) (r : WarpRef) (f : Warp → Warp) : (s.modWarp r f).ports = s.ports := rfl
@[simp] theorem State.modWarp_links (s : State) (r : WarpRef) (f : Warp → Warp) : (s.modWarp r f).links = s.links := rfl
@[simp] theorem State.modWarp_pins (s : State) (r : WarpRef) (f : Warp → Warp) : (s.modWarp r f).pins = s.pins := rfl
@[simp] theorem State.modWarp_grants (s : State) (r : WarpRef) (f : Warp → Warp) : (s.modWarp r f).grants = s.grants := rfl
@[simp] theorem State.modWarp_cmds (s : State) (r : WarpRef) (f : Warp → Warp) : (s.modWarp r f).cmds = s.cmds := rfl
@[simp] theorem State.modWarp_nextCmd (s : State) (r : WarpRef) (f : Warp → Warp) : (s.modWarp r f).nextCmd = s.nextCmd := rfl
@[simp] theorem State.modWarp_fences (s : State) (r : WarpRef) (f : Warp → Warp) : (s.modWarp r f).fences = s.fences := rfl
@[simp] theorem State.modWarp_nextFence (s : State) (r : WarpRef) (f : Warp → Warp) : (s.modWarp r f).nextFence = s.nextFence := rfl
@[simp] theorem State.modWarp_funcs (s : State) (r : WarpRef) (f : Warp → Warp) : (s.modWarp r f).funcs = s.funcs := rfl
@[simp] theorem State.modWarp_hostw (s : State) (r : WarpRef) (f : Warp → Warp) : (s.modWarp r f).hostw = s.hostw := rfl
@[simp] theorem State.modWarp_peers (s : State) (r : WarpRef) (f : Warp → Warp) : (s.modWarp r f).peers = s.peers := rfl
@[simp] theorem State.modWarp_cap (s : State) (r : WarpRef) (f : Warp → Warp) : (s.modWarp r f).cap = s.cap := rfl
@[simp] theorem State.modWarp_mhz (s : State) (r : WarpRef) (f : Warp → Warp) : (s.modWarp r f).mhz = s.mhz := rfl
@[simp] theorem State.modWarp_ctxs (s : State) (r : WarpRef) (f : Warp → Warp) : (s.modWarp r f).ctxs = s.ctxs := rfl
@[simp] theorem State.modWarp_focus (s : State) (r : WarpRef) (f : Warp → Warp) : (s.modWarp r f).focus = s.focus := rfl
@[simp] theorem State.modWarp_agenda (s : State) (r : WarpRef) (f : Warp → Warp) : (s.modWarp r f).agenda = s.agenda := rfl
@[simp] theorem State.modWarp_free (s : State) (r : WarpRef) (f : Warp → Warp) : (s.modWarp r f).free = s.free := rfl
@[simp] theorem State.modWarp_resp (s : State) (r : WarpRef) (f : Warp → Warp) : (s.modWarp r f).resp = s.resp := rfl

@[simp] theorem State.modStrand_ns (s : State) (r : StrandRef) (f : Strand → Strand) : (s.modStrand r f).ns = s.ns := rfl
@[simp] theorem State.modStrand_cycle (s : State) (r : StrandRef) (f : Strand → Strand) : (s.modStrand r f).cycle = s.cycle := rfl
@[simp] theorem State.modStrand_clks (s : State) (r : StrandRef) (f : Strand → Strand) : (s.modStrand r f).clks = s.clks := rfl
@[simp] theorem State.modStrand_caches (s : State) (r : StrandRef) (f : Strand → Strand) : (s.modStrand r f).caches = s.caches := rfl
@[simp] theorem State.modStrand_mem (s : State) (r : StrandRef) (f : Strand → Strand) : (s.modStrand r f).mem = s.mem := rfl
@[simp] theorem State.modStrand_poison (s : State) (r : StrandRef) (f : Strand → Strand) : (s.modStrand r f).poison = s.poison := rfl
@[simp] theorem State.modStrand_dead (s : State) (r : StrandRef) (f : Strand → Strand) : (s.modStrand r f).dead = s.dead := rfl
@[simp] theorem State.modStrand_frat (s : State) (r : StrandRef) (f : Strand → Strand) : (s.modStrand r f).frat = s.frat := rfl
@[simp] theorem State.modStrand_tlb (s : State) (r : StrandRef) (f : Strand → Strand) : (s.modStrand r f).tlb = s.tlb := rfl
@[simp] theorem State.modStrand_walks (s : State) (r : StrandRef) (f : Strand → Strand) : (s.modStrand r f).walks = s.walks := rfl
@[simp] theorem State.modStrand_invals (s : State) (r : StrandRef) (f : Strand → Strand) : (s.modStrand r f).invals = s.invals := rfl
@[simp] theorem State.modStrand_ports (s : State) (r : StrandRef) (f : Strand → Strand) : (s.modStrand r f).ports = s.ports := rfl
@[simp] theorem State.modStrand_links (s : State) (r : StrandRef) (f : Strand → Strand) : (s.modStrand r f).links = s.links := rfl
@[simp] theorem State.modStrand_pins (s : State) (r : StrandRef) (f : Strand → Strand) : (s.modStrand r f).pins = s.pins := rfl
@[simp] theorem State.modStrand_grants (s : State) (r : StrandRef) (f : Strand → Strand) : (s.modStrand r f).grants = s.grants := rfl
@[simp] theorem State.modStrand_cmds (s : State) (r : StrandRef) (f : Strand → Strand) : (s.modStrand r f).cmds = s.cmds := rfl
@[simp] theorem State.modStrand_nextCmd (s : State) (r : StrandRef) (f : Strand → Strand) : (s.modStrand r f).nextCmd = s.nextCmd := rfl
@[simp] theorem State.modStrand_fences (s : State) (r : StrandRef) (f : Strand → Strand) : (s.modStrand r f).fences = s.fences := rfl
@[simp] theorem State.modStrand_nextFence (s : State) (r : StrandRef) (f : Strand → Strand) : (s.modStrand r f).nextFence = s.nextFence := rfl
@[simp] theorem State.modStrand_funcs (s : State) (r : StrandRef) (f : Strand → Strand) : (s.modStrand r f).funcs = s.funcs := rfl
@[simp] theorem State.modStrand_hostw (s : State) (r : StrandRef) (f : Strand → Strand) : (s.modStrand r f).hostw = s.hostw := rfl
@[simp] theorem State.modStrand_peers (s : State) (r : StrandRef) (f : Strand → Strand) : (s.modStrand r f).peers = s.peers := rfl
@[simp] theorem State.modStrand_cap (s : State) (r : StrandRef) (f : Strand → Strand) : (s.modStrand r f).cap = s.cap := rfl
@[simp] theorem State.modStrand_mhz (s : State) (r : StrandRef) (f : Strand → Strand) : (s.modStrand r f).mhz = s.mhz := rfl
@[simp] theorem State.modStrand_ctxs (s : State) (r : StrandRef) (f : Strand → Strand) : (s.modStrand r f).ctxs = s.ctxs := rfl
@[simp] theorem State.modStrand_focus (s : State) (r : StrandRef) (f : Strand → Strand) : (s.modStrand r f).focus = s.focus := rfl
@[simp] theorem State.modStrand_agenda (s : State) (r : StrandRef) (f : Strand → Strand) : (s.modStrand r f).agenda = s.agenda := rfl
@[simp] theorem State.modStrand_free (s : State) (r : StrandRef) (f : Strand → Strand) : (s.modStrand r f).free = s.free := rfl
@[simp] theorem State.modStrand_resp (s : State) (r : StrandRef) (f : Strand → Strand) : (s.modStrand r f).resp = s.resp := rfl

@[simp] theorem State.putCur_ns (s : State) (c : Cur) : (s.putCur c).ns = s.ns := rfl
@[simp] theorem State.putCur_cycle (s : State) (c : Cur) : (s.putCur c).cycle = s.cycle := rfl
@[simp] theorem State.putCur_clks (s : State) (c : Cur) : (s.putCur c).clks = s.clks := rfl
@[simp] theorem State.putCur_caches (s : State) (c : Cur) : (s.putCur c).caches = s.caches := rfl
@[simp] theorem State.putCur_mem (s : State) (c : Cur) : (s.putCur c).mem = s.mem := rfl
@[simp] theorem State.putCur_poison (s : State) (c : Cur) : (s.putCur c).poison = s.poison := rfl
@[simp] theorem State.putCur_dead (s : State) (c : Cur) : (s.putCur c).dead = s.dead := rfl
@[simp] theorem State.putCur_frat (s : State) (c : Cur) : (s.putCur c).frat = s.frat := rfl
@[simp] theorem State.putCur_tlb (s : State) (c : Cur) : (s.putCur c).tlb = s.tlb := rfl
@[simp] theorem State.putCur_walks (s : State) (c : Cur) : (s.putCur c).walks = s.walks := rfl
@[simp] theorem State.putCur_invals (s : State) (c : Cur) : (s.putCur c).invals = s.invals := rfl
@[simp] theorem State.putCur_ports (s : State) (c : Cur) : (s.putCur c).ports = s.ports := rfl
@[simp] theorem State.putCur_links (s : State) (c : Cur) : (s.putCur c).links = s.links := rfl
@[simp] theorem State.putCur_pins (s : State) (c : Cur) : (s.putCur c).pins = s.pins := rfl
@[simp] theorem State.putCur_grants (s : State) (c : Cur) : (s.putCur c).grants = s.grants := rfl
@[simp] theorem State.putCur_cmds (s : State) (c : Cur) : (s.putCur c).cmds = s.cmds := rfl
@[simp] theorem State.putCur_nextCmd (s : State) (c : Cur) : (s.putCur c).nextCmd = s.nextCmd := rfl
@[simp] theorem State.putCur_fences (s : State) (c : Cur) : (s.putCur c).fences = s.fences := rfl
@[simp] theorem State.putCur_nextFence (s : State) (c : Cur) : (s.putCur c).nextFence = s.nextFence := rfl
@[simp] theorem State.putCur_funcs (s : State) (c : Cur) : (s.putCur c).funcs = s.funcs := rfl
@[simp] theorem State.putCur_hostw (s : State) (c : Cur) : (s.putCur c).hostw = s.hostw := rfl
@[simp] theorem State.putCur_peers (s : State) (c : Cur) : (s.putCur c).peers = s.peers := rfl
@[simp] theorem State.putCur_cap (s : State) (c : Cur) : (s.putCur c).cap = s.cap := rfl
@[simp] theorem State.putCur_mhz (s : State) (c : Cur) : (s.putCur c).mhz = s.mhz := rfl
@[simp] theorem State.putCur_ctxs (s : State) (c : Cur) : (s.putCur c).ctxs = s.ctxs := rfl
@[simp] theorem State.putCur_focus (s : State) (c : Cur) : (s.putCur c).focus = s.focus := rfl
@[simp] theorem State.putCur_agenda (s : State) (c : Cur) : (s.putCur c).agenda = s.agenda := rfl
@[simp] theorem State.putCur_free (s : State) (c : Cur) : (s.putCur c).free = s.free := rfl
@[simp] theorem State.putCur_resp (s : State) (c : Cur) : (s.putCur c).resp = s.resp := rfl

@[simp] theorem State.modCtx_ns (s : State) (n : Nat) (f : Ctx → Ctx) : (s.modCtx n f).ns = s.ns := rfl
@[simp] theorem State.modCtx_cycle (s : State) (n : Nat) (f : Ctx → Ctx) : (s.modCtx n f).cycle = s.cycle := rfl
@[simp] theorem State.modCtx_clks (s : State) (n : Nat) (f : Ctx → Ctx) : (s.modCtx n f).clks = s.clks := rfl
@[simp] theorem State.modCtx_caches (s : State) (n : Nat) (f : Ctx → Ctx) : (s.modCtx n f).caches = s.caches := rfl
@[simp] theorem State.modCtx_mem (s : State) (n : Nat) (f : Ctx → Ctx) : (s.modCtx n f).mem = s.mem := rfl
@[simp] theorem State.modCtx_poison (s : State) (n : Nat) (f : Ctx → Ctx) : (s.modCtx n f).poison = s.poison := rfl
@[simp] theorem State.modCtx_dead (s : State) (n : Nat) (f : Ctx → Ctx) : (s.modCtx n f).dead = s.dead := rfl
@[simp] theorem State.modCtx_frat (s : State) (n : Nat) (f : Ctx → Ctx) : (s.modCtx n f).frat = s.frat := rfl
@[simp] theorem State.modCtx_tlb (s : State) (n : Nat) (f : Ctx → Ctx) : (s.modCtx n f).tlb = s.tlb := rfl
@[simp] theorem State.modCtx_walks (s : State) (n : Nat) (f : Ctx → Ctx) : (s.modCtx n f).walks = s.walks := rfl
@[simp] theorem State.modCtx_invals (s : State) (n : Nat) (f : Ctx → Ctx) : (s.modCtx n f).invals = s.invals := rfl
@[simp] theorem State.modCtx_ports (s : State) (n : Nat) (f : Ctx → Ctx) : (s.modCtx n f).ports = s.ports := rfl
@[simp] theorem State.modCtx_links (s : State) (n : Nat) (f : Ctx → Ctx) : (s.modCtx n f).links = s.links := rfl
@[simp] theorem State.modCtx_pins (s : State) (n : Nat) (f : Ctx → Ctx) : (s.modCtx n f).pins = s.pins := rfl
@[simp] theorem State.modCtx_grants (s : State) (n : Nat) (f : Ctx → Ctx) : (s.modCtx n f).grants = s.grants := rfl
@[simp] theorem State.modCtx_cmds (s : State) (n : Nat) (f : Ctx → Ctx) : (s.modCtx n f).cmds = s.cmds := rfl
@[simp] theorem State.modCtx_nextCmd (s : State) (n : Nat) (f : Ctx → Ctx) : (s.modCtx n f).nextCmd = s.nextCmd := rfl
@[simp] theorem State.modCtx_fences (s : State) (n : Nat) (f : Ctx → Ctx) : (s.modCtx n f).fences = s.fences := rfl
@[simp] theorem State.modCtx_nextFence (s : State) (n : Nat) (f : Ctx → Ctx) : (s.modCtx n f).nextFence = s.nextFence := rfl
@[simp] theorem State.modCtx_funcs (s : State) (n : Nat) (f : Ctx → Ctx) : (s.modCtx n f).funcs = s.funcs := rfl
@[simp] theorem State.modCtx_hostw (s : State) (n : Nat) (f : Ctx → Ctx) : (s.modCtx n f).hostw = s.hostw := rfl
@[simp] theorem State.modCtx_peers (s : State) (n : Nat) (f : Ctx → Ctx) : (s.modCtx n f).peers = s.peers := rfl
@[simp] theorem State.modCtx_cap (s : State) (n : Nat) (f : Ctx → Ctx) : (s.modCtx n f).cap = s.cap := rfl
@[simp] theorem State.modCtx_mhz (s : State) (n : Nat) (f : Ctx → Ctx) : (s.modCtx n f).mhz = s.mhz := rfl
@[simp] theorem State.modCtx_crews (s : State) (n : Nat) (f : Ctx → Ctx) : (s.modCtx n f).crews = s.crews := rfl
@[simp] theorem State.modCtx_focus (s : State) (n : Nat) (f : Ctx → Ctx) : (s.modCtx n f).focus = s.focus := rfl
@[simp] theorem State.modCtx_agenda (s : State) (n : Nat) (f : Ctx → Ctx) : (s.modCtx n f).agenda = s.agenda := rfl
@[simp] theorem State.modCtx_free (s : State) (n : Nat) (f : Ctx → Ctx) : (s.modCtx n f).free = s.free := rfl
@[simp] theorem State.modCtx_resp (s : State) (n : Nat) (f : Ctx → Ctx) : (s.modCtx n f).resp = s.resp := rfl

@[simp] theorem State.modQueue_ns (s : State) (n q : Nat) (f : Queue → Queue) : (s.modQueue n q f).ns = s.ns := rfl
@[simp] theorem State.modQueue_cycle (s : State) (n q : Nat) (f : Queue → Queue) : (s.modQueue n q f).cycle = s.cycle := rfl
@[simp] theorem State.modQueue_clks (s : State) (n q : Nat) (f : Queue → Queue) : (s.modQueue n q f).clks = s.clks := rfl
@[simp] theorem State.modQueue_caches (s : State) (n q : Nat) (f : Queue → Queue) : (s.modQueue n q f).caches = s.caches := rfl
@[simp] theorem State.modQueue_mem (s : State) (n q : Nat) (f : Queue → Queue) : (s.modQueue n q f).mem = s.mem := rfl
@[simp] theorem State.modQueue_poison (s : State) (n q : Nat) (f : Queue → Queue) : (s.modQueue n q f).poison = s.poison := rfl
@[simp] theorem State.modQueue_dead (s : State) (n q : Nat) (f : Queue → Queue) : (s.modQueue n q f).dead = s.dead := rfl
@[simp] theorem State.modQueue_frat (s : State) (n q : Nat) (f : Queue → Queue) : (s.modQueue n q f).frat = s.frat := rfl
@[simp] theorem State.modQueue_tlb (s : State) (n q : Nat) (f : Queue → Queue) : (s.modQueue n q f).tlb = s.tlb := rfl
@[simp] theorem State.modQueue_walks (s : State) (n q : Nat) (f : Queue → Queue) : (s.modQueue n q f).walks = s.walks := rfl
@[simp] theorem State.modQueue_invals (s : State) (n q : Nat) (f : Queue → Queue) : (s.modQueue n q f).invals = s.invals := rfl
@[simp] theorem State.modQueue_ports (s : State) (n q : Nat) (f : Queue → Queue) : (s.modQueue n q f).ports = s.ports := rfl
@[simp] theorem State.modQueue_links (s : State) (n q : Nat) (f : Queue → Queue) : (s.modQueue n q f).links = s.links := rfl
@[simp] theorem State.modQueue_pins (s : State) (n q : Nat) (f : Queue → Queue) : (s.modQueue n q f).pins = s.pins := rfl
@[simp] theorem State.modQueue_grants (s : State) (n q : Nat) (f : Queue → Queue) : (s.modQueue n q f).grants = s.grants := rfl
@[simp] theorem State.modQueue_cmds (s : State) (n q : Nat) (f : Queue → Queue) : (s.modQueue n q f).cmds = s.cmds := rfl
@[simp] theorem State.modQueue_nextCmd (s : State) (n q : Nat) (f : Queue → Queue) : (s.modQueue n q f).nextCmd = s.nextCmd := rfl
@[simp] theorem State.modQueue_fences (s : State) (n q : Nat) (f : Queue → Queue) : (s.modQueue n q f).fences = s.fences := rfl
@[simp] theorem State.modQueue_nextFence (s : State) (n q : Nat) (f : Queue → Queue) : (s.modQueue n q f).nextFence = s.nextFence := rfl
@[simp] theorem State.modQueue_funcs (s : State) (n q : Nat) (f : Queue → Queue) : (s.modQueue n q f).funcs = s.funcs := rfl
@[simp] theorem State.modQueue_hostw (s : State) (n q : Nat) (f : Queue → Queue) : (s.modQueue n q f).hostw = s.hostw := rfl
@[simp] theorem State.modQueue_peers (s : State) (n q : Nat) (f : Queue → Queue) : (s.modQueue n q f).peers = s.peers := rfl
@[simp] theorem State.modQueue_cap (s : State) (n q : Nat) (f : Queue → Queue) : (s.modQueue n q f).cap = s.cap := rfl
@[simp] theorem State.modQueue_mhz (s : State) (n q : Nat) (f : Queue → Queue) : (s.modQueue n q f).mhz = s.mhz := rfl
@[simp] theorem State.modQueue_crews (s : State) (n q : Nat) (f : Queue → Queue) : (s.modQueue n q f).crews = s.crews := rfl
@[simp] theorem State.modQueue_focus (s : State) (n q : Nat) (f : Queue → Queue) : (s.modQueue n q f).focus = s.focus := rfl
@[simp] theorem State.modQueue_agenda (s : State) (n q : Nat) (f : Queue → Queue) : (s.modQueue n q f).agenda = s.agenda := rfl
@[simp] theorem State.modQueue_free (s : State) (n q : Nat) (f : Queue → Queue) : (s.modQueue n q f).free = s.free := rfl
@[simp] theorem State.modQueue_resp (s : State) (n q : Nat) (f : Queue → Queue) : (s.modQueue n q f).resp = s.resp := rfl

/-! Updates of a strand's view, field by field. -/

@[simp] theorem Cur.mapT_ref (c : Cur) (f : Strand → Strand) : (c.mapT f).ref = c.ref := rfl
@[simp] theorem Cur.mapT_crew (c : Cur) (f : Strand → Strand) : (c.mapT f).crew = c.crew := rfl
@[simp] theorem Cur.mapT_warp (c : Cur) (f : Strand → Strand) : (c.mapT f).warp = c.warp := rfl
@[simp] theorem Cur.mapT_free (c : Cur) (f : Strand → Strand) : (c.mapT f).free = c.free := rfl
@[simp] theorem Cur.mapT_log (c : Cur) (f : Strand → Strand) : (c.mapT f).log = c.log := rfl
@[simp] theorem Cur.mapT_acc (c : Cur) (f : Strand → Strand) : (c.mapT f).acc = c.acc := rfl

@[simp] theorem Cur.mapCore_ref (c : Cur) (f : StrandCore → StrandCore) : (c.mapCore f).ref = c.ref := rfl
@[simp] theorem Cur.mapCore_crew (c : Cur) (f : StrandCore → StrandCore) : (c.mapCore f).crew = c.crew := rfl
@[simp] theorem Cur.mapCore_warp (c : Cur) (f : StrandCore → StrandCore) : (c.mapCore f).warp = c.warp := rfl
@[simp] theorem Cur.mapCore_free (c : Cur) (f : StrandCore → StrandCore) : (c.mapCore f).free = c.free := rfl
@[simp] theorem Cur.mapCore_log (c : Cur) (f : StrandCore → StrandCore) : (c.mapCore f).log = c.log := rfl
@[simp] theorem Cur.mapCore_acc (c : Cur) (f : StrandCore → StrandCore) : (c.mapCore f).acc = c.acc := rfl

@[simp] theorem Cur.mapChunk_ref (c : Cur) (f : Chunk → Chunk) : (c.mapChunk f).ref = c.ref := rfl
@[simp] theorem Cur.mapChunk_crew (c : Cur) (f : Chunk → Chunk) : (c.mapChunk f).crew = c.crew := rfl
@[simp] theorem Cur.mapChunk_warp (c : Cur) (f : Chunk → Chunk) : (c.mapChunk f).warp = c.warp := rfl
@[simp] theorem Cur.mapChunk_free (c : Cur) (f : Chunk → Chunk) : (c.mapChunk f).free = c.free := rfl
@[simp] theorem Cur.mapChunk_log (c : Cur) (f : Chunk → Chunk) : (c.mapChunk f).log = c.log := rfl
@[simp] theorem Cur.mapChunk_acc (c : Cur) (f : Chunk → Chunk) : (c.mapChunk f).acc = c.acc := rfl

@[simp] theorem Cur.goto_ref (c : Cur) (a : W64) : (c.goto a).ref = c.ref := rfl
@[simp] theorem Cur.goto_crew (c : Cur) (a : W64) : (c.goto a).crew = c.crew := rfl
@[simp] theorem Cur.goto_warp (c : Cur) (a : W64) : (c.goto a).warp = c.warp := rfl
@[simp] theorem Cur.goto_free (c : Cur) (a : W64) : (c.goto a).free = c.free := rfl
@[simp] theorem Cur.goto_log (c : Cur) (a : W64) : (c.goto a).log = c.log := rfl
@[simp] theorem Cur.goto_acc (c : Cur) (a : W64) : (c.goto a).acc = c.acc := rfl

@[simp] theorem Cur.endChunk_ref (c : Cur) : (c.endChunk).ref = c.ref := rfl
@[simp] theorem Cur.endChunk_crew (c : Cur) : (c.endChunk).crew = c.crew := rfl
@[simp] theorem Cur.endChunk_warp (c : Cur) : (c.endChunk).warp = c.warp := rfl
@[simp] theorem Cur.endChunk_free (c : Cur) : (c.endChunk).free = c.free := rfl
@[simp] theorem Cur.endChunk_log (c : Cur) : (c.endChunk).log = c.log := rfl
@[simp] theorem Cur.endChunk_acc (c : Cur) : (c.endChunk).acc = c.acc := rfl

@[simp] theorem Cur.setK_ref (c : Cur) (k : KReg) (x : Cursor) : (c.setK k x).ref = c.ref := rfl
@[simp] theorem Cur.setK_crew (c : Cur) (k : KReg) (x : Cursor) : (c.setK k x).crew = c.crew := rfl
@[simp] theorem Cur.setK_warp (c : Cur) (k : KReg) (x : Cursor) : (c.setK k x).warp = c.warp := rfl
@[simp] theorem Cur.setK_free (c : Cur) (k : KReg) (x : Cursor) : (c.setK k x).free = c.free := rfl
@[simp] theorem Cur.setK_log (c : Cur) (k : KReg) (x : Cursor) : (c.setK k x).log = c.log := rfl
@[simp] theorem Cur.setK_acc (c : Cur) (k : KReg) (x : Cursor) : (c.setK k x).acc = c.acc := rfl

@[simp] theorem Cur.setTile_ref (c : Cur) (k : TReg) (x : Tile) : (c.setTile k x).ref = c.ref := rfl
@[simp] theorem Cur.setTile_crew (c : Cur) (k : TReg) (x : Tile) : (c.setTile k x).crew = c.crew := rfl
@[simp] theorem Cur.setTile_t (c : Cur) (k : TReg) (x : Tile) : (c.setTile k x).t = c.t := rfl
@[simp] theorem Cur.setTile_free (c : Cur) (k : TReg) (x : Tile) : (c.setTile k x).free = c.free := rfl
@[simp] theorem Cur.setTile_acc (c : Cur) (k : TReg) (x : Tile) : (c.setTile k x).acc = c.acc := rfl

@[simp] theorem Cur.setS_ref (c : Cur) (i : SReg) (x : W64) : (c.setS i x).ref = c.ref := by
  unfold Cur.setS; split <;> rfl
@[simp] theorem Cur.setS_crew (c : Cur) (i : SReg) (x : W64) : (c.setS i x).crew = c.crew := by
  unfold Cur.setS; split <;> rfl
@[simp] theorem Cur.setS_warp (c : Cur) (i : SReg) (x : W64) : (c.setS i x).warp = c.warp := by
  unfold Cur.setS; split <;> rfl
@[simp] theorem Cur.setS_free (c : Cur) (i : SReg) (x : W64) : (c.setS i x).free = c.free := by
  unfold Cur.setS; split <;> rfl
@[simp] theorem Cur.setS_acc (c : Cur) (i : SReg) (x : W64) : (c.setS i x).acc = c.acc := by
  unfold Cur.setS; split <;> rfl

@[simp] theorem Cur.setP_ref (c : Cur) (i : PReg) (m v : Mask) : (c.setP i m v).ref = c.ref := by
  unfold Cur.setP; split <;> rfl
@[simp] theorem Cur.setP_crew (c : Cur) (i : PReg) (m v : Mask) : (c.setP i m v).crew = c.crew := by
  unfold Cur.setP; split <;> rfl
@[simp] theorem Cur.setP_t (c : Cur) (i : PReg) (m v : Mask) : (c.setP i m v).t = c.t := by
  unfold Cur.setP; split <;> rfl
@[simp] theorem Cur.setP_free (c : Cur) (i : PReg) (m v : Mask) : (c.setP i m v).free = c.free := by
  unfold Cur.setP; split <;> rfl
@[simp] theorem Cur.setP_acc (c : Cur) (i : PReg) (m v : Mask) : (c.setP i m v).acc = c.acc := by
  unfold Cur.setP; split <;> rfl

@[simp] theorem Cur.putSlot_ref (c : Cur) (i : Nat) (x : VecReg) : (c.putSlot i x).ref = c.ref := by
  unfold Cur.putSlot; dsimp only; split <;> rfl
@[simp] theorem Cur.putSlot_crew (c : Cur) (i : Nat) (x : VecReg) : (c.putSlot i x).crew = c.crew := by
  unfold Cur.putSlot; dsimp only; split <;> rfl
@[simp] theorem Cur.putSlot_free (c : Cur) (i : Nat) (x : VecReg) : (c.putSlot i x).free = c.free := by
  unfold Cur.putSlot; dsimp only; split <;> rfl
@[simp] theorem Cur.putSlot_acc (c : Cur) (i : Nat) (x : VecReg) : (c.putSlot i x).acc = c.acc := by
  unfold Cur.putSlot; dsimp only; split <;> rfl

@[simp] theorem Cur.putV_ref (c : Cur) (r : VReg) (x : VecReg) : (c.putV r x).ref = c.ref := by
  cases r
  · exact Cur.putSlot_ref _ _ _
  · rfl
@[simp] theorem Cur.putV_crew (c : Cur) (r : VReg) (x : VecReg) : (c.putV r x).crew = c.crew := by
  cases r
  · exact Cur.putSlot_crew _ _ _
  · rfl
@[simp] theorem Cur.putV_free (c : Cur) (r : VReg) (x : VecReg) : (c.putV r x).free = c.free := by
  cases r
  · exact Cur.putSlot_free _ _ _
  · rfl
@[simp] theorem Cur.putV_acc (c : Cur) (r : VReg) (x : VecReg) : (c.putV r x).acc = c.acc := by
  cases r
  · exact Cur.putSlot_acc _ _ _
  · rfl

@[simp] theorem Cur.setV_ref (c : Cur) (r : VReg) (m : Mask) (f : Nat → W32) (t : Tag) : (c.setV r m f t).ref = c.ref := Cur.putV_ref _ _ _
@[simp] theorem Cur.setV_crew (c : Cur) (r : VReg) (m : Mask) (f : Nat → W32) (t : Tag) : (c.setV r m f t).crew = c.crew := Cur.putV_crew _ _ _
@[simp] theorem Cur.setV_free (c : Cur) (r : VReg) (m : Mask) (f : Nat → W32) (t : Tag) : (c.setV r m f t).free = c.free := Cur.putV_free _ _ _
@[simp] theorem Cur.setV_acc (c : Cur) (r : VReg) (m : Mask) (f : Nat → W32) (t : Tag) : (c.setV r m f t).acc = c.acc := Cur.putV_acc _ _ _

@[simp] theorem Cur.openChunk_ref (c : Cur) : (c.openChunk).ref = c.ref := by
  unfold Cur.openChunk; split <;> rfl
@[simp] theorem Cur.openChunk_crew (c : Cur) : (c.openChunk).crew = c.crew := by
  unfold Cur.openChunk; split <;> rfl
@[simp] theorem Cur.openChunk_warp (c : Cur) : (c.openChunk).warp = c.warp := by
  unfold Cur.openChunk; split <;> rfl
@[simp] theorem Cur.openChunk_free (c : Cur) : (c.openChunk).free = c.free := by
  unfold Cur.openChunk; split <;> rfl
@[simp] theorem Cur.openChunk_log (c : Cur) : (c.openChunk).log = c.log := by
  unfold Cur.openChunk; split <;> rfl
@[simp] theorem Cur.openChunk_acc (c : Cur) : (c.openChunk).acc = c.acc := by
  unfold Cur.openChunk; split <;> rfl

@[simp] theorem Cur.advance_ref (c : Cur) (n : Nat) : (c.advance n).ref = c.ref := by
  unfold Cur.advance; dsimp only; split <;> rfl
@[simp] theorem Cur.advance_crew (c : Cur) (n : Nat) : (c.advance n).crew = c.crew := by
  unfold Cur.advance; dsimp only; split <;> rfl
@[simp] theorem Cur.advance_warp (c : Cur) (n : Nat) : (c.advance n).warp = c.warp := by
  unfold Cur.advance; dsimp only; split <;> rfl
@[simp] theorem Cur.advance_free (c : Cur) (n : Nat) : (c.advance n).free = c.free := by
  unfold Cur.advance; dsimp only; split <;> rfl
@[simp] theorem Cur.advance_log (c : Cur) (n : Nat) : (c.advance n).log = c.log := by
  unfold Cur.advance; dsimp only; split <;> rfl
@[simp] theorem Cur.advance_acc (c : Cur) (n : Nat) : (c.advance n).acc = c.acc := by
  unfold Cur.advance; dsimp only; split <;> rfl

@[simp] theorem Cur.pend_ref (c : Cur) (cf : Cf) (l : List OldVal) : (c.pend cf l).ref = c.ref := by
  unfold Cur.pend; split <;> rfl
@[simp] theorem Cur.pend_crew (c : Cur) (cf : Cf) (l : List OldVal) : (c.pend cf l).crew = c.crew := by
  unfold Cur.pend; split <;> rfl
@[simp] theorem Cur.pend_warp (c : Cur) (cf : Cf) (l : List OldVal) : (c.pend cf l).warp = c.warp := by
  unfold Cur.pend; split <;> rfl
@[simp] theorem Cur.pend_free (c : Cur) (cf : Cf) (l : List OldVal) : (c.pend cf l).free = c.free := by
  unfold Cur.pend; split <;> rfl
@[simp] theorem Cur.pend_log (c : Cur) (cf : Cf) (l : List OldVal) : (c.pend cf l).log = c.log := by
  unfold Cur.pend; split <;> rfl
@[simp] theorem Cur.pend_acc (c : Cur) (cf : Cf) (l : List OldVal) : (c.pend cf l).acc = c.acc := by
  unfold Cur.pend; split <;> rfl

@[simp] theorem Cur.retire_ref (c : Cur) (fm : Form) : (c.retire fm).ref = c.ref := by
  unfold Cur.retire; dsimp only; split <;> simp
@[simp] theorem Cur.retire_crew (c : Cur) (fm : Form) : (c.retire fm).crew = c.crew := by
  unfold Cur.retire; dsimp only; split <;> simp
@[simp] theorem Cur.retire_warp (c : Cur) (fm : Form) : (c.retire fm).warp = c.warp := by
  unfold Cur.retire; dsimp only; split <;> simp
@[simp] theorem Cur.retire_free (c : Cur) (fm : Form) : (c.retire fm).free = c.free := by
  unfold Cur.retire; dsimp only; split <;> simp
@[simp] theorem Cur.retire_log (c : Cur) (fm : Form) : (c.retire fm).log = c.log := by
  unfold Cur.retire; dsimp only; split <;> simp
@[simp] theorem Cur.retire_acc (c : Cur) (fm : Form) : (c.retire fm).acc = c.acc := by
  unfold Cur.retire; dsimp only; split <;> simp

/-- Writing a register changes of its strand at most the tags that it keeps for the window (R183). -/
theorem Cur.putSlot_t (c : Cur) (i : Nat) (x : VecReg) :
    (c.putSlot i x).t = { c.t with core := { c.t.core with wtags := (c.putSlot i x).t.core.wtags } } := by
  unfold Cur.putSlot; dsimp only; split <;> rfl

theorem Cur.putV_t (c : Cur) (r : VReg) (x : VecReg) :
    (c.putV r x).t = { c.t with core := { c.t.core with wtags := (c.putV r x).t.core.wtags } } := by
  cases r
  · exact Cur.putSlot_t _ _ _
  · rfl

@[simp] theorem Cur.putV_chunk (c : Cur) (r : VReg) (x : VecReg) : (c.putV r x).t.chunk = c.t.chunk := by rw [Cur.putV_t]
@[simp] theorem Cur.putV_wait (c : Cur) (r : VReg) (x : VecReg) : (c.putV r x).t.wait = c.t.wait := by rw [Cur.putV_t]
@[simp] theorem Cur.putV_pends (c : Cur) (r : VReg) (x : VecReg) : (c.putV r x).t.pends = c.t.pends := by rw [Cur.putV_t]
@[simp] theorem Cur.putV_sqcnt (c : Cur) (r : VReg) (x : VecReg) : (c.putV r x).t.sqcnt = c.t.sqcnt := by rw [Cur.putV_t]
@[simp] theorem Cur.putV_earlier (c : Cur) (r : VReg) (x : VecReg) : (c.putV r x).t.earlier = c.t.earlier := by rw [Cur.putV_t]
@[simp] theorem Cur.putV_masks (c : Cur) (r : VReg) (x : VecReg) :
    (c.putV r x).t.core.l = c.t.core.l ∧ (c.putV r x).t.core.em = c.t.core.em ∧ (c.putV r x).t.core.hm = c.t.core.hm := by
  rw [Cur.putV_t]; exact ⟨rfl, rfl, rfl⟩

end Sys2Proof.Machine
end

