-- ==== Sys2Proof/Laws/Strand.lean ====
section
/-!
SUPPORT. The strand, warp and crew that a view names: what is read back after they are written, and that all others are as
before.
-/

set_option Elab.async false

namespace Sys2Proof.Machine

open Sys2Proof

theorem crew?_modCrew_self (s : State) (r : CrewRef) (f : Crew → Crew) (hf : ∀ c, c.ref = r → (f c).ref = r) :
    (s.modCrew r f).crew? r = (s.crew? r).map f := by
  unfold State.crew? State.modCrew
  exact find?_updIf_same _ f s.crews (fun x hx => by simpa using hf x (by simpa using hx))

theorem crew?_modCrew_ne (s : State) (r q : CrewRef) (f : Crew → Crew) (hf : ∀ c, c.ref = r → (f c).ref = r) (hq : q ≠ r) :
    (s.modCrew r f).crew? q = s.crew? q := by
  unfold State.crew? State.modCrew
  refine find?_updIf_other _ _ f s.crews (fun x hx => ?_) (fun x hx => ?_)
  · have hx : x.ref = r := by simpa using hx
    have : (f x).ref ≠ q := by rw [hf x hx]; exact fun e => hq e.symm
    simpa using this
  · have hx : x.ref = r := by simpa using hx
    have : x.ref ≠ q := by rw [hx]; exact fun e => hq e.symm
    simpa using this

/-- What a view shows. -/
theorem curOf_iff (s : State) (r : StrandRef) (c : Cur) :
    s.curOf r = some c ↔ c.ref = r ∧ s.crew? r.w.crew = some c.crew ∧ c.crew.warp? r.w.warp = some c.warp ∧
      c.warp.strand? r.strand = some c.t ∧ c.free = s.free ∧ c.log = [] ∧ c.acc = [] := by
  unfold State.curOf
  constructor
  · intro h
    split at h
    · cases h
    · rename_i x hx
      split at h
      · cases h
      · rename_i w hw
        split at h
        · cases h
        · rename_i t ht
          cases h
          exact ⟨rfl, hx, hw, ht, rfl, rfl, rfl⟩
  · rintro ⟨h1, h2, h3, h4, h5, h6, h7⟩
    obtain ⟨ref, crew, warp, t, free, log, acc⟩ := c
    simp only at h1 h2 h3 h4 h5 h6 h7
    subst h1 h5 h6 h7
    simp only [h2, h3, h4]

theorem crew?_ref {s : State} {r : CrewRef} {c : Crew} (h : s.crew? r = some c) : c.ref = r := by
  simpa using List.find?_some h

theorem warp?_id {c : Crew} {i : Nat} {w : Warp} (h : c.warp? i = some w) : w.id = i := by
  simpa using List.find?_some h

theorem strand?_lt {w : Warp} {i : Nat} {t : Strand} (h : w.strand? i = some t) : i < w.strands.length := by
  unfold Warp.strand? at h
  rw [List.getD_eq_getElem?_getD] at h
  cases Nat.lt_or_ge i w.strands.length with
  | inl h => exact h
  | inr hge => rw [List.getElem?_eq_none_iff.mpr hge] at h; cases h

theorem warp?_updIf_self (c : Crew) (i : Nat) (f : Warp → Warp) (hf : ∀ w, w.id = i → (f w).id = i) :
    ({ c with warps := updIf (fun w => w.id == i) f c.warps } : Crew).warp? i = (c.warp? i).map f := by
  unfold Crew.warp?
  exact find?_updIf_same _ f c.warps (fun x hx => by simpa using hf x (by simpa using hx))

theorem warp?_updIf_ne (c : Crew) (i j : Nat) (f : Warp → Warp) (hf : ∀ w, w.id = i → (f w).id = i) (hj : j ≠ i) :
    ({ c with warps := updIf (fun w => w.id == i) f c.warps } : Crew).warp? j = c.warp? j := by
  unfold Crew.warp?
  refine find?_updIf_other _ _ f c.warps (fun x hx => ?_) (fun x hx => ?_)
  · have hx : x.id = i := by simpa using hx
    have : (f x).id ≠ j := by rw [hf x hx]; exact fun e => hj e.symm
    simpa using this
  · have hx : x.id = i := by simpa using hx
    have : x.id ≠ j := by rw [hx]; exact fun e => hj e.symm
    simpa using this

theorem strand?_setStrand_self (w : Warp) (i : Nat) (x : Option Strand) (h : i < w.strands.length) :
    (w.setStrand i x).strand? i = x := getD_setAt_self w.strands i x none h

theorem strand?_setStrand_ne (w : Warp) (i j : Nat) (x : Option Strand) (h : j ≠ i) :
    (w.setStrand i x).strand? j = w.strand? j := getD_setAt_ne w.strands i j x none h

/-- The crew of a view with its warp and strand written back. -/
def Cur.crewOut (c : Cur) : Crew :=
  { c.crew with warps := updIf (fun w => w.id == c.ref.w.warp) (fun _ => c.warpOut) c.crew.warps }

theorem putCur_eq (s : State) (e : Cur) : s.putCur e = s.modCrew e.ref.w.crew (fun _ => e.crewOut) := rfl

/-- The view of a strand that has just been written back. -/
def Cur.back (e : Cur) (free : Nat) : Cur :=
  { ref := e.ref, crew := e.crewOut, warp := e.warpOut, t := e.t, free := free, log := [], acc := [] }

/-- `e` is a later view of the strand that `c` views, of the same warp and crew. -/
structure Cur.Of (c e : Cur) : Prop where
  ref     : e.ref = c.ref
  crew    : e.crew = c.crew
  id      : e.warp.id = c.warp.id
  strands : e.warp.strands = c.warp.strands

theorem putCur_spec {s : State} {c e : Cur} (h : s.curOf c.ref = some c) (he : c.Of e) :
    (s.putCur e).curOf c.ref = some (e.back s.free) := by
  obtain ⟨-, h2, h3, h4, -⟩ := (curOf_iff s c.ref c).mp h
  have hid : e.warpOut.id = c.ref.w.warp := by
    show e.warp.id = _
    rw [he.id, warp?_id h3]
  have href : e.crewOut.ref = c.ref.w.crew := by
    show e.crew.ref = _
    rw [he.crew, crew?_ref h2]
  rw [curOf_iff]
  refine ⟨he.ref, ?_, ?_, ?_, rfl, rfl, rfl⟩
  · rw [putCur_eq, he.ref, crew?_modCrew_self _ _ _ (fun _ _ => href), h2]
    rfl
  · show e.crewOut.warp? _ = some e.warpOut
    unfold Cur.crewOut
    rw [he.ref, warp?_updIf_self _ _ _ (fun _ _ => hid), he.crew, h3]
    rfl
  · show e.warpOut.strand? _ = some e.t
    unfold Cur.warpOut
    rw [he.ref]
    exact strand?_setStrand_self _ _ _ (by rw [he.strands]; exact strand?_lt h4)

theorem putCur_crew_ne {s : State} {c e : Cur} (h : s.curOf c.ref = some c) (he : c.Of e) (r : CrewRef)
    (hr : r ≠ c.ref.w.crew) : (s.putCur e).crew? r = s.crew? r := by
  obtain ⟨-, h2, -⟩ := (curOf_iff s c.ref c).mp h
  rw [putCur_eq, he.ref]
  exact crew?_modCrew_ne s _ r _ (fun _ _ => by show e.crew.ref = _; rw [he.crew, crew?_ref h2]) hr

theorem crewOut_warp_ne {s : State} {c e : Cur} (h : s.curOf c.ref = some c) (he : c.Of e) (i : Nat)
    (hi : i ≠ c.ref.w.warp) : e.crewOut.warp? i = c.crew.warp? i := by
  obtain ⟨-, -, h3, -⟩ := (curOf_iff s c.ref c).mp h
  unfold Cur.crewOut
  rw [he.ref, warp?_updIf_ne _ _ _ _ (fun _ _ => by show e.warp.id = _; rw [he.id, warp?_id h3]) hi, he.crew]

theorem warpOut_strand_ne {c e : Cur} (he : c.Of e) (k : Nat) (hk : k ≠ c.ref.strand) :
    e.warpOut.strand? k = c.warp.strand? k := by
  unfold Cur.warpOut
  rw [he.ref, strand?_setStrand_ne _ _ _ _ hk]
  unfold Warp.strand?
  rw [he.strands]

end Sys2Proof.Machine
end

