-- ==== Sys2Proof/Laws/Issue.lean ====
section
/-!
SUPPORT. Issuing: what an instruction whose effect is an update of its strand's registers makes of the state, said once. An
instruction's own claim needs only its effect on the open chunk's view.
-/

set_option Elab.async false

namespace Sys2Proof.Machine

open Sys2Proof

/-! An effect that writes registers alone. -/

/-- `d` is `o` with other registers: the same strand, place, chunk, flags and wait, and no access made. -/
structure Cur.Wrote (o d : Cur) : Prop where
  ref   : d.ref = o.ref
  crew  : d.crew = o.crew
  free  : d.free = o.free
  acc   : d.acc = o.acc
  warp  : d.warp = { o.warp with vregs := d.warp.vregs, gregs := d.warp.gregs, preds := d.warp.preds, tiles := d.warp.tiles }
  t     : d.t = { o.t with core := d.t.core }
  pc    : d.t.core.pc = o.t.core.pc
  hdr   : d.t.core.hdr = o.t.core.hdr
  hword : d.t.core.hword = o.t.core.hword
  inClause : d.t.core.inClause = o.t.core.inClause

theorem Cur.Wrote.refl (o : Cur) : o.Wrote o := ⟨rfl, rfl, rfl, rfl, rfl, rfl, rfl, rfl, rfl, rfl⟩

theorem Cur.Wrote.trans {o d e : Cur} (h : o.Wrote d) (g : d.Wrote e) : o.Wrote e where
  ref := g.ref.trans h.ref
  crew := g.crew.trans h.crew
  free := g.free.trans h.free
  acc := g.acc.trans h.acc
  warp := by rw [g.warp, h.warp]
  t := by rw [g.t, h.t]
  pc := g.pc.trans h.pc
  hdr := g.hdr.trans h.hdr
  hword := g.hword.trans h.hword
  inClause := g.inClause.trans h.inClause

theorem wrote_setS (c : Cur) (i : SReg) (x : W64) : c.Wrote (c.setS i x) := by
  unfold Cur.setS
  split
  · exact Cur.Wrote.refl c
  · exact ⟨rfl, rfl, rfl, rfl, rfl, rfl, rfl, rfl, rfl, rfl⟩

theorem wrote_setP (c : Cur) (i : PReg) (m v : Mask) : c.Wrote (c.setP i m v) := by
  unfold Cur.setP
  split
  · exact Cur.Wrote.refl c
  · exact ⟨rfl, rfl, rfl, rfl, rfl, rfl, rfl, rfl, rfl, rfl⟩

theorem wrote_putSlot (c : Cur) (i : Nat) (x : VecReg) : c.Wrote (c.putSlot i x) := by
  unfold Cur.putSlot
  dsimp only
  split <;> exact ⟨rfl, rfl, rfl, rfl, rfl, rfl, rfl, rfl, rfl, rfl⟩

theorem wrote_putV (c : Cur) (r : VReg) (x : VecReg) : c.Wrote (c.putV r x) := by
  cases r
  · exact wrote_putSlot c _ x
  · exact ⟨rfl, rfl, rfl, rfl, rfl, rfl, rfl, rfl, rfl, rfl⟩

theorem wrote_setV (c : Cur) (r : VReg) (m : Mask) (f : Nat → W32) (t : Tag) : c.Wrote (c.setV r m f t) :=
  wrote_putV c r _

theorem wrote_setK (c : Cur) (k : KReg) (x : Cursor) : c.Wrote (c.setK k x) :=
  ⟨rfl, rfl, rfl, rfl, rfl, rfl, rfl, rfl, rfl, rfl⟩

theorem wrote_setTile (c : Cur) (k : TReg) (x : Tile) : c.Wrote (c.setTile k x) :=
  ⟨rfl, rfl, rfl, rfl, rfl, rfl, rfl, rfl, rfl, rfl⟩

theorem wrote_mapCore (c : Cur) (f : StrandCore → StrandCore) (h1 : (f c.t.core).pc = c.t.core.pc)
    (h2 : (f c.t.core).hdr = c.t.core.hdr) (h3 : (f c.t.core).hword = c.t.core.hword)
    (h4 : (f c.t.core).inClause = c.t.core.inClause) : c.Wrote (c.mapCore f) := ⟨rfl, rfl, rfl, rfl, rfl, rfl, h1, h2, h3, h4⟩

/-! The open chunk. -/

theorem openChunk_core (c : Cur) : c.openChunk.t.core = c.t.core := by
  unfold Cur.openChunk
  split <;> rfl

/-- An open chunk stays as it is, but for the pages that the word used (R299). -/
theorem openChunk_opened {c : Cur} (h : c.t.chunk.st = .opened) :
    c.openChunk = c.mapChunk (fun ch => { ch with pages := c.openChunk.t.chunk.pages }) := by
  unfold Cur.openChunk
  rw [h]
  rfl

theorem openChunk_t (c : Cur) :
    c.openChunk.t = { c.t with chunk := c.openChunk.t.chunk, earlier := c.openChunk.t.earlier } := by
  unfold Cur.openChunk
  split <;> rfl

@[simp] theorem openChunk_pends (c : Cur) : c.openChunk.t.pends = c.t.pends := by rw [openChunk_t]

theorem openChunk_earlier (c : Cur) : c.openChunk.t.earlier =
    if c.t.chunk.st = .ended ∨ c.t.chunk.st = .ordering then c.t.earlier ++ [c.t.chunk] else c.t.earlier := by
  unfold Cur.openChunk
  split <;> simp_all [Cur.usePage, Cur.mapChunk, Cur.mapT]

theorem openChunk_count {c : Cur} (h : c.t.hasChunk = true) :
    c.openChunk.t.chunk.count = if c.t.chunk.st = .opened then c.t.chunk.count else 0 := by
  unfold Cur.openChunk
  cases hs : c.t.chunk.st <;> first
    | rfl
    | (unfold Strand.hasChunk at h; rw [hs] at h; cases h)

theorem openChunk_of (c : Cur) : c.Of c.openChunk := ⟨by simp, by simp, by simp, by simp⟩

/-- What the view of the open chunk reads is what the strand reads. -/
theorem openChunk_sr (c : Cur) (i : SReg) : c.openChunk.sr i = c.sr i := by
  simp [Cur.sr, Cur.pendScal?, openChunk_core]

theorem openChunk_src (c : Cur) (x : Src) : c.openChunk.src x = c.src x := by
  cases x <;> simp [Cur.src, openChunk_sr]

theorem openChunk_pr (c : Cur) (i : PReg) : c.openChunk.pr i = c.pr i := by
  simp [Cur.pr, Cur.pendPred?, Cur.width]

theorem openChunk_guarded (c : Cur) (g : Guard) (m : Mask) : c.openChunk.guarded g m = c.guarded g m := by
  simp [Cur.guarded, openChunk_pr]

theorem openChunk_enabled (c : Cur) (g : Guard) : c.openChunk.enabled g = c.enabled g := by
  simp [Cur.enabled, openChunk_guarded, Cur.em, openChunk_core]

theorem openChunk_enabledH (c : Cur) (g : Guard) : c.openChunk.enabledH g = c.enabledH g := by
  simp [Cur.enabledH, openChunk_guarded, Cur.em, openChunk_core]

theorem openChunk_slot (c : Cur) (i : Nat) : c.openChunk.slot i = c.slot i := by
  simp [Cur.slot, Cur.r, openChunk_core]

theorem openChunk_ownTag (c : Cur) (i : Nat) : c.openChunk.ownTag i = c.ownTag i := by simp [Cur.ownTag, openChunk_core]

theorem openChunk_stored (c : Cur) (i : Nat) : c.openChunk.stored i = c.stored i := by simp [Cur.stored, Cur.width]

theorem openChunk_seen (c : Cur) (i : Nat) : c.openChunk.seen i = c.seen i := by
  simp [Cur.seen, openChunk_ownTag, openChunk_stored]

theorem openChunk_vnow (c : Cur) (r : VReg) : c.openChunk.vnow r = c.vnow r := by
  cases r <;> simp [Cur.vnow, openChunk_slot, openChunk_seen, Cur.width]

theorem openChunk_vr (c : Cur) (r : VReg) : c.openChunk.vr r = c.vr r := by
  cases r <;> simp [Cur.vr, Cur.pendVec?, openChunk_slot, openChunk_vnow, Cur.width]

theorem openChunk_regOk (c : Cur) (r : VReg) : c.openChunk.regOk r = c.regOk r := by
  cases r <;> (unfold Cur.regOk Cur.r Cur.g; rw [Cur.openChunk_crew])

theorem openChunk_needRegs (c : Cur) (rs : List VReg) : c.openChunk.needRegs rs = c.needRegs rs := by
  simp only [Cur.needRegs]
  congr 2
  funext r
  exact openChunk_regOk c r

theorem openChunk_need (c : Cur) (r : VReg) (p : Tag → Bool) (q : Nat) : c.openChunk.need r p q = c.need r p q := by
  simp [Cur.need, openChunk_vr]

theorem openChunk_tile (c : Cur) (t : TReg) : c.openChunk.tile t = c.tile t := by simp [Cur.tile]

theorem openChunk_needTile (c : Cur) (t : TReg) : c.openChunk.needTile t = c.needTile t := by
  simp [Cur.needTile, Cur.tileOk, Cur.tileHeld, openChunk_tile]

theorem openChunk_kr (c : Cur) (k : KReg) : c.openChunk.kr k = c.kr k := by simp [Cur.kr, openChunk_core]

/-! The registers after an update are those of the same update of the strand as it was. -/

theorem regs_openChunk (c : Cur) : c.openChunk.regs = c.regs := by simp [Cur.regs, openChunk_core]

theorem regs_setS_openChunk (c : Cur) (i : SReg) (x : W64) : (c.openChunk.setS i x).regs = (c.setS i x).regs := by
  unfold Cur.setS
  split
  · exact regs_openChunk c
  · simp [Cur.regs, openChunk_core]

theorem regs_setP_openChunk (c : Cur) (i : PReg) (m v : Mask) : (c.openChunk.setP i m v).regs = (c.setP i m v).regs := by
  unfold Cur.setP
  split
  · exact regs_openChunk c
  · simp [Cur.regs, openChunk_core]

theorem regs_putSlot_openChunk (c : Cur) (i : Nat) (x : VecReg) : (c.openChunk.putSlot i x).regs = (c.putSlot i x).regs := by
  unfold Cur.putSlot
  rw [openChunk_ownTag]
  dsimp only
  split <;> simp [Cur.regs, openChunk_core, openChunk_stored]

theorem regs_setV_openChunk (c : Cur) (r : VReg) (m : Mask) (f : Nat → W32) (t : Tag) :
    (c.openChunk.setV r m f t).regs = (c.setV r m f t).regs := by
  unfold Cur.setV
  rw [openChunk_vnow, show c.openChunk.width = c.width by simp [Cur.width]]
  cases r
  · simp only [Cur.putV, openChunk_slot]
    exact regs_putSlot_openChunk c _ _
  · simp [Cur.putV, Cur.regs, openChunk_core, Cur.width]

theorem regs_setTile_openChunk (c : Cur) (k : TReg) (x : Tile) :
    (c.openChunk.setTile k x).regs = (c.setTile k x).regs := by
  simp [Cur.setTile, Cur.regs, openChunk_core]

theorem regs_mapCore_openChunk (c : Cur) (f : StrandCore → StrandCore) :
    (c.openChunk.mapCore f).regs = (c.mapCore f).regs := by
  simp [Cur.regs, Cur.mapCore, openChunk_core]

/-! What stands before an instruction that is ready. -/

theorem Ready.curOf {s : State} {c : Cur} {n : Nat} {cf : Cf} (h : Ready s c n cf) : s.curOf c.ref = some c := by
  have hf := h.focus
  unfold State.cur? at hf
  cases hr : s.focus with
  | none => rw [hr] at hf; cases hf
  | some r =>
    rw [hr] at hf
    have := ((curOf_iff s r c).mp hf).1
    rw [this]
    exact hf

/-- No check stands before the instruction's own (R71). -/
theorem Ready.firstCause {s : State} {c : Cur} {n : Nat} {cf : Cf} (h : Ready s c n cf) {fm : Form} (hn : fm.words = n)
    (hc : fm.cf = cf) {α : Type} (y : Except Stop α) :
    c.firstCause fm y = (match y with | .error e => if e.ofWord then .error e else .ok () | .ok _ => .ok ()) := by
  have h1 : c.t.residueDue = none := by simp [Strand.residueDue, h.whole]
  have h2 : (fm.words == 0 && !(c.t.core.isLast)) = false := by
    cases hz : fm.words == 0 with
    | false => rfl
    | true =>
      have h0 : n = 0 := by rw [← hn]; simpa using hz
      simp [h.last h0]
  have h3 : (fm.cf != .none && hdrFlag c.t.core.hword fm.cf == none) = false := by
    rw [hc]
    cases cf with
    | none => rfl
    | a => have := h.flag (by decide); cases hd : hdrFlag c.t.core.hword .a <;> simp_all
    | b => have := h.flag (by decide); cases hd : hdrFlag c.t.core.hword .b <;> simp_all
  have h4 : (c.t.core.beginsPair && fm.words != 2) = false := by
    rw [h.pair, hn]
    cases hz : n == 2 <;> simp_all
  unfold Cur.firstCause Cur.slotOk Cur.strandOk
  rw [h.sound, h1, h.going, h2, h3, h4]
  cases y <;> rfl

/-- A wait that ends with the next instruction. -/
def Wait.brief (w : Wait) : Prop := w = .none ∨ (∃ k, w = .tile k) ∨ ∃ f, w = .restored f

/-- The chunk's state, and why the strand is not off the ready set. -/
theorem Ready.state {s : State} {c : Cur} {n : Nat} {cf : Cf} (h : Ready s c n cf) :
    c.t.hasChunk = true ∧ c.t.wait.brief ∧ c.t.core.inClause = true := by
  have := h.may
  simp only [State.mayIssue, Bool.and_eq_true] at this
  obtain ⟨⟨⟨⟨⟨-, hw⟩, hs⟩, -⟩, hi⟩, -⟩ := this
  refine ⟨hs, ?_, by simpa using hi⟩
  unfold Wait.brief
  cases hwt : c.t.wait <;> simp_all

/-- The open chunk is opened. -/
theorem Ready.opened {s : State} {c : Cur} {n : Nat} {cf : Cf} (h : Ready s c n cf) : c.openChunk.t.chunk.st = .opened := by
  have h := h.state.1
  unfold Cur.openChunk
  cases hs : c.t.chunk.st <;> first
    | rfl
    | exact hs
    | (unfold Strand.hasChunk at h; rw [hs] at h; cases h)

/-- An effect that stops nowhere is taken. -/
theorem attempt_ok {s : State} {c : Cur} {n : Nat} {cf : Cf} (h : Ready s c n cf) {fm : Form} (hn : fm.words = n)
    (hc : fm.cf = cf) {f : State → Cur → Except Stop (State × Cur)} {s' : State} {d : Cur}
    (hf : f s c.openChunk = .ok (s', d)) (hp : d.t.pends = []) (hx : c.exceeds d = false) :
    s.attempt c fm f = .ok (s', d) := by
  unfold State.attempt
  have hw : d.writesPending = false := by simp [Cur.writesPending, hp]
  simp [h.firstCause hn hc, hf, hw, hx, bind, Except.bind]

/-- There is room. -/
theorem exceeds_false {c d : Cur} (h : Room c d) : c.exceeds d = false := by
  unfold Cur.exceeds
  rcases h with h | h
  · simp [h]
  · have h2 : ¬ 8 < d.tilesWritten := by omega
    simp [h.1, h2]

/-- Room for the strand as it is is room for its open chunk. -/
theorem room_openChunk {c : Cur} (h : Room c c) : Room c c.openChunk := by
  rcases h with h | h
  · exact .inl h
  · by_cases hs : c.t.chunk.st = .opened
    · right
      rw [openChunk_opened hs]
      exact h
    · exact .inl hs

/-! Retiring. -/

theorem pend_eq (d : Cur) (cf : Cf) (l : List OldVal) :
    d.pend cf l = d.mapT (fun t => { t with pends := t.pends ++ ((hdrFlag d.t.core.hword cf).toList.map (fun f => { flag := f, old := l })) }) := by
  unfold Cur.pend
  split
  · rename_i h
    rw [h]
    rfl
  · rename_i h
    rw [h]
    simp [Cur.mapT]

/-- The strand with its counted instruction, before its program counter moves. -/
def Cur.counted (d : Cur) (fm : Form) : Cur :=
  d.mapT (fun t =>
    { t with
      pends := t.pends ++ ((hdrFlag t.core.hword fm.cf).toList.map (fun f => { flag := f, old := d.log })),
      chunk := { t.chunk with count := t.chunk.count + Nat.max 1 fm.words, shadow := mergeShadow t.chunk.shadow d.log,
                              lastUse := addAll t.chunk.lastUse d.lastWords },
      trapReplay := t.trapReplay && t.chunk.limit.isSome, failed := none,
      wait := (match t.wait with | .tile _ | .restored _ => .none | x => x) })

theorem retire_eq (d : Cur) (fm : Form) :
    d.retire fm = if fm.words == 0 || (d.counted fm).t.wait.stays then d.counted fm else (d.counted fm).advance fm.words := by
  unfold Cur.retire
  rw [pend_eq]
  rfl

theorem warp_with_strands (w v : Warp) (x : List (Option Strand))
    (h : w = { v with vregs := w.vregs, gregs := w.gregs, preds := w.preds, tiles := w.tiles }) :
    ({ w with strands := x } : Warp) =
      { v with vregs := w.vregs, gregs := w.gregs, preds := w.preds, tiles := w.tiles, strands := x } := by
  cases w
  cases v
  simp only [Warp.mk.injEq] at h ⊢
  simp [h]

/-- What issuing leaves elsewhere. -/
theorem elsewhere_put {s : State} {c e : Cur} (k : Caches) (h : s.curOf c.ref = some c) (he : c.Of e)
    (hw : e.warp = { c.warp with vregs := e.warp.vregs, gregs := e.warp.gregs, preds := e.warp.preds, tiles := e.warp.tiles }) :
    Elsewhere s { s.putCur e with free := s.free + 1, caches := k } c (e.back (s.free + 1)) where
  here := by
    have h1 := (curOf_iff _ _ _).mp (putCur_spec h he)
    rw [curOf_iff]
    exact ⟨h1.1, h1.2.1, h1.2.2.1, h1.2.2.2.1, rfl, rfl, rfl⟩
  package := rfl
  crews := fun r hr => putCur_crew_ne h he r hr
  crew := by
    obtain ⟨ref, crew, warp, t, free, log, acc⟩ := e
    obtain rfl : crew = c.crew := he.crew
    rfl
  warps := fun i hi => crewOut_warp_ne h he i hi
  warp := warp_with_strands e.warp c.warp _ hw
  strands := fun k hk => warpOut_strand_ne he k hk

/-- Going on behind `n` words, as `Cur.behind` says it. -/
theorem advance_place {d c : Cur} (n : Nat) (h1 : d.t.core.pc = c.t.core.pc) (h2 : d.t.core.hdr = c.t.core.hdr)
    (h3 : d.t.core.hword = c.t.core.hword) (h4 : d.t.core.inClause = c.t.core.inClause) : (d.advance n).place = c.behind n := by
  unfold Cur.advance Cur.behind Cur.base
  rw [h1, h2, h3]
  dsimp only
  split
  · rename_i h
    rw [if_pos (by simpa using h)]
    rfl
  · rename_i h
    rw [if_neg (by simpa using h)]
    simp [Cur.place, Cur.mapCore, h2, h4]

theorem advance_regs (d : Cur) (n : Nat) : (d.advance n).regs = d.regs := by
  unfold Cur.advance
  dsimp only
  split <;> rfl

theorem advance_t (d : Cur) (n : Nat) : (d.advance n).t = { d.t with core := (d.advance n).t.core } := by
  unfold Cur.advance
  dsimp only
  split <;> rfl

theorem advance_hword (d : Cur) (n : Nat) : (d.advance n).t.core.hword = d.t.core.hword := by
  unfold Cur.advance
  dsimp only
  split <;> rfl

theorem counted_wait {d : Cur} (fm : Form) (h : d.t.wait.brief) : (d.counted fm).t.wait = .none := by
  show (match d.t.wait with | .tile _ | .restored _ => Wait.none | x => x) = .none
  rcases h with h | ⟨k, h⟩ | ⟨k, h⟩ <;> rw [h]

/-- An instruction whose effect is an update `g` of its strand's registers completes as `Computes` says. -/
theorem computes_of {s : State} {c : Cur} {i : Instr} {n : Nat} {cf : Cf} {fm : Form} {f : State → Cur → Except Stop (State × Cur)}
    {g : Cur → Cur} (hr : Ready s c n cf) (hroom : Room c (g c.openChunk)) (hi : exec i s = s.issue fm f) (hn : fm.words = n)
    (hc : fm.cf = cf) (h0 : n ≠ 0) (hf : f s c.openChunk = .ok (s, g c.openChunk)) (hw : c.openChunk.Wrote (g c.openChunk))
    (hg : (g c.openChunk).regs = (g c).regs) : Computes s c i n cf (g c) := by
  have hst := hr.state
  have hat : s.attempt c fm f = .ok (s, g c.openChunk) :=
    attempt_ok hr hn hc hf (by rw [hw.t]; show c.openChunk.t.pends = []; simp [hr.calm]) (exceeds_false hroom)
  have hwait : (g c.openChunk).t.wait.brief := by
    rw [hw.t]
    show c.openChunk.t.wait.brief
    rw [openChunk_t]
    exact hst.2.1
  have hacc : s.caches.note (g c.openChunk).crew.core (g c.openChunk).acc = s.caches := by
    rw [hw.acc, Cur.openChunk_acc, ((curOf_iff _ _ _).mp hr.curOf).2.2.2.2.2.2]
    rfl
  have hret : (g c.openChunk).retire fm = ((g c.openChunk).counted fm).advance fm.words := by
    rw [retire_eq, counted_wait fm hwait]
    have : (fm.words == 0) = false := by rw [hn]; simpa using h0
    simp [this, Wait.stays]
  have hex : exec i s = .next { s.putCur ((g c.openChunk).retire fm) with free := s.free + 1, caches := s.caches } := by
    rw [hi]
    unfold State.issue
    rw [hr.focus]
    simp only [hr.may, if_true]
    unfold State.perform
    rw [hat]
    dsimp only
    unfold State.after
    rw [hacc]
  have hof : c.Of ((g c.openChunk).retire fm) :=
    ⟨by simp [hw.ref], by simp [hw.crew], by simp; rw [hw.warp]; simp, by simp; rw [hw.warp]; simp⟩
  have hel := elsewhere_put s.caches hr.curOf hof (by simp; rw [hw.warp]; simp)
  have hcore : (g c.openChunk).t.core.pc = c.t.core.pc ∧ (g c.openChunk).t.core.hdr = c.t.core.hdr ∧
      (g c.openChunk).t.core.hword = c.t.core.hword ∧ (g c.openChunk).t.core.inClause = true := by
    rw [hw.pc, hw.hdr, hw.hword, hw.inClause, openChunk_core]
    exact ⟨rfl, rfl, rfl, hst.2.2⟩
  have hch : (g c.openChunk).t.chunk = c.openChunk.t.chunk := by rw [hw.t]
  have ht : ((g c.openChunk).retire fm).t = { ((g c.openChunk).counted fm).t with core := ((g c.openChunk).retire fm).t.core } := by
    rw [hret]
    exact advance_t _ _
  have hk : ∀ {α : Type} (p : Chunk → α), (∀ ch n sh lu, p { ch with count := n, shadow := sh, lastUse := lu } = p ch) →
      p ((g c.openChunk).retire fm).t.chunk = p c.openChunk.t.chunk := by
    intro α p hp
    rw [ht]
    show p { (g c.openChunk).t.chunk with count := _, shadow := _, lastUse := _ } = _
    rw [hp, hch]
  refine ⟨_, _, hex, hel, ⟨rfl, rfl, rfl⟩, ?_, ?_, ?_, ?_, ?_⟩
  · refine ⟨?_, ?_, ?_, ?_, ?_, ?_⟩
    · show ((g c.openChunk).retire fm).t.chunk.count = _
      rw [ht]
      show (g c.openChunk).t.chunk.count + Nat.max 1 fm.words = _
      rw [hch, hn, openChunk_count hst.1]
    · show ((g c.openChunk).retire fm).t.earlier = _
      rw [ht]
      show (g c.openChunk).t.earlier = _
      rw [hw.t]
      exact openChunk_earlier c
    · show ((g c.openChunk).retire fm).t.wait = _
      rw [ht]
      exact counted_wait fm hwait
    · show ((g c.openChunk).retire fm).t.pends.map _ = _
      rw [ht]
      show ((g c.openChunk).t.pends ++ _).map _ = _
      have h1 : (g c.openChunk).t.pends = [] := by rw [hw.t]; show c.openChunk.t.pends = []; simp [hr.calm]
      rw [h1, hcore.2.2.1, hc]
      cases hdrFlag c.t.core.hword cf <;> rfl
    · show ((g c.openChunk).retire fm).t.sqcnt = _
      rw [ht]
      show (g c.openChunk).t.sqcnt = _
      rw [hw.t]
      show c.openChunk.t.sqcnt = _
      rw [openChunk_t]
    · show ((g c.openChunk).retire fm).t.core.hword = _
      rw [hret, advance_hword]
      exact hcore.2.2.1
  · exact (hk (·.st) (fun _ _ _ _ => rfl)).trans hr.opened
  · exact ⟨hk (·.gw) (fun _ _ _ _ => rfl), hk (·.cw) (fun _ _ _ _ => rfl), hk (·.disc) (fun _ _ _ _ => rfl),
      hk (·.bars) (fun _ _ _ _ => rfl), hk (·.closes) (fun _ _ _ _ => rfl)⟩
  · show ((g c.openChunk).retire fm).place = _
    rw [hret, hn]
    exact advance_place n hcore.1 hcore.2.1 hcore.2.2.1 (hcore.2.2.2.trans hst.2.2.symm)
  · show ((g c.openChunk).retire fm).regs = _
    rw [hret, advance_regs, ← hg]
    rfl

/-! Room for an update of registers is room for the strand as it is. -/

theorem filter_mergeShadow (p : OldVal → Bool) (old new : List OldVal) (h : ∀ o ∈ new, p o = false) :
    (mergeShadow old new).filter p = old.filter p := by
  induction new with
  | nil => rfl
  | cons o l ih =>
    have ih := ih (fun x hx => h x (List.mem_cons_of_mem o hx))
    simp only [mergeShadow, List.foldr_cons] at ih ⊢
    split
    · exact ih
    · rw [List.filter_append, ih]
      simp [h o (List.mem_cons_self)]

/-- `d` is `c` with further registers written, none of them a tile, and the same chunk. -/
structure Cur.Logged (c d : Cur) : Prop where
  chunk : d.t.chunk = c.t.chunk
  log   : ∃ l, d.log = l ++ c.log ∧ ∀ o ∈ l, (match o with | .tile _ _ => true | _ => false) = false

theorem Cur.Logged.refl (c : Cur) : c.Logged c := ⟨rfl, [], rfl, by simp⟩

theorem Cur.Logged.trans {c d e : Cur} (h : c.Logged d) (g : d.Logged e) : c.Logged e := by
  obtain ⟨l, hl, ht⟩ := h.log
  obtain ⟨m, hm, hu⟩ := g.log
  refine ⟨g.chunk.trans h.chunk, m ++ l, by rw [hm, hl, List.append_assoc], ?_⟩
  intro o ho
  rcases List.mem_append.mp ho with ho | ho
  · exact hu o ho
  · exact ht o ho

theorem logged_setS (c : Cur) (i : SReg) (x : W64) : c.Logged (c.setS i x) := by
  unfold Cur.setS
  split
  · exact Cur.Logged.refl c
  · exact ⟨rfl, [_], rfl, by simp⟩

theorem logged_setP (c : Cur) (i : PReg) (m v : Mask) : c.Logged (c.setP i m v) := by
  unfold Cur.setP
  split
  · exact Cur.Logged.refl c
  · exact ⟨rfl, [_], rfl, by simp⟩

theorem logged_putSlot (c : Cur) (i : Nat) (x : VecReg) : c.Logged (c.putSlot i x) := by
  unfold Cur.putSlot
  dsimp only
  split <;> exact ⟨rfl, [_], rfl, by simp⟩

theorem logged_setV (c : Cur) (r : VReg) (m : Mask) (f : Nat → W32) (t : Tag) : c.Logged (c.setV r m f t) := by
  cases r
  · exact logged_putSlot c _ _
  · exact ⟨rfl, [_], rfl, by simp⟩

theorem logged_mapCore (c : Cur) (f : StrandCore → StrandCore) : c.Logged (c.mapCore f) := ⟨rfl, [], rfl, by simp⟩

theorem logged_setK (c : Cur) (k : KReg) (x : Cursor) : c.Logged (c.setK k x) := logged_mapCore c _

theorem room_logged {b c d : Cur} (h : Room b c) (hd : c.Logged d) : Room b d := by
  rcases h with h | h
  · exact .inl h
  · right
    obtain ⟨l, hl, ht⟩ := hd.log
    constructor
    · rw [← h.1]
      unfold Cur.beyond
      rw [hd.chunk]
    · have : d.tilesWritten = c.tilesWritten := by
        unfold Cur.tilesWritten
        rw [hd.chunk, hl]
        congr 1
        have : mergeShadow c.t.chunk.shadow (l ++ c.log) = mergeShadow (mergeShadow c.t.chunk.shadow c.log) l := by
          simp [mergeShadow, List.foldr_append]
        rw [this]
        exact filter_mergeShadow _ _ _ ht
      rw [this]
      exact h.2

/-- An effect that stops is not taken. -/
theorem attempt_error {s : State} {c : Cur} {n : Nat} {cf : Cf} (h : Ready s c n cf) {fm : Form} (hn : fm.words = n)
    (hc : fm.cf = cf) {f : State → Cur → Except Stop (State × Cur)} {st : Stop} (hf : f s c.openChunk = .error st) :
    s.attempt c fm f = .error st := by
  unfold State.attempt
  rw [h.firstCause hn hc, hf]
  dsimp only
  split <;> rfl

/-- An instruction whose effect stops meets that condition. -/
theorem meets_of {s : State} {c : Cur} {i : Instr} {n : Nat} {cf : Cf} {fm : Form}
    {f : State → Cur → Except Stop (State × Cur)} {st : Stop} (hr : Ready s c n cf) (hi : exec i s = s.issue fm f)
    (hn : fm.words = n) (hc : fm.cf = cf) (hf : f s c.openChunk = .error st) : Meets s c i (fm.lanes c) st := by
  unfold Meets
  rw [hi]
  unfold State.issue
  rw [hr.focus]
  simp only [hr.may, if_true]
  unfold State.perform
  rw [attempt_error hr hn hc hf]

theorem meetsC_of {s : State} {c : Cur} {i : Instr} {n : Nat} {cf : Cf} {fm : Form} {f : Cur → Except Stop Cur} {st : Stop}
    (hr : Ready s c n cf) (hi : exec i s = s.issueC fm f) (hn : fm.words = n) (hc : fm.cf = cf)
    (hf : f c.openChunk = .error st) : Meets s c i (fm.lanes c) st :=
  meets_of hr hi hn hc (by rw [hf]; rfl)

/-- The same for an effect on the strand alone. -/
theorem computesC_of {s : State} {c : Cur} {i : Instr} {n : Nat} {cf : Cf} {fm : Form} {f : Cur → Except Stop Cur}
    {g : Cur → Cur} (hr : Ready s c n cf) (hroom : Room c (g c.openChunk)) (hi : exec i s = s.issueC fm f) (hn : fm.words = n)
    (hc : fm.cf = cf) (h0 : n ≠ 0) (hf : f c.openChunk = .ok (g c.openChunk)) (hw : c.openChunk.Wrote (g c.openChunk))
    (hg : (g c.openChunk).regs = (g c).regs) : Computes s c i n cf (g c) :=
  computes_of hr hroom hi hn hc h0 (by rw [hf]; rfl) hw hg

end Sys2Proof.Machine
end

