-- ==== Sys2Proof/Laws/PerInstr.lean ====
section
/-!
SUPPORT. A law of every instruction, constructor by constructor: what is a word of the stream is no management command, and
what is a command is no word, so that the two decoders never answer the same instruction.
-/

set_option Elab.async false

namespace Sys2Proof.Laws.Coded

/-- The instruction has no word, or it has no command of 64 bytes. -/
def Statement (i : Instr) : Prop := encode i = none ∨ encodeCommand i = none

theorem nop : Statement (.nop) := .inr rfl
theorem bra (t : BitVec 32) : Statement (.bra t) := .inr rfl
theorem braNz (s : SReg) (t : BitVec 32) : Statement (.braNz s t) := .inr rfl
theorem braZ (s : SReg) (t : BitVec 32) : Statement (.braZ s t) := .inr rfl
theorem brz (p : PReg) (t : BitVec 32) : Statement (.brz p t) := .inr rfl
theorem brnz (p : PReg) (t : BitVec 32) : Statement (.brnz p t) := .inr rfl
theorem dbr (p : PReg) (t : BitVec 32) (j : BitVec 16) : Statement (.dbr p t j) := .inr rfl
theorem join : Statement (.join) := .inr rfl
theorem call (t : BitVec 32) (f8 : BitVec 5) : Statement (.call t f8) := .inr rfl
theorem callI (s : SReg) (f8 : BitVec 5) : Statement (.callI s f8) := .inr rfl
theorem ret : Statement (.ret) := .inr rfl
theorem exit : Statement (.exit) := .inr rfl
theorem exitS : Statement (.exitS) := .inr rfl
theorem trap (n : BitVec 5) (s : SReg) : Statement (.trap n s) := .inr rfl
theorem rft : Statement (.rft) := .inr rfl
theorem yield : Statement (.yield) := .inr rfl
theorem srd (sd : SReg) (n : BitVec 32) : Statement (.srd sd n) := .inr rfl
theorem swr (n : BitVec 32) (sa : SReg) : Statement (.swr n sa) := .inr rfl
theorem csrr (sd : SReg) (n : BitVec 32) : Statement (.csrr sd n) := .inr rfl
theorem csrw (n : BitVec 32) (sa : SReg) : Statement (.csrw n sa) := .inr rfl
theorem idrd (sd : SReg) (n : BitVec 32) : Statement (.idrd sd n) := .inr rfl
theorem chend : Statement (.chend) := .inr rfl
theorem chcfg (sd : SReg) (x : Src) : Statement (.chcfg sd x) := .inr rfl
theorem wsplit (sd : SReg) (p : PReg) : Statement (.wsplit sd p) := .inr rfl
theorem wfuse (sd : SReg) : Statement (.wfuse sd) := .inr rfl
theorem wqry (sd : SReg) : Statement (.wqry sd) := .inr rfl
theorem tagset (vd : VReg) (code : BitVec 5) : Statement (.tagset vd code) := .inr rfl
theorem tagget (o : VMoveOps) : Statement (.tagget o) := .inr rfl
theorem sadd (o : SAluOps) : Statement (.sadd o) := .inr rfl
theorem ssub (o : SAluOps) : Statement (.ssub o) := .inr rfl
theorem sand (o : SAluOps) : Statement (.sand o) := .inr rfl
theorem sor (o : SAluOps) : Statement (.sor o) := .inr rfl
theorem sxor (o : SAluOps) : Statement (.sxor o) := .inr rfl
theorem sshl (o : SAluOps) : Statement (.sshl o) := .inr rfl
theorem sshr (o : SAluOps) : Statement (.sshr o) := .inr rfl
theorem ssra (o : SAluOps) : Statement (.ssra o) := .inr rfl
theorem smin (o : SAluOps) : Statement (.smin o) := .inr rfl
theorem smax (o : SAluOps) : Statement (.smax o) := .inr rfl
theorem sminu (o : SAluOps) : Statement (.sminu o) := .inr rfl
theorem smaxu (o : SAluOps) : Statement (.smaxu o) := .inr rfl
theorem smul (o : SAluOps) : Statement (.smul o) := .inr rfl
theorem smulh (o : SAluOps) : Statement (.smulh o) := .inr rfl
theorem smulhu (o : SAluOps) : Statement (.smulhu o) := .inr rfl
theorem sandn (o : SAluOps) : Statement (.sandn o) := .inr rfl
theorem scmpEq (o : SAluOps) : Statement (.scmpEq o) := .inr rfl
theorem scmpNe (o : SAluOps) : Statement (.scmpNe o) := .inr rfl
theorem scmpLt (o : SAluOps) : Statement (.scmpLt o) := .inr rfl
theorem scmpLe (o : SAluOps) : Statement (.scmpLe o) := .inr rfl
theorem scmpGt (o : SAluOps) : Statement (.scmpGt o) := .inr rfl
theorem scmpGe (o : SAluOps) : Statement (.scmpGe o) := .inr rfl
theorem scmpLtu (o : SAluOps) : Statement (.scmpLtu o) := .inr rfl
theorem scmpLeu (o : SAluOps) : Statement (.scmpLeu o) := .inr rfl
theorem scmpGtu (o : SAluOps) : Statement (.scmpGtu o) := .inr rfl
theorem scmpGeu (o : SAluOps) : Statement (.scmpGeu o) := .inr rfl
theorem ssel (o : SselOps) : Statement (.ssel o) := .inr rfl
theorem spopc (o : SUnOps) : Statement (.spopc o) := .inr rfl
theorem sclz (o : SUnOps) : Statement (.sclz o) := .inr rfl
theorem sctz (o : SUnOps) : Statement (.sctz o) := .inr rfl
theorem sbfe (o : SbfOps) : Statement (.sbfe o) := .inr rfl
theorem sbfi (o : SbfOps) : Statement (.sbfi o) := .inr rfl
theorem srev (o : SUnOps) : Statement (.srev o) := .inr rfl
theorem sld (o : SMemOps) : Statement (.sld o) := .inr rfl
theorem sst (o : SMemOps) : Statement (.sst o) := .inr rfl
theorem vadd (o : VOps) : Statement (.vadd o) := .inr rfl
theorem vsub (o : VOps) : Statement (.vsub o) := .inr rfl
theorem vand (o : VOps) : Statement (.vand o) := .inr rfl
theorem vor (o : VOps) : Statement (.vor o) := .inr rfl
theorem vxor (o : VOps) : Statement (.vxor o) := .inr rfl
theorem vshl (o : VOps) : Statement (.vshl o) := .inr rfl
theorem vshr (o : VOps) : Statement (.vshr o) := .inr rfl
theorem vsra (o : VOps) : Statement (.vsra o) := .inr rfl
theorem vmin (o : VOps) : Statement (.vmin o) := .inr rfl
theorem vmax (o : VOps) : Statement (.vmax o) := .inr rfl
theorem vmul (o : VOps) : Statement (.vmul o) := .inr rfl
theorem vmulh (o : VOps) : Statement (.vmulh o) := .inr rfl
theorem vabsd (o : VOps) : Statement (.vabsd o) := .inr rfl
theorem vandn (o : VOps) : Statement (.vandn o) := .inr rfl
theorem vadds (o : VOps) : Statement (.vadds o) := .inr rfl
theorem vsubs (o : VOps) : Statement (.vsubs o) := .inr rfl
theorem vaddImm (o : VIOps) : Statement (.vaddImm o) := .inr rfl
theorem vsubImm (o : VIOps) : Statement (.vsubImm o) := .inr rfl
theorem vandImm (o : VIOps) : Statement (.vandImm o) := .inr rfl
theorem vorImm (o : VIOps) : Statement (.vorImm o) := .inr rfl
theorem vxorImm (o : VIOps) : Statement (.vxorImm o) := .inr rfl
theorem vshlImm (o : VIOps) : Statement (.vshlImm o) := .inr rfl
theorem vshrImm (o : VIOps) : Statement (.vshrImm o) := .inr rfl
theorem vsraImm (o : VIOps) : Statement (.vsraImm o) := .inr rfl
theorem vminImm (o : VIOps) : Statement (.vminImm o) := .inr rfl
theorem vmaxImm (o : VIOps) : Statement (.vmaxImm o) := .inr rfl
theorem vmulImm (o : VIOps) : Statement (.vmulImm o) := .inr rfl
theorem vmulhImm (o : VIOps) : Statement (.vmulhImm o) := .inr rfl
theorem vabsdImm (o : VIOps) : Statement (.vabsdImm o) := .inr rfl
theorem vandnImm (o : VIOps) : Statement (.vandnImm o) := .inr rfl
theorem vaddsImm (o : VIOps) : Statement (.vaddsImm o) := .inr rfl
theorem vsubsImm (o : VIOps) : Statement (.vsubsImm o) := .inr rfl
theorem vaddc (o : VCarryOps) : Statement (.vaddc o) := .inr rfl
theorem vsubb (o : VCarryOps) : Statement (.vsubb o) := .inr rfl
theorem vmad64U (o : VMadOps) : Statement (.vmad64U o) := .inr rfl
theorem vmad64S (o : VMadOps) : Statement (.vmad64S o) := .inr rfl
theorem vcmpEq (o : VCmpOps) : Statement (.vcmpEq o) := .inr rfl
theorem vcmpNe (o : VCmpOps) : Statement (.vcmpNe o) := .inr rfl
theorem vcmpLt (o : VCmpOps) : Statement (.vcmpLt o) := .inr rfl
theorem vcmpLe (o : VCmpOps) : Statement (.vcmpLe o) := .inr rfl
theorem vcmpGt (o : VCmpOps) : Statement (.vcmpGt o) := .inr rfl
theorem vcmpGe (o : VCmpOps) : Statement (.vcmpGe o) := .inr rfl
theorem vcmpLtu (o : VCmpOps) : Statement (.vcmpLtu o) := .inr rfl
theorem vcmpLeu (o : VCmpOps) : Statement (.vcmpLeu o) := .inr rfl
theorem vcmpGtu (o : VCmpOps) : Statement (.vcmpGtu o) := .inr rfl
theorem vcmpGeu (o : VCmpOps) : Statement (.vcmpGeu o) := .inr rfl
theorem vsel (o : VselOps) : Statement (.vsel o) := .inr rfl
theorem vmov (o : VMoveOps) : Statement (.vmov o) := .inr rfl
theorem vli (o : VliOps) : Statement (.vli o) := .inr rfl
theorem vliHi (o : VliOps) : Statement (.vliHi o) := .inr rfl
theorem vliDup (o : VliOps) : Statement (.vliDup o) := .inr rfl
theorem vpopc (o : VUnOps) : Statement (.vpopc o) := .inr rfl
theorem vclz (o : VUnOps) : Statement (.vclz o) := .inr rfl
theorem vctz (o : VUnOps) : Statement (.vctz o) := .inr rfl
theorem vbfe (o : VOps) : Statement (.vbfe o) := .inr rfl
theorem vbfi (o : V3Ops) : Statement (.vbfi o) := .inr rfl
theorem vrev (o : VUnOps) : Statement (.vrev o) := .inr rfl
theorem vbperm (o : V3Ops) : Statement (.vbperm o) := .inr rfl
theorem vdot4II (o : VdotOps) : Statement (.vdot4II o) := .inr rfl
theorem vdot4UU (o : VdotOps) : Statement (.vdot4UU o) := .inr rfl
theorem vdot4IU (o : VdotOps) : Statement (.vdot4IU o) := .inr rfl
theorem fadd (o : FOps) : Statement (.fadd o) := .inr rfl
theorem fsub (o : FOps) : Statement (.fsub o) := .inr rfl
theorem fmul (o : FOps) : Statement (.fmul o) := .inr rfl
theorem fmin (o : VOps) : Statement (.fmin o) := .inr rfl
theorem fmax (o : VOps) : Statement (.fmax o) := .inr rfl
theorem ffma (o : FfmaOps) : Statement (.ffma o) := .inr rfl
theorem ffms (o : FfmaOps) : Statement (.ffms o) := .inr rfl
theorem ffnma (o : FfmaOps) : Statement (.ffnma o) := .inr rfl
theorem fscale (o : FOps) : Statement (.fscale o) := .inr rfl
theorem fcmpEq (o : FcmpOps) : Statement (.fcmpEq o) := .inr rfl
theorem fcmpNe (o : FcmpOps) : Statement (.fcmpNe o) := .inr rfl
theorem fcmpLt (o : FcmpOps) : Statement (.fcmpLt o) := .inr rfl
theorem fcmpLe (o : FcmpOps) : Statement (.fcmpLe o) := .inr rfl
theorem fcmpGt (o : FcmpOps) : Statement (.fcmpGt o) := .inr rfl
theorem fcmpGe (o : FcmpOps) : Statement (.fcmpGe o) := .inr rfl
theorem fcmpUnord (o : FcmpOps) : Statement (.fcmpUnord o) := .inr rfl
theorem fcmpOrd (o : FcmpOps) : Statement (.fcmpOrd o) := .inr rfl
theorem fclass (o : FclassOps) : Statement (.fclass o) := .inr rfl
theorem frcp (o : FsfOps) : Statement (.frcp o) := .inr rfl
theorem frsq (o : FsfOps) : Statement (.frsq o) := .inr rfl
theorem fsqrt (o : FsfOps) : Statement (.fsqrt o) := .inr rfl
theorem fexp2 (o : FsfOps) : Statement (.fexp2 o) := .inr rfl
theorem flog2 (o : FsfOps) : Statement (.flog2 o) := .inr rfl
theorem fsin (o : FsfOps) : Statement (.fsin o) := .inr rfl
theorem fcos (o : FsfOps) : Statement (.fcos o) := .inr rfl
theorem ftanh (o : FsfOps) : Statement (.ftanh o) := .inr rfl
theorem cvt (o : CvtOps) : Statement (.cvt o) := .inr rfl
theorem cvtmxQ (o : CvtmxOps) : Statement (.cvtmxQ o) := .inr rfl
theorem cvtmxD (o : CvtmxOps) : Statement (.cvtmxD o) := .inr rfl
theorem shflIdx (o : ShflIdxOps) : Statement (.shflIdx o) := .inr rfl
theorem shflUp (o : ShflOps) : Statement (.shflUp o) := .inr rfl
theorem shflDown (o : ShflOps) : Statement (.shflDown o) := .inr rfl
theorem shflXor (o : ShflOps) : Statement (.shflXor o) := .inr rfl
theorem bcast (o : ShflOps) : Statement (.bcast o) := .inr rfl
theorem bcastS (o : BcastSOps) : Statement (.bcastS o) := .inr rfl
theorem vtos (o : VtosOps) : Statement (.vtos o) := .inr rfl
theorem vredAdd (o : VUnOps) : Statement (.vredAdd o) := .inr rfl
theorem vredMin (o : VUnOps) : Statement (.vredMin o) := .inr rfl
theorem vredMax (o : VUnOps) : Statement (.vredMax o) := .inr rfl
theorem vredAnd (o : VUnOps) : Statement (.vredAnd o) := .inr rfl
theorem vredOr (o : VUnOps) : Statement (.vredOr o) := .inr rfl
theorem vredXor (o : VUnOps) : Statement (.vredXor o) := .inr rfl
theorem vredFadd (o : VUnOps) : Statement (.vredFadd o) := .inr rfl
theorem vredFmin (o : VUnOps) : Statement (.vredFmin o) := .inr rfl
theorem vredFmax (o : VUnOps) : Statement (.vredFmax o) := .inr rfl
theorem vscanAdd (o : VscanOps) : Statement (.vscanAdd o) := .inr rfl
theorem vscanMin (o : VscanOps) : Statement (.vscanMin o) := .inr rfl
theorem vscanMax (o : VscanOps) : Statement (.vscanMax o) := .inr rfl
theorem vscanAnd (o : VscanOps) : Statement (.vscanAnd o) := .inr rfl
theorem vscanOr (o : VscanOps) : Statement (.vscanOr o) := .inr rfl
theorem vscanXor (o : VscanOps) : Statement (.vscanXor o) := .inr rfl
theorem vscanFadd (o : VscanOps) : Statement (.vscanFadd o) := .inr rfl
theorem vscanFmin (o : VscanOps) : Statement (.vscanFmin o) := .inr rfl
theorem vscanFmax (o : VscanOps) : Statement (.vscanFmax o) := .inr rfl
theorem voteBallot (o : BallotOps) : Statement (.voteBallot o) := .inr rfl
theorem voteAny (o : VoteOps) : Statement (.voteAny o) := .inr rfl
theorem voteAll (o : VoteOps) : Statement (.voteAll o) := .inr rfl
theorem votePfroms (o : PfromsOps) : Statement (.votePfroms o) := .inr rfl
theorem qxchH (o : VMoveOps) : Statement (.qxchH o) := .inr rfl
theorem qxchV (o : VMoveOps) : Statement (.qxchV o) := .inr rfl
theorem qxchD (o : VMoveOps) : Statement (.qxchD o) := .inr rfl
theorem qxchB (o : QxchBOps) : Statement (.qxchB o) := .inr rfl
theorem emset (x : Src) : Statement (.emset x) := .inr rfl
theorem emld (sa : SReg) : Statement (.emld sa) := .inr rfl
theorem emst (sd : SReg) : Statement (.emst sd) := .inr rfl
theorem emand (x : Src) : Statement (.emand x) := .inr rfl
theorem hmset (x : Src) : Statement (.hmset x) := .inr rfl
theorem ld (o : MemOps) : Statement (.ld o) := .inr rfl
theorem st (o : MemOps) : Statement (.st o) := .inr rfl
theorem ldcw (o : MemOps) : Statement (.ldcw o) := .inr rfl
theorem stcw (o : MemOps) : Statement (.stcw o) := .inr rfl
theorem pref (o : SpanOps) : Statement (.pref o) := .inr rfl
theorem discard (o : SpanOps) : Statement (.discard o) := .inr rfl
theorem amoAdd (o : AmoOps) : Statement (.amoAdd o) := .inr rfl
theorem amoSub (o : AmoOps) : Statement (.amoSub o) := .inr rfl
theorem amoMin (o : AmoOps) : Statement (.amoMin o) := .inr rfl
theorem amoMax (o : AmoOps) : Statement (.amoMax o) := .inr rfl
theorem amoMinu (o : AmoOps) : Statement (.amoMinu o) := .inr rfl
theorem amoMaxu (o : AmoOps) : Statement (.amoMaxu o) := .inr rfl
theorem amoAnd (o : AmoOps) : Statement (.amoAnd o) := .inr rfl
theorem amoOr (o : AmoOps) : Statement (.amoOr o) := .inr rfl
theorem amoXor (o : AmoOps) : Statement (.amoXor o) := .inr rfl
theorem amoXchg (o : AmoOps) : Statement (.amoXchg o) := .inr rfl
theorem amoCas (o : AmoOps) : Statement (.amoCas o) := .inr rfl
theorem amoFadd (o : AmoOps) : Statement (.amoFadd o) := .inr rfl
theorem amoIncw (o : AmoOps) : Statement (.amoIncw o) := .inr rfl
theorem amoDecw (o : AmoOps) : Statement (.amoDecw o) := .inr rfl
theorem amovAdd (o : AmovOps) : Statement (.amovAdd o) := .inr rfl
theorem amovSub (o : AmovOps) : Statement (.amovSub o) := .inr rfl
theorem amovMin (o : AmovOps) : Statement (.amovMin o) := .inr rfl
theorem amovMax (o : AmovOps) : Statement (.amovMax o) := .inr rfl
theorem amovMinu (o : AmovOps) : Statement (.amovMinu o) := .inr rfl
theorem amovMaxu (o : AmovOps) : Statement (.amovMaxu o) := .inr rfl
theorem amovAnd (o : AmovOps) : Statement (.amovAnd o) := .inr rfl
theorem amovOr (o : AmovOps) : Statement (.amovOr o) := .inr rfl
theorem amovXor (o : AmovOps) : Statement (.amovXor o) := .inr rfl
theorem amovXchg (o : AmovOps) : Statement (.amovXchg o) := .inr rfl
theorem amovCas (o : AmovOps) : Statement (.amovCas o) := .inr rfl
theorem amovFadd (o : AmovOps) : Statement (.amovFadd o) := .inr rfl
theorem amovIncw (o : AmovOps) : Statement (.amovIncw o) := .inr rfl
theorem amovDecw (o : AmovOps) : Statement (.amovDecw o) := .inr rfl
theorem svwaitEq (o : AmoOps) : Statement (.svwaitEq o) := .inr rfl
theorem svwaitGeu (o : AmoOps) : Statement (.svwaitGeu o) := .inr rfl
theorem binit (sa sb : SReg) : Statement (.binit sa sb) := .inr rfl
theorem barv (sd sa : SReg) : Statement (.barv sd sa) := .inr rfl
theorem bwt (o : SabOps) : Statement (.bwt o) := .inr rfl
theorem barw (sd sa : SReg) : Statement (.barw sd sa) := .inr rfl
theorem enq (o : QueueOps) : Statement (.enq o) := .inr rfl
theorem deq (o : QueueOps) : Statement (.deq o) := .inr rfl
theorem deqt (o : QueueOps) : Statement (.deqt o) := .inr rfl
theorem engq (o : EngqOps) : Statement (.engq o) := .inr rfl
theorem bclose (sd : SReg) : Statement (.bclose sd) := .inr rfl
theorem bwait (o : SabOps) : Statement (.bwait o) := .inr rfl
theorem btest (o : SabOps) : Statement (.btest o) := .inr rfl
theorem xfence (tc fc : BitVec 5) : Statement (.xfence tc fc) := .inr rfl
theorem wcwaitS (o : WcOps) : Statement (.wcwaitS o) := .inr rfl
theorem wcwaitD (o : WcOps) : Statement (.wcwaitD o) := .inr rfl
theorem mmaF16 (o : MmaOps) : Statement (.mmaF16 o) := .inr rfl
theorem mmaBf16 (o : MmaOps) : Statement (.mmaBf16 o) := .inr rfl
theorem mmaE4m3 (o : MmaOps) : Statement (.mmaE4m3 o) := .inr rfl
theorem mmaE5m2 (o : MmaOps) : Statement (.mmaE5m2 o) := .inr rfl
theorem mmaMxe4m3 (o : MmaOps) : Statement (.mmaMxe4m3 o) := .inr rfl
theorem mmaMxe5m2 (o : MmaOps) : Statement (.mmaMxe5m2 o) := .inr rfl
theorem mmaMxe2m1 (o : MmaOps) : Statement (.mmaMxe2m1 o) := .inr rfl
theorem mmaiI8i8 (o : MmaOps) : Statement (.mmaiI8i8 o) := .inr rfl
theorem mmaiU8i8 (o : MmaOps) : Statement (.mmaiU8i8 o) := .inr rfl
theorem mmaiI4i4 (o : MmaOps) : Statement (.mmaiI4i4 o) := .inr rfl
theorem mmatI8t2 (o : MmaOps) : Statement (.mmatI8t2 o) := .inr rfl
theorem mmatU8t2 (o : MmaOps) : Statement (.mmatU8t2 o) := .inr rfl
theorem azero (t : TReg) : Statement (.azero t) := .inr rfl
theorem ald (o : TileMemOps) : Statement (.ald o) := .inr rfl
theorem ast (o : TileMemOps) : Statement (.ast o) := .inr rfl
theorem amovv (t : TReg) (v : VReg) : Statement (.amovv t v) := .inr rfl
theorem amova (t : TReg) (v : VReg) : Statement (.amova t v) := .inr rfl
theorem acvtRelu (t : TReg) : Statement (.acvtRelu t) := .inr rfl
theorem acvtScale (t : TReg) (sp : SReg) : Statement (.acvtScale t sp) := .inr rfl
theorem acvtClamp (t : TReg) (sp : SReg) : Statement (.acvtClamp t sp) := .inr rfl
theorem atag (t : TReg) (sd : SReg) (code : BitVec 5) : Statement (.atag t sd code) := .inr rfl
theorem kinitR (o : KinitOps) : Statement (.kinitR o) := .inr rfl
theorem kinitA (o : KinitOps) : Statement (.kinitA o) := .inr rfl
theorem knext (o : KnextOps) : Statement (.knext o) := .inr rfl
theorem knextS (o : KinitOps) : Statement (.knextS o) := .inr rfl
theorem kseek (o : KinitOps) : Statement (.kseek o) := .inr rfl
theorem kdesc (kd ka : KReg) (cf : Cf) : Statement (.kdesc kd ka cf) := .inr rfl
theorem kld (o : KldOps) : Statement (.kld o) := .inr rfl
theorem kqry (o : KqryOps) : Statement (.kqry o) := .inr rfl
theorem ksave (o : KmemOps) : Statement (.ksave o) := .inr rfl
theorem krest (o : KmemOps) : Statement (.krest o) := .inr rfl
theorem kcoI (o : KcoOps) : Statement (.kcoI o) := .inr rfl
theorem kcoU (o : KcoOps) : Statement (.kcoU o) := .inr rfl
theorem kapp (o : KappOps) : Statement (.kapp o) := .inr rfl
theorem kfin (o : KinitOps) : Statement (.kfin o) := .inr rfl
theorem sieveNz (o : SieveOps) : Statement (.sieveNz o) := .inr rfl
theorem sieveDelta (o : DeltaOps) : Statement (.sieveDelta o) := .inr rfl
theorem xdec (o : XdecOps) : Statement (.xdec o) := .inr rfl
theorem reservedOpcodeWord (w : W64) : Statement (.reservedOpcodeWord w) := .inr rfl
theorem clauseStart : Statement (.clauseStart) := .inr rfl
theorem pairIssue (a b : PairOp) : Statement (.pairIssue a b) := .inr rfl
theorem dbrSplit (r : StrandRef) : Statement (.dbrSplit r) := .inr rfl
theorem joinArrive (r : StrandRef) : Statement (.joinArrive r) := .inr rfl
theorem warpSplit (r : StrandRef) : Statement (.warpSplit r) := .inr rfl
theorem warpFusion (lo hi : WarpRef) : Statement (.warpFusion lo hi) := .inr rfl
theorem wfuseTimeout (r : StrandRef) : Statement (.wfuseTimeout r) := .inr rfl
theorem singletonEvent (r : StrandRef) : Statement (.singletonEvent r) := .inr rfl
theorem svwaitWake (r : StrandRef) : Statement (.svwaitWake r) := .inr rfl
theorem deqWake (ctx q : Nat) : Statement (.deqWake ctx q) := .inr rfl
theorem engineAccess (id k : Nat) : Statement (.engineAccess id k) := .inr rfl
theorem bwaitWake (r : StrandRef) : Statement (.bwaitWake r) := .inr rfl
theorem batchComplete (w : WarpRef) : Statement (.batchComplete w) := .inr rfl
theorem xfenceResume (r : StrandRef) : Statement (.xfenceResume r) := .inr rfl
theorem wcwaitWake (r : StrandRef) : Statement (.wcwaitWake r) := .inr rfl
theorem chlimReached (r : StrandRef) : Statement (.chlimReached r) := .inr rfl
theorem flaggedCompletion (r : StrandRef) (f : Fin 12) : Statement (.flaggedCompletion r f) := .inr rfl
theorem chunkOffer (r : ChunkRef) : Statement (.chunkOffer r) := .inr rfl
theorem chunkCommit (r : ChunkRef) : Statement (.chunkCommit r) := .inr rfl
theorem pinGrant (die : Nat) : Statement (.pinGrant die) := .inr rfl
theorem trapEntry (r : StrandRef) : Statement (.trapEntry r) := .inr rfl
theorem faultPark (r : StrandRef) : Statement (.faultPark r) := .inr rfl
theorem watchdog (r : StrandRef) : Statement (.watchdog r) := .inr rfl
theorem uncorrectableErrorOpen (r : ChunkRef) (residue : Option TReg) (site : ErrSite) : Statement (.uncorrectableErrorOpen r residue site) := .inr rfl
theorem uncorrectableErrorCommitted (e : ErrSite) : Statement (.uncorrectableErrorCommitted e) := .inr rfl
theorem correctedError : Statement (.correctedError) := .inr rfl
theorem launchTake (ctx : Nat) : Statement (.launchTake ctx) := .inr rfl
theorem convoyPlace (ctx voy : Nat) (places : List (Nat × Nat)) : Statement (.convoyPlace ctx voy places) := .inr rfl
theorem crewRetire (c : CrewRef) : Statement (.crewRetire c) := .inr rfl
theorem quadrantHaltDone (c : CrewRef) : Statement (.quadrantHaltDone c) := .inr rfl
theorem crewSaveDone (c : CrewRef) : Statement (.crewSaveDone c) := .inr rfl
theorem crewRestore (c : SavedCrew) (core quad : Nat) : Statement (.crewRestore c core quad) := .inr rfl
theorem eventStorePost (ctx : Nat) : Statement (.eventStorePost ctx) := .inr rfl
theorem faultRecordPost (ctx : Nat) : Statement (.faultRecordPost ctx) := .inr rfl
theorem hostEnqueue (func q : Nat) (k : HostKind) (off : Nat) (data : List Byte) : Statement (.hostEnqueue func q k off data) := .inr rfl
theorem hostHeadWrite (func q : Nat) (k : HostKind) (head : W64) : Statement (.hostHeadWrite func q k head) := .inr rfl
theorem apertureOtherAccess (func q : Nat) (k : HostKind) (off : Nat) : Statement (.apertureOtherAccess func q k off) := .inr rfl
theorem hostWindowRead (func : Nat) (off : W64) (len : Nat) : Statement (.hostWindowRead func off len) := .inr rfl
theorem hostWindowWrite (func : Nat) (k : HostKind) (off : W64) (data : List Byte) : Statement (.hostWindowWrite func k off data) := .inr rfl
theorem mailboxOtherWrite (func : Nat) (k : HostKind) (off : Nat) : Statement (.mailboxOtherWrite func k off) := .inr rfl
theorem ctxCreate (h : CmdHdr) (a : CtxCreateArgs) : Statement (.ctxCreate h a) := .inl rfl
theorem ctxSuspend (h : CmdHdr) (ctx : BitVec 16) : Statement (.ctxSuspend h ctx) := .inl rfl
theorem ctxResume (h : CmdHdr) (ctx : BitVec 16) : Statement (.ctxResume h ctx) := .inl rfl
theorem ctxDestroy (h : CmdHdr) (ctx : BitVec 16) : Statement (.ctxDestroy h ctx) := .inl rfl
theorem ctxScrubDone (ctx : Nat) : Statement (.ctxScrubDone ctx) := .inr rfl
theorem lossAck (h : CmdHdr) (ctx : BitVec 16) (readmit : W64) : Statement (.lossAck h ctx readmit) := .inl rfl
theorem coreReset (h : CmdHdr) (core : BitVec 16) : Statement (.coreReset h core) := .inl rfl
theorem crewPreempt (h : CmdHdr) (a : PreemptArgs) : Statement (.crewPreempt h a) := .inl rfl
theorem watchdogSet (h : CmdHdr) (ctx : BitVec 16) (us : BitVec 32) : Statement (.watchdogSet h ctx us) := .inl rfl
theorem queueConfig (h : CmdHdr) (ctx : BitVec 16) (q : BitVec 8) (rec : W64) : Statement (.queueConfig h ctx q rec) := .inl rfl
theorem queueOpen (h : CmdHdr) (ctx : BitVec 16) (q : BitVec 8) : Statement (.queueOpen h ctx q) := .inl rfl
theorem queueClose (h : CmdHdr) (ctx : BitVec 16) (q : BitVec 8) : Statement (.queueClose h ctx q) := .inl rfl
theorem queueFree (h : CmdHdr) (ctx : BitVec 16) (q : BitVec 8) : Statement (.queueFree h ctx q) := .inl rfl
theorem queueReset (h : CmdHdr) (ctx : BitVec 16) (q : BitVec 8) : Statement (.queueReset h ctx q) := .inl rfl
theorem queueQuery (h : CmdHdr) (ctx : BitVec 16) (q : BitVec 8) : Statement (.queueQuery h ctx q) := .inl rfl
theorem tlbInval (h : CmdHdr) (ctx : BitVec 16) (base len : W64) : Statement (.tlbInval h ctx base len) := .inl rfl
theorem tlbInvalDone (k : Nat) : Statement (.tlbInvalDone k) := .inr rfl
theorem replay (h : CmdHdr) (ctx : BitVec 16) (id : BitVec 32) (action : BitVec 8) : Statement (.replay h ctx id action) := .inl rfl
theorem frameAttr (h : CmdHdr) (first len : W64) (value : Byte) : Statement (.frameAttr h first len value) := .inl rfl
theorem hwinSet (h : CmdHdr) (ctx : BitVec 16) (hwb : W64) : Statement (.hwinSet h ctx hwb) := .inl rfl
theorem linkEnable (h : CmdHdr) (link : BitVec 8) : Statement (.linkEnable h link) := .inl rfl
theorem linkQuiesce (h : CmdHdr) (link : BitVec 8) : Statement (.linkQuiesce h link) := .inl rfl
theorem linkQuiesceDone (link : Nat) : Statement (.linkQuiesceDone link) := .inr rfl
theorem linkDisable (h : CmdHdr) (link : BitVec 8) : Statement (.linkDisable h link) := .inl rfl
theorem linkQuery (h : CmdHdr) (link : BitVec 8) : Statement (.linkQuery h link) := .inl rfl
theorem winOpen (h : CmdHdr) (a : WinOpenArgs) : Statement (.winOpen h a) := .inl rfl
theorem winReset (h : CmdHdr) (ctx : BitVec 16) (id : BitVec 8) : Statement (.winReset h ctx id) := .inl rfl
theorem winClose (h : CmdHdr) (ctx : BitVec 16) (id : BitVec 8) : Statement (.winClose h ctx id) := .inl rfl
theorem winCloseDone (ctx win : Nat) : Statement (.winCloseDone ctx win) := .inr rfl
theorem powerCap (h : CmdHdr) (cap : BitVec 32) : Statement (.powerCap h cap) := .inl rfl
theorem powerOverCap (mhz : Nat) : Statement (.powerOverCap mhz) := .inr rfl
theorem linkTrainingDone (link lanes : Nat) : Statement (.linkTrainingDone link lanes) := .inr rfl
theorem linkLaneLoss (link lanes : Nat) : Statement (.linkLaneLoss link lanes) := .inr rfl
theorem linkFailure (link : Nat) : Statement (.linkFailure link) := .inr rfl
theorem linkRemotePut (ctx win : Nat) (off : PeerUnit) (w : Option W32) : Statement (.linkRemotePut ctx win off w) := .inr rfl
theorem linkPutAck (cmd : Nat) : Statement (.linkPutAck cmd) := .inr rfl
theorem linkRemoteGet (ctx win : Nat) (off : PeerUnit) : Statement (.linkRemoteGet ctx win off) := .inr rfl
theorem linkGetData (cmd k : Nat) (w : W32) : Statement (.linkGetData cmd k w) := .inr rfl
theorem cxlPortDown (port : Nat) : Statement (.cxlPortDown port) := .inr rfl
theorem cxlPoisonReport (pa : Nat) : Statement (.cxlPoisonReport pa) := .inr rfl
theorem unlistedCommand (h : CmdHdr) (code : BitVec 16) : Statement (.unlistedCommand h code) := .inl rfl
theorem linkPeerFault (cmd : Nat) : Statement (.linkPeerFault cmd) := .inr rfl
theorem linkLevelError (link flits : Nat) : Statement (.linkLevelError link flits) := .inr rfl
theorem moduleReset : Statement (.moduleReset) := .inr rfl

end Sys2Proof.Laws.Coded
end

