-- ==== Sys2Proof/Laws/Scalar.lean ====
section
/-!
SUPPORT. The shared operations of the scalar instructions: each completes with one scalar written.
-/

set_option Elab.async false

namespace Sys2Proof.Machine

open Sys2Proof

/-- An instruction that writes one scalar, whose value it reads from the strand. -/
theorem scalar_computes {s : State} {c : Cur} {i : Instr} {cf : Cf} {f : Cur → Except Stop Cur} {d : SReg} {x : W64}
    (hr : Ready s c 1 cf) (hroom : Room c c) (hi : exec i s = s.issueC (Form.strandCf cf) f)
    (hf : f c.openChunk = .ok (c.openChunk.setS d x)) : Computes s c i 1 cf (c.setS d x) :=
  computesC_of (g := fun c => c.setS d x) hr (room_logged (room_openChunk hroom) (logged_setS _ d x)) hi rfl rfl (by decide) hf
    (wrote_setS _ d x) (regs_setS_openChunk c d x)

/-- SALU and SCMP. -/
theorem salu_computes {s : State} {c : Cur} {i : Instr} {f : W64 → W64 → W64} {o : SAluOps} (hr : Ready s c 1 .none)
    (hroom : Room c c) (hi : exec i s = salu f o s) : Computes s c i 1 .none (c.setS o.sd (f (c.sr o.sa) (c.src o.x))) :=
  scalar_computes hr hroom hi (by rw [openChunk_sr, openChunk_src])

/-- SPOPC, SCLZ, SCTZ and SREV. -/
theorem sbit_computes {s : State} {c : Cur} {i : Instr} {f : Nat → Nat} {o : SUnOps} (hr : Ready s c 1 .none)
    (hroom : Room c c) (hi : exec i s = sbit f o s) :
    Computes s c i 1 .none (c.setS o.sd (BitVec.ofNat 64 (f (c.sr o.sa).toNat))) :=
  scalar_computes hr hroom hi (by rw [openChunk_sr])

end Sys2Proof.Machine
end

