-- ==== Sys2Proof/Tests/Probe.lean ====
section
/-!
SUPPORT. The small state that tests and witnesses start from: one strand in a fresh context, as `State.withFetchWord` places
it, whose registers a test dresses.
-/

set_option Elab.async false

namespace Sys2Proof.Tests

open Sys2Proof Sys2Proof.Machine Sys2Proof.Rules

noncomputable section

/-- The strand at a word, with the schedule empty and the strand in focus. -/
def bare (w : Nat) : State := { State.reset.withFetchWord 64 w with focus := some probeRef, agenda := [] }

/-- The strand as the state shows it. -/
def seen (s : State) : Cur :=
  (s.curOf probeRef).getD
    { ref := probeRef, crew := probeCrew 0 0, warp := startWarp probeLaunch 0 0 0 0, t := startStrand probeLaunch 0, free := 0, log := [], acc := [] }

/-- A state with its strand changed. -/
def dress (s : State) (f : Cur → Cur) : State := s.putCur (f (seen s))

/-- Every instruction's conditions on the strand (`Ready`), as one test. -/
def readyFor (s : State) (n : Nat) (cf : Cf) : Bool :=
  let c := seen s
  s.focus == some probeRef && (s.curOf probeRef).isSome && s.mayIssue c false && c.t.pends.isEmpty && !c.t.poisoned &&
    c.t.residue.isNone && c.t.failed.isNone && (n != 0 || c.t.core.isLast) &&
    (cf == .none || (hdrFlag c.t.core.hword cf).isSome) && c.t.core.beginsPair == (n == 2)

theorem cur_of_seen (s : State) (h : (s.curOf probeRef).isSome = true) : s.curOf probeRef = some (seen s) := by
  unfold seen
  cases hc : s.curOf probeRef with
  | none => rw [hc] at h; simp at h
  | some c => simp

theorem seen_ref (s : State) : (seen s).ref = probeRef := by
  unfold seen
  cases hc : s.curOf probeRef with
  | none => rfl
  | some c =>
    unfold State.curOf at hc
    split at hc
    · simp at hc
    · split at hc
      · simp at hc
      · split at hc
        · simp at hc
        · simp only [Option.some.injEq] at hc
          subst hc
          rfl

theorem curOf_seen (s : State) (h : (s.curOf probeRef).isSome = true) : s.curOf (seen s).ref = some (seen s) := by
  rw [seen_ref]; exact cur_of_seen s h

theorem ready_of (s : State) (n : Nat) (cf : Cf) (h : readyFor s n cf = true) : Ready s (seen s) n cf := by
  simp only [readyFor, Bool.and_eq_true, beq_iff_eq, Bool.or_eq_true, bne_iff_ne, Bool.not_eq_true', List.isEmpty_iff,
    Option.isNone_iff_eq_none] at h
  obtain ⟨⟨⟨⟨⟨⟨⟨⟨⟨h1, h2⟩, h3⟩, h4⟩, h5⟩, h6⟩, h7⟩, h8⟩, h9⟩, h10⟩ := h
  exact ⟨⟨by simp only [State.cur?, h1]; exact cur_of_seen s h2, h3, h5, h6, h7,
    fun hn => h8.resolve_left (fun h => h hn), fun hc => h9.resolve_left hc, h10⟩, h4⟩

/-- A tag for each vector register, every lane its number. -/
def tagged (tag : Nat → Tag) (c : Cur) : Cur :=
  { c with warp := { c.warp with vregs := (List.range 256).map (fun i =>
    { tag := tag i, lanes := (List.range 32).map (BitVec.ofNat 32) }) } }

/-- Scalars. -/
def scalars (l : List (Nat × Nat)) (c : Cur) : Cur :=
  l.foldl (fun c x => c.mapCore (fun k => { k with s := setAt k.s x.1 (BitVec.ofNat 64 x.2) })) c

/-- v0 to v16 carry the tag codes 0 to 16, v17 is POISON, and the others are RAW. -/
def plainTag (i : Nat) : Tag := if i ≤ 16 then Tag.ofCode i else if i = 17 then .poison else .raw

/-- The state of most witnesses. -/
def plain : State := dress (bare 0) (fun c => scalars [(1, 1), (2, 2)] (tagged plainTag c))

/-- Unguarded. -/
def g0 : Guard := Guard.all

def vr (i : Fin 256) : VReg := .v i

/-- The register of `plain` that carries a tag. -/
def regOf (t : Tag) : VReg := .v ⟨t.code % 32, by omega⟩

/-- An access that reaches a WB page, as a test. -/
def reaches (s : State) (q : XReq) (rd : Bool) (va n : Nat) : Bool :=
  match s.gAccess (seen s) q rd va n n with
  | .ok l => l.pol == 0
  | .error _ => false

theorem reaches_of (s : State) (q : XReq) (rd : Bool) (va n : Nat) (h : reaches s q rd va n = true) :
    Reaches s (seen s) q rd va n := by
  unfold reaches at h
  unfold Reaches
  split at h
  · next l hl => exact ⟨l, hl, by simpa using h⟩
  · simp at h

/-- The first GiB of the strand's context maps onto itself, nothing is cached, discarded, poisoned or pending. -/
def isLow (s : State) : Bool :=
  let c := seen s
  c.t.earlier.isEmpty && c.t.chunk.badG.isEmpty && s.walks.isEmpty && decide (s.tlb = []) && (s.ctx c.ctx).root == 0x1000 && s.rdNat 0x1000 8 == 0x2001 && s.rdNat 0x2000 8 == 0x3001 &&
    s.rdNat 0x3000 8 == 0x1F && s.poison.isEmpty && s.frat.isEmpty && s.dead.isEmpty && c.t.chunk.gw.isEmpty && c.t.chunk.disc.isEmpty

theorem low_leaf {s : State} (h : isLow s = true) {va : Nat} (hv : va < 2 ^ 30) : s.leafOf (seen s).ctx va = .ok (0x1F, 3) := by
  simp only [isLow, Bool.and_eq_true, decide_eq_true_eq, beq_iff_eq, List.isEmpty_iff] at h
  obtain ⟨⟨⟨⟨⟨⟨⟨⟨⟨⟨⟨⟨he, hg⟩, hw⟩, h1⟩, h2⟩, h3⟩, h4⟩, h5⟩, h6⟩, h7⟩, h8⟩, h9⟩, h10⟩ := h
  have hs : ∀ l x, s.staleWalks (seen s).ctx va l x = [] := by
    intro l x
    simp [State.staleWalks, hw]
  have i5 : pageIx va 5 = 0 := by unfold pageIx; rw [Nat.div_eq_of_lt (by omega)]
  have i4 : pageIx va 4 = 0 := by unfold pageIx; rw [Nat.div_eq_of_lt (by omega)]
  have i3 : pageIx va 3 = 0 := by unfold pageIx; rw [Nat.div_eq_of_lt (by omega)]
  have hp : ∀ x, x < 2 ^ 30 → s.isPoison x = false := by
    intro x hx
    have : x < hbmBytes := by unfold hbmBytes; omega
    simp [State.isPoison, h6, State.backed, this]
  have hb : ∀ x, x < 2 ^ 30 → s.backed x = true := by
    intro x hx
    have : x < hbmBytes := by unfold hbmBytes; omega
    simp [State.backed, this]
  obtain ⟨ws3, w3⟩ : ∃ ws, s.walk (seen s).ctx va 3 0x3000 = .ok (0x1F, 3, ws) := by
    refine ⟨[], ?_⟩
    rw [State.walk]
    simp only [i3, Nat.mul_zero, Nat.add_zero, h5, hs, pickOf, hp 0x3000 (by decide), Bool.false_and, Bool.false_eq_true, ↓reduceIte]
    rfl
  obtain ⟨ws4, w4⟩ : ∃ ws, s.walk (seen s).ctx va 4 0x2000 = .ok (0x1F, 3, ws) := by
    refine ⟨{ ctx := (seen s).ctx, lvl := 4, ix := va / leafBytes 4, pte := 0x3001 } :: ws3, ?_⟩
    rw [State.walk]
    simp only [i4, Nat.mul_zero, Nat.add_zero, h4, hs, pickOf, hp 0x2000 (by decide), Bool.false_and, Bool.false_eq_true, ↓reduceIte]
    have e : 4096 * field 0x3001 51 12 = 0x3000 := by decide +kernel
    rw [e, hb 0x3000 (by decide), w3]
    rfl
  obtain ⟨ws5, w5⟩ : ∃ ws, s.walk (seen s).ctx va 5 0x1000 = .ok (0x1F, 3, ws) := by
    refine ⟨{ ctx := (seen s).ctx, lvl := 5, ix := va / leafBytes 5, pte := 0x2001 } :: ws4, ?_⟩
    rw [State.walk]
    simp only [i5, Nat.mul_zero, Nat.add_zero, h3, hs, pickOf, hp 0x1000 (by decide), Bool.false_and, Bool.false_eq_true, ↓reduceIte]
    have e : 4096 * field 0x2001 51 12 = 0x2000 := by decide +kernel
    rw [e, hb 0x2000 (by decide), w4]
    rfl
  have hc : s.cached (seen s).ctx va = [] := by simp [State.cached, h1]
  simp only [State.leafOf, State.walkOf, hc, h2, hb 0x1000 (by decide), w5, ↓reduceIte]
  rfl

theorem low_translate {s : State} (h : isLow s = true) {va : Nat} (hv : va < 2 ^ 30) (q : XReq) :
    s.translate (seen s).ctx va q = .ok ⟨va, 0, 0x1F, 3⟩ := by
  have hl := low_leaf h hv
  simp only [isLow, Bool.and_eq_true, decide_eq_true_eq, beq_iff_eq, List.isEmpty_iff] at h
  have hf : s.frat = [] := h.1.1.1.2
  have hn : ∀ p k, s.goneBehind (seen s).ctx va p k = false := by
    intro p k
    simp [State.goneBehind, State.cached, h.1.1.1.1.1.1.1.1.1.2]
  have hb : s.backed (va / 4096 * 4096) = true := by
    have : va / 4096 * 4096 < hbmBytes := by unfold hbmBytes; omega
    simp [State.backed, this]
  have e : leafPa 0x1F 3 va = va := by
    have : va % leafBytes 3 = va := Nat.mod_eq_of_lt hv
    unfold leafPa
    rw [this]
    have : 4096 * field 0x1F 51 12 / leafBytes 3 * leafBytes 3 = 0 := by decide +kernel
    omega
  simp only [State.translate, hl, hn, Bool.false_eq_true, ↓reduceIte, State.leafCheck, e, hb, State.frame, hf, List.find?_nil, Option.map_none, Option.getD_none]
  have b2 : bitAt 0x1F 2 = true := by decide
  have b3 : bitAt 0x1F 3 = true := by decide
  have p : field 0x1F 7 6 = 0 := by decide
  have b4 : bitAt 0x1F 4 = true := by decide
  simp [b2, b3, b4, p]
  decide

/-- Bytes of memory as a number. -/
def numLow (m : List Host.Cell) (va n : Nat) : Nat := ofBytes ((List.range n).map (fun i => cellGet m (va + i)))

theorem low_number {s : State} (h : isLow s = true) {va n : Nat} (hv : va + n ≤ 2 ^ 30) :
    numberAtVa s (seen s) va n = numLow s.mem va n := by
  unfold numberAtVa numLow
  congr 1
  apply List.map_congr_left
  intro i hi
  have hi := List.mem_range.1 hi
  simp only [byteAtVa, low_translate h (show va + i < 2 ^ 30 by omega) XReq.load]
  simp only [isLow, Bool.and_eq_true, decide_eq_true_eq, beq_iff_eq, List.isEmpty_iff] at h
  have he := h.1.1.1.1.1.1.1.1.1.1.1.1
  obtain ⟨⟨⟨-, h8⟩, h9⟩, h10⟩ := h
  simp [Cur.gByte, Cur.newest, State.chunkByte, he, h9, h10, State.rdByte, h8]

theorem low_access {s : State} (h : isLow s = true) {va n : Nat} (hv : va + n ≤ 2 ^ 30) (hn : va % n = 0) (q : XReq) (rd : Bool) : s.gAccess (seen s) q rd va n n = .ok ⟨va, 0, 0x1F, 3⟩ := by
  rcases Nat.eq_zero_or_pos n with rfl | h0
  · obtain rfl : va = 0 := by simpa using hn
    simp only [State.gAccess, gAddrOk, State.coreXlate, low_translate h (show 0 < 2 ^ 30 by decide) q]
    cases rd <;> rfl
  have ht := low_translate h (show va < 2 ^ 30 by omega) q
  have hf : field va 63 57 = 0 := by
    have : va / 2 ^ 57 = 0 := Nat.div_eq_of_lt (by omega)
    rw [field, this, Nat.zero_mod]
  simp only [isLow, Bool.and_eq_true, decide_eq_true_eq, beq_iff_eq, List.isEmpty_iff] at h
  have hp : ∀ i ∈ List.range n, ¬ ((seen s).gPoison s (va + i) = true) := by
    intro i hi
    have hi := List.mem_range.1 hi
    have : va + i < hbmBytes := by unfold hbmBytes; omega
    simp [Cur.gPoison, Cur.newest, State.isPoison, h.1.1.1.1.2, h.1.1.1.1.1.1.1.1.1.1.1.2, h.1.1.1.1.1.1.1.1.1.1.1.1, State.backed,
      this]
  have hs : poisonStop ((seen s).gPoison s) va va n = .ok () := by
    unfold poisonStop
    rw [List.find?_eq_none.2 hp]
  simp only [State.gAccess, gAddrOk, hf, hn, State.coreXlate, ht]
  cases rd
  · rfl
  · show (do poisonStop ((seen s).gPoison s) va va n; Except.ok _ : Except Stop Leaf) = _
    rw [hs]
    rfl

theorem low_reaches {s : State} (h : isLow s = true) {va n : Nat} (hv : va + n ≤ 2 ^ 30) (hn : va % n = 0) (q : XReq) (rd : Bool) : Reaches s (seen s) q rd va n := ⟨_, low_access h hv hn q rd, rfl⟩

/-- A word that can be read at an address, and whether it is a header. -/
def wordIs (s : State) (a : W64) (h : Bool) : Bool :=
  match s.fetchWord (seen s).ctx a with
  | .ok w => isHeader w == h
  | .error _ => false

theorem headerAt_of (s : State) (a : W64) (h : wordIs s a true = true) : HeaderAt s (seen s) a := by
  unfold wordIs at h
  split at h
  · next w hw => exact ⟨w, hw, by simpa using h⟩
  · simp at h

theorem noHeaderAt_of (s : State) (a : W64) (h : wordIs s a false = true) : NoHeaderAt s (seen s) a := by
  unfold wordIs at h
  split at h
  · next w hw => exact ⟨w, hw, by simpa using h⟩
  · simp at h

theorem mem_lanes {c : Cur} {m : Mask} {l : Nat} : l ∈ c.lanes m ↔ l < c.width ∧ hasLane m l = true := by
  simp [Cur.lanes, lanesBelow]

/-- A test of every lane of a mask. -/
theorem lanes_all {c : Cur} {m : Mask} {p : Nat → Bool} (h : (c.lanes m).all p = true) (l : Nat) (hl : inLanes c m l) :
    p l = true := by
  rw [List.all_eq_true] at h
  exact h l (mem_lanes.2 hl)

/-- The package runs one strand. -/
def alone (s : State) : Bool :=
  match s.crews with
  | [k] => k.ref == probeRef.w.crew && (match k.warps with
    | [w] => w.id == 0 && (match w.strands with
      | [some _, none, none, none] => true
      | _ => false)
    | _ => false)
  | _ => false

theorem only_strand (s : State) (h : alone s = true) (r : StrandRef) (t : Strand) (hr : s.strand? r = some t) : r = probeRef := by
  unfold alone at h
  split at h <;> try simp at h
  next k hk =>
  obtain ⟨h1, h2⟩ := h
  split at h2 <;> try simp at h2
  next w hw =>
  obtain ⟨h3, h4⟩ := h2
  split at h4 <;> try simp at h4
  next x hx =>
  obtain ⟨⟨kr, wid⟩, st⟩ := r
  simp only [State.strand?, State.warp?, State.crew?, Crew.warp?, Warp.strand?, hk, List.find?_cons, List.find?_nil] at hr
  split at hr
  · next hkr =>
    simp only [Option.bind_some, hw, List.find?_cons, List.find?_nil] at hr
    split at hr
    · next hwi =>
      simp only [Option.bind_some, hx] at hr
      have e1 : kr = probeRef.w.crew := by rw [← h1]; exact (by simpa using hkr : k.ref = kr).symm
      have e2 : wid = 0 := by rw [← h3]; exact (by simpa using hwi : w.id = wid).symm
      rcases st with _ | _ | _ | _ | n
      · subst e1; subst e2; rfl
      · simp at hr
      · simp at hr
      · simp at hr
      · simp at hr
    · simp at hr
  · simp at hr

theorem quiet_of (s : State) (h : alone s = true) (hm : s.memWf = true) : Quiet s (seen s) := by
  refine ⟨hm, fun r t hr ht => ?_⟩
  rw [seen_ref] at hr
  exact absurd (only_strand s h r t ht) hr

/-- A command of the strand's warp with accesses to perform. -/
def pendingCmd (id : Nat) : Cmd :=
  { id := id, kind := .syFill 0x40000000 1 0, warp := some probeRef.w, mates := [], ctx := 0, voy := 1, crew := probeRef.w.crew, core := 0,
    batch := none, openN := 0, buf := [], done := [], stall := none, abandoned := false, after := [], linkSent := false,
    lost := false }

def withCmds (s : State) (n : Nat) : State := { s with cmds := (List.range n).map pendingCmd, nextCmd := n }

/-- No chunk of any strand has begun. -/
def calmAll (s : State) : Bool :=
  s.crews.all (fun k => k.warps.all (fun w => w.strands.all (fun o =>
    match o with
    | some t => t.unplaced.all (fun ch => !ch.active)
    | none => true)))

theorem quiet_of_calm (s : State) (c : Cur) (h : calmAll s = true) (hm : s.memWf = true) : Quiet s c := by
  refine ⟨hm, fun r t _ ht ch hch => ?_⟩
  simp only [State.strand?, State.warp?, State.crew?, Option.bind_eq_some_iff] at ht
  obtain ⟨w, ⟨k, hk, hw⟩, ht⟩ := ht
  simp only [calmAll, List.all_eq_true] at h
  have h1 := h k (List.mem_of_find?_eq_some hk) w (List.mem_of_find?_eq_some hw)
  have h2 : some t ∈ w.strands := by
    unfold Warp.strand? at ht
    rw [List.getD_eq_getElem?_getD] at ht
    cases hx : w.strands[r.strand]? with
    | none => rw [hx] at ht; simp at ht
    | some y =>
      rw [hx] at ht
      obtain rfl : y = some t := by simpa using ht
      exact List.mem_of_getElem? hx
  simpa using List.all_eq_true.mp (h1 _ h2) ch hch

/-- Another strand, as the state shows it. -/
def seenAt (s : State) (r : StrandRef) : Cur := (s.curOf r).getD (seen s)

theorem curOf_seenAt (s : State) (r : StrandRef) (h : (s.curOf r).isSome = true) : s.curOf (seenAt s r).ref = some (seenAt s r) := by
  unfold seenAt
  cases hc : s.curOf r with
  | none => rw [hc] at h; simp at h
  | some c =>
    have : c.ref = r := by
      unfold State.curOf at hc
      split at hc
      · simp at hc
      · split at hc
        · simp at hc
        · split at hc
          · simp at hc
          · cases hc; rfl
    simp [this, hc]

/-- An access that stops, as a test. -/
def stops (s : State) (q : XReq) (rd : Bool) (va n : Nat) : Bool :=
  match s.gAccess (seen s) q rd va n n with
  | .ok _ => false
  | .error _ => true

theorem stops_of (s : State) (q : XReq) (rd : Bool) (va n : Nat) (h : stops s q rd va n = true) :
    ∃ st, s.gAccess (seen s) q rd va n n = .error st := by
  unfold stops at h
  split at h
  · simp at h
  · next st hs => exact ⟨st, hs⟩

theorem plain_ready (n : Nat) (cf : Cf) (hn : n < 2) : Ready plain (seen plain) n cf := by
  apply ready_of
  interval_cases n <;> cases cf <;> decide +kernel

/-- No chunk of a strand is under way, as a test. -/
def calm (c : Cur) : Bool := c.t.chunk.st == .idle && c.t.earlier.isEmpty

theorem alone_of {c : Cur} (h : calm c = true) : Alone c := by
  simpa [calm, Alone, beq_iff_eq, List.isEmpty_iff] using h

theorem plain_room : Room (seen plain) (seen plain) := .inl (by decide +kernel)
theorem plain_alone : Alone (seen plain) := alone_of (by decide +kernel)
theorem plain_fits : Fits (seen plain) := .inl (by decide +kernel)
theorem plain_width : (seen plain).width = 32 := by decide +kernel

theorem plain_reg (i : Fin 256) : (seen plain).regOk (.v i) = true := by
  have h : ∀ i : Fin 256, (seen plain).regOk (.v i) = true := by decide +kernel
  exact h i

theorem plain_tag (t : Tag) (h : t ≠ .poison) : ((seen plain).vr (regOf t)).tag = t := by
  cases t <;> first | exact absurd rfl h | decide +kernel

theorem plain_source (t : Tag) (ok : Tag → Bool) (h : t ≠ .poison) (hk : ok t = true) : Source (seen plain) (regOf t) ok :=
  ⟨plain_reg _, by rw [plain_tag t h]; exact h, by rw [plain_tag t h]; exact hk⟩

end

end Sys2Proof.Tests
end

