-- ==== Sys2Proof/Tests/WitnessB.lean ====
section
/-!
SUPPORT. Witnesses of the statements about special registers, traps, control transfers and the register window.
-/

set_option Elab.async false

namespace Sys2Proof.Tests

open Sys2Proof Sys2Proof.Machine Sys2Proof.Rules

noncomputable section

/-- An open chunk that began with the strand's present state and holds `n` instructions. -/
def opened (n : Nat) (c : Cur) : Cur :=
  c.mapChunk (fun h => { h with st := .opened, count := n, chlim := 256, snap := some { c.t.core with pc := 0x10000, inClause := false } })

/-- In the handler, with TPC, SKIP and the recorded address given. -/
def inHandler (tpc recorded : W64) (skip : Bool) (c : Cur) : Cur :=
  c.mapCore (fun k => { k with trap := { k.trap with h := true, tpc := tpc, recorded := recorded, recHdr := 0x10000, skip := skip } })

/-- A command of the strand's warp is accepted and not complete. -/
def withCmd (s : State) : State := { s with cmds := [pendingCmd 5], nextCmd := 6 }

/-- SpecialRegisters: both sides of the range of ACR and of CHLIM, and BATCHN with and without a pending batch. -/
theorem witness_SpecialRegisters :
    (∃ (s : State) (c : Cur), Ready s c 1 .none ∧ Room c c ∧ (c.sr 3).toNat = 1023 ∧ (c.sr 4).toNat = 1024 ∧
      (c.sr 5).toNat = 32 ∧ (c.sr 6).toNat = 4096 ∧ (c.sr 7).toNat = 31 ∧ (c.sr 8).toNat = 4097 ∧
      s.batchPending c.ref.w = false ∧ 8 < (9 : BitVec 32).toNat ∧ (3 : BitVec 32).toNat ∉ [0, 1, 2, 5, 7] ∧
      ((8 : BitVec 32).toNat, (0 : W64)) ∈ specialRead s c) ∧
    (∃ (s : State) (c : Cur), Ready s c 1 .none ∧ Room c c ∧ s.batchPending c.ref.w = true) := by
  constructor
  · exact ⟨dress plain (scalars [(3, 1023), (4, 1024), (5, 32), (6, 4096), (7, 31), (8, 4097)]), _,
      ready_of _ 1 .none (by decide +kernel), .inl (by decide +kernel), by decide +kernel⟩
  · exact ⟨withCmd plain, _, ready_of _ 1 .none (by decide +kernel), .inl (by decide +kernel), by decide +kernel⟩

/-- SpecialRegisters, trap control registers: inside a handler and outside one, the last number and the first reserved one. -/
theorem witness_TrapRegisters :
    (∃ (s : State) (c : Cur) (x : W64), Ready s c 1 .none ∧ Room c c ∧ c.t.core.trap.h = true ∧
      ((5 : BitVec 32).toNat, x) ∈ trapRead c ∧ 5 < (6 : BitVec 32).toNat) ∧
    (∃ (s : State) (c : Cur), Ready s c 1 .none ∧ Room c c ∧ c.t.core.trap.h = false) :=
  ⟨⟨dress plain (inHandler 0x10008 0x10008 true), _, 3, ready_of _ 1 .none (by decide +kernel), .inl (by decide +kernel),
      by decide +kernel, by decide +kernel, by decide⟩,
    ⟨plain, _, plain_ready 1 .none (by decide), plain_room, by decide +kernel⟩⟩

/-- SystemInstructions: CHCFG with 0, both limits and the values beside them; IDRD's last number and the first reserved one. -/
theorem witness_SystemInstructions : ∃ (s : State) (c : Cur), Ready s c 1 .none ∧ Room c c ∧ c.src (.zext 0) = 0 ∧
    (c.src (.zext 32)).toNat = 32 ∧ (c.src (.zext 4096)).toNat = 4096 ∧ (c.src (.zext 31)).toNat = 31 ∧
      (c.src (.zext 4097)).toNat = 4097 ∧ ((9 : BitVec 32).toNat, 0) ∈ identity c ∧ 9 < (10 : BitVec 32).toNat ∧
      c.warp.width < 256 ∧ c.warp.splits.length < 4 :=
  ⟨plain, _, plain_ready 1 .none (by decide), plain_room, by decide +kernel⟩

theorem plain_canTrap : CanTrap plain (seen plain) := ⟨plain_alone, by decide +kernel, by decide +kernel⟩

/-- VLI.HI of v17, which is POISON. -/
def poisonRead : Instr := .vliHi ⟨vr 17, 1, .u32, g0⟩

theorem plain_meets : Meets plain (seen plain) poisonRead ((seen plain).enabled g0) (.trap .regPoison 0 17 none) := by
  unfold Meets poisonRead
  rfl

/-- TakingATrap: TRAP, a trap condition at issue, and a word that is no instruction. -/
theorem witness_TakingATrap : ∃ (s : State) (c : Cur) (i : Instr) (lanes : Mask) (cause : Cause) (ta te : Nat),
    Ready s c 0 .none ∧ Ready s c 1 .none ∧ CanTrap s c ∧ cause.isSoftware = false ∧
      Meets s c i lanes (.trap cause ta te none) ∧ s.cur? = some c ∧ s.mayIssue c false = true ∧ c.t.pends = [] :=
  ⟨plain, _, poisonRead, _, .regPoison, 0, 17, plain_ready 0 .none (by decide), plain_ready 1 .none (by decide), plain_canTrap,
    rfl, plain_meets, (plain_ready 1 .none (by decide)).focus, by decide +kernel, by decide +kernel⟩

/-- A strand in its handler. -/
def nested : State := dress plain (inHandler 0x10008 0x10008 true)

theorem nested_meets : Meets nested (seen nested) poisonRead ((seen nested).enabled g0) (.trap .regPoison 0 17 none) := by
  unfold Meets poisonRead
  rfl

/-- TrapReplay: a trap condition with an instruction in the open chunk, and one in the handler. -/
theorem witness_TrapReplay :
    (∃ (s : State) (c : Cur) (i : Instr) (lanes : Mask) (cause : Cause) (ta te : Nat) (o : Option Mask) (x : StrandCore),
      Ready s c 1 .none ∧ c.t.chunk.st = .opened ∧ 0 < c.t.chunk.count ∧ c.t.chunk.snap = some x ∧ c.t.chunk.childIdx = none ∧
        c.t.chunk.owner = none ∧ Meets s c i lanes (.trap cause ta te o)) ∧
    (∃ (s : State) (c : Cur) (i : Instr) (lanes : Mask) (cause : Cause) (ta te : Nat) (o : Option Mask), Ready s c 1 .none ∧
      Alone c ∧ c.t.core.trap.h = true ∧ (s.ctx? c.ctx).isSome = true ∧ Meets s c i lanes (.trap cause ta te o)) := by
  constructor
  · refine ⟨dress plain (opened 3), seen (dress plain (opened 3)), poisonRead, _, .regPoison, 0, 17, none,
      ((seen (dress plain (opened 3))).t.chunk.snap.getD (seen (dress plain (opened 3))).t.core), ready_of _ 1 .none (by decide +kernel), by decide +kernel,
      by decide +kernel, by rfl, by decide +kernel, by decide +kernel, (by unfold Meets poisonRead; rfl : Meets _ _ poisonRead ((seen (dress plain (opened 3))).enabled g0) _)⟩
  · exact ⟨nested, seen nested, poisonRead, _, .regPoison, 0, 17, none, ready_of _ 1 .none (by decide +kernel),
      ⟨by decide +kernel, by decide +kernel⟩, by decide +kernel, by decide +kernel, nested_meets⟩

/-- ReturnFromTrap: the recorded address without and with SKIP, a written header, and the combinations that trap. -/
theorem witness_ReturnFromTrap :
    (∃ (s : State) (c : Cur), Ready s c 0 .none ∧ Room c c ∧ c.t.core.trap.h = true ∧
      c.t.core.trap.tpc = c.t.core.trap.recorded ∧ c.t.core.trap.skip = false) ∧
    (∃ (s : State) (c : Cur) (hw : W64), Ready s c 0 .none ∧ Room c c ∧ c.t.core.trap.h = true ∧
      c.t.core.trap.tpc = c.t.core.trap.recorded ∧ c.t.core.trap.skip = true ∧ s.fetchWord c.ctx c.t.core.trap.recHdr = .ok hw) ∧
    (∃ (s : State) (c : Cur), Ready s c 0 .none ∧ Room c c ∧ c.t.core.trap.h = true ∧
      c.t.core.trap.tpc ≠ c.t.core.trap.recorded ∧ c.t.core.trap.skip = false ∧ s.headerAt c.ctx c.t.core.trap.tpc = true) ∧
    (∃ (s : State) (c : Cur), Ready s c 0 .none ∧ Room c c ∧ c.t.core.trap.h = true ∧
      c.t.core.trap.tpc ≠ c.t.core.trap.recorded ∧ c.t.core.trap.skip = false ∧ s.headerAt c.ctx c.t.core.trap.tpc = false) ∧
    (∃ (s : State) (c : Cur), Ready s c 0 .none ∧ Room c c ∧ c.t.core.trap.h = true ∧
      c.t.core.trap.tpc ≠ c.t.core.trap.recorded ∧ c.t.core.trap.skip = true) :=
  ⟨⟨dress plain (inHandler 0x10008 0x10008 false), _, ready_of _ 0 .none (by decide +kernel), .inl (by decide +kernel),
      by decide +kernel⟩,
    ⟨dress plain (inHandler 0x10008 0x10008 true), _, probeHeader, ready_of _ 0 .none (by decide +kernel), .inl (by decide +kernel),
      by decide +kernel, by decide +kernel, by decide +kernel, by rfl⟩,
    ⟨dress plain (inHandler 0x20000 0x10008 false), _, ready_of _ 0 .none (by decide +kernel), .inl (by decide +kernel),
      by decide +kernel⟩,
    ⟨dress plain (inHandler 0x20008 0x10008 false), _, ready_of _ 0 .none (by decide +kernel), .inl (by decide +kernel),
      by decide +kernel⟩,
    ⟨dress plain (inHandler 0x20000 0x10008 true), _, ready_of _ 0 .none (by decide +kernel), .inl (by decide +kernel),
      by decide +kernel⟩⟩

/-- Branches: a header and a word that is none as targets, and each condition both ways. -/
theorem witness_Branches : ∃ (s : State) (c : Cur) (t u : BitVec 32), Ready s c 0 .none ∧ Room c c ∧
    HeaderAt s c (targetOf c t) ∧ NoHeaderAt s c (targetOf c u) ∧ c.sr 1 ≠ 0 ∧ c.sr 3 = 0 ∧
      c.em &&& c.pr 0 &&& c.l = 0 ∧ c.em &&& c.pr 15 &&& c.l ≠ 0 :=
  ⟨plain, _, 0x1FFE, 0x7FFFF, plain_ready 0 .none (by decide), plain_room, headerAt_of _ _ (by decide +kernel),
    noHeaderAt_of _ _ (by decide +kernel), by decide +kernel, by decide +kernel, by decide +kernel, by decide +kernel⟩

/-- p1 holds lanes 0 to 7. -/
def divided (c : Cur) : Cur := { c with warp := { c.warp with preds := setAt c.warp.preds 1 0xFF } }

/-- Waiting to split, its chunk open. -/
def splitting (c : Cur) : Cur := (divided (opened 2 c)).mapT (fun t => { t with wait := .split 1 0xFF 0x20000 0x10000 })

/-- Branches, DBR: no lane taken, every lane taken, some of them. -/
theorem witness_DivergentBranch : ∃ (s : State) (c : Cur) (t : BitVec 32), Ready s c 0 .none ∧ Room c c ∧
    c.em &&& c.pr 0 &&& c.l = 0 ∧ c.em &&& c.pr 15 &&& c.l ≠ 0 ∧ c.em &&& ~~~(c.pr 15) &&& c.l = 0 ∧
      HeaderAt s c (targetOf c t) ∧ c.em &&& c.pr 1 &&& c.l ≠ 0 ∧ c.em &&& ~~~(c.pr 1) &&& c.l ≠ 0 :=
  ⟨dress plain divided, _, 0x1FFE, ready_of _ 0 .none (by decide +kernel), .inl (by decide +kernel), by decide +kernel,
    by decide +kernel, by decide +kernel, headerAt_of _ _ (by decide +kernel), by decide +kernel, by decide +kernel⟩

/-- Branches, the split of a DBR: with a free entry of the strand table, and without one. -/
theorem witness_dbrSplit :
    (∃ (s : State) (c : Cur) (n : Nat), s.curOf c.ref = some c ∧ c.log = [] ∧ HeaderAt s c 0x20000 ∧
      (c.t.wait = .split 1 0xFF 0x20000 0x10000 ∧ c.t.pends = [] ∧ c.t.chunk.st = .opened ∧ c.t.poisoned = false ∧
        c.t.residue = none ∧ c.t.failed = none ∧ c.t.core.isLast = true ∧ c.t.core.beginsPair = false ∧
        c.ref.strand < c.warp.strands.length ∧ c.warp.freeEntry = some n ∧ c.holdsAppend = false ∧ c.holdsCall = false ∧
        s.headerAt c.ctx 0x10000 = true) ∧ Room c c) ∧
    (∃ (s : State) (c : Cur), s.curOf c.ref = some c ∧ c.log = [] ∧
      (c.t.wait = .split 1 0xFF 0x20000 0x10000 ∧ c.t.pends = [] ∧ c.t.chunk.st = .opened ∧ c.t.poisoned = false ∧
        c.t.residue = none ∧ c.t.failed = none ∧ c.t.core.isLast = true ∧ c.t.core.beginsPair = false ∧
        c.ref.strand < c.warp.strands.length ∧ c.warp.freeEntry = none) ∧ Room c c) := by
  constructor
  · exact ⟨dress plain splitting, _, 1, curOf_seen _ (by decide +kernel), by rfl, headerAt_of _ _ (by decide +kernel),
      by decide +kernel, .inr (by decide +kernel)⟩
  · let f := fun (c : Cur) => let c := splitting c
      { c with warp := { c.warp with strands := List.replicate 4 (some (startStrand probeLaunch 0)) } }
    exact ⟨dress plain f, _, curOf_seen _ (by decide +kernel), by rfl, by decide +kernel, .inr (by decide +kernel)⟩

/-- Join frames of the warp. -/
def framed (fs : List Frame) (c : Cur) : Cur := { c with warp := { c.warp with frames := fs } }

/-- JoinAndExit: no frame, the innermost frame, an outer one; EXIT of some lanes and of all. -/
theorem witness_JoinAndExit :
    (∃ (s : State) (c : Cur), Ready s c 0 .none ∧ Room c c ∧ (∀ f ∈ myFrames c, f.addr ≠ c.t.core.hdr) ∧
      c.l &&& ~~~c.em = 0) ∧
    (∃ (s : State) (c : Cur) (f : Frame), Ready s c 0 .none ∧ Room c c ∧ (myFrames c).getLast? = some f ∧ f.addr = c.t.core.hdr) ∧
    (∃ (s : State) (c : Cur) (f : Frame), Ready s c 0 .none ∧ Room c c ∧ (myFrames c).getLast? = some f ∧
      f.addr ≠ c.t.core.hdr ∧ ∃ g ∈ myFrames c, g.addr = c.t.core.hdr) ∧
    (∃ (s : State) (c : Cur), Ready s c 0 .none ∧ Room c c ∧ c.l &&& ~~~c.em ≠ 0) := by
  refine ⟨⟨plain, _, plain_ready 0 .none (by decide), plain_room, ?_, by decide +kernel⟩,
    ⟨dress plain (framed [⟨0x10000, [0, 1]⟩]), _, ⟨0x10000, [0, 1]⟩, ready_of _ 0 .none (by decide +kernel), .inl (by decide +kernel),
      by decide +kernel, by decide +kernel⟩,
    ⟨dress plain (framed [⟨0x10000, [0, 1]⟩, ⟨0x20000, [0, 2]⟩]), _, ⟨0x20000, [0, 2]⟩, ready_of _ 0 .none (by decide +kernel),
      .inl (by decide +kernel), by decide +kernel, by decide +kernel, ⟨⟨0x10000, [0, 1]⟩, by decide +kernel, by decide +kernel⟩⟩,
    ⟨dress plain (fun c => c.mapCore (fun k => { k with em := 1 })), _, ready_of _ 0 .none (by decide +kernel),
      .inl (by decide +kernel), by decide +kernel⟩⟩
  intro f hf
  rw [show myFrames (seen plain) = [] by decide +kernel] at hf
  simp at hf

/-- A second strand that waits at the JOIN of its one frame. -/
def joiner : Strand := { startStrand probeLaunch 0 with wait := .joining 1 }

/-- The strand's last lanes have exited; its warp has other strands and frames. -/
def leaving (others : List (Option Strand)) (fs : List Frame) (c : Cur) : Cur :=
  { c with t := { c.t with wait := .exiting },
           warp := { c.warp with strands := c.warp.strands.take 1 ++ others ++ List.replicate (3 - others.length) none, frames := fs } }

/-- JoinAndExit, the end of a strand: of three, and of two whose other one has arrived at their frame's JOIN. -/
theorem witness_StrandEnds :
    (∃ (s : State) (c : Cur), Exiting s c ∧ 1 < c.warp.live ∧
      ∀ k x n, k ≠ c.ref.strand → c.warp.strand? k = some x → x.wait ≠ .joining n) ∧
    (∃ (s : State) (c : Cur) (f : Frame) (k : Nat) (x : Strand), Exiting s c ∧ c.warp.strand? k = some x ∧ c.warp.live = 2 ∧
      c.warp.frames = [f] ∧ c.ref.strand ∈ f.members ∧ f.members.filter (· != c.ref.strand) = [k] ∧ x.wait = .joining 1) := by
  constructor
  · let two := [some (startStrand probeLaunch 0), some (startStrand probeLaunch 0)]
    refine ⟨dress plain (leaving two []), _, ⟨curOf_seen _ (by decide +kernel), by decide +kernel,
      ⟨by decide +kernel, by decide +kernel⟩, by unfold Runs; decide +kernel⟩, by decide +kernel, ?_⟩
    intro k x n hk hx
    have h : (seen (dress plain (leaving two []))).warp.strands.all (fun o => match o with
        | some t => t.wait == .none || t.wait == .exiting
        | none => true) = true := by decide +kernel
    have hm := List.mem_of_getElem? (show (seen (dress plain (leaving two []))).warp.strands[k]? = some (some x) by
      unfold Warp.strand? at hx
      rw [List.getD_eq_getElem?_getD] at hx
      cases hy : (seen (dress plain (leaving two []))).warp.strands[k]? with
      | none => rw [hy] at hx; simp at hx
      | some y => rw [hy] at hx; simpa using hx)
    have := List.all_eq_true.mp h _ hm
    intro hw
    simp [hw] at this
  · exact ⟨dress plain (leaving [some joiner] [⟨0x10000, [0, 1]⟩]), _, ⟨0x10000, [0, 1]⟩, 1, joiner,
      ⟨curOf_seen _ (by decide +kernel), by decide +kernel, ⟨by decide +kernel, by decide +kernel⟩, by unfold Runs; decide +kernel⟩,
      by rfl, by decide +kernel⟩

/-- The strand has no lane; its sibling, of one split, is parked at WFUSE; both take part in a barrier at offset 8. -/
def lastOut (c : Cur) : Cur :=
  let parts := (startWarp probeLaunch 0 0 0 0)
  let rec_ : SplitRec := { lay := parts.lay, depth := 0, tiles := 0, winb := 0 }
  let sib : Warp := { parts with id := 16, width := 16, splits := [rec_],
                                 strands := [some { startStrand probeLaunch 0 with wait := .wfuse 7 0x10008 16384 0 }, none, none, none] }
  let c := leaving [] [] c
  { c with warp := { c.warp with width := 16, splits := [rec_] },
           crew := { c.crew with warps := c.crew.warps ++ [sib],
                                 bars := [{ off := 8, parts := [0, 16], arrived := [16], phase := false }] } }

/-- The sibling of the last witness. -/
def siblingRef : StrandRef := { w := { crew := probeRef.w.crew, warp := 16 }, strand := 0 }

/-- JoinAndExit, the end of a warp: with an open command and a sibling parked at WFUSE, and with no command. -/
theorem witness_WarpExits :
    (∃ (s : State) (c d : Cur), Exiting s c ∧ c.warp.live = 1 ∧ Quiet s c ∧ SoundBars c ∧ c.ref.w.warp ∈ [0, 16] ∧
      (∃ x ∈ s.cmds, x.warp = some c.ref.w ∧ x.batch = none) ∧ s.curOf d.ref = some d ∧
      (d.ref.w.crew = c.ref.w.crew ∧ d.ref.w.warp ≠ c.ref.w.warp ∧ d.ref.strand < 4 ∧ d.t.wait = .wfuse 7 0x10008 16384 0 ∧
        d.warp.splits ≠ []) ∧
      ∀ x ∈ d.crew.warps, x.id % 2 ^ (4 + d.warp.splits.length) = siblingOf d % 2 ^ (4 + d.warp.splits.length) →
        x.exited = true ∨ x.id = c.ref.w.warp) ∧
    (∃ (s : State) (c : Cur), Exiting s c ∧ c.warp.live = 1 ∧ Quiet s c ∧ SoundBars c ∧
      ∀ x ∈ s.cmds, x.warp = some c.ref.w → x.batch ≠ none) := by
  constructor
  · refine ⟨withCmd (dress plain lastOut), seen (withCmd (dress plain lastOut)), seenAt (withCmd (dress plain lastOut)) siblingRef,
      ⟨curOf_seen _ (by decide +kernel), by decide +kernel, ⟨by decide +kernel, by decide +kernel⟩, by unfold Runs; decide +kernel⟩,
      by decide +kernel, quiet_of_calm _ _ (by decide +kernel) (by decide +kernel), by unfold SoundBars; decide +kernel,
      by decide +kernel, ⟨pendingCmd 5, by exact List.mem_singleton.mpr rfl, by decide +kernel⟩,
      curOf_seenAt _ _ (by decide +kernel), by decide +kernel, by decide +kernel⟩
  · exact ⟨dress plain (leaving [] []), _, ⟨curOf_seen _ (by decide +kernel), by decide +kernel,
      ⟨by decide +kernel, by decide +kernel⟩, by unfold Runs; decide +kernel⟩, by decide +kernel,
      quiet_of_calm _ _ (by decide +kernel) (by decide +kernel), by unfold SoundBars; decide +kernel, by decide +kernel⟩

/-- A spill area. -/
def laid (start stop : Nat) (c : Cur) : Cur := { c with warp := { c.warp with lay := { start := start, stop := stop, base := 0 } } }

/-- What CALL asks of its target, its frame and its spill area. -/
def callReady (c : Cur) (f8 : BitVec 5) : Bool :=
  decide (c.warp.vregs.length = c.r ∧ 0 < c.r ∧ c.r ≤ 256 ∧ 8 * f8.toNat ≤ c.r ∧ c.warp.lay.base ≤ c.t.core.winb ∧
    c.warp.lay.stop < 2 ^ 57 ∧ c.warp.lay.start % 4 = 0 ∧ c.warp.lay.stop % 8 = 0 ∧
    16 * ((if 1 < c.warp.live then 4 * nextRecord c + c.ref.strand else nextRecord c) + 1) ≤ c.warp.lay.stop)

/-- CallsAndReturns: a CALL that completes, one whose target is no header, one whose frame is too large, one whose frame would
reach the record, and one that cannot store at its first slot. -/
theorem witness_CallRule :
    (∃ (s : State) (c : Cur) (f8 : BitVec 5) (t u : BitVec 32), Ready s c 0 .none ∧ Fits c ∧ callReady c f8 = true ∧
      0 < f8.toNat ∧ HeaderAt s c (targetOf c t) ∧ NoHeaderAt s c (targetOf c u) ∧
      slotOf c (c.t.core.winb + 8 * f8.toNat) ≤ recordOf c (nextRecord c) ∧
      ReachesAll s c XReq.spill false (slotOf c c.t.core.winb) (slotOf c (c.t.core.winb + 8 * f8.toNat)) ∧
      Reaches s c XReq.spill false (recordOf c (nextRecord c)) 8 ∧
      Reaches s c XReq.spill false (recordOf c (nextRecord c) + 8) 8) ∧
    (∃ (s : State) (c : Cur) (f8 : BitVec 5), Ready s c 0 .none ∧ Fits c ∧ c.warp.vregs.length = c.r ∧ 0 < c.r ∧ c.r ≤ 256 ∧
      c.r < 8 * f8.toNat) ∧
    (∃ (s : State) (c : Cur) (f8 : BitVec 5) (t : BitVec 32), Ready s c 0 .none ∧ Fits c ∧ callReady c f8 = true ∧
      HeaderAt s c (targetOf c t) ∧ recordOf c (nextRecord c) < slotOf c (c.t.core.winb + 8 * f8.toNat)) ∧
    (∃ (s : State) (c : Cur) (f8 : BitVec 5) (t : BitVec 32) (st : Stop), Ready s c 0 .none ∧ Fits c ∧ callReady c f8 = true ∧
      0 < 8 * f8.toNat ∧ HeaderAt s c (targetOf c t) ∧ slotOf c (c.t.core.winb + 8 * f8.toNat) ≤ recordOf c (nextRecord c) ∧
      ReachesAll s c XReq.spill false (slotOf c c.t.core.winb) (slotOf c (c.t.core.winb + 0)) ∧
      s.gAccess c XReq.spill false (slotOf c (c.t.core.winb + 0)) 4 4 = .error st) ∧
    (∃ (s : State) (c : Cur) (f8 : BitVec 5), Ready s c 0 .none ∧ 8 * f8.toNat ≤ c.r ∧ (c.sr 3).toNat % 8 ≠ 0 ∧
      (c.sr 4).toNat % 8 = 0 ∧ 2 ^ 57 ≤ (c.sr 4).toNat ∧ (c.sr 5).toNat % 8 = 0 ∧ field (c.sr 5).toNat 63 57 = 0) := by
  refine ⟨⟨plain, _, 1, 0x1FFE, 0x7FFFF, plain_ready 0 .none (by decide), plain_fits, by decide +kernel, by decide,
      headerAt_of _ _ (by decide +kernel), noHeaderAt_of _ _ (by decide +kernel), by decide +kernel, ?_,
      reaches_of _ _ _ _ _ (by decide +kernel), reaches_of _ _ _ _ _ (by decide +kernel)⟩,
    ⟨dress plain (fun c => { c with crew := { c.crew with launch := { c.crew.launch with regs8 := 1 } },
                                    warp := { c.warp with vregs := c.warp.vregs.take 8 } }), _, 2,
      ready_of _ 0 .none (by decide +kernel), .inl (by decide +kernel), by decide +kernel⟩,
    ⟨dress plain (laid 0x100000 0x100010), _, 1, 0x1FFE, ready_of _ 0 .none (by decide +kernel), .inl (by decide +kernel),
      by decide +kernel, headerAt_of _ _ (by decide +kernel), by decide +kernel⟩, ?_,
    ⟨dress plain (scalars [(3, 0x20004), (4, 2 ^ 57), (5, 0x20000)]), _, 1, ready_of _ 0 .none (by decide +kernel),
      by decide +kernel⟩⟩
  · have h0 : slotOf (seen plain) (seen plain).t.core.winb = 0x100000 := by decide +kernel
    have h1 : slotOf (seen plain) ((seen plain).t.core.winb + 8 * (1 : BitVec 5).toNat) = 0x100000 + 4 * 272 := by decide +kernel
    unfold ReachesAll
    rw [h0, h1]
    exact fun va h2 h3 h4 => low_reaches (by decide +kernel) (by omega) h4 XReq.spill false
  · obtain ⟨st, hst⟩ := stops_of (dress plain (laid 0x40000000 0x40100000)) XReq.spill false 0x40000000 4 (by decide +kernel)
    have h0 : slotOf (seen (dress plain (laid 0x40000000 0x40100000)))
      ((seen (dress plain (laid 0x40000000 0x40100000))).t.core.winb + 0) = 0x40000000 := by decide +kernel
    refine ⟨dress plain (laid 0x40000000 0x40100000), _, 1, 0x1FFE, st, ready_of _ 0 .none (by decide +kernel),
      .inl (by decide +kernel), by decide +kernel, by decide, headerAt_of _ _ (by decide +kernel), by decide +kernel, ?_,
      by rw [h0]; exact hst⟩
    intro va h2 h3
    exact absurd h3 (Nat.not_lt.mpr h2)

/-- A call record whose frame of eight registers returns. -/
def called (c : Cur) : Cur := c.mapCore (fun k => { k with winb := 8, calls := [⟨0x20000, 8⟩] })

/-- The first spilled register's format word has a stray bit. -/
def spoiled : State := let s := dress plain called; { s with mem := cellsPutAll s.mem [(0x100001, 1)] }

/-- What RET asks of its record and its spill area. -/
def returnReady (c : Cur) (k : CallRec) : Bool :=
  decide (c.warp.vregs.length = c.r ∧ 0 < c.r ∧ c.r ≤ 256 ∧ c.holdsCall = true ∧ c.t.core.calls.getLast? = some k ∧ k.f ≤ c.r ∧
    c.warp.lay.base + k.f ≤ c.t.core.winb ∧ slotOf c c.t.core.winb < 2 ^ 57 ∧ c.warp.lay.start % 4 = 0)

/-- CallsAndReturns, RET: with a call record and without one, with a format word that is not accepted, and with a slot that
cannot be read. -/
theorem witness_ReturnRule :
    (∃ (s : State) (c : Cur) (k : CallRec), Ready s c 0 .none ∧ Fits c ∧ returnReady c k = true ∧ 0 < k.f ∧
      ReachesAll s c XReq.refill true (slotOf c (c.t.core.winb - k.f + 0)) (slotOf c (c.t.core.winb - k.f + k.f)) ∧
      (∀ i, i < k.f → formatOk (numberAtVa s c (slotOf c (c.t.core.winb - k.f + i)) 4))) ∧
    (∃ (s : State) (c : Cur), Ready s c 0 .none ∧ Fits c ∧ c.warp.vregs.length = c.r ∧ 0 < c.r ∧ c.r ≤ 256 ∧
      c.holdsCall = false) ∧
    (∃ (s : State) (c : Cur) (k : CallRec), Ready s c 0 .none ∧ Fits c ∧ returnReady c k = true ∧ 0 < k.f ∧
      ReachesAll s c XReq.refill true (slotOf c (c.t.core.winb - k.f + 0)) (slotOf c (c.t.core.winb - k.f + 1)) ∧
      ¬ formatOk (numberAtVa s c (slotOf c (c.t.core.winb - k.f + 0)) 4)) ∧
    (∃ (s : State) (c : Cur) (k : CallRec) (st : Stop), Ready s c 0 .none ∧ Fits c ∧ returnReady c k = true ∧ 0 < k.f ∧
      ReachesAll s c XReq.refill true (slotOf c (c.t.core.winb - k.f + 0)) (slotOf c (c.t.core.winb - k.f + 0)) ∧
      s.gAccess c XReq.refill true (slotOf c (c.t.core.winb - k.f + 0)) 4 4 = .error st) := by
  refine ⟨⟨dress plain called, seen (dress plain called), ⟨0x20000, 8⟩, ready_of _ 0 .none (by decide +kernel),
      .inl (by decide +kernel), by decide +kernel, by decide, ?_, by unfold formatOk; decide +kernel⟩,
    ⟨plain, _, plain_ready 0 .none (by decide), plain_fits, by decide +kernel⟩,
    ⟨spoiled, seen spoiled, ⟨0x20000, 8⟩, ready_of _ 0 .none (by decide +kernel),
      .inl (by decide +kernel), by decide +kernel, by decide, ?_, by unfold formatOk; decide +kernel⟩, ?_⟩
  · have h0 : slotOf (seen (dress plain called)) ((seen (dress plain called)).t.core.winb - 8 + 0) = 0x100000 := by decide +kernel
    have h1 : slotOf (seen (dress plain called)) ((seen (dress plain called)).t.core.winb - 8 + 8) = 0x100000 + 4 * 272 := by
      decide +kernel
    show ∀ va, slotOf _ (_ - 8 + 0) ≤ va → va < slotOf _ (_ - 8 + 8) → _
    rw [h0, h1]
    exact fun va h2 h3 h4 => low_reaches (by decide +kernel) (by omega) h4 XReq.refill true
  · have h0 : slotOf (seen spoiled) ((seen spoiled).t.core.winb - 8 + 0) = 0x100000 := by decide +kernel
    have h1 : slotOf (seen spoiled) ((seen spoiled).t.core.winb - 8 + 1) = 0x100000 + 136 := by decide +kernel
    show ∀ va, slotOf _ (_ - 8 + 0) ≤ va → va < slotOf _ (_ - 8 + 1) → _
    rw [h0, h1]
    exact fun va h2 h3 h4 => low_reaches (by decide +kernel) (by omega) h4 XReq.refill true
  · let far := dress plain (fun c => laid 0x40000000 0x40100000 (called c))
    obtain ⟨st, hst⟩ := stops_of far XReq.refill true 0x40000000 4 (by decide +kernel)
    have h0 : slotOf (seen far) ((seen far).t.core.winb - 8 + 0) = 0x40000000 := by decide +kernel
    refine ⟨far, seen far, ⟨0x20000, 8⟩, st, ready_of _ 0 .none (by decide +kernel), .inl (by decide +kernel),
      by decide +kernel, by decide, fun va h2 h3 => absurd h3 (Nat.not_lt.mpr h2), ?_⟩
    show _ = _
    rw [h0]
    exact hst

/-- A flag of the strand is pending. -/
def flagged (old : List OldVal) (c : Cur) : Cur := c.mapT (fun t => { t with pends := [{ flag := 0, old := old }] })

/-- The conditions of `Issuable`, as one test. -/
def issuableFor (s : State) (n : Nat) (cf : Cf) : Bool :=
  let c := seen s
  s.focus == some probeRef && (s.curOf probeRef).isSome && s.mayIssue c false && !c.t.poisoned &&
    c.t.residue.isNone && c.t.failed.isNone && (n != 0 || c.t.core.isLast) &&
    (cf == .none || (hdrFlag c.t.core.hword cf).isSome) && c.t.core.beginsPair == (n == 2)

theorem issuable_of (s : State) (n : Nat) (cf : Cf) (h : issuableFor s n cf = true) : Issuable s (seen s) n cf := by
  simp only [issuableFor, Bool.and_eq_true, beq_iff_eq, Bool.or_eq_true, bne_iff_ne, Bool.not_eq_true', Option.isNone_iff_eq_none] at h
  obtain ⟨⟨⟨⟨⟨⟨⟨⟨h1, h2⟩, h3⟩, h5⟩, h6⟩, h7⟩, h8⟩, h9⟩, h10⟩ := h
  exact ⟨by simp only [State.cur?, h1]; exact cur_of_seen s h2, h3, h5, h6, h7,
    fun hn => h8.resolve_left (fun h => h hn), fun hc => h9.resolve_left hc, h10⟩

/-- WidthInstructions: a warp of 32 lanes and one of 16; WSPLIT's statuses 0 and 6, WFUSE's status 1 and its arrival. -/
theorem witness_WidthInstructions :
    (∃ (s : State) (c : Cur), Issuable s c 1 .none ∧ Room c c ∧ c.width ≠ 16 ∧
      FirstCase [(1 < c.warp.live, 3), (CopyPending s c, 5), (c.t.pends ≠ [], 6)] 0 0 ∧
      FirstCase [(c.warp.splits = [], some 1), (SiblingExited c, some 7), (1 < c.warp.live, some 3), (CopyPending s c, some 5),
        (c.t.pends ≠ [], some 6)] none (some 1)) ∧
    (∃ (s : State) (c : Cur), Issuable s c 1 .none ∧ Room c c ∧ c.width ≠ 16 ∧
      FirstCase [(1 < c.warp.live, 3), (CopyPending s c, 5), (c.t.pends ≠ [], 6)] 0 6) ∧
    (∃ (s : State) (c : Cur), Issuable s c 1 .none ∧ Room c c ∧ c.width = 16 ∧
      FirstCase [(c.warp.splits = [], some 1), (SiblingExited c, some 7), (1 < c.warp.live, some 3), (CopyPending s c, some 5),
        (c.t.pends ≠ [], some 6)] none none) := by
  have none_pending : ∀ s : State, s.cmds = [] → ∀ c, ¬ CopyPending s c := by
    intro s h c ⟨x, hx, _⟩
    rw [h] at hx
    simp at hx
  refine ⟨⟨plain, _, issuable_of _ 1 .none (by decide +kernel), plain_room, by decide +kernel, ?_, .inl (by decide +kernel)⟩,
    ⟨dress plain (flagged []), _, issuable_of _ 1 .none (by decide +kernel), .inl (by decide +kernel), by decide +kernel, ?_⟩,
    ⟨dress plain (fun c => { lastOut c with t := c.t }), _, issuable_of _ 1 .none (by decide +kernel), .inl (by decide +kernel),
      by decide +kernel, ?_⟩⟩
  · exact .inr ⟨by decide +kernel, .inr ⟨none_pending _ (by decide +kernel) _, .inr ⟨by decide +kernel, rfl⟩⟩⟩
  · exact .inr ⟨by decide +kernel, .inr ⟨none_pending _ (by decide +kernel) _, .inl ⟨by decide +kernel, rfl⟩⟩⟩
  · exact .inr ⟨by decide +kernel, .inr ⟨by unfold SiblingExited; decide +kernel, .inr ⟨by decide +kernel,
      .inr ⟨none_pending _ (by decide +kernel) _, .inr ⟨by decide +kernel, rfl⟩⟩⟩⟩⟩

end

end Sys2Proof.Tests
end

