-- ==== Sys2Proof/Tests/WitnessC.lean ====
section
/-!
SUPPORT. Witnesses of the statements about loads and stores, far atomics, waits, queues, barriers and engine instructions.
-/

set_option Elab.async false

namespace Sys2Proof.Tests

open Sys2Proof Sys2Proof.Machine Sys2Proof.Rules

noncomputable section

/-- s3 points at a page, s4 behind the mapped memory, s5 at an odd address. -/
def based : State := dress plain (scalars [(3, 0x30000), (4, 0x7FFFFFF000), (5, 0x30001)])

theorem based_ready (n : Nat) (cf : Cf) (hn : n < 2) : Ready based (seen based) n cf := by
  apply ready_of
  interval_cases n <;> cases cf <;> decide +kernel

theorem based_fits : Fits (seen based) := .inl (by decide +kernel)
theorem based_alone : Alone (seen based) := alone_of (by decide +kernel)
theorem based_quiet : Quiet based (seen based) := quiet_of _ (by decide +kernel) (by decide +kernel)
theorem based_reg (i : Fin 256) : (seen based).regOk (.v i) = true := by
  have h : ∀ i : Fin 256, (seen based).regOk (.v i) = true := by decide +kernel
  exact h i

/-- An access of a lane that reaches a WB page. -/
def laneOk (s : State) (o : MemOps) (q : XReq) (rd : Bool) (l : Nat) : Bool :=
  match laneAcc s (seen s) o q rd l with
  | .ok lf => lf.pol == 0
  | .error _ => false

theorem laneOk_of {s : State} {o : MemOps} {q : XReq} {rd : Bool} {l : Nat} (h : laneOk s o q rd l = true) :
    ∃ lf, laneAcc s (seen s) o q rd l = .ok lf ∧ lf.pol = 0 := by
  unfold laneOk at h
  split at h
  · next lf hlf => exact ⟨lf, hlf, by simpa using h⟩
  · simp at h

theorem run1 (i : Fin 256) : RunOk (seen based) (.v i) 1 := by
  intro k hk
  obtain rfl : k = 0 := by omega
  exact ⟨.v i, by simp [vplus], based_reg i⟩

theorem run4 : RunOk (seen based) (vr 20) 4 := by
  intro k hk
  interval_cases k
  · exact ⟨vr 20, by decide, based_reg 20⟩
  · exact ⟨vr 21, by decide, based_reg 21⟩
  · exact ⟨vr 22, by decide, based_reg 22⟩
  · exact ⟨vr 23, by decide, based_reg 23⟩

theorem vaddr_i32 : VaddrOk (seen based) (some (vr 1)) := by
  intro r hr
  obtain rfl : vr 1 = r := by simpa using hr
  exact ⟨based_reg 1, by decide +kernel⟩

theorem vaddr_none : VaddrOk (seen based) none := fun _ h => by simp at h

/-- Bytes at s3 plus the lane's number: LD.U8 and LDCW.U8, ST.B32 of four lanes and wide accesses at one address. -/
def byteOps : MemOps := ⟨.u8, vr 20, some (vr 1), 3, 0, .u32, g0, .a, 0⟩
def wideOps : MemOps := ⟨.b128, vr 20, none, 3, 0xFFF, .raw, g0, .none, 0⟩

/-- LaneLoads: each lane at its own byte, and 16 bytes a lane below the base. -/
theorem witness_LaneLoads : ∃ (s : State) (c : Cur) (o x y : MemOps), o.wf = true ∧ x.wf = true ∧ y.wf = true ∧ Ready s c 1 o.cf ∧
    Ready s c 1 x.cf ∧ Ready s c 1 y.cf ∧ Fits c ∧ RunOk c o.d o.w.regs ∧ RunOk c x.d x.w.regs ∧ RunOk c y.d y.w.regs ∧
      VaddrOk c o.va ∧ VaddrOk c x.va ∧ VaddrOk c y.va ∧
      (∀ l, inLanes c (c.enabledH o.g) l → match laneAcc s c o XReq.load true l with
        | .ok lf => lf.pol = 0
        | .error _ => hasLane c.em l = false) ∧
      (∀ l, inLanes c (c.enabledH x.g) l → match laneAcc s c x XReq.load true l with
        | .ok lf => lf.pol = 0
        | .error _ => hasLane c.em l = false) ∧
      (∀ l, inLanes c (c.enabledH y.g) l → hasLane c.em l = true → (c.cAccess true (laneEa c y l) y.w.bytes).isOk = true) := by
  refine ⟨based, seen based, byteOps, wideOps, { byteOps with base := 0 }, by decide, by decide, by decide, based_ready 1 _ (by decide),
    based_ready 1 _ (by decide), based_ready 1 _ (by decide), based_fits, run1 _, run4, run1 _, vaddr_i32, vaddr_none, vaddr_i32,
    ?_, ?_, ?_⟩
  · intro l hl
    obtain ⟨lf, h1, h2⟩ := laneOk_of (lanes_all (p := laneOk based byteOps XReq.load true) (by decide +kernel) l hl)
    rw [h1]; exact h2
  · intro l hl
    obtain ⟨lf, h1, h2⟩ := laneOk_of (lanes_all (p := laneOk based wideOps XReq.load true) (by decide +kernel) l hl)
    rw [h1]; exact h2
  · intro l hl _
    exact lanes_all (p := fun l => ((seen based).cAccess true (laneEa (seen based) { byteOps with base := 0 } l) 1).isOk)
      (by decide +kernel) l hl

/-- LaneStores: each lane its own byte, and all lanes the same 16 bytes. -/
theorem witness_LaneStores : ∃ (s : State) (c : Cur) (o x y : MemOps), o.wf = true ∧ x.wf = true ∧ y.wf = true ∧ Ready s c 1 o.cf ∧
    Ready s c 1 x.cf ∧ Ready s c 1 y.cf ∧ Fits c ∧ RunOk c o.d o.w.regs ∧ RunOk c x.d x.w.regs ∧ RunOk c y.d y.w.regs ∧
      VaddrOk c o.va ∧ VaddrOk c x.va ∧ VaddrOk c y.va ∧ DataOk c o ∧ DataOk c x ∧ DataOk c y ∧
      (∀ l, inLanes c (c.enabled o.g) l → ∃ lf, laneAcc s c o XReq.store false l = .ok lf ∧ lf.pol = 0) ∧
      (∀ l, inLanes c (c.enabled x.g) l → ∃ lf, laneAcc s c x XReq.store false l = .ok lf ∧ lf.pol = 0) ∧
      (∀ l, inLanes c (c.enabled y.g) l → (c.cAccess false (laneEa c y l) y.w.bytes).isOk = true ∧
        c.barTouched (laneEa c y l) y.w.bytes = none) := by
  refine ⟨based, seen based, { byteOps with d := vr 2 }, wideOps, { byteOps with d := vr 2, base := 0 }, by decide, by decide, by decide,
    based_ready 1 _ (by decide), based_ready 1 _ (by decide), based_ready 1 _ (by decide), based_fits, run1 _, run4, run1 _, vaddr_i32,
    vaddr_none, vaddr_i32, ?_, ?_, ?_, ?_, ?_, ?_⟩
  · unfold DataOk; decide +kernel
  · unfold DataOk; decide +kernel
  · unfold DataOk; decide +kernel
  · exact fun l hl => laneOk_of (lanes_all (p := laneOk based { byteOps with d := vr 2 } XReq.store false) (by decide +kernel) l hl)
  · exact fun l hl => laneOk_of (lanes_all (p := laneOk based wideOps XReq.store false) (by decide +kernel) l hl)
  · intro l hl
    have h := lanes_all (p := fun l => ((seen based).cAccess false (laneEa (seen based) { byteOps with d := vr 2, base := 0 } l) 1).isOk &&
      decide ((seen based).barTouched (laneEa (seen based) { byteOps with d := vr 2, base := 0 } l) 1 = none)) (by decide +kernel) l hl
    simp only [Bool.and_eq_true, decide_eq_true_eq] at h
    exact h

/-- ScalarMemory: eight bytes at s3, a signed byte, and s0 as the register. -/
theorem witness_ScalarMemory : ∃ (s : State) (c : Cur) (o x : SMemOps), o.wf = true ∧ x.wf = true ∧ Ready s c 1 o.cf ∧
    Ready s c 1 x.cf ∧ Fits c ∧
      (∃ lf, s.gAccess c XReq.load true (eaOf c o.base none o.off o.w.bytes 0) o.w.bytes o.w.bytes = .ok lf ∧ lf.pol = 0) ∧
      (∃ lf, s.gAccess c XReq.store false (eaOf c o.base none o.off o.w.bytes 0) o.w.bytes o.w.bytes = .ok lf ∧ lf.pol = 0) ∧
      (∃ lf, s.gAccess c XReq.load true (eaOf c x.base none x.off x.w.bytes 0) x.w.bytes x.w.bytes = .ok lf ∧ lf.pol = 0) :=
  ⟨based, seen based, ⟨.b64, 7, 3, 0xFFF, .b, 0⟩, ⟨.i8, 0, 3, 0x7FF, .none, 0⟩, by decide, by decide, based_ready 1 _ (by decide),
    based_ready 1 _ (by decide), based_fits, reaches_of based XReq.load true _ _ (by decide +kernel),
    reaches_of based XReq.store false _ _ (by decide +kernel), reaches_of based XReq.load true _ _ (by decide +kernel)⟩

/-- A span's first word in a WB page. -/
def spanOk (s : State) (o : SpanOps) (q : XReq) (l : Nat) : Bool :=
  match s.translate (seen s).ctx (spanEa (seen s) o l) q with
  | .ok lf => lf.pol == 0
  | .error _ => false

/-- ScalarMemory, PREF and DISCARD: spans of the greatest and the least length. -/
theorem witness_PrefetchAndDiscard : ∃ (s : State) (c : Cur) (o : SpanOps), o.g.wf = true ∧ Ready s c 1 .none ∧ Fits c ∧
    VaddrOk c o.va ∧
      (∀ l lf, inLanes c (c.enabled o.g) l → s.translate c.ctx (spanEa c o l) XReq.load = .ok lf → lf.pol = 0) ∧
      (∀ l, inLanes c (c.enabled o.g) l → spanEa c o l % 4 = 0 ∧ spanEa c o l < 2 ^ 57 ∧
        spanEa c o l % 128 / 4 + (o.n1.val + 1) ≤ 32 ∧ ∃ lf, s.translate c.ctx (spanEa c o l) XReq.store = .ok lf ∧ lf.pol = 0) := by
  refine ⟨based, seen based, ⟨31, none, 3, 0, g0, 0⟩, rfl, based_ready 1 _ (by decide), based_fits, vaddr_none, ?_, ?_⟩
  · intro l lf hl ht
    have h := lanes_all (p := spanOk based ⟨31, none, 3, 0, g0, 0⟩ XReq.load) (by decide +kernel) l hl
    unfold spanOk at h
    rw [ht] at h
    simpa using h
  · intro l hl
    have h := lanes_all (p := fun l => decide (spanEa (seen based) ⟨31, none, 3, 0, g0, 0⟩ l = 0x30000) &&
      spanOk based ⟨31, none, 3, 0, g0, 0⟩ XReq.store l) (by decide +kernel) l hl
    simp only [Bool.and_eq_true, decide_eq_true_eq] at h
    obtain ⟨h1, h2⟩ := h
    unfold spanOk at h2
    rw [h1] at h2 ⊢
    refine ⟨by decide, by decide, by decide, ?_⟩
    split at h2
    · next lf hlf => exact ⟨lf, hlf, by simpa using h2⟩
    · simp at h2

/-- AccessTraps: a misaligned load, with a lane before it that meets nothing, and a store to a page that is not present. -/
theorem witness_AccessTraps : ∃ (s : State) (c : Cur) (o x : MemOps) (pf : PageFault), o.wf = true ∧ x.wf = true ∧
    Ready s c 1 o.cf ∧ Ready s c 1 x.cf ∧ RunOk c o.d o.w.regs ∧ RunOk c x.d x.w.regs ∧ VaddrOk c o.va ∧ VaddrOk c x.va ∧
      DataOk c x ∧ c.width ≤ 64 ∧ inLanes c (c.guarded o.g c.em) 1 ∧ inLanes c (c.enabled x.g) 0 ∧
      laneAcc s c o XReq.load true 1 = .error (.trap .misalign 0x30001 4 none) ∧
      (∀ k, k < 1 → inLanes c (c.guarded o.g c.em) k → (laneAcc s c o XReq.load true k).isOk = true) ∧
      laneAcc s c x XReq.store false 0 = .error (.park pf) := by
  refine ⟨based, seen based, ⟨.b32, vr 20, some (vr 1), 3, 0, .u32, g0, .none, 0⟩, ⟨.b32, vr 2, none, 4, 0, .u32, g0, .none, 0⟩, _,
    by decide, by decide, based_ready 1 _ (by decide), based_ready 1 _ (by decide), run1 _, run1 _, vaddr_i32, vaddr_none, ?_,
    by decide +kernel, by unfold inLanes; decide +kernel, by unfold inLanes; decide +kernel, by rfl, ?_, by rfl⟩
  · unfold DataOk; decide +kernel
  · intro k hk _
    obtain rfl : k = 0 := by omega
    decide +kernel

/-- FarAtomics, at issue: outside a chunk and in one; every operation is well formed in its 32-bit form. -/
theorem witness_FarAtomics :
    (∃ (s : State) (c : Cur) (o : AmoOps), (∀ p ∈ amoTable, (p.2.1 o).wf = true) ∧ Ready s c 1 .none ∧ Alone c ∧ Quiet s c ∧
      ∃ l, s.gAccess c XReq.atomic true (c.sr o.sa).toNat 4 4 = .ok l ∧ o.w64 = false) ∧
    (∃ (s : State) (c : Cur) (o : AmoOps), Ready s c 1 .none ∧ c.t.chunk.st = .opened ∧
      ∃ l, s.gAccess c XReq.atomic true (c.sr o.sa).toNat 8 8 = .ok l ∧ o.w64 = true) := by
  refine ⟨⟨based, seen based, ⟨7, 3, 8, false⟩, by decide, based_ready 1 _ (by decide), based_alone, based_quiet, _, by rfl, rfl⟩,
    ⟨dress based (fun c => c.mapChunk (fun h => { h with st := .opened, count := 1, chlim := 256, snap := some c.t.core })), _,
      ⟨7, 3, 8, true⟩, ready_of _ 1 .none (by decide +kernel), by decide +kernel, _, by rfl, rfl⟩⟩

/-- FarAtomics, the event behind a commit. -/
theorem witness_DeferredEvent : ∃ (s : State) (c : Cur) (o : AmoOps), s.curOf c.ref = some c ∧ c.t.wait = .sing (.amo .add o) ∧
    Alone c ∧ c.t.pends = [] ∧ (s.ctx c.ctx).st = .active ∧ c.crew.run = .placed ∧ Quiet s c ∧ (Instr.amoAdd o).wf = true ∧
      ∃ l, s.gAccess c XReq.atomic true (c.sr o.sa).toNat 4 4 = .ok l :=
  ⟨dress based (fun c => c.mapT (fun t => { t with wait := .sing (.amo .add ⟨7, 3, 8, false⟩) })), _, ⟨7, 3, 8, false⟩,
    curOf_seen _ (by decide +kernel), by decide +kernel, alone_of (by decide +kernel), by decide +kernel,
    by decide +kernel, by decide +kernel, quiet_of _ (by decide +kernel) (by decide +kernel), by decide, _, by rfl⟩

/-- LaneAtomics, behind the first lane: lane 1 at its word waits with lane 0's old value. -/
theorem witness_laneAtomicsNext : ∀ p ∈ amoTable, ∃ (s : State) (c : Cur) (o : AmovOps) (x : AmovLane) (olds : List (Nat × Nat)),
    (p.2.2.1 o).wf = true ∧ s.curOf c.ref = some c ∧ c.t.wait = .amov p.1 o [x] olds ∧ Alone c ∧ c.t.pends = [] ∧
      (s.ctx c.ctx).st = .active ∧ c.crew.run = .placed ∧ Quiet s c ∧ RunOk c o.d (o.run (p.1 = .cas)) ∧
      x.pa % amovBytes o = 0 ∧ x.x < 2 ^ (8 * amovBytes o) ∧ x.y < 2 ^ (8 * amovBytes o) := by
  let lane1 : AmovLane := ⟨1, 0x30004, 0x30004, 0, 2 ^ 32 - 1, 0⟩
  let st : AmoFn → AmovOps → State := fun f o => dress based (fun c => c.mapT (fun t => { t with wait := .amov f o [lane1] [(0, 9)] }))
  let fits : AmoFn × (AmovOps → Instr) × AmovOps → Bool := fun q =>
    let s := st q.1 q.2.2
    let c := seen s
    (q.2.1 q.2.2).wf && (s.curOf probeRef).isSome && c.t.wait == .amov q.1 q.2.2 [lane1] [(0, 9)] && calm c && c.t.pends.isEmpty &&
      (s.ctx c.ctx).st == .active && c.crew.run == .placed && calmAll s && s.memWf && c.regOk (vr 20) && c.regOk (vr 21)
  intro p hp
  let o : AmovOps := ⟨vr 20, none, 3, 0, if p.1 = .fadd then .f32 else .u32, g0, .none⟩
  have h : (amoTable.map (fun p => (p.1, p.2.2.1, (⟨vr 20, none, 3, 0, if p.1 = .fadd then .f32 else .u32, g0, .none⟩ : AmovOps)))).all fits = true := by
    decide +kernel
  have h := List.all_eq_true.1 h _ (List.mem_map_of_mem hp)
  simp only [fits, Bool.and_eq_true, beq_iff_eq, List.isEmpty_iff] at h
  obtain ⟨⟨⟨⟨⟨⟨⟨⟨⟨⟨h1, h2⟩, h3⟩, h4⟩, h5⟩, h6⟩, h7⟩, h8⟩, h9⟩, h10⟩, h11⟩ := h
  have hn : amovBytes o = 4 := by simp only [amovBytes, o]; split <;> simp_all
  refine ⟨st p.1 o, seen (st p.1 o), o, lane1, [(0, 9)], h1, curOf_seen _ h2, h3, alone_of h4, h5, h6, h7, quiet_of_calm _ _ h8 h9,
    ?_, by rw [hn]; decide, by rw [hn]; decide, by rw [hn]; decide⟩
  intro k hk
  have hk : k < 2 := by
    have : o.run (p.1 = .cas) ≤ 2 := by
      simp only [o]
      split <;> by_cases hc : p.1 = .cas <;> simp [hc] <;> decide
    omega
  interval_cases k
  · exact ⟨vr 20, show vplus (vr 20) 0 = _ by decide, h10⟩
  · exact ⟨vr 21, show vplus (vr 20) 1 = _ by decide, h11⟩

/-- LaneAtomics: each lane its own word, none of them discarded, in every operation on integers, and CAS of pairs. -/
theorem witness_LaneAtomics : ∃ (s : State) (c : Cur) (o x : AmovOps), (Instr.amovAdd o).wf = true ∧ (Instr.amovCas x).wf = true ∧
    s.dead = [] ∧ Ready s c 1 o.cf ∧ Ready s c 1 x.cf ∧ Alone c ∧ Quiet s c ∧ RunOk c o.d (o.run false) ∧ RunOk c x.d (x.run true) ∧
      VaddrOk c o.va ∧ VaddrOk c x.va ∧ (∀ r ∈ amovRegs o false, amovTagOk o (c.vr r).tag) ∧
      (∀ r ∈ amovRegs x true, amovTagOk x (c.vr r).tag) ∧
      (∀ l, inLanes c (c.enabled o.g) l → (amovAcc s c o l).isOk = true) ∧
      (∀ l, inLanes c (c.enabled x.g) l → (amovAcc s c x l).isOk = true) := by
  let f : Cur → Cur := fun c => { c with warp := { c.warp with vregs := (List.range 256).map (fun i =>
    { tag := if 40 ≤ i ∧ i < 44 then .w64 else plainTag i, lanes := (List.range 32).map (fun l => BitVec.ofNat 32 (4 * l)) }) } }
  have hr : ∀ i : Fin 256, (seen (dress based f)).regOk (.v i) = true := by decide +kernel
  refine ⟨dress based f, _, ⟨vr 20, some (vr 1), 3, 0, .u32, g0, .a⟩, ⟨vr 40, none, 3, 0, .w64, g0, .none⟩, by decide, by decide,
    by decide +kernel, ready_of _ 1 _ (by decide +kernel), ready_of _ 1 _ (by decide +kernel), alone_of (by decide +kernel),
    quiet_of _ (by decide +kernel) (by decide +kernel), ?_, ?_, ?_, ?_, ?_, ?_, ?_, ?_⟩
  · intro k hk
    obtain rfl : k = 0 := by change k < 1 at hk; omega
    exact ⟨vr 20, by decide, hr 20⟩
  · intro k hk
    change k < 4 at hk
    interval_cases k
    · exact ⟨vr 40, by decide, hr 40⟩
    · exact ⟨vr 41, by decide, hr 41⟩
    · exact ⟨vr 42, by decide, hr 42⟩
    · exact ⟨vr 43, by decide, hr 43⟩
  · intro r h
    obtain rfl : vr 1 = r := by simpa using h
    exact ⟨hr 1, by decide +kernel⟩
  · exact fun _ h => by simp at h
  · intro r h
    rw [show amovRegs ⟨vr 20, some (vr 1), 3, 0, .u32, g0, .a⟩ false = [vr 20] by decide] at h
    obtain rfl := List.mem_singleton.1 h
    rw [show ((seen (dress based f)).vr (vr 20)).tag = .raw by decide +kernel]
    simp [amovTagOk]
  · intro r h
    rw [show amovRegs ⟨vr 40, none, 3, 0, .w64, g0, .none⟩ true = [vr 40, vr 41, vr 42, vr 43] by decide] at h
    have : ((seen (dress based f)).vr r).tag = .w64 := by
      simp only [List.mem_cons, List.not_mem_nil, or_false] at h
      rcases h with rfl | rfl | rfl | rfl <;> decide +kernel
    rw [this]; simp [amovTagOk]
  · exact fun l hl => lanes_all (p := fun l => (amovAcc (dress based f) (seen (dress based f)) ⟨vr 20, some (vr 1), 3, 0, .u32, g0, .a⟩ l).isOk)
      (by decide +kernel) l hl
  · exact fun l hl => lanes_all (p := fun l => (amovAcc (dress based f) (seen (dress based f)) ⟨vr 40, none, 3, 0, .w64, g0, .none⟩ l).isOk)
      (by decide +kernel) l hl

end

end Sys2Proof.Tests
end

