-- ==== Sys2Proof/Tests/WitnessD.lean ====
section
/-!
SUPPORT. Witnesses of the statements about waits, queues, barriers, engine instructions, matrix instructions and tiles.
-/

set_option Elab.async false

namespace Sys2Proof.Tests

open Sys2Proof Sys2Proof.Machine Sys2Proof.Rules

noncomputable section

/-- The second GiB is an SY page whose first frame is the overflow area and holds the word 5; s3 points there. -/
def syState : State :=
  { (based.modCtx 0 (fun c => { c with ovf := 0x40000000, ovfn := 1 })) with
    mem := cellsPut (cellsPut based.mem 0x3008 (bytesOf 8 0x4000009F)) 0x40000000 (bytesOf 8 5), frat := [(0x40000, 8)] }

def syReady (v : Nat) : State := dress syState (scalars [(3, 0x40000000), (8, v)])

/-- Waits: SVWAIT whose word satisfies its condition, and one whose word does not. -/
theorem witness_SyncWait :
    (∃ (s : State) (c : Cur) (o : AmoOps) (l : Leaf), Ready s c 1 .none ∧ Alone c ∧ SvOk s c o l ∧
      (c.sr o.sb).toNat % 2 ^ 32 ≤ s.rdNat l.pa 4 ∧ s.rdNat l.pa 4 = (c.sr o.sb).toNat % 2 ^ 32 ∧ o.w64 = false) ∧
    (∃ (s : State) (c : Cur) (o : AmoOps) (l : Leaf), Ready s c 1 .none ∧ Alone c ∧ SvOk s c o l ∧
      ¬ (c.sr o.sb).toNat % 2 ^ 64 ≤ s.rdNat l.pa 8 ∧ ¬ s.rdNat l.pa 8 = (c.sr o.sb).toNat % 2 ^ 64 ∧ o.w64 = true) := by
  refine ⟨⟨syReady 5, _, ⟨7, 3, 8, false⟩, ⟨0x40000000, 2, 0x4000009F, 3⟩, ready_of _ 1 .none (by decide +kernel),
      alone_of (by decide +kernel), ⟨by decide +kernel, by decide +kernel, by rfl, rfl, by decide +kernel⟩,
      by decide +kernel, by decide +kernel, rfl⟩,
    ⟨syReady 6, _, ⟨7, 3, 8, true⟩, ⟨0x40000000, 2, 0x4000009F, 3⟩, ready_of _ 1 .none (by decide +kernel),
      alone_of (by decide +kernel), ⟨by decide +kernel, by decide +kernel, by rfl, rfl, by decide +kernel⟩,
      by decide +kernel, by decide +kernel, rfl⟩⟩

/-- Waits, XFENCE: with nothing pending, and with an access of class Z pending, for its own class and for another; WCWAIT in a
window whose counter has reached, has not reached, and in a frozen one. -/
theorem witness_FenceAndWindowWait :
    (∃ (s : State) (c : Cur) (tc fc : BitVec 5), Ready s c 1 .none ∧ tc ≠ 0 ∧ fc ≠ 0 ∧ Alone c ∧ s.pendingFor c.ref.w fc = []) ∧
    (∃ (s : State) (c : Cur) (tc tx fc : BitVec 5), Ready s c 1 .none ∧ tc ≠ 0 ∧ tx ≠ 0 ∧ fc ≠ 0 ∧ Alone c ∧
      s.pendingFor c.ref.w fc ≠ [] ∧ tc.getLsbD 0 = true ∧ tx.getLsbD 0 = false) ∧
    (∀ frozen : Bool, ∃ (s : State) (c : Cur) (o x : WcOps) (w : Window), Ready s c 1 .none ∧ Alone c ∧
      s.window? c.ctx o.win.toNat = some w ∧ x.win = o.win ∧ (w.st = .frozen ↔ frozen = true) ∧
      (c.sr o.sb).toNat ≤ w.scnt.toNat ∧ w.scnt.toNat < (c.sr x.sb).toNat ∧ (c.sr o.sb).toNat ≤ w.dcnt.toNat ∧
      w.dcnt.toNat < (c.sr x.sb).toNat) := by
  refine ⟨⟨based, seen based, 1, 4, based_ready 1 .none (by decide), by decide, by decide, based_alone, by decide +kernel⟩,
    ⟨withCmds based 1, seen (withCmds based 1), 1, 8, 4, ready_of _ 1 .none (by decide +kernel), by decide, by decide, by decide,
      alone_of (by decide +kernel), by decide +kernel, by decide, by decide⟩, ?_⟩
  intro b
  let w : Window := ⟨7, 0x50000, 4096, 7, 0, 1, 2, 2, if b then .frozen else .opened, false, none⟩
  refine ⟨(dress based (scalars [(8, 2), (9, 3)])).modCtx 0 (fun c => { c with windows := [w] }), _, ⟨7, 8, 7, 1⟩, ⟨7, 9, 7, 1⟩, w,
    ready_of _ 1 .none ?_, alone_of ?_, ?_, rfl, ?_, ?_, ?_, ?_, ?_⟩ <;>
  · cases b <;> decide +kernel

/-- A queue of 16-byte items at 0x40000 with room for four. -/
def someQueue (st : QSt) (tail head : Nat) : Queue :=
  { st := st, recAddr := 0x50000, ring := 0x40000, isz := 0, logcap := 2, err := 0, tail := tail, head := head, drops := 0, defers := 0,
    fulls := 0, waiters := [], conf := 0, recDead := false, lost := [] }

def withQueue (st : QSt) (tail head : Nat) : State := based.modCtx 0 (fun c => c.setQueue 3 (someQueue st tail head))

/-- A slot that the device can read or write, as a test. -/
def slotOk (s : State) (x : Queue) (pos : Nat) (q : XReq) : Bool :=
  match s.translate (seen s).ctx (x.slotVa pos) q with
  | .ok l => (List.range (16 * 2 ^ x.isz)).all (fun i => !s.isPoison (l.pa + i))
  | .error _ => false

theorem slotOk_of (s : State) (x : Queue) (pos : Nat) (q : XReq) (h : slotOk s x pos q = true) :
    ∃ l, SlotOk s (seen s) x pos q l := by
  unfold slotOk at h
  split at h
  · next l hl =>
    rw [List.all_eq_true] at h
    exact ⟨l, hl, fun i hi => by simpa using h i (List.mem_range.2 hi)⟩
  · simp at h

/-- What the queue statement asks of the state, as a test. -/
def queueFits (st : QSt) (tail head : Nat) : Bool :=
  let s := withQueue st tail head
  readyFor s 1 .none && calm (seen s) && alone s && s.memWf &&
    s.queue? (seen s).ctx 3 == some (someQueue st tail head) && !s.waiterDue (seen s).ctx 3 &&
    s.isFull (seen s).ctx 3 (someQueue st tail head) == decide (tail = 4) &&
    slotOk s (someQueue st tail head) tail (XReq.ringWrite .write) && slotOk s (someQueue st tail head) head XReq.ringRead

theorem queue_fits : [QSt.configured, .opened, .closing, .closed, .error].all (fun st =>
    queueFits st 1 0 && queueFits st 4 0 && queueFits st 2 2) = true := by decide +kernel

/-- QueueInstructions: a queue with room, a full one, an empty one, and each state in which none is taken or appended. -/
theorem witness_QueueInstructions (st : QSt) (hst : st ≠ .free) (tail head : Nat)
    (hp : (tail, head) ∈ [(1, 0), (4, 0), (2, 2)]) : ∃ (s : State) (c : Cur) (o : QueueOps) (x : Queue), Ready s c 1 .none ∧
      Alone c ∧ Quiet s c ∧ QueueAt s c o x ∧ 3 ≤ o.q.toNat ∧ s.waiterDue c.ctx o.q.toNat = false ∧ x.st = st ∧ x.tail = tail ∧
      x.head = head ∧ s.isFull c.ctx o.q.toNat x = decide (tail = 4) ∧ (∃ l, SlotOk s c x x.tail (XReq.ringWrite .write) l) ∧
      ∃ l, SlotOk s c x x.head XReq.ringRead l := by
  have h : queueFits st tail head = true := by
    have h := List.all_eq_true.1 queue_fits st (by cases st <;> first | exact absurd rfl hst | decide)
    rw [Bool.and_eq_true, Bool.and_eq_true] at h
    simp only [List.mem_cons, Prod.mk.injEq, List.not_mem_nil, or_false] at hp
    obtain ⟨rfl, rfl⟩ | ⟨rfl, rfl⟩ | ⟨rfl, rfl⟩ := hp
    · exact h.1.1
    · exact h.1.2
    · exact h.2
  simp only [queueFits, Bool.and_eq_true, beq_iff_eq, Bool.not_eq_true'] at h
  obtain ⟨⟨⟨⟨⟨⟨⟨⟨h1, h2⟩, h3⟩, h4⟩, h5⟩, h6⟩, h7⟩, h8⟩, h9⟩ := h
  exact ⟨withQueue st tail head, _, ⟨7, 8, 3, 1⟩, someQueue st tail head, ready_of _ 1 .none h1, alone_of h2, quiet_of _ h3 h4,
    ⟨h5, hst, show 8 + 16 * 2 ^ 0 / 8 ≤ 64 by decide⟩, by decide, h6, rfl, rfl, rfl, h7, slotOk_of _ _ _ _ h8, slotOk_of _ _ _ _ h9⟩

/-- Queue 3 with its ring behind the mapped memory, in an SY page, or over a poisoned granule. -/
def ringQueue (k : Nat) : Queue :=
  { someQueue .opened 1 0 with ring := if k = 0 then 0x7FFFFFF000 else if k = 1 then 0x40000000 else 0x40000 }
def ringAt (k : Nat) : State := { syState with poison := [0x40000 / 32] }.modCtx 0 (fun c => c.setQueue 3 (ringQueue k))

/-- QueueInstructions, the slot: not mapped, in an SY page, and poisoned. -/
theorem witness_queueSlots : ∀ k ∈ [0, 1, 2], ∃ (s : State) (c : Cur) (o : QueueOps) (x : Queue), Ready s c 1 .none ∧ Alone c ∧
    Quiet s c ∧ QueueAt s c o x ∧ 3 ≤ o.q.toNat ∧ s.waiterDue c.ctx o.q.toNat = false ∧ s.isFull c.ctx o.q.toNat x = false ∧
      x.st = .opened ∧ x.head < x.tail ∧ ∀ q ∈ [(x.tail, XReq.ringWrite .write), (x.head, XReq.ringRead)],
        (k = 0 → s.translate c.ctx (x.slotVa q.1) q.2 = .error (.fault .notPresent false)) ∧ (k = 1 → SlotFatal s c x q.1 q.2) ∧
        (k = 2 → SlotPoison s c x q.1 q.2) := by
  intro k hk
  have h : readyFor (ringAt k) 1 .none && calm (seen (ringAt k)) && alone (ringAt k) && (ringAt k).memWf &&
      (ringAt k).queue? (seen (ringAt k)).ctx 3 == some (ringQueue k) && !(ringAt k).waiterDue (seen (ringAt k)).ctx 3 &&
      !(ringAt k).isFull (seen (ringAt k)).ctx 3 (ringQueue k) = true := by
    simp only [List.mem_cons, List.not_mem_nil, or_false] at hk
    obtain rfl | rfl | rfl := hk <;> decide +kernel
  simp only [Bool.and_eq_true, beq_iff_eq, Bool.not_eq_true'] at h
  obtain ⟨⟨⟨⟨⟨⟨h1, h2⟩, h3⟩, h4⟩, h5⟩, h6⟩, h7⟩ := h
  refine ⟨ringAt k, _, ⟨7, 8, 3, 1⟩, ringQueue k, ready_of _ 1 .none h1, alone_of h2, quiet_of _ h3 h4,
    ⟨h5, (by decide : (QSt.opened : QSt) ≠ .free), show 8 + 16 * 2 ^ 0 / 8 ≤ 64 by decide⟩, by decide, h6, h7, rfl,
    show 0 < 1 by decide, fun q hq => ⟨?_, ?_, ?_⟩⟩ <;> rintro rfl <;>
      simp only [List.mem_cons, List.not_mem_nil, or_false] at hq <;> obtain rfl | rfl := hq
  · decide +kernel
  · decide +kernel
  · exact ⟨.fault .policy true, by decide +kernel, fun _ => by simp⟩
  · exact ⟨.fault .policy true, by decide +kernel, fun _ => by simp⟩
  · exact ⟨⟨0x40010, 0, 0x1F, 3⟩, 0, by decide +kernel⟩
  · exact ⟨⟨0x40000, 0, 0x1F, 3⟩, 0, by decide +kernel⟩

/-- QueueInstructions: the record of a full queue can be written; a queue that does not exist, one whose item does not fit in the
scalar registers, and one that the instruction may not name. -/
theorem witness_queueRefusals :
    (∃ (s : State) (c : Cur) (x : Queue), s.queue? c.ctx 3 = some x ∧ x.st = .opened ∧ s.isFull c.ctx 3 x = true ∧
      RecordReady s c 3 x 40 4) ∧
    (∃ (s : State) (c : Cur) (o : QueueOps), Ready s c 1 .none ∧ s.queue? c.ctx o.q.toNat = none) ∧
    (∃ (s : State) (c : Cur) (o p : QueueOps) (x : Queue), Ready s c 1 .none ∧ s.queue? c.ctx o.q.toNat = some x ∧ x.st ≠ .free ∧
      p.q = o.q ∧ o.q.toNat = 1 ∧ o.sa.val + 16 * 2 ^ x.isz / 8 ≤ 64 ∧ 64 < p.sa.val + 16 * 2 ^ x.isz / 8) := by
  refine ⟨⟨withQueue .opened 4 0, seen (withQueue .opened 4 0), someQueue .opened 4 0, by decide +kernel, rfl, by decide +kernel, rfl,
      by decide +kernel, by decide +kernel, ⟨0x50028, 0, 0x1F, 3⟩, by decide +kernel⟩,
    ⟨based, _, ⟨7, 8, 9, 1⟩, based_ready 1 .none (by decide), by decide +kernel⟩,
    based.modCtx 0 (fun c => c.setQueue 1 (someQueue .opened 1 0)), _, ⟨7, 8, 1, 1⟩, ⟨7, 63, 1, 1⟩, someQueue .opened 1 0, ready_of _ 1 .none (by decide +kernel), by decide +kernel, by decide,
    rfl, rfl, by decide, by decide⟩

/-- Crew memory with a barrier entry. -/
def barred (b : Barrier) (c : Cur) : Cur := { c with crew := { c.crew with bars := [b] } }

/-- Two warps of a crew, the second parked at the barrier of the first `n` warps behind its BARW. -/
def meeting (n : Nat) : State :=
  let s := dress based (fun c => barred ⟨64, List.range n, [1], false⟩ (scalars [(9, 64), (10, 131064), (11, 2 ^ 16 - 1), (12, 0)] c))
  s.modCrew probeRef.w.crew (fun k => { k with warps := k.warps.flatMap (fun w =>
    [w, { w with id := 1, strands := w.strands.map (fun o => o.map (fun t => { t with wait := .bar 7 64 false true })) }]) })

def second : StrandRef := ⟨{ probeRef.w with warp := 1 }, 0⟩

/-- Barriers: BINIT of a new and of a registered offset and its removal, an arrival before the last and the last, which wakes a
warp that is parked, and a wait for a phase that has passed and for one that has not. -/
theorem witness_Barriers :
    (∃ (s : State) (c : Cur), Ready s c 1 .none ∧ Fits c ∧ BarOk c 9 ∧ BarOk c 10 ∧
      c.barHasWaiters s (c.sr 9).toNat = false ∧ c.barHasWaiters s (c.sr 10).toNat = false ∧
      (c.bar? (c.sr 9).toNat).isSome = true ∧ c.bar? (c.sr 10).toNat = none ∧ c.bars.length < 8 ∧ (c.sr 11).toNat = 2 ^ 16 - 1 ∧
      (c.sr 12).toNat = 0) ∧
    (∀ n ∈ [2, 3], ∃ (s : State) (c d : Cur) (b : Barrier), Ready s c 1 .none ∧ Alone c ∧ Quiet s c ∧ BarOk c 9 ∧
      c.t.chunk.bars = [] ∧ c.crew.bar? (c.sr 9).toNat = some b ∧ c.ref.w.warp ∈ b.parts ∧ c.ref.w.warp ∉ b.arrived ∧
      b.parts.length = n ∧ b.arrived.length = 1 ∧ b.phase = false ∧ (c.sr 11).getLsbD 0 = true ∧ (c.sr 12).getLsbD 0 = false ∧
      s.curOf second = some d ∧ d.t.wait = .bar 7 b.off false true ∧ second ≠ c.ref ∧ second.w.crew = c.ref.w.crew) := by
  let f : Nat → Cur → Cur := fun n c => barred ⟨64, (List.range n), [1], false⟩
    (scalars [(9, 64), (10, 131064), (11, 2 ^ 16 - 1), (12, 0)] c)
  refine ⟨⟨dress based (f 2), _, ready_of _ 1 .none (by decide +kernel), .inl (by decide +kernel), by unfold BarOk; decide +kernel,
      by unfold BarOk; decide +kernel, by decide +kernel⟩, ?_⟩
  intro n hn
  have h : (readyFor (meeting n) 1 .none && calm (seen (meeting n)) && calmAll (meeting n) && (meeting n).memWf &&
      ((meeting n).curOf second).isSome) = true ∧ BarOk (seen (meeting n)) 9 ∧ (seen (meeting n)).t.chunk.bars = [] ∧
      (seen (meeting n)).crew.bar? ((seen (meeting n)).sr 9).toNat = some ⟨64, List.range n, [1], false⟩ ∧
      (seen (meeting n)).ref.w.warp ∈ List.range n ∧ (seen (meeting n)).ref.w.warp ∉ [1] ∧
      ((seen (meeting n)).sr 11).getLsbD 0 = true ∧ ((seen (meeting n)).sr 12).getLsbD 0 = false ∧
      (seenAt (meeting n) second).t.wait = .bar 7 64 false true ∧ second ≠ (seen (meeting n)).ref ∧
      second.w.crew = (seen (meeting n)).ref.w.crew := by
    unfold BarOk
    simp only [List.mem_cons, List.not_mem_nil, or_false] at hn
    obtain rfl | rfl := hn <;> decide +kernel
  obtain ⟨h1, h2, h3, h4, h5, h6, h7, h8, h9, h10, h11⟩ := h
  simp only [Bool.and_eq_true] at h1
  obtain ⟨⟨⟨⟨a1, a2⟩, a3⟩, a4⟩, a5⟩ := h1
  refine ⟨meeting n, seen (meeting n), seenAt (meeting n) second, ⟨64, List.range n, [1], false⟩, ready_of _ 1 .none a1, alone_of a2,
    quiet_of_calm _ _ a3 a4, h2, h3, h4, h5, h6, List.length_range, rfl, rfl, h7, h8, ?_, h9, h10, h11⟩
  unfold seenAt
  cases hc : (meeting n).curOf second with
  | none => rw [hc] at a5; simp at a5
  | some d => rfl

/-- Barriers, what is refused: a mask beyond 16 bits, a word outside crew memory, a misaligned one, an entry that does not exist, and
one of other warps or at which the warp has arrived. -/
theorem witness_barrierBad : ∃ (s : State) (c : Cur), Ready s c 1 .none ∧ 2 ^ 16 ≤ (c.sr 9).toNat ∧ (c.sr 10).toNat < 2 ^ 16 ∧
    c.crew.launch.crewmem < (c.sr 9).toNat + 8 ∧ (c.sr 11).toNat + 8 ≤ c.crew.launch.crewmem ∧ (c.sr 11).toNat % 8 ≠ 0 ∧
      (∀ r ∈ [(12 : SReg), 13, 14], BarOk c r) ∧ c.bar? (c.sr 12).toNat = none ∧
      (∃ b, c.bar? (c.sr 13).toNat = some b ∧ c.ref.w.warp ∉ b.parts) ∧
      ∃ b, c.bar? (c.sr 14).toNat = some b ∧ c.ref.w.warp ∈ b.parts ∧ c.ref.w.warp ∈ b.arrived :=
  ⟨dress based (fun c => { (scalars [(9, 131072), (10, 0), (11, 4), (12, 72), (13, 64), (14, 80)] c) with crew :=
      { c.crew with bars := [⟨64, [1], [], false⟩, ⟨80, [0, 1], [0], false⟩] } }), _, ready_of _ 1 .none (by decide +kernel),
    by decide +kernel, by decide +kernel, by decide +kernel, by decide +kernel, by decide +kernel, by unfold BarOk; decide +kernel,
    by decide +kernel, ⟨⟨64, [1], [], false⟩, by decide +kernel, by decide +kernel⟩,
    ⟨80, [0, 1], [0], false⟩, by decide +kernel, by decide +kernel, by decide +kernel⟩

/-- A tensor shape record in crew memory of two words. -/
def crewTsr (off : Nat) : List Byte := recBytes 128 [(0, 8, off), (8, 1, 2), (9, 1, 1), (10, 1, 1), (16, 4, 2), (48, 8, 4)]

/-- Tensor shape records at 0x30000 and 0x30080, and one misaligned at 0x30100. -/
def shaped : State :=
  { based with mem := cellsPut (cellsPut (cellsPut based.mem 0x30000 (crewTsr 0x100)) 0x30080 (crewTsr 0x200)) 0x30100 (crewTsr 0x102) }

/-- A command in scalar registers 8 to 15. -/
def ordered (s : State) (ws : List Nat) : State := dress s (scalars (ws.zipIdx.map (fun x => (8 + x.2, x.1))))

theorem engine_free {s : State} {q : Nat} (h : s.cmds = []) : ¬ EngineFull s (seen s) q := by
  simp [EngineFull, heldBy, h]

/-- Both links of a port up, an open window to put through and a frozen one. -/
def wired : State :=
  ({ based with links := based.links.map (fun l => { l with st := .active }) } : State).modCtx 0 (fun c =>
    { c with windows := [⟨7, 0x50000, 4096, 1, 0, 1, 2, 2, .opened, false, none⟩, ⟨8, 0x50000, 4096, 1, 0, 1, 2, 2, .frozen, false, none⟩] })

theorem some_iff {α : Type} {o : Option α} {p : α → Prop} [DecidablePred p] :
    (∃ w, o = some w ∧ p w) ↔ o.any (fun w => decide (p w)) = true := by
  cases o <;> simp

theorem someLink_iff {s : State} {m : Nat} : SomeLink s m ↔ (List.range 12).any (fun i => bitAt m i &&
    (s.links[i]?).any (fun x => x.st == .active || x.st == .degraded)) = true := by
  simp only [SomeLink, List.any_eq_true, List.mem_range, Bool.and_eq_true, Option.any_eq_true, Bool.or_eq_true, beq_iff_eq]
  exact ⟨fun ⟨i, x, h1, h2, h3, h4⟩ => ⟨i, h1, h2, x, h3, h4⟩, fun ⟨i, h1, h2, x, h3, h4⟩ => ⟨i, x, h1, h2, h3, h4⟩⟩

theorem tsr_sound (off : Nat) (dest : Bool) (h : off ∈ [0x100, 0x102, 0x200]) :
    ¬ RecordReserved (crewTsr off) dest ∧ rankGood (crewTsr off) ∧ ∀ d, ¬ (d < tsrRank (crewTsr off) ∧ tsrExt (crewTsr off) d = 0) := by
  have hr : tsrRank (crewTsr off) = 1 := by
    simp only [List.mem_cons, List.not_mem_nil, or_false] at h
    obtain rfl | rfl | rfl := h <;> decide +kernel
  refine ⟨?_, by unfold rankGood; rw [hr]; decide, ?_⟩
  · rintro (h1 | h1 | h1 | h1 | h1 | ⟨-, ⟨d, h1, h2, h3⟩ | ⟨-, h1⟩⟩)
    rotate_left 5
    · rw [hr] at h1
      simp only [List.mem_cons, List.not_mem_nil, or_false] at h
      revert h3
      obtain rfl | rfl | rfl := h <;> interval_cases d <;> decide +kernel
    all_goals
      revert h1
      simp only [List.mem_cons, List.not_mem_nil, or_false] at h
      obtain rfl | rfl | rfl := h <;> decide +kernel
  · rintro d ⟨h1, h2⟩
    rw [hr] at h1
    obtain rfl : d = 0 := by omega
    revert h2
    simp only [List.mem_cons, List.not_mem_nil, or_false] at h
    obtain rfl | rfl | rfl := h <;> decide +kernel

theorem copy_shape (off : Nat) (h : off ∈ [0x100, 0x102]) : ¬ ShapeFails (crewTsr off) (crewTsr 0x200) := by
  simp only [List.mem_cons, List.not_mem_nil, or_false] at h
  have hd : tsrRank (crewTsr 0x200) = 1 := by decide +kernel
  rintro (h1 | ⟨i, h1, h2⟩ | ⟨i, h1, h2⟩)
  · revert h1; obtain rfl | rfl := h <;> decide +kernel
  · obtain rfl : i = 0 := by omega
    exact absurd (by decide +kernel) (h2 0 (by omega))
  · obtain rfl : i = 0 := by omega
    revert h2; obtain rfl | rfl := h <;> decide +kernel

theorem copy_misaligned : CopyCode (crewTsr 0x102) (crewTsr 0x200) 131072 7 := by
  obtain ⟨a1, a2, -⟩ := tsr_sound 0x102 false (by decide)
  obtain ⟨b1, b2, -⟩ := tsr_sound 0x200 true (by decide)
  refine .inr ⟨not_or.2 ⟨a1, b1⟩, .inr ⟨by simp only [a2, b2]; decide, .inr ⟨by decide +kernel, .inr ⟨copy_shape _ (by decide),
    .inl ⟨.inl (.inl (by decide +kernel)), rfl⟩⟩⟩⟩⟩

theorem copy_sound : CopyCode (crewTsr 0x100) (crewTsr 0x200) 131072 0 := by
  obtain ⟨a1, a2, a3⟩ := tsr_sound 0x100 false (by decide)
  obtain ⟨b1, b2, b3⟩ := tsr_sound 0x200 true (by decide)
  have hu : usedDims (crewTsr 0x100) = [0] ∧ usedDims (crewTsr 0x200) = [0] := by decide +kernel
  refine .inr ⟨not_or.2 ⟨a1, b1⟩, .inr ⟨by simp only [a2, b2]; decide, .inr ⟨by decide +kernel, .inr ⟨copy_shape _ (by decide),
    .inr ⟨?_, .inr ⟨?_, .inr ⟨?_, .inr ⟨?_, rfl⟩⟩⟩⟩⟩⟩⟩⟩
  · unfold AlignFails; decide +kernel
  · rintro ⟨r, hr, d, h1, h2⟩
    simp only [List.mem_cons, List.not_mem_nil, or_false] at hr
    obtain rfl | rfl := hr
    · exact a3 d ⟨h1, h2⟩
    · exact b3 d ⟨h1, h2⟩
  · unfold RangeFails; decide +kernel
  · unfold OverlapFails; decide +kernel

/-- EngineInstructions, ENGQ: a full engine; a bulk command and a link command rejected and accepted; a copy whose records cannot be
read, one whose source is misaligned, and one that is accepted. -/
theorem witness_engq :
    (∃ (s : State) (c : Cur) (o : EngqOps), Ready s c 1 .none ∧ Alone c ∧ EngineFull s c o.q.val) ∧
    (∀ x ∈ [([0], 2), ([1, 0x40000001, 1], 3), ([1, 0x40000000, 0], 16), ([2, 0x40000000, 2, 2 ^ 57 - 4], 17),
      ([1, 0x40000000, 1], 0)], ∃ (s : State) (c : Cur) (o : EngqOps), Ready s c 1 .none ∧ Alone c ∧ o.q.val = 2 ∧
        ¬ EngineFull s c o.q.val ∧ BulkCode (itemBytesOf c o.sa 64) x.2) ∧
    (∀ x ∈ [([0], 2), ([1, 0x30000, 2, 4], 3), ([1 + 256 * 9, 0x30000, 0, 4], 16), ([2 + 256 * 7, 0x30000, 0, 4], 17),
      ([1 + 256 * 7, 0x30000, 0, 2], 18), ([1 + 256 * 7, 0x30000, 4096, 4], 19), ([1 + 256 * 8, 0x30000, 0, 4], 20),
      ([1 + 256 * 7, 0x30000, 0, 4], 0)], ∃ (s : State) (c : Cur) (o : EngqOps), Ready s c 1 .none ∧ Alone c ∧ o.q.val = 1 ∧
        ¬ EngineFull s c o.q.val ∧ LinkCode s c (itemBytesOf c o.sa 64) x.2) ∧
    (∃ (s : State) (c : Cur) (o : EngqOps), Ready s c 1 .none ∧ Alone c ∧ o.q.val = 0 ∧ ¬ EngineFull s c o.q.val ∧
      fieldOf (itemBytesOf c o.sa 64) 0 1 = 1 ∧ ∃ st, tsrAcc s c (fieldOf (itemBytesOf c o.sa 64) 8 8) = .error st) ∧
    (∀ x ∈ [(0x30100, 7), (0x30000, 0)], ∃ (s : State) (c : Cur) (o : EngqOps) (l m : Leaf), Ready s c 1 .none ∧ Alone c ∧
      o.q.val = 0 ∧ ¬ EngineFull s c o.q.val ∧ fieldOf (itemBytesOf c o.sa 64) 0 1 = 1 ∧
      ¬ (fieldOf (itemBytesOf c o.sa 64) 1 7 ≠ 0 ∨ fieldOf (itemBytesOf c o.sa 64) 24 40 ≠ 0 ∨
        BadAddr (fieldOf (itemBytesOf c o.sa 64) 8 8) 128 ∨ BadAddr (fieldOf (itemBytesOf c o.sa 64) 16 8) 128) ∧
      fieldOf (itemBytesOf c o.sa 64) 8 8 = x.1 ∧
      tsrAcc s c (fieldOf (itemBytesOf c o.sa 64) 8 8) = .ok l ∧ tsrAcc s c (fieldOf (itemBytesOf c o.sa 64) 16 8) = .ok m ∧
      CopyCode (s.rdBytes l.pa 128) (s.rdBytes m.pa 128) c.crew.launch.crewmem x.2) := by
  refine ⟨⟨withCmds based 32, _, ⟨7, 8, 2, 1⟩, ready_of _ 1 .none (by decide +kernel), alone_of (by decide +kernel),
      .inl (by decide +kernel)⟩, ?_, ?_, ?_, ?_⟩
  · intro x hx
    have h : readyFor (ordered based x.1) 1 .none = true ∧ calm (seen (ordered based x.1)) = true ∧
        BulkCode (itemBytesOf (seen (ordered based x.1)) 8 64) x.2 ∧ (ordered based x.1).cmds = [] := by
      simp only [BulkCode, FirstCase, BadAddr]
      simp only [List.mem_cons, List.not_mem_nil, or_false] at hx
      obtain rfl | rfl | rfl | rfl | rfl := hx <;> decide +kernel
    exact ⟨ordered based x.1, _, ⟨7, 8, 2, 1⟩, ready_of _ 1 .none h.1, alone_of h.2.1, rfl, engine_free h.2.2.2, h.2.2.1⟩
  · intro x hx
    have h : readyFor (ordered wired x.1) 1 .none = true ∧ calm (seen (ordered wired x.1)) = true ∧
        LinkCode (ordered wired x.1) (seen (ordered wired x.1)) (itemBytesOf (seen (ordered wired x.1)) 8 64) x.2 ∧
        (ordered wired x.1).cmds = [] := by
      simp only [LinkCode, FirstCase, BadAddr, some_iff, someLink_iff]
      simp only [List.mem_cons, List.not_mem_nil, or_false] at hx
      obtain rfl | rfl | rfl | rfl | rfl | rfl | rfl | rfl := hx <;> decide +kernel
    exact ⟨ordered wired x.1, _, ⟨7, 8, 1, 1⟩, ready_of _ 1 .none h.1, alone_of h.2.1, rfl, engine_free h.2.2.2, h.2.2.1⟩
  · exact ⟨ordered based [1, 0x7FFFFFF000, 0x30080], _, ⟨7, 8, 0, 1⟩, ready_of _ 1 .none (by decide +kernel),
      alone_of (by decide +kernel), rfl, engine_free (by decide +kernel), by decide +kernel, _, by rfl⟩
  · intro x hx
    have h : readyFor (ordered shaped [1, x.1, 0x30080]) 1 .none = true ∧ calm (seen (ordered shaped [1, x.1, 0x30080])) = true ∧
        (ordered shaped [1, x.1, 0x30080]).cmds = [] ∧ itemBytesOf (seen (ordered shaped [1, x.1, 0x30080])) 8 64 =
          recBytes 64 [(0, 8, 1), (8, 8, x.1), (16, 8, 0x30080)] ∧
        fieldOf (recBytes 64 [(0, 8, 1), (8, 8, x.1), (16, 8, 0x30080)]) 8 8 = x.1 ∧
        fieldOf (recBytes 64 [(0, 8, 1), (8, 8, x.1), (16, 8, 0x30080)]) 16 8 = 0x30080 ∧
        fieldOf (recBytes 64 [(0, 8, 1), (8, 8, x.1), (16, 8, 0x30080)]) 0 1 = 1 ∧
        fieldOf (recBytes 64 [(0, 8, 1), (8, 8, x.1), (16, 8, 0x30080)]) 1 7 = 0 ∧
        fieldOf (recBytes 64 [(0, 8, 1), (8, 8, x.1), (16, 8, 0x30080)]) 24 40 = 0 ∧
        tsrAcc (ordered shaped [1, x.1, 0x30080]) (seen (ordered shaped [1, x.1, 0x30080])) x.1 = .ok ⟨x.1, 0, 0x1F, 3⟩ ∧
        tsrAcc (ordered shaped [1, x.1, 0x30080]) (seen (ordered shaped [1, x.1, 0x30080])) 0x30080 = .ok ⟨0x30080, 0, 0x1F, 3⟩ ∧
        (ordered shaped [1, x.1, 0x30080]).rdBytes x.1 128 = crewTsr (if x.2 = 0 then 0x100 else 0x102) ∧
        (ordered shaped [1, x.1, 0x30080]).rdBytes 0x30080 128 = crewTsr 0x200 ∧
        (seen (ordered shaped [1, x.1, 0x30080])).crew.launch.crewmem = 131072 ∧ ¬ (BadAddr x.1 128 ∨ BadAddr 0x30080 128) := by
      unfold BadAddr
      simp only [List.mem_cons, List.not_mem_nil, or_false] at hx
      obtain rfl | rfl := hx <;> decide +kernel
    obtain ⟨h1, h2, h3, h4, h5, h6, h7, h8, h9, h10, h11, h12, h13, h14, h15⟩ := h
    refine ⟨ordered shaped [1, x.1, 0x30080], _, ⟨7, 8, 0, 1⟩, ⟨x.1, 0, 0x1F, 3⟩, ⟨0x30080, 0, 0x1F, 3⟩, ready_of _ 1 .none h1,
      alone_of h2, rfl, engine_free h3, ?_⟩
    simp only [h4, h5, h6, h7, h8, h9, h10, h11, h12, h13, h14]
    refine ⟨trivial, by simpa using h15, trivial, trivial, trivial, ?_⟩
    simp only [List.mem_cons, List.not_mem_nil, or_false] at hx
    obtain rfl | rfl := hx
    · exact copy_misaligned
    · exact copy_sound

/-- A warp with a batch outstanding and BATCHN behind it. -/
def batched (bs : List Batch) (n : Nat) (c : Cur) : Cur :=
  { (c.mapCore (fun k => { k with batchn := BitVec.ofNat 32 n })) with warp := { c.warp with batches := bs } }

/-- EngineInstructions, BCLOSE, BWAIT and BTEST: a batch that is complete, one that is not, and one that is not closed. -/
theorem witness_EngineInstructions :
    (∀ x ∈ [(([] : List Batch), false), ([⟨1, [0], none⟩], true)], ∃ (s : State) (c : Cur) (o : SabOps), Ready s c 1 .none ∧
      Room c c ∧ Alone c ∧ Closed c o.sa ∧ c.incomplete ((c.sr o.sa).setWidth 32) = x.2) ∧
    (∃ (s : State) (c : Cur) (o : SabOps), Ready s c 1 .none ∧ ¬ Closed c o.sa) := by
  refine ⟨?_, dress based (batched [] 2), _, ⟨7, 2, 9⟩, ready_of _ 1 .none (by decide +kernel), by unfold Closed; decide +kernel⟩
  intro x hx
  refine ⟨dress (withCmds based 1) (batched x.1 2), _, ⟨7, 1, 9⟩, ready_of _ 1 .none ?_, .inl ?_, alone_of ?_, ?_, ?_⟩ <;>
  · simp only [List.mem_cons, List.not_mem_nil, or_false] at hx
    obtain rfl | rfl := hx <;> (try unfold Closed) <;> decide +kernel

/-! Tiles and matrix instructions. -/

/-- a0 is UNDEF, a1 ZERO, a2 LIVE F32, a3 LIVE I32; v32 to v63 carry one tag and v64 to v127 another, v9 scales. -/
def tiled (ta tb : Tag) (em : Mask) (bounds : Nat) : State :=
  dress plain (fun c =>
    let c := scalars [(3, 0x30000), (4, 0x4000000210), (20, bounds), (21, 0x3F800000 + 2 ^ 32 * 0x40000000), (22, 5 + 2 ^ 32 * 9), (23, 9 + 2 ^ 32 * 5)] c
    let c := c.mapCore (fun k => { k with em := em })
    { c with warp := { c.warp with
        vregs := (List.range 256).map (fun i => { tag := if i = 9 then .e8m0x4 else if i < 64 then ta else tb, lanes := List.replicate 32 0 }),
        tiles := [Tile.undef, { Tile.undef with st := .zero }, { Tile.undef with st := .live, tag := .f32 },
          { Tile.undef with st := .live, tag := .i32 }] ++ List.replicate 252 Tile.undef } })

/-- The conditions on the strand that every matrix instruction shares, as a test (registers apart). -/
def mmaCur (c : Cur) (t : TReg) (res : Tag) (bnd : SReg) (kk : Nat) : Bool :=
  c.t.chunk.st == .idle && c.tileOk t && !(c.tileHeld t) &&
    ((c.tile t).st == .zero || ((c.tile t).st == .live && (c.tile t).tag == res)) && c.width == 32 &&
    decide ((c.sr bnd).toNat < 2 ^ 18) && decide (field (c.sr bnd).toNat 4 0 ≤ 16) && (bnd != 63) &&
    decide (((c.sr bnd).extractLsb' 0 5).toNat ≤ 16) && decide (((c.sr bnd).extractLsb' 5 5).toNat ≤ 16) &&
    decide (((c.sr bnd).extractLsb' 10 7).toNat ≤ kk)

/-- Registers `a` to `a + n - 1` carry a tag. -/
def runTagged (c : Cur) (a n : Nat) (t : Tag) : Bool :=
  (List.range n).all (fun j => match vplus (vr (Fin.ofNat 256 a)) j with
    | some r => c.regOk r && (c.vr r).tag == t
    | none => false)

theorem run_of {c : Cur} {a n : Nat} {t : Tag} (h : runTagged c a n t = true) :
    ∀ j, j < n → ∃ r, vplus (vr (Fin.ofNat 256 a)) j = some r ∧ c.regOk r = true ∧ (c.vr r).tag = t := by
  intro j hj
  have hk := (List.all_eq_true.1 h) j (List.mem_range.2 hj)
  revert hk
  cases hv : vplus (vr (Fin.ofNat 256 a)) j with
  | none => simp
  | some r =>
    intro hk
    simp only [Bool.and_eq_true, beq_iff_eq] at hk
    exact ⟨r, rfl, hk⟩

theorem mma_of {c : Cur} {o : MmaOps} {ta tb res : Tag} {kk : Nat} {mx : Bool} (h : mmaCur c o.tile res o.bnd kk = true)
    (ha : o.a = vr 32) (hb : o.b = vr 64) (h1 : runTagged c 32 (kk * ta.bits / 64) ta = true)
    (h2 : runTagged c 64 (kk * tb.bits / 64) tb = true) (h3 : o.scl = some (vr 9) ∨ (o.scl = none ∧ mx = false))
    (h4 : runTagged c 9 1 .e8m0x4 = true) (h5 : OctetsOk c) : MmaOk c o ta tb kk res mx := by
  simp only [mmaCur, Bool.and_eq_true, beq_iff_eq, Bool.or_eq_true, decide_eq_true_eq, Bool.not_eq_true', bne_iff_ne] at h
  obtain ⟨⟨⟨⟨⟨⟨⟨⟨⟨⟨i1, i2⟩, i3⟩, i4⟩, i5⟩, i6⟩, -⟩, i7⟩, i8⟩, i9⟩, i10⟩ := h
  have r9 := run_of h4 0 (by decide)
  refine ⟨⟨i2, i3, .inl (by rw [i1]; decide), .inl (by rw [i1]; decide)⟩, ?_, by rw [i5]; decide, ?_, ?_, ?_, ?_, ⟨i6, i8, i9, i10, fun h => i7 h.2⟩, h5⟩
  · exact i4.imp id (fun h => ⟨h.1, by simpa using h.2⟩)
  · rw [ha, i5]; exact run_of h1
  · rw [hb, i5]; exact run_of h2
  · rcases h3 with h | ⟨-, h⟩
    · intro _; rw [h]; rfl
    · intro hm; rw [h] at hm; exact absurd hm (by decide)
  · intro r hr
    rcases h3 with h | ⟨h, -⟩
    · rw [h] at hr
      obtain rfl : vr 9 = r := by simpa using hr
      obtain ⟨x, hx, h⟩ := r9
      obtain rfl : vr 9 = x := by simpa [vplus, vr] using hx
      exact h
    · rw [h] at hr; exact absurd hr (by simp)

/-- 16 rows and columns at full depth. -/
def full (kk : Nat) : Nat := 16 + 32 * 16 + 1024 * kk

theorem octets_all {c : Cur} (h : (List.range (c.width / 8)).all (fun q =>
    (List.range 8).all (fun l => hasLane c.em (8 * q + l)) || (List.range 8).all (fun l => !(hasLane c.em (8 * q + l)))) = true) :
    OctetsOk c := by
  intro q hq
  have hk := (List.all_eq_true.1 h) q (List.mem_range.2 hq)
  simp only [Bool.or_eq_true, List.all_eq_true, List.mem_range, Bool.not_eq_true'] at hk
  exact hk

/-- MatrixProducts, MMA: every format, with octets 1 to 3 active and octet 0 skipped. -/
theorem witness_MatrixFloat : ∀ p ∈ mmaTable, ∃ (s : State) (c : Cur) (o : MmaOps), (p.1 o).wf = true ∧ Ready s c 1 o.cf ∧
    MmaOk c o p.2.1 p.2.1 p.2.2.1 .f32 p.2.2.2 := by
  intro p hp
  simp only [mmaTable, List.mem_cons, List.not_mem_nil, or_false] at hp
  rcases hp with rfl | rfl | rfl | rfl | rfl | rfl | rfl
  · exact ⟨tiled .f16x2 .f16x2 0xFFFFFF00 (full 16), _, ⟨2, vr 32, vr 64, 20, none, .none⟩, by decide,
      ready_of _ 1 .none (by decide +kernel),
      mma_of (by decide +kernel) rfl rfl (by decide +kernel) (by decide +kernel) (.inr ⟨rfl, rfl⟩) (by decide +kernel) (octets_all (by decide +kernel))⟩
  · exact ⟨tiled .bf16x2 .bf16x2 0xFFFFFF00 (full 16), _, ⟨1, vr 32, vr 64, 20, none, .none⟩, by decide,
      ready_of _ 1 .none (by decide +kernel),
      mma_of (by decide +kernel) rfl rfl (by decide +kernel) (by decide +kernel) (.inr ⟨rfl, rfl⟩) (by decide +kernel) (octets_all (by decide +kernel))⟩
  · exact ⟨tiled .e4m3x4 .e4m3x4 0xFFFFFFFF (full 32), _, ⟨2, vr 32, vr 64, 20, none, .none⟩, by decide,
      ready_of _ 1 .none (by decide +kernel),
      mma_of (by decide +kernel) rfl rfl (by decide +kernel) (by decide +kernel) (.inr ⟨rfl, rfl⟩) (by decide +kernel) (octets_all (by decide +kernel))⟩
  · exact ⟨tiled .e5m2x4 .e5m2x4 0xFFFFFFFF (full 32), _, ⟨2, vr 32, vr 64, 20, none, .none⟩, by decide,
      ready_of _ 1 .none (by decide +kernel),
      mma_of (by decide +kernel) rfl rfl (by decide +kernel) (by decide +kernel) (.inr ⟨rfl, rfl⟩) (by decide +kernel) (octets_all (by decide +kernel))⟩
  · exact ⟨tiled .e4m3x4 .e4m3x4 0xFFFFFFFF (full 32), _, ⟨2, vr 32, vr 64, 20, some (vr 9), .none⟩, by decide,
      ready_of _ 1 .none (by decide +kernel),
      mma_of (by decide +kernel) rfl rfl (by decide +kernel) (by decide +kernel) (.inl rfl) (by decide +kernel) (octets_all (by decide +kernel))⟩
  · exact ⟨tiled .e5m2x4 .e5m2x4 0xFFFFFFFF (full 32), _, ⟨2, vr 32, vr 64, 20, some (vr 9), .none⟩, by decide,
      ready_of _ 1 .none (by decide +kernel),
      mma_of (by decide +kernel) rfl rfl (by decide +kernel) (by decide +kernel) (.inl rfl) (by decide +kernel) (octets_all (by decide +kernel))⟩
  · exact ⟨tiled .e2m1x8 .e2m1x8 0xFFFFFFFF (full 64), _, ⟨2, vr 32, vr 64, 20, some (vr 9), .none⟩, by decide,
      ready_of _ 1 .none (by decide +kernel),
      mma_of (by decide +kernel) rfl rfl (by decide +kernel) (by decide +kernel) (.inl rfl) (by decide +kernel) (octets_all (by decide +kernel))⟩

/-- MatrixFloat leaves out scale codes of 254 under E2M1: none of these is one. -/
theorem witness_e2m1 : ∃ (s : State) (c : Cur) (o : MmaOps), (Instr.mmaMxe2m1 o).wf = true ∧ Ready s c 1 o.cf ∧
    MmaOk c o .e2m1x8 .e2m1x8 64 .f32 true ∧ ∀ i, i < 32 → ∀ j, j < 32 → ∀ k, k < 64 → sclA c o i k ≠ 254 ∧ sclB c o j k ≠ 254 := by
  refine ⟨tiled .e2m1x8 .e2m1x8 0xFFFFFFFF (full 64), _, ⟨2, vr 32, vr 64, 20, some (vr 9), .none⟩, by decide,
      ready_of _ 1 .none (by decide +kernel),
      mma_of (by decide +kernel) rfl rfl (by decide +kernel) (by decide +kernel) (.inl rfl) (by decide +kernel) (octets_all (by decide +kernel)), ?_⟩
  intro i hi j hj k hk
  have hl : ∀ l, l < 32 → lane (seen (tiled .e2m1x8 .e2m1x8 0xFFFFFFFF (full 64))) (vr 9) l = 0 := by decide +kernel
  simp only [sclA, sclB, hl i hi, hl j hj]
  constructor <;> split <;> simp [elem]

/-- MatrixProducts, integer and ternary: a T2 register with no reserved code, and one with it at a consumed place. -/
theorem witness_MatrixInteger : ∀ p ∈ mmaiTable, ∃ (s : State) (c : Cur) (o : MmaOps), (p.1 o).wf = true ∧ Ready s c 1 o.cf ∧
    MmaOk c o p.2.1 p.2.2.1 p.2.2.2 .i32 false ∧ depthIn c o 0 = true ∧ isComputed c o 0 0 = true ∧
      (matB c p.2.2.1 p.2.2.2 o.b 0 0).toNat = 0 := by
  intro p hp
  simp only [mmaiTable, List.mem_cons, List.not_mem_nil, or_false] at hp
  rcases hp with rfl | rfl | rfl | rfl | rfl
  · exact ⟨tiled .i8x4 .i8x4 0xFFFFFFFF (full 32), _, ⟨3, vr 32, vr 64, 20, none, .none⟩, by decide,
      ready_of _ 1 .none (by decide +kernel),
      mma_of (by decide +kernel) rfl rfl (by decide +kernel) (by decide +kernel) (.inr ⟨rfl, rfl⟩) (by decide +kernel) (octets_all (by decide +kernel)),
      by decide +kernel, by decide +kernel, by decide +kernel⟩
  · exact ⟨tiled .u8x4 .i8x4 0xFFFFFFFF (full 32), _, ⟨3, vr 32, vr 64, 20, none, .none⟩, by decide,
      ready_of _ 1 .none (by decide +kernel),
      mma_of (by decide +kernel) rfl rfl (by decide +kernel) (by decide +kernel) (.inr ⟨rfl, rfl⟩) (by decide +kernel) (octets_all (by decide +kernel)),
      by decide +kernel, by decide +kernel, by decide +kernel⟩
  · exact ⟨tiled .i4x8 .i4x8 0xFFFFFFFF (full 64), _, ⟨3, vr 32, vr 64, 20, none, .none⟩, by decide,
      ready_of _ 1 .none (by decide +kernel),
      mma_of (by decide +kernel) rfl rfl (by decide +kernel) (by decide +kernel) (.inr ⟨rfl, rfl⟩) (by decide +kernel) (octets_all (by decide +kernel)),
      by decide +kernel, by decide +kernel, by decide +kernel⟩
  · exact ⟨tiled .i8x4 .t2x16 0xFFFFFFFF (full 64), _, ⟨3, vr 32, vr 64, 20, none, .none⟩, by decide,
      ready_of _ 1 .none (by decide +kernel),
      mma_of (by decide +kernel) rfl rfl (by decide +kernel) (by decide +kernel) (.inr ⟨rfl, rfl⟩) (by decide +kernel) (octets_all (by decide +kernel)),
      by decide +kernel, by decide +kernel, by decide +kernel⟩
  · exact ⟨tiled .u8x4 .t2x16 0xFFFFFFFF (full 64), _, ⟨3, vr 32, vr 64, 20, none, .none⟩, by decide,
      ready_of _ 1 .none (by decide +kernel),
      mma_of (by decide +kernel) rfl rfl (by decide +kernel) (by decide +kernel) (.inr ⟨rfl, rfl⟩) (by decide +kernel) (octets_all (by decide +kernel)),
      by decide +kernel, by decide +kernel, by decide +kernel⟩

/-- Tiles: ZERO and LIVE tiles of both tags, a run of eight registers, and both orders of the limits of ACVT.CLAMP. -/
theorem witness_TileInstructions : ∃ (s : State) (c : Cur), Ready s c 1 .none ∧ (∀ t ∈ [(0 : TReg), 1, 2, 3], TileOk c t) ∧
    RunOk c (vr 32) (256 / c.width) ∧ (∀ t ∈ [(1 : TReg), 2, 3], Readable (c.tile t) (fun _ => true)) ∧
      tileTag (c.tile 1) = .f32 ∧ tileTag (c.tile 2) = .f32 ∧ tileTag (c.tile 3) = .i32 ∧ c.width ∈ [16, 32, 64] ∧
      (∀ r ∈ tileRun c (vr 32), (c.vr r).tag = .f32) ∧ (∀ r ∈ tileRun c (vr 64), (c.vr r).tag = .i32) ∧
      ((c.sr 22).extractLsb' 0 32).toInt ≤ ((c.sr 22).extractLsb' 32 32).toInt ∧
      ((c.sr 23).extractLsb' 32 32).toInt < ((c.sr 23).extractLsb' 0 32).toInt ∧
      fF32.read ((c.sr 21).extractLsb' 0 32).toNat ≠ .nan ∧ fF32.read ((c.sr 21).extractLsb' 32 32).toNat ≠ .nan ∧
      (fF32.read ((c.sr 21).extractLsb' 0 32).toNat).cmp (fF32.read ((c.sr 21).extractLsb' 32 32).toNat) ≠ .gt := by
  have hi : (seen (tiled .f32 .i32 0xFFFFFFFF 0)).t.chunk.st ≠ .opened := by decide +kernel
  refine ⟨tiled .f32 .i32 0xFFFFFFFF 0, _, ready_of _ 1 .none (by decide +kernel), ?_, ?_, ?_, by decide +kernel⟩
  · intro t ht
    refine ⟨?_, ?_, .inl hi, .inl hi⟩ <;>
    · simp only [List.mem_cons, List.not_mem_nil, or_false] at ht
      rcases ht with rfl | rfl | rfl | rfl <;> decide +kernel
  · intro k hk
    obtain ⟨r, h1, h2, -⟩ := run_of (c := seen (tiled .f32 .i32 0xFFFFFFFF 0)) (a := 32) (n := 8) (t := .f32) (by decide +kernel) k
      (by rw [show (seen (tiled .f32 .i32 0xFFFFFFFF 0)).width = 32 by decide +kernel] at hk; exact hk)
    exact ⟨r, h1, h2⟩
  · intro t ht
    unfold Readable
    simp only [List.mem_cons, List.not_mem_nil, or_false] at ht
    rcases ht with rfl | rfl | rfl <;> decide +kernel

/-- Tiles, ALD and AST: 16 by 16 elements of four bytes with a pitch of 64. -/
theorem witness_TileMemory : ∃ (s : State) (c : Cur) (o : TileMemOps), (Instr.ald o).wf = true ∧ (Instr.ast o).wf = true ∧
    Ready s c 1 o.cf ∧ TileOk c o.tile ∧ Fits c ∧ TileDescOk c o ∧
      Readable (c.tile o.tile) (fun g => g == if o.f = .i32 then Tag.i32 else .f32) ∧
      (∀ i j, i < tileRows c o → j < tileCols c o → ∃ lf, tileAcc s c o XReq.load true i j = .ok lf ∧ lf.pol = 0) ∧
      (∀ i j, i < tileRows c o → j < tileCols c o → ∃ lf, tileAcc s c o XReq.store false i j = .ok lf ∧ lf.pol = 0) := by
  have hi : (seen (tiled .f32 .i32 0xFFFFFFFF 0)).t.chunk.st ≠ .opened := by decide +kernel
  let o : TileMemOps := ⟨.f32, 2, 3, 0, .none, 0⟩
  have hr : tileRows (seen (tiled .f32 .i32 0xFFFFFFFF 0)) o = 16 := by decide +kernel
  have hc : tileCols (seen (tiled .f32 .i32 0xFFFFFFFF 0)) o = 16 := by decide +kernel
  have ha : ∀ i j, i < 16 → j < 16 → tileEa (seen (tiled .f32 .i32 0xFFFFFFFF 0)) o i j + 4 ≤ 2 ^ 30 ∧
      tileEa (seen (tiled .f32 .i32 0xFFFFFFFF 0)) o i j % 4 = 0 := by
    intro i j h1 h2
    have h : ((List.range 16).all (fun i => (List.range 16).all (fun j =>
        decide (tileEa (seen (tiled .f32 .i32 0xFFFFFFFF 0)) o i j + 4 ≤ 2 ^ 30) &&
          tileEa (seen (tiled .f32 .i32 0xFFFFFFFF 0)) o i j % 4 == 0))) = true := by decide +kernel
    have h := (List.all_eq_true.1 ((List.all_eq_true.1 h) i (List.mem_range.2 h1))) j (List.mem_range.2 h2)
    simpa using h
  have acc : ∀ (q : XReq) (rd : Bool) (i j : Nat), i < 16 → j < 16 →
      ∃ lf, tileAcc (tiled .f32 .i32 0xFFFFFFFF 0) (seen (tiled .f32 .i32 0xFFFFFFFF 0)) o q rd i j = .ok lf ∧ lf.pol = 0 :=
    fun q rd i j h1 h2 => low_reaches (by decide +kernel) (ha i j h1 h2).1 (ha i j h1 h2).2 q rd
  refine ⟨tiled .f32 .i32 0xFFFFFFFF 0, _, o, by decide, by decide, ready_of _ 1 .none (by decide +kernel),
    ⟨by decide +kernel, by decide +kernel, .inl hi, .inl hi⟩, .inl hi, ⟨by decide +kernel, by decide +kernel, by decide +kernel⟩,
    by unfold Readable; decide +kernel, ?_, ?_⟩
  · rw [hr, hc]; exact acc XReq.load true
  · rw [hr, hc]; exact acc XReq.store false

/-! Pages that are not WB. -/

/-- The second GiB is a UC page, at which s3 points; s5 describes a tile of two rows and columns there. -/
def ucState : State :=
  dress { based with mem := cellsPut based.mem 0x3008 (bytesOf 8 0x4000005F) }
    (fun c =>
      let c := scalars [(3, 0x40000000), (5, 0x40000000), (6, 0x4000000042)] c
      { c with warp := { c.warp with tiles := [Tile.undef, { Tile.undef with st := .live, tag := .f32 }] ++ List.replicate 254 Tile.undef } })

def ucTile : TileMemOps := ⟨.f32, 1, 5, 0, .none, 0⟩
def ucSpan : SpanOps := ⟨31, none, 3, 0, g0, 0⟩

/-- UncachedAccess: each lane in a UC page, in every width that the other witnesses read, a scalar, a tile and a span. -/
theorem witness_UncachedAccess : ∃ (s : State) (c : Cur) (o x : MemOps), o.wf = true ∧ x.wf = true ∧ Ready s c 1 o.cf ∧
    Ready s c 1 x.cf ∧ Ready s c 1 .none ∧ RunOk c o.d o.w.regs ∧ VaddrOk c o.va ∧ RunOk c x.d x.w.regs ∧ VaddrOk c x.va ∧ DataOk c x ∧
      Alone c ∧ Quiet s c ∧
      (∀ l, inLanes c (c.enabledH o.g) l → hasLane c.em l = true → (laneAcc s c o XReq.load true l).isOk = true) ∧
      (∀ l, inLanes c (c.enabled x.g) l → (laneAcc s c x XReq.store false l).isOk = true) ∧
      inLanes c (c.enabledH o.g) 0 ∧ laneAcc s c o XReq.load true 0 = .ok ⟨0x40000000, 1, 0x4000005F, 3⟩ ∧
      inLanes c (c.enabled x.g) 0 ∧ laneAcc s c x XReq.store false 0 = .ok ⟨0x40000000, 1, 0x4000005F, 3⟩ ∧
      s.gAccess c XReq.load true (eaOf c 3 none 0 8 0) 8 8 = .ok ⟨0x40000000, 1, 0x4000005F, 3⟩ ∧
      s.gAccess c XReq.store false (eaOf c 3 none 0 8 0) 8 8 = .ok ⟨0x40000000, 1, 0x4000005F, 3⟩ ∧
      TileOk c ucTile.tile ∧ TileDescOk c ucTile ∧ Readable (c.tile ucTile.tile) (fun g => g == .f32) ∧ tileRows c ucTile = 2 ∧
      tileCols c ucTile = 2 ∧ (∀ i < 2, ∀ j < 2, (tileAcc s c ucTile XReq.load true i j).isOk = true ∧
        (tileAcc s c ucTile XReq.store false i j).isOk = true) ∧
      tileAcc s c ucTile XReq.load true 0 0 = .ok ⟨0x40000000, 1, 0x4000005F, 3⟩ ∧
      tileAcc s c ucTile XReq.store false 0 0 = .ok ⟨0x40000000, 1, 0x4000005F, 3⟩ ∧
      (∀ l, inLanes c (c.enabled ucSpan.g) l → spanEa c ucSpan l % 4 = 0 ∧ spanEa c ucSpan l < 2 ^ 57 ∧
        spanEa c ucSpan l % 128 / 4 + (ucSpan.n1.val + 1) ≤ 32 ∧
        ∀ q ∈ [XReq.load, XReq.store], s.translate c.ctx (spanEa c ucSpan l) q = .ok ⟨0x40000000, 1, 0x4000005F, 3⟩) := by
  have hr : ∀ i : Fin 256, (seen ucState).regOk (.v i) = true := by decide +kernel
  have hv : ∀ d : Fin 256, RunOk (seen ucState) (.v d) 1 := by
    intro d k hk
    obtain rfl : k = 0 := by omega
    exact ⟨.v d, by simp [vplus], hr d⟩
  have va : VaddrOk (seen ucState) (some (vr 1)) := by
    intro r h
    obtain rfl : vr 1 = r := by simpa using h
    exact ⟨hr 1, by decide +kernel⟩
  refine ⟨ucState, seen ucState, byteOps, { byteOps with d := vr 2 }, by decide, by decide, ready_of _ 1 _ (by decide +kernel),
    ready_of _ 1 _ (by decide +kernel), ready_of _ 1 _ (by decide +kernel), hv _, va, hv _, va, by unfold DataOk; decide +kernel,
    alone_of (by decide +kernel), quiet_of _ (by decide +kernel) (by decide +kernel), fun l hl _ => ?_, fun l hl => ?_,
    by unfold inLanes; decide +kernel, by decide +kernel, by unfold inLanes; decide +kernel, by decide +kernel, by decide +kernel,
    by decide +kernel, ⟨by decide +kernel, by decide +kernel, .inl (by decide +kernel), .inl (by decide +kernel)⟩,
    by unfold TileDescOk; decide +kernel, by unfold Readable; decide +kernel, by decide +kernel, by decide +kernel, by decide +kernel,
    by decide +kernel, by decide +kernel, fun l hl => ?_⟩
  · exact lanes_all (p := fun l => (laneAcc ucState (seen ucState) byteOps XReq.load true l).isOk) (by decide +kernel) l hl
  · exact lanes_all (p := fun l => (laneAcc ucState (seen ucState) { byteOps with d := vr 2 } XReq.store false l).isOk)
      (by decide +kernel) l hl
  · have h := lanes_all (p := fun l => decide (spanEa (seen ucState) ucSpan l = 0x40000000)) (by decide +kernel) l hl
    rw [of_decide_eq_true h]
    decide +kernel

end

end Sys2Proof.Tests
end

