-- ==== Sys2Proof/Tests/WitnessE.lean ====
section
/-!
SUPPORT. Witnesses of the statements about partial octets and ternary codes, cursors, append runs and the packed stream.
-/

set_option Elab.async false

namespace Sys2Proof.Tests

open Sys2Proof Sys2Proof.Machine Sys2Proof.Rules

noncomputable section

/-! What is left of the matrix instructions. -/

/-- EM holds the first four lanes; and the strand with EM empty. -/
def cutState (t : Tag) (kk : Nat) : State := tiled t t 0xF (full kk)
def cut (t : Tag) (kk : Nat) : Cur :=
  { seen (cutState t kk) with t := { (seen (cutState t kk)).t with core := { (seen (cutState t kk)).t.core with em := 0 } } }

theorem cut_octets {t : Tag} {kk : Nat} (hw : 0 < (seen (cutState t kk)).width / 8)
    (h0 : hasLane (seen (cutState t kk)).em 0 = true) (h4 : hasLane (seen (cutState t kk)).em 4 = false) :
    ¬ OctetsOk (seen (cutState t kk)) := by
  intro h
  rcases h 0 hw with h | h
  · rw [h 4 (by decide)] at h4; exact absurd h4 (by decide)
  · rw [h 0 (by decide)] at h0; exact absurd h0 (by decide)

/-- PartialOctets: EM holds four lanes of octet 0, and everything else of MMA is in order. -/
theorem witness_PartialOctets : ∀ p ∈ mmaTable, ∃ (s : State) (c : Cur) (o : MmaOps), (p.1 o).wf = true ∧ Ready s c 1 o.cf ∧
    MmaOk { c with t := { c.t with core := { c.t.core with em := 0 } } } o p.2.1 p.2.1 p.2.2.1 .f32 p.2.2.2 ∧ ¬ OctetsOk c := by
  intro p hp
  simp only [mmaTable, List.mem_cons, List.not_mem_nil, or_false] at hp
  rcases hp with rfl | rfl | rfl | rfl | rfl | rfl | rfl
  · exact ⟨cutState .f16x2 16, _, ⟨2, vr 32, vr 64, 20, none, .none⟩, by decide, ready_of _ 1 .none (by decide +kernel),
      mma_of (c := cut .f16x2 16) (by decide +kernel) rfl rfl (by decide +kernel) (by decide +kernel) (.inr ⟨rfl, rfl⟩) (by decide +kernel)
        (octets_all (by decide +kernel)), cut_octets (by decide +kernel) (by decide +kernel) (by decide +kernel)⟩
  · exact ⟨cutState .bf16x2 16, _, ⟨2, vr 32, vr 64, 20, none, .none⟩, by decide, ready_of _ 1 .none (by decide +kernel),
      mma_of (c := cut .bf16x2 16) (by decide +kernel) rfl rfl (by decide +kernel) (by decide +kernel) (.inr ⟨rfl, rfl⟩) (by decide +kernel)
        (octets_all (by decide +kernel)), cut_octets (by decide +kernel) (by decide +kernel) (by decide +kernel)⟩
  · exact ⟨cutState .e4m3x4 32, _, ⟨2, vr 32, vr 64, 20, none, .none⟩, by decide, ready_of _ 1 .none (by decide +kernel),
      mma_of (c := cut .e4m3x4 32) (by decide +kernel) rfl rfl (by decide +kernel) (by decide +kernel) (.inr ⟨rfl, rfl⟩) (by decide +kernel)
        (octets_all (by decide +kernel)), cut_octets (by decide +kernel) (by decide +kernel) (by decide +kernel)⟩
  · exact ⟨cutState .e5m2x4 32, _, ⟨2, vr 32, vr 64, 20, none, .none⟩, by decide, ready_of _ 1 .none (by decide +kernel),
      mma_of (c := cut .e5m2x4 32) (by decide +kernel) rfl rfl (by decide +kernel) (by decide +kernel) (.inr ⟨rfl, rfl⟩) (by decide +kernel)
        (octets_all (by decide +kernel)), cut_octets (by decide +kernel) (by decide +kernel) (by decide +kernel)⟩
  · exact ⟨cutState .e4m3x4 32, _, ⟨2, vr 32, vr 64, 20, some (vr 9), .none⟩, by decide, ready_of _ 1 .none (by decide +kernel),
      mma_of (c := cut .e4m3x4 32) (by decide +kernel) rfl rfl (by decide +kernel) (by decide +kernel) (.inl rfl) (by decide +kernel)
        (octets_all (by decide +kernel)), cut_octets (by decide +kernel) (by decide +kernel) (by decide +kernel)⟩
  · exact ⟨cutState .e5m2x4 32, _, ⟨2, vr 32, vr 64, 20, some (vr 9), .none⟩, by decide, ready_of _ 1 .none (by decide +kernel),
      mma_of (c := cut .e5m2x4 32) (by decide +kernel) rfl rfl (by decide +kernel) (by decide +kernel) (.inl rfl) (by decide +kernel)
        (octets_all (by decide +kernel)), cut_octets (by decide +kernel) (by decide +kernel) (by decide +kernel)⟩
  · exact ⟨cutState .e2m1x8 64, _, ⟨2, vr 32, vr 64, 20, some (vr 9), .none⟩, by decide, ready_of _ 1 .none (by decide +kernel),
      mma_of (c := cut .e2m1x8 64) (by decide +kernel) rfl rfl (by decide +kernel) (by decide +kernel) (.inl rfl) (by decide +kernel)
        (octets_all (by decide +kernel)), cut_octets (by decide +kernel) (by decide +kernel) (by decide +kernel)⟩

/-- MatrixInteger, a reserved ternary code that is consumed: the lowest element of B is the code 10. -/
def coded : State :=
  dress (tiled .i8x4 .t2x16 0xFFFFFFFF (full 64)) (fun c => { c with warp := { c.warp with
    vregs := c.warp.vregs.map (fun r => if r.tag == .t2x16 then { r with lanes := List.replicate 32 2 } else r) } })

theorem witness_ternaryCode : ∃ (s : State) (c : Cur) (o : MmaOps), (Instr.mmatI8t2 o).wf = true ∧ Ready s c 1 o.cf ∧
    MmaOk c o .i8x4 .t2x16 64 .i32 false ∧ depthIn c o 0 = true ∧ isComputed c o 0 0 = true ∧
      (matB c .t2x16 64 o.b 0 0).toNat = 2 :=
  ⟨coded, _, ⟨3, vr 32, vr 64, 20, none, .none⟩, by decide, ready_of _ 1 .none (by decide +kernel),
    mma_of (by decide +kernel) rfl rfl (by decide +kernel) (by decide +kernel) (.inr ⟨rfl, rfl⟩) (by decide +kernel)
      (octets_all (by decide +kernel)), by decide +kernel, by decide +kernel, by decide +kernel⟩

/-! Cursors. A DENSE level of three elements at 0x40000 over a COMPRESSED leaf at 0x40040 whose fibres are [0, 2), [2, 2) and
[2, 5) of the coordinates 1, 4, 0, 3, 9; then leaves with one fibre each: COMPRESSED 3 and 9, BITMAP 1, 5, 63, 64 and 67, HASHED 3,
9 and 40 in four slots, RUNLENGTH 2 to 4 and 10 to 11, BLOCK of the blocks 0 and 2 of four, an unordered COMPRESSED 7, 0, 3, and
a short BITMAP 1 and 3. -/

def dDense : LDesc := ldescOf 0x40000 (0x40 + 2 ^ 32 * 3)
def dLeaf : LDesc := ldescOf 0x40040 (0x161 + 2 ^ 32 * 10 + 2 ^ 64 * 0x42000 + 2 ^ 128 * 0x41000 + 2 ^ 256 * 0x43000 + 2 ^ 320 * 3)
def dOther : LDesc := ldescOf 0x40080 (0x161 + 2 ^ 32 * 10 + 2 ^ 64 * 0x42100 + 2 ^ 128 * 0x41100 + 2 ^ 256 * 0x43000 + 2 ^ 320 * 3)
def dBitmap : LDesc := ldescOf 0x400C0 (0x162 + 2 ^ 32 * 70 + 2 ^ 64 * 0x42200 + 2 ^ 192 * 0x44800 + 2 ^ 256 * 0x43000 + 2 ^ 320 * 3)
def dBits : LDesc := ldescOf 0x40200 (0x162 + 2 ^ 32 * 5 + 2 ^ 64 * 0x42200 + 2 ^ 192 * 0x44A40 + 2 ^ 256 * 0x43000 + 2 ^ 320 * 3)
def dHash : LDesc := ldescOf 0x40100 (0x123 + 2 ^ 32 * 100 + 2 ^ 192 * 0x44900 + 2 ^ 256 * 0x43000 + 2 ^ 320 * 3 + 2 ^ 328 * 2)
def dRun : LDesc := ldescOf 0x40140 (0x164 + 2 ^ 32 * 50 + 2 ^ 64 * 0x42300 + 2 ^ 192 * 0x44A00 + 2 ^ 256 * 0x43000 + 2 ^ 320 * 3)
def dBlock : LDesc :=
  ldescOf 0x40180 (0x165 + 2 ^ 16 * 4 + 2 ^ 32 * 10 + 2 ^ 64 * 0x42400 + 2 ^ 128 * 0x41200 + 2 ^ 256 * 0x43000 + 2 ^ 320 * 3)
def dLoose : LDesc := ldescOf 0x401C0 (0x121 + 2 ^ 32 * 10 + 2 ^ 64 * 0x42500 + 2 ^ 128 * 0x41300 + 2 ^ 256 * 0x43000 + 2 ^ 320 * 3)

/-- The memory of `plain` with those levels and their arrays. -/
def levelMem : List Host.Cell :=
  [(0x1000, 1), (0x1001, 32), (0x2000, 1), (0x2001, 48), (0x3000, 31), (0x10004, 16), (0x10007, 241), (0x20004, 16), (0x20007,
   241), (0x40000, 64), (0x40004, 3), (0x40040, 97), (0x40041, 1), (0x40044, 10), (0x40049, 32), (0x4004A, 4), (0x40051, 16),
   (0x40052, 4), (0x40061, 48), (0x40062, 4), (0x40068, 3), (0x40080, 97), (0x40081, 1), (0x40084, 10)] ++
  [(0x40089, 33), (0x4008A, 4), (0x40091, 17), (0x40092, 4), (0x400A1, 48), (0x400A2, 4), (0x400A8, 3), (0x400C0, 98),
   (0x400C1, 1), (0x400C4, 70), (0x400C9, 34), (0x400CA, 4), (0x400D9, 72), (0x400DA, 4), (0x400E1, 48), (0x400E2, 4),
   (0x400E8, 3), (0x40100, 35), (0x40101, 1), (0x40104, 100), (0x40119, 73), (0x4011A, 4), (0x40121, 48), (0x40122, 4)] ++
  [(0x40128, 3), (0x40129, 2), (0x40140, 100), (0x40141, 1), (0x40144, 50), (0x40149, 35), (0x4014A, 4), (0x40159, 74),
   (0x4015A, 4), (0x40161, 48), (0x40162, 4), (0x40168, 3), (0x40180, 101), (0x40181, 1), (0x40182, 4), (0x40184, 10),
   (0x40189, 36), (0x4018A, 4), (0x40191, 18), (0x40192, 4), (0x401A1, 48), (0x401A2, 4), (0x401A8, 3), (0x401C0, 33)] ++
  [(0x401C1, 1), (0x401C4, 10), (0x401C9, 37), (0x401CA, 4), (0x401D1, 19), (0x401D2, 4), (0x401E1, 48), (0x401E2, 4),
   (0x401E8, 3), (0x40200, 98), (0x40201, 1), (0x40204, 5), (0x40209, 34), (0x4020A, 4), (0x40218, 64), (0x40219, 74),
   (0x4021A, 4), (0x40221, 48), (0x40222, 4), (0x40228, 3), (0x41000, 1), (0x41002, 4), (0x41006, 3), (0x41008, 9)] ++
  [(0x41100, 3), (0x41102, 9), (0x41202, 2), (0x41300, 7), (0x41304, 3), (0x42004, 2), (0x42008, 2), (0x4200C, 5), (0x42104,
   2), (0x42204, 3), (0x42304, 2), (0x42404, 2), (0x42504, 3), (0x44800, 34), (0x44807, 128), (0x44808, 9), (0x44900, 40),
   (0x44904, 5), (0x44908, 255), (0x44909, 255), (0x4490A, 255), (0x4490B, 255), (0x44910, 9), (0x44914, 2)] ++
  [(0x44918, 3), (0x4491C, 6), (0x44A00, 2), (0x44A04, 3), (0x44A0C, 10), (0x44A10, 2), (0x44A14, 7), (0x44A40, 10)]

/-- The state with those levels; s8 and s9 are the operands, and the cursors are as given. -/
def levels (a p : Nat) (ks : List (Nat × Cursor)) : State :=
  let s := dress plain (fun c => ks.foldl (fun c k => c.setK (Fin.ofNat 16 k.1) k.2)
    (scalars [(8, a), (9, p), (10, 0x44000), (11, 0x45000), (12, 64), (13, 128)] c))
  { s with mem := levelMem }

/-- Table 19.4 over any reading of numbers: the elements at an index, and those of a fibre from an index on. -/
def entryBy (num : Nat → Nat → Nat) (d : LDesc) (lo i : Nat) : List Elem :=
  let crd := num (d.crda + d.cw * i) d.cw
  let slot := num (d.auxa + 8 * i) 8
  let run := fun k => num (d.auxa + 12 * i + k) 4
  match d.kind with
  | 0 => [⟨i, 0, i - lo, i⟩]
  | 1 => [⟨i, 0, crd, i⟩]
  | 2 =>
    let w := num (d.auxa + 8 * (i / 64)) 8
    if w.testBit (i % 64) then
      [⟨i, 0, i - lo, num (d.posa + d.pw * (i / 64)) d.pw + ((List.range (i % 64)).filter w.testBit).length⟩]
    else []
  | 3 => if slot % 2 ^ 32 = 0xFFFFFFFF then [] else [⟨i, 0, slot % 2 ^ 32, slot / 2 ^ 32⟩]
  | 4 => (List.range (run 4)).map (fun u => ⟨i, u, run 0 + u, run 8⟩)
  | _ => ((List.range d.blksz).filter (fun u => crd * d.blksz + u < d.ext)).map (fun u =>
      ⟨i, u, crd * d.blksz + u, i * d.blksz + u⟩)

def fibreBy (num : Nat → Nat → Nat) (d : LDesc) (lo hi i : Nat) : List Elem :=
  (List.range (hi - i)).flatMap (fun j => entryBy num d lo (i + j))

theorem entryOf_by (s : State) (c : Cur) (d : LDesc) (lo i : Nat) : entryOf s c d lo i = entryBy (numberAtVa s c) d lo i := rfl
theorem fibreFrom_by (s : State) (c : Cur) (d : LDesc) (lo hi i : Nat) : fibreFrom s c d lo hi i = fibreBy (numberAtVa s c) d lo hi i :=
  rfl

/-- Arrays in the first GiB, aligned. -/
def arraysLow (d : LDesc) : Bool :=
  decide (d.crda < 2 ^ 29 ∧ d.posa < 2 ^ 29 ∧ d.auxa < 2 ^ 29 ∧ d.crda % d.cw = 0 ∧ d.posa % d.pw = 0 ∧ d.auxa % 8 = 0)

/-- A level in the first GiB. -/
def levelLow (m : List Host.Cell) (d : LDesc) : Bool :=
  d == ldescOf d.addr (numLow m d.addr 64) && d.ok && decide (d.addr % 64 = 0 ∧ 0 < d.addr ∧ d.addr < 2 ^ 29)

theorem cw_pos (d : LDesc) : d.cw ≤ 4 ∧ d.pw ≤ 8 := by unfold LDesc.cw LDesc.pw; constructor <;> split <;> omega

theorem walk_low {s : State} (hs : isLow s = true) {va n : Nat} (h : va + n ≤ 2 ^ 30) (hn : va % n = 0) : Walkable s (seen s) va n :=
  ⟨_, low_access hs h hn XReq.walker true⟩

theorem level_of {s : State} (hs : isLow s = true) {d : LDesc} (h : levelLow s.mem d = true) : Level s (seen s) d := by
  simp only [levelLow, Bool.and_eq_true, beq_iff_eq, decide_eq_true_eq] at h
  obtain ⟨⟨h1, h2⟩, h4, h5, h6⟩ := h
  exact ⟨walk_low hs (by omega) h4, by rw [low_number hs (by omega)]; exact h1, h2, h4, h5, by omega⟩

/-- Where the arrays of a level are read for an index below 2^16. -/
structure Places (d : LDesc) (i : Nat) : Prop where
  crd  : d.crda + d.cw * i + d.cw ≤ 2 ^ 30 ∧ (d.crda + d.cw * i) % d.cw = 0
  pos  : d.posa + d.pw * i + d.pw ≤ 2 ^ 30 ∧ (d.posa + d.pw * i) % d.pw = 0
  rank : d.posa + d.pw * (i / 64) + d.pw ≤ 2 ^ 30 ∧ (d.posa + d.pw * (i / 64)) % d.pw = 0
  bits : d.auxa + 8 * (i / 64) + 8 ≤ 2 ^ 30 ∧ (d.auxa + 8 * (i / 64)) % 8 = 0
  slot : d.auxa + 8 * i + 8 ≤ 2 ^ 30 ∧ (d.auxa + 8 * i) % 8 = 0
  run  : ∀ k, k ≤ 8 → k % 4 = 0 → d.auxa + 12 * i + k + 4 ≤ 2 ^ 30 ∧ (d.auxa + 12 * i + k) % 4 = 0

theorem places_of {d : LDesc} (h : arraysLow d = true) {i : Nat} (hi : i ≤ 2 ^ 16) : Places d i := by
  simp only [arraysLow, decide_eq_true_eq] at h
  obtain ⟨h1, h2, h3, h4, h5, h6⟩ := h
  obtain ⟨c4, p8⟩ := cw_pos d
  have e1 : d.cw * i ≤ 4 * i := Nat.mul_le_mul_right i c4
  have e2 : d.pw * i ≤ 8 * i := Nat.mul_le_mul_right i p8
  have e3 : d.pw * (i / 64) ≤ 8 * (i / 64) := Nat.mul_le_mul_right _ p8
  refine ⟨⟨by omega, ?_⟩, ⟨by omega, ?_⟩, ⟨by omega, ?_⟩, ⟨by omega, by omega⟩, ⟨by omega, by omega⟩, fun k a b => ⟨by omega, by omega⟩⟩
  all_goals rw [Nat.add_mul_mod_self_left]; assumption

theorem entry_low {s : State} (hs : isLow s = true) {d : LDesc} (h : arraysLow d = true) (lo : Nat) {i : Nat} (hi : i ≤ 2 ^ 16) :
    entryOf s (seen s) d lo i = entryBy (numLow s.mem) d lo i := by
  have p := places_of h hi
  have r0 := low_number hs (p.run 0 (by decide) rfl).1
  have r4 := low_number hs (p.run 4 (by decide) rfl).1
  have r8 := low_number hs (p.run 8 (by decide) rfl).1
  rw [entryOf_by]
  unfold entryBy
  simp only [low_number hs p.crd.1, low_number hs p.rank.1, low_number hs p.bits.1, low_number hs p.slot.1, r0, r4, r8]

theorem fibre_low {s : State} (hs : isLow s = true) {d : LDesc} (h : arraysLow d = true) (lo : Nat) {hi : Nat} (hh : hi ≤ 2 ^ 16)
    (i : Nat) : fibreFrom s (seen s) d lo hi i = fibreBy (numLow s.mem) d lo hi i := by
  unfold fibreFrom fibreBy
  apply List.flatMap_congr
  intro j hj
  have := List.mem_range.1 hj
  exact entry_low hs h lo (by omega)

/-- What a run or a block must be, as a test. -/
def entryFit (m : List Host.Cell) (d : LDesc) (i : Nat) : Bool :=
  (d.kind != 4 || decide (numLow m (d.auxa + 12 * i + 4) 4 ≠ 0 ∧
    numLow m (d.auxa + 12 * i) 4 + numLow m (d.auxa + 12 * i + 4) 4 ≤ d.ext)) &&
  (d.kind != 5 || decide (numLow m (d.crda + d.cw * i) d.cw < (d.ext + d.blksz - 1) / d.blksz)) && decide (d.kind ≤ 5)

theorem entry_of {s : State} (hs : isLow s = true) {d : LDesc} (h : arraysLow d = true) {i : Nat} (hi : i ≤ 2 ^ 16)
    (hf : entryFit s.mem d i = true) : EntryOk s (seen s) d i := by
  have p := places_of h hi
  have r0 := p.run 0 (by decide) rfl
  have r4 := p.run 4 (by decide) rfl
  have r8 := p.run 8 (by decide) rfl
  simp only [entryFit, Bool.and_eq_true, Bool.or_eq_true, bne_iff_ne, decide_eq_true_eq] at hf
  obtain ⟨⟨f4, f5⟩, f6⟩ := hf
  have hk : d.kind = 0 ∨ d.kind = 1 ∨ d.kind = 2 ∨ d.kind = 3 ∨ d.kind = 4 ∨ d.kind = 5 := by omega
  rcases hk with hk | hk | hk | hk | hk | hk <;> simp only [EntryOk, hk]
  · exact walk_low hs p.crd.1 p.crd.2
  · exact ⟨walk_low hs p.bits.1 p.bits.2, walk_low hs p.rank.1 p.rank.2⟩
  · exact walk_low hs p.slot.1 p.slot.2
  · rw [low_number hs (show d.auxa + 12 * i + 4 ≤ 2 ^ 30 by omega), low_number hs r4.1]
    refine ⟨fun k hk => ?_, f4.resolve_left (by simp [hk])⟩
    simp only [List.mem_cons, List.not_mem_nil, or_false] at hk
    obtain rfl | rfl | rfl := hk
    · exact walk_low hs r0.1 r0.2
    · exact walk_low hs r4.1 r4.2
    · exact walk_low hs r8.1 r8.2
  · rw [low_number hs p.crd.1]
    exact ⟨walk_low hs p.crd.1 p.crd.2, f5.resolve_left (fun h => h hk)⟩

/-- A fibre of few elements that meets R363, as a test. -/
def fibreLow (m : List Host.Cell) (d : LDesc) (lo hi i : Nat) : Bool :=
  let es := fibreBy (numLow m) d lo hi i
  arraysLow d && decide (lo ≤ i ∧ i ≤ hi ∧ hi < 2 ^ 16) && (List.range hi).all (fun j => decide (j < i) || entryFit m d j) &&
    (d.kind != 2 || decide (hi ≤ i) || numLow m (d.auxa + 8 * ((hi - 1) / 64)) 8 < 2 ^ (hi - 64 * ((hi - 1) / 64))) &&
    es.all (fun e => decide (e.coord < d.ext ∧ e.pos < 0xFFFFFFFF)) &&
    (!d.ord || decide (es.Pairwise (fun x y => x.coord < y.coord)))

theorem fibre_of {s : State} (hs : isLow s = true) {d : LDesc} {lo hi i : Nat} (h : fibreLow s.mem d lo hi i = true) :
    FibreOk s (seen s) d lo hi i := by
  simp only [fibreLow, Bool.and_eq_true, decide_eq_true_eq] at h
  obtain ⟨⟨⟨⟨⟨h0, h1, h2, h3⟩, h4⟩, h5⟩, h6⟩, h7⟩ := h
  have ef := fibre_low hs h0 lo (show hi ≤ 2 ^ 16 by omega) i
  refine ⟨⟨h1, h2, by omega⟩, fun j a b => ?_, fun hk a j b e => ?_, fun e he => ?_, fun ho => ?_⟩
  · have h := List.all_eq_true.1 h4 j (List.mem_range.2 b)
    simp only [Bool.or_eq_true, decide_eq_true_eq] at h
    exact entry_of hs h0 (by omega) (h.resolve_left (by omega))
  · have p := places_of h0 (show hi - 1 ≤ 2 ^ 16 by omega)
    have hb : bitmapWord s (seen s) d (hi - 1) = numLow s.mem (d.auxa + 8 * ((hi - 1) / 64)) 8 := low_number hs p.bits.1
    rw [hb]
    simp only [Bool.or_eq_true, bne_iff_ne, decide_eq_true_eq] at h5
    have h5 := h5.resolve_left (fun x => x.elim (fun x => x hk) (fun x => by omega))
    exact Nat.testBit_lt_two_pow (Nat.lt_of_lt_of_le h5 (Nat.pow_le_pow_right (by decide) (by omega)))
  · rw [ef] at he
    simpa using List.all_eq_true.1 h6 e he
  · rw [ef]
    simpa [ho] using h7

/-- The bounds of a fibre over memory. -/
def boundsLow (m : List Host.Cell) (d : LDesc) (p : Nat) : Nat × Nat :=
  match d.kind with
  | 0 => (p * d.ext, p * d.ext + d.ext)
  | 2 => (64 * ((d.ext + 63) / 64) * p, 64 * ((d.ext + 63) / 64) * p + d.ext)
  | 3 => (2 ^ d.t * p, 2 ^ d.t * p + 2 ^ d.t)
  | _ => (numLow m (d.posa + d.pw * p) d.pw, numLow m (d.posa + d.pw * (p + 1)) d.pw)

/-- A parent whose fibre is sound, as a test. -/
def parentLow (m : List Host.Cell) (d : LDesc) (p : Nat) : Bool :=
  fibreLow m d (boundsLow m d p).1 (boundsLow m d p).2 (boundsLow m d p).1

theorem parent_of {s : State} (hs : isLow s = true) {d : LDesc} {p : Nat} (hp : p < 2 ^ 16) (h : parentLow s.mem d p = true) :
    ParentOk s (seen s) d p := by
  unfold parentLow at h
  have h0 : arraysLow d = true := by simp only [fibreLow, Bool.and_eq_true] at h; exact h.1.1.1.1.1
  have p0 := places_of h0 (show p ≤ 2 ^ 16 by omega)
  have p1 := places_of h0 (show p + 1 ≤ 2 ^ 16 by omega)
  have eb : boundsOf s (seen s) d p = boundsLow s.mem d p := by
    unfold boundsOf boundsLow
    rw [low_number hs p0.pos.1, low_number hs p1.pos.1] <;> rfl
  refine ⟨fun _ => ⟨walk_low hs p0.pos.1 p0.pos.2, walk_low hs p1.pos.1 p1.pos.2⟩, ?_⟩
  rw [eb]
  exact fibre_of hs h

/-- What remains of a fibre behind `k` elements from index `i` on, and whether a cursor may stand there. -/
def restLow (m : List Host.Cell) (d : LDesc) (lo hi i k : Nat) : List Elem := (fibreBy (numLow m) d lo hi i).drop k
def remainsLow (m : List Host.Cell) (d : LDesc) (lo hi i k : Nat) : Bool :=
  levelLow m d && fibreLow m d lo hi i && ((fibreBy (numLow m) d lo hi i).take k).all (fun x => x.idx == i) &&
    (match restLow m d lo hi i k with
     | e :: _ => e.idx == i
     | [] => i == hi)

theorem remains_of {s : State} (hs : isLow s = true) {d : LDesc} {lo hi i k : Nat} (h : remainsLow s.mem d lo hi i k = true) :
    Remains s (seen s) d lo hi (restLow s.mem d lo hi i k) := by
  simp only [remainsLow, Bool.and_eq_true] at h
  obtain ⟨⟨⟨h1, h2⟩, h3⟩, h4⟩ := h
  have hf := fibre_of hs h2
  simp only [fibreLow, Bool.and_eq_true, decide_eq_true_eq] at h2
  have ef := fibre_low hs h2.1.1.1.1.1 lo (show hi ≤ 2 ^ 16 by omega) i
  refine ⟨level_of hs h1, ?_, fun e l he => ?_⟩
  · cases hx : restLow s.mem d lo hi i k with
    | nil =>
      rw [hx] at h4
      obtain rfl : i = hi := by simpa using h4
      exact hf
    | cons e l =>
      rw [hx] at h4
      obtain rfl : e.idx = i := by simpa using h4
      exact hf
  · rw [he] at h4
    obtain rfl : e.idx = i := by simpa using h4
    refine ⟨(fibreBy (numLow s.mem) d lo hi e.idx).take k, ?_, fun x hx => by simpa using List.all_eq_true.1 h3 x hx⟩
    rw [ef]
    exact (List.take_append_drop k _).symm

/-- A cursor's place: its register, the level, the fibre, and what remains of it. -/
structure Spot where
  k  : KReg
  d  : LDesc
  lo : Nat
  hi : Nat
  i  : Nat
  n  : Nat
  deriving DecidableEq

def Spot.rest (x : Spot) : List Elem := restLow levelMem x.d x.lo x.hi x.i x.n

/-- The cursors that stand somewhere: k1 and k2 on the DENSE level (index 2, and DONE), k3 and k4 on the leaf (index 2, and DONE), k5
on the other leaf, and k6 to k10 on the BITMAP, the HASHED, the RUNLENGTH (second of a run), the BLOCK (third of a block) and the
unordered level. -/
def spots : List Spot :=
  [⟨1, dDense, 0, 3, 2, 0⟩, ⟨2, dDense, 0, 3, 3, 0⟩, ⟨3, dLeaf, 2, 5, 2, 0⟩, ⟨4, dLeaf, 2, 5, 5, 0⟩, ⟨5, dOther, 0, 2, 0, 0⟩,
   ⟨6, dBitmap, 0, 70, 63, 0⟩, ⟨7, dHash, 0, 4, 0, 0⟩, ⟨8, dRun, 0, 2, 0, 1⟩, ⟨9, dBlock, 0, 2, 0, 2⟩, ⟨10, dLoose, 0, 3, 0, 0⟩,
   ⟨11, dHash, 0, 4, 4, 0⟩, ⟨12, dLoose, 0, 3, 3, 0⟩]

def cLeaf : Cursor := ⟨0x40061, 2, 5, 2, 0, 0, 2⟩
def stood : List (Nat × Cursor) :=
  [(1, ⟨0x40020, 0, 3, 2, 0, 2, 2⟩), (2, ⟨0x40028, 0, 3, 3, 0, 0xFFFFFFFF, 0xFFFFFFFF⟩), (3, cLeaf),
   (4, ⟨0x40069, 2, 5, 5, 0, 0xFFFFFFFF, 0xFFFFFFFF⟩), (5, ⟨0x400A1, 0, 2, 0, 0, 3, 0⟩), (6, ⟨0x400E2, 0, 70, 63, 0, 63, 2⟩),
   (7, ⟨0x40103, 0, 4, 0, 0, 40, 5⟩), (8, ⟨0x40164, 0, 2, 0, 1, 3, 0⟩), (9, ⟨0x401A5, 0, 2, 0, 2, 2, 2⟩),
   (10, ⟨0x401C1, 0, 3, 0, 0, 7, 0⟩), (11, ⟨0x4010B, 0, 4, 4, 0, 0xFFFFFFFF, 0xFFFFFFFF⟩),
   (12, ⟨0x401C9, 0, 3, 3, 0, 0xFFFFFFFF, 0xFFFFFFFF⟩)]

/-- The state in which they stand. -/
def walked : State := levels 0x40000 0 stood

theorem walked_low : isLow walked = true := by decide +kernel
theorem walked_mem : walked.mem = levelMem := rfl
theorem walked_ready (cf : Cf) : Ready walked (seen walked) 1 cf := by
  apply ready_of
  cases cf <;> decide +kernel
theorem walked_fits : Fits (seen walked) := .inl (by decide +kernel)
theorem walked_width : (seen walked).width ≤ 64 := by decide +kernel
theorem walked_reg (i : Fin 256) : (seen walked).regOk (.v i) = true := by
  have h : ∀ i : Fin 256, (seen walked).regOk (.v i) = true := by decide +kernel
  exact h i

theorem spots_remain : spots.all (fun x => remainsLow levelMem x.d x.lo x.hi x.i x.n) = true := by decide +kernel
theorem spots_stand : spots.all (fun x => (seen walked).kr x.k == cursorAt x.d x.lo x.hi x.rest) = true := by decide +kernel

theorem stands_at {x : Spot} (h : x ∈ spots) : Stands walked (seen walked) x.k x.d x.lo x.hi x.rest :=
  ⟨remains_of walked_low (List.all_eq_true.1 spots_remain x h), by simpa using List.all_eq_true.1 spots_stand x h⟩

/-- CursorIteration, KINIT: the fibres of parent 0 of each level and of parents 1 (empty) and 2 of the leaf. -/
theorem witness_kinit : ∀ x ∈ [(dDense, 0), (dLeaf, 1), (dLeaf, 2), (dBits, 0), (dHash, 0), (dRun, 0), (dBlock, 0), (dLoose, 0)],
    ∃ (s : State) (c : Cur) (o : KinitOps), (Instr.kinitR o).wf = true ∧ Ready s c 1 o.cf ∧ Fits c ∧ Level s c x.1 ∧
      c.sr o.s = BitVec.ofNat 64 x.1.addr ∧ (c.sr (sregAt (o.s.val + 1))).toNat = x.2 ∧ ParentOk s c x.1 x.2 := by
  intro x hx
  have h : isLow (levels x.1.addr x.2 stood) = true ∧ readyFor (levels x.1.addr x.2 stood) 1 .a = true ∧
      (seen (levels x.1.addr x.2 stood)).t.chunk.st ≠ .opened ∧ levelLow levelMem x.1 = true ∧ parentLow levelMem x.1 x.2 = true ∧
      (seen (levels x.1.addr x.2 stood)).sr 8 = BitVec.ofNat 64 x.1.addr ∧
      ((seen (levels x.1.addr x.2 stood)).sr (sregAt 9)).toNat = x.2 ∧ x.2 < 2 ^ 16 := by
    simp only [List.mem_cons, List.not_mem_nil, or_false] at hx
    obtain rfl | rfl | rfl | rfl | rfl | rfl | rfl | rfl := hx <;> decide +kernel
  obtain ⟨h1, h2, h3, h4, h5, h6, h7, h8⟩ := h
  exact ⟨levels x.1.addr x.2 stood, _, ⟨0, 8, .a⟩, by decide, ready_of _ 1 .a h2, .inl h3, level_of h1 h4, h6, h7, parent_of h1 h8 h5⟩

/-- CursorIteration: cursors on elements of every kind and behind the last, KSEEK of an ordered and an unordered level to a coordinate
between two, and KDESC from an element and from the end. -/
theorem witness_CursorIteration : ∃ (s : State) (c : Cur), Ready s c 1 .b ∧ Fits c ∧ c.regOk (vr 1) = true ∧
    c.regOk (vr 2) = true ∧ c.width ≤ 64 ∧ (∀ x ∈ spots, Stands s c x.k x.d x.lo x.hi x.rest) ∧ dDense.leaf = false ∧ Level s c dLeaf ∧
    dLeaf.addr = dDense.addr + 64 ∧ dLeaf.level = dDense.level + 1 ∧ ParentOk s c dLeaf 2 ∧ dDense.ord = true ∧ dHash.ord = false ∧
    (c.sr 1).toNat < 2 ^ 32 :=
  ⟨walked, _, walked_ready .b, walked_fits, walked_reg 1, walked_reg 2, walked_width, fun _ h => stands_at h, by decide +kernel,
    level_of walked_low (by decide +kernel), by decide +kernel, by decide +kernel, parent_of walked_low (by decide) (by decide +kernel),
    by decide +kernel, by decide +kernel, by decide +kernel⟩

/-- CursorIteration: the spots show elements at an end, in the middle, and none. -/
theorem spots_shown : spots.map (fun x => x.rest.map (fun e => (e.coord, e.pos))) =
    [[(2, 2)], [], [(0, 2), (3, 3), (9, 4)], [], [(3, 0), (9, 1)], [(63, 2), (64, 3), (67, 4)], [(40, 5), (9, 2), (3, 6)],
     [(3, 0), (4, 0), (10, 7), (11, 7)], [(2, 2), (3, 3), (8, 4), (9, 5)], [(7, 0), (0, 1), (3, 2)], [], []] := by decide +kernel

/-- CursorAccess, KLD: lanes 0 to 4 hold positions of values of four bytes and lane 5 holds none. -/
def posState : State :=
  dress walked (fun c => c.setV (vr 7) (maskOf 64 (fun _ => true)) (fun l => if l = 5 then 0xFFFFFFFF else BitVec.ofNat 32 l) .i32)

theorem witness_kld : ∃ (s : State) (c : Cur) (o : KldOps) (es : List Elem), (Instr.kld o).wf = true ∧ Ready s c 1 o.cf ∧ Fits c ∧ c.width ≤ 64 ∧
    Stands s c o.ka dLeaf 2 5 es ∧ dLeaf.leaf = true ∧ valueSize dLeaf.vtag = 4 ∧ o.w = .b32 ∧ RunOk c o.vd 1 ∧ c.regOk o.vp = true ∧
    (c.vr o.vp).tag ∈ [Tag.u32, .i32, .raw] ∧
    (∀ l, inLanes c c.em l ∧ lane c o.vp l ≠ 0xFFFFFFFF → Reaches s c XReq.loadWb true (dLeaf.vbase + (lane c o.vp l).toNat * 4) 4) ∧
    inLanes c c.em 4 ∧ lane c o.vp 4 ≠ 0xFFFFFFFF ∧ inLanes c c.em 5 ∧ lane c o.vp 5 = 0xFFFFFFFF := by
  refine ⟨posState, _, ⟨.b32, vr 20, 3, vr 7, 2, .a⟩, restLow levelMem dLeaf 2 5 2 0, by decide, ready_of _ 1 .a (by decide +kernel),
    .inl (by decide +kernel), by decide +kernel, ⟨remains_of (s := posState) (by decide +kernel) (by decide +kernel), by decide +kernel⟩,
    by decide +kernel, by decide +kernel, rfl, ?_, by decide +kernel, by decide +kernel, ?_, by unfold inLanes; decide +kernel,
    by decide +kernel, by unfold inLanes; decide +kernel, by decide +kernel⟩
  · intro k hk
    obtain rfl : k = 0 := by omega
    exact ⟨vr 20, by decide, by decide +kernel⟩
  · intro l hl
    have h := lanes_all (c := seen posState) (m := (seen posState).em) (p := fun l => lane (seen posState) (vr 7) l == 0xFFFFFFFF ||
      decide ((lane (seen posState) (vr 7) l).toNat < 64)) (by decide +kernel) l hl.1
    simp only [Bool.or_eq_true, beq_iff_eq, decide_eq_true_eq] at h
    have h := h.resolve_left hl.2
    have hb : dLeaf.vbase = 0x43000 := by decide +kernel
    rw [hb]
    show Reaches _ _ _ _ (0x43000 + (lane (seen posState) (vr 7) l).toNat * 4) 4
    exact low_reaches (by decide +kernel) (by omega) (by omega) XReq.loadWb true

/-- Records of the cursor k3 at 0x44000 and at offset 64 of crew memory; zeros at 0x45000 and at offset 128. -/
def recBytesOf (x : Cursor) : List Byte :=
  bytesOf 8 x.head.toNat ++ bytesOf 4 x.lo.toNat ++ bytesOf 4 x.hi.toNat ++ bytesOf 4 x.idx.toNat ++
    bytesOf 4 x.sub.toNat ++ bytesOf 4 x.coord.toNat ++ bytesOf 4 x.pos.toNat

def kept : State :=
  let s := dress walked (fun c => { c with crew := { c.crew with mem := cellsPut c.crew.mem 64 (recBytesOf cLeaf) } })
  { s with mem := cellsPut s.mem 0x44000 (recBytesOf cLeaf) }

/-- CursorAccess, KSAVE and KREST: an aligned record in memory and in crew memory, of a cursor on an element and of an unbound one. -/
theorem witness_CursorAccess : ∃ (s : State) (c : Cur) (o x y z : KmemOps), Ready s c 1 .none ∧ Room c c ∧ Fits c ∧ Ready s c 1 o.cf ∧
    o.crew = false ∧ x.crew = false ∧ y.crew = true ∧ z.crew = true ∧ Reaches s c XReq.storeWb false (c.sr o.sb).toNat 32 ∧
    Reaches s c XReq.loadWb true (c.sr o.sb).toNat 32 ∧ Reaches s c XReq.loadWb true (c.sr x.sb).toNat 32 ∧
    (c.sr y.sb).toNat + 32 ≤ c.crew.launch.crewmem ∧ (c.sr y.sb).toNat % 32 = 0 ∧ c.barTouched (c.sr y.sb).toNat 32 = none ∧
    (c.sr z.sb).toNat + 32 ≤ c.crew.launch.crewmem ∧ (c.sr z.sb).toNat % 32 = 0 ∧
    (∃ d lo hi es, Remains s c d lo hi es ∧ cLeaf = cursorAt d lo hi es) ∧
    numberAtVa s c (c.sr o.sb).toNat 32 = ofBytes (recBytesOf cLeaf) ∧ numberAtVa s c (c.sr x.sb).toNat 32 = ofBytes (recBytesOf Cursor.unbound) ∧
    (∀ i, i < 32 → c.cPoison ((c.sr y.sb).toNat + i) = false) ∧ c.cNat (c.sr y.sb).toNat 32 = ofBytes (recBytesOf cLeaf) ∧
    (∀ i, i < 32 → c.cPoison ((c.sr z.sb).toNat + i) = false) ∧ c.cNat (c.sr z.sb).toNat 32 = ofBytes (recBytesOf Cursor.unbound) :=
  ⟨kept, _, ⟨3, 10, false, .a⟩, ⟨3, 11, false, .a⟩, ⟨3, 12, true, .a⟩, ⟨3, 13, true, .a⟩, ready_of _ 1 .none (by decide +kernel),
    .inl (by decide +kernel), .inl (by decide +kernel), ready_of _ 1 .a (by decide +kernel), rfl, rfl, rfl, rfl,
    reaches_of _ _ _ _ _ (by decide +kernel), reaches_of _ _ _ _ _ (by decide +kernel), reaches_of _ _ _ _ _ (by decide +kernel),
    by decide +kernel, by decide +kernel, by decide +kernel, by decide +kernel, by decide +kernel,
    ⟨dLeaf, 2, 5, restLow kept.mem dLeaf 2 5 2 0, remains_of (by decide +kernel) (by decide +kernel), by decide +kernel⟩,
    by rw [low_number (by decide +kernel) (by decide +kernel)]; decide +kernel,
    by rw [low_number (by decide +kernel) (by decide +kernel)]; decide +kernel, by decide +kernel, by decide +kernel, by decide +kernel, by decide +kernel⟩

/-- A cursor whose fibre can be probed, as a test. -/
def probedLow (x : Spot) : Bool := fibreLow levelMem x.d x.lo x.hi x.lo && (x.d.kind != 3 || x.hi == x.lo + 2 ^ x.d.t)

theorem probed_at {x : Spot} (h : probedLow x = true) : Probed walked (seen walked) x.d x.lo x.hi := by
  simp only [probedLow, Bool.and_eq_true, Bool.or_eq_true, bne_iff_ne, beq_iff_eq] at h
  exact ⟨fibre_of walked_low h.1, fun hk => h.2.resolve_left (fun h => h hk)⟩

/-- The pairs of places that the classes of Table 20.2 need: who drives, if one does. -/
def pairs : List (Spot × Spot × Nat) :=
  let at' := fun i => spots.getD i ⟨0, dDense, 0, 0, 0, 0⟩
  [(at' 2, at' 4, 0), (at' 5, at' 7, 0), (at' 2, at' 6, 1), (at' 6, at' 10, 1), (at' 9, at' 4, 1), (at' 9, at' 6, 1),
   (at' 6, at' 2, 2), (at' 4, at' 9, 2), (at' 6, at' 9, 2), (at' 9, at' 11, 3)]

/-- CoIteration: ordered fibres with a common coordinate and of other kinds, each class of which one side drives a probe, with an
exhausted side among them, and two unordered fibres. -/
theorem witness_CoIteration : ∀ p ∈ pairs, ∃ (s : State) (c : Cur) (o : KcoOps), Ready s c 1 o.cf ∧ Fits c ∧ c.regOk o.vc = true ∧
    RunOk c o.vp 2 ∧ o.vc ∉ runOf o.vp 2 ∧ o.ka ≠ o.kb ∧ c.width ≤ 64 ∧ Stands s c o.ka p.1.d p.1.lo p.1.hi p.1.rest ∧
    Stands s c o.kb p.2.1.d p.2.1.lo p.2.1.hi p.2.1.rest ∧ (p.2.2 = 0 → Ordered p.1.d ∧ Ordered p.2.1.d) ∧
    (p.2.2 = 1 → ADrives p.1.d p.2.1.d ∧ Probed s c p.2.1.d p.2.1.lo p.2.1.hi) ∧
    (p.2.2 = 2 → BDrives p.1.d p.2.1.d ∧ Probed s c p.1.d p.1.lo p.1.hi) ∧ (p.2.2 = 3 → Unordered p.1.d ∧ Unordered p.2.1.d) := by
  intro p hp
  have h : (p.1.k ≠ p.2.1.k ∧ (p.2.2 = 2 → probedLow p.1 = true) ∧ (p.2.2 = 1 → probedLow p.2.1 = true) ∧ p.1 ∈ spots ∧ p.2.1 ∈ spots) ∧
      (p.2.2 = 0 → Ordered p.1.d ∧ Ordered p.2.1.d) ∧ (p.2.2 = 1 → ADrives p.1.d p.2.1.d) ∧
      (p.2.2 = 2 → BDrives p.1.d p.2.1.d) ∧ (p.2.2 = 3 → Unordered p.1.d ∧ Unordered p.2.1.d) := by
    unfold ADrives BDrives Ordered Unordered Hashed
    simp only [pairs, List.mem_cons, List.not_mem_nil, or_false] at hp
    rcases hp with rfl | rfl | rfl | rfl | rfl | rfl | rfl | rfl | rfl | rfl <;>
      refine ⟨⟨?_, ?_, ?_, ?_, ?_⟩, ?_, ?_, ?_, ?_⟩ <;> decide +kernel
  obtain ⟨⟨h1, h2, h3, hm⟩, h4, h5, h6, h7⟩ := h
  refine ⟨walked, _, ⟨p.1.k, p.2.1.k, vr 20, vr 21, 9, 1, 2, .a⟩, walked_ready .a, walked_fits, walked_reg 20, ?_,
    show vr 20 ∉ runOf (vr 21) 2 by decide, h1, walked_width, stands_at hm.1, stands_at hm.2, h4, fun h => ⟨h5 h, probed_at (h3 h)⟩,
    fun h => ⟨h6 h, probed_at (h2 h)⟩, h7⟩
  intro k hk
  interval_cases k
  · exact ⟨vr 21, show vplus (vr 21) 0 = _ by decide, walked_reg 21⟩
  · exact ⟨vr 22, show vplus (vr 21) 1 = _ by decide, walked_reg 22⟩

/-! Append runs: k6 holds a run at 0x200000 of two elements (coordinates 3 and 7) of at most four. -/

/-- A template of elements of a tag at 0x46000, and the run. -/
def runCursor (t : Tag) : Cursor := ⟨0x200031, 2, 4, 7, 100, BitVec.ofNat 32 t.code, 576⟩

def appended (t : Tag) (ops : List (Nat × Nat)) : State :=
  let s := dress plain (fun c =>
    let c := scalars ops (c.setK 6 (runCursor t))
    let c := (c.setV (vr 30) (maskOf 64 (fun _ => true)) (fun l => BitVec.ofNat 32 l) t).setV (vr 31) (maskOf 64 (fun _ => true)) (fun _ => 0) t
    c.setP 1 (maskOf 64 (fun _ => true)) (maskOf 64 (fun l => decide (8 ≤ l))))
  let m := cellsPut s.mem 0x46000 (bytesOf 64 (0x69 + 2 ^ 32 * 100 + 2 ^ 320 * t.code))
  { s with mem := cellsPut m 0x200080 (bytesOf 8 (3 + 2 ^ 32 * 7)) }

def template (t : Tag) : LDesc := ldescOf 0x46000 (0x69 + 2 ^ 32 * 100 + 2 ^ 320 * t.code)

/-- Stores of at most two items into the run. -/
def itemsFit (n voff sz : Nat) (items : List Item) : Bool :=
  decide (n + items.length ≤ 4) && decide (voff ≤ 4096) && voff % sz == 0 && 0x200000 % sz == 0 && decide (0 < sz) && decide (sz ≤ 8)

theorem appendOk_of {s : State} (hs : isLow s = true) {n voff sz : Nat} {items : List Item} (h : itemsFit n voff sz items = true) :
    AppendOk s (seen s) 0x200000 n voff sz items := by
  simp only [itemsFit, Bool.and_eq_true, beq_iff_eq, decide_eq_true_eq] at h
  obtain ⟨⟨⟨⟨⟨h1, h2⟩, h3⟩, h4⟩, h5⟩, h6⟩ := h
  intro i hi
  have hm : sz * (n + i) ≤ 8 * (n + i) := Nat.mul_le_mul_right _ h6
  refine ⟨low_reaches hs (by omega) (by omega) XReq.storeWb false, low_reaches hs (by omega) ?_ XReq.storeWb false⟩
  rw [Nat.add_mul_mod_self_left, Nat.add_mod, h3, h4, Nat.add_zero, Nat.zero_mod]

/-- AppendRuns, KINIT.A: a run of all of the extent from an empty heap. -/
theorem witness_kinitA : ∃ (s : State) (c : Cur) (o : KinitOps) (d : LDesc) (v : Voyage), (Instr.kinitA o).wf = true ∧
    Ready s c 1 o.cf ∧ Alone c ∧ Level s c d ∧ d.template = true ∧ c.sr o.s = BitVec.ofNat 64 d.addr ∧ c.warp.live ≤ 1 ∧
    (s.ctx c.ctx).voyage? c.ref.w.crew.voy = some v ∧ (c.sr (sregAt (o.s.val + 1))).toNat = d.ext ∧
    0 < (c.sr (sregAt (o.s.val + 1))).toNat ∧ c.crew.core / 96 < v.heap.length ∧ v.heap.getD (c.crew.core / 96) 0 = 0 ∧
    v.heap.getD (c.crew.core / 96) 0 + (128 + 64 * ((4 * 100 + 63) / 64) + 64 * ((100 * valueSize d.vtag + 63) / 64) + 4095) / 4096 ≤
      c.crew.launch.heapx ∧ c.crew.launch.heap = 0x200000 :=
  ⟨appended .f32 [(8, 0x46000), (9, 100)], _, ⟨1, 8, .a⟩, template .f32,
    ⟨1, 0, probeLaunch, 0, .running, 1, [], 0, 0, false, List.replicate 8 0⟩, by decide, ready_of _ 1 .a (by decide +kernel),
    alone_of (by decide +kernel), level_of (by decide +kernel) (by decide +kernel), by decide +kernel, by decide +kernel,
    by decide +kernel, by rfl, by decide +kernel, by decide +kernel, by decide +kernel, by decide +kernel, by decide +kernel,
    by decide +kernel⟩

/-- AppendRuns, KINIT.A with a chunk open, whose reads the template joins. -/
theorem witness_kinitAChunk : ∃ (s : State) (c : Cur) (o : KinitOps) (d : LDesc), (Instr.kinitA o).wf = true ∧ Ready s c 1 o.cf ∧
    c.t.chunk.st = .opened ∧ Level s c d ∧ d.template = true ∧ c.sr o.s = BitVec.ofNat 64 d.addr ∧ c.warp.live ≤ 1 ∧
    0 < (c.sr (sregAt (o.s.val + 1))).toNat ∧ (c.sr (sregAt (o.s.val + 1))).toNat ≤ d.ext :=
  ⟨dress (appended .f32 [(8, 0x46000), (9, 100)]) (fun c => c.mapChunk (fun h => { h with st := .opened, count := 1, chlim := 256, snap := some c.t.core })),
    _, ⟨1, 8, .a⟩, template .f32, by decide, ready_of _ 1 .a (by decide +kernel), by decide +kernel,
    level_of (by decide +kernel) (by decide +kernel), by decide +kernel, by decide +kernel, by decide +kernel, by decide +kernel,
    by decide +kernel⟩

/-- The run of k6 as an append cursor. -/
theorem appended_appends {t : Tag} {ops : List (Nat × Nat)} (h : (seen (appended t ops)).kr 6 = runCursor t) (ht : t.code ≤ 16) :
    Appends (seen (appended t ops)) 6 0x200000 2 4 7 100 t.code 576 :=
  ⟨by rw [h]; rfl, by decide, by decide, by decide, by decide, by decide, by decide, ht, by decide⟩

/-- AppendRuns, KAPP: of the lanes 8 to 31 two are appended and the run is full; values of four bytes and of eight. -/
theorem witness_kapp : (∃ (s : State) (c : Cur) (o : KappOps), Ready s c 1 o.cf ∧ Fits c ∧ c.width ≤ 64 ∧
      Appends c o.kd 0x200000 2 4 7 100 3 576 ∧ c.regOk o.vc = true ∧ c.regOk o.vv = true ∧ (c.vr o.vc).tag ∈ [Tag.u32, .i32, .raw] ∧
      valueSize 3 = 4 ∧ (c.vr o.vv).tag ∈ [Tag.ofCode 3, .raw] ∧ (taken 100 4 2 (lastOf 7) (kappItems c o 4)).1.length = 2 ∧
      (taken 100 4 2 (lastOf 7) (kappItems c o 4)).2 = 3 ∧ AppendOk s c 0x200000 2 576 4 (taken 100 4 2 (lastOf 7) (kappItems c o 4)).1) ∧
    ∃ (s : State) (c : Cur) (o : KappOps), Ready s c 1 o.cf ∧ Fits c ∧ c.width ≤ 64 ∧
      Appends c o.kd 0x200000 2 4 7 100 16 576 ∧ c.regOk o.vc = true ∧ c.regOk o.vv = true ∧ (c.vr o.vc).tag ∈ [Tag.u32, .i32, .raw] ∧
      valueSize 16 = 8 ∧ (c.vr o.vv).tag ∈ [Tag.ofCode 16, .raw] ∧ o.vv.code % 2 = 0 ∧ RunOk c o.vv 2 ∧
      (c.vr (regAt o.vv 1)).tag ∈ [Tag.ofCode 16, .raw] ∧ (taken 100 4 2 (lastOf 7) (kappItems c o 8)).1.length = 2 ∧
      AppendOk s c 0x200000 2 576 8 (taken 100 4 2 (lastOf 7) (kappItems c o 8)).1 := by
  refine ⟨⟨appended .f32 [], _, ⟨6, vr 2, vr 30, 1, 9, 2, .a⟩, ready_of _ 1 .a (by decide +kernel),
      .inl (by decide +kernel), by decide +kernel, appended_appends (by decide +kernel) (by decide),
      by decide +kernel, by decide +kernel, by decide +kernel, by decide, by decide +kernel, by decide +kernel, by decide +kernel,
      appendOk_of (by decide +kernel) (by decide +kernel)⟩,
    ⟨appended .w64 [], _, ⟨6, vr 2, vr 30, 1, 9, 2, .a⟩, ready_of _ 1 .a (by decide +kernel),
      .inl (by decide +kernel), by decide +kernel, appended_appends (by decide +kernel) (by decide),
      by decide +kernel, by decide +kernel, by decide +kernel, by decide, by decide +kernel, by decide, ?_, by decide +kernel,
      by decide +kernel, appendOk_of (by decide +kernel) (by decide +kernel)⟩⟩
  intro k hk
  interval_cases k
  · exact ⟨vr 30, by decide, by decide +kernel⟩
  · exact ⟨vr 31, by decide, by decide +kernel⟩

/-- AppendRuns, KFIN: the run of the coordinates 3 and 7. -/
theorem witness_kfin : ∃ (s : State) (c : Cur) (o : KinitOps) (d : LDesc), Ready s c 1 o.cf ∧ Fits c ∧
    Appends c o.kd 0x200000 2 4 7 100 3 576 ∧ (∀ i, i < 9 → Reaches s c XReq.storeWb false (0x200000 + 8 * i) 8) ∧
    d = ⟨0x200000, 0x0069, 0, 100, 0x200000 + 64, 0x200000 + 128, 0, 0x200000 + 576, 3, 0, 0⟩ ∧ FibreOk s c d 0 2 0 :=
  ⟨appended .f32 [], _, ⟨6, 9, .a⟩, _, ready_of _ 1 .a (by decide +kernel), .inl (by decide +kernel),
    appended_appends (by decide +kernel) (by decide),
    fun i hi => low_reaches (by decide +kernel) (by omega) (by omega) XReq.storeWb false, rfl,
    fibre_of (by decide +kernel) (by decide +kernel)⟩

/-- AppendRuns, SIEVE.NZ: elements that are zero and elements that are not, the first coordinate behind the run's last; a RAW register
under an integer type. -/
theorem witness_sieveNz : (∃ (s : State) (c : Cur) (o : SieveOps), (Instr.sieveNz o).wf = true ∧ Ready s c 1 o.cf ∧ Fits c ∧
      c.width ≤ 64 ∧ Appends c o.kd 0x200000 2 4 7 100 o.t.code 576 ∧ c.regOk o.vx = true ∧ (c.vr o.vx).tag = o.t ∧
      (c.sr o.s).toNat < 2 ^ 32 ∧ AppendOk s c 0x200000 2 576 (valueSize o.t.code) (taken 100 4 2 (lastOf 7) (sieved c o.t (c.sr o.s).toNat o.vx
        (fun l e => !(isZeroElem o.t (elem o.t e (lane c o.vx l)))))).1) ∧
    ∃ (s : State) (c : Cur) (o : SieveOps), (Instr.sieveNz o).wf = true ∧ Ready s c 1 o.cf ∧ Fits c ∧
      c.width ≤ 64 ∧ Appends c o.kd 0x200000 2 4 7 100 o.t.code 576 ∧ c.regOk o.vx = true ∧ o.t ∈ [Tag.i32, .u32] ∧ (c.vr o.vx).tag = .raw ∧
      (c.sr o.s).toNat < 2 ^ 32 ∧ AppendOk s c 0x200000 2 576 (valueSize o.t.code) (taken 100 4 2 (lastOf 7) (sieved c o.t (c.sr o.s).toNat o.vx
        (fun l e => !(isZeroElem o.t (elem o.t e (lane c o.vx l)))))).1 :=
  ⟨⟨appended .bf16x2 [(8, 8)], _, ⟨6, vr 30, 8, 2, .bf16x2, .a⟩, by decide, ready_of _ 1 .a (by decide +kernel),
      .inl (by decide +kernel), by decide +kernel, appended_appends (by decide +kernel) (by decide),
      by decide +kernel, by decide +kernel, by decide +kernel, appendOk_of (by decide +kernel) (by decide +kernel)⟩,
    ⟨appended .i32 [(8, 0xFFFFFFFF)], _, ⟨6, vr 20, 8, 2, .i32, .a⟩, by decide, ready_of _ 1 .a (by decide +kernel),
      .inl (by decide +kernel), by decide +kernel, appended_appends (by decide +kernel) (by decide),
      by decide +kernel, by decide, by decide +kernel, by decide +kernel, appendOk_of (by decide +kernel) (by decide +kernel)⟩⟩

/-- AppendRuns, SIEVE.DELTA: thresholds of both zeros and of one. -/
theorem witness_sieveDelta : ∀ x ∈ [0, 0x80000000, 0x3F800000], ∃ (s : State) (c : Cur) (o : DeltaOps),
    (Instr.sieveDelta o).wf = true ∧ Ready s c 1 o.cf ∧ Fits c ∧ c.width ≤ 64 ∧ Appends c o.kd 0x200000 2 4 7 100 o.t.code 576 ∧
    c.regOk o.vx = true ∧ c.regOk o.vk = true ∧ o.vx ≠ o.vk ∧ (c.vr o.vx).tag = o.t ∧ (c.vr o.vk).tag = o.t ∧
    ((c.sr o.s).extractLsb' 32 32).toNat = x ∧ fF32.read ((c.sr o.s).extractLsb' 32 32).toNat ≠ .nan ∧
    ((fF32.read ((c.sr o.s).extractLsb' 32 32).toNat).isNeg = true → fF32.read ((c.sr o.s).extractLsb' 32 32).toNat = .zero true) ∧
    AppendOk s c 0x200000 2 576 (valueSize o.t.code) (taken 100 4 2 (lastOf 7) (sieved c o.t ((c.sr o.s).extractLsb' 0 32).toNat o.vx
      (fun l e => isChanged o.t (fF32.read ((c.sr o.s).extractLsb' 32 32).toNat) (elem o.t e (lane c o.vx l)) (elem o.t e (lane c o.vk l))))).1 := by
  intro x hx
  simp only [List.mem_cons, List.not_mem_nil, or_false] at hx
  rcases hx with rfl | rfl | rfl
  · exact ⟨appended .f32 [(8, 8 + 2 ^ 32 * 0)], _, ⟨6, vr 30, vr 31, 8, 2, .f32, .a⟩, by decide, ready_of _ 1 .a (by decide +kernel),
      .inl (by decide +kernel), by decide +kernel, appended_appends (by decide +kernel) (by decide),
      by decide +kernel, by decide +kernel, by decide, by decide +kernel, by decide +kernel, by decide +kernel, by decide +kernel,
      by decide +kernel, appendOk_of (by decide +kernel) (by decide +kernel)⟩
  · exact ⟨appended .f32 [(8, 8 + 2 ^ 32 * 0x80000000)], _, ⟨6, vr 30, vr 31, 8, 2, .f32, .a⟩, by decide, ready_of _ 1 .a (by decide +kernel),
      .inl (by decide +kernel), by decide +kernel, appended_appends (by decide +kernel) (by decide),
      by decide +kernel, by decide +kernel, by decide, by decide +kernel, by decide +kernel, by decide +kernel, by decide +kernel,
      by decide +kernel, appendOk_of (by decide +kernel) (by decide +kernel)⟩
  · exact ⟨appended .f32 [(8, 8 + 2 ^ 32 * 0x3F800000)], _, ⟨6, vr 30, vr 31, 8, 2, .f32, .a⟩, by decide, ready_of _ 1 .a (by decide +kernel),
      .inl (by decide +kernel), by decide +kernel, appended_appends (by decide +kernel) (by decide),
      by decide +kernel, by decide +kernel, by decide, by decide +kernel, by decide +kernel, by decide +kernel, by decide +kernel,
      by decide +kernel, appendOk_of (by decide +kernel) (by decide +kernel)⟩

/-! The packed stream: OUTLEN 3, the symbols A and B of one bit each, and the codes of A, B, A, at offset 0x100 of crew memory. -/

/-- The state with the stream and the run of scalars s40 to s43; the ring stands at offset 0x1000. -/
def packed (a b c d : Nat) : State :=
  dress plain (fun x =>
    let x := scalars [(40, a), (41, b), (42, c), (43, d)] x
    { x with crew := { x.crew with mem := [(0x100, 3), (0x124, 0x10), (0x125, 1), (0x18C, 2), (0x1000, 0x5A)] } })

theorem no_poison {c : Cur} (h : c.crew.poison = []) (hb : c.newest.all (fun x => x.badC.isEmpty) = true) (n : Nat) :
    c.cPoison n = false := by
  have hb : ∀ x ∈ c.newest, x.badC = [] := fun x hx => by simpa using List.all_eq_true.1 hb x hx
  simp only [Cur.cPoison, h, List.contains_nil, Bool.false_or, Bool.false_and, List.any_eq_false]
  grind

/-- The codes in the stream, as a test. -/
def spells (c : Cur) (src : Nat) : Nat → List Byte → Nat → Bool
  | pos, [], e => pos == e
  | pos, b :: bs, e =>
    let n := codeLen c src b.toNat
    decide (0 < n) && (List.range n).all (fun i => streamBit c src (pos + i) == (codeOf c src b.toNat).testBit (n - 1 - i)) &&
      spells c src (pos + n) bs e

theorem holds_of {c : Cur} {src : Nat} : ∀ (bs : List Byte) {pos e : Nat}, spells c src pos bs e = true → HoldsCodes c src pos bs e
  | [], _, _, h => by simpa [spells, HoldsCodes] using h
  | b :: bs, pos, e, h => by
    simp only [spells, Bool.and_eq_true, decide_eq_true_eq, List.all_eq_true, List.mem_range, beq_iff_eq] at h
    exact ⟨⟨h.1.1, h.1.2⟩, holds_of bs h.2⟩

/-- The registers of an XDEC, as a test. -/
def xrunOk (s : State) (slen outlen pos p left dist st err : Nat) : Bool :=
  let c := seen s
  c.sr 40 == BitVec.ofNat 64 (0x100 + 2 ^ 32 * slen) && c.sr 41 == BitVec.ofNat 64 (0x1000 + 2 ^ 32 * outlen) &&
    c.sr 42 == BitVec.ofNat 64 (pos + 2 ^ 32 * p) && c.sr 43 == BitVec.ofNat 64 (left + 2 ^ 16 * dist + 2 ^ 32 * st + 2 ^ 36 * err) &&
    decide (slen < 2 ^ 32 ∧ outlen < 2 ^ 32 ∧ pos < 2 ^ 32 ∧ p < 2 ^ 32 ∧ left < 2 ^ 16 ∧ dist < 2 ^ 12 ∧ st < 4 ∧ err < 16) &&
    decide (0x100 + slen ≤ c.crew.launch.crewmem ∧ 0x1000 + 4096 ≤ c.crew.launch.crewmem) && c.crew.poison.isEmpty &&
    c.newest.all (fun x => x.badC.isEmpty)

/-- XDEC.U8X4 of v12 and s40 to s44. -/
def xdecOps : XdecOps := ⟨vr 12, 40, 2, .u8x4, .a⟩

theorem xrun_of {s : State} {slen outlen pos p left dist st err : Nat} (h : xrunOk s slen outlen pos p left dist st err = true) :
    XRun (seen s) xdecOps 0x100 slen 0x1000 outlen pos p left dist st err := by
  simp only [xrunOk, Bool.and_eq_true, beq_iff_eq, decide_eq_true_eq, List.isEmpty_iff] at h
  obtain ⟨⟨⟨⟨⟨⟨⟨h1, h2⟩, h3⟩, h4⟩, ⟨k1, k2, k3, k4, k5, k6, k7, k8⟩⟩, h6⟩, h7⟩, h8⟩ := h
  exact ⟨by decide, h1, h2, h3, h4, ⟨by decide, k1, by decide, k2, k3, k4, k5, k6, k7, k8⟩, h6,
    fun i _ => no_poison h7 h8 _, fun i _ => no_poison h7 h8 _⟩

/-- PackedStream: a new stream that ends, the same stream begun, a pending match whose distance is one that ends it and one that goes
on, and the states END and ERROR. -/
theorem witness_PackedStream : (Instr.xdec xdecOps).wf = true ∧
    (∃ (s : State) (c : Cur), Ready s c 1 .a ∧ Room c c ∧ c.width ≤ 64 ∧ c.regOk (vr 12) = true ∧
      XRun c xdecOps 0x100 141 0x1000 0 0 0 0 0 0 0 ∧ CodeFits c 0x100 ∧
      [(0x41 : Byte), 0x42, 0x41].length = Nat.min (4 * lanesOfEm c) (streamNum c 0x100 0 32) ∧
      HoldsCodes c 0x100 1120 [0x41, 0x42, 0x41] 1123) ∧
    (∃ (s : State) (c : Cur), Ready s c 1 .a ∧ Room c c ∧ c.width ≤ 64 ∧ c.regOk (vr 12) = true ∧
      XRun c xdecOps 0x100 141 0x1000 3 1120 0 0 0 1 0 ∧ CodeFits c 0x100 ∧
      [(0x41 : Byte), 0x42, 0x41].length = Nat.min (4 * lanesOfEm c) (3 - 0) ∧ HoldsCodes c 0x100 1120 [0x41, 0x42, 0x41] 1123) ∧
    (∀ left ∈ [128, 200], ∃ (s : State) (c : Cur), Ready s c 1 .a ∧ Room c c ∧ c.width ≤ 64 ∧ c.regOk (vr 12) = true ∧
      XRun c xdecOps 0x100 141 0x1000 (1 + left) 1121 1 left 0 1 0 ∧ 4 * lanesOfEm c = 128) ∧
    (∃ (s : State) (c : Cur), Ready s c 1 .a ∧ Room c c ∧ c.width ≤ 64 ∧ c.regOk (vr 12) = true ∧
      XRun c xdecOps 0x100 141 0x1000 3 1123 3 0 0 2 0) ∧
    (∃ (s : State) (c : Cur), Ready s c 1 .a ∧ Room c c ∧ c.width ≤ 64 ∧ c.regOk (vr 12) = true ∧
      XRun c xdecOps 0x100 141 0x1000 3 1123 3 0 0 3 4) := by
  refine ⟨by decide,
    ⟨packed (0x100 + 2 ^ 32 * 141) 0x1000 0 0, _, ready_of _ 1 .a (by decide +kernel), .inl (by decide +kernel), by decide +kernel,
      by decide +kernel, xrun_of (by decide +kernel), by unfold CodeFits; decide +kernel, by decide +kernel, ?_⟩,
    ⟨packed (0x100 + 2 ^ 32 * 141) (0x1000 + 2 ^ 32 * 3) 1120 (2 ^ 32), _, ready_of _ 1 .a (by decide +kernel), .inl (by decide +kernel),
      by decide +kernel, by decide +kernel, xrun_of (by decide +kernel), by unfold CodeFits; decide +kernel, by decide +kernel, ?_⟩,
    ?_,
    ⟨packed (0x100 + 2 ^ 32 * 141) (0x1000 + 2 ^ 32 * 3) (1123 + 2 ^ 32 * 3) (2 ^ 33), _, ready_of _ 1 .a (by decide +kernel),
      .inl (by decide +kernel), by decide +kernel, by decide +kernel, xrun_of (by decide +kernel)⟩,
    ⟨packed (0x100 + 2 ^ 32 * 141) (0x1000 + 2 ^ 32 * 3) (1123 + 2 ^ 32 * 3) (3 * 2 ^ 32 + 4 * 2 ^ 36), _,
      ready_of _ 1 .a (by decide +kernel), .inl (by decide +kernel), by decide +kernel, by decide +kernel, xrun_of (by decide +kernel)⟩⟩
  · exact holds_of _ (by decide +kernel)
  · exact holds_of _ (by decide +kernel)
  · intro left hl
    simp only [List.mem_cons, List.not_mem_nil, or_false] at hl
    rcases hl with rfl | rfl
    · exact ⟨packed (0x100 + 2 ^ 32 * 141) (0x1000 + 2 ^ 32 * 129) (1121 + 2 ^ 32) (128 + 2 ^ 32), _, ready_of _ 1 .a (by decide +kernel),
        .inl (by decide +kernel), by decide +kernel, by decide +kernel, xrun_of (by decide +kernel), by decide +kernel⟩
    · exact ⟨packed (0x100 + 2 ^ 32 * 141) (0x1000 + 2 ^ 32 * 201) (1121 + 2 ^ 32) (200 + 2 ^ 32), _, ready_of _ 1 .a (by decide +kernel),
        .inl (by decide +kernel), by decide +kernel, by decide +kernel, xrun_of (by decide +kernel), by decide +kernel⟩

/-- The stream of a match: the byte A and the length code 15 have one bit each; then the length code, its 8 extra bits, and 12 bits of
distance. -/
def matchBytes : List Host.Cell := [(0x124, 0x10), (0x18B, 0x10), (0x18C, 1)]

/-- Of an incomplete code: A alone has one bit, and the stream holds the other. -/
def gapBytes : List Host.Cell := [(0x124, 0x10), (0x18C, 1)]

/-- Three symbols of one bit. -/
def fullBytes : List Host.Cell := [(0x104, 0x11), (0x105, 1)]

/-- The state with other bytes of a stream, and the scalars s40 to s43. -/
def streamed (m : List Host.Cell) (a b c d : Nat) : State :=
  dress plain (fun x =>
    let x := scalars [(40, a), (41, b), (42, c), (43, d)] x
    { x with crew := { x.crew with mem := m } })

/-- What every XDEC asks of the strand, as a test. -/
def xready (s : State) : Bool :=
  readyFor s 1 .a && (seen s).t.chunk.st == .idle && decide ((seen s).width ≤ 64) && (seen s).regOk (vr 12)

theorem xready_of {s : State} (h : xready s = true) :
    Ready s (seen s) 1 .a ∧ Room (seen s) (seen s) ∧ (seen s).width ≤ 64 ∧ (seen s).regOk (vr 12) = true := by
  simp only [xready, Bool.and_eq_true, beq_iff_eq, decide_eq_true_eq] at h
  exact ⟨ready_of _ 1 .a h.1.1.1, .inl (by rw [h.1.1.2]; decide), h.1.2, h.2⟩

/-- PackedStream, a new stream: too short for its header, and with lengths that form no code. -/
theorem witness_streamStart :
    (∃ (s : State) (c : Cur), (Ready s c 1 .a ∧ Room c c ∧ c.width ≤ 64 ∧ c.regOk (vr 12) = true) ∧
      XRun c xdecOps 0x100 139 0x1000 0 0 0 0 0 0 0) ∧
    (∃ (s : State) (c : Cur), (Ready s c 1 .a ∧ Room c c ∧ c.width ≤ 64 ∧ c.regOk (vr 12) = true) ∧
      XRun c xdecOps 0x100 140 0x1000 0 0 0 0 0 0 0 ∧ ¬ CodeFits c 0x100) :=
  ⟨⟨streamed matchBytes (0x100 + 2 ^ 32 * 139) 0x1000 0 0, _, xready_of (by decide +kernel), xrun_of (by decide +kernel)⟩,
    ⟨streamed fullBytes (0x100 + 2 ^ 32 * 140) 0x1000 0 0, _, xready_of (by decide +kernel), xrun_of (by decide +kernel),
      by unfold CodeFits; decide +kernel⟩⟩

/-- PackedStream, a length code: the stream ends within it, it would pass OUTLEN, it refers too far back, and it can be copied; and
bits that are no symbol's code. -/
theorem witness_streamMatch :
    (∀ x ∈ [(141, 266, 1), (144, 100, 1), (144, 266, 0), (144, 266, 1)], ∃ (s : State) (c : Cur),
      (Ready s c 1 .a ∧ Room c c ∧ c.width ≤ 64 ∧ c.regOk (vr 12) = true) ∧
      XRun c xdecOps 0x100 x.1 0x1000 x.2.1 1120 x.2.2 0 0 1 0 ∧ CodeFits c 0x100 ∧ HoldsSymbol c 0x100 1120 (256 + 15) ∧
      lanesOfEm c = 32 ∧ copyLen 15 (streamNum c 0x100 (1120 + codeLen c 0x100 271) (extraBits 15)) = 265 ∧
      streamNum c 0x100 (1120 + codeLen c 0x100 271 + extraBits 15) 12 = 0 ∧
      1120 + codeLen c 0x100 271 + extraBits 15 + 12 = 1141) ∧
    (∃ (s : State) (c : Cur), (Ready s c 1 .a ∧ Room c c ∧ c.width ≤ 64 ∧ c.regOk (vr 12) = true) ∧
      XRun c xdecOps 0x100 144 0x1000 266 1120 1 0 0 1 0 ∧ CodeFits c 0x100 ∧ lanesOfEm c = 32 ∧
      ∀ sym, sym < 272 → ¬ HoldsSymbol c 0x100 1120 sym) := by
  refine ⟨fun x hx => ?_, streamed gapBytes (0x100 + 2 ^ 32 * 144) (0x1000 + 2 ^ 32 * 266) (1120 + 2 ^ 32) (2 ^ 32), _,
    xready_of (by decide +kernel), xrun_of (by decide +kernel), by unfold CodeFits; decide +kernel, by decide +kernel,
    by unfold HoldsSymbol; decide +kernel⟩
  let a := 0x100 + 2 ^ 32 * x.1
  let b := 0x1000 + 2 ^ 32 * x.2.1
  let p := 1120 + 2 ^ 32 * x.2.2
  have h : xready (streamed matchBytes a b p (2 ^ 32)) = true ∧
      xrunOk (streamed matchBytes a b p (2 ^ 32)) x.1 x.2.1 1120 x.2.2 0 0 1 0 = true ∧
      CodeFits (seen (streamed matchBytes a b p (2 ^ 32))) 0x100 ∧
      HoldsSymbol (seen (streamed matchBytes a b p (2 ^ 32))) 0x100 1120 (256 + 15) ∧
      lanesOfEm (seen (streamed matchBytes a b p (2 ^ 32))) = 32 ∧
      codeLen (seen (streamed matchBytes a b p (2 ^ 32))) 0x100 271 = 1 ∧
      streamNum (seen (streamed matchBytes a b p (2 ^ 32))) 0x100 1121 8 = 0 ∧
      streamNum (seen (streamed matchBytes a b p (2 ^ 32))) 0x100 1129 12 = 0 := by
    unfold CodeFits HoldsSymbol
    simp only [List.mem_cons, List.not_mem_nil, or_false] at hx
    obtain rfl | rfl | rfl | rfl := hx <;> decide +kernel
  obtain ⟨h1, h2, h3, h4, h5, h6, h7, h8⟩ := h
  refine ⟨streamed matchBytes a b p (2 ^ 32), _, xready_of h1, xrun_of h2, h3, h4, h5, ?_, ?_, ?_⟩ <;> rw [h6]
  · rw [show extraBits 15 = 8 from rfl, h7]; rfl
  · exact h8
  · rfl

/-- PackedStream, its traps: a bit that must be zero, a stream and a ring outside crew memory. -/
theorem witness_streamTraps : ∀ x ∈ [(0x100 + 2 ^ 32 * 144, 0x1000, 2 ^ 63), (0x100 + 2 ^ 32 * 131072, 0x1000, 0),
    (0x100 + 2 ^ 32 * 144, 130000, 0)], ∃ (s : State) (c : Cur), (Ready s c 1 .a ∧ Room c c ∧ c.width ≤ 64 ∧ c.regOk (vr 12) = true) ∧
      (c.sr 40).toNat = x.1 ∧ (c.sr 41).toNat = x.2.1 ∧ (c.sr 43).toNat = x.2.2 ∧ c.crew.launch.crewmem = 131072 := by
  intro x hx
  have h : xready (streamed matchBytes x.1 x.2.1 0 x.2.2) = true ∧ ((seen (streamed matchBytes x.1 x.2.1 0 x.2.2)).sr 40).toNat = x.1 ∧
      ((seen (streamed matchBytes x.1 x.2.1 0 x.2.2)).sr 41).toNat = x.2.1 ∧
      ((seen (streamed matchBytes x.1 x.2.1 0 x.2.2)).sr 43).toNat = x.2.2 ∧
      (seen (streamed matchBytes x.1 x.2.1 0 x.2.2)).crew.launch.crewmem = 131072 := by
    simp only [List.mem_cons, List.not_mem_nil, or_false] at hx
    obtain rfl | rfl | rfl := hx <;> decide +kernel
  exact ⟨_, _, xready_of h.1, h.2⟩

end

end Sys2Proof.Tests
end

