-- ==== Sys2Proof/Tests/WitnessF.lean ====
section
/-!
SUPPORT. Witnesses of the statements about clauses, pairs, chunks, JOIN, the width of warps, wakes and parked traps.
-/

set_option Elab.async false

namespace Sys2Proof.Tests

open Sys2Proof Sys2Proof.Machine Sys2Proof.Rules

noncomputable section

/-- A header of `n` words with more bits: F0 and F1, PAIR and CB as given. -/
def header (n : Nat) (pair cb : Bool) : Nat := 0xF000001000000000 + n * 2 ^ 56 + bit pair * 2 ^ 22 + bit cb * 2 ^ 21

/-- The strand at a header. -/
def atHeader (cb : Bool) (f : Cur → Cur) : State := dress (bare (header 1 false cb)) f

theorem cur?_of (s : State) (h : (s.focus == some probeRef && (s.curOf probeRef).isSome) = true) : s.cur? = some (seen s) := by
  rw [Bool.and_eq_true, beq_iff_eq] at h
  rw [State.cur?, h.1]
  exact cur_of_seen s h.2

/-- What ClauseStart asks of a state and its header, as a test. -/
def startsAt (s : State) (w : W64) : Bool :=
  s.focus == some probeRef && (s.curOf probeRef).isSome && s.mayIssue (seen s) true &&
    decide ((s.fetchWord (seen s).ctx (seen s).t.core.hdr).toOption = some w) && headerOk w

theorem starts_of {s : State} {w : W64} (h : startsAt s w = true) : s.cur? = some (seen s) ∧ s.mayIssue (seen s) true = true ∧
    s.fetchWord (seen s).ctx (seen s).t.core.hdr = .ok w ∧ headerOk w = true := by
  simp only [startsAt, Bool.and_eq_true, decide_eq_true_eq] at h
  obtain ⟨⟨⟨h1, h2⟩, h3⟩, h4⟩ := h
  refine ⟨cur?_of s (by rw [Bool.and_eq_true]; exact h1), h2, ?_, h4⟩
  revert h3
  cases s.fetchWord (seen s).ctx (seen s).t.core.hdr with
  | ok x => intro h; simpa [Except.toOption] using h
  | error e => intro h; simp [Except.toOption] at h

/-- Flags pending in the strand. -/
def pending (l : List Nat) (c : Cur) : Cur := c.mapT (fun t => { t with pends := l.map (fun f => ⟨f, []⟩) })

theorem none_waits {w : W64} {t : Strand} (h : t.pends = []) : ¬ WaitsFor w t := by
  rintro ⟨f, -, ⟨p, hp, -⟩, -⟩
  rw [h] at hp
  exact absurd hp (by simp)

/-- ClauseStart: a flag that the header names is pending; a header that counts; CB with a chunk open and with none; a header applied
again in the middle of its clause. -/
theorem witness_ClauseStart :
    (∃ (s : State) (c : Cur) (w : W64), s.cur? = some c ∧ s.mayIssue c true = true ∧ s.fetchWord c.ctx c.t.core.hdr = .ok w ∧
      headerOk w = true ∧ WaitsFor w c.t) ∧
    (∃ (s : State) (c : Cur) (w : W64), s.cur? = some c ∧ s.mayIssue c true = true ∧ s.fetchWord c.ctx c.t.core.hdr = .ok w ∧
      headerOk w = true ∧ ¬ WaitsFor w c.t ∧ c.t.core.pc = c.t.core.hdr ∧ hdrCb w = false) ∧
    (∀ st ∈ [ChunkSt.opened, .idle], ∃ (s : State) (c : Cur) (w : W64), s.cur? = some c ∧ s.mayIssue c true = true ∧
      s.fetchWord c.ctx c.t.core.hdr = .ok w ∧ headerOk w = true ∧ ¬ WaitsFor w c.t ∧ c.t.core.pc = c.t.core.hdr ∧ hdrCb w = true ∧
      c.t.chunk.st = st) ∧
    (∃ (s : State) (c : Cur) (w : W64), s.cur? = some c ∧ s.mayIssue c true = true ∧ s.fetchWord c.ctx c.t.core.hdr = .ok w ∧
      headerOk w = true ∧ ¬ WaitsFor w c.t ∧ c.t.core.pc ≠ c.t.core.hdr) := by
  refine ⟨?_, ?_, ?_, ?_⟩
  · obtain ⟨h1, h2, h3, h4⟩ := starts_of (s := atHeader false (pending [0])) (w := BitVec.ofNat 64 (header 1 false false)) (by decide +kernel)
    exact ⟨_, _, _, h1, h2, h3, h4, 0, by decide, ⟨⟨0, []⟩, by decide +kernel, rfl⟩, by decide +kernel⟩
  · obtain ⟨h1, h2, h3, h4⟩ := starts_of (s := atHeader false id) (w := BitVec.ofNat 64 (header 1 false false)) (by decide +kernel)
    exact ⟨_, _, _, h1, h2, h3, h4, none_waits (by decide +kernel), by decide +kernel, by decide +kernel⟩
  · intro st hst
    simp only [List.mem_cons, List.not_mem_nil, or_false] at hst
    rcases hst with rfl | rfl
    · obtain ⟨h1, h2, h3, h4⟩ := starts_of (s := atHeader true (opened 3)) (w := BitVec.ofNat 64 (header 1 false true)) (by decide +kernel)
      exact ⟨_, _, _, h1, h2, h3, h4, none_waits (by decide +kernel), by decide +kernel, by decide +kernel, by decide +kernel⟩
    · obtain ⟨h1, h2, h3, h4⟩ := starts_of (s := atHeader true id) (w := BitVec.ofNat 64 (header 1 false true)) (by decide +kernel)
      exact ⟨_, _, _, h1, h2, h3, h4, none_waits (by decide +kernel), by decide +kernel, by decide +kernel, by decide +kernel⟩
  · obtain ⟨h1, h2, h3, h4⟩ := starts_of (s := dress (bare 0) (fun c => c.mapCore (fun k => { k with inClause := false })))
      (w := probeHeader) (by decide +kernel)
    exact ⟨_, _, _, h1, h2, h3, h4, none_waits (by decide +kernel), by decide +kernel⟩

/-- The strand at the first word of a pair, with a chunk that has room for just these two or none open. -/
def paired (f : Cur → Cur) : State :=
  dress plain (fun c => f (c.mapCore (fun k => { k with hword := BitVec.ofNat 64 (header 2 true false) })))

def addOps : VOps := ⟨vr 20, vr 1, vr 2, .u32, g0⟩
def pairA : PairOp := .valu .add addOps
def pairB : PairOp := .ffma .ffma ⟨vr 21, vr 3, vr 3, vr 3, .f32, none, g0⟩

/-- The strand behind a member of a pair. -/
def behindPair (c : Cur) (a : PairOp) : Cur := (c.pairOp a).toOption.getD c

theorem behindPair_eq {c : Cur} {a : PairOp} (h : (c.pairOp a).isOk = true) : c.pairOp a = .ok (behindPair c a) := by
  unfold behindPair
  cases hx : c.pairOp a with
  | ok d => rfl
  | error e => rw [hx] at h; exact absurd h (by simp [Except.isOk, Except.toBool])

/-- Pairs: an integer and a multiply-add member, in an idle strand and with one word less than CHLIM in the chunk. -/
theorem witness_Pairs : (∀ n ∈ [0, 30], ∃ (s : State) (c d1 d2 : Cur) (a b : PairOp), Ready s c 2 .none ∧ Room c d2 ∧ pairOk a b = true ∧
      (∀ r ∈ (a.dest :: a.reads) ++ (b.dest :: b.reads), c.regOk r = true) ∧ c.pairOp a = .ok d1 ∧ d1.pairOp b = .ok d2 ∧
      (c.t.chunk.st ≠ .opened → 1 < c.t.core.chlim) ∧ (c.t.chunk.st = .opened → c.t.chunk.count + 1 < c.t.chunk.chlim) ∧
      c.t.chunk.count = n) ∧
    ∃ (s : State) (c d : Cur) (a : PairOp), Ready s c 1 .none ∧ Room c d ∧ c.pairOp a = .ok d := by
  refine ⟨?_, ⟨plain, _, _, pairA, plain_ready 1 .none (by decide), .inl (by decide +kernel), behindPair_eq (by decide +kernel)⟩⟩
  intro n hn
  simp only [List.mem_cons, List.not_mem_nil, or_false] at hn
  rcases hn with rfl | rfl
  · exact ⟨paired id, _, _, _, pairA, pairB, ready_of _ 2 .none (by decide +kernel), .inl (by decide +kernel), by decide,
      by decide +kernel, behindPair_eq (by decide +kernel), behindPair_eq (by decide +kernel), by decide +kernel, by decide +kernel,
      by decide +kernel⟩
  · exact ⟨paired (fun c => (opened 30 c).mapChunk (fun h => { h with chlim := 32 })), _, _, _, pairA, pairB, ready_of _ 2 .none (by decide +kernel), .inr ⟨by decide +kernel, by decide +kernel⟩,
      by decide, by decide +kernel, behindPair_eq (by decide +kernel), behindPair_eq (by decide +kernel), by decide +kernel,
      by decide +kernel, by decide +kernel⟩

/-- The strand's chunk changed. -/
def chunked (f : Chunk → Chunk) : State := dress plain (fun c => c.mapChunk f)

/-- The chunk of a strand that is not placed and began before the present one: it wrote the word at 0x4000 and crew memory. -/
def aheadOf (st : ChunkSt) : Chunk := { Chunk.none with st := st, gws := [0x1000], gw := [(0x4000, 7)], cws := [2], cw := [(8, 9)] }

/-- A strand with a chunk in front of the one it has open. -/
def queued (st : ChunkSt) : State :=
  dress plain (fun c => (c.mapChunk (fun h => { h with st := .opened, gws := [0x1000], gw := [(0x4000, 5)] })).mapT
    (fun t => { t with earlier := [aheadOf st] }))

/-- FlagsAndChunkEnds: a pending flag, both ways to a chunk's end, an ended chunk, and a strand first in line for a free slot. -/
theorem witness_FlagsAndChunkEnds :
    (∃ (s : State) (c : Cur), s.curOf c.ref = some c ∧ c.t.pends ≠ []) ∧
    (∃ (s : State) (c : Cur), s.curOf c.ref = some c ∧ AtEnd c.t ∧ c.t.chunk.chlim = c.t.chunk.count) ∧
    (∃ (s : State) (c : Cur), s.curOf c.ref = some c ∧ AtEnd c.t ∧ c.t.chunk.count < c.t.chunk.chlim) ∧
    (∃ (s : State) (c : Cur), s.curOf c.ref = some c ∧ c.t.earlier = [] ∧ c.t.chunk.st = .ended ∧ c.t.pends = []) ∧
    (∃ (s : State) (c : Cur) (ch : Chunk) (rest : List Chunk), s.curOf c.ref = some c ∧ c.t.earlier = ch :: rest ∧ ch.st = .ended) ∧
    (∃ (s : State) (c : Cur) (die : Nat) (p : Pin) (rest : List StrandRef), s.curOf c.ref = some c ∧ s.pins[die]? = some p ∧
      p.holder = none ∧ p.queue = c.ref :: rest ∧ c.t.chunk.st = .pinWait ∧ die ≠ 0) :=
  ⟨⟨dress plain (pending [3]), _, curOf_seen _ (by decide +kernel), by decide +kernel⟩,
    ⟨chunked (fun h => { h with st := .opened, count := 256, chlim := 256 }), _, curOf_seen _ (by decide +kernel),
      ⟨by decide +kernel, .inl (by decide +kernel)⟩, by decide +kernel⟩,
    ⟨chunked (fun h => { h with st := .opened, count := 7, chlim := 256, limit := some (7, 0x10008) }), _,
      curOf_seen _ (by decide +kernel), ⟨by decide +kernel, .inr (by decide +kernel)⟩, by decide +kernel⟩,
    ⟨chunked (fun h => { h with st := .ended }), _, curOf_seen _ (by decide +kernel), by decide +kernel⟩,
    ⟨queued .ended, _, aheadOf .ended, [], curOf_seen _ (by decide +kernel), by rfl, rfl⟩,
    ⟨{ chunked (fun h => { h with st := .pinWait }) with pins := List.replicate 8 ⟨none, 0, [probeRef]⟩ }, _, 7, ⟨none, 0, [probeRef]⟩, [],
      curOf_seen _ (by decide +kernel), by rfl, rfl, by rw [seen_ref], by decide +kernel, by decide⟩⟩

theorem warp_seen (s : State) (h : (s.curOf probeRef).isSome = true) : s.warp? probeRef.w = some (seen s).warp := by
  have hc := cur_of_seen s h
  unfold State.curOf at hc
  split at hc
  · simp at hc
  · next k hk =>
    split at hc
    · simp at hc
    · next w hw =>
      split at hc
      · simp at hc
      · simp only [Option.some.injEq] at hc
        rw [State.warp?, hk, ← hc]
        exact hw

theorem strand_seen (s : State) (h : (s.curOf probeRef).isSome = true) : s.strand? probeRef = some (seen s).t := by
  have hc := cur_of_seen s h
  unfold State.curOf at hc
  split at hc
  · simp at hc
  · next k hk =>
    split at hc
    · simp at hc
    · next w hw =>
      split at hc
      · simp at hc
      · next t ht =>
        simp only [Option.some.injEq] at hc
        rw [State.strand?, State.warp?, hk, ← hc]
        simp only [Option.bind_some, hw, ht]

/-- A test of every strand. -/
theorem every_strand {s : State} {p : Strand → Bool} (h : s.crews.all (fun k => k.warps.all (fun w => w.strands.all (fun o =>
    match o with | some t => p t | none => true))) = true) (r : StrandRef) (t : Strand) (hr : s.strand? r = some t) : p t = true := by
  simp only [State.strand?, State.warp?, State.crew?, Crew.warp?, Option.bind_eq_some_iff] at hr
  obtain ⟨w, ⟨k, hk, hw⟩, ht⟩ := hr
  rw [List.all_eq_true] at h
  have h := h k (List.mem_of_find?_eq_some hk)
  rw [List.all_eq_true] at h
  have h := h w (List.mem_of_find?_eq_some hw)
  rw [List.all_eq_true] at h
  have hm : some t ∈ w.strands := by
    unfold Warp.strand? at ht
    rw [List.getD_eq_getElem?_getD] at ht
    cases hx : w.strands[r.strand]? with
    | none => rw [hx] at ht; simp at ht
    | some o =>
      rw [hx] at ht
      simp only [Option.getD_some] at ht
      subst ht
      exact List.mem_of_getElem? hx
  exact h (some t) hm

/-- The strand has written word 0x1000 and waits for its commit; strand 1 has read that word in an open chunk, and strand 2 is idle. -/
def committing : State :=
  dress (chunked (fun h => { h with st := .ordering, gws := [0x1000], gw := [(0x4000, 7)] })) (fun c =>
    let t := startStrand probeLaunch 0
    { c with warp := { c.warp with strands := [some c.t, some { t with chunk := { t.chunk with st := .opened, grs := [0x1000], snap := some t.core } },
      some t, none] } })

/-- No strand has a chunk that a merge or a DBR has touched, or a PINNED one. -/
def pinFree (s : State) (pins : Bool) : Bool :=
  s.crews.all (fun k => k.warps.all (fun w => w.strands.all (fun o => match o with
    | some t => t.earlier.isEmpty && t.chunk.childIdx.isNone && t.chunk.owner.isNone && (pins || !t.chunk.pinned)
    | none => true)))

theorem noPin_of {s : State} {c : Cur} (pins : Bool) (h : pinFree s pins = true) (ha : pins = true → ∀ r t, s.strand? r = some t → r = c.ref) :
    NoPinMet s c := by
  intro r t hr
  have := every_strand (p := fun t => t.earlier.isEmpty && t.chunk.childIdx.isNone && t.chunk.owner.isNone && (pins || !t.chunk.pinned))
    h r t hr
  simp only [Bool.and_eq_true, List.isEmpty_iff, Option.isNone_iff_eq_none, Bool.or_eq_true, Bool.not_eq_true'] at this
  obtain ⟨⟨⟨h1, h2⟩, h3⟩, h4⟩ := this
  refine ⟨h1, h2, h3, fun hn hp => ?_⟩
  rcases h4 with h4 | h4
  · exact absurd (ha h4 r t hr) hn
  · rw [h4] at hp; exact absurd hp (by decide)

/-- A PINNED chunk that has ended in front of a singleton instruction. -/
def pinnedEnd : State :=
  dress (chunked (fun h => { h with st := .ended, pinned := true })) (fun c => c.mapT (fun t => { t with wait := .sing (.bwait ⟨7, 8, 1⟩) }))

/-- ChunkCommit: an offered chunk beside one that it squashes and an idle strand, and a PINNED chunk alone. -/
theorem witness_ChunkCommit :
    (∃ (s : State) (c : Cur) (r q : StrandRef) (x y : Strand), s.memWf = true ∧ s.curOf c.ref = some c ∧ Placeable c.t ∧ NoPinMet s c ∧
      s.strand? r = some x ∧ s.strand? q = some y ∧ Overlaps c r x ∧
      c.t.chunk.bars = [] ∧ c.t.chunk.closes = [] ∧ c.t.wait = .none ∧ r ≠ c.ref ∧ r.strand < 4 ∧
      x.chunk.active = true ∧ x.chunk.pinned = false ∧ q ≠ c.ref ∧ y.chunk.active = false ∧
      c.t.chunk.disc.contains (0x4000 / 4) = false ∧ s.dead.contains (0x4000 / 4) = false) ∧
    (∃ (s : State) (c : Cur), s.memWf = true ∧ s.curOf c.ref = some c ∧ Placeable c.t ∧ NoPinMet s c ∧ c.t.chunk.bars = [] ∧
      c.t.chunk.closes = [] ∧ c.t.wait = .sing (.bwait ⟨7, 8, 1⟩) ∧ c.t.chunk.pinned = true) := by
  constructor
  · exact ⟨committing, _, ⟨probeRef.w, 1⟩, ⟨probeRef.w, 2⟩, _, _, by decide +kernel, curOf_seen _ (by decide +kernel),
      .inl (by decide +kernel), noPin_of false (by decide +kernel) (fun h => absurd h (by decide)),
      by rfl, by rfl, .inl ⟨0x1000, by decide +kernel, .inl (by decide +kernel)⟩, by decide +kernel⟩
  · exact ⟨pinnedEnd, _, by decide +kernel, curOf_seen _ (by decide +kernel), .inr (by decide +kernel),
      noPin_of true (by decide +kernel) (fun _ r t hr => by rw [seen_ref]; exact only_strand pinnedEnd (by decide +kernel) r t hr),
      by decide +kernel⟩

/-- The strand's chunk is offered. -/
def offered (f : Chunk → Chunk) : State := chunked (fun h => f { h with st := .ordering })

/-- CommitOrder: two chunks of a strand, and one that ended at a BCLOSE with a command open. -/
theorem witness_CommitOrder :
    (∃ (s : State) (c : Cur), s.curOf c.ref = some c ∧ Quiet s c ∧ c.t.earlier = aheadOf .ordering :: [] ∧
      (aheadOf .ordering).st = .ordering ∧ (aheadOf .ordering).bars = [] ∧ (aheadOf .ordering).closes = [] ∧
      (aheadOf .ordering).pinned = false ∧ (∀ g ∈ c.t.unplaced, g.owner = none) ∧ c.t.wait = .none ∧
      (aheadOf .ordering).disc.contains (0x4000 / 4) = false ∧ s.dead.contains (0x4000 / 4) = false) ∧
    (∃ (s : State) (c : Cur), CanCommit s c ∧ c.t.chunk.closes = [7] ∧ c.t.wait = .none ∧
      ∃ x ∈ s.cmds, x.warp = some c.ref.w ∧ x.batch = none) :=
  ⟨⟨queued .ordering, _, curOf_seen _ (by decide +kernel), quiet_of _ (by decide +kernel) (by decide +kernel), by decide +kernel⟩,
    ⟨withCmd (offered (fun h => { h with closes := [7] })), _, ⟨curOf_seen _ (by decide +kernel), .inl (by decide +kernel),
      by decide +kernel, quiet_of _ (by decide +kernel) (by decide +kernel), by decide +kernel⟩, by decide +kernel, by decide +kernel,
      pendingCmd 5, by exact List.mem_singleton.mpr rfl, by decide +kernel⟩⟩

/-- A flagged instruction that writes s5, v20 and v1 is pending. -/
def oldVec : VecReg := { tag := .f32, lanes := List.replicate 32 3 }
def waiting : State := dress plain (flagged [.scal 5 9, .vec 20 oldVec .f32, .vec 1 oldVec .i32])

theorem waiting_old {r : Fin 256} {old : VecReg} (h : OldVector (seen waiting) (vr r) old) :
    (seen waiting).slot r.val = 20 ∨ ((seen waiting).slot r.val = 1 ∧ old.tag = .i32) := by
  obtain ⟨q, hq, x, t, hx, rfl⟩ := h
  have e : (seen waiting).t.pends = [{ flag := 0, old := [.scal 5 9, .vec 20 oldVec .f32, .vec 1 oldVec .i32] }] := by decide +kernel
  rw [e] at hq
  obtain rfl := List.mem_singleton.mp hq
  simp only [List.mem_cons, reduceCtorEq, OldVal.vec.injEq, List.not_mem_nil, or_false, false_or] at hx
  obtain ⟨h1, -, -⟩ | ⟨h1, -, h2⟩ := hx
  · exact .inl h1
  · exact .inr ⟨h1, h2⟩

/-- PendingFlags: a scalar and a vector register that a pending instruction writes, ones that it does not, and a flagged SLD. -/
theorem witness_PendingFlags :
    (∃ (s : State) (c : Cur) (r q : SReg), Issuable s c 1 .none ∧ Room c c ∧ r.val ≠ 0 ∧ PendingScalar c r ∧ q.val ≠ 0 ∧
      ¬ PendingScalar c q) ∧
    (∃ (s : State) (c : Cur) (va vd vx : VReg), Issuable s c 1 .none ∧ Room c c ∧ c.regOk va = true ∧ c.regOk vd = true ∧
      c.regOk vx = true ∧ (∀ v, SeenVector c va v → v.tag ≠ .poison) ∧ PendingVector c va ∧ PendingVector c vd ∧
      ¬ PendingVector c vx) ∧
    (∃ (s : State) (c : Cur) (o : SMemOps) (lf : Leaf) (f : Nat), o.wf = true ∧ Ready s c 1 o.cf ∧ Fits c ∧
      hdrFlag c.t.core.hword o.cf = some f ∧
      s.gAccess c XReq.load true (eaOf c o.base none o.off o.w.bytes 0) o.w.bytes o.w.bytes = .ok lf ∧ lf.pol = 0 ∧ o.r.val ≠ 0) := by
  have e : (seen waiting).t.pends = [{ flag := 0, old := [.scal 5 9, .vec 20 oldVec .f32, .vec 1 oldVec .i32] }] := by decide +kernel
  refine ⟨⟨waiting, _, 5, 6, issuable_of _ 1 .none (by decide +kernel), .inl (by decide +kernel), by decide, ?_, by decide, ?_⟩,
    ⟨waiting, _, vr 1, vr 20, vr 21, issuable_of _ 1 .none (by decide +kernel), .inl (by decide +kernel), by decide +kernel,
      by decide +kernel, by decide +kernel, ?_, ?_, ?_, ?_⟩, ?_⟩
  · exact ⟨_, by rw [e]; exact List.mem_singleton.mpr rfl, 9, by decide⟩
  · rintro ⟨q, hq, x, hx⟩
    rw [e] at hq
    obtain rfl := List.mem_singleton.mp hq
    simp at hx
  · rintro v ⟨h | ⟨old, ho, h⟩, -⟩ hp
    · rw [hp] at h
      exact absurd h (by decide +kernel)
    · rcases waiting_old ho with h1 | ⟨-, h1⟩
      · exact absurd h1 (by decide +kernel)
      · rw [h1, hp] at h; exact absurd h (by decide)
  · exact ⟨_, _, by rw [e]; exact List.mem_singleton.mpr rfl, oldVec, .i32, by decide +kernel, rfl⟩
  · exact ⟨_, _, by rw [e]; exact List.mem_singleton.mpr rfl, oldVec, .f32, by decide +kernel, rfl⟩
  · rintro ⟨old, ho⟩
    rcases waiting_old ho with h1 | ⟨h1, -⟩ <;> exact absurd h1 (by decide +kernel)
  · exact ⟨based, _, ⟨.b64, 7, 3, 0, .a, 0⟩, ⟨0x30000, 0, 0x1F, 3⟩, 0, by decide, based_ready 1 .a (by decide), based_fits,
      by decide +kernel, low_access (by decide +kernel) (by decide +kernel) (by decide +kernel) _ _, rfl, by decide⟩

/-- A second strand of the warp, with its lanes. -/
def other (w2 : Wait) (em : Mask) : Strand :=
  let t := startStrand probeLaunch 0
  { t with wait := w2, core := { t.core with em := em, l := em } }

/-- Two strands of a warp with one frame at the strand's header. -/
def joined (w1 w2 : Wait) (em : Mask) : State :=
  dress plain (fun c =>
    let c := c.mapT (fun t => { t with wait := w1 })
    { c with warp := { c.warp with strands := [some c.t, some (other w2 em), none, none], frames := [⟨0x10000, [0, 1]⟩] } })

/-- Strand 0 of a warp and strand 1 meet. -/
theorem arrive_of {s : State} {a b : Strand} (hl : (seen s).warp.strands = [some a, some b, none, none])
    (hf : (seen s).warp.frames = [⟨0x10000, [0, 1]⟩]) (hh : (seen s).t.core.hdr = 0x10000) (hb : b.wait = .joining 1)
    (ha1 : a.core.winb = (seen s).t.core.winb) (hb1 : b.core.winb = (seen s).t.core.winb) (ha2 : a.core.calls = []) (hb2 : b.core.calls = []) :
    AllArrive (seen s) ⟨0x10000, [0, 1]⟩ := by
  have e0 : (seen s).ref.strand = 0 := by rw [seen_ref]; rfl
  have st : ∀ k, (seen s).warp.strand? k = if k = 0 then some a else if k = 1 then some b else none := by
    intro k
    unfold Warp.strand?
    rw [hl]
    rcases k with _ | _ | _ | _ | k <;> simp
  refine ⟨hf, ⟨by rw [e0]; decide, hh.symm, by rw [e0, hl]; exact Nat.succ_pos _⟩, ⟨by decide, by decide⟩, ?_, ?_, ?_⟩
  · intro k hk hn
    rw [e0] at hn
    simp only [List.mem_cons, List.not_mem_nil, or_false] at hk
    rcases hk with rfl | rfl
    · exact absurd rfl hn
    · exact ⟨b, st 1, hb⟩
  · intro k hk
    simp only [List.mem_cons, List.not_mem_nil, or_false, not_or] at hk
    rw [st, if_neg hk.1, if_neg hk.2]
  · intro k t hk
    rw [st] at hk
    split at hk
    · obtain rfl : a = t := by simpa using hk
      exact ⟨ha1, by rw [ha2]; exact Nat.zero_le _⟩
    · split at hk
      · obtain rfl : b = t := by simpa using hk
        exact ⟨hb1, by rw [hb2]; exact Nat.zero_le _⟩
      · simp at hk

theorem arrives (w2 : Mask) (h : (seen (joined (.arriving true) (.joining 1) w2)).warp.strands =
      [some (seen (joined (.arriving true) (.joining 1) w2)).t, some (other (.joining 1) w2), none, none] ∧
      (seen (joined (.arriving true) (.joining 1) w2)).warp.frames = [⟨0x10000, [0, 1]⟩] ∧
      (seen (joined (.arriving true) (.joining 1) w2)).t.core.hdr = 0x10000 ∧
      (seen (joined (.arriving true) (.joining 1) w2)).t.core.winb = 0 ∧
      (seen (joined (.arriving true) (.joining 1) w2)).t.core.calls = []) :
    AllArrive (seen (joined (.arriving true) (.joining 1) w2)) ⟨0x10000, [0, 1]⟩ :=
  arrive_of h.1 h.2.1 h.2.2.1 rfl rfl (by rw [h.2.2.2.1]; rfl) h.2.2.2.2 rfl

/-- JoinMerge: an arrival whose chunk has not ended, one before the other member, and the last, with as many lanes and with fewer. -/
theorem witness_JoinMerge :
    (∃ (s : State) (c : Cur), s.curOf c.ref = some c ∧ c.t.wait = .arriving false ∧ c.t.pends = []) ∧
    (∃ (s : State) (c : Cur) (f : Frame), s.curOf c.ref = some c ∧ (c.t.wait = .arriving true ∧ c.t.chunk.pinned = false ∧
      c.warp.merges = [] ∧ c.warp.frames = [f] ∧ c.ref.strand ∈ f.members ∧ f.addr = c.t.core.hdr ∧
      c.ref.strand < c.warp.strands.length ∧ (∃ k ∈ f.members, k ≠ c.ref.strand)) ∧
      (∀ k t n, k ≠ c.ref.strand → c.warp.strand? k = some t → t.wait ≠ .joining n)) ∧
    (∀ m ∈ [(1 : Mask), 0xFFFFFFFF], ∃ (s : State) (c : Cur) (f : Frame), s.curOf c.ref = some c ∧ AllArrive c f ∧
      c.t.wait = .arriving true ∧ c.t.chunk.pinned = false ∧ c.warp.merges = [] ∧
      c.warp.strand? 1 = some (other (.joining 1) m)) := by
  refine ⟨⟨joined (.arriving false) .none 1, _, curOf_seen _ (by decide +kernel), by decide +kernel⟩,
    ⟨joined (.arriving true) .none 1, _, ⟨0x10000, [0, 1]⟩, curOf_seen _ (by decide +kernel), by decide +kernel, ?_⟩, ?_⟩
  · intro k t n _ hs
    have h := every_strand (s := joined (.arriving true) .none 1) (p := fun t => t.wait == .none || t.wait == .arriving true)
      (by decide +kernel) ⟨probeRef.w, k⟩ t (by
        have hw : (joined (.arriving true) .none 1).warp? probeRef.w = some (seen (joined (.arriving true) .none 1)).warp :=
          warp_seen _ (by decide +kernel)
        unfold State.strand?
        rw [hw]
        exact hs)
    intro hn
    simp [hn] at h
  · intro m hm
    refine ⟨joined (.arriving true) (.joining 1) m, _, ⟨0x10000, [0, 1]⟩, curOf_seen _ ?_, arrives m ?_, ?_⟩ <;>
    · simp only [List.mem_cons, List.not_mem_nil, or_false] at hm
      obtain rfl | rfl := hm <;> decide +kernel

/-- The strand parked. -/
def parked (w : Wait) (f : Cur → Cur := id) : State := dress based (fun c => f (c.mapT (fun t => { t with wait := w })))

theorem parked_cur {w : Wait} {f : Cur → Cur} (h : ((parked w f).curOf probeRef).isSome = true) :
    (parked w f).curOf (seen (parked w f)).ref = some (seen (parked w f)) := curOf_seen _ h

/-- No strand but the first of warp 0 of the probe crew has a chunk under way. -/
def calmBut (s : State) : Bool :=
  s.crews.all (fun k => k.warps.all (fun w => w.strands.zipIdx.all (fun x =>
    match x.1 with
    | some t => (k.ref == probeRef.w.crew && w.id == 0 && x.2 == 0) || t.unplaced.all (fun ch => !ch.active)
    | none => true)))

theorem quiet_but (s : State) (h : calmBut s = true) (hm : s.memWf = true) : Quiet s (seen s) := by
  refine ⟨hm, fun r t hr ht ch hch => ?_⟩
  rw [seen_ref] at hr
  simp only [State.strand?, State.warp?, State.crew?, Option.bind_eq_some_iff] at ht
  obtain ⟨w, ⟨k, hk, hw⟩, ht⟩ := ht
  simp only [calmBut, List.all_eq_true] at h
  have h1 := h k (List.mem_of_find?_eq_some hk) w (List.mem_of_find?_eq_some hw)
  have h2 : (some t, r.strand) ∈ w.strands.zipIdx := by
    unfold Warp.strand? at ht
    rw [List.getD_eq_getElem?_getD] at ht
    cases hx : w.strands[r.strand]? with
    | none => rw [hx] at ht; simp at ht
    | some y =>
      rw [hx] at ht
      obtain rfl : y = some t := by simpa using ht
      exact List.mem_zipIdx_iff_getElem?.mpr hx
  have h3 := h1 _ h2
  simp only [Bool.or_eq_true, Bool.and_eq_true, beq_iff_eq] at h3
  rcases h3 with ⟨⟨h4, h5⟩, h6⟩ | h3
  · refine absurd ?_ hr
    have e1 : k.ref = r.w.crew := by simpa using List.find?_some hk
    have e2 : w.id = r.w.warp := by simpa using List.find?_some hw
    obtain ⟨⟨rc, rw_⟩, rs⟩ := r
    simp only at e1 e2 h6
    subst h6
    rw [← e1, h4, ← e2, h5]
    rfl
  · simpa using List.all_eq_true.mp h3 ch hch

/-- A warp that splits, with a barrier, and with the lanes given. -/
def parting (l : Mask) : State := parked (.wsplit 7 1 0) (fun c => barred ⟨8, [0], [0], false⟩ (c.mapCore (fun k => { k with l := l })))

/-- SplitEvent: a status other than 0, and a split with both halves, with the low one and with the high one. -/
theorem witness_SplitEvent :
    (∃ (s : State) (c : Cur), s.curOf c.ref = some c ∧ c.t.wait = .wsplit 7 1 5 ∧ Alone c) ∧
    (∀ x ∈ [(true, true), (true, false), (false, true)], ∃ (s : State) (c : Cur), s.curOf c.ref = some c ∧ Quiet s c ∧ Alone c ∧
      SoundBars c ∧ ¬ CopyPending s c ∧ c.t.wait = .wsplit 7 1 0 ∧
      (∀ w ∈ c.crew.warps, w.id ≠ c.ref.w.warp + 2 ^ (4 + c.warp.splits.length)) ∧
      (∀ y ∈ s.cmds, y.warp ≠ some { c.ref.w with warp := c.ref.w.warp + 2 ^ (4 + c.warp.splits.length) }) ∧
      (maskPart c.t.core.l 0 (c.width / 2) ≠ 0 ↔ x.1 = true) ∧
      (maskPart c.t.core.l (c.width / 2) (c.width / 2) ≠ 0 ↔ x.2 = true) ∧ ∃ b ∈ c.crew.bars, c.ref.w.warp ∈ b.parts) := by
  refine ⟨⟨parked (.wsplit 7 1 5), _, parked_cur (by decide +kernel), by decide +kernel, alone_of (by decide +kernel)⟩, ?_⟩
  intro x hx
  have hx : ∃ l : Mask, l ∈ [(0xFFFFFFFF : Mask), 0xFFFF, 0xFFFF0000] ∧ x = (maskPart l 0 16 != 0, maskPart l 16 16 != 0) := by
    simp only [List.mem_cons, List.not_mem_nil, or_false] at hx
    obtain rfl | rfl | rfl := hx
    · exact ⟨0xFFFFFFFF, by decide, by decide +kernel⟩
    · exact ⟨0xFFFF, by decide, by decide +kernel⟩
    · exact ⟨0xFFFF0000, by decide, by decide +kernel⟩
  obtain ⟨l, hl, rfl⟩ := hx
  have h : ((parting l).curOf probeRef).isSome = true ∧ alone (parting l) = true ∧ (parting l).memWf = true ∧
      calm (seen (parting l)) = true ∧ (parting l).cmds = [] ∧ SoundBars (seen (parting l)) ∧
      (seen (parting l)).t.wait = .wsplit 7 1 0 ∧
      (∀ w ∈ (seen (parting l)).crew.warps, w.id ≠ (seen (parting l)).ref.w.warp + 2 ^ (4 + (seen (parting l)).warp.splits.length)) ∧
      (seen (parting l)).width = 32 ∧ (seen (parting l)).t.core.l = l ∧
      ∃ b ∈ (seen (parting l)).crew.bars, (seen (parting l)).ref.w.warp ∈ b.parts := by
    unfold SoundBars
    simp only [List.mem_cons, List.not_mem_nil, or_false] at hl
    obtain rfl | rfl | rfl := hl <;> decide +kernel
  obtain ⟨h1, h2, h3, h4, h5, h6, h7, h8, h9, h10, h11⟩ := h
  refine ⟨parting l, seen (parting l), curOf_seen _ h1, quiet_of _ h2 h3, alone_of h4, h6, ?_, h7, h8, ?_, ?_, ?_, h11⟩
  · rintro ⟨y, hy, -⟩
    rw [h5] at hy
    simp at hy
  · rw [h5]; simp
  · rw [h9, h10]; simp
  · rw [h9, h10]; simp

theorem alone_strand {c : Cur} {t : Strand} (hl : c.warp.strands = [some t, none, none, none]) (h0 : c.ref.strand = 0) (k : Nat) (x : Strand)
    (hk : k ≠ c.ref.strand) (hx : c.warp.strand? k = some x) : False := by
  rw [h0] at hk
  unfold Warp.strand? at hx
  rw [hl] at hx
  rcases k with _ | _ | _ | _ | k
  · exact hk rfl
  all_goals simp at hx

theorem curOf_some {s : State} {r : StrandRef} {c : Cur} (h : s.curOf r = some c) : c.ref = r := by
  unfold State.curOf at h
  split at h
  · simp at h
  · split at h
    · simp at h
    · split at h
      · simp at h
      · simp only [Option.some.injEq] at h
        rw [← h]

/-- Two warps of 16 lanes, 0 and 16, of one split, with the waits and the chunk given, and the sibling changed. -/
def halves (w0 w1 : Wait) (st : ChunkSt) (f : Warp → Warp := id) : State :=
  dress based (fun c =>
    let c := barred ⟨8, [0, 16], [0], false⟩ ((c.mapT (fun t => { t with wait := w0 })).mapChunk (fun h => { h with st := st }))
    let r : SplitRec := { lay := c.warp.lay, depth := 0, winb := 0, tiles := 0 }
    let low := { c.warp with width := 16, splits := [r] }
    let high : Warp := { startWarp probeLaunch 0 0 16 1 with
      width := 16, splits := [r], strands := [some { startStrand probeLaunch 0 with wait := w1 }, none, none, none] }
    { c with crew := { c.crew with warps := [low, f high] }, warp := low })

/-- The sibling's base of the window is another. -/
def shifted (w : Warp) : Warp :=
  { w with strands := w.strands.map (fun o => o.map (fun t => { t with core := { t.core with winb := 8 } })) }

/-- The other warp's strand. -/
def sibRef : StrandRef := ⟨{ probeRef.w with warp := 16 }, 0⟩

theorem sib_ref {s : State} (h : (s.curOf sibRef).isSome = true) : (seenAt s sibRef).ref = sibRef ∧ s.curOf sibRef = some (seenAt s sibRef) := by
  unfold seenAt
  cases hx : s.curOf sibRef with
  | none => rw [hx] at h; exact absurd h (by decide)
  | some c => exact ⟨curOf_some hx, rfl⟩

/-- The chunk of the strand can commit, as a test. -/
def commitsNow (s : State) : Bool :=
  (s.curOf probeRef).isSome && (seen s).t.chunk.st == .ordering && (seen s).t.earlier.isEmpty && calmBut s && s.memWf &&
    (seen s).t.chunk.bars.isEmpty

theorem canCommit_of {s : State} (h : commitsNow s = true) : CanCommit s (seen s) := by
  simp only [commitsNow, Bool.and_eq_true, beq_iff_eq, List.isEmpty_iff] at h
  obtain ⟨⟨⟨⟨⟨h1, h2⟩, h3⟩, h4⟩, h5⟩, h6⟩ := h
  exact ⟨curOf_seen _ h1, .inl h2, h3, quiet_but _ h4 h5, h6⟩

/-- A sibling parked at WFUSE, as a test. -/
def sibParked (s : State) (w : Wait) : Bool :=
  (s.curOf sibRef).isSome && siblingOf (seen s) == 16 && (seen s).ref.w == probeRef.w &&
    (seenAt s sibRef).warp.splits.length == (seen s).warp.splits.length && !(seen s).warp.splits.isEmpty &&
    (seenAt s sibRef).warp.strands == [some (seenAt s sibRef).t, none, none, none] && (seenAt s sibRef).t.wait == w &&
    !(seenAt s sibRef).warp.exited

theorem siblingAt_of {s : State} {sx : SReg} {x : W64} {limit since : Nat} (h : sibParked s (.wfuse sx x limit since) = true) :
    SiblingAt s (seen s) (seenAt s sibRef) sx x since := by
  simp only [sibParked, Bool.and_eq_true, beq_iff_eq, Bool.not_eq_true'] at h
  obtain ⟨⟨⟨⟨⟨⟨⟨h1, h2⟩, h3⟩, h4⟩, h5⟩, h6⟩, h7⟩, h8⟩ := h
  have hr := (sib_ref h1).1
  refine ⟨curOf_seenAt _ _ h1, by rw [hr, h2, h3]; rfl, by rw [h2, h3]; decide, ⟨h4, ?_⟩, ⟨by rw [hr]; decide, ?_⟩, ⟨limit, h7⟩, h8⟩
  · intro e
    rw [e] at h5
    exact absurd h5 (by decide)
  · exact alone_strand h6 (by rw [hr]; rfl)

/-- The one strand of its warp, as a test. -/
theorem sole_of {s : State} (h : (seen s).warp.strands = [some (seen s).t, none, none, none]) (k : Nat) (t : Strand)
    (hk : k ≠ (seen s).ref.strand) (hx : (seen s).warp.strand? k = some t) : False :=
  alone_strand h (by rw [seen_ref]; rfl) k t hk hx

/-- The strand's chunk ends at WFUSE, with a sibling. -/
def meets (w1 : Wait) (f : Warp → Warp := id) : State := halves (.wfuseEnd 7 0x10008 none) w1 .ordering f

/-- FuseArrivals: a status of the warp's own; a sibling that has exited; none at a WFUSE; no split; a sibling at another WFUSE since
another cycle and since this one; and one at the same WFUSE, with another window and with the same. -/
theorem witness_FuseArrivals :
    (∃ (s : State) (c : Cur), CanCommit s c ∧ c.t.chunk.closes = [] ∧ c.t.wait = .wfuseEnd 7 0x10008 (some 3)) ∧
    (∃ (s : State) (c : Cur), CanCommit s c ∧ c.t.chunk.closes = [] ∧ c.t.wait = .wfuseEnd 7 0x10008 none ∧ SiblingExited c) ∧
    (∃ (s : State) (c : Cur), CanCommit s c ∧ c.t.chunk.closes = [] ∧ c.t.wait = .wfuseEnd 7 0x10008 none ∧ ¬ SiblingExited c ∧
      c.warp.splits ≠ [] ∧ ∀ r x, r.w = { c.ref.w with warp := siblingOf c } → s.strand? r = some x → x.wait.atFuse = none) ∧
    (∃ (s : State) (c : Cur), CanCommit s c ∧ c.t.chunk.closes = [] ∧ c.t.wait = .wfuseEnd 7 0x10008 none ∧ ¬ SiblingExited c ∧
      c.warp.splits = []) ∧
    (∃ (s : State) (c d : Cur), CanCommit s c ∧ SiblingAt s c d 8 0x10010 5 ∧ c.t.chunk.closes = [] ∧
      c.t.wait = .wfuseEnd 7 0x10008 none ∧ (5 ≠ s.cycle.toNat ∧ siblingOf c > c.ref.w.warp)) ∧
    (∃ (s : State) (c d : Cur), CanCommit s c ∧ SiblingAt s c d 8 0x10010 5 ∧ c.t.chunk.closes = [] ∧
      c.t.wait = .wfuseEnd 7 0x10008 none ∧ (5 = s.cycle.toNat ∧ siblingOf c > c.ref.w.warp)) ∧
    (∀ b : Bool, ∃ (s : State) (c d : Cur), CanCommit s c ∧ SiblingAt s c d 8 0x10008 5 ∧
      (∀ k t, k ≠ c.ref.strand → c.warp.strand? k = some t → False) ∧ c.t.chunk.closes = [] ∧
      c.t.wait = .wfuseEnd 7 0x10008 none ∧ (SameWindow c d ↔ b = true)) := by
  refine ⟨⟨halves (.wfuseEnd 7 0x10008 (some 3)) .none .ordering, _, canCommit_of (by decide +kernel), by decide +kernel⟩,
    ⟨meets .none (fun w => { w with exited := true }), _, canCommit_of (by decide +kernel), by decide +kernel, by decide +kernel,
      by unfold SiblingExited; decide +kernel⟩,
    ⟨meets .none, _, canCommit_of (by decide +kernel), by decide +kernel, by decide +kernel, by unfold SiblingExited; decide +kernel,
      by decide +kernel, fun r x _ hx => ?_⟩,
    ⟨dress (offered id) (fun c => c.mapT (fun t => { t with wait := .wfuseEnd 7 0x10008 none })), _, canCommit_of (by decide +kernel),
      by decide +kernel, by decide +kernel, by unfold SiblingExited; decide +kernel, by decide +kernel⟩,
    ⟨meets (.wfuse 8 0x10010 64 5), _, _, canCommit_of (by decide +kernel), siblingAt_of (limit := 64) (by decide +kernel),
      by decide +kernel⟩,
    ⟨{ meets (.wfuse 8 0x10010 64 5) with cycle := 5 }, _, _, canCommit_of (by decide +kernel),
      siblingAt_of (limit := 64) (by decide +kernel), by decide +kernel⟩, ?_⟩
  · simpa using every_strand (s := meets .none) (p := fun t => t.wait.atFuse.isNone) (by decide +kernel) r x hx
  · intro b
    cases b
    · exact ⟨meets (.wfuse 8 0x10008 64 5) shifted, _, _, canCommit_of (by decide +kernel), siblingAt_of (limit := 64) (by decide +kernel),
        sole_of (by decide +kernel), by decide +kernel, by decide +kernel, by unfold SameWindow; decide +kernel⟩
    · exact ⟨meets (.wfuse 8 0x10008 64 5), _, _, canCommit_of (by decide +kernel), siblingAt_of (limit := 64) (by decide +kernel),
        sole_of (by decide +kernel), by decide +kernel, by decide +kernel, by unfold SameWindow; decide +kernel⟩

/-- FuseArrivals: a WFUSE at its limit. -/
theorem witness_fuseLimit : ∃ (s : State) (c : Cur), s.curOf c.ref = some c ∧ c.t.wait = .wfuse 7 0x10008 64 36 ∧
    64 ≤ s.cycle.toNat - 36 :=
  ⟨{ parked (.wfuse 7 0x10008 64 36) with cycle := 100 }, _, curOf_seen _ (by decide +kernel), by decide +kernel⟩

/-- FusionEvent: two warps of 16 lanes at WFUSE, with a barrier of both. -/
theorem witness_FusionEvent : ∃ (s : State) (c d : Cur), s.curOf c.ref = some c ∧ s.curOf d.ref = some d ∧
    (∀ k t, k ≠ c.ref.strand → c.warp.strand? k = some t → False) ∧
    (∀ k t, k ≠ d.ref.strand → d.warp.strand? k = some t → False) ∧ Alone c ∧ Quiet s c ∧ SoundBars c ∧
    c.ref.w.crew = d.ref.w.crew ∧ c.t.wait = .fusing 7 ∧ d.t.wait = .fusing 8 ∧ c.ref.strand < 4 ∧ d.ref.strand < 4 ∧
    c.ref.w.warp < siblingOf c ∧ siblingOf c = d.ref.w.warp ∧ c.warp.splits ≠ [] ∧
    c.warp.splits.length = d.warp.splits.length ∧ c.warp.width ≤ 32 ∧ ∃ b ∈ c.crew.bars, c.ref.w.warp ∈ b.parts := by
  have h1 : ((halves (.fusing 7) (.fusing 8) .idle).curOf sibRef).isSome = true := by decide +kernel
  refine ⟨halves (.fusing 7) (.fusing 8) .idle, _, seenAt (halves (.fusing 7) (.fusing 8) .idle) sibRef, curOf_seen _ (by decide +kernel),
    curOf_seenAt _ _ h1, sole_of (by decide +kernel),
    alone_strand (t := (seenAt (halves (.fusing 7) (.fusing 8) .idle) sibRef).t) (by decide +kernel) (by rw [(sib_ref h1).1]; rfl),
    alone_of (by decide +kernel), quiet_but _ (by decide +kernel) (by decide +kernel), by unfold SoundBars; decide +kernel,
    by decide +kernel⟩

/-- The warp of the strand by its reference. -/
theorem based_warp (f : Cur → Cur) (h : ((dress based f).curOf probeRef).isSome = true) :
    (dress based f).warp? probeRef.w = some (seen (dress based f)).warp := warp_seen _ h

/-- A queue with an item, whose first waiter is the strand. -/
def servedQueue : Queue := { someQueue .opened 1 0 with waiters := [probeRef] }
def served : State := (parked (.deq ⟨7, 8, 3, 1⟩ 0)).modCtx 0 (fun c => c.setQueue 3 servedQueue)

/-- Wakes: a value latched for SVWAIT and for WCWAIT, frozen or not; a fence with nothing to wait for; a batch; a queue with an item. -/
theorem witness_Wakes :
    (∃ (s : State) (c : Cur), s.curOf c.ref = some c ∧ c.t.wait = .sv true ⟨7, 3, 8, true⟩ 0x40000000 0 (some 9)) ∧
    (∀ b : Bool, ∃ (s : State) (c : Cur), s.curOf c.ref = some c ∧ c.t.wait = .wc false ⟨7, 8, 7, 1⟩ 0 (some (9, b))) ∧
    (∃ (s : State) (c : Cur), s.curOf c.ref = some c ∧ c.t.wait = .xf 4 ∧ (∃ f ∈ s.fences, f.id = 4) ∧
      (∀ f ∈ s.fences, f.id = 4 → f.before = [])) ∧
    (∃ (s : State) (c : Cur) (o : SabOps), s.curOf c.ref = some c ∧ c.t.wait = .bw o 0 ∧ Closed c o.sa ∧
      c.incomplete ((c.sr o.sa).setWidth 32) = false) ∧
    (∃ (s : State) (c : Cur) (o : QueueOps) (x : Queue) (l : Leaf), s.curOf c.ref = some c ∧ c.t.wait = .deq o 0 ∧ QueueAt s c o x ∧
      3 ≤ o.q.toNat ∧ x.waiters = c.ref :: [] ∧ x.st = .opened ∧ x.head < x.tail ∧ SlotOk s c x x.head XReq.ringRead l) := by
  refine ⟨⟨parked (.sv true ⟨7, 3, 8, true⟩ 0x40000000 0 (some 9)), _, parked_cur (by decide +kernel), by decide +kernel⟩, ?_,
    ⟨{ parked (.xf 4) with fences := [⟨4, 0, probeRef.w, 1, 4, []⟩] }, _, curOf_seen _ (by decide +kernel), by decide +kernel,
      ⟨_, List.mem_singleton.2 rfl, rfl⟩, by decide +kernel⟩,
    ⟨parked (.bw ⟨7, 1, 9⟩ 0) (batched [] 2), _, ⟨7, 1, 9⟩, parked_cur (by decide +kernel), by decide +kernel, by unfold Closed; decide +kernel,
      by decide +kernel⟩, ?_⟩
  · intro b
    cases b
    · exact ⟨parked (.wc false ⟨7, 8, 7, 1⟩ 0 (some (9, false))), _, parked_cur (by decide +kernel), by decide +kernel⟩
    · exact ⟨parked (.wc false ⟨7, 8, 7, 1⟩ 0 (some (9, true))), _, parked_cur (by decide +kernel), by decide +kernel⟩
  · obtain ⟨l, hl⟩ := slotOk_of served servedQueue 0 XReq.ringRead (by decide +kernel)
    exact ⟨served, _, ⟨7, 8, 3, 1⟩, servedQueue, l, curOf_seen _ (by decide +kernel), by decide +kernel,
      ⟨by decide +kernel, by decide, show 8 + 16 * 2 ^ 0 / 8 ≤ 64 by decide⟩, by decide, by rw [seen_ref]; rfl, rfl, by decide, hl⟩

/-- A report stands. -/
def reportedBefore (c : Cur) : Cur := { c with warp := { c.warp with report := some ⟨0, 1, 0x1000, false⟩ } }

/-- Wakes, BATCH_COMPLETE: a batch whose commands have finished, and one with a fatal condition behind a report and without one. -/
theorem witness_batchComplete :
    (∃ (s : State) (r : WarpRef) (w : Warp) (b : Batch) (bs : List Batch), s.warp? r = some w ∧ w.batches = b :: bs ∧ b.fault = none ∧
      b.cmds ≠ [] ∧ ∀ x ∈ s.cmds, x.id ∈ b.cmds → x.finished = true) ∧
    (∀ p ∈ [none, some (⟨0, 1, 0x1000, false⟩ : Report)], ∃ (s : State) (r : WarpRef) (w : Warp) (b : Batch) (bs : List Batch),
      s.warp? r = some w ∧ w.batches = b :: bs ∧ b.fault.isSome = true ∧ w.report = p) := by
  refine ⟨⟨dress based (batched [⟨1, [5], none⟩] 2), probeRef.w, _, ⟨1, [5], none⟩, [], based_warp _ (by decide +kernel), by decide +kernel,
      rfl, by decide, by decide +kernel⟩, ?_⟩
  intro p hp
  simp only [List.mem_cons, List.not_mem_nil, or_false] at hp
  rcases hp with rfl | rfl
  · exact ⟨dress based (batched [⟨1, [], some (1, 0x30000)⟩] 2), probeRef.w, _, ⟨1, [], some (1, 0x30000)⟩, [],
      based_warp _ (by decide +kernel), by decide +kernel, rfl, by decide +kernel⟩
  · exact ⟨dress based (fun c => reportedBefore (batched [⟨1, [], some (1, 0x30000)⟩] 2 c)), probeRef.w, _, ⟨1, [], some (1, 0x30000)⟩, [],
      based_warp _ (by decide +kernel), by decide +kernel, rfl, by decide +kernel⟩

theorem runs_of {s : State} (h : (decide ((s.ctx (seen s).ctx).st = .active) && decide ((seen s).crew.run = .placed)) = true) :
    Runs s (seen s) := by
  simpa [Runs] using h

theorem canTrap_of {s : State} (h : (calm (seen s) && !(seen s).t.core.trap.h &&
    s.handlerOk (seen s).ctx (seen s).crew.launch.handler) = true) : CanTrap s (seen s) := by
  simp only [Bool.and_eq_true, Bool.not_eq_true'] at h
  exact ⟨alone_of h.1.1, h.1.2, h.2⟩

/-- A page fault at an address, and its record. -/
def someFault : PageFault := ⟨0x7FFFFFF000, .notPresent, .read, 1⟩
def someRecord : FaultRec :=
  { id := 0, pf := someFault, core := 0, quad := 0, slot := 0, strand := 0, isOpen := false, voy := 1, crew := 0, batch := 0,
    attached := [], posted := false }

/-- The watchdog of the strand's context is due. -/
def overdue (w : Wait) (f : Cur → Cur := id) : State :=
  { (parked w f).modCtx 0 (fun c => { c with watchdog := 1 }) with ns := 1001 }

def isOverdue (s : State) : Bool :=
  (s.curOf probeRef).isSome && (decide ((s.ctx (seen s).ctx).st = .active) && decide ((seen s).crew.run = .placed)) &&
    (calm (seen s) && !(seen s).t.core.trap.h && s.handlerOk (seen s).ctx (seen s).crew.launch.handler) &&
    decide (0 < (s.ctx (seen s).ctx).watchdog) && decide (1000 * (s.ctx (seen s).ctx).watchdog < s.ns - 0)

theorem overdue_of {s : State} (h : isOverdue s = true) : s.curOf (seen s).ref = some (seen s) ∧ Runs s (seen s) ∧ CanTrap s (seen s) ∧
    0 < (s.ctx (seen s).ctx).watchdog ∧ 1000 * (s.ctx (seen s).ctx).watchdog < s.ns - 0 := by
  unfold isOverdue at h
  rw [Bool.and_eq_true, Bool.and_eq_true, Bool.and_eq_true, Bool.and_eq_true, decide_eq_true_eq, decide_eq_true_eq] at h
  exact ⟨curOf_seen _ h.1.1.1.1, runs_of h.1.1.1.2, canTrap_of h.1.1.2, h.1.2, h.2⟩

/-- ParkedTraps: a trap of a merge; a watchdog that is due at SVWAIT, WCWAIT and BWAIT; a fault that is the first of its page and
one that is not. -/
theorem witness_ParkedTraps :
    (∃ (s : State) (c : Cur) (ti : TrapInfo), s.curOf c.ref = some c ∧ Runs s c ∧ CanTrap s c ∧ c.t.wait = .trap ti ∧ c.t.pends = []) ∧
    (∀ w ∈ [Wait.sv true ⟨7, 3, 8, true⟩ 0x40000000 0 none, .wc false ⟨7, 8, 7, 1⟩ 0 none, .bw ⟨7, 1, 9⟩ 0],
      ∃ (s : State) (c : Cur), s.curOf c.ref = some c ∧ Runs s c ∧ CanTrap s c ∧ c.t.wait = w ∧ WaitsSince c 0 ∧
        0 < (s.ctx c.ctx).watchdog ∧ 1000 * (s.ctx c.ctx).watchdog < s.ns - 0) ∧
    (∃ (s : State) (c : Cur) (pf : PageFault), s.curOf c.ref = some c ∧ Runs s c ∧ Alone c ∧ c.t.wait = .faulting pf ∧
      (∀ f ∈ (s.ctx c.ctx).faults, ¬ (f.pf.va / 4096 = pf.va / 4096 ∧ f.pf.access = pf.access)) ∧
      (s.ctx c.ctx).nextFault < 2 ^ 32 ∧ ∀ f ∈ (s.ctx c.ctx).faults, f.id ≠ (s.ctx c.ctx).nextFault) ∧
    (∃ (s : State) (c : Cur) (pf : PageFault) (f : FaultRec), s.curOf c.ref = some c ∧ Runs s c ∧ Alone c ∧ c.t.wait = .faulting pf ∧
      (s.ctx c.ctx).faults.find? (fun f => f.pf.va / 4096 == pf.va / 4096 && f.pf.access == pf.access) = some f) := by
  refine ⟨⟨parked (.trap ⟨.illegalInstr, 0x10000, 0, 1⟩), _, ⟨.illegalInstr, 0x10000, 0, 1⟩, parked_cur (by decide +kernel),
      runs_of (by decide +kernel), canTrap_of (by decide +kernel), by decide +kernel⟩, ?_,
    ⟨parked (.faulting someFault), _, someFault, parked_cur (by decide +kernel), runs_of (by decide +kernel),
      alone_of (by decide +kernel), by decide +kernel⟩,
    ⟨(parked (.faulting someFault)).modCtx 0 (fun c => { c with faults := [someRecord], nextFault := 1 }), _, someFault, someRecord,
      curOf_seen _ (by decide +kernel), runs_of (by decide +kernel), alone_of (by decide +kernel), by decide +kernel⟩⟩
  intro w hw
  simp only [List.mem_cons, List.not_mem_nil, or_false] at hw
  obtain rfl | rfl | rfl := hw
  · obtain ⟨h1, h2, h3, h4⟩ := overdue_of (s := overdue (.sv true ⟨7, 3, 8, true⟩ 0x40000000 0 none)) (by decide +kernel)
    have hw : (seen (overdue (.sv true ⟨7, 3, 8, true⟩ 0x40000000 0 none))).t.wait = .sv true ⟨7, 3, 8, true⟩ 0x40000000 0 none := by
      decide +kernel
    exact ⟨_, _, h1, h2, h3, hw, .inl ⟨_, _, _, hw⟩, h4⟩
  · obtain ⟨h1, h2, h3, h4⟩ := overdue_of (s := overdue (.wc false ⟨7, 8, 7, 1⟩ 0 none)) (by decide +kernel)
    have hw : (seen (overdue (.wc false ⟨7, 8, 7, 1⟩ 0 none))).t.wait = .wc false ⟨7, 8, 7, 1⟩ 0 none := by decide +kernel
    exact ⟨_, _, h1, h2, h3, hw, .inr (.inl ⟨_, _, hw⟩), h4⟩
  · obtain ⟨h1, h2, h3, h4⟩ := overdue_of (s := overdue (.bw ⟨7, 1, 9⟩ 0) (batched [⟨1, [0], none⟩] 2)) (by decide +kernel)
    have hw : (seen (overdue (.bw ⟨7, 1, 9⟩ 0) (batched [⟨1, [0], none⟩] 2))).t.wait = .bw ⟨7, 1, 9⟩ 0 := by decide +kernel
    exact ⟨_, _, h1, h2, h3, hw, .inr (.inr ⟨_, hw, fun _ => by decide +kernel⟩), h4⟩

end

end Sys2Proof.Tests
end

