-- ==== Sys2Proof/Tests/WitnessG.lean ====
section
/-!
SUPPORT. Witnesses of the statements about errors, voyages, pre-emption, contexts, and the commands and traffic of queues.
-/

set_option Elab.async false

namespace Sys2Proof.Tests

open Sys2Proof Sys2Proof.Machine Sys2Proof.Rules

noncomputable section

/-! Accesses of context 0 in the first GiB. -/

theorem seen_ctx (s : State) : (seen s).ctx = 0 := by unfold Cur.ctx; rw [seen_ref]; rfl

theorem low_leaf0 {s : State} (h : isLow s = true) {va : Nat} (hv : va < 2 ^ 30) (q : XReq) :
    s.translate 0 va q = .ok ⟨va, 0, 0x1F, 3⟩ := by
  have := low_translate h hv q
  rwa [seen_ctx] at this

theorem low_clean {s : State} (h : isLow s = true) {pa : Nat} (hv : pa < 2 ^ 30) : s.isPoison pa = false := by
  simp only [isLow, Bool.and_eq_true, decide_eq_true_eq, beq_iff_eq, List.isEmpty_iff] at h
  have hb : pa < hbmBytes := by unfold hbmBytes; omega
  simp [State.isPoison, h.1.1.1.1.2, State.backed, hb]

theorem devOk_of {s : State} (h : isLow s = true) {va len : Nat} (h0 : va < 2 ^ 30) (hv : va + len ≤ 2 ^ 30) (q : XReq) :
    DevOk s 0 va len q ⟨va, 0, 0x1F, 3⟩ := ⟨low_leaf0 h h0 q, fun i hi => low_clean h (show va + i < 2 ^ 30 by omega)⟩

/-- Context 0 changed. -/
def hosted (f : Ctx → Ctx) : State := plain.modCtx 0 f

/-- The crew of context 0 changed. -/
def crewed (f : Crew → Crew) : State := plain.modCrew probeRef.w.crew f

/-- Commands of the physical function, of function 3, and one with a bit set that must be zero. -/
def pf : CmdHdr := ⟨0, 7, true⟩
def vf : CmdHdr := ⟨3, 7, true⟩
def dirty : CmdHdr := ⟨0, 7, false⟩

/-! Errors. -/

/-- A chunk in which an error has or has not been seen, open or not, at MMA.F16 with everything in order. -/
def erring (seenBefore isOpen : Bool) : State :=
  let s := tiled .f16x2 .f16x2 0xFFFFFFFF (full 16)
  let word := (encode (.mmaF16 ⟨2, vr 32, vr 64, 20, none, .none⟩)).getD 0
  dress { s with mem := cellsPut s.mem 0x10008 (bytesOf 8 word.toNat) }
    (fun c => (if isOpen then opened 3 c else c).mapChunk (fun h => { h with errSeen := seenBefore }))

/-- Errors: an open chunk that has and has not seen an error, and one in front of another; MMA.F16 at the strand, before a chunk, in
one and after an error; registers, tiles and memory. -/
theorem witness_Errors :
    (∀ b : Bool, ∃ (s : State) (c : Cur) (ch : Chunk), s.curOf c.ref = some c ∧ c.t.unplaced[0]? = some ch ∧ ch.active = true ∧
      ch.owner = none ∧ ch.errSeen = b ∧ ∀ x ∈ c.t.unplaced.drop 0, x.childIdx = none) ∧
    (∃ (s : State) (c : Cur) (ch : Chunk), s.curOf c.ref = some c ∧ c.t.unplaced[0]? = some ch ∧ c.t.unplaced.length = 2 ∧
      ch.active = true ∧ ch.owner = none ∧ ch.errSeen = false ∧ ∀ x ∈ c.t.unplaced.drop 0, x.childIdx = none) ∧
    (∀ x ∈ [(false, false), (false, true), (true, false)], ∃ (s : State) (c : Cur) (t : TReg) (w : W64), s.curOf c.ref = some c ∧
      s.mayIssue c false = true ∧ s.fetchWord c.ctx c.t.core.pc = .ok w ∧ c.matrixOn t w = true ∧ c.t.errSeen = x.1 ∧
      c.t.chunk.st = (if x.2 then .opened else .idle) ∧ c.t.chunk.childIdx = none ∧ c.t.chunk.owner = none ∧ c.t.pends = [] ∧
      (x.2 = false → CanTrap s c)) ∧
    (∃ (s : State) (r : WarpRef) (w : Warp), s.warp? r = some w ∧ w.vregs.length = 256 ∧ w.tiles.length = 256) ∧
    (plain.backed (hbmBytes - 1) = true ∧ plain.backed hbmBytes = false) := by
  refine ⟨?_, ⟨queued .ordering, _, aheadOf .ordering, curOf_seen _ (by decide +kernel), by decide +kernel⟩, ?_,
    ⟨plain, probeRef.w, _, warp_seen _ (by decide +kernel), by decide +kernel⟩, by decide +kernel⟩
  · intro b
    refine ⟨erring b true, _, (seen (erring b true)).t.chunk, curOf_seen _ ?_, ?_⟩ <;> cases b <;> decide +kernel
  · intro x hx
    have hw : ∀ x ∈ [(false, false), (false, true), (true, false)],
        (erring x.1 x.2).fetchWord (seen (erring x.1 x.2)).ctx (seen (erring x.1 x.2)).t.core.pc =
          .ok ((encode (.mmaF16 ⟨2, vr 32, vr 64, 20, none, .none⟩)).getD 0) := by
      intro x hx
      simp only [List.mem_cons, List.not_mem_nil, or_false] at hx
      obtain rfl | rfl | rfl := hx <;> rfl
    refine ⟨erring x.1 x.2, _, 2, _, curOf_seen _ ?_, ?_, hw x hx, ?_, ?_, ?_, ?_, ?_, ?_, fun h => canTrap_of ?_⟩ <;>
    · simp only [List.mem_cons, List.not_mem_nil, or_false] at hx
      obtain rfl | rfl | rfl := hx <;> first | decide +kernel | exact absurd h (by decide)

/-! The EVENT queue. -/

/-- No chunk of any strand is PINNED, as a test. -/
def unpinned (s : State) : Bool :=
  s.crews.all (fun k => k.warps.all (fun w => w.strands.all (fun o =>
    match o with
    | some t => !t.chunk.pinned
    | none => true)))

theorem noPins_of {s : State} (h : unpinned s = true) : NoPins s := by
  intro r t ht
  have h := every_strand h r t ht
  simpa using h

/-- A queue of 64-byte items at 0x48000, with two in it. -/
def eventQ : Queue := { someQueue .opened 3 1 with isz := 2, ring := 0x48000 }
def eventLeaf : Leaf := ⟨0x480C0, 0, 0x1F, 3⟩

/-- The EVENT queue takes a record, as a test. -/
def eventsFit (s : State) : Bool :=
  isLow s && s.memWf && (s.ctx 0).store.isEmpty && (s.ctx 0).blocked.isEmpty && s.queue? 0 1 == some eventQ && unpinned s

theorem eventReady_of {s : State} (h : eventsFit s = true) : EventReady s 0 eventQ eventLeaf := by
  simp only [eventsFit, Bool.and_eq_true, List.isEmpty_iff, beq_iff_eq] at h
  obtain ⟨⟨⟨⟨⟨h1, h2⟩, h3⟩, h4⟩, h5⟩, h6⟩ := h
  exact ⟨h2, ⟨h3, h4⟩, h5, ⟨rfl, by decide⟩, noPins_of h6, devOk_of h1 (by decide) (by decide) _⟩

/-- Context 0 with an EVENT queue. -/
def withEvents (s : State) : State := s.modCtx 0 (fun c => c.setQueue 1 eventQ)

/-! Voyages. -/

/-- A launch record at 0x50000 (one byte more than the width where `bad`), and an item of LAUNCH at 0x40000 that names it. -/
def launchBytes (bad : Bool) : List Byte :=
  recBytes 128 [(0, 8, 0x10000), (8, 8, 0x20000), (24, 1, 32 + bit bad), (25, 1, 32), (26, 1, 64), (28, 2, 256), (30, 1, 1),
    (32, 4, 131072), (36, 2, 256), (40, 4, 1), (44, 4, 1), (52, 4, 16), (56, 8, 0x100000), (64, 8, 65536), (72, 8, 0x200000)]

def launching (addr : Nat) (bad : Bool) : State :=
  let s := withEvents (hosted (fun c => c.setQueue 0 (someQueue .opened 1 0)))
  { s with mem := cellsPut (cellsPut s.mem 0x40000 (bytesOf 16 (addr + 2 ^ 64 * 9))) 0x50000 (launchBytes bad) }

/-- The launches of the witnesses: an address that is accepted, with a good record and a bad one, and two that are not. -/
def launches : List (Nat × Bool) := [(0x50000, false), (0x50000, true), (0x50040, false), (2 ^ 57, false)]

theorem launch_ready : ∀ x ∈ launches, (eventsFit (launching x.1 x.2) && ((launching x.1 x.2).ctx 0).st == .active &&
    ((launching x.1 x.2).ctx 0).suspending.isNone && ((launching x.1 x.2).ctx 0).voyages.all (fun v => v.st != .placing) &&
    ((launching x.1 x.2).ctx 0).take.isNone && ((launching x.1 x.2).ctx 0).queue? 0 == some (someQueue .opened 1 0) &&
    (launching x.1 x.2).rdBytes 0x40000 16 == bytesOf 16 (x.1 + 2 ^ 64 * 9) &&
    (launching x.1 x.2).rdBytes 0x50000 128 == launchBytes x.2 && ((launching x.1 x.2).ctx 0).sector == 1) = true := by
  decide +kernel

theorem launch_ok : LaunchOk (bytesOf 16 (0x50000 + 2 ^ 64 * 9)) (launchBytes false) 1 where
  width   := by decide +kernel
  regs    := by decide +kernel
  flags   := by decide +kernel
  warps   := by decide +kernel
  mem     := by decide +kernel
  chunk   := by decide +kernel
  crews   := by decide +kernel
  drain   := by decide +kernel
  spill   := by decide +kernel
  zeros   := by decide +kernel
  code    := by decide +kernel
  places  := by decide +kernel
  fits    := by decide +kernel

theorem launch_fails : LaunchFails (bytesOf 16 (0x50000 + 2 ^ 64 * 9)) (launchBytes true) 1 (1, 24) :=
  .inl ⟨by decide +kernel, rfl⟩

/-- A launch record whose last failure is an address, and one that fits no sector. -/
theorem launch_fails_late : LaunchFails (bytesOf 16 0x50000) (List.replicate 7 0 ++ [2] ++ (launchBytes false).drop 8) 1 (2, 0) ∧
    LaunchFails (bytesOf 16 0x50000) (launchBytes false) 0 (3, 0xFF) := by
  unfold LaunchFails
  constructor <;> repeat first | exact .inl ⟨by decide +kernel, rfl⟩ | refine .inr ⟨by decide +kernel, ?_⟩

/-- Launch, the take: a record that is accepted, one whose width is none, and addresses that are misaligned and too large; with room
for an event. -/
theorem witness_launchTake : ∀ p ∈ launches, ∃ (s : State) (x : Queue) (l m : Leaf), EventReady s 0 eventQ eventLeaf ∧
    (s.ctx 0).st = .active ∧ (s.ctx 0).suspending = none ∧
    (∀ v ∈ (s.ctx 0).voyages, v.st ≠ .placing) ∧ (s.ctx 0).take = none ∧ (s.ctx 0).queue? 0 = some x ∧ x.st = .opened ∧ x.head < x.tail ∧
    DevOk s 0 (x.slotVa x.head) (16 * 2 ^ x.isz) XReq.ringRead l ∧ recField (s.rdBytes l.pa (16 * 2 ^ x.isz)) 0 8 = p.1 ∧
    DevOk s 0 0x50000 128 XReq.devRead m ∧
    (p = (0x50000, false) → LaunchOk (s.rdBytes l.pa (16 * 2 ^ x.isz)) (s.rdBytes m.pa 128) (s.ctx 0).sector) ∧
    (p = (0x50000, true) → LaunchFails (s.rdBytes l.pa (16 * 2 ^ x.isz)) (s.rdBytes m.pa 128) (s.ctx 0).sector (1, 24)) := by
  intro p hp
  have h := launch_ready p hp
  simp only [Bool.and_eq_true, beq_iff_eq, Option.isNone_iff_eq_none, List.all_eq_true, bne_iff_ne] at h
  obtain ⟨⟨⟨⟨⟨⟨⟨⟨h1, h2⟩, h3⟩, h4⟩, h5⟩, h6⟩, h7⟩, h8⟩, h9⟩ := h
  have hl : isLow (launching p.1 p.2) = true := by
    simp only [eventsFit, Bool.and_eq_true] at h1
    exact h1.1.1.1.1.1
  refine ⟨launching p.1 p.2, someQueue .opened 1 0, ⟨0x40000, 0, 0x1F, 3⟩, ⟨0x50000, 0, 0x1F, 3⟩, eventReady_of h1, h2, h3, h4, h5, h6,
    rfl, by decide, devOk_of hl (by decide) (by decide) _, ?_, devOk_of hl (by decide) (by decide) _, ?_, ?_⟩ <;>
    simp only [show (16 * 2 ^ (someQueue .opened 1 0).isz) = 16 from rfl, h7, h8, h9]
  · simp only [launches, List.mem_cons, List.not_mem_nil, or_false] at hp
    obtain rfl | rfl | rfl | rfl := hp <;> decide +kernel
  · rintro rfl
    exact launch_ok
  · rintro rfl
    exact launch_fails

/-- A voyage of two crews in one convoy that is to be placed. -/
def due (again : List Nat) : Voyage :=
  ⟨2, 0, { probeLaunch with convoy := 2, crews := 2 }, 0, if again = [] then .placing else .running, if again = [] then 0 else 1, again, 0, 0,
    false, List.replicate 8 0⟩

/-- Launch, the placement: a convoy of two crews on quadrants of one die, and a crew that is placed again. -/
theorem witness_convoyPlace : ∀ x ∈ [(([] : List Nat), [0, 1], [(0, 1), (0, 3)]), ([1], [1], [(0, 2)])],
    ∃ (s s2 : State), (s.ctx 0).st = .active ∧ (s.ctx 0).suspending = none ∧ (s.ctx 0).voyage? 2 = some (due x.1) ∧
      s.pruneFlushed.dueCrews 0 (due x.1) = x.2.1 ∧ x.2.1 ≠ [] ∧ x.2.1.length = x.2.2.length ∧
      (∀ p ∈ x.2.2, p.1 / 96 = (x.2.2.headD (0, 0)).1 / 96) ∧
      State.placeAll 0 (due x.1) (List.zipWith (fun c p => (c, p.1, p.2)) x.2.1 x.2.2) s.pruneFlushed = some s2 ∧
      ∀ k ∈ x.2.1, s.pruneFlushed.crew? { ctx := 0, voy := 2, crew := k } = none := by
  have key : ∀ {α : Type} (o : Option α), o.isSome = true → ∃ a, o = some a := by
    intro α o h; cases o with | none => simp at h | some a => exact ⟨a, rfl⟩
  intro x hx
  simp only [List.mem_cons, List.not_mem_nil, or_false] at hx
  rcases hx with rfl | rfl
  · obtain ⟨s2, h2⟩ := key (State.placeAll 0 (due []) [(0, 0, 1), (1, 0, 3)] (hosted (fun c => { c with voyages := [due []] })).pruneFlushed)
      (by decide +kernel)
    exact ⟨hosted (fun c => { c with voyages := [due []] }), s2, by decide +kernel, by decide +kernel, by decide +kernel, by decide +kernel,
      by decide, by decide, by decide, h2, by decide +kernel⟩
  · obtain ⟨s2, h2⟩ := key (State.placeAll 0 (due [1]) [(1, 0, 2)] (hosted (fun c => { c with voyages := [due [1]] })).pruneFlushed)
      (by decide +kernel)
    exact ⟨hosted (fun c => { c with voyages := [due [1]] }), s2, by decide +kernel, by decide +kernel, by decide +kernel, by decide +kernel,
      by decide, by decide, by decide, h2, by decide +kernel⟩

/-- The crew of voyage 1, its warps exited, of `n` crews in the voyage. -/
def retiring (n : Nat) : State :=
  let s := crewed (fun k => { k with warps := k.warps.map (fun w => { w with exited := true }) })
  withEvents (s.modCtx 0 (fun c => { (c.setQueue 0 (someQueue .opened 2 2)) with
    voyages := c.voyages.map (fun v => { v with launch := { v.launch with crews := n } }) }))

/-- The crew drains, its warps have exited and a batch is not complete. -/
def drained : State :=
  withEvents (crewed (fun k => { k with run := .draining, preempt := some ⟨0, 100, 50, false⟩,
                                        warps := k.warps.map (fun w => { w with exited := true, batches := [⟨1, [], none⟩] }) }))

/-- The crew in a state. -/
def crewOf (s : State) : Crew := (s.crew? probeRef.w.crew).getD (startCrew probeRef.w.crew probeLaunch 0 0 0 0 [])
def voyOf (s : State) : Voyage := ((s.ctx 0).voyage? 1).getD (due [])

theorem crewOf_eq {s : State} (h : (s.crew? probeRef.w.crew).isSome = true) : s.crew? probeRef.w.crew = some (crewOf s) := by
  unfold crewOf
  cases hx : s.crew? probeRef.w.crew with
  | none => rw [hx] at h; simp at h
  | some c => rfl

theorem voyOf_eq {s : State} (h : ((s.ctx 0).voyage? 1).isSome = true) : (s.ctx 0).voyage? 1 = some (voyOf s) := by
  unfold voyOf
  cases hx : (s.ctx 0).voyage? 1 with
  | none => rw [hx] at h; simp at h
  | some c => rfl

/-- Retirement: not the last crew of its voyage, and the last; and the end of a drain. -/
theorem witness_Retirement : (∀ n ∈ [1, 2], ∃ (s : State) (c : Crew) (v : Voyage) (x : Queue), s.crew? probeRef.w.crew = some c ∧
    (s.ctx 0).voyage? 1 = some v ∧ EventReady s 0 eventQ eventLeaf ∧ s.queue? 0 0 = some x ∧ x.head = x.tail ∧ c.run = .placed ∧
    (∀ w ∈ c.warps, w.exited = true ∧ w.batches = []) ∧
    (n = 2 → v.retired + 1 ≠ v.launch.crews) ∧ (n = 1 → v.retired + 1 = v.launch.crews) ∧ v.st = .running ∧ (s.ctx 0).st = .active ∧
    (∀ u ∈ (s.ctx 0).voyages, u.num = 1)) ∧
    (∃ (s : State) (c : Crew) (p : Preempt), s.crew? probeRef.w.crew = some c ∧ EventReady s 0 eventQ eventLeaf ∧
      c.ref = probeRef.w.crew ∧ c.run = .draining ∧ c.preempt = some p ∧ (∀ w ∈ c.warps, w.exited = true) ∧
      ∃ w ∈ c.warps, w.batches ≠ []) := by
  refine ⟨fun n hn => ?_, ⟨drained, _, ⟨0, 100, 50, false⟩, crewOf_eq (by decide +kernel), eventReady_of (by decide +kernel),
    by decide +kernel⟩⟩
  refine ⟨retiring n, _, _, someQueue .opened 2 2, crewOf_eq ?_, voyOf_eq ?_, eventReady_of ?_, ?_, rfl, ?_⟩ <;>
  · simp only [List.mem_cons, List.not_mem_nil, or_false] at hn
    obtain rfl | rfl := hn <;> decide +kernel

/-! Pre-emption. -/

/-- A crew with a drain estimate of 0 and one with none; it has committed a chunk or not. -/
def preempted (drain committed : Bool) : State :=
  crewed (fun k => { k with launch := { k.launch with drainValid := drain, drain := 0 }, committed := committed })

/-- The crew's image takes 442368 bytes: with the locker free a save takes between 1132 and 1133 ns. -/
theorem image_size (d k : Bool) : imageBytes (crewOf (preempted d k)).launch = 442368 := by cases d <;> cases k <;> decide +kernel

theorem saves_1133 : SavesWithin 3 442368 1133 := by unfold SavesWithin; norm_num
theorem saves_1132 : ¬ SavesWithin 3 442368 1132 := by unfold SavesWithin; norm_num

/-- Preemption, CREW_PREEMPT: drain, save, flush and a missed bound, at the values where they meet. -/
theorem witness_crewPreempt : ∀ x ∈ [(true, true, (0 : BitVec 32)), (false, true, 1133), (false, false, 1132), (false, false, 500),
      (false, false, 499), (false, true, 1132)],
    ∃ (s : State) (h : CmdHdr) (a : PreemptArgs) (c : Crew) (v : Voyage), Allowed h a.ctx.toNat ∧ a.ctx = 0 ∧ a.voy = 1 ∧ a.crew = 0 ∧
      (s.ctx 0).voyage? 1 = some v ∧ 0 < v.launch.crews ∧ s.crew? probeRef.w.crew = some c ∧ c.run = .placed ∧ (s.ctx 0).st = .active ∧
      a.b = x.2.2 ∧ s.lockerFree c.core = true ∧ imageBytes c.launch = 442368 ∧ c.launch.drainValid = x.1 ∧ c.committed = x.2.1 ∧
      1000 * c.launch.drain - (c.ran + (s.ns - c.since)) = 0 := by
  intro x hx
  refine ⟨preempted x.1 x.2.1, pf, ⟨0, 1, 0, x.2.2⟩, crewOf (preempted x.1 x.2.1), voyOf (preempted x.1 x.2.1),
    ⟨rfl, .inl rfl, Nat.succ_pos 63⟩,
    rfl, rfl, rfl, ?_, ?_, ?_, ?_, ?_, rfl, ?_, image_size _ _, ?_, ?_, ?_⟩
  case refine_1 => exact voyOf_eq (by
    have h : ∀ a b, (((preempted a b).ctx 0).voyage? 1).isSome = true := by decide +kernel
    exact h _ _)
  case refine_3 => exact crewOf_eq (by
    have h : ∀ a b, ((preempted a b).crew? probeRef.w.crew).isSome = true := by decide +kernel
    exact h _ _)
  all_goals
    generalize x.1 = a
    generalize x.2.1 = b
    revert a b
    decide +kernel

/-- A crew at a stage of its pre-emption, with room for an event. -/
def staged (r : CrewRun) : State := withEvents (crewed (fun k => { k with run := r, preempt := some ⟨1, 1133, 1133, false⟩ }))

/-- A crew that halts: a strand parked at SVWAIT, one with two chunks, and one at a barrier; its warp holds the items given. -/
def halting (flush : Bool) (held : List Held) (f : Ctx → Ctx) : State :=
  let s := dress plain (fun c =>
    let c := c.mapT (fun t => { t with wait := .sv true ⟨7, 3, 8, true⟩ 0x40000000 0 none })
    let t := startStrand probeLaunch 0
    { c with warp := { c.warp with held := held, strands := [some c.t, some { t with
      earlier := [aheadOf .ordering], chunk := { Chunk.none with st := .opened, snap := some t.core } },
      some { t with wait := .bar 7 64 false true }, none] } })
  (withEvents (s.modCrew probeRef.w.crew (fun k => { k with run := .halting flush, preempt := some ⟨1, 500, 500, false⟩ }))).modCtx 0 f

/-- The conditions of Settled on every strand and warp, as a test. -/
def settledNow (s : State) : Bool :=
  s.crews.all (fun k => k.warps.all (fun w => w.strands.all (fun o =>
    match o with
    | some t => (imageWait s 0 t.wait).isSome && t.unplaced.all (fun ch => ch.childIdx.isNone) &&
        (imageWait s 0 t.wait == some .none || (t.earlier.isEmpty && t.chunk.st == .idle && !t.chunk.pinned))
    | none => true))) && s.crews.all (fun k => k.warps.all (fun w => w.merges.isEmpty))

theorem settled_of {s : State} (h : settledNow s = true) : Settled s probeRef.w.crew := by
  rw [settledNow, Bool.and_eq_true] at h
  constructor
  · intro x t _ ht
    have h := every_strand (p := fun t => (imageWait s 0 t.wait).isSome && t.unplaced.all (fun ch => ch.childIdx.isNone) &&
        (imageWait s 0 t.wait == some .none || (t.earlier.isEmpty && t.chunk.st == .idle && !t.chunk.pinned))) h.1 x t ht
    simp only [Bool.and_eq_true, Option.isSome_iff_exists, List.all_eq_true, Option.isNone_iff_eq_none, Bool.or_eq_true, beq_iff_eq,
      List.isEmpty_iff, Bool.not_eq_true'] at h
    exact ⟨h.1.1, h.1.2, fun hn => ⟨(h.2.resolve_left hn).1.1, (h.2.resolve_left hn).1.2, (h.2.resolve_left hn).2⟩⟩
  · intro c hc w hw
    have h := h.2
    simp only [List.all_eq_true, List.isEmpty_iff] at h
    exact h c (List.mem_of_find?_eq_some hc) w hw

/-- Preemption, the halt: of a crew to be saved; of one to be flushed, with no item, and with items where the EVENT queue is full; and
of one of a faulted context. -/
theorem witness_quadrantHaltDone :
    (∃ (s : State) (c : Crew), s.crew? probeRef.w.crew = some c ∧ Settled s probeRef.w.crew ∧ c.ref = probeRef.w.crew ∧
      c.run = .halting false ∧ (s.ctx 0).suspending = none ∧ (s.ctx 0).st = .active) ∧
    (∃ (s : State) (c : Crew) (v : Voyage) (p : Preempt), s.crew? probeRef.w.crew = some c ∧ Settled s probeRef.w.crew ∧
      (s.ctx 0).voyage? 1 = some v ∧ EventReady s 0 eventQ eventLeaf ∧ c.ref = probeRef.w.crew ∧ c.run = .halting true ∧
      (s.ctx 0).suspending = none ∧ (s.ctx 0).st = .active ∧ c.preempt = some p ∧ c.warps.flatMap (·.held) = []) ∧
    (∃ (s : State) (c : Crew) (v : Voyage) (p : Preempt), s.crew? probeRef.w.crew = some c ∧ Settled s probeRef.w.crew ∧
      (s.ctx 0).voyage? 1 = some v ∧ c.ref = probeRef.w.crew ∧ c.run = .halting true ∧
      (s.ctx 0).suspending = none ∧ (s.ctx 0).st = .active ∧ c.preempt = some p ∧
      c.warps.flatMap (·.held) = [⟨3, 0⟩, ⟨3, 1⟩] ∧ s.roomIn 0 1 = false) ∧
    (∃ (s : State) (c : Crew) (z : Queue), s.crew? probeRef.w.crew = some c ∧ Settled s probeRef.w.crew ∧ s.queue? 0 3 = some z ∧
      c.ref = probeRef.w.crew ∧ c.run = .halting false ∧ (s.ctx 0).suspending = none ∧ (s.ctx 0).st = .faulted ∧
      ∃ w ∈ c.warps, ⟨3, 0⟩ ∈ w.held) :=
  ⟨⟨halting false [] id, _, crewOf_eq (by decide +kernel), settled_of (by decide +kernel), by decide +kernel⟩,
    ⟨halting true [] id, _, _, ⟨1, 500, 500, false⟩, crewOf_eq (by decide +kernel), settled_of (by decide +kernel),
      voyOf_eq (by decide +kernel), eventReady_of (by decide +kernel), by decide +kernel⟩,
    ⟨halting true [⟨3, 0⟩, ⟨3, 1⟩] (fun c => c.setQueue 1 { eventQ with tail := 5 }), _, _, ⟨1, 500, 500, false⟩,
      crewOf_eq (by decide +kernel), settled_of (by decide +kernel), voyOf_eq (by decide +kernel), by decide +kernel⟩,
    ⟨halting false [⟨3, 0⟩] (fun c => { (c.setQueue 3 (someQueue .opened 2 1)) with st := .faulted }), _, someQueue .opened 2 1,
      crewOf_eq (by decide +kernel), settled_of (by decide +kernel), by decide +kernel⟩⟩

/-- A second crew, of a context that is not ACTIVE, in the core's locker. -/
def lockerTaken : State :=
  let s := staged .saving
  { s with crews := s.crews ++ [{ startCrew ⟨1, 1, 0⟩ probeLaunch 0 0 0 0 [] with run := .locker 0 }] }

/-- Preemption, the save: with the locker free and with it taken; the restore from memory, from the locker of the core and of another. -/
theorem witness_saveAndRestore :
    (∀ b : Bool, ∃ (s : State) (c : Crew) (p : Preempt), s.crew? probeRef.w.crew = some c ∧ EventReady s 0 eventQ eventLeaf ∧
      c.ref = probeRef.w.crew ∧ c.run = .saving ∧ (s.ctx 0).suspending = none ∧ c.preempt = some p ∧ s.lockerFree c.core = b ∧
      ∀ y ∈ s.crews, y.run = .locker c.core → (s.ctx y.ref.ctx).st ≠ .active) ∧
    (∀ r ∈ [CrewRun.memory, .locker 0], ∃ (s : State) (c : Crew) (slots : List Nat), s.pruneFlushed.crew? probeRef.w.crew = some c ∧
      s.pruneFlushed.roomOn 0 0 3 c.launch = some slots ∧ (s.ctx 0).st = .active ∧ (s.ctx 0).suspending = none ∧ c.run = r) ∧
    (∃ (s : State) (c : Crew), s.pruneFlushed.crew? probeRef.w.crew = some c ∧ (s.ctx 0).st = .active ∧ (s.ctx 0).suspending = none ∧
      c.run = .locker 5 ∧ 5 ≠ 0) := by
  refine ⟨?_, ?_, ⟨staged (.locker 5), crewOf (staged (.locker 5)).pruneFlushed, crewOf_eq (by decide +kernel), by decide +kernel⟩⟩
  · intro b
    cases b
    · exact ⟨lockerTaken, _, ⟨1, 1133, 1133, false⟩, crewOf_eq (by decide +kernel), eventReady_of (by decide +kernel), by decide +kernel⟩
    · exact ⟨staged .saving, _, ⟨1, 1133, 1133, false⟩, crewOf_eq (by decide +kernel), eventReady_of (by decide +kernel),
        by decide +kernel⟩
  · intro r hr
    refine ⟨staged r, crewOf (staged r).pruneFlushed, [0], crewOf_eq ?_, ?_⟩ <;>
    · simp only [List.mem_cons, List.not_mem_nil, or_false] at hr
      obtain rfl | rfl := hr <;> decide +kernel

/-! Contexts. -/

/-- Records of four queues at 0x61000, and a sector of core 0 at 0x60000. -/
def creating : State :=
  let record := fun (q : Nat) => recBytes 64 [(0, 8, 0x70000 + 4096 * q), (8, 1, queueKind q), (9, 1, 2), (10, 1, 1)]
  let m := cellsPut plain.mem 0x60000 (bytesOf 8 1)
  let m := (List.range 3).foldl (fun m q => cellsPut m (0x61000 + 64 * q) (record q)) m
  { plain with mem := cellsPut m 0x62000 (record 3) }

def createArgs : CtxCreateArgs := ⟨1, 0x60000, 0x1000, 0x40000000, 1, 1, 0x61000, 0x62000⟩

/-- The context as CTX_CREATE's records are read in it. -/
def begun (s : State) (a : CtxCreateArgs) (b : Nat) : State :=
  let n := a.ctx.toNat
  s.modCtx n (fun _ => { Ctx.empty n with sector := b, root := a.root.toNat, ovf := a.ovf.toNat, ovfn := a.ovfn.toNat })

/-- Contexts, CTX_CREATE: with one work queue. -/
theorem witness_ctxCreate : ∃ (s : State) (h : CmdHdr) (a : CtxCreateArgs) (b : Nat), AllowedPf h ∧ a.ctx.toNat < 64 ∧
    (s.ctx? a.ctx.toNat).isSome = true ∧ (s.ctx a.ctx.toNat).st = .empty ∧ s.bitmap? a.sector.toNat = some b ∧ b ≠ 0 ∧
    a.sector.toNat % 64 = 0 ∧ a.root.toNat % 4096 = 0 ∧ a.ovf.toNat % 4096 = 0 ∧ a.ovfn.toNat = 1 ∧ 0 < a.wqn.toNat ∧
    a.wqn.toNat ≤ 253 ∧ a.qrec.toNat % 64 = 0 ∧ a.wrec.toNat % 64 = 0 ∧
    ∀ p ∈ createRecords a, ((begun s a b).configOf a.ctx.toNat p.1 p.1 p.2).isSome = true :=
  ⟨creating, pf, createArgs, 1, ⟨rfl, rfl⟩, by decide +kernel⟩

/-- A core whose engine holds a copy, with a crew there. -/
def copying : State := { plain with cmds := [{ pendingCmd 5 with kind := .copy [] [], warp := none }] }

/-- Contexts: CTX_SUSPEND with a crew placed, with none and while one is under way, and the states that the other commands ask for;
LOSS_ACK that readmits cores and one that does not; a scrub; a core with a crew and with an image. -/
theorem witness_Contexts : Allowed pf 0 ∧ Allowed ⟨63, 7, true⟩ 63 ∧ AllowedPf pf ∧
    ((plain.ctx 0).st = .active ∧ (plain.ctx 0).suspending = none ∧ Exists plain 0 ∧
      ∃ r c, r.ctx = 0 ∧ plain.crew? r = some c ∧ c.run = .placed) ∧
    (((staged .memory).ctx 0).st = .active ∧ ((staged .memory).ctx 0).suspending = none ∧
      ∀ c ∈ (staged .memory).crews, c.ref.ctx = 0 → c.onQuad = false) ∧
    ((hosted (fun c => { c with suspending := some (0, 7) })).ctx 0).suspending.isSome = true ∧
    ((hosted (fun c => { c with st := .suspended })).ctx 0).st = .suspended ∧
    (∃ s : State, (s.ctx 0).st = .lost ∧ (0 : W64).toNat % 64 = 0 ∧ (s.ctx 0).resets = [0, 5]) ∧
    (∃ s : State, (s.ctx 0).st = .lost ∧ (0x60000 : W64).toNat % 64 = 0 ∧ (0x60000 : W64) ≠ 0 ∧ s.bitmap? (0x60000 : W64).toNat = some 1) ∧
    (∃ s : State, (s.ctx 0).st = .destroyed ∧ (s.ctx 0).destroy = some (0, 7) ∧ s.scrubbed 0 = true) ∧
    (∃ (s : State) (c : Crew), c ∈ s.crews ∧ c.onQuad = true ∧ c.core = 0 ∧ (∀ d ∈ s.crews, d.ref = c.ref → d.run ≠ .flushed) ∧
      (s.ctx c.ref.ctx).st = .active ∧ ∃ x ∈ s.cmds, x.kind.cls = 1 ∧ x.core = 0) ∧
    (∃ (s : State) (c : Crew), c ∈ s.crews ∧ c.run = .locker 767 ∧ (∀ d ∈ s.crews, d.ref = c.ref → d.run ≠ .flushed) ∧
      (s.ctx c.ref.ctx).st = .active) := by
  have mem : ∀ (s : State), (s.crew? probeRef.w.crew).isSome = true → crewOf s ∈ s.crews :=
    fun s h => List.mem_of_find?_eq_some (crewOf_eq h)
  refine ⟨⟨rfl, .inl rfl, by decide⟩, ⟨rfl, .inr rfl, by decide⟩, ⟨rfl, rfl⟩,
    ⟨by decide +kernel, by decide +kernel, ⟨by decide +kernel, by decide +kernel⟩, probeRef.w.crew, _, rfl, crewOf_eq (by decide +kernel),
      by decide +kernel⟩, by decide +kernel, by decide +kernel, by decide +kernel,
    ⟨hosted (fun c => { c with st := .lost, resets := [0, 5] }), by decide +kernel⟩,
    ⟨creating.modCtx 0 (fun c => { c with st := .lost }), by decide +kernel⟩,
    ⟨hosted (fun c => { c with st := .destroyed, destroy := some (0, 7) }), by decide +kernel⟩,
    ⟨copying, crewOf copying, mem _ (by decide +kernel), by decide +kernel⟩,
    ⟨staged (.locker 767), crewOf (staged (.locker 767)), mem _ (by decide +kernel), by decide +kernel⟩⟩

/-- RejectedCommands: each ground, the context number at its boundary. -/
theorem witness_RejectedCommands : dirty.clean = false ∧ (vf.clean = true ∧ vf.func ≠ 0 ∧ (0 : BitVec 16).toNat ≠ vf.func) ∧
    (pf.clean = true ∧ pf.func = 0 ∧ 64 ≤ (64 : BitVec 16).toNat) ∧ (Allowed pf (63 : BitVec 16).toNat ∧ ¬ Exists plain (63 : BitVec 16).toNat) :=
  ⟨rfl, ⟨rfl, by decide, by decide⟩, ⟨rfl, rfl, by decide⟩, ⟨⟨rfl, .inl rfl, by decide⟩, fun h => absurd (show (plain.ctx 63).st = .empty by decide +kernel) h.1⟩⟩

/-! Queues. -/

/-- Context 0 with a queue as given. -/
def holding (q : Nat) (x : Queue) : State := hosted (fun c => c.setQueue q x)

/-- The conditions on the state for a write of a queue's record, as a test. -/
def recordsFit (s : State) (q : Nat) (x : Queue) : Bool :=
  isLow s && s.memWf && !x.recDead && (s.recWaits 0 q x.conf).isEmpty && s.fences.isEmpty && unpinned s && x.recAddr == 0x50000 &&
    ((s.ctx 0).st == .active) && (s.queue? 0 q == some x)

theorem record_of {s : State} {q : Nat} {x : Queue} (h : recordsFit s q x = true) (off len : Nat) (h0 : off < 64) (hl : len ≤ 64) :
    RecordOk s 0 q x off len ⟨0x50000 + off, 0, 0x1F, 3⟩ := by
  simp only [recordsFit, Bool.and_eq_true, Bool.not_eq_true', List.isEmpty_iff, beq_iff_eq] at h
  obtain ⟨⟨⟨⟨⟨⟨⟨⟨h1, -⟩, h3⟩, h4⟩, h5⟩, h6⟩, h7⟩, -⟩, -⟩ := h
  refine ⟨h3, h4, h5, noPins_of h6, ?_⟩
  rw [h7]
  exact devOk_of h1 (by omega) (by omega) _

theorem exists_of {s : State} (h : (s.ctx 0).st = .active) : Exists s 0 := ⟨by rw [h]; decide, by rw [h]; decide⟩

/-- The queues of the witnesses. -/
def someQueues : List Queue :=
  [someQueue .configured 0 0, someQueue .opened 1 0, someQueue .opened 1 1, someQueue .closed 2 2, someQueue .error 3 1]

theorem queues_fit : someQueues.all (fun x => recordsFit (holding 3 x) 3 x && x.waiters.isEmpty) = true := by decide +kernel

/-- QueueCommands: every state that a command asks for, both sides of QUEUE_CLOSE, and a state that each refuses. -/
theorem witness_QueueCommands : (∀ x ∈ someQueues, ∃ (s : State) (l : Leaf), s.memWf = true ∧ Allowed pf 0 ∧ Exists s 0 ∧
      s.queue? 0 3 = some x ∧ x.waiters = [] ∧ RecordOk s 0 3 x 11 21 l) ∧
    (∀ sts ∈ [[QSt.configured], [.opened], [.closed, .error]], ∃ (s : State) (x : Queue), Exists s 0 ∧ s.queue? 0 3 = some x ∧
      x.st ∉ sts ∧ x.st ≠ .closing) := by
  constructor
  · intro x hx
    have h := List.all_eq_true.mp queues_fit x hx
    rw [Bool.and_eq_true, List.isEmpty_iff] at h
    have hr := h.1
    simp only [recordsFit, Bool.and_eq_true, beq_iff_eq] at hr
    exact ⟨holding 3 x, _, hr.1.1.1.1.1.1.1.2, ⟨rfl, .inl rfl, by decide⟩, exists_of hr.1.2, hr.2, h.2,
      record_of h.1 11 21 (by decide) (by decide)⟩
  · intro sts hs
    simp only [List.mem_cons, List.not_mem_nil, or_false] at hs
    obtain rfl | rfl | rfl := hs
    · exact ⟨holding 3 (someQueue .opened 1 0), someQueue .opened 1 0, exists_of (by decide +kernel), by decide +kernel⟩
    · exact ⟨holding 3 (someQueue .error 1 0), someQueue .error 1 0, exists_of (by decide +kernel), by decide +kernel⟩
    · exact ⟨holding 3 (someQueue .opened 1 0), someQueue .opened 1 0, exists_of (by decide +kernel), by decide +kernel⟩

/-- The queue of the record at 0x62000. -/
def configured : Queue := (creating.configOf 0 4 (creating.ctx 0).nextConf 0x62000).getD (someQueue .free 0 0)

/-- QueueCommands, QUEUE_CONFIG and QUEUE_QUERY: a record that configures a FREE queue, one that does not, and a queue that is not
FREE; a FREE queue, one whose record takes no more writes, and one whose record does. -/
theorem witness_queueConfig :
    (∃ (s : State) (rec : W64) (x : Queue) (l : Leaf), s.configOf 0 4 (s.ctx 0).nextConf rec.toNat = some x ∧ s.memWf = true ∧
      Allowed pf 0 ∧ Exists s 0 ∧ RecordOk s 0 4 x 11 21 l ∧ rec.toNat % 64 = 0 ∧ s.queueSt 0 4 = .free) ∧
    (∃ (s : State) (rec : W64), Exists s 0 ∧ rec.toNat % 64 = 0 ∧ s.queueSt 0 4 = .free ∧
      s.configOf 0 4 (s.ctx 0).nextConf rec.toNat = none) ∧
    (holding 3 (someQueue .opened 0 0)).queueSt 0 3 ≠ .free ∧
    (∃ (s : State) (x : Queue), Exists s 0 ∧ s.queue? 0 3 = some x ∧ x.st ≠ .free ∧ x.recDead = true) ∧
    (∃ (s : State) (x : Queue) (l : Leaf), Exists s 0 ∧ RecordOk s 0 3 x 11 33 l ∧ s.queue? 0 3 = some x ∧ x.st ≠ .free ∧
      s.memWf = true) := by
  refine ⟨⟨creating, 0x62000, configured, ⟨0x62000 + 11, 0, 0x1F, 3⟩, ?_, by decide +kernel, ⟨rfl, .inl rfl, by decide⟩,
      exists_of (by decide +kernel), ⟨by decide +kernel, by decide +kernel, by decide +kernel, noPins_of (by decide +kernel), ?_⟩,
      by decide +kernel⟩,
    ⟨creating, 0x63000, exists_of (by decide +kernel), by decide +kernel⟩, by decide +kernel,
    ⟨holding 3 { someQueue .opened 0 0 with recDead := true }, { someQueue .opened 0 0 with recDead := true },
      exists_of (by decide +kernel), by decide +kernel⟩,
    ⟨holding 3 (someQueue .opened 0 0), someQueue .opened 0 0, _, exists_of (by decide +kernel),
      record_of (by decide +kernel) 11 33 (by decide) (by decide), by decide +kernel⟩⟩
  · have h : (creating.configOf 0 4 (creating.ctx 0).nextConf 0x62000).isSome = true := by decide +kernel
    show creating.configOf 0 4 (creating.ctx 0).nextConf 0x62000 = some configured
    unfold configured
    cases hx : creating.configOf 0 4 (creating.ctx 0).nextConf 0x62000 with
    | none => rw [hx] at h; exact absurd h (by decide)
    | some x => rfl
  · rw [show configured.recAddr = 0x62000 by decide +kernel]
    exact devOk_of (by decide +kernel) (by decide) (by decide) _

/-- No chunk is PINNED, nothing of the host is under way and no fence holds it, as a test. -/
def hostIdle (s : State) (n : Nat) : Bool := s.memWf && !s.hostBusy n && unpinned s

theorem hostFree_of {s : State} {n : Nat} (h : hostIdle s n = true) : HostFree s n := by
  simp only [hostIdle, Bool.and_eq_true, Bool.not_eq_true'] at h
  exact ⟨h.1.1, h.1.2, noPins_of h.2⟩

/-- A queue of 64-byte items in a state, at a ring that is mapped or not. -/
def itemQ (st : QSt) (tail : Nat) (mapped : Bool) : Queue :=
  { someQueue st tail 1 with isz := 2, ring := if mapped then 0x40000 else 0x7FFFFFF000 }

/-- QueueTraffic: an event and a fault that wait for their queue, and a FAULT queue that takes no record. -/
theorem witness_recordPosts :
    (∃ (s : State) (b : List Byte) (x : Queue) (l : Leaf), s.memWf = true ∧ NoPins s ∧
      DevOk s 0 (x.slotVa x.tail) 64 (XReq.ringWrite .engine) l ∧ (s.ctx 0).store = [b] ∧ (s.ctx 0).blocked = [] ∧
      s.queue? 0 1 = some x ∧ x.st = .opened ∧ x.tail - x.head < x.capacity ∧ b.length = 64) ∧
    (∃ (s : State) (f : FaultRec) (x : Queue) (l : Leaf), s.memWf = true ∧ NoPins s ∧
      DevOk s 0 (x.slotVa x.tail) 64 (XReq.ringWrite .engine) l ∧ (s.ctx 0).faults.find? (fun f => !f.posted) = some f ∧
      s.queue? 0 2 = some x ∧ x.st = .opened ∧ x.tail - x.head < x.capacity) ∧
    (∀ p ∈ [(QSt.closing, 3), (.opened, 5)], ∃ (s : State) (x : Queue), s.queue? 0 2 = some x ∧
      (x.st ≠ .opened ∨ x.capacity ≤ x.tail - x.head) ∧ x.st = p.1) :=
  ⟨⟨(holding 1 eventQ).modCtx 0 (fun c => { c with store := [List.replicate 64 0] }), List.replicate 64 0, eventQ, eventLeaf,
      by decide +kernel, noPins_of (by decide +kernel), devOk_of (by decide +kernel) (by decide) (by decide) _, by decide +kernel⟩,
    ⟨(holding 2 eventQ).modCtx 0 (fun c => { c with faults := [someRecord] }), someRecord, eventQ, eventLeaf,
      by decide +kernel, noPins_of (by decide +kernel), devOk_of (by decide +kernel) (by decide) (by decide) _, by decide +kernel⟩,
    fun p hp => ⟨holding 2 (itemQ p.1 p.2 true), itemQ p.1 p.2 true, by
      simp only [List.mem_cons, List.not_mem_nil, or_false] at hp
      obtain rfl | rfl := hp <;> decide +kernel⟩⟩

/-- Host enqueues of the witnesses: the queue's state, TAIL, whether its ring is mapped. -/
def enqueues : List (QSt × Nat × Bool) :=
  [(.opened, 3, true), (.opened, 3, false), (.opened, 5, true), (.closing, 3, true), (.configured, 1, true), (.closed, 1, true),
   (.error, 3, true), (.free, 1, true)]

theorem enqueues_fit : enqueues.all (fun p =>
    recordsFit (holding 3 (itemQ p.1 p.2.1 p.2.2)) 3 (itemQ p.1 p.2.1 p.2.2) && hostIdle (holding 3 (itemQ p.1 p.2.1 p.2.2)) 0 &&
      (holding 3 (itemQ p.1 p.2.1 p.2.2)).isFull 0 3 (itemQ p.1 p.2.1 p.2.2) == (p.2.1 == 5)) = true := by decide +kernel

/-- QueueTraffic, host enqueues: in every state of the queue, with room and none, with a ring that is mapped and one that is not, and
with a record that takes a write. -/
theorem witness_hostEnqueue : (∀ p ∈ enqueues, ∃ (s : State) (x : Queue), HostFree s 0 ∧ Exists s 0 ∧ s.queue? 0 3 = some x ∧
      (∀ off ∈ [32, 36], ∃ l, RecordOk s 0 3 x off 4 l) ∧ s.isFull 0 3 x = (p.2.1 == 5) ∧ x.st = p.1 ∧ x.isz ≤ 2 ∧
      x.defers < 2 ^ 32) ∧ (List.replicate 64 (0 : Byte)).length = 64 ∧
    (∃ l, DevOk (holding 3 (itemQ .opened 3 true)) 0 ((itemQ .opened 3 true).slotVa 3) (16 * 2 ^ 2) (XReq.ringWrite .engine) l) ∧
    (holding 3 (itemQ .opened 3 false)).translate 0 ((itemQ .opened 3 false).slotVa 3) (XReq.ringWrite .engine) =
      .error (.fault .notPresent false) := by
  refine ⟨fun p hp => ?_, by decide, ⟨_, devOk_of (by decide +kernel) (by decide) (by decide) _⟩, by decide +kernel⟩
  have h := List.all_eq_true.mp enqueues_fit p hp
  simp only [Bool.and_eq_true, beq_iff_eq] at h
  have hr := h.1.1
  simp only [recordsFit, Bool.and_eq_true, beq_iff_eq] at hr
  refine ⟨_, _, hostFree_of h.1.2, exists_of hr.1.2, hr.2, fun off ho => ⟨_, record_of h.1.1 off 4 ?_ (by decide)⟩, h.2, rfl, show 2 ≤ 2 by decide,
    show 0 < 2 ^ 32 by decide⟩
  simp only [List.mem_cons, List.not_mem_nil, or_false] at ho
  omega

/-- QueueTraffic, the apertures of record queues: HEAD inside its range and beyond each end. -/
theorem witness_apertures : ∃ (s : State) (x : Queue), Exists s 0 ∧ s.hostBusy 0 = false ∧ s.queue? 0 1 = some x ∧ x.st = .opened ∧
    x.head ≤ (1 : W64).toNat ∧ (1 : W64).toNat ≤ x.tail ∧ (0 : W64).toNat < x.head ∧ x.tail < (4 : W64).toNat :=
  ⟨holding 1 eventQ, eventQ, exists_of (by decide +kernel), by decide +kernel⟩

end

end Sys2Proof.Tests
end

