-- ==== Sys2Proof/Tests/WitnessH.lean ====
section
/-!
SUPPORT. Witnesses of the statements about the host window, the mailbox, translations, replays, links, windows, engines and the step.
-/

set_option Elab.async false

namespace Sys2Proof.Tests

open Sys2Proof Sys2Proof.Machine Sys2Proof.Rules

noncomputable section

/-- A translation as a test. -/
theorem xlate_of {s : State} {n va : Nat} {q : XReq} {l : Leaf} (h : (s.translate n va q).toOption = some l) :
    s.translate n va q = .ok l := by
  revert h
  cases s.translate n va q with
  | ok x => intro h; simpa [Except.toOption] using h
  | error e => intro h; simp [Except.toOption] at h

theorem xfault_of {s : State} {n va : Nat} {q : XReq} (h : (s.translate n va q).toOption = none) :
    ∃ e, s.translate n va q = .error e := by
  revert h
  cases s.translate n va q with
  | ok x => intro h; simp [Except.toOption] at h
  | error e => intro _; exact ⟨e, rfl⟩

/-- The identity on the lines of a request. -/
def sameLine (va n : Nat) : Leaf := ⟨lineStart va n, 0, 0x1F, 3⟩

theorem exists_plain {s : State} (h : (s.ctx 0).st = .active) : Exists s 0 := ⟨by rw [h]; decide, by rw [h]; decide⟩

theorem line_ok {s : State} (h : isLow s = true) {va n : Nat} {q : XReq} (hn : lineStart va n < 2 ^ 30) : LineOk s 0 va q (sameLine va) n :=
  ⟨by omega, low_leaf0 h hn q⟩

theorem request_bounds {va len n : Nat} (h : InRequest va len n) : lineStart va n < va + len := by
  obtain ⟨h0, -, h2⟩ := h
  show max va (128 * n) < va + len
  omega

/-- A granule of the request is poisoned. -/
def soiled : State := { plain with poison := [0x30080 / 32] }

theorem soiled_lines (n : Nat) (h : InRequest 0x30040 100 n) : LineOk soiled 0 0x30040 XReq.hostRead (sameLine 0x30040) n := by
  obtain ⟨-, h1, h2⟩ := h
  have : n = 1536 ∨ n = 1537 := by omega
  rcases this with rfl | rfl
  · exact ⟨by decide, xlate_of (by decide +kernel)⟩
  · exact ⟨by decide, xlate_of (by decide +kernel)⟩

/-- HostPort, reads: a request over two lines, one with a poisoned granule, one that ends in a line with no page, one beyond the
window, and one of a context that does not exist. -/
theorem witness_hostRead :
    (∃ (s : State) (len : Nat) (off : W64) (tr : Nat → Leaf), s.hostBusy 0 = false ∧ (s.ctx 0).hwb + off.toNat = 0x30040 ∧
      (s.ctx 0).hwb < 2 ^ 57 ∧ Exists s 0 ∧ off.toNat + len ≤ 2 ^ 36 ∧ (∀ n, InRequest 0x30040 len n → LineOk s 0 0x30040 XReq.hostRead tr n) ∧
      0 < len ∧ ∀ x ∈ hostBytes s 0x30040 len tr, x.isSome = true) ∧
    (∃ (s : State) (len : Nat) (off : W64) (tr : Nat → Leaf), s.hostBusy 0 = false ∧ (s.ctx 0).hwb + off.toNat = 0x30040 ∧
      (s.ctx 0).hwb < 2 ^ 57 ∧ Exists s 0 ∧ off.toNat + len ≤ 2 ^ 36 ∧ (∀ n, InRequest 0x30040 len n → LineOk s 0 0x30040 XReq.hostRead tr n) ∧
      none ∈ hostBytes s 0x30040 len tr) ∧
    (∃ (s : State) (len n : Nat) (off : W64), s.hostBusy 0 = false ∧ (s.ctx 0).hwb < 2 ^ 57 ∧
      InRequest ((s.ctx 0).hwb + off.toNat) len n ∧ LineFaults s 0 ((s.ctx 0).hwb + off.toNat) XReq.hostRead n) ∧
    (2 ^ 36 < (0xFFFFFFFFF : W64).toNat + 2 ∧ ¬ Exists plain 5) := by
  refine ⟨⟨plain, 100, 0x30040, sameLine 0x30040, by decide +kernel, by decide +kernel, by decide +kernel, exists_plain (by decide +kernel),
      by decide, ?_, by decide, by decide +kernel⟩,
    ⟨soiled, 100, 0x30040, sameLine 0x30040, by decide +kernel, by decide +kernel, by decide +kernel, exists_plain (by decide +kernel),
      by decide, soiled_lines, by decide +kernel⟩,
    ⟨plain, 128, 2 ^ 23, 2 ^ 30 - 64, by decide +kernel, by decide +kernel, ?_, .inr (xfault_of (by decide +kernel))⟩, by decide,
    fun h => absurd (show (plain.ctx 5).st = .empty by decide +kernel) h.1⟩
  · intro n hn
    exact line_ok (by decide +kernel) (by have := request_bounds hn; omega)
  · rw [show (plain.ctx 0).hwb = 0 by decide +kernel]
    exact ⟨by decide, by decide, by decide⟩

/-- HostPort, writes: with none of the function under way and with one; beyond the window, and of a context that does not exist. -/
theorem witness_hostWrite :
    (∀ b : Bool, ∃ (s : State) (data : List Byte), s.hostHeld 0 = false ∧ Exists s 0 ∧ (0x30040 : W64).toNat + data.length ≤ 2 ^ 36 ∧
      data ≠ [] ∧ s.hostBusy 0 = b) ∧
    (plain.hostHeld 0 = false ∧ 2 ^ 36 < (0xFFFFFFFFF : W64).toNat + 2) ∧ (plain.hostHeld 5 = false ∧ ¬ Exists plain 5) := by
  refine ⟨fun b => ?_, ⟨by decide +kernel, by decide⟩, by decide +kernel,
    fun h => absurd (show (plain.ctx 5).st = .empty by decide +kernel) h.1⟩
  cases b
  · exact ⟨plain, List.replicate 100 7, by decide +kernel, exists_plain (by decide +kernel), by decide +kernel⟩
  · exact ⟨{ plain with hostw := [⟨7, 0, .posted, [(0x30040, [1])]⟩] }, List.replicate 100 7, by decide +kernel,
      exists_plain (by decide +kernel), by decide +kernel⟩

/-- A host write whose next line is at an address, with another line behind it or none. -/
def lined (func va : Nat) (rest : List (Nat × List Byte)) : State :=
  { plain with hostw := [⟨7, func, .posted, (va, [1, 2, 3]) :: rest⟩] }

theorem nextLine_of (func va : Nat) (rest : List (Nat × List Byte)) :
    NextLine (lined func va rest) ⟨7, func, .posted, (va, [1, 2, 3]) :: rest⟩ va [1, 2, 3] rest := by
  refine ⟨⟨show plain.memWf = true by decide +kernel, ?_⟩, ?_, ?_, rfl⟩
  · intro r t ht
    exact noPins_of (s := plain) (by decide +kernel) r t ht
  · unfold lined
    simp
  · intro x hx _
    exact List.mem_singleton.mp hx

/-- HostPort, the lines of a write: one that enters G, with lines behind it and as the last; and one of a context that does not
exist, beyond the address space, and with no page. -/
theorem witness_hostLines :
    (∀ rest ∈ [[], [((0x30080 : Nat), [(4 : Byte)])]], ∃ (s : State) (h : HostLines) (l : Leaf), NextLine s h 0x3007D [1, 2, 3] rest ∧
      Exists s h.func ∧ s.translate h.func 0x3007D XReq.hostWrite = .ok l) ∧
    (∃ (s : State) (h : HostLines), NextLine s h 0x3007D [1, 2, 3] [] ∧ ¬ Exists s h.func) ∧
    (∃ (s : State) (h : HostLines), NextLine s h (2 ^ 57) [1, 2, 3] []) ∧
    (∃ (s : State) (h : HostLines), NextLine s h (2 ^ 30) [1, 2, 3] [] ∧ ∃ e, s.translate h.func (2 ^ 30) XReq.hostWrite = .error e) := by
  refine ⟨fun rest hr => ⟨_, _, ⟨0x3007D, 0, 0x1F, 3⟩, nextLine_of 0 0x3007D rest, ?_, ?_⟩, ⟨_, _, nextLine_of 5 0x3007D [], ?_⟩,
    ⟨_, _, nextLine_of 0 (2 ^ 57) []⟩, ⟨_, _, nextLine_of 0 (2 ^ 30) [], xfault_of (by decide +kernel)⟩⟩
  · exact exists_plain (show (plain.ctx 0).st = .active by decide +kernel)
  · simp only [List.mem_cons, List.not_mem_nil, or_false] at hr
    obtain rfl | rfl := hr <;> exact xlate_of (by decide +kernel)
  · exact fun h => absurd (show (plain.ctx 5).st = .empty by decide +kernel) h.1

/-- HostPort, the mailbox: one entry of the logbook. -/
theorem witness_Mailbox : ∃ (s : State) (n : Nat) (f : Func) (e : List Byte), s.funcs[n]? = some f ∧ f.log[0]? = some e ∧ 0 < f.logseq.toNat :=
  ⟨{ plain with funcs := [⟨none, 0, 1, [List.replicate 64 1]⟩] }, 0, ⟨none, 0, 1, [List.replicate 64 1]⟩, _, rfl, rfl, by decide⟩

/-! Translations and replays. -/

/-- A chunk that uses a page, an earlier one, and an AMOV with a lane to come. -/
def pageUsers : List State :=
  [chunked (fun h => { h with st := .opened, pages := [0x30] }),
   dress plain (fun c => c.mapT (fun t => { t with earlier := [{ aheadOf .ordering with pages := [0x30] }] })),
   parked (.amov .add ⟨vr 20, some (vr 1), 3, 0, .u32, g0, .none⟩ [⟨1, 0x30000, 0x30000, 0, 0, 0⟩] [])]

/-- The strand uses a page in a range, as a test. -/
def inUse (s : State) (i : Inval) : Bool :=
  let u := (seen s).t
  (u.earlier ++ [u.chunk]).any (fun ch => ch.active && ch.pages.any (fun p => decide (4096 * p < i.base + i.len ∧ i.base < 4096 * p + 4096))) ||
    (match u.wait with
     | .amov _ _ todo _ => todo.any (fun x => decide (x.va / 4096 * 4096 < i.base + i.len ∧ i.base < x.va / 4096 * 4096 + 4096))
     | _ => false)

theorem inUse_of {s : State} {i : Inval} (h : inUse s i = true) : InUse (seen s).t i := by
  simp only [inUse, Bool.or_eq_true, List.any_eq_true, Bool.and_eq_true, decide_eq_true_eq] at h
  rcases h with ⟨ch, h1, h2, p, h3, h4⟩ | h
  · exact .inl ⟨ch, h1, h2, p, h3, h4⟩
  · right
    split at h
    · next f o todo olds hw =>
      simp only [List.any_eq_true, decide_eq_true_eq] at h
      obtain ⟨x, h1, h2⟩ := h
      exact ⟨_, _, _, _, hw, x, h1, h2⟩
    · simp at h

/-- Translations: operands at their bounds, attributes that are and are not good, and an invalidation that a strand holds back, by its
open chunk, by an earlier one and by an AMOV, and one that none holds. -/
theorem witness_Translations :
    (Allowed pf 0 ∧ Exists plain 0 ∧ AllowedPf pf) ∧
    (∀ v : Byte, v ∈ [(0 : Byte), 1, 10] → v.toNat < 16 ∧ field v.toNat 2 1 ≠ 3 ∧ (v.getLsbD 0 = true → 0 + 4096 ≤ 2 ^ 48)) ∧
    (∀ v : Byte, v ∈ [(16 : Byte), 6] → ¬ (v.toNat < 16 ∧ field v.toNat 2 1 ≠ 3 ∧ (v.getLsbD 0 = true → 0 + 4096 ≤ 2 ^ 48))) ∧
    (∀ x ∈ pageUsers, ∃ (s : State) (i : Inval) (r : StrandRef) (u : Strand), s.strand? r = some u ∧ InUse u i ∧ s.invals[0]? = some i ∧
      r.strand < 4 ∧ r.w.crew.ctx = i.ctx ∧ s.crews = x.crews) ∧
    (∃ (s : State) (i : Inval), s.invals[0]? = some i ∧ ∀ r, ¬ (r.w.crew.ctx = i.ctx ∧
      ∃ u, s.strand? r = some u ∧ InUse u i)) := by
  refine ⟨⟨⟨rfl, .inl rfl, by decide⟩, exists_plain (by decide +kernel), ⟨rfl, rfl⟩⟩, by decide, by decide, ?_, ?_⟩
  · intro x hx
    refine ⟨{ x with invals := [⟨0, 7, 0, 0x30000, 4096⟩] }, ⟨0, 7, 0, 0x30000, 4096⟩, probeRef, _, strand_seen _ ?_, inUse_of ?_, rfl,
      by decide, rfl, rfl⟩ <;>
    · simp only [pageUsers, List.mem_cons, List.not_mem_nil, or_false] at hx
      obtain rfl | rfl | rfl := hx <;> decide +kernel
  · refine ⟨{ chunked (fun h => { h with st := .opened, pages := [0x30] }) with invals := [⟨0, 7, 0, 0x31000, 4096⟩] },
      ⟨0, 7, 0, 0x31000, 4096⟩, rfl, ?_⟩
    rintro r ⟨-, u, hu, h⟩
    have hs := every_strand (p := fun t => decide (t.chunk.pages = [0x30]) && t.earlier.isEmpty && decide (t.wait = .none)) (by decide +kernel) r u hu
    simp only [Bool.and_eq_true, decide_eq_true_eq, List.isEmpty_iff] at hs
    obtain ⟨⟨h1, h2⟩, h3⟩ := hs
    rcases h with ⟨ch, hc, -, p, hp, -, h5⟩ | ⟨_, _, _, _, hw, -⟩
    · rw [h2] at hc
      obtain rfl := List.mem_singleton.mp hc
      rw [h1] at hp
      obtain rfl := List.mem_singleton.mp hp
      exact absurd (show (0x31000 : Nat) < 4096 * 0x30 + 4096 from h5) (by decide)
    · rw [h3] at hw
      exact absurd hw (by simp)

end

end Sys2Proof.Tests
end

