-- ==== Sys2Proof/Tests/WitnessI.lean ====
section
/-!
SUPPORT. Witnesses of the statements about replays, links, windows and engines.
-/

set_option Elab.async false

namespace Sys2Proof.Tests

open Sys2Proof Sys2Proof.Machine Sys2Proof.Rules

noncomputable section

/-- Context 0 of a state changed. -/
def inCtx (s : State) (f : Ctx → Ctx) : State := s.modCtx 0 f

/-- One outstanding fault record of context 0. -/
def faulty (s : State) (a : List Attached) : State :=
  inCtx s (fun c => { c with faults := [{ someRecord with attached := a }], nextFault := 1 })

theorem outstanding_of {s : State} {f : FaultRec} (h : (s.ctx 0).faults = [f]) : Outstanding s 0 f :=
  ⟨by rw [h]; exact List.mem_singleton.2 rfl, fun g hg _ => by rw [h] at hg; exact List.mem_singleton.1 hg⟩

/-- A command of the strand's warp in batch 1. -/
def batchedCmd (kind : CmdKind) : Cmd := { pendingCmd 5 with kind := kind, batch := some 1 }

/-- The warp's only batch holds the command. -/
def commanded (s : State) (c : Cmd) : State :=
  { dress s (batched [⟨1, [5], none⟩] 2) with cmds := [c], nextCmd := 6 }

theorem inBatch_of {s : State} {c : Cmd} (h : ((s.curOf probeRef).isSome && decide ((seen s).warp.batches = [⟨1, [5], none⟩])) = true)
    (h1 : c.warp = some probeRef.w) (h2 : c.batch = some 1) (h3 : c.id = 5 ∧ c.lost = false) : InBatch s c probeRef.w (seen s).warp ⟨1, [5], none⟩ := by
  simp only [Bool.and_eq_true, decide_eq_true_eq] at h
  exact ⟨h1, warp_seen s h.1, h2, by rw [h.2]; rfl, by rw [h3.1]; exact List.mem_singleton.2 rfl, rfl, h3.2⟩

/-- The strand waits for record 0, at a word. -/
def faultedAt (w : Nat) : State := faulty (dress (bare w) (fun c => c.mapT (fun t => { t with wait := .fault 0 someFault }))) [.strand probeRef]

/-- A peer's PUT of two words that has made the first. -/
def peerPut : PeerCmd := ⟨0, 7, 9, true, 0, 8, [0], false, none, []⟩
def peered (s : State) (p : PeerCmd) : State := { s with peers := [p] }

/-- Replays: an unknown record, an answer above 1, a strand, one at ENQ and one at DEQ on a queue that is OPEN, a command in its
batch, a peer's command, a host enqueue on an OPEN queue, and the writes of a record. -/
theorem witness_Replays : Allowed pf 0 ∧ Exists plain 0 ∧ (∀ f ∈ (plain.ctx 0).faults, f.id ≠ (9 : BitVec 32).toNat) ∧
    2 ≤ (2 : BitVec 8).toNat ∧
    (∃ (s : State) (f : FaultRec) (c : Cur), Exists s 0 ∧ Outstanding s 0 f ∧ s.curOf probeRef = some c ∧ f.id = (0 : BitVec 32).toNat ∧
      f.attached = [.strand probeRef] ∧ c.t.wait = .fault f.id someFault ∧
      queueWord ((forgotten s 0 f).peekWord c.ctx c.t.core.pc) = none) ∧
    (∀ x ∈ [(0x7802540000000205, true), (0x7901680000000F05, false)], ∃ (s : State) (f : FaultRec) (c : Cur) (o : QueueOps) (y : Queue),
      Exists s 0 ∧ Outstanding s 0 f ∧ s.curOf probeRef = some c ∧ f.id = (0 : BitVec 32).toNat ∧ f.attached = [.strand probeRef] ∧
      c.t.wait = .fault f.id someFault ∧ queueWord ((forgotten s 0 f).peekWord c.ctx c.t.core.pc) = some (x.2, o) ∧
      s.queue? 0 o.q.toNat = some y ∧ y.st = .opened) ∧
    (∃ (s : State) (f : FaultRec) (c : Cmd) (va : Nat) (r : WarpRef) (w : Warp) (b : Batch), Exists s 0 ∧ Outstanding s 0 f ∧
      f.id = (0 : BitVec 32).toNat ∧ f.attached = [.cmd c.id] ∧ s.cmd? c.id = some c ∧ c.stall = some (f.id, va) ∧
      InBatch s c r w b ∧ w.batches = b :: [] ∧ c.abandoned = false ∧ c.done.length ≠ c.kind.units) ∧
    (∃ (s : State) (f : FaultRec) (p : PeerCmd), Exists s 0 ∧ Outstanding s 0 f ∧ f.id = (0 : BitVec 32).toNat ∧
      f.attached = [.peer p.id] ∧ s.peer? 0 p.id = some p ∧ p.ctx = 0 ∧ p.stall = some f.id) ∧
    (∃ (s : State) (f : FaultRec) (x : Queue), Exists s 0 ∧ Outstanding s 0 f ∧ f.id = (0 : BitVec 32).toNat ∧ f.attached = [.enq 3] ∧
      s.queue? 0 3 = some x ∧ x.st = .opened) ∧
    (∃ (s : State) (f : FaultRec) (x : Queue), Exists s 0 ∧ Outstanding s 0 f ∧ f.id = (0 : BitVec 32).toNat ∧
      f.attached = [.queueRec 3 x.conf] ∧ s.queue? 0 3 = some x ∧ x.st = .opened) := by
  refine ⟨⟨rfl, .inl rfl, by decide⟩, exists_plain (by decide +kernel), by decide +kernel, by decide, ?_, ?_, ?_, ?_, ?_, ?_⟩
  · exact ⟨faultedAt 0, _, _, exists_plain (by decide +kernel), outstanding_of (by rfl), cur_of_seen _ (by decide +kernel),
      by decide +kernel⟩
  · intro x hx
    refine ⟨inCtx (faultedAt x.1) (fun c => c.setQueue 5 (someQueue .opened 1 0)), _, _,
      (FmtE.of (BitVec.ofNat 64 x.1)).queue, someQueue .opened 1 0, exists_plain ?_, outstanding_of (by rfl), cur_of_seen _ ?_, ?_⟩ <;>
    · simp only [List.mem_cons, List.not_mem_nil, or_false] at hx
      obtain rfl | rfl := hx <;> decide +kernel
  · exact ⟨faulty (commanded based { batchedCmd (.syFill 0x40000000 1 0) with stall := some (0, 0x40000000) }) [.cmd 5], _,
      { batchedCmd (.syFill 0x40000000 1 0) with stall := some (0, 0x40000000) }, 0x40000000, _, _, _, exists_plain (by decide +kernel),
      outstanding_of (by rfl), rfl, rfl, by rfl, rfl, inBatch_of (by decide +kernel) rfl rfl ⟨rfl, rfl⟩, by decide +kernel⟩
  · exact ⟨faulty (peered plain { peerPut with stall := some 0 }) [.peer 9], _, { peerPut with stall := some 0 },
      exists_plain (by decide +kernel), outstanding_of (by rfl), rfl, rfl, by decide +kernel⟩
  · exact ⟨faulty (holding 3 (someQueue .opened 0 0)) [.enq 3], _, someQueue .opened 0 0, exists_plain (by decide +kernel), outstanding_of (by rfl),
      rfl, rfl, by decide +kernel, rfl⟩
  · exact ⟨faulty (holding 3 (someQueue .opened 0 0)) [.queueRec 3 0], _, someQueue .opened 0 0, exists_plain (by decide +kernel),
      outstanding_of (by rfl), rfl, rfl, by decide +kernel, rfl⟩

/-! Links and windows. -/

/-- A link in a state. -/
def aLink (st : LinkSt) (n : Nat) : Link :=
  { st := st, lanes := n, trained := n, flitsOut := 0, flitsIn := 0, replays := 0, losses := 0, quiesce := [] }

/-- Every link as given. -/
def linked (s : State) (l : Link) : State := { s with links := List.replicate 12 l }

/-- A window of 4096 bytes at 0x50000 on link 0, of both rights. -/
def aWindow (st : WinSt) (closing : Bool) : Window := ⟨7, 0x50000, 4096, 3, 0, 1, 2, 2, st, closing, if closing then some (0, 7) else none⟩

def windowed (s : State) (w : Window) : State := inCtx s (fun c => { c with windows := [w] })

/-- A PUT on the window, in the warp's closed batch, a peer's PUT on it, the strand parked at WCWAIT on it, and room for an event. -/
def linkTraffic (l : Link) : State :=
  linked (peered (withEvents (windowed (commanded (parked (.wc false ⟨7, 8, 7, 1⟩ 0 none)) (batchedCmd (.put 7 0x30000 0 8)))
    (aWindow .opened false))) peerPut) l

/-- No strand has a second chunk or has made a strand, and no merge can be undone, as a test. -/
def plainNow (s : State) : Bool :=
  s.crews.all (fun k => k.warps.all (fun w => w.strands.all (fun o =>
    match o with | some t => t.earlier.isEmpty && t.chunk.childIdx.isNone | none => true))) &&
    s.crews.all (fun k => k.warps.all (fun w => w.merges.isEmpty))

theorem plain_of {s : State} (h : plainNow s = true) : Plain s := by
  rw [plainNow, Bool.and_eq_true] at h
  constructor
  · intro r u hu
    have h := every_strand (p := fun t => t.earlier.isEmpty && t.chunk.childIdx.isNone) h.1 r u hu
    simpa using h
  · intro c hc w hw
    have h := h.2
    simp only [List.all_eq_true, List.isEmpty_iff] at h
    exact h c hc w hw

/-- What everything that a link's loss ends asks of a state, with the link at a state. -/
structure LossShown (s : State) (l : Link) : Prop where
  link    : s.links[0]? = some l
  windows : WindowsDiffer s 0 ∧ (s.cmds.map (·.id)).Nodup ∧ (s.ctxs.map (·.num)).Nodup
  plain   : Plain s
  event   : EventReady s 0 eventQ eventLeaf
  used    : Uses s 0 0 (aWindow .opened false) ∧ ∀ m, m ≠ 0 → ∀ w, ¬ Uses s m 0 w
  cmd     : ∃ c ∈ s.cmds, c.ctx = 0 ∧ c.kind.win? = some 7 ∧ c.finished = false ∧ c.lost = false ∧
    (∀ d ∈ s.cmds, d ≠ c → d.finished = true) ∧ ∃ r x b, InBatch s c r x b
  peer    : ∃ p ∈ s.peers, p.ctx = 0 ∧ p.win = 7
  parked  : ∃ u o, s.strand? probeRef = some u ∧ u.chunk.st = .idle ∧ u.wait = .wc false o 0 none ∧ o.win.toNat = 7

theorem ctx_far {s : State} (h : s.ctxs.all (fun c => c.num == 0 || c.windows.isEmpty) = true) {m : Nat} (hm : m ≠ 0) (w : Window) :
    ¬ Uses s m 0 w := by
  rintro ⟨hw, -⟩
  unfold State.ctx State.ctx? at hw
  cases hx : s.ctxs.find? (fun c => c.num == m) with
  | none => rw [hx] at hw; exact absurd hw (by simp [Ctx.empty])
  | some c =>
    rw [hx] at hw
    have h1 := List.all_eq_true.mp h c (List.mem_of_find?_eq_some hx)
    have h2 : c.num = m := by simpa using List.find?_some hx
    simp only [Bool.or_eq_true, beq_iff_eq, List.isEmpty_iff] at h1
    rcases h1 with h1 | h1
    · exact hm (h2.symm.trans h1)
    · rw [Option.getD_some, h1] at hw; exact absurd hw (by simp)

theorem loss_shown (l : Link) : LossShown (linkTraffic l) l := by
  have h1 : ((linkTraffic (aLink .active 16)).curOf probeRef).isSome = true := by decide +kernel
  exact ⟨rfl, ⟨show ([7] : List Nat).Nodup by decide, show ([5] : List Nat).Nodup by decide,
      show ((linkTraffic (aLink .active 16)).ctxs.map (·.num)).Nodup by decide +kernel⟩,
    plain_of (show plainNow (linkTraffic (aLink .active 16)) = true by decide +kernel),
    eventReady_of (show eventsFit (linkTraffic (aLink .active 16)) = true by decide +kernel),
    ⟨⟨List.mem_singleton.2 rfl, by decide⟩, fun m hm w => ctx_far (show (linkTraffic (aLink .active 16)).ctxs.all _ = true by
      decide +kernel) hm w⟩,
    ⟨batchedCmd (.put 7 0x30000 0 8), List.mem_singleton.2 rfl, rfl, rfl, by decide, rfl,
      fun d hd hn => absurd (List.mem_singleton.1 hd) hn, _, _, _, inBatch_of (s := linkTraffic (aLink .active 16)) (by decide +kernel) rfl rfl ⟨rfl, rfl⟩⟩,
    ⟨peerPut, List.mem_singleton.2 rfl, rfl, rfl⟩,
    ⟨(seen (linkTraffic (aLink .active 16))).t, ⟨7, 8, 7, 1⟩, strand_seen (linkTraffic (aLink .active 16)) h1, by decide +kernel,
      by decide +kernel, rfl⟩⟩

/-- Links: each state, the end of a quiesce with a command that waits and with none, and everything that a lost link ends: a command on
a window in a closed batch, a peer's command, and a strand at WCWAIT. -/
theorem witness_Links :
    (∀ st : LinkSt, ∃ (s : State) (l : Link), OnLink s pf 11 l ∧ l.st = st) ∧ (AllowedPf pf ∧ 12 ≤ (12 : BitVec 8).toNat) ∧
    (∃ (s : State) (l : Link), s.links[0]? = some l ∧ l.quiesce = (0, 7) :: [(0, 8)] ∧ ∃ c, WaitsOn s 0 c) ∧
    (∃ (s : State) (l : Link), s.links[0]? = some l ∧ l.quiesce = (0, 7) :: [(0, 8)] ∧ ∀ c, ¬ WaitsOn s 0 c) ∧
    (∀ p ∈ [(LinkSt.training, 0), (.active, 16), (.degraded, 9), (.degraded, 8)], ∃ (s : State) (l : Link), LossShown s l ∧
      l.st = p.1 ∧ l.lanes = p.2) := by
  let l : Link := { aLink .quiesced 16 with quiesce := [(0, 7), (0, 8)] }
  refine ⟨fun st => ⟨linked plain (aLink st 16), aLink st 16, ⟨⟨rfl, rfl⟩, by decide, rfl⟩, rfl⟩, ⟨⟨rfl, rfl⟩, by decide⟩,
    ⟨linkTraffic l, l, rfl, rfl, batchedCmd (.put 7 0x30000 0 8), List.mem_singleton.2 rfl, by decide, 7, aWindow .opened false, rfl,
      by rfl, by decide, ?_⟩,
    ⟨linked plain l, l, rfl, rfl, fun c h => absurd (show c ∈ ([] : List Cmd) from h.1) (by simp)⟩,
    fun p _ => ⟨linkTraffic (aLink p.1 p.2), aLink p.1 p.2, loss_shown _, rfl, rfl⟩⟩
  intro i k _ _ hk
  obtain rfl := List.eq_of_mem_replicate (List.mem_of_getElem? hk)
  exact ⟨by decide, by decide⟩

def openArgs (id : BitVec 8) : WinOpenArgs := ⟨0, id, 3, 1, 0, 0x50000, 2 ^ 40⟩

/-- Windows: a new identifier and one in use, a frozen window with a link up and with none, an OPEN one, and one that closes with a
command that flies and with none. -/
theorem witness_Windows :
    (∃ s : State, Allowed pf 0 ∧ Exists s 0 ∧ (openArgs 3).rights.toNat < 4 ∧ (openArgs 3).links.toNat < 2 ^ 12 ∧
      (openArgs 3).base.toNat % 4096 = 0 ∧ (openArgs 3).base.toNat < 2 ^ 57 ∧ (openArgs 3).size.toNat % 4096 = 0 ∧
      (openArgs 3).size.toNat ≤ 2 ^ 40 ∧ (s.ctx 0).window? (openArgs 3).id.toNat = none ∧ (s.ctx 0).window? (openArgs 7).id.toNat ≠ none) ∧
    (∃ (s : State) (w : Window), Exists s 0 ∧ WindowsDiffer s 0 ∧ (s.ctx 0).window? 7 = some w ∧ w.closing = false ∧ w.st = .frozen ∧
      ¬ NoneUp s w.links) ∧
    (∃ (s : State) (w : Window), Exists s 0 ∧ WindowsDiffer s 0 ∧ (s.ctx 0).window? 7 = some w ∧ w.closing = false ∧ w.st = .frozen ∧
      NoneUp s w.links) ∧
    (∃ (s : State) (w : Window), Exists s 0 ∧ WindowsDiffer s 0 ∧ (s.ctx 0).window? 7 = some w ∧ w.closing = false ∧ w.st = .opened) ∧
    (∃ (s : State) (w : Window), (s.ctx 0).window? 7 = some w ∧ w.closing = true ∧ w.closer = some (0, 7) ∧ ∃ c, Flies s 0 7 c) ∧
    (∃ (s : State) (w : Window), (s.ctx 0).window? 7 = some w ∧ w.closing = true ∧ w.closer = some (0, 7) ∧ ∀ c, ¬ Flies s 0 7 c) := by
  have ex : ∀ {s : State}, (s.ctx 0).st = .active → Exists s 0 := fun h => exists_plain h
  have one : ∀ {s : State} {w : Window}, (s.ctx 0).windows = [w] → WindowsDiffer s 0 := by
    intro s w h; unfold WindowsDiffer; rw [h]; simp
  refine ⟨⟨windowed plain (aWindow .opened false), ⟨rfl, .inl rfl, by decide⟩, ex (by decide +kernel), by decide, by decide, by decide,
      by decide, by decide, by decide, by decide +kernel, by decide +kernel⟩,
    ⟨linked (windowed plain (aWindow .frozen false)) (aLink .active 16), aWindow .frozen false, ex (by decide +kernel), one (by rfl), by rfl, rfl, rfl, ?_⟩,
    ⟨linked (windowed plain (aWindow .frozen false)) (aLink .failed 0), aWindow .frozen false, ex (by decide +kernel), one (by rfl), by rfl, rfl, rfl, ?_⟩,
    ⟨windowed plain (aWindow .opened false), aWindow .opened false, ex (by decide +kernel), one (by rfl), by rfl, rfl, rfl⟩,
    ⟨windowed (commanded based (batchedCmd (.put 7 0x30000 0 8))) (aWindow .opened true), aWindow .opened true, by rfl, rfl, rfl,
      batchedCmd (.put 7 0x30000 0 8), List.mem_singleton.2 rfl, rfl, rfl, by decide⟩,
    ⟨windowed plain (aWindow .opened true), aWindow .opened true, by rfl, rfl, rfl, fun c h => absurd (show c ∈ ([] : List Cmd) from h.1) (by simp)⟩⟩
  · intro h
    exact (h 0 (aLink .active 16) (by decide) (by decide) rfl).1 rfl
  · intro i k _ _ hk
    obtain rfl := List.eq_of_mem_replicate (List.mem_of_getElem? hk)
    exact ⟨by decide, by decide⟩

/-! Engines. -/

theorem noPinned_of {s : State} (h : (s.memWf && unpinned s) = true) : NoPinned s := by
  rw [Bool.and_eq_true] at h
  exact ⟨h.1, noPins_of h.2⟩

/-- A window is OPEN at an offset, as a test. -/
def opensTo (s : State) (w : Window) (right off : Nat) : Bool :=
  (s.ctx 0).window? 7 == some w && !w.closing && w.st == .opened && w.rights.testBit right && decide (off + 4 ≤ w.size) && off % 4 == 0

theorem openTo_of {s : State} {w : Window} {right off : Nat} (h : opensTo s w right off = true) : OpenTo s 0 7 right off w := by
  simp only [opensTo, Bool.and_eq_true, beq_iff_eq, Bool.not_eq_true', decide_eq_true_eq] at h
  obtain ⟨⟨⟨⟨⟨h1, h2⟩, h3⟩, h4⟩, h5⟩, h6⟩ := h
  exact ⟨h1, h2, h3, h4, h5, h6⟩

/-- A window at 0x40000000, which a leaf maps, and a window at the end of the address space. -/
def unmapped (pte : Nat) : State :=
  let s := inCtx plain (fun c => { c with windows := [{ aWindow .opened false with base := 0x40000000 }] })
  { s with mem := cellsPut s.mem 0x3008 (bytesOf 8 pte) }
def lastWindow : Window := { aWindow .opened false with base := 2 ^ 57 - 4096, size := 8192 }

/-- The word of the witnesses: the second of a command of two. -/
def unit1 : PeerUnit := ⟨9, 0, 8, 1⟩

/-- A peer's command that has made its first word. -/
def peerOf (put : Bool) : PeerCmd := { peerPut with put := put }

/-- A peer's command on a window of context 0. -/
def visited (put : Bool) : State := peered (windowed plain (aWindow .opened false)) (peerOf put)

theorem free_of {s : State} {p : PeerCmd} {o : PeerUnit} (h : (p.stall.isNone && decide (o.k ∉ p.done) && s.fences.isEmpty) = true) :
    PeerFree s p o := by
  simp only [Bool.and_eq_true, Option.isNone_iff_eq_none, decide_eq_true_eq, List.isEmpty_iff] at h
  exact ⟨h.1.1, h.1.2, fun f hf => by rw [h.2] at hf; exact absurd hf (by simp)⟩

theorem peerAt_of {s : State} {w : Window} {put : Bool} {p : PeerCmd} (h : opensTo s w (if put then 0 else 1) 4 = true)
    (hp : p.bad = false ∧ p.put = put ∧ p.win = 7 ∧ p.roff = 0 ∧ p.len = 8) : PeerAt s 0 7 put unit1 p w (w.base + 4) := by
  obtain ⟨h1, h2, h3, h4, h5⟩ := hp
  refine ⟨⟨h1, h2, h3, by rw [h5]; decide⟩, ?_, by rw [h4]; rfl⟩
  rw [h4]
  exact openTo_of h

/-- PeerTraffic: a word of a PUT and of a GET, of a command under way and of one that begins. -/
theorem witness_peerWords : ∀ put : Bool,
    (∃ (s : State) (p : PeerCmd) (w : Window) (l : Leaf), NoPinned s ∧ PeerNow s 0 7 put unit1 p ∧ PeerFree s p unit1 ∧
      PeerAt s 0 7 put unit1 p w (w.base + 4) ∧ s.translate 0 (w.base + 4) (peerReq put) = .ok l ∧
      (∀ i, i < 4 → s.isPoison (l.pa + i) = false) ∧ w.base + 4 < 2 ^ 57 ∧ p.done.length + 1 = p.len / 4) ∧
    (∃ (s : State) (p : PeerCmd) (w : Window) (l : Leaf), NoPinned s ∧ PeerNow s 0 7 put unit1 p ∧ PeerFree s p unit1 ∧
      PeerAt s 0 7 put unit1 p w (w.base + 4) ∧ s.translate 0 (w.base + 4) (peerReq put) = .ok l ∧
      (∀ i, i < 4 → s.isPoison (l.pa + i) = false) ∧ w.base + 4 < 2 ^ 57 ∧ p.done.length + 1 ≠ p.len / 4) := by
  intro put
  have pins : NoPinned (windowed plain (aWindow .opened false)) := noPinned_of (by decide +kernel)
  have low : isLow (windowed plain (aWindow .opened false)) = true := by decide +kernel
  have lowV : isLow (visited put) = true := low
  constructor
  · exact ⟨visited put, peerOf put, aWindow .opened false, ⟨0x50004, 0, 0x1F, 3⟩, pins, .inl (by rfl), free_of (by cases put <;> decide +kernel),
      peerAt_of (by cases put <;> decide +kernel) ⟨rfl, rfl, rfl, rfl, rfl⟩, low_leaf0 lowV (by decide) _,
      fun i hi => low_clean lowV (show 0x50004 + i < 2 ^ 30 by omega), by decide, by cases put <;> decide⟩
  · exact ⟨windowed plain (aWindow .opened false), ⟨0, 7, 9, put, 0, 8, [], false, none, []⟩, aWindow .opened false,
      ⟨0x50004, 0, 0x1F, 3⟩, pins, .inr ⟨by rfl, by cases put <;> decide +kernel⟩, free_of (by cases put <;> decide +kernel),
      peerAt_of (by cases put <;> decide +kernel) ⟨rfl, rfl, rfl, rfl, rfl⟩, low_leaf0 low (by decide) _,
      fun i hi => low_clean low (show 0x50004 + i < 2 ^ 30 by omega), by decide, by cases put <;> decide⟩

/-- PeerTraffic, what waits: a command that a fault record stalls, a word that is made, and one behind a fence. -/
theorem witness_peerWaits : ∀ put : Bool,
    (∃ (s : State) (p : PeerCmd), PeerNow s 0 7 put unit1 p ∧ p.stall ≠ none) ∧
    (∃ (s : State) (p : PeerCmd), PeerNow s 0 7 put unit1 p ∧ unit1.k ∈ p.done) ∧
    (∃ (s : State) (p : PeerCmd), PeerNow s 0 7 put unit1 p ∧ ∃ f ∈ s.fences, f.id ∈ p.after ∧ f.before ≠ []) :=
  fun put => ⟨⟨peered plain { peerOf put with stall := some 0 }, _, .inl (by rfl), by simp⟩,
    ⟨peered plain { peerOf put with done := [0, 1] }, { peerOf put with done := [0, 1] }, .inl (by rfl),
      (by decide : 1 ∈ [0, 1])⟩,
    ⟨{ peered plain { peerOf put with after := [3] } with fences := [⟨3, 0, probeRef.w, 1, 1, [5]⟩] }, { peerOf put with after := [3] },
      .inl (by rfl), _, List.mem_singleton.mpr rfl, (by decide : 3 ∈ [3]), by simp⟩⟩

theorem xerr_of {s : State} {n va : Nat} {q : XReq} {e : XErr}
    (h : (match s.translate n va q with | .error x => decide (x = e) | .ok _ => false) = true) : s.translate n va q = .error e := by
  cases hx : s.translate n va q with
  | ok l => rw [hx] at h; simp at h
  | error x => rw [hx] at h; rw [of_decide_eq_true h]

/-- The window ends before the word. -/
def shortWindow : Window := { aWindow .opened false with size := 4 }

/-- PeerTraffic, what is refused: a command that failed, one of the other kind, one on another window, a word beyond its end, a window
that is too short, an address beyond the address space, a page whose leaf asks for fatal faults, a poisoned word; and a page that is
not present. -/
theorem witness_peerRefused : ∀ put : Bool,
    (∀ p ∈ [{ peerOf put with bad := true }, { peerOf put with put := !put }, { peerOf put with win := 6 }, { peerOf put with len := 4 }],
      ∃ s : State, PeerNow s 0 7 put unit1 p ∧ PeerFree s p unit1 ∧ (p.bad = true ∨ p.put ≠ put ∨ p.win ≠ 7 ∨ p.len ≤ 4 * unit1.k)) ∧
    (∃ (s : State) (p : PeerCmd), PeerNow s 0 7 put unit1 p ∧ PeerFree s p unit1 ∧
      ∀ w, ¬ OpenTo s 0 7 (if put then 0 else 1) (p.roff + 4 * unit1.k) w) ∧
    (∃ (s : State) (p : PeerCmd) (w : Window), PeerNow s 0 7 put ⟨9, 4092, 8, 1⟩ p ∧ PeerFree s p ⟨9, 4092, 8, 1⟩ ∧
      PeerAt s 0 7 put ⟨9, 4092, 8, 1⟩ p w (2 ^ 57) ∧ 2 ^ 57 < 2 ^ 64) ∧
    (∃ (s : State) (p : PeerCmd) (w : Window), PeerNow s 0 7 put unit1 p ∧ PeerFree s p unit1 ∧
      PeerAt s 0 7 put unit1 p w (w.base + 4) ∧ s.translate 0 (w.base + 4) (peerReq put) = .error (.fault .notPresent true)) ∧
    (∃ (s : State) (p : PeerCmd) (w : Window) (l : Leaf), PeerNow s 0 7 put unit1 p ∧ PeerFree s p unit1 ∧
      PeerAt s 0 7 put unit1 p w (w.base + 4) ∧ s.translate 0 (w.base + 4) (peerReq put) = .ok l ∧ s.isPoison (l.pa + 3) = true) ∧
    (∃ (s : State) (p : PeerCmd) (w : Window), PeerNow s 0 7 put unit1 p ∧ PeerFree s p unit1 ∧
      PeerAt s 0 7 put unit1 p w (w.base + 4) ∧ s.translate 0 (w.base + 4) (peerReq put) = .error (.fault .notPresent false) ∧
      (s.ctx 0).faults = []) := by
  intro put
  refine ⟨fun p hp => ⟨peered plain p, ?_, free_of ?_, ?_⟩,
    ⟨peered (windowed plain shortWindow) (peerOf put), peerOf put, .inl (by rfl), free_of (by cases put <;> decide +kernel), ?_⟩,
    ⟨peered (windowed plain lastWindow) { peerOf put with roff := 4092, done := [] }, { peerOf put with roff := 4092, done := [] },
      lastWindow, .inl (by rfl), free_of (by cases put <;> decide +kernel),
      ⟨⟨rfl, rfl, rfl, by cases put <;> decide⟩, openTo_of (by cases put <;> decide +kernel), by cases put <;> decide⟩, by decide⟩,
    ⟨peered (unmapped 0x20) (peerOf put), peerOf put, { aWindow .opened false with base := 0x40000000 }, .inl (by rfl),
      free_of (by cases put <;> decide +kernel), peerAt_of (by cases put <;> decide +kernel) ⟨rfl, rfl, rfl, rfl, rfl⟩,
      xerr_of (by cases put <;> decide +kernel)⟩,
    ⟨{ visited put with poison := [0x50000 / 32] }, peerOf put, aWindow .opened false, ⟨0x50004, 0, 0x1F, 3⟩, .inl (by rfl),
      free_of (by cases put <;> decide +kernel), peerAt_of (by cases put <;> decide +kernel) ⟨rfl, rfl, rfl, rfl, rfl⟩,
      xlate_of (by cases put <;> decide +kernel), by cases put <;> decide +kernel⟩,
    ⟨peered (unmapped 0) (peerOf put), peerOf put, { aWindow .opened false with base := 0x40000000 }, .inl (by rfl),
      free_of (by cases put <;> decide +kernel), peerAt_of (by cases put <;> decide +kernel) ⟨rfl, rfl, rfl, rfl, rfl⟩,
      xerr_of (by cases put <;> decide +kernel), by cases put <;> decide +kernel⟩⟩
  · simp only [List.mem_cons, List.not_mem_nil, or_false] at hp
    obtain rfl | rfl | rfl | rfl := hp <;> exact .inl rfl
  · simp only [List.mem_cons, List.not_mem_nil, or_false] at hp
    obtain rfl | rfl | rfl | rfl := hp <;> cases put <;> decide +kernel
  · simp only [List.mem_cons, List.not_mem_nil, or_false] at hp
    obtain rfl | rfl | rfl | rfl := hp <;> cases put <;> decide
  · rintro w ⟨h, -, -, -, h2, -⟩
    obtain rfl : shortWindow = w := by
      have h0 : ((windowed plain shortWindow).ctx 0).window? 7 = some shortWindow := by decide +kernel
      exact Option.some.inj (h0.symm.trans h)
    exact absurd h2 (show ¬ (0 + 4 * 1 + 4 ≤ 4) by decide)

/-- PeerTraffic: the end of a peer's PUT that failed, of one with a word to come and of one that is whole; an acknowledgement with a
strand at WCWAIT; a word of data, and a peer's refusal in a batch. -/
theorem witness_PeerTraffic :
    (∃ s : State, s.peer? 0 9 = some { peerPut with bad := true }) ∧
    (∃ s : State, s.peer? 0 9 = some peerPut ∧ peerPut.done.length ≠ peerPut.len / 4) ∧
    (∃ (s : State) (p : PeerCmd) (w : Window), s.peer? 0 9 = some p ∧ WindowsDiffer s 0 ∧ (s.ctx 0).window? p.win = some w ∧
      (p.put = true ∧ p.bad = false ∧ 0 < p.len ∧ p.done.length = p.len / 4 ∧ w.closing = false ∧ w.st = .opened)) ∧
    (∃ (s : State) (c : Cmd) (w : Window) (x : StrandRef) (u : Strand) (o : WcOps), s.strand? x = some u ∧ s.cmd? c.id = some c ∧
      c.kind = .put 7 0x30000 0 8 ∧ WindowsDiffer s c.ctx ∧ (s.ctx c.ctx).window? 7 = some w ∧ x.w.crew.ctx = c.ctx ∧
      o.win.toNat = 7 ∧ w.st = .opened ∧
      u.wait = .wc false o 0 none ∧ c.linkSent = true ∧ c.warp ≠ none ∧
      (if o.sb.val = 0 then 0 else (u.core.s.getD o.sb.val 0).toNat) = (w.scnt + 1).toNat) ∧
    (∃ (s : State) (c : Cmd), UnitDue s c 1 ∧ c.kind = .get 7 0x30000 0 8 ∧ ∀ b ∈ c.buf, b.1 ≠ 1) ∧
    (∃ (s : State) (c : Cmd) (r : WarpRef) (w : Warp) (b : Batch), s.cmd? c.id = some c ∧ c.kind.win? = some 7 ∧ c.finished = false ∧
      InBatch s c r w b) := by
  refine ⟨⟨peered plain { peerPut with bad := true }, by rfl⟩, ⟨peered plain peerPut, by rfl, by decide⟩,
    ⟨peered (windowed plain (aWindow .opened false)) { peerPut with done := [0, 1] }, { peerPut with done := [0, 1] },
      aWindow .opened false, by rfl, show ([7] : List Nat).Nodup by decide, by rfl, by decide⟩, ?_,
    ⟨commanded based (batchedCmd (.get 7 0x30000 0 8)), batchedCmd (.get 7 0x30000 0 8),
      ⟨by rfl, rfl, rfl, by decide, by decide, by decide, rfl, fun f hf => by
        rw [show (commanded based (batchedCmd (.get 7 0x30000 0 8))).fences = [] by decide +kernel] at hf; exact absurd hf (by simp)⟩,
      rfl, by decide⟩,
    ⟨commanded based (batchedCmd (.get 7 0x30000 0 8)), batchedCmd (.get 7 0x30000 0 8), _, _, _, by rfl, rfl, by decide,
      inBatch_of (by decide +kernel) rfl rfl ⟨rfl, rfl⟩⟩⟩
  let c : Cmd := { batchedCmd (.put 7 0x30000 0 8) with done := [0, 1], linkSent := true }
  let s := windowed (commanded (parked (.wc false ⟨7, 8, 7, 1⟩ 0 none) (scalars [(8, 3)])) c) (aWindow .opened false)
  exact ⟨s, c, aWindow .opened false, probeRef, (seen s).t, ⟨7, 8, 7, 1⟩, strand_seen _ (by decide +kernel), by rfl, rfl,
    show ([7] : List Nat).Nodup by decide, by rfl, rfl, rfl, rfl, by decide +kernel⟩

/-- A copy of two words in crew memory, from 0x100 to 0x200. -/
def aTsr (off : Nat) : List Byte := recBytes 128 [(0, 8, off), (8, 1, 2), (9, 1, 1), (10, 1, 1), (16, 4, 2), (48, 8, 4)]
def crewCopy (buf : List (Nat × List Byte)) : Cmd := { batchedCmd (.copy (aTsr 0x100) (aTsr 0x200)) with buf := buf }

/-- A copy from global memory at 0x40000000. -/
def globTsr : List Byte := recBytes 128 [(0, 8, 0x40000000), (8, 1, 2), (9, 1, 1), (16, 4, 2), (48, 8, 4)]
def globCopy : Cmd := batchedCmd (.copy globTsr (aTsr 0x200))

/-- A command that has its second word to do. -/
theorem due_of {s : State} {c : Cmd} {n : Nat} (h : s.cmds = [c]) (h1 : c.abandoned = false ∧ c.lost = false) (h2 : c.done = [])
    (h3 : c.kind.units = n) (hn : 1 < n) (h4 : c.stall = none) (h5 : c.after = []) : UnitDue s c 1 := by
  refine ⟨?_, h1.1, h1.2, ?_, ?_, ?_, h4, ?_⟩
  · simp [State.cmd?, h]
  · rw [h2, h3]; simp; omega
  · rw [h3]; exact hn
  · rw [h2]; simp
  · intro f _ hf
    rw [h5] at hf
    exact absurd hf (by simp)

/-- A command that has its second word to do, by itself. -/
theorem due_cmd {s : State} {c : Cmd} (h : s.cmds = [c]) (hc : (!c.abandoned && !c.lost && c.done.isEmpty && decide (1 < c.kind.units) &&
    c.stall.isNone && c.after.isEmpty) = true) : UnitDue s c 1 := by
  simp only [Bool.and_eq_true, Bool.not_eq_true', List.isEmpty_iff, decide_eq_true_eq, Option.isNone_iff_eq_none] at hc
  obtain ⟨⟨⟨⟨⟨h1, h2⟩, h3⟩, h4⟩, h5⟩, h6⟩ := hc
  exact due_of h ⟨h1, h2⟩ h3 rfl h4 h5 h6

def aPut : Cmd := batchedCmd (.put 7 0x30000 0 8)
def aGet : Cmd := { batchedCmd (.get 7 0x30000 0 8) with buf := [(1, [1, 2, 3, 4])] }
def aFill : Cmd := batchedCmd (.syFill 0x40000000 2 9)
def aSave : Cmd := batchedCmd (.sySave 0x40000000 2 0x30000)
def highPut : Cmd := batchedCmd (.put 7 0x40000000 0 8)
def highFill : Cmd := batchedCmd (.syFill 0x30000 2 9)

/-- EngineAccesses, global memory: a PUT reads a word, of which one byte may be poisoned; SYSAVE reads a synchronisation word; a GET and
SYFILL write theirs. -/
theorem witness_EngineAccesses :
    (∃ (s : State) (c : Cmd) (l : Leaf), UnitDue s c 1 ∧ s.translate c.ctx 0x30004 (c.kind.req false) = .ok l ∧ PlaceOk s c false l ∧
      (∀ i, i < 4 → s.isPoison (l.pa + i) = false) ∧ c.warp ≠ none ∧ c.buf = [] ∧ c.kind.from? 1 = some (.glob 0x30004 4)) ∧
    (∃ (s : State) (c : Cmd) (l : Leaf) (r : WarpRef) (w : Warp) (b : Batch), UnitDue s c 1 ∧ InBatch s c r w b ∧
      s.translate c.ctx 0x30004 (c.kind.req false) = .ok l ∧ PlaceOk s c false l ∧ s.isPoison (l.pa + 3) = true ∧ c.warp ≠ none ∧
      c.buf = [] ∧ c.kind.from? 1 = some (.glob 0x30004 4)) ∧
    (∃ (s : State) (c : Cmd) (l : Leaf), UnitDue s c 1 ∧ s.translate c.ctx 0x40000004 (c.kind.req false) = .ok l ∧ PlaceOk s c false l ∧
      (∀ i, i < 4 → s.isPoison (l.pa + i) = false) ∧ c.warp ≠ none ∧ c.buf = [] ∧ c.kind.from? 1 = some (.glob 0x40000004 4) ∧
      c.kind.needsSy false = true) ∧
    (∃ (s : State) (c : Cmd) (l : Leaf) (w : Window), UnitDue s c 1 ∧ NoPinned s ∧ s.translate c.ctx 0x30004 (c.kind.req true) = .ok l ∧
      PlaceOk s c true l ∧ WindowsDiffer s c.ctx ∧ (s.ctx c.ctx).window? 7 = some w ∧ c.warp ≠ none ∧ c.buf = [(1, [1, 2, 3, 4])] ∧
      c.kind = .get 7 0x30000 0 8 ∧ c.kind.to? 1 = some (.glob 0x30004 4)) ∧
    (∃ (s : State) (c : Cmd) (l : Leaf), UnitDue s c 1 ∧ NoPinned s ∧ s.translate c.ctx 0x40000004 (c.kind.req true) = .ok l ∧
      PlaceOk s c true l ∧ c.warp ≠ none ∧ c.buf = [] ∧ c.kind = .syFill 0x40000000 2 9 ∧
      c.kind.to? 1 = some (.glob 0x40000004 4)) := by
  have low : isLow (commanded based aPut) = true := by decide +kernel
  exact ⟨⟨commanded based aPut, aPut, _, due_cmd rfl (by decide), low_leaf0 low (by decide) _, fun h => absurd h (by decide),
      fun i hi => low_clean low (show 0x30004 + i < 2 ^ 30 by omega), by decide, rfl, rfl⟩,
    ⟨{ commanded based aPut with poison := [0x30000 / 32] }, aPut, ⟨0x30004, 0, 0x1F, 3⟩, _, _, _, due_cmd rfl (by decide),
      inBatch_of (by decide +kernel) rfl rfl ⟨rfl, rfl⟩, xlate_of (by decide +kernel), fun h => absurd h (by decide), by decide +kernel,
      by decide, rfl, rfl⟩,
    ⟨commanded syState aSave, aSave, ⟨0x40000004, 2, 0x4000009F, 3⟩, due_cmd rfl (by decide), xlate_of (by decide +kernel),
      fun _ => ⟨rfl, by decide +kernel⟩, by decide +kernel, by decide, rfl, rfl, by decide⟩,
    ⟨windowed (commanded based aGet) (aWindow .opened false), aGet, _, aWindow .opened false, due_cmd rfl (by decide),
      noPinned_of (by decide +kernel), low_leaf0 (by decide +kernel) (by decide) _, fun h => absurd h (by decide),
      show ([7] : List Nat).Nodup by decide, by rfl, by decide, rfl, rfl, rfl⟩,
    ⟨commanded syState aFill, aFill, ⟨0x40000004, 2, 0x4000009F, 3⟩, due_cmd rfl (by decide), noPinned_of (by decide +kernel),
      xlate_of (by decide +kernel), fun _ => ⟨rfl, by decide +kernel⟩, by decide, rfl, rfl, rfl⟩⟩

/-- The second GiB is a leaf of port 0, which is down, and its translation is cached. -/
def downPte : Nat := 2 ^ 48 + 0x1F
def cutOff : State :=
  { commanded (unmapped downPte) highPut with tlb := [{ ctx := 0, page := 0x40000, pte := BitVec.ofNat 64 downPte, lvl := 3 }] }

theorem cutOff_translate : cutOff.translate 0 0x40000004 XReq.engineRead =
    if Config.stillTranslated cutOff.free (0x40000004 / 4096) then .error .gone else .error (.fault .unbacked true) := by
  have h1 : cutOff.leafOf 0 0x40000004 = .ok (downPte, 3) := by rfl
  have h2 : (!(cutOff.backed (leafPa downPte 3 0x40000004 / 4096 * 4096)) && (cutOff.cached 0 0x40000004).contains (downPte, 3)) = true := by
    decide +kernel
  have h3 : cutOff.leafCheck 0x40000004 XReq.engineRead downPte 3 = .error (.fault .unbacked true) := by rfl
  unfold State.translate State.goneBehind
  rw [h1]
  simp only [h2, Bool.true_and, h3]

/-- EngineAccesses, what ends an access: a page that is not present, one whose leaf asks for fatal faults, an attribute that does not
match, a port that is down behind a cached translation; a copy from an SY page; and SYSAVE of a page that is not SY, and of one
outside the overflow area. -/
theorem witness_engineFaults :
    (∀ x ∈ [(0, XErr.fault .notPresent false), (0x20, .fault .notPresent true), (0x21F, .attr 0)], ∃ (s : State) (c : Cmd) (r : WarpRef)
      (w : Warp) (b : Batch), UnitDue s c 1 ∧ InBatch s c r w b ∧ s.translate c.ctx 0x40000004 (c.kind.req false) = .error x.2 ∧
      c.warp ≠ none ∧ c.buf = [] ∧ c.kind.from? 1 = some (.glob 0x40000004 4) ∧ c.kind.needsSy false = false ∧
      (s.ctx? c.ctx).isSome = true ∧ (s.ctx c.ctx).st ≠ .destroyed) ∧
    (∃ (s : State) (c : Cmd) (r : WarpRef) (w : Warp) (b : Batch), UnitDue s c 1 ∧ InBatch s c r w b ∧
      (s.translate c.ctx 0x40000004 (c.kind.req false) = .error .gone ∨
        s.translate c.ctx 0x40000004 (c.kind.req false) = .error (.fault .unbacked true)) ∧
      c.warp ≠ none ∧ c.buf = [] ∧ c.kind.from? 1 = some (.glob 0x40000004 4) ∧ c.kind.needsSy false = false) ∧
    (∃ (s : State) (c : Cmd) (r : WarpRef) (w : Warp) (b : Batch), UnitDue s c 1 ∧ InBatch s c r w b ∧
      s.translate c.ctx 0x40000004 (c.kind.req false) = .error (.fault .policy true) ∧ c.kind.cls = 1 ∧
      s.pagePol c.ctx 0x40000004 = some 2 ∧ c.warp ≠ none ∧ c.buf = [] ∧ c.kind.from? 1 = some (.glob 0x40000004 4) ∧
      c.kind.needsSy false = false) ∧
    (∃ (s : State) (c : Cmd) (r : WarpRef) (w : Warp) (b : Batch) (l : Leaf), UnitDue s c 1 ∧ InBatch s c r w b ∧
      s.translate c.ctx 0x40000004 (c.kind.req false) = .ok l ∧ s.pagePol c.ctx 0x40000004 = some 0 ∧ c.warp ≠ none ∧ c.buf = [] ∧
      c.kind.from? 1 = some (.glob 0x40000004 4) ∧ c.kind.needsSy false = true) ∧
    (∃ (s : State) (c : Cmd) (r : WarpRef) (w : Warp) (b : Batch) (l : Leaf), UnitDue s c 1 ∧ InBatch s c r w b ∧
      s.translate c.ctx 0x40000004 (c.kind.req false) = .ok l ∧ (s.ctx c.ctx).inOvf l.pa = false ∧ c.warp ≠ none ∧ c.buf = [] ∧
      c.kind.from? 1 = some (.glob 0x40000004 4) ∧ c.kind.needsSy false = true) := by
  refine ⟨?_, ⟨cutOff, highPut, _, _, _, due_cmd rfl (by decide), inBatch_of (by decide +kernel) rfl rfl ⟨rfl, rfl⟩, ?_, by decide, rfl,
      rfl, by decide⟩,
    ⟨commanded syState globCopy, globCopy, _, _, _, due_cmd rfl (by decide +kernel), inBatch_of (by decide +kernel) rfl rfl ⟨rfl, rfl⟩,
      xerr_of (by decide +kernel), by decide +kernel⟩,
    ⟨commanded (unmapped 0x4000001F) aSave, aSave, _, _, _, ⟨0x40000004, 0, 0x4000001F, 3⟩, due_cmd rfl (by decide),
      inBatch_of (by decide +kernel) rfl rfl ⟨rfl, rfl⟩, xlate_of (by decide +kernel), by decide +kernel⟩,
    ⟨inCtx (commanded syState aSave) (fun c => { c with ovf := 0x50000000 }), aSave, _, _, _, ⟨0x40000004, 2, 0x4000009F, 3⟩,
      due_cmd rfl (by decide), inBatch_of (by decide +kernel) rfl rfl ⟨rfl, rfl⟩, xlate_of (by decide +kernel), by decide +kernel⟩⟩
  · intro x hx
    refine ⟨commanded (unmapped x.1) highPut, highPut, _, _, _, due_cmd rfl (by decide), inBatch_of ?_ rfl rfl ⟨rfl, rfl⟩, xerr_of ?_, ?_⟩ <;>
    · simp only [List.mem_cons, List.not_mem_nil, or_false] at hx
      obtain rfl | rfl | rfl := hx <;> decide +kernel
  · show cutOff.translate 0 0x40000004 XReq.engineRead = _ ∨ cutOff.translate 0 0x40000004 XReq.engineRead = _
    rw [cutOff_translate]
    cases Config.stillTranslated cutOff.free (0x40000004 / 4096)
    · exact .inr rfl
    · exact .inl rfl

/-- EngineAccesses, crew memory: a copy reads and writes its second word, and meets a barrier. -/
theorem witness_EngineCrew :
    (∃ (s : State) (c : Cmd) (x : Crew), UnitDue s c 1 ∧ s.crew? c.crew = some x ∧ c.warp ≠ none ∧ c.buf = [] ∧
      c.kind.from? 1 = some (.crew 0x104 4) ∧ c.kind.to? 1 ≠ none ∧ ∀ i, i < 4 → (0x104 + i) / 32 ∉ x.poison) ∧
    (∃ (s : State) (c : Cmd) (x : Crew), UnitDue s c 1 ∧ s.crew? c.crew = some x ∧ NoPinned s ∧ c.warp ≠ none ∧ c.buf = [(1, [1, 2, 3, 4])] ∧
      c.kind.to? 1 = some (.crew 0x204 4) ∧ x.bars = []) ∧
    (∃ (s : State) (c : Cmd) (x : Crew) (b : Barrier) (r : WarpRef) (w : Warp) (p : Batch), UnitDue s c 1 ∧ s.crew? c.crew = some x ∧
      InBatch s c r w p ∧ c.warp ≠ none ∧ c.buf = [(1, [1, 2, 3, 4])] ∧ c.kind.to? 1 = some (.crew 0x204 4) ∧ b ∈ x.bars ∧
      b.off < 0x204 + 4 ∧ 0x204 < b.off + 8) := by
  let s0 := commanded based (crewCopy [])
  let s1 := commanded based (crewCopy [(1, [1, 2, 3, 4])])
  let s2 := s1.modCrew probeRef.w.crew (fun k => { k with bars := [⟨0x200, [0], [], false⟩] })
  have here : ∀ {s : State} {c : Cmd}, c.crew = probeRef.w.crew → (s.crew? probeRef.w.crew).isSome = true → s.crew? c.crew = some (crewOf s) := by
    intro s c h h1; rw [h]; exact crewOf_eq h1
  exact ⟨⟨s0, crewCopy [], crewOf s0, due_cmd rfl (by decide +kernel), here rfl (by decide +kernel), by decide +kernel⟩,
    ⟨s1, _, crewOf s1, due_cmd rfl (by decide +kernel), here rfl (by decide +kernel), noPinned_of (by decide +kernel),
      by decide +kernel⟩,
    ⟨s2, crewCopy [(1, [1, 2, 3, 4])], crewOf s2, ⟨0x200, [0], [], false⟩, _, _, _, due_cmd rfl (by decide +kernel),
      here rfl (by decide +kernel), inBatch_of (by decide +kernel) rfl rfl ⟨rfl, rfl⟩, by decide +kernel⟩⟩

/-- Package: the cap at its bounds and beside them, a port that is up, and an address of it. -/
theorem witness_Package : AllowedPf pf ∧ (∀ n ∈ [600, 3600], 600 ≤ (BitVec.ofNat 32 n).toNat ∧ (BitVec.ofNat 32 n).toNat ≤ 3600) ∧
    (∀ n ∈ [599, 3601], (BitVec.ofNat 32 n).toNat < 600 ∨ 3600 < (BitVec.ofNat 32 n).toNat) ∧ (600 ≤ 600 ∧ 600 ≤ plain.mhz) ∧
    ∃ (s : State) (x : Port), s.ports[7]? = some x ∧ 2 ^ 48 + 7 * 2 ^ 42 < 2 ^ 48 + 7 * 2 ^ 42 + x.cap ∧ x.cap ≤ 2 ^ 42 :=
  ⟨⟨rfl, rfl⟩, by decide, by decide, ⟨by decide, by decide +kernel⟩,
    ⟨{ plain with ports := List.replicate 8 ⟨2 ^ 42, true⟩ }, ⟨2 ^ 42, true⟩, rfl, by decide, by decide⟩⟩

end

end Sys2Proof.Tests
end

