-- ==== Sys2Proof/Tests/WitnessJ.lean ====
section
/-!
SUPPORT. Witnesses of the statements about the step, the invariants and the encodings.
-/

set_option Elab.async false

namespace Sys2Proof.Tests

open Sys2Proof Sys2Proof.Machine Sys2Proof.Rules

noncomputable section

/-- The strand is the next to issue, at a word. -/
def scheduled (w : Nat) (f : Cur → Cur) (second : Nat) : State :=
  let s := dress (bare w) f
  { s with mem := cellsPut s.mem 0x10010 (bytesOf 8 second), agenda := [.issue probeRef] }

/-- The state in which it takes its step. -/
def taken (w : Nat) (f : Cur → Cur := id) (second : Nat := 0) : State := focused (scheduled w f second) [] probeRef

theorem wordAt_of {s : State} (h : isLow s = true) {a w : W64} (ha : a.toNat < 2 ^ 30) (hw : w = BitVec.ofNat 64 (s.rdNat a.toNat 8)) :
    WordAt s 0 a w := ⟨by omega, _, low_leaf0 h ha _, low_clean h ha, hw⟩

/-- A word that the strand's step reads. -/
theorem word_taken {w : Nat} {f : Cur → Cur} {second : Nat} {x : W64}
    (h : (isLow (taken w f second) && decide ((seen (taken w f second)).t.core.pc.toNat < 2 ^ 30) &&
      decide (x = BitVec.ofNat 64 ((taken w f second).rdNat (seen (taken w f second)).t.core.pc.toNat 8))) = true) :
    WordAt (taken w f second) (seen (taken w f second)).ctx (seen (taken w f second)).t.core.pc x := by
  simp only [Bool.and_eq_true, decide_eq_true_eq] at h
  rw [seen_ctx]
  exact wordAt_of h.1.1 h.1.2 h.2

/-- StepRunsInstruction: a header to apply; VADD; VADD and FFMA as a pair; a word that is no instruction; a strand that waits. -/
theorem witness_stepIssue :
    (∃ (s : State) (r : StrandRef) (c : Cur), s.agenda = [.issue r] ∧ (focused s [] r).curOf r = some c ∧ (focused s [] r).mayIssue c true = true) ∧
    (∃ (s : State) (r : StrandRef) (c : Cur) (w : W64) (i : Instr), s.agenda = [.issue r] ∧ (focused s [] r).curOf r = some c ∧
      (focused s [] r).mayIssue c true = false ∧ (focused s [] r).mayIssue c false = true ∧ WordAt (focused s [] r) c.ctx c.t.core.pc w ∧
      decodeWord w = .ok i ∧ c.t.core.beginsPair = false) ∧
    (∃ (s : State) (r : StrandRef) (c : Cur) (w w2 : W64) (i j : Instr) (a b : PairOp), s.agenda = [.issue r] ∧
      (focused s [] r).curOf r = some c ∧ (focused s [] r).mayIssue c true = false ∧ (focused s [] r).mayIssue c false = true ∧
      WordAt (focused s [] r) c.ctx c.t.core.pc w ∧ decodeWord w = .ok i ∧ c.t.core.beginsPair = true ∧
      WordAt (focused s [] r) c.ctx (c.t.core.pc + 8) w2 ∧ decodeWord w2 = .ok j ∧ PairOp.of? i = some a ∧ PairOp.of? j = some b) ∧
    (∃ (s : State) (r : StrandRef) (c : Cur) (w : W64), s.agenda = [.issue r] ∧ (focused s [] r).curOf r = some c ∧
      (focused s [] r).mayIssue c true = false ∧ (focused s [] r).mayIssue c false = true ∧ WordAt (focused s [] r) c.ctx c.t.core.pc w ∧
      decodeWord w = .error .illegalInstr) ∧
    (∃ (s : State) (r : StrandRef) (c : Cur), s.agenda = [.issue r] ∧ (focused s [] r).curOf r = some c ∧
      (focused s [] r).mayIssue c true = false ∧ (focused s [] r).mayIssue c false = false) := by
  let vadd : W64 := 0x2000402414000F80
  let ffma : W64 := 0x3100300404031F80
  let i : Instr := .vadd ⟨.v 8, .v 9, .v 10, .i32, always⟩
  let j : Instr := .ffma ⟨.v 6, .v 1, .v 2, .v 3, .f32, none, always⟩
  have hi : decodeWord vadd = .ok i := by decide +kernel
  have hj : decodeWord ffma = .ok j := by decide +kernel
  let pair : Cur → Cur := fun c => c.mapCore (fun k => { k with hword := BitVec.ofNat 64 (header 2 true false) })
  refine ⟨⟨scheduled (header 1 false false) id 0, probeRef, seen (taken (header 1 false false)), rfl, cur_of_seen _ (by decide +kernel), by decide +kernel⟩,
    ⟨scheduled vadd.toNat id 0, probeRef, seen (taken vadd.toNat), vadd, i, rfl, cur_of_seen _ (by decide +kernel), by decide +kernel, by decide +kernel,
      word_taken (by decide +kernel), hi, by decide +kernel⟩,
    ⟨scheduled vadd.toNat pair ffma.toNat, probeRef, seen (taken vadd.toNat pair ffma.toNat), vadd, ffma, i, j, _, _, rfl, cur_of_seen _ (by decide +kernel), by decide +kernel,
      by decide +kernel, word_taken (by decide +kernel), hi, by decide +kernel, ?_, hj, rfl, rfl⟩,
    ⟨scheduled 1 id 0, probeRef, seen (taken 1), 1, rfl, cur_of_seen _ (by decide +kernel), by decide +kernel, by decide +kernel,
      word_taken (by decide +kernel), by decide +kernel⟩,
    ⟨scheduled 0 (fun c => c.mapT (fun t => { t with wait := .joining 1 })) 0, probeRef, seen (taken 0 (fun c => c.mapT (fun t => { t with wait := .joining 1 }))), rfl,
      cur_of_seen _ (by decide +kernel), by decide +kernel, by decide +kernel⟩⟩
  show WordAt _ (seen (taken vadd.toNat pair ffma.toNat)).ctx _ _
  rw [seen_ctx]
  exact wordAt_of (s := taken vadd.toNat pair ffma.toNat) (by decide +kernel) (by decide +kernel) (by decide +kernel)

/-- The first word of a pair at the strand, and the second behind it. -/
def pairAt (w w2 : W64) : State := taken w.toNat (fun c => c.mapCore (fun k => { k with hword := BitVec.ofNat 64 (header 3 true false) })) w2.toNat

/-- The strand may issue, with both words of a pair before it, as a test. -/
def pairTest (w w2 : W64) : Bool :=
  let s := pairAt w w2
  let c := seen s
  (s.curOf probeRef).isSome && !(s.mayIssue c true) && s.mayIssue c false && c.t.core.beginsPair && isLow s &&
    c.t.core.pc == 0x10008 && decide (w = BitVec.ofNat 64 (s.rdNat 0x10008 8)) && decide (w2 = BitVec.ofNat 64 (s.rdNat 0x10010 8))

/-- What StepRunsInstruction asks of every pair. -/
def PairReady (s : State) (c : Cur) (w w2 : W64) : Prop :=
  s.curOf probeRef = some c ∧ s.mayIssue c true = false ∧ s.mayIssue c false = true ∧ c.t.core.beginsPair = true ∧
    WordAt s c.ctx c.t.core.pc w ∧ WordAt s c.ctx (c.t.core.pc + 8) w2

theorem pairReady_of {w w2 : W64} (h : pairTest w w2 = true) : PairReady (pairAt w w2) (seen (pairAt w w2)) w w2 := by
  simp only [pairTest, Bool.and_eq_true, decide_eq_true_eq, beq_iff_eq, Bool.not_eq_true'] at h
  obtain ⟨⟨⟨⟨⟨⟨⟨h1, h2⟩, h3⟩, h4⟩, h5⟩, h6⟩, h7⟩, h8⟩ := h
  refine ⟨cur_of_seen _ h1, h2, h3, h4, ?_, ?_⟩
  · rw [seen_ctx, h6]
    exact wordAt_of h5 (by decide) h7
  · rw [seen_ctx, h6]
    exact wordAt_of h5 (by decide) h8

/-- StepRunsInstruction, pairs: a first word that traps by itself (BRA in a slot that is not the last); a second word that is no
instruction; BRA again, not in the last slot; two members of a pair; and VADD before SADD, which is none. -/
theorem witness_stepPairs :
    let vadd : W64 := 0x2000402414000F80
    let ffma : W64 := 0x3100300404031F80
    let bra : W64 := 0x01000000FFFFFFDF
    let sadd : W64 := 0x1000820100000080
    (∃ (s : State) (c : Cur) (i : Instr), PairReady s c bra ffma ∧ decodeWord bra = .ok i ∧ s.wordCause c 0 i ≠ none) ∧
    (∃ (s : State) (c : Cur) (i : Instr), PairReady s c vadd 1 ∧ decodeWord vadd = .ok i ∧ s.wordCause c 0 i = none ∧
      decodeWord 1 = .error .illegalInstr) ∧
    (∃ (s : State) (c : Cur) (i j : Instr) (st : Stop), PairReady s c vadd bra ∧ decodeWord vadd = .ok i ∧
      s.wordCause c 0 i = none ∧ decodeWord bra = .ok j ∧ s.wordCause c 1 j = some st) ∧
    (∃ (s : State) (c : Cur) (i j : Instr) (a b : PairOp), PairReady s c vadd ffma ∧ decodeWord vadd = .ok i ∧
      s.wordCause c 0 i = none ∧ decodeWord ffma = .ok j ∧ s.wordCause c 1 j = none ∧ PairOp.of? i = some a ∧ PairOp.of? j = some b) ∧
    (∃ (s : State) (c : Cur) (i j : Instr), PairReady s c vadd sadd ∧ decodeWord vadd = .ok i ∧ s.wordCause c 0 i = none ∧
      decodeWord sadd = .ok j ∧ s.wordCause c 1 j = none ∧ PairOp.of? j = none) := by
  intro vadd ffma bra sadd
  have hv : decodeWord vadd = .ok (.vadd ⟨.v 8, .v 9, .v 10, .i32, always⟩) := by decide +kernel
  have hf : decodeWord ffma = .ok (.ffma ⟨.v 6, .v 1, .v 2, .v 3, .f32, none, always⟩) := by decide +kernel
  have hb : decodeWord bra = .ok (.bra 0xFFFFFFDF) := by decide +kernel
  have hs : decodeWord sadd = .ok (.sadd { sd := 2, sa := 2, x := .sext 128 }) := by decide +kernel
  refine ⟨⟨_, _, _, pairReady_of (by decide +kernel), hb, ?_⟩, ⟨_, _, _, pairReady_of (by decide +kernel), hv, ?_, by decide +kernel⟩,
    ⟨_, _, _, _, _, pairReady_of (by decide +kernel), hv, ?_, hb, (Option.some_get ?_).symm⟩,
    ⟨_, _, _, _, _, _, pairReady_of (by decide +kernel), hv, ?_, hf, ?_, rfl, rfl⟩,
    ⟨_, _, _, _, pairReady_of (by decide +kernel), hv, ?_, hs, ?_, rfl⟩⟩
  all_goals decide +kernel

/-- Two strands of a warp: the first runs in one lane, and the second waits at a JOIN in all of its lanes. -/
def twoStrands (n : Nat) : State :=
  let s := dress (bare 0) (fun c =>
    let c := c.mapCore (fun k => { k with em := 1 })
    { c with warp := { c.warp with strands := [some c.t, some { startStrand probeLaunch 0 with wait := .joining 1 }, none, none],
                                   frames := [⟨0x10000, [0, 1]⟩] } })
  { s with focus := none, free := n }

/-- StepRunsInstruction, the order of strands: a strand issues by itself where one that precedes it is not ready, whatever the
free values say of the issue bound. -/
theorem witness_stepOrder : ∀ n, ∃ (s : State) (f : Option StrandRef) (r : StrandRef) (c : Cur) (k : Nat) (t : Strand), s.free = n ∧
    s.autoMove = some (f, .issue r) ∧ s.curOf r = some c ∧ k < 4 ∧ c.warp.strand? k = some t ∧ Precedes c k t := by
  intro n
  have hc : (twoStrands n).curOf probeRef = some (seen (twoStrands n)) := cur_of_seen _ (by rfl)
  have hb : (List.range 4).any (fun k => (seen (twoStrands n)).warp.before k probeRef.strand &&
      (twoStrands n).ready { probeRef with strand := k }) = false := by rfl
  have hm : (twoStrands n).strandMove probeRef = some (.issue probeRef) := by
    have h1 : ((twoStrands n).ctx (seen (twoStrands n)).ctx).st.runs = true := by rfl
    have h2 : (seen (twoStrands n)).crew.live = true := by rfl
    have h3 : (twoStrands n).strandEvent probeRef (seen (twoStrands n)) = none := by rfl
    have h4 : (twoStrands n).ready probeRef = true := by rfl
    simp only [State.strandMove, hc, h1, h2, h3, h4, State.yields, hb, Bool.and_false, Bool.and_true, Bool.not_true, Bool.not_false,
      Bool.false_eq_true, ↓reduceIte]
  have ha : (twoStrands n).behind = [probeRef, { probeRef with strand := 1 }] := by rfl
  exact ⟨twoStrands n, some probeRef, probeRef, _, 1, { startStrand probeLaunch 0 with wait := .joining 1 }, rfl,
    by simp only [State.autoMove, State.firstMove, ha, List.findSome?_cons, hm, Option.map_some], hc, by decide, by rfl,
    .inl (by rw [show (seen (twoStrands n)).width = 32 by rfl, show (seen (twoStrands n)).em = 1 by rfl]; decide +kernel)⟩

/-- StepRunsInstruction: an event, a command in a mailbox, and commands that are written to an empty mailbox and to a full one. -/
theorem witness_stepEvents :
    (∃ (s : State) (i : Instr), s.agenda = [.event i] ∧ encode i = none ∧ i ≠ .clauseStart ∧ ∀ a b, i ≠ .pairIssue a b) ∧
    (∃ (s : State) (f : Func) (bs : List Byte), s.funcs[63]? = some f ∧ s.agenda = [.accept 63] ∧ f.slot = some bs) ∧
    (∀ k : HostKind, ∃ (s : State) (f : Func) (bs : List Byte), s.funcs[63]? = some f ∧ s.agenda = [.post 63 k bs] ∧ bs.length = 64 ∧ f.slot = none) ∧
    (∀ k : HostKind, ∃ (s : State) (f : Func) (bs : List Byte), s.funcs[63]? = some f ∧ s.agenda = [.post 63 k bs] ∧ bs.length = 64 ∧ f.slot ≠ none) := by
  let bs : List Byte := List.replicate 64 0
  let empty : Func := ⟨none, 0, 0, []⟩
  let full : Func := ⟨some bs, 0, 0, []⟩
  exact ⟨⟨{ plain with agenda := [.event .moduleReset] }, .moduleReset, rfl, rfl, by decide, fun _ _ h => by simp at h⟩,
    ⟨{ plain with funcs := List.replicate 64 full, agenda := [.accept 63] }, full, bs, rfl, rfl, rfl⟩,
    fun k => ⟨{ plain with funcs := List.replicate 64 empty, agenda := [.post 63 k bs] }, empty, bs, rfl, rfl, by decide, rfl⟩,
    fun k => ⟨{ plain with funcs := List.replicate 64 full, agenda := [.post 63 k bs] }, full, bs, rfl, rfl, by decide, by simp [full]⟩⟩

/-- MemoryStaysCanonical and MasksStayInside: module reset, and a running package, meet the invariants, and their step answers a next
state. -/
theorem witness_Invariants : ∀ s ∈ [State.reset, { plain with agenda := [.event .moduleReset] }],
    s.memWf = true ∧ s.masksOk = true ∧ ∃ t, step s = .next t := by
  intro s hs
  simp only [List.mem_cons, List.not_mem_nil, or_false] at hs
  rcases hs with rfl | rfl
  · exact ⟨by decide +kernel, by decide +kernel, _, rfl⟩
  · exact ⟨by decide +kernel, by decide +kernel, _, rfl⟩

/-- EncodingsAgree: an instruction that is well formed, its word, and the bytes of a command that are all zero but its code. -/
theorem witness_EncodingsAgree :
    (∃ (i : Instr) (w : W64), i.wf = true ∧ encode i = some w ∧ (∀ x, i ≠ .reservedOpcodeWord x) ∧ decodeWord w = .ok i) ∧
    (∃ bs : List Byte, bs.length = 64 ∧ cmdClean bs = true ∧ ∀ h code, decodeCommand 0 bs ≠ .unlistedCommand h code) :=
  ⟨⟨.vadd ⟨.v 8, .v 9, .v 10, .i32, always⟩, 0x2000402414000F80, by decide, by decide +kernel, fun _ h => by simp at h, by decide +kernel⟩,
    ⟨recBytes 64 [(0, 4, 0x33)], by decide +kernel, by decide +kernel, fun h code => by
      rw [show decodeCommand 0 (recBytes 64 [(0, 4, 0x33)]) = .linkQuery ⟨0, 0, true⟩ 0 by decide +kernel]; simp⟩⟩

end

end Sys2Proof.Tests
end

