-- ==== Sys2Proof/Tests/Slice0.lean ====
section
/-!
SUPPORT. The package's own tests: ill-formed instructions are refused, words and commands written out from the encoding tables
decode to what they stand for, words that are no instruction do not decode, and worked examples of the specification come out.
-/

set_option Elab.async false

namespace Sys2Proof.Tests

open Sys2Proof Sys2Proof.Machine Sys2Proof.Rules

noncomputable section

/-! Well-formed instructions: one that a check refuses for each check. -/

/-- The reserved guard (R66). -/
def gx : Guard := ⟨15, true⟩

def illFormed0 : List Instr :=
  [.tagget ⟨.v 1, .v 2, gx⟩, .vmov ⟨.v 1, .v 2, gx⟩, .vadd ⟨.v 1, .v 2, .v 3, .i32, gx⟩, .vadd ⟨.v 1, .v 2, .v 3, .f32, g0⟩,
   .vand ⟨.v 1, .v 2, .v 3, .w64, g0⟩, .vaddImm ⟨.v 1, .v 2, 256, .i8x4, g0⟩, .vandImm ⟨.v 1, .v 2, 5, .w64, g0⟩,
   .vminImm ⟨.v 1, .v 2, 5, .raw, g0⟩, .vaddc ⟨.v 1, .v 2, .v 3, 1, 0, .i8x4, g0⟩, .vmad64U ⟨.v 2, .v 2, .v 3, .v 4, 0, gx⟩,
   .vcmpEq ⟨1, .v 2, .v 3, .raw, g0⟩, .vsel ⟨.v 1, 2, .v 3, .v 4, gx⟩, .vli ⟨.v 1, 5, .w64, g0⟩, .vpopc ⟨.v 1, .v 2, .f32, g0⟩,
   .vbfe ⟨.v 1, .v 2, .v 3, .f32, g0⟩, .vbfi ⟨.v 1, .v 2, .v 3, .v 4, .f32, g0⟩, .vdot4II ⟨.v 1, .v 2, .v 3, .v 4, false, gx⟩,
   .fadd ⟨.v 1, .v 2, .v 3, .e4m3x4, none, g0⟩, .fmin ⟨.v 1, .v 2, .v 3, .i32, g0⟩, .ffma ⟨.v 1, .v 2, .v 3, .v 4, .raw, none, g0⟩,
   .fcmpEq ⟨1, .v 2, .v 3, .f32, true, g0⟩, .fclass ⟨.v 1, .v 2, .f16x2, 2, g0⟩, .frcp ⟨.v 1, .v 2, .i32, none, g0, .none⟩]

def illFormed1 : List Instr :=
  [.cvt ⟨.v 1, .v 2, 0, .raw, .f32, false, none, g0⟩, .cvt ⟨.v 1, .v 2, 0, .f32, .w64, false, none, g0⟩,
   .cvt ⟨.v 1, .v 2, 0, .f32, .i32, true, none, g0⟩, .cvt ⟨.v 1, .v 2, 4, .f32, .e4m3x4, false, none, g0⟩,
   .cvtmxQ ⟨.v 1, .v 2, .v 3, 0, 0, .i32, .e4m3x4, none, g0, .none⟩, .cvtmxD ⟨.v 1, .v 2, .v 3, 0, 0, .f32, .i8x4, none, g0, .none⟩,
   .cvtmxQ ⟨.v 1, .v 2, .v 3, 4, 0, .f32, .e4m3x4, none, g0, .none⟩, .shflIdx ⟨.v 1, .v 2, .v 3, gx⟩, .shflUp ⟨.v 1, .v 2, 3, gx⟩,
   .bcastS ⟨.v 1, 2, .w64, g0⟩, .vredAdd ⟨.v 1, .v 2, .raw, g0⟩, .vredAnd ⟨.v 1, .v 2, .f32, g0⟩, .vredFadd ⟨.v 1, .v 2, .i32, g0⟩,
   .vscanAdd ⟨.v 1, .v 2, .f32, false, g0⟩, .vscanAnd ⟨.v 1, .v 2, .f32, false, g0⟩, .vscanFadd ⟨.v 1, .v 2, .u32, false, g0⟩,
   .voteBallot ⟨1, 2, gx⟩, .voteAny ⟨1, 2, gx⟩, .votePfroms ⟨1, 2, gx⟩, .qxchB ⟨.v 1, .v 2, 0, gx⟩, .emset (.reg 1),
   .sld ⟨.b128, 1, 2, 0, .none, 0⟩, .ld ⟨.u8, .v 1, none, 2, 0, .f32, g0, .none, 0⟩, .ldcw ⟨.b32, .v 1, none, 2, 0, .u32, g0, .none, 1⟩,
   .pref ⟨0, none, 2, 0, gx, 0⟩, .discard ⟨0, none, 2, 0, g0, 1⟩, .amoFadd ⟨1, 2, 3, true⟩, .amovFadd ⟨.v 2, none, 2, 0, .u32, g0, .none⟩,
   .amovAdd ⟨.v 2, none, 2, 0, .f32, g0, .none⟩, .mmaF16 ⟨0, .v 1, .v 2, 3, some (.v 4), .none⟩, .ald ⟨.bf16, 0, 2, 0, .none, 0⟩,
   .sieveNz ⟨0, .v 1, 2, 3, .i8x4, .none⟩, .sieveDelta ⟨0, .v 1, .v 2, 3, 4, .i32, .none⟩, .xdec ⟨.v 1, 2, 3, .i8x4, .none⟩]

theorem test_illFormed0 : ∀ i ∈ illFormed0, i.wf = false := by decide +kernel
theorem test_illFormed1 : ∀ i ∈ illFormed1, i.wf = false := by decide +kernel

/-- Register fields that R24, R67 and R68 refuse. -/
def illPlaced : List Instr :=
  [.vmad64U ⟨.v 1, .v 2, .v 3, .v 4, 0, g0⟩, .ld ⟨.b64, .v 1, none, 2, 0, .u32, g0, .none, 0⟩, .st ⟨.b128, .v 2, none, 2, 0, .u32, g0, .none, 0⟩,
   .amovCas ⟨.v 1, none, 2, 0, .u32, g0, .none⟩, .amovAdd ⟨.v 1, none, 2, 0, .w64, g0, .none⟩, .amoCas ⟨1, 2, 63, false⟩, .engq ⟨1, 57, 0, 0⟩,
   .ald ⟨.f32, 0, 63, 0, .none, 0⟩, .kinitR ⟨0, 0, .none⟩, .kinitA ⟨0, 63, .none⟩, .kld ⟨.b64, .v 1, 0, .v 2, 3, .none⟩,
   .sieveNz ⟨0, .v 1, 63, 3, .f32, .none⟩, .sieveDelta ⟨0, .v 1, .v 2, 63, 4, .f32, .none⟩, .xdec ⟨.v 1, 60, 3, .raw, .none⟩]

theorem test_illPlaced : ∀ i ∈ illPlaced, i.wf = false := by decide +kernel

/-! Every constructor of the stream and every command from the bits of the encoding tables of chapters 3, 5, 7 to 10 and 12 to 23. -/

def wordControl : List (W64 × Instr) :=
  [(0x0000000000000000, .nop),
   (0x01000000FFFFFFDF, .bra 0xFFFFFFDF),
   (0x01144000FFFFFFF3, .braNz 17 0xFFFFFFF3),
   (0x0123400000000009, .braZ 13 9),
   (0x0205000080000000, .brz 5 0x80000000),
   (0x021300000000000C, .brnz 3 12),
   (0x030300100000000B, .dbr 3 11 16),
   (0x0400000000000000, .join),
   (0x0500001F00000007, .call 7 31),
   (0x0518400500000000, .callI 33 5),
   (0x0520000000000000, .ret),
   (0x0600000000000000, .exit),
   (0x0610000000000000, .exitS)]

theorem test_wordControl : ∀ p ∈ wordControl, decodeWord p.1 = .ok p.2 := by decide +kernel

def wordSystem : List (W64 × Instr) :=
  [(0x0700070200000005, .trap 5 7),
   (0x0710000000000000, .rft),
   (0x0800000000000000, .yield),
   (0x0902400200000004, .srd 9 4),
   (0x0910090200000004, .swr 4 9),
   (0x0A02C00200000003, .csrr 11 3),
   (0x0A100B0200000003, .csrw 3 11),
   (0x0E00C00200000005, .idrd 3 5),
   (0x0B00000000000000, .chend),
   (0x0B11000100000200, .chcfg 4 (.sext 512)),
   (0x0B11060000000000, .chcfg 4 (.reg 6)),
   (0x0C01400200000001, .wsplit 5 1),
   (0x0C11400000000000, .wfuse 5),
   (0x0C21800000000000, .wqry 6),
   (0x0D00180000030780, .tagset (.v 3) 3),
   (0x0D18181C00000240, .tagget ⟨.g 3, .v 7, ⟨4, true⟩⟩)]

theorem test_wordSystem : ∀ p ∈ wordSystem, decodeWord p.1 = .ok p.2 := by decide +kernel

def wordScalar : List (W64 × Instr) :=
  [(0x1000A8FC00000000, .sadd ⟨2, 40, .reg 63⟩),
   (0x1010E70180000002, .ssub ⟨3, 39, .sext 2147483650⟩),
   (0x1021260280000003, .sand ⟨4, 38, .zext 2147483651⟩),
   (0x1031650380000004, .sor ⟨5, 37, .high 2147483652⟩),
   (0x1041A4FC00000000, .sxor ⟨6, 36, .reg 63⟩),
   (0x1051E30180000006, .sshl ⟨7, 35, .sext 2147483654⟩),
   (0x1062220280000007, .sshr ⟨8, 34, .zext 2147483655⟩),
   (0x1072610380000008, .ssra ⟨9, 33, .high 2147483656⟩),
   (0x1082A0FC00000000, .smin ⟨10, 32, .reg 63⟩),
   (0x1092DF018000000A, .smax ⟨11, 31, .sext 2147483658⟩),
   (0x10A31E028000000B, .sminu ⟨12, 30, .zext 2147483659⟩),
   (0x10B35D038000000C, .smaxu ⟨13, 29, .high 2147483660⟩),
   (0x10C39CFC00000000, .smul ⟨14, 28, .reg 63⟩),
   (0x10D3DB018000000E, .smulh ⟨15, 27, .sext 2147483662⟩),
   (0x10E41A028000000F, .smulhu ⟨16, 26, .zext 2147483663⟩),
   (0x10F4590380000010, .sandn ⟨17, 25, .high 2147483664⟩)]

theorem test_wordScalar : ∀ p ∈ wordScalar, decodeWord p.1 = .ok p.2 := by decide +kernel

def wordScalarCompare0 : List (W64 × Instr) :=
  [(0x1100A80100000007, .scmpEq ⟨2, 40, .sext 7⟩),
   (0x1110E70200000008, .scmpNe ⟨3, 39, .zext 8⟩),
   (0x1121260300000009, .scmpLt ⟨4, 38, .high 9⟩),
   (0x1131651400000000, .scmpLe ⟨5, 37, .reg 5⟩),
   (0x1141A4010000000B, .scmpGt ⟨6, 36, .sext 11⟩),
   (0x1151E3020000000C, .scmpGe ⟨7, 35, .zext 12⟩),
   (0x116222030000000D, .scmpLtu ⟨8, 34, .high 13⟩),
   (0x1172611400000000, .scmpLeu ⟨9, 33, .reg 5⟩),
   (0x1182A0010000000F, .scmpGtu ⟨10, 32, .sext 15⟩),
   (0x1192DF0200000010, .scmpGeu ⟨11, 31, .zext 16⟩),
   (0x1200420C00000004, .ssel ⟨1, 2, 3, 4⟩),
   (0x1302940000000000, .spopc ⟨10, 20⟩),
   (0x1312D40000000000, .sclz ⟨11, 20⟩),
   (0x1323140000000000, .sctz ⟨12, 20⟩),
   (0x1353D40000000000, .srev ⟨15, 20⟩),
   (0x1330422400000000, .sbfe ⟨1, 2, .reg 9⟩)]

def wordScalarCompare1 : List (W64 × Instr) :=
  [(0x1330420200002204, .sbfe ⟨1, 2, .imm 8708⟩),
   (0x1340420200000204, .sbfi ⟨1, 2, .imm 516⟩),
   (0x1400F7FC9FFF0780, .sld ⟨.u8, 30, 9, 4095, .none, 0⟩),
   (0x1500F7FC90010787, .sst ⟨.u8, 30, 9, 1, .none, 7⟩),
   (0x1410EFFC9FFE0791, .sld ⟨.i8, 29, 9, 4094, .a, 1⟩),
   (0x1510EFFC90020796, .sst ⟨.i8, 29, 9, 2, .a, 6⟩),
   (0x1420E7FC9FFD07A2, .sld ⟨.u16, 28, 9, 4093, .b, 2⟩),
   (0x1520E7FC900307A5, .sst ⟨.u16, 28, 9, 3, .b, 5⟩),
   (0x1430DFFC9FFC0783, .sld ⟨.i16, 27, 9, 4092, .none, 3⟩),
   (0x1530DFFC90040784, .sst ⟨.i16, 27, 9, 4, .none, 4⟩),
   (0x1440D7FC9FFB0794, .sld ⟨.b32, 26, 9, 4091, .a, 4⟩),
   (0x1540D7FC90050793, .sst ⟨.b32, 26, 9, 5, .a, 3⟩),
   (0x1450CFFC9FFA07A5, .sld ⟨.b64, 25, 9, 4090, .b, 5⟩),
   (0x1550CFFC900607A2, .sst ⟨.b64, 25, 9, 6, .b, 2⟩)]

theorem test_wordScalarCompare0 : ∀ p ∈ wordScalarCompare0, decodeWord p.1 = .ok p.2 := by decide +kernel

theorem test_wordScalarCompare1 : ∀ p ∈ wordScalarCompare1, decodeWord p.1 = .ok p.2 := by decide +kernel

def wordValu : List (W64 × Instr) :=
  [(0x2000540190000F80, .vadd ⟨.v 10, .g 0, .v 200, .i32, g0⟩),
   (0x20105C058E001180, .vsub ⟨.v 11, .g 1, .v 199, .u32, ⟨3, false⟩⟩),
   (0x202064098C004BC0, .vand ⟨.v 12, .g 2, .v 198, .i8x4, ⟨7, true⟩⟩),
   (0x20306C0D8A005780, .vor ⟨.v 13, .g 3, .v 197, .u8x4, g0⟩),
   (0x2040741188005980, .vxor ⟨.v 14, .g 4, .v 196, .i4x8, ⟨3, false⟩⟩),
   (0x20507C1586006BC0, .vshl ⟨.v 15, .g 5, .v 195, .i16x2, ⟨7, true⟩⟩),
   (0x2060841984007780, .vshr ⟨.v 16, .g 6, .v 194, .u16x2, g0⟩),
   (0x20708C1D82000980, .vsra ⟨.v 17, .g 7, .v 193, .i32, ⟨3, false⟩⟩),
   (0x20809421800013C0, .vmin ⟨.v 18, .g 8, .v 192, .u32, ⟨7, true⟩⟩),
   (0x20909C257E004F80, .vmax ⟨.v 19, .g 9, .v 191, .i8x4, g0⟩),
   (0x20A0A4297C005180, .vmul ⟨.v 20, .g 10, .v 190, .u8x4, ⟨3, false⟩⟩),
   (0x20B0AC2D7A005BC0, .vmulh ⟨.v 21, .g 11, .v 189, .i4x8, ⟨7, true⟩⟩),
   (0x20C0B43178006F80, .vabsd ⟨.v 22, .g 12, .v 188, .i16x2, g0⟩),
   (0x20D0BC3576007180, .vandn ⟨.v 23, .g 13, .v 187, .u16x2, ⟨3, false⟩⟩),
   (0x20E0C43974000BC0, .vadds ⟨.v 24, .g 14, .v 186, .i32, ⟨7, true⟩⟩),
   (0x20F0CC3D72001780, .vsubs ⟨.v 25, .g 15, .v 185, .u32, g0⟩)]

theorem test_wordValu : ∀ p ∈ wordValu, decodeWord p.1 = .ok p.2 := by decide +kernel

def wordValuImm : List (W64 × Instr) :=
  [(0x28005403FFF80F80, .vaddImm ⟨.v 10, .g 0, 65534, .i32, g0⟩),
   (0x28105C07FFF41180, .vsubImm ⟨.v 11, .g 1, 65533, .u32, ⟨3, false⟩⟩),
   (0x2820640BFFF00BC0, .vandImm ⟨.v 12, .g 2, 65532, .i32, ⟨7, true⟩⟩),
   (0x28306C0FFFEC1780, .vorImm ⟨.v 13, .g 3, 65531, .u32, g0⟩),
   (0x28407413FFE80980, .vxorImm ⟨.v 14, .g 4, 65530, .i32, ⟨3, false⟩⟩),
   (0x28507C17FFE413C0, .vshlImm ⟨.v 15, .g 5, 65529, .u32, ⟨7, true⟩⟩),
   (0x2860841BFFE00F80, .vshrImm ⟨.v 16, .g 6, 65528, .i32, g0⟩),
   (0x28708C1FFFDC1180, .vsraImm ⟨.v 17, .g 7, 65527, .u32, ⟨3, false⟩⟩),
   (0x28809423FFD80BC0, .vminImm ⟨.v 18, .g 8, 65526, .i32, ⟨7, true⟩⟩),
   (0x28909C27FFD41780, .vmaxImm ⟨.v 19, .g 9, 65525, .u32, g0⟩),
   (0x28A0A42BFFD00980, .vmulImm ⟨.v 20, .g 10, 65524, .i32, ⟨3, false⟩⟩),
   (0x28B0AC2FFFCC13C0, .vmulhImm ⟨.v 21, .g 11, 65523, .u32, ⟨7, true⟩⟩),
   (0x28C0B433FFC80F80, .vabsdImm ⟨.v 22, .g 12, 65522, .i32, g0⟩),
   (0x28D0BC37FFC41180, .vandnImm ⟨.v 23, .g 13, 65521, .u32, ⟨3, false⟩⟩),
   (0x28E0C43BFFC00BC0, .vaddsImm ⟨.v 24, .g 14, 65520, .i32, ⟨7, true⟩⟩),
   (0x28F0CC3FFFBC1780, .vsubsImm ⟨.v 25, .g 15, 65519, .u32, g0⟩)]

theorem test_wordValuImm : ∀ p ∈ wordValuImm, decodeWord p.1 = .ok p.2 := by decide +kernel

def wordVectorInt0 : List (W64 × Instr) :=
  [(0x2100080806040F85, .vaddc ⟨.v 1, .v 2, .v 3, 4, 5, .i32, g0⟩),
   (0x211008080604134F, .vsubb ⟨.v 1, .v 2, .v 3, 4, 15, .u32, ⟨6, true⟩⟩),
   (0x2200400806048785, .vmad64U ⟨.v 8, .v 2, .v 3, .v 4, 5, g0⟩),
   (0x2210500807048480, .vmad64S ⟨.v 10, .v 2, .v 3, .g 4, 0, ⟨9, false⟩⟩),
   (0x230078503C000F80, .vcmpEq ⟨15, .v 20, .v 30, .i32, g0⟩),
   (0x231070543E0010C0, .vcmpNe ⟨14, .v 21, .v 31, .u32, ⟨1, true⟩⟩),
   (0x2320685840000F80, .vcmpLt ⟨13, .v 22, .v 32, .i32, g0⟩),
   (0x2330605C420010C0, .vcmpLe ⟨12, .v 23, .v 33, .u32, ⟨1, true⟩⟩),
   (0x2340586044000F80, .vcmpGt ⟨11, .v 24, .v 34, .i32, g0⟩),
   (0x23505064460010C0, .vcmpGe ⟨10, .v 25, .v 35, .u32, ⟨1, true⟩⟩),
   (0x2360486848000F80, .vcmpLtu ⟨9, .v 26, .v 36, .i32, g0⟩),
   (0x2370406C4A0010C0, .vcmpLeu ⟨8, .v 27, .v 37, .u32, ⟨1, true⟩⟩),
   (0x238038704C000F80, .vcmpGtu ⟨7, .v 28, .v 38, .i32, g0⟩),
   (0x239030744E0010C0, .vcmpGeu ⟨6, .v 29, .v 39, .u32, ⟨1, true⟩⟩),
   (0x2400080806040280, .vsel ⟨.v 1, 4, .v 2, .v 3, ⟨5, false⟩⟩),
   (0x2607FCFC00000780, .vmov ⟨.v 255, .g 63, g0⟩)]

def wordVectorInt1 : List (W64 × Instr) :=
  [(0x2610200200047F80, .vli ⟨.v 4, 32769, .e8m0x4, g0⟩),
   (0x2610280200087781, .vliHi ⟨.v 5, 32770, .u16x2, g0⟩),
   (0x26103002000C6F82, .vliDup ⟨.v 6, 32771, .i16x2, g0⟩),
   (0x2500202400000780, .vpopc ⟨.v 4, .v 9, .raw, g0⟩),
   (0x2510282400000F80, .vclz ⟨.v 5, .v 9, .i32, g0⟩),
   (0x2520302400001780, .vctz ⟨.v 6, .v 9, .u32, g0⟩),
   (0x2550482400001780, .vrev ⟨.v 9, .v 9, .u32, g0⟩),
   (0x253020140C000F80, .vbfe ⟨.v 4, .v 5, .v 6, .i32, g0⟩),
   (0x254020140C071780, .vbfi ⟨.v 4, .v 5, .v 6, .v 7, .u32, g0⟩),
   (0x256020140C070140, .vbperm ⟨.v 4, .v 5, .v 6, .v 7, .raw, ⟨2, true⟩⟩),
   (0x270020140C070F80, .vdot4II ⟨.v 4, .v 5, .v 6, .v 7, false, g0⟩),
   (0x271020140C071781, .vdot4UU ⟨.v 4, .v 5, .v 6, .v 7, true, g0⟩),
   (0x272020140C070F80, .vdot4IU ⟨.v 4, .v 5, .v 6, .v 7, false, g0⟩)]

theorem test_wordVectorInt0 : ∀ p ∈ wordVectorInt0, decodeWord p.1 = .ok p.2 := by decide +kernel

theorem test_wordVectorInt1 : ∀ p ∈ wordVectorInt1, decodeWord p.1 = .ok p.2 := by decide +kernel

def wordFloat0 : List (W64 × Instr) :=
  [(0x3000080806001F81, .fadd ⟨.v 1, .v 2, .v 3, .f32, some .rne, g0⟩),
   (0x3010080806002782, .fsub ⟨.v 1, .v 2, .v 3, .f16x2, some .rtz, g0⟩),
   (0x3020080806002F83, .fmul ⟨.v 1, .v 2, .v 3, .bf16x2, some .rup, g0⟩),
   (0x3030080806002440, .fmin ⟨.v 1, .v 2, .v 3, .f16x2, ⟨8, true⟩⟩),
   (0x3040080806002C40, .fmax ⟨.v 1, .v 2, .v 3, .bf16x2, ⟨8, true⟩⟩),
   (0x3100080806041F84, .ffma ⟨.v 1, .v 2, .v 3, .v 4, .f32, some .rdn, g0⟩),
   (0x3110080806042783, .ffms ⟨.v 1, .v 2, .v 3, .v 4, .f16x2, some .rup, g0⟩),
   (0x3120080806042F82, .ffnma ⟨.v 1, .v 2, .v 3, .v 4, .bf16x2, some .rtz, g0⟩),
   (0x3700080806001F80, .fscale ⟨.v 1, .v 2, .v 3, .f32, none, g0⟩),
   (0x3200080806001F80, .fcmpEq ⟨1, .v 2, .v 3, .f32, false, g0⟩),
   (0x3210100806002781, .fcmpNe ⟨2, .v 2, .v 3, .f16x2, true, g0⟩),
   (0x3220180806002F81, .fcmpLt ⟨3, .v 2, .v 3, .bf16x2, true, g0⟩),
   (0x3230200806001F80, .fcmpLe ⟨4, .v 2, .v 3, .f32, false, g0⟩),
   (0x3240280806002781, .fcmpGt ⟨5, .v 2, .v 3, .f16x2, true, g0⟩),
   (0x3250300806002F81, .fcmpGe ⟨6, .v 2, .v 3, .bf16x2, true, g0⟩),
   (0x3260380806001F80, .fcmpUnord ⟨7, .v 2, .v 3, .f32, false, g0⟩)]

def wordFloat1 : List (W64 × Instr) :=
  [(0x3270400806002781, .fcmpOrd ⟨8, .v 2, .v 3, .f16x2, true, g0⟩),
   (0x3300080800004787, .fclass ⟨.v 1, .v 2, .e2m1x8, 7, g0⟩),
   (0x3400481000001F80, .frcp ⟨.v 9, .v 4, .f32, none, g0, .none⟩),
   (0x3410501000002791, .frsq ⟨.v 10, .v 4, .f16x2, some .rne, g0, .a⟩),
   (0x3420581000002FA2, .fsqrt ⟨.v 11, .v 4, .bf16x2, some .rtz, g0, .b⟩),
   (0x3430601000001F83, .fexp2 ⟨.v 12, .v 4, .f32, some .rup, g0, .none⟩),
   (0x3440681000002794, .flog2 ⟨.v 13, .v 4, .f16x2, some .rdn, g0, .a⟩),
   (0x3450701000002FA0, .fsin ⟨.v 14, .v 4, .bf16x2, none, g0, .b⟩),
   (0x3460781000001F81, .fcos ⟨.v 15, .v 4, .f32, some .rne, g0, .none⟩),
   (0x3470801000002792, .ftanh ⟨.v 16, .v 4, .f16x2, some .rtz, g0, .a⟩),
   (0x3500501004033780, .cvt ⟨.v 10, .v 4, 2, .f32, .e4m3x4, false, none, g0⟩),
   (0x3500501000290882, .cvt ⟨.v 10, .v 4, 0, .i8x4, .i32, true, some .rtz, ⟨1, false⟩⟩),
   (0x3600A010E61E3792, .cvtmxQ ⟨.v 20, .v 4, .v 30, 3, 2, .f32, .e4m3x4, some .rtz, g0, .a⟩),
   (0x3610A851721E41E0, .cvtmxD ⟨.v 21, .v 20, .v 30, 1, 3, .bf16x2, .e2m1x8, none, ⟨3, true⟩, .b⟩)]

theorem test_wordFloat0 : ∀ p ∈ wordFloat0, decodeWord p.1 = .ok p.2 := by decide +kernel

theorem test_wordFloat1 : ∀ p ∈ wordFloat1, decodeWord p.1 = .ok p.2 := by decide +kernel

def wordCross0 : List (W64 × Instr) :=
  [(0x5000080806000780, .shflIdx ⟨.v 1, .v 2, .v 3, g0⟩),
   (0x50100808003F0000, .shflUp ⟨.v 1, .v 2, 63, ⟨0, false⟩⟩),
   (0x50200808003E0080, .shflDown ⟨.v 1, .v 2, 62, ⟨1, false⟩⟩),
   (0x50300808003D0100, .shflXor ⟨.v 1, .v 2, 61, ⟨2, false⟩⟩),
   (0x51000808001F0780, .bcast ⟨.v 1, .v 2, 31, g0⟩),
   (0x5100186800001781, .bcastS ⟨.v 3, 26, .u32, g0⟩),
   (0x51103CB0003F0780, .vtos ⟨7, .g 44, 63⟩),
   (0x5200A02400000F80, .vredAdd ⟨.v 20, .v 9, .i32, g0⟩),
   (0x5300A02400000F80, .vscanAdd ⟨.v 20, .v 9, .i32, false, g0⟩),
   (0x5210A82400001780, .vredMin ⟨.v 21, .v 9, .u32, g0⟩),
   (0x5310A82400001781, .vscanMin ⟨.v 21, .v 9, .u32, true, g0⟩),
   (0x5220B02400000F80, .vredMax ⟨.v 22, .v 9, .i32, g0⟩),
   (0x5320B02400000F80, .vscanMax ⟨.v 22, .v 9, .i32, false, g0⟩),
   (0x5230B82400001780, .vredAnd ⟨.v 23, .v 9, .u32, g0⟩),
   (0x5330B82400001781, .vscanAnd ⟨.v 23, .v 9, .u32, true, g0⟩),
   (0x5240C02400000F80, .vredOr ⟨.v 24, .v 9, .i32, g0⟩)]

def wordCross1 : List (W64 × Instr) :=
  [(0x5340C02400000F80, .vscanOr ⟨.v 24, .v 9, .i32, false, g0⟩),
   (0x5250C82400001780, .vredXor ⟨.v 25, .v 9, .u32, g0⟩),
   (0x5350C82400001781, .vscanXor ⟨.v 25, .v 9, .u32, true, g0⟩),
   (0x5260D02400001F80, .vredFadd ⟨.v 26, .v 9, .f32, g0⟩),
   (0x5360D02400001F80, .vscanFadd ⟨.v 26, .v 9, .f32, false, g0⟩),
   (0x5270D82400001F80, .vredFmin ⟨.v 27, .v 9, .f32, g0⟩),
   (0x5370D82400001F81, .vscanFmin ⟨.v 27, .v 9, .f32, true, g0⟩),
   (0x5280E02400001F80, .vredFmax ⟨.v 28, .v 9, .f32, g0⟩),
   (0x5380E02400001F80, .vscanFmax ⟨.v 28, .v 9, .f32, false, g0⟩),
   (0x5400500800000080, .voteBallot ⟨10, 2, ⟨1, false⟩⟩),
   (0x5410280800000780, .voteAny ⟨5, 2, g0⟩),
   (0x5420280C00000780, .voteAll ⟨5, 3, g0⟩),
   (0x5430288400000780, .votePfroms ⟨5, 33, g0⟩),
   (0x5500080800000780, .qxchH ⟨.v 1, .v 2, g0⟩),
   (0x5510080C00000780, .qxchV ⟨.v 1, .v 3, g0⟩),
   (0x5520081000000780, .qxchD ⟨.v 1, .v 4, g0⟩)]

def wordCross2 : List (W64 × Instr) :=
  [(0x5530080800030780, .qxchB ⟨.v 1, .v 2, 3, g0⟩),
   (0x56000001FFFFFFFF, .emset (.sext 0xFFFFFFFF)),
   (0x5610090000000000, .emld 9),
   (0x5622400000000000, .emst 9),
   (0x5630002400000000, .emand (.reg 9)),
   (0x5640000300000007, .hmset (.high 7))]

theorem test_wordCross0 : ∀ p ∈ wordCross0, decodeWord p.1 = .ok p.2 := by decide +kernel

theorem test_wordCross1 : ∀ p ∈ wordCross1, decodeWord p.1 = .ok p.2 := by decide +kernel

theorem test_wordCross2 : ∀ p ∈ wordCross2, decodeWord p.1 = .ok p.2 := by decide +kernel

def wordMemory0 : List (W64 × Instr) :=
  [(0x6000280D48001780, .ld ⟨.u8, .v 5, some (.v 3), 20, 2048, .u32, g0, .none, 0⟩),
   (0x61002FFD48001780, .st ⟨.u8, .v 5, none, 20, 2048, .u32, g0, .none, 0⟩),
   (0x601037FD58010951, .ld ⟨.i8, .v 6, none, 21, 2049, .i32, ⟨2, true⟩, .a, 1⟩),
   (0x6110301158010951, .st ⟨.i8, .v 6, some (.v 4), 21, 2049, .i32, ⟨2, true⟩, .a, 1⟩),
   (0x60203815680207A2, .ld ⟨.u16, .v 7, some (.v 5), 22, 2050, .raw, g0, .b, 2⟩),
   (0x61203FFD680207A2, .st ⟨.u16, .v 7, none, 22, 2050, .raw, g0, .b, 2⟩),
   (0x603847FD78030943, .ld ⟨.i16, .g 8, none, 23, 2051, .i32, ⟨2, true⟩, .none, 3⟩),
   (0x6138401978030943, .st ⟨.i16, .g 8, some (.v 6), 23, 2051, .i32, ⟨2, true⟩, .none, 3⟩),
   (0x6040481D88047F94, .ld ⟨.b32, .v 9, some (.v 7), 24, 2052, .e8m0x4, g0, .a, 4⟩),
   (0x61404FFD88047F94, .st ⟨.b32, .v 9, none, 24, 2052, .e8m0x4, g0, .a, 4⟩),
   (0x605057FD98058165, .ld ⟨.b64, .v 10, none, 25, 2053, .w64, ⟨2, true⟩, .b, 5⟩),
   (0x6150502198058165, .st ⟨.b64, .v 10, some (.v 8), 25, 2053, .w64, ⟨2, true⟩, .b, 5⟩),
   (0x60606025A8068786, .ld ⟨.b128, .v 12, some (.v 9), 26, 2054, .w64, g0, .none, 6⟩),
   (0x616067FDA8068786, .st ⟨.b128, .v 12, none, 26, 2054, .w64, g0, .none, 6⟩),
   (0x624027FCB0101780, .ldcw ⟨.b32, .v 4, none, 11, 16, .u32, g0, .none, 0⟩),
   (0x63002014B01007A0, .stcw ⟨.u8, .v 4, some (.v 5), 11, 16, .raw, g0, .b, 0⟩)]

def wordMemory1 : List (W64 × Instr) :=
  [(0x6400F80830200207, .pref ⟨31, some (.v 2), 3, 0x20, ⟨4, false⟩, 7⟩),
   (0x6410FFFC30200780, .discard ⟨31, none, 3, 0x20, g0, 0⟩)]

theorem test_wordMemory0 : ∀ p ∈ wordMemory0, decodeWord p.1 = .ok p.2 := by decide +kernel

theorem test_wordMemory1 : ∀ p ∈ wordMemory1, decodeWord p.1 = .ok p.2 := by decide +kernel

def wordAtomics0 : List (W64 × Instr) :=
  [(0x7001441800000000, .amoAdd ⟨5, 4, 6, false⟩),
   (0x7011451800000001, .amoSub ⟨5, 5, 6, true⟩),
   (0x7021461800000000, .amoMin ⟨5, 6, 6, false⟩),
   (0x7031471800000001, .amoMax ⟨5, 7, 6, true⟩),
   (0x7041481800000000, .amoMinu ⟨5, 8, 6, false⟩),
   (0x7051491800000001, .amoMaxu ⟨5, 9, 6, true⟩),
   (0x70614A1800000000, .amoAnd ⟨5, 10, 6, false⟩),
   (0x70714B1800000001, .amoOr ⟨5, 11, 6, true⟩),
   (0x70814C1800000000, .amoXor ⟨5, 12, 6, false⟩),
   (0x70914D1800000001, .amoXchg ⟨5, 13, 6, true⟩),
   (0x70A14E1800000000, .amoCas ⟨5, 14, 6, false⟩),
   (0x70B14F1800000000, .amoFadd ⟨5, 15, 6, false⟩),
   (0x70C1501800000000, .amoIncw ⟨5, 16, 6, false⟩),
   (0x70D1511800000001, .amoDecw ⟨5, 17, 6, true⟩),
   (0x7100400C20001780, .amovAdd ⟨.v 8, some (.v 3), 2, 0, .u32, g0, .none⟩),
   (0x711067FC30010950, .amovSub ⟨.v 12, none, 3, 1, .i32, ⟨2, true⟩, .a⟩)]

def wordAtomics1 : List (W64 × Instr) :=
  [(0x71208014400287A0, .amovMin ⟨.v 16, some (.v 5), 4, 2, .w64, g0, .b⟩),
   (0x7130A7FC50031140, .amovMax ⟨.v 20, none, 5, 3, .u32, ⟨2, true⟩, .none⟩),
   (0x7140C01C60040F90, .amovMinu ⟨.v 24, some (.v 7), 6, 4, .i32, g0, .a⟩),
   (0x7150E7FC70058160, .amovMaxu ⟨.v 28, none, 7, 5, .w64, ⟨2, true⟩, .b⟩),
   (0x7161002480061780, .amovAnd ⟨.v 32, some (.v 9), 8, 6, .u32, g0, .none⟩),
   (0x717127FC90070950, .amovOr ⟨.v 36, none, 9, 7, .i32, ⟨2, true⟩, .a⟩),
   (0x7181402CA00887A0, .amovXor ⟨.v 40, some (.v 11), 10, 8, .w64, g0, .b⟩),
   (0x719167FCB0091140, .amovXchg ⟨.v 44, none, 11, 9, .u32, ⟨2, true⟩, .none⟩),
   (0x71A18034C00A0F90, .amovCas ⟨.v 48, some (.v 13), 12, 10, .i32, g0, .a⟩),
   (0x71B1A7FCD00B1960, .amovFadd ⟨.v 52, none, 13, 11, .f32, ⟨2, true⟩, .b⟩),
   (0x71C1C03CE00C1780, .amovIncw ⟨.v 56, some (.v 15), 14, 12, .u32, g0, .none⟩),
   (0x71D1E7FCF00D0950, .amovDecw ⟨.v 60, none, 15, 13, .i32, ⟨2, true⟩, .a⟩)]

theorem test_wordAtomics0 : ∀ p ∈ wordAtomics0, decodeWord p.1 = .ok p.2 := by decide +kernel

theorem test_wordAtomics1 : ∀ p ∈ wordAtomics1, decodeWord p.1 = .ok p.2 := by decide +kernel

def wordWaits0 : List (W64 × Instr) :=
  [(0x7401C32000000001, .svwaitEq ⟨7, 3, 8, true⟩),
   (0x7411C32000000000, .svwaitGeu ⟨7, 3, 8, false⟩),
   (0x72000A2C00000000, .binit 10 11),
   (0x73030A0000000000, .barv 12 10),
   (0x73130A2400000000, .bwt ⟨12, 10, 9⟩),
   (0x73230A0000000000, .barw 12 10),
   (0x7802540000000205, .enq ⟨9, 20, 5, 2⟩),
   (0x7902540000000FFF, .deq ⟨9, 20, 255, 15⟩),
   (0x7912540000000205, .deqt ⟨9, 20, 5, 2⟩),
   (0x7A01500020000001, .engq ⟨5, 16, 2, 1⟩),
   (0x7B01800000000000, .bclose 6),
   (0x7B11872000000000, .bwait ⟨6, 7, 8⟩),
   (0x7B21872000000000, .btest ⟨6, 7, 8⟩),
   (0x7C00000000000802, .xfence 8 2),
   (0x7C00000000001F01, .xfence 31 1),
   (0x7D01C0200001FF00, .wcwaitS ⟨7, 8, 255, 1⟩)]

def wordWaits1 : List (W64 × Instr) :=
  [(0x7D01C02000010301, .wcwaitD ⟨7, 8, 3, 1⟩)]

theorem test_wordWaits0 : ∀ p ∈ wordWaits0, decodeWord p.1 = .ok p.2 := by decide +kernel

theorem test_wordWaits1 : ∀ p ∈ wordWaits1, decodeWord p.1 = .ok p.2 := by decide +kernel

def wordTiles0 : List (W64 × Instr) :=
  [(0x800FA040305FF800, .mmaF16 ⟨250, .v 8, .v 12, 5, none, .none⟩),
   (0x801F9040306FF810, .mmaBf16 ⟨249, .v 8, .v 12, 6, none, .a⟩),
   (0x802F8040307FF820, .mmaE4m3 ⟨248, .v 8, .v 12, 7, none, .b⟩),
   (0x803F7040308FF800, .mmaE5m2 ⟨247, .v 8, .v 12, 8, none, .none⟩),
   (0x804F60403090F010, .mmaMxe4m3 ⟨246, .v 8, .v 12, 9, some (.v 30), .a⟩),
   (0x805F504030A0F020, .mmaMxe5m2 ⟨245, .v 8, .v 12, 10, some (.v 30), .b⟩),
   (0x806F404030B0F000, .mmaMxe2m1 ⟨244, .v 8, .v 12, 11, some (.v 30), .none⟩),
   (0x8100004040EFF800, .mmaiI8i8 ⟨0, .v 8, .v 16, 14, none, .none⟩),
   (0x8110104040EFF800, .mmaiU8i8 ⟨1, .v 8, .v 16, 14, none, .none⟩),
   (0x8120204040EFF800, .mmaiI4i4 ⟨2, .v 8, .v 16, 14, none, .none⟩),
   (0x8200004040EFF800, .mmatI8t2 ⟨0, .v 8, .v 16, 14, none, .none⟩),
   (0x8210104040EFF800, .mmatU8t2 ⟨1, .v 8, .v 16, 14, none, .none⟩),
   (0x83003000000FF800, .azero 3),
   (0x86009820000FF800, .amovv 9 (.g 4)),
   (0x86109140000FF800, .amova 9 (.v 40)),
   (0x87007000000FF800, .acvtRelu 7)]

def wordTiles1 : List (W64 × Instr) :=
  [(0x87107000009FF800, .acvtScale 7 9),
   (0x87207000009FF800, .acvtClamp 7 9),
   (0x88003018009FF800, .atag 3 9 3),
   (0x84002FFCA0100780, .ald ⟨.f32, 5, 10, 16, .none, 0⟩),
   (0x84102FFCA0110791, .ald ⟨.i32, 5, 10, 17, .a, 1⟩),
   (0x84202FFCA01207A2, .ald ⟨.f16, 5, 10, 18, .b, 2⟩),
   (0x850647FFEFF00787, .ast ⟨.f32, 200, 62, 0xFF0, .none, 7⟩),
   (0x85164FFFEFF00797, .ast ⟨.i32, 201, 62, 0xFF0, .a, 7⟩),
   (0x852657FFEFF007A7, .ast ⟨.f16, 202, 62, 0xFF0, .b, 7⟩),
   (0x85365FFFEFF007A7, .ast ⟨.bf16, 203, 62, 0xFF0, .b, 7⟩)]

theorem test_wordTiles0 : ∀ p ∈ wordTiles0, decodeWord p.1 = .ok p.2 := by decide +kernel

theorem test_wordTiles1 : ∀ p ∈ wordTiles1, decodeWord p.1 = .ok p.2 := by decide +kernel

def wordCursors0 : List (W64 × Instr) :=
  [(0x9000000000140000, .kinitR ⟨0, 20, .none⟩),
   (0x901F0000003E0010, .kinitA ⟨15, 62, .a⟩),
   (0x91010004024C0140, .knext ⟨1, .v 8, .v 9, 12, 2, .none⟩),
   (0x91010000000C0020, .knextS ⟨1, 12, .b⟩),
   (0x92010000000C0000, .kseek ⟨1, 12, .none⟩),
   (0x9301200000000010, .kdesc 1 2 .a),
   (0x9400100A024001C0, .kld ⟨.b8, .v 20, 1, .v 9, 3, .none⟩),
   (0x9410100B024001C0, .kld ⟨.b16, .v 22, 1, .v 9, 3, .none⟩),
   (0x9420100C024001C0, .kld ⟨.b32, .v 24, 1, .v 9, 3, .none⟩),
   (0x9430100D024001C0, .kld ⟨.b64, .v 26, 1, .v 9, 3, .none⟩),
   (0x9800600000210007, .kqry ⟨33, 6, 7⟩),
   (0x9900600000210021, .ksave ⟨6, 33, true, .b⟩),
   (0x9916000000210000, .krest ⟨6, 33, false, .none⟩),
   (0x95001204028C0143, .kcoI ⟨1, 2, .v 8, .v 10, 12, 2, 3, .none⟩),
   (0x95101204028C0143, .kcoU ⟨1, 2, .v 8, .v 10, 12, 2, 3, .none⟩),
   (0x96030004024A0141, .kapp ⟨3, .v 8, .v 9, 1, 10, 2, .none⟩)]

def wordCursors1 : List (W64 × Instr) :=
  [(0x97030000000B0000, .kfin ⟨3, 11, .none⟩),
   (0x9A030002001420C0, .sieveNz ⟨3, .v 4, 20, 1, .f16x2, .none⟩),
   (0x9A130002015418D0, .sieveDelta ⟨3, .v 4, .v 5, 20, 1, .f32, .a⟩),
   (0x9B00000600285100, .xdec ⟨.v 12, 40, 2, .u8x4, .none⟩),
   (0x0F00000000000001, .reservedOpcodeWord 0x0F00000000000001),
   (0xEF12345678ABCDEF, .reservedOpcodeWord 0xEF12345678ABCDEF)]

theorem test_wordCursors0 : ∀ p ∈ wordCursors0, decodeWord p.1 = .ok p.2 := by decide +kernel

theorem test_wordCursors1 : ∀ p ∈ wordCursors1, decodeWord p.1 = .ok p.2 := by decide +kernel

def command0 : List (Nat × Instr) :=
  [(0x700000000000000060000000500000004000000000000000300000000000000020000000000000001000000000000000051122334400000001, .ctxCreate ⟨2, 0x11223344, true⟩ ⟨5, 0x10, 0x20, 0x30, 0x40, 0x50, 0x60, 0x70⟩),
   (0x51122334400000002, .ctxSuspend ⟨2, 0x11223344, true⟩ 5),
   (0x51122334400000003, .ctxResume ⟨2, 0x11223344, true⟩ 5),
   (0x51122334400000004, .ctxDestroy ⟨2, 0x11223344, true⟩ 5),
   (0x887766554433221100000000000000051122334400000005, .lossAck ⟨2, 0x11223344, true⟩ 5 0x8877665544332211),
   (0x2FF1122334400000006, .coreReset ⟨2, 0x11223344, true⟩ 767),
   (0x3000000020000000100000000000000051122334400000007, .crewPreempt ⟨2, 0x11223344, true⟩ ⟨5, 1, 2, 3⟩),
   (0x8765432100000000000000051122334400000008, .watchdogSet ⟨2, 0x11223344, true⟩ 5 0x87654321),
   (0x887766554433221100000000000000FF00000000000000051122334400000010, .queueConfig ⟨2, 0x11223344, true⟩ 5 255 0x8877665544332211),
   (0x1800000000000000051122334400000011, .queueOpen ⟨2, 0x11223344, true⟩ 5 24),
   (0x1900000000000000051122334400000012, .queueClose ⟨2, 0x11223344, true⟩ 5 25),
   (0x1A00000000000000051122334400000013, .queueFree ⟨2, 0x11223344, true⟩ 5 26),
   (0x1B00000000000000051122334400000014, .queueReset ⟨2, 0x11223344, true⟩ 5 27),
   (0x1C00000000000000051122334400000015, .queueQuery ⟨2, 0x11223344, true⟩ 5 28),
   (0x1000887766554433221100000000000000051122334400000020, .tlbInval ⟨2, 0x11223344, true⟩ 5 0x8877665544332211 4096),
   (0x10000000900000000000000051122334400000021, .replay ⟨2, 0x11223344, true⟩ 5 9 1)]

def command1 : List (Nat × Instr) :=
  [(0xD0000000000001000887766554433221100000000000000001122334400000022, .frameAttr ⟨2, 0x11223344, true⟩ 0x8877665544332211 4096 13),
   (0x887766554433221100000000000000051122334400000023, .hwinSet ⟨2, 0x11223344, true⟩ 5 0x8877665544332211),
   (0xB00000000000000001122334400000030, .linkEnable ⟨2, 0x11223344, true⟩ 11),
   (0xB00000000000000001122334400000031, .linkQuiesce ⟨2, 0x11223344, true⟩ 11),
   (0xB00000000000000001122334400000032, .linkDisable ⟨2, 0x11223344, true⟩ 11),
   (0xB00000000000000001122334400000033, .linkQuery ⟨2, 0x11223344, true⟩ 11),
   (0x10008877665544332211000000080FFF030900000000000000051122334400000034, .winOpen ⟨2, 0x11223344, true⟩ ⟨5, 9, 3, 0xFFF, 8, 0x8877665544332211, 0x1000⟩),
   (0x900000000000000051122334400000035, .winReset ⟨2, 0x11223344, true⟩ 5 9),
   (0x900000000000000051122334400000036, .winClose ⟨2, 0x11223344, true⟩ 5 9),
   (0xE1000000000000000001122334400000040, .powerCap ⟨2, 0x11223344, true⟩ 3600),
   (0x1122334400000024, .unlistedCommand ⟨2, 0x11223344, true⟩ 0x24)]

theorem test_command0 : ∀ p ∈ command0, decodeCommand 2 (bytesOf 64 p.1) = p.2 := by decide +kernel

theorem test_command1 : ∀ p ∈ command1, decodeCommand 2 (bytesOf 64 p.1) = p.2 := by decide +kernel

/-- A header is the application of a clause's header. -/
theorem test_headerWord : decodeTableWord 64 0xF30011F000800000 = some .clauseStart := by decide +kernel

/-! Words that are no instruction: a reserved opcode or function, and fields that R70, R67 and R68 refuse. -/

/-- A word that the decoder refuses, and why. -/
def refuses (e : DecodeErr) (w : W64) : Bool :=
  match decodeWord w with
  | .error x => decide (x = e)
  | .ok _ => false

/-- A word whose opcode or function is reserved. -/
def isReserved (w : W64) : Bool :=
  match decodeWord w with
  | .ok (.reservedOpcodeWord x) => x == w
  | _ => false

/-- fn of NOP; fn of BRA; fn of BRZ; fn of DBR; fn of EXIT; fn of SCMP; fn of SBIT; fn of VBIT; fn of VDOT4; fn of EMOP; fn of AMO; fn of MMA; ALD.BF16; a header. -/
def reservedWords : List W64 :=
  [0x0010000000000000, 0x0134400000000000, 0x0225000000000000, 0x0318000000000000,
   0x0620000000000000, 0x11A0820400000000, 0x1360420000000000, 0x2570202400000F80,
   0x273020140C070F80, 0x5650000000000000, 0x70E1441800000000, 0x80702040305FF800,
   0x84302FFCA0000780, 0xF000000000000000]

theorem test_reservedWords : reservedWords.all (isReserved) = true := by decide +kernel


/-- a NOP with a target; BRA.NZ with [45:37] set; CALL with [47:37] set; RET with a target; TRAP above 31; TRAP with isel 01; SRD with sa; SRD with isel 00; CHEND with sd; CHCFG with sa and an immediate; WSPLIT with imm32[4]; WFUSE with isel 10; TAGSET with vc[5]; TAGSET with a guard; TAGSET with a type; SADD with sb and an immediate; SADD with an immediate and isel 00; SSEL with imm32[6]; SBFE with isel 01; SBFE with imm32[14]; SLD fn 6; SLD with vaddr; SLD with [51:49]; SLD with a guard; a hint above 7; the reserved guard; VADD.F32; a reserved type code; VAND.W64; VADD with vc; VADD with a flag; VADD with mod. -/
def refusedWords0 : List W64 :=
  [0x0000000000000001, 0x0114410000000000, 0x0500002000000007, 0x0520000000000001,
   0x0700070200000020, 0x0700070100000005, 0x0902410200000004, 0x0902400000000000,
   0x0B00400000000000, 0x0B11060100000200, 0x0C01400200000010, 0x0C11400200000000,
   0x0D00180000200780, 0x0D00180000030700, 0x0D00180000030F80, 0x1000820500000080,
   0x1000820400000001, 0x1200420C00000040, 0x1330420100000004, 0x1330420200004000,
   0x14600FFC90000780, 0x1440080C90000780, 0x14420FFC90000780, 0x14400FFC90000180,
   0x14400FFC90000788, 0x2000080806000FC0, 0x2000080806001F80, 0x2000080806008F80,
   0x2020080806008780, 0x2000080806010F80, 0x2000080806000F90, 0x2000080806000F81]

theorem test_refusedWords0 : refusedWords0.all (refuses .illegalInstr) = true := by decide +kernel

/-- an immediate above eight bits for I8X4; VALUI with [17:16]; VADDC with vc[4]; VADDC.I8X4; VMAD64 with a type other than W64; VCMP with vd[4]; VSEL with vc[4]; mod 3 of VLI; VLI.W64; VPOPC.F32; VDOT4.II with U32; FADD.E4M3X4; a reserved rounding mode; FMIN with a rounding mode; FCMP.F32 of element 1; FCLASS.F16X2 of element 2; FRCP.E4M3X4; the reserved flag code; CVT from RAW; CVT with a part of 4 of 4; CVT.SAT from F32; CVT with vb[3]; CVTMX with a part of 4 of 4; CVTMX from E4M3X4; CVTMX to I8X4; SHFL with vc[6]; mod 2 of BCAST; BCAST with a type; VTOS with a guard; VRED.FADD.I32; mod 2 of VSCAN; QXCH.B of corner 4. -/
def refusedWords1 : List W64 :=
  [0x2800080804004F80, 0x2800080800150F80, 0x2100080806100F80, 0x2100080806044F80,
   0x2200100806040F80, 0x2300800806000F80, 0x2400080806100780, 0x2610200000040F83,
   0x2610200000048780, 0x2500202400001F80, 0x270020140C071780, 0x3000080806003780,
   0x3000080806001F85, 0x3030080806001F81, 0x3200080806001F81, 0x3300080800002782,
   0x3400080800003780, 0x3400080800001FB0, 0x3500080800001F80, 0x3500080808033780,
   0x3500080800230F80, 0x3500080810033780, 0x36000808C8043780, 0x3600080980043780,
   0x36000808C0044F80, 0x5010080800400780, 0x5100080800000782, 0x5100080800000F80,
   0x5110380800000080, 0x5260080800000F80, 0x5300080800000F82, 0x5530080800040780]

theorem test_refusedWords1 : refusedWords1.all (refuses .illegalInstr) = true := by decide +kernel

/-- EMSET with isel 00; LD.U8.F32; LD.B32.W64; LDCW with a hint; PREF with [5] set; DISCARD with a hint; PREF with a flag; AMO.FADD.64; AMO with imm[1]; AMOV.FADD.U32; AMOV.ADD.F32; AMOV.ADD.RAW; BINIT with sd; ENQ with sb; ENQ with imm[12]; engine 3; BCLOSE with sa; XFENCE with imm[5]; WCWAIT with imm[1]; MMA.F16 with a scale register; MMA with [10:6]; AZERO with a flag; ALD with vaddr; ATAG with abase[5]; KINIT with ka; KINIT with ge; KNEXT with ge 0 and registers; KLD with ge 0; field 8 of KQRY; KQRY with a flag; KSAVE with mod[1]; KCO with ge 0. -/
def refusedWords2 : List W64 :=
  [0x5600000000000000, 0x6000080830001F80, 0x6040080830008780, 0x6240080830000F81,
   0x6401000830000780, 0x6410F80830000781, 0x6400180830000790, 0x70B1441800000001,
   0x7001441800000002, 0x71B0400830001780, 0x7100400830001F80, 0x7100400830000780,
   0x72004A2C00000000, 0x7802540400000205, 0x7802540000001205, 0x7A01500030000001,
   0x7B01870000000000, 0x7C00000000000822, 0x7D01C02000010303, 0x800020403050F000,
   0x80002040305FF840, 0x83003000000FF810, 0x8400280CA0000780, 0x88003100009FF800,
   0x9000100000140000, 0x9000000000140040, 0x91010004024C0100, 0x9400100A02400180,
   0x9800600000210008, 0x9800600000210010, 0x9900600000210002, 0x95001204028C0103]

theorem test_refusedWords2 : refusedWords2.all (refuses .illegalInstr) = true := by decide +kernel

/-- KFIN with ge 1; SIEVE.NZ.E4M3X4; SIEVE.DELTA.I32; XDEC.U32. -/
def refusedWords3 : List W64 :=
  [0x97030000000B0040, 0x9A030002001430C0, 0x9A130002015408C0, 0x9B00000600281100]

theorem test_refusedWords3 : refusedWords3.all (refuses .illegalInstr) = true := by decide +kernel

/-- register code 320; register code 511 elsewhere; VMAD64 with an odd register; LD.B64 of an odd register; LD.B128 of v6; AMO.CAS with s63; AMOV.CAS with an odd register; 64-bit AMOV.CAS with v10; ENGQ with s57; ALD with s63; KINIT with s0; KINIT with s63; KLD.B64 of an odd register; SIEVE with s63; XDEC with s60. -/
def refusedRegisters : List W64 :=
  [0x200A000806000F80, 0x2000080BFE000F80, 0x2200480806048780, 0x6050280830000F80,
   0x6060300830000F80, 0x70A144FC00000000, 0x71A0480830001780, 0x71A0500830008780,
   0x7A01790000000001, 0x84002FFFF0000780, 0x9000000000000000, 0x90100000003F0000,
   0x9430100A824001C0, 0x9A030002003F20C0, 0x9B000006003C5100]

theorem test_refusedRegisters : refusedRegisters.all (refuses .illegalReg) = true := by decide +kernel

/-! Worked examples. -/

/-- What an instruction leaves in the strand. -/
def worked (f : Cur → Cur) (i : Instr) : Option Cur :=
  match exec i (dress (bare 0) f) with
  | .next t => some (seen t)
  | _ => none

/-- A vector register with a tag, the lanes from 0 on, and zeros. -/
def vreg (n : Nat) (t : Tag) (l : List Nat) (c : Cur) : Cur :=
  { c with warp := { c.warp with vregs := setAt c.warp.vregs n ⟨t, (List.range 32).map (fun k => BitVec.ofNat 32 (l.getD k 0))⟩ } }

/-- Lane `l` of register `r` behind an instruction. -/
def laneAfter (f : Cur → Cur) (i : Instr) (r : Fin 256) (l : Nat) : Option W32 := (worked f i).map (fun c => (c.vr (.v r)).lanes.getD l 0)

def bytesUp : Cur → Cur := fun c => vreg 1 .i8x4 [0x7F80FF01] (vreg 2 .i8x4 [0x01010101] c)

/-- 12, the table of one lane of I8X4 operations. -/
theorem test_packedBytes : laneAfter bytesUp (.vadd ⟨.v 3, .v 1, .v 2, .i8x4, g0⟩) 3 0 = some 0x80810002 ∧
    laneAfter bytesUp (.vadds ⟨.v 3, .v 1, .v 2, .i8x4, g0⟩) 3 0 = some 0x7F810002 ∧
    laneAfter bytesUp (.vsubs ⟨.v 3, .v 1, .v 2, .i8x4, g0⟩) 3 0 = some 0x7E80FE00 ∧
    laneAfter bytesUp (.vabsd ⟨.v 3, .v 1, .v 2, .i8x4, g0⟩) 3 0 = some 0x7E810200 := by decide +kernel

/-- 13, FSCALE.F32 of 1.5 by -130 without flushing. -/
theorem test_fscale : laneAfter (fun c => vreg 1 .f32 [0x3FC00000] (vreg 2 .i32 [2 ^ 32 - 130] c)) (.fscale ⟨.v 3, .v 1, .v 2, .f32, none, g0⟩) 3 0 =
    some 0x000C0000 := by decide +kernel

/-- 13, the packing of E4M3X4: part 0 into a register of another tag, then parts 1 to 3, and the widening of part 1. -/
theorem test_cvtPart0 : laneAfter (fun c => vreg 4 .f32 [0x3F800000] (vreg 10 .raw [0xFFFFFFFF] c)) (.cvt ⟨.v 10, .v 4, 0, .f32, .e4m3x4, false, none, g0⟩)
    10 0 = some 0x38 := by decide +kernel
theorem test_cvtPart1 : laneAfter (fun c => vreg 5 .f32 [0xBE99999A] (vreg 10 .e4m3x4 [0x38] c)) (.cvt ⟨.v 10, .v 5, 1, .f32, .e4m3x4, false, none, g0⟩)
    10 0 = some 0xAA38 := by decide +kernel
theorem test_cvtPart2 : laneAfter (fun c => vreg 6 .f32 [0x43FA0000] (vreg 10 .e4m3x4 [0xAA38] c)) (.cvt ⟨.v 10, .v 6, 2, .f32, .e4m3x4, false, none, g0⟩)
    10 0 = some 0x7EAA38 := by decide +kernel
theorem test_cvtPart3 : laneAfter (fun c => vreg 7 .f32 [0xFFC00001] (vreg 10 .e4m3x4 [0x7EAA38] c)) (.cvt ⟨.v 10, .v 7, 3, .f32, .e4m3x4, false, none, g0⟩)
    10 0 = some 0x7F7EAA38 := by decide +kernel
theorem test_cvtWide : laneAfter (vreg 10 .e4m3x4 [0x7F7EAA38]) (.cvt ⟨.v 11, .v 10, 1, .e4m3x4, .f32, false, none, g0⟩) 11 0 = some 0xBEA00000 := by
  decide +kernel

/-- 13, the round trip of CVTMX: 1000.0 in lane 0, 0.01 in lane 5, 1.0 elsewhere. -/
def outlier : List Nat := 0x447A0000 :: (List.range 31).map (fun k => if k = 4 then 0x3C23D70A else 0x3F800000)

theorem test_cvtmxQ : (worked (vreg 4 .f32 outlier) (.cvtmxQ ⟨.v 20, .v 4, .v 30, 0, 0, .f32, .e4m3x4, none, g0, .none⟩)).map (fun c =>
    ([0, 1, 5].map (fun l => (c.vr (.v 20)).lanes.getD l 0), (c.vr (.v 30)).lanes.getD 0 0)) = some ([0x7E, 0x30, 0x03], 0x80) := by decide +kernel
theorem test_cvtmxD : (worked (fun c => vreg 20 .e4m3x4 [0x7E, 0x30, 0, 0, 0, 0x03] (vreg 30 .e8m0x4 [0x80] c))
    (.cvtmxD ⟨.v 21, .v 20, .v 30, 0, 0, .f32, .e4m3x4, none, g0, .none⟩)).map (fun c => [0, 1, 5].map (fun l => (c.vr (.v 21)).lanes.getD l 0)) =
    some [0x44600000, 0x3F800000, 0x3C400000] := by decide +kernel

/-- 2, the sum of 1.0 and three times 2^-24 over four active lanes. -/
theorem test_vredFadd : laneAfter (fun c => (vreg 1 .f32 [0x3F800000, 0x33800000, 0x33800000, 0x33800000, 0x40000000] c).mapCore (fun k => { k with em := 0xF }))
    (.vredFadd ⟨.v 3, .v 1, .f32, g0⟩) 3 0 = some 0x3F800001 := by decide +kernel

/-- Tile 3. -/
def withTile (t : Tile) (c : Cur) : Cur := { c with warp := { c.warp with tiles := setAt c.warp.tiles 3 t } }

/-- A strand with tile 3 LIVE I32, its first elements as given, bounds in s20 and the first lanes of v32 and v64. -/
def product (e : List Nat) (bounds : Nat) (ta tb : Tag) (a b : List Nat) (c : Cur) : Cur :=
  let c := scalars [(20, bounds)] (vreg 32 ta a (vreg 64 tb b c))
  let c := (List.range 7).foldl (fun c k => vreg (33 + k) ta [] (vreg (65 + k) tb [] c)) c
  withTile ⟨.live, .i32, false, (List.range 256).map (fun k => BitVec.ofNat 32 (e.getD k 0))⟩ c

/-- 18, MMAI.I8I8 of depth 1: one element saturates, the other does not, and SAT is set. -/
theorem test_mmaiSaturates : (worked (product [2147483548, 2147483548] (1 + 32 * 2 + 1024) .i8x4 .i8x4 [127] [127, 0x81])
    (.mmaiI8i8 ⟨3, .v 32, .v 64, 20, none, .none⟩)).map (fun c => ((c.tile 3).sat, (c.tile 3).e.take 3)) =
    some (true, [0x7FFFFFFF, BitVec.ofNat 32 2147467419, 0]) := by decide +kernel

/-- 18, MMAT.I8T2 and MMAT.U8T2: depth 3, depth 4 with no column, and an unsigned A. -/
theorem test_mmatSigned : (worked (product [10] (1 + 32 + 1024 * 3) .i8x4 .t2x16 [0x6407FD05] [0x8D]) (.mmatI8t2 ⟨3, .v 32, .v 64, 20, none, .none⟩)).map
    (fun c => ((c.tile 3).sat, (c.tile 3).e.take 2)) = some (false, [18, 0]) := by decide +kernel
theorem test_mmatNoColumn : (worked (product [10] (1 + 1024 * 4) .i8x4 .t2x16 [0x6407FD05] [0x8D]) (.mmatI8t2 ⟨3, .v 32, .v 64, 20, none, .none⟩)).map
    (fun c => ((c.tile 3).e.take 2, c.t.core.pc)) = some ([10, 0], 0x10010) := by decide +kernel
theorem test_mmatReserved : (worked (product [10] (1 + 32 + 1024 * 4) .i8x4 .t2x16 [0x6407FD05] [0x8D]) (.mmatI8t2 ⟨3, .v 32, .v 64, 20, none, .none⟩)).map
    (fun c => ((c.tile 3).e.take 2, c.t.core.pc, c.t.core.trap.h)) = some ([10, 0], 0x20000, true) := by decide +kernel
theorem test_mmatUnsigned : (worked (product [0] (1 + 32 + 1024) .u8x4 .t2x16 [0xFB] [0x01]) (.mmatU8t2 ⟨3, .v 32, .v 64, 20, none, .none⟩)).map
    (fun c => (c.tile 3).e.take 1) = some [251] := by decide +kernel

/-- 17, ATAG of a saturated tile, its scaling by 2^-10, and AST.F16 of 70,000.0 under RNE and under RTZ. -/
def saturated (c : Cur) : Cur := scalars [(20, 0x3A800000)] (withTile ⟨.live, .i32, true, (0x7FFFFFFF : W32) :: List.replicate 255 0⟩ c)
theorem test_atag : (worked saturated (.atag 3 9 0)).map (fun c => c.sr 9) = some 0x141 := by decide +kernel
theorem test_acvtScale : (worked saturated (.acvtScale 3 20)).map (fun c => ((c.tile 3).tag, (c.tile 3).sat, (c.tile 3).e.take 2)) =
    some (.f32, true, [0x4A000000, 0]) := by decide +kernel

def stored (acr : BitVec 10) : Option (List Byte) :=
  (worked (fun c => (scalars [(10, 0x30000), (11, 0x4000000021)] (withTile ⟨.live, .f32, false, (0x4788B800 : W32) :: List.replicate 255 0⟩ c)).mapCore (fun k => { k with acr := acr }))
    (.ast ⟨.f16, 3, 10, 0, .none, 0⟩)).map (fun c => (List.range 2).map (fun i => (c.gByte (bare 0) (0x30000 + i))))

theorem test_astRne : stored 0 = some [0x00, 0x7C] := by decide +kernel
theorem test_astRtz : stored 1 = some [0xFF, 0x7B] := by decide +kernel

/-- 5, TRAP 5, s7: the cause, the operand, and the handler's address. -/
theorem test_trap : (worked (fun c => (scalars [(7, 0x1234)] c).mapCore (fun k => { k with em := 0xF0 })) (.trap 5 7)).map (fun c =>
    (c.t.core.trap.cause, c.t.core.trap.extra, c.t.core.trap.h, c.t.core.pc)) = some (0x25, 0x1234, true, 0x20000) := by decide +kernel

/-- 5, the worked case of pre-emption: the image of its crew takes 98,304 bytes. -/
theorem test_imageBytes : imageBytes { probeLaunch with warps := 2, regs8 := 8, globals := 0, tiles := 16, crewmem := 32768 } = 98304 := by decide +kernel

end

end Sys2Proof.Tests
end

