-- ==== Sys2Proof/Tests/WitnessA.lean ====
section
/-!
SUPPORT. Witnesses of the statements about scalars, vector registers, masks and floating-point instructions: a state and
operands that meet the hypotheses of each clause together.
-/

set_option Elab.async false

namespace Sys2Proof.Tests

open Sys2Proof Sys2Proof.Machine Sys2Proof.Rules

noncomputable section

/-- ScalarArithmetic (every clause), and MaskInstructions, SystemInstructions, SpecialRegisters where they ask no more. -/
theorem witness_scalar : ∃ (s : State) (c : Cur), Ready s c 1 .none ∧ Room c c :=
  ⟨plain, seen plain, plain_ready 1 .none (by decide), plain_room⟩

/-- ScalarBits: fields at both ends of their range, with and without S, and fields outside it. -/
theorem witness_ScalarBits : ∃ (s : State) (c : Cur), Ready s c 1 .none ∧ Room c c ∧
    FieldOk (control c (.imm 0x1000)) ∧ FieldOk (control c (.imm 0x07F)) ∧ FieldOk (control c (.imm 0x207F)) ∧
    signOf (control c (.imm 0x1000)) = false ∧ signOf (control c (.imm 0x207F)) = true ∧
    ¬ FieldOk (control c (.imm 0)) ∧ ¬ FieldOk (control c (.imm 0x1001)) ∧ ¬ FieldOk (control c (.imm 0x1040)) ∧
    FieldOk (control c (.reg 3)) :=
  ⟨dress plain (scalars [(3, 0x1FC0000000000040)]), _, ready_of _ 1 .none (by decide +kernel), .inl (by decide +kernel),
    by unfold FieldOk; decide +kernel, by unfold FieldOk; decide +kernel, by unfold FieldOk; decide +kernel, by decide +kernel,
    by decide +kernel, by unfold FieldOk; decide +kernel, by unfold FieldOk; decide +kernel, by unfold FieldOk; decide +kernel,
    by unfold FieldOk; decide +kernel⟩

/-- What every vector statement asks of the state, with sources of every tag. -/
theorem plain_vector (t : Tag) (ok : Tag → Bool) (ht : t ≠ .poison) (hk : ok t = true) :
    Ready plain (seen plain) 1 .none ∧ Room (seen plain) (seen plain) ∧ (seen plain).width ≤ 64 ∧
      (seen plain).regOk (vr 20) = true ∧ Source (seen plain) (regOf t) ok :=
  ⟨plain_ready 1 .none (by decide), plain_room, by rw [plain_width]; decide, plain_reg 20, plain_source t ok ht hk⟩

/-- VectorArithmetic, its arithmetic clauses, at every type. -/
theorem witness_VectorArithmetic (t : Tag) (h : arithType t = true) : ∃ (s : State) (c : Cur) (o : VOps) (i : VIOps),
    o.t = t ∧ i.t = t ∧ o.g.wf = true ∧ i.g.wf = true ∧ Ready s c 1 .none ∧ Room c c ∧ c.regOk o.vd = true ∧
      Source c o.va (arithSource o.t) ∧ Source c o.vb (arithSource o.t) ∧ c.regOk i.vd = true ∧ Source c i.va (arithSource i.t) := by
  have hs := plain_source t (arithSource t) (by rintro rfl; simp [arithType] at h)
    (by revert h; cases t <;> decide)
  exact ⟨plain, seen plain, ⟨vr 20, regOf t, regOf t, t, g0⟩, ⟨vr 20, regOf t, 1, t, g0⟩, rfl, rfl, rfl, rfl,
    plain_ready 1 .none (by decide), plain_room, plain_reg 20, hs, hs, plain_reg 20, hs⟩

/-- VectorArithmetic, its bitwise clauses, at every type and source tag. -/
theorem witness_VectorBitwise (t u : Tag) (h : bitType t = true) (hu : u ≠ .poison) : ∃ (s : State) (c : Cur) (o : VOps),
    o.t = t ∧ o.g.wf = true ∧ Ready s c 1 .none ∧ Room c c ∧ c.regOk o.vd = true ∧ Source c o.va anyTag ∧
      (c.vr o.va).tag = u ∧ bitType o.t = true :=
  ⟨plain, seen plain, ⟨vr 20, regOf u, regOf u, t, g0⟩, rfl, rfl, plain_ready 1 .none (by decide), plain_room, plain_reg 20,
    plain_source u anyTag hu rfl, plain_tag u hu, h⟩

/-- VectorArithmetic, its carry chains: VADDC, VSUBB and VMAD64. -/
theorem witness_CarryChains (u : Tag) (hu : limbTag u = true) : ∃ (s : State) (c : Cur) (o : VCarryOps) (m : VMadOps) (hi : VReg),
    o.g.wf = true ∧ o.t ∈ [Tag.i32, .u32] ∧ Ready s c 1 .none ∧ Room c c ∧ c.width ≤ 64 ∧ c.regOk o.vd = true ∧
      Source c o.va limbTag ∧ (c.vr o.va).tag = u ∧ m.g.wf = true ∧ m.vd.code % 2 = 0 ∧ hi.code = m.vd.code + 1 ∧
      c.regOk m.vd = true ∧ c.regOk hi = true ∧ Source c m.va limbTag ∧ Source c m.vb limbTag ∧ Source c m.vc limbTag := by
  have hp : u ≠ .poison := by rintro rfl; simp [limbTag] at hu
  have hs := plain_source u limbTag hp hu
  exact ⟨plain, seen plain, ⟨vr 20, regOf u, regOf u, 1, 1, .u32, g0⟩, ⟨vr 254, regOf u, regOf u, regOf u, 0, g0⟩, vr 255, rfl,
    by simp, plain_ready 1 .none (by decide), plain_room, by rw [plain_width]; decide, plain_reg 20, hs, plain_tag u hp, rfl,
    by simp [vr, VReg.code], by simp [vr, VReg.code], plain_reg 254, plain_reg 255, hs, hs, hs⟩

/-- VectorComparesAndMoves: VCMP, VSEL of equal and of different tags, VMOV, VLI, and VLI.HI of a clean and of a POISON register. -/
theorem witness_VectorComparesAndMoves : ∃ (s : State) (c : Cur), Ready s c 1 .none ∧ Room c c ∧ c.width ≤ 64 ∧
    c.regOk (vr 20) = true ∧ Source c (vr 1) (arithSource .i32) ∧ Source c (vr 2) (arithSource .i32) ∧ Source c (vr 3) anyTag ∧
      (c.vr (vr 1)).tag ≠ (c.vr (vr 2)).tag ∧ c.regOk (vr 17) = true ∧ (c.vr (vr 17)).tag = .poison ∧ bitType .e8m0x4 = true :=
  ⟨plain, seen plain, plain_ready 1 .none (by decide), plain_room, by rw [plain_width]; decide, plain_reg 20,
    plain_source .i32 _ (by decide) rfl, plain_source .u32 _ (by decide) rfl, plain_source .f32 _ (by decide) rfl,
    by decide +kernel, plain_reg 17, by decide +kernel, rfl⟩

/-- VectorBitsAndDots: sources of VBIT, and the three sets of VDOT4's, by their own tags and by RAW. -/
theorem witness_VectorBitsAndDots : ∃ (s : State) (c : Cur), Ready s c 1 .none ∧ Room c c ∧ c.regOk (vr 20) = true ∧
    Source c (regOf .i32) wordOnly ∧ Source c (regOf .u32) wordOnly ∧ Source c (regOf .raw) wordOnly ∧
      ∀ p ∈ vdotTable, Source c (regOf p.2.2.1) (orRaw p.2.2.1) ∧ Source c (regOf p.2.2.2.1) (orRaw p.2.2.2.1) ∧
        Source c (regOf p.2.2.2.2) (orRaw p.2.2.2.2) ∧ Source c (regOf .raw) (orRaw p.2.2.1) := by
  refine ⟨plain, seen plain, plain_ready 1 .none (by decide), plain_room, plain_reg 20, plain_source .i32 _ (by decide) rfl,
    plain_source .u32 _ (by decide) rfl, plain_source .raw _ (by decide) rfl, ?_⟩
  intro p hp
  simp only [vdotTable, List.mem_cons, List.not_mem_nil, or_false] at hp
  rcases hp with rfl | rfl | rfl <;>
    exact ⟨plain_source _ _ (by decide) rfl, plain_source _ _ (by decide) rfl, plain_source _ _ (by decide) rfl,
      plain_source .raw _ (by decide) rfl⟩

/-- CrossLaneMoves: lane numbers on both sides of the width. -/
theorem witness_CrossLaneMoves : ∃ (s : State) (c : Cur) (o p : ShflOps) (v w : VtosOps), Ready s c 1 .none ∧ Room c c ∧
    o.g.wf = true ∧ p.g.wf = true ∧ c.regOk o.vd = true ∧ c.regOk p.vd = true ∧ Source c o.va anyTag ∧ Source c p.va anyTag ∧
      o.d.val < c.width ∧ c.width ≤ p.d.val ∧ Source c v.va anyTag ∧ Source c w.va anyTag ∧ v.n.val < c.width ∧
      c.width ≤ w.n.val ∧ bitType .u32 = true := by
  have hs := plain_source .u32 anyTag (by decide) rfl
  exact ⟨plain, seen plain, ⟨vr 20, regOf .u32, 31, g0⟩, ⟨vr 20, regOf .u32, 32, g0⟩, ⟨5, regOf .u32, 31⟩, ⟨5, regOf .u32, 32⟩,
    plain_ready 1 .none (by decide), plain_room, rfl, rfl, plain_reg 20, plain_reg 20, hs, hs, by rw [plain_width]; decide,
    by rw [plain_width]; decide, hs, hs, by rw [plain_width]; decide, by rw [plain_width]; decide, rfl⟩

/-- Reductions: each operation with a type and a source that it accepts. -/
theorem witness_Reductions : (∀ p ∈ reduceTable, ∃ (s : State) (c : Cur) (o : VUnOps) (x : VscanOps), o.g.wf = true ∧
      x.g.wf = true ∧ p.2.2.2.1 o.t = true ∧ p.2.2.2.1 x.t = true ∧ Ready s c 1 .none ∧ Room c c ∧ c.regOk o.vd = true ∧
      Source c o.va (p.2.2.2.2 o.t) ∧ x.vd = o.vd ∧ x.va = o.va) ∧
    (∃ (s : State) (c : Cur) (o : VUnOps), o.g.wf = true ∧ o.t = .f32 ∧ Ready s c 1 .none ∧ Room c c ∧ c.regOk o.vd = true ∧
      Source c o.va (· == .f32) ∧ c.width ≤ 64) := by
  constructor
  · intro p hp
    simp only [reduceTable, List.mem_cons, List.not_mem_nil, or_false] at hp
    rcases hp with rfl | rfl | rfl | rfl | rfl | rfl <;>
      exact ⟨plain, seen plain, ⟨vr 20, regOf .u32, .u32, g0⟩, ⟨vr 20, regOf .u32, .u32, true, g0⟩, rfl, rfl, rfl, rfl,
        plain_ready 1 .none (by decide), plain_room, plain_reg 20, plain_source .u32 _ (by decide) rfl, rfl, rfl⟩
  · exact ⟨plain, seen plain, ⟨vr 20, regOf .f32, .f32, g0⟩, rfl, rfl, plain_ready 1 .none (by decide), plain_room,
      plain_reg 20, plain_source .f32 _ (by decide) rfl, by rw [plain_width]; decide⟩

/-- MasksAndTags: EM within the width for the votes, tag codes of each range, and a POISON register. -/
theorem witness_MasksAndTags : ∃ (s : State) (c : Cur), Ready s c 1 .none ∧ Room c c ∧ c.width ≤ 64 ∧ InWidth c c.em ∧
    c.regOk (vr 17) = true ∧ (c.vnow (vr 17)).tag = .poison ∧ (16 : BitVec 5).toNat ≤ 16 ∧ (31 : BitVec 5).toNat = 31 ∧
      16 < (17 : BitVec 5).toNat ∧ (30 : BitVec 5).toNat < 31 ∧ Source c (vr 1) anyTag := by
  refine ⟨plain, seen plain, plain_ready 1 .none (by decide), plain_room, by rw [plain_width]; decide, ?_, plain_reg 17,
    by decide +kernel, by decide, by decide, by decide, by decide, plain_source .i32 _ (by decide) rfl⟩
  intro l hl
  have he : (seen plain).em = 0xFFFFFFFF := by decide +kernel
  rw [plain_width] at hl
  rw [he]
  show decide (_ = 1) = false
  simp only [decide_eq_false_iff_not]
  have h0 : (0xFFFFFFFF : BitVec 64).toNat / 2 ^ l = 0 := by
    apply Nat.div_eq_of_lt
    calc (0xFFFFFFFF : BitVec 64).toNat < 2 ^ 32 := by decide
      _ ≤ 2 ^ l := Nat.pow_le_pow_right (by decide) hl
  rw [h0]; decide

/-- FloatArithmetic: the three types, with an override of the mode and without one. -/
theorem witness_FloatArithmetic (t : Tag) (h : wideType t = true) : ∃ (s : State) (c : Cur) (o : FOps) (x : FfmaOps),
    o.t = t ∧ x.t = t ∧ o.g.wf = true ∧ x.g.wf = true ∧ Ready s c 1 .none ∧ Room c c ∧ c.regOk o.vd = true ∧
      Source c o.va (· == o.t) ∧ Source c o.vb (· == o.t) ∧ c.regOk x.vd = true ∧ Source c x.va (· == x.t) ∧
      Source c x.vb (· == x.t) ∧ Source c x.vc (· == x.t) ∧ Source c (regOf .i32) (orRaw .i32) := by
  have hs := plain_source t (· == t) (by rintro rfl; simp [wideType] at h) (by simp)
  exact ⟨plain, seen plain, ⟨vr 20, regOf t, regOf t, t, none, g0⟩, ⟨vr 20, regOf t, regOf t, regOf t, t, some .rtz, g0⟩, rfl, rfl,
    rfl, rfl, plain_ready 1 .none (by decide), plain_room, plain_reg 20, hs, hs, plain_reg 20, hs, hs, hs,
    plain_source .i32 _ (by decide) rfl⟩

/-- FloatComparesAndConversions: a compare of either element, a class of the last element, and every pair of types of CVT. -/
theorem witness_FloatComparesAndConversions : ∃ (s : State) (c : Cur) (o : FcmpOps) (k : FclassOps), o.g.wf = true ∧
    wideType o.t = true ∧ (o.e = true → o.t ≠ .f32) ∧ o.e = true ∧ Ready s c 1 .none ∧ Room c c ∧ c.width ≤ 64 ∧
      Source c o.va (· == o.t) ∧ k.g.wf = true ∧ k.t ∈ floatTypes ∧ k.e.val < k.t.elems ∧ c.regOk k.vd = true ∧
      Source c k.va (· == k.t) ∧
      (∀ t u : Tag, t ∈ floatTypes ∨ arithType t = true → u ∈ floatTypes ∨ arithType u = true →
        ∃ x : CvtOps, x.src = t ∧ x.dst = u ∧ x.wf = true ∧ c.regOk x.vd = true ∧ Source c x.va (· == x.src)) ∧
      (CvtOps.mk (vr 20) (regOf .f32) 3 .f32 .e4m3x4 false none g0).wf = true ∧
      (CvtOps.mk (vr 20) (regOf .i32) 0 .i32 .i32 true none g0).wf = true := by
  refine ⟨plain, seen plain, ⟨1, regOf .f16x2, regOf .f16x2, .f16x2, true, g0⟩, ⟨vr 20, regOf .e2m1x8, .e2m1x8, 7, g0⟩, rfl, rfl,
    by decide, rfl, plain_ready 1 .none (by decide), plain_room, by rw [plain_width]; decide, plain_source _ _ (by decide) rfl,
    rfl, by decide, by decide, plain_reg 20, plain_source _ _ (by decide) rfl, ?_, by decide, by decide⟩
  intro t u ht hu
  refine ⟨⟨vr 20, regOf t, 0, t, u, false, none, g0⟩, rfl, rfl, ?_, plain_reg 20, plain_source t _ ?_ (by simp)⟩
  · revert ht hu; cases t <;> cases u <;> decide
  · rintro rfl; revert ht; decide

/-- SpecialFunctions: with a flag and without one. -/
theorem witness_SpecialFunctions : ∃ (s : State) (c : Cur) (o : FsfOps), o.g.wf = true ∧ wideType o.t = true ∧ o.cf = .a ∧
    Ready s c 1 o.cf ∧ Room c c ∧ c.regOk o.vd = true ∧ Source c o.va (· == o.t) :=
  ⟨plain, seen plain, ⟨vr 20, regOf .f32, .f32, none, g0, .a⟩, rfl, rfl, rfl, plain_ready 1 .a (by decide), plain_room,
    plain_reg 20, plain_source .f32 _ (by decide) rfl⟩

/-- SpecialFunctions, special inputs: a negative finite input of F32. -/
theorem witness_SpecialInputs : ∃ (t : Tag) (acr : BitVec 10) (x : Nat), wideType t = true ∧ x < 2 ^ t.bits ∧
    flushIn (ffmtOf t) acr x = .fin true (2 ^ 23) (-23) := by
  refine ⟨.f32, 0, 0xBF800000, rfl, by decide, ?_⟩
  unfold flushIn
  rw [if_neg (by rintro ⟨h, -⟩; revert h; decide)]
  decide +kernel

/-- Microscaling: quantising into one part and dequantising from it. -/
theorem witness_Microscaling : ∃ (s : State) (c : Cur) (o x : CvtmxOps), o.wf = true ∧ x.wf = true ∧ Ready s c 1 o.cf ∧
    Ready s c 1 x.cf ∧ Room c c ∧ c.width ≤ 64 ∧ c.regOk o.vd = true ∧ c.regOk o.vc = true ∧ o.vc ≠ o.vd ∧ o.vc ≠ o.va ∧
      32 ≤ c.width * o.wide.elems ∧ Source c o.va (· == o.wide) ∧ c.regOk x.vd = true ∧ c.regOk x.vc = true ∧ x.vc ≠ x.vd ∧
      x.vc ≠ x.va ∧ 32 ≤ c.width * x.wide.elems ∧ Source c x.va (· == x.mx) ∧ Source c x.vc (· == .e8m0x4) :=
  ⟨plain, seen plain, ⟨vr 20, regOf .f32, vr 30, 3, 3, .f32, .e4m3x4, none, g0, .b⟩,
    ⟨vr 20, regOf .e2m1x8, regOf .e8m0x4, 3, 0, .f16x2, .e2m1x8, none, g0, .none⟩, by decide, by decide,
    plain_ready 1 .b (by decide), plain_ready 1 .none (by decide), plain_room, by rw [plain_width]; decide, plain_reg 20,
    plain_reg 30, by decide, by decide, by rw [plain_width]; decide, plain_source .f32 _ (by decide) rfl, plain_reg 20,
    plain_reg _, by decide, by decide, by rw [plain_width]; decide, plain_source .e2m1x8 _ (by decide) rfl,
    plain_source .e8m0x4 _ (by decide) rfl⟩

/-- RoundingAndFormats: a value between two representable ones, an encoding that is no NaN, and finite operands. -/
theorem witness_RoundingAndFormats : Tag.f32 ∈ floatTypes ∧ finite (.fin false 0x1000001 (-24)) ∧
    |valueOf (.fin false 0x1000001 (-24))| ≤ valueOf (fF32.read fF32.maxBits) ∧ (1 : Nat) < 2 ^ Tag.f32.bits ∧
      fF32.read 1 ≠ .nan ∧ finite (.zero true) := by
  have hm : fF32.read fF32.maxBits = .fin false 16777215 104 := by decide +kernel
  refine ⟨by decide, by show 0 < _; decide, ?_, by decide, by decide +kernel, trivial⟩
  rw [hm]; norm_num [valueOf]

end

end Sys2Proof.Tests
end

