-- ==== Sys2Proof/Tests/WitnessK.lean ====
section
/-!
SUPPORT. Witnesses of the statements about coherence.
-/

set_option Elab.async false

namespace Sys2Proof.Tests

open Sys2Proof Sys2Proof.Machine Sys2Proof.Rules

noncomputable section

/-- Words of a line in rising order, as a test. -/
def rises (ws : List (Nat × CSt)) : Bool := decide (ws.Pairwise (fun x y => x.1 < y.1)) && ws.all (fun x => decide (x.1 < 32))

/-- An exact pointer of the entry, as a test. -/
def pointsTo (d : DirLine) (k w : Nat) (st : CSt) : Bool := d.ptrs.any (fun p => p.core == k && p.words.contains (w, st))

/-- Lists that hold each thing once, in their bounds. -/
def tidyCaches (c : Caches) : Bool :=
  decide ((c.l1.map (fun x => (x.core, x.line))).Nodup) && decide ((c.dir.map (·.line)).Nodup) &&
    c.dir.all (fun d => decide ((d.ptrs.map (·.core)).Nodup) && decide (d.ptrs.length ≤ 4) && d.coarse.all (fun g => decide (g < 96)) &&
      d.ptrs.all (fun p => decide (p.core < 768) && rises p.words && !p.words.isEmpty)) &&
    c.l1.all (fun x => decide (x.core < 768) && rises x.words)

/-- L1s and directory agree. -/
def agreeCaches (c : Caches) : Bool :=
  c.dir.all (fun d => d.ptrs.all (fun p => p.words.all (fun v => c.held p.core d.line v.1 == some v.2))) &&
    c.l1.all (fun x => x.words.all (fun v => pointsTo (c.entry x.line) x.core v.1 v.2 ||
      (v.2 == .s && (c.entry x.line).coarse.contains (x.core / 8))))

/-- Words have one owner, and one that is M or E is in one L1. -/
def ownCaches (c : Caches) : Bool :=
  c.dir.all (fun d => d.ptrs.all (fun p => d.ptrs.all (fun q => p.words.all (fun a => q.words.all (fun b =>
    !(a.1 == b.1 && a.2.owns && b.2.owns) || p.core == q.core))))) &&
    c.l1.all (fun x => c.l1.all (fun y => x.words.all (fun a => y.words.all (fun b =>
      !(x.line == y.line && a.1 == b.1 && (a.2 == .m || a.2 == .e)) || y.core == x.core))))

theorem held_mem {c : Caches} {k line w : Nat} {st : CSt} (h : c.held k line w = some st) :
    ∃ x ∈ c.l1, x.core = k ∧ x.line = line ∧ (w, st) ∈ x.words := by
  unfold Caches.held at h
  cases hf : c.l1.find? (fun x => x.core == k && x.line == line) with
  | none => rw [hf] at h; simp at h
  | some x =>
    rw [hf] at h
    have hp := List.find?_some hf
    simp only [Bool.and_eq_true, beq_iff_eq] at hp
    simp only [Option.map_some, Option.bind_some, stateOf, Option.map_eq_some_iff] at h
    obtain ⟨v, hv, rfl⟩ := h
    have he : v.1 = w := by simpa using List.find?_some hv
    exact ⟨x, List.mem_of_find?_eq_some hf, hp.1, hp.2, by rw [← he]; exact List.mem_of_find?_eq_some hv⟩

theorem pointsTo_iff {d : DirLine} {k w : Nat} {st : CSt} : pointsTo d k w st = true ↔ Points d k w st := by
  simp [pointsTo, Points]

theorem rises_iff {ws : List (Nat × CSt)} : rises ws = true ↔ Rising ws := by
  simp [rises, Rising]

theorem coherent_of {c : Caches} (ht : tidyCaches c = true) (ha : agreeCaches c = true) (ho : ownCaches c = true) : Coherent c := by
  simp only [tidyCaches, Bool.and_eq_true, decide_eq_true_eq, List.all_eq_true, rises_iff, Bool.not_eq_true', List.isEmpty_eq_false_iff] at ht
  simp only [agreeCaches, Bool.and_eq_true, List.all_eq_true, beq_iff_eq, Bool.or_eq_true, pointsTo_iff, List.contains_eq_mem,
    decide_eq_true_eq] at ha
  simp only [ownCaches, Bool.and_eq_true, List.all_eq_true, Bool.or_eq_true, Bool.not_eq_true', beq_iff_eq] at ho
  obtain ⟨⟨⟨t1, t2⟩, t3⟩, t4⟩ := ht
  refine ⟨⟨t1, t2, fun d hd => (t3 d hd).1.1.1⟩, fun d hd => (t3 d hd).1.1.2,
    ⟨fun x hx => (t4 x hx).1, fun d hd => ⟨fun p hp => ((t3 d hd).2 p hp).1.1, (t3 d hd).1.2⟩⟩,
    ⟨fun x hx => (t4 x hx).2, fun d hd p hp => ⟨((t3 d hd).2 p hp).1.2, ((t3 d hd).2 p hp).2⟩⟩, ?_, ?_, ?_, ?_⟩
  · rintro d hd k w st ⟨p, hp, rfl, hv⟩
    exact ha.1 d hd p hp _ hv
  · intro k line w st h
    obtain ⟨x, hx, rfl, rfl, hv⟩ := held_mem h
    exact ha.2 x hx _ hv
  · rintro d hd k j w a b ⟨p, hp, rfl, hv⟩ ⟨q, hq, rfl, hu⟩ h1 h2
    have := ho.1 d hd p hp q hq _ hv _ hu
    simpa [h1, h2] using this
  · intro k j line w h1 h2
    obtain ⟨b, h2⟩ := Option.ne_none_iff_exists'.1 h2
    obtain ⟨y, hy, rfl, e, hu⟩ := held_mem h2
    rcases h1 with h1 | h1 <;> obtain ⟨x, hx, rfl, rfl, hv⟩ := held_mem h1 <;> simpa [e] using ho.2 x hx y hy _ hv _ hu

/-- The last word of line 7 in one core, in a state. -/
def oneHolder (k : Nat) (st : CSt) : Caches := ⟨[⟨k, 7, [(31, st)]⟩], [⟨7, [⟨k, [(31, st)]⟩], []⟩], [7]⟩

/-- The last word of line 7 shared by a core of a marked group. -/
def markedHolder : Caches := ⟨[⟨5, 7, [(31, .s)]⟩], [⟨7, [], [0]⟩], [7]⟩

/-- The last word of line 7 shared by four cores, one pointer each. -/
def fourHolders : Caches :=
  ⟨[0, 9, 18, 27].map (fun k => ⟨k, 7, [(31, .s)]⟩), [⟨7, [0, 9, 18, 27].map (fun k => ⟨k, [(31, .s)]⟩), []⟩], [7]⟩

theorem coherent_oneHolder (k : Nat) (st : CSt) (hk : k ∈ [5, 767]) : Coherent (oneHolder k st) := by
  simp only [List.mem_cons, List.not_mem_nil, or_false] at hk
  rcases hk with rfl | rfl <;> cases st <;> exact coherent_of (by decide) (by decide) (by decide)

theorem coherent_empty : Coherent Caches.empty := coherent_of (by decide) (by decide) (by decide)
theorem coherent_marked : Coherent markedHolder := coherent_of (by decide) (by decide) (by decide)
theorem coherent_four : Coherent fourHolders := coherent_of (by decide) (by decide) (by decide)

theorem oneHolder_points (k : Nat) (st : CSt) : Points ((oneHolder k st).entry 7) k 31 st :=
  ⟨⟨k, [(31, st)]⟩, by simp [oneHolder, Caches.entry], rfl, by simp⟩

theorem oneHolder_only {k j : Nat} {st x : CSt} (h : Points ((oneHolder k st).entry 7) j 31 x) : x = st := by
  obtain ⟨p, hp, -, hv⟩ := h
  obtain rfl : p = ⟨k, [(31, st)]⟩ := by simpa [oneHolder, Caches.entry] using hp
  simpa using hv

theorem roomFor_one (k : Nat) (st : CSt) (core : Nat) : RoomFor (oneHolder k st) core 7 := .inl (by simp [oneHolder, Caches.entry])

/-- A request of one word by core `core`, with room in the entry. -/
structure Requests (c : Caches) (kind : CohKind) (core : Nat) : Prop where
  sound : Coherent c
  below : core < 768
  room  : RoomFor c core 7
  asked : ∃ c' ms, asks c kind core 7 31 c' ms

theorem requests_one (k : Nat) (st : CSt) (kind : CohKind) (hk : k ∈ [5, 767]) : Requests (oneHolder k st) kind 767 :=
  ⟨coherent_oneHolder k st hk, by decide, roomFor_one k st 767, _, _, rfl⟩

/-- CoherenceRequests: spans, whole lines and RCL; and each transition at the last word of a line, asked for by the last core: a word
that no core holds, one that another holds in each owning state, one that is shared by a pointer or a marked group, and the
requester's own. -/
theorem witness_CoherenceRequests :
    (∃ (c : Caches) (kind : CohKind) (core first count : Nat), Coherent c ∧ first + count ≤ 32 ∧ core < 768 ∧
      kind ∈ [CohKind.rdS, .rdX, .upg, .wbD, .evC, .rcl] ∧ (c.request kind core 7 first count).2 ≠ []) ∧
    (∀ kind ∈ [CohKind.rdS, .rdX], ∃ c, Requests c kind 767 ∧ (∀ k, c.held k 7 31 = none) ∧ (c.entry 7).coarse = []) ∧
    (∃ c k, Requests c .rdS 767 ∧ k ≠ 767 ∧ Points (c.entry 7) k 31 .e) ∧
    (∀ kind ∈ [CohKind.rdS, .rdX, .upg], ∃ c d, Requests c kind 767 ∧ Requests d kind 767 ∧
      (∀ k st, Points (c.entry 7) k 31 st → st = .s) ∧ (∀ k st, Points (d.entry 7) k 31 st → st = .s) ∧
      Points (c.entry 7) 5 31 .s ∧ Marked (d.entry 7) 5) ∧
    (∀ kind ∈ [CohKind.rdS, .rdX, .upg], ∀ st ∈ [CSt.m, .o], ∃ c k, Requests c kind 767 ∧ k ≠ 767 ∧ Points (c.entry 7) k 31 st) ∧
    (∀ p ∈ [(CohKind.rdX, CSt.e), (.upg, .e), (.wbD, .m), (.wbD, .o), (.evC, .e), (.evC, .s)],
      ∃ c, Requests c p.1 767 ∧ Points (c.entry 7) 767 31 p.2) ∧
    (∀ st, ∃ c k, Requests c .rcl 767 ∧ (MayShare c k 7 31 ∨ ∃ x, Points (c.entry 7) k 31 x) ∧ Points (c.entry 7) k 31 st) ∧
    (∃ (c : Caches) (core : Nat), Coherent c ∧ ¬ RoomFor c core 7 ∧ (∀ p ∈ (c.entry 7).ptrs, ∀ x ∈ p.words, x.2 = .s) ∧
      ∃ k, MayShare c k 7 31) := by
  refine ⟨⟨oneHolder 5 .m, .rdS, 767, 0, 32, coherent_oneHolder 5 .m (by decide), by decide, by decide, by decide, by decide +kernel⟩,
    fun kind _ => ⟨Caches.empty, ⟨coherent_empty, by decide, .inl (by decide), _, _, rfl⟩, fun k => rfl, rfl⟩,
    ⟨oneHolder 5 .e, 5, requests_one 5 .e _ (by decide), by decide, oneHolder_points 5 .e⟩,
    fun kind _ => ⟨oneHolder 5 .s, markedHolder, requests_one 5 .s kind (by decide),
      ⟨coherent_marked, by decide, .inl (by decide), _, _, rfl⟩, fun _ _ => oneHolder_only,
      fun k st h => absurd h (by rintro ⟨p, hp, -⟩; simp [markedHolder, Caches.entry] at hp), oneHolder_points 5 .s, by unfold Marked; decide⟩,
    fun kind _ st _ => ⟨oneHolder 5 st, 5, requests_one 5 st kind (by decide), by decide, oneHolder_points 5 st⟩,
    fun p _ => ⟨oneHolder 767 p.2, requests_one 767 p.2 p.1 (by decide), oneHolder_points 767 p.2⟩,
    fun st => ⟨oneHolder 5 st, 5, requests_one 5 st .rcl (by decide), .inr ⟨st, oneHolder_points 5 st⟩, oneHolder_points 5 st⟩,
    ⟨fourHolders, 767, coherent_four, ?_, by decide, 0, .inl ⟨⟨0, [(31, .s)]⟩, by decide, rfl, by decide⟩⟩⟩
  rintro (h | ⟨p, hp, h⟩)
  · exact absurd h (by decide)
  · have : ∀ p ∈ (fourHolders.entry 7).ptrs, p.core ≠ 767 := by decide
    exact this p hp h

/-- A PREF of one word at s3 with hint 7. -/
def dropOps : SpanOps := ⟨0, none, 3, 0, g0, 7⟩

/-- The strand's core holds the word at s3 in a state. -/
def caching (st : CSt) : State :=
  { based with caches := ⟨[⟨0, 0x600, [(0, st)]⟩], [⟨0x600, [⟨0, [(0, st)]⟩], []⟩], []⟩ }

/-- CacheContents: loads with and without allocation and stores in caches that agree, a recall; and a PREF with hint 0x7 of a word
that the core holds in each state. -/
theorem witness_CacheContents :
    (∃ (c : Caches) (core : Nat) (ws : List Nat), Coherent c ∧ core < 768 ∧ ws ≠ [] ∧ c.l1 ≠ []) ∧
    (∀ st, ∃ (s : State) (c : Cur) (o : SpanOps) (v : Nat), o.g.wf = true ∧ Ready s c 1 .none ∧ Fits c ∧ VaddrOk c o.va ∧
      o.hint = 7 ∧ Coherent s.caches ∧
      (∀ l lf, inLanes c (c.enabled o.g) l → s.translate c.ctx (spanEa c o l) XReq.load = .ok lf → lf.pol = 0) ∧
      PrefWord s c o v ∧ s.caches.held c.crew.core (v / 32) (v % 32) = some st) := by
  refine ⟨⟨oneHolder 5 .m, 767, [255], coherent_oneHolder 5 .m (by decide), by decide, by decide, by decide⟩, fun st => ?_⟩
  have low : isLow (caching st) = true := by cases st <;> decide +kernel
  have ea : ∀ l, inLanes (seen (caching st)) ((seen (caching st)).enabled g0) l → spanEa (seen (caching st)) dropOps l = 0x30000 := by
    intro l _
    rw [show spanEa (seen (caching st)) dropOps l = spanEa (seen (caching st)) dropOps 0 by rfl]
    cases st <;> decide +kernel
  refine ⟨caching st, seen (caching st), dropOps, 0xC000, by decide, ready_of _ 1 .none (by cases st <;> decide +kernel), .inl (by cases st <;> decide +kernel),
    fun _ h => by simp [dropOps] at h, rfl,
    by cases st <;> exact coherent_of (by decide) (by decide) (by decide), ?_, ?_, ?_⟩
  · intro l lf hl h
    rw [ea l hl, low_translate low (by decide)] at h
    cases h
    rfl
  · have h0 : inLanes (seen (caching st)) ((seen (caching st)).enabled g0) 0 := by cases st <;> exact ⟨by decide +kernel, by decide +kernel⟩
    refine ⟨0, ⟨0x30000, 0, 0x1F, 3⟩, h0, ?_⟩
    rw [ea 0 h0]
    exact ⟨by decide, by decide, by decide, low_translate low (by decide) _, by decide, by decide⟩
  · cases st <;> decide +kernel

end

end Sys2Proof.Tests
end

