-- ==== Sys2Proof/Tests/WitnessL.lean ====
section
/-!
SUPPORT. Witnesses of the statements about special functions, rounding and exact sums.
-/

set_option Elab.async false

namespace Sys2Proof.Tests

open Sys2Proof Sys2Proof.Machine Sys2Proof.Rules

noncomputable section

theorem flushIn_zero (f : FFmt) (x : Nat) : flushIn f 0 x = f.read x := by
  unfold flushIn
  rw [if_neg]
  simp

/-- Encodings of one, two, minus one and the least subnormal, and their values. -/
theorem read_one : fF32.read 0x3F800000 = .fin false (2 ^ 23) (-23) := by decide +kernel
theorem read_neg : fF32.read 0xBF800000 = .fin true (2 ^ 23) (-23) := by decide +kernel
theorem read_two : fF32.read 0x40000000 = .fin false (2 ^ 23) (-22) := by decide +kernel
theorem read_least : fF32.read 1 = .fin false 1 (-149) := by decide +kernel

/-- SpecialInputs: every row of the table in each of the three formats. -/
theorem witness_specialRows : ∀ t, wideType t = true →
    (∃ (acr : BitVec 10) (x : Nat), x < 2 ^ t.bits ∧ flushIn (ffmtOf t) acr x = .nan) ∧
    (∀ neg, ∃ (acr : BitVec 10) (x : Nat), x < 2 ^ t.bits ∧ flushIn (ffmtOf t) acr x = .inf neg) ∧
    (∀ neg, ∃ (acr : BitVec 10) (x : Nat), x < 2 ^ t.bits ∧ flushIn (ffmtOf t) acr x = .zero neg) ∧
    (∃ (acr : BitVec 10) (x m : Nat) (e : Int), x < 2 ^ t.bits ∧ flushIn (ffmtOf t) acr x = .fin true m e) ∧
    (∃ (acr : BitVec 10) (x m : Nat) (e : Int), x < 2 ^ t.bits ∧ flushIn (ffmtOf t) acr x = .fin false m e ∧
      valueOf (flushIn (ffmtOf t) acr x) = 1) := by
  intro t ht
  have hx : ∃ a b n p q m e, a < 2 ^ t.bits ∧ b < 2 ^ t.bits ∧ n < 2 ^ t.bits ∧ p < 2 ^ t.bits ∧ q < 2 ^ t.bits ∧
      2 ^ (t.bits - 1) < 2 ^ t.bits ∧ 0 < 2 ^ t.bits ∧
      (ffmtOf t).read a = .nan ∧ (ffmtOf t).read b = .inf false ∧ (ffmtOf t).read n = .inf true ∧ (ffmtOf t).read 0 = .zero false ∧
      (ffmtOf t).read (2 ^ (t.bits - 1)) = .zero true ∧ (ffmtOf t).read p = .fin true m e ∧ (ffmtOf t).read q = .fin false m e ∧
      valueOf (.fin false m e) = 1 := by
    cases t <;> first | exact absurd ht (by decide) | skip
    · exact ⟨0x7FC00000, 0x7F800000, 0xFF800000, 0xBF800000, 0x3F800000, 2 ^ 23, -23, by decide +kernel⟩
    · exact ⟨0x7E00, 0x7C00, 0xFC00, 0xBC00, 0x3C00, 2 ^ 10, -10, by decide +kernel⟩
    · exact ⟨0x7FC0, 0x7F80, 0xFF80, 0xBF80, 0x3F80, 2 ^ 7, -7, by decide +kernel⟩
  obtain ⟨a, b, n, p, q, m, e, ha, hb, hn, hp, hq, hz, h0, ra, rb, rn, r0, rz, rp, rq, hv⟩ := hx
  refine ⟨⟨0, a, ha, by rw [flushIn_zero, ra]⟩, ?_, ?_, ⟨0, p, m, e, hp, by rw [flushIn_zero, rp]⟩,
    ⟨0, q, m, e, hq, by rw [flushIn_zero, rq], by rw [flushIn_zero, rq, hv]⟩⟩
  · rintro (_ | _)
    · exact ⟨0, b, hb, by rw [flushIn_zero, rb]⟩
    · exact ⟨0, n, hn, by rw [flushIn_zero, rn]⟩
  · rintro (_ | _)
    · exact ⟨0, 0, h0, by rw [flushIn_zero, r0]⟩
    · exact ⟨0, _, hz, by rw [flushIn_zero, rz]⟩

/-- SquareRoot: the least subnormal value of each format. -/
theorem witness_SquareRoot : ∀ t, wideType t = true → ∃ (acr : BitVec 10) (x : Nat), x < 2 ^ t.bits ∧
    0 < valueOf (flushIn (ffmtOf t) acr x) := by
  intro t ht
  refine ⟨0, 1, ?_, ?_⟩
  · cases t <;> first | exact absurd ht (by decide) | decide
  · rw [flushIn_zero]
    cases t <;> first | exact absurd ht (by decide) | decide +kernel

/-- NarrowFunctions: two, in either format, is no special input of any function. -/
theorem witness_NarrowFunctions : ∀ p ∈ fsfTable, p.2 ≠ .sqrt → ∀ t, t = Tag.f16x2 ∨ t = .bf16x2 → ∃ (acr : BitVec 10) (x : Nat),
    x < 2 ^ t.bits ∧ valueOf (flushIn (ffmtOf t) acr x) ≠ 0 ∧ p.2.special (flushIn (ffmtOf t) acr x) = none := by
  intro p hp hs t ht
  refine ⟨0, 0x4000, ?_⟩
  rw [flushIn_zero]
  simp only [fsfTable, List.mem_cons, List.not_mem_nil, or_false] at hp
  rcases hp with rfl | rfl | rfl | rfl | rfl | rfl | rfl | rfl <;> rcases ht with rfl | rfl <;>
    first | exact absurd rfl hs | exact ⟨by decide, by decide +kernel, by decide +kernel⟩

/-- ReciprocalBounds: FRCP of minus one, a power of two, and of the least subnormal, whose reciprocal overflows; FRSQ of one and of two. -/
theorem witness_ReciprocalBounds :
    (∀ fn, fn = SfFn.rcp ∨ fn = .rsq → ∃ (acr : BitVec 10) (x : Nat), x < 2 ^ 32 ∧ valueOf (flushIn fF32 acr x) ≠ 0 ∧
      (fn = .rcp ∨ fn = .rsq ∧ 0 < valueOf (flushIn fF32 acr x)) ∧ valueOf (flushIn fF32 acr x) = 2 ^ (1 : ℤ)) ∧
    (∃ (acr : BitVec 10) (x : Nat) (k : ℤ), x < 2 ^ 32 ∧ -126 ≤ -k ∧ -k ≤ 127 ∧ |valueOf (flushIn fF32 acr x)| = 2 ^ k ∧
      valueOf (flushIn fF32 acr x) < 0) ∧
    (∃ (acr : BitVec 10) (x : Nat), x < 2 ^ 32 ∧ valueOf (flushIn fF32 acr x) ≠ 0 ∧ 2 ^ 128 ≤ |valueOf (flushIn fF32 acr x)|⁻¹) ∧
    (∃ (acr : BitVec 10) (x : Nat) (k : ℤ), x < 2 ^ 32 ∧ valueOf (flushIn fF32 acr x) = 4 ^ k) := by
  refine ⟨fun fn h => ⟨0, 0x40000000, by decide, ?_, ?_, ?_⟩, ⟨0, 0xBF800000, 0, by decide, by decide, by decide, ?_, ?_⟩,
    ⟨0, 1, by decide, ?_, ?_⟩, ⟨0, 0x3F800000, 0, by decide, ?_⟩⟩
  · rw [flushIn_zero, read_two]; decide +kernel
  · refine h.imp_right (fun e => ⟨e, ?_⟩)
    rw [flushIn_zero, read_two]; decide +kernel
  · rw [flushIn_zero, read_two]; decide +kernel
  · rw [flushIn_zero, read_neg]; decide +kernel
  · rw [flushIn_zero, read_neg]; decide +kernel
  · rw [flushIn_zero, read_least]; decide +kernel
  · rw [flushIn_zero, read_least]; decide +kernel
  · rw [flushIn_zero, read_one]; decide +kernel

/-- SpecialFunctionBounds: each function at one; FEXP2 at 128; the sine and the cosine at -131072, outside their range. -/
theorem witness_SpecialFunctionBounds :
    (∀ fn ∈ [SfFn.exp2, .log2, .sin, .cos, .tanh], ∃ (acr : BitVec 10) (x : Nat), x < 2 ^ 32 ∧ valueOf (flushIn fF32 acr x) ≠ 0 ∧
      (fn = .log2 → 0 < valueOf (flushIn fF32 acr x)) ∧ valueOf (flushIn fF32 acr x) = 1) ∧
    (∃ (acr : BitVec 10) (x : Nat), x < 2 ^ 32 ∧ valueOf (flushIn fF32 acr x) = 128) ∧
    (∃ (acr : BitVec 10) (x : Nat), x < 2 ^ 32 ∧ valueOf (flushIn fF32 acr x) = -131072) := by
  refine ⟨fun fn _ => ⟨0, 0x3F800000, by decide, ?_, fun _ => ?_, ?_⟩, ⟨0, 0x43000000, by decide, ?_⟩, ⟨0, 0xC8000000, by decide, ?_⟩⟩ <;>
    rw [flushIn_zero] <;> decide +kernel

/-- Overflow: a value above the range of every format. -/
theorem witness_Overflow : ∀ t ∈ floatTypes, finite (.fin true 3 199) ∧ largest (ffmtOf t) < |valueOf (.fin true 3 199)| := by
  intro t ht
  refine ⟨by show 0 < 3; decide, ?_⟩
  revert t
  decide +kernel

/-- SpecialOperands and ValueOrder: a finite value that is zero and one that is not. -/
theorem witness_SpecialOperands : finite (.zero true) ∧ valueOf (.zero true) = 0 ∧ finite (.fin true 3 5) ∧ valueOf (.fin true 3 5) ≠ 0 :=
  ⟨trivial, rfl, by show 0 < 3; decide, by decide +kernel⟩

/-- ExactSums: a NaN; infinities of both signs; one infinity; finite terms whose sum is not zero, is zero, and is -0; no term. -/
theorem witness_ExactSums :
    (FNum.nan ∈ [FNum.nan]) ∧ (FNum.inf false ∈ [FNum.inf false, .inf true] ∧ FNum.inf true ∈ [FNum.inf false, .inf true]) ∧
    (∀ p, FNum.nan ∉ [FNum.inf p, .zero true] ∧ FNum.inf p ∈ [FNum.inf p, .zero true] ∧ FNum.inf (!p) ∉ [FNum.inf p, .zero true]) ∧
    (∀ x ∈ [FNum.fin false 1 0, .fin true 3 (-2)], finite x) ∧
    (∀ x ∈ [FNum.fin false 1 0, .fin true 1 0], finite x) ∧ (([FNum.fin false 1 0, .fin true 1 0].map valueOf).sum = 0) ∧
    (∀ x ∈ [FNum.zero true, .zero true], finite x) ∧ (([] : List FNum).map valueOf).sum = 0 := by
  refine ⟨by simp, by simp, fun p => by cases p <;> simp, ?_, ?_, by decide +kernel, ?_, rfl⟩ <;>
    intro x hx <;> simp only [List.mem_cons, List.not_mem_nil, or_false] at hx <;> rcases hx with rfl | rfl <;> simp [finite]

end

end Sys2Proof.Tests
end

/-!
PROOFS. Number formats (02): the statement RoundingAndFormats (O13).
-/

namespace Sys2Proof.Formats

open Sys2Proof Sys2Proof.Machine Sys2Proof.Rules

/-! ## Exact arithmetic (R41, R46, R248, R252)

A value is an integer multiple of a power of two, and sums,
products and comparisons are those of the integers at a common power. -/

/-- The sign of a value, as a factor. -/
def signFactor (neg : Bool) : ℚ := if neg then -1 else 1

theorem abs_signFactor_mul (neg : Bool) (v : ℚ) : |signFactor neg * v| = |v| := by
  cases neg <;> simp [signFactor]

theorem signFactor_mul_signFactor (s t : Bool) : signFactor s * signFactor t = signFactor (s != t) := by
  cases s <;> cases t <;> simp [signFactor]

/-! ### Values as integer multiples of a power of two. -/

theorem valueOf_fin (s : Bool) (m : ℕ) (e : ℤ) : valueOf (.fin s m e) = (sgn s m : ℚ) * 2 ^ e := by
  cases s <;> simp [valueOf, sgn]

theorem valueOf_fin_factor (s : Bool) (m : ℕ) (e : ℤ) : valueOf (.fin s m e) = signFactor s * (m * 2 ^ e) := mul_assoc _ _ _

theorem valueOf_fin_at {q e : ℤ} (h : q ≤ e) (s : Bool) (m : ℕ) :
    valueOf (.fin s m e) = ((sgn s m * 2 ^ (e - q).toNat : ℤ) : ℚ) * 2 ^ q := by
  have he : (2 : ℚ) ^ e = 2 ^ (e - q).toNat * 2 ^ q := by
    rw [← zpow_natCast, ← zpow_add₀ two_ne_zero, Int.toNat_of_nonneg (by omega), sub_add_cancel]
  rw [valueOf_fin, he]
  push_cast
  ring

theorem abs_valueOf_fin (s : Bool) (m : ℕ) (e : ℤ) : |valueOf (.fin s m e)| = m * 2 ^ e := by
  rw [valueOf_fin_factor, abs_signFactor_mul, abs_of_nonneg (by positivity)]

theorem valueOf_fin_pos {m : ℕ} (h : 0 < m) (e : ℤ) : 0 < valueOf (.fin false m e) := by
  simp only [valueOf, Bool.false_eq_true, if_false, one_mul]
  positivity

theorem valueOf_neg (a : FNum) : valueOf a.neg = -valueOf a := by
  rcases a with _ | s | s | ⟨_ | _, m, e⟩ <;> simp [FNum.neg, valueOf]

theorem valueOf_fin_neg {m : ℕ} (h : 0 < m) (e : ℤ) : valueOf (.fin true m e) < 0 := by
  have := valueOf_fin_pos h e
  rw [show FNum.fin true m e = (FNum.fin false m e).neg from rfl, valueOf_neg]
  linarith

theorem valueOf_fin_ne_zero {m : ℕ} (h : 0 < m) (s : Bool) (e : ℤ) : valueOf (.fin s m e) ≠ 0 := by
  cases s
  · exact (valueOf_fin_pos h e).ne'
  · exact (valueOf_fin_neg h e).ne

/-- The sign and the magnitude of a finite value. -/
theorem valueOf_eq_sign_mul_abs {a : FNum} (ha : finite a) : valueOf a = signFactor a.isNeg * |valueOf a| := by
  rcases a with _ | s | s | ⟨s, m, e⟩
  · exact ha.elim
  · exact ha.elim
  · simp [valueOf]
  · rw [abs_valueOf_fin]
    exact valueOf_fin_factor s m e

/-! ### Integer multiples as values. -/

theorem ofInt_zero (mode : Rm) (q : ℤ) : FNum.ofInt mode 0 q = .zero (decide (mode = .rdn)) := by
  cases mode <;> rfl

theorem ofInt_of_ne_zero (mode : Rm) {x : ℤ} (h : x ≠ 0) (q : ℤ) :
    FNum.ofInt mode x q = .fin (decide (x < 0)) x.natAbs q := by
  simp [FNum.ofInt, h]

theorem finite_ofInt (mode : Rm) (x q : ℤ) : finite (.ofInt mode x q) := by
  by_cases h : x = 0
  · subst h; rw [ofInt_zero]; trivial
  · rw [ofInt_of_ne_zero mode h]
    exact Int.natAbs_pos.mpr h

theorem valueOf_ofInt (mode : Rm) (x q : ℤ) : valueOf (.ofInt mode x q) = x * 2 ^ q := by
  by_cases h : x = 0
  · subst h; simp [ofInt_zero, valueOf]
  · have hs : sgn (decide (x < 0)) x.natAbs = x := by
      rw [sgn]
      simp only [decide_eq_true_eq]
      split <;> omega
    rw [ofInt_of_ne_zero mode h, valueOf_fin, hs]

theorem ofInt_of_value_zero (mode : Rm) {x q : ℤ} (h : (x : ℚ) * 2 ^ q = 0) :
    FNum.ofInt mode x q = .zero (decide (mode = .rdn)) := by
  have hx : x = 0 := by simpa [zpow_ne_zero] using h
  rw [hx, ofInt_zero]

/-! ### Sums and products of two values (R41). -/

/-- The integer that the sum of two values is, at the lower of their two powers. -/
theorem add_fin_fin (mode : Rm) (s t : Bool) (m n : ℕ) (e d : ℤ) :
    ∃ x q : ℤ, (FNum.fin s m e).add mode (.fin t n d) = .ofInt mode x q ∧
      valueOf (.fin s m e) + valueOf (.fin t n d) = x * 2 ^ q := by
  have he : (if e < d then e else d) ≤ e := by split <;> omega
  have hd : (if e < d then e else d) ≤ d := by split <;> omega
  refine ⟨_, _, rfl, ?_⟩
  rw [valueOf_fin_at he, valueOf_fin_at hd, ← add_mul]
  push_cast
  rfl

theorem add_exact (mode : Rm) {a b : FNum} (ha : finite a) (hb : finite b) :
    finite (a.add mode b) ∧ valueOf (a.add mode b) = valueOf a + valueOf b := by
  rcases a with _ | _ | s | ⟨s, m, e⟩ <;> rcases b with _ | _ | t | ⟨t, n, d⟩ <;> try contradiction
  case zero.zero =>
    simp only [FNum.add]
    split <;> exact ⟨trivial, by simp [valueOf]⟩
  case zero.fin => exact ⟨hb, by simp [FNum.add, valueOf]⟩
  case fin.zero => exact ⟨ha, by simp [FNum.add, valueOf]⟩
  case fin.fin =>
    obtain ⟨x, q, hadd, hval⟩ := add_fin_fin mode s t m n e d
    rw [hadd, hval]
    exact ⟨finite_ofInt _ _ _, valueOf_ofInt _ _ _⟩

/-- The sign of an exact zero sum. -/
theorem add_eq_zero (mode : Rm) {a b : FNum} (ha : finite a) (hb : finite b) (h : valueOf a + valueOf b = 0) :
    a.add mode b = .zero (if a = .zero true ∧ b = .zero true then true
      else if a = .zero false ∧ b = .zero false then false else decide (mode = .rdn)) := by
  rcases a with _ | _ | s | ⟨s, m, e⟩ <;> rcases b with _ | _ | t | ⟨t, n, d⟩ <;> try contradiction
  case zero.zero => cases s <;> cases t <;> cases mode <;> rfl
  case zero.fin =>
    rw [show valueOf (.zero s) = 0 from rfl, zero_add] at h
    exact (valueOf_fin_ne_zero hb t d h).elim
  case fin.zero =>
    rw [show valueOf (.zero t) = 0 from rfl, add_zero] at h
    exact (valueOf_fin_ne_zero ha s e h).elim
  case fin.fin =>
    obtain ⟨x, q, hadd, hval⟩ := add_fin_fin mode s t m n e d
    rw [hadd, ofInt_of_value_zero mode (hval ▸ h)]
    simp

theorem mul_exact {a b : FNum} (ha : finite a) (hb : finite b) :
    finite (a.mul b) ∧ valueOf (a.mul b) = valueOf a * valueOf b ∧ (a.mul b).isNeg = (a.isNeg != b.isNeg) := by
  rcases a with _ | _ | s | ⟨s, m, e⟩ <;> rcases b with _ | _ | t | ⟨t, n, d⟩ <;> try contradiction
  case zero.zero | zero.fin | fin.zero => exact ⟨trivial, by simp [FNum.mul, valueOf], rfl⟩
  case fin.fin =>
    refine ⟨Nat.mul_pos ha hb, ?_, rfl⟩
    rw [FNum.mul, valueOf_fin_factor, valueOf_fin_factor, valueOf_fin_factor, ← signFactor_mul_signFactor,
      zpow_add₀ two_ne_zero]
    push_cast
    ring

theorem neg_exact {a : FNum} (ha : finite a) : finite a.neg ∧ valueOf a.neg = -valueOf a ∧ a.neg.isNeg = !a.isNeg := by
  rcases a with _ | _ | s | ⟨s, m, e⟩ <;> try contradiction
  case zero | fin => exact ⟨ha, valueOf_neg _, rfl⟩

theorem exactSumsAndProducts : Rules.ExactSumsAndProducts :=
  ⟨fun mode _ _ ha hb => ⟨(add_exact mode ha hb).1, (add_exact mode ha hb).2, add_eq_zero mode ha hb⟩,
    fun _ _ => mul_exact, fun _ => neg_exact⟩

/-! ### NaN and infinite operands (R248). -/

theorem add_nan (mode : Rm) (a : FNum) : a.add mode .nan = .nan := by cases a <;> rfl
theorem mul_nan (a : FNum) : a.mul .nan = .nan := by cases a <;> rfl

theorem inf_mul (p : Bool) {a : FNum} (ha : finite a) :
    (FNum.inf p).mul a = (if valueOf a = 0 then .nan else .inf (p != a.isNeg)) ∧
      a.mul (.inf p) = (if valueOf a = 0 then .nan else .inf (a.isNeg != p)) := by
  rcases a with _ | _ | s | ⟨s, m, e⟩ <;> try contradiction
  case zero => exact ⟨rfl, rfl⟩
  case fin =>
    have h := valueOf_fin_ne_zero ha s e
    exact ⟨(if_neg h).symm, (if_neg h).symm⟩

theorem inf_add (mode : Rm) (p : Bool) {a : FNum} (ha : finite a) :
    (FNum.inf p).add mode a = .inf p ∧ a.add mode (.inf p) = .inf p := by
  rcases a with _ | _ | s | ⟨s, m, e⟩ <;> try contradiction
  case zero | fin => exact ⟨rfl, rfl⟩

theorem specialOperands : Rules.SpecialOperands := by
  refine ⟨fun mode a => ⟨rfl, add_nan mode a, rfl, mul_nan a⟩, fun mode p q => ⟨?_, rfl⟩, fun mode p a ha => ?_, rfl,
    fun p => rfl⟩
  · cases p <;> cases q <;> rfl
  · exact ⟨(inf_add mode p ha).1, (inf_add mode p ha).2, inf_mul p ha⟩

/-! ### The order of values (R252). -/

/-- The comparison of the model, on keys that order as the values do. -/
theorem threeWay_eq_compare {x y : ℤ} {v w : ℚ} (hlt : x < y ↔ v < w) (hgt : y < x ↔ w < v) :
    (if x < y then .lt else if y < x then .gt else .eq) = compare v w := by
  rcases lt_trichotomy v w with h | h | h
  · rw [if_pos (hlt.mpr h), compare_lt_iff_lt.mpr h]
  · rw [if_neg (by simp [hlt, h]), if_neg (by simp [hgt, h]), compare_eq_iff_eq.mpr h]
  · rw [if_neg (by simp [hlt, h.le]), if_pos (hgt.mpr h), compare_gt_iff_gt.mpr h]

theorem cmp_eq_compare {a b : FNum} (ha : finite a) (hb : finite b) : a.cmp b = compare (valueOf a) (valueOf b) := by
  have zero_value (s : Bool) : valueOf (.zero s) = 0 := rfl
  rcases a with _ | _ | s | ⟨s, m, e⟩ <;> rcases b with _ | _ | t | ⟨t, n, d⟩ <;> try contradiction
  case zero.zero => simp [FNum.cmp, zero_value]
  case zero.fin =>
    cases t
    · exact (compare_lt_iff_lt.mpr (valueOf_fin_pos hb d)).symm
    · exact (compare_gt_iff_gt.mpr (valueOf_fin_neg hb d)).symm
  case fin.zero =>
    cases s
    · exact (compare_gt_iff_gt.mpr (valueOf_fin_pos ha e)).symm
    · exact (compare_lt_iff_lt.mpr (valueOf_fin_neg ha e)).symm
  case fin.fin =>
    have he : (if e < d then e else d) ≤ e := by split <;> omega
    have hd : (if e < d then e else d) ≤ d := by split <;> omega
    have hpos : (0 : ℚ) < 2 ^ (if e < d then e else d) := by positivity
    rw [valueOf_fin_at he, valueOf_fin_at hd]
    apply threeWay_eq_compare <;> rw [mul_lt_mul_iff_left₀ hpos, Int.cast_lt]

theorem inf_cmp (p : Bool) {a : FNum} (ha : finite a) :
    (FNum.inf p).cmp a = (if p then .lt else .gt) ∧ a.cmp (.inf p) = (if p then .gt else .lt) := by
  rcases a with _ | _ | s | ⟨s, m, e⟩ <;> try contradiction
  case zero => cases p <;> exact ⟨rfl, rfl⟩
  case fin => cases p <;> cases s <;> exact ⟨rfl, rfl⟩

theorem valueOrder : Rules.ValueOrder := by
  refine ⟨fun a b ha hb => ?_, fun p a => inf_cmp p, fun p q => ?_⟩
  · rw [cmp_eq_compare ha hb]
    exact ⟨compare_lt_iff_lt, compare_eq_iff_eq, compare_gt_iff_gt⟩
  · cases p <;> cases q <;> rfl

/-! ### Sums of any number of terms (R46). -/

/-- The step of `FNum.sum` that finds the lowest power of two of the terms. -/
def lowerExp (q : Option ℤ) (x : FNum) : Option ℤ :=
  match x, q with
  | .fin _ _ e, some q => some (if e < q then e else q)
  | .fin _ _ e, none => some e
  | _, q => q

/-- The step of `FNum.sum` that adds a term, as a multiple of `2 ^ q`. -/
def addMultiple (q a : ℤ) (x : FNum) : ℤ :=
  match x with
  | .fin s m e => a + sgn s m * 2 ^ (e - q).toNat
  | _ => a

/-- The sum of finite terms, from the lowest power of two that they have; none where all are zeros. -/
def sumAt (xs : List FNum) : Option ℤ → FNum
  | none => .zero (!xs.isEmpty && xs.all (fun x => x == .zero true))
  | some q => .ofInt .rne (xs.foldl (addMultiple q) 0) q

theorem any_isNan (xs : List FNum) : xs.any FNum.isNan = decide (.nan ∈ xs) := by
  rw [Bool.eq_iff_iff, List.any_eq_true, decide_eq_true_iff]
  constructor
  · rintro ⟨_ | _ | _ | _, hx, h⟩
    · exact hx
    all_goals simp [FNum.isNan] at h
  · exact fun h => ⟨_, h, rfl⟩

theorem any_inf (xs : List FNum) (s : Bool) : xs.any (fun x => x == .inf s) = decide (.inf s ∈ xs) := by
  rw [Bool.eq_iff_iff]
  simp

theorem sum_of_finite {xs : List FNum} (h : ∀ x ∈ xs, finite x) : FNum.sum xs = sumAt xs (xs.foldl lowerExp none) := by
  have hnan : .nan ∉ xs := fun hx => h _ hx
  have hinf (s : Bool) : .inf s ∉ xs := fun hx => h _ hx
  unfold FNum.sum
  rw [any_isNan, any_inf, any_inf, decide_eq_false hnan, decide_eq_false (hinf _), decide_eq_false (hinf _)]
  rfl

theorem lowerExp_some (r : ℤ) (x : FNum) : ∃ p, lowerExp (some r) x = some p ∧ p ≤ r := by
  rcases x with _ | _ | _ | ⟨s, m, e⟩
  case fin => exact ⟨_, rfl, by split <;> omega⟩
  all_goals exact ⟨r, rfl, le_rfl⟩

theorem lowerExp_fin (o : Option ℤ) (s : Bool) (m : ℕ) (e : ℤ) : ∃ p, lowerExp o (.fin s m e) = some p ∧ p ≤ e := by
  rcases o with _ | r
  case none => exact ⟨e, rfl, le_rfl⟩
  case some => exact ⟨_, rfl, by split <;> omega⟩

theorem foldl_lowerExp_le {xs : List FNum} {o : Option ℤ} {q : ℤ} (h : xs.foldl lowerExp o = some q) :
    (∀ r, o = some r → q ≤ r) ∧ ∀ s m e, .fin s m e ∈ xs → q ≤ e := by
  induction xs generalizing o with
  | nil => exact ⟨fun r hr => by simp_all, by simp⟩
  | cons x xs ih =>
    obtain ⟨hacc, htail⟩ := ih h
    constructor
    · rintro r rfl
      obtain ⟨p, hp, hle⟩ := lowerExp_some r x
      exact (hacc p hp).trans hle
    · intro s m e hmem
      rcases List.mem_cons.mp hmem with rfl | hmem
      · obtain ⟨p, hp, hle⟩ := lowerExp_fin o s m e
        exact (hacc p hp).trans hle
      · exact htail s m e hmem

theorem lowerExp_eq_none {o : Option ℤ} {x : FNum} : lowerExp o x = none ↔ o = none ∧ ∀ s m e, .fin s m e ≠ x := by
  rcases x with _ | _ | _ | ⟨s, m, e⟩
  case fin =>
    obtain ⟨p, hp, -⟩ := lowerExp_fin o s m e
    simp only [hp, reduceCtorEq, false_iff]
    exact fun h => h.2 s m e rfl
  all_goals simp [lowerExp]

theorem foldl_lowerExp_none {xs : List FNum} {o : Option ℤ} :
    xs.foldl lowerExp o = none ↔ o = none ∧ ∀ s m e, .fin s m e ∉ xs := by
  induction xs generalizing o with
  | nil => simp
  | cons x xs ih => simp only [List.foldl_cons, ih, lowerExp_eq_none, List.mem_cons, not_or, forall_and, and_assoc, ne_eq]

theorem foldl_addMultiple {xs : List FNum} {q : ℤ} (h : ∀ s m e, .fin s m e ∈ xs → q ≤ e) (a : ℤ) :
    ((xs.foldl (addMultiple q) a : ℤ) : ℚ) * 2 ^ q = a * 2 ^ q + (xs.map valueOf).sum := by
  induction xs generalizing a with
  | nil => simp
  | cons x xs ih =>
    have hstep : ((addMultiple q a x : ℤ) : ℚ) * 2 ^ q = a * 2 ^ q + valueOf x := by
      rcases x with _ | _ | _ | ⟨s, m, e⟩
      case fin =>
        rw [valueOf_fin_at (h s m e (by simp)), ← add_mul]
        simp [addMultiple]
      all_goals simp [addMultiple, valueOf]
    rw [List.foldl_cons, ih (fun s m e hm => h s m e (List.mem_cons_of_mem _ hm)), hstep, List.map_cons, List.sum_cons,
      add_assoc]

/-- Terms that are all zeros: their sum is -0 only where there is a term and every one is -0. -/
theorem sum_of_zeros {xs : List FNum} (h : ∀ x ∈ xs, finite x) (hz : xs.foldl lowerExp none = none) :
    FNum.sum xs = .zero (decide (xs ≠ [] ∧ ∀ x ∈ xs, x = .zero true)) ∧ (xs.map valueOf).sum = 0 := by
  constructor
  · rw [sum_of_finite h, hz, sumAt, FNum.zero.injEq, Bool.eq_iff_iff]
    simp
  · refine List.sum_eq_zero fun v hv => ?_
    obtain ⟨x, hx, rfl⟩ := List.mem_map.mp hv
    rcases x with _ | _ | _ | ⟨s, m, e⟩
    case fin => exact ((foldl_lowerExp_none.mp hz).2 s m e hx).elim
    all_goals rfl

/-- Terms of which one is not zero: one integer at the lowest power of two. -/
theorem sum_of_fin {xs : List FNum} (h : ∀ x ∈ xs, finite x) {q : ℤ} (hq : xs.foldl lowerExp none = some q) :
    ∃ x : ℤ, FNum.sum xs = .ofInt .rne x q ∧ (xs.map valueOf).sum = x * 2 ^ q ∧
      ∃ s m e, .fin s m e ∈ xs := by
  refine ⟨_, by rw [sum_of_finite h, hq]; rfl, ?_, ?_⟩
  · rw [foldl_addMultiple (foldl_lowerExp_le hq).2]
    simp
  · by_contra! hno
    rw [foldl_lowerExp_none.mpr ⟨rfl, hno⟩] at hq
    contradiction

theorem sum_spec {xs : List FNum} (h : ∀ x ∈ xs, finite x) :
    finite (FNum.sum xs) ∧ valueOf (FNum.sum xs) = (xs.map valueOf).sum ∧
      ((xs.map valueOf).sum = 0 → FNum.sum xs = .zero (decide (xs ≠ [] ∧ ∀ x ∈ xs, x = .zero true))) := by
  rcases hq : xs.foldl lowerExp none with _ | q
  case none =>
    obtain ⟨hsum, hval⟩ := sum_of_zeros h hq
    rw [hsum, hval]
    exact ⟨trivial, rfl, fun _ => rfl⟩
  case some =>
    obtain ⟨x, hsum, hval, s, m, e, hmem⟩ := sum_of_fin h hq
    rw [hsum, hval]
    refine ⟨finite_ofInt _ _ _, valueOf_ofInt _ _ _, fun h0 => ?_⟩
    have hne : ¬ ∀ x ∈ xs, x = .zero true := fun hall => by simpa using hall _ hmem
    rw [ofInt_of_value_zero .rne h0]
    simp [hne]

theorem exactSums : Rules.ExactSums := by
  refine fun xs => ⟨?_, fun p hnan hp hnp => ?_, sum_spec⟩
  · unfold FNum.sum
    rw [any_isNan, any_inf, any_inf]
    rintro (h | ⟨hp, hn⟩)
    · simp [h]
    · simp [hp, hn]
  · unfold FNum.sum
    rw [any_isNan, any_inf, any_inf]
    cases p <;> simp_all

/-! ## Encodings as a grid (R25, R28)

The magnitude bits of an encoding, taken as a number, count the representable magnitudes
in order, and the bits above `maxBits` are the special codes. -/

/-- A format has an exponent field and a mantissa field. -/
structure HasFields (f : FFmt) : Prop where
  ebits_pos : 0 < f.ebits
  mbits_pos : 0 < f.mbits

/-- The power of two of the least subnormal value. -/
def leastExp (f : FFmt) : ℤ := 1 - (f.bias : ℤ) - f.mbits

/-- The significand of magnitude bits `b`, as an integer. -/
def sig (f : FFmt) (b : ℕ) : ℕ := if b < 2 ^ f.mbits then b else 2 ^ f.mbits + b % 2 ^ f.mbits

/-- The power of two that the significand of magnitude bits `b` counts in. -/
def expo (f : FFmt) (b : ℕ) : ℤ := leastExp f + (b / 2 ^ f.mbits - 1 : ℕ)

/-- The magnitude of magnitude bits `b`, as if the exponent field had no end (R40). -/
def gridValue (f : FFmt) (b : ℕ) : ℚ := sig f b * 2 ^ expo f b

/-- The bits of an encoding below its sign. -/
def magBits (f : FFmt) (x : ℕ) : ℕ := x % 2 ^ (f.ebits + f.mbits)

/-- The sign of an encoding. -/
def signOf (f : FFmt) (x : ℕ) : Bool := bitAt x (f.ebits + f.mbits)

/-- A finite value by its sign and its magnitude bits. -/
def numOf (f : FFmt) (s : Bool) (b : ℕ) : FNum := if b = 0 then .zero s else .fin s (sig f b) (expo f b)

/-! ### The grid. -/

theorem sig_lt (f : FFmt) (b : ℕ) : sig f b < 2 ^ (f.mbits + 1) := by
  have h := Nat.mod_lt b (Nat.two_pow_pos f.mbits)
  rw [pow_succ]
  unfold sig
  split <;> omega

theorem sig_pos {f : FFmt} {b : ℕ} (h : b ≠ 0) : 0 < sig f b := by
  have := Nat.two_pow_pos f.mbits
  unfold sig
  split <;> omega

/-- Magnitude bits as binade and significand. -/
theorem binade_split (f : FFmt) (b : ℕ) :
    b = (b / 2 ^ f.mbits - 1) * 2 ^ f.mbits + sig f b ∧ (b / 2 ^ f.mbits - 1 = 0 ∨ 2 ^ f.mbits ≤ sig f b) := by
  unfold sig
  split
  case isTrue h => simp [Nat.div_eq_of_lt h]
  case isFalse h =>
    have hpos := Nat.two_pow_pos f.mbits
    have hdiv : 0 < b / 2 ^ f.mbits := Nat.div_pos (by omega) hpos
    have hsplit := Nat.div_add_mod' b (2 ^ f.mbits)
    obtain ⟨c, hc⟩ := Nat.exists_eq_add_of_lt hdiv
    rw [hc] at hsplit ⊢
    refine ⟨?_, .inr (by omega)⟩
    rw [show 0 + c + 1 - 1 = c by omega]
    linarith

theorem sig_binade {f : FFmt} {j k : ℕ} (hk : k < 2 ^ (f.mbits + 1)) (hj : j = 0 ∨ 2 ^ f.mbits ≤ k) :
    sig f (j * 2 ^ f.mbits + k) = k ∧ expo f (j * 2 ^ f.mbits + k) = leastExp f + j := by
  have hpos := Nat.two_pow_pos f.mbits
  rw [pow_succ] at hk
  by_cases hlow : k < 2 ^ f.mbits
  · obtain rfl : j = 0 := by omega
    simp [sig, expo, hlow, Nat.div_eq_of_lt hlow]
  · obtain ⟨r, rfl⟩ := Nat.exists_eq_add_of_le (Nat.le_of_not_lt hlow)
    have hr : r < 2 ^ f.mbits := by omega
    have hcode : j * 2 ^ f.mbits + (2 ^ f.mbits + r) = r + 2 ^ f.mbits * (j + 1) := by ring
    have hge : ¬ r + 2 ^ f.mbits * (j + 1) < 2 ^ f.mbits := by
      rw [mul_add]; omega
    constructor
    · rw [hcode, sig, if_neg hge, Nat.add_mul_mod_self_left, Nat.mod_eq_of_lt hr]
    · rw [hcode, expo, Nat.add_mul_div_left _ _ hpos, Nat.div_eq_of_lt hr]
      simp

/-- A step up the grid adds one unit of the binade, also where it enters the next binade. -/
theorem gridValue_succ (f : FFmt) (b : ℕ) : gridValue f (b + 1) = (sig f b + 1) * 2 ^ expo f b := by
  obtain ⟨hb, hj⟩ := binade_split f b
  have hlt := sig_lt f b
  set j := b / 2 ^ f.mbits - 1 with hjdef
  have hexpo : expo f b = leastExp f + j := rfl
  by_cases hcarry : sig f b + 1 < 2 ^ (f.mbits + 1)
  · have hcode : b + 1 = j * 2 ^ f.mbits + (sig f b + 1) := by omega
    obtain ⟨hs, he⟩ := sig_binade (j := j) hcarry (by omega)
    rw [gridValue, hcode, hs, he, hexpo]
    push_cast
    rfl
  · have htop : sig f b + 1 = 2 ^ (f.mbits + 1) := by omega
    have hcode : b + 1 = (j + 1) * 2 ^ f.mbits + 2 ^ f.mbits := by
      rw [pow_succ] at htop
      rw [add_mul]
      omega
    have hfits : 2 ^ f.mbits < 2 ^ (f.mbits + 1) := Nat.pow_lt_pow_right one_lt_two (Nat.lt_succ_self _)
    obtain ⟨hs, he⟩ := sig_binade (j := j + 1) hfits (.inr le_rfl)
    have htop' : (sig f b : ℚ) + 1 = 2 ^ (f.mbits + 1) := by exact_mod_cast htop
    rw [gridValue, hcode, hs, he, hexpo, htop']
    push_cast
    rw [← add_assoc, zpow_add_one₀ two_ne_zero, pow_succ]
    ring

theorem gridValue_lt_succ (f : FFmt) (b : ℕ) : gridValue f b < gridValue f (b + 1) := by
  rw [gridValue_succ, gridValue]
  gcongr
  linarith

theorem gridValue_strictMono (f : FFmt) : StrictMono (gridValue f) := strictMono_nat_of_lt_succ (gridValue_lt_succ f)

theorem gridValue_zero (f : FFmt) : gridValue f 0 = 0 := by simp [gridValue, sig]

theorem gridValue_nonneg (f : FFmt) (b : ℕ) : 0 ≤ gridValue f b := by
  unfold gridValue
  positivity

/-! ### Reading. -/

theorem isNeg_numOf (f : FFmt) (s : Bool) (b : ℕ) : (numOf f s b).isNeg = s := by
  unfold numOf
  split <;> rfl

theorem finite_numOf (f : FFmt) (s : Bool) (b : ℕ) : finite (numOf f s b) := by
  unfold numOf
  split
  · trivial
  · exact sig_pos ‹_›

theorem valueOf_numOf (f : FFmt) (s : Bool) (b : ℕ) : valueOf (numOf f s b) = signFactor s * gridValue f b := by
  unfold numOf
  split
  case isTrue h => simp [h, gridValue_zero, valueOf]
  case isFalse => exact valueOf_fin_factor _ _ _

theorem magBits_lt (f : FFmt) (x : ℕ) : magBits f x < 2 ^ (f.ebits + f.mbits) := Nat.mod_lt _ (Nat.two_pow_pos _)

theorem mantissa_magBits (f : FFmt) (x : ℕ) : x % 2 ^ f.mbits = magBits f x % 2 ^ f.mbits := by
  rw [magBits, pow_add, Nat.mod_mul_left_mod]

theorem exponent_magBits (f : FFmt) (x : ℕ) : x / 2 ^ f.mbits % 2 ^ f.ebits = magBits f x / 2 ^ f.mbits := by
  rw [magBits, pow_add, mul_comm, Nat.mod_mul_right_div_self]

theorem field_exponent {f : FFmt} (hf : HasFields f) (x : ℕ) :
    field x (f.ebits + f.mbits - 1) f.mbits = magBits f x / 2 ^ f.mbits := by
  have := hf.ebits_pos
  rw [← exponent_magBits, field, show f.ebits + f.mbits - 1 + 1 - f.mbits = f.ebits by omega]

/-- `read` by the sign and the magnitude bits. -/
theorem read_eq {f : FFmt} (hf : HasFields f) (x : ℕ) :
    f.read x =
      if f.kind = .ieee ∧ magBits f x / 2 ^ f.mbits = 2 ^ f.ebits - 1 then
        (if magBits f x % 2 ^ f.mbits = 0 then .inf (signOf f x) else .nan)
      else if f.kind = .oneNan ∧ magBits f x / 2 ^ f.mbits = 2 ^ f.ebits - 1 ∧ magBits f x % 2 ^ f.mbits = 2 ^ f.mbits - 1
        then .nan
      else numOf f (signOf f x) (magBits f x) := by
  unfold FFmt.read
  rw [field_exponent hf, mantissa_magBits, show bitAt x (f.ebits + f.mbits) = signOf f x from rfl]
  simp only [Bool.and_eq_true, beq_iff_eq, and_assoc]
  refine if_congr Iff.rfl rfl (if_congr Iff.rfl rfl ?_)
  by_cases hlow : magBits f x < 2 ^ f.mbits
  case pos => simp [numOf, sig, expo, leastExp, hlow, Nat.div_eq_of_lt, Nat.mod_eq_of_lt]
  case neg =>
    have hpos := Nat.two_pow_pos f.mbits
    have hdiv : 0 < magBits f x / 2 ^ f.mbits := Nat.div_pos (by omega) hpos
    rw [if_neg hdiv.ne', numOf, if_neg (by omega), sig, if_neg hlow, expo, leastExp]
    congr 1
    omega

theorem top_exponent_iff {f : FFmt} {b : ℕ} (hb : b < 2 ^ (f.ebits + f.mbits)) :
    b / 2 ^ f.mbits = 2 ^ f.ebits - 1 ↔ (2 ^ f.ebits - 1) * 2 ^ f.mbits ≤ b := by
  have hlt : b / 2 ^ f.mbits < 2 ^ f.ebits := Nat.div_lt_of_lt_mul (by rwa [← pow_add, add_comm])
  rw [← Nat.le_div_iff_mul_le (Nat.two_pow_pos _)]
  omega

/-- The last magnitude bits of all: the exponent and the mantissa field full of ones. -/
theorem last_iff {f : FFmt} {b : ℕ} (hb : b < 2 ^ (f.ebits + f.mbits)) :
    (b / 2 ^ f.mbits = 2 ^ f.ebits - 1 ∧ b % 2 ^ f.mbits = 2 ^ f.mbits - 1) ↔ 2 ^ (f.ebits + f.mbits) - 1 ≤ b := by
  have hM := Nat.two_pow_pos f.mbits
  have hE := Nat.le_mul_of_pos_left (2 ^ f.mbits) (Nat.two_pow_pos f.ebits)
  have hsplit := Nat.div_add_mod' b (2 ^ f.mbits)
  rw [top_exponent_iff hb]
  rw [pow_add] at hb ⊢
  rw [Nat.sub_one_mul]
  constructor
  · rintro ⟨htop, hmod⟩
    have hdiv := (top_exponent_iff (f := f) (by rwa [pow_add])).mpr (by rwa [Nat.sub_one_mul])
    rw [hdiv, Nat.sub_one_mul] at hsplit
    omega
  · intro hle
    have hdiv := (top_exponent_iff (f := f) (by rwa [pow_add])).mpr (by rw [Nat.sub_one_mul]; omega)
    rw [hdiv, Nat.sub_one_mul] at hsplit
    omega

theorem maxBits_ieee {f : FFmt} (hf : HasFields f) (hk : f.kind = .ieee) :
    f.maxBits + 1 = (2 ^ f.ebits - 1) * 2 ^ f.mbits := by
  have hE := Nat.one_lt_two_pow hf.ebits_pos.ne'
  have hpos : 0 < (2 ^ f.ebits - 1) * 2 ^ f.mbits := Nat.mul_pos (by omega) (Nat.two_pow_pos _)
  simp only [FFmt.maxBits, hk]
  omega

theorem maxBits_oneNan {f : FFmt} (hf : HasFields f) (hk : f.kind = .oneNan) :
    f.maxBits + 1 = 2 ^ (f.ebits + f.mbits) - 1 := by
  have hpos : 1 < 2 ^ (f.ebits + f.mbits) := Nat.one_lt_two_pow (by have := hf.ebits_pos; omega)
  simp only [FFmt.maxBits, hk]
  omega

theorem maxBits_plain {f : FFmt} (hk : f.kind = .plain) : f.maxBits + 1 = 2 ^ (f.ebits + f.mbits) := by
  have hpos := Nat.two_pow_pos (f.ebits + f.mbits)
  simp only [FFmt.maxBits, hk]
  omega

/-- At most `maxBits`: a finite value. -/
theorem read_of_le {f : FFmt} (hf : HasFields f) {x : ℕ} (h : magBits f x ≤ f.maxBits) :
    f.read x = numOf f (signOf f x) (magBits f x) := by
  rw [read_eq hf, if_neg, if_neg]
  · rintro ⟨hk, hlast⟩
    have := maxBits_oneNan hf hk
    have := (last_iff (magBits_lt f x)).mp hlast
    omega
  · rintro ⟨hk, htop⟩
    have := maxBits_ieee hf hk
    have := (top_exponent_iff (magBits_lt f x)).mp htop
    omega

/-- Above `maxBits`: an infinity where the format has one, or a NaN. -/
theorem read_of_gt {f : FFmt} (hf : HasFields f) {x : ℕ} (h : f.maxBits < magBits f x) :
    f.read x = if f.kind = .ieee ∧ magBits f x = f.maxBits + 1 then .inf (signOf f x) else .nan := by
  have hlt := magBits_lt f x
  rw [read_eq hf]
  rcases hk : f.kind
  case ieee =>
    have hmax := maxBits_ieee hf hk
    have htop : magBits f x / 2 ^ f.mbits = 2 ^ f.ebits - 1 := (top_exponent_iff hlt).mpr (by omega)
    have hsplit := Nat.div_add_mod' (magBits f x) (2 ^ f.mbits)
    rw [htop] at hsplit
    have hzero : magBits f x % 2 ^ f.mbits = 0 ↔ magBits f x = f.maxBits + 1 := by omega
    rw [if_pos ⟨rfl, htop⟩]
    exact if_congr (by simp [hzero]) rfl rfl
  case oneNan =>
    have := maxBits_oneNan hf hk
    rw [if_neg (by simp), if_pos ⟨rfl, (last_iff hlt).mpr (by omega)⟩, if_neg (by simp)]
  case plain =>
    have := maxBits_plain hk
    omega

theorem finite_read_iff {f : FFmt} (hf : HasFields f) {x : ℕ} : finite (f.read x) ↔ magBits f x ≤ f.maxBits := by
  refine ⟨fun h => ?_, fun h => ?_⟩
  · by_contra! hgt
    rw [read_of_gt hf hgt] at h
    split at h <;> exact h
  · rw [read_of_le hf h]
    exact finite_numOf ..

/-! ## The values of the six formats (R25, R28)

The values of encodings (Table 2.2), the canonical NaNs, and the facts of the six formats that the general lemmas need. -/

/-! ### The six formats. -/

theorem hasFields {t : Tag} (ht : t ∈ floatTypes) : HasFields (ffmtOf t) := by
  have : ∀ t ∈ floatTypes, 0 < (ffmtOf t).ebits ∧ 0 < (ffmtOf t).mbits := by decide
  exact ⟨(this t ht).1, (this t ht).2⟩

theorem bits_eq {t : Tag} (ht : t ∈ floatTypes) : t.bits = (ffmtOf t).ebits + (ffmtOf t).mbits + 1 := by
  revert t
  decide

theorem hasInf_iff {t : Tag} (ht : t ∈ floatTypes) : hasInf t = true ↔ (ffmtOf t).kind = .ieee := by
  revert t
  decide

/-- E4M3 is the format with one NaN code of each sign; its fields are full at 15 and 7. -/
theorem oneNan_iff {t : Tag} (ht : t ∈ floatTypes) (e m : ℕ) :
    t = .e4m3x4 ∧ e = 15 ∧ m = 7 ↔
      (ffmtOf t).kind = .oneNan ∧ e = 2 ^ (ffmtOf t).ebits - 1 ∧ m = 2 ^ (ffmtOf t).mbits - 1 := by
  have hkind : ∀ t ∈ floatTypes, (ffmtOf t).kind = .oneNan ↔ t = .e4m3x4 := by decide
  rw [hkind t ht]
  refine and_congr_right ?_
  rintro rfl
  rfl

theorem formatTable_eq :
    Rules.formatTable = floatTypes.map fun t => (t, (ffmtOf t).ebits, (ffmtOf t).mbits, (ffmtOf t).bias) := rfl

/-! ### Signs. -/

theorem signOf_eq_testBit (f : FFmt) (x : ℕ) : signOf f x = x.testBit (f.ebits + f.mbits) := by
  rw [Nat.testBit_eq_decide_div_mod_eq]
  rfl

theorem maxBits_lt {f : FFmt} (hf : HasFields f) : f.maxBits < 2 ^ (f.ebits + f.mbits) := by
  rcases hk : f.kind
  case ieee =>
    have hpos := Nat.two_pow_pos f.mbits
    have := maxBits_ieee hf hk
    rw [Nat.sub_one_mul, ← pow_add] at this
    omega
  case oneNan => have := maxBits_oneNan hf hk; omega
  case plain => have := maxBits_plain hk; omega

theorem magBits_signed (f : FFmt) (s : Bool) {b : ℕ} (h : b < 2 ^ (f.ebits + f.mbits)) : magBits f (f.signBit s + b) = b := by
  cases s <;> simp [magBits, FFmt.signBit, Nat.mod_eq_of_lt h]

theorem signOf_signed (f : FFmt) (s : Bool) {b : ℕ} (h : b < 2 ^ (f.ebits + f.mbits)) : signOf f (f.signBit s + b) = s := by
  have hpos := Nat.two_pow_pos (f.ebits + f.mbits)
  cases s <;> simp [signOf, bitAt, FFmt.signBit, Nat.add_div_left, hpos, Nat.div_eq_of_lt h]

/-- An encoding is its sign bit and its magnitude bits. -/
theorem signBit_add_magBits {f : FFmt} {x : ℕ} (h : x < 2 ^ (f.ebits + f.mbits + 1)) :
    f.signBit (signOf f x) + magBits f x = x := by
  have hsplit := Nat.div_add_mod' x (2 ^ (f.ebits + f.mbits))
  have hdiv : x / 2 ^ (f.ebits + f.mbits) < 2 := Nat.div_lt_of_lt_mul (by rwa [← pow_succ])
  unfold FFmt.signBit signOf bitAt magBits
  obtain h0 | h1 := Nat.le_one_iff_eq_zero_or_eq_one.mp (Nat.le_of_lt_succ hdiv)
  · rw [h0] at hsplit ⊢
    simpa using hsplit
  · rw [h1] at hsplit ⊢
    simpa using hsplit

/-- Reading a sign bit and magnitude bits that are no special code. -/
theorem read_signed {f : FFmt} (hf : HasFields f) (s : Bool) {b : ℕ} (h : b ≤ f.maxBits) :
    f.read (f.signBit s + b) = numOf f s b := by
  have hb := h.trans_lt (maxBits_lt hf)
  rw [read_of_le hf (by rwa [magBits_signed f s hb]), magBits_signed f s hb, signOf_signed f s hb]

/-! ### Values (R25). -/

theorem gridValue_fields (f : FFmt) (b : ℕ) :
    gridValue f b =
      if b / 2 ^ f.mbits = 0 then (2 : ℚ) ^ (1 - (f.bias : ℤ)) * ((b % 2 ^ f.mbits : ℕ) / 2 ^ f.mbits)
      else (2 : ℚ) ^ (((b / 2 ^ f.mbits : ℕ) : ℤ) - f.bias) * (1 + (b % 2 ^ f.mbits : ℕ) / 2 ^ f.mbits) := by
  have hscale (n : ℤ) : (2 : ℚ) ^ n = 2 ^ (n - f.mbits) * 2 ^ f.mbits := by
    rw [← zpow_natCast, ← zpow_add₀ two_ne_zero, sub_add_cancel]
  have hne : (2 : ℚ) ^ f.mbits ≠ 0 := by positivity
  unfold gridValue sig expo leastExp
  by_cases hlow : b < 2 ^ f.mbits
  · have hdiv : b / 2 ^ f.mbits = 0 := Nat.div_eq_of_lt hlow
    rw [if_pos hlow, if_pos hdiv, hdiv, Nat.mod_eq_of_lt hlow, hscale (1 - f.bias)]
    field_simp
    simp
  · have hdiv : 0 < b / 2 ^ f.mbits := Nat.div_pos (by omega) (Nat.two_pow_pos _)
    have hexp : (1 : ℤ) - f.bias - f.mbits + ((b / 2 ^ f.mbits - 1 : ℕ) : ℤ) = (b / 2 ^ f.mbits : ℕ) - f.bias - f.mbits := by
      omega
    rw [if_neg hlow, if_neg hdiv.ne', hexp, hscale (_ - f.bias)]
    push_cast
    field_simp

theorem formatValue_read {t : Tag} (ht : t ∈ floatTypes) (x : ℕ) :
    let f := ffmtOf t
    formatValue t f.ebits f.mbits f.bias (x.testBit (f.ebits + f.mbits)) (x / 2 ^ f.mbits % 2 ^ f.ebits) (x % 2 ^ f.mbits)
      (f.read x) := by
  intro f
  rw [exponent_magBits, mantissa_magBits, ← signOf_eq_testBit, read_eq (hasFields ht)]
  unfold formatValue
  simp only [hasInf_iff ht, oneNan_iff ht]
  split
  · rfl
  · split
    · rfl
    · rw [isNeg_numOf, valueOf_numOf, gridValue_fields]
      exact ⟨finite_numOf .., rfl, rfl⟩

theorem formatValues : Rules.FormatValues := by
  intro p hp x _
  rw [formatTable_eq] at hp
  obtain ⟨t, ht, rfl⟩ := List.mem_map.mp hp
  exact formatValue_read ht x

/-! ### NaNs (R28) and infinities (Table 2.10). -/

theorem canonicalNan : Rules.CanonicalNan := by
  have hbits : ∀ p ∈ nanTable, (ffmtOf p.1).nanBits = p.2 := by decide
  exact fun p hp _ => hbits p hp

theorem infBits_eq {f : FFmt} (hf : HasFields f) (s : Bool) :
    f.infBits s = f.signBit s + (if f.kind = .ieee then f.maxBits + 1 else f.maxBits) := by
  rcases hk : f.kind
  case ieee => simp [FFmt.infBits, hk, maxBits_ieee hf hk]
  all_goals simp [FFmt.infBits, hk]

/-! ## Rounding on the grid (R38)

`FFmt.round` takes the grid point below a magnitude or the next one, as the mode chooses, and a point
beyond the largest finite one overflows. -/

/-- Whether a mode takes the upper one of two neighbours `lo ≤ v < hi`, the `n`th and the next point of a grid. -/
def chosenUp (mode : Rm) (neg : Bool) (n : ℕ) (lo v hi : ℚ) : Bool :=
  match mode with
  | .rne => decide (lo + hi < 2 * v ∨ lo + hi = 2 * v ∧ n % 2 = 1)
  | .rtz => false
  | .rup => decide (lo < v) && !neg
  | .rdn => decide (lo < v) && neg

/-- The point that a mode chooses. -/
def chosen (mode : Rm) (neg : Bool) (n : ℕ) (lo v hi : ℚ) : ℕ := if chosenUp mode neg n lo v hi then n + 1 else n

theorem le_chosen (mode : Rm) (neg : Bool) (n : ℕ) (lo v hi : ℚ) : n ≤ chosen mode neg n lo v hi := by
  rw [chosen]
  split <;> omega

/-- Sign and magnitude bits, or the overflow of R40 where they are beyond the largest finite value. -/
def pack (f : FFmt) (mode : Rm) (neg : Bool) (b : ℕ) : ℕ := if f.maxBits < b then f.overflow mode neg else f.signBit neg + b

/-- A value on the grid is kept. -/
theorem chosen_exact (mode : Rm) (neg : Bool) (n : ℕ) {v hi : ℚ} (h : v < hi) : chosen mode neg n v v hi = n := by
  have hne : ¬ (v + hi < 2 * v ∨ v + hi = 2 * v ∧ n % 2 = 1) := by rintro (h' | ⟨h', -⟩) <;> linarith
  cases mode <;> simp [chosen, chosenUp, hne]

/-- Only a value above the lower neighbour goes to the upper one. -/
theorem lt_of_chosenUp {mode : Rm} {neg : Bool} {n : ℕ} {lo v hi : ℚ} (hhi : v < hi)
    (h : chosenUp mode neg n lo v hi = true) : lo < v := by
  cases mode <;> simp [chosenUp] at h
  case rne => rcases h with h | ⟨h, -⟩ <;> linarith
  case rup | rdn => exact h.1

/-- The choice is the same on a grid of another scale. -/
theorem chosenUp_scale (mode : Rm) (neg : Bool) (n : ℕ) (lo v hi : ℚ) {c : ℚ} (hc : 0 < c) :
    chosenUp mode neg n (lo * c) (v * c) (hi * c) = chosenUp mode neg n lo v hi := by
  have hlt : lo * c < v * c ↔ lo < v := mul_lt_mul_iff_left₀ hc
  have hmid : lo * c + hi * c < 2 * (v * c) ↔ lo + hi < 2 * v := by
    rw [← add_mul, ← mul_assoc, mul_lt_mul_iff_left₀ hc]
  have htie : lo * c + hi * c = 2 * (v * c) ↔ lo + hi = 2 * v := by
    rw [← add_mul, ← mul_assoc, mul_left_inj' hc.ne']
  cases mode <;> simp [chosenUp, hlt, hmid, htie]

/-- Only the parity of a point counts. -/
theorem chosenUp_parity (mode : Rm) (neg : Bool) {n k : ℕ} (h : n % 2 = k % 2) (lo v hi : ℚ) :
    chosenUp mode neg n lo v hi = chosenUp mode neg k lo v hi := by
  cases mode <;> simp [chosenUp, h]

/-! ### The model's rounding to multiples of a power of two. -/

/-- A remainder `r` of `2 * half` against the neighbours. -/
theorem roundsUp_eq_chosenUp (mode : Rm) (neg : Bool) (k : ℕ) {r half : ℕ} (hpos : 0 < half) :
    roundsUp mode neg k r half false =
      chosenUp mode neg k ((k * (2 * half) : ℕ) : ℚ) ((k * (2 * half) + r : ℕ) : ℚ) (((k + 1) * (2 * half) : ℕ) : ℚ) := by
  have hlt : ((k * (2 * half) : ℕ) : ℚ) < ((k * (2 * half) + r : ℕ) : ℚ) ↔ r ≠ 0 := by
    rw [Nat.cast_lt]; omega
  have hmid : ((k * (2 * half) : ℕ) : ℚ) + (((k + 1) * (2 * half) : ℕ) : ℚ) < 2 * ((k * (2 * half) + r : ℕ) : ℚ) ↔ half < r := by
    norm_cast; rw [add_mul]; omega
  have htie : ((k * (2 * half) : ℕ) : ℚ) + (((k + 1) * (2 * half) : ℕ) : ℚ) = 2 * ((k * (2 * half) + r : ℕ) : ℚ) ↔ r = half := by
    norm_cast; rw [add_mul]; omega
  cases mode <;> simp only [roundsUp, chosenUp, hlt, hmid, htie] <;> simp [bne, Bool.beq_eq_decide_eq, hpos.ne']

theorem roundTo_spec (mode : Rm) (neg : Bool) (m : ℕ) (e q : ℤ) :
    ∃ k : ℕ, (k : ℚ) * 2 ^ q ≤ m * 2 ^ e ∧ (m : ℚ) * 2 ^ e < (k + 1) * 2 ^ q ∧
      roundTo mode neg m e q false = chosen mode neg k (k * 2 ^ q) (m * 2 ^ e) ((k + 1) * 2 ^ q) := by
  unfold roundTo
  split
  case isTrue h =>
    have hv : (m : ℚ) * 2 ^ e = ((m * 2 ^ (e - q).toNat : ℕ) : ℚ) * 2 ^ q := by
      push_cast
      rw [mul_assoc, ← zpow_natCast, ← zpow_add₀ two_ne_zero, Int.toNat_of_nonneg (by omega), sub_add_cancel]
    have hlt : ((m * 2 ^ (e - q).toNat : ℕ) : ℚ) * 2 ^ q < ((m * 2 ^ (e - q).toNat : ℕ) + 1) * 2 ^ q := by
      gcongr; linarith
    refine ⟨m * 2 ^ (e - q).toNat, hv.ge, hv ▸ hlt, ?_⟩
    rw [hv, chosen_exact _ _ _ hlt, if_neg]
    cases mode <;> simp [roundsUp]
  case isFalse h =>
    obtain ⟨t, ht⟩ : ∃ t, (q - e).toNat = t + 1 := ⟨(q - e).toNat - 1, by omega⟩
    have hq : (2 : ℚ) ^ q = ((2 * 2 ^ t : ℕ) : ℚ) * 2 ^ e := by
      push_cast
      rw [← pow_succ', ← ht, ← zpow_natCast, ← zpow_add₀ two_ne_zero, Int.toNat_of_nonneg (by omega), sub_add_cancel]
    have hpos : (0 : ℚ) < 2 ^ e := by positivity
    have hsplit := Nat.div_add_mod' m (2 * 2 ^ t)
    have hmod := Nat.mod_lt m (show 0 < 2 * 2 ^ t by positivity)
    simp only [ht, Nat.add_sub_cancel, pow_succ']
    set k := m / (2 * 2 ^ t)
    set r := m % (2 * 2 ^ t)
    have hlo : (k : ℚ) * 2 ^ q = ((k * (2 * 2 ^ t) : ℕ) : ℚ) * 2 ^ e := by rw [hq]; push_cast; ring
    have hhi : ((k : ℚ) + 1) * 2 ^ q = (((k + 1) * (2 * 2 ^ t) : ℕ) : ℚ) * 2 ^ e := by rw [hq]; push_cast; ring
    refine ⟨k, ?_, ?_, ?_⟩
    · rw [hlo, mul_le_mul_iff_left₀ hpos, Nat.cast_le]; omega
    · rw [hhi, mul_lt_mul_iff_left₀ hpos, Nat.cast_lt, add_mul]; omega
    · rw [hlo, hhi, chosen, chosenUp_scale _ _ _ _ _ _ hpos, roundsUp_eq_chosenUp mode neg k (Nat.two_pow_pos t), hsplit]

/-! ### Rounding in a format. -/

/-- The binade that a magnitude lies in: rounding to multiples of its unit leaves a significand of the format. -/
def roundExp (f : FFmt) (m : ℕ) (e : ℤ) : ℤ :=
  if (Nat.log2 m : ℤ) + e - f.mbits < leastExp f then leastExp f else (Nat.log2 m : ℤ) + e - f.mbits

theorem leastExp_le_roundExp (f : FFmt) (m : ℕ) (e : ℤ) : leastExp f ≤ roundExp f m e := by
  unfold roundExp
  split <;> omega

/-- A magnitude rounds down to a significand of at most `mbits + 1` bits. -/
theorem significand_lt (f : FFmt) (m : ℕ) (e : ℤ) {k : ℕ} (hle : (k : ℚ) * 2 ^ roundExp f m e ≤ m * 2 ^ e) :
    k < 2 ^ (f.mbits + 1) := by
  have hlog : (m : ℚ) < 2 ^ (Nat.log2 m + 1) := by exact_mod_cast Nat.lt_log2_self
  have hexp : (2 : ℚ) ^ (Nat.log2 m + 1) * 2 ^ e ≤ 2 ^ (f.mbits + 1) * 2 ^ roundExp f m e := by
    simp only [← zpow_natCast, ← zpow_add₀ (two_ne_zero (α := ℚ))]
    refine zpow_le_zpow_right₀ one_le_two ?_
    unfold roundExp
    split <;> push_cast <;> omega
  have hk : (k : ℚ) * 2 ^ roundExp f m e < 2 ^ (f.mbits + 1) * 2 ^ roundExp f m e :=
    calc (k : ℚ) * 2 ^ roundExp f m e ≤ m * 2 ^ e := hle
      _ < 2 ^ (Nat.log2 m + 1) * 2 ^ e := by gcongr
      _ ≤ _ := hexp
  exact_mod_cast lt_of_mul_lt_mul_right hk (by positivity)

/-- Above the binade of the subnormals, the significand has its leading one. -/
theorem le_significand (f : FFmt) {m : ℕ} (hm : 0 < m) (e : ℤ) {k : ℕ}
    (hlt : (m : ℚ) * 2 ^ e < (k + 1) * 2 ^ roundExp f m e) (hnormal : roundExp f m e ≠ leastExp f) : 2 ^ f.mbits ≤ k := by
  have hlog : (2 : ℚ) ^ Nat.log2 m ≤ m := by exact_mod_cast Nat.log2_self_le hm.ne'
  have hround : roundExp f m e = Nat.log2 m + e - f.mbits := by
    unfold roundExp at hnormal ⊢
    split at hnormal <;> [contradiction; exact if_neg ‹_›]
  have hexp : (2 : ℚ) ^ f.mbits * 2 ^ roundExp f m e = 2 ^ Nat.log2 m * 2 ^ e := by
    simp only [← zpow_natCast, ← zpow_add₀ (two_ne_zero (α := ℚ)), hround]
    congr 1
    ring
  have hk : (2 : ℚ) ^ f.mbits * 2 ^ roundExp f m e < (k + 1) * 2 ^ roundExp f m e :=
    calc (2 : ℚ) ^ f.mbits * 2 ^ roundExp f m e = 2 ^ Nat.log2 m * 2 ^ e := hexp
      _ ≤ m * 2 ^ e := by gcongr
      _ < _ := hlt
  exact Nat.le_of_lt_succ (by exact_mod_cast lt_of_mul_lt_mul_right hk (by positivity))

/-- How `FFmt.round` puts together an encoding from a significand rounded to a multiple of `2 ^ q`. -/
def assemble (f : FFmt) (mode : Rm) (neg : Bool) (q : ℤ) (k : ℕ) : ℕ :=
  if k < 2 ^ f.mbits then f.signBit neg + k
  else
    let q' := if k == 2 ^ (f.mbits + 1) then q + 1 else q
    let k' := if k == 2 ^ (f.mbits + 1) then 2 ^ f.mbits else k
    let mag := (q' - leastExp f + 1).toNat * 2 ^ f.mbits + (k' - 2 ^ f.mbits)
    if f.maxBits < mag then f.overflow mode neg else f.signBit neg + mag

theorem round_eq_assemble (f : FFmt) (mode : Rm) (neg : Bool) (m : ℕ) (e : ℤ) :
    f.round mode neg m e false = assemble f mode neg (roundExp f m e) (roundTo mode neg m e (roundExp f m e) false) := rfl

theorem mantissa_le_maxBits {f : FFmt} (hf : HasFields f) {k : ℕ} (h : k < 2 ^ f.mbits) : k ≤ f.maxBits := by
  have hM : 1 < 2 ^ f.mbits := Nat.one_lt_two_pow hf.mbits_pos.ne'
  have hE : 1 < 2 ^ f.ebits := Nat.one_lt_two_pow hf.ebits_pos.ne'
  have hmul : 2 * 2 ^ f.mbits ≤ 2 ^ f.ebits * 2 ^ f.mbits := Nat.mul_le_mul_right _ hE
  have hieee := maxBits_ieee hf
  have honeNan := maxBits_oneNan hf
  have hplain := maxBits_plain (f := f)
  rw [pow_add] at honeNan hplain
  rw [Nat.sub_one_mul] at hieee
  rcases hk : f.kind
  case ieee => have := hieee hk; omega
  case oneNan => have := honeNan hk; omega
  case plain => have := hplain hk; omega

/-- A significand, also one that carries into the next binade, is put at its place on the grid. -/
theorem assemble_eq_pack {f : FFmt} (hf : HasFields f) (mode : Rm) (neg : Bool) {q : ℤ} {k : ℕ}
    (hq : leastExp f ≤ q) (hlow : q = leastExp f ∨ 2 ^ f.mbits ≤ k) :
    assemble f mode neg q k = pack f mode neg ((q - leastExp f).toNat * 2 ^ f.mbits + k) := by
  obtain ⟨j, rfl⟩ : ∃ j : ℕ, q = leastExp f + j := ⟨(q - leastExp f).toNat, by omega⟩
  have hj : (leastExp f + j - leastExp f).toNat = j := by omega
  rw [hj]
  unfold assemble
  split
  case isTrue hk =>
    obtain rfl : j = 0 := by omega
    have := mantissa_le_maxBits hf hk
    simp only [pack, zero_mul, zero_add]
    rw [if_neg (by omega)]
  case isFalse hk =>
    by_cases hcarry : k = 2 ^ (f.mbits + 1)
    · have hexp : (leastExp f + j + 1 - leastExp f + 1).toNat = j + 2 := by omega
      have hplace : (j + 2) * 2 ^ f.mbits = j * 2 ^ f.mbits + k := by rw [hcarry, pow_succ]; ring
      simp only [hcarry, beq_self_eq_true, if_true, Nat.sub_self, add_zero, hexp]
      rw [hplace, hcarry]
      rfl
    · have hexp : (leastExp f + j - leastExp f + 1).toNat = j + 1 := by omega
      have hplace : (j + 1) * 2 ^ f.mbits + (k - 2 ^ f.mbits) = j * 2 ^ f.mbits + k := by rw [add_mul]; omega
      simp only [beq_iff_eq, hcarry, if_false, hexp, hplace]
      rfl

/-- The magnitude `v` lies at the `n`th point of the grid or between it and the next. -/
def Between (f : FFmt) (n : ℕ) (v : ℚ) : Prop := gridValue f n ≤ v ∧ v < gridValue f (n + 1)

theorem round_spec {f : FFmt} (hf : HasFields f) (mode : Rm) (neg : Bool) {m : ℕ} (hm : 0 < m) (e : ℤ) :
    ∃ n, Between f n (m * 2 ^ e) ∧
      f.round mode neg m e false = pack f mode neg (chosen mode neg n (gridValue f n) (m * 2 ^ e) (gridValue f (n + 1))) := by
  obtain ⟨k, hle, hlt, hround⟩ := roundTo_spec mode neg m e (roundExp f m e)
  have htop := significand_lt f m e hle
  have hlow := or_iff_not_imp_left.mpr (le_significand f hm e hlt)
  have hq := leastExp_le_roundExp f m e
  rw [round_eq_assemble]
  set q := roundExp f m e
  set j := (q - leastExp f).toNat with hj
  obtain ⟨hsig, hexpo⟩ := sig_binade (f := f) (j := j) htop (hlow.imp_left (by omega))
  have hexpo' : expo f (j * 2 ^ f.mbits + k) = q := by omega
  have hval : gridValue f (j * 2 ^ f.mbits + k) = k * 2 ^ q := by rw [gridValue, hsig, hexpo']
  have hsucc : gridValue f (j * 2 ^ f.mbits + k + 1) = (k + 1) * 2 ^ q := by rw [gridValue_succ, hsig, hexpo']
  have hparity : (j * 2 ^ f.mbits + k) % 2 = k % 2 := by
    obtain ⟨c, hc⟩ := Nat.exists_eq_add_of_lt hf.mbits_pos
    rw [hc, pow_succ, ← mul_assoc]
    omega
  have hchosen : chosen mode neg (j * 2 ^ f.mbits + k) (k * 2 ^ q) (m * 2 ^ e) ((k + 1) * 2 ^ q) =
      j * 2 ^ f.mbits + chosen mode neg k (k * 2 ^ q) (m * 2 ^ e) ((k + 1) * 2 ^ q) := by
    rw [chosen, chosen, chosenUp_parity mode neg hparity]
    split <;> rfl
  have hstep : k ≤ roundTo mode neg m e q false := hround ▸ le_chosen ..
  refine ⟨j * 2 ^ f.mbits + k, ⟨hval ▸ hle, hsucc ▸ hlt⟩, ?_⟩
  rw [hval, hsucc, hchosen, ← hround]
  exact assemble_eq_pack hf mode neg hq (hlow.imp_right fun h => h.trans hstep)

theorem Between.unique {f : FFmt} {n k : ℕ} {v : ℚ} (h : Between f n v) (h' : Between f k v) : n = k := by
  have hnk := (gridValue_strictMono f).lt_iff_lt.mp (h.1.trans_lt h'.2)
  have hkn := (gridValue_strictMono f).lt_iff_lt.mp (h'.1.trans_lt h.2)
  omega

/-! ## What the modes name, overflow and writing back (R25, R38, R40)

The statements on rounding, overflow and writing back (R28, R38, R40), from the place of a rounded value on the grid. -/

/-! ### What a mode names (R38), on one axis with `lo ≤ v < hi` and no representable value between `lo` and `hi`. -/

/-- The condition of `RoundsTo` that a rounded value `y` of `q` meets against one other representable value `z`. -/
def RoundsAt (mode : Rm) (q y z : ℚ) (even : Prop) : Prop :=
  match mode with
  | .rne => |y - q| ≤ |z - q| ∧ (z ≠ y → |y - q| = |z - q| → even)
  | .rtz => |y| ≤ |q| ∧ 0 ≤ y * q ∧ (|z| ≤ |q| → |z| ≤ |y|)
  | .rup => q ≤ y ∧ (q ≤ z → y ≤ z)
  | .rdn => y ≤ q ∧ (z ≤ q → z ≤ y)

theorem roundsTo_of_roundsAt {f : FFmt} {mode : Rm} {q : ℚ} {b : ℕ} (hfin : finite (f.read b))
    (h : ∀ k, finite (f.read k) → RoundsAt mode q (valueOf (f.read b)) (valueOf (f.read k)) (b % 2 = 0)) :
    RoundsTo f mode q b := by
  refine ⟨hfin, fun k hk => ?_⟩
  have hat := h k hk
  cases mode <;> simp only [RoundsAt] at hat ⊢ <;> exact_mod_cast hat

/-- The mode that rounds the negative of a value as a mode rounds the value. -/
def mirrored : Rm → Rm
  | .rup => .rdn
  | .rdn => .rup
  | mode => mode

theorem mirrored_mirrored (mode : Rm) : mirrored (mirrored mode) = mode := by cases mode <;> rfl

theorem chosenUp_mirrored (mode : Rm) (neg : Bool) (n : ℕ) (lo v hi : ℚ) :
    chosenUp (mirrored mode) neg n lo v hi = chosenUp mode (!neg) n lo v hi := by
  cases mode <;> simp [mirrored, chosenUp]

theorem roundsAt_mirrored (mode : Rm) (q y z : ℚ) (even : Prop) :
    RoundsAt (mirrored mode) (-q) (-y) (-z) even ↔ RoundsAt mode q y z even := by
  have hdist (a b : ℚ) : |-a + b| = |a - b| := by rw [← abs_neg, neg_add, neg_neg, sub_eq_add_neg]
  cases mode <;> simp [mirrored, RoundsAt, hdist]

section Neighbours

variable {n : ℕ} {lo v hi u : ℚ} (hlo : lo ≤ v) (hhi : v < hi)

include hlo hhi

/-- RNE: the nearer neighbour, and the even one of two that are equally near. -/
theorem nearest_of_chosen (neg : Bool) (hu : u ≤ lo ∨ hi ≤ u) :
    let y := if chosenUp .rne neg n lo v hi then hi else lo
    |y - v| ≤ |u - v| ∧ (u ≠ y → |y - v| = |u - v| → chosen .rne neg n lo v hi % 2 = 0) := by
  have hbelow (h : u ≤ lo) : |u - v| = v - u := by rw [abs_of_nonpos (by linarith), neg_sub]
  have habove (h : hi ≤ u) : |u - v| = u - v := abs_of_nonneg (by linarith)
  rcases hup : chosenUp .rne neg n lo v hi
  case false =>
    have hdlo : |lo - v| = v - lo := by rw [abs_of_nonpos (by linarith), neg_sub]
    simp only [chosen, hup, Bool.false_eq_true, if_false, hdlo]
    simp only [chosenUp, decide_eq_false_iff_not, not_or, not_and, not_lt] at hup
    obtain ⟨hmid, heven⟩ := hup
    rcases hu with hu | hu
    · rw [hbelow hu]
      exact ⟨by linarith, fun hne htie => absurd (by linarith) hne⟩
    · rw [habove hu]
      refine ⟨by linarith, fun _ htie => ?_⟩
      have := heven (by linarith)
      omega
  case true =>
    have hdhi : |hi - v| = hi - v := abs_of_nonneg (by linarith)
    simp only [chosen, hup, if_true, hdhi]
    simp only [chosenUp, decide_eq_true_iff] at hup
    have hmid : lo + hi ≤ 2 * v := hup.elim le_of_lt fun h => h.1.le
    rcases hu with hu | hu
    · rw [hbelow hu]
      refine ⟨by linarith, fun _ htie => ?_⟩
      rcases hup with hlt | ⟨-, hodd⟩
      · linarith
      · omega
    · rw [habove hu]
      exact ⟨by linarith, fun hne htie => absurd (by linarith) hne⟩

/-- Away from zero: the lower neighbour where it is the value itself, else the upper one. -/
theorem away_of_chosen (hu : u ≤ lo ∨ hi ≤ u) :
    v ≤ (if lo < v then hi else lo) ∧ (v ≤ u → (if lo < v then hi else lo) ≤ u) := by
  split <;> grind

/-- Towards zero: the lower neighbour. -/
theorem towards_of_chosen (hu : u ≤ lo ∨ hi ≤ u) : lo ≤ v ∧ (u ≤ v → u ≤ lo) := by
  grind

/-- The neighbour that a mode takes is the value that it names, for a positive value. -/
theorem roundsAt_chosen_pos (mode : Rm) (h0 : 0 ≤ lo) (hpos : u ≤ lo ∨ hi ≤ u) (hneg : -u ≤ lo ∨ hi ≤ -u) :
    RoundsAt mode v (if chosenUp mode false n lo v hi then hi else lo) u (chosen mode false n lo v hi % 2 = 0) := by
  cases mode
  case rne => exact nearest_of_chosen hlo hhi false hpos
  case rtz =>
    have habs : |u| ≤ lo ∨ hi ≤ |u| := by
      rcases abs_choice u with h | h <;> rw [h] <;> assumption
    simp only [RoundsAt, chosenUp, Bool.false_eq_true, if_false, abs_of_nonneg h0, abs_of_nonneg (h0.trans hlo)]
    obtain ⟨hle, hmax⟩ := towards_of_chosen hlo hhi habs
    exact ⟨hle, mul_nonneg h0 (h0.trans hlo), hmax⟩
  case rup => simpa [RoundsAt, chosenUp] using away_of_chosen hlo hhi hpos
  case rdn => simpa [RoundsAt, chosenUp] using towards_of_chosen hlo hhi hpos

/-- The same for either sign. -/
theorem roundsAt_chosen (mode : Rm) (neg : Bool) (h0 : 0 ≤ lo) (hu : ∀ s, signFactor s * u ≤ lo ∨ hi ≤ signFactor s * u) :
    RoundsAt mode (signFactor neg * v) (signFactor neg * if chosenUp mode neg n lo v hi then hi else lo) u
      (chosen mode neg n lo v hi % 2 = 0) := by
  have hpos : u ≤ lo ∨ hi ≤ u := by simpa [signFactor] using hu false
  have hneg : -u ≤ lo ∨ hi ≤ -u := by simpa [signFactor] using hu true
  cases neg
  case false => simpa [signFactor] using roundsAt_chosen_pos (n := n) hlo hhi mode h0 hpos hneg
  case true =>
    have h := roundsAt_chosen_pos (n := n) hlo hhi (mirrored mode) h0 hneg (by rwa [neg_neg])
    rw [chosen, chosenUp_mirrored, Bool.not_false, ← roundsAt_mirrored, mirrored_mirrored, neg_neg] at h
    simp only [signFactor, if_true, neg_one_mul]
    exact h

end Neighbours

/-! ### The place of a value on the grid. -/

theorem between_zero {f : FFmt} : Between f 0 0 := by
  refine ⟨(gridValue_zero f).le, ?_⟩
  simpa [gridValue_zero] using gridValue_lt_succ f 0

theorem Between.of_grid (f : FFmt) (b : ℕ) : Between f b (gridValue f b) := ⟨le_rfl, gridValue_lt_succ f b⟩

/-- No representable value, of either sign, lies between two neighbours of the grid. -/
theorem gridValue_neighbours (f : FFmt) (n : ℕ) (s : Bool) (b : ℕ) :
    signFactor s * gridValue f b ≤ gridValue f n ∨ gridValue f (n + 1) ≤ signFactor s * gridValue f b := by
  have hn := gridValue_nonneg f n
  have hb := gridValue_nonneg f b
  cases s
  case false =>
    simp only [signFactor, Bool.false_eq_true, if_false, one_mul, (gridValue_strictMono f).le_iff_le]
    omega
  case true =>
    simp only [signFactor, if_true]
    exact .inl (by linarith)

/-- Every finite value lies between two points of the grid, and is written as the one that the mode chooses. -/
theorem write_spec {f : FFmt} (hf : HasFields f) (mode : Rm) {x : FNum} (hx : finite x) :
    ∃ n, Between f n |valueOf x| ∧
      f.write mode x = pack f mode x.isNeg (chosen mode x.isNeg n (gridValue f n) |valueOf x| (gridValue f (n + 1))) := by
  rcases x with _ | _ | s | ⟨s, m, e⟩ <;> try contradiction
  case zero =>
    refine ⟨0, by simpa [valueOf] using between_zero, ?_⟩
    have hval : |valueOf (.zero s)| = gridValue f 0 := by simp [valueOf, gridValue_zero]
    rw [hval, chosen_exact _ _ _ (gridValue_lt_succ f 0)]
    simp [pack, FFmt.write, FNum.isNeg]
  case fin =>
    rw [abs_valueOf_fin]
    exact round_spec hf mode s hx e

/-! ### Rounding within the range (R38). -/

theorem gridValue_chosen (f : FFmt) (mode : Rm) (neg : Bool) (n : ℕ) (lo v hi : ℚ) :
    gridValue f (chosen mode neg n lo v hi) = if chosenUp mode neg n lo v hi then gridValue f (n + 1) else gridValue f n := by
  rw [chosen, apply_ite (gridValue f)]

theorem chosen_le_of_le {f : FFmt} {mode : Rm} {neg : Bool} {n b : ℕ} {v : ℚ} (h : Between f n v) (hv : v ≤ gridValue f b) :
    chosen mode neg n (gridValue f n) v (gridValue f (n + 1)) ≤ b := by
  rw [chosen]
  split
  · exact (gridValue_strictMono f).lt_iff_lt.mp ((lt_of_chosenUp h.2 ‹_›).trans_le hv)
  · exact (gridValue_strictMono f).le_iff_le.mp (h.1.trans hv)

theorem largest_eq {f : FFmt} (hf : HasFields f) : largest f = gridValue f f.maxBits := by
  have h := read_signed hf false le_rfl
  rw [show f.signBit false + f.maxBits = f.maxBits from Nat.zero_add _] at h
  rw [largest, h, valueOf_numOf]
  exact one_mul _

theorem signBit_even {f : FFmt} (hf : HasFields f) (s : Bool) : f.signBit s % 2 = 0 := by
  obtain ⟨c, hc⟩ := Nat.exists_eq_add_of_lt hf.mbits_pos
  cases s <;> simp [FFmt.signBit, hc, pow_succ, ← add_assoc]

theorem write_roundsTo {f : FFmt} (hf : HasFields f) (mode : Rm) {x : FNum} (hx : finite x) (hr : |valueOf x| ≤ largest f) :
    RoundsTo f mode (valueOf x) (f.write mode x) ∧ (f.read (f.write mode x)).isNeg = x.isNeg := by
  obtain ⟨n, hn, hw⟩ := write_spec hf mode hx
  rw [largest_eq hf] at hr
  have hle := chosen_le_of_le (mode := mode) (neg := x.isNeg) hn hr
  have hval := gridValue_chosen f mode x.isNeg n (gridValue f n) |valueOf x| (gridValue f (n + 1))
  have hat (u : ℚ) := roundsAt_chosen (n := n) (u := u) hn.1 hn.2 mode x.isNeg (gridValue_nonneg f n)
  rw [hw, pack, if_neg (by omega)]
  set b := chosen mode x.isNeg n (gridValue f n) |valueOf x| (gridValue f (n + 1))
  have hread := read_signed hf x.isNeg hle
  refine ⟨roundsTo_of_roundsAt (by rw [hread]; exact finite_numOf ..) fun k hk => ?_, by rw [hread, isNeg_numOf]⟩
  rw [hread, read_of_le hf ((finite_read_iff hf).mp hk), valueOf_numOf, valueOf_numOf, valueOf_eq_sign_mul_abs hx, hval,
    Nat.add_mod, signBit_even hf, Nat.zero_add, Nat.mod_mod]
  refine hat _ fun s => ?_
  rw [← mul_assoc, signFactor_mul_signFactor]
  exact gridValue_neighbours f n _ _

theorem rounding : Rules.Rounding := fun _ ht mode _ hx hr => write_roundsTo (hasFields ht) mode hx hr

/-! ### Overflow (R40, Table 2.10). -/

theorem gap_eq {f : FFmt} (hf : HasFields f) : gap f = gridValue f (f.maxBits + 1) - gridValue f f.maxBits := by
  have h := read_signed hf false le_rfl
  have hne : f.maxBits ≠ 0 := by
    have := mantissa_le_maxBits hf (Nat.one_lt_two_pow hf.mbits_pos.ne')
    omega
  rw [show f.signBit false + f.maxBits = f.maxBits from Nat.zero_add _, numOf, if_neg hne] at h
  rw [gap, h, gridValue_succ, gridValue]
  ring

/-- Whether an overflow gives an infinity, in a format that has one (R40). -/
def toInfinity (mode : Rm) (neg : Bool) : Bool :=
  match mode with
  | .rne => true
  | .rtz => false
  | .rup => !neg
  | .rdn => neg

/-- R40: an overflow gives the infinity, or else the largest finite value, of its sign. -/
theorem overflow_eq {f : FFmt} (hf : HasFields f) (mode : Rm) (neg : Bool) :
    f.overflow mode neg =
      f.signBit neg + (if f.kind = .ieee ∧ toInfinity mode neg = true then f.maxBits + 1 else f.maxBits) := by
  rcases hk : f.kind
  case ieee =>
    have hinf := infBits_eq hf neg
    cases mode <;> cases neg <;> simp [FFmt.overflow, toInfinity, hk, hinf]
  all_goals simp [FFmt.overflow, hk]

/-- Half the gap above the largest finite value: the middle between it and the next point of the grid. -/
theorem half_gap_le_iff {f : FFmt} (hf : HasFields f) (v : ℚ) :
    largest f + gap f / 2 ≤ v ↔ gridValue f f.maxBits + gridValue f (f.maxBits + 1) ≤ 2 * v := by
  rw [largest_eq hf, gap_eq hf]
  constructor <;> intro h <;> linarith

/-- With infinities, the largest finite encoding is odd: a tie above it goes to infinity. -/
theorem maxBits_odd {f : FFmt} (hf : HasFields f) (hk : f.kind = .ieee) : f.maxBits % 2 = 1 := by
  have h := maxBits_ieee hf hk
  obtain ⟨c, hc⟩ := Nat.exists_eq_add_of_lt hf.mbits_pos
  rw [hc, pow_succ, ← mul_assoc] at h
  omega

/-- Whether a magnitude `v` above the largest finite one is rounded up from it, in a format with infinities. -/
def upAtTop (f : FFmt) (mode : Rm) (neg : Bool) (v : ℚ) : Bool :=
  match mode with
  | .rne => decide (gridValue f f.maxBits + gridValue f (f.maxBits + 1) ≤ 2 * v)
  | .rtz => false
  | .rup => !neg
  | .rdn => neg

theorem overflowed_eq {t : Tag} (ht : t ∈ floatTypes) (mode : Rm) (neg : Bool) (v : ℚ) :
    overflowed t mode neg v = (ffmtOf t).signBit neg +
      (if (ffmtOf t).kind = .ieee ∧ upAtTop (ffmtOf t) mode neg |v| = true then (ffmtOf t).maxBits + 1
        else (ffmtOf t).maxBits) := by
  refine congrArg _ (if_congr (and_congr (hasInf_iff ht) ?_) rfl rfl)
  cases mode
  case rne => simp [upAtTop, half_gap_le_iff (hasFields ht)]
  all_goals rfl

/-- Beyond the next point of the grid every mode but those towards zero goes up. -/
theorem upAtTop_beyond {f : FFmt} (mode : Rm) (neg : Bool) {v : ℚ} (h : gridValue f (f.maxBits + 1) ≤ v) :
    upAtTop f mode neg v = toInfinity mode neg := by
  have hstep := gridValue_lt_succ f f.maxBits
  cases mode
  case rne => exact decide_eq_true (by linarith)
  all_goals rfl

/-- Before the next point the choice is that of rounding; a tie goes up because the largest finite encoding is odd. -/
theorem upAtTop_last {f : FFmt} (mode : Rm) (neg : Bool) {v : ℚ} (hodd : f.maxBits % 2 = 1) (h : gridValue f f.maxBits < v) :
    upAtTop f mode neg v = chosenUp mode neg f.maxBits (gridValue f f.maxBits) v (gridValue f (f.maxBits + 1)) := by
  cases mode <;> simp [upAtTop, chosenUp, h, hodd, le_iff_lt_or_eq]

theorem toInfinity_of_chosenUp {mode : Rm} {neg : Bool} {n : ℕ} {lo v hi : ℚ} (h : chosenUp mode neg n lo v hi = true) :
    toInfinity mode neg = true := by
  cases mode <;> simp_all [chosenUp, toInfinity]

/-- The packing of a magnitude above the largest finite one. -/
theorem pack_chosen_top {f : FFmt} (hf : HasFields f) (mode : Rm) (neg : Bool) {n : ℕ} {v : ℚ} (hn : Between f n v)
    (hv : gridValue f f.maxBits < v) :
    pack f mode neg (chosen mode neg n (gridValue f n) v (gridValue f (n + 1))) =
      f.signBit neg + (if f.kind = .ieee ∧ upAtTop f mode neg v = true then f.maxBits + 1 else f.maxBits) := by
  have hmono := gridValue_strictMono f
  have hle := le_chosen mode neg n (gridValue f n) v (gridValue f (n + 1))
  rcases (Nat.le_of_lt_succ (hmono.lt_iff_lt.mp (hv.trans hn.2))).eq_or_lt with rfl | hlt
  · by_cases hk : f.kind = .ieee
    · rw [upAtTop_last mode neg (maxBits_odd hf hk) hv, pack, chosen, overflow_eq hf]
      rcases hup : chosenUp mode neg f.maxBits (gridValue f f.maxBits) v (gridValue f (f.maxBits + 1))
      · simp
      · simp [hk, toInfinity_of_chosenUp hup]
    · rw [pack, overflow_eq hf]
      simp only [hk, false_and, if_false]
      split <;> omega
  · rw [pack, if_pos (by omega), overflow_eq hf, upAtTop_beyond mode neg ((hmono.monotone hlt).trans hn.1)]

theorem write_overflow {t : Tag} (ht : t ∈ floatTypes) (mode : Rm) {x : FNum} (hx : finite x)
    (hr : largest (ffmtOf t) < |valueOf x|) : (ffmtOf t).write mode x = overflowed t mode x.isNeg (valueOf x) := by
  obtain ⟨n, hn, hw⟩ := write_spec (hasFields ht) mode hx
  rw [largest_eq (hasFields ht)] at hr
  rw [hw, pack_chosen_top (hasFields ht) mode x.isNeg hn hr, overflowed_eq ht]

theorem write_inf {t : Tag} (ht : t ∈ floatTypes) (mode : Rm) (neg : Bool) :
    (ffmtOf t).write mode (.inf neg) =
      (ffmtOf t).signBit neg + (if hasInf t then (ffmtOf t).maxBits + 1 else (ffmtOf t).maxBits) := by
  rw [FFmt.write, infBits_eq (hasFields ht)]
  simp only [hasInf_iff ht]

theorem overflow : Rules.Overflow := fun _ ht mode => ⟨fun _ hx hr => write_overflow ht mode hx hr, write_inf ht mode⟩

/-! ### Writing back (R25, R28). -/

theorem write_numOf {f : FFmt} (hf : HasFields f) (mode : Rm) (s : Bool) {b : ℕ} (hb : b ≤ f.maxBits) :
    f.write mode (numOf f s b) = f.signBit s + b := by
  obtain ⟨n, hn, hw⟩ := write_spec hf mode (finite_numOf f s b)
  have habs : |valueOf (numOf f s b)| = gridValue f b := by
    rw [valueOf_numOf, abs_signFactor_mul, abs_of_nonneg (gridValue_nonneg f b)]
  rw [habs] at hn hw
  obtain rfl := hn.unique (.of_grid f b)
  rw [hw, chosen_exact _ _ _ (gridValue_lt_succ f n), pack, if_neg (by omega), isNeg_numOf]

theorem write_read {f : FFmt} (hf : HasFields f) (mode : Rm) {x : ℕ} (hx : x < 2 ^ (f.ebits + f.mbits + 1))
    (hnan : f.read x ≠ .nan) : f.write mode (f.read x) = x := by
  rcases le_or_gt (magBits f x) f.maxBits with h | h
  · rw [read_of_le hf h, write_numOf hf mode _ h, signBit_add_magBits hx]
  · have hread := read_of_gt hf h
    split at hread
    case isTrue hinf =>
      rw [hread, FFmt.write, infBits_eq hf, if_pos hinf.1, ← hinf.2, signBit_add_magBits hx]
    case isFalse => exact (hnan hread).elim

theorem encodingsRoundTrip : Rules.EncodingsRoundTrip := by
  intro t ht mode x hx hnan
  rw [bits_eq ht] at hx
  exact write_read (hasFields ht) mode hx hnan

/-- Settles O13: every part from the grid of representable magnitudes and the exact arithmetic of integer multiples. -/
theorem roundingAndFormats : Obligations.RoundingAndFormats :=
  ⟨rounding, overflow, formatValues, encodingsRoundTrip, canonicalNan, exactSumsAndProducts, specialOperands, valueOrder,
    exactSums⟩

end Sys2Proof.Formats

/-!
PROOFS. The context (05): special registers and system instructions (O14, O15).
-/

namespace Sys2Proof.ContextProofs

open Sys2Proof Sys2Proof.Machine Sys2Proof.Rules

/-! ## Instructions that write strand state -/

section
variable {s : State} {c : Cur} {i : Instr}

/-- An instruction that writes a scalar, from a value that it reads of the package. -/
theorem computes_setS {F : State → Cur → Except Stop (State × Cur)} {d : SReg} {x : W64} (hr : Ready s c 1 .none)
    (hroom : Room c c) (hi : exec i s = s.issue Form.strand F) (hF : F s c.openChunk = .ok (s, c.openChunk.setS d x)) :
    Computes s c i 1 .none (c.setS d x) :=
  computes_of (g := fun c => c.setS d x) hr (room_logged (room_openChunk hroom) (logged_setS _ d x)) hi rfl rfl (by decide) hF
    (wrote_setS _ d x) (regs_setS_openChunk c d x)

/-- `f` changes strand state, but not where the strand stands. -/
def KeepsPlace (f : StrandCore → StrandCore) : Prop :=
  ∀ k, (f k).pc = k.pc ∧ (f k).hdr = k.hdr ∧ (f k).hword = k.hword ∧ (f k).inClause = k.inClause

theorem wrote_mapCore_keeps (c : Cur) {f : StrandCore → StrandCore} (h : KeepsPlace f) : c.Wrote (c.mapCore f) :=
  have ⟨h1, h2, h3, h4⟩ := h c.t.core
  wrote_mapCore c f h1 h2 h3 h4

/-- An instruction that writes special registers. -/
theorem computes_mapCore {F : State → Cur → Except Stop (State × Cur)} {f : StrandCore → StrandCore} (hr : Ready s c 1 .none)
    (hroom : Room c c) (hi : exec i s = s.issue Form.strand F) (hF : F s c.openChunk = .ok (s, c.openChunk.mapCore f))
    (hf : KeepsPlace f) : Computes s c i 1 .none (c.mapCore f) :=
  computes_of (g := fun c => c.mapCore f) hr (room_logged (room_openChunk hroom) (logged_mapCore _ f)) hi rfl rfl (by decide)
    hF (wrote_mapCore_keeps _ hf) (regs_mapCore_openChunk c f)

theorem meets_strand {F : State → Cur → Except Stop (State × Cur)} {st : Stop} (hr : Ready s c 1 .none)
    (hi : exec i s = s.issue Form.strand F) (hF : F s c.openChunk = .error st) : Meets s c i c.em st :=
  meets_of (fm := Form.strand) hr hi rfl rfl hF

end

/-! ## SRD and SWR (R100) -/

theorem special_openChunk (s : State) (c : Cur) (n : ℕ) : c.openChunk.special s n = c.special s n := by
  have hq : c.openChunk.t.sqcnt = c.t.sqcnt := by rw [openChunk_t]
  simp only [Cur.special, Cur.width, openChunk_core, Cur.openChunk_crew, Cur.openChunk_warp, hq]

theorem special_of_mem {s : State} {c : Cur} {n : ℕ} {x : W64} (h : (n, x) ∈ specialRead s c) : c.special s n = some x := by
  simp only [specialRead, List.mem_cons, Prod.mk.injEq, List.not_mem_nil, or_false] at h
  rcases h with ⟨rfl, rfl⟩ | ⟨rfl, rfl⟩ | ⟨rfl, rfl⟩ | ⟨rfl, rfl⟩ | ⟨rfl, rfl⟩ | ⟨rfl, rfl⟩ | ⟨rfl, rfl⟩ | ⟨rfl, rfl⟩ |
    ⟨rfl, rfl⟩ <;> rfl

theorem special_reserved (s : State) (c : Cur) {n : ℕ} (h : 8 < n) : c.special s n = none := by
  obtain ⟨m, rfl⟩ := Nat.exists_eq_add_of_lt h
  rw [show 8 + m + 1 = m + 9 by omega]
  rfl

theorem srd_computes {s : State} {c : Cur} {sd : SReg} {n : BitVec 32} {x : W64} (hr : Ready s c 1 .none) (hroom : Room c c)
    (h : (n.toNat, x) ∈ specialRead s c) : Computes s c (.srd sd n) 1 .none (c.setS sd x) :=
  computes_setS hr hroom rfl (by rw [special_openChunk, special_of_mem h])

theorem srd_reserved {s : State} {c : Cur} {sd : SReg} {n : BitVec 32} (hr : Ready s c 1 .none) (h : 8 < n.toNat) :
    Meets s c (.srd sd n) c.em (.word .illegalOperand 0) :=
  meets_strand hr rfl (by rw [special_openChunk, special_reserved s c h]; rfl)

/-- SWR completes where the write of its special register does. -/
theorem swr_computes {s : State} {c : Cur} {sa : SReg} {n : BitVec 32} {f : StrandCore → StrandCore} (hr : Ready s c 1 .none)
    (hroom : Room c c) (hf : KeepsPlace f) (h : swr s c.openChunk n.toNat (c.sr sa) = .ok (c.openChunk.mapCore f)) :
    Computes s c (.swr n sa) 1 .none (c.mapCore f) :=
  computes_mapCore hr hroom rfl (by rw [openChunk_sr, h]; rfl) hf

theorem swr_meets {s : State} {c : Cur} {sa : SReg} {n : BitVec 32} {st : Stop} (hr : Ready s c 1 .none)
    (h : swr s c.openChunk n.toNat (c.sr sa) = .error st) : Meets s c (.swr n sa) c.em st :=
  meets_strand hr rfl (by rw [openChunk_sr, h]; rfl)

theorem chlimOk_iff (x : W64) : chlimOk x = true ↔ 32 ≤ x.toNat ∧ x.toNat ≤ 4096 := decide_eq_true_iff

theorem swr_batchn (s : State) (c : Cur) (x : W64) : swr s c 7 x =
    if s.batchPending c.ref.w then .error (.trap .batchBad 0 c.t.core.batchn.toNat none)
    else .ok (c.mapCore (fun k => { k with batchn := x.setWidth 32 })) := rfl

theorem swr_acr (s : State) (c : Cur) (x : W64) : swr s c 2 x =
    if x.toNat < 1024 then .ok (c.mapCore (fun k => { k with acr := x.setWidth 10 })) else .error illegalOperand := rfl

theorem swr_chlim (s : State) (c : Cur) (x : W64) : swr s c 5 x =
    if chlimOk x then .ok (c.mapCore (fun k => { k with chlim := x.toNat })) else .error illegalOperand := rfl

/-- Reserved numbers and the registers that cannot be written. -/
theorem swr_unwritable (s : State) (c : Cur) (x : W64) {n : ℕ} (h : n ∉ [0, 1, 2, 5, 7]) :
    swr s c n x = .error illegalOperand := by
  simp only [List.mem_cons, List.not_mem_nil, or_false, not_or] at h
  obtain ⟨h0, h1, h2, h5, h7⟩ := h
  unfold swr
  split
  · exact absurd rfl h0
  · exact absurd rfl h1
  · exact absurd rfl h2
  · exact absurd rfl h5
  · exact absurd rfl h7
  · rfl

theorem specialRegisters_rule : Rules.SpecialRegisters := by
  refine ⟨fun s c sd n hr hroom => ⟨fun x => srd_computes hr hroom, srd_reserved hr⟩, fun s c sa n hr hroom => ?_⟩
  refine ⟨?_, ?_, ?_, ?_, ?_, ?_, ?_⟩
  · rintro rfl
    exact swr_computes hr hroom (fun _ => ⟨rfl, rfl, rfl, rfl⟩) rfl
  · rintro rfl
    exact swr_computes hr hroom (fun _ => ⟨rfl, rfl, rfl, rfl⟩) rfl
  · rintro rfl hx
    exact swr_computes hr hroom (fun _ => ⟨rfl, rfl, rfl, rfl⟩) ((swr_acr s _ _).trans (if_pos hx))
  · rintro rfl hlo hhi
    exact swr_computes hr hroom (fun _ => ⟨rfl, rfl, rfl, rfl⟩)
      ((swr_chlim s _ _).trans (if_pos ((chlimOk_iff _).mpr ⟨hlo, hhi⟩)))
  · rintro rfl hb
    refine swr_computes hr hroom (fun _ => ⟨rfl, rfl, rfl, rfl⟩) ((swr_batchn s _ _).trans (if_neg ?_))
    simp [hb]
  · rintro rfl hb
    refine swr_meets hr ((swr_batchn s _ _).trans ?_)
    rw [openChunk_core, Cur.openChunk_ref, if_pos hb]
  · rintro (hn | ⟨rfl, hx⟩ | ⟨rfl, hx⟩)
    · exact swr_meets hr (swr_unwritable s _ _ hn)
    · exact swr_meets hr ((swr_acr s _ _).trans (if_neg (by omega)))
    · exact swr_meets hr ((swr_chlim s _ _).trans (if_neg (by rwa [chlimOk_iff])))

/-! ## CSRR and CSRW (R95 to R97) -/

theorem csrr_computes {s : State} {c : Cur} {sd : SReg} {n : BitVec 32} {x : W64} (hr : Ready s c 1 .none) (hroom : Room c c)
    (hh : c.t.core.trap.h = true) (hx : (n.toNat, x) ∈ trapRead c) : Computes s c (.csrr sd n) 1 .none (c.setS sd x) := by
  refine computesC_of (g := fun c => c.setS sd x) hr (room_logged (room_openChunk hroom) (logged_setS _ sd x)) rfl rfl rfl
    (by decide) ?_ (wrote_setS _ sd x) (regs_setS_openChunk c sd x)
  simp only [trapRead, List.mem_cons, Prod.mk.injEq, List.not_mem_nil, or_false] at hx
  rcases hx with ⟨hn, rfl⟩ | ⟨hn, rfl⟩ | ⟨hn, rfl⟩ | ⟨hn, rfl⟩ | ⟨hn, rfl⟩ | ⟨hn, rfl⟩ <;>
    simp only [openChunk_core, tstatus, hh, hn, Cur.width, Cur.openChunk_warp, Cur.openChunk_ref] <;> rfl

theorem csrr_reserved {s : State} {c : Cur} {sd : SReg} {n : BitVec 32} (hr : Ready s c 1 .none)
    (hh : c.t.core.trap.h = true) (hn : 5 < n.toNat) : Meets s c (.csrr sd n) c.em (.word .illegalOperand 0) := by
  refine meetsC_of (fm := Form.strand) hr rfl rfl rfl ?_
  obtain ⟨m, hm⟩ := Nat.exists_eq_add_of_lt hn
  simp only [openChunk_core, hh, show n.toNat = m + 6 by omega]
  rfl

theorem csrr_priv {s : State} {c : Cur} {sd : SReg} {n : BitVec 32} (hr : Ready s c 1 .none)
    (hh : c.t.core.trap.h = false) : Meets s c (.csrr sd n) c.em (.word .priv 0) := by
  refine meetsC_of (fm := Form.strand) hr rfl rfl rfl ?_
  simp only [openChunk_core, hh]
  rfl

theorem csrw_reserved {s : State} {c : Cur} {sa : SReg} {n : BitVec 32} (hr : Ready s c 1 .none)
    (hh : c.t.core.trap.h = true) (hn : 5 < n.toNat) : Meets s c (.csrw n sa) c.em (.word .illegalOperand 0) := by
  refine meetsC_of (fm := Form.strand) hr rfl rfl rfl ?_
  obtain ⟨m, hm⟩ := Nat.exists_eq_add_of_lt hn
  simp only [openChunk_core, hh, show n.toNat = m + 6 by omega]
  rfl

theorem csrw_priv {s : State} {c : Cur} {sa : SReg} {n : BitVec 32} (hr : Ready s c 1 .none)
    (hh : c.t.core.trap.h = false) : Meets s c (.csrw n sa) c.em (.word .priv 0) := by
  refine meetsC_of (fm := Form.strand) hr rfl rfl rfl ?_
  simp only [openChunk_core, hh]
  rfl

theorem trapRegisters_rule : Rules.TrapRegisters := by
  refine ⟨fun s c sd n hr hroom => ⟨fun hh => ⟨fun x => csrr_computes hr hroom hh, csrr_reserved hr hh⟩, csrr_priv hr⟩,
    fun s c sa n hr hroom => ⟨fun hh => ?_, csrw_priv hr⟩⟩
  refine ⟨?_, ?_, ?_, ?_, ?_, ?_, csrw_reserved hr hh⟩ <;>
  · rintro rfl
    refine computes_mapCore hr hroom rfl ?_ (fun _ => ⟨rfl, rfl, rfl, rfl⟩)
    simp only [openChunk_core, openChunk_sr, hh, Cur.width, Cur.openChunk_warp]
    rfl

/-- Settles O14: every special and trap control register, by the one write of strand state that it is. -/
theorem specialRegisters : Obligations.SpecialRegisters := ⟨specialRegisters_rule, trapRegisters_rule⟩

end Sys2Proof.ContextProofs

/-!
PROOFS. The context (05): transfers, and NOP, YIELD, CHEND, CHCFG, IDRD and WQRY (O15).
-/

namespace Sys2Proof.ContextProofs

open Sys2Proof Sys2Proof.Machine Sys2Proof.Rules

/-! ## Transfers -/

/-- `d` is `o` with other strand state and other registers, and its chunk perhaps ended. -/
structure Moved (o d : Cur) : Prop where
  ref   : d.ref = o.ref
  crew  : d.crew = o.crew
  free  : d.free = o.free
  acc   : d.acc = o.acc
  warp  : d.warp = { o.warp with vregs := d.warp.vregs, gregs := d.warp.gregs, preds := d.warp.preds, tiles := d.warp.tiles }
  t     : d.t = { o.t with core := d.t.core, chunk := { o.t.chunk with st := d.t.chunk.st } }
  hword : d.t.core.hword = o.t.core.hword

theorem moved_endChunk (o : Cur) : Moved o o.endChunk := ⟨rfl, rfl, rfl, rfl, rfl, rfl, rfl⟩

theorem place_of_core {d : Cur} {p : Place} (h1 : d.t.core.pc = p.pc) (h2 : d.t.core.hdr = p.hdr)
    (h3 : d.t.core.inClause = p.inClause) : d.place = p := by
  cases p
  simp_all [Cur.place]

theorem retire_chunk (d : Cur) (fm : Form) : (d.retire fm).t.chunk = (d.counted fm).t.chunk := by
  rw [retire_eq]
  split
  · rfl
  · rw [advance_t]

theorem retire_hword (d : Cur) (fm : Form) : (d.retire fm).t.core.hword = d.t.core.hword := by
  rw [retire_eq]
  split
  · rfl
  · rw [advance_hword]; rfl

theorem retire_regs (d : Cur) (fm : Form) : (d.retire fm).regs = d.regs := by
  rw [retire_eq]
  split
  · rfl
  · rw [advance_regs]; rfl

theorem retire_t (d : Cur) (fm : Form) : (d.retire fm).t = { (d.counted fm).t with core := (d.retire fm).t.core } := by
  rw [retire_eq]
  split
  · rfl
  · exact advance_t _ _

/-- The one-word instruction or control transfer whose effect on its strand is `g`. -/
theorem transfers_of {s : State} {c : Cur} {i : Instr} {n : ℕ} {fm : Form} {F : State → Cur → Except Stop (State × Cur)}
    {g : Cur → Cur} {p : Place} {ended : Bool} (hr : Ready s c n .none) (hroom : Room c (g c.openChunk))
    (hi : exec i s = s.issue fm F) (hn : fm.words = n) (hn1 : n ≤ 1) (hc : fm.cf = .none)
    (hF : F s c.openChunk = .ok (s, g c.openChunk)) (hw : Moved c.openChunk (g c.openChunk))
    (hst : (g c.openChunk).t.chunk.st = if ended then .ended else .opened)
    (hp : ((g c.openChunk).retire fm).place = p) {d : Cur} (hd : (g c.openChunk).regs = d.regs) :
    Transfers s c i p ended d := by
  obtain ⟨hhas, hbrief, hin⟩ := hr.state
  have hpends : (g c.openChunk).t.pends = [] := by rw [hw.t]; simp [hr.calm]
  have hat : s.attempt c fm F = .ok (s, g c.openChunk) := attempt_ok hr hn hc hF hpends (exceeds_false hroom)
  have hwait : (g c.openChunk).t.wait.brief := by
    rw [hw.t]
    show c.openChunk.t.wait.brief
    rw [openChunk_t]
    exact hbrief
  have hacc : s.caches.note (g c.openChunk).crew.core (g c.openChunk).acc = s.caches := by
    rw [hw.acc, Cur.openChunk_acc, ((curOf_iff _ _ _).mp hr.curOf).2.2.2.2.2.2]
    rfl
  have hex : exec i s = .next { s.putCur ((g c.openChunk).retire fm) with free := s.free + 1, caches := s.caches } := by
    rw [hi]
    unfold State.issue
    rw [hr.focus]
    simp only [hr.may, if_true]
    unfold State.perform
    rw [hat]
    dsimp only
    unfold State.after
    rw [hacc]
  have hof : c.Of ((g c.openChunk).retire fm) :=
    ⟨by simp [hw.ref], by simp [hw.crew], by simp; rw [hw.warp]; simp, by simp; rw [hw.warp]; simp⟩
  have hel := elsewhere_put s.caches hr.curOf hof (by simp; rw [hw.warp]; simp)
  have ht := retire_t (g c.openChunk) fm
  have hch : ((g c.openChunk).counted fm).t.chunk = { (g c.openChunk).t.chunk with
      count := (g c.openChunk).t.chunk.count + Nat.max 1 fm.words,
      shadow := ((g c.openChunk).counted fm).t.chunk.shadow, lastUse := ((g c.openChunk).counted fm).t.chunk.lastUse } := rfl
  have hch0 : (g c.openChunk).t.chunk = { c.openChunk.t.chunk with st := (g c.openChunk).t.chunk.st } := by
    conv_lhs => rw [hw.t]
  refine ⟨_, _, hex, hel, ⟨rfl, rfl, rfl⟩, ⟨?_, ?_, ?_, ?_, ?_, ?_⟩, ?_, ?_, hp, ?_⟩
  · show ((g c.openChunk).retire fm).t.chunk.count = _
    rw [retire_chunk, hch, hch0]
    show c.openChunk.t.chunk.count + Nat.max 1 fm.words = _
    rw [openChunk_count hhas, hn]
    congr 1
    show max 1 n = max 1 0
    omega
  · show ((g c.openChunk).retire fm).t.earlier = _
    rw [ht]
    show (g c.openChunk).t.earlier = _
    rw [hw.t]
    exact openChunk_earlier c
  · show ((g c.openChunk).retire fm).t.wait = _
    rw [ht]
    exact counted_wait fm hwait
  · show ((g c.openChunk).retire fm).t.pends.map _ = _
    rw [ht]
    show ((g c.openChunk).t.pends ++ _).map _ = _
    rw [hpends, hc]
    rfl
  · show ((g c.openChunk).retire fm).t.sqcnt = _
    rw [ht]
    show (g c.openChunk).t.sqcnt = _
    rw [hw.t]
    show c.openChunk.t.sqcnt = _
    rw [openChunk_t]
  · show ((g c.openChunk).retire fm).t.core.hword = _
    rw [retire_hword, hw.hword, openChunk_core]
  · show ((g c.openChunk).retire fm).t.chunk.st = _
    rw [retire_chunk, hch]
    exact hst
  · have hk : ((g c.openChunk).retire fm).t.chunk = _ := (retire_chunk _ _).trans (hch.trans (by rw [hch0]))
    constructor <;> (show _ = _; simp only [Cur.back, hk])
  · show ((g c.openChunk).retire fm).regs = _
    rw [retire_regs, hd]

/-! ## NOP, YIELD, CHEND (R101, R206) -/

theorem computes_nothing {s : State} {c : Cur} {i : Instr} (hr : Ready s c 1 .none) (hroom : Room c c)
    (hi : exec i s = s.issueC Form.strand (fun c => .ok c)) : Computes s c i 1 .none c :=
  computesC_of (g := id) hr (room_openChunk hroom) hi rfl rfl (by decide) rfl (Cur.Wrote.refl _) (regs_openChunk c)

theorem room_of_chunk {c d e : Cur} (h : Room c d) (hb : e.beyond = d.beyond) (ht : e.tilesWritten = d.tilesWritten) :
    Room c e := by
  unfold Room
  rwa [hb, ht]

theorem room_endChunk {b c : Cur} (h : Room b c) : Room b c.endChunk := room_of_chunk h rfl rfl

theorem chend_transfers {s : State} {c : Cur} (hr : Ready s c 1 .none) (hroom : Room c c) :
    Transfers s c .chend (c.behind 1) true c := by
  have hin := hr.state.2.2
  refine transfers_of (g := Cur.endChunk) (fm := Form.strand) hr (room_endChunk (room_openChunk hroom)) rfl rfl
    (le_refl 1) rfl rfl (moved_endChunk _) rfl ?_ (regs_openChunk c)
  have hbrief : c.openChunk.endChunk.t.wait.brief := by
    show c.openChunk.t.wait.brief
    rw [openChunk_t]
    exact hr.state.2.1
  rw [retire_eq, counted_wait _ hbrief]
  show ((c.openChunk.endChunk.counted Form.strand).advance 1).place = _
  exact advance_place 1 (congrArg _ (openChunk_core c)) (congrArg _ (openChunk_core c)) (congrArg _ (openChunk_core c))
    (congrArg _ (openChunk_core c))

/-! ## IDRD and CHCFG (R101, R207) -/

theorem ident_of_mem {c : Cur} {n x : ℕ} (h : (n, x) ∈ identity c) : c.ident n = some x := by
  simp only [identity, List.mem_cons, Prod.mk.injEq, List.not_mem_nil, or_false] at h
  rcases h with ⟨rfl, rfl⟩ | ⟨rfl, rfl⟩ | ⟨rfl, rfl⟩ | ⟨rfl, rfl⟩ | ⟨rfl, rfl⟩ | ⟨rfl, rfl⟩ | ⟨rfl, rfl⟩ | ⟨rfl, rfl⟩ |
    ⟨rfl, rfl⟩ | ⟨rfl, rfl⟩ <;> rfl

theorem ident_reserved (c : Cur) {n : ℕ} (h : 9 < n) : c.ident n = none := by
  obtain ⟨m, rfl⟩ := Nat.exists_eq_add_of_lt h
  rw [show 9 + m + 1 = m + 10 by omega]
  rfl

theorem ident_openChunk (c : Cur) (n : ℕ) : c.openChunk.ident n = c.ident n := by
  simp only [Cur.ident, Cur.openChunk_crew, Cur.openChunk_warp, Cur.openChunk_ref]

theorem idrd_computes {s : State} {c : Cur} {sd : SReg} {n : BitVec 32} {x : ℕ} (hr : Ready s c 1 .none) (hroom : Room c c)
    (h : (n.toNat, x) ∈ identity c) : Computes s c (.idrd sd n) 1 .none (c.setS sd (BitVec.ofNat 64 x)) :=
  computes_setS hr hroom rfl (by simp only [ident_openChunk, ident_of_mem h]; rfl)

theorem idrd_reserved {s : State} {c : Cur} {sd : SReg} {n : BitVec 32} (hr : Ready s c 1 .none) (h : 9 < n.toNat) :
    Meets s c (.idrd sd n) c.em (.word .illegalOperand 0) :=
  meets_strand hr rfl (by simp only [ident_openChunk, ident_reserved c h]; rfl)

theorem chcfg_reads {s : State} {c : Cur} {sd : SReg} {x : Src} (hr : Ready s c 1 .none) (hroom : Room c c)
    (h : c.src x = 0) : Computes s c (.chcfg sd x) 1 .none (c.setS sd (BitVec.ofNat 64 c.t.core.chlim)) :=
  computes_setS hr hroom rfl (by simp only [openChunk_src, openChunk_core, h]; rfl)

theorem ne_zero_of_toNat {x : W64} (h : 32 ≤ x.toNat) : (x == 0) = false := by
  rw [beq_eq_false_iff_ne]
  rintro rfl
  exact absurd h (by decide)

theorem chcfg_sets {s : State} {c : Cur} {sd : SReg} {x : Src} (hr : Ready s c 1 .none) (hroom : Room c c)
    (hlo : 32 ≤ (c.src x).toNat) (hhi : (c.src x).toNat ≤ 4096) :
    Computes s c (.chcfg sd x) 1 .none
      ((c.mapCore (fun k => { k with chlim := (c.src x).toNat })).setS sd (BitVec.ofNat 64 c.t.core.chlim)) := by
  have hlog := (logged_mapCore c.openChunk (fun k => { k with chlim := (c.src x).toNat })).trans
    (logged_setS _ sd (BitVec.ofNat 64 c.t.core.chlim))
  refine computesC_of
    (g := fun d => (d.mapCore (fun k => { k with chlim := (c.src x).toNat })).setS sd (BitVec.ofNat 64 c.t.core.chlim))
    hr (room_logged (room_openChunk hroom) hlog) rfl rfl rfl (by decide) ?_
    ((wrote_mapCore _ _ rfl rfl rfl rfl).trans (wrote_setS _ _ _)) ?_
  · simp only [openChunk_src, openChunk_core, ne_zero_of_toNat hlo, (chlimOk_iff _).mpr ⟨hlo, hhi⟩]
    rfl
  · unfold Cur.setS
    split
    · exact regs_mapCore_openChunk c _
    · simp [Cur.regs, Cur.mapCore, openChunk_core]

theorem chcfg_meets {s : State} {c : Cur} {sd : SReg} {x : Src} (hr : Ready s c 1 .none) (h0 : c.src x ≠ 0)
    (h : ¬ (32 ≤ (c.src x).toNat ∧ (c.src x).toNat ≤ 4096)) :
    Meets s c (.chcfg sd x) c.em (.word .illegalOperand 0) := by
  rw [← chlimOk_iff, Bool.not_eq_true] at h
  refine meets_strand hr rfl ?_
  simp only [openChunk_src, beq_eq_false_iff_ne.mpr h0, h]
  rfl

/-! ## WQRY (R176) -/

/-- The word of Table 9.3. -/
def wqryWord (k : Crew) (w : Warp) : W64 :=
  BitVec.ofNat 64 (w.width + 2 ^ 8 * w.gen + 2 ^ 10 * bit w.isHigh + 2 ^ 12 * sibState k w + 2 ^ 16 * w.lw)

theorem wqry_computes {s : State} {c : Cur} {sd : SReg} (hr : Ready s c 1 .none) (hroom : Room c c) :
    Computes s c (.wqry sd) 1 .none (c.setS sd (wqryWord c.crew c.warp)) :=
  computes_setS hr hroom rfl (by rw [← c.openChunk_crew, ← c.openChunk_warp]; rfl)

theorem sibState_lt (k : Crew) (w : Warp) : sibState k w < 4 := by
  unfold sibState
  split_ifs <;> decide

theorem extract_ofNat (n lo k : ℕ) : (BitVec.ofNat 64 n).extractLsb' lo k = BitVec.ofNat k (n % 2 ^ 64 / 2 ^ lo) := by
  apply BitVec.eq_of_toNat_eq
  simp [BitVec.extractLsb'_toNat, Nat.shiftRight_eq_div_pow]

theorem wqryWord_fields (k : Crew) (w : Warp) (hw : w.width < 256) (hs : w.splits.length < 4) :
    let r := wqryWord k w
    r.extractLsb' 0 8 = BitVec.ofNat 8 w.width ∧ r.extractLsb' 8 2 = BitVec.ofNat 2 w.splits.length ∧
      r.getLsbD 10 = w.isHigh ∧ r.getLsbD 11 = false ∧ r.extractLsb' 14 2 = 0 ∧
      r.extractLsb' 12 2 = BitVec.ofNat 2 (sibState k w) ∧ r.toNat / 2 ^ 16 = w.lw % 2 ^ 48 := by
  have hsib := sibState_lt k w
  have hg : w.gen = w.splits.length := rfl
  have hb : bit w.isHigh ≤ 1 := by cases w.isHigh <;> decide
  have hword : wqryWord k w = BitVec.ofNat 64 (w.width + 256 * w.splits.length + 1024 * bit w.isHigh +
      4096 * sibState k w + 65536 * w.lw) := by simp [wqryWord, hg]
  generalize sibState k w = sib at hsib hword ⊢
  generalize w.splits.length = g at hs hword ⊢
  intro r
  refine ⟨?_, ?_, ?_, ?_, ?_, ?_, ?_⟩
  · simp only [r, hword, extract_ofNat]
    exact BitVec.eq_of_toNat_eq (by simp only [BitVec.toNat_ofNat]; omega)
  · simp only [r, hword, extract_ofNat]
    exact BitVec.eq_of_toNat_eq (by simp only [BitVec.toNat_ofNat]; omega)
  · cases hh : w.isHigh <;>
    · simp only [r, hword, hh, bit, BitVec.getLsbD_ofNat, Nat.testBit_eq_decide_div_mod_eq]
      simp
      omega
  · simp only [r, hword, BitVec.getLsbD_ofNat, Nat.testBit_eq_decide_div_mod_eq]
    simp
    omega
  · rw [show (0 : BitVec 2) = BitVec.ofNat 2 0 from rfl]
    simp only [r, hword, extract_ofNat]
    exact BitVec.eq_of_toNat_eq (by simp only [BitVec.toNat_ofNat]; omega)
  · simp only [r, hword, extract_ofNat]
    exact BitVec.eq_of_toNat_eq (by simp only [BitVec.toNat_ofNat]; omega)
  · simp only [r, hword, BitVec.toNat_ofNat]
    omega

/-- Settles O15: each instruction by the write of strand state that it is; CHEND by its transfer behind itself. -/
theorem systemInstructions : Obligations.SystemInstructions := by
  refine ⟨fun s c hr hroom => ⟨computes_nothing hr hroom rfl, computes_nothing hr hroom rfl, chend_transfers hr hroom⟩,
    fun s c sd n hr hroom => ⟨fun x => idrd_computes hr hroom, idrd_reserved hr⟩,
    fun s c sd x hr hroom => ⟨chcfg_reads hr hroom, chcfg_sets hr hroom, chcfg_meets hr⟩,
    fun s c sd hr hroom hw hs => ?_⟩
  obtain ⟨h1, h2, h3, h4, h5, h6, h7⟩ := wqryWord_fields c.crew c.warp hw hs
  exact ⟨_, h1, h2, h3, h4, h5, h6, h7, wqry_computes hr hroom⟩

end Sys2Proof.ContextProofs

/-!
SUPPORT. One strand of a package updated, and what depends on the page tables alone.
-/

namespace Sys2Proof.ContextProofs

open Sys2Proof Sys2Proof.Machine Sys2Proof.Rules

/-! ## One strand updated -/

theorem length_modAt {α : Type} (l : List α) (i : ℕ) (f : α → α) : (modAt l i f).length = l.length := by
  induction l generalizing i with
  | nil => rfl
  | cons x xs ih => cases i <;> simp [modAt, ih]

theorem getElem?_modAt {α : Type} (l : List α) (i j : ℕ) (f : α → α) :
    (modAt l i f)[j]? = if j = i then l[j]?.map f else l[j]? := by
  induction l generalizing i j with
  | nil => simp [modAt]
  | cons x xs ih =>
    cases i with
    | zero => cases j <;> simp [modAt]
    | succ i =>
      cases j with
      | zero => simp [modAt]
      | succ j => simpa [modAt] using ih i j

theorem modAt_modAt {α : Type} (l : List α) (i : ℕ) (f g : α → α) : modAt (modAt l i f) i g = modAt l i (g ∘ f) := by
  induction l generalizing i with
  | nil => rfl
  | cons x xs ih => cases i <;> simp [modAt, ih]

theorem updIf_updIf {α : Type} (p : α → Bool) (f g : α → α) (l : List α) (h : ∀ x, p (f x) = p x) :
    updIf p g (updIf p f l) = updIf p (g ∘ f) l := by
  simp only [updIf, List.map_map]
  congr 1
  funext x
  cases hp : p x <;> simp [hp, h x]

/-- The warp with one strand updated. -/
def updStrand (i : ℕ) (f : Strand → Strand) (w : Warp) : Warp := { w with strands := modAt w.strands i (Option.map f) }

/-- The crew with one warp updated. -/
def updWarp (i : ℕ) (f : Warp → Warp) (k : Crew) : Crew := { k with warps := updIf (fun w => w.id == i) f k.warps }

theorem modWarp_eq (s : State) (r : WarpRef) (f : Warp → Warp) : s.modWarp r f = s.modCrew r.crew (updWarp r.warp f) := rfl

theorem modStrand_eq (s : State) (r : StrandRef) (f : Strand → Strand) :
    s.modStrand r f = s.modCrew r.w.crew (updWarp r.w.warp (updStrand r.strand f)) := rfl

theorem modCrew_modCrew (s : State) (r : CrewRef) (f g : Crew → Crew) (h : ∀ k, (f k).ref = k.ref) :
    (s.modCrew r f).modCrew r g = s.modCrew r (g ∘ f) := by
  simp only [State.modCrew]
  rw [updIf_updIf _ _ _ _ (fun x => by rw [h x])]

theorem updWarp_updWarp (i : ℕ) (f g : Warp → Warp) (h : ∀ w, (f w).id = w.id) :
    updWarp i g ∘ updWarp i f = updWarp i (g ∘ f) := by
  funext k
  simp only [Function.comp, updWarp]
  rw [updIf_updIf _ _ _ _ (fun x => by rw [h x])]

theorem updStrand_updStrand (i : ℕ) (f g : Strand → Strand) : updStrand i g ∘ updStrand i f = updStrand i (g ∘ f) := by
  funext w
  simp only [Function.comp, updStrand, modAt_modAt, Option.map_comp_map]

/-- Two updates of one strand are one. -/
theorem modStrand_modStrand (s : State) (r : StrandRef) (f g : Strand → Strand) :
    (s.modStrand r f).modStrand r g = s.modStrand r (g ∘ f) := by
  rw [modStrand_eq, modStrand_eq, modStrand_eq, modCrew_modCrew _ _ (updWarp _ _) _ (fun _ => rfl),
    updWarp_updWarp _ (updStrand _ _) _ (fun _ => rfl), updStrand_updStrand]

theorem strand?_updStrand_self (w : Warp) (i : ℕ) (f : Strand → Strand) :
    (updStrand i f w).strand? i = (w.strand? i).map f := by
  simp only [Warp.strand?, updStrand, List.getD_eq_getElem?_getD, getElem?_modAt, if_pos]
  cases w.strands[i]? <;> rfl

theorem strand?_updStrand_ne (w : Warp) (i k : ℕ) (f : Strand → Strand) (h : k ≠ i) :
    (updStrand i f w).strand? k = w.strand? k := by
  simp only [Warp.strand?, updStrand, List.getD_eq_getElem?_getD, getElem?_modAt, if_neg h]

/-- A view with its strand updated in place. -/
def updCur (c : Cur) (f : Strand → Strand) : Cur :=
  { c with crew := updWarp c.ref.w.warp (updStrand c.ref.strand f) c.crew, warp := updStrand c.ref.strand f c.warp, t := f c.t }

section
variable {s : State} {c : Cur} (h : s.curOf c.ref = some c) (f : Strand → Strand)
include h

theorem curOf_modStrand : (s.modStrand c.ref f).curOf c.ref = some (updCur c f) := by
  obtain ⟨-, h2, h3, h4, h5, h6, h7⟩ := (curOf_iff s c.ref c).mp h
  refine (curOf_iff _ _ _).mpr ⟨rfl, ?_, ?_, ?_, h5, h6, h7⟩
  · rw [modStrand_eq, crew?_modCrew_self _ _ (updWarp _ _) (fun _ hk => hk), h2]
    rfl
  · refine (warp?_updIf_self c.crew _ (updStrand _ _) (fun _ hk => hk)).trans ?_
    rw [h3]
    rfl
  · refine (strand?_updStrand_self _ _ _).trans ?_
    rw [h4]
    rfl

omit h in
theorem crew?_modStrand_ne {r : CrewRef} (hr : r ≠ c.ref.w.crew) : (s.modStrand c.ref f).crew? r = s.crew? r :=
  crew?_modCrew_ne s _ r (updWarp _ _) (fun _ hk => hk) hr

omit h in
theorem warp?_updCur_ne {i : ℕ} (hi : i ≠ c.ref.w.warp) : (updCur c f).crew.warp? i = c.crew.warp? i :=
  warp?_updIf_ne c.crew _ i (updStrand _ _) (fun _ hk => hk) hi

omit h in
theorem strand?_updCur_ne {k : ℕ} (hk : k ≠ c.ref.strand) : (updCur c f).warp.strand? k = c.warp.strand? k :=
  strand?_updStrand_ne c.warp _ k f hk

end

theorem curOf_crew {s : State} {r : StrandRef} {e : Cur} (h : s.curOf r = some e) : s.crew? r.w.crew = some e.crew :=
  ((curOf_iff s r e).mp h).2.1

theorem curOf_warp {s : State} {r : StrandRef} {e : Cur} (h : s.curOf r = some e) : e.crew.warp? r.w.warp = some e.warp :=
  ((curOf_iff s r e).mp h).2.2.1

theorem curOf_strand {s : State} {r : StrandRef} {e : Cur} (h : s.curOf r = some e) : s.strand? r = some e.t := by
  obtain ⟨-, h2, h3, h4, -⟩ := (curOf_iff s r e).mp h
  simp only [State.strand?, State.warp?, h2, Option.bind_some, h3, h4]

theorem strandRef_ext {r q : StrandRef} (h1 : r.w.crew = q.w.crew) (h2 : r.w.warp = q.w.warp) (h3 : r.strand = q.strand) :
    r = q := by
  obtain ⟨⟨_, _⟩, _⟩ := r
  obtain ⟨⟨_, _⟩, _⟩ := q
  simp_all

/-- Strands that lie elsewhere, crew by crew, warp by warp, strand by strand. -/
theorem strand?_elsewhere {s t : State} {c e : Cur} (hc : s.curOf c.ref = some c) (he : t.curOf c.ref = some e)
    (crews : ∀ r, r ≠ c.ref.w.crew → t.crew? r = s.crew? r) (warps : ∀ i, i ≠ c.ref.w.warp → e.crew.warp? i = c.crew.warp? i)
    (strands : ∀ k, k ≠ c.ref.strand → e.warp.strand? k = c.warp.strand? k) (r : StrandRef) (hr : r ≠ c.ref) :
    t.strand? r = s.strand? r := by
  simp only [State.strand?, State.warp?]
  by_cases h1 : r.w.crew = c.ref.w.crew
  · rw [h1, curOf_crew hc, curOf_crew he, Option.bind_some, Option.bind_some]
    by_cases h2 : r.w.warp = c.ref.w.warp
    · rw [h2, curOf_warp hc, curOf_warp he, Option.bind_some, Option.bind_some]
      exact strands _ (fun h3 => hr (strandRef_ext h1 h2 h3))
    · rw [warps _ h2]
  · rw [crews _ h1]

theorem strand?_modStrand_ne {s : State} {c : Cur} (h : s.curOf c.ref = some c) (f : Strand → Strand) {r : StrandRef}
    (hr : r ≠ c.ref) : (s.modStrand c.ref f).strand? r = s.strand? r :=
  strand?_elsewhere h (curOf_modStrand h f) (fun _ => crew?_modStrand_ne f) (fun _ => warp?_updCur_ne f)
    (fun _ => strand?_updCur_ne f) r hr

theorem touches_modStrand {s : State} {c : Cur} (h : s.curOf c.ref = some c) (f : Strand → Strand) :
    Touches s (s.modStrand c.ref f) c (updCur c f) :=
  ⟨curOf_modStrand h f, rfl, fun _ => strand?_modStrand_ne h f, rfl, rfl⟩

theorem curOf_dropPin (s : State) (r q : StrandRef) : (s.dropPin r).curOf q = s.curOf q := rfl

/-! ## What a translation depends on -/

/-- Two states whose memory, tables, caches of translations and free choices are the same. -/
structure SamePages (s t : State) : Prop where
  mem    : t.mem = s.mem
  poison : t.poison = s.poison
  dead   : t.dead = s.dead
  frat   : t.frat = s.frat
  ports  : t.ports = s.ports
  tlb    : t.tlb = s.tlb
  walks  : t.walks = s.walks
  free   : t.free = s.free

theorem SamePages.refl (s : State) : SamePages s s := ⟨rfl, rfl, rfl, rfl, rfl, rfl, rfl, rfl⟩

section
variable {s t : State} (h : SamePages s t)
include h

theorem SamePages.rdByte (pa : ℕ) : t.rdByte pa = s.rdByte pa := by simp only [State.rdByte, h.mem, h.dead, h.free]

theorem SamePages.rdBytes (pa n : ℕ) : t.rdBytes pa n = s.rdBytes pa n := by simp only [State.rdBytes, h.rdByte]

theorem SamePages.rdNat (pa n : ℕ) : t.rdNat pa n = s.rdNat pa n := by simp only [State.rdNat, h.rdBytes]

theorem SamePages.backed (pa : ℕ) : t.backed pa = s.backed pa := by simp only [State.backed, cxlPort?, h.ports]

theorem SamePages.isPoison (pa : ℕ) : t.isPoison pa = s.isPoison pa := by simp only [State.isPoison, h.poison, h.backed]

theorem SamePages.walk (ctx va lvl base : ℕ) : t.walk ctx va lvl base = s.walk ctx va lvl base := by
  induction lvl generalizing base with
  | zero => rfl
  | succ lvl ih =>
    have hb : ∀ base ix pte, t.groupBad base ix pte = s.groupBad base ix pte := fun _ _ _ => by
      simp only [State.groupBad, h.rdNat]
    have hp : ∀ base ix, t.groupPoison base ix = s.groupPoison base ix := fun _ _ => by
      simp only [State.groupPoison, h.isPoison]
    have hs : ∀ a b c d, t.staleWalks a b c d = s.staleWalks a b c d := fun _ _ _ _ => by
      simp only [State.staleWalks, h.walks]
    simp only [State.walk, h.rdNat, h.isPoison, h.backed, h.free, hb, hp, hs, ih]

/-- Translations of a context whose root is the same are the same. -/
theorem SamePages.translate {ctx : ℕ} (hroot : (t.ctx ctx).root = (s.ctx ctx).root) (va : ℕ) (q : XReq) :
    t.translate ctx va q = s.translate ctx va q := by
  have hw : t.walkOf ctx va = s.walkOf ctx va := by simp only [State.walkOf, h.backed, hroot, h.walk]
  have hc : ∀ va, t.cached ctx va = s.cached ctx va := fun _ => by simp only [State.cached, h.tlb]
  have hl : t.leafOf ctx va = s.leafOf ctx va := by simp only [State.leafOf, hw, hc, h.free]
  have hf : ∀ n, t.frame n = s.frame n := fun _ => by simp only [State.frame, h.frat]
  have hg : ∀ pte lvl, t.goneBehind ctx va pte lvl = s.goneBehind ctx va pte lvl := fun _ _ => by
    simp only [State.goneBehind, h.backed, hc, h.free]
  have hk : ∀ pte lvl, t.leafCheck va q pte lvl = s.leafCheck va q pte lvl := fun _ _ => by
    simp only [State.leafCheck, h.backed, hf]
  simp only [State.translate, hl, hg, hk]

theorem SamePages.fetchWord {ctx : ℕ} (hroot : (t.ctx ctx).root = (s.ctx ctx).root) (a : W64) :
    t.fetchWord ctx a = s.fetchWord ctx a := by
  simp only [State.fetchWord, h.translate hroot, h.isPoison, h.rdNat]

theorem SamePages.handlerOk {ctx : ℕ} (hroot : (t.ctx ctx).root = (s.ctx ctx).root) (a : W64) :
    t.handlerOk ctx a = s.handlerOk ctx a := by
  simp only [State.handlerOk, h.fetchWord hroot]

end

theorem samePages_crews (s : State) (k : List Crew) : SamePages s { s with crews := k } := ⟨rfl, rfl, rfl, rfl, rfl, rfl, rfl, rfl⟩

theorem handlerOk_modStrand (s : State) (r : StrandRef) (f : Strand → Strand) (ctx : ℕ) (a : W64) :
    (s.modStrand r f).handlerOk ctx a = s.handlerOk ctx a :=
  (samePages_crews s _).handlerOk (ctx := ctx) rfl a

end Sys2Proof.ContextProofs

/-!
PROOFS. The context (05): taking a trap and returning from it (O16, O18).
-/

namespace Sys2Proof.ContextProofs

open Sys2Proof Sys2Proof.Machine Sys2Proof.Rules

/-! ## Taking a trap (R91, R92) -/

theorem cur_of_focus {s : State} {c : Cur} (h : s.cur? = some c) : s.curOf c.ref = some c := by
  obtain ⟨r, -, hr⟩ := Option.bind_eq_some_iff.mp h
  rw [((curOf_iff s r c).mp hr).1]
  exact hr

/-- A strand with its trap squash counted (log 24). -/
def counted (t : Strand) : Strand := if t.trapReplay then t else { t with sqcnt := t.sqcnt + 1 }

@[simp] theorem counted_core (t : Strand) : (counted t).core = t.core := by unfold counted; split <;> rfl
@[simp] theorem counted_poisoned (t : Strand) : (counted t).poisoned = t.poisoned := by unfold counted; split <;> rfl

theorem counted_sqcnt (t : Strand) : (counted t).sqcnt = if t.trapReplay then t.sqcnt else t.sqcnt + 1 := by
  unfold counted; split <;> rfl

theorem countTrapSquash_eq (s : State) (r : StrandRef) : s.countTrapSquash r = s.modStrand r counted := rfl

/-- The strand at its handler's header. -/
def atHandler (h : W64) (ti : TrapInfo) (tpc : W64) (t : Strand) : Strand :=
  { t with core := { t.core with trap := ti.regs tpc t.core.hdr, pc := h, hdr := h, inClause := false },
           chunk := Chunk.none, wait := .none, pinCount := 0, trapReplay := false, residue := none,
           poisoned := t.poisoned && !ti.ofPoison, failed := none }

section
variable {s : State} {c : Cur} {ti : TrapInfo}

theorem enterTrap_eq {tpc : W64} (h : s.curOf c.ref = some c) (hh : c.t.core.trap.h = false)
    (hok : s.handlerOk c.ctx c.crew.launch.handler = true) :
    s.enterTrap c.ref ti tpc = (s.modStrand c.ref (atHandler c.crew.launch.handler ti tpc)).dropPin c.ref := by
  simp only [State.enterTrap, h, hh, hok]
  rfl

/-- A trap at a strand in no handler, whose handler can run, behind an update `g` of the strand that counts the squash. -/
theorem entered_enterTrap {g : Strand → Strand} (h : s.curOf c.ref = some c) (hc : CanTrap s c)
    (hcore : ∀ t, (g t).core = t.core)
    (hsq : (g c.t).sqcnt = if c.t.trapReplay then c.t.sqcnt else c.t.sqcnt + 1) :
    ∃ e, Entered s ((s.modStrand c.ref g).enterTrap c.ref ti c.t.core.pc) c e (ti.regs c.t.core.pc c.t.core.hdr) := by
  refine ⟨updCur c (atHandler c.crew.launch.handler ti c.t.core.pc ∘ g), ?_⟩
  have hb := curOf_modStrand h g
  have he := enterTrap_eq (c := updCur c g) (ti := ti) (tpc := c.t.core.pc) hb
    (by show (g c.t).core.trap.h = false; rw [hcore]; exact hc.outside) ((handlerOk_modStrand _ _ _ _ _).trans hc.handler)
  rw [show (updCur c g).ref = c.ref from rfl, modStrand_modStrand] at he
  rw [he]
  refine ⟨curOf_modStrand h _, rfl, fun _ => crew?_modStrand_ne _, fun _ => warp?_updCur_ne _, fun _ => strand?_updCur_ne _,
    rfl, rfl, rfl, ?_, hsq⟩
  simp [Cur.regs, updCur, atHandler, updStrand, hcore]

/-- A trap at a strand with no chunk, in no handler, whose handler can run. -/
theorem entered_trap (h : s.curOf c.ref = some c) (hc : CanTrap s c) :
    ∃ e, Entered s ((s.countTrapSquash c.ref).enterTrap c.ref ti c.t.core.pc) c e (ti.regs c.t.core.pc c.t.core.hdr) :=
  entered_enterTrap h hc counted_core (counted_sqcnt c.t)

theorem trapAt_alone {tpc : W64} (ha : Alone c) (hp : c.t.pends = []) :
    s.trapAt c ti tpc = (s.countTrapSquash c.ref).enterTrap c.ref ti tpc := by
  obtain ⟨hst, he⟩ := ha
  simp [State.trapAt, Strand.behindOthers, hst, he, hp]

theorem entered_trapAt (h : s.curOf c.ref = some c) (hc : CanTrap s c) (hp : c.t.pends = []) :
    ∃ e, Entered s (s.trapAt c ti c.t.core.pc) c e (ti.regs c.t.core.pc c.t.core.hdr) := by
  rw [trapAt_alone hc.alone hp]
  exact entered_trap h hc

end

/-- The state in which a trap's handler is looked up: nothing cached that led to a fault stays (R297). -/
def forgetFor (s : State) (c : Cur) (cause : Cause) (ta : ℕ) : State := if cause.ofPage then s.forget c.ctx ta else s

theorem forgetFor_package (s : State) (c : Cur) (cause : Cause) (ta : ℕ) :
    forgetFor s c cause ta = { s with tlb := (forgetFor s c cause ta).tlb, walks := (forgetFor s c cause ta).walks } := by
  unfold forgetFor
  split <;> rfl

theorem entered_forget {s t : State} {c e : Cur} {x : TrapRegs} {cause : Cause} {ta : ℕ}
    (h : Entered (forgetFor s c cause ta) t c e x) : Entered s t c e x := by
  obtain ⟨here, package, crews, warps, strands, place, chunk, wait, regs, sqcnt⟩ := h
  have hc : ∀ r, (forgetFor s c cause ta).crew? r = s.crew? r := fun r => by rw [forgetFor_package]; rfl
  refine ⟨here, ?_, fun r hr => (crews r hr).trans (hc r), warps, strands, place, chunk, wait, regs, sqcnt⟩
  rw [package, forgetFor_package]

/-- A trap condition enters the handler at once where the strand has no chunk (R202). -/
theorem entered_stop {s : State} {c : Cur} {lanes : Mask} {cause : Cause} {ta te : ℕ} {o : Option Mask}
    (h : s.curOf c.ref = some c) (hc : CanTrap (forgetFor s c cause ta) c) (hp : c.t.pends = []) :
    ∃ e, Entered s (s.stop c lanes c.t.core.pc (.trap cause ta te o)) c e
      (savedRegs c cause.code (BitVec.ofNat 64 ta) (BitVec.ofNat 64 te) (o.getD lanes) cause.isSoftware) := by
  have hcur : (forgetFor s c cause ta).curOf c.ref = some c := by
    rw [forgetFor_package]
    exact h
  obtain ⟨e, he⟩ := entered_trapAt (ti := { cause := cause, addr := ta, extra := te, lanes := o.getD lanes }) hcur hc hp
  exact ⟨e, entered_forget he⟩

theorem softwareTrap_rule : Rules.SoftwareTrap := by
  intro s c n x hr hc
  have hm : Meets s c (.trap n x) c.em (.trap (.software n.toNat) 0 (c.sr x).toNat none) :=
    meetsC_of (fm := Form.control) hr rfl rfl rfl (by simp only [openChunk_sr])
  obtain ⟨e, he⟩ := entered_stop (s := s) (c := c) (lanes := c.em) (cause := .software n.toNat) (ta := 0)
    (te := (c.sr x).toNat) (o := none) hr.curOf hc hr.calm
  refine ⟨_, e, hm, ?_⟩
  have hn : 0x20 + n.toNat = (Cause.software n.toNat).code := by
    have := n.isLt
    simp [Cause.code]
    omega
  rw [BitVec.ofNat_toNat, BitVec.setWidth_eq] at he
  rw [hn]
  exact he

theorem trapEntry_rule : Rules.TrapEntry := by
  intro s c n i lanes cause ta te o hr hc hsoft hm
  obtain ⟨e, he⟩ := entered_stop (s := s) (lanes := lanes) (te := te) (o := o) hr.curOf hc hr.calm
  rw [hsoft] at he
  exact ⟨_, e, hm, he⟩

theorem reservedWords_rule : Rules.ReservedWords := by
  intro s c w hf hm hc hp
  have hex : exec (.reservedOpcodeWord w) s = .next (s.stop c c.em c.t.core.pc (.trap .illegalInstr 0 w.toNat none)) := by
    show execReservedOpcodeWord w s = _
    simp only [execReservedOpcodeWord, hf, hm, if_true]
  obtain ⟨e, he⟩ := entered_stop (lanes := c.em) (cause := .illegalInstr) (ta := 0) (te := w.toNat) (o := none) (cur_of_focus hf)
    hc hp
  rw [BitVec.ofNat_toNat, BitVec.setWidth_eq] at he
  exact ⟨_, e, hex, he⟩

/-- Settles O16: a strand with no chunk enters its handler by two updates of its own strand, for a software trap, for any trap
condition, and for a word that is no instruction. -/
theorem takingATrap : Obligations.TakingATrap := ⟨softwareTrap_rule, trapEntry_rule, reservedWords_rule⟩

/-! ## Return from a trap (R97, R98) -/

/-- The strand behind an RFT that resumes at `p`. -/
def resumed (p : W64 × W64) (c : Cur) : Cur :=
  (c.mapCore (fun k => { k with trap := { k.trap with h := false, skip := false }, pc := p.1, hdr := p.2, inClause := false })).endChunk

theorem moved_resumed (p : W64 × W64) (c : Cur) : Moved c (resumed p c) := ⟨rfl, rfl, rfl, rfl, rfl, rfl, rfl⟩

theorem room_resumed {b c : Cur} {p : W64 × W64} (h : Room b c) : Room b (resumed p c) := room_of_chunk h rfl rfl

theorem returnTrap_inside {s : State} {c : Cur} (hh : c.t.core.trap.h = true) :
    returnTrap s c = match s.resumeAt c.ctx c.t.core.trap with
      | none => .error (.word .illegalInstr 0)
      | some p => .ok (resumed p c) := by
  simp only [returnTrap, hh]
  cases s.resumeAt c.ctx c.t.core.trap <;> rfl

theorem returnTrap_outside {s : State} {c : Cur} (hh : c.t.core.trap.h = false) :
    returnTrap s c = .error (.word .priv 0) := by
  simp only [returnTrap, hh]
  rfl

theorem ctx_openChunk (c : Cur) : c.openChunk.ctx = c.ctx := by simp [Cur.ctx]

theorem rft_transfers {s : State} {c : Cur} {p : W64 × W64} (hr : Ready s c 0 .none) (hroom : Room c c)
    (hh : c.t.core.trap.h = true) (hp : s.resumeAt c.ctx c.t.core.trap = some p) :
    Transfers s c .rft { pc := p.1, hdr := p.2, inClause := false } true (afterRft c) := by
  refine transfers_of (g := resumed p) (fm := Form.control) (F := fun s c => (returnTrap s c).map (fun c => (s, c))) hr
    (room_resumed (room_openChunk hroom)) rfl rfl (Nat.zero_le 1) rfl ?_ (moved_resumed p _) rfl ?_ ?_
  · simp only [returnTrap_inside (c := c.openChunk) (by rw [openChunk_core, hh]), openChunk_core, ctx_openChunk, hp]
    rfl
  · rw [retire_eq]
    rfl
  · simp [resumed, afterRft, Cur.regs, Cur.mapCore, Cur.endChunk, Cur.mapChunk, openChunk_core]

theorem rft_meets {s : State} {c : Cur} {st : Stop} (hr : Ready s c 0 .none)
    (h : returnTrap s c.openChunk = .error st) : Meets s c .rft c.em st :=
  meets_of (fm := Form.control) hr rfl rfl rfl (by rw [h]; rfl)

theorem rft_illegal {s : State} {c : Cur} (hr : Ready s c 0 .none) (hh : c.t.core.trap.h = true)
    (hp : s.resumeAt c.ctx c.t.core.trap = none) : Meets s c .rft c.em (.word .illegalInstr 0) :=
  rft_meets hr (by rw [returnTrap_inside (by rw [openChunk_core, hh]), openChunk_core, ctx_openChunk, hp])

theorem nextTpc_eq (x : TrapRegs) (hw : W64) : nextTpc x.tpc x.recHdr hw = nextOf x hw := by
  simp only [nextTpc, nextOf, bne_iff_ne, ne_eq, Bool.and_eq_true]

/-- Where RFT resumes, by the combinations of TPC and SKIP that R98 lists. -/
theorem resumeAt_recorded {s : State} {ctx : ℕ} {x : TrapRegs} (h : x.tpc = x.recorded) (hk : x.skip = false) :
    s.resumeAt ctx x = some (x.tpc, x.recHdr) := by simp [State.resumeAt, h, hk]

theorem resumeAt_behind {s : State} {ctx : ℕ} {x : TrapRegs} {hw : W64} (h : x.tpc = x.recorded) (hk : x.skip = true)
    (hf : s.fetchWord ctx x.recHdr = .ok hw) :
    s.resumeAt ctx x = some (nextOf x hw, if nextOf x hw = clauseEnd x.recHdr hw then nextOf x hw else x.recHdr) := by
  have hpeek : s.peekWord ctx x.recHdr = hw := by simp [State.peekWord, hf, Except.toOption]
  simp only [State.resumeAt, beq_iff_eq, h, if_true, hk, hpeek]
  rw [← h, nextTpc_eq]

theorem resumeAt_header {s : State} {ctx : ℕ} {x : TrapRegs} (h : x.tpc ≠ x.recorded) (hk : x.skip = false)
    (hf : s.headerAt ctx x.tpc = true) : s.resumeAt ctx x = some (x.tpc, x.tpc) := by simp [State.resumeAt, h, hk, hf]

theorem resumeAt_nowhere {s : State} {ctx : ℕ} {x : TrapRegs} (h : x.tpc ≠ x.recorded)
    (hk : x.skip = true ∨ s.headerAt ctx x.tpc = false) : s.resumeAt ctx x = none := by
  rcases hk with hk | hk <;> simp [State.resumeAt, h, hk]

/-- Settles O18: RFT resumes where `State.resumeAt` says, which accepts exactly the combinations of R98. -/
theorem returnFromTrap : Obligations.ReturnFromTrap := by
  intro s c hr hroom
  refine ⟨fun hh => ⟨fun h hk => ?_, fun hw h hk hf => ?_, fun h hk hf => ?_, fun h hk => ?_⟩, fun hh => ?_⟩
  · exact rft_transfers hr hroom hh (resumeAt_recorded h hk)
  · exact rft_transfers hr hroom hh (resumeAt_behind h hk hf)
  · exact rft_transfers hr hroom hh (resumeAt_header h hk hf)
  · exact rft_illegal hr hh (resumeAt_nowhere h hk)
  · exact rft_meets hr (returnTrap_outside (by rw [openChunk_core, hh]))

end Sys2Proof.ContextProofs

/-!
PROOFS. The context (05): parked strands that go on, and the traps that they meet (O43).
-/

namespace Sys2Proof.ContextProofs

open Sys2Proof Sys2Proof.Machine Sys2Proof.Rules

/-! ## Contexts and queues updated -/

theorem mem_updIf {α : Type} {p : α → Bool} {f : α → α} {l : List α} {x : α} (h : x ∈ l) :
    (if p x then f x else x) ∈ updIf p f l := List.mem_map_of_mem h

section
variable (s : State) (n : ℕ) (f : Ctx → Ctx)

theorem ctx?_modCtx_self (hf : ∀ c, (f c).num = c.num) : (s.modCtx n f).ctx? n = (s.ctx? n).map f :=
  find?_updIf_same _ f s.ctxs (fun x hx => by simpa [hf x] using hx)

theorem ctx?_modCtx_ne (hf : ∀ c, (f c).num = c.num) {m : ℕ} (hm : m ≠ n) : (s.modCtx n f).ctx? m = s.ctx? m := by
  refine find?_updIf_other _ _ f s.ctxs (fun x hx => ?_) (fun x hx => ?_) <;>
  · simp only [beq_iff_eq] at hx
    simp only [hf, hx, beq_eq_false_iff_ne]
    exact fun e => hm e.symm

theorem ctx_modCtx_self (hf : ∀ c, (f c).num = c.num) (h : (s.ctx? n).isSome = true) :
    (s.modCtx n f).ctx n = f (s.ctx n) := by
  obtain ⟨x, hx⟩ := Option.isSome_iff_exists.mp h
  simp [State.ctx, ctx?_modCtx_self s n f hf, hx]

theorem ctx_modCtx_ne (hf : ∀ c, (f c).num = c.num) {m : ℕ} (hm : m ≠ n) : (s.modCtx n f).ctx m = s.ctx m := by
  simp [State.ctx, ctx?_modCtx_ne s n f hf hm]

end

/-- Only a context that exists has left the state EMPTY. -/
theorem ctx?_isSome {s : State} {n : ℕ} (h : (s.ctx n).st ≠ .empty) : (s.ctx? n).isSome = true := by
  cases hx : s.ctx? n with
  | none => exact absurd (by simp [State.ctx, hx, Ctx.empty]) h
  | some x => rfl

theorem queue?_modQueue_self (c : Ctx) (q : ℕ) (f : Queue → Queue) : (c.modQueue q f).queue? q = (c.queue? q).map f := by
  have h := find?_updIf_same (fun x : ℕ × Queue => x.1 == q) (fun x => (x.1, f x.2)) c.queues (fun x hx => hx)
  simp only [Ctx.queue?, Ctx.modQueue, h, Option.map_map]
  rfl

theorem queue?_modQueue_ne (c : Ctx) {q p : ℕ} (f : Queue → Queue) (h : p ≠ q) :
    (c.modQueue q f).queue? p = c.queue? p := by
  have h := find?_updIf_other (fun x : ℕ × Queue => x.1 == q) (fun x => x.1 == p) (fun x => (x.1, f x.2)) c.queues
    (fun x hx => by simp only [beq_iff_eq] at hx; simpa [hx] using fun e => h e.symm)
    (fun x hx => by simp only [beq_iff_eq] at hx; simpa [hx] using fun e => h e.symm)
  simp only [Ctx.queue?, Ctx.modQueue, h]

theorem ctx_of_none {s : State} {n : ℕ} (h : s.ctx? n = none) : s.ctx n = Ctx.empty n := by simp [State.ctx, h]

theorem State.queue?_modQueue (s : State) (n q : ℕ) (f : Queue → Queue) :
    (s.modQueue n q f).queue? n q = (s.queue? n q).map f := by
  have hx := ctx?_modCtx_self s n (fun c => c.modQueue q f) (fun _ => rfl)
  cases h : s.ctx? n with
  | none =>
    rw [h] at hx
    simp only [State.queue?, State.modQueue, ctx_of_none h, ctx_of_none (s := s.modCtx n _) hx]
    rfl
  | some x =>
    have h1 := ctx_modCtx_self s n (fun c => c.modQueue q f) (fun _ => rfl) (by rw [h]; rfl)
    simp only [State.queue?, State.modQueue, h1, queue?_modQueue_self]

/-! ## Parked strands that go on -/

/-- `d` is a later view of the strand of `c`, at the same place of its code. -/
structure Stays (c d : Cur) : Prop where
  of       : c.Of d
  t        : d.t = { c.t with core := d.t.core }
  pc       : d.t.core.pc = c.t.core.pc
  hdr      : d.t.core.hdr = c.t.core.hdr
  hword    : d.t.core.hword = c.t.core.hword
  inClause : d.t.core.inClause = c.t.core.inClause

theorem stays_of_wrote {c d : Cur} (h : c.Wrote d) : Stays c d :=
  ⟨⟨h.ref, h.crew, by rw [h.warp], by rw [h.warp]⟩, h.t, h.pc, h.hdr, h.hword, h.inClause⟩

/-- The strand of `d` behind its instruction, no longer parked. -/
def onwards (d : Cur) : Cur :=
  (d.advance 1).mapT (fun t => { t with wait := .none, pinCount := 0, trapReplay := false, failed := none })

theorem resumeCur_eq (s : State) (d : Cur) : s.resumeCur d = s.putCur (onwards d) := rfl

theorem stays_onwards_of {c d : Cur} (h : Stays c d) : c.Of (onwards d) :=
  ⟨(d.advance_ref 1).trans h.of.ref, (d.advance_crew 1).trans h.of.crew,
    (congrArg Warp.id (d.advance_warp 1)).trans h.of.id, (congrArg Warp.strands (d.advance_warp 1)).trans h.of.strands⟩

theorem strand?_putCur_ne {s : State} {c e : Cur} (h : s.curOf c.ref = some c) (he : c.Of e) {r : StrandRef}
    (hr : r ≠ c.ref) : (s.putCur e).strand? r = s.strand? r :=
  strand?_elsewhere h (putCur_spec h he) (fun _ => putCur_crew_ne h he _) (fun _ => crewOut_warp_ne h he _)
    (fun _ => warpOut_strand_ne he _) r hr

theorem onwards_place {c d : Cur} (h : Stays c d) : (onwards d).place = c.behind 1 :=
  advance_place 1 h.pc h.hdr h.hword h.inClause

theorem onwards_regs (d : Cur) : (onwards d).regs = d.regs := advance_regs d 1

/-- A parked strand goes on with the registers of `d`. -/
theorem resumes_resumeCur {s : State} {c d : Cur} (h : s.curOf c.ref = some c) (hd : Stays c d) :
    Resumes s (s.resumeCur d) c ((onwards d).back s.free) d := by
  have hof := stays_onwards_of hd
  refine ⟨putCur_spec h hof, fun r => strand?_putCur_ne h hof, rfl, onwards_place hd, onwards_regs d, ?_, rfl, ?_⟩
  · show (d.advance 1).t.chunk = _
    rw [advance_t, hd.t]
  · show (onwards d).crew.mem = _
    rw [hof.crew]

theorem resume_eq {s : State} {c : Cur} {sd : SReg} {x : W64} (h : s.curOf c.ref = some c) :
    s.resume c.ref sd x = s.resumeCur (c.setS sd x) := by
  simp only [State.resume, h]
  rfl

theorem waitOf_of_curOf {s : State} {r : StrandRef} {c : Cur} (h : s.curOf r = some c) : s.waitOf r = c.t.wait := by
  simp only [State.waitOf, curOf_strand h]

theorem svwaitWake_resumes {s : State} {c : Cur} {geu : Bool} {o : AmoOps} {pa since : ℕ} {m : W64}
    (h : s.curOf c.ref = some c) (hw : c.t.wait = .sv geu o pa since (some m)) :
    ∃ t e, exec (.svwaitWake c.ref) s = .next t ∧ Resumes s t c e (c.setS o.sd m) := by
  refine ⟨_, _, ?_, resumes_resumeCur h (stays_of_wrote (wrote_setS c o.sd m))⟩
  show execSvwaitWake c.ref s = _
  simp only [execSvwaitWake, h, hw, resume_eq h]

theorem wcwaitWake_resumes {s : State} {c : Cur} {d : Bool} {o : WcOps} {since : ℕ} {v : W64} {frozen : Bool}
    (h : s.curOf c.ref = some c) (hw : c.t.wait = .wc d o since (some (v, frozen))) :
    ∃ t e, exec (.wcwaitWake c.ref) s = .next t ∧
      Resumes s t c e ((c.setS o.sd v).setP o.p c.l (if frozen then c.l else 0)) := by
  refine ⟨_, _, ?_, resumes_resumeCur h (stays_of_wrote ((wrote_setS c o.sd v).trans (wrote_setP _ o.p _ _)))⟩
  show execWcwaitWake c.ref s = _
  simp only [execWcwaitWake, h, waitOf_of_curOf h, hw]
  rfl

/-- What happens to fences leaves the strands as they are. -/
theorem resumes_pruneFences {s t : State} {c e d : Cur} (h : Resumes s t c e d) : Resumes s t.pruneFences c e d :=
  ⟨h.here, h.others, h.wait, h.place, h.regs, h.chunk, h.mem⟩

theorem fenceOpen_of {s : State} {id : ℕ} (h : ∀ f ∈ s.fences, f.id = id → f.before = []) : s.fenceOpen id = true := by
  simp only [State.fenceOpen, State.fenced, Bool.not_eq_true', List.any_eq_false]
  intro f hf
  by_cases hid : f.id = id
  · simp [h f hf hid]
  · simp [hid]

theorem xfenceResume_resumes {s : State} {c : Cur} {id : ℕ} (h : s.curOf c.ref = some c) (hw : c.t.wait = .xf id)
    (hf : ∀ f ∈ s.fences, f.id = id → f.before = []) :
    ∃ t e, exec (.xfenceResume c.ref) s = .next t ∧ Resumes s t c e c := by
  refine ⟨_, _, ?_, resumes_pruneFences (resumes_resumeCur h (stays_of_wrote (Cur.Wrote.refl c)))⟩
  show execXfenceResume c.ref s = _
  simp only [execXfenceResume, h, waitOf_of_curOf h, hw, fenceOpen_of hf, if_true]

theorem batchArg_of_closed {c : Cur} {sa : SReg} (h : Closed c sa) : c.batchArg sa = .ok ((c.sr sa).setWidth 32) := if_pos h

theorem batchArg_of_not_closed {c : Cur} {sa : SReg} (h : ¬ Closed c sa) : ∃ e, c.batchArg sa = .error e := ⟨_, if_neg h⟩

theorem setReport_eq (c : Cur) (o : SabOps) (n : W32) : c.setReport o n false = reported c o n false := rfl

theorem wrote_reported (c : Cur) (o : SabOps) (n : W32) (b : Bool) : c.Wrote (reported c o n b) :=
  (wrote_setS c _ _).trans (wrote_setS _ _ _)

theorem stays_bwaitDone (c : Cur) (o : SabOps) (n : W32) : Stays c (c.bwaitDone o n) := by
  have h := stays_of_wrote (wrote_reported c o n false)
  unfold Cur.bwaitDone
  rw [setReport_eq]
  dsimp only
  split
  · exact ⟨⟨h.of.ref, h.of.crew, h.of.id, h.of.strands⟩, h.t, h.pc, h.hdr, h.hword, h.inClause⟩
  · exact h

theorem bwaitDone_regs (c : Cur) (o : SabOps) (n : W32) : (c.bwaitDone o n).regs = (reported c o n false).regs := by
  unfold Cur.bwaitDone
  rw [setReport_eq]
  dsimp only
  split <;> rfl

theorem bwaitDone_report (c : Cur) (o : SabOps) (n : W32) :
    (c.bwaitDone o n).warp.report = if (c.reportFor n).isSome then none else c.warp.report := by
  have h : (reported c o n false).warp.report = c.warp.report := by rw [(wrote_reported c o n false).warp]
  unfold Cur.bwaitDone
  rw [setReport_eq]
  dsimp only
  split <;> [rfl; exact h]

theorem bwaitWake_resumes {s : State} {c : Cur} {o : SabOps} {since : ℕ} (h : s.curOf c.ref = some c)
    (hw : c.t.wait = .bw o since) (hc : Closed c o.sa) (hi : c.incomplete ((c.sr o.sa).setWidth 32) = false) :
    let n := (c.sr o.sa).setWidth 32
    ∃ t e, exec (.bwaitWake c.ref) s = .next t ∧ Resumes s t c e (reported c o n false) ∧
      e.warp.report = if (c.reportFor n).isSome then none else c.warp.report := by
  intro n
  obtain ⟨here, others, wait, place, regs, chunk, mem⟩ := resumes_resumeCur h (stays_bwaitDone c o n)
  refine ⟨_, _, ?_, ⟨here, others, wait, place, regs.trans (bwaitDone_regs c o n), chunk, mem⟩, ?_⟩
  · show execBwaitWake c.ref s = _
    simp only [execBwaitWake, h, waitOf_of_curOf h, hw, batchArg_of_closed hc, hi, Bool.false_eq_true, if_false]
    rfl
  · show ((c.bwaitDone o n).advance 1).warp.report = _
    rw [Cur.advance_warp, bwaitDone_report]

/-! ### DEQ (R136) -/

theorem regs_setS (c : Cur) (i : SReg) (x : W64) :
    (c.setS i x).regs = { c.regs with s := if i.val = 0 then c.regs.s else setAt c.regs.s i.val x } := by
  unfold Cur.setS
  by_cases h : i.val = 0 <;> simp [h, Cur.regs]

theorem regs_setP (c : Cur) (i : PReg) (m v : Mask) : (c.setP i m v).regs =
    { c.regs with
      preds := if i.val = 15 then c.regs.preds
        else setAt c.regs.preds i.val ((v &&& m) ||| (c.regs.preds.getD i.val 0 &&& ~~~m)) } := by
  unfold Cur.setP
  by_cases h : i.val = 15 <;> simp [h, Cur.regs]

theorem regs_setS_congr {c d : Cur} (h : c.regs = d.regs) (i : SReg) (x : W64) : (c.setS i x).regs = (d.setS i x).regs := by
  rw [regs_setS, regs_setS, h]

theorem regs_setP_congr {c d : Cur} (h : c.regs = d.regs) (i : PReg) (m v : Mask) :
    (c.setP i m v).regs = (d.setP i m v).regs := by
  rw [regs_setP, regs_setP, h]

/-- Scalars written in turn, by a list of indices. -/
theorem wrote_foldl_setS (r : ℕ → SReg) (x : ℕ → W64) (l : List ℕ) (c : Cur) :
    c.Wrote (l.foldl (fun c i => c.setS (r i) (x i)) c) := by
  induction l generalizing c with
  | nil => exact Cur.Wrote.refl c
  | cons i l ih => exact (wrote_setS c (r i) (x i)).trans (ih _)

theorem regs_foldl_setS (r : ℕ → SReg) (x : ℕ → W64) (l : List ℕ) {c d : Cur} (h : c.regs = d.regs) :
    (l.foldl (fun c i => c.setS (r i) (x i)) c).regs = (l.foldl (fun c i => c.setS (r i) (x i)) d).regs := by
  induction l generalizing c d with
  | nil => exact h
  | cons i l ih => exact ih (regs_setS_congr h _ _)

theorem withItem_eq (c : Cur) (sa : SReg) (bs : List Byte) : withItem c sa bs = c.setItem sa bs (bs.length / 8) := rfl

theorem wrote_setItem (c : Cur) (sa : SReg) (bs : List Byte) (n : ℕ) : c.Wrote (c.setItem sa bs n) :=
  wrote_foldl_setS _ _ _ c

theorem regs_setItem {c d : Cur} (h : c.regs = d.regs) (sa : SReg) (bs : List Byte) (n : ℕ) :
    (c.setItem sa bs n).regs = (d.setItem sa bs n).regs := regs_foldl_setS _ _ _ h

theorem l_of_regs {c d : Cur} (h : c.regs = d.regs) : c.l = d.l := congrArg Regs.l h

theorem setStatus_eq (c : Cur) (o : QueueOps) (st : ℕ) (p : Bool) : c.setStatus o st p = answered c o.sd o.p st p := rfl

theorem wrote_answered (c : Cur) (sd : SReg) (p : PReg) (st : ℕ) (b : Bool) : c.Wrote (answered c sd p st b) :=
  (wrote_setS c _ _).trans (wrote_setP _ _ _ _)

theorem regs_answered {c d : Cur} (h : c.regs = d.regs) (sd : SReg) (p : PReg) (st : ℕ) (b : Bool) :
    (answered c sd p st b).regs = (answered d sd p st b).regs := by
  unfold answered
  rw [l_of_regs h]
  exact regs_setP_congr (regs_setS_congr h _ _) _ _ _

/-- The strand with the items that its warp holds replaced. -/
def holding (c : Cur) (hs : List Held) : Cur := { c with warp := { c.warp with held := hs } }

theorem stays_holding (c : Cur) (hs : List Held) {d : Cur} (h : (holding c hs).Wrote d) : Stays c d := by
  have hs := stays_of_wrote h
  exact ⟨⟨hs.of.ref, hs.of.crew, hs.of.id, hs.of.strands⟩, hs.t, hs.pc, hs.hdr, hs.hword, hs.inClause⟩

theorem queueCheck_ok {s : State} {c : Cur} {o : QueueOps} {x : Queue} (hq : QueueAt s c o x) (h3 : 3 ≤ o.q.toNat) :
    queueCheck false o s c = .ok x := by
  obtain ⟨hx, hst, hrun⟩ := hq
  have hlive : s.liveQueue? c.ctx o.q.toNat = some x := by simp [State.liveQueue?, hx, hst]
  have hkind : queueKind o.q.toNat = 0 := by
    unfold queueKind
    split <;> omega
  have hlen : ¬ 64 < o.sa.val + x.itemBytes / 8 := not_lt.mpr hrun
  simp [queueCheck, hlive, hlen, hkind]

theorem devRead_ok {s : State} {c : Cur} {x : Queue} {pos : ℕ} {q : XReq} {l : Leaf} (h : SlotOk s c x pos q l) :
    s.devRead c.ctx (x.slotVa pos) x.itemBytes q =
      (s.fill c.ctx (x.slotVa pos) l, .ok (s.rdBytes l.pa x.itemBytes)) := by
  obtain ⟨ht, hp⟩ := h
  have hany : (List.range x.itemBytes).any (fun i => s.isPoison (l.pa + i)) = false := by
    simp only [List.any_eq_false, List.mem_range, Bool.not_eq_true]
    exact hp
  simp [State.devRead, ht, hany]

theorem takeHead_opened {s : State} {n q : ℕ} {x : Queue} (h : x.st = .opened) :
    s.takeHead n q x = s.modQueue n q (fun x => { x with head := x.head + 1 }) := by
  simp [State.takeHead, h]

/-- The item at HEAD goes to the strand. -/
theorem deqTry_takes {s : State} {c : Cur} {o : QueueOps} {x : Queue} {l : Leaf} (h : s.curOf c.ref = some c)
    (hq : QueueAt s c o x) (h3 : 3 ≤ o.q.toNat) (hst : x.st = .opened) (hlt : x.head < x.tail)
    (hl : SlotOk s c x x.head XReq.ringRead l) :
    ∃ hs, deqTry false o s c = .done
      ((s.fill c.ctx (x.slotVa x.head) l).modQueue c.ctx o.q.toNat (fun x => { x with head := x.head + 1 }))
      (((holding c hs).setItem o.sa (s.rdBytes l.pa x.itemBytes) (x.itemBytes / 8)).setStatus o 0 true) := by
  refine ⟨c.warp.held.filter (fun h => h.q != o.q.toNat) ++ [⟨o.q.toNat, x.head⟩], ?_⟩
  have hfresh : ((s.fill c.ctx (x.slotVa x.head) l).modQueue c.ctx o.q.toNat
      (fun x => { x with head := x.head + 1 })).fresh c = c := by
    show (s.curOf c.ref).getD c = c
    rw [h]
    rfl
  simp only [deqTry, queueCheck_ok hq h3, devRead_ok hl, takeHead_opened hst, hst, hlt, hfresh]
  rfl

theorem deqWake_resumes {s : State} {c : Cur} {o : QueueOps} {since : ℕ} {x : Queue} {rest : List StrandRef} {l : Leaf}
    (h : s.curOf c.ref = some c) (hw : c.t.wait = .deq o since) (hq : QueueAt s c o x) (h3 : 3 ≤ o.q.toNat)
    (hws : x.waiters = c.ref :: rest) (hst : x.st = .opened) (hlt : x.head < x.tail)
    (hl : SlotOk s c x x.head XReq.ringRead l) :
    ∃ t e, exec (.deqWake c.ctx o.q.toNat) s = .next t ∧
      Resumes s t c e (answered (withItem c o.sa (s.rdBytes l.pa (16 * 2 ^ x.isz))) o.sd o.p 0 true) ∧
      t.queue? c.ctx o.q.toNat = some { x with head := x.head + 1, waiters := x.waiters.filter (· != c.ref) } := by
  obtain ⟨hs, htry⟩ := deqTry_takes h hq h3 hst hlt hl
  obtain ⟨s', hs'⟩ : ∃ s', s' = (s.fill c.ctx (x.slotVa x.head) l).modQueue c.ctx o.q.toNat
      (fun x => { x with head := x.head + 1 }) := ⟨_, rfl⟩
  obtain ⟨d, hd⟩ : ∃ d, d = ((holding c hs).setItem o.sa (s.rdBytes l.pa x.itemBytes) (x.itemBytes / 8)).setStatus o 0 true :=
    ⟨_, rfl⟩
  have hwrote : (holding c hs).Wrote d := by rw [hd]; exact (wrote_setItem _ _ _ _).trans (wrote_answered _ _ _ _ _)
  have hcur : s'.curOf c.ref = some c := by rw [hs']; exact h
  obtain ⟨here, others, wait, place, regs, chunk, mem⟩ := resumes_resumeCur hcur (stays_holding c hs hwrote)
  have hdue : s.waiterDue c.ctx o.q.toNat = true := by simp [State.waiterDue, hq.1, hws, hlt]
  have hlen : (s.rdBytes l.pa (16 * 2 ^ x.isz)).length = x.itemBytes := by simp [State.rdBytes, Queue.itemBytes]
  refine ⟨(s'.resumeCur d).unwait c.ctx o.q.toNat c.ref, _, ?_, ⟨here, ?_, wait, place, ?_, chunk, ?_, mem.2⟩, ?_⟩
  · show execDeqWake c.ctx o.q.toNat s = _
    simp only [execDeqWake, hdue, if_true, State.serveWaiter, hq.1, hws, h, waitOf_of_curOf h, hw, htry, ← hs', ← hd]
  · intro r hr
    refine (others r hr).trans ?_
    rw [hs']
    rfl
  · rw [regs, hd, setStatus_eq, withItem_eq, hlen]
    exact regs_answered (regs_setItem (c := holding c hs) (d := c) rfl _ _ _) _ _ _ _
  · rw [hs']
    rfl
  · rw [State.unwait, State.queue?_modQueue]
    show (s'.queue? c.ctx o.q.toNat).map _ = _
    rw [hs', State.queue?_modQueue]
    show ((s.queue? c.ctx o.q.toNat).map _).map _ = _
    rw [hq.1]
    rfl

/-! ### The completion of a batch (R315, R316) -/

theorem warp?_modWarp (s : State) (r : WarpRef) (f : Warp → Warp) (hf : ∀ w, (f w).id = w.id) :
    (s.modWarp r f).warp? r = (s.warp? r).map f := by
  rw [modWarp_eq]
  simp only [State.warp?, crew?_modCrew_self s r.crew (updWarp r.warp f) (fun _ hk => hk)]
  cases s.crew? r.crew with
  | none => rfl
  | some k => exact warp?_updIf_self k r.warp f (fun w hw => by rw [hf w, hw])

theorem reportAfter_eq (r : Option Report) (b : Batch) : reportAfter r b = match b.fault, r with
    | none, y => y
    | some _, some y => some { y with ovf := true }
    | some f, none => some { n := b.n, kind := f.1, va := f.2, ovf := false } := by
  unfold reportAfter
  cases b.fault <;> cases r <;> rfl

theorem releaseCmds_warp {s : State} {b : Batch} {x : Cmd} (h : x ∈ (s.releaseCmds b).cmds) (hid : x.id ∈ b.cmds) :
    x.warp = none := by
  simp only [State.releaseCmds, List.mem_map] at h
  obtain ⟨y, -, rfl⟩ := h
  by_cases hn : y.id ∈ b.cmds <;> simp_all

theorem batchDone_of {s : State} {b : Batch} (h : b.fault.isSome = true ∨ ∀ x ∈ s.cmds, x.id ∈ b.cmds → x.finished = true) :
    s.batchDone b = true := by
  rcases h with h | h
  · simp [State.batchDone, h]
  · simp only [State.batchDone, Bool.or_eq_true, List.all_eq_true, Bool.not_eq_true', List.contains_eq_mem, decide_eq_false_iff_not]
    right
    intro x hx
    by_cases hm : x.id ∈ b.cmds
    · exact .inr (h x hx hm)
    · exact .inl hm

/-- A warp whose earliest batch has completed. -/
def batchGone (b : Batch) (bs : List Batch) (w : Warp) : Warp := { w with batches := bs, report := reportAfter w.report b }

theorem batchComplete_reports {s : State} {r : WarpRef} {w : Warp} {b : Batch} {bs : List Batch} (hw : s.warp? r = some w)
    (hb : w.batches = b :: bs) (hd : b.fault.isSome = true ∨ ∀ x ∈ s.cmds, x.id ∈ b.cmds → x.finished = true) :
    ∃ t u, exec (.batchComplete r) s = .next t ∧ t.warp? r = some u ∧
      u = { w with batches := bs,
                   report := match b.fault, w.report with
                     | none, y => y
                     | some _, some y => some { y with ovf := true }
                     | some f, none => some { n := b.n, kind := f.1, va := f.2, ovf := false } } ∧
      (∀ x ∈ t.cmds, x.id ∈ b.cmds → x.warp = none) ∧ t.mem = s.mem ∧ t.ctxs = s.ctxs := by
  refine ⟨((s.releaseCmds b).modWarp r (batchGone b bs)).pruneFences, batchGone b bs w, ?_, ?_, ?_, fun x => releaseCmds_warp, rfl, rfl⟩
  · show execBatchComplete r s = _
    simp only [execBatchComplete, hw, hb, batchDone_of hd, if_true]
    rfl
  · refine (warp?_modWarp (s.releaseCmds b) r (batchGone b bs) (fun _ => rfl)).trans ?_
    show (s.warp? r).map _ = _
    rw [hw]
    rfl
  · simp only [batchGone, reportAfter_eq]

theorem wakes_rule : Rules.Wakes :=
  ⟨fun _ _ _ _ _ _ _ h hw => svwaitWake_resumes h hw, fun _ _ _ _ _ _ _ h hw => wcwaitWake_resumes h hw,
    fun _ _ _ h hw hf => xfenceResume_resumes h hw hf, fun _ _ _ _ h hw hc hi => bwaitWake_resumes h hw hc hi,
    fun _ _ _ _ _ _ _ h hw hq h3 hws hst hlt hl => deqWake_resumes h hw hq h3 hws hst hlt hl,
    fun _ _ _ _ _ hw hb hd => batchComplete_reports hw hb hd⟩

/-! ## Traps and faults of parked strands (R92, R152, R202, R203, R295) -/

theorem clear_of_alone {c : Cur} (h : Alone c) : c.t.clear = true := by simp [Strand.clear, h.1, h.2]

theorem runs_of {s : State} {c : Cur} (h : Runs s c) : (s.ctx c.ctx).st.runs = true ∧ c.crew.live = true := by
  obtain ⟨h1, h2⟩ := h
  simp [h1, h2, CtxSt.runs, Crew.live]

theorem whenIdle_eq {s : State} {c : Cur} {F : Cur → State} (h : s.curOf c.ref = some c) (hr : Runs s c) (ha : Alone c) :
    s.whenIdle c.ref F = .next (F c) := by
  simp [State.whenIdle, h, clear_of_alone ha, runs_of hr]

theorem trapEntry_enters {s : State} {c : Cur} {ti : TrapInfo} (h : s.curOf c.ref = some c) (hr : Runs s c) (hc : CanTrap s c)
    (hw : c.t.wait = .trap ti) (hp : c.t.pends = []) :
    ∃ t e, exec (.trapEntry c.ref) s = .next t ∧ Entered s t c e
      (savedRegs c ti.cause.code (BitVec.ofNat 64 ti.addr) (BitVec.ofNat 64 ti.extra) ti.lanes ti.cause.isSoftware) := by
  obtain ⟨e, he⟩ := entered_trap (ti := ti) h hc
  refine ⟨_, e, ?_, he⟩
  show execTrapEntry c.ref s = _
  simp [execTrapEntry, whenIdle_eq h hr hc.alone, hw, hp]

theorem parkedSince_of {c : Cur} {since : ℕ} (h : WaitsSince c since) : c.parkedSince = some since := by
  rcases h with ⟨geu, o, pa, h⟩ | ⟨d, o, h⟩ | ⟨o, h, hi⟩
  · simp [Cur.parkedSince, h]
  · simp [Cur.parkedSince, h]
  · by_cases hc : Closed c o.sa
    · simp [Cur.parkedSince, h, batchArg_of_closed hc, hi hc]
    · obtain ⟨e, he⟩ := batchArg_of_not_closed hc
      simp [Cur.parkedSince, h, he]

theorem watchdog_enters {s : State} {c : Cur} {since : ℕ} (h : s.curOf c.ref = some c) (hr : Runs s c) (hc : CanTrap s c)
    (hw : WaitsSince c since) (h0 : 0 < (s.ctx c.ctx).watchdog) (hlt : 1000 * (s.ctx c.ctx).watchdog < s.ns - since) :
    ∃ t e, exec (.watchdog c.ref) s = .next t ∧
      Entered s t c e (savedRegs c 0x19 0 (BitVec.ofNat 64 ((s.ns - since) / 1000)) c.em false) := by
  obtain ⟨e, he⟩ := entered_trap (ti := ⟨.watchdog, 0, (s.ns - since) / 1000, c.em⟩) h hc
  refine ⟨_, e, ?_, he⟩
  show execWatchdog c.ref s = _
  have h0' : (s.ctx c.ctx).watchdog ≠ 0 := by omega
  simp [execWatchdog, whenIdle_eq h hr hc.alone, parkedSince_of hw, h0', hlt, State.trapParked, h]

/-- The identifier that a new record takes where no outstanding record has it. -/
theorem freshFault_free {used : List ℕ} {n : ℕ} (hn : n < 2 ^ 32) (h : n ∉ used) : freshFault used n = n := by
  have h0 : (n + 0) % 2 ^ 32 = n := Nat.mod_eq_of_lt hn
  have hu : (!used.contains n) = true := by simpa using h
  rw [freshFault, List.range_succ_eq_map, List.map_cons, h0, List.find?_cons_of_pos (p := fun i => !used.contains i) hu]
  rfl

/-- The strand parked for fault record `id`. -/
def parkedFor (id : ℕ) (pf : PageFault) (t : Strand) : Strand :=
  { t with wait := .fault id pf, chunk := Chunk.none, pinCount := 0 }

theorem faultPark_exec {s : State} {c : Cur} {pf : PageFault} (h : s.curOf c.ref = some c) (hr : Runs s c) (ha : Alone c)
    (hw : c.t.wait = .faulting pf) :
    exec (.faultPark c.ref) s = .next
      (((s.attachFault c.ctx pf (.strand c.ref) c.faultRecord).1.modStrand c.ref
        (parkedFor (s.attachFault c.ctx pf (.strand c.ref) c.faultRecord).2 pf)).dropPin c.ref) := by
  show execFaultPark c.ref s = _
  simp only [execFaultPark, whenIdle_eq h hr ha, hw]
  rfl

section
variable {s : State} {n : ℕ} {pf : PageFault} {a : Attached} {mk : FaultRec → FaultRec}

/-- The record of an outstanding fault with one more attached. -/
def attachedTo (a : Attached) (x : FaultRec) : FaultRec := { x with attached := addNew x.attached a }

/-- The context with one more attached to record `id`. -/
def attachIn (id : ℕ) (a : Attached) (c : Ctx) : Ctx :=
  { c with faults := updIf (fun x => x.id == id) (attachedTo a) c.faults }

/-- The context with one more outstanding record. -/
def withRec (f : FaultRec) (id : ℕ) (c : Ctx) : Ctx := { c with faults := c.faults ++ [f], nextFault := (id + 1) % 2 ^ 32 }

theorem attachFault_found {f : FaultRec}
    (h : (s.ctx n).faults.find? (fun f => f.pf.va / 4096 == pf.va / 4096 && f.pf.access == pf.access) = some f) :
    s.attachFault n pf a mk = ((s.forget n pf.va).modCtx n (attachIn f.id a), f.id) := by
  have h' : ((s.forget n pf.va).ctx n).faults.find?
      (fun f => f.pf.va / 4096 == pf.va / 4096 && f.pf.access == pf.access) = some f := h
  simp only [State.attachFault, h']
  rfl

/-- A fault record as it is made. -/
def madeRec (id : ℕ) (pf : PageFault) (a : Attached) : FaultRec :=
  { id := id, pf := pf, core := 0, quad := 0, slot := 0, strand := 255, isOpen := false, voy := 0, crew := 0, batch := 0,
    attached := [a], posted := false }

theorem attachFault_new
    (h : ∀ f ∈ (s.ctx n).faults, ¬ (f.pf.va / 4096 = pf.va / 4096 ∧ f.pf.access = pf.access))
    (hn : (s.ctx n).nextFault < 2 ^ 32) (hid : ∀ f ∈ (s.ctx n).faults, f.id ≠ (s.ctx n).nextFault) :
    s.attachFault n pf a mk =
      ((s.forget n pf.va).modCtx n (withRec (mk (madeRec (s.ctx n).nextFault pf a)) (s.ctx n).nextFault),
        (s.ctx n).nextFault) := by
  have hfind : ((s.forget n pf.va).ctx n).faults.find?
      (fun f => f.pf.va / 4096 == pf.va / 4096 && f.pf.access == pf.access) = none := by
    rw [List.find?_eq_none]
    intro f hf
    simpa using h f hf
  have hfresh : freshFault (((s.forget n pf.va).ctx n).faults.map (·.id)) ((s.forget n pf.va).ctx n).nextFault =
      (s.ctx n).nextFault := by
    refine freshFault_free hn ?_
    rw [List.mem_map]
    rintro ⟨f, hf, he⟩
    exact hid f hf he
  simp only [State.attachFault, hfind, hfresh]
  rfl

end

theorem faultPark_new {s : State} {c : Cur} {pf : PageFault} (h : s.curOf c.ref = some c) (hr : Runs s c) (ha : Alone c)
    (hw : c.t.wait = .faulting pf)
    (hnone : ∀ f ∈ (s.ctx c.ctx).faults, ¬ (f.pf.va / 4096 = pf.va / 4096 ∧ f.pf.access = pf.access))
    (hn : (s.ctx c.ctx).nextFault < 2 ^ 32) (hid : ∀ f ∈ (s.ctx c.ctx).faults, f.id ≠ (s.ctx c.ctx).nextFault) :
    ∃ t e, exec (.faultPark c.ref) s = .next t ∧ t.curOf c.ref = some e ∧
      e.t = parkedFor (s.ctx c.ctx).nextFault pf c.t ∧ (t.ctx c.ctx).faults = (s.ctx c.ctx).faults ++
        [c.faultRecord (madeRec (s.ctx c.ctx).nextFault pf (.strand c.ref))] := by
  have hex := faultPark_exec h hr ha hw
  rw [attachFault_new hnone hn hid] at hex
  have hctx : (s.ctx? c.ctx).isSome = true := ctx?_isSome (by rw [hr.1]; decide)
  obtain ⟨g, hg⟩ : ∃ g, g = withRec (c.faultRecord (madeRec (s.ctx c.ctx).nextFault pf (.strand c.ref))) (s.ctx c.ctx).nextFault :=
    ⟨_, rfl⟩
  rw [← hg] at hex
  have hcur : ((s.forget c.ctx pf.va).modCtx c.ctx g).curOf c.ref = some c := h
  refine ⟨_, _, hex, curOf_modStrand hcur _, rfl, ?_⟩
  refine (congrArg Ctx.faults (ctx_modCtx_self (s.forget c.ctx pf.va) c.ctx g (fun _ => by rw [hg]; rfl) hctx)).trans ?_
  rw [hg]
  rfl

theorem mem_addNew {α : Type} [BEq α] [LawfulBEq α] (l : List α) (x : α) : x ∈ addNew l x := by
  unfold addNew
  by_cases h : l.contains x = true
  · rw [if_pos h]
    simpa using h
  · rw [if_neg h]
    simp

theorem faultPark_found {s : State} {c : Cur} {pf : PageFault} {f : FaultRec} (h : s.curOf c.ref = some c) (hr : Runs s c)
    (ha : Alone c) (hw : c.t.wait = .faulting pf)
    (hf : (s.ctx c.ctx).faults.find? (fun f => f.pf.va / 4096 == pf.va / 4096 && f.pf.access == pf.access) = some f) :
    ∃ t e, exec (.faultPark c.ref) s = .next t ∧ t.curOf c.ref = some e ∧ e.t.wait = .fault f.id pf ∧
      (t.ctx c.ctx).faults.length = (s.ctx c.ctx).faults.length ∧
      ∃ g ∈ (t.ctx c.ctx).faults, g.id = f.id ∧ g.pf = f.pf ∧ .strand c.ref ∈ g.attached := by
  have hex := faultPark_exec h hr ha hw
  rw [attachFault_found hf] at hex
  have hctx : (s.ctx? c.ctx).isSome = true := ctx?_isSome (by rw [hr.1]; decide)
  have hfaults := congrArg Ctx.faults
    (ctx_modCtx_self (s.forget c.ctx pf.va) c.ctx (attachIn f.id (.strand c.ref)) (fun _ => rfl) hctx)
  have hcur : ((s.forget c.ctx pf.va).modCtx c.ctx (attachIn f.id (.strand c.ref))).curOf c.ref = some c := h
  have hmem : attachedTo (.strand c.ref) f ∈ updIf (fun x => x.id == f.id) (attachedTo (.strand c.ref)) (s.ctx c.ctx).faults := by
    have := mem_updIf (p := fun x : FaultRec => x.id == f.id) (f := attachedTo (.strand c.ref)) (List.mem_of_find?_eq_some hf)
    simpa using this
  refine ⟨_, _, hex, curOf_modStrand hcur _, rfl, ?_, attachedTo (.strand c.ref) f, ?_, rfl, rfl,
    mem_addNew _ _⟩
  · exact (congrArg List.length hfaults).trans (List.length_map _)
  · exact hfaults.symm ▸ hmem

theorem parkedTraps_rule : Rules.ParkedTraps :=
  ⟨fun _ _ _ h hr hc hw hp => trapEntry_enters h hr hc hw hp, fun _ _ _ h hr hc hw h0 hlt => watchdog_enters h hr hc hw h0 hlt,
    fun _ _ _ h hr ha hw => ⟨fun hnone hn hid => faultPark_new h hr ha hw hnone hn hid, fun _ hf => faultPark_found h hr ha hw hf⟩⟩

/-- Settles O43: a parked strand goes on by one update of its own strand, enters its handler, or parks at a fault record. -/
theorem wakesAndParkedTraps : Obligations.WakesAndParkedTraps := ⟨wakes_rule, parkedTraps_rule⟩

end Sys2Proof.ContextProofs

/-!
PROOFS. The context (05): squashes and hardware errors (O44).
-/

namespace Sys2Proof.ContextProofs

open Sys2Proof Sys2Proof.Machine Sys2Proof.Rules

/-! ## Squashes (R196, R201) -/

/-- `v` is the warp `w` with other registers. -/
def RegsOnly (w v : Warp) : Prop := v = { w with vregs := v.vregs, gregs := v.gregs, preds := v.preds, tiles := v.tiles }

theorem RegsOnly.refl (w : Warp) : RegsOnly w w := rfl

theorem RegsOnly.trans {u v w : Warp} (h : RegsOnly u v) (g : RegsOnly v w) : RegsOnly u w := by
  rw [RegsOnly] at *
  rw [g, h]

theorem regsOnly_applyShadow (l : Mask) (w : Warp) (o : OldVal) : RegsOnly w (applyShadow l w o) := by
  cases o <;> rfl

theorem regsOnly_foldl {α : Type} {f : Warp → α → Warp} {l : List α} (hf : ∀ w, ∀ a ∈ l, RegsOnly w (f w a)) (w : Warp) :
    RegsOnly w (l.foldl f w) := by
  induction l generalizing w with
  | nil => exact RegsOnly.refl w
  | cons a l ih =>
    exact (hf w a List.mem_cons_self).trans (ih (fun v b hb => hf v b (List.mem_cons_of_mem a hb)) _)

/-- A chunk that made no strand leaves only registers to restore. -/
theorem regsOnly_undo (core : StrandCore) (w : Warp) {ch : Chunk} (h : ch.childIdx = none) : RegsOnly w (w.undo core ch) := by
  simp only [Warp.undo, h]
  exact regsOnly_foldl (fun v o _ => regsOnly_applyShadow _ v o) w

/-- The chunks that a squash of chunk `n` undoes made no strand. -/
def Childless (t : Strand) (n : ℕ) : Prop := ∀ x ∈ t.unplaced.drop n, x.childIdx = none

theorem lt_unplaced {t : Strand} {n : ℕ} {ch : Chunk} (h : t.unplaced[n]? = some ch) : n ≤ t.earlier.length := by
  obtain ⟨hn, -⟩ := List.getElem?_eq_some_iff.mp h
  simp [Strand.unplaced] at hn
  omega

section
variable {w : Warp} {i n : ℕ} {k : SquashKind} {t : Strand} {ch : Chunk} (ht : w.strand? i = some t)
  (hch : t.unplaced[n]? = some ch) (hgo : ch.st ≠ .idle ∨ (ch.pinned = true ∧ k = .halt)) (hc : Childless t n)
include ht hch hgo hc

/-- A squash of a strand's own chunk: registers of the warp are restored, and the strand goes back. -/
theorem squashOwn_eq : ∃ v, RegsOnly w v ∧ w.squashOwn i n k = v.setStrand i (some (t.squashed ch (t.earlier.take n) k)) := by
  refine ⟨(t.unplaced.drop n).reverse.foldl (Warp.undo t.core) w,
    regsOnly_foldl (fun v x hx => regsOnly_undo _ v (hc x (List.mem_reverse.mp hx))) w, ?_⟩
  have hb : (ch.st == .idle && !(ch.pinned && k == .halt)) = false := by
    rcases hgo with h | ⟨h1, h2⟩
    · simp [h]
    · simp [h1, h2]
  simp only [Warp.squashOwn, ht, hch]
  rw [hb]
  rfl

/-- A squash of a chunk that no merge handed on is one of the strand's own. -/
theorem squash_eq (ho : ch.owner = none) :
    ∃ v, RegsOnly w v ∧ w.squash i n k = v.setStrand i (some (t.squashed ch (t.earlier.take n) k)) := by
  have h : w.squash i n k = w.squashOwn i n k := by
    simp only [Warp.squash, ht, Option.bind_some, hch, Option.map_some]
    cases w.merges.find? (fun m => m.sv == i) with
    | none => rfl
    | some m => simp [ho]
  rw [h]
  exact squashOwn_eq ht hch hgo hc

end

/-- The sum of a squash: the chunks that had begun, counted once at least. -/
theorem squashed_sqcnt {t : Strand} {n : ℕ} {ch : Chunk} {k : SquashKind} (hch : t.unplaced[n]? = some ch)
    (ha : ch.active = true) : (t.squashed ch (t.earlier.take n) k).sqcnt =
      t.sqcnt + BitVec.ofNat 64 ((t.unplaced.drop n).filter Chunk.active).length := by
  have hlen : (t.earlier.take n).length = n := by simp [lt_unplaced hch]
  obtain ⟨hn, hget⟩ := List.getElem?_eq_some_iff.mp hch
  have hpos : 1 ≤ ((t.unplaced.drop n).filter Chunk.active).length := by
    rw [List.drop_eq_getElem_cons hn, hget, List.filter_cons_of_pos ha]
    simp
  have hmax : Nat.max 1 ((t.unplaced.drop n).filter Chunk.active).length = _ := max_eq_right hpos
  simp only [Strand.squashed, hlen, hmax]

theorem strand?_regsOnly {w v : Warp} (h : RegsOnly w v) (j : ℕ) : v.strand? j = w.strand? j := by
  rw [Warp.strand?, h]
  rfl

theorem active_ne_idle {ch : Chunk} (h : ch.active = true) : ch.st ≠ .idle := by
  intro h0
  simp [Chunk.active, h0] at h

/-! A squash keeps a warp's number. -/

theorem foldl_keeps {α β γ : Type} (p : α → γ) {f : α → β → α} (hf : ∀ a b, p (f a b) = p a) (l : List β) (a : α) :
    p (l.foldl f a) = p a := by
  induction l generalizing a with
  | nil => rfl
  | cons b l ih => exact (ih _).trans (hf a b)

@[simp] theorem applyShadow_id (l : Mask) (w : Warp) (o : OldVal) : (applyShadow l w o).id = w.id := by cases o <;> rfl

@[simp] theorem undo_id (core : StrandCore) (w : Warp) (ch : Chunk) : (w.undo core ch).id = w.id := by
  have h := foldl_keeps Warp.id (applyShadow_id (ch.snap.getD core).l) ch.shadow w
  cases hc : ch.childIdx with
  | none => simpa only [Warp.undo, hc] using h
  | some i =>
    simp only [Warp.undo, hc]
    exact h

@[simp] theorem squashOwn_id (w : Warp) (i n : ℕ) (k : SquashKind) : (w.squashOwn i n k).id = w.id := by
  unfold Warp.squashOwn
  split
  · rfl
  next t _ =>
    split
    · rfl
    · split
      · rfl
      · exact foldl_keeps Warp.id (undo_id t.core) _ w

/-- The strands put in place after an undone merge, in a warp whose number is `i`. -/
theorem foldl_setStrand_id (f : ℕ × Strand → Option Strand) (l : List (ℕ × Strand)) (w : Warp) :
    (l.foldl (fun v x => v.setStrand x.1 (f x)) w).id = w.id :=
  foldl_keeps Warp.id (f := fun v x => v.setStrand x.1 (f x)) (fun _ _ => rfl) l w

@[simp] theorem unmerge_id (w : Warp) (m : Merge) : (w.unmerge m).id = w.id := by
  unfold Warp.unmerge
  split
  · rfl
  next t _ =>
    cases indexOf? (fun ch => ch.owner.isNone && ch.active) t.unplaced with
    | none =>
      dsimp only
      split
      · rfl
      · exact foldl_setStrand_id _ m.members _
    | some n =>
      dsimp only
      split
      · exact squashOwn_id w m.sv n .conflict
      · exact (foldl_setStrand_id _ m.members _).trans (squashOwn_id w m.sv n .conflict)

@[simp] theorem squash_id (w : Warp) (i n : ℕ) (k : SquashKind) : (w.squash i n k).id = w.id := by
  unfold Warp.squash
  split
  next m _ _ =>
    split
    · exact squashOwn_id w i n k
    · dsimp only
      split
      · exact (foldl_keeps Warp.id (fun v x => squashOwn_id v x.1 0 k) m.members _).trans (unmerge_id w m)
      · simp only [squashOwn_id, unmerge_id]
  · exact squashOwn_id w i n k

section
variable {s : State} {c : Cur} (h : s.curOf c.ref = some c)
include h

/-- A warp updated, seen from one of its strands. -/
theorem curOf_modWarp {f : Warp → Warp} (hf : ∀ w, w.id = c.ref.w.warp → (f w).id = c.ref.w.warp) {x : Strand}
    (hx : (f c.warp).strand? c.ref.strand = some x) :
    (s.modWarp c.ref.w f).curOf c.ref =
      some { c with crew := updWarp c.ref.w.warp f c.crew, warp := f c.warp, t := x } := by
  obtain ⟨-, h2, h3, -, h5, h6, h7⟩ := (curOf_iff s c.ref c).mp h
  refine (curOf_iff _ _ _).mpr ⟨rfl, ?_, ?_, hx, h5, h6, h7⟩
  · rw [modWarp_eq, crew?_modCrew_self _ _ (updWarp _ _) (fun _ hk => hk), h2]
    rfl
  · refine (warp?_updIf_self c.crew _ f hf).trans ?_
    rw [h3]
    rfl

/-- A squash of a chunk that no merge handed on, at an error: only the strand's warp changes, and the strand goes back. -/
theorem squashAt_error {n : ℕ} {ch : Chunk} (hch : c.t.unplaced[n]? = some ch) (ha : ch.active = true)
    (ho : ch.owner = none) (hc : Childless c.t n) :
    ∃ e, (s.squashAt c.ref n .error).curOf c.ref = some e ∧ e.t = c.t.squashed ch (c.t.earlier.take n) .error ∧
      (s.squashAt c.ref n .error).mem = s.mem ∧ e.crew.mem = c.crew.mem := by
  obtain ⟨-, -, hw, ht, -⟩ := (curOf_iff s c.ref c).mp h
  have hs : s.squashAt c.ref n .error = s.modWarp c.ref.w (fun w => w.squash c.ref.strand n .error) := by
    have howner : ((s.strand? c.ref).bind (fun t => t.unplaced[n]?)).bind (·.owner) = none := by
      rw [curOf_strand h, Option.bind_some, hch, Option.bind_some, ho]
    simp only [State.squashAt, howner]
    rfl
  obtain ⟨v, hv, hsq⟩ := squash_eq (k := .error) ht hch (.inl (active_ne_idle ha)) hc ho
  have hx : (c.warp.squash c.ref.strand n .error).strand? c.ref.strand =
      some (c.t.squashed ch (c.t.earlier.take n) .error) := by
    rw [hsq]
    exact strand?_setStrand_self v _ _ (strand?_lt ((strand?_regsOnly hv _).trans ht))
  rw [hs]
  exact ⟨_, curOf_modWarp h (fun w hw => by rw [squash_id, hw]) hx, rfl, rfl, rfl⟩

end

/-! ## Errors (R107 to R109, R201, R354) -/

/-- A strand with one of its chunks that are not placed changed. -/
theorem modUnplaced_eq {t : Strand} {n : ℕ} {ch : Chunk} {f : Chunk → Chunk} (h : t.unplaced[n]? = some ch) :
    t.modUnplaced n f = { t with earlier := (t.modUnplaced n f).earlier, chunk := (t.modUnplaced n f).chunk } ∧
      (t.modUnplaced n f).unplaced = setAt t.unplaced n (f ch) := by
  have hn := lt_unplaced h
  unfold Strand.modUnplaced Strand.unplaced at *
  by_cases hlt : n < t.earlier.length
  · refine ⟨by rw [if_pos hlt], List.ext_getElem? fun j => ?_⟩
    rw [if_pos hlt, getElem?_setAt]
    rw [List.getElem?_append_left hlt] at h
    by_cases hj : j < t.earlier.length
    · rw [List.getElem?_append_left (by rwa [length_modAt]), getElem?_modAt, List.getElem?_append_left hj]
      by_cases hjn : j = n
      · simp [hjn, h]
        omega
      · simp [hjn]
    · rw [List.getElem?_append_right (by rw [length_modAt]; omega), List.getElem?_append_right (by omega), length_modAt,
        if_neg (by omega)]
  · obtain rfl : n = t.earlier.length := by omega
    refine ⟨by simp, List.ext_getElem? fun j => ?_⟩
    rw [if_neg hlt, if_pos rfl, getElem?_setAt]
    by_cases hj : j < t.earlier.length
    · dsimp only
      rw [List.getElem?_append_left hj, List.getElem?_append_left hj, if_neg (by omega)]
    · dsimp only
      rw [List.getElem?_append_right (by omega), List.getElem?_append_right (by omega)]
      by_cases hjn : j = t.earlier.length
      · simp [hjn, show t.chunk = ch by simpa using h]
      · have hpos : j - t.earlier.length ≠ 0 := by omega
        rw [if_neg (by omega), List.getElem?_singleton, List.getElem?_singleton, if_neg hpos, if_neg hpos]

theorem mem_addNew_iff {l : List ℕ} {x y : ℕ} : y ∈ addNew l x ↔ y ∈ l ∨ y = x := by
  unfold addNew
  split
  next h =>
    have hx : x ∈ l := by simpa using h
    exact ⟨Or.inl, fun hy => hy.elim id (fun e => e ▸ hx)⟩
  · simp

/-- A chunk with one more granule poisoned at its commit (log 56). -/
def withBadG (g : ℕ) (ch : Chunk) : Chunk := { ch with badG := addNew ch.badG g }
def withBadC (g : ℕ) (ch : Chunk) : Chunk := { ch with badC := addNew ch.badC g }

section
variable {s : State} {c : Cur} {n : ℕ} {ch : Chunk} {site : ErrSite} (h : s.curOf c.ref = some c)
  (hch : c.t.unplaced[n]? = some ch) (ha : ch.active = true)
include h hch ha

theorem error_first (hs : ch.errSeen = false) :
    exec (.uncorrectableErrorOpen { strand := c.ref, n := n } none site) s = .next (s.squashAt c.ref n .error) := by
  show execUncorrectableErrorOpen _ none site s = _
  simp [execUncorrectableErrorOpen, h, hch, ha, hs]

theorem error_second (hs : ch.errSeen = true) :
    exec (.uncorrectableErrorOpen { strand := c.ref, n := n } none site) s = .next (s.errorIn c.ref n site) := by
  show execUncorrectableErrorOpen _ none site s = _
  simp [execUncorrectableErrorOpen, h, hch, ha, hs]

theorem firstError (ho : ch.owner = none) (hs : ch.errSeen = false) (hc : Childless c.t n) :
    ∃ t e, exec (.uncorrectableErrorOpen { strand := c.ref, n := n } none site) s = .next t ∧ t.curOf c.ref = some e ∧
      e.t.core = { (ch.snap.getD c.t.core) with inClause := false } ∧
      e.t.sqcnt = c.t.sqcnt + BitVec.ofNat 64 ((c.t.unplaced.drop n).filter Chunk.active).length ∧
      e.t.earlier.length = n ∧ e.t.chunk.errSeen = true ∧ e.t.chunk.active = false ∧ t.mem = s.mem ∧
      e.crew.mem = c.crew.mem := by
  obtain ⟨e, he, het, hmem, hcm⟩ := squashAt_error h hch ha ho hc
  refine ⟨_, e, error_first h hch ha hs, he, ?_, ?_, ?_, ?_, ?_, hmem, hcm⟩ <;> rw [het]
  · rfl
  · exact squashed_sqcnt hch ha
  · simp [Strand.squashed, lt_unplaced hch]
  · rfl
  · rfl

omit ha in
theorem touches_modUnplaced (f : Chunk → Chunk) :
    ∃ e, Touches s (s.modStrand c.ref (fun t => t.modUnplaced n f)) c e ∧
      e.t = { c.t with earlier := e.t.earlier, chunk := e.t.chunk } ∧ e.t.unplaced = setAt c.t.unplaced n (f ch) :=
  ⟨_, touches_modStrand h _, modUnplaced_eq hch⟩

theorem secondError_phys (hs : ch.errSeen = true) (pa : ℕ) :
    ∃ t e x, exec (.uncorrectableErrorOpen { strand := c.ref, n := n } none (.phys pa)) s = .next t ∧ Touches s t c e ∧
      e.t = { c.t with earlier := e.t.earlier, chunk := e.t.chunk } ∧ e.t.unplaced = setAt c.t.unplaced n x ∧
      x = { ch with badG := x.badG } ∧ ∀ g, g ∈ x.badG ↔ g ∈ ch.badG ∨ g = pa / 32 := by
  obtain ⟨e, he, het, hun⟩ := touches_modUnplaced h hch (withBadG (pa / 32))
  exact ⟨_, e, withBadG (pa / 32) ch, error_second h hch ha hs, he, het, hun, rfl, fun _ => mem_addNew_iff⟩

theorem secondError_crewMem (hs : ch.errSeen = true) (off : ℕ) :
    ∃ t e x, exec (.uncorrectableErrorOpen { strand := c.ref, n := n } none (.crewMem c.ref.w.crew off)) s = .next t ∧
      Touches s t c e ∧ e.t = { c.t with earlier := e.t.earlier, chunk := e.t.chunk } ∧
      e.t.unplaced = setAt c.t.unplaced n x ∧ x = { ch with badC := x.badC } ∧ ∀ g, g ∈ x.badC ↔ g ∈ ch.badC ∨ g = off / 32 := by
  obtain ⟨e, he, het, hun⟩ := touches_modUnplaced h hch (withBadC (off / 32))
  refine ⟨_, e, withBadC (off / 32) ch, (error_second h hch ha hs).trans (congrArg Host.Outcome.next ?_), he, het, hun, rfl,
    fun _ => mem_addNew_iff⟩
  simp only [State.errorIn, beq_self_eq_true, if_true]
  rfl

theorem secondError_committed (hs : ch.errSeen = true) (hp : ∀ pa, site ≠ .phys pa)
    (hm : ∀ off, site ≠ .crewMem c.ref.w.crew off) :
    exec (.uncorrectableErrorOpen { strand := c.ref, n := n } none site) s = exec (.uncorrectableErrorCommitted site) s := by
  refine (error_second h hch ha hs).trans (congrArg Host.Outcome.next ?_)
  cases site with
  | phys pa => exact absurd rfl (hp pa)
  | crewMem r off =>
    have hr : (r == c.ref.w.crew) = false := by
      simp only [beq_eq_false_iff_ne]
      rintro rfl
      exact hm off rfl
    simp only [State.errorIn, hr]
    rfl
  | vreg | strandReg | tile | imageRegs | imageState | unowned => rfl

end

section
variable {s : State} {c : Cur} {site : ErrSite} {t : TReg} {w : W64} {n : ℕ} (h : s.curOf c.ref = some c)
  (hm : s.mayIssue c false = true) (hw : s.fetchWord c.ctx c.t.core.pc = .ok w) (hx : c.matrixOn t w = true)
include h

theorem residue_event :
    exec (.uncorrectableErrorOpen { strand := c.ref, n := n } (some t) site) s = .next (s.residueError c t) := by
  show execUncorrectableErrorOpen _ (some t) site s = _
  simp only [execUncorrectableErrorOpen, h]

theorem squash_open : s.squash c.ref .error = s.squashAt c.ref c.t.earlier.length .error := by
  simp [State.squash, curOf_strand h]

include hm hw hx

omit h in
theorem residue_on : (!(s.mayIssue c false) || !(c.matrixOn t (s.peekWord c.ctx c.t.core.pc))) = false := by
  have hp : s.peekWord c.ctx c.t.core.pc = w := by simp [State.peekWord, hw, Except.toOption]
  simp [hm, hp, hx]

theorem residue_idle (hs : c.t.errSeen = false) (hi : c.t.chunk.st = .idle) :
    Becomes s c (.uncorrectableErrorOpen { strand := c.ref, n := n } (some t) site)
      { c.t with chunk := { c.t.chunk with errSeen := true }, sqcnt := c.t.sqcnt + 1 } := by
  have he : s.residueError c t = s.modStrand c.ref Strand.noteError := by
    simp [State.residueError, residue_on hm hw hx, hs, hi]
  refine ⟨_, _, residue_event h, he ▸ touches_modStrand h _, ?_⟩
  simp only [updCur, Strand.noteError, hi]

theorem residue_opened (hs : c.t.errSeen = false) (hi : c.t.chunk.st = .opened) (hc : c.t.chunk.childIdx = none)
    (ho : c.t.chunk.owner = none) :
    ∃ u e, exec (.uncorrectableErrorOpen { strand := c.ref, n := n } (some t) site) s = .next u ∧ u.curOf c.ref = some e ∧
      e.t.core = { (c.t.chunk.snap.getD c.t.core) with inClause := false } ∧
      e.t.chunk.errSeen = true ∧ e.t.chunk.active = false ∧ e.t.sqcnt = c.t.sqcnt + 1 ∧ u.mem = s.mem := by
  have he : s.residueError c t = s.squashAt c.ref c.t.earlier.length .error := by
    simp [State.residueError, residue_on hm hw hx, hs, hi, squash_open h]
  have hch : c.t.unplaced[c.t.earlier.length]? = some c.t.chunk := by simp [Strand.unplaced]
  have ha : c.t.chunk.active = true := by simp [Chunk.active, hi]
  have hdrop : c.t.unplaced.drop c.t.earlier.length = [c.t.chunk] := by simp [Strand.unplaced]
  obtain ⟨e, hcur, het, hmem, -⟩ := squashAt_error h hch ha ho (by simpa [Childless, hdrop] using hc)
  refine ⟨_, e, residue_event h, he ▸ hcur, ?_, ?_, ?_, ?_, he ▸ hmem⟩ <;> rw [het]
  · rfl
  · rfl
  · rfl
  · rw [squashed_sqcnt hch ha, hdrop]
    simp [ha]

/-- A strand with its residue mismatch on record, and its trap squash counted. -/
def mismatched (t : TReg) (a : W64) (x : Strand) : Strand := counted { x with residue := some (t.val, a) }

theorem residue_traps (hs : c.t.errSeen = true) (hc : CanTrap s c) (hp : c.t.pends = []) :
    ∃ u e, exec (.uncorrectableErrorOpen { strand := c.ref, n := n } (some t) site) s = .next u ∧
      Entered s u c e (savedRegs c 0x0E 0 (BitVec.ofNat 64 t.val) c.em false) := by
  have he : s.residueError c t = (s.modStrand c.ref (fun x => { x with residue := some (t.val, c.t.core.pc) })).trapAt c
      { cause := .matrixResidue, addr := 0, extra := t.val, lanes := c.em } c.t.core.pc := by
    simp [State.residueError, residue_on hm hw hx, hs]
  obtain ⟨e, hen⟩ := entered_enterTrap (g := mismatched t c.t.core.pc)
    (ti := { cause := .matrixResidue, addr := 0, extra := t.val, lanes := c.em }) h hc
    (fun x => counted_core _) (counted_sqcnt _)
  refine ⟨_, e, residue_event h, ?_⟩
  rw [he, trapAt_alone hc.alone hp, countTrapSquash_eq, modStrand_modStrand]
  exact hen

end

/-- A warp with one vector register, and with one tile, poisoned. -/
def poisonVreg (i : ℕ) (w : Warp) : Warp := { w with vregs := modAt w.vregs i VecReg.poisoned }
def poisonTile (k : ℕ) (w : Warp) : Warp := { w with tiles := modAt w.tiles k (fun y => { y with st := .poison }) }

theorem vreg_poisoned {s : State} {r : WarpRef} {w : Warp} (h : s.warp? r = some w) {i : Fin 256} {v : VecReg}
    (hv : w.vregs[i.val]? = some v) :
    ∃ t u, exec (.uncorrectableErrorCommitted (.vreg r (.v i))) s = .next t ∧ t = { s with crews := t.crews } ∧
      t.warp? r = some u ∧ u = { w with vregs := u.vregs } ∧ u.vregs[i.val]? = some { v with tag := .poison } ∧
      ∀ j, j ≠ i.val → u.vregs[j]? = w.vregs[j]? := by
  refine ⟨_, poisonVreg i.val w, rfl, rfl, ?_, rfl, ?_, fun j hj => ?_⟩
  · refine (warp?_modWarp s r (poisonVreg i.val) (fun _ => rfl)).trans ?_
    rw [h]
    rfl
  · rw [poisonVreg, getElem?_modAt, if_pos rfl, hv]
    rfl
  · rw [poisonVreg, getElem?_modAt, if_neg hj]

theorem tile_poisoned {s : State} {r : WarpRef} {w : Warp} (h : s.warp? r = some w) {k : ℕ} {x : Tile}
    (hx : w.tiles[k]? = some x) :
    ∃ t u, exec (.uncorrectableErrorCommitted (.tile r k)) s = .next t ∧ t = { s with crews := t.crews } ∧
      t.warp? r = some u ∧ u = { w with tiles := u.tiles } ∧ u.tiles[k]? = some { x with st := .poison } := by
  refine ⟨_, poisonTile k w, rfl, rfl, ?_, rfl, ?_⟩
  · refine (warp?_modWarp s r (poisonTile k) (fun _ => rfl)).trans ?_
    rw [h]
    rfl
  · rw [poisonTile, getElem?_modAt, if_pos rfl, hx]
    rfl

theorem phys_poisoned {s : State} {pa : ℕ} (h : s.backed pa = true) :
    ∃ t, exec (.uncorrectableErrorCommitted (.phys pa)) s = .next t ∧ t = { s with poison := t.poison } ∧
      ∀ q, t.isPoison q = true ↔ s.isPoison q = true ∨ q / 32 = pa / 32 := by
  have he : s.errorAt (.phys pa) = { s with poison := addNew s.poison (pa / 32) } := by simp [State.errorAt, h]
  refine ⟨_, congrArg Host.Outcome.next he, rfl, fun q => ?_⟩
  have hb : ∀ p, State.backed { s with poison := p } q = s.backed q := fun _ => rfl
  simp only [State.isPoison, hb, Bool.or_eq_true, List.contains_iff_mem, mem_addNew_iff]
  tauto

/-- Settles O44: errors squash the strand's own chunks, or poison what they name; a residue mismatch of a strand with no chunk
enters its handler. -/
theorem errors : Obligations.Errors :=
  ⟨fun _ => rfl,
   fun _ _ _ _ _ h hch ha ho => ⟨fun hs hc => firstError h hch ha ho hs hc,
    fun hs => ⟨fun _ hp => hp ▸ secondError_phys h hch ha hs _, fun _ hm => hm ▸ secondError_crewMem h hch ha hs _,
      secondError_committed h hch ha hs⟩⟩,
   fun _ _ _ _ _ _ h hm hw hx => ⟨residue_idle h hm hw hx, residue_opened h hm hw hx, residue_traps h hm hw hx⟩,
   fun _ _ _ h => ⟨fun _ _ hv => vreg_poisoned h hv, fun _ _ hx => tile_poisoned h hx⟩,
   fun _ _ h => ⟨_, _, rfl, touches_modStrand h _, rfl⟩,
   fun _ _ => phys_poisoned⟩

end Sys2Proof.ContextProofs

/-!
SUPPORT. Memory written by an event: what reads back, and what stays (R110, R221).
-/

namespace Sys2Proof.ContextProofs

open Sys2Proof Sys2Proof.Machine Sys2Proof.Rules

/-! ## Bytes written to memory (R110, R221) -/

/-- A byte of an address that no cell names. -/
theorem cellGet_cellsPutAll_out {m : List Host.Cell} (h : Memory.wf m = true) {cs : List Host.Cell} {y : ℕ}
    (hy : y ∉ cs.map (·.1)) : cellGet (cellsPutAll m cs) y = cellGet m y := by
  induction cs generalizing m with
  | nil => rfl
  | cons c cs ih =>
    rw [List.map_cons, List.mem_cons, not_or] at hy
    obtain ⟨hc, hcs⟩ := hy
    refine (ih (wf_cellSet h c.1 c.2) hcs).trans ?_
    rw [cellGet_cellSet h, if_neg hc]

theorem lastCells_subset {cs : List Host.Cell} {x : Host.Cell} (h : x ∈ lastCells cs) : x ∈ cs := by
  induction cs with
  | nil => exact h
  | cons c cs ih =>
    rw [lastCells] at h
    split at h
    · exact List.mem_cons_of_mem c (ih h)
    · rcases List.mem_cons.mp h with rfl | h
      · exact List.mem_cons_self
      · exact List.mem_cons_of_mem c (ih h)

/-- The cells that stand name every address that is written. -/
theorem lastCells_addrs (cs : List Host.Cell) (a : ℕ) : a ∈ (lastCells cs).map (·.1) ↔ a ∈ cs.map (·.1) := by
  induction cs with
  | nil => rfl
  | cons c cs ih =>
    rw [lastCells]
    split
    next h =>
      obtain ⟨y, hy, hyc⟩ := List.any_eq_true.mp h
      rw [ih, List.map_cons, List.mem_cons]
      refine ⟨Or.inr, fun hm => hm.elim (fun e => ?_) id⟩
      rw [e, ← eq_of_beq hyc]
      exact List.mem_map_of_mem hy
    · rw [List.map_cons, List.map_cons, List.mem_cons, List.mem_cons, ih]

/-- A byte of an address that cells name is the last one. -/
theorem cellGet_cellsPutAll_last {m : List Host.Cell} (h : Memory.wf m = true) {cs : List Host.Cell} {x : Host.Cell}
    (hx : x ∈ lastCells cs) : cellGet (cellsPutAll m cs) x.1 = x.2 := by
  induction cs generalizing m with
  | nil => simp [lastCells] at hx
  | cons c cs ih =>
    rw [lastCells] at hx
    split at hx
    · exact ih (wf_cellSet h c.1 c.2) hx
    next hc =>
      rcases List.mem_cons.mp hx with rfl | hx
      · have hout : x.1 ∉ cs.map (·.1) := by
          intro hm
          obtain ⟨y, hy, hyx⟩ := List.mem_map.mp hm
          exact hc (List.any_eq_true.mpr ⟨y, hy, beq_iff_eq.mpr hyx⟩)
        refine (cellGet_cellsPutAll_out (wf_cellSet h _ _) hout).trans ?_
        rw [cellGet_cellSet h, if_pos rfl]
      · exact ih (wf_cellSet h c.1 c.2) hx

/-- Where no address is written twice, every cell stands. -/
theorem lastCells_of_nodup {cs : List Host.Cell} (h : (cs.map (·.1)).Nodup) : lastCells cs = cs := by
  induction cs with
  | nil => rfl
  | cons c cs ih =>
    rw [List.map_cons, List.nodup_cons] at h
    obtain ⟨hc, hcs⟩ := h
    have hany : ¬ (cs.any (fun y => y.1 == c.1)) = true := by
      intro ha
      obtain ⟨y, hy, hyc⟩ := List.any_eq_true.mp ha
      exact hc (eq_of_beq hyc ▸ List.mem_map_of_mem hy)
    rw [lastCells, if_neg hany, ih hcs]

theorem cellsAt_addrs (a : ℕ) (bs : List Byte) : (cellsAt a bs).map (·.1) = (List.range bs.length).map (a + ·) := by
  rw [cellsAt, List.map_map]
  rfl

theorem mem_cellsAt_addrs {a y : ℕ} {bs : List Byte} : y ∈ (cellsAt a bs).map (·.1) ↔ a ≤ y ∧ y < a + bs.length := by
  rw [cellsAt_addrs, List.mem_map]
  constructor
  · rintro ⟨i, hi, rfl⟩
    have := List.mem_range.mp hi
    omega
  · rintro ⟨h1, h2⟩
    exact ⟨y - a, List.mem_range.mpr (by omega), by omega⟩

theorem nodup_cellsAt (a : ℕ) (bs : List Byte) : ((cellsAt a bs).map (·.1)).Nodup := by
  rw [cellsAt_addrs]
  exact List.nodup_range.map (fun _ _ h => Nat.add_left_cancel h)

theorem mem_lastCells_cellsAt {a i : ℕ} {bs : List Byte} (hi : i < bs.length) :
    (a + i, bs.getD i 0) ∈ lastCells (cellsAt a bs) := by
  rw [lastCells_of_nodup (nodup_cellsAt a bs)]
  exact List.mem_map.mpr ⟨i, List.mem_range.mpr hi, rfl⟩

/-! ### Discarded words are settled (log 9) -/

/-- The words `ws` have been settled: no byte reads otherwise, and none of them is dead any more. -/
structure Settles (s t : State) (ws : List ℕ) : Prop where
  package : t = { s with mem := t.mem, dead := t.dead }
  wf      : Memory.wf t.mem = true
  bytes   : ∀ pa, t.rdByte pa = s.rdByte pa
  dead    : ∀ w, w ∈ t.dead ↔ w ∈ s.dead ∧ w ∉ ws

theorem rdByte_alive {s : State} {pa : ℕ} (h : pa / 4 ∉ s.dead) : s.rdByte pa = cellGet s.mem pa := by
  simp [State.rdByte, h]

theorem settle_dead {s : State} {w : ℕ} (h : w ∈ s.dead) :
    s.settle w = { s with mem := cellsPut s.mem (4 * w) (s.rdBytes (4 * w) 4), dead := s.dead.filter (· != w) } := by
  simp [State.settle, h]

theorem settle_alive {s : State} {w : ℕ} (h : w ∉ s.dead) : s.settle w = s := by
  simp [State.settle, h]

theorem settles_settle {s : State} (h : Memory.wf s.mem = true) (w : ℕ) : Settles s (s.settle w) [w] := by
  by_cases hw : w ∈ s.dead
  · rw [settle_dead hw]
    refine ⟨rfl, wf_cellsPut h _ _, fun pa => ?_, fun v => by simp⟩
    by_cases hp : pa / 4 = w
    · have hi : pa % 4 < (s.rdBytes (4 * w) 4).length := by simp [State.rdBytes]; omega
      have hpa : pa = 4 * w + pa % 4 := by omega
      rw [rdByte_alive (by simp [hp]), hpa]
      refine (cellGet_cellsPut_in h _ _ _ hi).trans ?_
      have hlt : pa % 4 < 4 := by omega
      simp [State.rdBytes, hlt]
    · have hc : cellGet (cellsPut s.mem (4 * w) (s.rdBytes (4 * w) 4)) pa = cellGet s.mem pa := by
        refine cellGet_cellsPut_out h _ _ _ ?_
        have : (s.rdBytes (4 * w) 4).length = 4 := by simp [State.rdBytes]
        omega
      simp only [State.rdByte, hc]
      simp [hp]
  · rw [settle_alive hw]
    refine ⟨rfl, h, fun _ => rfl, fun v => ⟨fun hv => ⟨hv, ?_⟩, fun hv => hv.1⟩⟩
    rw [List.mem_singleton]
    rintro rfl
    exact hw hv

theorem Settles.trans {s t u : State} {ws vs : List ℕ} (h : Settles s t ws) (g : Settles t u vs) : Settles s u (ws ++ vs) := by
  refine ⟨?_, g.wf, fun pa => (g.bytes pa).trans (h.bytes pa), fun w => ?_⟩
  · rw [g.package, h.package]
  · rw [g.dead, h.dead, List.mem_append, not_or, and_assoc]

theorem settles_foldl {s : State} (h : Memory.wf s.mem = true) (ws : List ℕ) : Settles s (ws.foldl State.settle s) ws := by
  induction ws generalizing s with
  | nil => exact ⟨rfl, h, fun _ => rfl, fun _ => by simp⟩
  | cons w ws ih =>
    have hw := settles_settle h w
    exact hw.trans (ih hw.wf)

/-! ### The store -/

/-- A granule filled by cells. -/
def Fills (cs : List Host.Cell) (g : ℕ) : Prop := ∀ i, i < 32 → 32 * g + i ∈ cs.map (·.1)

theorem fullGranules_iff (as : List ℕ) (g : ℕ) : g ∈ fullGranules as ↔ ∀ i, i < 32 → 32 * g + i ∈ as := by
  simp only [fullGranules, List.mem_filter, List.mem_eraseDups, List.mem_map, List.all_eq_true, List.mem_range,
    List.contains_iff_mem]
  refine ⟨fun h => h.2, fun h => ⟨⟨32 * g, by simpa using h 0 (by omega), by omega⟩, h⟩⟩

theorem fills_cellsAt {a g : ℕ} {bs : List Byte} : Fills (cellsAt a bs) g ↔ a ≤ 32 * g ∧ 32 * g + 32 ≤ a + bs.length := by
  simp only [Fills, mem_cellsAt_addrs]
  constructor
  · intro h
    have h0 := h 0 (by omega)
    have h1 := h 31 (by omega)
    omega
  · intro h i hi
    omega

/-- Cells have been stored: they read back, every other byte is as before, and a granule that they fill is poisoned no more. -/
structure Stored (s t : State) (cs : List Host.Cell) : Prop where
  wf     : Memory.wf t.mem = true
  inside : ∀ x ∈ lastCells cs, t.rdByte x.1 = x.2
  alive  : ∀ x ∈ cs, x.1 / 4 ∉ t.dead
  others : ∀ pa, pa ∉ cs.map (·.1) → t.rdByte pa = s.rdByte pa
  dead   : ∀ w ∈ t.dead, w ∈ s.dead
  poison : ∀ g, g ∈ t.poison ↔ g ∈ s.poison ∧ ¬ Fills cs g

theorem store_package (s : State) (cs : List Host.Cell) (h : Memory.wf s.mem = true) :
    s.store cs = { s with mem := (s.store cs).mem, dead := (s.store cs).dead, poison := (s.store cs).poison } := by
  unfold State.store
  dsimp only
  rw [(settles_foldl h _).package]

theorem stored_store {s : State} (h : Memory.wf s.mem = true) (cs : List Host.Cell) : Stored s (s.store cs) cs := by
  have hs := settles_foldl h ((cs.map (·.1 / 4)).eraseDups)
  have hp : ((cs.map (·.1 / 4)).eraseDups.foldl State.settle s).poison = s.poison := by rw [hs.package]
  have hf : ((cs.map (·.1 / 4)).eraseDups.foldl State.settle s).free = s.free := by rw [hs.package]
  have hwords : ∀ x ∈ cs, x.1 / 4 ∉ ((cs.map (·.1 / 4)).eraseDups.foldl State.settle s).dead := by
    intro x hx hd
    exact ((hs.dead _).mp hd).2 (List.mem_eraseDups.mpr (List.mem_map_of_mem (f := fun x => x.1 / 4) hx))
  refine ⟨wf_cellsPutAll hs.wf cs, fun x hx => ?_, hwords, fun pa hpa => ?_, fun w hw => ((hs.dead w).mp hw).1, fun g => ?_⟩
  · exact (rdByte_alive (s := s.store cs) (hwords x (lastCells_subset hx))).trans (cellGet_cellsPutAll_last hs.wf hx)
  · refine Eq.trans ?_ (hs.bytes pa)
    simp only [State.store, State.rdByte, cellGet_cellsPutAll_out hs.wf hpa]
  · simp only [State.store, hp, List.mem_filter, Bool.not_eq_true', Fills]
    by_cases he : s.poison = []
    · simp [he]
    · rw [if_neg (by simpa using he), ← Bool.not_eq_true, List.contains_iff_mem, fullGranules_iff]

end Sys2Proof.ContextProofs

/-!
SUPPORT. What an event's write does to strands (R194, R402).
-/

namespace Sys2Proof.ContextProofs

open Sys2Proof Sys2Proof.Machine Sys2Proof.Rules

/-! ## What a write does to strands (R194, R402): conflicts and parked SVWAITs -/

/-- The crew is the same but for its warps. -/
def SameCrew (k j : Crew) : Prop := j = { k with warps := j.warps }

theorem SameCrew.refl (k : Crew) : SameCrew k k := rfl

theorem SameCrew.trans {i j k : Crew} (h : SameCrew i j) (g : SameCrew j k) : SameCrew i k := by
  rw [SameCrew] at *
  rw [g, h]

/-- Only the warps of crews and the pin slots have changed. -/
structure Ripples (s t : State) : Prop where
  package : t = { s with crews := t.crews, pins := t.pins }
  crews   : List.Forall₂ SameCrew s.crews t.crews

theorem Ripples.refl (s : State) : Ripples s s := ⟨rfl, List.forall₂_same.mpr (fun k _ => SameCrew.refl k)⟩

theorem forall₂_sameCrew_trans {l m n : List Crew} (h : List.Forall₂ SameCrew l m) (g : List.Forall₂ SameCrew m n) :
    List.Forall₂ SameCrew l n := by
  induction h generalizing n with
  | nil => exact g
  | cons hab _ ih =>
    cases g with
    | cons hbc hrest => exact .cons (hab.trans hbc) (ih hrest)

theorem Ripples.trans {s t u : State} (h : Ripples s t) (g : Ripples t u) : Ripples s u :=
  ⟨by rw [g.package, h.package], forall₂_sameCrew_trans h.crews g.crews⟩

theorem ripples_foldl {α : Type} {f : State → α → State} (hf : ∀ s a, Ripples s (f s a)) (l : List α) (s : State) :
    Ripples s (l.foldl f s) := by
  induction l generalizing s with
  | nil => exact Ripples.refl s
  | cons a l ih => exact (hf s a).trans (ih _)

/-- Crews mapped, each to one that differs in its warps alone. -/
theorem forall₂_sameCrew_map {f : Crew → Crew} (hf : ∀ k, SameCrew k (f k)) (l : List Crew) :
    List.Forall₂ SameCrew l (l.map f) :=
  List.forall₂_map_right_iff.mpr (List.forall₂_same.mpr (fun k _ => hf k))

theorem ripples_map {f : Crew → Crew} (hf : ∀ k, SameCrew k (f k)) (s : State) : Ripples s { s with crews := s.crews.map f } :=
  ⟨rfl, forall₂_sameCrew_map hf s.crews⟩

theorem ripples_pins (s : State) (p : List Pin) : Ripples s { s with pins := p } :=
  ⟨rfl, (Ripples.refl s).crews⟩

theorem ripples_modWarp (s : State) (r : WarpRef) (f : Warp → Warp) : Ripples s (s.modWarp r f) := by
  refine ripples_map (f := fun k => if k.ref == r.crew then updWarp r.warp f k else k) (fun k => ?_) s
  split
  · rfl
  · rfl

theorem ripples_dropPin (s : State) (r : StrandRef) : Ripples s (s.dropPin r) := ripples_pins s _
theorem ripples_askPin (s : State) (r : StrandRef) : Ripples s (s.askPin r) := ripples_pins s _

theorem ripples_squashAt (s : State) (r : StrandRef) (n : ℕ) (k : SquashKind) : Ripples s (s.squashAt r n k) := by
  unfold State.squashAt
  dsimp only
  have h := ripples_modWarp s r.w (fun w => w.squash r.strand n k)
  split <;> split
  · exact (h.trans (ripples_dropPin _ _)).trans (ripples_askPin _ _)
  · exact h.trans (ripples_dropPin _ _)
  · exact h.trans (ripples_askPin _ _)
  · exact h

theorem ripples_conflictOnce (s : State) (w : Wr) : Ripples s (s.conflictOnce w) := by
  refine ripples_foldl (fun s r => ?_) s.refs s
  split
  · split
    · exact ripples_squashAt s r _ .conflict
    · exact Ripples.refl s
  · exact Ripples.refl s

theorem ripples_conflict (s : State) (w : Wr) : Ripples s (s.conflict w) :=
  (ripples_conflictOnce s w).trans (ripples_conflictOnce _ w)

theorem ripples_latchAll (s : State) (ws : List ℕ) : Ripples s (s.latchAll ws) :=
  ripples_map (f := fun k => { k with warps := k.warps.map (fun w =>
    { w with strands := w.strands.map (Option.map (Strand.latch s ws)) }) }) (fun _ => rfl) s

/-- The words that cells lie in. -/
def cellWords (cs : List Host.Cell) : List ℕ := (cs.map (·.1 / 4)).eraseDups

/-- Cells written by an event: stored, and then seen by strands. -/
theorem ripples_writeCells (s : State) (src : Option StrandRef) (cs : List Host.Cell) :
    Ripples ((s.recall (cellWords cs)).store cs) (s.writeCells src cs) :=
  (ripples_latchAll _ _).trans (ripples_conflict _ _)

theorem wf_of_memWf {s : State} (h : s.memWf = true) : Memory.wf s.mem = true := by
  rw [State.memWf, Bool.and_eq_true] at h
  exact h.1

section
variable {s t : State} (h : Ripples s t)
include h

theorem Ripples.rdByte (pa : ℕ) : t.rdByte pa = s.rdByte pa := by rw [h.package]; rfl

theorem Ripples.stored {u : State} {cs : List Host.Cell} (g : Stored u s cs) : Stored u t cs := by
  have hm : t.mem = s.mem := by rw [h.package]
  have hd : t.dead = s.dead := by rw [h.package]
  have hp : t.poison = s.poison := by rw [h.package]
  obtain ⟨wf, inside, alive, others, dead, poison⟩ := g
  refine ⟨hm ▸ wf, fun x hx => (h.rdByte _).trans (inside x hx), hd ▸ alive, fun pa hpa => (h.rdByte pa).trans (others pa hpa),
    hd ▸ dead, hp ▸ poison⟩

end

/-- An event's write: the cells are stored, and nothing else changes but caches, pin slots, and strands that it meets. -/
theorem stored_writeCells {s : State} (h : Memory.wf s.mem = true) (src : Option StrandRef) (cs : List Host.Cell) :
    Stored s (s.writeCells src cs) cs := by
  have hs : Stored (s.recall (cellWords cs)) ((s.recall (cellWords cs)).store cs) cs :=
    stored_store (s := s.recall (cellWords cs)) h cs
  obtain ⟨wf, inside, alive, others, dead, poison⟩ := (ripples_writeCells s src cs).stored hs
  exact ⟨wf, inside, alive, others, dead, poison⟩

/-- A state that differs from another in what events write, caches, crews and pin slots. -/
def Wrote (s t : State) : Prop :=
  ∃ m d p k c q, t = { s with mem := m, dead := d, poison := p, caches := k, crews := c, pins := q }

theorem wrote_writeCells {s : State} (h : Memory.wf s.mem = true) (src : Option StrandRef) (cs : List Host.Cell) :
    Wrote s (s.writeCells src cs) := by
  have hr := (ripples_writeCells s src cs).package
  have hs := store_package (s.recall (cellWords cs)) cs h
  rw [hr, hs]
  exact ⟨_, _, _, _, _, _, rfl⟩

section
variable {s t u : State} {cs : List Host.Cell} (h : Stored s t cs) (hm : u.mem = t.mem) (hd : u.dead = t.dead)
include h hm hd

/-- What stored cells hold in a state with the same memory. -/
theorem Stored.read {x : Host.Cell} (hx : x ∈ lastCells cs) : u.rdByte x.1 = x.2 := by
  have ha := h.alive x (lastCells_subset hx)
  rw [rdByte_alive (hd ▸ ha), hm, ← rdByte_alive ha]
  exact h.inside x hx

theorem Stored.sameOutside : SameOutside s u (fun pa => pa ∈ cs.map (·.1)) := by
  intro pa hp hs
  have hs : pa / 4 ∉ s.dead := by simpa using hs
  have ha : pa / 4 ∉ t.dead := fun hx => hs (h.dead _ hx)
  rw [rdByte_alive (hd ▸ ha), hm, ← rdByte_alive ha]
  exact h.others pa hp

end

/-- Bytes written at an address, read back. -/
theorem Stored.readAt {s t u : State} {a : ℕ} {bs : List Byte} (h : Stored s t (cellsAt a bs)) (hm : u.mem = t.mem)
    (hd : u.dead = t.dead) {i : ℕ} (hi : i < bs.length) : u.rdByte (a + i) = bs.getD i 0 :=
  h.read hm hd (mem_lastCells_cellsAt hi)

theorem stored_writeG {s : State} (h : Memory.wf s.mem = true) (src : Option StrandRef) (pa : ℕ) (bs : List Byte) :
    Stored s (s.writeG src pa bs) (cellsAt pa bs) := stored_writeCells h src _

theorem wrote_writeG {s : State} (h : Memory.wf s.mem = true) (src : Option StrandRef) (pa : ℕ) (bs : List Byte) :
    Wrote s (s.writeG src pa bs) := wrote_writeCells h src _

/-! ### A write that meets no chunk (R194) -/

/-- No strand has a chunk that has begun and is not placed. -/
def NoneActive (s : State) : Prop := ∀ r t, s.strand? r = some t → ∀ ch ∈ t.unplaced, ch.active = false

theorem indexOf?_none {α : Type} {p : α → Bool} {l : List α} (h : ∀ x ∈ l, p x = false) : indexOf? p l = none := by
  induction l with
  | nil => rfl
  | cons x l ih =>
    rw [indexOf?, h x List.mem_cons_self, ih (fun y hy => h y (List.mem_cons_of_mem x hy))]
    rfl

theorem conflictOnce_calm {s : State} (h : NoneActive s) (w : Wr) : s.conflictOnce w = s := by
  refine List.foldl_fixed' (fun r => ?_) s.refs
  cases hr : s.strand? r with
  | none => rfl
  | some t =>
    have ht : s.touched w r t = none := indexOf?_none (fun ch hch => by simp [h r t hr ch hch])
    simp only [ht]

theorem conflict_calm {s : State} (h : NoneActive s) (w : Wr) : s.conflict w = s := by
  rw [State.conflict, conflictOnce_calm h, conflictOnce_calm h]

theorem pinBlocks_calm {s : State} (h : NoneActive s) (w : Wr) : s.pinBlocks w = false := by
  rw [State.pinBlocks, List.any_eq_false]
  intro r _
  cases hr : s.strand? r with
  | none => simp
  | some t => simp [h r t hr t.chunk (by simp [Strand.unplaced])]

theorem pinBlocks_noPins {s : State} (h : NoPins s) (w : Wr) : s.pinBlocks w = false := by
  rw [State.pinBlocks, List.any_eq_false]
  intro r _
  cases hr : s.strand? r with
  | none => simp
  | some t => simp [h r t hr]

end Sys2Proof.ContextProofs

/-!
PROOFS. The context (05): the host window and the mailbox (O49).
-/

namespace Sys2Proof.ContextProofs

open Sys2Proof Sys2Proof.Machine Sys2Proof.Rules

/-! ## The lines of a request (R219) -/

theorem length_bytesOf (k n : ℕ) : (bytesOf k n).length = k := by
  induction k generalizing n with
  | zero => rfl
  | succ k ih => simp [bytesOf, ih]

theorem getD_bytesOf (k n i : ℕ) (h : i < k) : (bytesOf k n).getD i 0 = BitVec.ofNat 8 (n / 256 ^ i) := by
  induction k generalizing n i with
  | zero => omega
  | succ k ih =>
    cases i with
    | zero => simp [bytesOf]
    | succ i =>
      rw [bytesOf, List.getD_cons_succ, ih _ _ (by omega), Nat.div_div_eq_div_mul, Nat.pow_succ']

theorem range_map_getD {l : List Byte} {n : ℕ} (h : l.length = n) : (List.range n).map (fun i => l.getD i 0) = l := by
  refine List.ext_getElem (by simp [h]) (fun i h1 h2 => ?_)
  simp [h2]

/-- The bytes `i` to `i + n - 1` of a list, by position. -/
theorem range_map_getD_drop {l : List Byte} {o n : ℕ} (h : o + n ≤ l.length) :
    (List.range n).map (fun i => l.getD (o + i) 0) = (l.drop o).take n := by
  refine List.ext_getElem (by simp; omega) (fun i h1 h2 => ?_)
  have : o + i < l.length := by simp at h1; omega
  simp [this]

theorem range_map_append {α : Type} (a n : ℕ) (g : ℕ → α) :
    (List.range a).map g ++ (List.range n).map (fun i => g (a + i)) = (List.range (a + n)).map g := by
  rw [List.range_add, List.map_append, List.map_map]
  rfl

/-- The piece of a request that lies in its line number `i`: its offset in the request, and its length. -/
def pieceOf (va len i : ℕ) : ℕ × ℕ :=
  (lineStart va (va / 128 + i) - va, Nat.min (va + len) (128 * (va / 128 + i + 1)) - lineStart va (va / 128 + i))

/-- The lines of a request. -/
def lineCount (va len : ℕ) : ℕ := (va + len - 1) / 128 - va / 128 + 1

theorem linePieces_eq {va len : ℕ} (h : 0 < len) : linePieces va len = (List.range (lineCount va len)).map (pieceOf va len) := by
  rw [linePieces, if_neg (by omega)]
  rfl

theorem lineStart_eq (va line : ℕ) : lineStart va line = max va (128 * line) := rfl

theorem pieceOf_fst (va len i : ℕ) : va + (pieceOf va len i).1 = lineStart va (va / 128 + i) := by
  simp only [pieceOf, lineStart_eq]
  omega

theorem mem_linePieces {va len : ℕ} (h : 0 < len) (p : ℕ × ℕ) :
    p ∈ linePieces va len ↔ ∃ n, InRequest va len n ∧ p = pieceOf va len (n - va / 128) := by
  rw [linePieces_eq h, List.mem_map]
  constructor
  · rintro ⟨i, hi, rfl⟩
    have hi := List.mem_range.mp hi
    rw [lineCount] at hi
    exact ⟨va / 128 + i, ⟨h, by omega, by omega⟩, by rw [Nat.add_sub_cancel_left]⟩
  · rintro ⟨n, ⟨-, h1, h2⟩, rfl⟩
    exact ⟨n - va / 128, List.mem_range.mpr (by rw [lineCount]; omega), rfl⟩

/-- Piece `i` lies in its line. -/
theorem pieceOf_inLine {va len i j : ℕ} (hj : j < (pieceOf va len i).2) :
    (va + ((pieceOf va len i).1 + j)) / 128 = va / 128 + i ∧
      va + ((pieceOf va len i).1 + j) - lineStart va (va / 128 + i) = j := by
  have hfst := pieceOf_fst va len i
  have hmin : Nat.min (va + len) (128 * (va / 128 + i + 1)) = min (va + len) (128 * (va / 128 + i + 1)) := rfl
  simp only [pieceOf, hmin] at hj
  rw [← Nat.add_assoc, hfst]
  rw [lineStart_eq] at *
  omega

/-- The pieces of a request, one after another, are the request. -/
theorem flatMap_pieces {α : Type} (va len : ℕ) (g : ℕ → α) :
    (linePieces va len).flatMap (fun p => (List.range p.2).map (fun i => g (p.1 + i))) = (List.range len).map g := by
  rcases Nat.eq_zero_or_pos len with rfl | h
  · rfl
  have hk : ∀ k, (List.range k).flatMap (fun i => (List.range (pieceOf va len i).2).map (fun j => g ((pieceOf va len i).1 + j))) =
      (List.range (min len (128 * (va / 128 + k) - va))).map g := by
    intro k
    induction k with
    | zero =>
      have : min len (128 * (va / 128 + 0) - va) = 0 := by omega
      rw [this]
      rfl
    | succ k ih =>
      have hmin : Nat.min (va + len) (128 * (va / 128 + k + 1)) = min (va + len) (128 * (va / 128 + k + 1)) := rfl
      rw [List.range_succ, List.flatMap_append, ih, List.flatMap_singleton]
      simp only [pieceOf, lineStart_eq, hmin]
      by_cases hin : 128 * (va / 128 + k) < va + len
      · have h1 : max va (128 * (va / 128 + k)) - va = min len (128 * (va / 128 + k) - va) := by omega
        rw [h1, range_map_append]
        congr 2
        omega
      · have h1 : min (va + len) (128 * (va / 128 + k + 1)) - max va (128 * (va / 128 + k)) = 0 := by omega
        have h2 : min len (128 * (va / 128 + k) - va) = min len (128 * (va / 128 + (k + 1)) - va) := by omega
        rw [h1, h2]
        simp
  rw [linePieces_eq h, List.flatMap_map, hk]
  congr 2
  rw [lineCount]
  omega

/-- The bytes of a host write, line by line. -/
def writeLines (va : ℕ) (data : List Byte) : List (ℕ × List Byte) :=
  (linePieces va data.length).map (fun p => (va + p.1, (data.drop p.1).take p.2))

theorem pieceOf_bounds {va len i : ℕ} (hl : 0 < len) (h : i < lineCount va len) :
    0 < (pieceOf va len i).2 ∧ (pieceOf va len i).1 + (pieceOf va len i).2 ≤ len ∧
      (lineStart va (va / 128 + i)) / 128 = (lineStart va (va / 128 + i) + (pieceOf va len i).2 - 1) / 128 := by
  have hmin : Nat.min (va + len) (128 * (va / 128 + i + 1)) = min (va + len) (128 * (va / 128 + i + 1)) := rfl
  rw [lineCount] at h
  simp only [pieceOf, lineStart_eq, hmin]
  omega

theorem splitsInto_writeLines {va : ℕ} {data : List Byte} (h : data ≠ []) : SplitsInto va data (writeLines va data) := by
  have hl : 0 < data.length := List.length_pos_iff.mpr h
  have hb : ∀ p ∈ linePieces va data.length, ∃ i, i < lineCount va data.length ∧ p = pieceOf va data.length i := by
    rw [linePieces_eq hl]
    intro p hp
    obtain ⟨i, hi, rfl⟩ := List.mem_map.mp hp
    exact ⟨i, List.mem_range.mp hi, rfl⟩
  refine ⟨?_, ?_, fun x hx => ?_⟩
  · rw [writeLines, linePieces_eq hl, List.map_map, List.map_map]
    exact List.map_congr_left (fun i _ => pieceOf_fst va _ i)
  · refine Eq.trans ?_ ((flatMap_pieces va data.length (fun i => data.getD i 0)).trans (range_map_getD rfl))
    rw [writeLines, List.flatMap_map]
    refine List.flatMap_congr (fun p hp => ?_)
    obtain ⟨i, hi, rfl⟩ := hb p hp
    exact (range_map_getD_drop (pieceOf_bounds hl hi).2.1).symm
  · obtain ⟨p, hp, rfl⟩ := List.mem_map.mp hx
    obtain ⟨i, hi, rfl⟩ := hb p hp
    obtain ⟨hpos, hle, hline⟩ := pieceOf_bounds hl hi
    have hlen : ((data.drop (pieceOf va data.length i).1).take (pieceOf va data.length i).2).length =
        (pieceOf va data.length i).2 := by simp; omega
    rw [hlen, pieceOf_fst]
    exact ⟨hpos, hline⟩

/-! ## The host window (R423) -/

theorem exists?_iff {s : State} {n : ℕ} : s.exists? n = true ↔ Rules.Exists s n := by
  unfold State.exists? Rules.Exists
  cases (s.ctx n).st <;> simp

theorem field_high_zero {va : ℕ} (h : va < 2 ^ 57) : (field va 63 57 != 0) = false := by
  simp [field]
  omega

theorem field_high {va : ℕ} (h : 2 ^ 57 ≤ va) (h' : va < 2 ^ 64) : (field va 63 57 != 0) = true := by
  simp [field]
  omega

section
variable {s : State} {f va : ℕ} {q : XReq}

/-- Where every piece translates, the lines are these translations. -/
theorem lines_ok (tr : ℕ × ℕ → Leaf) (ps : List (ℕ × ℕ))
    (h : ∀ p ∈ ps, va + p.1 < 2 ^ 57 ∧ s.translate f (va + p.1) q = .ok (tr p)) :
    s.lines f va q ps = ps.map (fun p => (p.1, p.2, tr p)) := by
  induction ps with
  | nil => rfl
  | cons p ps ih =>
    obtain ⟨hlt, htr⟩ := h p List.mem_cons_self
    rw [State.lines, field_high_zero hlt, htr, ih (fun x hx => h x (List.mem_cons_of_mem p hx))]
    rfl

theorem length_lines_le (ps : List (ℕ × ℕ)) : (s.lines f va q ps).length ≤ ps.length := by
  induction ps with
  | nil => exact Nat.le_refl 0
  | cons p ps ih =>
    rw [State.lines]
    split
    · exact Nat.zero_le _
    · split
      · exact Nat.succ_le_succ ih
      · exact Nat.zero_le _

/-- Where a piece faults, lines are missing. -/
theorem length_lines_lt {ps : List (ℕ × ℕ)} {p : ℕ × ℕ} (hp : p ∈ ps)
    (h : (field (va + p.1) 63 57 != 0) = true ∨ ∃ e, s.translate f (va + p.1) q = .error e) :
    (s.lines f va q ps).length < ps.length := by
  induction ps with
  | nil => exact absurd hp List.not_mem_nil
  | cons x ps ih =>
    rw [State.lines]
    split
    · exact Nat.succ_pos _
    next hx =>
      split
      next l hl =>
        rcases List.mem_cons.mp hp with rfl | hp
        · rcases h with h | ⟨e, he⟩
          · exact absurd h hx
          · rw [he] at hl
            cases hl
        · exact Nat.succ_lt_succ (ih hp)
      · exact Nat.succ_pos _

end

/-- A relation on states that a fold's every step keeps holds across the fold. -/
theorem foldl_related {α : Type} {R : State → State → Prop} (hrefl : ∀ s, R s s) (htrans : ∀ {s t u}, R s t → R t u → R s u)
    {f : State → α → State} (hf : ∀ s a, R s (f s a)) (l : List α) (s : State) : R s (l.foldl f s) := by
  induction l generalizing s with
  | nil => exact hrefl s
  | cons a l ih => exact htrans (hf s a) (ih _)

/-- Only what is cached of translations has changed. -/
def Cached (s t : State) : Prop := ∃ a b, t = { s with tlb := a, walks := b }

theorem cached_refl (s : State) : Cached s s := ⟨_, _, rfl⟩

theorem Cached.trans {s t u : State} (h : Cached s t) (g : Cached t u) : Cached s u := by
  obtain ⟨_, _, rfl⟩ := h
  obtain ⟨_, _, rfl⟩ := g
  exact ⟨_, _, rfl⟩

theorem cached_fill (s : State) (ctx va : ℕ) (l : Leaf) : Cached s (s.fill ctx va l) := ⟨_, _, rfl⟩

theorem cached_forget (s : State) (ctx va : ℕ) : Cached s (s.forget ctx va) := ⟨_, _, rfl⟩

theorem cached_fillLines (s : State) (f va : ℕ) (ls : List (ℕ × ℕ × Leaf)) : Cached s (s.fillLines f va ls) :=
  foldl_related (f := fun s (x : ℕ × ℕ × Leaf) => s.fill f (va + x.1) x.2.2) cached_refl Cached.trans
    (fun s x => cached_fill s f (va + x.1) x.2.2) ls s

section
variable {s : State} {f len : ℕ} {off : W64} {tr : ℕ → Leaf}

theorem inWindow_iff : s.inWindow f off len = true ↔ Rules.Exists s f ∧ off.toNat + len ≤ 2 ^ 36 := by
  rw [State.inWindow, Bool.and_eq_true, exists?_iff, decide_eq_true_iff]

theorem windowRead_outside (hb : s.hostBusy f = false) (hw : ¬ (Rules.Exists s f ∧ off.toNat + len ≤ 2 ^ 36)) :
    Answers s (.hostWindowRead f off len) .unsupported := by
  rw [← inWindow_iff, Bool.not_eq_true] at hw
  show execHostWindowRead f off len s = _
  simp [execHostWindowRead, hb, hw, State.respond]

/-- The lines of a read request by their translations. -/
def readLines (va len : ℕ) (tr : ℕ → Leaf) : List (ℕ × ℕ × Leaf) :=
  (linePieces va len).map (fun p => (p.1, p.2, tr ((va + p.1) / 128)))

theorem lines_read {va : ℕ} {q : XReq} (h : ∀ n, InRequest va len n → LineOk s f va q tr n) :
    s.lines f va q (linePieces va len) = readLines va len tr := by
  refine lines_ok (fun p => tr ((va + p.1) / 128)) _ (fun p hp => ?_)
  rcases Nat.eq_zero_or_pos len with rfl | hl
  · exact absurd hp List.not_mem_nil
  obtain ⟨n, hn, rfl⟩ := (mem_linePieces hl p).mp hp
  obtain ⟨hlt, htr⟩ := h n hn
  have hline : va / 128 + (n - va / 128) = n := Nat.add_sub_cancel' hn.2.1
  have hdiv : lineStart va n / 128 = n := by
    obtain ⟨-, h1, h2⟩ := hn
    rw [lineStart_eq]
    omega
  rw [pieceOf_fst, hline, hdiv]
  exact ⟨hlt, htr⟩

theorem bytes_read (va : ℕ) (tr : ℕ → Leaf) :
    (readLines va len tr).flatMap (fun x => (List.range x.2.1).map (fun i => s.hostByte (x.2.2.pa + i))) =
      hostBytes s va len tr := by
  refine Eq.trans ?_ (flatMap_pieces va len (fun j => s.hostByte (lineByte va tr j)))
  rw [readLines, List.flatMap_map]
  refine List.flatMap_congr (fun p hp => List.map_congr_left (fun i hi => ?_))
  rcases Nat.eq_zero_or_pos len with rfl | hl
  · exact absurd hp List.not_mem_nil
  obtain ⟨n, -, rfl⟩ := (mem_linePieces hl p).mp hp
  have hi := List.mem_range.mp hi
  obtain ⟨h1, h2⟩ := pieceOf_inLine hi
  obtain ⟨h3, -⟩ := pieceOf_inLine (j := 0) (Nat.zero_lt_of_lt hi)
  rw [Nat.add_zero] at h3
  simp only [lineByte, h1, h2, h3]

/-- The completion of a read. -/
def readResp (bs : List (Option Byte)) : HostResp := if bs.all Option.isSome then .data (bs.filterMap id) else .poisoned bs

/-- The state behind a read of lines `ls` that returns `bs`. -/
def lineRead (s : State) (f va : ℕ) (ls : List (ℕ × ℕ × Leaf)) (bs : List (Option Byte)) : State :=
  { ((s.fillLines f va ls).recall (ls.flatMap (fun x => wordsOf x.2.2.pa x.2.1))).respond (readResp bs) with free := s.free + 1 }

theorem lineRead_package (s : State) (f va : ℕ) (ls : List (ℕ × ℕ × Leaf)) (bs : List (Option Byte)) :
    ∃ a b c, lineRead s f va ls bs =
      { s with tlb := a, walks := b, caches := c, resp := some (readResp bs), free := s.free + 1 } := by
  obtain ⟨a, b, h⟩ := cached_fillLines s f va ls
  rw [lineRead, h]
  exact ⟨a, b, _, rfl⟩

theorem windowRead_ok (hb : s.hostBusy f = false) (hw : Rules.Exists s f ∧ off.toNat + len ≤ 2 ^ 36)
    (h : ∀ n, InRequest ((s.ctx f).hwb + off.toNat) len n → LineOk s f ((s.ctx f).hwb + off.toNat) XReq.hostRead tr n) :
    ∃ t, exec (.hostWindowRead f off len) s = .next t ∧
      t = { s with tlb := t.tlb, walks := t.walks, caches := t.caches, resp := t.resp, free := s.free + 1 } ∧
      t.resp = some (readResp (hostBytes s ((s.ctx f).hwb + off.toNat) len tr)) := by
  have hin := inWindow_iff.mpr hw
  have hl := lines_read h
  have hlen : (readLines ((s.ctx f).hwb + off.toNat) len tr).length = (linePieces ((s.ctx f).hwb + off.toNat) len).length :=
    List.length_map _
  have hex : exec (.hostWindowRead f off len) s = .next (lineRead s f ((s.ctx f).hwb + off.toNat)
      (readLines ((s.ctx f).hwb + off.toNat) len tr) (hostBytes s ((s.ctx f).hwb + off.toNat) len tr)) := by
    show execHostWindowRead f off len s = _
    simp only [execHostWindowRead, hb, hin, State.windowVa, hl, hlen, bne_self_eq_false, bytes_read, Bool.not_true,
      if_false, Bool.false_eq_true]
    rfl
  obtain ⟨a, b, c, ht⟩ := lineRead_package s f ((s.ctx f).hwb + off.toNat) (readLines ((s.ctx f).hwb + off.toNat) len tr)
    (hostBytes s ((s.ctx f).hwb + off.toNat) len tr)
  rw [ht] at hex
  exact ⟨_, hex, rfl, rfl⟩

theorem windowRead_faults {n : ℕ} (hb : s.hostBusy f = false) (hhwb : (s.ctx f).hwb < 2 ^ 57)
    (hw : Rules.Exists s f ∧ off.toNat + len ≤ 2 ^ 36) (hn : InRequest ((s.ctx f).hwb + off.toNat) len n)
    (hf : LineFaults s f ((s.ctx f).hwb + off.toNat) XReq.hostRead n) :
    Answers s (.hostWindowRead f off len) .unsupported := by
  have hp := (mem_linePieces hn.1 _).mpr ⟨n, hn, rfl⟩
  have hstart : (s.ctx f).hwb + off.toNat + (pieceOf ((s.ctx f).hwb + off.toNat) len (n - ((s.ctx f).hwb + off.toNat) / 128)).1 =
      lineStart ((s.ctx f).hwb + off.toNat) n := by rw [pieceOf_fst, Nat.add_sub_cancel' hn.2.1]
  have hlow : lineStart ((s.ctx f).hwb + off.toNat) n < 2 ^ 64 := by
    obtain ⟨-, -, h2⟩ := hn
    rw [lineStart_eq]
    omega
  have hbad := length_lines_lt (s := s) (f := f) (q := XReq.hostRead) hp (by
    rw [hstart]
    exact hf.imp (fun h => field_high h hlow) id)
  show execHostWindowRead f off len s = _
  simp [execHostWindowRead, hb, inWindow_iff.mpr hw, State.windowVa, hbad.ne, State.respond]

end

/-- The completion of a read without poison, and of one that meets it. -/
theorem readResp_data {bs : List (Option Byte)} (h : ∀ x ∈ bs, x.isSome = true) : readResp bs = .data (bs.filterMap id) := by
  rw [readResp, if_pos (List.all_eq_true.mpr h)]

theorem readResp_poisoned {bs : List (Option Byte)} (h : none ∈ bs) : readResp bs = .poisoned bs := by
  refine if_neg (fun ha => ?_)
  exact absurd (List.all_eq_true.mp ha none h) Bool.false_ne_true

theorem windowRead_rule (s : State) (f len : ℕ) (off : W64) (tr : ℕ → Leaf) :
    let va := (s.ctx f).hwb + off.toNat
    s.hostBusy f = false → (s.ctx f).hwb < 2 ^ 57 →
    (Rules.Exists s f → off.toNat + len ≤ 2 ^ 36 → (∀ n, InRequest va len n → LineOk s f va XReq.hostRead tr n) →
      ∃ t, exec (.hostWindowRead f off len) s = .next t ∧
        t = { s with tlb := t.tlb, walks := t.walks, caches := t.caches, resp := t.resp, free := s.free + 1 } ∧
        ((∀ x ∈ hostBytes s va len tr, x.isSome = true) → t.resp = some (.data ((hostBytes s va len tr).filterMap id))) ∧
        (none ∈ hostBytes s va len tr → t.resp = some (.poisoned (hostBytes s va len tr)))) ∧
    ((∃ n, InRequest va len n ∧ LineFaults s f va XReq.hostRead n) ∨ ¬ Rules.Exists s f ∨ 2 ^ 36 < off.toNat + len →
      Answers s (.hostWindowRead f off len) .unsupported) := by
  intro va hb hhwb
  refine ⟨fun he hl h => ?_, fun h => ?_⟩
  · obtain ⟨t, hex, hpack, hresp⟩ := windowRead_ok hb ⟨he, hl⟩ h
    exact ⟨t, hex, hpack, fun hd => hresp.trans (congrArg some (readResp_data hd)),
      fun hp => hresp.trans (congrArg some (readResp_poisoned hp))⟩
  · by_cases hw : Rules.Exists s f ∧ off.toNat + len ≤ 2 ^ 36
    · rcases h with ⟨n, hn, hf⟩ | h | h
      · exact windowRead_faults hb hhwb hw hn hf
      · exact absurd hw.1 h
      · exact absurd hw.2 (Nat.not_le.mpr h)
    · exact windowRead_outside hb hw

/-! ### Writes -/

theorem refuse_eq (s : State) {k : HostKind} (r : HostResp) :
    s.refuse k r = { s with resp := some (if k = .deferrable then r else .dropped) } := by
  cases k <;> rfl

section
variable {s : State} {f : ℕ} {off : W64} {data : List Byte} {k : HostKind}

theorem windowWrite_outside (hh : s.hostHeld f = false) (hw : ¬ (Rules.Exists s f ∧ off.toNat + data.length ≤ 2 ^ 36)) :
    exec (.hostWindowWrite f k off data) s = .next (s.refuse k .unsupported) := by
  rw [← inWindow_iff, Bool.not_eq_true] at hw
  show execHostWindowWrite f k off data s = _
  simp [execHostWindowWrite, hh, hw]

/-- A host write under way, behind those that stand before it. -/
def newWrite (s : State) (f : ℕ) (k : HostKind) (off : W64) (data : List Byte) : HostLines :=
  { id := s.nextCmd, func := f, kind := k, lines := writeLines ((s.ctx f).hwb + off.toNat) data }

def withWrite (s : State) (h : HostLines) : State := { s with hostw := s.hostw ++ [h], nextCmd := s.nextCmd + 1 }

/-- The line that a host write begins with, where none stands before it. -/
theorem hostLine_withWrite {h : HostLines} (hno : s.hostw.any (fun x => x.func == h.func) = false) :
    (withWrite s h).hostLine h.func = (withWrite s h).performLine h := by
  have hfind : (withWrite s h).hostw.find? (fun x => x.func == h.func) = some h := by
    rw [withWrite, List.find?_append, List.find?_eq_none.mpr (by simpa using hno)]
    simp
  rw [State.hostLine, hfind]

theorem windowWrite_inside (hh : s.hostHeld f = false) (hw : Rules.Exists s f ∧ off.toNat + data.length ≤ 2 ^ 36)
    (hk : k ≠ .read) :
    exec (.hostWindowWrite f k off data) s = .next (if s.hostBusy f then withWrite s (newWrite s f k off data)
      else (withWrite s (newWrite s f k off data)).hostLine f) := by
  have hkb : (k == HostKind.read) = false := by simpa using hk
  have hbusy : s.hostBusy f = s.hostw.any (fun x => x.func == f) := by rw [State.hostBusy, hh, Bool.false_or]
  have hex : exec (.hostWindowWrite f k off data) s = .next (if s.hostw.any (fun x => x.func == f)
      then withWrite s (newWrite s f k off data)
      else (withWrite s (newWrite s f k off data)).performLine (newWrite s f k off data)) := by
    show execHostWindowWrite f k off data s = _
    simp only [execHostWindowWrite, hh, hkb, inWindow_iff.mpr hw, Bool.false_eq_true, if_false, Bool.not_true, Bool.or_self]
    rfl
  rw [hex, hbusy]
  cases hany : s.hostw.any (fun x => x.func == f) with
  | true => rfl
  | false =>
    have := hostLine_withWrite (h := newWrite s f k off data) hany
    simp only [Bool.false_eq_true, if_false]
    exact congrArg Host.Outcome.next this.symm

end

theorem windowWrite_rule (s : State) (f : ℕ) (off : W64) (data : List Byte) (hh : s.hostHeld f = false) :
    (Rules.Exists s f → off.toNat + data.length ≤ 2 ^ 36 → data ≠ [] → ∀ k, k ≠ .read →
      ∃ (t : State) (h : HostLines), exec (.hostWindowWrite f k off data) s = .next (if s.hostBusy f then t else t.hostLine f) ∧
        t = { s with hostw := s.hostw ++ [h], nextCmd := s.nextCmd + 1 } ∧ h.id = s.nextCmd ∧ h.func = f ∧ h.kind = k ∧
        SplitsInto ((s.ctx f).hwb + off.toNat) data h.lines) ∧
    (¬ Rules.Exists s f ∨ 2 ^ 36 < off.toNat + data.length →
      Answers s (.hostWindowWrite f .deferrable off data) .unsupported ∧ Answers s (.hostWindowWrite f .posted off data) .dropped) := by
  refine ⟨fun he hl hd k hk => ⟨withWrite s (newWrite s f k off data), newWrite s f k off data, windowWrite_inside hh ⟨he, hl⟩ hk, rfl,
    rfl, rfl, rfl, splitsInto_writeLines hd⟩, fun h => ?_⟩
  have hw : ¬ (Rules.Exists s f ∧ off.toNat + data.length ≤ 2 ^ 36) := by
    rintro ⟨h1, h2⟩
    exact h.elim (fun h => h h1) (fun h => by omega)
  exact ⟨windowWrite_outside hh hw, windowWrite_outside hh hw⟩

/-! ### A line enters G -/

theorem endHost_package (s : State) (h : HostLines) (r : HostResp) :
    let t := s.endHost h r
    t = { s with fences := t.fences, resp := some r, hostw := s.hostw.filter (fun x => x.id != h.id) } := rfl

theorem mem_filter_id {l : List HostLines} {h x : HostLines} : x ∈ l.filter (fun x => x.id != h.id) ↔ x ∈ l ∧ x.id ≠ h.id := by
  simp

section
variable {s : State} {h : HostLines} {va : ℕ} {bs : List Byte} {rest : List (ℕ × List Byte)} (hn : NextLine s h va bs rest)
include hn

theorem doMove_hostLine : s.doMove (.hostLine h.func) = .next (s.performLine h) := by
  show Host.Outcome.next (s.hostLine h.func) = _
  rw [State.hostLine, hn.first]

theorem performLine_outside (ho : (!(s.exists? h.func) || field va 63 57 != 0) = true) : s.performLine h = s.endHost h .dropped := by
  simp only [State.performLine, hn.line, ho, if_true]

theorem performLine_faults {e : XErr} (he : (!(s.exists? h.func) || field va 63 57 != 0) = false)
    (ht : s.translate h.func va XReq.hostWrite = .error e) : s.performLine h = (s.forget h.func va).endHost h .dropped := by
  simp only [State.performLine, hn.line, he, ht, Bool.false_eq_true, if_false]

omit hn in
/-- A host write goes on with the lines `rest`. -/
def onLine (u : State) (h : HostLines) (rest : List (ℕ × List Byte)) (n : ℕ) : State :=
  { u with hostw := updIf (fun x => x.id == h.id) (fun x => { x with lines := rest }) u.hostw, free := n }

theorem performLine_enters {l : Leaf} (he : Rules.Exists s h.func) (hv : va < 2 ^ 57)
    (ht : s.translate h.func va XReq.hostWrite = .ok l) :
    s.performLine h =
      if rest.isEmpty then (onLine ((s.fill h.func va l).writeG none l.pa bs) h rest (s.free + 1)).endHost h .successful
      else onLine ((s.fill h.func va l).writeG none l.pa bs) h rest (s.free + 1) := by
  have hb : s.blockedG none l.pa bs.length = false := pinBlocks_noPins hn.calm.2 _
  simp only [State.performLine, hn.line, exists?_iff.mpr he, field_high_zero hv, ht, hb, Bool.not_true, Bool.or_self,
    Bool.false_eq_true, if_false]
  rfl

/-- The write under way with other lines, among those of the host. -/
theorem mem_onLine {l : List HostLines} (hl : l = s.hostw) (x : HostLines) :
    x ∈ updIf (fun x => x.id == h.id) (fun x => { x with lines := rest }) l ↔
      (x ∈ s.hostw ∧ x.id ≠ h.id) ∨ x = { h with lines := rest } := by
  subst hl
  have hh : h ∈ s.hostw := List.mem_of_find?_eq_some hn.first
  rw [updIf, List.mem_map]
  constructor
  · rintro ⟨y, hy, rfl⟩
    by_cases hid : y.id = h.id
    · rw [hn.one y hy hid]
      simp
    · simp [hid, hy]
  · rintro (⟨hx, hid⟩ | rfl)
    · exact ⟨x, hx, by simp [hid]⟩
    · exact ⟨h, hh, by simp⟩

theorem lineEntered {l : Leaf} (he : Rules.Exists s h.func) (hv : va < 2 ^ 57)
    (ht : s.translate h.func va XReq.hostWrite = .ok l) : LineEntered s (s.performLine h) h bs rest l := by
  have hwf := wf_of_memWf hn.calm.1
  have hs := stored_writeG (s := s.fill h.func va l) hwf none l.pa bs
  obtain ⟨m, d, p, k, c, q, hw⟩ := wrote_writeG (s := s.fill h.func va l) hwf none l.pa bs
  rw [performLine_enters hn he hv ht]
  generalize (s.fill h.func va l).writeG none l.pa bs = u at hs hw ⊢
  have hctxs : u.ctxs = s.ctxs := by rw [hw]; rfl
  have hhost : u.hostw = s.hostw := by rw [hw]; rfl
  have hresp : u.resp = s.resp := by rw [hw]; rfl
  have hdone : ∀ t : State, t.mem = u.mem → t.dead = u.dead → t.poison = u.poison → t.ctxs = u.ctxs →
      (rest ≠ [] → t.resp = s.resp ∧ ∀ x, x ∈ t.hostw ↔ (x ∈ s.hostw ∧ x.id ≠ h.id) ∨ x = { h with lines := rest }) →
      (rest = [] → t.resp = some .successful ∧ ∀ x, x ∈ t.hostw ↔ x ∈ s.hostw ∧ x.id ≠ h.id) →
      LineEntered s t h bs rest l := by
    intro t hm hd hp hc hmore hlast
    refine ⟨fun i hi => hs.readAt hm hd hi, fun pa hpa hdead => hs.sameOutside hm hd pa ?_ hdead, fun g => ?_, hc.trans hctxs,
      hmore, hlast⟩
    · exact fun hm => hpa (mem_cellsAt_addrs.mp hm)
    · rw [hp, hs.poison, fills_cellsAt]
      rfl
  cases rest with
  | nil =>
    refine hdone _ rfl rfl rfl rfl (fun hne => absurd rfl hne) (fun _ => ⟨rfl, fun x => ?_⟩)
    refine mem_filter_id.trans ?_
    rw [onLine, mem_onLine hn hhost]
    constructor
    · rintro ⟨hx | rfl, hid⟩
      · exact hx
      · exact absurd rfl hid
    · exact fun hx => ⟨.inl hx, hx.2⟩
  | cons y ys => exact hdone _ rfl rfl rfl rfl (fun _ => ⟨hresp, fun x => mem_onLine hn hhost x⟩) (fun he => by cases he)

end

theorem hostLine_rule (s : State) (h : HostLines) (va : ℕ) (bs : List Byte) (rest : List (ℕ × List Byte))
    (hn : NextLine s h va bs rest) :
    (∀ l, Rules.Exists s h.func → va < 2 ^ 57 → s.translate h.func va XReq.hostWrite = .ok l →
      ∃ t, s.doMove (.hostLine h.func) = .next t ∧ LineEntered s t h bs rest l) ∧
    (¬ Rules.Exists s h.func ∨ (va < 2 ^ 64 ∧ 2 ^ 57 ≤ va) ∨
        (∃ e, va < 2 ^ 57 ∧ s.translate h.func va XReq.hostWrite = .error e) →
      ∃ t, s.doMove (.hostLine h.func) = .next t ∧ t.resp = some .dropped ∧
        t = { s with tlb := t.tlb, walks := t.walks, fences := t.fences, resp := t.resp, hostw := t.hostw } ∧
        ∀ x, x ∈ t.hostw ↔ x ∈ s.hostw ∧ x.id ≠ h.id) := by
  refine ⟨fun l he hv ht => ⟨_, doMove_hostLine hn, lineEntered hn he hv ht⟩, fun hbad => ?_⟩
  rw [doMove_hostLine hn]
  by_cases ho : (!(s.exists? h.func) || field va 63 57 != 0) = true
  · rw [performLine_outside hn ho]
    exact ⟨_, rfl, rfl, rfl, fun _ => mem_filter_id⟩
  · obtain ⟨he, hf⟩ : s.exists? h.func = true ∧ (field va 63 57 != 0) = false := by simpa using ho
    obtain ⟨e, -, ht⟩ : ∃ e, va < 2 ^ 57 ∧ s.translate h.func va XReq.hostWrite = .error e := by
      rcases hbad with hb | ⟨h1, h2⟩ | hb
      · exact absurd (exists?_iff.mp he) hb
      · exact absurd ((field_high h2 h1).symm.trans hf) (by simp)
      · exact hb
    rw [performLine_faults hn (Bool.eq_false_iff.mpr ho) ht]
    exact ⟨_, rfl, rfl, rfl, fun _ => mem_filter_id⟩

theorem hostWindow_rule : Rules.HostWindow := ⟨windowRead_rule, windowWrite_rule, hostLine_rule⟩

/-! ## The mailbox (R424, R425, R429) -/

section
variable {s : State} {n : ℕ} {f : Func} (h : s.funcs[n]? = some f)
include h

theorem mailbox_read (off : ℕ) : Answers s (.mailboxOtherWrite n .read off) (.data (f.read off)) := by
  show execMailboxOtherWrite n .read off s = _
  simp only [execMailboxOtherWrite, State.func?, h, State.respond]

theorem mailbox_write {k : HostKind} (hk : k ≠ .read) (off : ℕ) : exec (.mailboxOtherWrite n k off) s =
    .next (if off < 64 then s.dropCmd n k .unsupported else s.respond .successful) := by
  show execMailboxOtherWrite n k off s = _
  cases k with
  | read => exact absurd rfl hk
  | deferrable | posted => simp only [execMailboxOtherWrite, State.func?, h]

end

/-- A register of the mailbox, read byte by byte. -/
theorem byte_logseq {f : Func} {a : ℕ} (h : 0x40 ≤ a) (h' : a < 0x48) : f.byte a = (bytesOf 8 f.logseq.toNat).getD (a - 0x40) 0 :=
  if_pos ⟨h, h'⟩

theorem byte_drops {f : Func} {a : ℕ} (h : 0x48 ≤ a) (h' : a < 0x4C) : f.byte a = (bytesOf 4 f.drops.toNat).getD (a - 0x48) 0 := by
  rw [Func.byte, if_neg (by omega), if_pos ⟨h, h'⟩]

theorem byte_zero {f : Func} {a : ℕ} (h : a < 0x40 ∨ (0x4C ≤ a ∧ a < 0x400000)) : f.byte a = 0 := by
  rw [Func.byte, if_neg (by omega), if_neg (by omega), if_neg (by omega)]

theorem byte_log {f : Func} {a : ℕ} (h : 0x400000 ≤ a) (h' : a < 0x800000) : f.byte a =
    (f.log.getD ((f.logseq.toNat + 65536 * 65536 - 1 - (a - 0x400000) / 64) % 65536) []).getD (a % 64) 0 := by
  rw [Func.byte, if_neg (by omega), if_neg (by omega), if_pos ⟨h, h'⟩]

theorem read_eq {f : Func} {off : ℕ} {bs : List Byte} (hl : bs.length = 8) (h : ∀ i, i < 8 → f.byte (off + i) = bs.getD i 0) :
    f.read off = bs := by
  rw [Func.read, List.map_congr_left (fun i hi => h i (List.mem_range.mp hi)), range_map_getD hl]

theorem getD_zeroBytes (n i : ℕ) : (zeroBytes n).getD i 0 = 0 := by
  rw [zeroBytes, List.getD_eq_getElem?_getD, List.getElem?_replicate]
  split <;> rfl

theorem read_logseq (f : Func) : f.read 0x40 = bytesOf 8 f.logseq.toNat :=
  read_eq (length_bytesOf _ _) (fun i hi => by rw [byte_logseq (by omega) (by omega), Nat.add_sub_cancel_left])

theorem read_drops (f : Func) : f.read 0x48 = bytesOf 4 f.drops.toNat ++ zeroBytes 4 := by
  refine read_eq (by simp [length_bytesOf, zeroBytes]) (fun i hi => ?_)
  by_cases h4 : i < 4
  · rw [byte_drops (by omega) (by omega), Nat.add_sub_cancel_left, List.getD_append _ _ _ _ (by rwa [length_bytesOf])]
  · rw [byte_zero (by omega), List.getD_append_right _ _ _ _ (by rw [length_bytesOf]; omega)]
    exact (getD_zeroBytes 4 _).symm

theorem read_between (f : Func) : f.read 0x44 = bytesOf 4 (f.logseq.toNat / 2 ^ 32) ++ bytesOf 4 f.drops.toNat := by
  refine read_eq (by simp [length_bytesOf]) (fun i hi => ?_)
  by_cases h4 : i < 4
  · rw [byte_logseq (by omega) (by omega), List.getD_append _ _ _ _ (by rwa [length_bytesOf]), getD_bytesOf _ _ _ (by omega),
      getD_bytesOf _ _ _ h4, Nat.div_div_eq_div_mul, show 0x44 + i - 0x40 = 4 + i by omega, Nat.pow_add]
    rfl
  · rw [byte_drops (by omega) (by omega), List.getD_append_right _ _ _ _ (by rw [length_bytesOf]; omega), length_bytesOf]
    congr 1
    omega

theorem read_zero (f : Func) {off : ℕ} (h : off ≤ 0x38 ∨ (0x4C ≤ off ∧ off + 8 ≤ 0x400000)) : f.read off = zeroBytes 8 := by
  refine read_eq (by simp [zeroBytes]) (fun i hi => ?_)
  rw [byte_zero (by omega), getD_zeroBytes]

/-- Entry `i` of the logbook, counted from the newest, stands where its sequence number says. -/
theorem read_log {f : Func} {i j : ℕ} {e : List Byte} (hi : i < 65536) (hj : j < 8) (he : f.log[i]? = some e) (hl : e.length = 64)
    (hseq : i < f.logseq.toNat) :
    f.read (0x400000 + (f.logseq.toNat - 1 - i) % 65536 * 64 + 8 * j) = (e.drop (8 * j)).take 8 := by
  have hback : (f.logseq.toNat + 65536 * 65536 - 1 - (f.logseq.toNat - 1 - i) % 65536) % 65536 = i := by omega
  rw [← range_map_getD_drop (by omega)]
  refine List.map_congr_left (fun x hx => ?_)
  have hx := List.mem_range.mp hx
  rw [byte_log (by omega) (by omega),
    show (0x400000 + (f.logseq.toNat - 1 - i) % 65536 * 64 + 8 * j + x - 0x400000) / 64 = (f.logseq.toNat - 1 - i) % 65536 by omega,
    hback, List.getD_eq_getElem?_getD (l := f.log), he, Option.getD_some]
  congr 1
  omega

theorem mailbox_rule : Rules.Mailbox := by
  intro s n f h
  have hread := mailbox_read h
  refine ⟨fun off hoff => ⟨?_, ?_⟩, fun off k hoff hk => ?_, read_logseq f ▸ hread 0x40, read_between f ▸ hread 0x44,
    read_drops f ▸ hread 0x48, fun off hoff => read_zero f hoff ▸ hread off,
    fun i j e hi hj he hl hseq => read_log hi hj he hl hseq ▸ hread _⟩
  · rw [Answers, mailbox_write h (by decide), if_pos hoff]
    rfl
  · rw [mailbox_write h (by decide), if_pos hoff]
    refine ⟨_, rfl, rfl, ?_, fun m hm => ?_⟩
    · refine (getElem?_modAt _ _ _ _).trans ?_
      rw [if_pos rfl, h]
      rfl
    · exact (getElem?_modAt _ _ _ _).trans (if_neg hm)
  · rw [Answers, mailbox_write h hk, if_neg (by omega)]
    rfl

/-- Settles O49: the pieces of a request are its lines, a line is one write of memory, and the mailbox is read byte by byte. -/
theorem hostPort : Obligations.HostPort := ⟨hostWindow_rule, mailbox_rule⟩

end Sys2Proof.ContextProofs

/-!
PROOFS. The context (05): a refused CTX_SUSPEND that completes an earlier one (O47 fails).
-/

namespace Sys2Proof.ContextProofs

open Sys2Proof Sys2Proof.Machine Sys2Proof.Rules

/-! ## A second CTX_SUSPEND (Table 5.1, log 50) -/

/-- A context whose suspension is under way though no crew of it is on a quadrant. -/
def lateSuspension : State :=
  { State.reset with ctxs := [{ Ctx.empty 0 with st := .active, suspending := some (0, 0) }] }

/-- A clean command of the physical function. -/
def pfCommand : CmdHdr := { func := 0, tag := 0, clean := true }

/-- The second CTX_SUSPEND is rejected, and the first one completes behind it. -/
theorem ctxSuspend_lateSuspension : ∃ t, exec (.ctxSuspend pfCommand 0) lateSuspension = .next t ∧
    (t.ctx 0).suspending = none ∧ (t.ctx 0).st = .suspended := ⟨_, rfl, rfl, rfl⟩

/-- Refutes O47: a CTX_SUSPEND that is rejected because one is under way still lets that one complete where no crew of the
context is on a quadrant, and so changes more than the logbook. -/
theorem not_contextCommands : ¬ Obligations.ContextCommands := by
  rintro ⟨⟨-, hctx, -⟩, -⟩
  obtain ⟨-, -, -, -, hrejects, -⟩ := hctx lateSuspension pfCommand 0 ⟨rfl, .inl rfl, by decide⟩
  obtain ⟨t, ht, hsame, -⟩ := hrejects rfl
  obtain ⟨u, hu, hnone, -⟩ := ctxSuspend_lateSuspension
  obtain rfl : t = u := Host.Outcome.next.inj (ht.symm.trans hu)
  have hkept : (t.ctx 0).suspending = some (0, 0) := by
    rw [hsame]
    rfl
  rw [hnone] at hkept
  exact absurd hkept (by decide)

end Sys2Proof.ContextProofs

/-!
PROOFS. The context (05): a flushed crew that leaves the waiters of a queue (O46 fails).
-/

namespace Sys2Proof.ContextProofs

open Sys2Proof Sys2Proof.Machine Sys2Proof.Rules

/-! ## A flush of a crew that waits in the EVENT queue (R103, R139, R204) -/

/-- An EVENT queue that is CLOSED, in whose list of waiters a strand of the crew stands. -/
def waitedQueue : Queue :=
  { st := .closed, recAddr := 0, ring := 0, isz := 2, logcap := 1, err := 0, tail := 0, head := 0, drops := 0, defers := 0,
    fulls := 0, waiters := [probeRef], conf := 1, recDead := false, lost := [] }

/-- A warp with no strand left that holds an item. -/
def holdingWarp : Warp :=
  { id := 0, width := 32, lw := 32, slot := 0, splits := [], lay := { start := 0, stop := 0, base := 0 }, vregs := [], gregs := [],
    preds := [], tiles := [], strands := [none, none, none, none], frames := [], merges := [], held := [{ q := 3, pos := 0 }],
    batches := [], openFault := none, report := none, exited := false }

/-- The order to flush the crew. -/
def flushOrder : Preempt := { option := 3, estimate := 500, bound := 500, missed := false }

/-- A crew of that warp which is to halt for a flush. -/
def flushedCrew : Crew :=
  { ref := probeRef.w.crew, launch := probeLaunch, arg := 0, core := 0, quad := 0, run := .halting true, mem := [], poison := [],
    bars := [], syList := [], warps := [holdingWarp], ran := 0, since := 0, committed := false, preempt := some flushOrder,
    suspended := false }

def waitedFlush : State :=
  { State.reset with ctxs := [{ probeCtx with queues := [(1, waitedQueue)] }], crews := [flushedCrew] }

theorem strand?_holdingWarp (k : ℕ) : holdingWarp.strand? k = none := by
  have h : ∀ x ∈ holdingWarp.strands, x = none := by decide
  rw [Warp.strand?, List.getD_eq_getElem?_getD]
  cases hk : holdingWarp.strands[k]? with
  | none => rfl
  | some x => exact h x (List.mem_of_getElem? hk)

theorem warps_waitedFlush {r : CrewRef} {c : Crew} (h : waitedFlush.crew? r = some c) {w : Warp} (hw : w ∈ c.warps) :
    w = holdingWarp := by
  obtain rfl := List.mem_singleton.mp (List.mem_of_find?_eq_some h)
  exact List.mem_singleton.mp hw

theorem strand?_waitedFlush (x : StrandRef) : waitedFlush.strand? x = none := by
  rw [State.strand?, State.warp?]
  cases hc : waitedFlush.crew? x.w.crew with
  | none => rfl
  | some c =>
    rw [Option.bind_some]
    cases hw : c.warp? x.w.warp with
    | none => rfl
    | some w =>
      rw [warps_waitedFlush hc (List.mem_of_find?_eq_some hw)]
      exact strand?_holdingWarp _

theorem settled_waitedFlush : Settled waitedFlush probeRef.w.crew := by
  refine ⟨fun x t _ ht => ?_, fun c hc w hw => ?_⟩
  · rw [strand?_waitedFlush] at ht
    cases ht
  · rw [warps_waitedFlush hc hw]
    rfl

/-- The crew's halt takes its strands out of the EVENT queue's list of waiters. -/
theorem quadrantHaltDone_waitedFlush : ∃ t, exec (.quadrantHaltDone probeRef.w.crew) waitedFlush = .next t ∧
    (t.queue? 0 1).map (·.waiters) = some [] := ⟨_, rfl, rfl⟩

/-- Refutes O46: where a strand of a flushed crew stands in the EVENT queue's list of waiters, the queue does not stay as it was:
the halt of the crew takes it out. -/
theorem not_preemption : ¬ Obligations.Preemption := by
  rintro ⟨-, hhalt, -⟩
  obtain ⟨-, hflush, -⟩ := hhalt waitedFlush probeRef.w.crew flushedCrew true rfl rfl rfl settled_waitedFlush rfl
  obtain ⟨t, -, -, ht, -, -, -, -, -, -, -, hqueue⟩ := hflush _ rfl rfl rfl
  obtain ⟨hsame, -⟩ := hqueue flushOrder rfl (by decide) rfl
  obtain ⟨u, hu, hempty⟩ := quadrantHaltDone_waitedFlush
  obtain rfl : t = u := Host.Outcome.next.inj (ht.symm.trans hu)
  have hkept : (t.queue? 0 1).map (·.waiters) = some [probeRef] := congrArg (Option.map (·.waiters)) hsame
  rw [hempty] at hkept
  exact absurd hkept (by decide)

end Sys2Proof.ContextProofs

/-!
SUPPORT. The event of a singleton for a strand outside any chunk (R192).
-/

namespace Sys2Proof.ContextProofs

open Sys2Proof Sys2Proof.Machine Sys2Proof.Rules

/-! ## An access that the open chunk cannot hold (R192, R267) -/

section
variable {s : State} {c : Cur} {i : Instr} {op : SingOp} {fm : Form} {cf : Cf}
  {f : State → Cur → Except Stop (State × Cur)} {ev : State → Cur → SRes} (hr : Ready s c 1 cf)
  (hi : exec i s = s.issueMem fm f op ev) (hn : fm.words = 1) (hcf : fm.cf = cf)
  (hf : f s c.openChunk = .error .uncached)
include hr hi hn hcf hf

theorem exec_uncached : exec i s = .next (if c.t.clear then s.event1 c fm ev
    else (s.endBefore c).modStrand c.ref (fun t => { t with wait := .sing op })) := by
  have ha := attempt_error hr hn hcf hf
  have hfirst := hr.firstCause hn hcf (Except.ok () : Except Stop Unit)
  rw [hi]
  simp only [State.issueMem, hr.focus, hr.may, if_true, State.performMem, ha, State.performSing, hfirst]

/-- A strand whose open chunk has ended, and which waits with an access. -/
def deferred (op : SingOp) (t : Strand) : Strand :=
  { (if t.chunk.st == .opened then { t with chunk := { t.chunk with st := .ended } } else t) with wait := .sing op }

theorem defers_of (ho : c.t.chunk.st = .opened) : Defers s c i op := by
  have hclear : c.t.clear = false := by simp [Strand.clear, ho]
  have hex : exec i s = .next (s.modStrand c.ref (deferred op)) := by
    rw [exec_uncached hr hi hn hcf hf, hclear, State.endBefore, modStrand_modStrand]
    rfl
  refine ⟨_, _, hex, curOf_modStrand hr.curOf _, ?_, ?_, ?_, ?_, rfl⟩ <;> simp [updCur, deferred, ho]
  · rfl
  · rfl

theorem exec_event (ha : Alone c) : exec i s = .next (s.event1 c fm ev) := by
  rw [exec_uncached hr hi hn hcf hf, clear_of_alone ha]
  rfl

end

/-- The strand of `d` behind a singleton's event. -/
def behindEvent (fm : Form) (d : Cur) : Cur :=
  ((d.pend fm.cf d.log).advance 1).mapT
    (fun t => { t with trapReplay := false, failed := none, wait := .none, chunk := Chunk.none, pinCount := 0 })

/-- The package behind a singleton's event that left the state `s'` and the strand `d`. -/
def afterEvent (s s' : State) (r : StrandRef) (fm : Form) (d : Cur) : State :=
  { (s'.putCur (behindEvent fm d)).dropPin r with free := s.free + 1 }

theorem event1_done {s s' : State} {c d : Cur} {fm : Form} {ev : State → Cur → SRes} (hev : ev s c = .done s' d)
    (hn : fm.words = 1) (hp : d.t.pends = []) : s.event1 c fm ev = afterEvent s s' c.ref fm d := by
  have hw : d.writesPending = false := by simp [Cur.writesPending, hp]
  simp only [State.event1, hev, hw, hn]
  rfl

/-- A state in which an event of the strand of `c` has happened, with the strand as `e` shows it: memory, caches, waits of
strands and pin slots may have changed. -/
structure EventState (s s' : State) (c e : Cur) : Prop where
  here    : s'.curOf c.ref = some e
  core    : e.t.core = c.t.core
  pends   : e.t.pends = c.t.pends
  others  : ∀ r, r ≠ c.ref → (s'.strand? r).map (·.core) = (s.strand? r).map (·.core)
  package : ∃ m p d a b k x q, s' = { s with mem := m, poison := p, dead := d, tlb := a, walks := b, crews := k, caches := x,
                                             pins := q }

theorem behindEvent_of {fm : Form} {e d : Cur} (h : Stays e d) : e.Of (behindEvent fm d) := by
  have hp := h.of
  refine ⟨?_, ?_, ?_, ?_⟩
  · exact (((d.pend fm.cf d.log).advance_ref 1).trans (d.pend_ref _ _)).trans hp.ref
  · exact (((d.pend fm.cf d.log).advance_crew 1).trans (d.pend_crew _ _)).trans hp.crew
  · exact (congrArg Warp.id (((d.pend fm.cf d.log).advance_warp 1).trans (d.pend_warp _ _))).trans hp.id
  · exact (congrArg Warp.strands (((d.pend fm.cf d.log).advance_warp 1).trans (d.pend_warp _ _))).trans hp.strands

theorem pend_core (d : Cur) (cf : Cf) (l : List OldVal) : (d.pend cf l).t.core = d.t.core := by
  rw [pend_eq]
  rfl

theorem pend_regs (d : Cur) (cf : Cf) (l : List OldVal) : (d.pend cf l).regs = d.regs := by
  rw [pend_eq]
  rfl

theorem behindEvent_regs (fm : Form) (d : Cur) : (behindEvent fm d).regs = d.regs :=
  (advance_regs (d.pend fm.cf d.log) 1).trans (pend_regs d _ _)

theorem behindEvent_place {fm : Form} {c e d : Cur} (hc : e.t.core = c.t.core) (h : Stays e d) :
    (behindEvent fm d).place = c.behind 1 := by
  have hcore := pend_core d fm.cf d.log
  exact advance_place (d := d.pend fm.cf d.log) (c := c) 1 (by rw [hcore, h.pc, hc]) (by rw [hcore, h.hdr, hc])
    (by rw [hcore, h.hword, hc]) (by rw [hcore, h.inClause, hc])

theorem curOf_free {s : State} {r : StrandRef} {e : Cur} (h : s.curOf r = some e) (n : ℕ) :
    ({ s with free := n } : State).curOf r = some { e with free := n } := by
  obtain ⟨h1, h2, h3, h4, -, h6, h7⟩ := (curOf_iff s r e).mp h
  exact (curOf_iff _ _ _).mpr ⟨h1, h2, h3, h4, rfl, h6, h7⟩

/-- A singleton's event is performed. -/
theorem single_afterEvent {s s' : State} {c e d' d : Cur} {fm : Form} (h : EventState s s' c e) (hd : Stays e d')
    (hregs : d'.regs = d.regs) :
    Single s (afterEvent s s' c.ref fm d') c ((behindEvent fm d').back (s.free + 1)) d := by
  obtain ⟨here, core, pends, others, m, p, dd, a, b, k, x, q, package⟩ := h
  have href : c.ref = e.ref := (((curOf_iff s' c.ref e).mp here).1).symm
  have hof := behindEvent_of (fm := fm) hd
  have here' : ({ s' with free := s.free + 1 } : State).curOf e.ref = some { e with free := s.free + 1 } := by
    have hfree := curOf_free here (s.free + 1)
    rwa [href] at hfree
  have hof' : Cur.Of { e with free := s.free + 1 } (behindEvent fm d') := ⟨hof.ref, hof.crew, hof.id, hof.strands⟩
  refine ⟨⟨?_, rfl, rfl, behindEvent_place core hd, (behindEvent_regs fm d').trans hregs⟩, fun r hr => ?_, ?_⟩
  · rw [href]
    exact putCur_spec (c := { e with free := s.free + 1 }) here' hof'
  · refine Eq.trans (congrArg (Option.map Strand.core) ?_) (others r hr)
    exact strand?_putCur_ne (s := { s' with free := s.free + 1 }) (c := { e with free := s.free + 1 }) here' hof'
      (fun he => hr (he.trans href.symm))
  · rw [afterEvent, package]
    rfl

/-! ### Events of a strand that no chunk stands in the way of -/

/-- No strand has a chunk under way. -/
theorem noneActive_of {s : State} {c : Cur} (h : s.curOf c.ref = some c) (ha : Alone c) (hq : Quiet s c) : NoneActive s := by
  intro r t ht ch hch
  by_cases hr : r = c.ref
  · obtain rfl : c.t = t := Option.some.inj ((curOf_strand h).symm.trans (hr ▸ ht))
    obtain ⟨hst, he⟩ := ha
    have hc : ch = c.t.chunk := by simpa [Strand.unplaced, he] using hch
    simp [hc, Chunk.active, hst]
  · exact hq.2 r t hr ht ch hch

/-- A warp and a crew whose parked SVWAITs have been checked. -/
def latchWarp (s : State) (ws : List ℕ) (w : Warp) : Warp := { w with strands := w.strands.map (Option.map (Strand.latch s ws)) }
def latchCrew (s : State) (ws : List ℕ) (k : Crew) : Crew := { k with warps := k.warps.map (latchWarp s ws) }

theorem latchAll_eq (s : State) (ws : List ℕ) : s.latchAll ws = { s with crews := s.crews.map (latchCrew s ws) } := rfl

theorem latch_eq (s : State) (ws : List ℕ) (t : Strand) : t.latch s ws = { t with wait := (t.latch s ws).wait } := by
  unfold Strand.latch
  split
  · split
    · dsimp only
      split <;> split <;> rfl
    · rfl
  · rfl

theorem latch_brief (s : State) (ws : List ℕ) {t : Strand} (h : t.wait.brief) : t.latch s ws = t := by
  unfold Strand.latch
  rcases h with h | ⟨k, h⟩ | ⟨f, h⟩ <;> rw [h]

theorem crew?_latchAll (s : State) (ws : List ℕ) (r : CrewRef) : (s.latchAll ws).crew? r = (s.crew? r).map (latchCrew s ws) :=
  List.find?_map ..

theorem warp?_latchCrew (s : State) (ws : List ℕ) (k : Crew) (i : ℕ) :
    (latchCrew s ws k).warp? i = (k.warp? i).map (latchWarp s ws) := List.find?_map ..

theorem strand?_latchWarp (s : State) (ws : List ℕ) (w : Warp) (i : ℕ) :
    (latchWarp s ws w).strand? i = (w.strand? i).map (Strand.latch s ws) := by
  simp only [Warp.strand?, latchWarp, List.getD_eq_getElem?_getD, List.getElem?_map]
  cases w.strands[i]? <;> rfl

theorem strand?_latchAll (s : State) (ws : List ℕ) (r : StrandRef) :
    (s.latchAll ws).strand? r = (s.strand? r).map (Strand.latch s ws) := by
  simp only [State.strand?, State.warp?, crew?_latchAll]
  cases s.crew? r.w.crew with
  | none => rfl
  | some k =>
    simp only [Option.map_some, Option.bind_some, warp?_latchCrew]
    cases k.warp? r.w.warp with
    | none => rfl
    | some w => exact strand?_latchWarp s ws w _

/-- The view of a strand that waits for nothing, once the SVWAITs of the others have been checked. -/
def latchCur (s : State) (ws : List ℕ) (c : Cur) : Cur := { c with crew := latchCrew s ws c.crew, warp := latchWarp s ws c.warp }

theorem curOf_latchAll {s : State} {c : Cur} (h : s.curOf c.ref = some c) (hw : c.t.wait.brief) (ws : List ℕ) :
    (s.latchAll ws).curOf c.ref = some (latchCur s ws c) := by
  obtain ⟨-, h2, h3, h4, h5, h6, h7⟩ := (curOf_iff s c.ref c).mp h
  refine (curOf_iff _ _ _).mpr ⟨rfl, ?_, ?_, ?_, h5, h6, h7⟩
  · rw [crew?_latchAll, h2]
    rfl
  · exact (warp?_latchCrew s ws c.crew _).trans (by rw [h3]; rfl)
  · exact (strand?_latchWarp s ws c.warp _).trans (by rw [h4, Option.map_some, latch_brief s ws hw]; rfl)

theorem noneActive_latchAll {s : State} (h : NoneActive s) (ws : List ℕ) : NoneActive (s.latchAll ws) := by
  intro r t ht ch hch
  rw [strand?_latchAll] at ht
  obtain ⟨u, hu, rfl⟩ := Option.map_eq_some_iff.mp ht
  rw [latch_eq] at hch
  exact h r u hu ch hch

/-- Two states with the same crews and the same free-value counter show the same strands. -/
theorem curOf_congr {s t : State} (hc : t.crews = s.crews) (hf : t.free = s.free) (r : StrandRef) : t.curOf r = s.curOf r := by
  simp only [State.curOf, State.crew?, hc, hf]

theorem strand?_congr {s t : State} (hc : t.crews = s.crews) (r : StrandRef) : t.strand? r = s.strand? r := by
  simp only [State.strand?, State.warp?, State.crew?, hc]

section
variable {s : State} {c : Cur} (h : s.curOf c.ref = some c) (ha : Alone c) (hq : Quiet s c) (hw : c.t.wait.brief)

/-- An event that changes caches and discarded words alone. -/
theorem eventState_of {s' : State} (hp : ∃ a b x d, s' = { s with tlb := a, walks := b, caches := x, dead := d })
    (h : s.curOf c.ref = some c) : EventState s s' c c := by
  obtain ⟨a, b, x, d, rfl⟩ := hp
  exact ⟨h, rfl, rfl, fun _ _ => rfl, _, _, _, _, _, _, _, _, rfl⟩

include h ha hq

theorem writeSing_eq (cs : List Host.Cell) : s.writeSing c cs = some (s.writeCells (some c.ref) cs) := by
  have hb := pinBlocks_calm (noneActive_of h ha hq)
  simp only [State.writeSing, hb]
  rfl

include hw

/-- An event that writes cells. -/
theorem eventState_writeCells (cs : List Host.Cell) :
    ∃ e, EventState s (s.writeCells (some c.ref) cs) c e ∧ e.regs = c.regs := by
  have hwf := wf_of_memWf hq.1
  have hpack := store_package (s.recall (cellWords cs)) cs hwf
  generalize hu : (s.recall (cellWords cs)).store cs = u at hpack
  have hcrews : u.crews = s.crews := by rw [hpack]; rfl
  have hfree : u.free = s.free := by rw [hpack]; rfl
  have hu' : u.curOf c.ref = some c := (curOf_congr hcrews hfree _).trans h
  have hnone : NoneActive u := fun r t ht => noneActive_of h ha hq r t ((strand?_congr hcrews r).symm.trans ht)
  have hwrite : s.writeCells (some c.ref) cs = u.latchAll (cellWords cs) := by
    rw [← hu]
    exact conflict_calm (hu ▸ noneActive_latchAll hnone _) _
  obtain ⟨m, d, p, k, x, q, hpk⟩ := wrote_writeCells hwf (some c.ref) cs
  refine ⟨latchCur u (cellWords cs) c, ⟨?_, rfl, rfl, fun r _ => ?_, m, p, d, _, _, x, k, q, hpk⟩, rfl⟩
  · rw [hwrite]
    exact curOf_latchAll hu' hw _
  · rw [hwrite, strand?_latchAll, strand?_congr hcrews]
    cases s.strand? r with
    | none => rfl
    | some t =>
      simp only [Option.map_some]
      rw [latch_eq]

end

end Sys2Proof.ContextProofs

/-!
SUPPORT. Masks, addresses, and the open chunk's view of memory (R90, R263 to R266).
-/

namespace Sys2Proof.ContextProofs

open Sys2Proof Sys2Proof.Machine Sys2Proof.Rules

/-! ## Masks of lanes -/

theorem bitAt_toNat {n : ℕ} (x : BitVec n) (i : ℕ) : bitAt x.toNat i = x.getLsbD i := by
  rw [bitAt, BitVec.getLsbD, Nat.testBit_eq_decide_div_mod_eq]
  rfl

theorem hasLane_eq (m : Mask) (l : ℕ) : hasLane m l = m.getLsbD l := bitAt_toNat m l

theorem maskNat_succ (n : ℕ) (p : ℕ → Bool) : maskNat (n + 1) p = 2 ^ n * bit (p n) + maskNat n p := by
  rw [maskNat, List.range_succ, List.foldl_append, List.foldl_cons, List.foldl_nil, ← maskNat, Nat.add_comm, Nat.mul_comm]

theorem bit_testBit_zero (b : Bool) (i : ℕ) : (bit b).testBit i = (decide (i = 0) && b) := by
  cases b with
  | false => simp [bit]
  | true =>
    rw [Bool.and_true]
    cases i with
    | zero => rfl
    | succ i => exact (Nat.testBit_succ 1 i).trans (Nat.zero_testBit i)

theorem maskNat_lt (n : ℕ) (p : ℕ → Bool) : maskNat n p < 2 ^ n := by
  induction n with
  | zero => exact Nat.one_pos
  | succ n ih =>
    have hb : bit (p n) ≤ 1 := by cases p n <;> decide
    have := Nat.mul_le_mul_left (2 ^ n) hb
    rw [maskNat_succ, Nat.pow_succ]
    omega

theorem testBit_maskNat (n : ℕ) (p : ℕ → Bool) (i : ℕ) : (maskNat n p).testBit i = (decide (i < n) && p i) := by
  induction n with
  | zero => simp [maskNat]
  | succ n ih =>
    rw [maskNat_succ, Nat.testBit_two_pow_mul_add _ (maskNat_lt n p), bit_testBit_zero, ih]
    by_cases h : i < n
    · simp [h, Nat.lt_succ_of_lt h]
    · rw [if_neg h]
      by_cases hi : i = n
      · simp [hi]
      · have h0 : i - n ≠ 0 := by omega
        have h1 : ¬ i < n + 1 := by omega
        simp [h0, h1]

theorem hasLane_maskOf {p : ℕ → Bool} {l : ℕ} (h : l < 64) : hasLane (maskOf 64 p) l = p l := by
  rw [hasLane_eq, maskOf, BitVec.getLsbD_ofNat, testBit_maskNat]
  simp [h]

/-- The lanes enabled for the instruction are the non-helper ones of those that it accesses. -/
theorem hasLane_guarded_em (c : Cur) (g : Guard) (l : ℕ) :
    (hasLane (c.enabledH g) l && hasLane c.em l) = hasLane (c.guarded g c.em) l := by
  unfold Cur.enabledH Cur.guarded
  split <;> simp only [hasLane_eq, BitVec.getLsbD_and, BitVec.getLsbD_or] <;>
    cases c.em.getLsbD l <;> simp

/-! ## The conditions that accesses meet (R90, R264, R266) -/

theorem field_high_eq (ea : ℕ) : (field ea 63 57 != 0) = decide (ea / 2 ^ 57 % 2 ^ 7 ≠ 0) := by
  rw [field]
  cases h : decide (ea / 2 ^ 57 % 2 ^ 7 ≠ 0) <;> simp_all

theorem gAddrOk_addr {ea es : ℕ} (h : ea < 2 ^ 64) (hh : 2 ^ 57 ≤ ea) : gAddrOk ea es = .error (.trap .addr ea 0 none) := by
  rw [gAddrOk, if_pos (field_high hh h)]

theorem gAddrOk_misalign {ea es : ℕ} (h : ea < 2 ^ 57) (ha : ea % es ≠ 0) :
    gAddrOk ea es = .error (.trap .misalign ea es none) := by
  rw [gAddrOk, if_neg (by rw [field_high_zero h]; simp), if_pos (by simpa using ha)]

theorem gAddrOk_ok {ea es : ℕ} (h : ea < 2 ^ 57) (ha : ea % es = 0) : gAddrOk ea es = .ok () := by
  rw [gAddrOk, if_neg (by rw [field_high_zero h]; simp), if_neg (by simpa using ha)]

theorem gAccess_addr (s : State) (c : Cur) (q : XReq) (rd : Bool) {ea n es : ℕ} {st : Stop} (h : gAddrOk ea es = .error st) :
    s.gAccess c q rd ea n es = .error st := by
  simp only [State.gAccess, h]
  rfl

/-! ### The view of the open chunk accesses memory as the strand does -/

theorem openChunk_any (c : Cur) {p : Chunk → Bool} (hp : ∀ ch : Chunk, ch.gw = [] → ch.badG = [] → p ch = false)
    (hk : ∀ ch d : Chunk, d.gw = ch.gw → d.badG = ch.badG → p d = p ch) : c.openChunk.newest.any p = c.newest.any p := by
  have hopen : ∀ ch : Chunk, ∀ k, p (ch.opening k) = p ch := fun ch k => hk _ _ rfl rfl
  unfold Cur.openChunk Cur.newest Cur.usePage
  cases hst : c.t.chunk.st with
  | idle | opened | pinWait =>
    exact congrArg (· || c.t.earlier.reverse.any p) (hk _ _ rfl rfl)
  | ended | ordering =>
    simp only [Cur.mapChunk, Cur.mapT, List.any_cons, List.reverse_append, List.reverse_singleton, List.singleton_append]
    rw [hp _ rfl rfl, Bool.false_or]

theorem openChunk_gPoison (s : State) (c : Cur) (pa : ℕ) : c.openChunk.gPoison s pa = c.gPoison s pa := by
  unfold Cur.gPoison
  rw [openChunk_any c (p := fun ch => wholeGranule ch.gw pa) (fun ch h _ => by simp [h, wholeGranule]; exact ⟨0, by omega⟩)
      (fun ch d h _ => by rw [h]),
    openChunk_any c (p := fun ch => ch.badG.contains (pa / 32)) (fun ch _ h => by simp [h]) (fun ch d _ h => by rw [h])]

theorem openChunk_gAccess (s : State) (c : Cur) (q : XReq) (rd : Bool) (ea n es : ℕ) :
    s.gAccess c.openChunk q rd ea n es = s.gAccess c q rd ea n es := by
  have hp : c.openChunk.gPoison s = c.gPoison s := funext (openChunk_gPoison s c)
  simp only [State.gAccess, ctx_openChunk, hp]

theorem openChunk_width (c : Cur) : c.openChunk.width = c.width := by simp [Cur.width]

theorem openChunk_lanes (c : Cur) (m : Mask) : c.openChunk.lanes m = c.lanes m := by rw [Cur.lanes, openChunk_width]; rfl

theorem openChunk_ea (c : Cur) (b : SReg) (x : ℤ) (off : BitVec 12) (es : ℕ) : c.openChunk.ea b x off es = c.ea b x off es := by
  simp only [Cur.ea, openChunk_sr]

theorem openChunk_xoff (c : Cur) (va : Option VReg) : c.openChunk.xoff va = c.xoff va := by
  cases va <;> simp only [Cur.xoff, openChunk_need]

theorem openChunk_run (c : Cur) (r : VReg) (n : ℕ) : c.openChunk.run r n = c.run r n := by
  simp only [Cur.run, openChunk_regOk]

theorem openChunk_memRegs (c : Cur) (o : MemOps) : c.openChunk.memRegs o = c.memRegs o := by
  simp only [Cur.memRegs, openChunk_run, openChunk_needRegs]

theorem openChunk_em (c : Cur) : c.openChunk.em = c.em := by simp only [Cur.em, openChunk_core]

theorem openChunk_ldLanes (s : State) (c : Cur) (o : MemOps) : s.ldLanes c.openChunk o = s.ldLanes c o := by
  simp only [State.ldLanes, openChunk_xoff, openChunk_lanes, openChunk_enabledH, openChunk_ea, openChunk_gAccess, openChunk_em]

theorem openChunk_stLanes (s : State) (c : Cur) (o : MemOps) : s.stLanes c.openChunk o = s.stLanes c o := by
  simp only [State.stLanes, openChunk_xoff, openChunk_lanes, openChunk_enabled, openChunk_ea, openChunk_gAccess]

theorem openChunk_storeData (c : Cur) (o : MemOps) : c.openChunk.storeData o = c.storeData o := by
  have hany : c.openChunk.needAny = c.needAny := funext (fun r => openChunk_need c r _ _)
  simp only [Cur.storeData, openChunk_memRegs, hany, Cur.needTag, openChunk_need]

theorem openChunk_sea (c : Cur) (o : SMemOps) : c.openChunk.sea o = c.sea o := openChunk_ea c _ _ _ _

/-! ### Registers that can be read, and the addresses of lanes (R263) -/

theorem need_ok {c : Cur} {r : VReg} {p : Tag → Bool} {q : ℕ} (h : (c.vr r).tag ≠ .poison) (hp : p (c.vr r).tag = true) :
    c.need r p q = .ok (c.vr r) := by
  simp [Cur.need, h, hp]

theorem xoff_ok {c : Cur} {va : Option VReg} (h : VaddrOk c va) : c.xoff va = .ok (fun l => offsetOf c va l) := by
  cases va with
  | none => rfl
  | some r =>
    obtain ⟨-, ht⟩ := h r rfl
    have hne : (c.vr r).tag ≠ .poison := by
      intro he
      rw [he] at ht
      exact absurd ht (by decide)
    have hp : ((c.vr r).tag == .i32 || (c.vr r).tag == .u32 || (c.vr r).tag == .raw) = true := by
      simp only [List.mem_cons, List.not_mem_nil, or_false] at ht
      rcases ht with ht | ht | ht <;> rw [ht] <;> rfl
    simp only [Cur.xoff, need_ok (p := fun t => t == .i32 || t == .u32 || t == .raw) hne hp]
    simp only [offsetOf, lane, beq_iff_eq]
    rfl

theorem needRegs_ok {c : Cur} {va : Option VReg} (h : VaddrOk c va) : c.needRegs va.toList = .ok () := by
  have ha : va.toList.all c.regOk = true := by
    cases va with
    | none => rfl
    | some r => simpa using (h r rfl).1
  rw [Cur.needRegs, ha]
  rfl

theorem run_ok {c : Cur} {d : VReg} {n : ℕ} (h : RunOk c d n) : c.run d n = .ok (runOf d n) := by
  have ha : ((List.range n).map (vplus d)).all (fun x => match x with | some y => c.regOk y | none => false) = true := by
    rw [List.all_eq_true]
    intro x hx
    obtain ⟨k, hk, rfl⟩ := List.mem_map.mp hx
    obtain ⟨r, hr, hok⟩ := h k (List.mem_range.mp hk)
    rw [hr]
    exact hok
  rw [Cur.run, runOf]
  simp only [List.filterMap_map]
  exact if_pos ha

theorem memRegs_ok {c : Cur} {o : MemOps} (h : RunOk c o.d o.w.regs) (hv : VaddrOk c o.va) :
    c.memRegs o = .ok (runOf o.d o.w.regs) := by
  simp only [Cur.memRegs, run_ok h, needRegs_ok hv]
  rfl

theorem ea_eq (c : Cur) (b : SReg) (va : Option VReg) (off : BitVec 12) (n l : ℕ) :
    c.ea b (offsetOf c va l) off n = eaOf c b va off n l := by
  rw [Cur.ea, eaOf, wrapNat, BitVec.toNat_ofInt]

end Sys2Proof.ContextProofs

/-!
PROOFS. The context (05): the lowest lane that meets a condition (O26, first part).
-/

namespace Sys2Proof.ContextProofs

open Sys2Proof Sys2Proof.Machine Sys2Proof.Rules

/-! ## The lowest lane that meets a condition, and the lanes that meet the same one (R90) -/

theorem mem_lanes_iff {c : Cur} {m : Mask} {l : ℕ} : l ∈ c.lanes m ↔ inLanes c m l := by
  simp [Cur.lanes, lanesBelow, inLanes]

/-- The first number below a bound that a search of the numbers under a test finds. -/
theorem findSome?_lowest {β : Type} {g : ℕ → Option β} {p : ℕ → Bool} {n l : ℕ} {b : β} (hl : l < n) (hp : p l = true)
    (hg : g l = some b) (hlow : ∀ k, k < l → p k = true → g k = none) :
    ((List.range n).filter p).findSome? g = some b := by
  obtain ⟨d, rfl⟩ := Nat.exists_eq_add_of_lt hl
  have hnone : ((List.range l).filter p).findSome? g = none := by
    rw [List.findSome?_eq_none_iff]
    intro k hk
    obtain ⟨hkl, hkp⟩ := List.mem_filter.mp hk
    exact hlow k (List.mem_range.mp hkl) hkp
  rw [Nat.add_assoc, List.range_add, List.filter_append, List.findSome?_append, hnone, List.range_succ_eq_map]
  simp [hp, hg]

/-- The accesses of the lanes of a mask. -/
def laneResults {α : Type} (c : Cur) (m : Mask) (f : ℕ → Except Stop α) : List (ℕ × Except Stop α) :=
  (c.lanes m).map (fun l => (l, f l))

section
variable {α : Type} {c : Cur} {m : Mask} {f : ℕ → Except Stop α} {l : ℕ} {st : Stop}

theorem any_laneResults (g : Except Stop α → Bool) (k : ℕ) :
    (laneResults c m f).any (fun x => x.1 == k && g x.2) = true ↔ inLanes c m k ∧ g (f k) = true := by
  simp only [laneResults, List.any_map, List.any_eq_true, mem_lanes_iff, Function.comp, Bool.and_eq_true, beq_iff_eq]
  constructor
  · rintro ⟨j, hj, rfl, hg⟩
    exact ⟨hj, hg⟩
  · rintro ⟨hk, hg⟩
    exact ⟨k, hk, rfl, hg⟩

/-- A trap of the given cause; a fault of the given reason and access. -/
def isTrap (a : Cause) : Except Stop α → Bool
  | .error (.trap b _ _ _) => a == b
  | _ => false
def isPark (pf : PageFault) : Except Stop α → Bool
  | .error (.park p) => pf.reason == p.reason && pf.access == p.access
  | _ => false

theorem isTrap_iff {a : Cause} {r : Except Stop α} : isTrap a r = true ↔ ∃ p q y, r = .error (.trap a p q y) := by
  constructor
  · intro h
    unfold isTrap at h
    split at h
    · obtain rfl := eq_of_beq h
      exact ⟨_, _, _, rfl⟩
    · exact absurd h (by decide)
  · rintro ⟨p, q, y, rfl⟩
    exact beq_self_eq_true a

theorem isPark_iff {pf : PageFault} {r : Except Stop α} :
    isPark pf r = true ↔ ∃ p, r = .error (.park p) ∧ p.reason = pf.reason ∧ p.access = pf.access := by
  constructor
  · intro h
    unfold isPark at h
    split at h
    · rw [Bool.and_eq_true, beq_iff_eq, beq_iff_eq] at h
      exact ⟨_, rfl, h.1.symm, h.2.symm⟩
    · exact absurd h (by decide)
  · rintro ⟨p, rfl, h1, h2⟩
    simp [isPark, h1, h2]

/-- The lanes that meet a condition. -/
def meetingLanes (c : Cur) (m : Mask) (f : ℕ → Except Stop α) (g : Except Stop α → Bool) : Mask :=
  maskOf 64 (fun k => (laneResults c m f).any (fun x => x.1 == k && g x.2))

theorem hasLane_meetingLanes (g : Except Stop α → Bool) {k : ℕ} (hk : k < 64) :
    hasLane (meetingLanes c m f g) k = true ↔ inLanes c m k ∧ g (f k) = true := by
  rw [meetingLanes, hasLane_maskOf hk, any_laneResults]

/-- The condition that an access meets. -/
def errorOf : Except Stop α → Option Stop
  | .error e => some e
  | .ok _ => none

theorem errorOf_ok {r : Except Stop α} (h : r.isOk = true) : errorOf r = none := by
  cases r with
  | ok a => rfl
  | error e => exact absurd h (by simp [Except.isOk, Except.toBool])

theorem firstStop_ok (h : ∀ k, inLanes c m k → (f k).isOk = true) : firstStop (laneResults c m f) = .ok () := by
  have hnone : (laneResults c m f).findSome? (fun x => errorOf x.2) = none := by
    rw [List.findSome?_eq_none_iff]
    intro x hx
    obtain ⟨k, hk, rfl⟩ := List.mem_map.mp hx
    exact errorOf_ok (h k (mem_lanes_iff.mp hk))
  unfold firstStop
  split
  · rfl
  next e he => exact absurd (he.symm.trans hnone) (by simp)

/-- The search of the lowest lane that meets a condition. -/
theorem lowest_found (hl : inLanes c m l) (he : f l = .error st) (hlow : ∀ k, k < l → inLanes c m k → (f k).isOk = true) :
    (laneResults c m f).findSome? (fun x => errorOf x.2) = some st := by
  rw [laneResults, List.findSome?_map]
  exact findSome?_lowest hl.1 hl.2 (congrArg errorOf he) (fun k hk hm => errorOf_ok (hlow k hk ⟨hk.trans hl.1, hm⟩))

theorem firstStop_trap {a : Cause} {ta te : ℕ} {x : Option Mask} (hl : inLanes c m l) (he : f l = .error (.trap a ta te x))
    (hlow : ∀ k, k < l → inLanes c m k → (f k).isOk = true) :
    firstStop (laneResults c m f) = .error (.trap a ta te (some (meetingLanes c m f (isTrap a)))) := by
  have hfound := lowest_found hl he hlow
  unfold firstStop
  split
  next hn => exact absurd (hn.symm.trans hfound) (by simp)
  next e hs =>
    obtain rfl := Option.some.inj (hs.symm.trans hfound)
    refine congrArg (fun n => Except.error (Stop.trap a ta te (some n))) (congrArg (maskOf 64) (funext fun k => ?_))
    refine congrArg (fun q => (laneResults c m f).any q) (funext fun y => congrArg (y.1 == k && ·) ?_)
    cases y.2 with
    | ok b => rfl
    | error e => cases e <;> rfl

theorem firstStop_park {pf : PageFault} (hl : inLanes c m l) (he : f l = .error (.park pf))
    (hlow : ∀ k, k < l → inLanes c m k → (f k).isOk = true) :
    firstStop (laneResults c m f) = .error (.park { pf with lanes := meetingLanes c m f (isPark pf) }) := by
  have hfound := lowest_found hl he hlow
  unfold firstStop
  split
  next hn => exact absurd (hn.symm.trans hfound) (by simp)
  next e hs =>
    obtain rfl := Option.some.inj (hs.symm.trans hfound)
    refine congrArg (fun n => Except.error (Stop.park { pf with lanes := n })) (congrArg (maskOf 64) (funext fun k => ?_))
    refine congrArg (fun q => (laneResults c m f).any q) (funext fun y => congrArg (y.1 == k && ·) ?_)
    cases y.2 with
    | ok b => rfl
    | error e => cases e <;> rfl

end

/-! ### The lanes of a load and of a store -/

/-- A lane of a load or store, with its address and its access. -/
def laneLoad (s : State) (c : Cur) (o : MemOps) (q : XReq) (rd : Bool) (l : ℕ) : LaneLoad := (l, laneEa c o l, laneAcc s c o q rd l)

theorem checked_lanes (s : State) (c : Cur) (o : MemOps) (q : XReq) (rd : Bool) (m : Mask) :
    (((c.lanes m).map (laneLoad s c o q rd)).map (fun r => (r.1, r.2.2))) = laneResults c m (laneAcc s c o q rd) := by
  rw [List.map_map]
  rfl

theorem checked_lanes_em (s : State) (c : Cur) (o : MemOps) (q : XReq) (rd : Bool) :
    ((((c.lanes (c.enabledH o.g)).map (laneLoad s c o q rd)).filter (fun r => hasLane c.em r.1)).map (fun r => (r.1, r.2.2))) =
      laneResults c (c.guarded o.g c.em) (laneAcc s c o q rd) := by
  have hf : (c.lanes (c.enabledH o.g)).filter (hasLane c.em) = c.lanes (c.guarded o.g c.em) := by
    simp only [Cur.lanes, lanesBelow, List.filter_filter]
    refine List.filter_congr (fun l _ => ?_)
    rw [Bool.and_comm]
    exact hasLane_guarded_em c o.g l
  rw [List.filter_map, List.map_map, laneResults, ← hf]
  rfl

theorem ok_bind {α β : Type} (a : α) (f : α → Except Stop β) : (Except.ok a >>= f) = f a := rfl

theorem bind_const {α β : Type} (r : Except Stop α) (b : β) : (r >>= fun _ => Except.ok b) = r.map (fun _ => b) := by
  cases r <;> rfl

theorem ldLanes_eq {s : State} {c : Cur} {o : MemOps} (hv : VaddrOk c o.va) : s.ldLanes c o =
    (firstStop (laneResults c (c.guarded o.g c.em) (laneAcc s c o XReq.load true))).map
      (fun _ => (c.lanes (c.enabledH o.g)).map (laneLoad s c o XReq.load true)) := by
  rw [← checked_lanes_em]
  simp only [State.ldLanes, xoff_ok hv, ok_bind, ea_eq]
  exact bind_const _ _

theorem stLanes_eq {s : State} {c : Cur} {o : MemOps} (hv : VaddrOk c o.va) : s.stLanes c o =
    (firstStop (laneResults c (c.enabled o.g) (laneAcc s c o XReq.store false))).map
      (fun _ => okLanes ((c.lanes (c.enabled o.g)).map (laneLoad s c o XReq.store false))) := by
  rw [← checked_lanes]
  simp only [State.stLanes, xoff_ok hv, ok_bind, ea_eq]
  exact bind_const _ _

/-! ### The data of a store (R271) -/

theorem mapM_ok {α β : Type} {f : α → Except Stop β} {g : α → β} {l : List α} (h : ∀ x ∈ l, f x = .ok (g x)) :
    l.mapM f = .ok (l.map g) := by
  induction l with
  | nil => rfl
  | cons x l ih =>
    rw [List.mapM_cons, h x List.mem_cons_self, ih (fun y hy => h y (List.mem_cons_of_mem x hy))]
    rfl

theorem storeData_ok {c : Cur} {o : MemOps} (h : RunOk c o.d o.w.regs) (hv : VaddrOk c o.va) (hd : DataOk c o) :
    c.storeData o = .ok ((runOf o.d o.w.regs).map c.vr) := by
  have hany : (runOf o.d o.w.regs).mapM c.needAny = .ok ((runOf o.d o.w.regs).map c.vr) :=
    mapM_ok (fun r hr => need_ok (hd r hr).1 rfl)
  simp only [Cur.storeData, memRegs_ok h hv, ok_bind, hany]
  by_cases ht : o.t = .raw
  · exact if_pos (beq_iff_eq.mpr ht)
  · refine (if_neg (fun hb => ht (beq_iff_eq.mp hb))).trans (mapM_ok (fun r hr => ?_))
    obtain ⟨hp, htag⟩ := hd r hr
    exact need_ok hp (beq_iff_eq.mpr (htag ht))

/-! ### The conditions that stop a load and a store -/

/-- A memory access that meets a condition. -/
theorem meets_mem {s : State} {c : Cur} {i : Instr} {op : SingOp} {fm : Form} {cf : Cf}
    {f : State → Cur → Except Stop (State × Cur)} {ev : State → Cur → SRes} {st : Stop} (hr : Ready s c 1 cf)
    (hi : exec i s = s.issueMem fm f op ev) (hn : fm.words = 1) (hcf : fm.cf = cf) (hf : f s c.openChunk = .error st)
    (hu : st ≠ .uncached) : Meets s c i (fm.lanes c) st := by
  have ha := attempt_error hr hn hcf hf
  rw [Meets, hi]
  simp only [State.issueMem, hr.focus, hr.may, if_true, State.performMem, ha]

theorem exec_ld (o : MemOps) (s : State) :
    exec (.ld o) s = s.issueMem (Form.lanesOf o.g o.cf) (ldChunk o) (.ld o) (ldEvent o) := rfl

theorem exec_st (o : MemOps) (s : State) :
    exec (.st o) s = s.issueMem (Form.lanesOf o.g o.cf) (stChunk o) (.st o) (stEvent o) := rfl

theorem ldChunk_stop {s : State} {c : Cur} {o : MemOps} {st : Stop} (hrun : RunOk c o.d o.w.regs) (hv : VaddrOk c o.va)
    (h : firstStop (laneResults c (c.guarded o.g c.em) (laneAcc s c o XReq.load true)) = .error st) :
    ldChunk o s c.openChunk = .error st := by
  simp only [ldChunk, openChunk_memRegs, memRegs_ok hrun hv, openChunk_ldLanes, ldLanes_eq hv, h]
  rfl

theorem stChunk_stop {s : State} {c : Cur} {o : MemOps} {st : Stop} (hrun : RunOk c o.d o.w.regs) (hv : VaddrOk c o.va)
    (hd : DataOk c o) (h : firstStop (laneResults c (c.enabled o.g) (laneAcc s c o XReq.store false)) = .error st) :
    stChunk o s c.openChunk = .error st := by
  simp only [stChunk, openChunk_storeData, storeData_ok hrun hv hd, openChunk_stLanes, stLanes_eq hv, h]
  rfl

theorem accessTraps_rule : Rules.AccessTraps := by
  refine ⟨fun s c q rd ea n esize hea => ⟨fun h => ?_, fun h ha => ?_⟩, ?_, ?_⟩
  · exact gAccess_addr s c q rd (gAddrOk_addr hea h)
  · exact gAccess_addr s c q rd (gAddrOk_misalign h ha)
  · intro s c o l cause ta te x _ hr hrun hv _ hl he hlow
    refine ⟨meetingLanes c (c.guarded o.g c.em) (laneAcc s c o XReq.load true) (isTrap cause), fun k hk => ?_, ?_⟩
    · rw [hasLane_meetingLanes _ hk, isTrap_iff]
    · exact meets_mem hr (exec_ld o s) rfl rfl (ldChunk_stop hrun hv (firstStop_trap hl he hlow)) (by simp)
  · intro s c o l pf _ hr hrun hv hd _ hl he hlow
    refine ⟨meetingLanes c (c.enabled o.g) (laneAcc s c o XReq.store false) (isPark pf), fun k hk => ?_, ?_⟩
    · rw [hasLane_meetingLanes _ hk, isPark_iff]
    · exact meets_mem hr (exec_st o s) rfl rfl (stChunk_stop hrun hv hd (firstStop_park hl he hlow)) (by simp)

end Sys2Proof.ContextProofs

/-!
SUPPORT. What singleton loads and stores make of the package, and the registers that a load writes (R192, R267).
-/

namespace Sys2Proof.ContextProofs

open Sys2Proof Sys2Proof.Machine Sys2Proof.Rules

/-! ## Singleton loads and stores (R192, R267) -/

/-- Only caches, of translations and of memory, have changed. -/
def Touched (s t : State) : Prop := ∃ a b x, t = { s with tlb := a, walks := b, caches := x }

theorem cached_useLeaves (s : State) (ctx : ℕ) (ls : List (ℕ × Leaf)) : Cached s (s.useLeaves ctx ls) := by
  refine foldl_related cached_refl Cached.trans (fun s x => ?_) ls s
  exact cached_fill s ctx x.1 x.2

theorem touched_of_cached {s t : State} (h : Cached s t) : Touched s t := by
  obtain ⟨a, b, h⟩ := h
  exact ⟨a, b, _, h⟩

theorem touched_recall {s t : State} (h : Cached s t) (ws : List ℕ) : Touched s (t.recall ws) := by
  obtain ⟨a, b, rfl⟩ := h
  exact ⟨a, b, _, rfl⟩

/-- What a singleton's event makes of the package: `cs` are the cells that it writes. -/
structure EventMade (s s' : State) (c d : Cur) (cs : List Host.Cell) (d' : Cur) : Prop where
  state  : ∃ e, EventState s s' c e ∧ Stays e d'
  regs   : d'.regs = d.regs
  memory : Stored s s' cs

theorem stored_touched {s t u : State} {cs : List Host.Cell} (h : Stored s t cs) (hu : Touched t u) : Stored s u cs := by
  obtain ⟨a, b, x, rfl⟩ := hu
  obtain ⟨wf, inside, alive, others, dead, poison⟩ := h
  exact ⟨wf, inside, alive, others, dead, poison⟩

theorem eventState_touched {s t u : State} {c e : Cur} (h : EventState s t c e) (hu : Touched t u) : EventState s u c e := by
  obtain ⟨a, b, x, rfl⟩ := hu
  obtain ⟨here, core, pends, others, m, p, d, ta, tb, k, tx, q, package⟩ := h
  refine ⟨here, core, pends, others, m, p, d, a, b, k, x, q, ?_⟩
  rw [package]

theorem stored_nothing {s : State} (h : s.memWf = true) : Stored s s [] := by
  refine ⟨wf_of_memWf h, fun x hx => ?_, fun x hx => ?_, fun _ _ => rfl, fun _ hw => hw, fun g => ?_⟩
  · simp [lastCells] at hx
  · simp at hx
  · have : ¬ Fills [] g := fun hf => by simpa using hf 0 (by omega)
    simp [this]

section
variable {s : State} {c d : Cur} {i : Instr} {op : SingOp} {fm : Form} {cf : Cf} {cs : List Host.Cell}
  {f : State → Cur → Except Stop (State × Cur)} {ev : State → Cur → SRes}

/-- An event that reads memory and writes registers alone. -/
theorem eventMade_read {s' : State} {d' : Cur} (hr : Ready s c 1 cf) (hq : Quiet s c) (hs : Touched s s') (hw : c.Wrote d')
    (hd : d'.regs = d.regs) : EventMade s s' c d [] d' := by
  have hst : EventState s s c c := eventState_of ⟨_, _, _, _, rfl⟩ hr.curOf
  exact ⟨⟨c, eventState_touched hst hs, stays_of_wrote hw⟩, hd, stored_touched (stored_nothing hq.1) hs⟩

/-- An event that writes cells alone. -/
theorem eventMade_write {s' : State} (hr : Ready s c 1 cf) (ha : Alone c) (hq : Quiet s c)
    (hs : Touched (s.writeCells (some c.ref) cs) s') :
    EventMade s s' c c cs ((s.writeCells (some c.ref) cs).fresh c) := by
  obtain ⟨e, he, hregs⟩ := eventState_writeCells hr.curOf ha hq hr.state.2.1 cs
  have hfresh : (s.writeCells (some c.ref) cs).fresh c = e := by rw [State.fresh, he.here]; rfl
  rw [hfresh]
  exact ⟨⟨e, eventState_touched he hs, stays_of_wrote (Cur.Wrote.refl e)⟩, hregs,
    stored_touched (stored_writeCells (wf_of_memWf hq.1) _ cs) hs⟩

/-- An access that the open chunk cannot hold and whose event has been evaluated is a singleton. -/
theorem asSingleton_of (hr : Ready s c 1 cf) (hi : exec i s = s.issueMem fm f op ev) (hn : fm.words = 1) (hcf : fm.cf = cf)
    (hf : f s c.openChunk = .error .uncached)
    (hev : Alone c → Quiet s c → ∃ s' d', ev s c = .done s' d' ∧ EventMade s s' c d cs d') :
    AsSingleton s c i op d (lastCells cs) := by
  refine ⟨defers_of hr hi hn hcf hf, fun ha hq => ?_⟩
  obtain ⟨s', d', hdone, ⟨e, he, hst⟩, hregs, hmem⟩ := hev ha hq
  have hp : d'.t.pends = [] := by rw [hst.t]; exact he.pends.trans hr.calm
  refine ⟨_, _, (exec_event hr hi hn hcf hf ha).trans (congrArg _ (event1_done hdone hn hp)),
    single_afterEvent he hst hregs, fun x hx => hmem.read (u := afterEvent s s' c.ref fm d') rfl rfl hx, ?_⟩
  have hout : SameOutside s (afterEvent s s' c.ref fm d') (fun pa => pa ∈ cs.map (·.1)) := hmem.sameOutside rfl rfl
  exact fun pa hpa => hout pa (fun hx => hpa ((lastCells_addrs cs pa).mpr hx))

end

/-! ### The values of lanes -/

theorem mem_okLanes {rs : List LaneLoad} {x : ℕ × ℕ × Leaf} : x ∈ okLanes rs ↔ (x.1, x.2.1, Except.ok x.2.2) ∈ rs := by
  simp only [okLanes, List.mem_filterMap]
  constructor
  · rintro ⟨⟨l, a, r⟩, hm, hx⟩
    cases r with
    | ok lf =>
      obtain rfl := Option.some.inj hx
      exact hm
    | error e => exact absurd hx (by simp)
  · exact fun hm => ⟨_, hm, rfl⟩

/-- The value that a lane takes of its leaf; zero where it reaches none. -/
def leafValue (v : Leaf → ℕ) : Except Stop Leaf → ℕ
  | .ok lf => v lf
  | .error _ => 0

section
variable {s : State} {c : Cur} {o : MemOps} {q : XReq} {rd : Bool} {m : Mask}

theorem mem_okLanes_lanes {x : ℕ × ℕ × Leaf} : x ∈ okLanes ((c.lanes m).map (laneLoad s c o q rd)) ↔
    inLanes c m x.1 ∧ x.2.1 = laneEa c o x.1 ∧ laneAcc s c o q rd x.1 = .ok x.2.2 := by
  obtain ⟨l, a, lf⟩ := x
  simp only [mem_okLanes, List.mem_map, mem_lanes_iff, laneLoad, Prod.mk.injEq]
  constructor
  · rintro ⟨k, hk, rfl, rfl, h⟩
    exact ⟨hk, rfl, h⟩
  · rintro ⟨hl, rfl, h⟩
    exact ⟨l, hl, rfl, rfl, h⟩

theorem okLanes_value (v : Leaf → ℕ) {l : ℕ} (hl : inLanes c m l) :
    ((((okLanes ((c.lanes m).map (laneLoad s c o q rd))).map (fun x => (x.1, v x.2.2))).find? (fun y => y.1 == l)).map
      (·.2)).getD 0 = leafValue v (laneAcc s c o q rd l) := by
  cases h : ((okLanes ((c.lanes m).map (laneLoad s c o q rd))).map (fun x => (x.1, v x.2.2))).find? (fun y => y.1 == l) with
  | none =>
    cases ha : laneAcc s c o q rd l with
    | error e => rfl
    | ok lf =>
      have hm : (l, laneEa c o l, lf) ∈ okLanes ((c.lanes m).map (laneLoad s c o q rd)) := mem_okLanes_lanes.mpr ⟨hl, rfl, ha⟩
      have := List.find?_eq_none.mp h _ (List.mem_map_of_mem hm)
      simp at this
  | some y =>
    obtain ⟨x, hx, rfl⟩ := List.mem_map.mp (List.mem_of_find?_eq_some h)
    obtain ⟨-, -, ha⟩ := mem_okLanes_lanes.mp hx
    obtain rfl : x.1 = l := by simpa using List.find?_some h
    rw [ha]
    rfl

/-- A lane at a page that is not WB keeps the access out of the chunk. -/
theorem okLanes_not_wb {l : ℕ} {lf : Leaf} (hl : inLanes c m l) (ha : laneAcc s c o q rd l = .ok lf) (hp : lf.pol ≠ 0) :
    (okLanes ((c.lanes m).map (laneLoad s c o q rd))).all (fun x => x.2.2.wb) = false := by
  rw [List.all_eq_false]
  exact ⟨(l, laneEa c o l, lf), mem_okLanes_lanes.mpr ⟨hl, rfl, ha⟩, by simpa [Leaf.wb] using hp⟩

end

/-! ### What a load writes to registers -/

theorem write_congr {old : VecReg} {w : ℕ} {m : Mask} {f g : ℕ → W32} (t : Tag)
    (h : ∀ l, l < w → hasLane m l = true → f l = g l) : old.write w m f t = old.write w m g t := by
  refine congrArg (fun x => VecReg.mk t x) (List.map_congr_left (fun l hl => ?_))
  by_cases hm : hasLane m l = true
  · rw [if_pos hm, if_pos hm, h l (List.mem_range.mp hl) hm]
  · rw [if_neg hm, if_neg hm]

theorem width_of_wrote {c d : Cur} (h : c.Wrote d) : d.width = c.width := by
  rw [Cur.width, h.warp]
  rfl

/-- Register `i` of a run written. -/
def runStep (rs : List VReg) (m : Mask) (t : Tag) (f : ℕ → ℕ → W32) (c : Cur) (i : ℕ) : Cur :=
  match rs[i]? with
  | some r => c.setV r m (fun l => f l i) t
  | none => c

theorem writeRun_eq (c : Cur) (rs : List VReg) (m : Mask) (t : Tag) (f : ℕ → ℕ → W32) :
    c.writeRun rs m t f = (List.range rs.length).foldl (runStep rs m t f) c := rfl

theorem wrote_runStep (rs : List VReg) (m : Mask) (t : Tag) (f : ℕ → ℕ → W32) (c : Cur) (i : ℕ) :
    c.Wrote (runStep rs m t f c i) := by
  unfold runStep
  split
  · exact wrote_setV _ _ _ _ _
  · exact Cur.Wrote.refl c

theorem wrote_runSteps (rs : List VReg) (m : Mask) (t : Tag) (f : ℕ → ℕ → W32) (is : List ℕ) (c : Cur) :
    c.Wrote (is.foldl (runStep rs m t f) c) := by
  induction is generalizing c with
  | nil => exact Cur.Wrote.refl c
  | cons i is ih => exact (wrote_runStep rs m t f c i).trans (ih _)

theorem runSteps_congr {rs : List VReg} {m : Mask} (t : Tag) {f g : ℕ → ℕ → W32} {is : List ℕ} {c : Cur}
    (h : ∀ l, inLanes c m l → ∀ i ∈ is, f l i = g l i) :
    is.foldl (runStep rs m t f) c = is.foldl (runStep rs m t g) c := by
  induction is generalizing c with
  | nil => rfl
  | cons i is ih =>
    have hstep : runStep rs m t f c i = runStep rs m t g c i := by
      unfold runStep
      split
      · exact congrArg (c.putV _) (write_congr t (fun l hl hm => h l ⟨hl, hm⟩ i List.mem_cons_self))
      · rfl
    have hw := width_of_wrote (wrote_runStep rs m t g c i)
    rw [List.foldl_cons, List.foldl_cons, hstep]
    refine ih (fun l hl j hj => h l ⟨?_, hl.2⟩ j (List.mem_cons_of_mem i hj))
    rw [← hw]
    exact hl.1

theorem writeRun_congr {c : Cur} {rs : List VReg} {m : Mask} (t : Tag) {f g : ℕ → ℕ → W32}
    (h : ∀ l, inLanes c m l → ∀ i, i < rs.length → f l i = g l i) : c.writeRun rs m t f = c.writeRun rs m t g :=
  runSteps_congr t (fun l hl i hi => h l hl i (List.mem_range.mp hi))

theorem ofInt_toSigned {n k : ℕ} (x : ℕ) : BitVec.ofInt k (toSigned n x) = (BitVec.ofNat n x).signExtend k := by
  rw [BitVec.signExtend, BitVec.toInt_eq_toNat_cond, BitVec.toNat_ofNat]
  rfl

theorem ofNat_div_eq_extract {x i : ℕ} (h : i < 4) :
    BitVec.ofNat 32 (x / 2 ^ (32 * i)) = (BitVec.ofNat 128 x).extractLsb' (32 * i) 32 := by
  apply BitVec.eq_of_toNat_eq
  rw [BitVec.extractLsb'_toNat, BitVec.toNat_ofNat, BitVec.toNat_ofNat, Nat.shiftRight_eq_div_pow]
  have h128 : (2 : ℕ) ^ 128 = 2 ^ (32 * i) * 2 ^ (128 - 32 * i) := by rw [← Nat.pow_add]; congr 1; omega
  have hdvd : (2 : ℕ) ^ 32 ∣ 2 ^ (128 - 32 * i) := Nat.pow_dvd_pow 2 (by omega)
  rw [h128, Nat.mod_mul_right_div_self, Nat.mod_mod_of_dvd _ hdvd]

/-- Table 14.2, as the model and as the rule write it. -/
theorem loadWord_eq (w : MWidth) (x : ℕ) {i : ℕ} (h : i < 4) : loadWord w x i = loadedWord w x i := by
  cases w with
  | i8 => exact ofInt_toSigned (n := 8) (k := 32) x
  | i16 => exact ofInt_toSigned (n := 16) (k := 32) x
  | u8 | u16 | b32 | b64 | b128 => exact ofNat_div_eq_extract h

theorem length_runOf_le (d : VReg) (w : MWidth) : (runOf d w.regs).length ≤ 4 := by
  refine (List.length_filterMap_le _ _).trans ?_
  rw [List.length_range]
  cases w <;> decide

theorem ldWrite_eq {s : State} {c : Cur} {o : MemOps} (v : Leaf → ℕ) :
    c.ldWrite o (runOf o.d o.w.regs)
      ((okLanes ((c.lanes (c.enabledH o.g)).map (laneLoad s c o XReq.load true))).map (fun x => (x.1, v x.2.2))) =
    loadInto c o (fun l => leafValue v (laneAcc s c o XReq.load true l)) := by
  refine writeRun_congr o.t (fun l hl i hi => ?_)
  rw [okLanes_value v hl]
  exact loadWord_eq _ _ (hi.trans_le (length_runOf_le o.d o.w))

end Sys2Proof.ContextProofs

/-!
PROOFS. The context (05): LD and ST as singletons (O26).
-/

namespace Sys2Proof.ContextProofs

open Sys2Proof Sys2Proof.Machine Sys2Proof.Rules

section
variable {s : State} {c : Cur} {o : MemOps}

/-! ### LD -/

theorem ldLanes_ok (hv : VaddrOk c o.va)
    (h : ∀ l, inLanes c (c.enabledH o.g) l → hasLane c.em l = true → (laneAcc s c o XReq.load true l).isOk = true) :
    s.ldLanes c o = .ok ((c.lanes (c.enabledH o.g)).map (laneLoad s c o XReq.load true)) := by
  have hg : ∀ l, inLanes c (c.guarded o.g c.em) l → (laneAcc s c o XReq.load true l).isOk = true := by
    rintro l ⟨hl, hm⟩
    rw [← hasLane_guarded_em, Bool.and_eq_true] at hm
    exact h l ⟨hl, hm.1⟩ hm.2
  rw [ldLanes_eq hv, firstStop_ok hg]
  rfl

theorem ld_singleton (hr : Ready s c 1 o.cf) (hrun : RunOk c o.d o.w.regs) (hv : VaddrOk c o.va)
    (h : ∀ l, inLanes c (c.enabledH o.g) l → hasLane c.em l = true → (laneAcc s c o XReq.load true l).isOk = true)
    {l : ℕ} {lf : Leaf} (hl : inLanes c (c.enabledH o.g) l) (ha : laneAcc s c o XReq.load true l = .ok lf) (hp : lf.pol ≠ 0) :
    AsSingleton s c (.ld o) (.ld o)
      (loadInto c o (fun l => leafValue (fun lf => s.rdNat lf.pa o.w.bytes) (laneAcc s c o XReq.load true l))) [] := by
  refine asSingleton_of (cs := []) hr (exec_ld o s) rfl rfl ?_ (fun _ hq => ?_)
  · simp only [ldChunk, openChunk_memRegs, memRegs_ok hrun hv, openChunk_ldLanes, ldLanes_ok hv h, ok_bind, okLanes_not_wb hl ha hp]
    rfl
  · simp only [ldEvent, memRegs_ok hrun hv, ldLanes_ok hv h]
    exact ⟨_, _, rfl, eventMade_read hr hq (touched_recall (cached_useLeaves s c.ctx _) _) (wrote_runSteps _ _ _ _ _ c)
      (congrArg Cur.regs (ldWrite_eq (fun lf => s.rdNat lf.pa o.w.bytes)))⟩

/-! ### ST -/

theorem stLanes_ok (hv : VaddrOk c o.va)
    (h : ∀ l, inLanes c (c.enabled o.g) l → (laneAcc s c o XReq.store false l).isOk = true) :
    s.stLanes c o = .ok (okLanes ((c.lanes (c.enabled o.g)).map (laneLoad s c o XReq.store false))) := by
  rw [stLanes_eq hv, firstStop_ok h]
  rfl

theorem runOf_eq {d : VReg} {n : ℕ} (h : RunOk c d n) : runOf d n = (List.range n).map (regAt d) := by
  rw [runOf, List.filterMap_eq_map_iff_forall_eq_some]
  intro k hk
  obtain ⟨r, hr, -⟩ := h k (List.mem_range.mp hk)
  rw [regAt, hr]
  rfl

/-- The bytes that a lane stores, as the model and as the rule write them. -/
theorem storeLane_eq (h : RunOk c o.d o.w.regs) (l : ℕ) : storeLane o.w ((runOf o.d o.w.regs).map c.vr) l = laneBytes c o l := by
  rw [storeLane, laneBytes, runOf_eq h]
  cases o.w <;> simp [MWidth.regs, MWidth.bytes, storeBytes, List.range_succ, bytesOf, lane]

/-- The bytes of the lanes that reach a leaf. -/
def leafCells (g : Leaf → List Host.Cell) : Except Stop Leaf → List Host.Cell
  | .ok lf => g lf
  | .error _ => []

theorem okLanes_flatMap (g : ℕ → Leaf → List Host.Cell) (q : XReq) (rd : Bool) (ls : List ℕ) :
    (okLanes (ls.map (laneLoad s c o q rd))).flatMap (fun x => g x.1 x.2.2) =
      ls.flatMap (fun l => leafCells (g l) (laneAcc s c o q rd l)) := by
  induction ls with
  | nil => rfl
  | cons l ls ih =>
    rw [List.flatMap_cons, ← ih]
    simp only [okLanes, List.map_cons, laneLoad]
    cases laneAcc s c o q rd l with
    | ok lf => rfl
    | error e => rfl

theorem st_singleton (hr : Ready s c 1 o.cf) (hrun : RunOk c o.d o.w.regs) (hv : VaddrOk c o.va) (hd : DataOk c o)
    (h : ∀ l, inLanes c (c.enabled o.g) l → (laneAcc s c o XReq.store false l).isOk = true)
    {l : ℕ} {lf : Leaf} (hl : inLanes c (c.enabled o.g) l) (ha : laneAcc s c o XReq.store false l = .ok lf) (hp : lf.pol ≠ 0) :
    AsSingleton s c (.st o) (.st o) c (stCells s c o) := by
  have hcells := okLanes_flatMap (s := s) (c := c) (o := o) (fun l lf => cellsAt lf.pa (laneBytes c o l)) XReq.store false
    (c.lanes (c.enabled o.g))
  refine asSingleton_of hr (exec_st o s) rfl rfl ?_ (fun ha hq => ?_)
  · simp only [stChunk, openChunk_storeData, storeData_ok hrun hv hd, openChunk_stLanes, stLanes_ok hv h, ok_bind,
      okLanes_not_wb hl ha hp]
    rfl
  · simp only [stEvent, storeData_ok hrun hv hd, stLanes_ok hv h, storeLane_eq hrun, hcells, writeSing_eq hr.curOf ha hq]
    exact ⟨_, _, rfl, eventMade_write hr ha hq (touched_of_cached (cached_useLeaves _ c.ctx _))⟩

end

end Sys2Proof.ContextProofs

/-!
PROOFS. The context (05): SLD, SST, PREF and DISCARD as singletons (O26).
-/

namespace Sys2Proof.ContextProofs

open Sys2Proof Sys2Proof.Machine Sys2Proof.Rules

/-! ### SLD and SST -/

section
variable {s : State} {c : Cur} {o : SMemOps} {lf : Leaf}

theorem sea_eq (c : Cur) (o : SMemOps) : c.sea o = eaOf c o.base none o.off o.w.bytes 0 := ea_eq c o.base none o.off o.w.bytes 0

theorem exec_sld (o : SMemOps) (s : State) :
    exec (.sld o) s = s.issueMem (Form.strandCf o.cf) (sldChunk o) (.sld o) (sldEvent o) := rfl

theorem exec_sst (o : SMemOps) (s : State) :
    exec (.sst o) s = s.issueMem (Form.strandCf o.cf) (sstChunk o) (.sst o) (sstEvent o) := rfl

theorem not_wb {lf : Leaf} (h : lf.pol ≠ 0) : lf.wb = false := by simpa [Leaf.wb] using h

theorem sld_singleton (hr : Ready s c 1 o.cf) (hp : lf.pol ≠ 0)
    (ha : s.gAccess c XReq.load true (eaOf c o.base none o.off o.w.bytes 0) o.w.bytes o.w.bytes = .ok lf) :
    AsSingleton s c (.sld o) (.sld o) (c.setS o.r (sldValue o.w (s.rdNat lf.pa o.w.bytes))) [] := by
  rw [← sea_eq] at ha
  refine asSingleton_of (cs := []) hr (exec_sld o s) rfl rfl ?_ (fun _ hq => ?_)
  · simp only [sldChunk, openChunk_sea, openChunk_gAccess, ha, ok_bind, not_wb hp]
    rfl
  · simp only [sldEvent, ha]
    exact ⟨_, _, rfl, eventMade_read hr hq (touched_recall (cached_fill s c.ctx _ lf) _) (wrote_setS c _ _) rfl⟩

theorem sst_singleton (hr : Ready s c 1 o.cf) (hp : lf.pol ≠ 0)
    (ha : s.gAccess c XReq.store false (eaOf c o.base none o.off o.w.bytes 0) o.w.bytes o.w.bytes = .ok lf) :
    AsSingleton s c (.sst o) (.sst o) c (cellsAt lf.pa (bytesOf o.w.bytes (c.sr o.r).toNat)) := by
  rw [← sea_eq] at ha
  rw [← lastCells_of_nodup (nodup_cellsAt lf.pa _)]
  refine asSingleton_of hr (exec_sst o s) rfl rfl ?_ (fun halone hq => ?_)
  · simp only [sstChunk, openChunk_sea, openChunk_gAccess, ha, ok_bind, not_wb hp]
    rfl
  · simp only [sstEvent, ha, writeSing_eq hr.curOf halone hq]
    exact ⟨_, _, rfl, eventMade_write hr halone hq (touched_of_cached (cached_fill _ c.ctx _ lf))⟩

end

/-- The scalar that SLD loads (Table 14.2), as the rule writes it. -/
def loadedScalar (w : MWidth) (x : ℕ) : W64 :=
  match w with
  | .i8 => (BitVec.ofNat 8 x).signExtend 64
  | .i16 => (BitVec.ofNat 16 x).signExtend 64
  | _ => BitVec.ofNat 64 x

theorem sldValue_eq (w : MWidth) (x : ℕ) : sldValue w x = loadedScalar w x := by
  cases w with
  | i8 => exact ofInt_toSigned (n := 8) (k := 64) x
  | i16 => exact ofInt_toSigned (n := 16) (k := 64) x
  | u8 | u16 | b32 | b64 | b128 => rfl

/-! ### PREF -/

section
variable {s : State} {c : Cur} {o : SpanOps}

theorem exec_pref (o : SpanOps) (s : State) :
    exec (.pref o) s = s.issueMem (Form.lanesOf o.g .none) (prefChunk o) (.pref o) (prefEvent o) := rfl

theorem exec_discard (o : SpanOps) (s : State) :
    exec (.discard o) s = s.issueMem (Form.lanesOf o.g .none) (discChunk o) (.discard o) (discEvent o) := rfl

/-- The span of a lane is aligned, in the address space, and within a line. -/
def SoundSpan (c : Cur) (o : SpanOps) (l : ℕ) : Prop :=
  spanEa c o l % 4 = 0 ∧ spanEa c o l < 2 ^ 57 ∧ spanEa c o l % 128 / 4 + (o.n1.val + 1) ≤ 32

/-- The page that a lane of PREF reaches. -/
def prefAcc (s : State) (c : Cur) (o : SpanOps) (l : ℕ) : Except Stop Leaf := do
  gAddrOk (spanEa c o l) 4
  ensure (spanInLine (spanEa c o l) (o.n1.val + 1)) .uncached
  match s.translate c.ctx (spanEa c o l) XReq.load with
  | .error e => .error (e.stop (spanEa c o l) .read)
  | .ok lf => .ok lf

/-- The page that a lane of DISCARD reaches. -/
def discAcc (s : State) (c : Cur) (o : SpanOps) (l : ℕ) : Except Stop Leaf := do
  gAddrOk (spanEa c o l) 4
  ensure (spanInLine (spanEa c o l) (o.n1.val + 1)) (.trap .misalign (spanEa c o l) (4 * (o.n1.val + 1)) none)
  match s.translate c.ctx (spanEa c o l) XReq.store with
  | .error e => .error (e.stop (spanEa c o l) .write)
  | .ok lf => if lf.pol == 2 then .error (.trap .perm (spanEa c o l) 1 none) else .ok lf

theorem spanInLine_of {l : ℕ} (h : SoundSpan c o l) : spanInLine (spanEa c o l) (o.n1.val + 1) = true := decide_eq_true h.2.2

theorem prefAcc_ok {l : ℕ} {lf : Leaf} (h : SoundSpan c o l) (ht : s.translate c.ctx (spanEa c o l) XReq.load = .ok lf) :
    prefAcc s c o l = .ok lf := by
  simp only [prefAcc, gAddrOk_ok h.2.1 h.1, spanInLine_of h, ht]
  rfl

theorem discAcc_ok {l : ℕ} {lf : Leaf} (h : SoundSpan c o l) (ht : s.translate c.ctx (spanEa c o l) XReq.store = .ok lf)
    (hp : lf.pol ≠ 2) : discAcc s c o l = .ok lf := by
  simp only [discAcc, gAddrOk_ok h.2.1 h.1, spanInLine_of h, ht]
  exact if_neg (by simpa using hp)

/-- The lanes of a span instruction, each with its access. -/
def spanLanes (c : Cur) (o : SpanOps) (acc : ℕ → Except Stop Leaf) : List LaneLoad :=
  (c.lanes (c.enabled o.g)).map (fun l => (l, spanEa c o l, acc l))

theorem prefLanes_eq (hv : VaddrOk c o.va) : s.prefLanes c o = .ok (okLanes (spanLanes c o (prefAcc s c o))) := by
  simp only [State.prefLanes, needRegs_ok hv, xoff_ok hv, ok_bind, ea_eq]
  rfl

theorem discLanes_eq (hv : VaddrOk c o.va)
    (h : ∀ l, inLanes c (c.enabled o.g) l → (discAcc s c o l).isOk = true) :
    s.discLanes c o = .ok (okLanes (spanLanes c o (discAcc s c o))) := by
  have hfirst : firstStop ((spanLanes c o (discAcc s c o)).map (fun r => (r.1, r.2.2))) = .ok () := by
    rw [spanLanes, List.map_map]
    exact firstStop_ok h
  simp only [State.discLanes, needRegs_ok hv, xoff_ok hv, ok_bind, ea_eq]
  exact (congrArg (fun y => y >>= fun _ => Except.ok (okLanes (spanLanes c o (discAcc s c o)))) hfirst)

theorem mem_spanLanes {acc : ℕ → Except Stop Leaf} {x : ℕ × ℕ × Leaf} : x ∈ okLanes (spanLanes c o acc) ↔
    inLanes c (c.enabled o.g) x.1 ∧ x.2.1 = spanEa c o x.1 ∧ acc x.1 = .ok x.2.2 := by
  obtain ⟨l, a, lf⟩ := x
  simp only [mem_okLanes, spanLanes, List.mem_map, mem_lanes_iff, Prod.mk.injEq]
  constructor
  · rintro ⟨k, hk, rfl, rfl, h⟩
    exact ⟨hk, rfl, h⟩
  · rintro ⟨hl, rfl, h⟩
    exact ⟨l, hl, rfl, rfl, h⟩

theorem spanLanes_not_wb {acc : ℕ → Except Stop Leaf} {l : ℕ} {lf : Leaf} (hl : inLanes c (c.enabled o.g) l)
    (ha : acc l = .ok lf) (hp : lf.pol ≠ 0) : (okLanes (spanLanes c o acc)).all (fun x => x.2.2.wb) = false := by
  rw [List.all_eq_false]
  exact ⟨(l, spanEa c o l, lf), mem_spanLanes.mpr ⟨hl, rfl, ha⟩, by rw [not_wb hp]; decide⟩

theorem openChunk_prefLanes (s : State) (c : Cur) (o : SpanOps) : s.prefLanes c.openChunk o = s.prefLanes c o := by
  simp only [State.prefLanes, openChunk_needRegs, openChunk_xoff, openChunk_lanes, openChunk_enabled, openChunk_ea, ctx_openChunk]

theorem openChunk_discLanes (s : State) (c : Cur) (o : SpanOps) : s.discLanes c.openChunk o = s.discLanes c o := by
  simp only [State.discLanes, openChunk_needRegs, openChunk_xoff, openChunk_lanes, openChunk_enabled, openChunk_ea, ctx_openChunk]

theorem pref_singleton (hr : Ready s c 1 .none) (hv : VaddrOk c o.va) {l : ℕ} {lf : Leaf} (hl : inLanes c (c.enabled o.g) l)
    (hs : SoundSpan c o l) (ht : s.translate c.ctx (spanEa c o l) XReq.load = .ok lf) (hp : lf.pol ≠ 0) :
    AsSingleton s c (.pref o) (.pref o) c [] := by
  refine asSingleton_of (cs := []) hr (exec_pref o s) rfl rfl ?_ (fun _ hq => ?_)
  · simp only [prefChunk, openChunk_prefLanes, prefLanes_eq hv, ok_bind, spanLanes_not_wb hl (prefAcc_ok hs ht) hp]
    rfl
  · simp only [prefEvent, prefLanes_eq hv]
    exact ⟨_, _, rfl, eventMade_read hr hq (touched_of_cached (cached_refl s)) (Cur.Wrote.refl c) rfl⟩

/-! ### DISCARD -/

/-- A page maps words to words. -/
theorem leafPa_aligned (pte lvl va : ℕ) : leafPa pte lvl va % 4 = va % 4 := by
  have hd : 4 ∣ leafBytes lvl := Nat.pow_dvd_pow 2 (show 2 ≤ _ by omega)
  have h0 : 4096 * field pte 51 12 / leafBytes lvl * leafBytes lvl % 4 = 0 := Nat.mod_eq_zero_of_dvd (hd.mul_left _)
  rw [leafPa, Nat.add_mod, h0, Nat.mod_mod_of_dvd _ hd, Nat.zero_add, Nat.mod_mod]

theorem ok_of_ite {ε α : Type} {p : Prop} [Decidable p] {e : ε} {r : Except ε α} {x : α}
    (h : (if p then .error e else r) = Except.ok x) : r = .ok x := by
  split at h
  · exact absurd h (by simp)
  · exact h

theorem leafCheck_pa {s : State} {va pte lvl : ℕ} {q : XReq} {lf : Leaf} (h : s.leafCheck va q pte lvl = .ok lf) :
    lf.pa = leafPa pte lvl va := by
  have hleaf := ok_of_ite (ok_of_ite (ok_of_ite (ok_of_ite (ok_of_ite (ok_of_ite (ok_of_ite h))))))
  rw [← Except.ok.inj hleaf]

theorem translate_aligned {s : State} {ctx va : ℕ} {q : XReq} {lf : Leaf} (h : s.translate ctx va q = .ok lf) :
    lf.pa % 4 = va % 4 := by
  unfold State.translate at h
  split at h
  next pte lvl _ => rw [leafCheck_pa (ok_of_ite h), leafPa_aligned]
  · exact absurd h (by simp)

theorem mem_wordsOf {a n w : ℕ} (hn : 0 < n) : w ∈ wordsOf a n ↔ a / 4 ≤ w ∧ w ≤ (a + n - 1) / 4 := by
  rw [wordsOf, if_neg (by omega), List.mem_map]
  constructor
  · rintro ⟨k, hk, rfl⟩
    have := List.mem_range.mp hk
    omega
  · rintro ⟨h1, h2⟩
    exact ⟨w - a / 4, List.mem_range.mpr (by omega), by omega⟩

theorem mem_addAll {l xs : List ℕ} {y : ℕ} : y ∈ addAll l xs ↔ y ∈ l ∨ y ∈ xs := by
  induction xs generalizing l with
  | nil => simp [addAll]
  | cons x xs ih =>
    refine (ih (l := addNew l x)).trans ?_
    rw [mem_addNew_iff, List.mem_cons, or_assoc]

/-- The bytes of the spans. -/
def InSpan (s : State) (c : Cur) (o : SpanOps) (pa : ℕ) : Prop :=
  ∃ l lf, inLanes c (c.enabled o.g) l ∧ s.translate c.ctx (spanEa c o l) XReq.store = .ok lf ∧
    lf.pa ≤ pa ∧ pa < lf.pa + 4 * (o.n1.val + 1)

/-- Every lane of DISCARD has a span that may be discarded. -/
def Discards (s : State) (c : Cur) (o : SpanOps) : Prop :=
  ∀ l, inLanes c (c.enabled o.g) l → SoundSpan c o l ∧
    ∃ lf, s.translate c.ctx (spanEa c o l) XReq.store = .ok lf ∧ lf.pol ≠ 2

/-- The words of the spans that the lanes of DISCARD reach. -/
def discWords (s : State) (c : Cur) (o : SpanOps) : List ℕ := spanWords (o.n1.val + 1) (okLanes (spanLanes c o (discAcc s c o)))

theorem mem_discWords (h : Discards s c o) (pa : ℕ) : pa / 4 ∈ discWords s c o ↔ InSpan s c o pa := by
  simp only [discWords, spanWords, List.mem_flatMap, mem_spanLanes, mem_wordsOf (show 0 < 4 * (o.n1.val + 1) by omega)]
  constructor
  · rintro ⟨⟨l, a, lf⟩, ⟨hl, -, ha⟩, h1, h2⟩
    obtain ⟨hs, lf', ht, hp⟩ := h l hl
    obtain rfl := Except.ok.inj (ha.symm.trans (discAcc_ok hs ht hp))
    have halign : lf.pa % 4 = 0 := (translate_aligned ht).trans hs.1
    exact ⟨l, lf, hl, ht, by dsimp only at h1; omega, by dsimp only at h2; omega⟩
  · rintro ⟨l, lf, hl, ht, h1, h2⟩
    obtain ⟨hs, lf', ht', hp⟩ := h l hl
    obtain rfl := Except.ok.inj (ht.symm.trans ht')
    exact ⟨(l, spanEa c o l, lf), ⟨hl, rfl, discAcc_ok hs ht hp⟩, Nat.div_le_div_right h1,
      Nat.div_le_div_right (by dsimp only; omega)⟩

theorem discAcc_isOk (h : Discards s c o) (l : ℕ) (hl : inLanes c (c.enabled o.g) l) : (discAcc s c o l).isOk = true := by
  obtain ⟨hs, lf, ht, hp⟩ := h l hl
  rw [discAcc_ok hs ht hp]
  rfl

/-- A write signature of no crew memory meets nothing where no chunk is under way, and dead words are all that remains. -/
theorem discEvent_done (hr : Ready s c 1 .none) (hv : VaddrOk c o.va) (h : Discards s c o) (ha : Alone c) (hq : Quiet s c) :
    ∃ s', discEvent o s c = .done s' c ∧ Touched { s with dead := addAll s.dead (discWords s c o) } s' := by
  have hnone := noneActive_of hr.curOf ha hq
  have hdead : NoneActive ((s.recall (discWords s c o)).kill (discWords s c o)) := hnone
  have hfresh : ((s.recall (discWords s c o)).kill (discWords s c o)).fresh c = c := by
    have hcur : ((s.recall (discWords s c o)).kill (discWords s c o)).curOf c.ref = some c := hr.curOf
    rw [State.fresh, hcur]
    rfl
  obtain ⟨a, b, hcached⟩ := cached_useLeaves ((s.recall (discWords s c o)).kill (discWords s c o)) c.ctx
    ((okLanes (spanLanes c o (discAcc s c o))).map (fun x => (x.2.1, x.2.2)))
  refine ⟨_, ?_, a, b, s.caches.recall (discWords s c o), hcached⟩
  simp only [discEvent, discLanes_eq hv (discAcc_isOk h), pinBlocks_calm hnone]
  refine (congrArg (fun u : State => SRes.done (u.useLeaves c.ctx ((okLanes (spanLanes c o (discAcc s c o))).map
    (fun x => (x.2.1, x.2.2)))) (u.fresh c)) (conflict_calm hdead _)).trans ?_
  exact congrArg _ hfresh

theorem discChunk_uncached (hv : VaddrOk c o.va) (h : Discards s c o) {l : ℕ} {lf : Leaf} (hl : inLanes c (c.enabled o.g) l)
    (ht : s.translate c.ctx (spanEa c o l) XReq.store = .ok lf) (hp : lf.pol = 1) :
    discChunk o s c.openChunk = .error .uncached := by
  have ha : discAcc s c o l = .ok lf := discAcc_ok (h l hl).1 ht (by rw [hp]; decide)
  have hwb := spanLanes_not_wb hl ha (by rw [hp]; decide)
  simp only [discChunk, openChunk_discLanes, discLanes_eq hv (discAcc_isOk h), ok_bind, hwb]
  rfl

theorem rdByte_notDead {s t : State} {pa : ℕ} (hm : t.mem = s.mem) (hs : pa / 4 ∉ s.dead) (ht : pa / 4 ∉ t.dead) :
    t.rdByte pa = s.rdByte pa := by
  rw [rdByte_alive ht, rdByte_alive hs, hm]

theorem discard_event (hr : Ready s c 1 .none) (hv : VaddrOk c o.va) (h : Discards s c o) {l : ℕ} {lf : Leaf}
    (hl : inLanes c (c.enabled o.g) l) (ht : s.translate c.ctx (spanEa c o l) XReq.store = .ok lf) (hp : lf.pol = 1)
    (ha : Alone c) (hq : Quiet s c) : ∃ t e, exec (.discard o) s = .next t ∧ Single s t c e c ∧ t.mem = s.mem ∧
      SameOutside s t (InSpan s c o) ∧ ∀ pa, InSpan s c o pa → t.dead.contains (pa / 4) = true := by
  obtain ⟨s', hdone, a, b, x, hs'⟩ := discEvent_done hr hv h ha hq
  have hstate : EventState s s' c c := eventState_of ⟨a, b, x, _, hs'⟩ hr.curOf
  have hmem : s'.mem = s.mem := by rw [hs']
  have hdead : s'.dead = addAll s.dead (discWords s c o) := by rw [hs']
  have hexec := exec_event hr (exec_discard o s) rfl rfl (discChunk_uncached hv h hl ht hp) ha
  refine ⟨_, _, hexec.trans (congrArg _ (event1_done hdone rfl hr.calm)),
    single_afterEvent hstate (stays_of_wrote (Cur.Wrote.refl c)) rfl, hmem, fun pa hpa hd => ?_, fun pa hpa => ?_⟩
  · have hs : pa / 4 ∉ s.dead := by simpa using hd
    refine rdByte_notDead (t := afterEvent s s' c.ref _ c) hmem hs (fun hx => ?_)
    rcases mem_addAll.mp (hdead ▸ hx) with hx | hx
    · exact hs hx
    · exact hpa ((mem_discWords h pa).mp hx)
  · have hx : pa / 4 ∈ s'.dead := hdead ▸ mem_addAll.mpr (.inr ((mem_discWords h pa).mpr hpa))
    exact List.contains_iff_mem.mpr hx

end

end Sys2Proof.ContextProofs

/-!
SUPPORT. Flushing and rounding (R38 to R44): the model's functions and those of the rules are the same.
-/

namespace Sys2Proof.ContextProofs

open Sys2Proof Sys2Proof.Machine Sys2Proof.Rules Sys2Proof.Formats

/-! ## Flushing and rounding (R38 to R44), as the model and as the rules write them -/

section
variable {f : FFmt} (hf : HasFields f)

theorem acrMode_eq (acr : BitVec 10) : acrMode acr = modeFor acr none := by
  have h0 : acr.getLsbD 0 = decide (acr.toNat % 2 = 1) := by rw [← bitAt_toNat, bitAt]; simp; rfl
  have h1 : acr.getLsbD 1 = decide (acr.toNat / 2 % 2 = 1) := by rw [← bitAt_toNat, bitAt]; simp; rfl
  rw [acrMode, modeFor, h0, h1]
  have hlt : acr.toNat % 4 < 4 := Nat.mod_lt _ (by omega)
  have h2 : acr.toNat % 2 = acr.toNat % 4 % 2 := by omega
  have h3 : acr.toNat / 2 % 2 = acr.toNat % 4 / 2 := by omega
  rw [h2, h3]
  generalize acr.toNat % 4 = n at hlt
  match n, hlt with
  | 0, _ | 1, _ | 2, _ | 3, _ => rfl

theorem signed_lt (s : Bool) {b : ℕ} (h : b < 2 ^ (f.ebits + f.mbits)) : f.signBit s + b < 2 ^ (f.ebits + f.mbits + 1) := by
  rw [pow_succ]
  cases s <;> simp [FFmt.signBit] <;> omega

include hf

/-- The subnormal encodings are those of tiny values. -/
theorem subnormal_iff (x : ℕ) : f.subnormal x = true ↔ tiny f (f.read x) := by
  have hmag := magBits_lt f x
  have hpos := Nat.two_pow_pos f.mbits
  have hsub : f.subnormal x = true ↔ magBits f x < 2 ^ f.mbits ∧ magBits f x ≠ 0 := by
    rw [FFmt.subnormal, field_exponent hf, mantissa_magBits, Bool.and_eq_true, beq_iff_eq, bne_iff_ne,
      Nat.div_eq_zero_iff_lt hpos]
    exact and_congr_right (fun h => by rw [Nat.mod_eq_of_lt h])
  rw [hsub]
  rcases Nat.lt_or_ge f.maxBits (magBits f x) with hgt | hle
  · have hnot : ¬ magBits f x < 2 ^ f.mbits := fun h => absurd (mantissa_le_maxBits hf h) (by omega)
    rw [read_of_gt hf hgt]
    split <;> simp [tiny, hnot]
  · rw [read_of_le hf hle, numOf]
    split
    next h0 => simp [tiny, h0]
    next h0 =>
      simp only [tiny, sig]
      split
      next hlow => simp [hlow, h0]
      next hhigh => simp [hhigh]

theorem isNeg_of_tiny {x : ℕ} (h : tiny f (f.read x)) : (f.read x).isNeg = signOf f x := by
  rcases Nat.lt_or_ge f.maxBits (magBits f x) with hgt | hle
  · rw [read_of_gt hf hgt] at h
    split at h <;> exact absurd h (by simp [tiny])
  · rw [read_of_le hf hle, isNeg_numOf]

theorem input_eq (acr : BitVec 10) (x : ℕ) : f.input acr x = Rules.flushIn f acr x := by
  rw [FFmt.input, Rules.flushIn, acrFi, bitAt_toNat]
  by_cases h : acr.getLsbD (2 + 2 * f.cls) = true ∧ tiny f (f.read x)
  · obtain ⟨hfi, ht⟩ := h
    rw [if_pos (by rw [hfi, (subnormal_iff hf x).mpr ht]; rfl), if_pos ⟨hfi, ht⟩, isNeg_of_tiny hf ht]
    rfl
  · rw [if_neg (by rwa [Bool.and_eq_true, subnormal_iff hf]), if_neg h]

theorem top_lt (p : Prop) [Decidable p] : (if f.kind = .ieee ∧ p then f.maxBits + 1 else f.maxBits) < 2 ^ (f.ebits + f.mbits) := by
  have hmax := maxBits_lt hf
  split
  next h =>
    have hi := maxBits_ieee hf h.1
    have hpos := Nat.two_pow_pos f.mbits
    rw [Nat.sub_one_mul, ← pow_add] at hi
    omega
  · exact hmax

theorem write_lt (hn : f.nanBits < 2 ^ (f.ebits + f.mbits + 1)) (mode : Rm) {x : FNum}
    (hx : finite x ∨ (∃ s, x = .inf s) ∨ x = .nan) : f.write mode x < 2 ^ (f.ebits + f.mbits + 1) := by
  rcases hx with hx | ⟨s, rfl⟩ | rfl
  · obtain ⟨n, -, hw⟩ := write_spec hf mode hx
    rw [hw, pack]
    split
    · rw [overflow_eq hf]
      exact signed_lt _ (top_lt hf _)
    next h => exact signed_lt _ ((Nat.le_of_not_lt h).trans_lt (maxBits_lt hf))
  · have htop := top_lt hf True
    simp only [and_true] at htop
    exact (infBits_eq hf s).trans_lt (signed_lt s htop)
  · exact hn

theorem read_kinds (x : ℕ) : finite (f.read x) ∨ (∃ s, f.read x = .inf s) ∨ f.read x = .nan := by
  rcases Nat.lt_or_ge f.maxBits (magBits f x) with hgt | hle
  · rw [read_of_gt hf hgt]
    split
    · exact .inr (.inl ⟨_, rfl⟩)
    · exact .inr (.inr rfl)
  · exact .inl ((finite_read_iff hf).mpr hle)

theorem flushIn_kinds (acr : BitVec 10) (x : ℕ) :
    finite (Rules.flushIn f acr x) ∨ (∃ s, Rules.flushIn f acr x = .inf s) ∨ Rules.flushIn f acr x = .nan := by
  rw [Rules.flushIn]
  split
  · exact .inl trivial
  · exact read_kinds hf x

theorem flushOut_eq (acr : BitVec 10) {y : ℕ} (hy : y < 2 ^ (f.ebits + f.mbits + 1)) :
    f.flushOut acr y = Rules.flushOut f acr y := by
  rw [FFmt.flushOut, Rules.flushOut, acrFo, bitAt_toNat]
  by_cases h : acr.getLsbD (3 + 2 * f.cls) = true ∧ tiny f (f.read y)
  · obtain ⟨hfo, ht⟩ := h
    rw [if_pos (by rw [hfo, (subnormal_iff hf y).mpr ht]; rfl), if_pos ⟨hfo, ht⟩, isNeg_of_tiny hf ht]
    have hsplit := signBit_add_magBits hy
    have hdiv := Nat.div_add_mod' y (2 ^ (f.ebits + f.mbits))
    rw [magBits] at hsplit
    omega
  · rw [if_neg (by rwa [Bool.and_eq_true, subnormal_iff hf]), if_neg h]

theorem result_eq (hn : f.nanBits < 2 ^ (f.ebits + f.mbits + 1)) (acr : BitVec 10) (mode : Rm) {x : FNum}
    (hx : finite x ∨ (∃ s, x = .inf s) ∨ x = .nan) : f.result acr mode x = rounded f acr mode x :=
  flushOut_eq hf acr (write_lt hf hn mode hx)

end

end Sys2Proof.ContextProofs

/-!
PROOFS. The context (05): ALD and AST as singletons, and the whole of O26.
-/

namespace Sys2Proof.ContextProofs

open Sys2Proof Sys2Proof.Machine Sys2Proof.Rules Sys2Proof.Formats

/-! ## Tiles in memory as singletons (R336 to R338) -/

section
variable {s : State} {c : Cur} {o : TileMemOps}

theorem bytes_tile (o : TileMemOps) : AFmt.bytes o.f = tileBytes o := by
  rw [tileBytes]
  cases o.f <;> rfl

theorem tag_tile (o : TileMemOps) : AFmt.tag o.f = if o.f = .i32 then Tag.i32 else .f32 := by
  cases o.f <;> rfl

theorem field_extract (x : W64) (hi lo : ℕ) : field x.toNat hi lo = (x.extractLsb' lo (hi + 1 - lo)).toNat := by
  rw [field, BitVec.extractLsb'_toNat, Nat.shiftRight_eq_div_pow]

/-- The tile descriptor as the model takes it apart. -/
theorem tileDesc_ok (h : TileDescOk c o) : c.tileDesc o = .ok (tilePitch c o, tileCols c o, tileRows c o) := by
  obtain ⟨hz, hrows, hcols⟩ := h
  simp only [Cur.tileDesc, field_extract]
  have hall : ((((c.sr (sregAt (o.base.val + 1))).extractLsb' 10 (31 + 1 - 10)).toNat == 0 && decide (tileRows c o ≤ 16) &&
      decide (tileCols c o ≤ 16))) = true := by
    rw [show (c.sr (sregAt (o.base.val + 1))).extractLsb' 10 (31 + 1 - 10) = 0 from hz, decide_eq_true hrows, decide_eq_true hcols]
    rfl
  exact (congrArg (fun b => (ensure b illegalOperand >>= fun _ =>
    (Except.ok (tilePitch c o, tileCols c o, tileRows c o) : Except Stop (ℕ × ℕ × ℕ)))) hall)

/-- The elements in bounds with their numbers and addresses. -/
def spotAddr (c : Cur) (o : TileMemOps) (p : ℕ × ℕ) : ℕ × ℕ := (16 * p.1 + p.2, tileEa c o p.1 p.2)

theorem tileAddrs_eq (c : Cur) (o : TileMemOps) :
    c.tileAddrs o (tilePitch c o, tileCols c o, tileRows c o) = (tileSpots c o).map (spotAddr c o) := by
  simp only [Cur.tileAddrs, tileSpots, List.map_flatMap, List.map_map, spotAddr, tileEa, bytes_tile, wrapNat, Function.comp_def,
    BitVec.toNat_ofInt]

/-- The elements with their accesses. -/
def spotLoad (s : State) (c : Cur) (o : TileMemOps) (q : XReq) (rd : Bool) (p : ℕ × ℕ) : LaneLoad :=
  (16 * p.1 + p.2, tileEa c o p.1 p.2, tileAcc s c o q rd p.1 p.2)

theorem tileAccess_ok {q : XReq} {rd : Bool} {ps : List (ℕ × ℕ)} (h : ∀ p ∈ ps, (tileAcc s c o q rd p.1 p.2).isOk = true) :
    s.tileAccess c q rd (AFmt.bytes o.f) (ps.map (spotAddr c o)) = .ok (okLanes (ps.map (spotLoad s c o q rd))) := by
  induction ps with
  | nil => rfl
  | cons p ps ih =>
    have hp := h p List.mem_cons_self
    have hrest := ih (fun x hx => h x (List.mem_cons_of_mem p hx))
    cases ha : tileAcc s c o q rd p.1 p.2 with
    | error e => exact absurd (ha ▸ hp) (by simp [Except.isOk, Except.toBool])
    | ok lf =>
      have hacc : s.gAccess c q rd (tileEa c o p.1 p.2) (AFmt.bytes o.f) (AFmt.bytes o.f) = .ok lf := by
        rw [bytes_tile]
        exact ha
      simp only [List.map_cons, spotAddr, State.tileAccess, hacc]
      simp only [hrest, spotLoad, okLanes, List.filterMap_cons, ha]

theorem mem_tileSpots {p : ℕ × ℕ} : p ∈ tileSpots c o ↔ p.1 < tileRows c o ∧ p.2 < tileCols c o := by
  obtain ⟨i, j⟩ := p
  simp [tileSpots]

theorem tileAccess_spots {q : XReq} {rd : Bool}
    (h : ∀ i j, i < tileRows c o → j < tileCols c o → (tileAcc s c o q rd i j).isOk = true) :
    s.tileAccess c q rd (AFmt.bytes o.f) (c.tileAddrs o (tilePitch c o, tileCols c o, tileRows c o)) =
      .ok (okLanes ((tileSpots c o).map (spotLoad s c o q rd))) := by
  rw [tileAddrs_eq]
  exact tileAccess_ok (fun p hp => h p.1 p.2 (mem_tileSpots.mp hp).1 (mem_tileSpots.mp hp).2)

theorem openChunk_tileDesc (c : Cur) (o : TileMemOps) : c.openChunk.tileDesc o = c.tileDesc o := by
  simp only [Cur.tileDesc, openChunk_sr]

theorem openChunk_tileAddrs (c : Cur) (o : TileMemOps) (d : ℕ × ℕ × ℕ) : c.openChunk.tileAddrs o d = c.tileAddrs o d := by
  simp only [Cur.tileAddrs, openChunk_sr]

theorem openChunk_tileAccess (s : State) (c : Cur) (q : XReq) (rd : Bool) (n : ℕ) (es : List (ℕ × ℕ)) :
    s.tileAccess c.openChunk q rd n es = s.tileAccess c q rd n es := by
  induction es with
  | nil => rfl
  | cons e es ih => simp only [State.tileAccess, openChunk_gAccess, ih]

theorem openChunk_tileOk (c : Cur) (t : TReg) : c.openChunk.tileOk t = c.tileOk t := by simp only [Cur.tileOk, Cur.openChunk_warp]

theorem openChunk_readTile (c : Cur) (t : TReg) (p : Tag → Bool) (n : ℕ) : c.openChunk.readTile t p n = c.readTile t p n := by
  simp only [Cur.readTile, openChunk_needTile]

theorem openChunk_aldCheck (o : TileMemOps) (s : State) (c : Cur) : aldCheck o s c.openChunk = aldCheck o s c := by
  simp only [aldCheck, openChunk_tileOk, openChunk_tileDesc, openChunk_needTile, openChunk_tileAccess, openChunk_tileAddrs]

theorem openChunk_astCheck (o : TileMemOps) (s : State) (c : Cur) : astCheck o s c.openChunk = astCheck o s c := by
  simp only [astCheck, openChunk_tileOk, openChunk_tileDesc, openChunk_readTile, openChunk_tileAccess, openChunk_tileAddrs]

theorem needTile_ok {t : TReg} (h : TileOk c t) : c.needTile t = .ok (c.tile t) := by
  obtain ⟨hok, hheld, -⟩ := h
  simp [Cur.needTile, hok, hheld]

theorem readTile_ok {t : TReg} (h : TileOk c t) {p : Tag → Bool} (hr : Readable (c.tile t) p) (n : ℕ) :
    c.readTile t p n = .ok (c.tile t) := by
  simp only [Cur.readTile, needTile_ok h, ok_bind]
  rcases hr with hz | ⟨hl, hp⟩
  · simp [hz]
  · simp [hl, hp]

theorem aldCheck_ok (ht : TileOk c o.tile) (hd : TileDescOk c o)
    (h : ∀ i j, i < tileRows c o → j < tileCols c o → (tileAcc s c o XReq.load true i j).isOk = true) :
    aldCheck o s c = .ok (c.tile o.tile, okLanes ((tileSpots c o).map (spotLoad s c o XReq.load true))) := by
  simp only [aldCheck, ht.1, tileDesc_ok hd, needTile_ok ht, ok_bind, tileAccess_spots h]
  rfl

theorem astCheck_ok (ht : TileOk c o.tile) (hd : TileDescOk c o)
    (hr : Readable (c.tile o.tile) (fun g => g == if o.f = .i32 then Tag.i32 else .f32))
    (h : ∀ i j, i < tileRows c o → j < tileCols c o → (tileAcc s c o XReq.store false i j).isOk = true) :
    astCheck o s c = .ok (c.tile o.tile, okLanes ((tileSpots c o).map (spotLoad s c o XReq.store false))) := by
  rw [← tag_tile] at hr
  simp only [astCheck, ht.1, tileDesc_ok hd, readTile_ok ht hr, ok_bind, tileAccess_spots h]
  rfl

/-- An element of a page that is not WB keeps the access out of the chunk. -/
theorem spots_not_wb {q : XReq} {rd : Bool} {i j : ℕ} {lf : Leaf} (hi : i < tileRows c o) (hj : j < tileCols c o)
    (ha : tileAcc s c o q rd i j = .ok lf) (hp : lf.pol ≠ 0) :
    (okLanes ((tileSpots c o).map (spotLoad s c o q rd))).all (fun x => x.2.2.wb) = false := by
  rw [List.all_eq_false]
  refine ⟨(16 * i + j, tileEa c o i j, lf), mem_okLanes.mpr (List.mem_map.mpr ⟨(i, j), mem_tileSpots.mpr ⟨hi, hj⟩, ?_⟩), ?_⟩
  · rw [spotLoad, ha]
  · rw [not_wb hp]
    decide

/-! ### ALD -/

theorem exec_ald (o : TileMemOps) (s : State) :
    exec (.ald o) s = s.issueMem (Form.strandCf o.cf) (aldChunk o) (.ald o) (aldEvent o) := rfl

theorem exec_ast (o : TileMemOps) (s : State) :
    exec (.ast o) s = s.issueMem (Form.strandCf o.cf) (astChunk o) (.ast o) (astEvent o) := rfl

theorem aldElem_eq (o : TileMemOps) (c : Cur) (w : ℕ) : aldElem o.f c.acr w = elemFrom c o w := by
  have hin := input_eq (f := fF16) ⟨by decide, by decide⟩ c.acr w
  rw [elemFrom]
  cases o.f with
  | f16 => exact congrArg (fun v => BitVec.ofNat 32 (fF32.write .rne v)) hin
  | f32 | i32 | bf16 => rfl

/-- The element that ALD makes of an access. -/
noncomputable def spotElem (c : Cur) (o : TileMemOps) (v : Leaf → ℕ) : Except Stop Leaf → W32
  | .ok lf => elemFrom c o (v lf)
  | .error _ => 0

/-- The value loaded for an element, by its number. -/
noncomputable def elemOf (c : Cur) (o : TileMemOps) : Option (ℕ × ℕ) → W32
  | some v => elemFrom c o v.2
  | none => 0

/-- The elements that ALD loads, by their numbers. -/
def spotValues (s : State) (c : Cur) (o : TileMemOps) (v : Leaf → ℕ) : List (ℕ × ℕ) :=
  (okLanes ((tileSpots c o).map (spotLoad s c o XReq.load true))).map (fun y => (y.1, v y.2.2))

theorem find_spot (hd : TileDescOk c o) (v : Leaf → ℕ) (x : ℕ) : elemOf c o ((spotValues s c o v).find? (fun y => y.1 == x)) =
    if x / 16 < tileRows c o ∧ x % 16 < tileCols c o then spotElem c o v (tileAcc s c o XReq.load true (x / 16) (x % 16))
      else 0 := by
  obtain ⟨-, -, hcols⟩ := hd
  have hmem : ∀ y ∈ okLanes ((tileSpots c o).map (spotLoad s c o XReq.load true)), y.1 = x →
      x / 16 < tileRows c o ∧ x % 16 < tileCols c o ∧ tileAcc s c o XReq.load true (x / 16) (x % 16) = .ok y.2.2 := by
    intro y hy hx
    obtain ⟨⟨i, j⟩, hp, he⟩ := List.mem_map.mp (mem_okLanes.mp hy)
    obtain ⟨hi, hj⟩ := mem_tileSpots.mp hp
    obtain ⟨h1, -, h3⟩ : 16 * i + j = y.1 ∧ tileEa c o i j = y.2.1 ∧ tileAcc s c o XReq.load true i j = .ok y.2.2 := by
      simpa [spotLoad] using he
    dsimp only at hi hj
    have hdiv : x / 16 = i := by omega
    have hmod : x % 16 = j := by omega
    rw [hdiv, hmod]
    exact ⟨hi, hj, h3⟩
  cases hfind : (spotValues s c o v).find? (fun y => y.1 == x) with
  | some z =>
    obtain ⟨y, hy, rfl⟩ := List.mem_map.mp (List.mem_of_find?_eq_some hfind)
    obtain ⟨hr, hc, ha⟩ := hmem y hy (by simpa using List.find?_some hfind)
    rw [if_pos ⟨hr, hc⟩, ha]
    rfl
  | none =>
    split
    next hin =>
      cases ha : tileAcc s c o XReq.load true (x / 16) (x % 16) with
      | error e => rfl
      | ok lf =>
        have hy : (16 * (x / 16) + x % 16, tileEa c o (x / 16) (x % 16), lf) ∈
            okLanes ((tileSpots c o).map (spotLoad s c o XReq.load true)) := by
          refine mem_okLanes.mpr (List.mem_map.mpr ⟨(x / 16, x % 16), mem_tileSpots.mpr hin, ?_⟩)
          rw [spotLoad, ha]
        have hnot := List.find?_eq_none.mp hfind _ (List.mem_map_of_mem hy)
        exact absurd (show 16 * (x / 16) + x % 16 = x by omega) (by simpa using hnot)
    · rfl

theorem aldTile_eq (hd : TileDescOk c o) (t : Tile) (read : ℕ → ℕ) :
    aldTile o c.acr (spotValues s c o (fun lf => read lf.pa)) t = tileRead s c o read := by
  refine congrArg₂ (fun g e => Tile.mk .live g false e) (tag_tile o) (List.map_congr_left (fun x _ => ?_))
  refine Eq.trans ?_ (find_spot hd (fun lf => read lf.pa) x)
  cases (spotValues s c o (fun lf => read lf.pa)).find? (fun y => y.1 == x) with
  | none => rfl
  | some v => exact aldElem_eq o c v.2

theorem ald_singleton (hr : Ready s c 1 o.cf) (ht : TileOk c o.tile) (hd : TileDescOk c o)
    (h : ∀ i j, i < tileRows c o → j < tileCols c o → (tileAcc s c o XReq.load true i j).isOk = true)
    {i j : ℕ} {lf : Leaf} (hi : i < tileRows c o) (hj : j < tileCols c o) (ha : tileAcc s c o XReq.load true i j = .ok lf)
    (hp : lf.pol ≠ 0) :
    AsSingleton s c (.ald o) (.ald o) (c.setTile o.tile (tileRead s c o (fun pa => s.rdNat pa (tileBytes o)))) [] := by
  refine asSingleton_of (cs := []) hr (exec_ald o s) rfl rfl ?_ (fun _ hq => ?_)
  · simp only [aldChunk, openChunk_aldCheck, aldCheck_ok ht hd h, ok_bind, spots_not_wb hi hj ha hp]
    rfl
  · simp only [aldEvent, aldCheck_ok ht hd h]
    refine ⟨_, _, rfl, eventMade_read hr hq (touched_recall (cached_useLeaves s c.ctx _) _) (wrote_setTile c _ _) ?_⟩
    rw [bytes_tile]
    exact congrArg (fun t => (c.setTile o.tile t).regs) (aldTile_eq hd (c.tile o.tile) (fun pa => s.rdNat pa (tileBytes o)))

/-! ### AST -/

theorem astBytes_eq (o : TileMemOps) (c : Cur) (x : W32) : astBytes o.f c.acr x = storedElem c o x := by
  have hin := input_eq (f := fF32) ⟨by decide, by decide⟩ c.acr x.toNat
  have hkind := flushIn_kinds (f := fF32) ⟨by decide, by decide⟩ c.acr x.toNat
  have h16 := result_eq (f := fF16) ⟨by decide, by decide⟩ (by decide) c.acr (modeFor c.acr none) hkind
  have hb16 := result_eq (f := fBF16) ⟨by decide, by decide⟩ (by decide) c.acr (modeFor c.acr none) hkind
  rw [storedElem]
  cases o.f with
  | f16 => exact congrArg (bytesOf 2) (by rw [hin, acrMode_eq, h16]; rfl)
  | bf16 => exact congrArg (bytesOf 2) (by rw [hin, acrMode_eq, hb16]; rfl)
  | f32 | i32 => rfl

theorem spots_flatMap (g : ℕ → Leaf → List Host.Cell) (q : XReq) (rd : Bool) (ps : List (ℕ × ℕ)) :
    (okLanes (ps.map (spotLoad s c o q rd))).flatMap (fun x => g x.1 x.2.2) =
      ps.flatMap (fun p => leafCells (g (16 * p.1 + p.2)) (tileAcc s c o q rd p.1 p.2)) := by
  induction ps with
  | nil => rfl
  | cons p ps ih =>
    rw [List.flatMap_cons, ← ih]
    simp only [okLanes, List.map_cons, spotLoad]
    cases tileAcc s c o q rd p.1 p.2 with
    | ok lf => rfl
    | error e => rfl

theorem tile_elem_eq (t : Tile) (x : ℕ) : t.elem x = tileElem t x := by
  simp only [Tile.elem, tileElem, beq_iff_eq]

theorem ast_singleton (hr : Ready s c 1 o.cf) (ht : TileOk c o.tile) (hd : TileDescOk c o)
    (hread : Readable (c.tile o.tile) (fun g => g == if o.f = .i32 then Tag.i32 else .f32))
    (h : ∀ i j, i < tileRows c o → j < tileCols c o → (tileAcc s c o XReq.store false i j).isOk = true)
    {i j : ℕ} {lf : Leaf} (hi : i < tileRows c o) (hj : j < tileCols c o) (ha : tileAcc s c o XReq.store false i j = .ok lf)
    (hp : lf.pol ≠ 0) : AsSingleton s c (.ast o) (.ast o) c (astCells s c o) := by
  have hcells := spots_flatMap (s := s) (c := c) (o := o)
    (fun x lf => cellsAt lf.pa (storedElem c o (tileElem (c.tile o.tile) x))) XReq.store false (tileSpots c o)
  refine asSingleton_of hr (exec_ast o s) rfl rfl ?_ (fun halone hq => ?_)
  · simp only [astChunk, openChunk_astCheck, astCheck_ok ht hd hread h, ok_bind, spots_not_wb hi hj ha hp]
    rfl
  · simp only [astEvent, astCheck_ok ht hd hread h, astBytes_eq, tile_elem_eq, hcells, writeSing_eq hr.curOf halone hq]
    exact ⟨_, _, rfl, eventMade_write hr halone hq (touched_of_cached (cached_useLeaves _ c.ctx _))⟩

end

theorem uncachedAccess_rule : Rules.UncachedAccess := by
  refine ⟨?_, ?_, ?_, ?_, ?_, ?_⟩
  · rintro s c o - hr hrun hv h ⟨l, lf, hl, ha, hp⟩
    exact ld_singleton hr hrun hv h hl ha hp
  · rintro s c o - hr hrun hv hd h ⟨l, lf, hl, ha, hp⟩
    exact st_singleton hr hrun hv hd h hl ha hp
  · intro s c o lf _ hr hp
    refine ⟨fun ha => ?_, fun ha => sst_singleton hr hp ha⟩
    have hld := sld_singleton hr hp ha
    rw [sldValue_eq] at hld
    exact hld
  · rintro s c o - hr ht hd h ⟨i, j, lf, hi, hj, ha, hp⟩
    exact ald_singleton hr ht hd h hi hj ha hp
  · rintro s c o - hr ht hd hread h ⟨i, j, lf, hi, hj, ha, hp⟩
    exact ast_singleton hr ht hd hread h hi hj ha hp
  · intro s c o _ hr hv
    refine ⟨fun ⟨l, lf, hl, hs, ht, hp⟩ => pref_singleton hr hv hl hs ht hp, fun h ⟨l, lf, hl, ht, hp⟩ => ⟨?_, ?_⟩⟩
    · exact defers_of hr (exec_discard o s) rfl rfl (discChunk_uncached hv h hl ht hp)
    · exact discard_event hr hv h hl ht hp

/-- Settles O26: the conditions that lanes meet (R90), and the accesses to UC and SY pages as events of a strand outside any
chunk, whose cells are stored at one point. -/
theorem accessTraps : Obligations.AccessTraps := ⟨accessTraps_rule, uncachedAccess_rule⟩

end Sys2Proof.ContextProofs

/-!
PROOFS. The kernel (06): a drain whose PREEMPT record a parked SVWAIT sees (O45 fails).
-/

namespace Sys2Proof.KernelProofs

open Sys2Proof Sys2Proof.Machine Sys2Proof.Rules

/-! ## A PREEMPT record in the word of a parked SVWAIT (R103, R139, R403) -/

/-- A strand parked at an SVWAIT of the first word of the EVENT queue's ring, which waits for an unsigned value of at least 0: the
engine's check after a write to the word, none so far, finds it satisfied. -/
def watching (value : Option W64) : Wait := .sv true { sd := 1, sa := 2, sb := 0, w64 := false } 0x48000 0 value

/-- A warp that is marked exited, with a batch that is not complete, though its one strand is still parked. -/
def watchingWarp : Warp :=
  { id := 0, width := 32, lw := 32, slot := 0, splits := [], lay := { start := 0, stop := 0, base := 0 }, vregs := [], gregs := [],
    preds := [], tiles := [], strands := [some { startStrand probeLaunch 0 with wait := watching none }, none, none, none],
    frames := [], merges := [], held := [], batches := [{ n := 1, cmds := [], fault := none }], openFault := none, report := none,
    exited := true }

/-- The order to drain the crew. -/
def drainOrder : Preempt := { option := 0, estimate := 100, bound := 200, missed := false }

/-- A crew of that warp which drains. -/
def watchingCrew : Crew :=
  { ref := probeRef.w.crew, launch := probeLaunch, arg := 0, core := 0, quad := 0, run := .draining, mem := [], poison := [],
    bars := [], syList := [], warps := [watchingWarp], ran := 0, since := 0, committed := false, preempt := some drainOrder,
    suspended := false }

/-- An EVENT queue that is OPEN and empty, with its ring at 0x48000. -/
def emptyEventQueue : Queue :=
  { st := .opened, recAddr := 0, ring := 0x48000, isz := 2, logcap := 1, err := 0, tail := 0, head := 0, drops := 0, defers := 0,
    fulls := 0, waiters := [], conf := 1, recDead := false, lost := [] }

/-- The tables of `probeCells` map the first GiB onto itself. -/
def watchedDrain : State :=
  { State.reset with
    ctxs := [{ probeCtx with queues := [(1, emptyEventQueue)] }], mem := probeCells [] 0x10008 0, crews := [watchingCrew] }

/-- The leaf of the ring's first slot. -/
def ringLeaf : Leaf := { pa := 0x48000, pol := 0, pte := 0x1F, lvl := 3 }

theorem crew?_watchedDrain {r : CrewRef} {c : Crew} (h : watchedDrain.crew? r = some c) : c = watchingCrew :=
  List.mem_singleton.mp (List.mem_of_find?_eq_some h)

theorem mem_strands_of_strand? {w : Warp} {k : ℕ} {t : Strand} (h : w.strand? k = some t) : some t ∈ w.strands := by
  have hk := strand?_lt h
  rw [Warp.strand?, List.getD_eq_getElem _ _ hk] at h
  exact h ▸ List.getElem_mem hk

theorem strand?_watchingWarp {k : ℕ} {t : Strand} (h : watchingWarp.strand? k = some t) :
    t = { startStrand probeLaunch 0 with wait := watching none } := by
  simpa [watchingWarp] using mem_strands_of_strand? h

theorem noPins_watchedDrain : NoPins watchedDrain := by
  intro x t ht
  obtain ⟨w, hw, hstrand⟩ := Option.bind_eq_some_iff.mp ht
  obtain ⟨c, hc, hwarp⟩ := Option.bind_eq_some_iff.mp hw
  obtain rfl := crew?_watchedDrain hc
  obtain rfl := List.mem_singleton.mp (List.mem_of_find?_eq_some hwarp)
  rw [strand?_watchingWarp hstrand]
  rfl

theorem slotOk_watchedDrain : DevOk watchedDrain 0 (emptyEventQueue.slotVa 0) 64 (XReq.ringWrite .engine) ringLeaf :=
  ⟨by decide +kernel, by decide +kernel⟩

theorem eventReady_watchedDrain : EventReady watchedDrain 0 emptyEventQueue ringLeaf :=
  ⟨by decide +kernel, ⟨rfl, rfl⟩, rfl, ⟨rfl, by decide⟩, noPins_watchedDrain, slotOk_watchedDrain⟩

/-- The PREEMPT record is written into the word, and the engine keeps for the strand the value it now has: type 3. -/
theorem crewRetire_watchedDrain : ∃ t, exec (.crewRetire probeRef.w.crew) watchedDrain = .next t ∧
    t.waitOf probeRef = watching (some 3) := ⟨_, rfl, by decide +kernel⟩

/-- Refutes O45: where a strand of a crew that drains is still parked at an SVWAIT of a word of the EVENT queue's next slot, though
its warp is marked exited, the crew does not only end its drain: the write of the PREEMPT record to that word also changes the
strand's wait. The statement asks of the crew's warps only the mark, not that they have no strand left. -/
theorem not_voyagesBeginAndEnd : ¬ Obligations.VoyagesBeginAndEnd := by
  rintro ⟨-, -, hdrain⟩
  obtain ⟨t, ht, hcrew, -⟩ := hdrain watchedDrain probeRef.w.crew watchingCrew drainOrder emptyEventQueue ringLeaf rfl rfl rfl rfl
    (by decide) ⟨watchingWarp, List.mem_singleton_self _, by decide⟩ eventReady_watchedDrain
  obtain ⟨u, hu, hlatched⟩ := crewRetire_watchedDrain
  obtain rfl : t = u := Host.Outcome.next.inj (ht.symm.trans hu)
  have hkept : t.waitOf probeRef = watching none := by
    rw [State.waitOf, State.strand?, State.warp?, hcrew]
    rfl
  rw [hlatched] at hkept
  exact absurd hkept (by decide)

end Sys2Proof.KernelProofs

/-!
PROOFS. The group (08): masks inside the lanes, in the state and in what a squash restores.
-/

namespace Sys2Proof.GroupProofs

open Sys2Proof Sys2Proof.Machine Sys2Proof.Rules

/-! ## Masks -/

/-- Every lane of one mask is a lane of another. -/
def Inside (a l : Mask) : Prop := ∀ i, a.getLsbD i = true → l.getLsbD i = true

theorem inside_iff (a l : Mask) : a &&& ~~~l = 0#64 ↔ Inside a l := by
  refine ⟨fun h i ha => ?_, fun h => BitVec.eq_of_getLsbD_eq fun i hi => ?_⟩
  · have hi := BitVec.lt_of_getLsbD ha
    have := congrArg (fun m : Mask => m.getLsbD i) h
    simpa [ha, hi] using this
  · have := h i
    simp only [BitVec.getLsbD_and, BitVec.getLsbD_not, hi]
    cases ha : a.getLsbD i <;> simp_all

theorem inside_and_right (a l : Mask) : Inside (a &&& l) l := fun i => by simp

theorem Inside.and_left {a l : Mask} (h : Inside a l) (b : Mask) : Inside (a &&& b) l := fun i => by
  have := h i
  simp only [BitVec.getLsbD_and, Bool.and_eq_true]
  exact fun x => this x.1

theorem Inside.and {a l : Mask} (h : Inside a l) (b : Mask) : Inside (a &&& b) (l &&& b) := fun i => by
  have := h i
  simp only [BitVec.getLsbD_and, Bool.and_eq_true]
  exact fun x => ⟨this x.1, x.2⟩

theorem Inside.or {a b l m : Mask} (h : Inside a l) (g : Inside b m) : Inside (a ||| b) (l ||| m) := fun i => by
  simp only [BitVec.getLsbD_or, Bool.or_eq_true]
  exact Or.imp (h i) (g i)

theorem inside_zero (l : Mask) : Inside 0 l := fun i => by simp

theorem Inside.refl (l : Mask) : Inside l l := fun _ h => h

theorem masksOk_core_iff (x : StrandCore) : x.masksOk = true ↔ Inside x.em x.l ∧ Inside x.hm x.l := by
  simp [StrandCore.masksOk, inside_iff]


/-! ## What holds the masks: chunks, strands, warps, crews -/

/-- The strand state that a squash of the chunk restores has its masks inside its lanes. -/
def SnapOk (ch : Chunk) : Prop := ∀ x, ch.snap = some x → x.masksOk = true

theorem strand_masksOk_iff (t : Strand) :
    t.masksOk = true ↔ t.core.masksOk = true ∧ (∀ ch ∈ t.earlier, SnapOk ch) ∧ SnapOk t.chunk := by
  have key : ∀ ch : Chunk, (match ch.snap with | some x => x.masksOk | none => true) = true ↔ SnapOk ch := by
    intro ch
    unfold SnapOk
    cases ch.snap <;> simp
  simp only [Strand.masksOk, Bool.and_eq_true, List.all_eq_true, List.mem_append, List.mem_singleton]
  refine and_congr_right fun _ => ⟨fun h => ⟨fun ch hc => (key ch).mp (h ch (.inl hc)), (key _).mp (h _ (.inr rfl))⟩, ?_⟩
  rintro ⟨h1, h2⟩ ch (hc | rfl)
  · exact (key ch).mpr (h1 ch hc)
  · exact (key _).mpr h2

@[simp] theorem snapOk_none : SnapOk Chunk.none := fun _ h => by cases h

theorem snapOk_congr {ch g : Chunk} (h : g.snap = ch.snap) (hc : SnapOk ch) : SnapOk g := fun x hx => hc x (h ▸ hx)

theorem warp_masksOk_iff (w : Warp) : w.masksOk = true ↔
    (∀ t, some t ∈ w.strands → t.masksOk = true) ∧ ∀ m ∈ w.merges, ∀ x ∈ m.members, x.2.masksOk = true := by
  simp only [Warp.masksOk, Bool.and_eq_true, List.all_eq_true]
  refine and_congr_left fun _ => ⟨fun h t ht => h _ ht, fun h x hx => ?_⟩
  cases x with
  | none => rfl
  | some t => exact h t hx

/-- Every warp of the crew has its masks inside its lanes. -/
def CrewOk (c : Crew) : Prop := ∀ w ∈ c.warps, w.masksOk = true

def CrewsOk (cs : List Crew) : Prop := ∀ c ∈ cs, CrewOk c

theorem masksOk_iff (s : State) : s.masksOk = true ↔ CrewsOk s.crews := by
  simp [State.masksOk, CrewsOk, CrewOk]

/-- The crew, the warp and the strand that a view shows. -/
structure ViewOk (c : Cur) : Prop where
  crew : CrewOk c.crew
  warp : c.warp.masksOk = true
  t    : c.t.masksOk = true

/-! ## Reading and writing -/

theorem strand?_masksOk {w : Warp} {k : Nat} {t : Strand} (hw : w.masksOk = true) (h : w.strand? k = some t) :
    t.masksOk = true := by
  refine ((warp_masksOk_iff w).mp hw).1 t ?_
  have hk := strand?_lt h
  rw [Warp.strand?, List.getD_eq_getElem _ _ hk] at h
  exact h ▸ List.getElem_mem hk

theorem crew?_ok {s : State} {r : CrewRef} {c : Crew} (h : CrewsOk s.crews) (hc : s.crew? r = some c) : CrewOk c :=
  h c (List.mem_of_find?_eq_some hc)

theorem warp?_ok {c : Crew} {i : Nat} {w : Warp} (h : CrewOk c) (hw : c.warp? i = some w) : w.masksOk = true :=
  h w (List.mem_of_find?_eq_some hw)

theorem state_warp?_ok {s : State} {r : WarpRef} {w : Warp} (h : CrewsOk s.crews) (hw : s.warp? r = some w) :
    w.masksOk = true := by
  obtain ⟨c, hc, hw⟩ := Option.bind_eq_some_iff.mp hw
  exact warp?_ok (crew?_ok h hc) hw

theorem curOf_ok {s : State} {r : StrandRef} {c : Cur} (h : CrewsOk s.crews) (hc : s.curOf r = some c) : ViewOk c := by
  obtain ⟨-, h1, h2, h3, -⟩ := (curOf_iff s r c).mp hc
  have hw := warp?_ok (crew?_ok h h1) h2
  exact ⟨crew?_ok h h1, hw, strand?_masksOk hw h3⟩

theorem cur?_ok {s : State} {c : Cur} (h : CrewsOk s.crews) (hc : s.cur? = some c) : ViewOk c := by
  obtain ⟨r, -, hr⟩ := Option.bind_eq_some_iff.mp hc
  exact curOf_ok h hr

theorem mem_updIf {α : Type} {p : α → Bool} {f : α → α} {l : List α} {y : α} (h : y ∈ updIf p f l) :
    ∃ x ∈ l, y = x ∨ y = f x := by
  obtain ⟨x, hx, rfl⟩ := List.mem_map.mp h
  refine ⟨x, hx, ?_⟩
  split
  · exact .inr rfl
  · exact .inl rfl

theorem crewsOk_updIf {cs : List Crew} {p : Crew → Bool} {f : Crew → Crew} (h : CrewsOk cs) (hf : ∀ c, CrewOk c → CrewOk (f c)) :
    CrewsOk (updIf p f cs) := by
  intro c hc
  obtain ⟨x, hx, rfl | rfl⟩ := mem_updIf hc
  · exact h _ hx
  · exact hf _ (h _ hx)

theorem crewsOk_filter {cs : List Crew} (p : Crew → Bool) (h : CrewsOk cs) : CrewsOk (cs.filter p) :=
  fun c hc => h c (List.mem_of_mem_filter hc)

theorem crewOk_of_warps {c d : Crew} (hd : d.warps = c.warps) (h : CrewOk c) : CrewOk d := fun w hw => h w (hd ▸ hw)

theorem crewOk_updIf {c d : Crew} {p : Warp → Bool} {f : Warp → Warp} (hd : d.warps = updIf p f c.warps) (h : CrewOk c)
    (hf : ∀ w, w.masksOk = true → (f w).masksOk = true) : CrewOk d := by
  intro w hw
  rw [hd] at hw
  obtain ⟨x, hx, rfl | rfl⟩ := mem_updIf hw
  · exact h _ hx
  · exact hf _ (h _ hx)

theorem crewOk_map {c d : Crew} {f : Warp → Warp} (hd : d.warps = c.warps.map f) (h : CrewOk c)
    (hf : ∀ w, w.masksOk = true → (f w).masksOk = true) : CrewOk d := by
  intro w hw
  rw [hd] at hw
  obtain ⟨x, hx, rfl⟩ := List.mem_map.mp hw
  exact hf _ (h _ hx)

theorem crewsOk_modCrew {s : State} (r : CrewRef) {f : Crew → Crew} (h : CrewsOk s.crews) (hf : ∀ c, CrewOk c → CrewOk (f c)) :
    CrewsOk (s.modCrew r f).crews := crewsOk_updIf h hf

theorem crewsOk_modWarp {s : State} (r : WarpRef) {f : Warp → Warp} (h : CrewsOk s.crews)
    (hf : ∀ w, w.masksOk = true → (f w).masksOk = true) : CrewsOk (s.modWarp r f).crews :=
  crewsOk_modCrew _ h fun _ hc => crewOk_updIf rfl hc hf

/-! ### Warps -/

theorem mem_setAt {α : Type} {l : List α} {i : Nat} {x y : α} (h : y ∈ setAt l i x) : y ∈ l ∨ y = x := by
  obtain ⟨j, hj⟩ := List.mem_iff_getElem?.mp h
  rw [getElem?_setAt] at hj
  split at hj
  · exact .inr (Option.some.inj hj).symm
  · exact .inl (List.mem_of_getElem? hj)

theorem mem_modAt {α : Type} {l : List α} {i : Nat} {f : α → α} {y : α} (h : y ∈ modAt l i f) : ∃ x ∈ l, y = x ∨ y = f x := by
  induction l generalizing i with
  | nil => cases h
  | cons a l ih =>
    cases i with
    | zero =>
      rcases List.mem_cons.mp h with rfl | h
      · exact ⟨a, List.mem_cons_self, .inr rfl⟩
      · exact ⟨y, List.mem_cons_of_mem _ h, .inl rfl⟩
    | succ i =>
      rcases List.mem_cons.mp h with rfl | h
      · exact ⟨y, List.mem_cons_self, .inl rfl⟩
      · obtain ⟨x, hx, hy⟩ := ih h
        exact ⟨x, List.mem_cons_of_mem _ hx, hy⟩

/-- The other fields of a warp do not matter. -/
theorem warp_masksOk_congr {w v : Warp} (h1 : v.strands = w.strands) (h2 : v.merges = w.merges) : v.masksOk = w.masksOk := by
  simp only [Warp.masksOk, h1, h2]

/-- A warp whose strands and kept merges come from one whose masks are inside its lanes. -/
theorem warp_masksOk_of {w v : Warp} (h : w.masksOk = true)
    (hs : ∀ t, some t ∈ v.strands → some t ∈ w.strands ∨ t.masksOk = true)
    (hm : ∀ m ∈ v.merges, m ∈ w.merges ∨ ∀ x ∈ m.members, x.2.masksOk = true) : v.masksOk = true := by
  obtain ⟨h1, h2⟩ := (warp_masksOk_iff w).mp h
  exact (warp_masksOk_iff v).mpr ⟨fun t ht => (hs t ht).elim (h1 t) id, fun m hv => (hm m hv).elim (h2 m) id⟩

theorem masksOk_setStrand {w : Warp} {x : Option Strand} (k : Nat) (h : w.masksOk = true) (hx : ∀ t, x = some t → t.masksOk = true) :
    (w.setStrand k x).masksOk = true :=
  warp_masksOk_of h (fun t ht => (mem_setAt ht).imp id fun e => hx t e.symm) fun _ hm => .inl hm

theorem masksOk_modStrands {w : Warp} {k : Nat} {f : Strand → Strand} (h : w.masksOk = true)
    (hf : ∀ t, t.masksOk = true → (f t).masksOk = true) :
    ({ w with strands := modAt w.strands k (Option.map f) } : Warp).masksOk = true := by
  refine warp_masksOk_of h (fun t ht => ?_) fun _ hm => .inl hm
  obtain ⟨x, hx, e | e⟩ := mem_modAt ht
  · exact .inl (e ▸ hx)
  · obtain ⟨u, rfl, rfl⟩ := Option.map_eq_some_iff.mp e.symm
    exact .inr (hf u (((warp_masksOk_iff w).mp h).1 u hx))

theorem masksOk_mapStrands {w : Warp} {f : Strand → Strand} (h : w.masksOk = true)
    (hf : ∀ t, t.masksOk = true → (f t).masksOk = true) :
    ({ w with strands := w.strands.map (Option.map f) } : Warp).masksOk = true := by
  refine warp_masksOk_of h (fun t ht => .inr ?_) fun _ hm => .inl hm
  obtain ⟨x, hx, e⟩ := List.mem_map.mp ht
  obtain ⟨u, rfl, rfl⟩ := Option.map_eq_some_iff.mp e
  exact hf u (((warp_masksOk_iff w).mp h).1 u hx)

theorem crewsOk_modStrand {s : State} (r : StrandRef) {f : Strand → Strand} (h : CrewsOk s.crews)
    (hf : ∀ t, t.masksOk = true → (f t).masksOk = true) : CrewsOk (s.modStrand r f).crews :=
  crewsOk_modWarp _ h fun _ hw => masksOk_modStrands hw hf

theorem crewsOk_putCur {s : State} {c : Cur} (h : CrewsOk s.crews) (hc : ViewOk c) : CrewsOk (s.putCur c).crews := by
  refine crewsOk_modCrew _ h fun _ _ => crewOk_updIf rfl hc.crew fun _ _ => ?_
  exact masksOk_setStrand _ hc.warp fun t ht => Option.some.inj ht ▸ hc.t

/-- The strand keeps its lanes and masks, and so does what its squash restores. -/
theorem strand_masksOk_congr {t u : Strand} (h1 : u.core.l = t.core.l) (h2 : u.core.em = t.core.em) (h3 : u.core.hm = t.core.hm)
    (h4 : u.earlier = t.earlier) (h5 : u.chunk.snap = t.chunk.snap) : u.masksOk = t.masksOk := by
  rw [Bool.eq_iff_iff, strand_masksOk_iff, strand_masksOk_iff, masksOk_core_iff, masksOk_core_iff, h1, h2, h3, h4]
  simp only [SnapOk, h5]

/-! ## Squashes and merges undone (R153, R196) -/

theorem masksOk_fields {w v : Warp} (h : w.masksOk = true) (h1 : v.strands = w.strands) (h2 : v.merges = w.merges) :
    v.masksOk = true := (warp_masksOk_congr h1 h2).trans h

theorem masksOk_foldl {α : Type} {f : Warp → α → Warp} {l : List α} {w : Warp} (h : w.masksOk = true)
    (hf : ∀ w, ∀ a ∈ l, w.masksOk = true → (f w a).masksOk = true) : (l.foldl f w).masksOk = true :=
  List.foldlRecOn l f (motive := fun w : Warp => w.masksOk = true) h fun w hw a ha => hf w a ha hw

theorem masksOk_applyShadow (l : Mask) {w : Warp} (o : OldVal) (h : w.masksOk = true) : (applyShadow l w o).masksOk = true := by
  cases o <;> exact h

theorem masksOk_leave {w : Warp} (k : Nat) (h : w.masksOk = true) : (w.leave k).masksOk = true :=
  warp_masksOk_of h (fun _ ht => (mem_setAt ht).imp id fun e => by cases e) fun _ hm => .inl hm

theorem masksOk_undo (core : StrandCore) {w : Warp} (ch : Chunk) (h : w.masksOk = true) : (w.undo core ch).masksOk = true := by
  have hw := masksOk_foldl (l := ch.shadow) (f := applyShadow (ch.snap.getD core).l) h fun w o _ => masksOk_applyShadow _ o
  unfold Warp.undo
  dsimp only
  split
  · exact masksOk_leave _ hw
  · exact hw

theorem unplaced_snapOk {t : Strand} {ch : Chunk} (h : t.masksOk = true) (hc : ch ∈ t.unplaced) : SnapOk ch := by
  obtain ⟨-, h1, h2⟩ := (strand_masksOk_iff t).mp h
  rcases List.mem_append.mp hc with hc | hc
  · exact h1 ch hc
  · exact List.mem_singleton.mp hc ▸ h2

theorem snapOk_after (ch : Chunk) (k : SquashKind) (n : Nat) : SnapOk (ch.after k n) := by
  cases k <;> exact snapOk_congr (ch := Chunk.none) rfl snapOk_none

theorem masksOk_squashed {t : Strand} {ch : Chunk} {older : List Chunk} (k : SquashKind) (h : t.masksOk = true) (hc : SnapOk ch)
    (ho : ∀ g ∈ older, SnapOk g) : (t.squashed ch older k).masksOk = true := by
  refine (strand_masksOk_iff _).mpr ⟨?_, fun g hg => ?_, snapOk_after ch k _⟩
  · show StrandCore.masksOk { (ch.snap.getD t.core) with inClause := false } = true
    cases hs : ch.snap with
    | none => exact ((strand_masksOk_iff t).mp h).1
    | some x => exact hc x hs
  · obtain ⟨x, hx, rfl⟩ := List.mem_map.mp hg
    exact snapOk_congr rfl (ho x hx)

theorem masksOk_squashOwn {w : Warp} (i n : Nat) (k : SquashKind) (h : w.masksOk = true) : (w.squashOwn i n k).masksOk = true := by
  unfold Warp.squashOwn
  split
  · exact h
  · rename_i t ht
    have hm := strand?_masksOk h ht
    split
    · exact h
    · rename_i ch hch
      split
      · exact h
      · refine masksOk_setStrand _ (masksOk_foldl h fun w g _ => masksOk_undo _ g) fun u hu => Option.some.inj hu ▸ ?_
        exact masksOk_squashed k hm (unplaced_snapOk hm (List.mem_of_getElem? hch))
          fun g hg => ((strand_masksOk_iff t).mp hm).2.1 g (List.mem_of_mem_take hg)

theorem masksOk_back {m : Merge} {t x : Strand} (k : Nat) (ht : ∀ ch ∈ t.earlier, SnapOk ch) (hx : x.masksOk = true) :
    (m.back t k x).masksOk = true := by
  have hcs : ∀ g ∈ (t.earlier.filter (fun ch => ch.owner == some k)).map (fun ch => { ch with owner := .none }), SnapOk g := by
    intro g hg
    obtain ⟨y, hy, rfl⟩ := List.mem_map.mp hg
    exact snapOk_congr rfl (ht y (List.mem_of_mem_filter hy))
  refine (strand_masksOk_iff _).mpr ⟨((strand_masksOk_iff x).mp hx).1, fun g hg => hcs g (List.dropLast_subset _ hg), ?_⟩
  show SnapOk (Option.getD _ Chunk.none)
  cases hl : List.getLast? _ with
  | none => exact snapOk_none
  | some g => exact hcs g (List.mem_of_getLast? hl)

theorem masksOk_unmerge {w : Warp} {m : Merge} (h : w.masksOk = true) (hm : ∀ x ∈ m.members, x.2.masksOk = true) :
    (w.unmerge m).masksOk = true := by
  unfold Warp.unmerge
  split
  · exact h
  · rename_i t ht
    have hs := ((strand_masksOk_iff t).mp (strand?_masksOk h ht)).2.1
    have hw : ∀ o : Option Nat, (match o with | some n => w.squashOwn m.sv n .conflict | none => w).masksOk = true := by
      intro o
      cases o with
      | none => exact h
      | some n => exact masksOk_squashOwn _ n _ h
    dsimp only
    split
    · exact hw _
    · refine masksOk_foldl (warp_masksOk_of (hw _) (fun _ ht => .inl ht) fun x hx => .inl (List.mem_of_mem_filter hx)) ?_
      exact fun w x hx hw => masksOk_setStrand _ hw fun u hu => Option.some.inj hu ▸ masksOk_back _ hs (hm x hx)

theorem masksOk_squash {w : Warp} (i n : Nat) (k : SquashKind) (h : w.masksOk = true) : (w.squash i n k).masksOk = true := by
  unfold Warp.squash
  split
  · rename_i t ch m _ hm
    have hmem := ((warp_masksOk_iff w).mp h).2 m (List.mem_of_find?_eq_some hm)
    split
    · exact masksOk_squashOwn _ _ _ h
    · have hu := masksOk_unmerge h hmem
      dsimp only
      split
      · exact masksOk_foldl hu fun w x _ hw => masksOk_squashOwn _ _ _ hw
      · exact masksOk_squashOwn _ _ _ hu
  · exact masksOk_squashOwn _ _ _ h

/-! ## Squashes and writes of the state -/

theorem crewsOk_foldl {α : Type} {f : State → α → State} {l : List α} {s : State} (h : CrewsOk s.crews)
    (hf : ∀ s, ∀ a ∈ l, CrewsOk s.crews → CrewsOk (f s a).crews) : CrewsOk (l.foldl f s).crews :=
  List.foldlRecOn l f (motive := fun s : State => CrewsOk s.crews) h fun s hs a ha => hf s a ha hs

variable {s : State}

theorem crewsOk_squashAt (r : StrandRef) (n : Nat) (k : SquashKind) (h : CrewsOk s.crews) :
    CrewsOk (s.squashAt r n k).crews := by
  have hw := crewsOk_modWarp r.w h fun w hw => masksOk_squash r.strand n k hw
  unfold State.squashAt
  dsimp only
  split <;> split <;> exact hw

theorem crewsOk_squash (r : StrandRef) (k : SquashKind) (h : CrewsOk s.crews) : CrewsOk (s.squash r k).crews :=
  crewsOk_squashAt r _ k h

theorem crewsOk_squashAll (r : StrandRef) (k : SquashKind) (h : CrewsOk s.crews) : CrewsOk (s.squashAll r k).crews :=
  crewsOk_squashAt r 0 k h

theorem crewsOk_conflictOnce (w : Wr) (h : CrewsOk s.crews) : CrewsOk (s.conflictOnce w).crews := by
  refine crewsOk_foldl h fun s r _ hs => ?_
  split
  · split
    · exact crewsOk_squashAt r _ _ hs
    · exact hs
  · exact hs

theorem crewsOk_conflict (w : Wr) (h : CrewsOk s.crews) : CrewsOk (s.conflict w).crews :=
  crewsOk_conflictOnce w (crewsOk_conflictOnce w h)

theorem masksOk_latch (ws : List Nat) (t : Strand) : (t.latch s ws).masksOk = t.masksOk := by
  rw [ContextProofs.latch_eq]
  exact strand_masksOk_congr rfl rfl rfl rfl rfl

theorem crewsOk_latchAll (ws : List Nat) (h : CrewsOk s.crews) : CrewsOk (s.latchAll ws).crews := by
  intro c hc
  obtain ⟨k, hk, rfl⟩ := List.mem_map.mp hc
  exact crewOk_map rfl (h k hk) fun w hw => masksOk_mapStrands hw fun t ht => (masksOk_latch ws t).trans ht

@[simp] theorem crews_settle (s : State) (w : Nat) : (s.settle w).crews = s.crews := by
  unfold State.settle
  split <;> rfl

@[simp] theorem crews_store (s : State) (cs : List Host.Cell) : (s.store cs).crews = s.crews :=
  List.foldlRecOn _ State.settle (motive := fun t : State => t.crews = s.crews) rfl fun t ht w _ => (crews_settle t w).trans ht

theorem crewsOk_writeCells (src : Option StrandRef) (cs : List Host.Cell) (h : CrewsOk s.crews) :
    CrewsOk (s.writeCells src cs).crews :=
  crewsOk_conflict _ (crewsOk_latchAll _ ((crews_store _ cs).symm ▸ h))

theorem crewsOk_writeG (src : Option StrandRef) (pa : Nat) (bs : List Byte) (h : CrewsOk s.crews) :
    CrewsOk (s.writeG src pa bs).crews := crewsOk_writeCells src _ h

@[simp] theorem crews_fill (s : State) (ctx va : Nat) (l : Leaf) : (s.fill ctx va l).crews = s.crews := rfl
@[simp] theorem crews_forget (s : State) (ctx va : Nat) : (s.forget ctx va).crews = s.crews := rfl
@[simp] theorem crews_dropPin (s : State) (r : StrandRef) : (s.dropPin r).crews = s.crews := rfl
@[simp] theorem crews_askPin (s : State) (r : StrandRef) : (s.askPin r).crews = s.crews := rfl

/-! ## Records that the device writes -/

theorem fst_ok {β : Type} {p : State × β} {t : State} {b : β} (h : CrewsOk p.1.crews) (e : p = (t, b)) : CrewsOk t.crews := by
  rw [e] at h
  exact h

theorem crewsOk_attachFault (ctx : Nat) (pf : PageFault) (a : Attached) (mk : FaultRec → FaultRec) (h : CrewsOk s.crews) :
    CrewsOk (s.attachFault ctx pf a mk).1.crews := by
  unfold State.attachFault
  dsimp only
  split <;> exact h

theorem crewsOk_devWrite (ctx va : Nat) (bs : List Byte) (q : XReq) (h : CrewsOk s.crews) :
    CrewsOk (s.devWrite ctx va bs q).1.crews := by
  unfold State.devWrite
  split
  · exact h
  · exact h
  · rename_i l _
    split
    · exact h
    · exact crewsOk_writeG (s := s.fill ctx va l) none l.pa bs h

theorem crewsOk_recFail (ctx q conf : Nat) (h : CrewsOk s.crews) : CrewsOk (s.recFail ctx q conf).1.crews := by
  unfold State.recFail
  dsimp only
  split
  · exact h
  · split <;> exact h

theorem crewsOk_recDo (ctx : Nat) (w : RecWrite) (h : CrewsOk s.crews) : CrewsOk (s.recDo ctx w).1.crews := by
  have hw := crewsOk_devWrite ctx w.va w.data XReq.devWrite h
  unfold State.recDo
  split
  · exact h
  · split
    · exact (fst_ok hw ‹_› :)
    · exact crewsOk_attachFault _ _ _ _ (fst_ok hw ‹_› :)
    · exact crewsOk_recFail _ _ _ (fst_ok hw ‹_› :)

theorem crewsOk_recPut (ctx q off : Nat) (bs : List Byte) (h : CrewsOk s.crews) : CrewsOk (s.recPut ctx q off bs).1.crews := by
  unfold State.recPut
  split
  · exact h
  · dsimp only
    split
    · exact h
    · split
      · exact crewsOk_recDo ctx _ h
      · exact h

theorem crewsOk_flushRec (ctx q conf : Nat) (h : CrewsOk s.crews) : CrewsOk (s.flushRec ctx q conf).1.crews := by
  refine List.foldlRecOn _ _ (motive := fun x : State × Bool × Bool => CrewsOk x.1.crews) h fun x hx w _ => ?_
  split
  · exact hx
  · split
    · exact hx
    · exact crewsOk_recDo ctx w hx

theorem crewsOk_recState (ctx q : Nat) (h : CrewsOk s.crews) : CrewsOk (s.recState ctx q).1.crews := by
  unfold State.recState
  split
  · exact h
  · exact crewsOk_recPut _ _ _ _ h

theorem crewsOk_recCount (ctx q off v : Nat) (h : CrewsOk s.crews) : CrewsOk (s.recCount ctx q off v).1.crews := by
  unfold State.recCount
  split
  · exact h
  · exact crewsOk_recPut _ _ _ _ h

@[simp] theorem crews_numberEvent (s : State) (ctx : Nat) (b : List Byte) : (s.numberEvent ctx b).1.crews = s.crews := rfl

theorem crewsOk_dropEvent (ctx : Nat) (h : CrewsOk s.crews) : CrewsOk (s.dropEvent ctx).crews := by
  have hw := crewsOk_recCount (s := s.noteDropped ctx) ctx 1 32 ((((s.noteDropped ctx).queue? ctx 1).map (·.drops)).getD 0) h
  unfold State.dropEvent
  dsimp only
  split
  · exact (fst_ok hw ‹_› :)
  · exact (fst_ok hw ‹_› :)

theorem crewsOk_ringError (ctx q err : Nat) (h : CrewsOk s.crews) : CrewsOk (s.ringError ctx q err).crews :=
  crewsOk_recState _ _ h

theorem crewsOk_postTo (ctx q : Nat) (b : List Byte) (h : CrewsOk s.crews) : CrewsOk (s.postTo ctx q b).1.crews := by
  unfold State.postTo
  split
  · exact h
  · rename_i x _
    have hw := crewsOk_devWrite ctx (x.slotVa x.tail) b (XReq.ringWrite .engine) h
    split
    · exact (fst_ok hw ‹_› :)
    · exact crewsOk_ringError _ _ _ (fst_ok hw ‹_› :)
    · exact crewsOk_ringError _ _ _ (fst_ok hw ‹_› :)

theorem crewsOk_emit (ctx : Nat) (b : List Byte) (h : CrewsOk s.crews) : CrewsOk (s.emit ctx b).1.crews := by
  have hw := crewsOk_postTo ctx 1 (markEvent b (s.ctx ctx).evOvf) h
  unfold State.emit
  dsimp only
  split
  · exact h
  · split
    · exact h
    · split
      · exact (fst_ok hw ‹_› :)
      · exact crewsOk_dropEvent _ (fst_ok hw ‹_› :)

theorem crewsOk_event (ctx ty : Nat) (fs : List (Nat × Nat × Nat)) (h : CrewsOk s.crews) :
    CrewsOk (s.event ctx ty fs).crews := by
  unfold State.event
  split
  rename_i t b e
  have ht : CrewsOk t.crews := fst_ok (p := s.numberEvent ctx (eventRec ty fs)) h e
  have hw := crewsOk_emit ctx b ht
  split
  · exact crewsOk_dropEvent _ ht
  · split
    · exact (fst_ok hw ‹_› :)
    · exact crewsOk_dropEvent _ (fst_ok hw ‹_› :)

theorem crewsOk_keepEvent (ctx : Nat) (b : List Byte) (h : CrewsOk s.crews) : CrewsOk (s.keepEvent ctx b).crews := by
  unfold State.keepEvent
  split
  rename_i t b' e
  have ht : CrewsOk t.crews := fst_ok (p := s.numberEvent ctx b) h e
  have hw := crewsOk_emit ctx b' ht
  dsimp only
  split
  · split
    · exact (fst_ok hw ‹_› :)
    · exact (fst_ok hw ‹_› :)
  · exact ht

theorem crewsOk_eventKeep (ctx : Nat) (bs : List (List Byte)) (h : CrewsOk s.crews) : CrewsOk (s.eventKeep ctx bs).crews :=
  crewsOk_foldl h fun _ b _ hs => crewsOk_keepEvent ctx b hs

theorem crewsOk_queueErrorEvent (ctx q : Nat) (h : CrewsOk s.crews) : CrewsOk (s.queueErrorEvent ctx q).crews :=
  crewsOk_event _ _ _ h

theorem crewsOk_queueError (ctx q err : Nat) (h : CrewsOk s.crews) : CrewsOk (s.queueError ctx q err).crews :=
  crewsOk_queueErrorEvent _ _ (crewsOk_ringError _ _ _ h)

theorem crewsOk_recThen (ctx q : Nat) (r : State × Bool) (h : CrewsOk r.1.crews) : CrewsOk (recThen ctx q r).crews := by
  unfold recThen
  split
  · exact crewsOk_queueErrorEvent _ _ h
  · exact h

theorem crewsOk_setQueueSt (ctx q : Nat) (f : Queue → Queue) (h : CrewsOk s.crews) : CrewsOk (s.setQueueSt ctx q f).crews :=
  crewsOk_recThen _ _ _ (crewsOk_recState _ _ h)

theorem crewsOk_countQueue (ctx q off : Nat) (get : Queue → Nat) (put : Queue → Nat → Queue) (h : CrewsOk s.crews) :
    CrewsOk (s.countQueue ctx q off get put).crews := crewsOk_recThen _ _ _ (crewsOk_recCount _ _ _ _ h)

theorem crewsOk_countDrop (ctx q : Nat) (h : CrewsOk s.crews) : CrewsOk (s.countDrop ctx q).crews := crewsOk_countQueue _ _ _ _ _ h
theorem crewsOk_countDefer (ctx q : Nat) (h : CrewsOk s.crews) : CrewsOk (s.countDefer ctx q).crews := crewsOk_countQueue _ _ _ _ _ h
theorem crewsOk_countFull (ctx q : Nat) (h : CrewsOk s.crews) : CrewsOk (s.countFull ctx q).crews := crewsOk_countQueue _ _ _ _ _ h

theorem crewsOk_dropEvents (ctx : Nat) (bs : List (List Byte)) (h : CrewsOk s.crews) :
    CrewsOk (bs.foldl (fun s _ => s.dropEvent ctx) s).crews := crewsOk_foldl h fun _ _ _ hs => crewsOk_dropEvent ctx hs

theorem crewsOk_postWaiting (ctx : Nat) (h : CrewsOk s.crews) : CrewsOk (s.postWaiting ctx).crews := by
  unfold State.postWaiting
  split
  · exact h
  · rename_i b rest _
    have hw := crewsOk_postTo ctx 1 b h
    dsimp only
    split
    · exact h
    · split
      · exact crewsOk_dropEvents ctx (b :: rest) h
      · split
        · exact (fst_ok hw ‹_› :)
        · exact crewsOk_dropEvents ctx (b :: rest) (crewsOk_dropEvent _ (fst_ok hw ‹_› :))

theorem crewsOk_unblock (ctx : Nat) (h : CrewsOk s.crews) : CrewsOk (s.unblock ctx).crews :=
  crewsOk_postWaiting ctx (crewsOk_foldl h fun _ _ _ hs => crewsOk_recThen _ _ _ (crewsOk_flushRec _ _ _ hs))

@[simp] theorem crews_logTo (s : State) (func code kind status tag : Nat) (result : List (Nat × Nat × Nat)) :
    (s.logTo func code kind status tag result).crews = s.crews := rfl

end Sys2Proof.GroupProofs

/-!
PROOFS. The group (08): views and shared updates that keep the masks.
-/

namespace Sys2Proof.GroupProofs

open Sys2Proof Sys2Proof.Machine Sys2Proof.Rules

/-! ## Updates of a view that keep the masks -/

/-- `d` has the crew, strands, merges, lanes, masks and chunk starts of `c`. -/
structure Keeps (c d : Cur) : Prop where
  crew    : d.crew = c.crew
  strands : d.warp.strands = c.warp.strands
  merges  : d.warp.merges = c.warp.merges
  l       : d.t.core.l = c.t.core.l
  em      : d.t.core.em = c.t.core.em
  hm      : d.t.core.hm = c.t.core.hm
  earlier : d.t.earlier = c.t.earlier
  snap    : d.t.chunk.snap = c.t.chunk.snap

theorem Keeps.refl (c : Cur) : Keeps c c := ⟨rfl, rfl, rfl, rfl, rfl, rfl, rfl, rfl⟩

theorem Keeps.viewOk {c d : Cur} (h : Keeps c d) : ViewOk d ↔ ViewOk c := by
  have hw := warp_masksOk_congr h.strands h.merges
  have ht := strand_masksOk_congr h.l h.em h.hm h.earlier h.snap
  constructor
  · rintro ⟨h1, h2, h3⟩
    exact ⟨h.crew ▸ h1, hw ▸ h2, ht ▸ h3⟩
  · rintro ⟨h1, h2, h3⟩
    exact ⟨h.crew.symm ▸ h1, hw.symm ▸ h2, ht.symm ▸ h3⟩

variable (c : Cur)

@[simp] theorem viewOk_setS (i : SReg) (x : W64) : ViewOk (c.setS i x) ↔ ViewOk c := by
  unfold Cur.setS
  split
  · exact Iff.rfl
  · exact Keeps.viewOk ⟨rfl, rfl, rfl, rfl, rfl, rfl, rfl, rfl⟩

@[simp] theorem viewOk_setP (i : PReg) (m v : Mask) : ViewOk (c.setP i m v) ↔ ViewOk c := by
  unfold Cur.setP
  split
  · exact Iff.rfl
  · exact Keeps.viewOk ⟨rfl, rfl, rfl, rfl, rfl, rfl, rfl, rfl⟩

@[simp] theorem viewOk_putSlot (i : Nat) (x : VecReg) : ViewOk (c.putSlot i x) ↔ ViewOk c := by
  unfold Cur.putSlot
  dsimp only
  split <;> exact Keeps.viewOk ⟨rfl, rfl, rfl, rfl, rfl, rfl, rfl, rfl⟩

@[simp] theorem viewOk_putV (r : VReg) (x : VecReg) : ViewOk (c.putV r x) ↔ ViewOk c := by
  cases r with
  | v i => exact viewOk_putSlot c _ x
  | g i => exact Keeps.viewOk ⟨rfl, rfl, rfl, rfl, rfl, rfl, rfl, rfl⟩

@[simp] theorem viewOk_setV (r : VReg) (m : Mask) (f : Nat → W32) (t : Tag) : ViewOk (c.setV r m f t) ↔ ViewOk c := viewOk_putV c r _

@[simp] theorem viewOk_setTile (k : TReg) (x : Tile) : ViewOk (c.setTile k x) ↔ ViewOk c :=
  Keeps.viewOk ⟨rfl, rfl, rfl, rfl, rfl, rfl, rfl, rfl⟩

@[simp] theorem viewOk_mapCore {f : StrandCore → StrandCore} (h : (f c.t.core).l = c.t.core.l ∧ (f c.t.core).em = c.t.core.em ∧
    (f c.t.core).hm = c.t.core.hm) : ViewOk (c.mapCore f) ↔ ViewOk c :=
  Keeps.viewOk ⟨rfl, rfl, rfl, h.1, h.2.1, h.2.2, rfl, rfl⟩

@[simp] theorem viewOk_mapChunk {f : Chunk → Chunk} (h : (f c.t.chunk).snap = c.t.chunk.snap) :
    ViewOk (c.mapChunk f) ↔ ViewOk c := Keeps.viewOk ⟨rfl, rfl, rfl, rfl, rfl, rfl, rfl, h⟩

@[simp] theorem viewOk_mapT {f : Strand → Strand} (h : (f c.t).core = c.t.core ∧ (f c.t).earlier = c.t.earlier ∧
    (f c.t).chunk.snap = c.t.chunk.snap) : ViewOk (c.mapT f) ↔ ViewOk c :=
  Keeps.viewOk ⟨rfl, rfl, rfl, by rw [← h.1]; rfl, by rw [← h.1]; rfl, by rw [← h.1]; rfl, h.2.1, h.2.2⟩

/-- New masks inside the lanes. -/
theorem viewOk_masks {f : StrandCore → StrandCore} (h : ViewOk c) (hf : Inside (f c.t.core).em (f c.t.core).l ∧
    Inside (f c.t.core).hm (f c.t.core).l) : ViewOk (c.mapCore f) :=
  ⟨h.crew, h.warp, (strand_masksOk_iff _).mpr ⟨(masksOk_core_iff _).mpr hf, ((strand_masksOk_iff _).mp h.t).2⟩⟩

theorem ViewOk.inside {c : Cur} (h : ViewOk c) : Inside c.t.core.em c.t.core.l ∧ Inside c.t.core.hm c.t.core.l :=
  (masksOk_core_iff _).mp ((strand_masksOk_iff _).mp h.t).1

@[simp] theorem viewOk_setK (k : KReg) (x : Cursor) : ViewOk (c.setK k x) ↔ ViewOk c := viewOk_mapCore c ⟨rfl, rfl, rfl⟩
@[simp] theorem viewOk_usePage (va : Nat) : ViewOk (c.usePage va) ↔ ViewOk c := viewOk_mapChunk c rfl
@[simp] theorem viewOk_endChunk : ViewOk c.endChunk ↔ ViewOk c := viewOk_mapChunk c rfl
@[simp] theorem viewOk_goto (a : W64) : ViewOk (c.goto a) ↔ ViewOk c := viewOk_mapCore c ⟨rfl, rfl, rfl⟩

@[simp] theorem viewOk_advance (n : Nat) : ViewOk (c.advance n) ↔ ViewOk c := by
  unfold Cur.advance
  dsimp only
  split
  · exact viewOk_goto c _
  · exact viewOk_mapCore c ⟨rfl, rfl, rfl⟩

@[simp] theorem viewOk_pend (cf : Cf) (l : List OldVal) : ViewOk (c.pend cf l) ↔ ViewOk c := by
  unfold Cur.pend
  split
  · exact viewOk_mapT c ⟨rfl, rfl, rfl⟩
  · exact Iff.rfl

@[simp] theorem viewOk_retire (fm : Form) : ViewOk (c.retire fm) ↔ ViewOk c := by
  have h : ViewOk (c.counted fm) ↔ ViewOk c := viewOk_mapT c ⟨rfl, rfl, rfl⟩
  rw [retire_eq]
  split
  · exact h
  · exact (viewOk_advance _ _).trans h

@[simp] theorem viewOk_noteAcc (write : Bool) (ws : List Nat) : ViewOk (c.noteAcc write ws) ↔ ViewOk c :=
  Keeps.viewOk ⟨rfl, rfl, rfl, rfl, rfl, rfl, rfl, rfl⟩
@[simp] theorem viewOk_hinted (h : Nat) : ViewOk (c.hinted h) ↔ ViewOk c :=
  Keeps.viewOk ⟨rfl, rfl, rfl, rfl, rfl, rfl, rfl, rfl⟩
@[simp] theorem viewOk_readG (pa n : Nat) : ViewOk (c.readG pa n) ↔ ViewOk c :=
  Keeps.viewOk ⟨rfl, rfl, rfl, rfl, rfl, rfl, rfl, rfl⟩
@[simp] theorem viewOk_readC (off n : Nat) : ViewOk (c.readC off n) ↔ ViewOk c := viewOk_mapChunk c rfl
@[simp] theorem viewOk_writeC (off : Nat) (bs : List Byte) : ViewOk (c.writeC off bs) ↔ ViewOk c := viewOk_mapChunk c rfl

/-- A fold of updates that each keep the masks. -/
theorem viewOk_foldl {α : Type} {f : Cur → α → Cur} {l : List α} (hf : ∀ c, ∀ a ∈ l, ViewOk (f c a) ↔ ViewOk c) :
    ViewOk (l.foldl f c) ↔ ViewOk c :=
  List.foldlRecOn l f (motive := fun d : Cur => ViewOk d ↔ ViewOk c) Iff.rfl fun d hd a ha => (hf d a ha).trans hd

@[simp] theorem viewOk_settleG (s : State) (w : Nat) : ViewOk (c.settleG s w) ↔ ViewOk c := by
  unfold Cur.settleG
  split
  · exact viewOk_mapChunk c rfl
  · exact Iff.rfl

@[simp] theorem viewOk_writeG (s : State) (pa : Nat) (bs : List Byte) : ViewOk (c.writeG s pa bs) ↔ ViewOk c := by
  unfold Cur.writeG
  dsimp only
  rw [viewOk_noteAcc, viewOk_mapChunk _ rfl]
  exact viewOk_foldl c fun d w _ => viewOk_settleG d s w

@[simp] theorem viewOk_writeRun (rs : List VReg) (m : Mask) (t : Tag) (f : Nat → Nat → W32) : ViewOk (c.writeRun rs m t f) ↔ ViewOk c := by
  refine viewOk_foldl c fun d i _ => ?_
  split
  · exact viewOk_setV ..
  · exact Iff.rfl

@[simp] theorem viewOk_ldWrite (o : MemOps) (ds : List VReg) (vals : List (Nat × Nat)) : ViewOk (c.ldWrite o ds vals) ↔ ViewOk c :=
  viewOk_writeRun ..

variable {c}

theorem viewOk_openChunk (h : ViewOk c) : ViewOk c.openChunk := by
  obtain ⟨h1, h2, h3⟩ := (strand_masksOk_iff _).mp h.t
  have hs : ∀ ch : Chunk, SnapOk (ch.opening c.t.core) := fun ch x hx => Option.some.inj hx ▸ h1
  unfold Cur.openChunk
  simp only [viewOk_usePage]
  split
  · exact ⟨h.crew, h.warp, (strand_masksOk_iff _).mpr ⟨h1, h2, hs _⟩⟩
  · refine ⟨h.crew, h.warp, (strand_masksOk_iff _).mpr ⟨h1, fun ch hc => ?_, hs _⟩⟩
    rcases List.mem_append.mp hc with hc | hc
    · exact h2 ch hc
    · exact List.mem_singleton.mp hc ▸ h3
  · refine ⟨h.crew, h.warp, (strand_masksOk_iff _).mpr ⟨h1, fun ch hc => ?_, hs _⟩⟩
    rcases List.mem_append.mp hc with hc | hc
    · exact h2 ch hc
    · exact List.mem_singleton.mp hc ▸ h3
  · exact h

/-! ## What an answer may be -/

/-- Whatever the computation answers satisfies `P`. -/
def Yields {ε α : Type} (P : α → Prop) (x : Except ε α) : Prop := ∀ a, x = .ok a → P a

section
variable {ε α β : Type} {P : α → Prop} {Q : β → Prop}

@[simp] theorem yields_ok (a : α) : Yields P (.ok a : Except ε α) ↔ P a :=
  ⟨fun h => h a rfl, fun h _ e => Except.ok.inj e ▸ h⟩

@[simp] theorem yields_error (e : ε) : Yields P (.error e : Except ε α) := fun _ h => by cases h

@[simp] theorem yields_true (x : Except ε α) : Yields (fun _ => True) x := fun _ _ => trivial

@[simp] theorem yields_bind (x : Except ε α) (f : α → Except ε β) : Yields Q (x >>= f) ↔ Yields (fun a => Yields Q (f a)) x := by
  cases x with
  | error e => exact iff_of_true (yields_error e) (yields_error e)
  | ok a => exact (yields_ok (P := fun a => Yields Q (f a)) a).symm

@[simp] theorem yields_map (x : Except ε α) (f : α → β) : Yields Q (x.map f) ↔ Yields (fun a => Q (f a)) x := by
  cases x with
  | error e => exact iff_of_true (yields_error e) (yields_error e)
  | ok a => exact (yields_ok (f a)).trans (yields_ok (P := fun a => Q (f a)) a).symm

@[simp] theorem yields_mapError (x : Except ε α) (f : ε → ε) : Yields P (x.mapError f) ↔ Yields P x := by
  cases x with
  | error e => exact iff_of_true (yields_error _) (yields_error e)
  | ok a => exact Iff.rfl

@[simp] theorem yields_ite (p : Prop) [Decidable p] (x y : Except ε α) :
    Yields P (if p then x else y) ↔ (p → Yields P x) ∧ (¬p → Yields P y) := by
  split <;> simp_all

theorem Yields.of_forall {x : Except ε α} (h : ∀ a, P a) : Yields P x := fun a _ => h a

theorem Yields.imp {R : α → Prop} {x : Except ε α} (h : Yields P x) (hPR : ∀ a, P a → R a) : Yields R x := fun a e => hPR a (h a e)

end

/-- The package and a view of a strand, with every mask inside its lanes. -/
def Sound (x : State × Cur) : Prop := CrewsOk x.1.crews ∧ ViewOk x.2

@[simp] theorem sound_mk (s : State) (c : Cur) : Sound (s, c) ↔ CrewsOk s.crews ∧ ViewOk c := Iff.rfl

/-- An outcome whose next state, if any, has every mask inside its lanes. -/
def OutOk (o : Out) : Prop := ∀ t, o = .next t → CrewsOk t.crews

@[simp] theorem outOk_next (t : State) : OutOk (.next t) ↔ CrewsOk t.crews :=
  ⟨fun h => h t rfl, fun h _ e => Host.Outcome.next.inj e ▸ h⟩

@[simp] theorem outOk_fault (r : Fault) : OutOk (.fault r) := fun _ h => by cases h

@[simp] theorem outOk_refused (r : Refusal) : OutOk (.refused r) := fun _ h => by cases h

end Sys2Proof.GroupProofs

/-!
PROOFS. The group (08): traps, stops and the issue of an instruction keep the masks.
-/

namespace Sys2Proof.GroupProofs

open Sys2Proof Sys2Proof.Machine Sys2Proof.Rules

variable {s : State} {c : Cur}

/-! ## Traps and stops -/

theorem crewsOk_faultContext (r : StrandRef) (c1 c2 : Nat) (t1 t2 : W64) (h : CrewsOk s.crews) :
    CrewsOk (s.faultContext r c1 c2 t1 t2).crews := by
  refine crewsOk_eventKeep _ _ (crewsOk_updIf (crewsOk_foldl h fun s x _ hs => crewsOk_squashAll x _ hs) fun k hk => ?_)
  exact crewOk_of_warps rfl hk

theorem masksOk_counted (t : Strand) : (ContextProofs.counted t).masksOk = t.masksOk := by
  unfold ContextProofs.counted
  split <;> rfl

theorem crewsOk_countTrapSquash (r : StrandRef) (h : CrewsOk s.crews) : CrewsOk (s.countTrapSquash r).crews :=
  crewsOk_modStrand r h fun t ht => (masksOk_counted t).trans ht

/-- A strand with the same core and older chunks, whose open chunk restores nothing. -/
theorem masksOk_fresh {t u : Strand} (ht : t.masksOk = true) (h1 : u.core.l = t.core.l) (h2 : u.core.em = t.core.em)
    (h3 : u.core.hm = t.core.hm) (h4 : u.earlier = t.earlier) (h5 : u.chunk.snap = none) : u.masksOk = true := by
  obtain ⟨hc, he, -⟩ := (strand_masksOk_iff t).mp ht
  refine (strand_masksOk_iff u).mpr ⟨?_, h4 ▸ he, fun x hx => by rw [h5] at hx; cases hx⟩
  rw [masksOk_core_iff] at hc ⊢
  rwa [h1, h2, h3]

/-- A strand with the same core and older chunks, whose open chunk restores what it restored. -/
theorem masksOk_keep {t u : Strand} (ht : t.masksOk = true) (h1 : u.core = t.core) (h2 : u.earlier = t.earlier)
    (h3 : u.chunk.snap = t.chunk.snap) : u.masksOk = true :=
  (strand_masksOk_congr (by rw [h1]) (by rw [h1]) (by rw [h1]) h2 h3).trans ht

theorem crewsOk_enterTrap (r : StrandRef) (ti : TrapInfo) (tpc : W64) (h : CrewsOk s.crews) :
    CrewsOk (s.enterTrap r ti tpc).crews := by
  unfold State.enterTrap
  split
  · exact h
  · dsimp only
    split
    · exact crewsOk_faultContext _ _ _ _ _ h
    · split
      · exact crewsOk_faultContext _ _ _ _ _ h
      · exact crewsOk_modStrand r h fun t ht => masksOk_fresh ht rfl rfl rfl rfl rfl

theorem crewsOk_setWait (r : StrandRef) (w : Wait) (h : CrewsOk s.crews) :
    CrewsOk (s.modStrand r (fun t => { t with wait := w })).crews := crewsOk_modStrand r h fun _ ht => ht

theorem crewsOk_trapAt (c : Cur) (ti : TrapInfo) (tpc : W64) (h : CrewsOk s.crews) : CrewsOk (s.trapAt c ti tpc).crews := by
  unfold State.trapAt
  split
  · exact crewsOk_squash _ _ h
  · split
    · exact crewsOk_setWait _ _ h
    · split
      · exact h
      · exact crewsOk_enterTrap _ _ _ (crewsOk_countTrapSquash _ h)

theorem crewsOk_parkAt (c : Cur) (pf : PageFault) (h : CrewsOk s.crews) : CrewsOk (s.parkAt c pf).crews := by
  unfold State.parkAt
  split
  · exact crewsOk_squash _ _ h
  · split
    · exact h
    · exact crewsOk_modStrand _ (crewsOk_countTrapSquash _ h) fun _ ht => ht

theorem crewsOk_endBefore (c : Cur) (h : CrewsOk s.crews) : CrewsOk (s.endBefore c).crews :=
  crewsOk_modStrand _ h fun t ht => by
    split
    · exact masksOk_keep ht rfl rfl rfl
    · exact ht

theorem crewsOk_stop (c : Cur) (lanes : Mask) (tpc : W64) (st : Stop) (h : CrewsOk s.crews) :
    CrewsOk (s.stop c lanes tpc st).crews := by
  cases st with
  | trap cause addr extra l =>
    refine crewsOk_trapAt _ _ _ ?_
    split <;> exact h
  | word cause addr => exact crewsOk_trapAt _ _ _ h
  | park pf => exact crewsOk_parkAt _ _ h
  | endBefore => exact crewsOk_endBefore _ h
  | flags => exact crewsOk_setWait _ _ h
  | uncached => exact h
  | tileWait n => exact crewsOk_setWait _ _ (crewsOk_endBefore _ h)

/-! ## Issue -/

/-- An effect in the open chunk keeps the masks inside the lanes. -/
def EffectOk (f : State → Cur → Except Stop (State × Cur)) : Prop := ∀ s c, CrewsOk s.crews → ViewOk c → Yields Sound (f s c)

/-- How a singleton's event went: the states that it leaves. -/
def SResOk : SRes → Prop
  | .done s c => Sound (s, c)
  | .park s _ | .more s _ => CrewsOk s.crews
  | .stop _ | .blocked => True

/-- A singleton's event keeps the masks inside the lanes. -/
def EventOk (f : State → Cur → SRes) : Prop := ∀ s c, CrewsOk s.crews → ViewOk c → SResOk (f s c)

theorem attempt_sound {fm : Form} {f : State → Cur → Except Stop (State × Cur)} (hf : EffectOk f) (h : CrewsOk s.crews)
    (hc : ViewOk c) : Yields Sound (s.attempt c fm f) := by
  unfold State.attempt
  refine (yields_bind _ _).mpr (Yields.of_forall fun _ => (yields_bind _ _).mpr ?_)
  refine (hf s _ h (viewOk_openChunk hc)).imp fun x hx => ?_
  simp [hx]

theorem crewsOk_after {s' : State} {c' : Cur} (fm : Form) (h : Sound (s', c')) : CrewsOk (s.after s' c' fm).crews :=
  crewsOk_putCur h.1 ((viewOk_retire c' fm).mpr h.2)

theorem crewsOk_perform {fm : Form} {f : State → Cur → Except Stop (State × Cur)} (hf : EffectOk f) (h : CrewsOk s.crews)
    (hc : ViewOk c) : CrewsOk (s.perform c fm f).crews := by
  unfold State.perform
  split
  · exact crewsOk_stop _ _ _ _ h
  · exact crewsOk_after fm (attempt_sound hf h hc _ ‹_›)

theorem issue_ok {fm : Form} {f : State → Cur → Except Stop (State × Cur)} (hf : EffectOk f) (h : CrewsOk s.crews) :
    OutOk (s.issue fm f) := by
  unfold State.issue
  split
  · exact outOk_fault _
  · split
    · exact (outOk_next _).mpr (crewsOk_perform hf h (cur?_ok h ‹_›))
    · exact outOk_fault _

/-- An effect on the strand alone keeps its masks inside its lanes. -/
def StrandEffectOk (f : Cur → Except Stop Cur) : Prop := ∀ c, ViewOk c → Yields ViewOk (f c)

theorem issueC_ok {fm : Form} {f : Cur → Except Stop Cur} (hf : StrandEffectOk f) (h : CrewsOk s.crews) : OutOk (s.issueC fm f) :=
  issue_ok (fun _ c hs hc => (yields_map _ _).mpr ((hf c hc).imp fun _ hd => ⟨hs, hd⟩)) h

/-! ## Singletons -/

theorem crewsOk_event1 {fm : Form} {f : State → Cur → SRes} (hf : EventOk f) (h : CrewsOk s.crews) (hc : ViewOk c) :
    CrewsOk (s.event1 c fm f).crews := by
  have hr := hf s c h hc
  unfold State.event1
  split
  · exact h
  · exact crewsOk_stop _ _ _ _ h
  · rename_i s' w e
    rw [e] at hr
    exact crewsOk_modStrand (s := s') _ hr fun t ht => masksOk_fresh ht rfl rfl rfl rfl rfl
  · rename_i s' w e
    rw [e] at hr
    split
    · exact crewsOk_modStrand (s := s') _ hr fun t ht => masksOk_fresh ht rfl rfl rfl rfl rfl
    · exact crewsOk_stop _ _ _ _ h
  · rename_i s' c' e
    rw [e] at hr
    split
    · exact crewsOk_stop _ _ _ _ h
    · refine crewsOk_putCur (s := s') hr.1 ?_
      have hd : ViewOk (if fm.words == 0 then c'.pend fm.cf c'.log else (c'.pend fm.cf c'.log).advance fm.words) := by
        split <;> simp [hr.2]
      exact ⟨hd.crew, hd.warp, masksOk_fresh hd.t rfl rfl rfl rfl rfl⟩

theorem crewsOk_performSing {fm : Form} {f : State → Cur → SRes} {chk : State → Cur → Except Stop Unit} {op : SingOp}
    (hf : EventOk f) (h : CrewsOk s.crews) (hc : ViewOk c) : CrewsOk (s.performSing c fm chk op f).crews := by
  unfold State.performSing
  dsimp only
  split
  · exact crewsOk_stop _ _ _ _ h
  · split
    · exact crewsOk_stop _ _ _ _ h
    · split
      · exact crewsOk_event1 hf h hc
      · exact crewsOk_setWait _ _ (crewsOk_endBefore _ h)

theorem crewsOk_performMem {fm : Form} {f : State → Cur → Except Stop (State × Cur)} {op : SingOp} {ev : State → Cur → SRes}
    (hf : EffectOk f) (he : EventOk ev) (h : CrewsOk s.crews) (hc : ViewOk c) : CrewsOk (s.performMem c fm f op ev).crews := by
  unfold State.performMem
  split
  · exact crewsOk_performSing he h hc
  · exact crewsOk_stop _ _ _ _ h
  · exact crewsOk_after fm (attempt_sound hf h hc _ ‹_›)

theorem issueMem_ok {fm : Form} {f : State → Cur → Except Stop (State × Cur)} {op : SingOp} {ev : State → Cur → SRes}
    (hf : EffectOk f) (he : EventOk ev) (h : CrewsOk s.crews) : OutOk (s.issueMem fm f op ev) := by
  unfold State.issueMem
  split
  · exact outOk_fault _
  · split
    · exact (outOk_next _).mpr (crewsOk_performMem hf he h (cur?_ok h ‹_›))
    · exact outOk_fault _

theorem issueSing_ok {fm : Form} {chk : State → Cur → Except Stop Unit} {op : SingOp} {f : State → Cur → SRes}
    (hf : EventOk f) (h : CrewsOk s.crews) : OutOk (s.issueSing fm chk op f) := by
  unfold State.issueSing
  split
  · exact outOk_fault _
  · split
    · exact (outOk_next _).mpr (crewsOk_performSing hf h (cur?_ok h ‹_›))
    · exact outOk_fault _

theorem returnTrap_keeps (s : State) : StrandEffectOk (returnTrap s) := by
  intro c hc
  unfold returnTrap
  dsimp only
  split
  · exact yields_error _
  · split
    · exact yields_error _
    · simp [hc]

theorem fresh_ok (hs : CrewsOk s.crews) (hc : ViewOk c) : ViewOk (s.fresh c) := by
  unfold State.fresh
  cases h : s.curOf c.ref with
  | none => exact hc
  | some d => exact curOf_ok hs h

/-! ## Memory accesses -/

theorem crews_useLeaves (s : State) (ctx : Nat) (ls : List (Nat × Leaf)) : (s.useLeaves ctx ls).crews = s.crews :=
  List.foldlRecOn _ _ (motive := fun t : State => t.crews = s.crews) rfl fun _ ht _ _ => ht

theorem crewsOk_useLeaves (ctx : Nat) (ls : List (Nat × Leaf)) (h : CrewsOk s.crews) : CrewsOk (s.useLeaves ctx ls).crews :=
  (crews_useLeaves s ctx ls).symm ▸ h

theorem storeIn_sound (q : XReq) {x : State × Cur} (va : Nat) (bs : List Byte) (esize : Nat) (h : Sound x) :
    Yields Sound (storeIn q x va bs esize) := by
  have hl : ∀ l, Sound (x.1.fill x.2.ctx va l, (x.2.writeG x.1 l.pa bs).usePage va) := fun l => ⟨h.1, by simp [h.2]⟩
  simp [storeIn, hl]

theorem loadIn_sound (q : XReq) {x : State × Cur} (va n esize : Nat) (h : Sound x) :
    Yields (fun y => Sound y.2) (loadIn q x va n esize) := by
  have hl : ∀ l, Sound (x.1.fill x.2.ctx va l, (x.2.readG l.pa n).usePage va) := fun l => ⟨h.1, by simp [h.2]⟩
  simp [loadIn, hl]

theorem storesIn_sound (q : XReq) (esize : Nat) (ws : List (Nat × List Byte)) {x : State × Cur} (h : Sound x) :
    Yields Sound (storesIn q esize ws x) := by
  induction ws generalizing x with
  | nil => exact (yields_ok x).mpr h
  | cons w ws ih =>
    unfold storesIn
    split
    · exact ih (storeIn_sound q _ _ _ h _ ‹_›)
    · exact yields_error _

theorem loadsIn_sound (q : XReq) (n : Nat) (vs : List Nat) {x : State × Cur} (h : Sound x) :
    Yields (fun y => Sound y.2) (loadsIn q n vs x) := by
  induction vs generalizing x with
  | nil => exact (yields_ok (P := fun y : List Byte × State × Cur => Sound y.2) ([], x)).mpr h
  | cons v vs ih =>
    unfold loadsIn
    split
    · rename_i bs y hy
      have hs := loadIn_sound q v n n h _ hy
      split
      · rename_i cs z hz
        have hcs : Sound z := ih hs (cs, z) hz
        exact (yields_ok (P := fun y : List Byte × State × Cur => Sound y.2) (bs ++ cs, z)).mpr hcs
      · exact yields_error _
    · exact yields_error _

theorem ldChunk_sound (o : MemOps) : EffectOk (ldChunk o) := by
  intro s c hs hc
  have hr : ∀ ok : List (Nat × Nat × Leaf), ViewOk (ok.foldl (fun c x => (c.readG x.2.2.pa o.w.bytes).usePage x.2.1) c) :=
    fun ok => (viewOk_foldl c fun d x _ => by simp).mpr hc
  simp [ldChunk, hr, crews_useLeaves, hs]

theorem ldEvent_sound (o : MemOps) : EventOk (ldEvent o) := by
  intro s c hs hc
  unfold ldEvent
  split
  · exact ⟨crewsOk_useLeaves _ _ hs, (viewOk_ldWrite ..).mpr hc⟩
  · trivial
  · trivial

theorem ldcwChunk_keeps (o : MemOps) : StrandEffectOk (ldcwChunk o) := by
  intro c hc
  have hr : ∀ ok : List (Nat × Nat × Except Stop Unit), ViewOk (ok.foldl (fun c r => c.readC r.2.1 o.w.bytes) c) :=
    fun ok => (viewOk_foldl c fun d x _ => by simp).mpr hc
  simp [ldcwChunk, hr]

theorem stChunk_sound (o : MemOps) : EffectOk (stChunk o) := by
  intro s c hs hc
  have hr : ∀ ds (ok : List (Nat × Nat × Leaf)), ViewOk (ok.foldl (fun c x => (c.writeG s x.2.2.pa (storeLane o.w ds x.1)).usePage x.2.1) c) :=
    fun ds ok => (viewOk_foldl c fun d x _ => by simp).mpr hc
  simp [stChunk, hr, crews_useLeaves, hs]

theorem writeSing_ok {cs : List Host.Cell} {t : State} (h : CrewsOk s.crews) (e : s.writeSing c cs = some t) : CrewsOk t.crews := by
  unfold State.writeSing at e
  dsimp only at e
  split at e
  · cases e
  · cases e
    exact crewsOk_writeCells _ _ h

theorem stEvent_sound (o : MemOps) : EventOk (stEvent o) := by
  intro s c hs hc
  unfold stEvent
  split
  · split
    · trivial
    · have ht := writeSing_ok hs ‹_›
      exact ⟨crewsOk_useLeaves _ _ ht, fresh_ok ht hc⟩
  · trivial
  · trivial

theorem stcwChunk_keeps (o : MemOps) : StrandEffectOk (stcwChunk o) := by
  intro c hc
  have hr : ∀ ds (rs : List (Nat × Nat × Except Stop Unit)), ViewOk (rs.foldl (fun c r => c.writeC r.2.1 (storeLane o.w ds r.1)) c) :=
    fun ds rs => (viewOk_foldl c fun d x _ => by simp).mpr hc
  simp [stcwChunk, hr]

theorem sldChunk_sound (o : SMemOps) : EffectOk (sldChunk o) := fun s c hs hc => by simp [sldChunk, hs, hc]

theorem sldEvent_sound (o : SMemOps) : EventOk (sldEvent o) := by
  intro s c hs hc
  unfold sldEvent
  split
  · trivial
  · exact ⟨hs, (viewOk_setS ..).mpr hc⟩

theorem sstChunk_sound (o : SMemOps) : EffectOk (sstChunk o) := fun s c hs hc => by simp [sstChunk, hs, hc]

theorem sstEvent_sound (o : SMemOps) : EventOk (sstEvent o) := by
  intro s c hs hc
  unfold sstEvent
  split
  · trivial
  · split
    · trivial
    · have ht := writeSing_ok hs ‹_›
      exact ⟨ht, fresh_ok ht hc⟩

theorem prefChunk_sound (o : SpanOps) : EffectOk (prefChunk o) := fun s c hs hc => by simp [prefChunk, hs, hc]

theorem prefEvent_sound (o : SpanOps) : EventOk (prefEvent o) := by
  intro s c hs hc
  unfold prefEvent
  split
  · trivial
  · exact ⟨hs, hc⟩

theorem discChunk_sound (o : SpanOps) : EffectOk (discChunk o) := by
  intro s c hs hc
  have hp : ∀ (d : Cur) (ok : List (Nat × Nat × Leaf)), ViewOk (ok.foldl (fun c x => c.usePage x.2.1) d) ↔ ViewOk d :=
    fun d ok => viewOk_foldl d fun d x _ => by simp
  simp [discChunk, hp, crews_useLeaves, hs, hc]

theorem discEvent_sound (o : SpanOps) : EventOk (discEvent o) := by
  intro s c hs hc
  unfold discEvent
  split
  · trivial
  · rename_i ok _
    dsimp only
    split
    · trivial
    · have ht := crewsOk_conflict (s := (s.recall (spanWords (o.n1.val + 1) ok)).kill (spanWords (o.n1.val + 1) ok))
        { src := some c.ref, gs := spanWords (o.n1.val + 1) ok, crew := none, cs := [] } hs
      exact ⟨crewsOk_useLeaves _ _ ht, fresh_ok ht hc⟩

end Sys2Proof.GroupProofs

/-!
PROOFS. The group (08): system, barrier, atomic, queue and batch instructions keep the masks.
-/

namespace Sys2Proof.GroupProofs

open Sys2Proof Sys2Proof.Machine Sys2Proof.Rules

variable {s : State} {c : Cur}

/-! ## Trap, system, mask and tag instructions -/

theorem execTrap_ok (n : BitVec 5) (x : SReg) (h : CrewsOk s.crews) : OutOk (execTrap n x s) := issueC_ok (fun _ _ => yields_error _) h

theorem execRft_ok (h : CrewsOk s.crews) : OutOk (execRft s) :=
  issue_ok (fun s c hs hc => (yields_map _ _).mpr ((returnTrap_keeps s c hc).imp fun _ hd => ⟨hs, hd⟩)) h

theorem execYield_ok (h : CrewsOk s.crews) : OutOk (execYield s) := issueC_ok (fun c hc => (yields_ok c).mpr hc) h

theorem execSrd_ok (sd : SReg) (n : BitVec 32) (h : CrewsOk s.crews) : OutOk (execSrd sd n s) :=
  issue_ok (fun s c hs hc => by
    cases c.special s n.toNat with
    | none => exact yields_error _
    | some x => simp [hs, hc]) h

/-- A special register write masks EM and HM by L (R144). -/
theorem swr_keeps (s : State) (n : Nat) (x : W64) (hc : ViewOk c) : Yields ViewOk (swr s c n x) := by
  unfold swr
  split
  · exact (yields_ok _).mpr (viewOk_masks c hc ⟨inside_and_right _ _, hc.inside.2⟩)
  · exact (yields_ok _).mpr (viewOk_masks c hc ⟨hc.inside.1, inside_and_right _ _⟩)
  · simp [hc]
  · simp [hc]
  · simp [hc]
  · exact yields_error _

theorem execSwr_ok (n : BitVec 32) (sa : SReg) (h : CrewsOk s.crews) : OutOk (execSwr n sa s) :=
  issue_ok (fun s _ hs hc => (yields_map _ _).mpr ((swr_keeps s _ _ hc).imp fun _ hd => ⟨hs, hd⟩)) h

theorem execCsrr_ok (sd : SReg) (n : BitVec 32) (h : CrewsOk s.crews) : OutOk (execCsrr sd n s) :=
  issueC_ok (fun c hc => by
    dsimp only
    split
    · exact yields_error _
    · split <;> simp [hc]) h

@[simp] theorem viewOk_setTrap (c : Cur) (f : TrapRegs → TrapRegs) : ViewOk (c.setTrap f) ↔ ViewOk c := viewOk_mapCore c ⟨rfl, rfl, rfl⟩

theorem execCsrw_ok (n : BitVec 32) (sa : SReg) (h : CrewsOk s.crews) : OutOk (execCsrw n sa s) :=
  issueC_ok (fun c hc => by
    dsimp only
    split
    · exact yields_error _
    · split <;> simp [hc]) h

theorem execIdrd_ok (sd : SReg) (n : BitVec 32) (h : CrewsOk s.crews) : OutOk (execIdrd sd n s) :=
  issueC_ok (fun c hc => by
    cases c.ident n.toNat with
    | none => exact yields_error _
    | some x => simp [hc]) h

theorem execChend_ok (h : CrewsOk s.crews) : OutOk (execChend s) := issueC_ok (fun c hc => by simp [hc]) h

theorem execChcfg_ok (sd : SReg) (x : Src) (h : CrewsOk s.crews) : OutOk (execChcfg sd x s) := issueC_ok (fun c hc => by simp [hc]) h

theorem execEmset_ok (x : Src) (h : CrewsOk s.crews) : OutOk (execEmset x s) :=
  issueC_ok (fun c hc => (yields_ok _).mpr (viewOk_masks c hc ⟨inside_and_right _ _, hc.inside.2⟩)) h

theorem execEmld_ok (sa : SReg) (h : CrewsOk s.crews) : OutOk (execEmld sa s) :=
  issueC_ok (fun c hc => (yields_ok _).mpr (viewOk_masks c hc ⟨inside_and_right _ _, hc.inside.2⟩)) h

theorem execEmst_ok (sd : SReg) (h : CrewsOk s.crews) : OutOk (execEmst sd s) := issueC_ok (fun c hc => by simp [hc]) h

theorem execEmand_ok (x : Src) (h : CrewsOk s.crews) : OutOk (execEmand x s) :=
  issueC_ok (fun c hc => (yields_ok _).mpr (viewOk_masks c hc ⟨hc.inside.1.and_left _, hc.inside.2⟩)) h

theorem execHmset_ok (x : Src) (h : CrewsOk s.crews) : OutOk (execHmset x s) :=
  issueC_ok (fun c hc => (yields_ok _).mpr (viewOk_masks c hc ⟨hc.inside.1, inside_and_right _ _⟩)) h

theorem execTagset_ok (vd : VReg) (code : BitVec 5) (h : CrewsOk s.crews) : OutOk (execTagset vd code s) :=
  issueC_ok (fun c hc => by simp [hc]) h

theorem execTagget_ok (o : VMoveOps) (h : CrewsOk s.crews) : OutOk (execTagget o s) := issueC_ok (fun c hc => by simp [hc]) h

/-! ## Barriers -/

theorem crewsOk_putBar (src : Option StrandRef) (r : CrewRef) (b : Barrier) (h : CrewsOk s.crews) : CrewsOk (s.putBar src r b).crews :=
  crewsOk_conflict _ (crewsOk_modCrew r h fun _ hc => crewOk_of_warps rfl hc)

theorem viewOk_woken (c : Cur) : ViewOk (c.mapT fun t => { t with wait := .none, pinCount := 0, trapReplay := false, failed := none }) ↔
    ViewOk c := viewOk_mapT c ⟨rfl, rfl, rfl⟩

theorem crewsOk_resume (r : StrandRef) (sd : SReg) (x : W64) (h : CrewsOk s.crews) : CrewsOk (s.resume r sd x).crews := by
  unfold State.resume
  split
  · exact h
  · exact crewsOk_putCur h ((viewOk_woken _).mpr (by simp [curOf_ok h ‹_›]))

theorem crewsOk_flip (src : Option StrandRef) (r : CrewRef) (b : Barrier) (h : CrewsOk s.crews) : CrewsOk (s.flip src r b).crews := by
  refine crewsOk_foldl (crewsOk_putBar _ _ _ h) fun s x _ hs => ?_
  split
  · exact crewsOk_resume _ _ _ hs
  · exact hs

theorem crewsOk_updateBar (src : Option StrandRef) (r : CrewRef) (b : Barrier) (h : CrewsOk s.crews) :
    CrewsOk (s.updateBar src r b).crews := by
  unfold State.updateBar
  split
  · exact crewsOk_flip _ _ _ h
  · exact crewsOk_putBar _ _ _ h

theorem binit_sound (sa sb : SReg) : EffectOk (binit sa sb) := fun s c hs hc => by simp [binit, hs, hc]

theorem execBinit_ok (sa sb : SReg) (h : CrewsOk s.crews) : OutOk (execBinit sa sb s) := issue_ok (binit_sound sa sb) h

theorem arriveEvent_ok (barw : Bool) (sd sa : SReg) : EventOk (arriveEvent barw sd sa) := by
  intro s c hs hc
  unfold arriveEvent
  split
  · trivial
  · rename_i b _
    dsimp only
    split
    · trivial
    · have hu := crewsOk_updateBar (some c.ref) c.ref.w.crew { b with arrived := b.arrived ++ [c.ref.w.warp] } hs
      have hf := (viewOk_setS _ sd (BitVec.ofNat 64 (bit b.phase))).mpr (fresh_ok hu hc)
      split
      · exact crewsOk_putCur hu hf
      · exact ⟨hu, hf⟩

theorem execBarv_ok (sd sa : SReg) (h : CrewsOk s.crews) : OutOk (execBarv sd sa s) := issueSing_ok (arriveEvent_ok false sd sa) h
theorem execBarw_ok (sd sa : SReg) (h : CrewsOk s.crews) : OutOk (execBarw sd sa s) := issueSing_ok (arriveEvent_ok true sd sa) h

theorem bwtEvent_ok (o : SabOps) : EventOk (bwtEvent o) := by
  intro s c hs hc
  unfold bwtEvent
  split
  · trivial
  · split
    · exact ⟨hs, (viewOk_setS ..).mpr hc⟩
    · exact hs

theorem execBwt_ok (o : SabOps) (h : CrewsOk s.crews) : OutOk (execBwt o s) := issueSing_ok (bwtEvent_ok o) h

theorem crewsOk_commitBars (r : CrewRef) (ops : List BarOp) (h : CrewsOk s.crews) : CrewsOk (s.commitBars r ops).crews :=
  crewsOk_modCrew r h fun _ hc => crewOk_of_warps rfl hc

theorem crewsOk_exitBars (src : StrandRef) (w : WarpRef) (h : CrewsOk s.crews) : CrewsOk (s.exitBars src w).crews :=
  crewsOk_foldl h fun _ _ _ hs => crewsOk_updateBar _ _ _ hs

theorem crewsOk_splitBars (src : StrandRef) (w : WarpRef) (high : Nat) (h : CrewsOk s.crews) :
    CrewsOk (s.splitBars src w high).crews := crewsOk_foldl h fun _ _ _ hs => crewsOk_putBar _ _ _ hs

theorem crewsOk_fuseBars (src : StrandRef) (lo : WarpRef) (high : Nat) (h : CrewsOk s.crews) :
    CrewsOk (s.fuseBars src lo high).crews := crewsOk_foldl h fun _ _ _ hs => crewsOk_updateBar _ _ _ hs

/-! ## Far atomics -/

theorem crewsOk_noteSy (r : CrewRef) (f : AmoFn) (pol va : Nat) (h : CrewsOk s.crews) : CrewsOk (s.noteSy r f pol va).crews := by
  unfold State.noteSy
  split
  · exact crewsOk_modCrew r h fun _ hc => crewOk_of_warps rfl hc
  · exact h

theorem farAtomic_ok {r : StrandRef} {f : AmoFn} {pa pol va n x y : Nat} {t : State} {m : Nat} (h : CrewsOk s.crews)
    (e : s.farAtomic r f pa pol va n x y = some (t, m)) : CrewsOk t.crews := by
  unfold State.farAtomic at e
  split at e
  · cases e
  · obtain ⟨rfl, -⟩ := Prod.mk.inj (Option.some.inj e)
    exact crewsOk_noteSy _ _ _ _ (crewsOk_writeG _ _ _ h)

theorem amoEvent_ok (f : AmoFn) (o : AmoOps) : EventOk (amoEvent f o) := by
  intro s c hs hc
  unfold amoEvent
  split
  · trivial
  · dsimp only
    split
    · trivial
    · have ht := farAtomic_ok hs ‹_›
      exact ⟨ht, (viewOk_setS ..).mpr (fresh_ok ht hc)⟩

theorem amo_ok (f : AmoFn) (o : AmoOps) (h : CrewsOk s.crews) : OutOk (amo f o s) := issueSing_ok (amoEvent_ok f o) h

theorem viewOk_amovWrite (f : AmoFn) (o : AmovOps) (olds : List (Nat × Nat)) : ViewOk (c.amovWrite f o olds) ↔ ViewOk c := by
  unfold Cur.amovWrite
  split
  · exact Iff.rfl
  · exact viewOk_writeRun ..

theorem amovNext_ok (f : AmoFn) (o : AmovOps) (olds : List (Nat × Nat)) (ls : List AmovLane) :
    EventOk (fun s c => amovNext f o olds s c ls) := by
  intro s c hs hc
  cases ls with
  | nil => exact ⟨hs, (viewOk_amovWrite f o olds).mpr (fresh_ok hs hc)⟩
  | cons x rest =>
    unfold amovNext
    dsimp only
    split
    · trivial
    · have ht := farAtomic_ok hs ‹_›
      split
      · exact ⟨ht, (viewOk_amovWrite f o _).mpr (fresh_ok ht hc)⟩
      · exact ht

theorem amovEvent_ok (f : AmoFn) (o : AmovOps) : EventOk (amovEvent f o) := by
  intro s c hs hc
  unfold amovEvent
  split
  · split
    · trivial
    · exact amovNext_ok f o [] _ _ c (crewsOk_useLeaves _ _ hs) hc
  · trivial
  · trivial

theorem amov_ok (f : AmoFn) (o : AmovOps) (h : CrewsOk s.crews) : OutOk (amov f o s) := issueSing_ok (amovEvent_ok f o) h

theorem svEvent_ok (geu : Bool) (o : AmoOps) : EventOk (svEvent geu o) := by
  intro s c hs hc
  unfold svEvent
  split
  · trivial
  · dsimp only
    split
    · exact ⟨hs, (viewOk_setS ..).mpr hc⟩
    · exact hs

theorem svwait_ok (geu : Bool) (o : AmoOps) (h : CrewsOk s.crews) : OutOk (svwait geu o s) := issueSing_ok (svEvent_ok geu o) h

theorem crewsOk_trapParked (r : StrandRef) (cause : Cause) (addr extra : Nat) (h : CrewsOk s.crews) :
    CrewsOk (s.trapParked r cause addr extra).crews := by
  unfold State.trapParked
  split
  · exact h
  · exact crewsOk_enterTrap _ _ _ (crewsOk_countTrapSquash r h)

theorem execSvwaitWake_ok (r : StrandRef) (h : CrewsOk s.crews) : OutOk (execSvwaitWake r s) := by
  unfold execSvwaitWake
  split
  · exact (outOk_next _).mpr h
  · split
    · exact (outOk_next _).mpr (crewsOk_resume _ _ _ h)
    · split
      · exact (outOk_next _).mpr (crewsOk_trapParked _ _ _ _ h)
      · exact (outOk_next _).mpr h
    · exact (outOk_next _).mpr h

/-! ## Queues -/

@[simp] theorem viewOk_setItem (c : Cur) (sa : SReg) (bs : List Byte) (n : Nat) : ViewOk (c.setItem sa bs n) ↔ ViewOk c :=
  viewOk_foldl c fun _ _ _ => viewOk_setS ..

@[simp] theorem viewOk_setStatus (c : Cur) (o : QueueOps) (st : Nat) (p : Bool) : ViewOk (c.setStatus o st p) ↔ ViewOk c := by
  simp [Cur.setStatus]

@[simp] theorem viewOk_held (c : Cur) (hs : List Held) : ViewOk { c with warp := { c.warp with held := hs } } ↔ ViewOk c :=
  Keeps.viewOk ⟨rfl, rfl, rfl, rfl, rfl, rfl, rfl, rfl⟩

@[simp] theorem viewOk_consume (c : Cur) (q : Nat) : ViewOk (c.consume q) ↔ ViewOk c := viewOk_held c _

theorem crewsOk_enqRefuse (ctx q : Nat) (x : Queue) (h : CrewsOk s.crews) : CrewsOk (s.enqRefuse ctx q x).1.crews := by
  unfold State.enqRefuse
  split
  · exact crewsOk_countFull _ _ h
  all_goals exact h

theorem enqEvent_ok (o : QueueOps) : EventOk (enqEvent o) := by
  intro s c hs hc
  have done : ∀ {t : State} {st : Nat} {p : Bool}, CrewsOk t.crews → SResOk (.done t ((t.fresh c).setStatus o st p)) :=
    fun ht => ⟨ht, (viewOk_setStatus ..).mpr (fresh_ok ht hc)⟩
  unfold enqEvent
  split
  · trivial
  · dsimp only
    split
    · split
      · trivial
      · have hw := crewsOk_devWrite c.ctx (Queue.slotVa ‹Queue› (Queue.tail ‹Queue›)) (c.itemOf o.sa ((Queue.itemBytes ‹Queue›) / 8))
          (XReq.ringWrite .write) hs
        split
        · exact done (fst_ok hw ‹_› :)
        · trivial
        · exact done (crewsOk_queueError _ _ _ (fst_ok hw ‹_› :))
    · exact done (crewsOk_enqRefuse _ _ _ hs)

theorem execEnq_ok (o : QueueOps) (h : CrewsOk s.crews) : OutOk (execEnq o s) := issueSing_ok (enqEvent_ok o) h

theorem crewsOk_devRead (ctx va n : Nat) (q : XReq) (h : CrewsOk s.crews) : CrewsOk (s.devRead ctx va n q).1.crews := by
  unfold State.devRead
  split
  · exact h
  · exact h
  · split
    · exact h
    · exact h

theorem crewsOk_takeHead (ctx q : Nat) (x : Queue) (h : CrewsOk s.crews) : CrewsOk (s.takeHead ctx q x).crews := by
  unfold State.takeHead
  split
  · exact crewsOk_setQueueSt _ _ _ h
  · exact h

theorem deqTry_ok (t : Bool) (o : QueueOps) : EventOk (deqTry t o) := by
  intro s c hs hc
  have answer : ∀ {t : State} {st : Nat} {p : Bool}, CrewsOk t.crews →
      SResOk (.done t (((t.fresh c).consume o.q.toNat).setStatus o st p)) :=
    fun ht => ⟨ht, by simp [fresh_ok ht hc]⟩
  unfold deqTry
  split
  · trivial
  · rename_i x _
    have hr := crewsOk_devRead c.ctx (x.slotVa x.head) x.itemBytes XReq.ringRead hs
    dsimp only
    split
    · split
      · trivial
      · exact answer (crewsOk_queueError _ _ _ (fst_ok hr ‹_› :))
      · exact answer (fst_ok hr ‹_› :)
      · have ht := crewsOk_takeHead c.ctx o.q.toNat x (fst_ok hr ‹_› :)
        exact ⟨ht, by simp [fresh_ok ht hc]⟩
    · split
      · exact answer hs
      · split
        · exact answer hs
        · split
          · exact answer hs
          · split
            · exact answer hs
            · exact hs

theorem deqEvent_ok (o : QueueOps) : EventOk (deqEvent o) := by
  intro s c hs hc
  unfold deqEvent
  split
  · trivial
  · exact deqTry_ok false o s c hs hc

theorem deqtEvent_ok (o : QueueOps) : EventOk (deqtEvent o) := by
  intro s c hs hc
  unfold deqtEvent
  split
  · trivial
  · exact deqTry_ok true o s c hs hc

theorem execDeq_ok (o : QueueOps) (h : CrewsOk s.crews) : OutOk (execDeq o s) := issueSing_ok (deqEvent_ok o) h
theorem execDeqt_ok (o : QueueOps) (h : CrewsOk s.crews) : OutOk (execDeqt o s) := issueSing_ok (deqtEvent_ok o) h

theorem crewsOk_resumeCur (h : CrewsOk s.crews) (hc : ViewOk c) : CrewsOk (s.resumeCur c).crews :=
  crewsOk_putCur h ((viewOk_woken _).mpr ((viewOk_advance c 1).mpr hc))

theorem crewsOk_serveWaiter (ctx q : Nat) (h : CrewsOk s.crews) : CrewsOk (s.serveWaiter ctx q).crews := by
  unfold State.serveWaiter
  split
  · exact h
  · split
    · exact h
    · split
      · rename_i o _ hcur _
        have hd := deqTry_ok false o s _ h (curOf_ok h hcur)
        split
        · rename_i e
          rw [e] at hd
          exact crewsOk_resumeCur hd.1 hd.2
        · exact crewsOk_stop _ _ _ _ h
        · exact h
      · exact h

theorem execDeqWake_ok (ctx q : Nat) (h : CrewsOk s.crews) : OutOk (execDeqWake ctx q s) := by
  refine (outOk_next _).mpr ?_
  split
  · exact crewsOk_serveWaiter ctx q h
  · exact h

theorem crewsOk_statusAll (ctx q st : Nat) (h : CrewsOk s.crews) : CrewsOk (s.statusAll ctx q st).crews := by
  unfold State.statusAll
  split
  · exact h
  · refine crewsOk_foldl h fun s r _ hs => ?_
    split
    · exact crewsOk_resumeCur hs (by simp [curOf_ok hs ‹_›])
    · exact hs

/-! ## Engine commands, batches and fences -/

@[simp] theorem viewOk_engqStatus (c : Cur) (o : EngqOps) (st : Nat) : ViewOk (c.engqStatus o st) ↔ ViewOk c := by
  simp [Cur.engqStatus]

theorem engqEvent_ok (o : EngqOps) : EventOk (engqEvent o) := by
  intro s c hs hc
  unfold engqEvent
  split
  · exact ⟨hs, (viewOk_engqStatus ..).mpr hc⟩
  · split
    · trivial
    · exact ⟨hs, (viewOk_engqStatus ..).mpr hc⟩
    · exact ⟨hs, (viewOk_engqStatus ..).mpr hc⟩

theorem execEngq_ok (o : EngqOps) (h : CrewsOk s.crews) : OutOk (execEngq o s) := issueSing_ok (engqEvent_ok o) h

theorem execBclose_ok (sd : SReg) (h : CrewsOk s.crews) : OutOk (execBclose sd s) := issueC_ok (fun c hc => by simp [bclose, hc]) h

@[simp] theorem viewOk_setReport (c : Cur) (o : SabOps) (n : W32) (t : Bool) : ViewOk (c.setReport o n t) ↔ ViewOk c := by
  simp [Cur.setReport]

theorem viewOk_bwaitDone (o : SabOps) (n : W32) : ViewOk (c.bwaitDone o n) ↔ ViewOk c := by
  refine Iff.trans ?_ (viewOk_setReport c o n false)
  unfold Cur.bwaitDone
  dsimp only
  split
  · exact Keeps.viewOk ⟨rfl, rfl, rfl, rfl, rfl, rfl, rfl, rfl⟩
  · exact Iff.rfl

theorem bwaitEvent_ok (o : SabOps) : EventOk (bwaitEvent o) := by
  intro s c hs hc
  unfold bwaitEvent
  split
  · trivial
  · split
    · exact hs
    · exact ⟨hs, (viewOk_bwaitDone o _).mpr hc⟩

theorem execBwait_ok (o : SabOps) (h : CrewsOk s.crews) : OutOk (execBwait o s) := issueSing_ok (bwaitEvent_ok o) h

theorem execBtest_ok (o : SabOps) (h : CrewsOk s.crews) : OutOk (execBtest o s) := issueC_ok (fun c hc => by simp [hc]) h

theorem execBwaitWake_ok (r : StrandRef) (h : CrewsOk s.crews) : OutOk (execBwaitWake r s) := by
  unfold execBwaitWake
  split
  · split
    · refine (outOk_next _).mpr ?_
      split
      · exact h
      · exact crewsOk_resumeCur h ((viewOk_bwaitDone _ _).mpr (curOf_ok h ‹_›))
    · exact (outOk_next _).mpr h
  · exact (outOk_next _).mpr h

/-- A warp keeps its strands and merges. -/
theorem crewsOk_modWarp_fields (r : WarpRef) {f : Warp → Warp} (h : CrewsOk s.crews)
    (hf : ∀ w, (f w).strands = w.strands ∧ (f w).merges = w.merges) : CrewsOk (s.modWarp r f).crews :=
  crewsOk_modWarp r h fun w hw => masksOk_fields hw (hf w).1 (hf w).2

theorem crewsOk_cmdFault (x : Cmd) (kind va : Nat) (h : CrewsOk s.crews) : CrewsOk (s.cmdFault x kind va).crews := by
  unfold State.cmdFault
  split
  · exact h
  · split
    · exact crewsOk_modWarp_fields _ (s := s.abandon _) h fun _ => ⟨rfl, rfl⟩
    · exact crewsOk_modWarp_fields _ (s := s.abandon _) h fun _ => ⟨rfl, rfl⟩

theorem execBatchComplete_ok (r : WarpRef) (h : CrewsOk s.crews) : OutOk (execBatchComplete r s) := by
  unfold execBatchComplete
  split
  · exact (outOk_next _).mpr h
  · split
    · exact (outOk_next _).mpr h
    · split
      · exact (outOk_next _).mpr (crewsOk_modWarp_fields (s := s.releaseCmds _) _ h fun _ => ⟨rfl, rfl⟩)
      · exact (outOk_next _).mpr h

theorem xfenceEvent_ok (tc fc : BitVec 5) : EventOk (xfenceEvent tc fc) := by
  intro s c hs hc
  unfold xfenceEvent
  split
  · trivial
  · split
    · exact ⟨hs, hc⟩
    · dsimp only
      split
      · exact hs
      · exact ⟨hs, hc⟩

theorem execXfence_ok (tc fc : BitVec 5) (h : CrewsOk s.crews) : OutOk (execXfence tc fc s) := issueSing_ok (xfenceEvent_ok tc fc) h

theorem execXfenceResume_ok (r : StrandRef) (h : CrewsOk s.crews) : OutOk (execXfenceResume r s) := by
  unfold execXfenceResume
  split
  · refine (outOk_next _).mpr ?_
    split
    · exact crewsOk_resumeCur h (curOf_ok h ‹_›)
    · exact h
  · exact (outOk_next _).mpr h

end Sys2Proof.GroupProofs

/-!
PROOFS. The group (08): cursor instructions keep the masks.
-/

namespace Sys2Proof.GroupProofs

open Sys2Proof Sys2Proof.Machine Sys2Proof.Rules

variable {s : State} {c : Cur}

/-! ## Cursor instructions -/

section
variable {α β : Type}

/-- A walk keeps the masks inside the lanes. -/
structure WalkOk (w : Walk α) : Prop where
  keeps : ∀ x, Sound x → Yields (fun r => Sound r.2) (w x)

theorem walkOk_iff (w : Walk α) : WalkOk w ↔ ∀ x, Sound x → Yields (fun r => Sound r.2) (w x) := ⟨fun h => h.keeps, fun h => ⟨h⟩⟩

@[simp] theorem walkOk_pure (a : α) : WalkOk (pure a) := ⟨fun x hx => (yields_ok (P := fun r : α × State × Cur => Sound r.2) (a, x)).mpr hx⟩

@[simp] theorem walkOk_bind {w : Walk α} {f : α → Walk β} (hw : WalkOk w) (hf : ∀ a, WalkOk (f a)) : WalkOk (w >>= f) :=
  ⟨fun x hx => (yields_bind (w x) _).mpr ((hw.keeps x hx).imp fun r hr => (hf r.1).keeps r.2 hr)⟩

@[simp] theorem walkOk_map (w : Walk α) (f : α → β) : WalkOk (f <$> w) ↔ WalkOk w := by
  refine (walkOk_iff _).trans (Iff.trans (forall₂_congr fun x _ => ?_) (walkOk_iff w).symm)
  show Yields (fun r => Sound r.2) (w x >>= fun r => pure (f r.1, r.2)) ↔ _
  rw [yields_bind]
  exact forall₂_congr fun r _ => yields_ok (P := fun r : β × State × Cur => Sound r.2) (f r.1, r.2)

@[simp] theorem walkOk_stop (st : Stop) : WalkOk (Walk.stop st : Walk α) := ⟨fun _ _ => yields_error _⟩

@[simp] theorem walkOk_need (b : Bool) (st : Stop) : WalkOk (Walk.need b st) := ⟨fun _ hx => by simp [Walk.need, hx]⟩

@[simp] theorem walkOk_ofExcept (f : Cur → Except Stop α) : WalkOk (Walk.ofExcept f) :=
  ⟨fun _ hx => (yields_map _ _).mpr (Yields.of_forall fun _ => hx)⟩

@[simp] theorem walkOk_cur : WalkOk Walk.cur := ⟨fun x hx => (yields_ok (P := fun r : Cur × State × Cur => Sound r.2) (x.2, x)).mpr hx⟩

@[simp] theorem walkOk_ite (p : Prop) [Decidable p] (v w : Walk α) :
    WalkOk (if p then v else w) ↔ (p → WalkOk v) ∧ (¬p → WalkOk w) := by
  split <;> simp_all

theorem walkOk_mapCur {f : Cur → Cur} (hf : ∀ c, ViewOk (f c) ↔ ViewOk c) : WalkOk (Walk.mapCur f) :=
  ⟨fun x hx => (yields_ok (P := fun r : Unit × State × Cur => Sound r.2) ((), x.1, f x.2)).mpr ⟨hx.1, (hf x.2).mpr hx.2⟩⟩

end

@[simp] theorem walkOk_walkRead (va n : Nat) : WalkOk (walkRead va n) := by
  refine ⟨fun _ hx => ?_⟩
  unfold walkRead
  split
  · rename_i bs y e
    have hy : Sound y := loadIn_sound XReq.walker va n n hx (bs, y) e
    exact (yields_ok (P := fun r : Nat × State × Cur => Sound r.2) (ofBytes bs, y)).mpr hy
  · exact yields_error _

theorem inChunk_sound {w : Walk Unit} (hw : WalkOk w) : EffectOk w.inChunk :=
  fun s c hs hc => (yields_map _ _).mpr (hw.keeps (s, c) ⟨hs, hc⟩)

@[simp] theorem walkOk_readDesc (a k : Nat) : WalkOk (readDesc a k) := by simp [readDesc]
@[simp] theorem walkOk_readCursor (k : KReg) : WalkOk (readCursor k) := by simp [readCursor]
@[simp] theorem walkOk_descOf (x : Cursor) (k : KReg) : WalkOk (descOf x k) := by simp [descOf, LDesc.fits]

variable (d : LDesc)

@[simp] theorem walkOk_bitWord (k idx hi : Nat) : WalkOk (d.bitWord k idx hi) := by simp [LDesc.bitWord]
@[simp] theorem walkOk_bitPos (w idx : Nat) : WalkOk (d.bitPos w idx) := by simp [LDesc.bitPos]
@[simp] theorem walkOk_single (k idx sub coord pos : Nat) : WalkOk (d.single k idx sub coord pos) := by simp [LDesc.single]

@[simp] theorem walkOk_spot (k lo hi idx sub : Nat) : WalkOk (d.spot k lo hi idx sub) := by
  unfold LDesc.spot
  dsimp only
  split
  · simp
  · simp
  · refine walkOk_bind (walkOk_bitWord ..) fun w => ?_
    split <;> simp
  · simp
  · refine walkOk_bind (by simp) fun _ => walkOk_bind (by simp) fun _ => ?_
    simp
  · simp

@[simp] theorem walkOk_find (k lo hi n idx sub : Nat) (prev : Option Nat) : WalkOk (d.find k lo hi n idx sub prev) := by
  induction n generalizing idx sub prev with
  | zero => exact walkOk_pure _
  | succ n ih =>
    unfold LDesc.find
    split
    · exact walkOk_pure _
    · refine walkOk_bind (walkOk_spot ..) fun x => ?_
      split
      · exact ih ..
      · simp

@[simp] theorem walkOk_bounds (p : Nat) : WalkOk (d.bounds p) := by
  unfold LDesc.bounds
  split <;> simp

@[simp] theorem walkOk_position (k lo hi : Nat) : WalkOk (d.position k lo hi) := walkOk_find ..

@[simp] theorem walkOk_descBind (k p : Nat) : WalkOk (d.bind k p) := by simp [LDesc.bind]

@[simp] theorem walkOk_advance (k : Nat) (x : Cursor) : WalkOk (d.advance k x) := by simp [LDesc.advance]

@[simp] theorem walkOk_kinitAddr (a : W64) (kd : KReg) : WalkOk (kinitAddr a kd) := by simp [kinitAddr]

theorem walkOk_kinitR (o : KinitOps) : WalkOk (kinitR o) := by
  unfold kinitR
  repeat' with_reducible refine walkOk_bind ?_ fun _ => ?_
  all_goals simp [walkOk_mapCur]

@[simp] theorem walkOk_deliver (k : Nat) (ls : List Nat) (x : Cursor) : WalkOk (d.deliver k ls x) := by
  induction ls generalizing x with
  | nil => exact walkOk_pure _
  | cons l ls ih => simp [LDesc.deliver, ih]

theorem walkOk_knext (o : KnextOps) : WalkOk (knext o) := by
  unfold knext
  repeat' with_reducible refine walkOk_bind ?_ fun _ => ?_
  all_goals simp [walkOk_mapCur]
theorem walkOk_knextS (o : KinitOps) : WalkOk (knextS o) := by
  unfold knextS
  repeat' with_reducible refine walkOk_bind ?_ fun _ => ?_
  all_goals simp [walkOk_mapCur]

@[simp] theorem walkOk_seek (k v n : Nat) (x : Cursor) : WalkOk (d.seek k v n x) := by
  induction n generalizing x with
  | zero => exact walkOk_pure _
  | succ n ih => simp [LDesc.seek, ih]

theorem walkOk_kseek (o : KinitOps) : WalkOk (kseek o) := by
  unfold kseek
  repeat' with_reducible refine walkOk_bind ?_ fun _ => ?_
  all_goals simp [walkOk_mapCur]
theorem walkOk_kdesc (kd ka : KReg) : WalkOk (kdesc kd ka) := by
  unfold kdesc
  repeat' with_reducible refine walkOk_bind ?_ fun _ => ?_
  all_goals simp [walkOk_mapCur]

theorem execKinitR_ok (o : KinitOps) (h : CrewsOk s.crews) : OutOk (execKinitR o s) := issue_ok (inChunk_sound (walkOk_kinitR o)) h
theorem execKnext_ok (o : KnextOps) (h : CrewsOk s.crews) : OutOk (execKnext o s) := issue_ok (inChunk_sound (walkOk_knext o)) h
theorem execKnextS_ok (o : KinitOps) (h : CrewsOk s.crews) : OutOk (execKnextS o s) := issue_ok (inChunk_sound (walkOk_knextS o)) h
theorem execKseek_ok (o : KinitOps) (h : CrewsOk s.crews) : OutOk (execKseek o s) := issue_ok (inChunk_sound (walkOk_kseek o)) h
theorem execKdesc_ok (kd ka : KReg) (cf : Cf) (h : CrewsOk s.crews) : OutOk (execKdesc kd ka cf s) :=
  issue_ok (inChunk_sound (walkOk_kdesc kd ka)) h

/-- Two computations in a row. -/
theorem Yields.bind {ε α β : Type} {P : α → Prop} {Q : β → Prop} {x : Except ε α} {f : α → Except ε β} (hx : Yields P x)
    (hf : ∀ a, P a → Yields Q (f a)) : Yields Q (x >>= f) := (yields_bind x f).mpr (hx.imp hf)

/-- A computation whose answer the masks do not depend on, and what follows it. -/
theorem Yields.skip {ε α β : Type} {Q : β → Prop} {x : Except ε α} {f : α → Except ε β} (hf : ∀ a, Yields Q (f a)) :
    Yields Q (x >>= f) := (yields_bind x f).mpr (Yields.of_forall hf)

theorem kldChunk_sound (o : KldOps) : EffectOk (kldChunk o) := by
  intro s c hs hc
  have hr : ∀ (ok : List (Nat × Nat × Leaf)) (d : Cur),
      ViewOk (ok.foldl (fun c x => (c.readG x.2.2.pa (KWidth.bytes o.w)).usePage x.2.1) d) ↔ ViewOk d :=
    fun ok d => viewOk_foldl d fun d x _ => by simp
  unfold kldChunk
  refine Yields.skip fun ds => Yields.skip fun _ => ?_
  refine Yields.bind (P := fun r : LDesc × State × Cur => Sound r.2) ?_ fun r hr' => ?_
  · refine (walkOk_bind (walkOk_readCursor o.ka) fun x => walkOk_bind (walkOk_walkRead ..) fun y => ?_).keeps (s, c) ⟨hs, hc⟩
    simp [LDesc.fits]
  · refine Yields.skip fun _ => Yields.skip fun vp => Yields.skip fun ok => ?_
    simp [hr, crews_useLeaves, hr'.1, hr'.2]

theorem execKld_ok (o : KldOps) (h : CrewsOk s.crews) : OutOk (execKld o s) := issue_ok (kldChunk_sound o) h

theorem execKqry_ok (o : KqryOps) (h : CrewsOk s.crews) : OutOk (execKqry o s) := issueC_ok (fun c hc => by simp [hc]) h

theorem ksave_sound (o : KmemOps) : EffectOk (ksave o) := by
  intro s c hs hc
  unfold ksave
  dsimp only
  split
  · refine Yields.skip fun _ => ?_
    split <;> simp [hs, hc]
  · exact storeIn_sound _ _ _ _ ⟨hs, hc⟩

theorem execKsave_ok (o : KmemOps) (h : CrewsOk s.crews) : OutOk (execKsave o s) := issue_ok (ksave_sound o) h

theorem krestRead_sound (o : KmemOps) (hs : CrewsOk s.crews) (hc : ViewOk c) :
    Yields (fun r => Sound r.2) (krestRead o s c) := by
  unfold krestRead
  dsimp only
  split
  · exact Yields.skip fun _ => by simp [hs, hc]
  · exact loadIn_sound _ _ _ _ ⟨hs, hc⟩

@[simp] theorem walkOk_recOk (d : LDesc) (k : Nat) (x : Cursor) : WalkOk (d.recOk k x) := by
  unfold LDesc.recOk
  refine walkOk_bind (by simp) fun _ => walkOk_bind (by simp) fun _ => ?_
  split
  · simp
  · refine walkOk_bind (walkOk_spot ..) fun y => ?_
    split <;> simp

theorem krest_sound (o : KmemOps) : EffectOk (krest o) := by
  intro s c hs hc
  refine Yields.bind (krestRead_sound o hs hc) fun r hr => ?_
  dsimp only
  split
  · simp [hr.1, hr.2]
  · refine Yields.skip fun _ => Yields.bind (P := fun r : Unit × State × Cur => Sound r.2) ?_ fun r hr' => ?_
    · exact (walkOk_bind (walkOk_readDesc ..) fun d => walkOk_recOk ..).keeps r.2 hr
    · simp [hr'.1, hr'.2]

theorem execKrest_ok (o : KmemOps) (h : CrewsOk s.crews) : OutOk (execKrest o s) := issue_ok (krest_sound o) h

/-! ## Co-iteration -/

@[simp] theorem walkOk_probeHash (d : LDesc) (k lo hi c n i : Nat) : WalkOk (d.probeHash k lo hi c n i) := by
  induction n generalizing i with
  | zero => exact walkOk_pure _
  | succ n ih =>
    unfold LDesc.probeHash
    dsimp only
    split
    · exact walkOk_pure _
    · refine walkOk_bind (by simp) fun x => ?_
      split
      · exact walkOk_pure _
      · refine walkOk_bind (by simp) fun x => ?_
        split
        · simp
        · exact ih _

@[simp] theorem walkOk_probe (d : LDesc) (k : Nat) (p : Cursor) (c : Nat) : WalkOk (d.probe k p c) := by
  unfold LDesc.probe
  dsimp only
  split
  · exact walkOk_pure _
  · split
    · exact walkOk_pure _
    · split
      · exact walkOk_pure _
      · refine walkOk_bind (by simp) fun w => ?_
        split
        · exact walkOk_bind (by simp) fun _ => by simp
        · exact walkOk_pure _
    · simp
    · simp

variable (x : CoSt)

@[simp] theorem walkOk_stepA : WalkOk x.stepA := by simp [CoSt.stepA]
@[simp] theorem walkOk_stepB : WalkOk x.stepB := by simp [CoSt.stepB]

@[simp] theorem walkOk_mergeI (n : Nat) : WalkOk (CoSt.mergeI n x) := by
  induction n generalizing x with
  | zero => exact walkOk_pure _
  | succ n ih => simp [CoSt.mergeI, ih]

@[simp] theorem walkOk_mergeU : WalkOk x.mergeU := by simp [CoSt.mergeU]

@[simp] theorem walkOk_probing (aDrives : Bool) (n : Nat) : WalkOk (CoSt.probing aDrives n x) := by
  induction n generalizing x with
  | zero => exact walkOk_pure _
  | succ n ih =>
    unfold CoSt.probing
    split
    · exact walkOk_pure _
    · split
      · refine walkOk_bind (by simp) fun q => walkOk_bind (by simp) fun y => ?_
        split
        · exact walkOk_pure _
        · exact ih y
      · refine walkOk_bind (by simp) fun q => walkOk_bind (by simp) fun y => ?_
        split
        · exact walkOk_pure _
        · exact ih y

@[simp] theorem walkOk_next (m : CoMode) (union : Bool) : WalkOk (x.next m union) := by cases m <;> simp [CoSt.next]

@[simp] theorem walkOk_coDeliver (m : CoMode) (union : Bool) (ls : List Nat) : WalkOk (CoSt.deliver m union ls x) := by
  induction ls generalizing x with
  | nil => exact walkOk_pure _
  | cons l ls ih =>
    refine walkOk_bind (by simp) fun r => ?_
    split
    · exact walkOk_pure _
    · simp [ih]

theorem walkOk_kco (union : Bool) (o : KcoOps) : WalkOk (kco union o) := by
  unfold kco
  iterate 6 refine walkOk_bind (by simp) fun _ => ?_
  split
  · exact walkOk_stop _
  · iterate 3 refine walkOk_bind (by simp) fun _ => ?_
    exact walkOk_mapCur fun c => by simp

theorem execKcoI_ok (o : KcoOps) (h : CrewsOk s.crews) : OutOk (execKcoI o s) := issue_ok (inChunk_sound (walkOk_kco false o)) h
theorem execKcoU_ok (o : KcoOps) (h : CrewsOk s.crews) : OutOk (execKcoU o s) := issue_ok (inChunk_sound (walkOk_kco true o)) h

/-! ## Append cursors and compaction -/

@[simp] theorem walkOk_kinitATemplate (o : KinitOps) : WalkOk (kinitATemplate o) := by
  unfold kinitATemplate
  repeat' with_reducible refine walkOk_bind ?_ fun _ => ?_
  all_goals simp

theorem kinitARead_sound (o : KinitOps) (t : Option (Nat × Nat)) (hs : CrewsOk s.crews) (hc : ViewOk c) :
    Yields (fun r => Sound r.2) (kinitARead o t s c) := by
  unfold kinitARead
  split
  · simp [hs, hc]
  · exact (yields_map _ _).mpr ((walkOk_kinitATemplate o).keeps (s, c) ⟨hs, hc⟩)

theorem kinitAEvent_ok (o : KinitOps) (t : Option (Nat × Nat)) : EventOk (kinitAEvent o t) := by
  intro s c hs hc
  unfold kinitAEvent
  split
  · trivial
  · have hr := kinitARead_sound o t hs hc _ ‹_›
    dsimp only
    split
    · trivial
    · exact ⟨hr.1, (viewOk_setK ..).mpr hr.2⟩

theorem crewsOk_performKinitA (o : KinitOps) (h : CrewsOk s.crews) (hc : ViewOk c) : CrewsOk (s.performKinitA c o).crews := by
  unfold State.performKinitA
  dsimp only
  split
  · rename_i d s' c' _ e
    have hr := (walkOk_kinitATemplate o).keeps (s, c) ⟨h, hc⟩ _ e
    split
    · exact crewsOk_setWait _ _ (crewsOk_endBefore _ (s := { s'.putCur c' with caches := s'.caches.note c'.crew.core c'.acc })
        (crewsOk_putCur (s := s') hr.1 hr.2))
    · exact crewsOk_performSing (kinitAEvent_ok o none) h hc
  · exact crewsOk_performSing (kinitAEvent_ok o none) h hc

theorem execKinitA_ok (o : KinitOps) (h : CrewsOk s.crews) : OutOk (execKinitA o s) := by
  unfold execKinitA
  split
  · exact outOk_fault _
  · split
    · exact (outOk_next _).mpr (crewsOk_performKinitA o h (cur?_ok h ‹_›))
    · exact outOk_fault _

/-- A fold of steps that each keep the masks. -/
theorem yields_foldlM {α β ε : Type} {P : α → Prop} {f : α → β → Except ε α} (hf : ∀ a b, P a → Yields P (f a b)) (l : List β) {a : α}
    (ha : P a) : Yields P (l.foldlM f a) := by
  induction l generalizing a with
  | nil => exact (yields_ok a).mpr ha
  | cons b l ih =>
    rw [List.foldlM_cons]
    exact Yields.bind (hf a b ha) fun a' ha' => ih ha'

theorem appendStores_sound (x : Cursor) (items : List Item) : EffectOk (appendStores x items) := by
  intro s c hs hc
  refine Yields.skip fun _ => yields_foldlM (fun y i hy => ?_) _ ⟨hs, hc⟩
  exact Yields.bind (storeIn_sound _ _ _ _ hy) fun z hz => storeIn_sound _ _ _ _ hz

theorem appendItems_sound (k : KReg) (x : Cursor) (cands : List Item) (hs : CrewsOk s.crews) (hc : ViewOk c) :
    Yields (fun r => Sound r.2.2) (appendItems k x cands s c) :=
  Yields.bind (appendStores_sound x _ s c hs hc) fun y hy => by simp [hy.1, hy.2]

theorem kapp_sound (o : KappOps) : EffectOk (kapp o) := by
  intro s c hs hc
  iterate 5 refine Yields.skip fun _ => ?_
  exact Yields.bind (appendItems_sound _ _ _ hs hc) fun r hr => by simp [hr.1, hr.2]

theorem execKapp_ok (o : KappOps) (h : CrewsOk s.crews) : OutOk (execKapp o s) := issue_ok (kapp_sound o) h

theorem kfin_sound (o : KinitOps) : EffectOk (kfin o) := by
  intro s c hs hc
  refine Yields.skip fun x => Yields.bind (storesIn_sound _ _ _ ⟨hs, hc⟩) fun y hy => ?_
  exact Yields.bind ((walkOk_position _ _ _ _).keeps y hy) fun r hr => by simp [hr.1, hr.2]

theorem execKfin_ok (o : KinitOps) (h : CrewsOk s.crews) : OutOk (execKfin o s) := issue_ok (kfin_sound o) h

theorem sieveNz_sound (o : SieveOps) : EffectOk (sieveNz o) := by
  intro s c hs hc
  iterate 3 refine Yields.skip fun _ => ?_
  exact Yields.bind (appendItems_sound _ _ _ hs hc) fun r hr => by simp [hr.1, hr.2]

theorem execSieveNz_ok (o : SieveOps) (h : CrewsOk s.crews) : OutOk (execSieveNz o s) := issue_ok (sieveNz_sound o) h

theorem sieveDelta_sound (o : DeltaOps) : EffectOk (sieveDelta o) := by
  intro s c hs hc
  iterate 5 refine Yields.skip fun _ => ?_
  exact Yields.bind (appendItems_sound _ _ _ hs hc) fun r hr => by simp [hr.1, hr.2]

theorem execSieveDelta_ok (o : DeltaOps) (h : CrewsOk s.crews) : OutOk (execSieveDelta o s) := issue_ok (sieveDelta_sound o) h

end Sys2Proof.GroupProofs

/-!
PROOFS. The group (08): engines, links and the instructions on values keep the masks.
-/

namespace Sys2Proof.GroupProofs

open Sys2Proof Sys2Proof.Machine Sys2Proof.Rules

variable {s : State} {c : Cur}

/-! ## Accesses of engines -/

/-- How an access of an engine went: the state that it leaves. -/
def EngOk : EngRes → Prop
  | .ok s _ => CrewsOk s.crews
  | _ => True

theorem engineXlate_error {x : Cmd} {w : Bool} {va : Nat} {e : EngRes} (he : s.engineXlate x w va = .error e) : EngOk e := by
  unfold State.engineXlate at he
  extract_lets wrong at he
  clear_value wrong
  split at he
  · cases he
    trivial
  · cases he
    trivial
  · split at he
    · cases he
      trivial
    · split at he <;> cases he <;> trivial
  · cases he
    trivial
  · split at he <;> cases he
    trivial

theorem engineRead_ok (x : Cmd) (l : Loc) (h : CrewsOk s.crews) : EngOk (s.engineRead x l) := by
  cases l with
  | glob va n =>
    unfold State.engineRead
    dsimp only
    split
    · exact engineXlate_error ‹_›
    · split
      · trivial
      · exact h
  | crew off n =>
    unfold State.engineRead
    dsimp only
    split
    · trivial
    · split
      · trivial
      · exact h

theorem crewsOk_writeCrew (r : CrewRef) (off : Nat) (bs : List Byte) (h : CrewsOk s.crews) : CrewsOk (s.writeCrew r off bs).crews :=
  crewsOk_conflict _ (crewsOk_modCrew r h fun _ hc => crewOk_of_warps rfl hc)

theorem engineWrite_ok (x : Cmd) (bs : List Byte) (l : Loc) (h : CrewsOk s.crews) : EngOk (s.engineWrite x bs l) := by
  cases l with
  | glob va n =>
    unfold State.engineWrite
    dsimp only
    split
    · exact engineXlate_error ‹_›
    · split
      · trivial
      · exact crewsOk_writeG _ _ _ (s := s.fill _ _ _) h
  | crew off n =>
    unfold State.engineWrite
    dsimp only
    split
    · trivial
    · split
      · trivial
      · split
        · trivial
        · exact crewsOk_writeCrew _ _ _ h

theorem crewsOk_engineStall (x : Cmd) (pf : PageFault) (h : CrewsOk s.crews) : CrewsOk (s.engineStall x pf).crews := by
  unfold State.engineStall
  split
  · exact h
  · exact crewsOk_attachFault _ _ _ _ h

theorem crewsOk_engineDo (x : Cmd) {r : EngRes} {f : State → List Byte → State} (h : CrewsOk s.crews) (hr : EngOk r)
    (hf : ∀ t bs, CrewsOk t.crews → CrewsOk (f t bs).crews) : CrewsOk (s.engineDo x r f).crews := by
  cases r with
  | ok t bs => exact hf t bs hr
  | fatal k va => exact crewsOk_cmdFault x k va (s := s.forget x.ctx va) h
  | stall pf => exact crewsOk_engineStall x pf h
  | blocked => exact h

theorem masksOk_latchWin (ctx win : Nat) (w : Window) (r : Nat) (t : Strand) : (Strand.latchWin ctx win w r t).masksOk = t.masksOk := by
  unfold Strand.latchWin
  split
  · exact (apply_ite Strand.masksOk _ _ _).trans (ite_self _)
  · rfl

theorem crewsOk_latchWindow (ctx win : Nat) (h : CrewsOk s.crews) : CrewsOk (s.latchWindow ctx win).crews := by
  unfold State.latchWindow
  split
  · exact h
  · intro k hk
    obtain ⟨j, hj, rfl⟩ := List.mem_map.mp hk
    exact crewOk_map rfl (h j hj) fun w hw => masksOk_mapStrands hw fun t ht => (masksOk_latchWin ..).trans ht

theorem crewsOk_modWindow (ctx win : Nat) (f : Window → Window) (h : CrewsOk s.crews) : CrewsOk (s.modWindow ctx win f).crews :=
  crewsOk_latchWindow ctx win (s := s.modCtx ctx fun c => c.modWindow win f) h

@[simp] theorem crews_flitsOf (s : State) (x : Cmd) : (s.flitsOf x).crews = s.crews := by
  unfold State.flitsOf
  split <;> rfl

theorem crewsOk_unitDone (x : Cmd) (k : Nat) (h : CrewsOk s.crews) : CrewsOk (s.unitDone x k).crews := by
  have hf : ∀ f, CrewsOk ((s.flitsOf x).modCmd x.id f).crews := fun f => (crews_flitsOf s x).symm ▸ h
  unfold State.unitDone
  dsimp only
  split
  · split
    · exact crewsOk_modWindow _ _ _ (hf _)
    · exact hf _
  · exact hf _

theorem crewsOk_engineUnit (x : Cmd) (k : Nat) (h : CrewsOk s.crews) : CrewsOk (s.engineUnit x k).crews := by
  unfold State.engineUnit
  split
  · refine crewsOk_engineDo _ h (engineRead_ok _ _ h) fun t bs ht => ?_
    split
    · exact crewsOk_unitDone _ _ ht
    · exact ht
  · exact crewsOk_engineDo _ h (engineWrite_ok _ _ _ h) fun t bs ht => crewsOk_unitDone _ _ ht
  · split
    · exact crewsOk_engineDo _ h (engineWrite_ok _ _ _ h) fun t bs ht => crewsOk_unitDone _ _ ht
    · exact h
  · exact h

theorem execEngineAccess_ok (id k : Nat) (h : CrewsOk s.crews) : OutOk (execEngineAccess id k s) := by
  unfold execEngineAccess
  split
  · exact (outOk_next _).mpr h
  · split
    · exact (outOk_next _).mpr (crewsOk_engineUnit _ _ h)
    · exact (outOk_next _).mpr h

/-! ## Links -/

@[simp] theorem viewOk_wcDone (c : Cur) (o : WcOps) (v : W64) (fr : Bool) : ViewOk (c.wcDone o v fr) ↔ ViewOk c := by simp [Cur.wcDone]

theorem wcEvent_ok (d : Bool) (o : WcOps) : EventOk (wcEvent d o) := by
  intro s c hs hc
  unfold wcEvent
  split
  · trivial
  · split
    · exact ⟨hs, (viewOk_wcDone ..).mpr hc⟩
    · exact hs

theorem wcwait_ok (d : Bool) (o : WcOps) (h : CrewsOk s.crews) : OutOk (wcwait d o s) := issueSing_ok (wcEvent_ok d o) h

theorem execWcwaitWake_ok (r : StrandRef) (h : CrewsOk s.crews) : OutOk (execWcwaitWake r s) := by
  unfold execWcwaitWake
  split
  · exact (outOk_next _).mpr (crewsOk_resumeCur h ((viewOk_wcDone ..).mpr (curOf_ok h ‹_›)))
  · exact (outOk_next _).mpr h

theorem crewsOk_endWindowCmds (ctx win : Nat) (h : CrewsOk s.crews) : CrewsOk (s.endWindowCmds ctx win).crews :=
  crewsOk_foldl h fun s _ _ hs => crewsOk_cmdFault _ _ _ (s := s.modCmd _ _) hs

theorem crewsOk_freezeWindow (ctx win : Nat) (h : CrewsOk s.crews) : CrewsOk (s.freezeWindow ctx win).crews :=
  crewsOk_modWindow _ _ _ (s := { (s.endWindowCmds ctx win).pruneFences with peers := _ }) (crewsOk_endWindowCmds ctx win h)

theorem crewsOk_linkEvent (ctx i new old lanes : Nat) (fr : List Nat) (h : CrewsOk s.crews) :
    CrewsOk (s.linkEvent ctx i new old lanes fr).crews := crewsOk_event _ _ _ h

theorem crewsOk_linkLost (i : Nat) (st : LinkSt) (h : CrewsOk s.crews) : CrewsOk (s.linkLost i st).crews := by
  unfold State.linkLost
  split
  · exact h
  · refine crewsOk_foldl h fun s n _ hs => ?_
    split
    · exact hs
    · exact crewsOk_linkEvent _ _ _ _ _ _ (crewsOk_foldl hs fun _ _ _ hs => crewsOk_freezeWindow _ _ hs)

theorem crewsOk_linkUp (i lanes : Nat) (st : LinkSt) (h : CrewsOk s.crews) : CrewsOk (s.linkUp i lanes st).crews := by
  unfold State.linkUp
  split
  · exact h
  · refine crewsOk_foldl h fun s n _ hs => ?_
    split
    · exact hs
    · exact crewsOk_linkEvent _ _ _ _ _ _ hs

theorem execLinkTrainingDone_ok (link lanes : Nat) (h : CrewsOk s.crews) : OutOk (execLinkTrainingDone link lanes s) := by
  unfold execLinkTrainingDone
  split
  · exact (outOk_next _).mpr h
  · split
    · refine (outOk_next _).mpr ?_
      split
      · exact crewsOk_linkUp _ _ _ h
      · split
        · exact crewsOk_linkUp _ _ _ h
        · exact crewsOk_linkLost _ _ h
    · exact (outOk_next _).mpr h

theorem execLinkLaneLoss_ok (link lanes : Nat) (h : CrewsOk s.crews) : OutOk (execLinkLaneLoss link lanes s) := by
  unfold execLinkLaneLoss
  split
  · exact (outOk_next _).mpr h
  · split
    · refine (outOk_next _).mpr ?_
      split
      · exact crewsOk_linkLost _ _ h
      · split
        · exact crewsOk_linkUp _ _ _ h
        · exact h
    · exact (outOk_next _).mpr h

theorem execLinkFailure_ok (link : Nat) (h : CrewsOk s.crews) : OutOk (execLinkFailure link s) := by
  unfold execLinkFailure
  split
  · exact (outOk_next _).mpr h
  · refine (outOk_next _).mpr ?_
    split
    · exact crewsOk_linkLost _ _ h
    · exact h

theorem crewsOk_peerRefuse (p : PeerCmd) (h : CrewsOk s.crews) : CrewsOk (s.peerRefuse p).crews := by
  unfold State.peerRefuse
  dsimp only
  split <;> exact h

theorem crewsOk_peerFault (p : PeerCmd) (va : Nat) (e : XErr) (h : CrewsOk s.crews) : CrewsOk (s.peerFault p va e).crews := by
  unfold State.peerFault
  split
  · exact crewsOk_attachFault _ _ _ _ h
  · exact crewsOk_peerRefuse p h

theorem crewsOk_putWord (p : PeerCmd) (o : PeerOps) (v : W32) (h : CrewsOk s.crews) : CrewsOk (s.putWord p o v).crews := by
  unfold State.putWord
  split
  · exact crewsOk_peerRefuse p h
  · exact crewsOk_peerFault _ _ _ (s := s.forget _ _) h
  · split
    · exact h
    · dsimp only
      exact crewsOk_writeG _ _ _ h

theorem crewsOk_putEnd (p : PeerCmd) (h : CrewsOk s.crews) : CrewsOk (s.putEnd p).crews := by
  unfold State.putEnd
  split
  · exact h
  · split
    · exact h
    · split
      · split
        · exact crewsOk_modWindow _ _ _ (s := s.dropPeer p) h
        · exact h
      · exact h

theorem execLinkRemotePut_ok (ctx win : Nat) (off : PeerUnit) (w : Option W32) (h : CrewsOk s.crews) :
    OutOk (execLinkRemotePut ctx win off w s) := by
  refine (outOk_next _).mpr ?_
  split
  · exact crewsOk_putEnd _ h
  · split
    · exact crewsOk_putWord _ _ _ h
    · exact h

theorem crewsOk_getWord (p : PeerCmd) (o : PeerOps) (h : CrewsOk s.crews) : CrewsOk (s.getWord p o).crews := by
  unfold State.getWord
  split
  · exact crewsOk_peerRefuse p h
  · exact crewsOk_peerFault _ _ _ (s := s.forget _ _) h
  · split
    · exact crewsOk_peerRefuse p h
    · have hp : ∀ (b : Bool) q, CrewsOk (if b then s.dropPeer q else s.putPeer q).crews := fun b q => by cases b <;> exact h
      dsimp only
      exact hp _ _

theorem execLinkRemoteGet_ok (ctx win : Nat) (off : PeerUnit) (h : CrewsOk s.crews) : OutOk (execLinkRemoteGet ctx win off s) := by
  refine (outOk_next _).mpr ?_
  split
  · exact crewsOk_getWord _ _ h
  · exact h

@[simp] theorem crews_answerPeer (s : State) (ctx id fault : Nat) (fail : Bool) : (s.answerPeer ctx id fault fail).crews = s.crews := by
  unfold State.answerPeer
  split
  · rfl
  · split <;> rfl

theorem execLinkPutAck_ok (cmd : Nat) (h : CrewsOk s.crews) : OutOk (execLinkPutAck cmd s) := by
  unfold execLinkPutAck
  split
  · exact (outOk_next _).mpr h
  · split
    · refine (outOk_next _).mpr ?_
      split
      · exact crewsOk_modWindow _ _ _ ((crews_flitsOf (s.modCmd cmd _) _).symm ▸ h)
      · exact h
    · exact (outOk_next _).mpr h

theorem execLinkGetData_ok (cmd k : Nat) (w : W32) (h : CrewsOk s.crews) : OutOk (execLinkGetData cmd k w s) := by
  unfold execLinkGetData
  split
  · exact (outOk_next _).mpr h
  · split
    · refine (outOk_next _).mpr ?_
      split
      · exact (crews_flitsOf s _).symm ▸ h
      · exact h
    · exact (outOk_next _).mpr h

theorem execLinkPeerFault_ok (cmd : Nat) (h : CrewsOk s.crews) : OutOk (execLinkPeerFault cmd s) := by
  unfold execLinkPeerFault
  split
  · exact (outOk_next _).mpr h
  · refine (outOk_next _).mpr ?_
    split
    · exact crewsOk_cmdFault _ _ _ h
    · exact h

/-! ## Scalar instructions -/

theorem salu_ok (f : W64 → W64 → W64) (o : SAluOps) (h : CrewsOk s.crews) : OutOk (salu f o s) := issueC_ok (fun c hc => by simp [hc]) h
theorem execSsel_ok (o : SselOps) (h : CrewsOk s.crews) : OutOk (execSsel o s) := issueC_ok (fun c hc => by simp [hc]) h
theorem sbit_ok (f : Nat → Nat) (o : SUnOps) (h : CrewsOk s.crews) : OutOk (sbit f o s) := issueC_ok (fun c hc => by simp [hc]) h
theorem execSbfe_ok (o : SbfOps) (h : CrewsOk s.crews) : OutOk (execSbfe o s) := issueC_ok (fun c hc => by simp [hc]) h
theorem execSbfi_ok (o : SbfOps) (h : CrewsOk s.crews) : OutOk (execSbfi o s) := issueC_ok (fun c hc => by simp [hc]) h

/-! ## Vector instructions -/

theorem valu_ok (f : ValuFn) (o : VOps) (h : CrewsOk s.crews) : OutOk (valu f o s) := issueC_ok (fun c hc => by simp [Cur.valu, hc]) h
theorem valui_ok (f : ValuFn) (o : VIOps) (h : CrewsOk s.crews) : OutOk (valui f o s) := issueC_ok (fun c hc => by simp [Cur.valui, hc]) h

theorem carryOp_ok (f : W32 → W32 → Bool → W32 × Bool) (o : VCarryOps) (h : CrewsOk s.crews) : OutOk (carryOp f o s) :=
  issueC_ok (fun c hc => by simp [hc]) h

theorem vmad_ok (num : W32 → Int) (o : VMadOps) (h : CrewsOk s.crews) : OutOk (vmad num o s) := by
  refine issueC_ok (fun c hc => ?_) h
  iterate 5 refine Yields.skip fun _ => ?_
  dsimp only
  split <;> simp [hc]

theorem vcmp_ok (k : Cc) (o : VCmpOps) (h : CrewsOk s.crews) : OutOk (vcmp k o s) := issueC_ok (fun c hc => by simp [hc]) h
theorem execVsel_ok (o : VselOps) (h : CrewsOk s.crews) : OutOk (execVsel o s) := issueC_ok (fun c hc => by simp [Cur.vsel, hc]) h
theorem execVmov_ok (o : VMoveOps) (h : CrewsOk s.crews) : OutOk (execVmov o s) := issueC_ok (fun c hc => by simp [Cur.vmov, hc]) h
theorem execVli_ok (o : VliOps) (h : CrewsOk s.crews) : OutOk (execVli o s) := issueC_ok (fun c hc => by simp [hc]) h
theorem execVliHi_ok (o : VliOps) (h : CrewsOk s.crews) : OutOk (execVliHi o s) := issueC_ok (fun c hc => by simp [hc]) h
theorem execVliDup_ok (o : VliOps) (h : CrewsOk s.crews) : OutOk (execVliDup o s) := issueC_ok (fun c hc => by simp [hc]) h
theorem vbit1_ok (f : Nat → Nat) (o : VUnOps) (h : CrewsOk s.crews) : OutOk (vbit1 f o s) := issueC_ok (fun c hc => by simp [hc]) h
theorem execVbfe_ok (o : VOps) (h : CrewsOk s.crews) : OutOk (execVbfe o s) := issueC_ok (fun c hc => by simp [hc]) h
theorem vbit3_ok (f : W32 → W32 → W32 → W32) (o : V3Ops) (h : CrewsOk s.crews) : OutOk (vbit3 f o s) := issueC_ok (fun c hc => by simp [hc]) h
theorem vdot4_ok (ta tb tc : Tag) (o : VdotOps) (h : CrewsOk s.crews) : OutOk (vdot4 ta tb tc o s) := issueC_ok (fun c hc => by simp [hc]) h

/-! ## Floating-point instructions -/

theorem falu_keeps (f : FaluFn) (o : FOps) : StrandEffectOk (fun c => c.falu f o) := fun c hc => by simp [Cur.falu, hc]
theorem ffma_keeps (f : FfmaFn) (o : FfmaOps) : StrandEffectOk (fun c => c.ffma f o) := fun c hc => by simp [Cur.ffma, hc]
theorem execFadd_ok (o : FOps) (h : CrewsOk s.crews) : OutOk (execFadd o s) := issueC_ok (falu_keeps .add o) h
theorem execFsub_ok (o : FOps) (h : CrewsOk s.crews) : OutOk (execFsub o s) := issueC_ok (falu_keeps .sub o) h
theorem execFmul_ok (o : FOps) (h : CrewsOk s.crews) : OutOk (execFmul o s) := issueC_ok (falu_keeps .mul o) h
theorem execFfma_ok (o : FfmaOps) (h : CrewsOk s.crews) : OutOk (execFfma o s) := issueC_ok (ffma_keeps .ffma o) h
theorem execFfms_ok (o : FfmaOps) (h : CrewsOk s.crews) : OutOk (execFfms o s) := issueC_ok (ffma_keeps .ffms o) h
theorem execFfnma_ok (o : FfmaOps) (h : CrewsOk s.crews) : OutOk (execFfnma o s) := issueC_ok (ffma_keeps .ffnma o) h
theorem fminmax_ok (mx : Bool) (o : VOps) (h : CrewsOk s.crews) : OutOk (fminmax mx o s) := issueC_ok (fun c hc => by simp [hc]) h
theorem execFscale_ok (o : FOps) (h : CrewsOk s.crews) : OutOk (execFscale o s) := issueC_ok (fun c hc => by simp [hc]) h
theorem fcmp_ok (k : FCc) (o : FcmpOps) (h : CrewsOk s.crews) : OutOk (fcmp k o s) := issueC_ok (fun c hc => by simp [hc]) h
theorem execFclass_ok (o : FclassOps) (h : CrewsOk s.crews) : OutOk (execFclass o s) := issueC_ok (fun c hc => by simp [hc]) h
theorem fsf_ok (f : SfFn) (o : FsfOps) (h : CrewsOk s.crews) : OutOk (fsf f o s) := issueC_ok (fun c hc => by simp [hc]) h
theorem execCvt_ok (o : CvtOps) (h : CrewsOk s.crews) : OutOk (execCvt o s) := issueC_ok (fun c hc => by simp [hc]) h
theorem execCvtmxQ_ok (o : CvtmxOps) (h : CrewsOk s.crews) : OutOk (execCvtmxQ o s) := issueC_ok (fun c hc => by simp [hc]) h
theorem execCvtmxD_ok (o : CvtmxOps) (h : CrewsOk s.crews) : OutOk (execCvtmxD o s) := issueC_ok (fun c hc => by simp [hc]) h

/-! ## Tiles -/

theorem aldChunk_sound (o : TileMemOps) : EffectOk (aldChunk o) := by
  intro s c hs hc
  have hr : ∀ ls : List (Nat × Nat × Leaf), ViewOk (ls.foldl (fun c x => (c.readG x.2.2.pa (AFmt.bytes o.f)).usePage x.2.1) c) :=
    fun ls => (viewOk_foldl c fun d x _ => by simp).mpr hc
  simp [aldChunk, hr, crews_useLeaves, hs]

theorem aldEvent_ok (o : TileMemOps) : EventOk (aldEvent o) := by
  intro s c hs hc
  unfold aldEvent
  split
  · trivial
  · exact ⟨crewsOk_useLeaves _ _ hs, (viewOk_setTile ..).mpr hc⟩

theorem execAld_ok (o : TileMemOps) (h : CrewsOk s.crews) : OutOk (execAld o s) := issueMem_ok (aldChunk_sound o) (aldEvent_ok o) h

theorem astChunk_sound (o : TileMemOps) : EffectOk (astChunk o) := by
  intro s c hs hc
  have hw : ∀ (t : Tile) (ls : List (Nat × Nat × Leaf)),
      ViewOk (ls.foldl (fun c x => (c.writeG s x.2.2.pa (astBytes o.f c.acr (t.elem x.1))).usePage x.2.1) c) :=
    fun t ls => (viewOk_foldl c fun d x _ => by simp).mpr hc
  simp [astChunk, hw, crews_useLeaves, hs]

theorem astEvent_ok (o : TileMemOps) : EventOk (astEvent o) := by
  intro s c hs hc
  unfold astEvent
  split
  · trivial
  · split
    · trivial
    · have ht := writeSing_ok hs ‹_›
      exact ⟨crewsOk_useLeaves _ _ ht, fresh_ok ht hc⟩

theorem execAst_ok (o : TileMemOps) (h : CrewsOk s.crews) : OutOk (execAst o s) := issueMem_ok (astChunk_sound o) (astEvent_ok o) h
theorem execAzero_ok (t : TReg) (h : CrewsOk s.crews) : OutOk (execAzero t s) := issueC_ok (fun c hc => by simp [hc]) h
theorem execAmovv_ok (t : TReg) (v : VReg) (h : CrewsOk s.crews) : OutOk (execAmovv t v s) := issueC_ok (fun c hc => by simp [hc]) h
theorem execAmova_ok (t : TReg) (v : VReg) (h : CrewsOk s.crews) : OutOk (execAmova t v s) := issueC_ok (fun c hc => by simp [hc]) h
theorem acvt_ok (t : TReg) (tag : Tag → Tag) (f : Cur → Tag → Except Stop (W32 → W32)) (h : CrewsOk s.crews) : OutOk (acvt t tag f s) :=
  issueC_ok (fun c hc => by simp [hc]) h
theorem execAtag_ok (t : TReg) (sd : SReg) (code : BitVec 5) (h : CrewsOk s.crews) : OutOk (execAtag t sd code s) :=
  issueC_ok (fun c hc => by simp [hc]) h

end Sys2Proof.GroupProofs

/-!
PROOFS. The group (08): control, width, chunk and cross-lane instructions keep the masks.
-/

namespace Sys2Proof.GroupProofs

open Sys2Proof Sys2Proof.Machine Sys2Proof.Rules

variable {s : State} {c : Cur}

/-! ## Branches, splits and joins -/

theorem jump_sound (a : W64) (hs : CrewsOk s.crews) (hc : ViewOk c) : Yields Sound (jump s c a) := by simp [jump, hs, hc]

theorem branch_ok (cond : Cur → Bool) (t : BitVec 32) (h : CrewsOk s.crews) : OutOk (branch cond t s) :=
  issue_ok (fun s c hs hc => by simp [jump_sound, hs, hc]) h

theorem execNop_ok (h : CrewsOk s.crews) : OutOk (execNop s) := issueC_ok (fun c hc => (yields_ok c).mpr hc) h

theorem dbrUniform_sound (p : PReg) (t : BitVec 32) : EffectOk (dbrUniform p t) := fun s c hs hc => by
  simp [dbrUniform, jump_sound, hs, hc]

theorem viewOk_wait (c : Cur) (w : Wait) : ViewOk (c.mapT fun t => { t with wait := w }) ↔ ViewOk c := viewOk_mapT c ⟨rfl, rfl, rfl⟩

theorem execDbr_ok (p : PReg) (t : BitVec 32) (j : BitVec 16) (h : CrewsOk s.crews) : OutOk (execDbr p t j s) := by
  unfold execDbr
  split
  · exact outOk_fault _
  · split
    · exact outOk_fault _
    · have hc := cur?_ok h ‹_›
      split
      · exact (outOk_next _).mpr (crewsOk_perform (dbrUniform_sound p t) h hc)
      · split
        · exact (outOk_next _).mpr (crewsOk_stop _ _ _ _ h)
        · exact (outOk_next _).mpr (crewsOk_putCur h ((viewOk_wait ..).mpr (viewOk_openChunk hc)))

/-- The new strand of a split has EM = L and HM masked by L (R144, R147). -/
theorem masksOk_child (t : Strand) (tk : Mask) (a : W64) : (t.child tk a).masksOk = true :=
  (strand_masksOk_iff _).mpr ⟨(masksOk_core_iff _).mpr ⟨Inside.refl tk, inside_and_right _ _⟩, fun _ h => (List.not_mem_nil h).elim, snapOk_none⟩

theorem dbrDecide_sound (p : PReg) (tk : Mask) (ta ja : W64) : EffectOk (dbrDecide p tk ta ja) := by
  intro s c hs hc
  have back : Yields Sound (.ok (s, (c.setP p c.l 0).goto c.base) : Except Stop (State × Cur)) := by simp [hs, hc]
  unfold dbrDecide
  dsimp only
  split
  · exact back
  · rename_i n _
    split
    · exact back
    · refine Yields.skip fun _ => Yields.skip fun _ => (yields_ok _).mpr ⟨hs, ?_⟩
      have hp := (viewOk_setP c p c.l c.l).mpr hc
      rw [viewOk_mapChunk _ rfl, viewOk_endChunk, viewOk_goto]
      refine viewOk_masks _ ⟨hp.crew, ?_, hp.t⟩ ⟨hp.inside.1.and _, hp.inside.2.and _⟩
      exact masksOk_setStrand n hp.warp fun t ht => Option.some.inj ht ▸ masksOk_child ..

theorem execDbrSplit_ok (r : StrandRef) (h : CrewsOk s.crews) : OutOk (execDbrSplit r s) := by
  unfold execDbrSplit
  split
  · exact (outOk_next _).mpr h
  · split
    · split
      · exact (outOk_next _).mpr h
      · have hc := (viewOk_wait _ .none).mpr (curOf_ok h ‹_›)
        exact (outOk_next _).mpr (crewsOk_perform (dbrDecide_sound _ _ _ _) (crewsOk_putCur h hc) hc)
    · exact (outOk_next _).mpr h

theorem execJoin_ok (h : CrewsOk s.crews) : OutOk (execJoin s) := by
  refine issue_ok (fun s c hs hc => ?_) h
  dsimp only
  split
  · simp [hs, hc]
  · split
    · split
      · exact (yields_ok _).mpr ⟨hs, (viewOk_wait ..).mpr hc⟩
      · exact yields_error _
    · exact yields_error _

theorem membersOf_ok {w : Warp} {f : Frame} (h : w.masksOk = true) : ∀ x ∈ w.membersOf f, x.2.masksOk = true := by
  intro x hx
  obtain ⟨k, -, hk⟩ := List.mem_filterMap.mp hx
  obtain ⟨t, ht, rfl⟩ := Option.map_eq_some_iff.mp hk
  exact strand?_masksOk h ht

theorem arrivalChunks_ok {ms : List (Nat × Strand)} (h : ∀ x ∈ ms, x.2.masksOk = true) : ∀ ch ∈ arrivalChunks ms, SnapOk ch := by
  intro ch hc
  obtain ⟨x, hx, hc⟩ := List.mem_flatMap.mp hc
  obtain ⟨g, hg, rfl⟩ := List.mem_map.mp hc
  exact snapOk_congr (ch := g) rfl (unplaced_snapOk (h x hx) (List.mem_of_mem_filter hg))

/-- The masks of members that are taken together stay inside their lanes taken together (R152). -/
theorem inside_foldl_or {f : StrandCore → Mask} {ms : List (Nat × Strand)} (h : ∀ x ∈ ms, Inside (f x.2.core) x.2.core.l) {m l : Mask}
    (hm : Inside m l) : Inside (ms.foldl (fun m t => m ||| f t.2.core) m) (ms.foldl (fun m t => m ||| t.2.core.l) l) := by
  induction ms generalizing m l with
  | nil => exact hm
  | cons x ms ih => exact ih (fun y hy => h y (List.mem_cons_of_mem _ hy)) (hm.or (h x List.mem_cons_self))

theorem masksOk_dropFrame {w : Warp} (f : Frame) (h : w.masksOk = true) : (w.dropFrame f).masksOk = true := masksOk_fields h rfl rfl

theorem masksOk_merge {w : Warp} (f : Frame) (h : w.masksOk = true) : (w.merge f).masksOk = true := by
  have hms := membersOf_ok (f := f) h
  have hin : ∀ x ∈ w.membersOf f, Inside x.2.core.em x.2.core.l ∧ Inside x.2.core.hm x.2.core.l := fun x hx =>
    (masksOk_core_iff _).mp ((strand_masksOk_iff _).mp (hms x hx)).1
  have hem := inside_foldl_or (f := StrandCore.em) (fun x hx => (hin x hx).1) (inside_zero 0)
  have hhm := inside_foldl_or (f := StrandCore.hm) (fun x hx => (hin x hx).2) (inside_zero 0)
  have hw := masksOk_foldl (l := f.members.filter (· != w.survivor f.members)) (f := Warp.leave) (masksOk_dropFrame f h)
    fun _ k _ => masksOk_leave k
  refine warp_masksOk_of (masksOk_modStrands (k := w.survivor f.members) hw fun t _ => ?_) (fun t ht => .inl ht) fun m hm => ?_
  · exact (strand_masksOk_iff _).mpr ⟨(masksOk_core_iff _).mpr ⟨hem, hhm⟩, arrivalChunks_ok hms, snapOk_none⟩
  · rcases List.mem_append.mp hm with hm | hm
    · exact .inl hm
    · right
      split at hm
      · cases hm
      · exact List.mem_singleton.mp hm ▸ hms

theorem masksOk_refuseMerge {w : Warp} (f : Frame) (extra : StrandCore → Nat) (h : w.masksOk = true) :
    (w.refuseMerge f extra).masksOk = true :=
  masksOk_foldl (masksOk_dropFrame f h) fun _ _ _ hw => masksOk_modStrands hw fun _ ht => ht

theorem masksOk_complete {w : Warp} (f : Frame) (extra : StrandCore → Nat) (h : w.masksOk = true) :
    (w.complete f extra).masksOk = true := by
  unfold Warp.complete
  split
  · split
    · exact masksOk_merge f h
    · split
      · exact masksOk_refuseMerge f extra h
      · exact h
  · exact h

theorem masksOk_settle {w : Warp} (extra : StrandCore → Nat) (h : w.masksOk = true) : (w.settle extra).masksOk = true := by
  have hw := masksOk_foldl (l := w.frames.reverse) (f := fun w f => w.complete f extra) h fun _ f _ => masksOk_complete f extra
  refine warp_masksOk_of hw (fun t ht => .inr ?_) fun _ hm => .inl hm
  obtain ⟨k, -, hk⟩ := List.mem_map.mp ht
  split at hk
  · have hu := strand?_masksOk hw ‹_›
    rw [← Option.some.inj hk]
    split
    · exact hu
    · exact hu
  · cases hk

theorem crewsOk_settleFrames (r : WarpRef) (h : CrewsOk s.crews) : CrewsOk (s.settleFrames r).crews :=
  crewsOk_modWarp r h fun _ hw => masksOk_settle _ hw

theorem execJoinArrive_ok (r : StrandRef) (h : CrewsOk s.crews) : OutOk (execJoinArrive r s) := by
  unfold execJoinArrive
  split
  · split
    · split
      · exact (outOk_next _).mpr h
      · exact (outOk_next _).mpr (crewsOk_modStrand r h fun _ ht => masksOk_keep ht rfl rfl rfl)
    · split
      · exact (outOk_next _).mpr (crewsOk_settleFrames r.w (crewsOk_setWait r _ h))
      · exact (outOk_next _).mpr h
    · exact (outOk_next _).mpr h
  · exact (outOk_next _).mpr h

/-! ## Calls and returns -/

@[simp] theorem viewOk_ownTags (c : Cur) (slots : List Nat) : ViewOk (c.ownTags slots) ↔ ViewOk c := by
  unfold Cur.ownTags
  split
  · exact viewOk_mapCore c ⟨rfl, rfl, rfl⟩
  · exact Iff.rfl

@[simp] theorem viewOk_called (c : Cur) (dest : W64) (f : Nat) : ViewOk (c.called dest f) ↔ ViewOk c := by
  unfold Cur.called
  dsimp only
  rw [viewOk_goto]
  refine (viewOk_foldl _ fun d i _ => viewOk_setV ..).trans ?_
  rw [viewOk_mapCore _ ⟨rfl, rfl, rfl⟩]
  exact viewOk_ownTags c _

theorem callTo_sound (dest : W64) (f : Nat) : EffectOk (callTo dest f) := by
  intro s c hs hc
  refine Yields.skip fun _ => Yields.bind (storesIn_sound _ _ _ ⟨hs, hc⟩) fun x hx => ?_
  exact Yields.bind (storesIn_sound _ _ _ hx) fun y hy => by simp [hy.1, hy.2]

theorem callEvent_ok (dest : W64) (f : Nat) : EventOk (callEvent dest f) := by
  intro s c hs hc
  unfold callEvent
  split
  · trivial
  · have hs' := callTo_sound dest f s c hs hc _ ‹_›
    split
    · trivial
    · have ht := writeSing_ok hs'.1 ‹_›
      exact ⟨ht, (viewOk_called ..).mpr (fresh_ok ht hc)⟩

theorem issueCall_ok (dest : Cur → W64) (check : State → Cur → Except Stop Unit) (f : Nat) (h : CrewsOk s.crews) :
    OutOk (s.issueCall dest check f) := by
  unfold State.issueCall
  split
  · exact outOk_fault _
  · exact issueMem_ok (fun s c hs hc => Yields.skip fun _ => Yields.skip fun _ => callTo_sound _ f s c hs hc) (callEvent_ok _ f) h

theorem refillReg_sound (va : Nat) (ls : List Nat) {x : State × Cur} (hx : Sound x) : Yields (fun r => Sound r.2) (refillReg va ls x) := by
  refine Yields.bind (loadsIn_sound _ _ _ hx) fun y hy => Yields.skip fun _ => ?_
  dsimp only
  split
  · refine Yields.bind ((yields_ok (P := fun r : List Byte × State × Cur => Sound r.2) ([], y.2)).mpr hy) fun z hz => ?_
    exact Yields.bind (loadsIn_sound _ _ _ hz) fun u hu => (yields_ok (P := fun r : VecReg × State × Cur => Sound r.2) _).mpr hu
  · refine Yields.bind (loadsIn_sound _ _ _ hy) fun z hz => ?_
    exact Yields.bind (loadsIn_sound _ _ _ hz) fun u hu => (yields_ok (P := fun r : VecReg × State × Cur => Sound r.2) _).mpr hu

theorem refillRegs_sound (ls vs : List Nat) {x : State × Cur} (hx : Sound x) : Yields (fun r => Sound r.2) (refillRegs ls vs x) := by
  induction vs generalizing x with
  | nil => exact (yields_ok (P := fun r : List VecReg × State × Cur => Sound r.2) ([], x)).mpr hx
  | cons v vs ih =>
    unfold refillRegs
    split
    · exact yields_error _
    · rename_i r y hy
      have hs := refillReg_sound v ls hx _ hy
      split
      · exact yields_error _
      · rename_i rs z hz
        have hrs : Sound z := ih hs (rs, z) hz
        exact (yields_ok (P := fun r : List VecReg × State × Cur => Sound r.2) (r :: rs, z)).mpr hrs

@[simp] theorem viewOk_returned (c : Cur) (k : CallRec) (rs : List VecReg) : ViewOk (c.returned k rs) ↔ ViewOk c := by
  have hd : ∀ d : Cur, ∀ slots, ViewOk (d.dropTags slots) ↔ ViewOk d := fun d _ => viewOk_mapCore d ⟨rfl, rfl, rfl⟩
  unfold Cur.returned
  dsimp only
  rw [viewOk_goto]
  refine (viewOk_foldl _ fun d i _ => ?_).trans ?_
  · split
    · exact viewOk_setV ..
    · exact Iff.rfl
  · rw [hd, viewOk_mapCore _ ⟨rfl, rfl, rfl⟩]

theorem retTo_sound : EffectOk retTo := by
  intro s c hs hc
  refine Yields.skip fun _ => ?_
  dsimp only
  split
  · exact yields_error _
  · exact Yields.bind (refillRegs_sound _ _ ⟨hs, hc⟩) fun r hr => by simp [hr.1, hr.2]

theorem retEvent_ok : EventOk retEvent := by
  intro s c hs hc
  unfold retEvent
  split
  · trivial
  · exact (retTo_sound s c hs hc _ ‹_› :)

theorem execRet_ok (h : CrewsOk s.crews) : OutOk (execRet s) := issueMem_ok retTo_sound retEvent_ok h

/-! ## Exits, headers and pairs -/

theorem exitLanes_ok (exiting : Cur → Mask) (h : CrewsOk s.crews) : OutOk (exitLanes exiting s) := by
  refine issueC_ok (fun c hc => ?_) h
  have hd : ViewOk (c.mapCore fun k => { k with l := k.l &&& ~~~(exiting c), em := k.em &&& ~~~(exiting c), hm := k.hm &&& ~~~(exiting c) }) :=
    viewOk_masks c hc ⟨hc.inside.1.and _, hc.inside.2.and _⟩
  dsimp only
  split
  · exact yields_error _
  · split
    · exact (yields_ok _).mpr ((viewOk_wait ..).mpr ((viewOk_endChunk _).mpr hd))
    · exact (yields_ok _).mpr ((viewOk_goto ..).mpr ((viewOk_endChunk _).mpr hd))

theorem viewOk_enterClause (w : W64) (fr : Bool) (hc : ViewOk c) : ViewOk (c.enterClause w fr) := by
  unfold Cur.enterClause
  dsimp only
  split
  · rw [viewOk_mapCore _ ⟨rfl, rfl, rfl⟩, viewOk_mapChunk _ rfl]
    exact viewOk_openChunk hc
  · rwa [viewOk_mapCore _ ⟨rfl, rfl, rfl⟩]

theorem crewsOk_startClause (w : W64) (h : CrewsOk s.crews) (hc : ViewOk c) : CrewsOk (s.startClause c w).crews := by
  unfold State.startClause
  dsimp only
  split
  · exact crewsOk_setWait _ _ h
  · split
    · exact crewsOk_endBefore _ h
    · exact crewsOk_putCur h (viewOk_enterClause _ _ hc)

theorem execClauseStart_ok (h : CrewsOk s.crews) : OutOk (execClauseStart s) := by
  unfold execClauseStart
  split
  · exact outOk_fault _
  · split
    · exact outOk_fault _
    · split
      · exact (outOk_next _).mpr (crewsOk_stop _ _ _ _ h)
      · split
        · exact (outOk_next _).mpr (crewsOk_startClause _ h (cur?_ok h ‹_›))
        · exact (outOk_next _).mpr (crewsOk_stop _ _ _ _ h)

theorem pairOp_keeps (p : PairOp) : StrandEffectOk (fun c => c.pairOp p) := by
  intro c hc
  cases p <;> simp [Cur.pairOp, Cur.valu, Cur.valui, Cur.falu, Cur.ffma, Cur.vsel, Cur.vmov, hc]

theorem execPairIssue_ok (a b : PairOp) (h : CrewsOk s.crews) : OutOk (execPairIssue a b s) := by
  refine issue_ok (fun s c hs hc => ?_) h
  iterate 5 refine Yields.skip fun _ => ?_
  refine Yields.bind (pairOp_keeps a c hc) fun c1 h1 => ?_
  exact Yields.bind ((yields_mapError _ _).mpr (pairOp_keeps b c1 h1)) fun c2 h2 => by simp [hs, h2]

theorem execReservedOpcodeWord_ok (w : W64) (h : CrewsOk s.crews) : OutOk (execReservedOpcodeWord w s) := by
  unfold execReservedOpcodeWord
  split
  · exact outOk_fault _
  · split
    · exact (outOk_next _).mpr (crewsOk_stop _ _ _ _ h)
    · exact outOk_fault _

/-! ## The end of strands and warps -/

theorem crewsOk_closeBatch (r : WarpRef) (n : W32) (h : CrewsOk s.crews) : CrewsOk (s.closeBatch r n).crews :=
  crewsOk_modWarp_fields (s := { s with cmds := _ }) r h fun _ => ⟨rfl, rfl⟩

theorem crewsOk_tellSiblings (r : CrewRef) (h : CrewsOk s.crews) : CrewsOk (s.tellSiblings r).crews := by
  unfold State.tellSiblings
  split
  · exact h
  · refine crewsOk_foldl h fun s w _ hs => ?_
    split
    · refine crewsOk_foldl hs fun s k _ hs => ?_
      dsimp only
      split
      · exact crewsOk_resume _ _ _ hs
      · exact hs
    · exact hs

theorem crewsOk_exitWarp (src : StrandRef) (r : WarpRef) (n : W32) (h : CrewsOk s.crews) : CrewsOk (s.exitWarp src r n).crews := by
  have hs : CrewsOk (if s.hasOpen r then s.closeBatch r n else s).crews := by
    split
    · exact crewsOk_closeBatch r n h
    · exact h
  exact crewsOk_tellSiblings _ (crewsOk_exitBars _ _ (crewsOk_modWarp_fields r hs fun _ => ⟨rfl, rfl⟩))

theorem masksOk_settleTags {w : Warp} (h : w.masksOk = true) : w.settleTags.masksOk = true := by
  unfold Warp.settleTags
  split
  · exact masksOk_mapStrands (w := { w with vregs := _ }) h fun _ ht => ht
  · exact h

theorem endStrand_ok {r : StrandRef} {t : State} (h : CrewsOk s.crews) (e : s.endStrand r = some t) : CrewsOk t.crews := by
  unfold State.endStrand at e
  split at e
  · dsimp only at e
    split at e
    · cases e
    · have hs := crewsOk_settleFrames r.w (s := (s.modWarp r.w fun w => (w.leave r.strand).settleTags).dropPin r)
        (crewsOk_modWarp r.w h fun _ hw => masksOk_settleTags (masksOk_leave _ hw))
      split at e
      · exact Option.some.inj e ▸ crewsOk_exitWarp _ _ _ hs
      · exact Option.some.inj e ▸ hs
  · exact Option.some.inj e ▸ h

theorem crewsOk_endStrandD (r : StrandRef) (h : CrewsOk s.crews) : CrewsOk ((s.endStrand r).getD s).crews := by
  cases e : s.endStrand r with
  | none => exact h
  | some t => exact endStrand_ok h e

/-! ## Splits and fusions of warps -/

theorem execWsplit_ok (sd : SReg) (p : PReg) (h : CrewsOk s.crews) : OutOk (execWsplit sd p s) := by
  refine issue_ok (fun s c hs hc => ?_) h
  split
  · exact yields_error _
  · exact (yields_ok _).mpr ⟨hs, (viewOk_endChunk _).mpr ((viewOk_wait ..).mpr hc)⟩

theorem getLsbD_maskPart (m : Mask) (a h i : Nat) :
    (maskPart m a h).getLsbD i = (decide (i < 64) && (decide (i < h) && m.getLsbD (a + i))) := by
  simp only [maskPart, BitVec.getLsbD_ofNat, Nat.testBit_mod_two_pow, Nat.testBit_div_two_pow, BitVec.testBit_toNat]
  rw [Nat.add_comm i a]

/-- A part of the lanes and of the masks (Table 9.2). -/
theorem Inside.maskPart {m l : Mask} (hm : Inside m l) (a h : Nat) : Inside (maskPart m a h) (Machine.maskPart l a h) := by
  intro i
  rw [getLsbD_maskPart, getLsbD_maskPart]
  have := hm (a + i)
  simp only [Bool.and_eq_true]
  exact fun ⟨h1, h2, h3⟩ => ⟨h1, h2, this h3⟩

theorem masksOk_strandPart {t : Strand} (a n : Nat) (high : Bool) (h : t.masksOk = true) : (t.part a n high).masksOk = true := by
  obtain ⟨hc, hs⟩ := (strand_masksOk_iff t).mp h
  obtain ⟨hem, hhm⟩ := (masksOk_core_iff _).mp hc
  exact (strand_masksOk_iff _).mpr ⟨(masksOk_core_iff _).mpr ⟨hem.maskPart a n, hhm.maskPart a n⟩, hs⟩

theorem masksOk_warpPart {w : Warp} {t : Strand} (lay : SpillLay) (p : PReg) (high : Bool) (hw : w.masksOk = true)
    (ht : t.masksOk = true) : (w.part t lay p high).masksOk = true := by
  refine warp_masksOk_of hw (fun u hu => .inr ?_) fun _ hm => .inl hm
  have hu : some u ∈ [some (t.part (if high then w.width / 2 else 0) (w.width / 2) high), none, none, none] := hu
  simp only [List.mem_cons, Option.some.injEq, List.not_mem_nil, or_false, reduceCtorEq] at hu
  exact hu ▸ masksOk_strandPart _ _ _ ht

theorem crewsOk_exitEmpty (r : WarpRef) (h : CrewsOk s.crews) : CrewsOk (s.exitEmpty r).crews := by
  unfold State.exitEmpty
  split
  · exact h
  · split
    · exact h
    · split
      · refine crewsOk_exitWarp _ _ _ (crewsOk_modWarp r h fun w hw => warp_masksOk_of hw (fun u hu => ?_) fun _ hm => .inl hm)
        simp at hu
      · exact h

theorem crewsOk_splitWarp (sd : SReg) (p : PReg) (h : CrewsOk s.crews) (hc : ViewOk c) : CrewsOk (s.splitWarp c sd p).crews := by
  have hd : ViewOk ((c.setS sd 0).advance 1) := by simp [hc]
  refine crewsOk_exitEmpty _ (crewsOk_exitEmpty _ (crewsOk_splitBars _ _ _ (crewsOk_modCrew _ h fun k hk w hw => ?_)))
  obtain ⟨x, hx, hw⟩ := List.mem_flatMap.mp hw
  split at hw
  · rcases List.mem_pair.mp hw with rfl | rfl
    · exact masksOk_warpPart _ _ _ hd.warp hd.t
    · exact masksOk_warpPart _ _ _ hd.warp hd.t
  · exact List.mem_singleton.mp hw ▸ hk x hx

theorem execWarpSplit_ok (r : StrandRef) (h : CrewsOk s.crews) : OutOk (execWarpSplit r s) := by
  unfold execWarpSplit
  split
  · exact (outOk_next _).mpr h
  · have hc := curOf_ok h ‹_›
    split
    · split
      · exact (outOk_next _).mpr h
      · split
        · exact (outOk_next _).mpr (crewsOk_resumeCur h (by simp [hc]))
        · split
          · exact (outOk_next _).mpr h
          · exact (outOk_next _).mpr (crewsOk_splitWarp _ _ h hc)
    · exact (outOk_next _).mpr h

theorem execWfuse_ok (sd : SReg) (h : CrewsOk s.crews) : OutOk (execWfuse sd s) :=
  issue_ok (fun _ _ hs hc => (yields_ok _).mpr ⟨hs, (viewOk_endChunk _).mpr ((viewOk_mapT _ ⟨rfl, rfl, rfl⟩).mpr hc)⟩) h

theorem crewsOk_fuseArrive (r : StrandRef) (h : CrewsOk s.crews) : CrewsOk (s.fuseArrive r).crews := by
  have park : ∀ {u : State} {sd : SReg} {a : W64}, CrewsOk u.crews → CrewsOk (u.modStrand r (Strand.parkFuse s.cycle sd a)).crews :=
    fun hu => crewsOk_modStrand r hu fun _ ht => ht
  unfold State.fuseArrive
  split
  · exact h
  · split
    · exact crewsOk_resume _ _ _ h
    · split
      · exact crewsOk_resume _ _ _ h
      · split
        · exact park h
        · split
          · split
            · exact park (crewsOk_resume _ _ _ h)
            · exact crewsOk_resume _ _ _ h
          · split
            · exact h
            · dsimp only
              split
              · exact crewsOk_resume _ _ _ (crewsOk_resume _ _ _ h)
              · exact crewsOk_setWait _ _ (crewsOk_setWait _ _ h)
    · exact h

theorem execWfuseTimeout_ok (r : StrandRef) (h : CrewsOk s.crews) : OutOk (execWfuseTimeout r s) := by
  unfold execWfuseTimeout
  split
  · refine (outOk_next _).mpr ?_
    split
    · exact crewsOk_resume _ _ _ h
    · exact h
  · exact (outOk_next _).mpr h

theorem getLsbD_maskJoin (n : Nat) (a b : Mask) (i : Nat) : (maskJoin n a b).getLsbD i =
    (decide (i < 64) && if i < n then a.getLsbD i else b.getLsbD (i - n)) := by
  have ha : a.toNat % 2 ^ n < 2 ^ n := Nat.mod_lt _ (Nat.two_pow_pos n)
  simp only [maskJoin, BitVec.getLsbD_ofNat]
  rw [Nat.add_comm, Nat.mul_comm, Nat.testBit_two_pow_mul_add _ ha]
  split <;> simp_all [Nat.testBit_mod_two_pow, BitVec.testBit_toNat]

/-- The lanes and the masks of two halves (R175). -/
theorem Inside.maskJoin {a b l m : Mask} (n : Nat) (ha : Inside a l) (hb : Inside b m) :
    Inside (maskJoin n a b) (Machine.maskJoin n l m) := by
  intro i
  rw [getLsbD_maskJoin, getLsbD_maskJoin]
  have h1 := ha i
  have h2 := hb (i - n)
  simp only [Bool.and_eq_true]
  rintro ⟨hi, h⟩
  refine ⟨hi, ?_⟩
  split at h
  · rename_i hn
    rw [if_pos hn]
    exact h1 h
  · rename_i hn
    rw [if_neg hn]
    exact h2 h

theorem masksOk_strandJoin {a b : Strand} (n : Nat) (ha : a.masksOk = true) (hb : b.masksOk = true) : (Strand.join n a b).masksOk = true := by
  obtain ⟨hc, hs⟩ := (strand_masksOk_iff a).mp ha
  obtain ⟨hem, hhm⟩ := (masksOk_core_iff _).mp hc
  obtain ⟨gem, ghm⟩ := (masksOk_core_iff _).mp ((strand_masksOk_iff b).mp hb).1
  exact (strand_masksOk_iff _).mpr ⟨(masksOk_core_iff _).mpr ⟨hem.maskJoin n gem, hhm.maskJoin n ghm⟩, hs⟩

theorem fusing?_ok {w : Warp} {k : Nat} {t : Strand} {sd : SReg} (h : w.masksOk = true) (e : w.fusing? = some (k, t, sd)) :
    t.masksOk = true := by
  obtain ⟨i, -, hi⟩ := List.exists_of_findSome?_eq_some e
  split at hi
  · split at hi
    · cases hi
      exact strand?_masksOk h ‹_›
    · cases hi
  · cases hi

theorem masksOk_warpJoin {lo hi : Warp} {lt ht : Strand} (k : Nat) (hlo : lo.masksOk = true) (hl : lt.masksOk = true)
    (hh : ht.masksOk = true) : (lo.join hi lt ht k).masksOk = true :=
  masksOk_fields (masksOk_setStrand k hlo fun _ e => Option.some.inj e ▸ masksOk_strandJoin lo.width hl hh) rfl rfl

theorem execWarpFusion_ok (lo hi : WarpRef) (h : CrewsOk s.crews) : OutOk (execWarpFusion lo hi s) := by
  unfold execWarpFusion
  split
  · rename_i a b ha hb
    have hma := state_warp?_ok h ha
    have hmb := state_warp?_ok h hb
    split
    · rename_i k lt sd _ ht _ hka hkb
      have hj := masksOk_warpJoin (hi := b) k hma (fusing?_ok hma hka) (fusing?_ok hmb hkb)
      dsimp only
      split
      · exact (outOk_next _).mpr h
      · refine (outOk_next _).mpr (crewsOk_resume _ _ _ (crewsOk_fuseBars _ _ _ (crewsOk_modCrew _ h fun x hx w hw => ?_)))
        obtain ⟨y, hy, rfl | rfl⟩ := mem_updIf hw
        · exact hx _ (List.mem_of_mem_filter hy)
        · exact hj
    · exact (outOk_next _).mpr h
  · exact (outOk_next _).mpr h

theorem execWqry_ok (sd : SReg) (h : CrewsOk s.crews) : OutOk (execWqry sd s) := issueC_ok (fun c hc => by simp [hc]) h

/-! ## The life of a chunk -/

theorem execChlimReached_ok (r : StrandRef) (h : CrewsOk s.crews) : OutOk (execChlimReached r s) :=
  (outOk_next _).mpr (crewsOk_modStrand r h fun t ht => by
    split
    · exact masksOk_keep ht rfl rfl rfl
    · exact ht)

theorem execFlaggedCompletion_ok (r : StrandRef) (f : Fin 12) (h : CrewsOk s.crews) : OutOk (execFlaggedCompletion r f s) :=
  (outOk_next _).mpr (crewsOk_modStrand r h fun _ ht => ht)

theorem masksOk_modUnplaced {t : Strand} (n : Nat) {f : Chunk → Chunk} (h : t.masksOk = true) (hf : ∀ ch, (f ch).snap = ch.snap) :
    (t.modUnplaced n f).masksOk = true := by
  obtain ⟨h1, h2, h3⟩ := (strand_masksOk_iff t).mp h
  unfold Strand.modUnplaced
  split
  · refine (strand_masksOk_iff _).mpr ⟨h1, fun ch hc => ?_, h3⟩
    obtain ⟨g, hg, rfl | rfl⟩ := mem_modAt hc
    · exact h2 _ hg
    · exact snapOk_congr (hf g) (h2 g hg)
  · split
    · exact (strand_masksOk_iff _).mpr ⟨h1, h2, snapOk_congr (hf t.chunk) h3⟩
    · exact h

theorem execChunkOffer_ok (r : ChunkRef) (h : CrewsOk s.crews) : OutOk (execChunkOffer r s) :=
  (outOk_next _).mpr (crewsOk_modStrand r.strand h fun t ht => by
    split
    · exact masksOk_modUnplaced _ ht fun _ => rfl
    · exact ht)

theorem masksOk_committed {t : Strand} (n : Nat) (ch : Chunk) (h : t.masksOk = true) : (t.committed n ch).masksOk = true := by
  obtain ⟨h1, h2, h3⟩ := (strand_masksOk_iff t).mp h
  unfold Strand.committed
  split
  · exact (strand_masksOk_iff _).mpr ⟨h1, fun g hg => h2 g (List.mem_of_mem_eraseIdx hg), h3⟩
  · exact (strand_masksOk_iff _).mpr ⟨h1, h2, snapOk_none⟩

theorem masksOk_mergeKept {w : Warp} (k : Nat) (h : w.masksOk = true) : (w.mergeKept k).masksOk = true := by
  unfold Warp.mergeKept
  split
  · split
    · exact h
    · exact warp_masksOk_of h (fun _ ht => .inl ht) fun _ hm => .inl (List.mem_of_mem_filter hm)
  · exact h

theorem crewsOk_place (r : StrandRef) (n : Nat) (ch : Chunk) (h : CrewsOk s.crews) : CrewsOk (s.place r n ch).crews := by
  have h1 : CrewsOk ((s.modStrand r fun t => t.committed n ch).modWarp r.w fun w => w.mergeKept r.strand).crews :=
    crewsOk_modWarp r.w (crewsOk_modStrand r h fun _ ht => masksOk_committed n ch ht) fun _ hw => masksOk_mergeKept _ hw
  have h2 : ∀ u : State, CrewsOk u.crews →
      CrewsOk ((u.latchAll ch.gws).modCrew r.w.crew fun c => c.commitMem ch.cw.reverse ch.badC).crews :=
    fun u hu => crewsOk_modCrew _ (crewsOk_latchAll _ hu) fun _ hc => crewOk_of_warps rfl hc
  have h3 : ∀ u : State, CrewsOk u.crews →
      CrewsOk ((ch.closes.foldl (fun s n => s.closeBatch r.w n) (u.commitBars r.w.crew ch.bars)).conflict (ch.wr r)).crews :=
    fun u hu => crewsOk_conflict _ (crewsOk_foldl (crewsOk_commitBars _ _ hu) fun _ _ _ hs => crewsOk_closeBatch _ _ hs)
  have h4 := (crews_store _ ch.gw.reverse).symm ▸ h1
  unfold State.place
  dsimp only
  split
  · exact h3 _ (h2 _ h4)
  · exact h3 _ (h2 _ h4)

theorem crewsOk_afterCommit (r : StrandRef) (h : CrewsOk s.crews) : CrewsOk (s.afterCommit r).crews := by
  unfold State.afterCommit
  split
  · exact h
  · split
    · split
      · exact crewsOk_endStrandD r h
      · exact h
    · split
      · exact crewsOk_fuseArrive r h
      · exact h
    · exact crewsOk_settleFrames r.w h
    · exact h

theorem crewsOk_placed (r : StrandRef) (n : Nat) (ch : Chunk) (h : CrewsOk s.crews) : CrewsOk (s.placed r n ch).crews :=
  crewsOk_afterCommit r (crewsOk_place r n ch h)

theorem crewsOk_losePin (r : StrandRef) (g : Nat) (h : CrewsOk s.crews) : CrewsOk (s.losePin r g).crews :=
  crewsOk_squash _ _ (crewsOk_modStrand r h fun _ ht => masksOk_keep ht rfl rfl rfl)

theorem crewsOk_commitChunk (r : StrandRef) (n : Nat) (ch : Chunk) (h : CrewsOk s.crews) : CrewsOk (s.commitChunk r n ch).crews := by
  unfold State.commitChunk
  dsimp only
  split
  · exact crewsOk_squashAt _ _ _ h
  · split
    · exact crewsOk_placed _ _ _ h
    · split
      · exact crewsOk_squashAt _ _ _ h
      · split
        · exact crewsOk_losePin _ _ h
        · exact crewsOk_placed _ _ _ (crewsOk_foldl h fun _ _ _ hs => crewsOk_losePin _ _ hs)

theorem execChunkCommit_ok (r : ChunkRef) (h : CrewsOk s.crews) : OutOk (execChunkCommit r s) := by
  unfold execChunkCommit
  split
  · exact (outOk_next _).mpr h
  · split
    · refine (outOk_next _).mpr ?_
      split
      · exact crewsOk_commitChunk _ _ _ h
      · exact h
    · exact (outOk_next _).mpr h

theorem crewsOk_commitPinned (h : CrewsOk s.crews) : CrewsOk s.commitPinned.crews := by
  refine crewsOk_foldl h fun s r _ hs => ?_
  split
  · split
    · exact crewsOk_commitChunk _ _ _ hs
    · exact hs
  · exact hs

theorem execPinGrant_ok (die : Nat) (h : CrewsOk s.crews) : OutOk (execPinGrant die s) := by
  unfold execPinGrant
  split
  · exact (outOk_next _).mpr h
  · split
    · refine (outOk_next _).mpr (crewsOk_modStrand _ (s := { s with pins := _, grants := _ }) h fun t ht => ?_)
      split
      · exact masksOk_fresh ht rfl rfl rfl rfl rfl
      · exact ht
    · exact (outOk_next _).mpr h

/-! ## What waits for a commit -/

theorem whenIdle_ok {r : StrandRef} {f : Cur → State} (h : CrewsOk s.crews) (hf : ∀ c, CrewsOk (f c).crews) : OutOk (s.whenIdle r f) := by
  unfold State.whenIdle
  split
  · exact (outOk_next _).mpr h
  · refine (outOk_next _).mpr ?_
    split
    · exact hf _
    · exact h

/-- The event of every singleton instruction keeps the masks inside the lanes. -/
theorem singOp_ok (op : SingOp) : EventOk op.event.2 := by
  cases op with
  | amo f o => exact amoEvent_ok f o
  | amov f o => exact amovEvent_ok f o
  | svwait geu o => exact svEvent_ok geu o
  | enq o => exact enqEvent_ok o
  | deq o => exact deqEvent_ok o
  | deqt o => exact deqtEvent_ok o
  | engq o => exact engqEvent_ok o
  | bwait o => exact bwaitEvent_ok o
  | barv sd sa => exact arriveEvent_ok false sd sa
  | bwt o => exact bwtEvent_ok o
  | barw sd sa => exact arriveEvent_ok true sd sa
  | xfence tc fc => exact xfenceEvent_ok tc fc
  | wcwait d o => exact wcEvent_ok d o
  | kinitA o t => exact kinitAEvent_ok o t
  | sld o => exact sldEvent_sound o
  | sst o => exact sstEvent_sound o
  | ld o => exact ldEvent_sound o
  | st o => exact stEvent_sound o
  | ald o => exact aldEvent_ok o
  | ast o => exact astEvent_ok o
  | discard o => exact discEvent_sound o
  | pref o => exact prefEvent_sound o
  | call dest f => exact callEvent_ok dest f
  | ret => exact retEvent_ok

theorem crewsOk_dueEvent (h : CrewsOk s.crews) (hc : ViewOk c) : CrewsOk (s.dueEvent c).crews := by
  unfold State.dueEvent
  split
  · exact crewsOk_event1 (singOp_ok _) h ((viewOk_wait ..).mpr hc)
  · exact crewsOk_event1 (amovNext_ok _ _ _ _) h hc
  · exact crewsOk_endStrandD _ h
  · exact h

theorem execSingletonEvent_ok (r : StrandRef) (h : CrewsOk s.crews) : OutOk (execSingletonEvent r s) := by
  unfold execSingletonEvent
  split
  · exact (outOk_next _).mpr h
  · refine (outOk_next _).mpr ?_
    split
    · exact crewsOk_dueEvent h (curOf_ok h ‹_›)
    · exact h

theorem execTrapEntry_ok (r : StrandRef) (h : CrewsOk s.crews) : OutOk (execTrapEntry r s) := by
  refine whenIdle_ok h fun c => ?_
  split
  · split
    · exact crewsOk_enterTrap _ _ _ (crewsOk_countTrapSquash r h)
    · exact h
  · exact h

theorem execFaultPark_ok (r : StrandRef) (h : CrewsOk s.crews) : OutOk (execFaultPark r s) := by
  refine whenIdle_ok h fun c => ?_
  split
  · rename_i pf _
    have ha := crewsOk_attachFault c.ctx pf (.strand r) c.faultRecord h
    exact crewsOk_modStrand r ha fun t ht => masksOk_fresh ht rfl rfl rfl rfl rfl
  · exact h

theorem execWatchdog_ok (r : StrandRef) (h : CrewsOk s.crews) : OutOk (execWatchdog r s) := by
  refine whenIdle_ok h fun c => ?_
  split
  · dsimp only
    split
    · exact crewsOk_trapParked _ _ _ _ h
    · exact h
  · exact h

/-! ## Lane exchange and matrices -/

@[simp] theorem viewOk_shuffle (c : Cur) (vd : VReg) (a : VecReg) (en : Mask) (src : Nat → Option Nat) :
    ViewOk (c.shuffle vd a en src) ↔ ViewOk c := viewOk_setV ..

theorem execShflIdx_ok (o : ShflIdxOps) (h : CrewsOk s.crews) : OutOk (execShflIdx o s) := issueC_ok (fun c hc => by simp [hc]) h
theorem shflBy_ok (f : Nat → Nat → Int) (o : ShflOps) (h : CrewsOk s.crews) : OutOk (shflBy f o s) := issueC_ok (fun c hc => by simp [hc]) h
theorem execBcast_ok (o : ShflOps) (h : CrewsOk s.crews) : OutOk (execBcast o s) := issueC_ok (fun c hc => by simp [hc]) h
theorem execBcastS_ok (o : BcastSOps) (h : CrewsOk s.crews) : OutOk (execBcastS o s) := issueC_ok (fun c hc => by simp [hc]) h
theorem execVtos_ok (o : VtosOps) (h : CrewsOk s.crews) : OutOk (execVtos o s) := issueC_ok (fun c hc => by simp [hc]) h
theorem vred_ok (f : RedFn) (o : VUnOps) (h : CrewsOk s.crews) : OutOk (vred f o s) := issueC_ok (fun c hc => by simp [hc]) h
theorem vscan_ok (f : RedFn) (o : VscanOps) (h : CrewsOk s.crews) : OutOk (vscan f o s) := issueC_ok (fun c hc => by simp [hc]) h
theorem execVoteBallot_ok (o : BallotOps) (h : CrewsOk s.crews) : OutOk (execVoteBallot o s) := issueC_ok (fun c hc => by simp [hc]) h
theorem vote_ok (all : Bool) (o : VoteOps) (h : CrewsOk s.crews) : OutOk (vote all o s) := issueC_ok (fun c hc => by simp [hc]) h
theorem execVotePfroms_ok (o : PfromsOps) (h : CrewsOk s.crews) : OutOk (execVotePfroms o s) := issueC_ok (fun c hc => by simp [hc]) h

theorem qxch_keeps (f : Nat → Nat) (vd va : VReg) (g : Guard) : StrandEffectOk (fun c => c.qxch f vd va g) :=
  fun c hc => by simp [Cur.qxch, hc]

theorem execQxchH_ok (o : VMoveOps) (h : CrewsOk s.crews) : OutOk (execQxchH o s) := issueC_ok (qxch_keeps _ _ _ _) h
theorem execQxchV_ok (o : VMoveOps) (h : CrewsOk s.crews) : OutOk (execQxchV o s) := issueC_ok (qxch_keeps _ _ _ _) h
theorem execQxchD_ok (o : VMoveOps) (h : CrewsOk s.crews) : OutOk (execQxchD o s) := issueC_ok (qxch_keeps _ _ _ _) h
theorem execQxchB_ok (o : QxchBOps) (h : CrewsOk s.crews) : OutOk (execQxchB o s) := issueC_ok (qxch_keeps _ _ _ _) h

@[simp] theorem viewOk_mmaWrite (c : Cur) (o : MmaOps) (f : MmaFn) (x : MmaIn) (g : Nat → Nat → W32) (sat : Bool) :
    ViewOk (c.mmaWrite o f x g sat) ↔ ViewOk c := by
  unfold Cur.mmaWrite
  split
  · exact viewOk_setTile ..
  · exact Iff.rfl

theorem mma_ok (f : MmaFn) (o : MmaOps) (h : CrewsOk s.crews) : OutOk (mma f o s) := issueC_ok (fun c hc => by simp [hc]) h

theorem mmai_ok (f : MmaFn) (o : MmaOps) (h : CrewsOk s.crews) : OutOk (mmai f o s) := by
  refine issueC_ok (fun c hc => ?_) h
  refine Yields.skip fun x => ?_
  dsimp only
  split
  · exact yields_error _
  · simp [hc]

end Sys2Proof.GroupProofs

/-!
PROOFS. The group (08): placing, loss, management, the links and the host keep the masks.
-/

namespace Sys2Proof.GroupProofs

open Sys2Proof Sys2Proof.Machine Sys2Proof.Rules

variable {s : State} {c : Cur}

/-! ## Launches and the placing of crews -/

theorem crewsOk_pruneFlushed (h : CrewsOk s.crews) : CrewsOk s.pruneFlushed.crews := crewsOk_filter _ h

theorem crewsOk_launchReject (ctx : Nat) (item : List Byte) (code off : Nat) (h : CrewsOk s.crews) :
    CrewsOk (s.launchReject ctx item code off).crews := crewsOk_event _ _ _ h

theorem crewsOk_takeRecord (ctx : Nat) (item : List Byte) (h : CrewsOk s.crews) : CrewsOk (s.takeRecord ctx item).crews := by
  have hr := crewsOk_devRead (s := s.modCtx ctx fun c => { c with take := none }) ctx (recField item 0 8) 128 XReq.devRead h
  unfold State.takeRecord
  dsimp only
  split
  · exact crewsOk_launchReject _ _ _ _ (s := s.modCtx ctx _) h
  · split
    · exact crewsOk_attachFault _ _ _ _ (fst_ok hr ‹_› :)
    · exact crewsOk_launchReject _ _ _ _ (fst_ok hr ‹_› :)
    · have ht := (fst_ok hr ‹_› :)
      split
      · exact crewsOk_launchReject _ _ _ _ ht
      · exact ht

theorem crewsOk_takeItem (ctx : Nat) (x : Queue) (h : CrewsOk s.crews) : CrewsOk (s.takeItem ctx x).crews := by
  have hr := crewsOk_devRead ctx (x.slotVa x.head) x.itemBytes XReq.ringRead h
  unfold State.takeItem
  dsimp only
  split
  · exact crewsOk_attachFault _ _ _ _ (fst_ok hr ‹_› :)
  · exact crewsOk_queueError _ _ _ (fst_ok hr ‹_› :)
  · exact (fst_ok hr ‹_› :)
  · exact crewsOk_takeRecord _ _ (crewsOk_takeHead _ _ _ (fst_ok hr ‹_› :))

theorem execLaunchTake_ok (ctx : Nat) (h : CrewsOk s.crews) : OutOk (execLaunchTake ctx s) := by
  refine (outOk_next _).mpr ?_
  split
  · exact h
  · split
    · split
      · exact crewsOk_takeRecord _ _ h
      · exact h
    · split
      · exact crewsOk_takeItem _ _ h
      · exact h
    · exact h

/-- A warp begins with EM = L and HM = 0 (Table 6.2). -/
theorem masksOk_startWarp (l : LaunchRec) (arg : W64) (crew i slot : Nat) : (startWarp l arg crew i slot).masksOk = true := by
  have ht : (startStrand l arg).masksOk = true :=
    (strand_masksOk_iff _).mpr ⟨(masksOk_core_iff _).mpr ⟨Inside.refl _, inside_zero _⟩, fun _ h => (List.not_mem_nil h).elim, snapOk_none⟩
  refine (warp_masksOk_iff _).mpr ⟨fun t h => ?_, fun _ h => (List.not_mem_nil h).elim⟩
  have h : some t ∈ [some (startStrand l arg), none, none, none] := h
  simp only [List.mem_cons, Option.some.injEq, List.not_mem_nil, or_false, reduceCtorEq] at h
  exact h ▸ ht

theorem placeCrew_ok {ctx : Nat} {v : Voyage} {crew core quad : Nat} {t : State} (h : CrewsOk s.crews)
    (e : s.placeCrew ctx v crew core quad = some t) : CrewsOk t.crews := by
  obtain ⟨slots, -, rfl⟩ := Option.map_eq_some_iff.mp e
  intro k hk
  rcases List.mem_append.mp hk with hk | hk
  · exact h k hk
  · intro w hw
    rw [List.mem_singleton.mp hk] at hw
    obtain ⟨i, -, rfl⟩ := List.mem_map.mp hw
    exact masksOk_startWarp ..

theorem placeAll_ok {ctx : Nat} {v : Voyage} {ps : List (Nat × Nat × Nat)} {t : State} (h : CrewsOk s.crews)
    (e : State.placeAll ctx v ps s = some t) : CrewsOk t.crews := by
  induction ps generalizing s with
  | nil => exact Option.some.inj e ▸ h
  | cons p ps ih =>
    obtain ⟨u, hu, ht⟩ := Option.bind_eq_some_iff.mp e
    exact ih (placeCrew_ok h hu) ht

theorem execConvoyPlace_ok (ctx voy : Nat) (places : List (Nat × Nat)) (h : CrewsOk s.crews) : OutOk (execConvoyPlace ctx voy places s) := by
  refine (outOk_next _).mpr ?_
  dsimp only
  split
  · exact h
  · split
    · exact h
    · split
      · exact h
      · exact (placeAll_ok (crewsOk_pruneFlushed h) ‹_› :)

theorem crewsOk_voyageDone (ctx voy : Nat) (h : CrewsOk s.crews) : CrewsOk (s.voyageDone ctx voy).crews := by
  unfold State.voyageDone
  split
  · exact h
  · split
    · exact h
    · exact crewsOk_event _ _ _ h

theorem crewsOk_run (r : CrewRef) {f : Crew → Crew} (h : CrewsOk s.crews) (hf : ∀ c, (f c).warps = c.warps) :
    CrewsOk (s.modCrew r f).crews := crewsOk_modCrew r h fun c hc => crewOk_of_warps (hf c) hc

theorem crewsOk_drainDone (k : Crew) (h : CrewsOk s.crews) : CrewsOk (s.drainDone k).crews := by
  unfold State.drainDone
  split
  · exact crewsOk_run _ (crewsOk_event _ _ _ h) fun _ => rfl
  · exact crewsOk_run _ h fun _ => rfl

theorem execCrewRetire_ok (r : CrewRef) (h : CrewsOk s.crews) : OutOk (execCrewRetire r s) := by
  unfold execCrewRetire
  split
  · exact (outOk_next _).mpr h
  · rename_i k _
    split
    · exact (outOk_next _).mpr h
    · have hd : CrewsOk (if k.run == .draining then s.drainDone k else s).crews := by
        split
        · exact crewsOk_drainDone k h
        · exact h
      dsimp only
      split
      · exact (outOk_next _).mpr hd
      · refine (outOk_next _).mpr (crewsOk_voyageDone _ _ ?_)
        exact crewsOk_filter _ hd

/-! ## Halts, saves and restores -/

theorem crewsOk_wakeBefore (r : StrandRef) (h : CrewsOk s.crews) : CrewsOk (s.wakeBefore r).crews := by
  unfold State.wakeBefore
  split
  · exact h
  · have hc := curOf_ok h ‹_›
    split
    · exact crewsOk_resume _ _ _ h
    · exact crewsOk_resumeCur h ((viewOk_wcDone ..).mpr hc)
    · split
      · split
        · exact h
        · exact crewsOk_resumeCur h ((viewOk_bwaitDone _ _).mpr hc)
      · exact h
    · have hw : ∀ (b : Bool) n q, CrewsOk (if b then s.serveWaiter n q else s).crews := by
        intro b n q
        split
        · exact crewsOk_serveWaiter _ _ h
        · exact h
      exact hw _ _ _
    · exact h

theorem crewsOk_orElse {o : Out} (ho : OutOk o) (h : CrewsOk s.crews) : CrewsOk (o.orElse s).crews := by
  unfold Out.orElse
  split
  · exact ho _ rfl
  · exact h

theorem crewsOk_fuseBefore (r : StrandRef) (h : CrewsOk s.crews) : CrewsOk (s.fuseBefore r).crews := by
  unfold State.fuseBefore
  split
  · exact h
  · refine crewsOk_orElse ?_ h
    split
    · exact execWarpFusion_ok _ _ h
    · exact execWarpFusion_ok _ _ h

theorem crewsOk_eventBefore (r : StrandRef) (h : CrewsOk s.crews) : CrewsOk (s.eventBefore r).crews := by
  unfold State.eventBefore
  split
  · exact h
  · split
    · exact h
    · split
      · exact crewsOk_orElse (execWarpSplit_ok r h) h
      · exact crewsOk_fuseBefore r h
      · exact crewsOk_orElse (execSingletonEvent_ok r h) h

theorem masksOk_image {t : Strand} (h : t.masksOk = true) : t.image.masksOk = true :=
  (strand_masksOk_iff _).mpr ⟨((strand_masksOk_iff t).mp h).1, fun _ h => (List.not_mem_nil h).elim, snapOk_none⟩

theorem crewsOk_haltCrew (r : CrewRef) (h : CrewsOk s.crews) : CrewsOk (s.haltCrew r).crews :=
  crewsOk_modCrew r (crewsOk_foldl h fun _ x _ hs => crewsOk_squashAll x _ hs) fun _ hc =>
    crewOk_map rfl hc fun _ hw => masksOk_mapStrands hw fun _ ht => masksOk_image ht

theorem crewsOk_preemptDone (k : Crew) (opt : Nat) (ds : List (List Byte)) (h : CrewsOk s.crews) : CrewsOk (s.preemptDone k opt ds).crews := by
  unfold State.preemptDone
  split
  · exact h
  · dsimp only
    split
    · exact crewsOk_event _ _ _ h
    · exact crewsOk_eventKeep _ _ h

/-- A warp without strands. -/
theorem masksOk_empty {w : Warp} (hs : w.strands = [none, none, none, none]) (hm : w.merges = []) : w.masksOk = true :=
  (warp_masksOk_iff w).mpr ⟨fun t h => by simp [hs] at h, fun m h => by simp [hm] at h⟩

theorem crewsOk_vacate (r : CrewRef) (h : CrewsOk s.crews) : CrewsOk (s.vacate r).crews :=
  crewsOk_modCrew r h fun _ hc => crewOk_map rfl hc fun _ _ => masksOk_empty rfl rfl

theorem crewsOk_flushCrew (k : Crew) (h : CrewsOk s.crews) : CrewsOk (s.flushCrew k).crews :=
  crewsOk_preemptDone _ _ _ (s := (s.vacate k.ref).modCtx k.ref.ctx _) (crewsOk_vacate _ h)

theorem crewsOk_discardHalted (k : Crew) (h : CrewsOk s.crews) : CrewsOk (s.discardHalted k).crews :=
  crewsOk_pruneFlushed (crewsOk_vacate _ (s := s.keepHeld k) h)

theorem crewsOk_suspendDone (ctx : Nat) (h : CrewsOk s.crews) : CrewsOk (s.suspendDone ctx).crews := by
  unfold State.suspendDone
  split
  · exact h
  · split
    · dsimp only
      split <;> exact h
    · exact h

theorem execQuadrantHaltDone_ok (r : CrewRef) (h : CrewsOk s.crews) : OutOk (execQuadrantHaltDone r s) := by
  unfold execQuadrantHaltDone
  split
  · exact (outOk_next _).mpr h
  · split
    · extract_lets faulted s1 s2
      have h1 : CrewsOk s1.crews := by
        unfold s1
        split
        · exact h
        · exact crewsOk_foldl h fun _ r _ hs => crewsOk_wakeBefore r hs
      have h2 : CrewsOk s2.crews := crewsOk_foldl h1 fun _ r _ hs => crewsOk_eventBefore r hs
      split
      · exact (outOk_next _).mpr h2
      · have h3 := crewsOk_haltCrew r h2
        split
        · exact (outOk_next _).mpr h3
        · split
          · exact (outOk_next _).mpr (crewsOk_discardHalted _ h3)
          · split
            · exact (outOk_next _).mpr (crewsOk_suspendDone _ (crewsOk_flushCrew _ h3))
            · exact (outOk_next _).mpr (crewsOk_run _ h3 fun _ => rfl)
    · exact (outOk_next _).mpr h

theorem crewOk_reslot {k : Crew} (core quad now : Nat) (slots : List Nat) (h : CrewOk k) : CrewOk (k.reslot core quad now slots) :=
  crewOk_map rfl h fun w hw => masksOk_mapStrands (w := { w with slot := slots.getD (w.id % 16) 0 + w.offset }) hw fun _ ht => ht

theorem crewOk_poisonRegs {k : Crew} (bad : List (Nat × VReg)) (h : CrewOk k) : CrewOk (k.poisonRegs bad) :=
  crewOk_map rfl h fun _ hw => masksOk_foldl hw fun w x _ hw => by
    cases x.2 <;> exact masksOk_fields hw rfl rfl

theorem restoreOn_ok {k : Crew} {core quad : Nat} {t : State} (h : CrewsOk s.crews) (e : s.restoreOn k core quad = some t) :
    CrewsOk t.crews := by
  obtain ⟨slots, -, rfl⟩ := Option.map_eq_some_iff.mp e
  exact crewsOk_modCrew _ h fun _ hc => crewOk_reslot _ _ _ _ hc

theorem swap_ok {k : Crew} {t : State} (h : CrewsOk s.crews) (e : s.swap k = some t) : CrewsOk t.crews := by
  unfold State.swap at e
  split at e
  · cases e
  · split at e
    · refine restoreOn_ok ?_ e
      exact crewsOk_run _ h fun _ => rfl
    · cases e

theorem execCrewSaveDone_ok (r : CrewRef) (h : CrewsOk s.crews) : OutOk (execCrewSaveDone r s) := by
  unfold execCrewSaveDone
  split
  · exact (outOk_next _).mpr h
  · rename_i k _
    split
    · exact (outOk_next _).mpr h
    · have hsw : ∀ b t, (if b = true then none else s.swap k) = some t → CrewsOk t.crews := by
        intro b t e
        split at e
        · cases e
        · exact swap_ok h e
      have h1 : ∀ b p, CrewsOk (match (if b = true then none else s.swap k) with
          | some t => t
          | none => s.modCrew r fun x => { x with run := p }).crews := by
        intro b p
        split
        · exact hsw _ _ ‹_›
        · exact crewsOk_run _ h fun _ => rfl
      exact (outOk_next _).mpr (crewsOk_suspendDone _ (crewsOk_run _ (crewsOk_preemptDone _ _ _ (h1 _ _)) fun _ => rfl))

theorem execCrewRestore_ok (i : SavedCrew) (core quad : Nat) (h : CrewsOk s.crews) : OutOk (execCrewRestore i core quad s) := by
  have hp := crewsOk_pruneFlushed h
  have hb : ∀ k : Crew, CrewsOk (match s.pruneFlushed.restoreOn k core quad with
      | some x => x.modCrew i.crew fun c => c.poisonRegs i.bad
      | none => s).crews := by
    intro k
    split
    · exact crewsOk_modCrew _ (restoreOn_ok hp ‹_›) fun _ hc => crewOk_poisonRegs _ hc
    · exact h
  unfold execCrewRestore
  dsimp only
  split
  · exact (outOk_next _).mpr h
  · split
    · exact (outOk_next _).mpr h
    · split
      · exact (outOk_next _).mpr (hb _)
      · split
        · exact (outOk_next _).mpr (hb _)
        · exact (outOk_next _).mpr (crewsOk_run _ hp fun _ => rfl)
      · exact (outOk_next _).mpr h

/-! ## Kept records -/

theorem execEventStorePost_ok (ctx : Nat) (h : CrewsOk s.crews) : OutOk (execEventStorePost ctx s) := by
  unfold execEventStorePost
  split
  · exact (outOk_next _).mpr h
  · rename_i b _ _
    have he := crewsOk_emit ctx b h
    split
    · split
      · exact (outOk_next _).mpr (fst_ok he ‹_› :)
      · exact (outOk_next _).mpr (fst_ok he ‹_› :)
    · exact (outOk_next _).mpr h

theorem execFaultRecordPost_ok (ctx : Nat) (h : CrewsOk s.crews) : OutOk (execFaultRecordPost ctx s) := by
  unfold execFaultRecordPost
  split
  · exact (outOk_next _).mpr h
  · rename_i f _
    have hp := crewsOk_postTo ctx 2 f.bytes h
    split
    · split
      · exact (outOk_next _).mpr (fst_ok hp ‹_› :)
      · exact (outOk_next _).mpr (crewsOk_queueErrorEvent _ _ (fst_ok hp ‹_› :))
    · exact (outOk_next _).mpr h

/-! ## Resets, lost crews and errors -/

theorem crewsOk_loseIn (core ctx : Nat) (cs : List Crew) (h : CrewsOk s.crews) : CrewsOk (s.loseIn core ctx cs).crews := by
  have hk : ∀ f, CrewsOk ((s.modCtx ctx f).eventKeep ctx (lostRecords core cs)).crews := fun _ => crewsOk_eventKeep _ _ h
  unfold State.loseIn
  split
  · exact hk _
  · exact hk _
  · exact hk _
  · exact h

theorem crewsOk_discardCrews (core : Nat) (cs : List Crew) (h : CrewsOk s.crews) : CrewsOk (s.discardCrews core cs).crews := by
  have h1 := crewsOk_foldl (l := (cs.map fun c => c.ref.ctx).eraseDups)
    (f := fun s n => s.loseIn core n (cs.filter fun c => c.ref.ctx == n)) h fun _ _ _ hs => crewsOk_loseIn _ _ _ hs
  have h2 := crewsOk_foldl (l := cs) (f := State.loseCrew) h1 fun _ _ _ hs => crewsOk_filter _ hs
  exact crewsOk_foldl (s := State.pruneFences _) h2 fun _ _ _ hs => crewsOk_voyageDone _ _ hs

theorem crewsOk_resetCore (core : Nat) (h : CrewsOk s.crews) : CrewsOk (s.resetCore core).crews :=
  crewsOk_discardCrews core _ (crewsOk_filter _ h)

theorem crewsOk_errorAt (e : ErrSite) (h : CrewsOk s.crews) : CrewsOk (s.errorAt e).crews := by
  cases e with
  | vreg w r => cases r <;> exact crewsOk_modWarp_fields _ h fun _ => ⟨rfl, rfl⟩
  | strandReg r => exact crewsOk_modStrand r h fun _ ht => ht
  | tile w t => exact crewsOk_modWarp_fields _ h fun _ => ⟨rfl, rfl⟩
  | crewMem r off =>
    refine crewsOk_run _ h fun c => ?_
    split <;> rfl
  | phys pa =>
    show CrewsOk (if s.backed pa = true then { s with poison := addNew s.poison (pa / 32) } else s).crews
    split <;> exact h
  | imageRegs r =>
    refine crewsOk_modCrew r h fun c hc => ?_
    split
    · exact crewOk_map rfl hc fun _ hw => masksOk_fields hw rfl rfl
    · exact hc
  | imageState r =>
    rw [State.errorAt]
    split
    · split
      · exact crewsOk_discardCrews _ _ h
      · exact h
    · exact h
  | unowned core =>
    rw [State.errorAt]
    split
    · exact crewsOk_resetCore core h
    · exact h

theorem masksOk_noteError {t : Strand} (h : t.masksOk = true) : t.noteError.masksOk = true := by
  obtain ⟨h1, h2, h3⟩ := (strand_masksOk_iff t).mp h
  have hmore : ∀ ch ∈ t.earlier ++ [t.chunk], SnapOk ch := fun ch hc => (List.mem_append.mp hc).elim (h2 ch)
    fun hc => List.mem_singleton.mp hc ▸ h3
  unfold Strand.noteError
  split
  · exact (strand_masksOk_iff _).mpr ⟨h1, hmore, snapOk_congr (ch := Chunk.none) rfl snapOk_none⟩
  · exact (strand_masksOk_iff _).mpr ⟨h1, hmore, snapOk_congr (ch := Chunk.none) rfl snapOk_none⟩
  · exact masksOk_keep h rfl rfl rfl

theorem crewsOk_residueError (c : Cur) (t : TReg) (h : CrewsOk s.crews) : CrewsOk (s.residueError c t).crews := by
  unfold State.residueError
  split
  · exact h
  · split
    · split
      · exact crewsOk_squash _ _ h
      · exact crewsOk_modStrand _ h fun _ ht => masksOk_noteError ht
    · exact crewsOk_trapAt _ _ _ (crewsOk_modStrand _ h fun _ ht => ht)

theorem crewsOk_errorIn (r : StrandRef) (n : Nat) (e : ErrSite) (h : CrewsOk s.crews) : CrewsOk (s.errorIn r n e).crews := by
  unfold State.errorIn
  split
  · exact crewsOk_modStrand r h fun _ ht => masksOk_modUnplaced _ ht fun _ => rfl
  · split
    · exact crewsOk_modStrand r h fun _ ht => masksOk_modUnplaced _ ht fun _ => rfl
    · exact crewsOk_errorAt _ h
  · exact crewsOk_errorAt _ h

theorem execUncorrectableErrorOpen_ok (r : ChunkRef) (residue : Option TReg) (site : ErrSite) (h : CrewsOk s.crews) :
    OutOk (execUncorrectableErrorOpen r residue site s) := by
  unfold execUncorrectableErrorOpen
  split
  · exact (outOk_next _).mpr h
  · split
    · exact (outOk_next _).mpr (crewsOk_residueError _ _ h)
    · split
      · exact (outOk_next _).mpr h
      · refine (outOk_next _).mpr ?_
        split
        · exact h
        · split
          · exact crewsOk_errorIn _ _ _ h
          · exact crewsOk_squashAt _ _ _ h

/-! ## Management commands -/

/-- A command whose effect keeps the masks inside the lanes. -/
theorem crewsOk_command {hd : CmdHdr} {code : Nat} {pf ok : Bool} {ctx : Option Nat} {f : State → Except Nat State}
    {fin : Option (State → List (Nat × Nat × Nat))} (h : CrewsOk s.crews)
    (hf : ∀ s : State, CrewsOk s.crews → Yields (fun t => CrewsOk t.crews) (f s)) : CrewsOk (s.command hd code pf ctx ok f fin).crews := by
  have hl : ∀ kind st r, CrewsOk (s.logCmd hd code kind st r).crews := fun _ _ _ => h
  unfold State.command
  split
  · split
    · exact hl _ _ _
    · split
      · exact h
      · have ht := hf _ (hl _ _ _) _ ‹_›
        split
        · exact ht
        · exact ht
  · exact hl _ _ _

theorem ctxCreate_ok (a : CtxCreateArgs) (h : CrewsOk s.crews) : Yields (fun t => CrewsOk t.crews) (ctxCreate a s) := by
  refine Yields.skip fun _ => Yields.skip fun _ => (yields_ok _).mpr ?_
  exact crewsOk_foldl h fun s x _ hs => crewsOk_recThen _ _ _ (crewsOk_recState _ _ hs)

theorem execCtxCreate_ok (hd : CmdHdr) (a : CtxCreateArgs) (h : CrewsOk s.crews) : OutOk (execCtxCreate hd a s) :=
  (outOk_next _).mpr (crewsOk_command h fun _ hs => ctxCreate_ok a hs)

theorem crewOk_suspend {k : Crew} (h : CrewOk k) : CrewOk k.suspend := by
  unfold Crew.suspend
  split
  · exact h
  · exact h

theorem execCtxSuspend_ok (hd : CmdHdr) (ctx : BitVec 16) (h : CrewsOk s.crews) : OutOk (execCtxSuspend hd ctx s) :=
  (outOk_next _).mpr (crewsOk_suspendDone _ (crewsOk_command h fun _ hs => Yields.skip fun _ => (yields_ok _).mpr
    (crewsOk_updIf hs fun _ hc => crewOk_suspend hc)))

theorem crewsOk_dropCrews (n : Nat) (h : CrewsOk s.crews) : CrewsOk (s.dropCrews n).crews :=
  crewsOk_filter _ (crewsOk_foldl (s := s.abandon _) h fun s _ _ hs => crewsOk_vacate _ (s := s.leaveQueues _) hs)

theorem crewsOk_closeQueues (n : Nat) (h : CrewsOk s.crews) : CrewsOk (s.closeQueues n).crews :=
  crewsOk_foldl h fun s q _ hs => by
    split
    · exact crewsOk_setQueueSt _ _ _ hs
    · exact hs

theorem execCtxDestroy_ok (hd : CmdHdr) (ctx : BitVec 16) (h : CrewsOk s.crews) : OutOk (execCtxDestroy hd ctx s) :=
  (outOk_next _).mpr (crewsOk_command h fun s hs => Yields.skip fun _ => (yields_ok _).mpr
    (crewsOk_closeQueues _ (s := (s.dropCrews _).dropOrphans.pruneFences) (crewsOk_dropCrews _ hs)))

theorem execCtxScrubDone_ok (ctx : Nat) (h : CrewsOk s.crews) : OutOk (execCtxScrubDone ctx s) := by
  unfold execCtxScrubDone
  split
  · refine (outOk_next _).mpr ?_
    split
    · exact crewsOk_filter _ h
    · exact h
  · exact (outOk_next _).mpr h

theorem execCrewPreempt_ok (hd : CmdHdr) (a : PreemptArgs) (h : CrewsOk s.crews) : OutOk (execCrewPreempt hd a s) :=
  (outOk_next _).mpr (crewsOk_command h fun s hs => by
    split
    · split
      · exact (yields_ok _).mpr (crewsOk_run _ hs fun _ => rfl)
      · exact yields_error _
    · exact yields_error _)

theorem execQueueConfig_ok (hd : CmdHdr) (ctx : BitVec 16) (q : BitVec 8) (rec : W64) (h : CrewsOk s.crews) :
    OutOk (execQueueConfig hd ctx q rec s) :=
  (outOk_next _).mpr (crewsOk_command h fun s hs => Yields.skip fun _ => by
    dsimp only
    split
    · exact yields_error _
    · exact (yields_ok _).mpr (crewsOk_recThen _ _ _ (crewsOk_recState _ _ (s := s.modCtx _ _) hs)))

theorem crewsOk_queueCommand {hd : CmdHdr} {code : Nat} {ctx : BitVec 16} {q : BitVec 8} {p : Queue → Bool}
    {f : State → Nat → Nat → State} (h : CrewsOk s.crews) (hf : ∀ (s : State) n q, CrewsOk s.crews → CrewsOk (f s n q).crews) :
    CrewsOk (s.queueCommand hd code ctx q p f).crews :=
  crewsOk_command h fun s hs => Yields.skip fun _ => (yields_ok _).mpr (hf s _ _ hs)

theorem execQueueOpen_ok (hd : CmdHdr) (ctx : BitVec 16) (q : BitVec 8) (h : CrewsOk s.crews) : OutOk (execQueueOpen hd ctx q s) :=
  (outOk_next _).mpr (crewsOk_queueCommand h fun _ _ _ hs => crewsOk_setQueueSt _ _ _ hs)

theorem execQueueClose_ok (hd : CmdHdr) (ctx : BitVec 16) (q : BitVec 8) (h : CrewsOk s.crews) : OutOk (execQueueClose hd ctx q s) :=
  (outOk_next _).mpr (crewsOk_queueCommand h fun _ _ _ hs => crewsOk_setQueueSt _ _ _ hs)

theorem execQueueFree_ok (hd : CmdHdr) (ctx : BitVec 16) (q : BitVec 8) (h : CrewsOk s.crews) : OutOk (execQueueFree hd ctx q s) :=
  (outOk_next _).mpr (crewsOk_queueCommand h fun _ _ _ hs => crewsOk_setQueueSt _ _ _ (crewsOk_statusAll _ _ _ hs))

theorem crewsOk_dropHeld (n q : Nat) (h : CrewsOk s.crews) : CrewsOk (s.dropHeld n q).crews :=
  crewsOk_updIf h fun _ hc => crewOk_map rfl hc fun _ hw => masksOk_fields hw rfl rfl

theorem execQueueReset_ok (hd : CmdHdr) (ctx : BitVec 16) (q : BitVec 8) (h : CrewsOk s.crews) : OutOk (execQueueReset hd ctx q s) :=
  (outOk_next _).mpr (crewsOk_queueCommand h fun _ _ _ hs =>
    crewsOk_setQueueSt _ _ _ (crewsOk_dropHeld _ _ (crewsOk_statusAll _ _ _ hs)))

theorem execQueueQuery_ok (hd : CmdHdr) (ctx : BitVec 16) (q : BitVec 8) (h : CrewsOk s.crews) : OutOk (execQueueQuery hd ctx q s) :=
  (outOk_next _).mpr (crewsOk_command h fun s hs => Yields.skip fun _ => by
    split
    · exact (yields_ok _).mpr hs
    · exact (yields_ok _).mpr (crewsOk_recThen _ _ _ (crewsOk_recPut _ _ _ _ hs)))

theorem execTlbInvalDone_ok (k : Nat) (h : CrewsOk s.crews) : OutOk (execTlbInvalDone k s) := by
  unfold execTlbInvalDone
  split
  · exact (outOk_next _).mpr h
  · refine (outOk_next _).mpr ?_
    split <;> exact h

/-! ## Answers to faults -/

theorem crewsOk_ringFail (ctx q : Nat) (h : CrewsOk s.crews) : CrewsOk (s.ringFail ctx q).crews := by
  unfold State.ringFail
  split
  · exact crewsOk_queueError _ _ _ h
  · exact crewsOk_queueError _ _ _ h
  · exact h

theorem crewsOk_failRing (r : StrandRef) (enq : Bool) (o : QueueOps) (h : CrewsOk s.crews) : CrewsOk (s.failRing r enq o).crews := by
  unfold State.failRing
  split
  · exact h
  · rename_i c hc
    have hr := crewsOk_ringFail c.ctx o.q.toNat h
    have hf := fresh_ok hr (curOf_ok h hc)
    refine crewsOk_resumeCur hr ((viewOk_setStatus ..).mpr ?_)
    split
    · exact hf
    · exact (viewOk_consume ..).mpr hf

theorem crewsOk_answerStrand (r : StrandRef) (id : Nat) (reason : Reason) (fail : Bool) (h : CrewsOk s.crews) :
    CrewsOk (s.answerStrand r id reason fail).crews := by
  unfold State.answerStrand
  split
  · exact h
  · split
    · dsimp only
      split
      · exact h
      · split
        · exact crewsOk_setWait _ _ h
        · split
          · exact crewsOk_failRing _ _ _ h
          · exact crewsOk_modStrand _ h fun _ ht => ht
    · exact h

theorem crewsOk_answerCmd (cmd id : Nat) (reason : Reason) (fail : Bool) (h : CrewsOk s.crews) :
    CrewsOk (s.answerCmd cmd id reason fail).crews := by
  unfold State.answerCmd
  split
  · exact h
  · split
    · split
      · exact h
      · dsimp only
        split
        · exact crewsOk_cmdFault _ _ _ (s := s.modCmd cmd _) h
        · exact h
    · exact h

theorem crewsOk_answerTake (ctx id : Nat) (fail : Bool) (h : CrewsOk s.crews) : CrewsOk (s.answerTake ctx id fail).crews := by
  unfold State.answerTake
  split
  · split
    · exact h
    · split
      · exact h
      · dsimp only
        split
        · exact crewsOk_ringFail _ _ (s := s.modCtx ctx _) h
        · exact crewsOk_launchReject _ _ _ _ (s := s.modCtx ctx _) h
  · exact h

theorem crewsOk_answer (ctx : Nat) (f : FaultRec) (fail : Bool) (a : Attached) (h : CrewsOk s.crews) : CrewsOk (s.answer ctx f fail a).crews := by
  cases a with
  | strand r => exact crewsOk_answerStrand _ _ _ _ h
  | cmd k => exact crewsOk_answerCmd _ _ _ _ h
  | take => exact crewsOk_answerTake _ _ _ h
  | queueRec q conf =>
    refine crewsOk_recThen _ _ _ ?_
    split
    · exact crewsOk_recFail _ _ _ h
    · exact crewsOk_flushRec _ _ _ h
  | enq q =>
    rw [State.answer]
    split
    · exact crewsOk_ringFail _ _ h
    · exact h
  | peer p => exact (crews_answerPeer ..).symm ▸ h

theorem execReplay_ok (hd : CmdHdr) (ctx : BitVec 16) (id : BitVec 32) (action : BitVec 8) (h : CrewsOk s.crews) :
    OutOk (execReplay hd ctx id action s) :=
  (outOk_next _).mpr (crewsOk_command h fun s hs => Yields.skip fun _ => by
    dsimp only
    split
    · exact yields_error _
    · exact (yields_ok _).mpr (crewsOk_foldl (s := (s.modCtx _ _).forget _ _) hs fun _ _ _ hs => crewsOk_answer _ _ _ _ hs))

/-! ## Commands without an effect on crews -/

theorem execCtxResume_ok (hd : CmdHdr) (ctx : BitVec 16) (h : CrewsOk s.crews) : OutOk (execCtxResume hd ctx s) :=
  (outOk_next _).mpr (crewsOk_command h fun _ hs => Yields.skip fun _ => (yields_ok _).mpr hs)

theorem execLossAck_ok (hd : CmdHdr) (ctx : BitVec 16) (readmit : W64) (h : CrewsOk s.crews) : OutOk (execLossAck hd ctx readmit s) :=
  (outOk_next _).mpr (crewsOk_command h fun _ hs => Yields.skip fun _ => (yields_ok _).mpr hs)

theorem execCoreReset_ok (hd : CmdHdr) (core : BitVec 16) (h : CrewsOk s.crews) : OutOk (execCoreReset hd core s) :=
  (outOk_next _).mpr (crewsOk_command h fun _ hs => (yields_ok _).mpr (crewsOk_resetCore _ hs))

theorem execWatchdogSet_ok (hd : CmdHdr) (ctx : BitVec 16) (us : BitVec 32) (h : CrewsOk s.crews) : OutOk (execWatchdogSet hd ctx us s) :=
  (outOk_next _).mpr (crewsOk_command h fun _ hs => Yields.skip fun _ => (yields_ok _).mpr hs)

theorem execTlbInval_ok (hd : CmdHdr) (ctx : BitVec 16) (base len : W64) (h : CrewsOk s.crews) : OutOk (execTlbInval hd ctx base len s) :=
  (outOk_next _).mpr (crewsOk_command h fun _ hs => Yields.skip fun _ => (yields_ok _).mpr hs)

theorem execFrameAttr_ok (hd : CmdHdr) (first len : W64) (value : Byte) (h : CrewsOk s.crews) : OutOk (execFrameAttr hd first len value s) :=
  (outOk_next _).mpr (crewsOk_command h fun _ hs => Yields.skip fun _ => (yields_ok _).mpr hs)

theorem execHwinSet_ok (hd : CmdHdr) (ctx : BitVec 16) (hwb : W64) (h : CrewsOk s.crews) : OutOk (execHwinSet hd ctx hwb s) :=
  (outOk_next _).mpr (crewsOk_command h fun _ hs => Yields.skip fun _ => (yields_ok _).mpr hs)

/-! ## Links, windows and power -/

theorem crewsOk_linkCommand {hd : CmdHdr} {code : Nat} {link : BitVec 8} {p : LinkSt → Bool} {f : State → Nat → State}
    {fin : Option (State → List (Nat × Nat × Nat))} (h : CrewsOk s.crews)
    (hf : ∀ (s : State) i, CrewsOk s.crews → CrewsOk (f s i).crews) : CrewsOk (s.linkCommand hd code link p f fin).crews :=
  crewsOk_command h fun s hs => Yields.skip fun _ => (yields_ok _).mpr (hf s _ hs)

theorem execLinkEnable_ok (hd : CmdHdr) (link : BitVec 8) (h : CrewsOk s.crews) : OutOk (execLinkEnable hd link s) :=
  (outOk_next _).mpr (crewsOk_linkCommand h fun _ _ hs => hs)

theorem execLinkQuiesce_ok (hd : CmdHdr) (link : BitVec 8) (h : CrewsOk s.crews) : OutOk (execLinkQuiesce hd link s) :=
  (outOk_next _).mpr (crewsOk_linkCommand h fun _ _ hs => hs)

theorem execLinkQuiesceDone_ok (link : Nat) (h : CrewsOk s.crews) : OutOk (execLinkQuiesceDone link s) := by
  unfold execLinkQuiesceDone
  split
  · refine (outOk_next _).mpr ?_
    split <;> exact h
  · exact (outOk_next _).mpr h

theorem execLinkDisable_ok (hd : CmdHdr) (link : BitVec 8) (h : CrewsOk s.crews) : OutOk (execLinkDisable hd link s) :=
  (outOk_next _).mpr (crewsOk_linkCommand h fun _ _ hs => crewsOk_linkLost _ _ hs)

theorem execLinkQuery_ok (hd : CmdHdr) (link : BitVec 8) (h : CrewsOk s.crews) : OutOk (execLinkQuery hd link s) :=
  (outOk_next _).mpr (crewsOk_linkCommand h fun _ _ hs => hs)

theorem execWinOpen_ok (hd : CmdHdr) (a : WinOpenArgs) (h : CrewsOk s.crews) : OutOk (execWinOpen hd a s) :=
  (outOk_next _).mpr (crewsOk_command h fun _ hs => Yields.skip fun _ => (yields_ok _).mpr hs)

theorem execWinReset_ok (hd : CmdHdr) (ctx : BitVec 16) (id : BitVec 8) (h : CrewsOk s.crews) : OutOk (execWinReset hd ctx id s) :=
  (outOk_next _).mpr (crewsOk_command h fun _ hs => Yields.skip fun _ => (yields_ok _).mpr (crewsOk_modWindow _ _ _ hs))

theorem execWinClose_ok (hd : CmdHdr) (ctx : BitVec 16) (id : BitVec 8) (h : CrewsOk s.crews) : OutOk (execWinClose hd ctx id s) :=
  (outOk_next _).mpr (crewsOk_command h fun _ hs => Yields.skip fun _ => (yields_ok _).mpr hs)

theorem execWinCloseDone_ok (ctx win : Nat) (h : CrewsOk s.crews) : OutOk (execWinCloseDone ctx win s) := by
  unfold execWinCloseDone
  split
  · exact (outOk_next _).mpr h
  · split
    · exact (outOk_next _).mpr h
    · refine (outOk_next _).mpr ?_
      split <;> exact h

theorem execPowerCap_ok (hd : CmdHdr) (cap : BitVec 32) (h : CrewsOk s.crews) : OutOk (execPowerCap hd cap s) :=
  (outOk_next _).mpr (crewsOk_command h fun _ hs => (yields_ok _).mpr hs)

theorem execPowerOverCap_ok (mhz : Nat) (h : CrewsOk s.crews) : OutOk (execPowerOverCap mhz s) := by
  refine (outOk_next _).mpr ?_
  split <;> exact h

theorem execCxlPoisonReport_ok (pa : Nat) (h : CrewsOk s.crews) : OutOk (execCxlPoisonReport pa s) := by
  refine (outOk_next _).mpr ?_
  split <;> exact h

/-- Behind a module reset there is no crew (R429). -/
theorem execModuleReset_ok (s : State) : OutOk (execModuleReset s) := (outOk_next _).mpr fun _ h => (List.not_mem_nil h).elim

/-! ## The host -/

theorem crewsOk_enqRefused (ctx q : Nat) (k : HostKind) (r : HostResp) (h : CrewsOk s.crews) : CrewsOk (s.enqRefused ctx q k r).crews := by
  unfold State.enqRefused
  dsimp only
  cases k with
  | deferrable =>
    show CrewsOk (if r == HostResp.deferred then s.countDefer ctx q else s).crews
    split
    · exact crewsOk_countDefer _ _ h
    · exact h
  | read => exact crewsOk_countDrop _ _ h
  | posted => exact crewsOk_countDrop _ _ h

theorem crewsOk_hostPut (ctx q : Nat) (x : Queue) (k : HostKind) (item : List Byte) (h : CrewsOk s.crews) :
    CrewsOk (s.hostPut ctx q x k item).crews := by
  have hw := crewsOk_devWrite ctx (x.slotVa x.tail) item (XReq.ringWrite .engine) h
  unfold State.hostPut
  dsimp only
  split
  · exact h
  · split
    · exact (fst_ok hw ‹_› :)
    · exact crewsOk_enqRefused _ _ _ _ (crewsOk_attachFault _ _ _ _ (fst_ok hw ‹_› :))
    · exact crewsOk_enqRefused _ _ _ _ (crewsOk_queueError _ _ _ (fst_ok hw ‹_› :))

@[simp] theorem crews_ignored (s : State) (k : HostKind) : (s.ignored k).crews = s.crews := by cases k <;> rfl

theorem execHostEnqueue_ok (func q : Nat) (k : HostKind) (off : Nat) (data : List Byte) (h : CrewsOk s.crews) :
    OutOk (execHostEnqueue func q k off data s) := by
  unfold execHostEnqueue
  split
  · exact (outOk_next _).mpr h
  · split
    · exact (outOk_next _).mpr ((crews_ignored ..).symm ▸ h)
    · split
      · exact (outOk_next _).mpr h
      · split
        · exact (outOk_next _).mpr (crewsOk_enqRefused _ _ _ _ h)
        · split
          · refine (outOk_next _).mpr ?_
            split
            · exact crewsOk_enqRefused _ _ _ _ h
            · exact crewsOk_hostPut _ _ _ _ _ h
          · exact (outOk_next _).mpr (crewsOk_enqRefused _ _ _ _ h)
          · exact (outOk_next _).mpr (crewsOk_enqRefused _ _ _ _ h)

theorem execHostHeadWrite_ok (func q : Nat) (k : HostKind) (head : W64) (h : CrewsOk s.crews) : OutOk (execHostHeadWrite func q k head s) := by
  unfold execHostHeadWrite
  split
  · exact (outOk_next _).mpr h
  · split
    · exact (outOk_next _).mpr ((crews_ignored ..).symm ▸ h)
    · split
      · exact (outOk_next _).mpr h
      · dsimp only
        split
        · exact (outOk_next _).mpr h
        · split
          · exact (outOk_next _).mpr (crewsOk_setQueueSt _ _ _ h)
          · exact (outOk_next _).mpr h

theorem execApertureOtherAccess_ok (func q : Nat) (k : HostKind) (off : Nat) (h : CrewsOk s.crews) :
    OutOk (execApertureOtherAccess func q k off s) := by
  unfold execApertureOtherAccess
  split
  · exact (outOk_next _).mpr h
  · split
    · exact (outOk_next _).mpr h
    · exact (outOk_next _).mpr ((crews_ignored ..).symm ▸ h)

@[simp] theorem crews_fillLines (s : State) (func va : Nat) (ls : List (Nat × Nat × Leaf)) : (s.fillLines func va ls).crews = s.crews :=
  List.foldlRecOn _ _ (motive := fun t : State => t.crews = s.crews) rfl fun _ ht _ _ => ht

theorem execHostWindowRead_ok (func : Nat) (off : W64) (len : Nat) (h : CrewsOk s.crews) : OutOk (execHostWindowRead func off len s) := by
  unfold execHostWindowRead
  split
  · exact (outOk_next _).mpr h
  · split
    · exact (outOk_next _).mpr h
    · dsimp only
      split
      · exact (outOk_next _).mpr h
      · exact (outOk_next _).mpr ((crews_fillLines ..).symm ▸ h)

theorem crewsOk_performLine (x : HostLines) (h : CrewsOk s.crews) : CrewsOk (s.performLine x).crews := by
  unfold State.performLine
  split
  · exact h
  · split
    · exact h
    · split
      · exact h
      · split
        · exact h
        · rename_i va bs _ _ _ _ l _ _
          have hw := crewsOk_writeG none l.pa bs (s := s.fill x.func va l) h
          extract_lets s1 s2
          have h2 : CrewsOk s2.crews := hw
          clear_value s2
          split
          · exact h2
          · exact h2

theorem crewsOk_hostLine (func : Nat) (h : CrewsOk s.crews) : CrewsOk (s.hostLine func).crews := by
  unfold State.hostLine
  split
  · exact crewsOk_performLine _ h
  · exact h

theorem execHostWindowWrite_ok (func : Nat) (k : HostKind) (off : W64) (data : List Byte) (h : CrewsOk s.crews) :
    OutOk (execHostWindowWrite func k off data s) := by
  unfold execHostWindowWrite
  split
  · exact (outOk_next _).mpr h
  · split
    · exact (outOk_next _).mpr h
    · refine (outOk_next _).mpr ?_
      split
      · exact h
      · exact crewsOk_performLine _ (s := { s with hostw := _, nextCmd := _ }) h

@[simp] theorem crews_dropCmd (s : State) (func : Nat) (k : HostKind) (r : HostResp) : (s.dropCmd func k r).crews = s.crews := by
  cases k <;> rfl

theorem execMailboxOtherWrite_ok (func : Nat) (k : HostKind) (off : Nat) (h : CrewsOk s.crews) : OutOk (execMailboxOtherWrite func k off s) := by
  unfold execMailboxOtherWrite
  split
  · exact (outOk_next _).mpr h
  · split
    · exact (outOk_next _).mpr h
    · refine (outOk_next _).mpr ?_
      split
      · exact (crews_dropCmd ..).symm ▸ h
      · exact h

@[simp] theorem crews_postCmd (s : State) (func : Nat) (k : HostKind) (bs : List Byte) : (s.postCmd func k bs).crews = s.crews := by
  unfold State.postCmd
  split
  · rfl
  · split
    · exact crews_dropCmd ..
    · rfl

/-! ## Packed streams -/

theorem xdec_keeps (o : XdecOps) : StrandEffectOk (xdec o) := by
  intro c hc
  have hr : ∀ l : List (Nat × Nat), ViewOk (l.foldl (fun c r => c.readC r.1 r.2) c) :=
    fun l => (viewOk_foldl c fun d x _ => by simp).mpr hc
  simp [xdec, hr]

theorem execXdec_ok (o : XdecOps) (h : CrewsOk s.crews) : OutOk (execXdec o s) := issueC_ok (xdec_keeps o) h

end Sys2Proof.GroupProofs

/-!
PROOFS. The group (08): the dispatch and the step keep the masks (O56).
-/

namespace Sys2Proof.GroupProofs

open Sys2Proof Sys2Proof.Machine Sys2Proof.Rules

variable {s : State} {c : Cur}

/-! ## The instructions and the steps -/

/-- What an instruction, an event or a command goes on to has its masks inside the lanes. -/
theorem exec_ok (i : Instr) (h : CrewsOk s.crews) : OutOk (exec i s) := by
  cases i with
  | nop => exact execNop_ok h
  | bra | braNz | braZ | brz | brnz =>
    dsimp only [exec]
    exact branch_ok _ _ h
  | dbr => exact execDbr_ok _ _ _ h
  | join => exact execJoin_ok h
  | call | callI =>
    dsimp only [exec]
    exact issueCall_ok _ _ _ h
  | ret => exact execRet_ok h
  | exit | exitS =>
    dsimp only [exec]
    exact exitLanes_ok _ h
  | trap => exact execTrap_ok _ _ h
  | rft => exact execRft_ok h
  | yield => exact execYield_ok h
  | srd => exact execSrd_ok _ _ h
  | swr => exact execSwr_ok _ _ h
  | csrr => exact execCsrr_ok _ _ h
  | csrw => exact execCsrw_ok _ _ h
  | idrd => exact execIdrd_ok _ _ h
  | chend => exact execChend_ok h
  | chcfg => exact execChcfg_ok _ _ h
  | wsplit => exact execWsplit_ok _ _ h
  | wfuse => exact execWfuse_ok _ h
  | wqry => exact execWqry_ok _ h
  | tagset => exact execTagset_ok _ _ h
  | tagget => exact execTagget_ok _ h
  | sadd o | ssub o | sand o | sor o | sxor o | sshl o | sshr o | ssra o | smin o | smax o | sminu o | smaxu o | smul o
  | smulh o | smulhu o | sandn o | scmpEq o | scmpNe o | scmpLt o | scmpLe o | scmpGt o | scmpGe o | scmpLtu o | scmpLeu o
  | scmpGtu o | scmpGeu o =>
    dsimp only [exec, scmp, execSadd, execSsub, execSand, execSor, execSxor, execSshl, execSshr, execSsra, execSmin,
      execSmax, execSminu, execSmaxu, execSmul, execSmulh, execSmulhu, execSandn, execScmpEq, execScmpNe, execScmpLt,
      execScmpLe, execScmpGt, execScmpGe, execScmpLtu, execScmpLeu, execScmpGtu, execScmpGeu]
    exact salu_ok _ o h
  | ssel => exact execSsel_ok _ h
  | spopc o | sclz o | sctz o | srev o =>
    dsimp only [exec]
    exact sbit_ok _ o h
  | sbfe => exact execSbfe_ok _ h
  | sbfi => exact execSbfi_ok _ h
  | sld o => exact issueMem_ok (sldChunk_sound o) (sldEvent_sound o) h
  | sst o => exact issueMem_ok (sstChunk_sound o) (sstEvent_sound o) h
  | vadd o | vsub o | vand o | vor o | vxor o | vshl o | vshr o | vsra o | vmin o | vmax o | vmul o | vmulh o | vabsd o
  | vandn o | vadds o | vsubs o =>
    dsimp only [exec]
    exact valu_ok _ o h
  | vaddImm o | vsubImm o | vandImm o | vorImm o | vxorImm o | vshlImm o | vshrImm o | vsraImm o | vminImm o | vmaxImm o
  | vmulImm o | vmulhImm o | vabsdImm o | vandnImm o | vaddsImm o | vsubsImm o =>
    dsimp only [exec]
    exact valui_ok _ o h
  | vaddc o | vsubb o =>
    dsimp only [exec]
    exact carryOp_ok _ o h
  | vmad64U o | vmad64S o =>
    dsimp only [exec]
    exact vmad_ok _ o h
  | vcmpEq o | vcmpNe o | vcmpLt o | vcmpLe o | vcmpGt o | vcmpGe o | vcmpLtu o | vcmpLeu o | vcmpGtu o | vcmpGeu o =>
    dsimp only [exec]
    exact vcmp_ok _ o h
  | vsel => exact execVsel_ok _ h
  | vmov => exact execVmov_ok _ h
  | vli => exact execVli_ok _ h
  | vliHi => exact execVliHi_ok _ h
  | vliDup => exact execVliDup_ok _ h
  | vpopc o | vclz o | vctz o | vrev o =>
    dsimp only [exec]
    exact vbit1_ok _ o h
  | vbfe => exact execVbfe_ok _ h
  | vbfi o | vbperm o =>
    dsimp only [exec]
    exact vbit3_ok _ o h
  | vdot4II o | vdot4UU o | vdot4IU o =>
    dsimp only [exec]
    exact vdot4_ok _ _ _ o h
  | fadd => exact execFadd_ok _ h
  | fsub => exact execFsub_ok _ h
  | fmul => exact execFmul_ok _ h
  | fmin o | fmax o =>
    dsimp only [exec]
    exact fminmax_ok _ o h
  | ffma => exact execFfma_ok _ h
  | ffms => exact execFfms_ok _ h
  | ffnma => exact execFfnma_ok _ h
  | fscale => exact execFscale_ok _ h
  | fcmpEq o | fcmpNe o | fcmpLt o | fcmpLe o | fcmpGt o | fcmpGe o | fcmpUnord o | fcmpOrd o =>
    dsimp only [exec]
    exact fcmp_ok _ o h
  | fclass => exact execFclass_ok _ h
  | frcp o | frsq o | fsqrt o | fexp2 o | flog2 o | fsin o | fcos o | ftanh o =>
    dsimp only [exec]
    exact fsf_ok _ o h
  | cvt => exact execCvt_ok _ h
  | cvtmxQ => exact execCvtmxQ_ok _ h
  | cvtmxD => exact execCvtmxD_ok _ h
  | shflIdx => exact execShflIdx_ok _ h
  | shflUp o | shflDown o | shflXor o =>
    dsimp only [exec]
    exact shflBy_ok _ o h
  | bcast => exact execBcast_ok _ h
  | bcastS => exact execBcastS_ok _ h
  | vtos => exact execVtos_ok _ h
  | vredAdd o | vredMin o | vredMax o | vredAnd o | vredOr o | vredXor o | vredFadd o | vredFmin o | vredFmax o =>
    dsimp only [exec]
    exact vred_ok _ o h
  | vscanAdd o | vscanMin o | vscanMax o | vscanAnd o | vscanOr o | vscanXor o | vscanFadd o | vscanFmin o | vscanFmax o =>
    dsimp only [exec]
    exact vscan_ok _ o h
  | voteBallot => exact execVoteBallot_ok _ h
  | voteAny o | voteAll o =>
    dsimp only [exec]
    exact vote_ok _ o h
  | votePfroms => exact execVotePfroms_ok _ h
  | qxchH => exact execQxchH_ok _ h
  | qxchV => exact execQxchV_ok _ h
  | qxchD => exact execQxchD_ok _ h
  | qxchB => exact execQxchB_ok _ h
  | emset => exact execEmset_ok _ h
  | emld => exact execEmld_ok _ h
  | emst => exact execEmst_ok _ h
  | emand => exact execEmand_ok _ h
  | hmset => exact execHmset_ok _ h
  | ld o => exact issueMem_ok (ldChunk_sound o) (ldEvent_sound o) h
  | st o => exact issueMem_ok (stChunk_sound o) (stEvent_sound o) h
  | ldcw o => exact issueC_ok (ldcwChunk_keeps o) h
  | stcw o => exact issueC_ok (stcwChunk_keeps o) h
  | pref o => exact issueMem_ok (prefChunk_sound o) (prefEvent_sound o) h
  | discard o => exact issueMem_ok (discChunk_sound o) (discEvent_sound o) h
  | amoAdd o | amoSub o | amoMin o | amoMax o | amoMinu o | amoMaxu o | amoAnd o | amoOr o | amoXor o | amoXchg o | amoCas o
  | amoFadd o | amoIncw o | amoDecw o =>
    dsimp only [exec]
    exact amo_ok _ o h
  | amovAdd o | amovSub o | amovMin o | amovMax o | amovMinu o | amovMaxu o | amovAnd o | amovOr o | amovXor o | amovXchg o
  | amovCas o | amovFadd o | amovIncw o | amovDecw o =>
    dsimp only [exec]
    exact amov_ok _ o h
  | svwaitEq o | svwaitGeu o =>
    dsimp only [exec]
    exact svwait_ok _ o h
  | binit => exact execBinit_ok _ _ h
  | barv => exact execBarv_ok _ _ h
  | bwt => exact execBwt_ok _ h
  | barw => exact execBarw_ok _ _ h
  | enq => exact execEnq_ok _ h
  | deq => exact execDeq_ok _ h
  | deqt => exact execDeqt_ok _ h
  | engq => exact execEngq_ok _ h
  | bclose => exact execBclose_ok _ h
  | bwait => exact execBwait_ok _ h
  | btest => exact execBtest_ok _ h
  | xfence => exact execXfence_ok _ _ h
  | wcwaitS o | wcwaitD o =>
    dsimp only [exec]
    exact wcwait_ok _ o h
  | mmaF16 o | mmaBf16 o | mmaE4m3 o | mmaE5m2 o | mmaMxe4m3 o | mmaMxe5m2 o | mmaMxe2m1 o =>
    dsimp only [exec]
    exact mma_ok _ o h
  | mmaiI8i8 o | mmaiU8i8 o | mmaiI4i4 o | mmatI8t2 o | mmatU8t2 o =>
    dsimp only [exec]
    exact mmai_ok _ o h
  | azero => exact execAzero_ok _ h
  | ald => exact execAld_ok _ h
  | ast => exact execAst_ok _ h
  | amovv => exact execAmovv_ok _ _ h
  | amova => exact execAmova_ok _ _ h
  | acvtRelu | acvtScale | acvtClamp =>
    dsimp only [exec]
    exact acvt_ok _ _ _ h
  | atag => exact execAtag_ok _ _ _ h
  | kinitR => exact execKinitR_ok _ h
  | kinitA => exact execKinitA_ok _ h
  | knext => exact execKnext_ok _ h
  | knextS => exact execKnextS_ok _ h
  | kseek => exact execKseek_ok _ h
  | kdesc => exact execKdesc_ok _ _ _ h
  | kld => exact execKld_ok _ h
  | kqry => exact execKqry_ok _ h
  | ksave => exact execKsave_ok _ h
  | krest => exact execKrest_ok _ h
  | kcoI => exact execKcoI_ok _ h
  | kcoU => exact execKcoU_ok _ h
  | kapp => exact execKapp_ok _ h
  | kfin => exact execKfin_ok _ h
  | sieveNz => exact execSieveNz_ok _ h
  | sieveDelta => exact execSieveDelta_ok _ h
  | xdec => exact execXdec_ok _ h
  | reservedOpcodeWord => exact execReservedOpcodeWord_ok _ h
  | clauseStart => exact execClauseStart_ok h
  | pairIssue => exact execPairIssue_ok _ _ h
  | dbrSplit => exact execDbrSplit_ok _ h
  | joinArrive => exact execJoinArrive_ok _ h
  | warpSplit => exact execWarpSplit_ok _ h
  | warpFusion => exact execWarpFusion_ok _ _ h
  | wfuseTimeout => exact execWfuseTimeout_ok _ h
  | singletonEvent => exact execSingletonEvent_ok _ h
  | svwaitWake => exact execSvwaitWake_ok _ h
  | deqWake => exact execDeqWake_ok _ _ h
  | engineAccess => exact execEngineAccess_ok _ _ h
  | bwaitWake => exact execBwaitWake_ok _ h
  | batchComplete => exact execBatchComplete_ok _ h
  | xfenceResume => exact execXfenceResume_ok _ h
  | wcwaitWake => exact execWcwaitWake_ok _ h
  | chlimReached => exact execChlimReached_ok _ h
  | flaggedCompletion => exact execFlaggedCompletion_ok _ _ h
  | chunkOffer => exact execChunkOffer_ok _ h
  | chunkCommit => exact execChunkCommit_ok _ h
  | pinGrant => exact execPinGrant_ok _ h
  | trapEntry => exact execTrapEntry_ok _ h
  | faultPark => exact execFaultPark_ok _ h
  | watchdog => exact execWatchdog_ok _ h
  | uncorrectableErrorOpen => exact execUncorrectableErrorOpen_ok _ _ _ h
  | uncorrectableErrorCommitted e => exact (outOk_next _).mpr (crewsOk_errorAt e h)
  | correctedError | cxlPortDown | unlistedCommand | linkLevelError =>
    dsimp only [exec]
    exact (outOk_next _).mpr h
  | launchTake => exact execLaunchTake_ok _ h
  | convoyPlace => exact execConvoyPlace_ok _ _ _ h
  | crewRetire => exact execCrewRetire_ok _ h
  | quadrantHaltDone => exact execQuadrantHaltDone_ok _ h
  | crewSaveDone => exact execCrewSaveDone_ok _ h
  | crewRestore => exact execCrewRestore_ok _ _ _ h
  | eventStorePost => exact execEventStorePost_ok _ h
  | faultRecordPost => exact execFaultRecordPost_ok _ h
  | hostEnqueue => exact execHostEnqueue_ok _ _ _ _ _ h
  | hostHeadWrite => exact execHostHeadWrite_ok _ _ _ _ h
  | apertureOtherAccess => exact execApertureOtherAccess_ok _ _ _ _ h
  | hostWindowRead => exact execHostWindowRead_ok _ _ _ h
  | hostWindowWrite => exact execHostWindowWrite_ok _ _ _ _ h
  | mailboxOtherWrite => exact execMailboxOtherWrite_ok _ _ _ h
  | ctxCreate => exact execCtxCreate_ok _ _ h
  | ctxSuspend => exact execCtxSuspend_ok _ _ h
  | ctxResume => exact execCtxResume_ok _ _ h
  | ctxDestroy => exact execCtxDestroy_ok _ _ h
  | ctxScrubDone => exact execCtxScrubDone_ok _ h
  | lossAck => exact execLossAck_ok _ _ _ h
  | coreReset => exact execCoreReset_ok _ _ h
  | crewPreempt => exact execCrewPreempt_ok _ _ h
  | watchdogSet => exact execWatchdogSet_ok _ _ _ h
  | queueConfig => exact execQueueConfig_ok _ _ _ _ h
  | queueOpen => exact execQueueOpen_ok _ _ _ h
  | queueClose => exact execQueueClose_ok _ _ _ h
  | queueFree => exact execQueueFree_ok _ _ _ h
  | queueReset => exact execQueueReset_ok _ _ _ h
  | queueQuery => exact execQueueQuery_ok _ _ _ h
  | tlbInval => exact execTlbInval_ok _ _ _ _ h
  | tlbInvalDone => exact execTlbInvalDone_ok _ h
  | replay => exact execReplay_ok _ _ _ _ h
  | frameAttr => exact execFrameAttr_ok _ _ _ _ h
  | hwinSet => exact execHwinSet_ok _ _ _ h
  | linkEnable => exact execLinkEnable_ok _ _ h
  | linkQuiesce => exact execLinkQuiesce_ok _ _ h
  | linkQuiesceDone => exact execLinkQuiesceDone_ok _ h
  | linkDisable => exact execLinkDisable_ok _ _ h
  | linkQuery => exact execLinkQuery_ok _ _ h
  | winOpen => exact execWinOpen_ok _ _ h
  | winReset => exact execWinReset_ok _ _ _ h
  | winClose => exact execWinClose_ok _ _ _ h
  | winCloseDone => exact execWinCloseDone_ok _ _ h
  | powerCap => exact execPowerCap_ok _ _ h
  | powerOverCap => exact execPowerOverCap_ok _ h
  | linkTrainingDone => exact execLinkTrainingDone_ok _ _ h
  | linkLaneLoss => exact execLinkLaneLoss_ok _ _ h
  | linkFailure => exact execLinkFailure_ok _ h
  | linkRemotePut => exact execLinkRemotePut_ok _ _ _ _ h
  | linkPutAck => exact execLinkPutAck_ok _ h
  | linkRemoteGet => exact execLinkRemoteGet_ok _ _ _ h
  | linkGetData => exact execLinkGetData_ok _ _ _ h
  | cxlPoisonReport => exact execCxlPoisonReport_ok _ h
  | linkPeerFault => exact execLinkPeerFault_ok _ h
  | moduleReset => exact execModuleReset_ok s

@[simp] theorem crews_fetched (s : State) (ctx : Nat) (a : W64) : (s.fetched ctx a).crews = s.crews := by
  unfold State.fetched
  split
  · exact crews_fill ..
  · rfl

theorem runStrand_ok (r : StrandRef) (h : CrewsOk s.crews) : OutOk (s.runStrand r) := by
  unfold State.runStrand
  dsimp only
  split
  · exact (outOk_next _).mpr h
  · split
    · exact exec_ok _ ((crews_fetched ..).symm ▸ h)
    · exact (outOk_next _).mpr (crewsOk_stop _ _ _ _ (s := { s with focus := some r }) h)
    · exact (outOk_next _).mpr h

theorem acceptCmd_ok (func : Nat) (h : CrewsOk s.crews) : OutOk (s.acceptCmd func) := by
  unfold State.acceptCmd
  split
  · exact (outOk_next _).mpr h
  · exact exec_ok _ h

theorem doMove_ok (m : Move) (h : CrewsOk s.crews) : OutOk (s.doMove m) := by
  cases m with
  | issue r => exact runStrand_ok r h
  | event i =>
    rw [State.doMove]
    split
    · exact (outOk_next _).mpr h
    · exact exec_ok i h
  | post func k bs => exact (outOk_next _).mpr ((crews_postCmd ..).symm ▸ h)
  | accept func => exact acceptCmd_ok func h
  | hostLine func => exact (outOk_next _).mpr (crewsOk_hostLine func h)
  | unblock ctx => exact (outOk_next _).mpr (crewsOk_unblock ctx h)
  | evict core line ws => exact (outOk_next _).mpr h

theorem move_ok (m : Move) (h : CrewsOk s.crews) : OutOk (s.move m) := by
  have hm := doMove_ok m h
  unfold State.move Out.after
  split
  · exact (outOk_next _).mpr (crewsOk_commitPinned (hm _ ‹_›))
  · exact hm

theorem step_ok (h : CrewsOk s.crews) : OutOk (step s) := by
  have ht : CrewsOk s.tick.crews := h
  unfold step State.nextMove
  split
  · exact move_ok _ ht
  · split
    · exact move_ok _ ht
    · exact (outOk_next _).mpr ht

/-- Settles O56: every instruction, event and command keeps the masks of every strand, of its chunks' snapshots and of the kept
merges inside the lanes. -/
theorem masksStayInside : Obligations.MasksStayInside := by
  intro s t h ht
  exact (masksOk_iff t).mpr (step_ok ((masksOk_iff s).mp h) t ht)

end Sys2Proof.GroupProofs

/-!
PROOFS. The group (08): frames, arrivals and the merge (O41).
-/

namespace Sys2Proof.GroupProofs

open Sys2Proof Sys2Proof.Machine Sys2Proof.Rules Sys2Proof.ContextProofs

/-! ## A warp updated (R150 to R152) -/

section
variable {s : State} {c : Cur}

/-- The warp of a strand updated in that strand alone. -/
theorem touches_modWarp (h : s.curOf c.ref = some c) {g : Warp → Warp} {f : Strand → Strand} (hid : ∀ w, (g w).id = w.id)
    (hg : g c.warp = updStrand c.ref.strand f c.warp) :
    ∃ e, Touches s (s.modWarp c.ref.w g) c e ∧ e.t = f c.t := by
  have ht : (g c.warp).strand? c.ref.strand = some (f c.t) := by
    rw [hg, strand?_updStrand_self, ((curOf_iff s c.ref c).mp h).2.2.2.1, Option.map_some]
  have he := curOf_modWarp h (fun w hw => (hid w).trans hw) ht
  refine ⟨_, ⟨he, rfl, strand?_elsewhere h he (fun r hr => crew?_modCrew_ne s _ r _ (fun _ hk => hk) hr)
    (fun i hi => warp?_updIf_ne c.crew _ i g (fun w hw => (hid w).trans hw) hi) fun k hk => ?_, ?_, rfl⟩, rfl⟩
  · exact (congrArg (·.strand? k) hg).trans (strand?_updStrand_ne c.warp _ k f hk)
  · exact hg.trans (by rw [hg]; rfl)

/-- A strand and then its warp updated are the warp updated once. -/
theorem modWarp_modStrand (s : State) (r : StrandRef) (f : Strand → Strand) (g : Warp → Warp) :
    (s.modStrand r f).modWarp r.w g = s.modWarp r.w (g ∘ updStrand r.strand f) := by
  rw [modStrand_eq, modWarp_eq, modWarp_eq, modCrew_modCrew _ _ (updWarp _ _) _ (fun _ => rfl),
    updWarp_updWarp _ (updStrand _ _) _ (fun _ => rfl)]

end

/-! ## Settled frames -/

theorem foldl_leave_keeps {α : Type} (q : Warp → α) (hq : ∀ w k, q (w.leave k) = q w) (ks : List Nat) (w : Warp) :
    q (ks.foldl Warp.leave w) = q w := foldl_keeps q (fun w k => hq w k) ks w

theorem merge_id (w : Warp) (f : Frame) : (w.merge f).id = w.id := foldl_leave_keeps (·.id) (fun _ _ => rfl) _ (w.dropFrame f)

theorem refuseMerge_id (w : Warp) (f : Frame) (extra : StrandCore → Nat) : (w.refuseMerge f extra).id = w.id := by
  refine (foldl_keeps Warp.id ?_ f.members (w.dropFrame f) :)
  exact fun _ _ => rfl

theorem complete_id (w : Warp) (f : Frame) (extra : StrandCore → Nat) : (w.complete f extra).id = w.id := by
  unfold Warp.complete
  split
  · split
    · exact merge_id w f
    · split
      · exact refuseMerge_id w f extra
      · rfl
  · rfl

theorem settle_id (w : Warp) (extra : StrandCore → Nat) : (w.settle extra).id = w.id :=
  foldl_keeps Warp.id (fun w f => complete_id w f extra) _ w

/-- The strands, read entry by entry. -/
theorem map_strand? (w : Warp) : (List.range w.strands.length).map w.strand? = w.strands := by
  refine List.ext_getElem? fun k => ?_
  by_cases hk : k < w.strands.length
  · simp [Warp.strand?, hk]
  · simp [hk]

/-- Where no strand is left alone at a JOIN, settling is what the complete frames do. -/
theorem settle_of_frames {w v : Warp} {extra : StrandCore → Nat} (hv : w.frames.reverse.foldl (fun w f => w.complete f extra) w = v)
    (ha : ∀ k t, v.strand? k = some t → v.leftAlone k t = false) : w.settle extra = v := by
  have hs : (List.range v.strands.length).map (fun k => (v.strand? k).map fun t => if v.leftAlone k t then t.passJoin else t) =
      v.strands := by
    refine (List.map_congr_left fun k _ => ?_).trans (map_strand? v)
    cases hk : v.strand? k with
    | none => rfl
    | some t => simp [ha k t hk]
  unfold Warp.settle
  rw [hv]
  refine Eq.trans ?_ (congrArg (fun l => { v with strands := l }) hs)
  dsimp only
  congr 1
  refine List.map_congr_left fun k _ => ?_
  cases v.strand? k <;> rfl

/-- A frame with a member that has not arrived is not complete (R151). -/
theorem complete_of_absent {w : Warp} {f : Frame} {extra : StrandCore → Nat} {k : Nat} (hk : k ∈ f.members)
    (ha : w.arrivedAt f k = false) : w.complete f extra = w := by
  have hall : f.members.all (w.arrivedAt f) = false := List.all_eq_false.mpr ⟨k, hk, by simp [ha]⟩
  simp [Warp.complete, hall]

/-- A complete frame whose members may merge merges (R152). -/
theorem complete_of_all {w : Warp} {f : Frame} {extra : StrandCore → Nat} (hf : f ∈ w.frames)
    (ha : ∀ k ∈ f.members, w.arrivedAt f k = true) (hb : w.mergeBad f.members = false) : w.complete f extra = w.merge f := by
  have hall : f.members.all (w.arrivedAt f) = true := List.all_eq_true.mpr ha
  simp [Warp.complete, hf, hall, hb]

/-- The frames of a strand in a warp of one frame. -/
theorem framesOf_one {w : Warp} {f : Frame} {k : Nat} (hw : w.frames = [f]) (hk : k ∈ f.members) : w.framesOf k = [f] := by
  simp [Warp.framesOf, hw, hk]

/-! ## The survivor (R152) -/

/-- The lanes in EM of a strand. -/
def emLanes (w : Warp) (k : Nat) : Nat := match w.strand? k with | some t => popMask w.width t.core.em | none => 0

/-- The better of two members: most lanes, then the lower index. -/
def better (f : Nat → Nat) (best k : Nat) : Nat := if f best < f k || (f best == f k && decide (k < best)) then k else best

theorem survivor_eq (w : Warp) (ms : List Nat) : w.survivor ms = ms.foldl (better (emLanes w)) (ms.headD 0) := rfl

/-- One member is at least as good as another. -/
def Beats (f : Nat → Nat) (k j : Nat) : Prop := f j < f k ∨ (f j = f k ∧ k ≤ j)

theorem better_beats (f : Nat → Nat) (a b : Nat) : Beats f (better f a b) a ∧ Beats f (better f a b) b := by
  unfold better Beats
  split
  next h =>
    simp only [Bool.or_eq_true, Bool.and_eq_true, beq_iff_eq, decide_eq_true_eq] at h
    omega
  next h =>
    simp only [Bool.or_eq_true, Bool.and_eq_true, beq_iff_eq, decide_eq_true_eq] at h
    omega

theorem Beats.trans {f : Nat → Nat} {a b d : Nat} (h : Beats f a b) (h' : Beats f b d) : Beats f a d := by
  unfold Beats at *
  omega

theorem foldl_better (f : Nat → Nat) (ms : List Nat) (a : Nat) :
    (ms.foldl (better f) a = a ∨ ms.foldl (better f) a ∈ ms) ∧ Beats f (ms.foldl (better f) a) a ∧
      ∀ j ∈ ms, Beats f (ms.foldl (better f) a) j := by
  induction ms generalizing a with
  | nil => exact ⟨.inl rfl, .inr ⟨rfl, Nat.le_refl _⟩, fun _ h => (List.not_mem_nil h).elim⟩
  | cons m ms ih =>
    obtain ⟨hmem, hbest, hall⟩ := ih (better f a m)
    obtain ⟨ha, hm⟩ := better_beats f a m
    refine ⟨?_, hbest.trans ha, fun j hj => ?_⟩
    · rcases hmem with e | e
      · have hab : better f a m = a ∨ better f a m = m := by
          unfold better
          split
          · exact .inr rfl
          · exact .inl rfl
        rcases hab with e' | e'
        · exact .inl (e.trans e')
        · exact .inr (List.mem_cons.mpr (.inl (e.trans e')))
      · exact .inr (List.mem_cons_of_mem _ e)
    · rcases List.mem_cons.mp hj with rfl | hj
      · exact hbest.trans hm
      · exact hall j hj

/-- The survivor is a member, with most lanes and the lowest index among those. -/
theorem survivor_spec (w : Warp) {ms : List Nat} (hne : ms ≠ []) :
    w.survivor ms ∈ ms ∧ ∀ j ∈ ms, Beats (emLanes w) (w.survivor ms) j := by
  rw [survivor_eq]
  obtain ⟨hmem, -, hall⟩ := foldl_better (emLanes w) ms (ms.headD 0)
  refine ⟨?_, hall⟩
  rcases hmem with e | e
  · rw [e]
    cases ms with
    | nil => exact absurd rfl hne
    | cons m ms => exact List.mem_cons_self
  · exact e

/-! ## The merged strand -/

theorem getLsbD_foldl_or (g : Nat × Strand → Mask) (ms : List (Nat × Strand)) (m : Mask) (i : Nat) :
    (ms.foldl (fun m t => m ||| g t) m).getLsbD i = true ↔ m.getLsbD i = true ∨ ∃ t ∈ ms, (g t).getLsbD i = true := by
  induction ms generalizing m with
  | nil => simp
  | cons t ms ih => simp [ih, BitVec.getLsbD_or, or_assoc]

theorem mem_membersOf {w : Warp} {f : Frame} {k : Nat} {t : Strand} :
    (k, t) ∈ w.membersOf f ↔ k ∈ f.members ∧ w.strand? k = some t := by
  simp only [Warp.membersOf, List.mem_filterMap, Option.map_eq_some_iff, Prod.mk.injEq]
  constructor
  · rintro ⟨j, hj, u, hu, rfl, rfl⟩
    exact ⟨hj, hu⟩
  · rintro ⟨hk, ht⟩
    exact ⟨k, hk, t, ht, rfl, rfl⟩

/-- The masks of a frame's members together. -/
theorem gathers_membersOf (w : Warp) (f : Frame) (g : StrandCore → Mask) :
    Gathers ((w.membersOf f).foldl (fun m t => m ||| g t.2.core) 0) w f.members g := by
  intro i _
  have h0 : (0 : Mask).getLsbD i = false := BitVec.getLsbD_zero
  rw [getLsbD_foldl_or (fun t => g t.2.core), h0]
  simp only [Bool.false_eq_true, false_or, Prod.exists, mem_membersOf]
  constructor
  · rintro ⟨k, t, ⟨hk, ht⟩, hi⟩
    exact ⟨k, hk, t, ht, hi⟩
  · rintro ⟨k, hk, t, ht, hi⟩
    exact ⟨k, t, ⟨hk, ht⟩, hi⟩

theorem mem_arrivalChunks {w : Warp} {f : Frame} {ch : Chunk} :
    ch ∈ arrivalChunks (w.membersOf f) ↔ ∃ j ∈ f.members, ∃ u, w.strand? j = some u ∧ ∃ g ∈ u.unplaced, g.active = true ∧
      ch = { g with owner := some j } := by
  simp only [arrivalChunks, List.mem_flatMap, List.mem_map, List.mem_filter, Prod.exists, mem_membersOf]
  constructor
  · rintro ⟨j, u, ⟨hj, hu⟩, g, ⟨hg, ha⟩, rfl⟩
    exact ⟨j, hj, u, hu, g, hg, ha, rfl⟩
  · rintro ⟨j, hj, u, hu, g, hg, ha, rfl⟩
    exact ⟨j, u, ⟨hj, hu⟩, g, ⟨hg, ha⟩, rfl⟩

/-- Strands leave a warp without frames. -/
theorem foldl_leave (ks : List Nat) (w : Warp) (hw : w.frames = []) :
    ks.foldl Warp.leave w = { w with strands := ks.foldl (fun l k => setAt l k none) w.strands } := by
  induction ks generalizing w with
  | nil => rfl
  | cons k ks ih =>
    have hf : (w.leave k).frames = [] := by simp [Warp.leave, hw]
    rw [List.foldl_cons, ih _ hf]
    simp [Warp.leave, hw]

theorem getD_foldl_setAt_none (ks : List Nat) (l : List (Option Strand)) (j : Nat) :
    (ks.foldl (fun l k => setAt l k none) l).getD j none = if j ∈ ks then none else l.getD j none := by
  induction ks generalizing l with
  | nil => simp
  | cons k ks ih =>
    rw [List.foldl_cons, ih, getD_setAt]
    by_cases hj : j ∈ ks
    · simp [hj]
    · by_cases hk : j = k
      · subst hk
        by_cases hl : j < l.length
        · simp [hl]
        · simp [hl]
      · simp [hj, hk]

/-- The strand that goes on behind its JOIN for all members of a frame. -/
def mergedStrand (w : Warp) (f : Frame) (t : Strand) : Strand :=
  ({ t with core := { t.core with l := (w.membersOf f).foldl (fun m t => m ||| t.2.core.l) 0,
                                  em := (w.membersOf f).foldl (fun m t => m ||| t.2.core.em) 0,
                                  hm := (w.membersOf f).foldl (fun m t => m ||| t.2.core.hm) 0 },
            earlier := arrivalChunks (w.membersOf f), chunk := Chunk.none } : Strand).passJoin

/-- What undoes a merge while an arrival chunk is not placed (R153). -/
def keptMerge (w : Warp) (f : Frame) : List Merge :=
  if (arrivalChunks (w.membersOf f)).isEmpty then []
  else [{ sv := w.survivor f.members, frame := f, outer := ((w.framesOf (w.survivor f.members)).filter (· != f)).map (·.addr),
          members := w.membersOf f }]

/-- The merge of a warp's only frame: the survivor goes on for all, the other members are gone. -/
theorem merge_one {w : Warp} {f : Frame} (hw : w.frames = [f]) :
    w.merge f = updStrand (w.survivor f.members) (mergedStrand w f)
      { w with strands := (f.members.filter (· != w.survivor f.members)).foldl (fun l k => setAt l k none) w.strands,
               frames := [], merges := w.merges ++ keptMerge w f } := by
  have hd : (w.dropFrame f).frames = [] := by simp [Warp.dropFrame, hw]
  have he : w.merge f = updStrand (w.survivor f.members) (mergedStrand w f)
      { (f.members.filter (· != w.survivor f.members)).foldl Warp.leave (w.dropFrame f) with
        merges := ((f.members.filter (· != w.survivor f.members)).foldl Warp.leave (w.dropFrame f)).merges ++ keptMerge w f } := rfl
  rw [he, foldl_leave _ _ hd, hd]
  rfl

theorem merge_one_strand {w : Warp} {f : Frame} (hw : w.frames = [f]) (j : Nat) :
    (w.merge f).strand? j = if j = w.survivor f.members then (w.strand? j).map (mergedStrand w f)
      else if j ∈ f.members then none else w.strand? j := by
  have hl := getD_foldl_setAt_none (f.members.filter (· != w.survivor f.members)) w.strands j
  rw [merge_one hw]
  by_cases hj : j = w.survivor f.members
  · subst hj
    rw [if_pos rfl, strand?_updStrand_self]
    exact congrArg _ (hl.trans (if_neg (by simp)))
  · rw [if_neg hj, strand?_updStrand_ne _ _ _ _ hj]
    refine hl.trans ?_
    simp [hj, Warp.strand?]

/-! ## Arrival at a JOIN (R151) -/

/-- A strand parked at its JOIN in `n` frames. -/
def arrived (n : Nat) (t : Strand) : Strand := { t with wait := .joining n }

theorem strand?_updStrand (w : Warp) (i j : Nat) (g : Strand → Strand) :
    (updStrand i g w).strand? j = (w.strand? j).map fun t => if j = i then g t else t := by
  by_cases hj : j = i
  · subst hj
    simp [strand?_updStrand_self]
  · simp [strand?_updStrand_ne _ _ _ _ hj, hj]

section
variable {s : State} {c : Cur}

/-- JOIN_ARRIVE of a strand whose chunk has ended. -/
theorem exec_joinArrive (h : s.curOf c.ref = some c) (hw : c.t.wait = .arriving true) (hp : c.t.chunk.pinned = false)
    (hm : c.warp.merges = []) {n : Nat} (hn : (c.warp.framesOf c.ref.strand).length = n) :
    ∃ extra, exec (.joinArrive c.ref) s =
      .next (s.modWarp c.ref.w fun w => (updStrand c.ref.strand (arrived n) w).settle extra) := by
  refine ⟨fun k => ((s.modStrand c.ref (arrived n)).peekWord c.ref.w.crew.ctx k.pc).toNat, ?_⟩
  have hwarp : s.warp? c.ref.w = some c.warp := by
    rw [State.warp?, curOf_crew h, Option.bind_some, curOf_warp h]
  refine Eq.trans ?_ (congrArg _ (modWarp_modStrand s c.ref (arrived n) fun w => w.settle _))
  show execJoinArrive c.ref s = _
  unfold execJoinArrive
  rw [curOf_strand h, hwarp]
  simp only [hw, Warp.mayArrive, hp, Warp.mergePending, hm, List.any_nil, Bool.not_false, Bool.and_self, if_true, hn]
  rfl

/-- With a member missing, the strand waits (R151). -/
theorem joinArrive_waits (h : s.curOf c.ref = some c) (hw : c.t.wait = .arriving true) (hp : c.t.chunk.pinned = false)
    (hm : c.warp.merges = []) {f : Frame} (hf : c.warp.frames = [f]) (hin : c.ref.strand ∈ f.members)
    (habs : ∃ k ∈ f.members, k ≠ c.ref.strand)
    (hno : ∀ k t n, k ≠ c.ref.strand → c.warp.strand? k = some t → t.wait ≠ .joining n) :
    Becomes s c (.joinArrive c.ref) { c.t with wait := .joining 1 } := by
  obtain ⟨extra, hx⟩ := exec_joinArrive h hw hp hm (n := 1) (congrArg List.length (framesOf_one hf hin))
  have hset : (updStrand c.ref.strand (arrived 1) c.warp).settle extra = updStrand c.ref.strand (arrived 1) c.warp := by
    have hfr : (updStrand c.ref.strand (arrived 1) c.warp).frames = [f] := hf
    refine settle_of_frames ?_ fun k t ht => ?_
    · obtain ⟨k, hk, hne⟩ := habs
      rw [hfr]
      refine complete_of_absent hk ?_
      unfold Warp.arrivedAt
      rw [strand?_updStrand_ne _ _ _ _ hne]
      split
      · have := hno k _ ((updStrand c.ref.strand (arrived 1) c.warp).framesOf k).length hne ‹_›
        simp [this]
      · rfl
    · rw [strand?_updStrand] at ht
      obtain ⟨u, hu, rfl⟩ := Option.map_eq_some_iff.mp ht
      by_cases hk : k = c.ref.strand
      · subst hk
        simp [Warp.leftAlone, arrived, framesOf_one hfr hin]
      · rw [if_neg hk]
        unfold Warp.leftAlone
        split
        · exact absurd ‹_› (hno k u _ hk hu)
        · rfl
  obtain ⟨e, he, het⟩ := touches_modWarp h (f := arrived 1) (g := fun w => (updStrand c.ref.strand (arrived 1) w).settle extra)
    (fun w => settle_id (updStrand c.ref.strand (arrived 1) w) extra) hset
  exact ⟨_, e, hx, he, het⟩

/-- The members as they stand once the last of them has arrived. -/
def allArrived (c : Cur) : Warp := updStrand c.ref.strand (arrived 1) c.warp

/-- Waiting changes neither the registers of a strand nor its chunks. -/
theorem allArrived_strand (c : Cur) (j : Nat) (p : StrandCore → List Chunk → Prop) :
    (∃ u, (allArrived c).strand? j = some u ∧ p u.core u.unplaced) ↔ ∃ u, c.warp.strand? j = some u ∧ p u.core u.unplaced := by
  have harr : ∀ u : Strand, (if j = c.ref.strand then arrived 1 u else u).core = u.core ∧
      (if j = c.ref.strand then arrived 1 u else u).unplaced = u.unplaced := by
    intro u
    split
    · exact ⟨rfl, rfl⟩
    · exact ⟨rfl, rfl⟩
  constructor
  · rintro ⟨u, hu, hp⟩
    obtain ⟨v, hv, rfl⟩ := Option.map_eq_some_iff.mp ((strand?_updStrand ..).symm.trans hu)
    obtain ⟨hc, hu⟩ := harr v
    exact ⟨v, hv, hc ▸ hu ▸ hp⟩
  · rintro ⟨u, hu, hp⟩
    obtain ⟨hc, hu'⟩ := harr u
    refine ⟨if j = c.ref.strand then arrived 1 u else u, (strand?_updStrand ..).trans (by rw [hu]; rfl), ?_⟩
    rw [hc, hu']
    exact hp

theorem gathers_allArrived {m : Mask} {ks : List Nat} {g : StrandCore → Mask} (h : Gathers m (allArrived c) ks g) :
    Gathers m c.warp ks g := by
  intro i hi
  refine (h i hi).trans ?_
  simp only [allArrived_strand c _ fun k _ => (g k).getLsbD i = true]

theorem emLanes_allArrived {j : Nat} {u : Strand} (h : c.warp.strand? j = some u) :
    emLanes (allArrived c) j = popMask c.width u.core.em := by
  obtain ⟨v, hv, hc, -⟩ := (allArrived_strand c j fun k _ => k = u.core ∧ True).mpr ⟨u, h, rfl, trivial⟩
  unfold emLanes
  rw [hv]
  exact congrArg (fun k : StrandCore => popMask c.width k.em) hc

section
variable {f : Frame} (h : s.curOf c.ref = some c) (ha : AllArrive c f)
include h ha

/-- Every member waits at its JOIN. -/
theorem member_allArrived {k : Nat} (hk : k ∈ f.members) :
    ∃ t, (allArrived c).strand? k = some t ∧ t.wait = .joining 1 := by
  by_cases hkc : k = c.ref.strand
  · subst hkc
    refine ⟨arrived 1 c.t, (strand?_updStrand_self ..).trans ?_, rfl⟩
    rw [((curOf_iff s c.ref c).mp h).2.2.2.1, Option.map_some]
  · obtain ⟨t, ht, hw⟩ := ha.joined k hk hkc
    exact ⟨t, (strand?_updStrand_ne _ _ _ _ hkc).trans ht, hw⟩

theorem arrivedAt_allArrived {k : Nat} (hk : k ∈ f.members) : (allArrived c).arrivedAt f k = true := by
  have hfr : (allArrived c).framesOf k = [f] := framesOf_one ha.one hk
  obtain ⟨t, ht, hw⟩ := member_allArrived h ha hk
  simp [Warp.arrivedAt, ht, hw, hfr]

omit h in
/-- The members may merge: they have one window base and hold no call record (R152). -/
theorem mergeBad_allArrived : (allArrived c).mergeBad f.members = false := by
  have hts : ∀ t ∈ f.members.filterMap (allArrived c).strand?, t.core.winb = c.t.core.winb ∧ t.core.calls.length ≤ c.depth0 := by
    intro t ht
    obtain ⟨k, -, hk⟩ := List.mem_filterMap.mp ht
    obtain ⟨u, hu, hp⟩ := (allArrived_strand c k fun x _ => x = t.core).mp ⟨t, hk, rfl⟩
    exact hp ▸ ha.windows k u hu
  refine List.any_eq_false.mpr fun t ht => ?_
  obtain ⟨hwin, hcalls⟩ := hts t ht
  have hd : (allArrived c).depth0 = c.depth0 := rfl
  cases hh : (f.members.filterMap (allArrived c).strand?).head? with
  | none => simp [hd, hcalls]
  | some u => simp [hd, hcalls, hwin, (hts u (List.mem_of_head? hh)).1]

/-- The last arrival merges the frame. -/
theorem settle_allArrived (extra : StrandCore → Nat) : (allArrived c).settle extra = (allArrived c).merge f := by
  have hfr : (allArrived c).frames = [f] := ha.one
  refine settle_of_frames ?_ fun k t ht => ?_
  · rw [hfr]
    exact complete_of_all (by simp [hfr]) (fun k hk => arrivedAt_allArrived h ha hk) (mergeBad_allArrived ha)
  · rw [merge_one_strand hfr] at ht
    split at ht
    · obtain ⟨u, -, rfl⟩ := Option.map_eq_some_iff.mp ht
      rfl
    · split at ht
      · cases ht
      · have hne : k ≠ c.ref.strand := fun e => ‹k ∉ f.members› (e ▸ ha.here.1)
        have hn := (strand?_updStrand_ne c.warp _ _ (arrived 1) hne).trans (ha.only k ‹_›)
        exact absurd (ht.symm.trans hn) (by simp)

end

/-- With the last member the frame merges (R152, R153, R155). -/
theorem joinArrive_merges (h : s.curOf c.ref = some c) (hw : c.t.wait = .arriving true) (hp : c.t.chunk.pinned = false)
    (hm : c.warp.merges = []) {f : Frame} (ha : AllArrive c f) :
    ∃ t, exec (.joinArrive c.ref) s = .next t ∧ t = { s with crews := t.crews } ∧
      t.warp? c.ref.w = some ((allArrived c).merge f) := by
  obtain ⟨extra, hx⟩ := exec_joinArrive h hw hp hm (n := 1) (congrArg List.length (framesOf_one ha.one ha.here.1))
  refine ⟨_, hx, rfl, ?_⟩
  have hwarp : s.warp? c.ref.w = some c.warp := by
    rw [State.warp?, curOf_crew h, Option.bind_some, curOf_warp h]
  rw [warp?_modWarp _ _ _ fun w => settle_id (updStrand c.ref.strand (arrived 1) w) extra, hwarp]
  exact congrArg some (settle_allArrived h ha extra)

end

/-- Settles O41, by the merge of a warp's only frame: its survivor, and its strands entry by entry. -/
theorem joinMerge : Obligations.JoinMerge := by
  refine ⟨fun s c h hw hp => ?_, fun s c f h hw hp hm hf hin _ _ habs hno => joinArrive_waits h hw hp hm hf hin habs hno,
    fun s c f h hw hp hm ha => ?_⟩
  · refine ⟨_, _, ?_, touches_modStrand h fun t => { t with wait := .arriving true, chunk := { t.chunk with st := .ended } }, rfl⟩
    have hwarp : s.warp? c.ref.w = some c.warp := by
      rw [State.warp?, curOf_crew h, Option.bind_some, curOf_warp h]
    show execJoinArrive c.ref s = _
    simp only [execJoinArrive, curOf_strand h, hwarp, hw, hp]
    rfl
  · obtain ⟨t, hx, hcrews, hwarp⟩ := joinArrive_merges h hw hp hm ha
    have hfr : (allArrived c).frames = [f] := ha.one
    obtain ⟨hmem, hbeats⟩ := survivor_spec (allArrived c) (List.ne_nil_of_mem ha.here.1)
    obtain ⟨u, hu, -⟩ := member_allArrived h ha hmem
    have hstr := merge_one_strand hfr
    have hw' : (allArrived c).merge f =
        { c.warp with strands := ((allArrived c).merge f).strands, frames := [], merges := ((allArrived c).merge f).merges } := by
      rw [merge_one hfr]
      rfl
    have hchunks : ∀ ch, ch ∈ (mergedStrand (allArrived c) f u).earlier ↔ ∃ j ∈ f.members, ∃ u, c.warp.strand? j = some u ∧
        ∃ g ∈ u.unplaced, g.active = true ∧ ch = { g with owner := some j } := fun ch =>
      mem_arrivalChunks.trans (exists_congr fun j => and_congr_right fun _ =>
        allArrived_strand c j fun _ l => ∃ g ∈ l, g.active = true ∧ ch = { g with owner := some j })
    have hmerges : (mergedStrand (allArrived c) f u).earlier = [] → ((allArrived c).merge f).merges = [] := fun he => by
      have he : arrivalChunks ((allArrived c).membersOf f) = [] := he
      rw [merge_one hfr]
      simp [updStrand, keptMerge, he, show (allArrived c).merges = [] from hm]
    refine ⟨t, _, _, mergedStrand (allArrived c) f u, hx, hcrews, hwarp, hw', hmem, rfl, hchunks, hmerges, fun j a v hj ha' hv => ?_,
      ?_, fun j hj => ?_, rfl, rfl, gathers_allArrived (gathers_membersOf _ f (·.l)), gathers_allArrived (gathers_membersOf _ f (·.em)),
      gathers_allArrived (gathers_membersOf _ f (·.hm)), fun v hv => ?_⟩
    · have := hbeats j hj
      rwa [Beats, emLanes_allArrived ha', emLanes_allArrived hv] at this
    · rw [hstr, if_pos rfl, hu]
      rfl
    · rw [hstr, if_neg hj]
      split
      · rfl
      · have hne : j ≠ c.ref.strand := fun e => ‹j ∉ f.members› (e ▸ ha.here.1)
        exact (strand?_updStrand_ne c.warp _ _ (arrived 1) hne).trans (ha.only j ‹_›)
    · obtain ⟨a, ha', he⟩ := (allArrived_strand c _ fun k _ => k = v.core).mpr ⟨v, hv, rfl⟩
      obtain rfl : a = u := Option.some.inj (ha'.symm.trans hu)
      rw [← he]
      exact ⟨rfl, rfl⟩

end Sys2Proof.GroupProofs

/-!
PROOFS. The group (08): JOIN, EXIT and EXIT.S (O20).
-/

namespace Sys2Proof.GroupProofs

open Sys2Proof Sys2Proof.Machine Sys2Proof.Rules Sys2Proof.ContextProofs

/-! ## Control transfers that park their strand (R150, R161) -/

section
variable {s : State} {c : Cur}

theorem room_goto {b d : Cur} {a : W64} (h : Room b d) : Room b (d.goto a) := room_of_chunk h rfl rfl

theorem room_wait {b d : Cur} {w : Wait} (h : Room b d) : Room b (d.mapT fun t => { t with wait := w }) :=
  room_of_chunk h rfl rfl

/-- `d` is `o` parked for `w`, with other strand registers and its chunk perhaps ended. -/
structure Parked (o d : Cur) (w : Wait) : Prop where
  ref  : d.ref = o.ref
  crew : d.crew = o.crew
  warp : d.warp = o.warp
  acc  : d.acc = o.acc
  t    : d.t = { o.t with core := d.t.core, chunk := { o.t.chunk with st := d.t.chunk.st }, wait := w }

/-- The control transfer whose strand parks with the effect `d`. -/
theorem waits_of {i : Instr} {F : State → Cur → Except Stop (State × Cur)} {d e : Cur} {w : Wait} {ended : Bool}
    (hr : Ready s c 0 .none) (hroom : Room c d) (hi : exec i s = s.issue Form.control F) (hF : F s c.openChunk = .ok (s, d))
    (hd : Parked c.openChunk d w) (hw : ¬ w.brief) (hst : d.t.chunk.st = if ended then .ended else .opened)
    (hp : d.place = c.place) (he : d.regs = e.regs) : WaitsWith s c i ended w e := by
  have hpends : d.t.pends = [] := by rw [hd.t]; simp [hr.calm]
  have hat : s.attempt c Form.control F = .ok (s, d) := attempt_ok hr rfl rfl hF hpends (exceeds_false hroom)
  have hacc : s.caches.note d.crew.core d.acc = s.caches := by
    rw [hd.acc, Cur.openChunk_acc, ((curOf_iff _ _ _).mp hr.curOf).2.2.2.2.2.2]
    rfl
  have hret : d.retire Form.control = d.counted Form.control := by
    rw [retire_eq]
    rfl
  have hex : exec i s = .next { s.putCur (d.counted Form.control) with free := s.free + 1, caches := s.caches } := by
    rw [hi]
    unfold State.issue
    rw [hr.focus]
    simp only [hr.may, if_true]
    unfold State.perform
    rw [hat]
    dsimp only
    unfold State.after
    rw [hacc, hret]
  have hwarp : (d.counted Form.control).warp = c.warp := hd.warp.trans (by simp)
  have hof : c.Of (d.counted Form.control) :=
    ⟨hd.ref.trans (by simp), hd.crew.trans (by simp), congrArg Warp.id hwarp, congrArg Warp.strands hwarp⟩
  have hwait : (d.counted Form.control).t.wait = w := by
    have hdw : d.t.wait = w := by rw [hd.t]
    show (match d.t.wait with | .tile _ | .restored _ => Wait.none | x => x) = w
    rw [hdw]
    cases w <;> simp_all [Wait.brief]
  have hch : d.t.chunk = { c.openChunk.t.chunk with st := d.t.chunk.st } := by
    conv_lhs => rw [hd.t]
  refine ⟨_, _, hex, elsewhere_put s.caches hr.curOf hof (by rw [hwarp]), ⟨rfl, rfl, rfl⟩, hwait, hp, ?_, hst, ?_⟩
  · exact he
  · constructor <;> (show _ = _; simp only [Cur.back, Cur.counted, Cur.mapT]; rw [hch])

/-! ## JOIN -/

/-- JOIN where no frame of the strand names its address (R150). -/
theorem join_passes (hr : Ready s c 0 .none) (hroom : Room c c) (h : ∀ f ∈ myFrames c, f.addr ≠ c.t.core.hdr) :
    Transfers s c .join (.header c.base) false c := by
  have hany : (c.warp.framesOf c.ref.strand).any (fun f => f.addr == c.t.core.hdr) = false :=
    List.any_eq_false.mpr fun f hf => by simpa using h f hf
  refine transfers_of (g := fun d => d.goto c.base) (ended := false) (fm := Form.control) hr
    (room_goto (room_openChunk hroom)) rfl rfl (by decide) rfl ?_ ⟨rfl, rfl, rfl, rfl, rfl, rfl, rfl⟩ hr.opened ?_ ?_
  · simp only [Cur.openChunk_warp, Cur.openChunk_ref, openChunk_core, hany, Cur.base]
    rfl
  · rw [retire_eq]
    rfl
  · simp [Cur.regs, Cur.goto, Cur.mapCore, openChunk_core]

/-- JOIN at the address of the strand's innermost frame (R151). -/
theorem join_arrives (hr : Ready s c 0 .none) (hroom : Room c c) {f : Frame} (hf : (myFrames c).getLast? = some f)
    (ha : f.addr = c.t.core.hdr) : WaitsWith s c .join false (.arriving false) c := by
  have hany : (c.warp.framesOf c.ref.strand).any (fun f => f.addr == c.t.core.hdr) = true :=
    List.any_eq_true.mpr ⟨f, List.mem_of_getLast? hf, by simpa using ha⟩
  have hlast : (c.warp.framesOf c.ref.strand).getLast? = some f := hf
  refine waits_of (d := c.openChunk.mapT fun t => { t with wait := .arriving false }) hr
    (room_wait (room_openChunk hroom)) rfl ?_ ⟨rfl, rfl, rfl, rfl, rfl⟩ (by simp [Wait.brief]) hr.opened ?_ ?_
  · simp only [Cur.openChunk_warp, Cur.openChunk_ref, openChunk_core, hany, hlast, ha]
    simp
  · simp [Cur.place, Cur.mapT, openChunk_core]
  · simp [Cur.regs, Cur.mapT, openChunk_core]

/-- JOIN at the address of an outer frame (R150). -/
theorem join_traps (hr : Ready s c 0 .none) {f : Frame} (hf : (myFrames c).getLast? = some f) (ha : f.addr ≠ c.t.core.hdr)
    (hg : ∃ g ∈ myFrames c, g.addr = c.t.core.hdr) : Meets s c .join c.em (.word .illegalOperand 0) := by
  obtain ⟨g, hg, hga⟩ := hg
  have hany : (c.warp.framesOf c.ref.strand).any (fun f => f.addr == c.t.core.hdr) = true :=
    List.any_eq_true.mpr ⟨g, hg, by simpa using hga⟩
  have hlast : (c.warp.framesOf c.ref.strand).getLast? = some f := hf
  refine meets_of (fm := Form.control) hr rfl rfl rfl ?_
  simp only [Cur.openChunk_warp, Cur.openChunk_ref, openChunk_core, hany, hlast]
  simp [ha, illegalOperand]

/-! ## EXIT -/

/-- The lanes have left the strand, whose chunk has ended (R161). -/
def exited (x : Mask) (d : Cur) : Cur := (without d x).endChunk

theorem exitLanes_goes (f : Cur → Mask) (s : State) :
    ∃ F : State → Cur → Except Stop (State × Cur), exitLanes f s = s.issue Form.control F ∧ ∀ d : Cur, d.t.pends = [] →
      (((exited (f d) d).l ≠ 0 → F s d = .ok (s, (exited (f d) d).goto d.base)) ∧
      ((exited (f d) d).l = 0 → F s d = .ok (s, (exited (f d) d).mapT fun t => { t with wait := .exiting }))) := by
  refine ⟨_, rfl, fun d hp => ⟨fun hl => ?_, fun hl => ?_⟩⟩
  · have hl : ((exited (f d) d).l == 0) = false := beq_eq_false_iff_ne.mpr hl
    dsimp only
    rw [hp, List.isEmpty_nil, Bool.not_true, if_neg Bool.false_ne_true]
    exact congrArg (Except.map _) (if_neg (Bool.eq_false_iff.mp hl))
  · have hl : ((exited (f d) d).l == 0) = true := beq_iff_eq.mpr hl
    dsimp only
    rw [hp, List.isEmpty_nil, Bool.not_true, if_neg Bool.false_ne_true]
    exact congrArg (Except.map _) (if_pos hl)

theorem moved_exited (o : Cur) (x : Mask) (a : W64) : Moved o ((exited x o).goto a) := ⟨rfl, rfl, rfl, rfl, rfl, rfl, rfl⟩

theorem parked_exited (o : Cur) (x : Mask) (w : Wait) : Parked o ((exited x o).mapT fun t => { t with wait := w }) w :=
  ⟨rfl, rfl, rfl, rfl, rfl⟩

theorem room_exited {b d : Cur} {x : Mask} (h : Room b d) : Room b (exited x d) := room_of_chunk h rfl rfl

theorem l_exited (x : Mask) (c : Cur) : (exited x c.openChunk).l = c.l &&& ~~~x := by
  show c.openChunk.t.core.l &&& ~~~x = c.l &&& ~~~x
  rw [openChunk_core]
  rfl

theorem regs_exited (x : Mask) (c : Cur) : (exited x c.openChunk).regs = (without c x).regs := by
  simp [Cur.regs, exited, without, Cur.endChunk, Cur.mapChunk, Cur.mapCore, openChunk_core]

/-- EXIT with lanes left goes on behind its clause (R161). -/
theorem exit_transfers (hr : Ready s c 0 .none) (hroom : Room c c) (h : c.l &&& ~~~c.em ≠ 0) :
    Transfers s c .exit (.header c.base) true (without c c.em) := by
  obtain ⟨F, hF, hgo⟩ := exitLanes_goes Cur.em s
  have hem : c.openChunk.em = c.em := congrArg StrandCore.em (openChunk_core c)
  have hl : (exited c.openChunk.em c.openChunk).l ≠ 0 := by rwa [hem, l_exited]
  have hb : c.openChunk.base = c.base := by simp [Cur.base, openChunk_core]
  have hok := (hgo c.openChunk (by simp [hr.calm])).1 hl
  rw [hem, hb] at hok
  have hroom' : Room c ((exited c.em c.openChunk).goto c.base) := room_goto (room_exited (room_openChunk hroom))
  have hi : exec .exit s = s.issue Form.control F := hF
  refine transfers_of (g := fun d => (exited c.em d).goto c.base) (ended := true) hr hroom' hi rfl (by decide) rfl hok
    (moved_exited ..) rfl ?_ ?_
  · rw [retire_eq]
    rfl
  · exact regs_exited c.em c

/-- EXIT and EXIT.S that take the last lanes (R161). -/
theorem exit_waits {f : Cur → Mask} {i : Instr} (hi : exec i s = exitLanes f s) (hf : f c.openChunk = f c)
    (hr : Ready s c 0 .none) (hroom : Room c c) (h : c.l &&& ~~~(f c) = 0) :
    WaitsWith s c i true .exiting (without c (f c)) := by
  obtain ⟨F, hF, hgo⟩ := exitLanes_goes f s
  have hl : (exited (f c.openChunk) c.openChunk).l = 0 := by rwa [hf, l_exited]
  have hok := (hgo c.openChunk (by simp [hr.calm])).2 hl
  rw [hf] at hok
  have hroom' : Room c ((exited (f c) c.openChunk).mapT fun t => { t with wait := .exiting }) :=
    room_wait (room_exited (room_openChunk hroom))
  refine waits_of (ended := true) hr hroom' (hi.trans hF) hok (parked_exited ..) (by simp [Wait.brief]) rfl ?_
    (regs_exited (f c) c)
  simp [exited, Cur.endChunk, Cur.mapChunk, Cur.mapT, without, Cur.mapCore, Cur.place, openChunk_core]

theorem joinAndExit_rule : Rules.JoinAndExit := by
  refine ⟨fun s c hr hroom => ⟨join_passes hr hroom, fun f => join_arrives hr hroom, fun f => join_traps hr⟩,
    fun s c hr hroom => ⟨exit_transfers hr hroom, exit_waits (f := Cur.em) rfl ?_ hr hroom, exit_waits (f := Cur.l) rfl ?_ hr hroom ?_⟩⟩
  · exact congrArg StrandCore.em (openChunk_core c)
  · exact congrArg StrandCore.l (openChunk_core c)
  · exact BitVec.and_not_self _

end

end Sys2Proof.GroupProofs

/-!
PROOFS. The group (08): the end of a strand (O20).
-/

namespace Sys2Proof.GroupProofs

open Sys2Proof Sys2Proof.Machine Sys2Proof.Rules Sys2Proof.ContextProofs

/-! ## A strand leaves its warp (R150, R154) -/

theorem leave_strand (w : Warp) (i k : Nat) : (w.leave i).strand? k = if k = i then none else w.strand? k := by
  show (setAt w.strands i none).getD k none = _
  rw [getD_setAt]
  by_cases hk : k = i
  · subst hk
    by_cases hl : k < w.strands.length
    · simp [hl]
    · simp [hl]
  · simp [hk, Warp.strand?]

theorem live_setAt_none {l : List (Option Strand)} {i : Nat} {t : Strand} (h : l.getD i none = some t) :
    ((setAt l i none).filter Option.isSome).length + 1 = (l.filter Option.isSome).length := by
  induction l generalizing i with
  | nil => simp at h
  | cons x l ih =>
    cases i with
    | zero =>
      obtain rfl : x = some t := h
      simp [setAt]
    | succ i =>
      have := ih (i := i) h
      cases x with
      | none => simpa [setAt] using this
      | some y => simp only [setAt, List.filter_cons, Option.isSome_some, if_true, List.length_cons]; omega

theorem live_leave {w : Warp} {i : Nat} {t : Strand} (h : w.strand? i = some t) : (w.leave i).live + 1 = w.live :=
  live_setAt_none h

/-- A strand with other tags of its own (R183). -/
def retag (tags : List (Nat × Tag)) (x : Strand) : Strand := { x with core := { x.core with wtags := tags } }

/-- A warp whose last strand's own tags have become the warp's: its strands but for those tags. -/
theorem settleTags_strand (w : Warp) (k : Nat) : ∃ g : Strand → List (Nat × Tag),
    w.settleTags.strand? k = (w.strand? k).map fun x => retag (g x) x := by
  unfold Warp.settleTags
  split
  · refine ⟨fun _ => [], ?_⟩
    simp only [Warp.strand?, List.getD_eq_getElem?_getD, List.getElem?_map]
    cases w.strands[k]? <;> rfl
  · refine ⟨fun x => x.core.wtags, ?_⟩
    exact Option.map_id'.symm

theorem settleTags_live (w : Warp) : w.settleTags.live = w.live := by
  unfold Warp.settleTags
  split
  · simp only [Warp.live, List.filter_map, List.length_map]
    congr 2
    funext x
    cases x <;> rfl
  · rfl

theorem settleTags_frames (w : Warp) : w.settleTags.frames = w.frames := by
  unfold Warp.settleTags
  split <;> rfl

theorem settleTags_id (w : Warp) : w.settleTags.id = w.id := by
  unfold Warp.settleTags
  split <;> rfl

/-! ## Settling without an arrival -/

/-- Frames each of which lacks a member stay. -/
theorem foldl_complete_absent {w : Warp} {extra : StrandCore → Nat} {fs : List Frame}
    (h : ∀ f ∈ fs, ∃ k ∈ f.members, w.arrivedAt f k = false) : fs.foldl (fun w f => w.complete f extra) w = w := by
  induction fs with
  | nil => rfl
  | cons f fs ih =>
    obtain ⟨k, hk, ha⟩ := h f List.mem_cons_self
    rw [List.foldl_cons, complete_of_absent hk ha]
    exact ih fun g hg => h g (List.mem_cons_of_mem f hg)

/-- Settling, strand by strand, where no frame is complete. -/
theorem settle_strand {w : Warp} {extra : StrandCore → Nat} (h : ∀ f ∈ w.frames, ∃ k ∈ f.members, w.arrivedAt f k = false)
    (k : Nat) : (w.settle extra).strand? k = (w.strand? k).map fun t => if w.leftAlone k t then t.passJoin else t := by
  unfold Warp.settle
  rw [foldl_complete_absent fun f hf => h f (List.mem_reverse.mp hf)]
  simp only [Warp.strand?, List.getD_eq_getElem?_getD, List.getElem?_map]
  by_cases hk : k < w.strands.length
  · simp only [List.getElem?_range hk, Option.map_some, Option.getD_some]
    cases w.strands[k]?.getD none <;> rfl
  · simp [hk]

/-- Where no strand waits at a JOIN, settling does nothing. -/
theorem settle_of_none {w : Warp} {extra : StrandCore → Nat} (hm : ∀ f ∈ w.frames, f.members ≠ [])
    (hj : ∀ k t n, w.strand? k = some t → t.wait ≠ .joining n) : w.settle extra = w := by
  have ha : ∀ f k, w.arrivedAt f k = false := by
    intro f k
    unfold Warp.arrivedAt
    split
    · simp [hj k _ _ ‹_›]
    · rfl
  refine settle_of_frames (foldl_complete_absent fun f hf => ?_) fun k t ht => ?_
  · obtain ⟨k, hk⟩ := List.exists_mem_of_ne_nil _ (hm f (List.mem_reverse.mp hf))
    exact ⟨k, hk, ha f k⟩
  · unfold Warp.leftAlone
    split
    · exact absurd ‹_› (hj k t _ ht)
    · rfl

/-! ## The end of a strand -/

/-- The warp that a strand has left. -/
def leftWarp (i : Nat) (w : Warp) : Warp := (w.leave i).settleTags

theorem leftWarp_id (i : Nat) (w : Warp) : (leftWarp i w).id = w.id := settleTags_id _

theorem leftWarp_members {i : Nat} {w : Warp} {f : Frame} (h : f ∈ (leftWarp i w).frames) : f.members ≠ [] := by
  rw [leftWarp, settleTags_frames] at h
  have := (List.mem_filter.mp h).2
  rintro he
  simp [he] at this

/-- The other strands of the warp are as they were, but for their own tags. -/
theorem leftWarp_strand (i : Nat) (w : Warp) (k : Nat) : ∃ g : Strand → List (Nat × Tag),
    (leftWarp i w).strand? k = if k = i then none else (w.strand? k).map fun x => retag (g x) x := by
  obtain ⟨g, hg⟩ := settleTags_strand (w.leave i) k
  refine ⟨g, hg.trans ?_⟩
  rw [leave_strand]
  split <;> rfl

section
variable {s : State} {c : Cur}

theorem modWarp_modWarp (s : State) (r : WarpRef) {f g : Warp → Warp} (hf : ∀ w, (f w).id = w.id) :
    (s.modWarp r f).modWarp r g = s.modWarp r (g ∘ f) := by
  rw [modWarp_eq, modWarp_eq, modWarp_eq, modCrew_modCrew _ _ (updWarp _ _) _ (fun _ => rfl), updWarp_updWarp _ f _ hf]

theorem warp?_of_curOf (h : s.curOf c.ref = some c) : s.warp? c.ref.w = some c.warp := by
  rw [State.warp?, curOf_crew h, Option.bind_some, curOf_warp h]

/-- The event of an exiting strand is its end. -/
theorem exec_exiting (h : Exiting s c) : exec (.singletonEvent c.ref) s = .next ((s.endStrand c.ref).getD s) := by
  obtain ⟨hst, hearlier⟩ := h.alone
  obtain ⟨hctx, hrun⟩ := h.runs
  have hopen : s.eventOpen c = true := by
    simp [State.eventOpen, Strand.clear, hst, hearlier, Crew.live, hrun, hctx, CtxSt.runs]
  show execSingletonEvent c.ref s = _
  simp only [execSingletonEvent, h.here, hopen, if_true, State.dueEvent, h.wait]

/-- The state behind the end of a strand, but for what the end of its warp does. -/
def behindEnd (s : State) (r : StrandRef) (extra : StrandCore → Nat) : State :=
  (s.modWarp r.w fun w => (leftWarp r.strand w).settle extra).dropPin r

theorem endStrand_eq (h : s.curOf c.ref = some c) (hb : c.warp.live ≤ 1 → s.barsBlocked c.ref c.ref.w = false) :
    ∃ extra, s.endStrand c.ref = some (if c.warp.live ≤ 1 then (behindEnd s c.ref extra).exitWarp c.ref c.ref.w c.t.core.batchn
      else behindEnd s c.ref extra) := by
  have hs : ∀ extra, (((s.modWarp c.ref.w fun w => (w.leave c.ref.strand).settleTags).dropPin c.ref).modWarp c.ref.w
      fun w => w.settle extra) = behindEnd s c.ref extra := fun extra =>
    congrArg (fun t : State => t.dropPin c.ref)
      (modWarp_modWarp s c.ref.w (f := leftWarp c.ref.strand) (g := fun w => w.settle extra) (leftWarp_id c.ref.strand))
  refine ⟨fun k => (((s.modWarp c.ref.w fun w => (w.leave c.ref.strand).settleTags).dropPin c.ref).peekWord
    c.ref.w.crew.ctx k.pc).toNat, ?_⟩
  unfold State.endStrand State.settleFrames
  rw [warp?_of_curOf h, curOf_strand h]
  dsimp only
  rw [hs]
  by_cases hl : c.warp.live ≤ 1
  · simp [hl, hb hl]
  · simp [hl]

theorem warp?_behindEnd (h : s.curOf c.ref = some c) (extra : StrandCore → Nat) :
    (behindEnd s c.ref extra).warp? c.ref.w = some ((leftWarp c.ref.strand c.warp).settle extra) := by
  have := warp?_modWarp s c.ref.w (fun w => (leftWarp c.ref.strand w).settle extra) fun w =>
    (settle_id _ _).trans (leftWarp_id _ _)
  rw [warp?_of_curOf h] at this
  exact this

theorem strandEnds_rule : Rules.StrandEnds := by
  refine ⟨fun s c h hlive hno => ?_, fun s c f k x h hlive hfr hin hk hx hw => ?_⟩
  · obtain ⟨extra, he⟩ := endStrand_eq h.here fun hl => absurd hlive (by omega)
    have hset : (leftWarp c.ref.strand c.warp).settle extra = leftWarp c.ref.strand c.warp := by
      refine settle_of_none (fun f => leftWarp_members) fun k t n ht => ?_
      obtain ⟨g, hg⟩ := leftWarp_strand c.ref.strand c.warp k
      rw [hg] at ht
      split at ht
      · cases ht
      · obtain ⟨x, hx, rfl⟩ := Option.map_eq_some_iff.mp ht
        exact hno k x n ‹_› hx
    refine ⟨_, leftWarp c.ref.strand c.warp, ?_, rfl, (warp?_behindEnd h.here extra).trans (congrArg some hset), ?_, ?_, ?_, ?_⟩
    · rw [exec_exiting h, he, if_neg (by omega)]
      rfl
    · obtain ⟨g, hg⟩ := leftWarp_strand c.ref.strand c.warp c.ref.strand
      rw [hg, if_pos rfl]
    · rw [leftWarp, settleTags_live]
      exact live_leave ((curOf_iff s c.ref c).mp h.here).2.2.2.1
    · exact settleTags_frames _
    · intro k x hk hx
      obtain ⟨g, hg⟩ := leftWarp_strand c.ref.strand c.warp k
      refine ⟨_, (hg.trans (if_neg hk)).trans (by rw [hx]; rfl), rfl⟩
  · obtain ⟨extra, he⟩ := endStrand_eq h.here fun hl => absurd hlive (by omega)
    have hkc : k ≠ c.ref.strand := by
      have : k ∈ f.members.filter (· != c.ref.strand) := by simp [hk]
      simpa using (List.mem_filter.mp this).2
    have hframes : (leftWarp c.ref.strand c.warp).frames = [] := by
      rw [leftWarp, settleTags_frames]
      simp [Warp.leave, hfr, hk]
    obtain ⟨g, hg⟩ := leftWarp_strand c.ref.strand c.warp k
    rw [if_neg hkc, hx, Option.map_some] at hg
    have hset := settle_strand (w := leftWarp c.ref.strand c.warp) (extra := extra) (by simp [hframes]) k
    have hleft : ∀ u : Strand, u.wait = .joining 1 → (leftWarp c.ref.strand c.warp).leftAlone k u = true := by
      intro u hu
      simp [Warp.leftAlone, hu, Warp.framesOf, hframes]
    rw [hg, Option.map_some, if_pos (hleft (retag (g x) x) hw)] at hset
    refine ⟨behindEnd s c.ref extra, (retag (g x) x).passJoin, ?_, ?_, rfl, rfl⟩
    · rw [exec_exiting h, he, if_neg (by omega)]
      rfl
    · show ((behindEnd s c.ref extra).warp? c.ref.w).bind (fun w => w.strand? k) = _
      rw [warp?_behindEnd h.here]
      exact hset

end

end Sys2Proof.GroupProofs

/-!
PROOFS. The group (08): barrier words and woken strands.
-/

namespace Sys2Proof.GroupProofs

open Sys2Proof Sys2Proof.Machine Sys2Proof.Rules Sys2Proof.ContextProofs

/-! ## Barrier entries and their words (R405) -/

theorem ofBytes_bytesOf (k n : Nat) : ofBytes (bytesOf k n) = n % 256 ^ k := by
  induction k generalizing n with
  | zero => simp [bytesOf, ofBytes, Nat.mod_one]
  | succ k ih =>
    have hpow : 256 ^ (k + 1) = 2 ^ 8 * 256 ^ k := Nat.pow_succ'
    rw [bytesOf, ofBytes, ih, BitVec.toNat_ofNat, hpow, Nat.mod_mul]
    norm_num

/-- A table of barriers and the crew memory that holds its words, with one entry written. -/
def putEntry (x : List Barrier × List Host.Cell) (b : Barrier) : List Barrier × List Host.Cell :=
  (updIf (fun y => y.off == b.off) (fun _ => b) x.1, cellsPut x.2 b.off (bytesOf 8 b.word.toNat))

section
variable {g : Barrier → Barrier} (hg : ∀ b, (g b).off = b.off)
include hg

/-- Entries at several offsets written, each changed by `g`. -/
theorem foldl_putEntry_bars {l : List Barrier} (hl : (l.map (·.off)).Nodup) (x : List Barrier × List Host.Cell) :
    (l.foldl (fun x b => putEntry x (g b)) x).1 = x.1.map fun b => ((l.find? fun y => y.off == b.off).map g).getD b := by
  induction l generalizing x with
  | nil => simp
  | cons a l ih =>
    obtain ⟨hnot, hnodup⟩ := List.nodup_cons.mp hl
    rw [List.foldl_cons, ih hnodup]
    simp only [putEntry, updIf, List.map_map, hg]
    refine List.map_congr_left fun b _ => ?_
    by_cases hb : b.off = a.off
    · have hnone : (l.find? fun y => y.off == a.off) = none := List.find?_eq_none.mpr fun y hy he =>
        hnot (List.mem_map.mpr ⟨y, hy, by simpa using he⟩)
      simp [hb, hg, hnone]
    · have hab : (a.off == b.off) = false := by simpa using fun e : a.off = b.off => hb e.symm
      simp [hb, hab]

/-- The entries of a table that satisfy `q`, written. -/
theorem foldl_putEntry_filter {bars : List Barrier} (hl : (bars.map (·.off)).Nodup) (q : Barrier → Bool) (m : List Host.Cell) :
    ((bars.filter q).foldl (fun x b => putEntry x (g b)) (bars, m)).1 = bars.map fun b => if q b then g b else b := by
  have hsub : ((bars.filter q).map (·.off)).Nodup := (List.filter_sublist.map _).nodup hl
  have hinj : ∀ a ∈ bars, ∀ b ∈ bars, a.off = b.off → a = b := fun a ha b hb h => List.inj_on_of_nodup_map hl ha hb h
  rw [foldl_putEntry_bars hg hsub]
  refine List.map_congr_left fun b hb => ?_
  cases hf : (bars.filter q).find? fun y => y.off == b.off with
  | none =>
    have hq : q b = false := by
      by_contra hq
      have := List.find?_eq_none.mp hf b (List.mem_filter.mpr ⟨hb, by simpa using hq⟩)
      simp at this
    simp [hq]
  | some a =>
    obtain ⟨ha, hqa⟩ := List.mem_filter.mp (List.mem_of_find?_eq_some hf)
    obtain rfl := hinj a ha b hb (by simpa using List.find?_some hf)
    simp [hqa]

/-- The words of the entries written, at aligned offsets. -/
theorem foldl_putEntry_mem {l : List Barrier} (hl : (l.map (·.off)).Nodup) (ha : ∀ b ∈ l, b.off % 8 = 0)
    {x : List Barrier × List Host.Cell} (hx : Memory.wf x.2 = true) :
    (∀ y, (∀ b ∈ l, y < b.off ∨ b.off + 8 ≤ y) → cellGet (l.foldl (fun x b => putEntry x (g b)) x).2 y = cellGet x.2 y) ∧
      ∀ b ∈ l, ∀ i, i < 8 → cellGet (l.foldl (fun x b => putEntry x (g b)) x).2 (b.off + i) = (bytesOf 8 (g b).word.toNat).getD i 0 := by
  induction l generalizing x with
  | nil => exact ⟨fun _ _ => rfl, fun _ h => (List.not_mem_nil h).elim⟩
  | cons a l ih =>
    obtain ⟨hnot, hnodup⟩ := List.nodup_cons.mp hl
    have hlen : (bytesOf 8 (g a).word.toNat).length = 8 := length_bytesOf 8 _
    obtain ⟨hout, hin⟩ := ih hnodup (fun b hb => ha b (List.mem_cons_of_mem a hb)) (x := putEntry x (g a)) (wf_cellsPut hx _ _)
    refine ⟨fun y hy => ?_, fun b hb i hi => ?_⟩
    · rw [List.foldl_cons, hout y fun b hb => hy b (List.mem_cons_of_mem a hb)]
      refine cellGet_cellsPut_out hx _ _ y ?_
      rw [hlen, hg]
      exact hy a List.mem_cons_self
    · rcases List.mem_cons.mp hb with rfl | hb'
      · have hapart : ∀ d ∈ l, b.off + i < d.off ∨ d.off + 8 ≤ b.off + i := by
          intro d hd
          have hne : d.off ≠ b.off := fun e => hnot (List.mem_map.mpr ⟨d, hd, e⟩)
          have h1 := ha b hb
          have h2 := ha d (List.mem_cons_of_mem b hd)
          omega
        rw [List.foldl_cons, hout _ hapart]
        show cellGet (cellsPut x.2 (g b).off (bytesOf 8 (g b).word.toNat)) (b.off + i) = _
        rw [← hg b]
        exact cellGet_cellsPut_in hx _ _ i (by rwa [hlen])
      · exact hin b hb' i hi

end

/-- The word read back from crew memory. -/
theorem cellsRead_word {m : List Host.Cell} {off : Nat} {b : Barrier}
    (h : ∀ i, i < 8 → cellGet m (off + i) = (bytesOf 8 b.word.toNat).getD i 0) : ofBytes (cellsRead m off 8) = barWord b := by
  have hread : cellsRead m off 8 = bytesOf 8 b.word.toNat := by
    rw [← range_map_getD (length_bytesOf 8 b.word.toNat)]
    exact List.map_congr_left fun i hi => h i (List.mem_range.mp hi)
  rw [hread, ofBytes_bytesOf, Barrier.word, BitVec.toNat_ofNat]
  exact Nat.mod_eq_of_lt (Nat.mod_lt _ (by decide))

/-! ## Parked strands that are woken -/

/-- `t` is `s` but for strands of crew `R` whose waits satisfy `p`, which have gone on, and for the crew's barriers and memory. -/
structure Woken (R : CrewRef) (p : Wait → Prop) (s t : State) : Prop where
  package : t = { s with crews := t.crews }
  tables  : ∀ k, s.crew? R = some k → ∃ j, t.crew? R = some j ∧
    (∀ x ∈ j.warps, ∃ y ∈ k.warps, y.id = x.id ∧ y.exited = x.exited) ∧
    ∀ i w, k.warp? i = some w → ∃ v, j.warp? i = some v ∧ v = { w with strands := v.strands }
  strands : ∀ r u, s.strand? r = some u → ¬ p u.wait → t.strand? r = some u
  chunks  : ∀ r, (t.strand? r).map Strand.unplaced = (s.strand? r).map Strand.unplaced

theorem Woken.refl (R : CrewRef) (p : Wait → Prop) (s : State) : Woken R p s s :=
  ⟨rfl, fun k hk => ⟨k, hk, fun x hx => ⟨x, hx, rfl, rfl⟩, fun _ w hw => ⟨w, hw, rfl⟩⟩, fun _ _ h _ => h, fun _ => rfl⟩

theorem Woken.trans {R : CrewRef} {p : Wait → Prop} {s t u : State} (h : Woken R p s t) (h' : Woken R p t u) : Woken R p s u where
  package := by rw [h'.package, h.package]
  tables k hk := by
    obtain ⟨j, hj, hjm, hjw⟩ := h.tables k hk
    obtain ⟨l, hl, hlm, hlw⟩ := h'.tables j hj
    refine ⟨l, hl, fun x hx => ?_, fun i w hw => ?_⟩
    · obtain ⟨y, hy, hid, hex⟩ := hlm x hx
      obtain ⟨z, hz, hid', hex'⟩ := hjm y hy
      exact ⟨z, hz, hid'.trans hid, hex'.trans hex⟩
    · obtain ⟨v, hv, hvw⟩ := hjw i w hw
      obtain ⟨v', hv', hvw'⟩ := hlw i v hv
      exact ⟨v', hv', by rw [hvw', hvw]⟩
  strands r x hx hp := h'.strands r x (h.strands r x hx hp) hp
  chunks r := (h'.chunks r).trans (h.chunks r)

theorem Woken.noneActive {R : CrewRef} {p : Wait → Prop} {s t : State} (h : Woken R p s t) (ha : NoneActive s) : NoneActive t := by
  intro r x hx ch hch
  have hc := h.chunks r
  rw [hx, Option.map_some] at hc
  obtain ⟨y, hy, hyx⟩ := Option.map_eq_some_iff.mp hc.symm
  exact ha r y hy ch (hyx ▸ hch)

theorem Woken.strand?_none {R : CrewRef} {p : Wait → Prop} {s t : State} (h : Woken R p s t) {r : StrandRef}
    (hr : s.strand? r = none) : t.strand? r = none := by
  have hc := h.chunks r
  rw [hr, Option.map_none] at hc
  exact Option.map_eq_none_iff.mp hc

/-- The barriers of a crew and its memory. -/
def crewBars (s : State) (R : CrewRef) : Option (List Barrier × List Host.Cell) := (s.crew? R).map fun k => (k.bars, k.mem)

section
variable {s : State} {c : Cur} {R : CrewRef} {p : Wait → Prop}

theorem strand?_resume_ne {x r : StrandRef} {sd : SReg} {v : W64} (hr : r ≠ x) : (s.resume x sd v).strand? r = s.strand? r := by
  cases hc : s.curOf x with
  | none => simp [State.resume, hc]
  | some c =>
    obtain rfl : c.ref = x := ((curOf_iff s x c).mp hc).1
    exact ((resume_eq hc).symm ▸ (resumes_resumeCur hc (stays_of_wrote (wrote_setS c sd v))).others r hr :)

theorem onwards_unplaced (d : Cur) : (onwards d).t.unplaced = d.t.unplaced := by
  have ht : (d.advance 1).t = { d.t with core := (d.advance 1).t.core } := advance_t d 1
  show (d.advance 1).t.unplaced = d.t.unplaced
  rw [ht]
  rfl

/-- A parked strand of the crew goes on behind its instruction. -/
theorem woken_resume {x : StrandRef} (sd : SReg) (v : W64) (hx : x.w.crew = R) (hp : p (s.waitOf x)) :
    Woken R p s (s.resume x sd v) ∧ crewBars (s.resume x sd v) R = crewBars s R := by
  cases hc : s.curOf x with
  | none =>
    have : s.resume x sd v = s := by simp [State.resume, hc]
    rw [this]
    exact ⟨Woken.refl R p s, rfl⟩
  | some c =>
    obtain rfl : c.ref = x := ((curOf_iff s x c).mp hc).1
    have hof := stays_onwards_of (stays_of_wrote (wrote_setS c sd v))
    have hcrew := curOf_crew hc
    have hwarp := curOf_warp hc
    have hput : s.resume c.ref sd v = s.putCur (onwards (c.setS sd v)) := resume_eq hc
    have hcur := putCur_spec hc hof
    have hout : (onwards (c.setS sd v)).crewOut = { c.crew with warps := (onwards (c.setS sd v)).crewOut.warps } := by
      rw [← hof.crew]
      rfl
    have hw : (onwards (c.setS sd v)).warp = c.warp := by
      show ((c.setS sd v).advance 1).warp = c.warp
      rw [Cur.advance_warp]
      unfold Cur.setS
      split <;> rfl
    have hwout : (onwards (c.setS sd v)).warpOut = { c.warp with strands := (onwards (c.setS sd v)).warpOut.strands } := by
      rw [Cur.warpOut, Warp.setStrand, hw]
    rw [hput]
    subst hx
    refine ⟨⟨rfl, fun k hk => ?_, fun r u hu hnp => ?_, fun r => ?_⟩, ?_⟩
    · obtain rfl : c.crew = k := Option.some.inj (hcrew.symm.trans hk)
      refine ⟨_, curOf_crew hcur, fun y hy => ?_, fun i w hw' => ?_⟩
      · obtain ⟨z, hz, rfl⟩ := List.mem_map.mp hy
        rw [hof.crew] at hz
        dsimp only
        split
        · refine ⟨c.warp, List.mem_of_find?_eq_some hwarp, ?_, ?_⟩
          · rw [hwout]
          · rw [hwout]
        · exact ⟨z, hz, rfl, rfl⟩
      · by_cases hi : i = c.ref.w.warp
        · subst hi
          obtain rfl : c.warp = w := Option.some.inj (hwarp.symm.trans hw')
          exact ⟨_, curOf_warp hcur, hwout⟩
        · exact ⟨w, (crewOut_warp_ne hc hof i hi).trans hw', rfl⟩
    · by_cases hr : r = c.ref
      · subst hr
        rw [waitOf_of_curOf hc] at hp
        obtain rfl : c.t = u := Option.some.inj ((curOf_strand hc).symm.trans hu)
        exact absurd hp hnp
      · exact (strand?_putCur_ne hc hof hr).trans hu
    · by_cases hr : r = c.ref
      · subst hr
        rw [curOf_strand hcur, curOf_strand hc, Option.map_some, Option.map_some]
        refine congrArg some ((onwards_unplaced _).trans ?_)
        rw [(stays_of_wrote (wrote_setS c sd v)).t]
        rfl
      · rw [strand?_putCur_ne hc hof hr]
    · rw [crewBars, crewBars, curOf_crew hcur, hcrew]
      rw [show ((onwards (c.setS sd v)).back s.free).crew = _ from hout]
      rfl

/-- The crew's barriers and memory alone are changed. -/
theorem woken_modCrew {f : Crew → Crew} (hf : ∀ k, f k = { k with bars := (f k).bars, mem := (f k).mem }) :
    Woken R p s (s.modCrew R f) := by
  have hwarps : ∀ k, (f k).warps = k.warps := fun k => by rw [hf k]
  have hcrew := crew?_modCrew_self s R f fun k hk => by rw [hf k]; exact hk
  have hwarp : ∀ q : WarpRef, (s.modCrew R f).warp? q = s.warp? q := by
    intro q
    unfold State.warp?
    by_cases hq : q.crew = R
    · rw [hq, hcrew]
      cases s.crew? R with
      | none => rfl
      | some k => exact congrArg (fun l => l.find? fun w : Warp => w.id == q.warp) (hwarps k)
    · rw [crew?_modCrew_ne s R q.crew f (fun k hk => by rw [hf k]; exact hk) hq]
  refine ⟨rfl, fun k hk => ⟨f k, by rw [hcrew, hk]; rfl, fun x hx => ?_, fun i w hw => ⟨w, ?_, rfl⟩⟩, fun r u hu _ => ?_, fun r => ?_⟩
  · exact ⟨x, hwarps k ▸ hx, rfl, rfl⟩
  · rw [Crew.warp?, hwarps]
    exact hw
  · rw [State.strand?, hwarp]
    exact hu
  · rw [State.strand?, hwarp]
    rfl

end

end Sys2Proof.GroupProofs

/-!
PROOFS. The group (08): barriers left and siblings told.
-/

namespace Sys2Proof.GroupProofs

open Sys2Proof Sys2Proof.Machine Sys2Proof.Rules Sys2Proof.ContextProofs

/-! ## The warp leaves its barriers (R410) -/

section
variable {s : State} {R : CrewRef}

/-- Parked at a barrier. -/
def AtBar (w : Wait) : Prop := ∃ sd o ph b, w = .bar sd o ph b

/-- A crew with one barrier entry and its word written. -/
def writeBar (b : Barrier) (k : Crew) : Crew :=
  { k with bars := updIf (fun x => x.off == b.off) (fun _ => b) k.bars, mem := cellsPut k.mem b.off (bytesOf 8 b.word.toNat) }

/-- A barrier entry is written where no chunk is in the way. -/
theorem putBar_woken (src : Option StrandRef) (b : Barrier) (ha : NoneActive s) :
    Woken R AtBar s (s.putBar src R b) ∧ crewBars (s.putBar src R b) R = (crewBars s R).map fun x => putEntry x b := by
  have hwoken : Woken R AtBar s (s.modCrew R (writeBar b)) := woken_modCrew fun _ => rfl
  have hput : s.putBar src R b = s.modCrew R (writeBar b) := conflict_calm (hwoken.noneActive ha) _
  rw [hput]
  refine ⟨hwoken, ?_⟩
  rw [crewBars, crew?_modCrew_self s R (writeBar b) fun _ hk => hk, crewBars]
  cases s.crew? R <;> rfl

/-- A barrier changes, and its waiters go on where it flips. -/
theorem updateBar_woken (src : Option StrandRef) (b : Barrier) (ha : NoneActive s) :
    Woken R AtBar s (s.updateBar src R b) ∧ crewBars (s.updateBar src R b) R = (crewBars s R).map fun x => putEntry x (settled b) := by
  have hcond : (b.count == b.expected && decide (1 ≤ b.expected)) = true ↔ b.parts ≠ [] ∧ b.arrived.length = b.parts.length := by
    rw [Bool.and_eq_true, beq_iff_eq, decide_eq_true_iff, and_comm, ← List.length_pos_iff]
    rfl
  unfold State.updateBar settled
  by_cases hflip : b.parts ≠ [] ∧ b.arrived.length = b.parts.length
  · rw [if_pos (hcond.mpr hflip), if_pos hflip]
    have hput := putBar_woken (R := R) src { b with arrived := [], phase := !b.phase } ha
    unfold State.flip
    dsimp only
    refine List.foldlRecOn _ _ (motive := fun t => Woken R AtBar s t ∧ crewBars t R = (crewBars s R).map fun x =>
      putEntry x { b with arrived := [], phase := !b.phase }) hput fun t ht x hx => ?_
    have hxR : x.w.crew = R := by
      have := (List.mem_filter.mp hx).2
      simp only [Bool.and_eq_true, beq_iff_eq] at this
      exact this.1
    split
    · obtain ⟨hw, hb⟩ := woken_resume (s := t) (p := AtBar) _ _ hxR ⟨_, _, _, _, ‹_›⟩
      exact ⟨ht.1.trans hw, hb.trans ht.2⟩
    · exact ht
  · rw [if_neg fun h => hflip (hcond.mp h), if_neg hflip]
    exact putBar_woken src b ha

/-- The entries that a warp leaves are updated one by one. -/
theorem foldl_updateBar_woken (src : Option StrandRef) (i : Nat) (l : List Barrier) (ha : NoneActive s) :
    let f := fun (s : State) (b : Barrier) =>
      s.updateBar src R { b with parts := b.parts.filter (· != i), arrived := b.arrived.filter (· != i) }
    Woken R AtBar s (l.foldl f s) ∧
      crewBars (l.foldl f s) R = (crewBars s R).map fun x => l.foldl (fun x b => putEntry x (leftBy i b)) x := by
  induction l generalizing s with
  | nil => exact ⟨Woken.refl R AtBar s, Option.map_id'.symm⟩
  | cons b l ih =>
    obtain ⟨hw, hb⟩ := updateBar_woken (R := R) src
      { b with parts := b.parts.filter (· != i), arrived := b.arrived.filter (· != i) } ha
    obtain ⟨hw', hb'⟩ := ih (hw.noneActive ha)
    refine ⟨hw.trans hw', hb'.trans ?_⟩
    rw [hb, Option.map_map]
    rfl

end

/-! ## A sibling parked at WFUSE is told (R174) -/

section
variable {s t : State} {d : Cur} {R : CrewRef}

theorem foldl_reaches {α β : Type} {P Q : β → Prop} {f : β → α → β} {l : List α} {a : α} (ha : a ∈ l)
    (hP : ∀ b x, P b → P (f b x)) (hQ : ∀ b x, Q b → Q (f b x)) (hPQ : ∀ b, P b → Q (f b a)) {b : β} (h : P b) :
    Q (l.foldl f b) := by
  have hfold : ∀ (l : List α) b, Q b → Q (l.foldl f b) := fun l b hb =>
    List.foldlRecOn l f (motive := Q) hb fun b hb x _ => hQ b x hb
  induction l generalizing b with
  | nil => cases ha
  | cons x l ih =>
    rcases List.mem_cons.mp ha with rfl | ha
    · exact hfold l _ (hPQ b h)
    · exact ih ha (hP b x h)

/-- Strand `r` shows as `u` in a warp that is `w` but for its strands. -/
def Shows (r : StrandRef) (u : Strand) (w : Warp) (t : State) : Prop :=
  ∃ e, t.curOf r = some e ∧ e.t = u ∧ e.warp = { w with strands := e.warp.strands }

theorem Shows.woken {r : StrandRef} {u : Strand} {w : Warp} {p : Wait → Prop} (h : Shows r u w s) (hw : Woken r.w.crew p s t)
    (hr : t.strand? r = some u) : Shows r u w t := by
  obtain ⟨e, he, -, hew⟩ := h
  obtain ⟨j, hj, -, hjw⟩ := hw.tables e.crew (curOf_crew he)
  obtain ⟨v, hv, hve⟩ := hjw r.w.warp e.warp (curOf_warp he)
  have ht : v.strand? r.strand = some u := by
    rw [State.strand?, State.warp?, hj, Option.bind_some, hv, Option.bind_some] at hr
    exact hr
  refine ⟨{ ref := r, crew := j, warp := v, t := u, free := t.free, log := [], acc := [] },
    (curOf_iff t r _).mpr ⟨rfl, hj, hv, ht, rfl, rfl, rfl⟩, rfl, ?_⟩
  show v = { w with strands := v.strands }
  rw [hve, hew]

/-- Another strand of the crew goes on. -/
theorem Shows.resume {r x : StrandRef} {u : Strand} {w : Warp} (h : Shows r u w s) (sd : SReg) (v : W64) (hx : x.w.crew = r.w.crew)
    (hr : r ≠ x) : Shows r u w (s.resume x sd v) := by
  refine h.woken (p := fun _ => True) (woken_resume sd v hx trivial).1 ?_
  obtain ⟨e, he, rfl, -⟩ := h
  rw [strand?_resume_ne hr]
  exact curOf_strand he

theorem regs_of_shows {e d : Cur} (ht : e.t = d.t) (hw : e.warp = { d.warp with strands := e.warp.strands }) : e.regs = d.regs := by
  rw [Cur.regs, ht, hw]
  rfl

/-- The strand of `d` has gone on behind its WFUSE, with SIBLING_EXITED in `sx`. -/
def Told (d : Cur) (sx : SReg) (t : State) : Prop :=
  ∃ e, t.curOf d.ref = some e ∧ e.t.wait = .none ∧ e.regs = (d.setS sx 7).regs ∧ e.place = d.behind 1

/-- What a strand of a warp whose sibling has exited is told. -/
def tellStrand (s : State) (x : StrandRef) : State :=
  match (s.waitOf x).atFuse with
  | some (sd, _) => s.resume x sd 7
  | none => s

/-- What the strands of warp `i` are told. -/
def tellWarp (R : CrewRef) (s : State) (i : Nat) : State :=
  (List.range 4).foldl (fun s j => tellStrand s { w := { crew := R, warp := i }, strand := j }) s

theorem tellSiblings_eq {k : Crew} (hk : s.crew? R = some k) :
    s.tellSiblings R = k.warps.foldl (fun s w => if k.sibExited w then tellWarp R s w.id else s) s := by
  unfold State.tellSiblings
  rw [hk]
  rfl

/-- Parked at a WFUSE. -/
def AtFuse (w : Wait) : Prop := w.atFuse ≠ none

theorem tellStrand_woken {x : StrandRef} (hx : x.w.crew = R) :
    Woken R AtFuse s (tellStrand s x) ∧ crewBars (tellStrand s x) R = crewBars s R := by
  unfold tellStrand
  split
  next sd _ he => exact woken_resume sd 7 hx (by simp [AtFuse, he])
  · exact ⟨Woken.refl R AtFuse s, rfl⟩

theorem tellWarp_woken (i : Nat) : Woken R AtFuse s (tellWarp R s i) ∧ crewBars (tellWarp R s i) R = crewBars s R :=
  List.foldlRecOn _ _ (motive := fun t => Woken R AtFuse s t ∧ crewBars t R = crewBars s R) ⟨Woken.refl R AtFuse s, rfl⟩
    fun t ht j _ => by
      have htell := tellStrand_woken (s := t) (R := R) (x := { w := { crew := R, warp := i }, strand := j }) rfl
      exact ⟨ht.1.trans htell.1, htell.2.trans ht.2⟩

theorem tellSiblings_woken (s : State) (R : CrewRef) :
    Woken R AtFuse s (s.tellSiblings R) ∧ crewBars (s.tellSiblings R) R = crewBars s R := by
  cases hk : s.crew? R with
  | none =>
    have : s.tellSiblings R = s := by simp [State.tellSiblings, hk]
    rw [this]
    exact ⟨Woken.refl R AtFuse s, rfl⟩
  | some k =>
    rw [tellSiblings_eq hk]
    refine List.foldlRecOn _ _ (motive := fun t => Woken R AtFuse s t ∧ crewBars t R = crewBars s R)
      ⟨Woken.refl R AtFuse s, rfl⟩ fun t ht w _ => ?_
    split
    · have htell := tellWarp_woken (s := t) (R := R) w.id
      exact ⟨ht.1.trans htell.1, htell.2.trans ht.2⟩
    · exact ht

section
variable {sx : SReg} {a : W64} {limit since : Nat}

theorem Told.tellStrand {x : StrandRef} (hx : x.w.crew = d.ref.w.crew) (h : Told d sx s) : Told d sx (tellStrand s x) := by
  obtain ⟨e, he, hwait, hregs, hplace⟩ := h
  unfold GroupProofs.tellStrand
  split
  next sd _ hf =>
    have hne : d.ref ≠ x := by
      rintro rfl
      rw [waitOf_of_curOf he, hwait] at hf
      cases hf
    obtain ⟨e', he', ht, hw⟩ := Shows.resume (u := e.t) (w := e.warp) ⟨e, he, rfl, rfl⟩ sd 7 hx hne
    exact ⟨e', he', by rw [ht, hwait], (regs_of_shows ht hw).trans hregs, by rw [Cur.place, ht]; exact hplace⟩
  · exact ⟨e, he, hwait, hregs, hplace⟩

/-- Another strand is told. -/
theorem Shows.tellStrand {x : StrandRef} (hx : x.w.crew = d.ref.w.crew) (hne : d.ref ≠ x) (h : Shows d.ref d.t d.warp s) :
    Shows d.ref d.t d.warp (tellStrand s x) := by
  unfold GroupProofs.tellStrand
  split
  · exact h.resume _ 7 hx hne
  · exact h

theorem regs_setS {e d : Cur} (sx : SReg) (v : W64) (ht : e.t = d.t) (hw : e.warp = { d.warp with strands := e.warp.strands }) :
    (e.setS sx v).regs = (d.setS sx v).regs := by
  have hr := regs_of_shows ht hw
  unfold Cur.setS
  split
  · exact hr
  · simp only [Cur.regs, ht]
    rw [hw]

/-- The strand itself is told. -/
theorem told_self (hw : d.t.wait = .wfuse sx a limit since) (h : Shows d.ref d.t d.warp s) : Told d sx (tellStrand s d.ref) := by
  obtain ⟨e, he, ht, hwarp⟩ := h
  have href : e.ref = d.ref := ((curOf_iff s d.ref e).mp he).1
  rw [← href] at he
  have htell : tellStrand s d.ref = s.resumeCur (e.setS sx 7) := by
    have hf : (s.waitOf d.ref).atFuse = some (sx, a, some since) := by
      rw [← href, waitOf_of_curOf he, ht, hw]
      rfl
    unfold GroupProofs.tellStrand
    rw [hf, ← href]
    exact resume_eq he
  obtain ⟨here, -, hwait, hplace, hregs, -⟩ := resumes_resumeCur he (stays_of_wrote (wrote_setS e sx 7))
  rw [htell]
  refine ⟨_, href ▸ here, hwait, hregs.trans (regs_setS sx 7 ht hwarp), hplace.trans ?_⟩
  unfold Cur.behind Cur.base
  rw [ht]

/-- Told, or still to be told. -/
theorem tell_step (hw : d.t.wait = .wfuse sx a limit since) {x : StrandRef} (hx : x.w.crew = d.ref.w.crew)
    (h : Shows d.ref d.t d.warp s ∨ Told d sx s) : Shows d.ref d.t d.warp (tellStrand s x) ∨ Told d sx (tellStrand s x) := by
  rcases h with h | h
  · by_cases hxd : d.ref = x
    · exact .inr (hxd ▸ told_self hw h)
    · exact .inl (h.tellStrand hx hxd)
  · exact .inr (h.tellStrand hx)

/-- A warp of the crew is told. -/
theorem tellWarp_step (hw : d.t.wait = .wfuse sx a limit since) (i : Nat) (h : Shows d.ref d.t d.warp s ∨ Told d sx s) :
    Shows d.ref d.t d.warp (tellWarp d.ref.w.crew s i) ∨ Told d sx (tellWarp d.ref.w.crew s i) :=
  List.foldlRecOn _ _ (motive := fun t => Shows d.ref d.t d.warp t ∨ Told d sx t) h fun _ ht _ _ => tell_step hw rfl ht

theorem Told.tellWarp (i : Nat) (h : Told d sx s) : Told d sx (tellWarp d.ref.w.crew s i) :=
  List.foldlRecOn _ _ (motive := Told d sx) h fun _ ht _ _ => ht.tellStrand rfl

/-- The strand's own warp is told. -/
theorem tellWarp_told (hw : d.t.wait = .wfuse sx a limit since) (hlt : d.ref.strand < 4)
    (h : Shows d.ref d.t d.warp s ∨ Told d sx s) : Told d sx (GroupProofs.tellWarp d.ref.w.crew s d.ref.w.warp) := by
  unfold GroupProofs.tellWarp
  refine foldl_reaches (P := fun t => Shows d.ref d.t d.warp t ∨ Told d sx t) (List.mem_range.mpr hlt) ?_ ?_ ?_ h
  · exact fun t j ht => tell_step hw rfl ht
  · exact fun t j ht => ht.tellStrand rfl
  · intro t ht
    rcases ht with ht | ht
    · exact told_self hw ht
    · exact ht.tellStrand rfl

/-- A strand parked at WFUSE whose sibling has exited receives SIBLING_EXITED. -/
theorem tellSiblings_told (hw : d.t.wait = .wfuse sx a limit since) (hlt : d.ref.strand < 4) (h : Shows d.ref d.t d.warp s)
    (hs : ∀ k w, s.crew? d.ref.w.crew = some k → k.warp? d.ref.w.warp = some w → k.sibExited w = true) :
    Told d sx (s.tellSiblings d.ref.w.crew) := by
  obtain ⟨e, he, -, -⟩ := id h
  rw [tellSiblings_eq (curOf_crew he)]
  have hmem : e.warp ∈ e.crew.warps := List.mem_of_find?_eq_some (curOf_warp he)
  have hid : e.warp.id = d.ref.w.warp := warp?_id (curOf_warp he)
  refine foldl_reaches (P := fun t => Shows d.ref d.t d.warp t ∨ Told d sx t) hmem ?_ ?_ ?_ (.inl h)
  · intro t w ht
    split
    · exact tellWarp_step hw _ ht
    · exact ht
  · intro t w ht
    split
    · exact ht.tellWarp _
    · exact ht
  · intro t ht
    rw [if_pos (hs e.crew e.warp (curOf_crew he) (curOf_warp he)), hid]
    exact tellWarp_told hw hlt ht

end

end

/-- The sibling of a split warp has exited (R174). -/
theorem sibExited_of {k : Crew} {w : Warp} {d : Cur} (hid : w.id = d.ref.w.warp) (hsp : w.splits = d.warp.splits)
    (hne : d.warp.splits ≠ []) (h : ∀ x ∈ k.warps,
      x.id % 2 ^ (4 + d.warp.splits.length) = siblingOf d % 2 ^ (4 + d.warp.splits.length) → x.exited = true) :
    k.sibExited w = true := by
  have hgen : w.gen = d.warp.splits.length := congrArg List.length hsp
  have hpos : 0 < w.gen := hgen ▸ List.length_pos_iff.mpr hne
  have hbit : 2 * w.genBit = 2 ^ (4 + d.warp.splits.length) := by
    rw [Warp.genBit, hgen, ← Nat.pow_succ']
    congr 1
    omega
  have hsib : w.sibId = siblingOf d := by
    simp only [Warp.sibId, Warp.isHigh, siblingOf, Warp.genBit, hgen, hid, hgen ▸ hpos, decide_true, Bool.true_and, beq_iff_eq]
  rw [Crew.sibExited, Bool.and_eq_true]
  refine ⟨decide_eq_true hpos, List.all_eq_true.mpr fun x hx => ?_⟩
  obtain ⟨hx, hmod⟩ := List.mem_filter.mp hx
  rw [hbit, hsib, beq_iff_eq] at hmod
  exact h x hx hmod

end Sys2Proof.GroupProofs

/-!
PROOFS. The group (08): the end of a warp (O20).
-/

namespace Sys2Proof.GroupProofs

open Sys2Proof Sys2Proof.Machine Sys2Proof.Rules Sys2Proof.ContextProofs

/-! ## The end of a warp (R124, R129, R174, R314, R410) -/

section
variable {s t : State} {c : Cur} {G : Warp → Warp}

/-- `t` is `s` with the warp of `c` changed by `G`, and perhaps its commands and pin slots. -/
structure Emptied (s : State) (c : Cur) (G : Warp → Warp) (t : State) : Prop where
  package : t = { s with crews := t.crews, pins := t.pins, cmds := t.cmds }
  crew    : t.crew? c.ref.w.crew = some (updWarp c.ref.w.warp G c.crew)
  others  : ∀ q, q ≠ c.ref.w → t.warp? q = s.warp? q
  id      : ∀ w, (G w).id = w.id

theorem Emptied.modWarp (h : Emptied s c G t) {f : Warp → Warp} (hf : ∀ w, (f w).id = w.id) :
    Emptied s c (f ∘ G) (t.modWarp c.ref.w f) where
  package := by
    show ({ t with crews := _ } : State) = _
    rw [h.package]
    rfl
  crew := by
    rw [modWarp_eq, crew?_modCrew_self _ _ (updWarp _ f) (fun _ hk => hk), h.crew, Option.map_some]
    exact congrArg some (congrFun (updWarp_updWarp c.ref.w.warp G f h.id) c.crew)
  others q hq := by
    rw [← h.others q hq]
    unfold State.warp?
    by_cases hc : q.crew = c.ref.w.crew
    · have hne : q.warp ≠ c.ref.w.warp := fun e => hq (by
        obtain ⟨_, _⟩ := q
        simp_all)
      rw [hc, modWarp_eq, crew?_modCrew_self _ _ (updWarp _ f) (fun _ hk => hk), h.crew]
      exact warp?_updIf_ne _ _ _ f (fun w hw => (hf w).trans hw) hne
    · rw [modWarp_eq, crew?_modCrew_ne _ _ _ (updWarp _ f) (fun _ hk => hk) hc]
  id w := (hf _).trans (h.id w)

theorem Emptied.warp (h : Emptied s c G t) (hc : s.curOf c.ref = some c) : t.warp? c.ref.w = some (G c.warp) := by
  rw [State.warp?, h.crew, Option.bind_some]
  refine (warp?_updIf_self c.crew _ G fun w hw => (h.id w).trans hw).trans ?_
  rw [curOf_warp hc, Option.map_some]

theorem emptied_self (h : s.curOf c.ref = some c) : Emptied s c (fun w => w) s where
  package := rfl
  crew := by
    have : updWarp c.ref.w.warp (fun w => w) c.crew = c.crew := by simp [updWarp, updIf]
    rw [this, curOf_crew h]
  others _ _ := rfl
  id _ := rfl

/-- The warp's open commands are closed into batch `n` (R314). -/
def closeIn (s : State) (r : WarpRef) (n : W32) (w : Warp) : Warp :=
  { w with batches := w.batches ++ [{ n := n, cmds := (s.cmds.filter fun x => x.warp == some r && x.batch.isNone).map (·.id),
                                      fault := w.openFault }], openFault := none }

/-- The warp with its held items consumed (R129). -/
def markExited (w : Warp) : Warp := { w with held := [], exited := true }

/-- The warp behind its exit. -/
def exitedWarp (s : State) (c : Cur) (extra : StrandCore → Nat) (w : Warp) : Warp :=
  markExited (if s.hasOpen c.ref.w then closeIn s c.ref.w c.t.core.batchn ((leftWarp c.ref.strand w).settle extra)
    else (leftWarp c.ref.strand w).settle extra)

/-- The exit of a warp, but for its barriers and its sibling. -/
theorem exitWarp_emptied (h : s.curOf c.ref = some c) (extra : StrandCore → Nat) : ∃ t,
    (behindEnd s c.ref extra).exitWarp c.ref c.ref.w c.t.core.batchn = (t.exitBars c.ref c.ref.w).tellSiblings c.ref.w.crew ∧
      Emptied s c (exitedWarp s c extra) t ∧ t.cmds = if s.hasOpen c.ref.w then
        updIf (fun x => x.warp == some c.ref.w && x.batch.isNone) (fun x => { x with batch := some c.t.core.batchn }) s.cmds
      else s.cmds := by
  have hleft : Emptied s c (fun w => (leftWarp c.ref.strand w).settle extra) (behindEnd s c.ref extra) := by
    obtain ⟨-, hc, ho, hid⟩ := (emptied_self h).modWarp (f := fun w => (leftWarp c.ref.strand w).settle extra)
      fun w => (settle_id _ _).trans (leftWarp_id _ _)
    exact ⟨rfl, hc, ho, hid⟩
  have hopen1 : (behindEnd s c.ref extra).hasOpen c.ref.w = s.hasOpen c.ref.w := rfl
  unfold State.exitWarp
  rw [hopen1]
  refine ⟨_, rfl, ?_, ?_⟩
  · by_cases hopen : s.hasOpen c.ref.w = true
    · have hG : exitedWarp s c extra =
          markExited ∘ closeIn s c.ref.w c.t.core.batchn ∘ fun w => (leftWarp c.ref.strand w).settle extra := by
        funext w
        simp [exitedWarp, hopen]
      rw [if_pos hopen, hG]
      refine Emptied.modWarp ?_ fun _ => rfl
      have hclose : (behindEnd s c.ref extra).closeBatch c.ref.w c.t.core.batchn =
          State.modWarp { behindEnd s c.ref extra with
            cmds := updIf (fun x => x.warp == some c.ref.w && x.batch.isNone) (fun x => { x with batch := some c.t.core.batchn }) s.cmds }
            c.ref.w (closeIn s c.ref.w c.t.core.batchn) := rfl
      rw [hclose]
      refine Emptied.modWarp ?_ fun _ => rfl
      exact ⟨rfl, hleft.crew, hleft.others, hleft.id⟩
    · have hG : exitedWarp s c extra = markExited ∘ fun w => (leftWarp c.ref.strand w).settle extra := by
        funext w
        simp [exitedWarp, hopen]
      rw [if_neg hopen, hG]
      exact hleft.modWarp fun _ => rfl
  · split
    · rfl
    · rfl

/-- The warp leaves its barriers. -/
theorem exitBars_woken {r : WarpRef} {k : Crew} (src : StrandRef) (ha : NoneActive t) (hk : t.crew? r.crew = some k) :
    Woken r.crew AtBar t (t.exitBars src r) ∧ crewBars (t.exitBars src r) r.crew =
      some ((k.bars.filter fun b => b.parts.contains r.warp).foldl (fun x b => putEntry x (leftBy r.warp b)) (k.bars, k.mem)) := by
  have hbars : t.barsOf r = k.bars.filter fun b => b.parts.contains r.warp := by
    rw [State.barsOf, hk]
  obtain ⟨hw, hb⟩ := foldl_updateBar_woken (R := r.crew) (some src) r.warp (t.barsOf r) ha
  refine ⟨hw, hb.trans ?_⟩
  rw [crewBars, hk, hbars]
  rfl

theorem leftBy_off (i : Nat) (b : Barrier) : (leftBy i b).off = b.off := by
  unfold leftBy settled
  split <;> rfl

/-- The entries that the warp leaves, and their words. -/
theorem barsBecome_of {k : Crew} (hs : SoundBars c) (hm : Memory.wf c.crew.mem = true)
    (hk : (k.bars, k.mem) = (c.crew.bars.filter fun b => b.parts.contains c.ref.w.warp).foldl
      (fun x b => putEntry x (leftBy c.ref.w.warp b)) (c.crew.bars, c.crew.mem)) : BarsBecome c k (leftBy c.ref.w.warp) := by
  obtain ⟨hnodup, halign⟩ := hs
  have hbars := foldl_putEntry_filter (leftBy_off c.ref.w.warp) hnodup (fun b => b.parts.contains c.ref.w.warp) c.crew.mem
  rw [← hk] at hbars
  refine ⟨hbars.trans (List.map_congr_left fun b _ => by simp), fun b hb hin => ?_⟩
  have hmem := (foldl_putEntry_mem (leftBy_off c.ref.w.warp) (l := c.crew.bars.filter fun b => b.parts.contains c.ref.w.warp)
    ((List.filter_sublist.map _).nodup hnodup) (fun b hb => halign b (List.mem_filter.mp hb).1)
    (x := (c.crew.bars, c.crew.mem)) hm).2 b (List.mem_filter.mpr ⟨hb, by simpa using hin⟩)
  rw [← hk] at hmem
  exact cellsRead_word hmem

/-! ## The warp that has exited -/

theorem strand?_of_live {w : Warp} (h : w.live = 0) (k : Nat) : w.strand? k = none := by
  have hall : ∀ x ∈ w.strands, x = none := fun x hx => by
    have := List.filter_eq_nil_iff.mp (List.length_eq_zero_iff.mp h) x hx
    simpa using this
  rw [Warp.strand?, List.getD_eq_getElem?_getD]
  cases hk : w.strands[k]? with
  | none => rfl
  | some x => exact hall x (List.mem_of_getElem? hk)

theorem live_of_strand? {w : Warp} (h : ∀ k, w.strand? k = none) : w.live = 0 := by
  refine List.length_eq_zero_iff.mpr (List.filter_eq_nil_iff.mpr fun x hx => ?_)
  obtain ⟨k, hk⟩ := List.mem_iff_getElem?.mp hx
  have := h k
  rw [Warp.strand?, List.getD_eq_getElem?_getD, hk] at this
  simpa using this

/-- The last strand leaves a warp without strands. -/
theorem leftWarp_last {i : Nat} {w : Warp} {u : Strand} (hu : w.strand? i = some u) (hl : w.live = 1) :
    (∀ k, (leftWarp i w).strand? k = none) ∧ leftWarp i w = w.leave i := by
  have hlive : (w.leave i).live = 0 := by
    have := live_leave hu
    omega
  have hnone := strand?_of_live hlive
  have hleft : leftWarp i w = w.leave i := by
    have hnil : (w.leave i).strands.filterMap (fun x => x) = [] := List.filterMap_eq_nil_iff.mpr fun x hx => by
      obtain ⟨k, hk⟩ := List.mem_iff_getElem?.mp hx
      have := hnone k
      rwa [Warp.strand?, List.getD_eq_getElem?_getD, hk] at this
    rw [leftWarp, Warp.settleTags, hnil]
  exact ⟨hleft ▸ hnone, hleft⟩

theorem exitedWarp_last {extra : StrandCore → Nat} (h : s.curOf c.ref = some c) (hl : c.warp.live = 1) :
    exitedWarp s c extra c.warp = markExited (if s.hasOpen c.ref.w then
      closeIn s c.ref.w c.t.core.batchn (c.warp.leave c.ref.strand) else c.warp.leave c.ref.strand) := by
  obtain ⟨hnone, hleft⟩ := leftWarp_last ((curOf_iff s c.ref c).mp h).2.2.2.1 hl
  have hset : (leftWarp c.ref.strand c.warp).settle extra = c.warp.leave c.ref.strand := by
    refine (settle_of_none (fun f => leftWarp_members) fun k t n ht => ?_).trans hleft
    rw [hnone k] at ht
    cases ht
  rw [exitedWarp, hset]

/-- No strand of the warp is left, and the others are as they were. -/
theorem Emptied.strand? {extra : StrandCore → Nat} (h : Emptied s c (exitedWarp s c extra) t) (hc : s.curOf c.ref = some c)
    (hl : c.warp.live = 1) (r : StrandRef) : t.strand? r = if r.w = c.ref.w then none else s.strand? r := by
  split
  next hr =>
    have hnone := (leftWarp_last ((curOf_iff s c.ref c).mp hc).2.2.2.1 hl).1
    have hleft := (leftWarp_last ((curOf_iff s c.ref c).mp hc).2.2.2.1 hl).2
    rw [State.strand?, hr, h.warp hc, Option.bind_some, exitedWarp_last hc hl]
    rw [hleft] at hnone
    split
    · exact hnone r.strand
    · exact hnone r.strand
  next hr => rw [State.strand?, h.others _ hr, State.strand?]

/-- A strand that exits and quiet neighbours leave no chunk that has begun. -/
theorem noneActive_of_quiet (hc : s.curOf c.ref = some c) (ha : Alone c) (hq : Quiet s c) : NoneActive s := by
  intro r x hx ch hch
  by_cases hr : r = c.ref
  · subst hr
    obtain rfl : c.t = x := Option.some.inj ((curOf_strand hc).symm.trans hx)
    obtain ⟨hst, hearlier⟩ := ha
    have hch : ch = c.t.chunk := by simpa [Strand.unplaced, hearlier] using hch
    rw [hch, Chunk.active, hst]
  · exact hq.2 r x hr hx ch hch

theorem barsBlocked_calm (ha : NoneActive s) (src : StrandRef) (r : WarpRef) : s.barsBlocked src r = false :=
  List.any_eq_false.mpr fun b _ => by simp [State.barBlocked, pinBlocks_calm ha]

/-- A strand of another warp shows as before. -/
theorem Emptied.shows (h : Emptied s c G t) {d : Cur} (hd : s.curOf d.ref = some d) (hcrew : d.ref.w.crew = c.ref.w.crew)
    (hne : d.ref.w ≠ c.ref.w) : Shows d.ref d.t d.warp t := by
  have hwarp : (updWarp c.ref.w.warp G c.crew).warp? d.ref.w.warp = some d.warp := by
    have := h.others d.ref.w hne
    rwa [warp?_of_curOf hd, State.warp?, hcrew, h.crew, Option.bind_some] at this
  refine ⟨{ ref := d.ref, crew := updWarp c.ref.w.warp G c.crew, warp := d.warp, t := d.t, free := t.free, log := [], acc := [] },
    (curOf_iff t d.ref _).mpr ⟨rfl, hcrew ▸ h.crew, hwarp, ((curOf_iff s d.ref d).mp hd).2.2.2.1, rfl, rfl, rfl⟩, rfl, rfl⟩

/-- Every warp of a family has exited, once the last of them has. -/
theorem updWarp_exited {extra : StrandCore → Nat} {p : Nat → Prop}
    (hx : ∀ x ∈ c.crew.warps, p x.id → x.exited = true ∨ x.id = c.ref.w.warp) :
    ∀ y ∈ (updWarp c.ref.w.warp (exitedWarp s c extra) c.crew).warps, p y.id → y.exited = true := by
  intro y hy hp
  obtain ⟨z, hz, rfl⟩ := List.mem_map.mp hy
  by_cases hid : z.id = c.ref.w.warp
  · simp [hid, exitedWarp, markExited]
  · have hne : (z.id == c.ref.w.warp) = false := by simpa using hid
    simp only [hne, Bool.false_eq_true, if_false] at hp ⊢
    exact (hx z hz hp).resolve_right hid

/-- What the end of a warp's last strand leaves, seen through the barriers that it left and the siblings that were told. -/
structure WarpGone (s : State) (c : Cur) (t : State) : Prop where
  package : t = { s with crews := t.crews, pins := t.pins, cmds := t.cmds }
  crew : ∃ k w, t.crew? c.ref.w.crew = some k ∧ k.warp? c.ref.w.warp = some w ∧ BarsBecome c k (leftBy c.ref.w.warp) ∧ w.live = 0 ∧
    ∃ extra, w = { exitedWarp s c extra c.warp with strands := w.strands }
  cmds : t.cmds = if s.hasOpen c.ref.w then
    updIf (fun x => x.warp == some c.ref.w && x.batch.isNone) (fun x => { x with batch := some c.t.core.batchn }) s.cmds else s.cmds
  told : ∀ (d : Cur) (sx : SReg) (a : W64) (limit since : Nat), s.curOf d.ref = some d → d.ref.w.crew = c.ref.w.crew →
    d.ref.w.warp ≠ c.ref.w.warp → d.ref.strand < 4 → d.t.wait = .wfuse sx a limit since → d.warp.splits ≠ [] →
    (∀ x ∈ d.crew.warps, x.id % 2 ^ (4 + d.warp.splits.length) = siblingOf d % 2 ^ (4 + d.warp.splits.length) →
      x.exited = true ∨ x.id = c.ref.w.warp) → Told d sx t

theorem warpGone_of {extra : StrandCore → Nat} (h : Emptied s c (exitedWarp s c extra) t) (hc : s.curOf c.ref = some c)
    (hl : c.warp.live = 1) (ha : NoneActive s) (hm : Memory.wf c.crew.mem = true) (hs : SoundBars c)
    (hcmds : t.cmds = if s.hasOpen c.ref.w then
      updIf (fun x => x.warp == some c.ref.w && x.batch.isNone) (fun x => { x with batch := some c.t.core.batchn }) s.cmds
      else s.cmds) : WarpGone s c ((t.exitBars c.ref c.ref.w).tellSiblings c.ref.w.crew) := by
  have hstr := h.strand? hc hl
  have hat : NoneActive t := fun r x hx => by
    rw [hstr] at hx
    split at hx
    · cases hx
    · exact ha r x hx
  obtain ⟨hbars, hbk⟩ := exitBars_woken c.ref hat h.crew
  obtain ⟨htell, htk⟩ := tellSiblings_woken (t.exitBars c.ref c.ref.w) c.ref.w.crew
  obtain ⟨k1, hk1, hmem1, hwarp1⟩ := hbars.tables _ h.crew
  obtain ⟨k, hk, -, hwarp⟩ := htell.tables k1 hk1
  have hw0 : (updWarp c.ref.w.warp (exitedWarp s c extra) c.crew).warp? c.ref.w.warp = some (exitedWarp s c extra c.warp) := by
    have := h.warp hc
    rwa [State.warp?, h.crew, Option.bind_some] at this
  obtain ⟨w1, hw1, he1⟩ := hwarp1 _ _ hw0
  obtain ⟨w, hw, he⟩ := hwarp _ _ hw1
  refine ⟨?_, ⟨k, w, hk, hw, ?_, ?_, extra, by rw [he, he1]⟩, ?_, fun d sx a limit since hd hcrew hne hlt hwait hsp hx => ?_⟩
  · rw [htell.package, hbars.package, h.package]
  · have hbm := htk.trans hbk
    rw [crewBars, hk, Option.map_some] at hbm
    exact barsBecome_of hs hm (Option.some.inj hbm)
  · refine live_of_strand? fun i => ?_
    have hnone := htell.strand?_none (hbars.strand?_none (r := { w := c.ref.w, strand := i }) (by rw [hstr, if_pos rfl]))
    rwa [State.strand?, State.warp?, hk, Option.bind_some, hw, Option.bind_some] at hnone
  · rw [htell.package, hbars.package]
    exact hcmds
  · have hdw : d.ref.w ≠ c.ref.w := fun e => hne (congrArg WarpRef.warp e)
    have hshow := h.shows hd hcrew hdw
    have hfuse : ¬ AtBar d.t.wait := by
      rintro ⟨_, _, _, _, e⟩
      rw [hwait] at e
      cases e
    have hshow1 := hshow.woken (hcrew ▸ hbars) (hbars.strands d.ref d.t (by rw [hstr, if_neg hdw]; exact curOf_strand hd) hfuse)
    rw [← hcrew]
    refine tellSiblings_told hwait hlt hshow1 fun j v hj hv => ?_
    obtain rfl : k1 = j := Option.some.inj (hk1.symm.trans (hcrew ▸ hj))
    obtain ⟨e, he, -, hew⟩ := hshow1
    have hve : e.warp = v := by
      have hcur := curOf_warp he
      rw [show e.crew = k1 from Option.some.inj ((curOf_crew he).symm.trans hj), hv] at hcur
      exact (Option.some.inj hcur).symm
    refine sibExited_of (warp?_id hv) (by rw [← hve, hew]) hsp fun x hxk hmod => ?_
    obtain ⟨y, hy, hid, hex⟩ := hmem1 x hxk
    rw [← hex]
    have hdc : d.crew = c.crew := Option.some.inj ((curOf_crew hd).symm.trans (hcrew ▸ curOf_crew hc))
    exact updWarp_exited (p := fun i => i % 2 ^ (4 + d.warp.splits.length) = siblingOf d % 2 ^ (4 + d.warp.splits.length))
      (fun z hz hmod => hx z (hdc ▸ hz) hmod) y hy (hid.symm ▸ hmod)

theorem hasOpen_iff (s : State) (r : WarpRef) : s.hasOpen r = true ↔ ∃ x ∈ s.cmds, x.warp = some r ∧ x.batch = none := by
  simp [State.hasOpen]

theorem WarpGone.closed (h : WarpGone s c t) {k : Crew} {w : Warp} (hc : s.curOf c.ref = some c) (hl : c.warp.live = 1)
    (hk : t.crew? c.ref.w.crew = some k) (hw : k.warp? c.ref.w.warp = some w) : w.exited = true ∧ w.held = [] ∧
      ((∃ x ∈ s.cmds, x.warp = some c.ref.w ∧ x.batch = none) → ClosedInto s t c w c.t.core.batchn) ∧
      ((∀ x ∈ s.cmds, x.warp = some c.ref.w → x.batch ≠ none) → w.batches = c.warp.batches ∧ t.cmds = s.cmds) := by
  obtain ⟨k', w', hk', hw', -, -, extra, he⟩ := h.crew
  obtain rfl : k' = k := Option.some.inj (hk'.symm.trans hk)
  obtain rfl : w' = w := Option.some.inj (hw'.symm.trans hw)
  have hcmds := h.cmds
  rw [exitedWarp_last hc hl] at he
  refine ⟨by rw [he]; rfl, by rw [he]; rfl, fun hopen => ?_, fun hno => ?_⟩
  · rw [if_pos ((hasOpen_iff s c.ref.w).mpr hopen)] at he hcmds
    refine ⟨?_, by rw [he]; rfl, hcmds.trans (List.map_congr_left fun x _ => ?_)⟩
    · rw [he]
      simp [markExited, closeIn, Warp.leave]
    · simp
  · have hopen : ¬ s.hasOpen c.ref.w = true := fun ho => by
      obtain ⟨x, hx, hxw, hxb⟩ := (hasOpen_iff s c.ref.w).mp ho
      exact hno x hx hxw hxb
    rw [if_neg hopen] at he hcmds
    exact ⟨by rw [he]; rfl, hcmds⟩

theorem warpExits_rule : Rules.WarpExits := by
  intro s c h hlive hquiet hbars
  have ha := noneActive_of_quiet h.here h.alone hquiet
  have hm : Memory.wf c.crew.mem = true := by
    have hwf := hquiet.1
    rw [State.memWf, Bool.and_eq_true] at hwf
    exact List.all_eq_true.mp hwf.2 _ (List.mem_of_find?_eq_some (curOf_crew h.here))
  obtain ⟨extra, he⟩ := endStrand_eq h.here fun _ => barsBlocked_calm ha c.ref c.ref.w
  obtain ⟨t, hexit, hempt, hcmds⟩ := exitWarp_emptied h.here extra
  have hgone := warpGone_of hempt h.here hlive ha hm hbars hcmds
  obtain ⟨k, w, hk, hw, hbb, hwl, -⟩ := hgone.crew
  obtain ⟨hex, hheld, hopen, hno⟩ := hgone.closed h.here hlive hk hw
  refine ⟨_, k, w, ?_, ?_, ?_, hk, hw, hex, hheld, hwl, hbb, hopen, hno, hgone.told⟩
  · rw [exec_exiting h, he, if_pos (by omega), hexit]
    rfl
  · rw [hgone.package]
  · rw [hgone.package]

end

/-- Settles O20: JOIN and EXIT as control transfers; a strand's end by what its warp is once it has left, and a warp's end through
the barriers that it leaves and the siblings that it tells. -/
theorem joinAndExit : Obligations.JoinAndExit := ⟨joinAndExit_rule, strandEnds_rule, warpExits_rule⟩

end Sys2Proof.GroupProofs
